-- ==== Sys2Proof/Word.lean ====
section
/-! DEFINITION. The word types of the YQ8, the lane vector (R17, R89) and the finite map used for sparse data. -/

namespace Sys2Proof

/-- A 32-bit register lane (R89). -/
abbrev Word := BitVec 32
/-- A 64-bit value: a register pair, an address, a tick (R28, R208). -/
abbrev Dword := BitVec 64
/-- One byte of memory. -/
abbrev Byte := BitVec 8
/-- One bit for each of the 32 threads of a fibre (R17). -/
abbrev Mask := BitVec 32
/-- The 32 lanes of one register (R89). -/
abbrev LaneVec := Vector (BitVec 32) 32

/-- Sparse data by number: at most one entry for each key is looked at, the first. -/
abbrev Map (α : Type) := List (Nat × α)

namespace Map
variable {α : Type}

/-- The value at a key, if there is one. -/
def find (m : Map α) (k : Nat) : Option α := (m.find? (fun e => e.1 == k)).map (·.2)

/-- Removes a key. -/
def del (m : Map α) (k : Nat) : Map α := m.filter (fun e => e.1 != k)

/-- Sets the value at a key; the other keys keep theirs. -/
def set (m : Map α) (k : Nat) (v : α) : Map α :=
  match m with
  | [] => [(k, v)]
  | e :: r => if e.1 == k then (k, v) :: r else e :: set r k v

/-- Changes the value at a key, if there is one. -/
def modify (m : Map α) (k : Nat) (f : α → α) : Map α := m.map (fun e => if e.1 == k then (k, f e.2) else e)

/-- The keys held. -/
def keys (m : Map α) : List Nat := m.map (·.1)

/-- The value at a key, or a default. -/
def getD (m : Map α) (k : Nat) (d : α) : α := (find m k).getD d

end Map

/-- The lane vector that holds one word in every lane. -/
def splat (w : Word) : LaneVec := Vector.replicate 32 w

/-- The lane vector whose lane `i` is `f i`. -/
def lanes (f : Nat → Word) : LaneVec := ⟨((List.range 32).map f).toArray, by simp⟩

/-- One lane of a vector. -/
def lane (v : LaneVec) (i : Nat) : Word := v.toList.getD i 0

/-- The mask of all 32 threads. -/
def allLanes : Mask := BitVec.allOnes 32

/-- The numbers of the threads of a mask, in increasing order. -/
def lanesOf (m : Mask) : List Nat := (List.range 32).filter (fun i => m.getLsbD i)

/-- The lowest-numbered thread of a mask. -/
def lowest (m : Mask) : Option Nat := (lanesOf m).head?

/-- The mask of the threads that satisfy a test. -/
def maskOf (p : Nat → Bool) : Mask :=
  BitVec.ofNat 32 ((List.range 32).foldr (fun i n => (if p i then 1 else 0) + 2 * n) 0)

/-- The mask of one thread. -/
def oneLane (i : Nat) : Mask := 1#32 <<< i

end Sys2Proof
end

