-- ==== Sys2Proof/Syntax.lean ====
section
/-! DEFINITION. The instructions of the YQ8: one constructor for each row of the opcode table. A row that is a word of
the instruction set carries the word's operand fields (R24, R25, R41); a row that is an event of the package (chapter
"What each step holds") carries the names of the units and records it acts on. -/

namespace Sys2Proof

/-! ### Operand forms -/

/-- Guard and hints of a word (R33, R37): guard negate and predicate, delay, switch point Y and load wait LW. -/
structure Hdr where
  neg : Bool
  gp : BitVec 3
  delay : BitVec 3
  y : Bool
  lw : Bool
deriving Inhabited, DecidableEq, Repr

/-- The header every (!p7) word reads as: such a word is a no-op in every respect, its hints included (R34). -/
def Hdr.never : Hdr := ⟨true, 7, 0, false, false⟩

/-- A source field (R25): a register with its last-read bit, a bypass latch, or the I field as a literal. -/
inductive Src where
  | reg (n : BitVec 8) (last : Bool)
  | latch (n : BitVec 2)
  | imm (v : BitVec 32)
deriving Inhabited, DecidableEq, Repr

/-- The destination group of a capturing instruction (R30, R31). -/
inductive Dst where
  | reg (n : BitVec 8) (latch : BitVec 2)
  | latchOnly (latch : BitVec 2)
deriving Inhabited, DecidableEq, Repr

/-! ### Modifier kinds (R41) -/
/-- Rounding (R41). -/
inductive Rnd where
  | rne
  | rtz
  | rup
  | rdn
  | rto
deriving Inhabited, DecidableEq, Repr

/-- The code of each name. -/
def Rnd.bits : Rnd → BitVec 3
  | .rne => 0
  | .rtz => 1
  | .rup => 2
  | .rdn => 3
  | .rto => 4

/-- The name of a code, where it has one. -/
def Rnd.ofBits (b : BitVec 3) : Option Rnd :=
  match b.toNat with
  | 0 => some .rne
  | 1 => some .rtz
  | 2 => some .rup
  | 3 => some .rdn
  | 4 => some .rto
  | _ => none

/-- Scope (R41, R242). -/
inductive Scope where
  | fib
  | core
  | clus
  | die
  | pkg
  | dom
  | sys
deriving Inhabited, DecidableEq, Repr

/-- The code of each name. -/
def Scope.bits : Scope → BitVec 3
  | .fib => 0
  | .core => 1
  | .clus => 2
  | .die => 3
  | .pkg => 4
  | .dom => 5
  | .sys => 6

/-- The name of a code, where it has one. -/
def Scope.ofBits (b : BitVec 3) : Option Scope :=
  match b.toNat with
  | 0 => some .fib
  | 1 => some .core
  | 2 => some .clus
  | 3 => some .die
  | 4 => some .pkg
  | 5 => some .dom
  | 6 => some .sys
  | _ => none

/-- Access size (R41). -/
inductive Size where
  | s8
  | s16
  | s32
  | s64
  | s128
deriving Inhabited, DecidableEq, Repr

/-- The code of each name. -/
def Size.bits : Size → BitVec 3
  | .s8 => 0
  | .s16 => 1
  | .s32 => 2
  | .s64 => 3
  | .s128 => 4

/-- The name of a code, where it has one. -/
def Size.ofBits (b : BitVec 3) : Option Size :=
  match b.toNat with
  | 0 => some .s8
  | 1 => some .s16
  | 2 => some .s32
  | 3 => some .s64
  | 4 => some .s128
  | _ => none

/-- Format (R41). -/
inductive Fmt where
  | f32
  | bf16
  | f16
  | e4m3
  | e5m2
  | e2m1
  | mx4
  | ds8
deriving Inhabited, DecidableEq, Repr

/-- The code of each name. -/
def Fmt.bits : Fmt → BitVec 4
  | .f32 => 0
  | .bf16 => 1
  | .f16 => 2
  | .e4m3 => 3
  | .e5m2 => 4
  | .e2m1 => 5
  | .mx4 => 6
  | .ds8 => 7

/-- The name of a code, where it has one. -/
def Fmt.ofBits (b : BitVec 4) : Option Fmt :=
  match b.toNat with
  | 0 => some .f32
  | 1 => some .bf16
  | 2 => some .f16
  | 3 => some .e4m3
  | 4 => some .e5m2
  | 5 => some .e2m1
  | 6 => some .mx4
  | 7 => some .ds8
  | _ => none

/-- Which part of a product `IMUL` writes (R122). -/
inductive MulPart where
  | lo
  | hi
  | wide
deriving Inhabited, DecidableEq, Repr

/-- The code of each name. -/
def MulPart.bits : MulPart → BitVec 2
  | .lo => 0
  | .hi => 1
  | .wide => 2

/-- The name of a code, where it has one. -/
def MulPart.ofBits (b : BitVec 2) : Option MulPart :=
  match b.toNat with
  | 0 => some .lo
  | 1 => some .hi
  | 2 => some .wide
  | _ => none

/-- Integer comparison (R122). -/
inductive Cc where
  | eq
  | ne
  | lt
  | le
  | gt
  | ge
deriving Inhabited, DecidableEq, Repr

/-- The code of each name. -/
def Cc.bits : Cc → BitVec 3
  | .eq => 0
  | .ne => 1
  | .lt => 2
  | .le => 3
  | .gt => 4
  | .ge => 5

/-- The name of a code, where it has one. -/
def Cc.ofBits (b : BitVec 3) : Option Cc :=
  match b.toNat with
  | 0 => some .eq
  | 1 => some .ne
  | 2 => some .lt
  | 3 => some .le
  | 4 => some .gt
  | 5 => some .ge
  | _ => none

/-- Floating comparison (R142). -/
inductive FCc where
  | eq
  | ne
  | lt
  | le
  | gt
  | ge
  | un
  | num
deriving Inhabited, DecidableEq, Repr

/-- The code of each name. -/
def FCc.bits : FCc → BitVec 3
  | .eq => 0
  | .ne => 1
  | .lt => 2
  | .le => 3
  | .gt => 4
  | .ge => 5
  | .un => 6
  | .num => 7

/-- The name of a code, where it has one. -/
def FCc.ofBits (b : BitVec 3) : Option FCc :=
  match b.toNat with
  | 0 => some .eq
  | 1 => some .ne
  | 2 => some .lt
  | 3 => some .le
  | 4 => some .gt
  | 5 => some .ge
  | 6 => some .un
  | _ => some .num

/-- Mode of `VOTE` (R130). -/
inductive VoteMode where
  | all
  | any
  | eq
  | maj
deriving Inhabited, DecidableEq, Repr

/-- The code of each name. -/
def VoteMode.bits : VoteMode → BitVec 2
  | .all => 0
  | .any => 1
  | .eq => 2
  | .maj => 3

/-- The name of a code, where it has one. -/
def VoteMode.ofBits (b : BitVec 2) : Option VoteMode :=
  match b.toNat with
  | 0 => some .all
  | 1 => some .any
  | 2 => some .eq
  | _ => some .maj

/-- Mode of `SHFL` (R134). -/
inductive ShflMode where
  | pick
  | rot
  | sh
  | xor
  | rev
deriving Inhabited, DecidableEq, Repr

/-- The code of each name. -/
def ShflMode.bits : ShflMode → BitVec 3
  | .pick => 0
  | .rot => 1
  | .sh => 2
  | .xor => 3
  | .rev => 4

/-- The name of a code, where it has one. -/
def ShflMode.ofBits (b : BitVec 3) : Option ShflMode :=
  match b.toNat with
  | 0 => some .pick
  | 1 => some .rot
  | 2 => some .sh
  | 3 => some .xor
  | 4 => some .rev
  | _ => none

/-- Operation of a lane reduction or scan (R130). -/
inductive LaneOp where
  | add
  | min
  | max
  | and
  | or
  | xor
deriving Inhabited, DecidableEq, Repr

/-- The code of each name. -/
def LaneOp.bits : LaneOp → BitVec 3
  | .add => 0
  | .min => 1
  | .max => 2
  | .and => 3
  | .or => 4
  | .xor => 5

/-- The name of a code, where it has one. -/
def LaneOp.ofBits (b : BitVec 3) : Option LaneOp :=
  match b.toNat with
  | 0 => some .add
  | 1 => some .min
  | 2 => some .max
  | 3 => some .and
  | 4 => some .or
  | 5 => some .xor
  | _ => none

/-- Operation of an atomic (R265). -/
inductive AtomOp where
  | add
  | minS
  | minZ
  | maxS
  | maxZ
  | and
  | or
  | xor
  | exch
  | cas
  | fadd
deriving Inhabited, DecidableEq, Repr

/-- The code of each name. -/
def AtomOp.bits : AtomOp → BitVec 4
  | .add => 0
  | .minS => 1
  | .minZ => 2
  | .maxS => 3
  | .maxZ => 4
  | .and => 5
  | .or => 6
  | .xor => 7
  | .exch => 8
  | .cas => 9
  | .fadd => 10

/-- The name of a code, where it has one. -/
def AtomOp.ofBits (b : BitVec 4) : Option AtomOp :=
  match b.toNat with
  | 0 => some .add
  | 1 => some .minS
  | 2 => some .minZ
  | 3 => some .maxS
  | 4 => some .maxZ
  | 5 => some .and
  | 6 => some .or
  | 7 => some .xor
  | 8 => some .exch
  | 9 => some .cas
  | 10 => some .fadd
  | _ => none

/-- Ordering of an atomic (R263). -/
inductive Ord where
  | rlx
  | acq
  | rel
  | ar
deriving Inhabited, DecidableEq, Repr

/-- The code of each name. -/
def Ord.bits : Ord → BitVec 2
  | .rlx => 0
  | .acq => 1
  | .rel => 2
  | .ar => 3

/-- The name of a code, where it has one. -/
def Ord.ofBits (b : BitVec 2) : Option Ord :=
  match b.toNat with
  | 0 => some .rlx
  | 1 => some .acq
  | 2 => some .rel
  | _ => some .ar

/-- Cache hint of a load or store (R232). -/
inductive CacheHint where
  | plain
  | stream
  | byp
deriving Inhabited, DecidableEq, Repr

/-- The code of each name. -/
def CacheHint.bits : CacheHint → BitVec 2
  | .plain => 0
  | .stream => 1
  | .byp => 2

/-- The name of a code, where it has one. -/
def CacheHint.ofBits (b : BitVec 2) : Option CacheHint :=
  match b.toNat with
  | 0 => some .plain
  | 1 => some .stream
  | 2 => some .byp
  | _ => none

/-- Registers an access of this size names (R232): one up to 32 bits, a pair for 64, four for 128. -/
def Size.regs : Size → Nat
  | .s8 => 1
  | .s16 => 1
  | .s32 => 1
  | .s64 => 2
  | .s128 => 4

/-- Bytes of an access (R41). -/
def Size.bytes : Size → Nat
  | .s8 => 1
  | .s16 => 2
  | .s32 => 4
  | .s64 => 8
  | .s128 => 16

/-- The element formats of `FCVT` (R151). -/
def Fmt.isElem : Fmt → Bool
  | .mx4 => false
  | .ds8 => false
  | _ => true
/-- The 16-bit formats (R151). -/
def Fmt.is16 (f : Fmt) : Bool := f == .bf16 || f == .f16
/-- The formats `QSCALE` and `QNT` take (R151). -/
def Fmt.isQuant (f : Fmt) : Bool := f == .e4m3 || f == .e5m2 || f == .e2m1 || f == .ds8
/-- The formats `MRD` and `MSTT` take (R183, R185). -/
def Fmt.isTileRead (f : Fmt) : Bool := f == .f32 || f == .bf16 || f == .f16 || f == .e4m3 || f == .e5m2
/-- The formats `MSEND` takes (R186). -/
def Fmt.isStream (f : Fmt) : Bool := f == .f32 || f == .bf16 || f == .f16

/-! ### Names the event rows carry -/

/-- A fibre of the package: the number of its work-group in `State.wgs` and its place in the work-group (R17). -/
structure FibRef where
  wg : Nat
  fib : Nat
deriving Inhabited, DecidableEq, Repr

/-- Which barrier a phase belongs to (R103): its level, the group that shares it and its number. -/
inductive BarKey where
  | fib (wg slot id : Nat)
  | wgp (wg id : Nat)
  | clus (launch cluster id : Nat)
  | grid (launch : Nat)
deriving Inhabited, DecidableEq, Repr

/-- What the scrubber finds in a physical register (R230). -/
inductive ScrubFinding where
  | clean
  | singleBit
  | reservedBad (wg : Nat)
  | freeBad (reg : Nat)
deriving Inhabited, DecidableEq, Repr

/-- Where an uncorrectable memory error stands (R230). -/
inductive ErrorSite where
  | register (core wg : Nat)
  | scratch (core line : Nat)
  | l1 (core asid gen line word : Nat)
  | slot (core phys : Nat)
  | line (addr : Nat)
deriving Inhabited, DecidableEq, Repr

/-- A unit that can be retired (R434). -/
inductive UnitRef where
  | die (n : Nat)
  | core (n : Nat)
  | cluster (n : Nat)
  | l2Slice (n : Nat)
  | pseudoChannel (n : Nat)
  | uaLane (n : Nat)
deriving Inhabited, DecidableEq, Repr

/-- A frame that reaches a port (R315): whether its FCS is good, and its bytes without the preamble and the FCS. -/
structure MacFrame where
  good : Bool
  bytes : List Byte
deriving Inhabited, DecidableEq, Repr

/-- What a peer package asks of a line that this package owns (R219), or of its scheduler (R330, R349). -/
inductive ForwardKind where
  | load (bytes : Nat)
  | store
  | atomic (op : AtomOp) (x2 : Bool)
  /-- A completion event for a node (R330): the posting context and the reference. -/
  | decrement (ctx ref : Nat)
  /-- What `TEDGE`, `TSTAT` and `TREARM` of a context send (R349): a source and a target of an edge, a node to read, a node to re-arm
  or free. -/
  | edge (ctx src dst : Nat)
  | stat (ctx ref : Nat)
  | rearm (ctx ref : Nat) (free : Bool)
deriving Inhabited, DecidableEq, Repr

/-- What a trap knows when it is taken (R386, R388, R397): `mask` is the active mask of the trapping word, `aux` and
`w34` are record words 0x30 and 0x34, `resume` is where `RTT` continues. -/
structure TrapInfo where
  cause : Nat
  sub : Nat
  lane : Nat
  mask : BitVec 32
  pc : Nat
  addr : BitVec 64
  aux : BitVec 32
  w34 : BitVec 32
  word : BitVec 96
  after : Bool
  resume : Nat
  /-- The `SWP` that governs the word: its n (0: not governed), its address, and governed words retired (R396). -/
  govern : Nat
  swp : Nat
  retired : Nat
  /-- `TRAP.kill` (R386). -/
  kill : Bool
  /-- The threads of its issue group. -/
  group : BitVec 32
  race : List (BitVec 32)
deriving Inhabited, DecidableEq, Repr

/-! ### The instructions -/

/-- One constructor for each row of the opcode table. -/
inductive Instr where
  -- Class 0x0: control and fibre (R109)
  | nop (h : Hdr)
  | bra (h : Hdr) (off : BitVec 32)
  | brx (h : Hdr) (u : Bool) (a : Src)
  | call (h : Hdr) (d : BitVec 8) (off : BitVec 32)
  | callx (h : Hdr) (u : Bool) (d : BitVec 8) (a : Src)
  | ret (h : Hdr) (a : Src)
  | exit (h : Hdr)
  | swp (h : Hdr) (n : BitVec 2)
  | fyield (h : Hdr)
  | fbar (h : Hdr) (id : BitVec 2) (arv : Bool) (mask : BitVec 4)
  | wgbar (h : Hdr) (id : BitVec 3) (arv : Bool)
  | clbar (h : Hdr) (id : BitVec 1) (arv : Bool)
  | gbar (h : Hdr) (arv : Bool)
  | wrel (h : Hdr) (w : BitVec 2)
  | wacq (h : Hdr) (w : BitVec 2)
  -- Class 0x1: integer arithmetic (R122)
  | iadd (h : Hdr) (u : Bool) (d : Dst) (a : Src) (b : Src) (x2 : Bool)
  | isub (h : Hdr) (u : Bool) (d : Dst) (a : Src) (b : Src) (x2 : Bool)
  | iaddc (h : Hdr) (u : Bool) (d : Dst) (a : Src) (b : Src) (cin : BitVec 3) (cneg : Bool) (cout : BitVec 3)
  | imul (h : Hdr) (u : Bool) (d : Dst) (a : Src) (b : Src) (sgn : Bool) (part : MulPart)
  | imad (h : Hdr) (u : Bool) (d : Dst) (a : Src) (b : Src) (c : Src) (sgn : Bool) (wide : Bool)
  | imin (h : Hdr) (u : Bool) (d : Dst) (a : Src) (b : Src) (sgn : Bool)
  | imax (h : Hdr) (u : Bool) (d : Dst) (a : Src) (b : Src) (sgn : Bool)
  | iabs (h : Hdr) (u : Bool) (d : Dst) (a : Src) (sat : Bool)
  | ineg (h : Hdr) (u : Bool) (d : Dst) (a : Src) (x2 : Bool) (sat : Bool)
  | idiv (h : Hdr) (u : Bool) (d : Dst) (a : Src) (b : Src) (sgn : Bool) (x2 : Bool)
  | irem (h : Hdr) (u : Bool) (d : Dst) (a : Src) (b : Src) (sgn : Bool) (x2 : Bool)
  | icmp (h : Hdr) (u : Bool) (pd : BitVec 3) (a : Src) (b : Src) (sgn : Bool) (x2 : Bool) (cc : Cc)
  | iadds (h : Hdr) (u : Bool) (d : Dst) (a : Src) (b : Src) (sgn : Bool) (sub : Bool)
  | lea (h : Hdr) (u : Bool) (d : Dst) (a : Src) (b : Src) (sgn : Bool) (sh : BitVec 3)
  -- Class 0x2: logic, shift and bit-field (R125)
  | logic (h : Hdr) (u : Bool) (d : Dst) (a : Src) (b : Src) (c : Src) (lut : BitVec 8)
  | shl (h : Hdr) (u : Bool) (d : Dst) (a : Src) (b : Src) (x2 : Bool)
  | shr (h : Hdr) (u : Bool) (d : Dst) (a : Src) (b : Src) (sgn : Bool) (x2 : Bool)
  | rot (h : Hdr) (u : Bool) (d : Dst) (a : Src) (b : Src)
  | fsh (h : Hdr) (u : Bool) (d : Dst) (a : Src) (b : Src) (c : Src) (left : Bool)
  | popc (h : Hdr) (u : Bool) (d : Dst) (a : Src) (x2 : Bool)
  | clz (h : Hdr) (u : Bool) (d : Dst) (a : Src) (x2 : Bool)
  | ctz (h : Hdr) (u : Bool) (d : Dst) (a : Src) (x2 : Bool)
  | brev (h : Hdr) (u : Bool) (d : Dst) (a : Src) (x2 : Bool)
  | bfx (h : Hdr) (u : Bool) (d : Dst) (a : Src) (b : Src) (sgn : Bool)
  | bfi (h : Hdr) (u : Bool) (d : Dst) (a : Src) (b : Src) (c : Src)
  | prmt (h : Hdr) (u : Bool) (d : Dst) (a : Src) (b : Src) (c : Src)
  | sel (h : Hdr) (u : Bool) (d : Dst) (a : Src) (b : Src) (p : BitVec 3) (pneg : Bool)
  -- Class 0x3: predicate, lane, move (R130)
  | mov (h : Hdr) (u : Bool) (d : Dst) (a : Src) (x2 : Bool)
  | movi (h : Hdr) (u : Bool) (d : Dst) (sgn : Bool) (x2 : Bool) (imm : BitVec 32)
  | movs (h : Hdr) (u : Bool) (d : Dst) (sr : BitVec 8)
  | pset (h : Hdr) (u : Bool) (pd : BitVec 3) (pa : BitVec 3) (pb : BitVec 3) (pc : BitVec 3) (lut : BitVec 8)
  | pmov (h : Hdr) (u : Bool) (d : Dst)
  | pmovIn (h : Hdr) (u : Bool) (a : Src) (mask : BitVec 7)
  | ballot (h : Hdr) (d : Dst) (p : BitVec 3) (pneg : Bool) (cnt : Bool) (conv : Bool)
  | vote (h : Hdr) (pd : BitVec 3) (p : BitVec 3) (pneg : Bool) (mode : VoteMode) (conv : Bool)
  | shfl (h : Hdr) (d : Dst) (a : Src) (b : Src) (mode : ShflMode) (seg : BitVec 3) (zf : Bool) (conv : Bool)
  | matchx (h : Hdr) (d : Dst) (a : Src) (x2 : Bool) (low : Bool) (conv : Bool)
  | lredi (h : Hdr) (d : Dst) (a : Src) (sgn : Bool) (q : Bool) (op : LaneOp) (conv : Bool)
  | lscan (h : Hdr) (d : Dst) (a : Src) (sgn : Bool) (q : Bool) (excl : Bool) (op : LaneOp) (conv : Bool)
  | elect (h : Hdr) (pd : BitVec 3) (high : Bool) (conv : Bool)
  -- Class 0x4: FP32 arithmetic and lane reductions (R142)
  | fadd (h : Hdr) (u : Bool) (d : Dst) (a : Src) (b : Src) (rnd : Rnd) (sat : Bool)
  | fsub (h : Hdr) (u : Bool) (d : Dst) (a : Src) (b : Src) (rnd : Rnd) (sat : Bool)
  | fmul (h : Hdr) (u : Bool) (d : Dst) (a : Src) (b : Src) (rnd : Rnd) (sat : Bool)
  | ffma (h : Hdr) (u : Bool) (d : Dst) (a : Src) (b : Src) (c : Src) (rnd : Rnd) (sat : Bool)
  | fmin (h : Hdr) (u : Bool) (d : Dst) (a : Src) (b : Src)
  | fmax (h : Hdr) (u : Bool) (d : Dst) (a : Src) (b : Src)
  | fminn (h : Hdr) (u : Bool) (d : Dst) (a : Src) (b : Src)
  | fmaxn (h : Hdr) (u : Bool) (d : Dst) (a : Src) (b : Src)
  | fcmp (h : Hdr) (u : Bool) (pd : BitVec 3) (a : Src) (b : Src) (cc : FCc)
  | fabs (h : Hdr) (u : Bool) (d : Dst) (a : Src)
  | fneg (h : Hdr) (u : Bool) (d : Dst) (a : Src)
  | fclass (h : Hdr) (u : Bool) (d : Dst) (a : Src)
  | fdiv (h : Hdr) (u : Bool) (d : Dst) (a : Src) (b : Src) (rnd : Rnd)
  | fsqrt (h : Hdr) (u : Bool) (d : Dst) (a : Src) (rnd : Rnd)
  | frcp (h : Hdr) (u : Bool) (d : Dst) (a : Src) (rnd : Rnd)
  | frsq (h : Hdr) (u : Bool) (d : Dst) (a : Src) (rnd : Rnd)
  | fexp2 (h : Hdr) (u : Bool) (d : Dst) (a : Src) (rnd : Rnd)
  | flog2 (h : Hdr) (u : Bool) (d : Dst) (a : Src) (rnd : Rnd)
  | fsin (h : Hdr) (u : Bool) (d : Dst) (a : Src) (rnd : Rnd)
  | fcos (h : Hdr) (u : Bool) (d : Dst) (a : Src) (rnd : Rnd)
  | ftanh (h : Hdr) (u : Bool) (d : Dst) (a : Src) (rnd : Rnd)
  | flredm (h : Hdr) (d : Dst) (a : Src) (max : Bool) (q : Bool) (conv : Bool)
  | flredmTile (h : Hdr) (d : Dst) (a : Src) (tile : BitVec 4) (max : Bool)
  | flsum (h : Hdr) (d : Dst) (a : Src) (rnd : Rnd) (q : Bool) (conv : Bool)
  | fscale (h : Hdr) (u : Bool) (d : Dst) (a : Src) (b : Src) (rnd : Rnd) (sat : Bool)
  -- Class 0x5: conversion, packed 16-bit, quantisation, bins (R151)
  | fcvt (h : Hdr) (u : Bool) (d : Dst) (a : Src) (rnd : Rnd) (sat : Bool) (fmt : Fmt)
  | fcvtWid (h : Hdr) (u : Bool) (d : Dst) (a : Src) (fmt : Fmt)
  | f2i (h : Hdr) (u : Bool) (d : Dst) (a : Src) (sgn : Bool) (x2 : Bool) (rnd : Rnd)
  | i2f (h : Hdr) (u : Bool) (d : Dst) (a : Src) (sgn : Bool) (x2 : Bool) (rnd : Rnd)
  | frnd (h : Hdr) (u : Bool) (d : Dst) (a : Src) (rnd : Rnd)
  | fpack (h : Hdr) (u : Bool) (d : Dst) (a : Src) (b : Src) (c : Src) (rnd : Rnd) (sat : Bool) (fmt : Fmt) (pos : BitVec 2)
  | funpk (h : Hdr) (u : Bool) (d : Dst) (a : Src) (idx : BitVec 3) (x2 : Bool) (fmt : Fmt)
  | hadd2 (h : Hdr) (u : Bool) (d : Dst) (a : Src) (b : Src) (rnd : Rnd) (sat : Bool) (fmt : Fmt)
  | hmul2 (h : Hdr) (u : Bool) (d : Dst) (a : Src) (b : Src) (rnd : Rnd) (sat : Bool) (fmt : Fmt)
  | hfma2 (h : Hdr) (u : Bool) (d : Dst) (a : Src) (b : Src) (c : Src) (rnd : Rnd) (sat : Bool) (fmt : Fmt)
  | hmin2 (h : Hdr) (u : Bool) (d : Dst) (a : Src) (b : Src) (num : Bool) (fmt : Fmt)
  | hmax2 (h : Hdr) (u : Bool) (d : Dst) (a : Src) (b : Src) (num : Bool) (fmt : Fmt)
  | qscale (h : Hdr) (u : Bool) (d : Dst) (a : Src) (fit : Bool) (fmt : Fmt)
  | qnt (h : Hdr) (u : Bool) (d : Dst) (a : Src) (b : Src) (c : Src) (rnd : Rnd) (sat : Bool) (fmt : Fmt) (pos : BitVec 3)
  | bincv (h : Hdr) (u : Bool) (d : Dst) (a : Src) (b : Src) (rnd : Rnd)
  | binadd (h : Hdr) (u : Bool) (d : Dst) (a : Src) (b : Src)
  | binfp (h : Hdr) (u : Bool) (d : Dst) (a : Src) (b : Src) (rnd : Rnd)
  -- Class 0x6: matrix issue (R177, R178)
  | mmaq (h : Hdr) (t : BitVec 4) (a : Src) (slot : BitVec 4) (asc : Bool) (sclast : Bool) (sc : BitVec 8) (la : BitVec 2) (lb : BitVec 2) (lc : BitVec 2) (wa : BitVec 2) (wb : BitVec 2) (wc : BitVec 2) (ta : Bool) (tb : Bool) (tc : Bool) (rnd : Rnd) (fa : Fmt) (fb : Fmt) (qoff : BitVec 3)
  | mmaqs (h : Hdr) (t : BitVec 4) (a : Src) (slot : BitVec 4) (asc : Bool) (la : BitVec 2) (lb : BitVec 2) (lc : BitVec 2) (wa : BitVec 2) (wb : BitVec 2) (wc : BitVec 2) (ta : Bool) (tb : Bool) (tc : Bool) (rnd : Rnd) (fa : Fmt) (fb : Fmt) (qoff : BitVec 3)
  | mzero (h : Hdr) (t : BitVec 4) (mon : Bool)
  | mrd (h : Hdr) (d : BitVec 8) (a : Src) (b : Src) (tile : BitVec 4) (rnd : Rnd) (sat : Bool) (fmt : Fmt)
  | mwr (h : Hdr) (t : BitVec 4) (a : Src) (b : Src) (c : Src)
  | mldt (h : Hdr) (t : BitVec 4) (a : Src) (off : BitVec 32)
  | mstt (h : Hdr) (t : BitVec 4) (a : Src) (rnd : Rnd) (sat : Bool) (fmt : Fmt) (off : BitVec 32)
  | msend (h : Hdr) (t : BitVec 4) (a : Src) (rnd : Rnd) (sat : Bool) (fmt : Fmt)
  | msync (h : Hdr) (wg : Bool)
  -- Class 0x7: matrix supply (R206)
  | mcfg (h : Hdr) (a : Src)
  | mcfgr (h : Hdr) (d : BitVec 8)
  | wload (h : Hdr) (a : Src) (slot : BitVec 4) (off : BitVec 32)
  | wdict (h : Hdr) (a : Src) (slot : BitVec 4)
  | wset (h : Hdr) (a : Src) (slot : BitVec 4)
  | wfree (h : Hdr) (slot : BitVec 4)
  | wqry (h : Hdr) (d : BitVec 8) (slot : BitVec 4)
  | mmon (h : Hdr) (d : BitVec 8) (tile : BitVec 4) (ctr : BitVec 2) (clr : Bool)
  -- Class 0x8: memory access (R232)
  | ld (h : Hdr) (u : Bool) (d : BitVec 8) (a : Src) (size : Size) (sgn : Bool) (hint : CacheHint) (off : BitVec 32)
  | st (h : Hdr) (a : Src) (b : Src) (size : Size) (hint : CacheHint) (off : BitVec 32)
  | lds (h : Hdr) (u : Bool) (d : BitVec 8) (a : Src) (size : Size) (sgn : Bool) (off : BitVec 32)
  | sts (h : Hdr) (a : Src) (b : Src) (size : Size) (off : BitVec 32)
  | ldc (h : Hdr) (u : Bool) (d : BitVec 8) (a : Src) (size : Size) (sgn : Bool) (useA : Bool) (off : BitVec 32)
  | pref (h : Hdr) (u : Bool) (a : Src) (l2 : Bool) (off : BitVec 32)
  | pres (h : Hdr) (pd : BitVec 3) (a : Src) (off : BitVec 32)
  | pclr (h : Hdr) (a : Src) (b : Src) (set : Bool) (off : BitVec 32)
  | cwb (h : Hdr) (a : Src) (all : Bool) (off : BitVec 32)
  | cinv (h : Hdr) (a : Src) (all : Bool) (off : BitVec 32)
  | lock (h : Hdr) (d : BitVec 8) (a : Src) (b : Src) (off : BitVec 32)
  | unlock (h : Hdr) (d : BitVec 8) (a : Src) (b : Src) (off : BitVec 32)
  -- Class 0x9: atomics, ordering, race checking (R263, R292)
  | atom (h : Hdr) (d : BitVec 8) (a : Src) (b : Src) (op : AtomOp) (x2 : Bool) (ord : Ord) (scope : Scope) (off : BitVec 32)
  | red (h : Hdr) (a : Src) (b : Src) (op : AtomOp) (x2 : Bool) (ord : Ord) (scope : Scope) (off : BitVec 32)
  | ldacq (h : Hdr) (d : BitVec 8) (a : Src) (size : Size) (sgn : Bool) (scope : Scope) (off : BitVec 32)
  | strel (h : Hdr) (a : Src) (b : Src) (size : Size) (scope : Scope) (off : BitVec 32)
  | fence (h : Hdr) (scope : Scope)
  | waitv (h : Hdr) (d : BitVec 8) (a : Src) (b : Src) (cc : Cc) (sgn : Bool) (x2 : Bool) (scope : Scope) (off : BitVec 32)
  | hbpub (h : Hdr) (a : Src) (scope : Scope) (off : BitVec 32)
  | hbjoin (h : Hdr) (d : BitVec 8) (a : Src) (scope : Scope) (off : BitVec 32)
  | racectlTrap (h : Hdr)
  | racectlReport (h : Hdr)
  | racectlOff (h : Hdr)
  | racectlOn (h : Hdr)
  | racectlRdun (h : Hdr) (d : BitVec 8)
  | racectlForget (h : Hdr) (a : Src) (b : Src) (off : BitVec 32)
  | hbclk (h : Hdr) (d : BitVec 8)
  | hbclkVec (h : Hdr) (d : BitVec 8) (a : Src)
  -- Class 0xA: asynchronous copy and network (R310)
  | cpyk (h : Hdr) (a : Src) (n : BitVec 5) (off : BitVec 32)
  | sbinit (h : Hdr) (a : Src) (b : Src) (off : BitVec 32)
  | sbadd (h : Hdr) (a : Src) (b : Src) (off : BitVec 32)
  | sbwait (h : Hdr) (a : Src) (b : Src) (off : BitVec 32)
  | sbtest (h : Hdr) (d : BitVec 8) (a : Src) (off : BitVec 32)
  | cpyres (h : Hdr) (a : Src) (off : BitVec 32)
  | nrxarm (h : Hdr) (d : BitVec 8) (a : Src) (ring : BitVec 4) (off : BitVec 32)
  | ntx (h : Hdr) (d : BitVec 8) (a : Src) (b : Src) (ts : Bool) (p1 : Bool) (off : BitVec 32)
  | ntsrSt (h : Hdr) (d : BitVec 8) (a : Src)
  | ntsrTick (h : Hdr) (d : BitVec 8) (a : Src)
  | ntsrPtp (h : Hdr) (d : BitVec 8) (a : Src)
  -- Class 0xB: task and launch (R348)
  | launch (h : Hdr) (d : BitVec 8) (a : Src) (off : BitVec 32)
  | tnode (h : Hdr) (d : BitVec 8) (a : Src) (off : BitVec 32)
  | tedge (h : Hdr) (d : BitVec 8) (a : Src) (b : Src)
  | tdone (h : Hdr) (a : Src)
  | tspawn (h : Hdr) (d : BitVec 8) (a : Src) (b : Src) (off : BitVec 32)
  | tstat (h : Hdr) (d : BitVec 8) (a : Src)
  | trearm (h : Hdr) (d : BitVec 8) (a : Src)
  | trearmFree (h : Hdr) (d : BitVec 8) (a : Src)
  -- Class 0xC: collective and sequencer (R365, R383)
  | cred (h : Hdr) (d : BitVec 8) (a : Src) (off : BitVec 32)
  | crsc (h : Hdr) (d : BitVec 8) (a : Src) (off : BitVec 32)
  | cagt (h : Hdr) (d : BitVec 8) (a : Src) (off : BitVec 32)
  | cbct (h : Hdr) (d : BitVec 8) (a : Src) (off : BitVec 32)
  | cwait (h : Hdr) (d : BitVec 8) (a : Src)
  | cstat (h : Hdr) (d : BitVec 8) (a : Src) (what : BitVec 2)
  | sqtab (h : Hdr) (d : BitVec 8) (a : Src) (tab : BitVec 4) (off : BitVec 32)
  | sqdef (h : Hdr) (d : BitVec 8) (a : Src) (off : BitVec 32)
  | sqgo (h : Hdr) (d : BitVec 8) (a : Src)
  | sqstat (h : Hdr) (d : BitVec 8) (a : Src) (b : Src) (what : BitVec 3)
  | sqabt (h : Hdr) (d : BitVec 8) (a : Src) (free : Bool)
  -- Class 0xD: system and trap (R409)
  | trap (h : Hdr) (code : BitVec 16) (kill : Bool)
  | rtt (h : Hdr)
  | rttSkip (h : Hdr)
  | sets (h : Hdr) (sr : BitVec 8) (a : Src)
  | ychk (h : Hdr) (d : BitVec 8)
  | wgsave (h : Hdr) (d : BitVec 8) (a : Src) (b : Src) (off : BitVec 32)
  | ecnt (h : Hdr) (d : BitVec 8)
  | tlbinvPage (h : Hdr) (a : Src) (b : Src)
  | tlbinvAsid (h : Hdr) (b : Src)
  | tlbinvAll (h : Hdr)
  | asidnew (h : Hdr) (d : BitVec 8) (a : Src)
  | harvest (h : Hdr) (all : Bool)
  | logrdEnt (h : Hdr) (d : BitVec 8) (e : BitVec 3) (w : BitVec 4)
  | logrdG (h : Hdr) (d : BitVec 8) (n : BitVec 4)
  | logrdPut (h : Hdr) (a : Src) (n : BitVec 4)
  -- Class 0xE: debug and trace (R419)
  | bkpt (h : Hdr) (code : BitVec 16)
  | tick (h : Hdr) (d : BitVec 8)
  | ptprd (h : Hdr) (d : BitVec 8)
  | stallrd (h : Hdr) (d : BitVec 8) (i : BitVec 4) (clr : Bool)
  | trace (h : Hdr) (a : Src) (tag : BitVec 16)
  | progrWg (h : Hdr) (d : BitVec 8)
  | progrPark (h : Hdr) (d : BitVec 8) (a : Src)
  -- Events of the package: each row of the table that is not a word, as one step of its own.
  | legacyBehaviour (neg : Bool) (gp : BitVec 3) (w : BitVec 96)
  | registerReturn (wg : Nat)
  | slotSwitch (core slot : Nat)
  | forcedSwitch (core slot : Nat)
  | fibreReady (r : FibRef)
  | barrierPhaseComplete (k : BarKey)
  | loadComplete (r : FibRef)
  | storeQueueDrain (r : FibRef)
  | mergingFill (core line : Nat)
  | l1WritebackTimer (core line : Nat)
  | replicaApply (n : Nat)
  | watchFire (r : FibRef)
  | watchRetry (r : FibRef)
  | relaunch (n : Nat)
  | quarterReady (core : Nat)
  | passOpen (core : Nat)
  | weightSlotLoad (core : Nat)
  | quarterCommit (core : Nat)
  | wloadComplete (core slot : Nat)
  | wloadFault (r : FibRef) (slot : BitVec 4) (addr : Dword) (sub : Nat)
  | copyCardStart (core card : Nat)
  | copyDelivery (core card : Nat)
  | copyComplete (core card : Nat)
  | copyFault (core card : Nat)
  | frameSent (die handle : Nat)
  | frameNodeDispatch (die node : Nat)
  | decrementArrival (n : Nat)
  | seedbedDispatch (die : Nat)
  | nodeComplete (die node : Nat)
  | launchStart (die : Nat)
  | workGroupAdmission (launch : Nat)
  | workGroupComplete (wg : Nat)
  | clusterRetire (launch : Nat)
  | launchComplete (launch : Nat)
  | laneTaskGather (die cluster : Nat)
  | collectiveNodeDispatch (die node : Nat)
  | streamRow (die op : Nat)
  | collectiveComplete (die op : Nat)
  | collectiveFault (die op reason : Nat)
  | sequenceStartNode (die node : Nat)
  | stageInputs (die place : Nat)
  | returnNodeDispatch (die node : Nat)
  | sequenceEnd (die place : Nat)
  | resumeWorkGroup (n : Nat)
  | deadlineExpiry (ctx : Nat)
  | contextFault (ctx : Nat) (kind : Nat)
  | preempted (ctx : Nat)
  | queueNoOperation (q : Nat)
  | queueLaunch (q : Nat)
  | queueNodeDecrement (q : Nat)
  | sample (die : Nat)
  -- Events that the package itself never asks for: they come from outside, or are parts of a step of their own.
  | issue (core port : Nat)
  | instructionFetch (r : FibRef)
  | trapEntry (r : FibRef) (t : TrapInfo)
  | collectiveRefused (die op reason : Nat)
  | scrub (core : Nat) (found : ScrubFinding)
  | uncorrectableError (site : ErrorSite)
  | frameReceive (die port : Nat) (frame : MacFrame)
  | linkDown (die port : Nat)
  | breakpointResume (r : FibRef)
  | breakpointKill (r : FibRef)
  | waitForGraph (ctx : Nat)
  | run (ctx : Nat)
  | preempt (ctx : Nat)
  | resume (ctx : Nat)
  | reset (ctx : Nat)
  | queueNotify (q : Nat) (tail : Word)
  | hostRingTailWrite (tail : Word)
  | hostAccess (off : Nat) (bytes : List Byte) (write : Bool)
  | controlRegisterWrite (off : Nat) (value : Dword) (size : Nat)
  | attest (nonce : List Byte)
  | setCap (watts : Nat)
  | retire (unit : UnitRef)
  | powerCapEnforce (drawn : Nat)
  | thermalLimit (die : Nat) (tenths : Nat)
  | thermalTrip (die : Nat) (tenths : Nat)
  | freezeTickWrite (value : Dword)
  | powerOn (verified : Bool)
  | forwardedAccess (kind : ForwardKind) (addr : Nat) (bytes : List Byte)
  | ualinkDomainJoinOrLeave (die : Nat) (pkg : Nat) (joins : Bool)
  | ethernetLinkChange (die port : Nat) (up : Bool)
  | ptpLock (locked : Bool)
  | msiXMasking (vector : Nat) (masked : Bool)
  | freezeReadOut
  | freezeN
  | freeze
  | observationPortRead
  | resetRelease
  | ptpSteering
  | dirtyWriteOut
deriving DecidableEq, Repr

end Sys2Proof
end

