-- ==== Sys2Proof/WellFormed.lean ====
section
/-! DEFINITION. Which instructions have an encoding (R25 to R31, R36, R41 and the encoding table of each class). -/

namespace Sys2Proof

/-- A guard and hints that some word carries: (!p7) is not a guard of any instruction but the no-op (R34). -/
def Hdr.wf (h : Hdr) : Bool := !(h.neg && h.gp == 7)

/-- A source that has an encoding: `w` registers from a multiple of `w`, the selector where the word allows it, a
latch where the position allows it and is a single register (R25, R28). -/
def Src.ok (w : Nat) (sel latchOk : Bool) : Src → Bool
  | .reg n _ => n.toNat % w == 0
  | .latch _ => latchOk && w == 1
  | .imm _ => sel

/-- A destination group that has an encoding (R28, R30). -/
def Dst.ok (w : Nat) : Dst → Bool
  | .reg n _ => n.toNat % w == 0
  | .latchOnly _ => true

/-- Whether a source is the immediate selector. -/
def Src.isImm : Src → Bool
  | .imm _ => true
  | _ => false

/-- At most one source of a word uses the selector (R25). -/
def oneImm (l : List Src) : Bool := (l.filter Src.isImm).length ≤ 1

/-- The register a source names, 0 for the other forms. -/
def Src.num : Src → BitVec 8
  | .reg n _ => n
  | _ => 0

/-- Whether a source names a register. -/
def Src.isReg : Src → Bool
  | .reg _ _ => true
  | _ => false

/-- `LOGIC`'s table depends on A (R126). -/
def lutUsesA (lut : BitVec 8) : Bool := (lut ^^^ (lut >>> 4)) &&& 0x0F != 0
/-- `LOGIC`'s table depends on B (R126). -/
def lutUsesB (lut : BitVec 8) : Bool := (lut ^^^ (lut >>> 2)) &&& 0x33 != 0
/-- `LOGIC`'s table depends on C (R126). -/
def lutUsesC (lut : BitVec 8) : Bool := (lut ^^^ (lut >>> 1)) &&& 0x55 != 0

/-- Formats and positions of `FPACK` (R151). -/
def packOk (f : Fmt) (pos : Nat) : Bool :=
  match f with
  | .bf16 => pos == 0
  | .f16 => pos == 0
  | .e4m3 => pos ≤ 1
  | .e5m2 => pos ≤ 1
  | .e2m1 => pos ≤ 3
  | _ => false

/-- Formats and indices of `FUNPK` (R151). -/
def unpkOk (f : Fmt) (idx : Nat) (x2 : Bool) : Bool :=
  (!x2 || idx % 2 == 0) &&
  match f with
  | .bf16 => idx ≤ 1
  | .f16 => idx ≤ 1
  | .e4m3 => idx ≤ 3
  | .e5m2 => idx ≤ 3
  | .ds8 => idx ≤ 3
  | .e2m1 => idx ≤ 7
  | _ => false

/-- Formats and positions of `QNT` (R151). -/
def qntOk (f : Fmt) (pos : Nat) : Bool :=
  match f with
  | .e4m3 => pos ≤ 3
  | .e5m2 => pos ≤ 3
  | .ds8 => pos ≤ 3
  | .e2m1 => pos ≤ 7
  | _ => false

/-- The pairings of A and B formats (R161). -/
def mmaPair (fa fb : Fmt) : Bool :=
  match fa with
  | .bf16 => fb == .bf16
  | .f16 => fb == .f16
  | .e4m3 => fb == .e4m3 || fb == .e5m2 || fb == .ds8
  | .e5m2 => fb == .e4m3 || fb == .e5m2 || fb == .ds8
  | .e2m1 => fb == .e2m1 || fb == .mx4 || fb == .ds8
  | .mx4 => fb == .e2m1 || fb == .mx4 || fb == .ds8
  | _ => false

/-- The pass depth K of a pairing (R161). -/
def mmaDepth (fa fb : Fmt) : Nat :=
  match fa with
  | .bf16 => 64
  | .f16 => 64
  | .e2m1 => 256
  | .mx4 => 256
  | _ => if fb == .ds8 then 256 else 128

/-- The registers n_A that hold one A row of a pairing (R161). -/
def mmaRegs (fa fb : Fmt) : Nat :=
  match fa with
  | .e4m3 => if fb == .ds8 then 64 else 32
  | .e5m2 => if fb == .ds8 then 64 else 32
  | _ => 32

/-- Which A formats may, must or may not carry row scales (R162). -/
def ascOk (fa : Fmt) (asc : Bool) : Bool :=
  match fa with
  | .mx4 => asc
  | .e4m3 => true
  | .e5m2 => true
  | _ => !asc

/-- The special registers `MOVS` reads (R131, R225, R433). -/
def sregReadable (n : BitVec 8) : Bool := n.toNat ≤ 0x11
/-- The special registers `SETS` writes (R410). -/
def sregWritable (n : BitVec 8) : Bool := n == 0x02 || n == 0x09 || n == 0x0A || n == 0x10

/-- An instruction that has an encoding. The event rows have none: they are no words of the instruction set. -/
def Instr.wf : Instr → Bool
  | .nop h => (h.wf || h == Hdr.never)
  | .bra h _ => h.wf
  | .brx h _ a => h.wf && a.ok 2 false false
  | .call h d _ => h.wf && d.toNat % 2 == 0
  | .callx h _ d a => h.wf && d.toNat % 2 == 0 && a.ok 2 false false
  | .ret h a => h.wf && a.ok 2 false false
  | .exit h => h.wf
  | .swp h n => h.wf && (n != 0)
  | .fyield h => h.wf
  | .fbar h _ _ _ => h.wf
  | .wgbar h _ _ => h.wf
  | .clbar h _ _ => h.wf
  | .gbar h _ => h.wf
  | .wrel h _ => h.wf
  | .wacq h _ => h.wf
  | .iadd h _ d a b x2 => h.wf && d.ok (if x2 then 2 else 1) && a.ok (if x2 then 2 else 1) true true && b.ok (if x2 then 2 else 1) true true && oneImm [a, b]
  | .isub h _ d a b x2 => h.wf && d.ok (if x2 then 2 else 1) && a.ok (if x2 then 2 else 1) true true && b.ok (if x2 then 2 else 1) true true && oneImm [a, b]
  | .iaddc h _ _ a b _ _ _ => h.wf && a.ok 1 true true && b.ok 1 true true && oneImm [a, b]
  | .imul h _ d a b _ part => h.wf && d.ok (if part = MulPart.wide then 2 else 1) && a.ok 1 true true && b.ok 1 true true && oneImm [a, b]
  | .imad h _ d a b c _ wide => h.wf && d.ok (if wide then 2 else 1) && a.ok 1 false true && b.ok 1 false true && c.ok (if wide then 2 else 1) false true
  | .imin h _ _ a b _ => h.wf && a.ok 1 true true && b.ok 1 true true && oneImm [a, b]
  | .imax h _ _ a b _ => h.wf && a.ok 1 true true && b.ok 1 true true && oneImm [a, b]
  | .iabs h _ _ a _ => h.wf && a.ok 1 true true
  | .ineg h _ d a x2 _ => h.wf && d.ok (if x2 then 2 else 1) && a.ok (if x2 then 2 else 1) true true
  | .idiv h _ d a b _ x2 => h.wf && d.ok (if x2 then 2 else 1) && a.ok (if x2 then 2 else 1) true true && b.ok (if x2 then 2 else 1) true true && oneImm [a, b]
  | .irem h _ d a b _ x2 => h.wf && d.ok (if x2 then 2 else 1) && a.ok (if x2 then 2 else 1) true true && b.ok (if x2 then 2 else 1) true true && oneImm [a, b]
  | .icmp h _ _ a b _ x2 _ => h.wf && a.ok (if x2 then 2 else 1) true true && b.ok (if x2 then 2 else 1) true true && oneImm [a, b]
  | .iadds h _ _ a b _ _ => h.wf && a.ok 1 true true && b.ok 1 true true && oneImm [a, b]
  | .lea h _ d a b _ _ => h.wf && d.ok 2 && a.ok 2 true true && b.ok 1 true true && oneImm [a, b]
  | .logic h _ _ a b c lut => h.wf && a.ok 1 false true && b.ok 1 false true && c.ok 1 false true && (lutUsesA lut || a == Src.reg 0 false) && (lutUsesB lut || b == Src.reg 0 false) && (lutUsesC lut || c == Src.reg 0 false)
  | .shl h _ d a b x2 => h.wf && d.ok (if x2 then 2 else 1) && a.ok (if x2 then 2 else 1) true true && b.ok 1 true true && oneImm [a, b]
  | .shr h _ d a b _ x2 => h.wf && d.ok (if x2 then 2 else 1) && a.ok (if x2 then 2 else 1) true true && b.ok 1 true true && oneImm [a, b]
  | .rot h _ _ a b => h.wf && a.ok 1 true true && b.ok 1 true true && oneImm [a, b]
  | .fsh h _ _ a b c _ => h.wf && a.ok 1 false true && b.ok 1 false true && c.ok 1 false true
  | .popc h _ _ a x2 => h.wf && a.ok (if x2 then 2 else 1) true true
  | .clz h _ _ a x2 => h.wf && a.ok (if x2 then 2 else 1) true true
  | .ctz h _ _ a x2 => h.wf && a.ok (if x2 then 2 else 1) true true
  | .brev h _ d a x2 => h.wf && d.ok (if x2 then 2 else 1) && a.ok (if x2 then 2 else 1) true true
  | .bfx h _ _ a b _ => h.wf && a.ok 1 true true && b.ok 1 true true && oneImm [a, b]
  | .bfi h _ _ a b c => h.wf && a.ok 1 true true && b.ok 1 true true && c.ok 1 true true && oneImm [a, b, c]
  | .prmt h _ _ a b c => h.wf && a.ok 1 true true && b.ok 1 true true && c.ok 1 true true && oneImm [a, b, c]
  | .sel h _ _ a b _ _ => h.wf && a.ok 1 true true && b.ok 1 true true && oneImm [a, b]
  | .mov h _ d a x2 => h.wf && d.ok (if x2 then 2 else 1) && a.ok (if x2 then 2 else 1) true true
  | .movi h _ d _ x2 _ => h.wf && d.ok (if x2 then 2 else 1)
  | .movs h _ _ sr => h.wf && (sregReadable sr)
  | .pset h _ _ _ _ _ _ => h.wf
  | .pmov h _ _ => h.wf
  | .pmovIn h _ a _ => h.wf && a.ok 1 false true
  | .ballot h _ _ _ _ _ => h.wf
  | .vote h _ _ _ _ _ => h.wf
  | .shfl h _ a b mode seg zf _ => h.wf && a.ok 1 true true && b.ok 1 true true && oneImm [a, b] && (seg.toNat ≤ 5) && (!zf || mode == ShflMode.sh) && (mode != ShflMode.rev || b == Src.reg 0 false)
  | .matchx h _ a x2 _ _ => h.wf && a.ok (if x2 then 2 else 1) true true
  | .lredi h _ a _ _ _ _ => h.wf && a.ok 1 true true
  | .lscan h _ a _ _ _ _ _ => h.wf && a.ok 1 true true
  | .elect h _ _ _ => h.wf
  | .fadd h _ _ a b _ _ => h.wf && a.ok 1 true true && b.ok 1 true true && oneImm [a, b]
  | .fsub h _ _ a b _ _ => h.wf && a.ok 1 true true && b.ok 1 true true && oneImm [a, b]
  | .fmul h _ _ a b _ _ => h.wf && a.ok 1 true true && b.ok 1 true true && oneImm [a, b]
  | .ffma h _ _ a b c _ _ => h.wf && a.ok 1 false true && b.ok 1 false true && c.ok 1 false true
  | .fmin h _ _ a b => h.wf && a.ok 1 true true && b.ok 1 true true && oneImm [a, b]
  | .fmax h _ _ a b => h.wf && a.ok 1 true true && b.ok 1 true true && oneImm [a, b]
  | .fminn h _ _ a b => h.wf && a.ok 1 true true && b.ok 1 true true && oneImm [a, b]
  | .fmaxn h _ _ a b => h.wf && a.ok 1 true true && b.ok 1 true true && oneImm [a, b]
  | .fcmp h _ _ a b _ => h.wf && a.ok 1 true true && b.ok 1 true true && oneImm [a, b]
  | .fabs h _ _ a => h.wf && a.ok 1 true true
  | .fneg h _ _ a => h.wf && a.ok 1 true true
  | .fclass h _ _ a => h.wf && a.ok 1 true true
  | .fdiv h _ _ a b _ => h.wf && a.ok 1 true true && b.ok 1 true true && oneImm [a, b]
  | .fsqrt h _ _ a _ => h.wf && a.ok 1 true true
  | .frcp h _ _ a _ => h.wf && a.ok 1 true true
  | .frsq h _ _ a _ => h.wf && a.ok 1 true true
  | .fexp2 h _ _ a _ => h.wf && a.ok 1 true true
  | .flog2 h _ _ a _ => h.wf && a.ok 1 true true
  | .fsin h _ _ a _ => h.wf && a.ok 1 true true
  | .fcos h _ _ a _ => h.wf && a.ok 1 true true
  | .ftanh h _ _ a _ => h.wf && a.ok 1 true true
  | .flredm h d a _ _ _ => h.wf && d.ok 2 && a.ok 1 true true
  | .flredmTile h d a _ _ => h.wf && d.ok 2 && a.ok 1 false true
  | .flsum h _ a _ _ _ => h.wf && a.ok 1 true true
  | .fscale h _ _ a b _ _ => h.wf && a.ok 1 true true && b.ok 1 true true && oneImm [a, b]
  | .fcvt h _ _ a _ _ fmt => h.wf && a.ok 1 false true && (fmt.isElem)
  | .fcvtWid h _ _ a fmt => h.wf && a.ok 1 false true && (fmt.isElem && fmt != Fmt.f32)
  | .f2i h _ d a _ x2 rnd => h.wf && d.ok (if x2 then 2 else 1) && a.ok 1 true true && (rnd != Rnd.rto)
  | .i2f h _ _ a _ x2 _ => h.wf && a.ok (if x2 then 2 else 1) true true
  | .frnd h _ _ a _ => h.wf && a.ok 1 true true
  | .fpack h _ _ a b c _ _ fmt pos => h.wf && a.ok 1 false true && b.ok 1 false true && c.ok 1 false true && (packOk fmt pos.toNat) && (!fmt.is16 || c == Src.reg 0 false)
  | .funpk h _ d a idx x2 fmt => h.wf && d.ok (if x2 then 2 else 1) && a.ok 1 false true && (unpkOk fmt idx.toNat x2)
  | .hadd2 h _ _ a b _ _ fmt => h.wf && a.ok 1 true true && b.ok 1 true true && oneImm [a, b] && (fmt.is16)
  | .hmul2 h _ _ a b _ _ fmt => h.wf && a.ok 1 true true && b.ok 1 true true && oneImm [a, b] && (fmt.is16)
  | .hfma2 h _ _ a b c _ _ fmt => h.wf && a.ok 1 false true && b.ok 1 false true && c.ok 1 false true && (fmt.is16)
  | .hmin2 h _ _ a b _ fmt => h.wf && a.ok 1 true true && b.ok 1 true true && oneImm [a, b] && (fmt.is16)
  | .hmax2 h _ _ a b _ fmt => h.wf && a.ok 1 true true && b.ok 1 true true && oneImm [a, b] && (fmt.is16)
  | .qscale h _ _ a _ fmt => h.wf && a.ok 1 true true && (fmt.isQuant)
  | .qnt h _ _ a b c rnd _ fmt pos => h.wf && a.ok 1 false true && b.ok 1 false true && c.ok 1 false true && (qntOk fmt pos.toNat) && (fmt != Fmt.ds8 || rnd != Rnd.rto)
  | .bincv h _ d a b rnd => h.wf && d.ok 2 && a.ok 1 true true && b.ok 1 true true && oneImm [a, b] && (rnd != Rnd.rto)
  | .binadd h _ d a b => h.wf && d.ok 2 && a.ok 2 true true && b.ok 2 true true && oneImm [a, b]
  | .binfp h _ _ a b rnd => h.wf && a.ok 2 true true && b.ok 1 true true && oneImm [a, b] && (rnd != Rnd.rto)
  | .mmaq h _ a _ asc sclast sc _ _ _ _ _ _ _ _ _ _ fa fb _ => h.wf && a.ok 1 false false && (mmaPair fa fb) && (ascOk fa asc) && (asc || (!sclast && sc == 0)) && (a.num.toNat + mmaRegs fa fb ≤ 256) && (!asc || mmaDepth fa fb != 256 || sc.getLsbD 0 == false)
  | .mmaqs h _ a _ asc _ _ _ _ _ _ _ _ _ _ fa fb _ => h.wf && a.ok 1 false true && (mmaPair fa fb) && (ascOk fa asc)
  | .mzero h _ _ => h.wf
  | .mrd h _ a b _ rnd sat fmt => h.wf && a.ok 1 false true && b.ok 1 false true && (fmt.isTileRead) && (fmt != Fmt.f32 || (rnd == Rnd.rne && !sat))
  | .mwr h _ a b c => h.wf && a.ok 1 true true && b.ok 1 true true && c.ok 1 true true && oneImm [a, b, c]
  | .mldt h _ a _ => h.wf && a.ok 1 false true
  | .mstt h _ a rnd sat fmt _ => h.wf && a.ok 1 false true && (fmt.isTileRead) && (fmt != Fmt.f32 || (rnd == Rnd.rne && !sat))
  | .msend h _ a _ _ fmt => h.wf && a.ok 1 true true && (fmt.isStream)
  | .msync h _ => h.wf
  | .mcfg h a => h.wf && a.ok 1 true true
  | .mcfgr h _ => h.wf
  | .wload h a _ _ => h.wf && a.ok 1 false true
  | .wdict h a _ => h.wf && a.ok 1 true true
  | .wset h a _ => h.wf && a.ok 1 true true
  | .wfree h _ => h.wf
  | .wqry h _ _ => h.wf
  | .mmon h _ _ ctr _ => h.wf && (ctr != 3)
  | .ld h _ d a size _ _ _ => h.wf && d.toNat % size.regs == 0 && a.ok 2 false false
  | .st h a b size _ _ => h.wf && a.ok 2 false false && b.ok size.regs false true
  | .lds h _ d a size _ _ => h.wf && d.toNat % size.regs == 0 && a.ok 1 false true
  | .sts h a b size _ => h.wf && a.ok 1 false true && b.ok size.regs false true
  | .ldc h _ d a size _ useA _ => h.wf && d.toNat % size.regs == 0 && a.ok 1 false true && (useA || a == Src.reg 0 false)
  | .pref h _ a _ _ => h.wf && a.ok 2 false false
  | .pres h _ a _ => h.wf && a.ok 1 false true
  | .pclr h a b _ _ => h.wf && a.ok 1 false true && b.ok 1 false true
  | .cwb h a all off => h.wf && a.ok 2 false false && (!all || (a == Src.reg 0 false && off == 0))
  | .cinv h a all off => h.wf && a.ok 2 false false && (!all || (a == Src.reg 0 false && off == 0))
  | .lock h _ a b _ => h.wf && a.ok 2 false false && b.ok 1 false true
  | .unlock h _ a b _ => h.wf && a.ok 2 false false && b.ok 1 false true
  | .atom h d a b op x2 _ _ _ => h.wf && d.toNat % (if x2 then 2 else 1) == 0 && a.ok 2 false false && b.ok ((if x2 then 2 else 1) * (if op = AtomOp.cas then 2 else 1)) false true && (op != AtomOp.fadd || !x2)
  | .red h a b op x2 ord _ _ => h.wf && a.ok 2 false false && b.ok ((if x2 then 2 else 1) * (if op = AtomOp.cas then 2 else 1)) false true && (op != AtomOp.fadd || !x2) && (op != AtomOp.exch && op != AtomOp.cas) && (ord != Ord.acq && ord != Ord.ar)
  | .ldacq h d a size _ _ _ => h.wf && d.toNat % size.regs == 0 && a.ok 2 false false && (size != Size.s128)
  | .strel h a b size _ _ => h.wf && a.ok 2 false false && b.ok size.regs false true && (size != Size.s128)
  | .fence h _ => h.wf
  | .waitv h d a b _ _ x2 _ _ => h.wf && d.toNat % (if x2 then 2 else 1) == 0 && a.ok 2 false false && b.ok (if x2 then 2 else 1) false true
  | .hbpub h a _ _ => h.wf && a.ok 2 false false
  | .hbjoin h _ a _ _ => h.wf && a.ok 2 false false
  | .racectlTrap h => h.wf
  | .racectlReport h => h.wf
  | .racectlOff h => h.wf
  | .racectlOn h => h.wf
  | .racectlRdun h d => h.wf && d.toNat % 2 == 0
  | .racectlForget h a b _ => h.wf && a.ok 2 false false && b.ok 1 false true
  | .hbclk h _ => h.wf
  | .hbclkVec h _ a => h.wf && a.ok 1 true true
  | .cpyk h a n _ => h.wf && a.ok 1 false true && (decide (1 ≤ n.toNat) && decide (n.toNat ≤ 16))
  | .sbinit h a b _ => h.wf && a.ok 1 false true && b.ok 1 false true
  | .sbadd h a b _ => h.wf && a.ok 1 false true && b.ok 1 false true
  | .sbwait h a b _ => h.wf && a.ok 1 false true && b.ok 1 false true
  | .sbtest h _ a _ => h.wf && a.ok 1 false true
  | .cpyres h a _ => h.wf && a.ok 1 false true
  | .nrxarm h _ a _ _ => h.wf && a.ok 1 false true
  | .ntx h _ a b _ _ _ => h.wf && a.ok 1 false true && b.ok 1 false true
  | .ntsrSt h _ a => h.wf && a.ok 1 true true
  | .ntsrTick h d a => h.wf && d.toNat % 2 == 0 && a.ok 1 true true
  | .ntsrPtp h d a => h.wf && d.toNat % 4 == 0 && a.ok 1 true true
  | .launch h _ a _ => h.wf && a.ok 2 false false
  | .tnode h _ a _ => h.wf && a.ok 1 false true
  | .tedge h _ a b => h.wf && a.ok 1 true true && b.ok 1 true true && oneImm [a, b]
  | .tdone h a => h.wf && a.ok 1 true true
  | .tspawn h _ a b _ => h.wf && a.ok 1 false true && b.ok 2 false false
  | .tstat h _ a => h.wf && a.ok 1 true true
  | .trearm h _ a => h.wf && a.ok 1 true true
  | .trearmFree h _ a => h.wf && a.ok 1 true true
  | .cred h _ a _ => h.wf && a.ok 1 false true
  | .crsc h _ a _ => h.wf && a.ok 1 false true
  | .cagt h _ a _ => h.wf && a.ok 1 false true
  | .cbct h _ a _ => h.wf && a.ok 1 false true
  | .cwait h _ a => h.wf && a.ok 1 true true
  | .cstat h _ a _ => h.wf && a.ok 1 false true
  | .sqtab h _ a _ _ => h.wf && a.ok 1 false true
  | .sqdef h _ a _ => h.wf && a.ok 1 false true
  | .sqgo h _ a => h.wf && a.ok 1 true true
  | .sqstat h _ a b what => h.wf && a.ok 1 false true && b.ok 1 false true && (what != 7)
  | .sqabt h _ a _ => h.wf && a.ok 1 true true
  | .trap h _ _ => h.wf
  | .rtt h => h.wf
  | .rttSkip h => h.wf
  | .sets h sr a => h.wf && a.ok 1 true true && (sregWritable sr)
  | .ychk h _ => h.wf
  | .wgsave h _ a b _ => h.wf && a.ok 2 false false && b.ok 1 false true
  | .ecnt h d => h.wf && d.toNat % 2 == 0
  | .tlbinvPage h a b => h.wf && a.ok 2 false false && b.ok 1 false true
  | .tlbinvAsid h b => h.wf && b.ok 1 false true
  | .tlbinvAll h => h.wf
  | .asidnew h _ a => h.wf && a.ok 1 true true
  | .harvest h _ => h.wf
  | .logrdEnt h _ _ w => h.wf && (w.toNat ≤ 9)
  | .logrdG h _ _ => h.wf
  | .logrdPut h a _ => h.wf && a.ok 1 false true
  | .bkpt h _ => h.wf
  | .tick h d => h.wf && d.toNat % 2 == 0
  | .ptprd h d => h.wf && d.toNat % 4 == 0
  | .stallrd h _ _ _ => h.wf
  | .trace h a _ => h.wf && a.ok 1 false true
  | .progrWg h _ => h.wf
  | .progrPark h d a => h.wf && d.toNat % 2 == 0 && a.ok 1 false true
  | .legacyBehaviour neg gp w => !(neg && gp == 7) && w.extractLsb' 92 4 == 15 && w.getLsbD 84 == neg && w.extractLsb' 81 3 == gp
  | .registerReturn _ => false
  | .slotSwitch _ _ => false
  | .forcedSwitch _ _ => false
  | .fibreReady _ => false
  | .barrierPhaseComplete _ => false
  | .loadComplete _ => false
  | .storeQueueDrain _ => false
  | .mergingFill _ _ => false
  | .l1WritebackTimer _ _ => false
  | .replicaApply _ => false
  | .watchFire _ => false
  | .watchRetry _ => false
  | .relaunch _ => false
  | .quarterReady _ => false
  | .passOpen _ => false
  | .weightSlotLoad _ => false
  | .quarterCommit _ => false
  | .wloadComplete _ _ => false
  | .wloadFault _ _ _ _ => false
  | .copyCardStart _ _ => false
  | .copyDelivery _ _ => false
  | .copyComplete _ _ => false
  | .copyFault _ _ => false
  | .frameSent _ _ => false
  | .frameNodeDispatch _ _ => false
  | .decrementArrival _ => false
  | .seedbedDispatch _ => false
  | .nodeComplete _ _ => false
  | .launchStart _ => false
  | .workGroupAdmission _ => false
  | .workGroupComplete _ => false
  | .clusterRetire _ => false
  | .launchComplete _ => false
  | .laneTaskGather _ _ => false
  | .collectiveNodeDispatch _ _ => false
  | .streamRow _ _ => false
  | .collectiveComplete _ _ => false
  | .collectiveFault _ _ _ => false
  | .sequenceStartNode _ _ => false
  | .stageInputs _ _ => false
  | .returnNodeDispatch _ _ => false
  | .sequenceEnd _ _ => false
  | .resumeWorkGroup _ => false
  | .deadlineExpiry _ => false
  | .contextFault _ _ => false
  | .preempted _ => false
  | .queueNoOperation _ => false
  | .queueLaunch _ => false
  | .queueNodeDecrement _ => false
  | .sample _ => false
  | .issue _ _ => false
  | .instructionFetch _ => false
  | .trapEntry _ _ => false
  | .collectiveRefused _ _ _ => false
  | .scrub _ _ => false
  | .uncorrectableError _ => false
  | .frameReceive _ _ _ => false
  | .linkDown _ _ => false
  | .breakpointResume _ => false
  | .breakpointKill _ => false
  | .waitForGraph _ => false
  | .run _ => false
  | .preempt _ => false
  | .resume _ => false
  | .reset _ => false
  | .queueNotify _ _ => false
  | .hostRingTailWrite _ => false
  | .hostAccess _ _ _ => false
  | .controlRegisterWrite _ _ _ => false
  | .attest _ => false
  | .setCap _ => false
  | .retire _ => false
  | .powerCapEnforce _ => false
  | .thermalLimit _ _ => false
  | .thermalTrip _ _ => false
  | .freezeTickWrite _ => false
  | .powerOn _ => false
  | .forwardedAccess _ _ _ => false
  | .ualinkDomainJoinOrLeave _ _ _ => false
  | .ethernetLinkChange _ _ _ => false
  | .ptpLock _ => false
  | .msiXMasking _ _ => false
  | .freezeReadOut => false
  | .freezeN => false
  | .freeze => false
  | .observationPortRead => false
  | .resetRelease => false
  | .ptpSteering => false
  | .dirtyWriteOut => false

/-- A well-formed instruction. -/
abbrev WellFormed (i : Instr) : Prop := i.wf = true

end Sys2Proof
end

