-- ==== Sys2Proof/Decode.lean ====
section
/-! DEFINITION. From the bits of a word to an instruction or a named rejection, and back (R23 to R42 and the encoding
table of each class). `decode` is total; a rejection is the subcode of R42. -/

namespace Sys2Proof

/-- The fields of a word (R24). -/
structure Fields where
  op : BitVec 10
  u : Bool
  neg : Bool
  gp : BitVec 3
  nw : Bool
  latch : BitVec 2
  d : BitVec 8
  a : BitVec 10
  b : BitVec 10
  c : BitVec 10
  delay : BitVec 3
  y : Bool
  lw : Bool
  zero : BitVec 3
  imm : BitVec 32
deriving DecidableEq, Repr

/-- The fields of a 96-bit word (R24). -/
def Fields.ofWord (w : BitVec 96) : Fields where
  op := w.extractLsb' 86 10
  u := w.getLsbD 85
  neg := w.getLsbD 84
  gp := w.extractLsb' 81 3
  nw := w.getLsbD 80
  latch := w.extractLsb' 78 2
  d := w.extractLsb' 70 8
  a := w.extractLsb' 60 10
  b := w.extractLsb' 50 10
  c := w.extractLsb' 40 10
  delay := w.extractLsb' 37 3
  y := w.getLsbD 36
  lw := w.getLsbD 35
  zero := w.extractLsb' 32 3
  imm := w.extractLsb' 0 32

/-- The 96-bit word of some fields (R24). -/
def Fields.toWord (f : Fields) : BitVec 96 :=
  (f.op ++ BitVec.ofBool f.u ++ BitVec.ofBool f.neg ++ f.gp ++ BitVec.ofBool f.nw ++ f.latch ++ f.d ++ f.a ++ f.b ++
    f.c ++ f.delay ++ BitVec.ofBool f.y ++ BitVec.ofBool f.lw ++ f.zero ++ f.imm).setWidth 96

/-- The fields of a word that has only a guard and hints. -/
def Fields.ofHdr (h : Hdr) : Fields :=
  ⟨0, false, h.neg, h.gp, false, 0, 0, 0, 0, 0, h.delay, h.y, h.lw, 0, 0⟩

/-- The guard and hints of a word (R33, R37). -/
def Fields.hdr (f : Fields) : Hdr := ⟨f.neg, f.gp, f.delay, f.y, f.lw⟩

/-- The destination group of a capturing word (R30). -/
def Fields.dst (f : Fields) : Dst := if f.nw then .latchOnly f.latch else .reg f.d f.latch

/-- The operand a source field names (R25). -/
def Fields.src (f : Fields) (x : BitVec 10) : Src :=
  match (x.extractLsb' 8 2).toNat with
  | 0 => .reg (x.extractLsb' 0 8) false
  | 1 => .reg (x.extractLsb' 0 8) true
  | 2 => .latch (x.extractLsb' 0 2)
  | _ => .imm f.imm

/-- Whether a source field is the immediate selector (R25). -/
def isSel (x : BitVec 10) : Bool := x.extractLsb' 8 2 == 3

/-- Whether two source fields use the selector (R25). -/
def twoSel (l : List (BitVec 10)) : Bool := 1 < (l.filter isSel).length

/-- A source field that is malformed in a position of `w` registers (R25, R28). -/
def badSrc (x : BitVec 10) (w : Nat) (sel latchOk : Bool) : Bool :=
  match (x.extractLsb' 8 2).toNat with
  | 0 => (x.extractLsb' 0 8).toNat % w != 0
  | 1 => (x.extractLsb' 0 8).toNat % w != 0
  | 2 => x.extractLsb' 2 6 != 0 || !(latchOk && w == 1)
  | _ => x.extractLsb' 0 8 != 0 || !sel

/-- The rules every word keeps, with the subcode of each (R27, R30, R31, R36): `cap` marks a capturing instruction, `u`
one on which U is permitted. -/
def Fields.common (f : Fields) (cap u : Bool) : List (Bool × Nat) :=
  [(f.zero != 0, 3), (f.u && !u, 6), (if cap then f.nw && f.d != 0 else f.nw || f.latch != 0, 7)]

/-- The lowest subcode of the broken rules, or the instruction (R42). -/
def verdict (l : List (Bool × Nat)) (i : Instr) : Except Nat Instr :=
  match (l.filter (·.1)).map (·.2) with
  | [] => .ok i
  | k :: r => .error (r.foldl min k)

/-- A destination group's NW bit. -/
def Dst.nw : Dst → Bool
  | .reg _ _ => false
  | .latchOnly _ => true
/-- A destination group's capture latch. -/
def Dst.latchNo : Dst → BitVec 2
  | .reg _ b => b
  | .latchOnly b => b
/-- A destination group's register number, zero where none is written. -/
def Dst.number : Dst → BitVec 8
  | .reg n _ => n
  | .latchOnly _ => 0

/-- A source's field (R25). -/
def Src.bits : Src → BitVec 10
  | .reg n last => (0#1 ++ BitVec.ofBool last ++ n).setWidth 10
  | .latch n => (2#2 ++ 0#6 ++ n).setWidth 10
  | .imm _ => 0x300

/-- The I field of a word whose sources may use the selector: the literal, zero where none is used. -/
def immOf : List Src → BitVec 32
  | [] => 0
  | .imm v :: _ => v
  | .reg _ _ :: r => immOf r
  | .latch _ :: r => immOf r

/-- The subcode of a word whose form code no row has: 4, or 3 where a field that is zero in every form is set (R42). -/
def badForm (l : List (Except Nat Instr)) : Nat :=
  if l.all (fun r => match r with | .ok _ => false | .error k => k == 3) then 3 else 4

/-! ### One decoder for each row -/

/-- NOP: opcode 0x000. -/
def decNop (f : Fields) : Except Nat Instr :=
  verdict (f.common false false ++ [(f.d != 0, 3), (f.a != 0, 3), (f.b != 0, 3), (f.c != 0, 3), (f.imm != 0, 3)]) (.nop f.hdr)

/-- BRA: opcode 0x001. -/
def decBra (f : Fields) : Except Nat Instr :=
  let off := f.imm
  verdict (f.common false false ++ [(f.d != 0, 3), (f.a != 0, 3), (f.b != 0, 3), (f.c != 0, 3)]) (.bra f.hdr off)

/-- BRX: opcode 0x002. -/
def decBrx (f : Fields) : Except Nat Instr :=
  let a := f.src f.a
  verdict (f.common false true ++ [(f.d != 0, 3), (badSrc f.a 2 false false, 5), (f.b != 0, 3), (f.c != 0, 3), (f.imm != 0, 3)]) (.brx f.hdr f.u a)

/-- CALL: opcode 0x003. -/
def decCall (f : Fields) : Except Nat Instr :=
  let d := f.d
  let off := f.imm
  verdict (f.common false false ++ [(f.d.toNat % 2 != 0, 5), (f.a != 0, 3), (f.b != 0, 3), (f.c != 0, 3)]) (.call f.hdr d off)

/-- CALLX: opcode 0x004. -/
def decCallx (f : Fields) : Except Nat Instr :=
  let d := f.d
  let a := f.src f.a
  verdict (f.common false true ++ [(f.d.toNat % 2 != 0, 5), (badSrc f.a 2 false false, 5), (f.b != 0, 3), (f.c != 0, 3), (f.imm != 0, 3)]) (.callx f.hdr f.u d a)

/-- RET: opcode 0x005. -/
def decRet (f : Fields) : Except Nat Instr :=
  let a := f.src f.a
  verdict (f.common false false ++ [(f.d != 0, 3), (badSrc f.a 2 false false, 5), (f.b != 0, 3), (f.c != 0, 3), (f.imm != 0, 3)]) (.ret f.hdr a)

/-- EXIT: opcode 0x006. -/
def decExit (f : Fields) : Except Nat Instr :=
  verdict (f.common false false ++ [(f.d != 0, 3), (f.a != 0, 3), (f.b != 0, 3), (f.c != 0, 3), (f.imm != 0, 3)]) (.exit f.hdr)

/-- SWP: opcode 0x007. -/
def decSwp (f : Fields) : Except Nat Instr :=
  let n := f.imm.extractLsb' 0 2
  verdict (f.common false false ++ [(f.d != 0, 3), (f.a != 0, 3), (f.b != 0, 3), (f.c != 0, 3), (f.imm &&& 0xfffffffc != 0, 3), (!(n != 0), 4)]) (.swp f.hdr n)

/-- FYIELD: opcode 0x008. -/
def decFyield (f : Fields) : Except Nat Instr :=
  verdict (f.common false false ++ [(f.d != 0, 3), (f.a != 0, 3), (f.b != 0, 3), (f.c != 0, 3), (f.imm != 0, 3)]) (.fyield f.hdr)

/-- FBAR: opcode 0x009. -/
def decFbar (f : Fields) : Except Nat Instr :=
  let id := f.imm.extractLsb' 0 2
  let arv := f.imm.getLsbD 2
  let mask := f.imm.extractLsb' 4 4
  verdict (f.common false false ++ [(f.d != 0, 3), (f.a != 0, 3), (f.b != 0, 3), (f.c != 0, 3), (f.imm &&& 0xffffff08 != 0, 3)]) (.fbar f.hdr id arv mask)

/-- WGBAR: opcode 0x00a. -/
def decWgbar (f : Fields) : Except Nat Instr :=
  let id := f.imm.extractLsb' 0 3
  let arv := f.imm.getLsbD 3
  verdict (f.common false false ++ [(f.d != 0, 3), (f.a != 0, 3), (f.b != 0, 3), (f.c != 0, 3), (f.imm &&& 0xfffffff0 != 0, 3)]) (.wgbar f.hdr id arv)

/-- CLBAR: opcode 0x00b. -/
def decClbar (f : Fields) : Except Nat Instr :=
  let id := f.imm.extractLsb' 0 1
  let arv := f.imm.getLsbD 3
  verdict (f.common false false ++ [(f.d != 0, 3), (f.a != 0, 3), (f.b != 0, 3), (f.c != 0, 3), (f.imm &&& 0xfffffff6 != 0, 3)]) (.clbar f.hdr id arv)

/-- GBAR: opcode 0x00c. -/
def decGbar (f : Fields) : Except Nat Instr :=
  let arv := f.imm.getLsbD 3
  verdict (f.common false false ++ [(f.d != 0, 3), (f.a != 0, 3), (f.b != 0, 3), (f.c != 0, 3), (f.imm &&& 0xfffffff7 != 0, 3)]) (.gbar f.hdr arv)

/-- WREL: opcode 0x00d. -/
def decWrel (f : Fields) : Except Nat Instr :=
  let w := f.imm.extractLsb' 0 2
  verdict (f.common false false ++ [(f.d != 0, 3), (f.a != 0, 3), (f.b != 0, 3), (f.c != 0, 3), (f.imm &&& 0xfffffffc != 0, 3)]) (.wrel f.hdr w)

/-- WACQ: opcode 0x00e. -/
def decWacq (f : Fields) : Except Nat Instr :=
  let w := f.imm.extractLsb' 0 2
  verdict (f.common false false ++ [(f.d != 0, 3), (f.a != 0, 3), (f.b != 0, 3), (f.c != 0, 3), (f.imm &&& 0xfffffffc != 0, 3)]) (.wacq f.hdr w)

/-- IADD: opcode 0x040. -/
def decIadd (f : Fields) : Except Nat Instr :=
  let x2 := f.c.getLsbD 1
  let d := f.dst
  let a := f.src f.a
  let b := f.src f.b
  verdict (f.common true true ++ [(f.d.toNat % (if x2 then 2 else 1) != 0, 5), (badSrc f.a (if x2 then 2 else 1) true true, 5), (badSrc f.b (if x2 then 2 else 1) true true, 5), (f.c &&& 0x3fd != 0, 3), (twoSel [f.a, f.b], 5), (f.imm != 0 && !(isSel f.a || isSel f.b), 3)]) (.iadd f.hdr f.u d a b x2)

/-- ISUB: opcode 0x041. -/
def decIsub (f : Fields) : Except Nat Instr :=
  let x2 := f.c.getLsbD 1
  let d := f.dst
  let a := f.src f.a
  let b := f.src f.b
  verdict (f.common true true ++ [(f.d.toNat % (if x2 then 2 else 1) != 0, 5), (badSrc f.a (if x2 then 2 else 1) true true, 5), (badSrc f.b (if x2 then 2 else 1) true true, 5), (f.c &&& 0x3fd != 0, 3), (twoSel [f.a, f.b], 5), (f.imm != 0 && !(isSel f.a || isSel f.b), 3)]) (.isub f.hdr f.u d a b x2)

/-- IADDC: opcode 0x042. -/
def decIaddc (f : Fields) : Except Nat Instr :=
  let cin := f.c.extractLsb' 0 3
  let cneg := f.c.getLsbD 3
  let cout := f.c.extractLsb' 4 3
  let d := f.dst
  let a := f.src f.a
  let b := f.src f.b
  verdict (f.common true true ++ [(badSrc f.a 1 true true, 5), (badSrc f.b 1 true true, 5), (f.c &&& 0x380 != 0, 3), (twoSel [f.a, f.b], 5), (f.imm != 0 && !(isSel f.a || isSel f.b), 3)]) (.iaddc f.hdr f.u d a b cin cneg cout)

/-- IMUL: opcode 0x043. -/
def decImul (f : Fields) : Except Nat Instr :=
  let sgn := f.c.getLsbD 0
  let partQ := MulPart.ofBits (f.c.extractLsb' 3 2)
  let part := partQ.getD default
  let d := f.dst
  let a := f.src f.a
  let b := f.src f.b
  verdict (f.common true true ++ [(partQ.isNone, 4), (f.d.toNat % (if part = MulPart.wide then 2 else 1) != 0, 5), (badSrc f.a 1 true true, 5), (badSrc f.b 1 true true, 5), (f.c &&& 0x3e6 != 0, 3), (twoSel [f.a, f.b], 5), (f.imm != 0 && !(isSel f.a || isSel f.b), 3)]) (.imul f.hdr f.u d a b sgn part)

/-- IMAD: opcode 0x044. -/
def decImad (f : Fields) : Except Nat Instr :=
  let sgn := f.imm.getLsbD 0
  let wide := f.imm.getLsbD 1
  let d := f.dst
  let a := f.src f.a
  let b := f.src f.b
  let c := f.src f.c
  verdict (f.common true true ++ [(f.d.toNat % (if wide then 2 else 1) != 0, 5), (badSrc f.a 1 false true, 5), (badSrc f.b 1 false true, 5), (badSrc f.c (if wide then 2 else 1) false true, 5), (f.imm &&& 0xfffffffc != 0, 3)]) (.imad f.hdr f.u d a b c sgn wide)

/-- IMIN: opcode 0x045. -/
def decImin (f : Fields) : Except Nat Instr :=
  let sgn := f.c.getLsbD 0
  let d := f.dst
  let a := f.src f.a
  let b := f.src f.b
  verdict (f.common true true ++ [(badSrc f.a 1 true true, 5), (badSrc f.b 1 true true, 5), (f.c &&& 0x3fe != 0, 3), (twoSel [f.a, f.b], 5), (f.imm != 0 && !(isSel f.a || isSel f.b), 3)]) (.imin f.hdr f.u d a b sgn)

/-- IMAX: opcode 0x046. -/
def decImax (f : Fields) : Except Nat Instr :=
  let sgn := f.c.getLsbD 0
  let d := f.dst
  let a := f.src f.a
  let b := f.src f.b
  verdict (f.common true true ++ [(badSrc f.a 1 true true, 5), (badSrc f.b 1 true true, 5), (f.c &&& 0x3fe != 0, 3), (twoSel [f.a, f.b], 5), (f.imm != 0 && !(isSel f.a || isSel f.b), 3)]) (.imax f.hdr f.u d a b sgn)

/-- IABS: opcode 0x047. -/
def decIabs (f : Fields) : Except Nat Instr :=
  let sat := f.c.getLsbD 2
  let d := f.dst
  let a := f.src f.a
  verdict (f.common true true ++ [(badSrc f.a 1 true true, 5), (f.b != 0, 3), (f.c &&& 0x3fb != 0, 3), (f.imm != 0 && !(isSel f.a), 3)]) (.iabs f.hdr f.u d a sat)

/-- INEG: opcode 0x048. -/
def decIneg (f : Fields) : Except Nat Instr :=
  let x2 := f.c.getLsbD 1
  let sat := f.c.getLsbD 2
  let d := f.dst
  let a := f.src f.a
  verdict (f.common true true ++ [(f.d.toNat % (if x2 then 2 else 1) != 0, 5), (badSrc f.a (if x2 then 2 else 1) true true, 5), (f.b != 0, 3), (f.c &&& 0x3f9 != 0, 3), (f.imm != 0 && !(isSel f.a), 3)]) (.ineg f.hdr f.u d a x2 sat)

/-- IDIV: opcode 0x049. -/
def decIdiv (f : Fields) : Except Nat Instr :=
  let sgn := f.c.getLsbD 0
  let x2 := f.c.getLsbD 1
  let d := f.dst
  let a := f.src f.a
  let b := f.src f.b
  verdict (f.common true true ++ [(f.d.toNat % (if x2 then 2 else 1) != 0, 5), (badSrc f.a (if x2 then 2 else 1) true true, 5), (badSrc f.b (if x2 then 2 else 1) true true, 5), (f.c &&& 0x3fc != 0, 3), (twoSel [f.a, f.b], 5), (f.imm != 0 && !(isSel f.a || isSel f.b), 3)]) (.idiv f.hdr f.u d a b sgn x2)

/-- IREM: opcode 0x04a. -/
def decIrem (f : Fields) : Except Nat Instr :=
  let sgn := f.c.getLsbD 0
  let x2 := f.c.getLsbD 1
  let d := f.dst
  let a := f.src f.a
  let b := f.src f.b
  verdict (f.common true true ++ [(f.d.toNat % (if x2 then 2 else 1) != 0, 5), (badSrc f.a (if x2 then 2 else 1) true true, 5), (badSrc f.b (if x2 then 2 else 1) true true, 5), (f.c &&& 0x3fc != 0, 3), (twoSel [f.a, f.b], 5), (f.imm != 0 && !(isSel f.a || isSel f.b), 3)]) (.irem f.hdr f.u d a b sgn x2)

/-- ICMP: opcode 0x04b. -/
def decIcmp (f : Fields) : Except Nat Instr :=
  let sgn := f.c.getLsbD 0
  let x2 := f.c.getLsbD 1
  let ccQ := Cc.ofBits (f.c.extractLsb' 4 3)
  let cc := ccQ.getD default
  let pd := f.d.extractLsb' 0 3
  let a := f.src f.a
  let b := f.src f.b
  verdict (f.common false true ++ [(ccQ.isNone, 4), (f.d.extractLsb' 3 5 != 0, 7), (badSrc f.a (if x2 then 2 else 1) true true, 5), (badSrc f.b (if x2 then 2 else 1) true true, 5), (f.c &&& 0x38c != 0, 3), (twoSel [f.a, f.b], 5), (f.imm != 0 && !(isSel f.a || isSel f.b), 3)]) (.icmp f.hdr f.u pd a b sgn x2 cc)

/-- IADDS: opcode 0x04c. -/
def decIadds (f : Fields) : Except Nat Instr :=
  let sgn := f.c.getLsbD 0
  let sub := f.c.getLsbD 2
  let d := f.dst
  let a := f.src f.a
  let b := f.src f.b
  verdict (f.common true true ++ [(badSrc f.a 1 true true, 5), (badSrc f.b 1 true true, 5), (f.c &&& 0x3fa != 0, 3), (twoSel [f.a, f.b], 5), (f.imm != 0 && !(isSel f.a || isSel f.b), 3)]) (.iadds f.hdr f.u d a b sgn sub)

/-- LEA: opcode 0x04d. -/
def decLea (f : Fields) : Except Nat Instr :=
  let sgn := f.c.getLsbD 0
  let sh := f.c.extractLsb' 4 3
  let d := f.dst
  let a := f.src f.a
  let b := f.src f.b
  verdict (f.common true true ++ [(f.d.toNat % 2 != 0, 5), (badSrc f.a 2 true true, 5), (badSrc f.b 1 true true, 5), (f.c &&& 0x38e != 0, 3), (twoSel [f.a, f.b], 5), (f.imm != 0 && !(isSel f.a || isSel f.b), 3)]) (.lea f.hdr f.u d a b sgn sh)

/-- LOGIC: opcode 0x080. -/
def decLogic (f : Fields) : Except Nat Instr :=
  let lut := f.imm.extractLsb' 0 8
  let d := f.dst
  let a := f.src f.a
  let b := f.src f.b
  let c := f.src f.c
  verdict (f.common true true ++ [(badSrc f.a 1 false true, 5), (badSrc f.b 1 false true, 5), (badSrc f.c 1 false true, 5), (f.imm &&& 0xffffff00 != 0, 3), (!((lutUsesA lut || a == Src.reg 0 false)), 3), (!((lutUsesB lut || b == Src.reg 0 false)), 3), (!((lutUsesC lut || c == Src.reg 0 false)), 3)]) (.logic f.hdr f.u d a b c lut)

/-- SHL: opcode 0x081. -/
def decShl (f : Fields) : Except Nat Instr :=
  let x2 := f.c.getLsbD 1
  let d := f.dst
  let a := f.src f.a
  let b := f.src f.b
  verdict (f.common true true ++ [(f.d.toNat % (if x2 then 2 else 1) != 0, 5), (badSrc f.a (if x2 then 2 else 1) true true, 5), (badSrc f.b 1 true true, 5), (f.c &&& 0x3fd != 0, 3), (twoSel [f.a, f.b], 5), (f.imm != 0 && !(isSel f.a || isSel f.b), 3)]) (.shl f.hdr f.u d a b x2)

/-- SHR: opcode 0x082. -/
def decShr (f : Fields) : Except Nat Instr :=
  let sgn := f.c.getLsbD 0
  let x2 := f.c.getLsbD 1
  let d := f.dst
  let a := f.src f.a
  let b := f.src f.b
  verdict (f.common true true ++ [(f.d.toNat % (if x2 then 2 else 1) != 0, 5), (badSrc f.a (if x2 then 2 else 1) true true, 5), (badSrc f.b 1 true true, 5), (f.c &&& 0x3fc != 0, 3), (twoSel [f.a, f.b], 5), (f.imm != 0 && !(isSel f.a || isSel f.b), 3)]) (.shr f.hdr f.u d a b sgn x2)

/-- ROT: opcode 0x083. -/
def decRot (f : Fields) : Except Nat Instr :=
  let d := f.dst
  let a := f.src f.a
  let b := f.src f.b
  verdict (f.common true true ++ [(badSrc f.a 1 true true, 5), (badSrc f.b 1 true true, 5), (f.c != 0, 3), (twoSel [f.a, f.b], 5), (f.imm != 0 && !(isSel f.a || isSel f.b), 3)]) (.rot f.hdr f.u d a b)

/-- FSH: opcode 0x084. -/
def decFsh (f : Fields) : Except Nat Instr :=
  let left := f.imm.getLsbD 0
  let d := f.dst
  let a := f.src f.a
  let b := f.src f.b
  let c := f.src f.c
  verdict (f.common true true ++ [(badSrc f.a 1 false true, 5), (badSrc f.b 1 false true, 5), (badSrc f.c 1 false true, 5), (f.imm &&& 0xfffffffe != 0, 3)]) (.fsh f.hdr f.u d a b c left)

/-- POPC: opcode 0x085. -/
def decPopc (f : Fields) : Except Nat Instr :=
  let x2 := f.c.getLsbD 1
  let d := f.dst
  let a := f.src f.a
  verdict (f.common true true ++ [(badSrc f.a (if x2 then 2 else 1) true true, 5), (f.b != 0, 3), (f.c &&& 0x3fd != 0, 3), (f.imm != 0 && !(isSel f.a), 3)]) (.popc f.hdr f.u d a x2)

/-- CLZ: opcode 0x086. -/
def decClz (f : Fields) : Except Nat Instr :=
  let x2 := f.c.getLsbD 1
  let d := f.dst
  let a := f.src f.a
  verdict (f.common true true ++ [(badSrc f.a (if x2 then 2 else 1) true true, 5), (f.b != 0, 3), (f.c &&& 0x3fd != 0, 3), (f.imm != 0 && !(isSel f.a), 3)]) (.clz f.hdr f.u d a x2)

/-- CTZ: opcode 0x087. -/
def decCtz (f : Fields) : Except Nat Instr :=
  let x2 := f.c.getLsbD 1
  let d := f.dst
  let a := f.src f.a
  verdict (f.common true true ++ [(badSrc f.a (if x2 then 2 else 1) true true, 5), (f.b != 0, 3), (f.c &&& 0x3fd != 0, 3), (f.imm != 0 && !(isSel f.a), 3)]) (.ctz f.hdr f.u d a x2)

/-- BREV: opcode 0x088. -/
def decBrev (f : Fields) : Except Nat Instr :=
  let x2 := f.c.getLsbD 1
  let d := f.dst
  let a := f.src f.a
  verdict (f.common true true ++ [(f.d.toNat % (if x2 then 2 else 1) != 0, 5), (badSrc f.a (if x2 then 2 else 1) true true, 5), (f.b != 0, 3), (f.c &&& 0x3fd != 0, 3), (f.imm != 0 && !(isSel f.a), 3)]) (.brev f.hdr f.u d a x2)

/-- BFX: opcode 0x089. -/
def decBfx (f : Fields) : Except Nat Instr :=
  let sgn := f.c.getLsbD 0
  let d := f.dst
  let a := f.src f.a
  let b := f.src f.b
  verdict (f.common true true ++ [(badSrc f.a 1 true true, 5), (badSrc f.b 1 true true, 5), (f.c &&& 0x3fe != 0, 3), (twoSel [f.a, f.b], 5), (f.imm != 0 && !(isSel f.a || isSel f.b), 3)]) (.bfx f.hdr f.u d a b sgn)

/-- BFI: opcode 0x08a. -/
def decBfi (f : Fields) : Except Nat Instr :=
  let d := f.dst
  let a := f.src f.a
  let b := f.src f.b
  let c := f.src f.c
  verdict (f.common true true ++ [(badSrc f.a 1 true true, 5), (badSrc f.b 1 true true, 5), (badSrc f.c 1 true true, 5), (twoSel [f.a, f.b, f.c], 5), (f.imm != 0 && !(isSel f.a || isSel f.b || isSel f.c), 3)]) (.bfi f.hdr f.u d a b c)

/-- PRMT: opcode 0x08b. -/
def decPrmt (f : Fields) : Except Nat Instr :=
  let d := f.dst
  let a := f.src f.a
  let b := f.src f.b
  let c := f.src f.c
  verdict (f.common true true ++ [(badSrc f.a 1 true true, 5), (badSrc f.b 1 true true, 5), (badSrc f.c 1 true true, 5), (twoSel [f.a, f.b, f.c], 5), (f.imm != 0 && !(isSel f.a || isSel f.b || isSel f.c), 3)]) (.prmt f.hdr f.u d a b c)

/-- SEL: opcode 0x08c. -/
def decSel (f : Fields) : Except Nat Instr :=
  let p := f.c.extractLsb' 0 3
  let pneg := f.c.getLsbD 3
  let d := f.dst
  let a := f.src f.a
  let b := f.src f.b
  verdict (f.common true true ++ [(badSrc f.a 1 true true, 5), (badSrc f.b 1 true true, 5), (f.c &&& 0x3f0 != 0, 3), (twoSel [f.a, f.b], 5), (f.imm != 0 && !(isSel f.a || isSel f.b), 3)]) (.sel f.hdr f.u d a b p pneg)

/-- MOV: opcode 0x0c0. -/
def decMov (f : Fields) : Except Nat Instr :=
  let x2 := f.c.getLsbD 1
  let d := f.dst
  let a := f.src f.a
  verdict (f.common true true ++ [(f.d.toNat % (if x2 then 2 else 1) != 0, 5), (badSrc f.a (if x2 then 2 else 1) true true, 5), (f.b != 0, 3), (f.c &&& 0x3fd != 0, 3), (f.imm != 0 && !(isSel f.a), 3)]) (.mov f.hdr f.u d a x2)

/-- MOVI: opcode 0x0c1. -/
def decMovi (f : Fields) : Except Nat Instr :=
  let sgn := f.c.getLsbD 0
  let x2 := f.c.getLsbD 1
  let d := f.dst
  let imm := f.imm
  verdict (f.common true true ++ [(f.d.toNat % (if x2 then 2 else 1) != 0, 5), (f.a != 0, 3), (f.b != 0, 3), (f.c &&& 0x3fc != 0, 3)]) (.movi f.hdr f.u d sgn x2 imm)

/-- MOVS: opcode 0x0c2. -/
def decMovs (f : Fields) : Except Nat Instr :=
  let sr := f.a.extractLsb' 0 8
  let d := f.dst
  verdict (f.common true true ++ [(f.a &&& 0x300 != 0, 3), (f.b != 0, 3), (f.c != 0, 3), (f.imm != 0, 3), (!(sregReadable sr), 5)]) (.movs f.hdr f.u d sr)

/-- PSET: opcode 0x0c3. -/
def decPset (f : Fields) : Except Nat Instr :=
  let pa := f.a.extractLsb' 0 3
  let pb := f.b.extractLsb' 0 3
  let pc := f.c.extractLsb' 0 3
  let lut := f.imm.extractLsb' 0 8
  let pd := f.d.extractLsb' 0 3
  verdict (f.common false true ++ [(f.d.extractLsb' 3 5 != 0, 7), (f.a &&& 0x3f8 != 0, 3), (f.b &&& 0x3f8 != 0, 3), (f.c &&& 0x3f8 != 0, 3), (f.imm &&& 0xffffff00 != 0, 3)]) (.pset f.hdr f.u pd pa pb pc lut)

/-- PMOV: opcode 0x0c4. -/
def decPmov (f : Fields) : Except Nat Instr :=
  let d := f.dst
  verdict (f.common true true ++ [(f.a != 0, 3), (f.b != 0, 3), (f.c &&& 0x3fe != 0, 3), (f.imm != 0, 3)]) (.pmov f.hdr f.u d)

/-- PMOV_IN: opcode 0x0c4. -/
def decPmovIn (f : Fields) : Except Nat Instr :=
  let mask := f.imm.extractLsb' 0 7
  let a := f.src f.a
  verdict (f.common false true ++ [(f.d != 0, 3), (badSrc f.a 1 false true, 5), (f.b != 0, 3), (f.c &&& 0x3fe != 0, 3), (f.imm &&& 0xffffff80 != 0, 3)]) (.pmovIn f.hdr f.u a mask)

/-- BALLOT: opcode 0x0c5. -/
def decBallot (f : Fields) : Except Nat Instr :=
  let p := f.a.extractLsb' 0 3
  let pneg := f.a.getLsbD 3
  let cnt := f.c.getLsbD 0
  let conv := f.c.getLsbD 7
  let d := f.dst
  verdict (f.common true false ++ [(f.a &&& 0x3f0 != 0, 3), (f.b != 0, 3), (f.c &&& 0x37e != 0, 3), (f.imm != 0, 3)]) (.ballot f.hdr d p pneg cnt conv)

/-- VOTE: opcode 0x0c6. -/
def decVote (f : Fields) : Except Nat Instr :=
  let p := f.a.extractLsb' 0 3
  let pneg := f.a.getLsbD 3
  let modeQ := VoteMode.ofBits (f.c.extractLsb' 0 2)
  let mode := modeQ.getD default
  let conv := f.c.getLsbD 7
  let pd := f.d.extractLsb' 0 3
  verdict (f.common false false ++ [(modeQ.isNone, 4), (f.d.extractLsb' 3 5 != 0, 7), (f.a &&& 0x3f0 != 0, 3), (f.b != 0, 3), (f.c &&& 0x37c != 0, 3), (f.imm != 0, 3)]) (.vote f.hdr pd p pneg mode conv)

/-- SHFL: opcode 0x0c7. -/
def decShfl (f : Fields) : Except Nat Instr :=
  let modeQ := ShflMode.ofBits (f.c.extractLsb' 0 3)
  let mode := modeQ.getD default
  let seg := f.c.extractLsb' 3 3
  let zf := f.c.getLsbD 6
  let conv := f.c.getLsbD 7
  let d := f.dst
  let a := f.src f.a
  let b := f.src f.b
  verdict (f.common true false ++ [(modeQ.isNone, 4), (badSrc f.a 1 true true, 5), (badSrc f.b 1 true true, 5), (f.c &&& 0x300 != 0, 3), (twoSel [f.a, f.b], 5), (f.imm != 0 && !(isSel f.a || isSel f.b), 3), (!((seg.toNat ≤ 5)), 4), (!((!zf || mode == ShflMode.sh)), 4), (!((mode != ShflMode.rev || b == Src.reg 0 false)), 3)]) (.shfl f.hdr d a b mode seg zf conv)

/-- MATCH: opcode 0x0c8. -/
def decMatchx (f : Fields) : Except Nat Instr :=
  let x2 := f.c.getLsbD 1
  let low := f.c.getLsbD 4
  let conv := f.c.getLsbD 7
  let d := f.dst
  let a := f.src f.a
  verdict (f.common true false ++ [(badSrc f.a (if x2 then 2 else 1) true true, 5), (f.b != 0, 3), (f.c &&& 0x36d != 0, 3), (f.imm != 0 && !(isSel f.a), 3)]) (.matchx f.hdr d a x2 low conv)

/-- LREDI: opcode 0x0c9. -/
def decLredi (f : Fields) : Except Nat Instr :=
  let sgn := f.c.getLsbD 0
  let q := f.c.getLsbD 2
  let opQ := LaneOp.ofBits (f.c.extractLsb' 4 3)
  let op := opQ.getD default
  let conv := f.c.getLsbD 7
  let d := f.dst
  let a := f.src f.a
  verdict (f.common true false ++ [(opQ.isNone, 4), (badSrc f.a 1 true true, 5), (f.b != 0, 3), (f.c &&& 0x30a != 0, 3), (f.imm != 0 && !(isSel f.a), 3)]) (.lredi f.hdr d a sgn q op conv)

/-- LSCAN: opcode 0x0ca. -/
def decLscan (f : Fields) : Except Nat Instr :=
  let sgn := f.c.getLsbD 0
  let q := f.c.getLsbD 2
  let excl := f.c.getLsbD 3
  let opQ := LaneOp.ofBits (f.c.extractLsb' 4 3)
  let op := opQ.getD default
  let conv := f.c.getLsbD 7
  let d := f.dst
  let a := f.src f.a
  verdict (f.common true false ++ [(opQ.isNone, 4), (badSrc f.a 1 true true, 5), (f.b != 0, 3), (f.c &&& 0x302 != 0, 3), (f.imm != 0 && !(isSel f.a), 3)]) (.lscan f.hdr d a sgn q excl op conv)

/-- ELECT: opcode 0x0cb. -/
def decElect (f : Fields) : Except Nat Instr :=
  let high := f.c.getLsbD 0
  let conv := f.c.getLsbD 7
  let pd := f.d.extractLsb' 0 3
  verdict (f.common false false ++ [(f.d.extractLsb' 3 5 != 0, 7), (f.a != 0, 3), (f.b != 0, 3), (f.c &&& 0x37e != 0, 3), (f.imm != 0, 3)]) (.elect f.hdr pd high conv)

/-- FADD: opcode 0x100. -/
def decFadd (f : Fields) : Except Nat Instr :=
  let rndQ := Rnd.ofBits (f.c.extractLsb' 0 3)
  let rnd := rndQ.getD default
  let sat := f.c.getLsbD 3
  let d := f.dst
  let a := f.src f.a
  let b := f.src f.b
  verdict (f.common true true ++ [(rndQ.isNone, 4), (badSrc f.a 1 true true, 5), (badSrc f.b 1 true true, 5), (f.c &&& 0x3f0 != 0, 3), (twoSel [f.a, f.b], 5), (f.imm != 0 && !(isSel f.a || isSel f.b), 3)]) (.fadd f.hdr f.u d a b rnd sat)

/-- FSUB: opcode 0x101. -/
def decFsub (f : Fields) : Except Nat Instr :=
  let rndQ := Rnd.ofBits (f.c.extractLsb' 0 3)
  let rnd := rndQ.getD default
  let sat := f.c.getLsbD 3
  let d := f.dst
  let a := f.src f.a
  let b := f.src f.b
  verdict (f.common true true ++ [(rndQ.isNone, 4), (badSrc f.a 1 true true, 5), (badSrc f.b 1 true true, 5), (f.c &&& 0x3f0 != 0, 3), (twoSel [f.a, f.b], 5), (f.imm != 0 && !(isSel f.a || isSel f.b), 3)]) (.fsub f.hdr f.u d a b rnd sat)

/-- FMUL: opcode 0x102. -/
def decFmul (f : Fields) : Except Nat Instr :=
  let rndQ := Rnd.ofBits (f.c.extractLsb' 0 3)
  let rnd := rndQ.getD default
  let sat := f.c.getLsbD 3
  let d := f.dst
  let a := f.src f.a
  let b := f.src f.b
  verdict (f.common true true ++ [(rndQ.isNone, 4), (badSrc f.a 1 true true, 5), (badSrc f.b 1 true true, 5), (f.c &&& 0x3f0 != 0, 3), (twoSel [f.a, f.b], 5), (f.imm != 0 && !(isSel f.a || isSel f.b), 3)]) (.fmul f.hdr f.u d a b rnd sat)

/-- FFMA: opcode 0x103. -/
def decFfma (f : Fields) : Except Nat Instr :=
  let rndQ := Rnd.ofBits (f.imm.extractLsb' 0 3)
  let rnd := rndQ.getD default
  let sat := f.imm.getLsbD 3
  let d := f.dst
  let a := f.src f.a
  let b := f.src f.b
  let c := f.src f.c
  verdict (f.common true true ++ [(rndQ.isNone, 4), (badSrc f.a 1 false true, 5), (badSrc f.b 1 false true, 5), (badSrc f.c 1 false true, 5), (f.imm &&& 0xfffffff0 != 0, 3)]) (.ffma f.hdr f.u d a b c rnd sat)

/-- FMIN: opcode 0x104. -/
def decFmin (f : Fields) : Except Nat Instr :=
  let d := f.dst
  let a := f.src f.a
  let b := f.src f.b
  verdict (f.common true true ++ [(badSrc f.a 1 true true, 5), (badSrc f.b 1 true true, 5), (f.c != 0, 3), (twoSel [f.a, f.b], 5), (f.imm != 0 && !(isSel f.a || isSel f.b), 3)]) (.fmin f.hdr f.u d a b)

/-- FMAX: opcode 0x105. -/
def decFmax (f : Fields) : Except Nat Instr :=
  let d := f.dst
  let a := f.src f.a
  let b := f.src f.b
  verdict (f.common true true ++ [(badSrc f.a 1 true true, 5), (badSrc f.b 1 true true, 5), (f.c != 0, 3), (twoSel [f.a, f.b], 5), (f.imm != 0 && !(isSel f.a || isSel f.b), 3)]) (.fmax f.hdr f.u d a b)

/-- FMINN: opcode 0x106. -/
def decFminn (f : Fields) : Except Nat Instr :=
  let d := f.dst
  let a := f.src f.a
  let b := f.src f.b
  verdict (f.common true true ++ [(badSrc f.a 1 true true, 5), (badSrc f.b 1 true true, 5), (f.c != 0, 3), (twoSel [f.a, f.b], 5), (f.imm != 0 && !(isSel f.a || isSel f.b), 3)]) (.fminn f.hdr f.u d a b)

/-- FMAXN: opcode 0x107. -/
def decFmaxn (f : Fields) : Except Nat Instr :=
  let d := f.dst
  let a := f.src f.a
  let b := f.src f.b
  verdict (f.common true true ++ [(badSrc f.a 1 true true, 5), (badSrc f.b 1 true true, 5), (f.c != 0, 3), (twoSel [f.a, f.b], 5), (f.imm != 0 && !(isSel f.a || isSel f.b), 3)]) (.fmaxn f.hdr f.u d a b)

/-- FCMP: opcode 0x108. -/
def decFcmp (f : Fields) : Except Nat Instr :=
  let ccQ := FCc.ofBits (f.c.extractLsb' 4 3)
  let cc := ccQ.getD default
  let pd := f.d.extractLsb' 0 3
  let a := f.src f.a
  let b := f.src f.b
  verdict (f.common false true ++ [(ccQ.isNone, 4), (f.d.extractLsb' 3 5 != 0, 3), (badSrc f.a 1 true true, 5), (badSrc f.b 1 true true, 5), (f.c &&& 0x38f != 0, 3), (twoSel [f.a, f.b], 5), (f.imm != 0 && !(isSel f.a || isSel f.b), 3)]) (.fcmp f.hdr f.u pd a b cc)

/-- FABS: opcode 0x109. -/
def decFabs (f : Fields) : Except Nat Instr :=
  let d := f.dst
  let a := f.src f.a
  verdict (f.common true true ++ [(badSrc f.a 1 true true, 5), (f.b != 0, 3), (f.c != 0, 3), (f.imm != 0 && !(isSel f.a), 3)]) (.fabs f.hdr f.u d a)

/-- FNEG: opcode 0x10a. -/
def decFneg (f : Fields) : Except Nat Instr :=
  let d := f.dst
  let a := f.src f.a
  verdict (f.common true true ++ [(badSrc f.a 1 true true, 5), (f.b != 0, 3), (f.c != 0, 3), (f.imm != 0 && !(isSel f.a), 3)]) (.fneg f.hdr f.u d a)

/-- FCLASS: opcode 0x10b. -/
def decFclass (f : Fields) : Except Nat Instr :=
  let d := f.dst
  let a := f.src f.a
  verdict (f.common true true ++ [(badSrc f.a 1 true true, 5), (f.b != 0, 3), (f.c != 0, 3), (f.imm != 0 && !(isSel f.a), 3)]) (.fclass f.hdr f.u d a)

/-- FDIV: opcode 0x10c. -/
def decFdiv (f : Fields) : Except Nat Instr :=
  let rndQ := Rnd.ofBits (f.c.extractLsb' 0 3)
  let rnd := rndQ.getD default
  let d := f.dst
  let a := f.src f.a
  let b := f.src f.b
  verdict (f.common true true ++ [(rndQ.isNone, 4), (badSrc f.a 1 true true, 5), (badSrc f.b 1 true true, 5), (f.c &&& 0x3f8 != 0, 3), (twoSel [f.a, f.b], 5), (f.imm != 0 && !(isSel f.a || isSel f.b), 3)]) (.fdiv f.hdr f.u d a b rnd)

/-- FSQRT: opcode 0x10d. -/
def decFsqrt (f : Fields) : Except Nat Instr :=
  let rndQ := Rnd.ofBits (f.c.extractLsb' 0 3)
  let rnd := rndQ.getD default
  let d := f.dst
  let a := f.src f.a
  verdict (f.common true true ++ [(rndQ.isNone, 4), (badSrc f.a 1 true true, 5), (f.b != 0, 3), (f.c &&& 0x3f8 != 0, 3), (f.imm != 0 && !(isSel f.a), 3)]) (.fsqrt f.hdr f.u d a rnd)

/-- FRCP: opcode 0x10e. -/
def decFrcp (f : Fields) : Except Nat Instr :=
  let rndQ := Rnd.ofBits (f.c.extractLsb' 0 3)
  let rnd := rndQ.getD default
  let d := f.dst
  let a := f.src f.a
  verdict (f.common true true ++ [(rndQ.isNone, 4), (badSrc f.a 1 true true, 5), (f.b != 0, 3), (f.c &&& 0x3f8 != 0, 3), (f.imm != 0 && !(isSel f.a), 3)]) (.frcp f.hdr f.u d a rnd)

/-- FRSQ: opcode 0x10f. -/
def decFrsq (f : Fields) : Except Nat Instr :=
  let rndQ := Rnd.ofBits (f.c.extractLsb' 0 3)
  let rnd := rndQ.getD default
  let d := f.dst
  let a := f.src f.a
  verdict (f.common true true ++ [(rndQ.isNone, 4), (badSrc f.a 1 true true, 5), (f.b != 0, 3), (f.c &&& 0x3f8 != 0, 3), (f.imm != 0 && !(isSel f.a), 3)]) (.frsq f.hdr f.u d a rnd)

/-- FEXP2: opcode 0x110. -/
def decFexp2 (f : Fields) : Except Nat Instr :=
  let rndQ := Rnd.ofBits (f.c.extractLsb' 0 3)
  let rnd := rndQ.getD default
  let d := f.dst
  let a := f.src f.a
  verdict (f.common true true ++ [(rndQ.isNone, 4), (badSrc f.a 1 true true, 5), (f.b != 0, 3), (f.c &&& 0x3f8 != 0, 3), (f.imm != 0 && !(isSel f.a), 3)]) (.fexp2 f.hdr f.u d a rnd)

/-- FLOG2: opcode 0x111. -/
def decFlog2 (f : Fields) : Except Nat Instr :=
  let rndQ := Rnd.ofBits (f.c.extractLsb' 0 3)
  let rnd := rndQ.getD default
  let d := f.dst
  let a := f.src f.a
  verdict (f.common true true ++ [(rndQ.isNone, 4), (badSrc f.a 1 true true, 5), (f.b != 0, 3), (f.c &&& 0x3f8 != 0, 3), (f.imm != 0 && !(isSel f.a), 3)]) (.flog2 f.hdr f.u d a rnd)

/-- FSIN: opcode 0x112. -/
def decFsin (f : Fields) : Except Nat Instr :=
  let rndQ := Rnd.ofBits (f.c.extractLsb' 0 3)
  let rnd := rndQ.getD default
  let d := f.dst
  let a := f.src f.a
  verdict (f.common true true ++ [(rndQ.isNone, 4), (badSrc f.a 1 true true, 5), (f.b != 0, 3), (f.c &&& 0x3f8 != 0, 3), (f.imm != 0 && !(isSel f.a), 3)]) (.fsin f.hdr f.u d a rnd)

/-- FCOS: opcode 0x113. -/
def decFcos (f : Fields) : Except Nat Instr :=
  let rndQ := Rnd.ofBits (f.c.extractLsb' 0 3)
  let rnd := rndQ.getD default
  let d := f.dst
  let a := f.src f.a
  verdict (f.common true true ++ [(rndQ.isNone, 4), (badSrc f.a 1 true true, 5), (f.b != 0, 3), (f.c &&& 0x3f8 != 0, 3), (f.imm != 0 && !(isSel f.a), 3)]) (.fcos f.hdr f.u d a rnd)

/-- FTANH: opcode 0x114. -/
def decFtanh (f : Fields) : Except Nat Instr :=
  let rndQ := Rnd.ofBits (f.c.extractLsb' 0 3)
  let rnd := rndQ.getD default
  let d := f.dst
  let a := f.src f.a
  verdict (f.common true true ++ [(rndQ.isNone, 4), (badSrc f.a 1 true true, 5), (f.b != 0, 3), (f.c &&& 0x3f8 != 0, 3), (f.imm != 0 && !(isSel f.a), 3)]) (.ftanh f.hdr f.u d a rnd)

/-- FLREDM: opcode 0x115. -/
def decFlredm (f : Fields) : Except Nat Instr :=
  let max := f.c.getLsbD 5
  let q := f.c.getLsbD 6
  let conv := f.c.getLsbD 7
  let d := f.dst
  let a := f.src f.a
  verdict (f.common true false ++ [(f.d.toNat % 2 != 0, 5), (badSrc f.a 1 true true, 5), (f.b != 0, 3), (f.c &&& 0x30f != 0, 3), (f.imm != 0 && !(isSel f.a), 3)]) (.flredm f.hdr d a max q conv)

/-- FLREDM_TILE: opcode 0x115. -/
def decFlredmTile (f : Fields) : Except Nat Instr :=
  let tile := f.b.extractLsb' 0 4
  let max := f.c.getLsbD 5
  let d := f.dst
  let a := f.src f.a
  verdict (f.common true false ++ [(f.d.toNat % 2 != 0, 5), (badSrc f.a 1 false true, 5), (f.b &&& 0x3f0 != 0, 3), (f.c &&& 0x3cf != 0, 3), (f.imm != 0, 3)]) (.flredmTile f.hdr d a tile max)

/-- FLSUM: opcode 0x116. -/
def decFlsum (f : Fields) : Except Nat Instr :=
  let rndQ := Rnd.ofBits (f.c.extractLsb' 0 3)
  let rnd := rndQ.getD default
  let q := f.c.getLsbD 6
  let conv := f.c.getLsbD 7
  let d := f.dst
  let a := f.src f.a
  verdict (f.common true false ++ [(rndQ.isNone, 4), (badSrc f.a 1 true true, 5), (f.b != 0, 3), (f.c &&& 0x338 != 0, 3), (f.imm != 0 && !(isSel f.a), 3)]) (.flsum f.hdr d a rnd q conv)

/-- FSCALE: opcode 0x117. -/
def decFscale (f : Fields) : Except Nat Instr :=
  let rndQ := Rnd.ofBits (f.c.extractLsb' 0 3)
  let rnd := rndQ.getD default
  let sat := f.c.getLsbD 3
  let d := f.dst
  let a := f.src f.a
  let b := f.src f.b
  verdict (f.common true true ++ [(rndQ.isNone, 4), (badSrc f.a 1 true true, 5), (badSrc f.b 1 true true, 5), (f.c &&& 0x3f0 != 0, 3), (twoSel [f.a, f.b], 5), (f.imm != 0 && !(isSel f.a || isSel f.b), 3)]) (.fscale f.hdr f.u d a b rnd sat)

/-- FCVT: opcode 0x140. -/
def decFcvt (f : Fields) : Except Nat Instr :=
  let rndQ := Rnd.ofBits (f.imm.extractLsb' 0 3)
  let rnd := rndQ.getD default
  let sat := f.imm.getLsbD 3
  let fmtQ := Fmt.ofBits (f.imm.extractLsb' 4 4)
  let fmt := fmtQ.getD .mx4
  let d := f.dst
  let a := f.src f.a
  verdict (f.common true true ++ [(rndQ.isNone, 4), (fmtQ.isNone, 4), (badSrc f.a 1 false true, 5), (f.b != 0, 3), (f.c != 0, 3), (f.imm &&& 0xfffffe00 != 0, 3), (!(fmt.isElem), 4)]) (.fcvt f.hdr f.u d a rnd sat fmt)

/-- FCVT_WID: opcode 0x140. -/
def decFcvtWid (f : Fields) : Except Nat Instr :=
  let fmtQ := Fmt.ofBits (f.imm.extractLsb' 4 4)
  let fmt := fmtQ.getD .mx4
  let d := f.dst
  let a := f.src f.a
  verdict (f.common true true ++ [(fmtQ.isNone, 4), (badSrc f.a 1 false true, 5), (f.b != 0, 3), (f.c != 0, 3), (f.imm &&& 0xfffffe0f != 0, 3), (!((fmt.isElem && fmt != Fmt.f32)), 4)]) (.fcvtWid f.hdr f.u d a fmt)

/-- F2I: opcode 0x141. -/
def decF2i (f : Fields) : Except Nat Instr :=
  let sgn := f.c.getLsbD 0
  let x2 := f.c.getLsbD 1
  let rndQ := Rnd.ofBits (f.c.extractLsb' 4 3)
  let rnd := rndQ.getD default
  let d := f.dst
  let a := f.src f.a
  verdict (f.common true true ++ [(rndQ.isNone, 4), (f.d.toNat % (if x2 then 2 else 1) != 0, 5), (badSrc f.a 1 true true, 5), (f.b != 0, 3), (f.c &&& 0x38c != 0, 3), (f.imm != 0 && !(isSel f.a), 3), (!(rnd != Rnd.rto), 4)]) (.f2i f.hdr f.u d a sgn x2 rnd)

/-- I2F: opcode 0x142. -/
def decI2f (f : Fields) : Except Nat Instr :=
  let sgn := f.c.getLsbD 0
  let x2 := f.c.getLsbD 1
  let rndQ := Rnd.ofBits (f.c.extractLsb' 4 3)
  let rnd := rndQ.getD default
  let d := f.dst
  let a := f.src f.a
  verdict (f.common true true ++ [(rndQ.isNone, 4), (badSrc f.a (if x2 then 2 else 1) true true, 5), (f.b != 0, 3), (f.c &&& 0x38c != 0, 3), (f.imm != 0 && !(isSel f.a), 3)]) (.i2f f.hdr f.u d a sgn x2 rnd)

/-- FRND: opcode 0x143. -/
def decFrnd (f : Fields) : Except Nat Instr :=
  let rndQ := Rnd.ofBits (f.c.extractLsb' 0 3)
  let rnd := rndQ.getD default
  let d := f.dst
  let a := f.src f.a
  verdict (f.common true true ++ [(rndQ.isNone, 4), (badSrc f.a 1 true true, 5), (f.b != 0, 3), (f.c &&& 0x3f8 != 0, 3), (f.imm != 0 && !(isSel f.a), 3)]) (.frnd f.hdr f.u d a rnd)

/-- FPACK: opcode 0x144. -/
def decFpack (f : Fields) : Except Nat Instr :=
  let rndQ := Rnd.ofBits (f.imm.extractLsb' 0 3)
  let rnd := rndQ.getD default
  let sat := f.imm.getLsbD 3
  let fmtQ := Fmt.ofBits (f.imm.extractLsb' 4 4)
  let fmt := fmtQ.getD .mx4
  let pos := f.imm.extractLsb' 8 2
  let d := f.dst
  let a := f.src f.a
  let b := f.src f.b
  let c := f.src f.c
  verdict (f.common true true ++ [(rndQ.isNone, 4), (fmtQ.isNone, 4), (badSrc f.a 1 false true, 5), (badSrc f.b 1 false true, 5), (badSrc f.c 1 false true, 5), (f.imm &&& 0xfffffc00 != 0, 3), (!(packOk fmt pos.toNat), 4), (!((!fmt.is16 || c == Src.reg 0 false)), 3)]) (.fpack f.hdr f.u d a b c rnd sat fmt pos)

/-- FUNPK: opcode 0x145. -/
def decFunpk (f : Fields) : Except Nat Instr :=
  let idx := f.imm.extractLsb' 0 3
  let x2 := f.imm.getLsbD 3
  let fmtQ := Fmt.ofBits (f.imm.extractLsb' 4 4)
  let fmt := fmtQ.getD .mx4
  let d := f.dst
  let a := f.src f.a
  verdict (f.common true true ++ [(fmtQ.isNone, 4), (f.d.toNat % (if x2 then 2 else 1) != 0, 5), (badSrc f.a 1 false true, 5), (f.b != 0, 3), (f.c != 0, 3), (f.imm &&& 0xffffff00 != 0, 3), (!(unpkOk fmt idx.toNat x2), 4)]) (.funpk f.hdr f.u d a idx x2 fmt)

/-- HADD2: opcode 0x146. -/
def decHadd2 (f : Fields) : Except Nat Instr :=
  let rndQ := Rnd.ofBits (f.c.extractLsb' 0 3)
  let rnd := rndQ.getD default
  let sat := f.c.getLsbD 3
  let fmtQ := Fmt.ofBits (f.c.extractLsb' 4 4)
  let fmt := fmtQ.getD .mx4
  let d := f.dst
  let a := f.src f.a
  let b := f.src f.b
  verdict (f.common true true ++ [(rndQ.isNone, 4), (fmtQ.isNone, 4), (badSrc f.a 1 true true, 5), (badSrc f.b 1 true true, 5), (f.c &&& 0x300 != 0, 3), (twoSel [f.a, f.b], 5), (f.imm != 0 && !(isSel f.a || isSel f.b), 3), (!(fmt.is16), 4)]) (.hadd2 f.hdr f.u d a b rnd sat fmt)

/-- HMUL2: opcode 0x147. -/
def decHmul2 (f : Fields) : Except Nat Instr :=
  let rndQ := Rnd.ofBits (f.c.extractLsb' 0 3)
  let rnd := rndQ.getD default
  let sat := f.c.getLsbD 3
  let fmtQ := Fmt.ofBits (f.c.extractLsb' 4 4)
  let fmt := fmtQ.getD .mx4
  let d := f.dst
  let a := f.src f.a
  let b := f.src f.b
  verdict (f.common true true ++ [(rndQ.isNone, 4), (fmtQ.isNone, 4), (badSrc f.a 1 true true, 5), (badSrc f.b 1 true true, 5), (f.c &&& 0x300 != 0, 3), (twoSel [f.a, f.b], 5), (f.imm != 0 && !(isSel f.a || isSel f.b), 3), (!(fmt.is16), 4)]) (.hmul2 f.hdr f.u d a b rnd sat fmt)

/-- HFMA2: opcode 0x148. -/
def decHfma2 (f : Fields) : Except Nat Instr :=
  let rndQ := Rnd.ofBits (f.imm.extractLsb' 0 3)
  let rnd := rndQ.getD default
  let sat := f.imm.getLsbD 3
  let fmtQ := Fmt.ofBits (f.imm.extractLsb' 4 4)
  let fmt := fmtQ.getD .mx4
  let d := f.dst
  let a := f.src f.a
  let b := f.src f.b
  let c := f.src f.c
  verdict (f.common true true ++ [(rndQ.isNone, 4), (fmtQ.isNone, 4), (badSrc f.a 1 false true, 5), (badSrc f.b 1 false true, 5), (badSrc f.c 1 false true, 5), (f.imm &&& 0xffffff00 != 0, 3), (!(fmt.is16), 4)]) (.hfma2 f.hdr f.u d a b c rnd sat fmt)

/-- HMIN2: opcode 0x149. -/
def decHmin2 (f : Fields) : Except Nat Instr :=
  let num := f.c.getLsbD 3
  let fmtQ := Fmt.ofBits (f.c.extractLsb' 4 4)
  let fmt := fmtQ.getD .mx4
  let d := f.dst
  let a := f.src f.a
  let b := f.src f.b
  verdict (f.common true true ++ [(fmtQ.isNone, 4), (badSrc f.a 1 true true, 5), (badSrc f.b 1 true true, 5), (f.c &&& 0x307 != 0, 3), (twoSel [f.a, f.b], 5), (f.imm != 0 && !(isSel f.a || isSel f.b), 3), (!(fmt.is16), 4)]) (.hmin2 f.hdr f.u d a b num fmt)

/-- HMAX2: opcode 0x14a. -/
def decHmax2 (f : Fields) : Except Nat Instr :=
  let num := f.c.getLsbD 3
  let fmtQ := Fmt.ofBits (f.c.extractLsb' 4 4)
  let fmt := fmtQ.getD .mx4
  let d := f.dst
  let a := f.src f.a
  let b := f.src f.b
  verdict (f.common true true ++ [(fmtQ.isNone, 4), (badSrc f.a 1 true true, 5), (badSrc f.b 1 true true, 5), (f.c &&& 0x307 != 0, 3), (twoSel [f.a, f.b], 5), (f.imm != 0 && !(isSel f.a || isSel f.b), 3), (!(fmt.is16), 4)]) (.hmax2 f.hdr f.u d a b num fmt)

/-- QSCALE: opcode 0x14b. -/
def decQscale (f : Fields) : Except Nat Instr :=
  let fit := f.c.getLsbD 0
  let fmtQ := Fmt.ofBits (f.c.extractLsb' 4 4)
  let fmt := fmtQ.getD .mx4
  let d := f.dst
  let a := f.src f.a
  verdict (f.common true true ++ [(fmtQ.isNone, 4), (badSrc f.a 1 true true, 5), (f.b != 0, 3), (f.c &&& 0x30e != 0, 3), (f.imm != 0 && !(isSel f.a), 3), (!(fmt.isQuant), 4)]) (.qscale f.hdr f.u d a fit fmt)

/-- QNT: opcode 0x14c. -/
def decQnt (f : Fields) : Except Nat Instr :=
  let rndQ := Rnd.ofBits (f.imm.extractLsb' 0 3)
  let rnd := rndQ.getD default
  let sat := f.imm.getLsbD 3
  let fmtQ := Fmt.ofBits (f.imm.extractLsb' 4 4)
  let fmt := fmtQ.getD .mx4
  let pos := f.imm.extractLsb' 8 3
  let d := f.dst
  let a := f.src f.a
  let b := f.src f.b
  let c := f.src f.c
  verdict (f.common true true ++ [(rndQ.isNone, 4), (fmtQ.isNone, 4), (badSrc f.a 1 false true, 5), (badSrc f.b 1 false true, 5), (badSrc f.c 1 false true, 5), (f.imm &&& 0xfffff800 != 0, 3), (!(qntOk fmt pos.toNat), 4), (!((fmt != Fmt.ds8 || rnd != Rnd.rto)), 4)]) (.qnt f.hdr f.u d a b c rnd sat fmt pos)

/-- BINCV: opcode 0x14d. -/
def decBincv (f : Fields) : Except Nat Instr :=
  let rndQ := Rnd.ofBits (f.c.extractLsb' 0 3)
  let rnd := rndQ.getD default
  let d := f.dst
  let a := f.src f.a
  let b := f.src f.b
  verdict (f.common true true ++ [(rndQ.isNone, 4), (f.d.toNat % 2 != 0, 5), (badSrc f.a 1 true true, 5), (badSrc f.b 1 true true, 5), (f.c &&& 0x3f8 != 0, 3), (twoSel [f.a, f.b], 5), (f.imm != 0 && !(isSel f.a || isSel f.b), 3), (!(rnd != Rnd.rto), 4)]) (.bincv f.hdr f.u d a b rnd)

/-- BINADD: opcode 0x14e. -/
def decBinadd (f : Fields) : Except Nat Instr :=
  let d := f.dst
  let a := f.src f.a
  let b := f.src f.b
  verdict (f.common true true ++ [(f.d.toNat % 2 != 0, 5), (badSrc f.a 2 true true, 5), (badSrc f.b 2 true true, 5), (f.c != 0, 3), (twoSel [f.a, f.b], 5), (f.imm != 0 && !(isSel f.a || isSel f.b), 3)]) (.binadd f.hdr f.u d a b)

/-- BINFP: opcode 0x14f. -/
def decBinfp (f : Fields) : Except Nat Instr :=
  let rndQ := Rnd.ofBits (f.c.extractLsb' 0 3)
  let rnd := rndQ.getD default
  let d := f.dst
  let a := f.src f.a
  let b := f.src f.b
  verdict (f.common true true ++ [(rndQ.isNone, 4), (badSrc f.a 2 true true, 5), (badSrc f.b 1 true true, 5), (f.c &&& 0x3f8 != 0, 3), (twoSel [f.a, f.b], 5), (f.imm != 0 && !(isSel f.a || isSel f.b), 3), (!(rnd != Rnd.rto), 4)]) (.binfp f.hdr f.u d a b rnd)

/-- MMAQ: opcode 0x180. -/
def decMmaq (f : Fields) : Except Nat Instr :=
  let slot := f.b.extractLsb' 0 4
  let asc := f.c.getLsbD 9
  let sclast := f.c.getLsbD 8
  let sc := f.c.extractLsb' 0 8
  let la := f.imm.extractLsb' 0 2
  let lb := f.imm.extractLsb' 2 2
  let lc := f.imm.extractLsb' 4 2
  let wa := f.imm.extractLsb' 6 2
  let wb := f.imm.extractLsb' 8 2
  let wc := f.imm.extractLsb' 10 2
  let ta := f.imm.getLsbD 12
  let tb := f.imm.getLsbD 13
  let tc := f.imm.getLsbD 14
  let rndQ := Rnd.ofBits (f.imm.extractLsb' 15 3)
  let rnd := rndQ.getD default
  let faQ := Fmt.ofBits (f.imm.extractLsb' 18 4)
  let fa := faQ.getD .mx4
  let fbQ := Fmt.ofBits (f.imm.extractLsb' 22 4)
  let fb := fbQ.getD .mx4
  let qoff := f.imm.extractLsb' 26 3
  let t := f.d.extractLsb' 0 4
  let a := f.src f.a
  verdict (f.common false false ++ [(rndQ.isNone, 4), (faQ.isNone, 4), (fbQ.isNone, 4), (f.d.extractLsb' 4 4 != 0, 7), (badSrc f.a 1 false false, 5), (f.b &&& 0x3f0 != 0, 5), (f.imm &&& 0xe0000000 != 0, 3), (!((mmaPair fa fb)), 4), (!((ascOk fa asc)), 4), (!((asc || (!sclast && sc == 0))), 3), (!((a.num.toNat + mmaRegs fa fb ≤ 256)), 5), (!((!asc || mmaDepth fa fb != 256 || sc.getLsbD 0 == false)), 5)]) (.mmaq f.hdr t a slot asc sclast sc la lb lc wa wb wc ta tb tc rnd fa fb qoff)

/-- MMAQS: opcode 0x181. -/
def decMmaqs (f : Fields) : Except Nat Instr :=
  let slot := f.b.extractLsb' 0 4
  let asc := f.c.getLsbD 9
  let la := f.imm.extractLsb' 0 2
  let lb := f.imm.extractLsb' 2 2
  let lc := f.imm.extractLsb' 4 2
  let wa := f.imm.extractLsb' 6 2
  let wb := f.imm.extractLsb' 8 2
  let wc := f.imm.extractLsb' 10 2
  let ta := f.imm.getLsbD 12
  let tb := f.imm.getLsbD 13
  let tc := f.imm.getLsbD 14
  let rndQ := Rnd.ofBits (f.imm.extractLsb' 15 3)
  let rnd := rndQ.getD default
  let faQ := Fmt.ofBits (f.imm.extractLsb' 18 4)
  let fa := faQ.getD .mx4
  let fbQ := Fmt.ofBits (f.imm.extractLsb' 22 4)
  let fb := fbQ.getD .mx4
  let qoff := f.imm.extractLsb' 26 3
  let t := f.d.extractLsb' 0 4
  let a := f.src f.a
  verdict (f.common false false ++ [(rndQ.isNone, 4), (faQ.isNone, 4), (fbQ.isNone, 4), (f.d.extractLsb' 4 4 != 0, 7), (badSrc f.a 1 false true, 5), (f.b &&& 0x3f0 != 0, 5), (f.c &&& 0x1ff != 0, 3), (f.imm &&& 0xe0000000 != 0, 3), (!((mmaPair fa fb)), 4), (!((ascOk fa asc)), 4)]) (.mmaqs f.hdr t a slot asc la lb lc wa wb wc ta tb tc rnd fa fb qoff)

/-- MZERO: opcode 0x182. -/
def decMzero (f : Fields) : Except Nat Instr :=
  let mon := f.c.getLsbD 0
  let t := f.d.extractLsb' 0 4
  verdict (f.common false false ++ [(f.d.extractLsb' 4 4 != 0, 7), (f.a != 0, 3), (f.b != 0, 3), (f.c &&& 0x3fe != 0, 3), (f.imm != 0, 3)]) (.mzero f.hdr t mon)

/-- MRD: opcode 0x183. -/
def decMrd (f : Fields) : Except Nat Instr :=
  let tile := f.c.extractLsb' 0 4
  let rndQ := Rnd.ofBits (f.imm.extractLsb' 0 3)
  let rnd := rndQ.getD default
  let sat := f.imm.getLsbD 3
  let fmtQ := Fmt.ofBits (f.imm.extractLsb' 4 4)
  let fmt := fmtQ.getD .mx4
  let d := f.d
  let a := f.src f.a
  let b := f.src f.b
  verdict (f.common false false ++ [(rndQ.isNone, 4), (fmtQ.isNone, 4), (badSrc f.a 1 false true, 5), (badSrc f.b 1 false true, 5), (f.c &&& 0x3f0 != 0, 3), (f.imm &&& 0xffffff00 != 0, 3), (!(fmt.isTileRead), 4), (!((fmt != Fmt.f32 || (rnd == Rnd.rne && !sat))), 3)]) (.mrd f.hdr d a b tile rnd sat fmt)

/-- MWR: opcode 0x184. -/
def decMwr (f : Fields) : Except Nat Instr :=
  let t := f.d.extractLsb' 0 4
  let a := f.src f.a
  let b := f.src f.b
  let c := f.src f.c
  verdict (f.common false false ++ [(f.d.extractLsb' 4 4 != 0, 7), (badSrc f.a 1 true true, 5), (badSrc f.b 1 true true, 5), (badSrc f.c 1 true true, 5), (twoSel [f.a, f.b, f.c], 5), (f.imm != 0 && !(isSel f.a || isSel f.b || isSel f.c), 3)]) (.mwr f.hdr t a b c)

/-- MLDT: opcode 0x185. -/
def decMldt (f : Fields) : Except Nat Instr :=
  let t := f.d.extractLsb' 0 4
  let a := f.src f.a
  let off := f.imm
  verdict (f.common false false ++ [(f.d.extractLsb' 4 4 != 0, 7), (badSrc f.a 1 false true, 5), (f.b != 0, 3), (f.c != 0, 3)]) (.mldt f.hdr t a off)

/-- MSTT: opcode 0x186. -/
def decMstt (f : Fields) : Except Nat Instr :=
  let rndQ := Rnd.ofBits (f.c.extractLsb' 0 3)
  let rnd := rndQ.getD default
  let sat := f.c.getLsbD 3
  let fmtQ := Fmt.ofBits (f.c.extractLsb' 4 4)
  let fmt := fmtQ.getD .mx4
  let t := f.d.extractLsb' 0 4
  let a := f.src f.a
  let off := f.imm
  verdict (f.common false false ++ [(rndQ.isNone, 4), (fmtQ.isNone, 4), (f.d.extractLsb' 4 4 != 0, 7), (badSrc f.a 1 false true, 5), (f.b != 0, 3), (f.c &&& 0x300 != 0, 3), (!(fmt.isTileRead), 4), (!((fmt != Fmt.f32 || (rnd == Rnd.rne && !sat))), 3)]) (.mstt f.hdr t a rnd sat fmt off)

/-- MSEND: opcode 0x187. R185 makes `.f32` with rounding or saturation illegal for `MSTT`; R186 says of `MSEND` only that it converts as
`MSTT` does. The model accepts the word, and both fields then do nothing (assumption 80). -/
def decMsend (f : Fields) : Except Nat Instr :=
  let rndQ := Rnd.ofBits (f.c.extractLsb' 0 3)
  let rnd := rndQ.getD default
  let sat := f.c.getLsbD 3
  let fmtQ := Fmt.ofBits (f.c.extractLsb' 4 4)
  let fmt := fmtQ.getD .mx4
  let t := f.d.extractLsb' 0 4
  let a := f.src f.a
  verdict (f.common false false ++ [(rndQ.isNone, 4), (fmtQ.isNone, 4), (f.d.extractLsb' 4 4 != 0, 7), (badSrc f.a 1 true true, 5), (f.b != 0, 3), (f.c &&& 0x300 != 0, 3), (f.imm != 0 && !(isSel f.a), 3), (!(fmt.isStream), 4)]) (.msend f.hdr t a rnd sat fmt)

/-- MSYNC: opcode 0x188. -/
def decMsync (f : Fields) : Except Nat Instr :=
  let wg := f.imm.getLsbD 0
  verdict (f.common false false ++ [(f.d != 0, 3), (f.a != 0, 3), (f.b != 0, 3), (f.c != 0, 3), (f.imm &&& 0xfffffffe != 0, 3)]) (.msync f.hdr wg)

/-- MCFG: opcode 0x1c0. -/
def decMcfg (f : Fields) : Except Nat Instr :=
  let a := f.src f.a
  verdict (f.common false false ++ [(f.d != 0, 3), (badSrc f.a 1 true true, 5), (f.b != 0, 3), (f.c != 0, 3), (f.imm != 0 && !(isSel f.a), 3)]) (.mcfg f.hdr a)

/-- MCFGR: opcode 0x1c1. -/
def decMcfgr (f : Fields) : Except Nat Instr :=
  let d := f.d
  verdict (f.common false false ++ [(f.a != 0, 3), (f.b != 0, 3), (f.c != 0, 3), (f.imm != 0, 3)]) (.mcfgr f.hdr d)

/-- WLOAD: opcode 0x1c2. -/
def decWload (f : Fields) : Except Nat Instr :=
  let slot := f.b.extractLsb' 0 4
  let a := f.src f.a
  let off := f.imm
  verdict (f.common false false ++ [(f.d != 0, 3), (badSrc f.a 1 false true, 5), (f.b &&& 0x3f0 != 0, 5), (f.c != 0, 3)]) (.wload f.hdr a slot off)

/-- WDICT: opcode 0x1c3. -/
def decWdict (f : Fields) : Except Nat Instr :=
  let slot := f.b.extractLsb' 0 4
  let a := f.src f.a
  verdict (f.common false false ++ [(f.d != 0, 3), (badSrc f.a 1 true true, 5), (f.b &&& 0x3f0 != 0, 5), (f.c != 0, 3), (f.imm != 0 && !(isSel f.a), 3)]) (.wdict f.hdr a slot)

/-- WSET: opcode 0x1c4. -/
def decWset (f : Fields) : Except Nat Instr :=
  let slot := f.b.extractLsb' 0 4
  let a := f.src f.a
  verdict (f.common false false ++ [(f.d != 0, 3), (badSrc f.a 1 true true, 5), (f.b &&& 0x3f0 != 0, 5), (f.c != 0, 3), (f.imm != 0 && !(isSel f.a), 3)]) (.wset f.hdr a slot)

/-- WFREE: opcode 0x1c5. -/
def decWfree (f : Fields) : Except Nat Instr :=
  let slot := f.b.extractLsb' 0 4
  verdict (f.common false false ++ [(f.d != 0, 3), (f.a != 0, 3), (f.b &&& 0x3f0 != 0, 5), (f.c != 0, 3), (f.imm != 0, 3)]) (.wfree f.hdr slot)

/-- WQRY: opcode 0x1c6. -/
def decWqry (f : Fields) : Except Nat Instr :=
  let slot := f.b.extractLsb' 0 4
  let d := f.d
  verdict (f.common false false ++ [(f.a != 0, 3), (f.b &&& 0x3f0 != 0, 5), (f.c != 0, 3), (f.imm != 0, 3)]) (.wqry f.hdr d slot)

/-- MMON: opcode 0x1c7. -/
def decMmon (f : Fields) : Except Nat Instr :=
  let tile := f.b.extractLsb' 0 4
  let ctr := f.c.extractLsb' 0 2
  let clr := f.c.getLsbD 2
  let d := f.d
  verdict (f.common false false ++ [(f.a != 0, 3), (f.b &&& 0x3f0 != 0, 5), (f.c &&& 0x3f8 != 0, 3), (f.imm != 0, 3), (!(ctr != 3), 4)]) (.mmon f.hdr d tile ctr clr)

/-- LD: opcode 0x200. -/
def decLd (f : Fields) : Except Nat Instr :=
  let sizeQ := Size.ofBits (f.c.extractLsb' 0 3)
  let size := sizeQ.getD default
  let sgn := f.c.getLsbD 3
  let hintQ := CacheHint.ofBits (f.c.extractLsb' 4 2)
  let hint := hintQ.getD default
  let d := f.d
  let a := f.src f.a
  let off := f.imm
  verdict (f.common false true ++ [(sizeQ.isNone, 4), (hintQ.isNone, 4), (f.d.toNat % size.regs != 0, 5), (badSrc f.a 2 false false, 5), (f.b != 0, 3), (f.c &&& 0x3c0 != 0, 3)]) (.ld f.hdr f.u d a size sgn hint off)

/-- ST: opcode 0x201. -/
def decSt (f : Fields) : Except Nat Instr :=
  let sizeQ := Size.ofBits (f.c.extractLsb' 0 3)
  let size := sizeQ.getD default
  let hintQ := CacheHint.ofBits (f.c.extractLsb' 4 2)
  let hint := hintQ.getD default
  let a := f.src f.a
  let b := f.src f.b
  let off := f.imm
  verdict (f.common false false ++ [(sizeQ.isNone, 4), (hintQ.isNone, 4), (f.d != 0, 3), (badSrc f.a 2 false false, 5), (badSrc f.b size.regs false true, 5), (f.c &&& 0x3c8 != 0, 3)]) (.st f.hdr a b size hint off)

/-- LDS: opcode 0x202. -/
def decLds (f : Fields) : Except Nat Instr :=
  let sizeQ := Size.ofBits (f.c.extractLsb' 0 3)
  let size := sizeQ.getD default
  let sgn := f.c.getLsbD 3
  let d := f.d
  let a := f.src f.a
  let off := f.imm
  verdict (f.common false true ++ [(sizeQ.isNone, 4), (f.d.toNat % size.regs != 0, 5), (badSrc f.a 1 false true, 5), (f.b != 0, 3), (f.c &&& 0x3f0 != 0, 3)]) (.lds f.hdr f.u d a size sgn off)

/-- STS: opcode 0x203. -/
def decSts (f : Fields) : Except Nat Instr :=
  let sizeQ := Size.ofBits (f.c.extractLsb' 0 3)
  let size := sizeQ.getD default
  let a := f.src f.a
  let b := f.src f.b
  let off := f.imm
  verdict (f.common false false ++ [(sizeQ.isNone, 4), (f.d != 0, 3), (badSrc f.a 1 false true, 5), (badSrc f.b size.regs false true, 5), (f.c &&& 0x3f8 != 0, 3)]) (.sts f.hdr a b size off)

/-- LDC: opcode 0x204. -/
def decLdc (f : Fields) : Except Nat Instr :=
  let sizeQ := Size.ofBits (f.c.extractLsb' 0 3)
  let size := sizeQ.getD default
  let sgn := f.c.getLsbD 3
  let useA := f.c.getLsbD 7
  let d := f.d
  let a := f.src f.a
  let off := f.imm
  verdict (f.common false true ++ [(sizeQ.isNone, 4), (f.d.toNat % size.regs != 0, 5), (badSrc f.a 1 false true, 5), (f.b != 0, 3), (f.c &&& 0x370 != 0, 3), (!((useA || a == Src.reg 0 false)), 3)]) (.ldc f.hdr f.u d a size sgn useA off)

/-- PREF: opcode 0x205. -/
def decPref (f : Fields) : Except Nat Instr :=
  let l2 := f.c.getLsbD 0
  let a := f.src f.a
  let off := f.imm
  verdict (f.common false true ++ [(f.d != 0, 3), (badSrc f.a 2 false false, 5), (f.b != 0, 3), (f.c &&& 0x3fe != 0, 3)]) (.pref f.hdr f.u a l2 off)

/-- PRES: opcode 0x206. -/
def decPres (f : Fields) : Except Nat Instr :=
  let pd := f.d.extractLsb' 0 3
  let a := f.src f.a
  let off := f.imm
  verdict (f.common false false ++ [(f.d.extractLsb' 3 5 != 0, 7), (badSrc f.a 1 false true, 5), (f.b != 0, 3), (f.c != 0, 3)]) (.pres f.hdr pd a off)

/-- PCLR: opcode 0x207. -/
def decPclr (f : Fields) : Except Nat Instr :=
  let set := f.c.getLsbD 0
  let a := f.src f.a
  let b := f.src f.b
  let off := f.imm
  verdict (f.common false false ++ [(f.d != 0, 3), (badSrc f.a 1 false true, 5), (badSrc f.b 1 false true, 5), (f.c &&& 0x3fe != 0, 3)]) (.pclr f.hdr a b set off)

/-- CWB: opcode 0x208. -/
def decCwb (f : Fields) : Except Nat Instr :=
  let all := f.c.getLsbD 0
  let a := f.src f.a
  let off := f.imm
  verdict (f.common false false ++ [(f.d != 0, 3), (badSrc f.a 2 false false, 5), (f.b != 0, 3), (f.c &&& 0x3fe != 0, 3), (!((!all || (a == Src.reg 0 false && off == 0))), 3)]) (.cwb f.hdr a all off)

/-- CINV: opcode 0x209. -/
def decCinv (f : Fields) : Except Nat Instr :=
  let all := f.c.getLsbD 0
  let a := f.src f.a
  let off := f.imm
  verdict (f.common false false ++ [(f.d != 0, 3), (badSrc f.a 2 false false, 5), (f.b != 0, 3), (f.c &&& 0x3fe != 0, 3), (!((!all || (a == Src.reg 0 false && off == 0))), 3)]) (.cinv f.hdr a all off)

/-- LOCK: opcode 0x20a. -/
def decLock (f : Fields) : Except Nat Instr :=
  let d := f.d
  let a := f.src f.a
  let b := f.src f.b
  let off := f.imm
  verdict (f.common false false ++ [(badSrc f.a 2 false false, 5), (badSrc f.b 1 false true, 5), (f.c != 0, 3)]) (.lock f.hdr d a b off)

/-- UNLOCK: opcode 0x20b. -/
def decUnlock (f : Fields) : Except Nat Instr :=
  let d := f.d
  let a := f.src f.a
  let b := f.src f.b
  let off := f.imm
  verdict (f.common false false ++ [(badSrc f.a 2 false false, 5), (badSrc f.b 1 false true, 5), (f.c != 0, 3)]) (.unlock f.hdr d a b off)

/-- ATOM: opcode 0x240. -/
def decAtom (f : Fields) : Except Nat Instr :=
  let opQ := AtomOp.ofBits (f.c.extractLsb' 0 4)
  let op := opQ.getD default
  let x2 := f.c.getLsbD 4
  let ordQ := Ord.ofBits (f.c.extractLsb' 5 2)
  let ord := ordQ.getD default
  let scopeQ := Scope.ofBits (f.c.extractLsb' 7 3)
  let scope := scopeQ.getD default
  let d := f.d
  let a := f.src f.a
  let b := f.src f.b
  let off := f.imm
  verdict (f.common false false ++ [(opQ.isNone, 4), (ordQ.isNone, 4), (scopeQ.isNone, 4), (f.d.toNat % (if x2 then 2 else 1) != 0, 5), (badSrc f.a 2 false false, 5), (badSrc f.b ((if x2 then 2 else 1) * (if op = AtomOp.cas then 2 else 1)) false true, 5), (!((op != AtomOp.fadd || !x2)), 4)]) (.atom f.hdr d a b op x2 ord scope off)

/-- RED: opcode 0x241. -/
def decRed (f : Fields) : Except Nat Instr :=
  let opQ := AtomOp.ofBits (f.c.extractLsb' 0 4)
  let op := opQ.getD default
  let x2 := f.c.getLsbD 4
  let ordQ := Ord.ofBits (f.c.extractLsb' 5 2)
  let ord := ordQ.getD default
  let scopeQ := Scope.ofBits (f.c.extractLsb' 7 3)
  let scope := scopeQ.getD default
  let a := f.src f.a
  let b := f.src f.b
  let off := f.imm
  verdict (f.common false false ++ [(opQ.isNone, 4), (ordQ.isNone, 4), (scopeQ.isNone, 4), (f.d != 0, 3), (badSrc f.a 2 false false, 5), (badSrc f.b ((if x2 then 2 else 1) * (if op = AtomOp.cas then 2 else 1)) false true, 5), (!((op != AtomOp.fadd || !x2)), 4), (!((op != AtomOp.exch && op != AtomOp.cas)), 4), (!((ord != Ord.acq && ord != Ord.ar)), 4)]) (.red f.hdr a b op x2 ord scope off)

/-- LDACQ: opcode 0x242. -/
def decLdacq (f : Fields) : Except Nat Instr :=
  let sizeQ := Size.ofBits (f.c.extractLsb' 0 3)
  let size := sizeQ.getD default
  let sgn := f.c.getLsbD 3
  let scopeQ := Scope.ofBits (f.c.extractLsb' 7 3)
  let scope := scopeQ.getD default
  let d := f.d
  let a := f.src f.a
  let off := f.imm
  verdict (f.common false false ++ [(sizeQ.isNone, 4), (scopeQ.isNone, 4), (f.d.toNat % size.regs != 0, 5), (badSrc f.a 2 false false, 5), (f.b != 0, 3), (f.c &&& 0x70 != 0, 3), (!(size != Size.s128), 4)]) (.ldacq f.hdr d a size sgn scope off)

/-- STREL: opcode 0x243. -/
def decStrel (f : Fields) : Except Nat Instr :=
  let sizeQ := Size.ofBits (f.c.extractLsb' 0 3)
  let size := sizeQ.getD default
  let scopeQ := Scope.ofBits (f.c.extractLsb' 7 3)
  let scope := scopeQ.getD default
  let a := f.src f.a
  let b := f.src f.b
  let off := f.imm
  verdict (f.common false false ++ [(sizeQ.isNone, 4), (scopeQ.isNone, 4), (f.d != 0, 3), (badSrc f.a 2 false false, 5), (badSrc f.b size.regs false true, 5), (f.c &&& 0x78 != 0, 3), (!(size != Size.s128), 4)]) (.strel f.hdr a b size scope off)

/-- FENCE: opcode 0x244. -/
def decFence (f : Fields) : Except Nat Instr :=
  let scopeQ := Scope.ofBits (f.c.extractLsb' 7 3)
  let scope := scopeQ.getD default
  verdict (f.common false false ++ [(scopeQ.isNone, 4), (f.d != 0, 3), (f.a != 0, 3), (f.b != 0, 3), (f.c &&& 0x7f != 0, 3), (f.imm != 0, 3)]) (.fence f.hdr scope)

/-- WAITV: opcode 0x245. -/
def decWaitv (f : Fields) : Except Nat Instr :=
  let ccQ := Cc.ofBits (f.c.extractLsb' 0 3)
  let cc := ccQ.getD default
  let sgn := f.c.getLsbD 3
  let x2 := f.c.getLsbD 4
  let scopeQ := Scope.ofBits (f.c.extractLsb' 7 3)
  let scope := scopeQ.getD default
  let d := f.d
  let a := f.src f.a
  let b := f.src f.b
  let off := f.imm
  verdict (f.common false false ++ [(ccQ.isNone, 4), (scopeQ.isNone, 4), (f.d.toNat % (if x2 then 2 else 1) != 0, 5), (badSrc f.a 2 false false, 5), (badSrc f.b (if x2 then 2 else 1) false true, 5), (f.c &&& 0x60 != 0, 3)]) (.waitv f.hdr d a b cc sgn x2 scope off)

/-- HBPUB: opcode 0x246. -/
def decHbpub (f : Fields) : Except Nat Instr :=
  let scopeQ := Scope.ofBits (f.c.extractLsb' 7 3)
  let scope := scopeQ.getD default
  let a := f.src f.a
  let off := f.imm
  verdict (f.common false false ++ [(scopeQ.isNone, 4), (f.d != 0, 3), (badSrc f.a 2 false false, 5), (f.b != 0, 3), (f.c &&& 0x7f != 0, 3)]) (.hbpub f.hdr a scope off)

/-- HBJOIN: opcode 0x247. -/
def decHbjoin (f : Fields) : Except Nat Instr :=
  let scopeQ := Scope.ofBits (f.c.extractLsb' 7 3)
  let scope := scopeQ.getD default
  let d := f.d
  let a := f.src f.a
  let off := f.imm
  verdict (f.common false false ++ [(scopeQ.isNone, 4), (badSrc f.a 2 false false, 5), (f.b != 0, 3), (f.c &&& 0x7f != 0, 3)]) (.hbjoin f.hdr d a scope off)

/-- RACECTL_TRAP: opcode 0x248. -/
def decRacectlTrap (f : Fields) : Except Nat Instr :=
  verdict (f.common false false ++ [(f.d != 0, 3), (f.a != 0, 3), (f.b != 0, 3), (f.c &&& 0x3f8 != 0, 3), (f.imm != 0, 3)]) (.racectlTrap f.hdr)

/-- RACECTL_REPORT: opcode 0x248. -/
def decRacectlReport (f : Fields) : Except Nat Instr :=
  verdict (f.common false false ++ [(f.d != 0, 3), (f.a != 0, 3), (f.b != 0, 3), (f.c &&& 0x3f8 != 0, 3), (f.imm != 0, 3)]) (.racectlReport f.hdr)

/-- RACECTL_OFF: opcode 0x248. -/
def decRacectlOff (f : Fields) : Except Nat Instr :=
  verdict (f.common false false ++ [(f.d != 0, 3), (f.a != 0, 3), (f.b != 0, 3), (f.c &&& 0x3f8 != 0, 3), (f.imm != 0, 3)]) (.racectlOff f.hdr)

/-- RACECTL_ON: opcode 0x248. -/
def decRacectlOn (f : Fields) : Except Nat Instr :=
  verdict (f.common false false ++ [(f.d != 0, 3), (f.a != 0, 3), (f.b != 0, 3), (f.c &&& 0x3f8 != 0, 3), (f.imm != 0, 3)]) (.racectlOn f.hdr)

/-- RACECTL_RDUN: opcode 0x248. -/
def decRacectlRdun (f : Fields) : Except Nat Instr :=
  let d := f.d
  verdict (f.common false false ++ [(f.d.toNat % 2 != 0, 5), (f.a != 0, 3), (f.b != 0, 3), (f.c &&& 0x3f8 != 0, 3), (f.imm != 0, 3)]) (.racectlRdun f.hdr d)

/-- RACECTL_FORGET: opcode 0x248. -/
def decRacectlForget (f : Fields) : Except Nat Instr :=
  let a := f.src f.a
  let b := f.src f.b
  let off := f.imm
  verdict (f.common false false ++ [(f.d != 0, 3), (badSrc f.a 2 false false, 5), (badSrc f.b 1 false true, 5), (f.c &&& 0x3f8 != 0, 3)]) (.racectlForget f.hdr a b off)

/-- HBCLK: opcode 0x249. -/
def decHbclk (f : Fields) : Except Nat Instr :=
  let d := f.d
  verdict (f.common false false ++ [(f.a != 0, 3), (f.b != 0, 3), (f.c &&& 0x3fe != 0, 3), (f.imm != 0, 3)]) (.hbclk f.hdr d)

/-- HBCLK_VEC: opcode 0x249. -/
def decHbclkVec (f : Fields) : Except Nat Instr :=
  let d := f.d
  let a := f.src f.a
  verdict (f.common false false ++ [(badSrc f.a 1 true true, 5), (f.b != 0, 3), (f.c &&& 0x3fe != 0, 3), (f.imm != 0 && !(isSel f.a), 3)]) (.hbclkVec f.hdr d a)

/-- CPYK: opcode 0x280. -/
def decCpyk (f : Fields) : Except Nat Instr :=
  let n := f.c.extractLsb' 0 5
  let a := f.src f.a
  let off := f.imm
  verdict (f.common false false ++ [(f.d != 0, 3), (badSrc f.a 1 false true, 5), (f.b != 0, 3), (f.c &&& 0x3e0 != 0, 3), (!((decide (1 ≤ n.toNat) && decide (n.toNat ≤ 16))), 4)]) (.cpyk f.hdr a n off)

/-- SBINIT: opcode 0x281. -/
def decSbinit (f : Fields) : Except Nat Instr :=
  let a := f.src f.a
  let b := f.src f.b
  let off := f.imm
  verdict (f.common false false ++ [(f.d != 0, 3), (badSrc f.a 1 false true, 5), (badSrc f.b 1 false true, 5), (f.c != 0, 3)]) (.sbinit f.hdr a b off)

/-- SBADD: opcode 0x282. -/
def decSbadd (f : Fields) : Except Nat Instr :=
  let a := f.src f.a
  let b := f.src f.b
  let off := f.imm
  verdict (f.common false false ++ [(f.d != 0, 3), (badSrc f.a 1 false true, 5), (badSrc f.b 1 false true, 5), (f.c != 0, 3)]) (.sbadd f.hdr a b off)

/-- SBWAIT: opcode 0x283. -/
def decSbwait (f : Fields) : Except Nat Instr :=
  let a := f.src f.a
  let b := f.src f.b
  let off := f.imm
  verdict (f.common false false ++ [(f.d != 0, 3), (badSrc f.a 1 false true, 5), (badSrc f.b 1 false true, 5), (f.c != 0, 3)]) (.sbwait f.hdr a b off)

/-- SBTEST: opcode 0x284. -/
def decSbtest (f : Fields) : Except Nat Instr :=
  let d := f.d
  let a := f.src f.a
  let off := f.imm
  verdict (f.common false false ++ [(badSrc f.a 1 false true, 5), (f.b != 0, 3), (f.c != 0, 3)]) (.sbtest f.hdr d a off)

/-- CPYRES: opcode 0x285. -/
def decCpyres (f : Fields) : Except Nat Instr :=
  let a := f.src f.a
  let off := f.imm
  verdict (f.common false false ++ [(f.d != 0, 3), (badSrc f.a 1 false true, 5), (f.b != 0, 3), (f.c != 0, 3)]) (.cpyres f.hdr a off)

/-- NRXARM: opcode 0x286. -/
def decNrxarm (f : Fields) : Except Nat Instr :=
  let ring := f.c.extractLsb' 0 4
  let d := f.d
  let a := f.src f.a
  let off := f.imm
  verdict (f.common false false ++ [(badSrc f.a 1 false true, 5), (f.b != 0, 3), (f.c &&& 0x3f0 != 0, 3)]) (.nrxarm f.hdr d a ring off)

/-- NTX: opcode 0x287. -/
def decNtx (f : Fields) : Except Nat Instr :=
  let ts := f.c.getLsbD 0
  let p1 := f.c.getLsbD 1
  let d := f.d
  let a := f.src f.a
  let b := f.src f.b
  let off := f.imm
  verdict (f.common false false ++ [(badSrc f.a 1 false true, 5), (badSrc f.b 1 false true, 5), (f.c &&& 0x3fc != 0, 3)]) (.ntx f.hdr d a b ts p1 off)

/-- NTSR_ST: opcode 0x288. -/
def decNtsrSt (f : Fields) : Except Nat Instr :=
  let d := f.d
  let a := f.src f.a
  verdict (f.common false false ++ [(badSrc f.a 1 true true, 5), (f.b != 0, 3), (f.c &&& 0x3fc != 0, 3), (f.imm != 0 && !(isSel f.a), 3)]) (.ntsrSt f.hdr d a)

/-- NTSR_TICK: opcode 0x288. -/
def decNtsrTick (f : Fields) : Except Nat Instr :=
  let d := f.d
  let a := f.src f.a
  verdict (f.common false false ++ [(f.d.toNat % 2 != 0, 5), (badSrc f.a 1 true true, 5), (f.b != 0, 3), (f.c &&& 0x3fc != 0, 3), (f.imm != 0 && !(isSel f.a), 3)]) (.ntsrTick f.hdr d a)

/-- NTSR_PTP: opcode 0x288. -/
def decNtsrPtp (f : Fields) : Except Nat Instr :=
  let d := f.d
  let a := f.src f.a
  verdict (f.common false false ++ [(f.d.toNat % 4 != 0, 5), (badSrc f.a 1 true true, 5), (f.b != 0, 3), (f.c &&& 0x3fc != 0, 3), (f.imm != 0 && !(isSel f.a), 3)]) (.ntsrPtp f.hdr d a)

/-- LAUNCH: opcode 0x2c0. -/
def decLaunch (f : Fields) : Except Nat Instr :=
  let d := f.d
  let a := f.src f.a
  let off := f.imm
  verdict (f.common false false ++ [(badSrc f.a 2 false false, 5), (f.b != 0, 3), (f.c != 0, 3)]) (.launch f.hdr d a off)

/-- TNODE: opcode 0x2c1. -/
def decTnode (f : Fields) : Except Nat Instr :=
  let d := f.d
  let a := f.src f.a
  let off := f.imm
  verdict (f.common false false ++ [(badSrc f.a 1 false true, 5), (f.b != 0, 3), (f.c != 0, 3)]) (.tnode f.hdr d a off)

/-- TEDGE: opcode 0x2c2. -/
def decTedge (f : Fields) : Except Nat Instr :=
  let d := f.d
  let a := f.src f.a
  let b := f.src f.b
  verdict (f.common false false ++ [(badSrc f.a 1 true true, 5), (badSrc f.b 1 true true, 5), (f.c != 0, 3), (twoSel [f.a, f.b], 5), (f.imm != 0 && !(isSel f.a || isSel f.b), 3)]) (.tedge f.hdr d a b)

/-- TDONE: opcode 0x2c3. -/
def decTdone (f : Fields) : Except Nat Instr :=
  let a := f.src f.a
  verdict (f.common false false ++ [(f.d != 0, 3), (badSrc f.a 1 true true, 5), (f.b != 0, 3), (f.c != 0, 3), (f.imm != 0 && !(isSel f.a), 3)]) (.tdone f.hdr a)

/-- TSPAWN: opcode 0x2c4. -/
def decTspawn (f : Fields) : Except Nat Instr :=
  let d := f.d
  let a := f.src f.a
  let b := f.src f.b
  let off := f.imm
  verdict (f.common false false ++ [(badSrc f.a 1 false true, 5), (badSrc f.b 2 false false, 5), (f.c != 0, 3)]) (.tspawn f.hdr d a b off)

/-- TSTAT: opcode 0x2c5. -/
def decTstat (f : Fields) : Except Nat Instr :=
  let d := f.d
  let a := f.src f.a
  verdict (f.common false false ++ [(badSrc f.a 1 true true, 5), (f.b != 0, 3), (f.c != 0, 3), (f.imm != 0 && !(isSel f.a), 3)]) (.tstat f.hdr d a)

/-- TREARM: opcode 0x2c6. -/
def decTrearm (f : Fields) : Except Nat Instr :=
  let d := f.d
  let a := f.src f.a
  verdict (f.common false false ++ [(badSrc f.a 1 true true, 5), (f.b != 0, 3), (f.c &&& 0x3fe != 0, 3), (f.imm != 0 && !(isSel f.a), 3)]) (.trearm f.hdr d a)

/-- TREARM_FREE: opcode 0x2c6. -/
def decTrearmFree (f : Fields) : Except Nat Instr :=
  let d := f.d
  let a := f.src f.a
  verdict (f.common false false ++ [(badSrc f.a 1 true true, 5), (f.b != 0, 3), (f.c &&& 0x3fe != 0, 3), (f.imm != 0 && !(isSel f.a), 3)]) (.trearmFree f.hdr d a)

/-- CRED: opcode 0x300. -/
def decCred (f : Fields) : Except Nat Instr :=
  let d := f.d
  let a := f.src f.a
  let off := f.imm
  verdict (f.common false false ++ [(badSrc f.a 1 false true, 5), (f.b != 0, 3), (f.c != 0, 3)]) (.cred f.hdr d a off)

/-- CRSC: opcode 0x301. -/
def decCrsc (f : Fields) : Except Nat Instr :=
  let d := f.d
  let a := f.src f.a
  let off := f.imm
  verdict (f.common false false ++ [(badSrc f.a 1 false true, 5), (f.b != 0, 3), (f.c != 0, 3)]) (.crsc f.hdr d a off)

/-- CAGT: opcode 0x302. -/
def decCagt (f : Fields) : Except Nat Instr :=
  let d := f.d
  let a := f.src f.a
  let off := f.imm
  verdict (f.common false false ++ [(badSrc f.a 1 false true, 5), (f.b != 0, 3), (f.c != 0, 3)]) (.cagt f.hdr d a off)

/-- CBCT: opcode 0x303. -/
def decCbct (f : Fields) : Except Nat Instr :=
  let d := f.d
  let a := f.src f.a
  let off := f.imm
  verdict (f.common false false ++ [(badSrc f.a 1 false true, 5), (f.b != 0, 3), (f.c != 0, 3)]) (.cbct f.hdr d a off)

/-- CWAIT: opcode 0x304. -/
def decCwait (f : Fields) : Except Nat Instr :=
  let d := f.d
  let a := f.src f.a
  verdict (f.common false false ++ [(badSrc f.a 1 true true, 5), (f.b != 0, 3), (f.c != 0, 3), (f.imm != 0 && !(isSel f.a), 3)]) (.cwait f.hdr d a)

/-- CSTAT: opcode 0x305. -/
def decCstat (f : Fields) : Except Nat Instr :=
  let what := f.imm.extractLsb' 0 2
  let d := f.d
  let a := f.src f.a
  verdict (f.common false false ++ [(badSrc f.a 1 false true, 5), (f.b != 0, 3), (f.c != 0, 3), (f.imm &&& 0xfffffffc != 0, 3)]) (.cstat f.hdr d a what)

/-- SQTAB: opcode 0x306. -/
def decSqtab (f : Fields) : Except Nat Instr :=
  let tab := f.c.extractLsb' 0 4
  let d := f.d
  let a := f.src f.a
  let off := f.imm
  verdict (f.common false false ++ [(badSrc f.a 1 false true, 5), (f.b != 0, 3), (f.c &&& 0x3f0 != 0, 3)]) (.sqtab f.hdr d a tab off)

/-- SQDEF: opcode 0x307. -/
def decSqdef (f : Fields) : Except Nat Instr :=
  let d := f.d
  let a := f.src f.a
  let off := f.imm
  verdict (f.common false false ++ [(badSrc f.a 1 false true, 5), (f.b != 0, 3), (f.c != 0, 3)]) (.sqdef f.hdr d a off)

/-- SQGO: opcode 0x308. -/
def decSqgo (f : Fields) : Except Nat Instr :=
  let d := f.d
  let a := f.src f.a
  verdict (f.common false false ++ [(badSrc f.a 1 true true, 5), (f.b != 0, 3), (f.c != 0, 3), (f.imm != 0 && !(isSel f.a), 3)]) (.sqgo f.hdr d a)

/-- SQSTAT: opcode 0x309. -/
def decSqstat (f : Fields) : Except Nat Instr :=
  let what := f.imm.extractLsb' 0 3
  let d := f.d
  let a := f.src f.a
  let b := f.src f.b
  verdict (f.common false false ++ [(badSrc f.a 1 false true, 5), (badSrc f.b 1 false true, 5), (f.c != 0, 3), (f.imm &&& 0xfffffff8 != 0, 3), (!(what != 7), 4)]) (.sqstat f.hdr d a b what)

/-- SQABT: opcode 0x30a. -/
def decSqabt (f : Fields) : Except Nat Instr :=
  let free := f.c.getLsbD 0
  let d := f.d
  let a := f.src f.a
  verdict (f.common false false ++ [(badSrc f.a 1 true true, 5), (f.b != 0, 3), (f.c &&& 0x3fe != 0, 3), (f.imm != 0 && !(isSel f.a), 3)]) (.sqabt f.hdr d a free)

/-- TRAP: opcode 0x340. -/
def decTrap (f : Fields) : Except Nat Instr :=
  let code := f.imm.extractLsb' 0 16
  let kill := f.imm.getLsbD 16
  verdict (f.common false false ++ [(f.d != 0, 3), (f.a != 0, 3), (f.b != 0, 3), (f.c != 0, 3), (f.imm &&& 0xfffe0000 != 0, 3)]) (.trap f.hdr code kill)

/-- RTT: opcode 0x341. -/
def decRtt (f : Fields) : Except Nat Instr :=
  verdict (f.common false false ++ [(f.d != 0, 3), (f.a != 0, 3), (f.b != 0, 3), (f.c &&& 0x3fe != 0, 3), (f.imm != 0, 3)]) (.rtt f.hdr)

/-- RTT_SKIP: opcode 0x341. -/
def decRttSkip (f : Fields) : Except Nat Instr :=
  verdict (f.common false false ++ [(f.d != 0, 3), (f.a != 0, 3), (f.b != 0, 3), (f.c &&& 0x3fe != 0, 3), (f.imm != 0, 3)]) (.rttSkip f.hdr)

/-- SETS: opcode 0x342. -/
def decSets (f : Fields) : Except Nat Instr :=
  let sr := f.d
  let a := f.src f.a
  verdict (f.common false false ++ [(badSrc f.a 1 true true, 5), (f.b != 0, 3), (f.c != 0, 3), (f.imm != 0 && !(isSel f.a), 3), (!(sregWritable sr), 5)]) (.sets f.hdr sr a)

/-- YCHK: opcode 0x343. -/
def decYchk (f : Fields) : Except Nat Instr :=
  let d := f.d
  verdict (f.common false false ++ [(f.a != 0, 3), (f.b != 0, 3), (f.c != 0, 3), (f.imm != 0, 3)]) (.ychk f.hdr d)

/-- WGSAVE: opcode 0x344. -/
def decWgsave (f : Fields) : Except Nat Instr :=
  let d := f.d
  let a := f.src f.a
  let b := f.src f.b
  let off := f.imm
  verdict (f.common false false ++ [(badSrc f.a 2 false false, 5), (badSrc f.b 1 false true, 5), (f.c != 0, 3)]) (.wgsave f.hdr d a b off)

/-- ECNT: opcode 0x345. -/
def decEcnt (f : Fields) : Except Nat Instr :=
  let d := f.d
  verdict (f.common false false ++ [(f.d.toNat % 2 != 0, 5), (f.a != 0, 3), (f.b != 0, 3), (f.c != 0, 3), (f.imm != 0, 3)]) (.ecnt f.hdr d)

/-- TLBINV_PAGE: opcode 0x346. -/
def decTlbinvPage (f : Fields) : Except Nat Instr :=
  let a := f.src f.a
  let b := f.src f.b
  verdict (f.common false false ++ [(f.d != 0, 3), (badSrc f.a 2 false false, 5), (badSrc f.b 1 false true, 5), (f.c &&& 0x3fc != 0, 3), (f.imm != 0, 3)]) (.tlbinvPage f.hdr a b)

/-- TLBINV_ASID: opcode 0x346. -/
def decTlbinvAsid (f : Fields) : Except Nat Instr :=
  let b := f.src f.b
  verdict (f.common false false ++ [(f.d != 0, 3), (f.a != 0, 3), (badSrc f.b 1 false true, 5), (f.c &&& 0x3fc != 0, 3), (f.imm != 0, 3)]) (.tlbinvAsid f.hdr b)

/-- TLBINV_ALL: opcode 0x346. -/
def decTlbinvAll (f : Fields) : Except Nat Instr :=
  verdict (f.common false false ++ [(f.d != 0, 3), (f.a != 0, 3), (f.b != 0, 3), (f.c &&& 0x3fc != 0, 3), (f.imm != 0, 3)]) (.tlbinvAll f.hdr)

/-- ASIDNEW: opcode 0x347. -/
def decAsidnew (f : Fields) : Except Nat Instr :=
  let d := f.d
  let a := f.src f.a
  verdict (f.common false false ++ [(badSrc f.a 1 true true, 5), (f.b != 0, 3), (f.c != 0, 3), (f.imm != 0 && !(isSel f.a), 3)]) (.asidnew f.hdr d a)

/-- HARVEST: opcode 0x348. -/
def decHarvest (f : Fields) : Except Nat Instr :=
  let all := f.c.getLsbD 0
  verdict (f.common false false ++ [(f.d != 0, 3), (f.a != 0, 3), (f.b != 0, 3), (f.c &&& 0x3fe != 0, 3), (f.imm != 0, 3)]) (.harvest f.hdr all)

/-- LOGRD_ENT: opcode 0x349. -/
def decLogrdEnt (f : Fields) : Except Nat Instr :=
  let e := f.imm.extractLsb' 0 3
  let w := f.imm.extractLsb' 4 4
  let d := f.d
  verdict (f.common false false ++ [(f.a != 0, 3), (f.b != 0, 3), (f.c &&& 0x3fc != 0, 3), (f.imm &&& 0xffffff08 != 0, 3), (!((w.toNat ≤ 9)), 4)]) (.logrdEnt f.hdr d e w)

/-- LOGRD_G: opcode 0x349. -/
def decLogrdG (f : Fields) : Except Nat Instr :=
  let n := f.imm.extractLsb' 0 4
  let d := f.d
  verdict (f.common false false ++ [(f.a != 0, 3), (f.b != 0, 3), (f.c &&& 0x3fc != 0, 3), (f.imm &&& 0xfffffff0 != 0, 3)]) (.logrdG f.hdr d n)

/-- LOGRD_PUT: opcode 0x349. -/
def decLogrdPut (f : Fields) : Except Nat Instr :=
  let n := f.imm.extractLsb' 0 4
  let a := f.src f.a
  verdict (f.common false false ++ [(f.d != 0, 3), (badSrc f.a 1 false true, 5), (f.b != 0, 3), (f.c &&& 0x3fc != 0, 3), (f.imm &&& 0xfffffff0 != 0, 3)]) (.logrdPut f.hdr a n)

/-- BKPT: opcode 0x380. -/
def decBkpt (f : Fields) : Except Nat Instr :=
  let code := f.imm.extractLsb' 0 16
  verdict (f.common false false ++ [(f.d != 0, 3), (f.a != 0, 3), (f.b != 0, 3), (f.c != 0, 3), (f.imm &&& 0xffff0000 != 0, 3)]) (.bkpt f.hdr code)

/-- TICK: opcode 0x381. -/
def decTick (f : Fields) : Except Nat Instr :=
  let d := f.d
  verdict (f.common false false ++ [(f.d.toNat % 2 != 0, 5), (f.a != 0, 3), (f.b != 0, 3), (f.c != 0, 3), (f.imm != 0, 3)]) (.tick f.hdr d)

/-- PTPRD: opcode 0x382. -/
def decPtprd (f : Fields) : Except Nat Instr :=
  let d := f.d
  verdict (f.common false false ++ [(f.d.toNat % 4 != 0, 5), (f.a != 0, 3), (f.b != 0, 3), (f.c != 0, 3), (f.imm != 0, 3)]) (.ptprd f.hdr d)

/-- STALLRD: opcode 0x383. -/
def decStallrd (f : Fields) : Except Nat Instr :=
  let i := f.imm.extractLsb' 0 4
  let clr := f.imm.getLsbD 4
  let d := f.d
  verdict (f.common false false ++ [(f.a != 0, 3), (f.b != 0, 3), (f.c != 0, 3), (f.imm &&& 0xffffffe0 != 0, 3)]) (.stallrd f.hdr d i clr)

/-- TRACE: opcode 0x384. -/
def decTrace (f : Fields) : Except Nat Instr :=
  let tag := f.imm.extractLsb' 0 16
  let a := f.src f.a
  verdict (f.common false false ++ [(f.d != 0, 3), (badSrc f.a 1 false true, 5), (f.b != 0, 3), (f.c != 0, 3), (f.imm &&& 0xffff0000 != 0, 3)]) (.trace f.hdr a tag)

/-- PROGR_WG: opcode 0x385. -/
def decProgrWg (f : Fields) : Except Nat Instr :=
  let d := f.d
  verdict (f.common false false ++ [(f.a != 0, 3), (f.b != 0, 3), (f.c &&& 0x3fe != 0, 3), (f.imm != 0, 3)]) (.progrWg f.hdr d)

/-- PROGR_PARK: opcode 0x385. -/
def decProgrPark (f : Fields) : Except Nat Instr :=
  let d := f.d
  let a := f.src f.a
  verdict (f.common false false ++ [(f.d.toNat % 2 != 0, 5), (badSrc f.a 1 false true, 5), (f.b != 0, 3), (f.c &&& 0x3fe != 0, 3), (f.imm != 0, 3)]) (.progrPark f.hdr d a)

/-- Class 0x0, by operation number (R38): control and fibre (R109). -/
def decClass0 (f : Fields) (n : Nat) : Except Nat Instr :=
  match n with
  | 0 => decNop f
  | 1 => decBra f
  | 2 => decBrx f
  | 3 => decCall f
  | 4 => decCallx f
  | 5 => decRet f
  | 6 => decExit f
  | 7 => decSwp f
  | 8 => decFyield f
  | 9 => decFbar f
  | 10 => decWgbar f
  | 11 => decClbar f
  | 12 => decGbar f
  | 13 => decWrel f
  | 14 => decWacq f
  | _ => .error 1

/-- Class 0x1, by operation number (R38): integer arithmetic (R122). -/
def decClass1 (f : Fields) (n : Nat) : Except Nat Instr :=
  match n with
  | 0 => decIadd f
  | 1 => decIsub f
  | 2 => decIaddc f
  | 3 => decImul f
  | 4 => decImad f
  | 5 => decImin f
  | 6 => decImax f
  | 7 => decIabs f
  | 8 => decIneg f
  | 9 => decIdiv f
  | 10 => decIrem f
  | 11 => decIcmp f
  | 12 => decIadds f
  | 13 => decLea f
  | _ => .error 1

/-- Class 0x2, by operation number (R38): logic, shift and bit-field (R125). -/
def decClass2 (f : Fields) (n : Nat) : Except Nat Instr :=
  match n with
  | 0 => decLogic f
  | 1 => decShl f
  | 2 => decShr f
  | 3 => decRot f
  | 4 => decFsh f
  | 5 => decPopc f
  | 6 => decClz f
  | 7 => decCtz f
  | 8 => decBrev f
  | 9 => decBfx f
  | 10 => decBfi f
  | 11 => decPrmt f
  | 12 => decSel f
  | _ => .error 1

/-- Class 0x3, by operation number (R38): predicate, lane, move (R130). -/
def decClass3 (f : Fields) (n : Nat) : Except Nat Instr :=
  match n with
  | 0 => decMov f
  | 1 => decMovi f
  | 2 => decMovs f
  | 3 => decPset f
  | 4 =>
    match (f.c.extractLsb' 0 1).toNat with
    | 0 => decPmov f
    | _ => decPmovIn f
  | 5 => decBallot f
  | 6 => decVote f
  | 7 => decShfl f
  | 8 => decMatchx f
  | 9 => decLredi f
  | 10 => decLscan f
  | 11 => decElect f
  | _ => .error 1

/-- Class 0x4, by operation number (R38): FP32 arithmetic and lane reductions (R142). -/
def decClass4 (f : Fields) (n : Nat) : Except Nat Instr :=
  match n with
  | 0 => decFadd f
  | 1 => decFsub f
  | 2 => decFmul f
  | 3 => decFfma f
  | 4 => decFmin f
  | 5 => decFmax f
  | 6 => decFminn f
  | 7 => decFmaxn f
  | 8 => decFcmp f
  | 9 => decFabs f
  | 10 => decFneg f
  | 11 => decFclass f
  | 12 => decFdiv f
  | 13 => decFsqrt f
  | 14 => decFrcp f
  | 15 => decFrsq f
  | 16 => decFexp2 f
  | 17 => decFlog2 f
  | 18 => decFsin f
  | 19 => decFcos f
  | 20 => decFtanh f
  | 21 =>
    match (f.c.extractLsb' 4 1).toNat with
    | 0 => decFlredm f
    | _ => decFlredmTile f
  | 22 => decFlsum f
  | 23 => decFscale f
  | _ => .error 1

/-- Class 0x5, by operation number (R38): conversion, packed 16-bit, quantisation, bins (R151). -/
def decClass5 (f : Fields) (n : Nat) : Except Nat Instr :=
  match n with
  | 0 =>
    match (f.imm.extractLsb' 8 1).toNat with
    | 0 => decFcvt f
    | _ => decFcvtWid f
  | 1 => decF2i f
  | 2 => decI2f f
  | 3 => decFrnd f
  | 4 => decFpack f
  | 5 => decFunpk f
  | 6 => decHadd2 f
  | 7 => decHmul2 f
  | 8 => decHfma2 f
  | 9 => decHmin2 f
  | 10 => decHmax2 f
  | 11 => decQscale f
  | 12 => decQnt f
  | 13 => decBincv f
  | 14 => decBinadd f
  | 15 => decBinfp f
  | _ => .error 1

/-- Class 0x6, by operation number (R38): matrix issue (R177, R178). -/
def decClass6 (f : Fields) (n : Nat) : Except Nat Instr :=
  match n with
  | 0 => decMmaq f
  | 1 => decMmaqs f
  | 2 => decMzero f
  | 3 => decMrd f
  | 4 => decMwr f
  | 5 => decMldt f
  | 6 => decMstt f
  | 7 => decMsend f
  | 8 => decMsync f
  | _ => .error 1

/-- Class 0x7, by operation number (R38): matrix supply (R206). -/
def decClass7 (f : Fields) (n : Nat) : Except Nat Instr :=
  match n with
  | 0 => decMcfg f
  | 1 => decMcfgr f
  | 2 => decWload f
  | 3 => decWdict f
  | 4 => decWset f
  | 5 => decWfree f
  | 6 => decWqry f
  | 7 => decMmon f
  | _ => .error 1

/-- Class 0x8, by operation number (R38): memory access (R232). -/
def decClass8 (f : Fields) (n : Nat) : Except Nat Instr :=
  match n with
  | 0 => decLd f
  | 1 => decSt f
  | 2 => decLds f
  | 3 => decSts f
  | 4 => decLdc f
  | 5 => decPref f
  | 6 => decPres f
  | 7 => decPclr f
  | 8 => decCwb f
  | 9 => decCinv f
  | 10 => decLock f
  | 11 => decUnlock f
  | _ => .error 1

/-- Class 0x9, by operation number (R38): atomics, ordering, race checking (R263, R292). -/
def decClass9 (f : Fields) (n : Nat) : Except Nat Instr :=
  match n with
  | 0 => decAtom f
  | 1 => decRed f
  | 2 => decLdacq f
  | 3 => decStrel f
  | 4 => decFence f
  | 5 => decWaitv f
  | 6 => decHbpub f
  | 7 => decHbjoin f
  | 8 =>
    match (f.c.extractLsb' 0 3).toNat with
    | 0 => decRacectlTrap f
    | 1 => decRacectlReport f
    | 2 => decRacectlOff f
    | 3 => decRacectlOn f
    | 4 => decRacectlRdun f
    | 5 => decRacectlForget f
    | _ => .error (badForm [decRacectlTrap f, decRacectlReport f, decRacectlOff f, decRacectlOn f, decRacectlRdun f, decRacectlForget f])
  | 9 =>
    match (f.c.extractLsb' 0 1).toNat with
    | 0 => decHbclk f
    | _ => decHbclkVec f
  | _ => .error 1

/-- Class 0xA, by operation number (R38): asynchronous copy and network (R310). -/
def decClassA (f : Fields) (n : Nat) : Except Nat Instr :=
  match n with
  | 0 => decCpyk f
  | 1 => decSbinit f
  | 2 => decSbadd f
  | 3 => decSbwait f
  | 4 => decSbtest f
  | 5 => decCpyres f
  | 6 => decNrxarm f
  | 7 => decNtx f
  | 8 =>
    match (f.c.extractLsb' 0 2).toNat with
    | 0 => decNtsrSt f
    | 1 => decNtsrTick f
    | 2 => decNtsrPtp f
    | _ => .error (badForm [decNtsrSt f, decNtsrTick f, decNtsrPtp f])
  | _ => .error 1

/-- Class 0xB, by operation number (R38): task and launch (R348). -/
def decClassB (f : Fields) (n : Nat) : Except Nat Instr :=
  match n with
  | 0 => decLaunch f
  | 1 => decTnode f
  | 2 => decTedge f
  | 3 => decTdone f
  | 4 => decTspawn f
  | 5 => decTstat f
  | 6 =>
    match (f.c.extractLsb' 0 1).toNat with
    | 0 => decTrearm f
    | _ => decTrearmFree f
  | _ => .error 1

/-- Class 0xC, by operation number (R38): collective and sequencer (R365, R383). -/
def decClassC (f : Fields) (n : Nat) : Except Nat Instr :=
  match n with
  | 0 => decCred f
  | 1 => decCrsc f
  | 2 => decCagt f
  | 3 => decCbct f
  | 4 => decCwait f
  | 5 => decCstat f
  | 6 => decSqtab f
  | 7 => decSqdef f
  | 8 => decSqgo f
  | 9 => decSqstat f
  | 10 => decSqabt f
  | _ => .error 1

/-- Class 0xD, by operation number (R38): system and trap (R409). -/
def decClassD (f : Fields) (n : Nat) : Except Nat Instr :=
  match n with
  | 0 => decTrap f
  | 1 =>
    match (f.c.extractLsb' 0 1).toNat with
    | 0 => decRtt f
    | _ => decRttSkip f
  | 2 => decSets f
  | 3 => decYchk f
  | 4 => decWgsave f
  | 5 => decEcnt f
  | 6 =>
    match (f.c.extractLsb' 0 2).toNat with
    | 0 => decTlbinvPage f
    | 1 => decTlbinvAsid f
    | 2 => decTlbinvAll f
    | _ => .error (badForm [decTlbinvPage f, decTlbinvAsid f, decTlbinvAll f])
  | 7 => decAsidnew f
  | 8 => decHarvest f
  | 9 =>
    match (f.c.extractLsb' 0 2).toNat with
    | 0 => decLogrdEnt f
    | 1 => decLogrdG f
    | 2 => decLogrdPut f
    | _ => .error (badForm [decLogrdEnt f, decLogrdG f, decLogrdPut f])
  | _ => .error 1

/-- Class 0xE, by operation number (R38): debug and trace (R419). -/
def decClassE (f : Fields) (n : Nat) : Except Nat Instr :=
  match n with
  | 0 => decBkpt f
  | 1 => decTick f
  | 2 => decPtprd f
  | 3 => decStallrd f
  | 4 => decTrace f
  | 5 =>
    match (f.c.extractLsb' 0 1).toNat with
    | 0 => decProgrWg f
    | _ => decProgrPark f
  | _ => .error 1

/-- The instruction of a word that has a guard, by its class (R38); class 0xF is one row of its own, whose other fields the
decoder does not check (R39). -/
def decodeGuarded (f : Fields) : Except Nat Instr :=
  let n := (f.op.extractLsb' 0 6).toNat
  match (f.op.extractLsb' 6 4).toNat with
  | 0 => decClass0 f n
  | 1 => decClass1 f n
  | 2 => decClass2 f n
  | 3 => decClass3 f n
  | 4 => decClass4 f n
  | 5 => decClass5 f n
  | 6 => decClass6 f n
  | 7 => decClass7 f n
  | 8 => decClass8 f n
  | 9 => decClass9 f n
  | 10 => decClassA f n
  | 11 => decClassB f n
  | 12 => decClassC f n
  | 13 => decClassD f n
  | 14 => decClassE f n
  | _ => .ok (.legacyBehaviour f.neg f.gp f.toWord)

/-- The instruction of some fields. A (!p7) word is the no-op, whatever else it holds (R34). -/
def decodeFields (f : Fields) : Except Nat Instr := if f.neg && f.gp == 7 then .ok (.nop Hdr.never) else decodeGuarded f

/-- The instruction of a 96-bit word, or the subcode of R42 that rejects it. -/
def decode (w : BitVec 96) : Except Nat Instr := decodeFields (Fields.ofWord w)

/-- The 96-bit word of bytes in memory order, little-endian; only the first 12 count (R23). -/
def wordOfBytes (l : List Byte) : BitVec 96 :=
  BitVec.ofNat 96 ((l.take 12).foldr (fun b n => b.toNat + 256 * n) 0)

/-- The 12 bytes of a word in memory order (R23). -/
def bytesOfWord (w : BitVec 96) : List Byte := (List.range 12).map (fun k => w.extractLsb' (8 * k) 8)

/-- The instruction that 12 bytes of memory hold. -/
def decodeBytes (l : List Byte) : Except Nat Instr := decode (wordOfBytes l)

/-- The instruction of a word whose bits are numbered from the least significant bit of its first byte; the bits from
`nbits` on are zero. -/
def decodeTableWord (nbits w : Nat) : Option Instr :=
  match decodeBytes (bytesOfWord (BitVec.ofNat 96 (w % 2 ^ nbits))) with
  | .ok i => some i
  | .error _ => none

/-! ### The encoder -/

/-- The fields of a well-formed instruction; the event rows have none. -/
def encodeFields : Instr → Option Fields
  | .nop h => some ((Fields.ofHdr h) |> fun z => { z with op := 0x000#10 })
  | .bra h off => some ((Fields.ofHdr h) |> fun z => { z with op := 0x001#10, imm := off })
  | .brx h u a => some ((Fields.ofHdr h) |> fun z => { z with op := 0x002#10, u := u, a := a.bits })
  | .call h d off => some ((Fields.ofHdr h) |> fun z => { z with op := 0x003#10, d := d, imm := off })
  | .callx h u d a => some ((Fields.ofHdr h) |> fun z => { z with op := 0x004#10, u := u, d := d, a := a.bits })
  | .ret h a => some ((Fields.ofHdr h) |> fun z => { z with op := 0x005#10, a := a.bits })
  | .exit h => some ((Fields.ofHdr h) |> fun z => { z with op := 0x006#10 })
  | .swp h n => some ((Fields.ofHdr h) |> fun z => { z with op := 0x007#10, imm := (0#30 ++ n).setWidth 32 })
  | .fyield h => some ((Fields.ofHdr h) |> fun z => { z with op := 0x008#10 })
  | .fbar h id arv mask => some ((Fields.ofHdr h) |> fun z => { z with op := 0x009#10, imm := (0#24 ++ mask ++ 0#1 ++ BitVec.ofBool arv ++ id).setWidth 32 })
  | .wgbar h id arv => some ((Fields.ofHdr h) |> fun z => { z with op := 0x00a#10, imm := (0#28 ++ BitVec.ofBool arv ++ id).setWidth 32 })
  | .clbar h id arv => some ((Fields.ofHdr h) |> fun z => { z with op := 0x00b#10, imm := (0#28 ++ BitVec.ofBool arv ++ 0#2 ++ id).setWidth 32 })
  | .gbar h arv => some ((Fields.ofHdr h) |> fun z => { z with op := 0x00c#10, imm := (0#28 ++ BitVec.ofBool arv ++ 0#3).setWidth 32 })
  | .wrel h w => some ((Fields.ofHdr h) |> fun z => { z with op := 0x00d#10, imm := (0#30 ++ w).setWidth 32 })
  | .wacq h w => some ((Fields.ofHdr h) |> fun z => { z with op := 0x00e#10, imm := (0#30 ++ w).setWidth 32 })
  | .iadd h u d a b x2 => some ((Fields.ofHdr h) |> fun z => { z with op := 0x040#10, u := u, nw := d.nw, latch := d.latchNo, d := d.number, a := a.bits, b := b.bits, c := (0#8 ++ BitVec.ofBool x2 ++ 0#1).setWidth 10, imm := immOf [a, b] })
  | .isub h u d a b x2 => some ((Fields.ofHdr h) |> fun z => { z with op := 0x041#10, u := u, nw := d.nw, latch := d.latchNo, d := d.number, a := a.bits, b := b.bits, c := (0#8 ++ BitVec.ofBool x2 ++ 0#1).setWidth 10, imm := immOf [a, b] })
  | .iaddc h u d a b cin cneg cout => some ((Fields.ofHdr h) |> fun z => { z with op := 0x042#10, u := u, nw := d.nw, latch := d.latchNo, d := d.number, a := a.bits, b := b.bits, c := (0#3 ++ cout ++ BitVec.ofBool cneg ++ cin).setWidth 10, imm := immOf [a, b] })
  | .imul h u d a b sgn part => some ((Fields.ofHdr h) |> fun z => { z with op := 0x043#10, u := u, nw := d.nw, latch := d.latchNo, d := d.number, a := a.bits, b := b.bits, c := (0#5 ++ part.bits ++ 0#2 ++ BitVec.ofBool sgn).setWidth 10, imm := immOf [a, b] })
  | .imad h u d a b c sgn wide => some ((Fields.ofHdr h) |> fun z => { z with op := 0x044#10, u := u, nw := d.nw, latch := d.latchNo, d := d.number, a := a.bits, b := b.bits, c := c.bits, imm := (0#30 ++ BitVec.ofBool wide ++ BitVec.ofBool sgn).setWidth 32 })
  | .imin h u d a b sgn => some ((Fields.ofHdr h) |> fun z => { z with op := 0x045#10, u := u, nw := d.nw, latch := d.latchNo, d := d.number, a := a.bits, b := b.bits, c := (0#9 ++ BitVec.ofBool sgn).setWidth 10, imm := immOf [a, b] })
  | .imax h u d a b sgn => some ((Fields.ofHdr h) |> fun z => { z with op := 0x046#10, u := u, nw := d.nw, latch := d.latchNo, d := d.number, a := a.bits, b := b.bits, c := (0#9 ++ BitVec.ofBool sgn).setWidth 10, imm := immOf [a, b] })
  | .iabs h u d a sat => some ((Fields.ofHdr h) |> fun z => { z with op := 0x047#10, u := u, nw := d.nw, latch := d.latchNo, d := d.number, a := a.bits, c := (0#7 ++ BitVec.ofBool sat ++ 0#2).setWidth 10, imm := immOf [a] })
  | .ineg h u d a x2 sat => some ((Fields.ofHdr h) |> fun z => { z with op := 0x048#10, u := u, nw := d.nw, latch := d.latchNo, d := d.number, a := a.bits, c := (0#7 ++ BitVec.ofBool sat ++ BitVec.ofBool x2 ++ 0#1).setWidth 10, imm := immOf [a] })
  | .idiv h u d a b sgn x2 => some ((Fields.ofHdr h) |> fun z => { z with op := 0x049#10, u := u, nw := d.nw, latch := d.latchNo, d := d.number, a := a.bits, b := b.bits, c := (0#8 ++ BitVec.ofBool x2 ++ BitVec.ofBool sgn).setWidth 10, imm := immOf [a, b] })
  | .irem h u d a b sgn x2 => some ((Fields.ofHdr h) |> fun z => { z with op := 0x04a#10, u := u, nw := d.nw, latch := d.latchNo, d := d.number, a := a.bits, b := b.bits, c := (0#8 ++ BitVec.ofBool x2 ++ BitVec.ofBool sgn).setWidth 10, imm := immOf [a, b] })
  | .icmp h u pd a b sgn x2 cc => some ((Fields.ofHdr h) |> fun z => { z with op := 0x04b#10, u := u, d := (0#5 ++ pd).setWidth 8, a := a.bits, b := b.bits, c := (0#3 ++ cc.bits ++ 0#2 ++ BitVec.ofBool x2 ++ BitVec.ofBool sgn).setWidth 10, imm := immOf [a, b] })
  | .iadds h u d a b sgn sub => some ((Fields.ofHdr h) |> fun z => { z with op := 0x04c#10, u := u, nw := d.nw, latch := d.latchNo, d := d.number, a := a.bits, b := b.bits, c := (0#7 ++ BitVec.ofBool sub ++ 0#1 ++ BitVec.ofBool sgn).setWidth 10, imm := immOf [a, b] })
  | .lea h u d a b sgn sh => some ((Fields.ofHdr h) |> fun z => { z with op := 0x04d#10, u := u, nw := d.nw, latch := d.latchNo, d := d.number, a := a.bits, b := b.bits, c := (0#3 ++ sh ++ 0#3 ++ BitVec.ofBool sgn).setWidth 10, imm := immOf [a, b] })
  | .logic h u d a b c lut => some ((Fields.ofHdr h) |> fun z => { z with op := 0x080#10, u := u, nw := d.nw, latch := d.latchNo, d := d.number, a := a.bits, b := b.bits, c := c.bits, imm := (0#24 ++ lut).setWidth 32 })
  | .shl h u d a b x2 => some ((Fields.ofHdr h) |> fun z => { z with op := 0x081#10, u := u, nw := d.nw, latch := d.latchNo, d := d.number, a := a.bits, b := b.bits, c := (0#8 ++ BitVec.ofBool x2 ++ 0#1).setWidth 10, imm := immOf [a, b] })
  | .shr h u d a b sgn x2 => some ((Fields.ofHdr h) |> fun z => { z with op := 0x082#10, u := u, nw := d.nw, latch := d.latchNo, d := d.number, a := a.bits, b := b.bits, c := (0#8 ++ BitVec.ofBool x2 ++ BitVec.ofBool sgn).setWidth 10, imm := immOf [a, b] })
  | .rot h u d a b => some ((Fields.ofHdr h) |> fun z => { z with op := 0x083#10, u := u, nw := d.nw, latch := d.latchNo, d := d.number, a := a.bits, b := b.bits, imm := immOf [a, b] })
  | .fsh h u d a b c left => some ((Fields.ofHdr h) |> fun z => { z with op := 0x084#10, u := u, nw := d.nw, latch := d.latchNo, d := d.number, a := a.bits, b := b.bits, c := c.bits, imm := (0#31 ++ BitVec.ofBool left).setWidth 32 })
  | .popc h u d a x2 => some ((Fields.ofHdr h) |> fun z => { z with op := 0x085#10, u := u, nw := d.nw, latch := d.latchNo, d := d.number, a := a.bits, c := (0#8 ++ BitVec.ofBool x2 ++ 0#1).setWidth 10, imm := immOf [a] })
  | .clz h u d a x2 => some ((Fields.ofHdr h) |> fun z => { z with op := 0x086#10, u := u, nw := d.nw, latch := d.latchNo, d := d.number, a := a.bits, c := (0#8 ++ BitVec.ofBool x2 ++ 0#1).setWidth 10, imm := immOf [a] })
  | .ctz h u d a x2 => some ((Fields.ofHdr h) |> fun z => { z with op := 0x087#10, u := u, nw := d.nw, latch := d.latchNo, d := d.number, a := a.bits, c := (0#8 ++ BitVec.ofBool x2 ++ 0#1).setWidth 10, imm := immOf [a] })
  | .brev h u d a x2 => some ((Fields.ofHdr h) |> fun z => { z with op := 0x088#10, u := u, nw := d.nw, latch := d.latchNo, d := d.number, a := a.bits, c := (0#8 ++ BitVec.ofBool x2 ++ 0#1).setWidth 10, imm := immOf [a] })
  | .bfx h u d a b sgn => some ((Fields.ofHdr h) |> fun z => { z with op := 0x089#10, u := u, nw := d.nw, latch := d.latchNo, d := d.number, a := a.bits, b := b.bits, c := (0#9 ++ BitVec.ofBool sgn).setWidth 10, imm := immOf [a, b] })
  | .bfi h u d a b c => some ((Fields.ofHdr h) |> fun z => { z with op := 0x08a#10, u := u, nw := d.nw, latch := d.latchNo, d := d.number, a := a.bits, b := b.bits, c := c.bits, imm := immOf [a, b, c] })
  | .prmt h u d a b c => some ((Fields.ofHdr h) |> fun z => { z with op := 0x08b#10, u := u, nw := d.nw, latch := d.latchNo, d := d.number, a := a.bits, b := b.bits, c := c.bits, imm := immOf [a, b, c] })
  | .sel h u d a b p pneg => some ((Fields.ofHdr h) |> fun z => { z with op := 0x08c#10, u := u, nw := d.nw, latch := d.latchNo, d := d.number, a := a.bits, b := b.bits, c := (0#6 ++ BitVec.ofBool pneg ++ p).setWidth 10, imm := immOf [a, b] })
  | .mov h u d a x2 => some ((Fields.ofHdr h) |> fun z => { z with op := 0x0c0#10, u := u, nw := d.nw, latch := d.latchNo, d := d.number, a := a.bits, c := (0#8 ++ BitVec.ofBool x2 ++ 0#1).setWidth 10, imm := immOf [a] })
  | .movi h u d sgn x2 imm => some ((Fields.ofHdr h) |> fun z => { z with op := 0x0c1#10, u := u, nw := d.nw, latch := d.latchNo, d := d.number, c := (0#8 ++ BitVec.ofBool x2 ++ BitVec.ofBool sgn).setWidth 10, imm := imm })
  | .movs h u d sr => some ((Fields.ofHdr h) |> fun z => { z with op := 0x0c2#10, u := u, nw := d.nw, latch := d.latchNo, d := d.number, a := (0#2 ++ sr).setWidth 10 })
  | .pset h u pd pa pb pc lut => some ((Fields.ofHdr h) |> fun z => { z with op := 0x0c3#10, u := u, d := (0#5 ++ pd).setWidth 8, a := (0#7 ++ pa).setWidth 10, b := (0#7 ++ pb).setWidth 10, c := (0#7 ++ pc).setWidth 10, imm := (0#24 ++ lut).setWidth 32 })
  | .pmov h u d => some ((Fields.ofHdr h) |> fun z => { z with op := 0x0c4#10, u := u, nw := d.nw, latch := d.latchNo, d := d.number, c := (0#9 ++ 0#1).setWidth 10 })
  | .pmovIn h u a mask => some ((Fields.ofHdr h) |> fun z => { z with op := 0x0c4#10, u := u, a := a.bits, c := (0#9 ++ 1#1).setWidth 10, imm := (0#25 ++ mask).setWidth 32 })
  | .ballot h d p pneg cnt conv => some ((Fields.ofHdr h) |> fun z => { z with op := 0x0c5#10, nw := d.nw, latch := d.latchNo, d := d.number, a := (0#6 ++ BitVec.ofBool pneg ++ p).setWidth 10, c := (0#2 ++ BitVec.ofBool conv ++ 0#6 ++ BitVec.ofBool cnt).setWidth 10 })
  | .vote h pd p pneg mode conv => some ((Fields.ofHdr h) |> fun z => { z with op := 0x0c6#10, d := (0#5 ++ pd).setWidth 8, a := (0#6 ++ BitVec.ofBool pneg ++ p).setWidth 10, c := (0#2 ++ BitVec.ofBool conv ++ 0#5 ++ mode.bits).setWidth 10 })
  | .shfl h d a b mode seg zf conv => some ((Fields.ofHdr h) |> fun z => { z with op := 0x0c7#10, nw := d.nw, latch := d.latchNo, d := d.number, a := a.bits, b := b.bits, c := (0#2 ++ BitVec.ofBool conv ++ BitVec.ofBool zf ++ seg ++ mode.bits).setWidth 10, imm := immOf [a, b] })
  | .matchx h d a x2 low conv => some ((Fields.ofHdr h) |> fun z => { z with op := 0x0c8#10, nw := d.nw, latch := d.latchNo, d := d.number, a := a.bits, c := (0#2 ++ BitVec.ofBool conv ++ 0#2 ++ BitVec.ofBool low ++ 0#2 ++ BitVec.ofBool x2 ++ 0#1).setWidth 10, imm := immOf [a] })
  | .lredi h d a sgn q op conv => some ((Fields.ofHdr h) |> fun z => { z with op := 0x0c9#10, nw := d.nw, latch := d.latchNo, d := d.number, a := a.bits, c := (0#2 ++ BitVec.ofBool conv ++ op.bits ++ 0#1 ++ BitVec.ofBool q ++ 0#1 ++ BitVec.ofBool sgn).setWidth 10, imm := immOf [a] })
  | .lscan h d a sgn q excl op conv => some ((Fields.ofHdr h) |> fun z => { z with op := 0x0ca#10, nw := d.nw, latch := d.latchNo, d := d.number, a := a.bits, c := (0#2 ++ BitVec.ofBool conv ++ op.bits ++ BitVec.ofBool excl ++ BitVec.ofBool q ++ 0#1 ++ BitVec.ofBool sgn).setWidth 10, imm := immOf [a] })
  | .elect h pd high conv => some ((Fields.ofHdr h) |> fun z => { z with op := 0x0cb#10, d := (0#5 ++ pd).setWidth 8, c := (0#2 ++ BitVec.ofBool conv ++ 0#6 ++ BitVec.ofBool high).setWidth 10 })
  | .fadd h u d a b rnd sat => some ((Fields.ofHdr h) |> fun z => { z with op := 0x100#10, u := u, nw := d.nw, latch := d.latchNo, d := d.number, a := a.bits, b := b.bits, c := (0#6 ++ BitVec.ofBool sat ++ rnd.bits).setWidth 10, imm := immOf [a, b] })
  | .fsub h u d a b rnd sat => some ((Fields.ofHdr h) |> fun z => { z with op := 0x101#10, u := u, nw := d.nw, latch := d.latchNo, d := d.number, a := a.bits, b := b.bits, c := (0#6 ++ BitVec.ofBool sat ++ rnd.bits).setWidth 10, imm := immOf [a, b] })
  | .fmul h u d a b rnd sat => some ((Fields.ofHdr h) |> fun z => { z with op := 0x102#10, u := u, nw := d.nw, latch := d.latchNo, d := d.number, a := a.bits, b := b.bits, c := (0#6 ++ BitVec.ofBool sat ++ rnd.bits).setWidth 10, imm := immOf [a, b] })
  | .ffma h u d a b c rnd sat => some ((Fields.ofHdr h) |> fun z => { z with op := 0x103#10, u := u, nw := d.nw, latch := d.latchNo, d := d.number, a := a.bits, b := b.bits, c := c.bits, imm := (0#28 ++ BitVec.ofBool sat ++ rnd.bits).setWidth 32 })
  | .fmin h u d a b => some ((Fields.ofHdr h) |> fun z => { z with op := 0x104#10, u := u, nw := d.nw, latch := d.latchNo, d := d.number, a := a.bits, b := b.bits, imm := immOf [a, b] })
  | .fmax h u d a b => some ((Fields.ofHdr h) |> fun z => { z with op := 0x105#10, u := u, nw := d.nw, latch := d.latchNo, d := d.number, a := a.bits, b := b.bits, imm := immOf [a, b] })
  | .fminn h u d a b => some ((Fields.ofHdr h) |> fun z => { z with op := 0x106#10, u := u, nw := d.nw, latch := d.latchNo, d := d.number, a := a.bits, b := b.bits, imm := immOf [a, b] })
  | .fmaxn h u d a b => some ((Fields.ofHdr h) |> fun z => { z with op := 0x107#10, u := u, nw := d.nw, latch := d.latchNo, d := d.number, a := a.bits, b := b.bits, imm := immOf [a, b] })
  | .fcmp h u pd a b cc => some ((Fields.ofHdr h) |> fun z => { z with op := 0x108#10, u := u, d := (0#5 ++ pd).setWidth 8, a := a.bits, b := b.bits, c := (0#3 ++ cc.bits ++ 0#4).setWidth 10, imm := immOf [a, b] })
  | .fabs h u d a => some ((Fields.ofHdr h) |> fun z => { z with op := 0x109#10, u := u, nw := d.nw, latch := d.latchNo, d := d.number, a := a.bits, imm := immOf [a] })
  | .fneg h u d a => some ((Fields.ofHdr h) |> fun z => { z with op := 0x10a#10, u := u, nw := d.nw, latch := d.latchNo, d := d.number, a := a.bits, imm := immOf [a] })
  | .fclass h u d a => some ((Fields.ofHdr h) |> fun z => { z with op := 0x10b#10, u := u, nw := d.nw, latch := d.latchNo, d := d.number, a := a.bits, imm := immOf [a] })
  | .fdiv h u d a b rnd => some ((Fields.ofHdr h) |> fun z => { z with op := 0x10c#10, u := u, nw := d.nw, latch := d.latchNo, d := d.number, a := a.bits, b := b.bits, c := (0#7 ++ rnd.bits).setWidth 10, imm := immOf [a, b] })
  | .fsqrt h u d a rnd => some ((Fields.ofHdr h) |> fun z => { z with op := 0x10d#10, u := u, nw := d.nw, latch := d.latchNo, d := d.number, a := a.bits, c := (0#7 ++ rnd.bits).setWidth 10, imm := immOf [a] })
  | .frcp h u d a rnd => some ((Fields.ofHdr h) |> fun z => { z with op := 0x10e#10, u := u, nw := d.nw, latch := d.latchNo, d := d.number, a := a.bits, c := (0#7 ++ rnd.bits).setWidth 10, imm := immOf [a] })
  | .frsq h u d a rnd => some ((Fields.ofHdr h) |> fun z => { z with op := 0x10f#10, u := u, nw := d.nw, latch := d.latchNo, d := d.number, a := a.bits, c := (0#7 ++ rnd.bits).setWidth 10, imm := immOf [a] })
  | .fexp2 h u d a rnd => some ((Fields.ofHdr h) |> fun z => { z with op := 0x110#10, u := u, nw := d.nw, latch := d.latchNo, d := d.number, a := a.bits, c := (0#7 ++ rnd.bits).setWidth 10, imm := immOf [a] })
  | .flog2 h u d a rnd => some ((Fields.ofHdr h) |> fun z => { z with op := 0x111#10, u := u, nw := d.nw, latch := d.latchNo, d := d.number, a := a.bits, c := (0#7 ++ rnd.bits).setWidth 10, imm := immOf [a] })
  | .fsin h u d a rnd => some ((Fields.ofHdr h) |> fun z => { z with op := 0x112#10, u := u, nw := d.nw, latch := d.latchNo, d := d.number, a := a.bits, c := (0#7 ++ rnd.bits).setWidth 10, imm := immOf [a] })
  | .fcos h u d a rnd => some ((Fields.ofHdr h) |> fun z => { z with op := 0x113#10, u := u, nw := d.nw, latch := d.latchNo, d := d.number, a := a.bits, c := (0#7 ++ rnd.bits).setWidth 10, imm := immOf [a] })
  | .ftanh h u d a rnd => some ((Fields.ofHdr h) |> fun z => { z with op := 0x114#10, u := u, nw := d.nw, latch := d.latchNo, d := d.number, a := a.bits, c := (0#7 ++ rnd.bits).setWidth 10, imm := immOf [a] })
  | .flredm h d a max q conv => some ((Fields.ofHdr h) |> fun z => { z with op := 0x115#10, nw := d.nw, latch := d.latchNo, d := d.number, a := a.bits, c := (0#2 ++ BitVec.ofBool conv ++ BitVec.ofBool q ++ BitVec.ofBool max ++ 0#1 ++ 0#4).setWidth 10, imm := immOf [a] })
  | .flredmTile h d a tile max => some ((Fields.ofHdr h) |> fun z => { z with op := 0x115#10, nw := d.nw, latch := d.latchNo, d := d.number, a := a.bits, b := (0#6 ++ tile).setWidth 10, c := (0#4 ++ BitVec.ofBool max ++ 1#1 ++ 0#4).setWidth 10 })
  | .flsum h d a rnd q conv => some ((Fields.ofHdr h) |> fun z => { z with op := 0x116#10, nw := d.nw, latch := d.latchNo, d := d.number, a := a.bits, c := (0#2 ++ BitVec.ofBool conv ++ BitVec.ofBool q ++ 0#3 ++ rnd.bits).setWidth 10, imm := immOf [a] })
  | .fscale h u d a b rnd sat => some ((Fields.ofHdr h) |> fun z => { z with op := 0x117#10, u := u, nw := d.nw, latch := d.latchNo, d := d.number, a := a.bits, b := b.bits, c := (0#6 ++ BitVec.ofBool sat ++ rnd.bits).setWidth 10, imm := immOf [a, b] })
  | .fcvt h u d a rnd sat fmt => some ((Fields.ofHdr h) |> fun z => { z with op := 0x140#10, u := u, nw := d.nw, latch := d.latchNo, d := d.number, a := a.bits, imm := (0#23 ++ 0#1 ++ fmt.bits ++ BitVec.ofBool sat ++ rnd.bits).setWidth 32 })
  | .fcvtWid h u d a fmt => some ((Fields.ofHdr h) |> fun z => { z with op := 0x140#10, u := u, nw := d.nw, latch := d.latchNo, d := d.number, a := a.bits, imm := (0#23 ++ 1#1 ++ fmt.bits ++ 0#4).setWidth 32 })
  | .f2i h u d a sgn x2 rnd => some ((Fields.ofHdr h) |> fun z => { z with op := 0x141#10, u := u, nw := d.nw, latch := d.latchNo, d := d.number, a := a.bits, c := (0#3 ++ rnd.bits ++ 0#2 ++ BitVec.ofBool x2 ++ BitVec.ofBool sgn).setWidth 10, imm := immOf [a] })
  | .i2f h u d a sgn x2 rnd => some ((Fields.ofHdr h) |> fun z => { z with op := 0x142#10, u := u, nw := d.nw, latch := d.latchNo, d := d.number, a := a.bits, c := (0#3 ++ rnd.bits ++ 0#2 ++ BitVec.ofBool x2 ++ BitVec.ofBool sgn).setWidth 10, imm := immOf [a] })
  | .frnd h u d a rnd => some ((Fields.ofHdr h) |> fun z => { z with op := 0x143#10, u := u, nw := d.nw, latch := d.latchNo, d := d.number, a := a.bits, c := (0#7 ++ rnd.bits).setWidth 10, imm := immOf [a] })
  | .fpack h u d a b c rnd sat fmt pos => some ((Fields.ofHdr h) |> fun z => { z with op := 0x144#10, u := u, nw := d.nw, latch := d.latchNo, d := d.number, a := a.bits, b := b.bits, c := c.bits, imm := (0#22 ++ pos ++ fmt.bits ++ BitVec.ofBool sat ++ rnd.bits).setWidth 32 })
  | .funpk h u d a idx x2 fmt => some ((Fields.ofHdr h) |> fun z => { z with op := 0x145#10, u := u, nw := d.nw, latch := d.latchNo, d := d.number, a := a.bits, imm := (0#24 ++ fmt.bits ++ BitVec.ofBool x2 ++ idx).setWidth 32 })
  | .hadd2 h u d a b rnd sat fmt => some ((Fields.ofHdr h) |> fun z => { z with op := 0x146#10, u := u, nw := d.nw, latch := d.latchNo, d := d.number, a := a.bits, b := b.bits, c := (0#2 ++ fmt.bits ++ BitVec.ofBool sat ++ rnd.bits).setWidth 10, imm := immOf [a, b] })
  | .hmul2 h u d a b rnd sat fmt => some ((Fields.ofHdr h) |> fun z => { z with op := 0x147#10, u := u, nw := d.nw, latch := d.latchNo, d := d.number, a := a.bits, b := b.bits, c := (0#2 ++ fmt.bits ++ BitVec.ofBool sat ++ rnd.bits).setWidth 10, imm := immOf [a, b] })
  | .hfma2 h u d a b c rnd sat fmt => some ((Fields.ofHdr h) |> fun z => { z with op := 0x148#10, u := u, nw := d.nw, latch := d.latchNo, d := d.number, a := a.bits, b := b.bits, c := c.bits, imm := (0#24 ++ fmt.bits ++ BitVec.ofBool sat ++ rnd.bits).setWidth 32 })
  | .hmin2 h u d a b num fmt => some ((Fields.ofHdr h) |> fun z => { z with op := 0x149#10, u := u, nw := d.nw, latch := d.latchNo, d := d.number, a := a.bits, b := b.bits, c := (0#2 ++ fmt.bits ++ BitVec.ofBool num ++ 0#3).setWidth 10, imm := immOf [a, b] })
  | .hmax2 h u d a b num fmt => some ((Fields.ofHdr h) |> fun z => { z with op := 0x14a#10, u := u, nw := d.nw, latch := d.latchNo, d := d.number, a := a.bits, b := b.bits, c := (0#2 ++ fmt.bits ++ BitVec.ofBool num ++ 0#3).setWidth 10, imm := immOf [a, b] })
  | .qscale h u d a fit fmt => some ((Fields.ofHdr h) |> fun z => { z with op := 0x14b#10, u := u, nw := d.nw, latch := d.latchNo, d := d.number, a := a.bits, c := (0#2 ++ fmt.bits ++ 0#3 ++ BitVec.ofBool fit).setWidth 10, imm := immOf [a] })
  | .qnt h u d a b c rnd sat fmt pos => some ((Fields.ofHdr h) |> fun z => { z with op := 0x14c#10, u := u, nw := d.nw, latch := d.latchNo, d := d.number, a := a.bits, b := b.bits, c := c.bits, imm := (0#21 ++ pos ++ fmt.bits ++ BitVec.ofBool sat ++ rnd.bits).setWidth 32 })
  | .bincv h u d a b rnd => some ((Fields.ofHdr h) |> fun z => { z with op := 0x14d#10, u := u, nw := d.nw, latch := d.latchNo, d := d.number, a := a.bits, b := b.bits, c := (0#7 ++ rnd.bits).setWidth 10, imm := immOf [a, b] })
  | .binadd h u d a b => some ((Fields.ofHdr h) |> fun z => { z with op := 0x14e#10, u := u, nw := d.nw, latch := d.latchNo, d := d.number, a := a.bits, b := b.bits, imm := immOf [a, b] })
  | .binfp h u d a b rnd => some ((Fields.ofHdr h) |> fun z => { z with op := 0x14f#10, u := u, nw := d.nw, latch := d.latchNo, d := d.number, a := a.bits, b := b.bits, c := (0#7 ++ rnd.bits).setWidth 10, imm := immOf [a, b] })
  | .mmaq h t a slot asc sclast sc la lb lc wa wb wc ta tb tc rnd fa fb qoff => some ((Fields.ofHdr h) |> fun z => { z with op := 0x180#10, d := (0#4 ++ t).setWidth 8, a := a.bits, b := (0#6 ++ slot).setWidth 10, c := (BitVec.ofBool asc ++ BitVec.ofBool sclast ++ sc).setWidth 10, imm := (0#3 ++ qoff ++ fb.bits ++ fa.bits ++ rnd.bits ++ BitVec.ofBool tc ++ BitVec.ofBool tb ++ BitVec.ofBool ta ++ wc ++ wb ++ wa ++ lc ++ lb ++ la).setWidth 32 })
  | .mmaqs h t a slot asc la lb lc wa wb wc ta tb tc rnd fa fb qoff => some ((Fields.ofHdr h) |> fun z => { z with op := 0x181#10, d := (0#4 ++ t).setWidth 8, a := a.bits, b := (0#6 ++ slot).setWidth 10, c := (BitVec.ofBool asc ++ 0#9).setWidth 10, imm := (0#3 ++ qoff ++ fb.bits ++ fa.bits ++ rnd.bits ++ BitVec.ofBool tc ++ BitVec.ofBool tb ++ BitVec.ofBool ta ++ wc ++ wb ++ wa ++ lc ++ lb ++ la).setWidth 32 })
  | .mzero h t mon => some ((Fields.ofHdr h) |> fun z => { z with op := 0x182#10, d := (0#4 ++ t).setWidth 8, c := (0#9 ++ BitVec.ofBool mon).setWidth 10 })
  | .mrd h d a b tile rnd sat fmt => some ((Fields.ofHdr h) |> fun z => { z with op := 0x183#10, d := d, a := a.bits, b := b.bits, c := (0#6 ++ tile).setWidth 10, imm := (0#24 ++ fmt.bits ++ BitVec.ofBool sat ++ rnd.bits).setWidth 32 })
  | .mwr h t a b c => some ((Fields.ofHdr h) |> fun z => { z with op := 0x184#10, d := (0#4 ++ t).setWidth 8, a := a.bits, b := b.bits, c := c.bits, imm := immOf [a, b, c] })
  | .mldt h t a off => some ((Fields.ofHdr h) |> fun z => { z with op := 0x185#10, d := (0#4 ++ t).setWidth 8, a := a.bits, imm := off })
  | .mstt h t a rnd sat fmt off => some ((Fields.ofHdr h) |> fun z => { z with op := 0x186#10, d := (0#4 ++ t).setWidth 8, a := a.bits, c := (0#2 ++ fmt.bits ++ BitVec.ofBool sat ++ rnd.bits).setWidth 10, imm := off })
  | .msend h t a rnd sat fmt => some ((Fields.ofHdr h) |> fun z => { z with op := 0x187#10, d := (0#4 ++ t).setWidth 8, a := a.bits, c := (0#2 ++ fmt.bits ++ BitVec.ofBool sat ++ rnd.bits).setWidth 10, imm := immOf [a] })
  | .msync h wg => some ((Fields.ofHdr h) |> fun z => { z with op := 0x188#10, imm := (0#31 ++ BitVec.ofBool wg).setWidth 32 })
  | .mcfg h a => some ((Fields.ofHdr h) |> fun z => { z with op := 0x1c0#10, a := a.bits, imm := immOf [a] })
  | .mcfgr h d => some ((Fields.ofHdr h) |> fun z => { z with op := 0x1c1#10, d := d })
  | .wload h a slot off => some ((Fields.ofHdr h) |> fun z => { z with op := 0x1c2#10, a := a.bits, b := (0#6 ++ slot).setWidth 10, imm := off })
  | .wdict h a slot => some ((Fields.ofHdr h) |> fun z => { z with op := 0x1c3#10, a := a.bits, b := (0#6 ++ slot).setWidth 10, imm := immOf [a] })
  | .wset h a slot => some ((Fields.ofHdr h) |> fun z => { z with op := 0x1c4#10, a := a.bits, b := (0#6 ++ slot).setWidth 10, imm := immOf [a] })
  | .wfree h slot => some ((Fields.ofHdr h) |> fun z => { z with op := 0x1c5#10, b := (0#6 ++ slot).setWidth 10 })
  | .wqry h d slot => some ((Fields.ofHdr h) |> fun z => { z with op := 0x1c6#10, d := d, b := (0#6 ++ slot).setWidth 10 })
  | .mmon h d tile ctr clr => some ((Fields.ofHdr h) |> fun z => { z with op := 0x1c7#10, d := d, b := (0#6 ++ tile).setWidth 10, c := (0#7 ++ BitVec.ofBool clr ++ ctr).setWidth 10 })
  | .ld h u d a size sgn hint off => some ((Fields.ofHdr h) |> fun z => { z with op := 0x200#10, u := u, d := d, a := a.bits, c := (0#4 ++ hint.bits ++ BitVec.ofBool sgn ++ size.bits).setWidth 10, imm := off })
  | .st h a b size hint off => some ((Fields.ofHdr h) |> fun z => { z with op := 0x201#10, a := a.bits, b := b.bits, c := (0#4 ++ hint.bits ++ 0#1 ++ size.bits).setWidth 10, imm := off })
  | .lds h u d a size sgn off => some ((Fields.ofHdr h) |> fun z => { z with op := 0x202#10, u := u, d := d, a := a.bits, c := (0#6 ++ BitVec.ofBool sgn ++ size.bits).setWidth 10, imm := off })
  | .sts h a b size off => some ((Fields.ofHdr h) |> fun z => { z with op := 0x203#10, a := a.bits, b := b.bits, c := (0#7 ++ size.bits).setWidth 10, imm := off })
  | .ldc h u d a size sgn useA off => some ((Fields.ofHdr h) |> fun z => { z with op := 0x204#10, u := u, d := d, a := a.bits, c := (0#2 ++ BitVec.ofBool useA ++ 0#3 ++ BitVec.ofBool sgn ++ size.bits).setWidth 10, imm := off })
  | .pref h u a l2 off => some ((Fields.ofHdr h) |> fun z => { z with op := 0x205#10, u := u, a := a.bits, c := (0#9 ++ BitVec.ofBool l2).setWidth 10, imm := off })
  | .pres h pd a off => some ((Fields.ofHdr h) |> fun z => { z with op := 0x206#10, d := (0#5 ++ pd).setWidth 8, a := a.bits, imm := off })
  | .pclr h a b set off => some ((Fields.ofHdr h) |> fun z => { z with op := 0x207#10, a := a.bits, b := b.bits, c := (0#9 ++ BitVec.ofBool set).setWidth 10, imm := off })
  | .cwb h a all off => some ((Fields.ofHdr h) |> fun z => { z with op := 0x208#10, a := a.bits, c := (0#9 ++ BitVec.ofBool all).setWidth 10, imm := off })
  | .cinv h a all off => some ((Fields.ofHdr h) |> fun z => { z with op := 0x209#10, a := a.bits, c := (0#9 ++ BitVec.ofBool all).setWidth 10, imm := off })
  | .lock h d a b off => some ((Fields.ofHdr h) |> fun z => { z with op := 0x20a#10, d := d, a := a.bits, b := b.bits, imm := off })
  | .unlock h d a b off => some ((Fields.ofHdr h) |> fun z => { z with op := 0x20b#10, d := d, a := a.bits, b := b.bits, imm := off })
  | .atom h d a b op x2 ord scope off => some ((Fields.ofHdr h) |> fun z => { z with op := 0x240#10, d := d, a := a.bits, b := b.bits, c := (scope.bits ++ ord.bits ++ BitVec.ofBool x2 ++ op.bits).setWidth 10, imm := off })
  | .red h a b op x2 ord scope off => some ((Fields.ofHdr h) |> fun z => { z with op := 0x241#10, a := a.bits, b := b.bits, c := (scope.bits ++ ord.bits ++ BitVec.ofBool x2 ++ op.bits).setWidth 10, imm := off })
  | .ldacq h d a size sgn scope off => some ((Fields.ofHdr h) |> fun z => { z with op := 0x242#10, d := d, a := a.bits, c := (scope.bits ++ 0#3 ++ BitVec.ofBool sgn ++ size.bits).setWidth 10, imm := off })
  | .strel h a b size scope off => some ((Fields.ofHdr h) |> fun z => { z with op := 0x243#10, a := a.bits, b := b.bits, c := (scope.bits ++ 0#4 ++ size.bits).setWidth 10, imm := off })
  | .fence h scope => some ((Fields.ofHdr h) |> fun z => { z with op := 0x244#10, c := (scope.bits ++ 0#7).setWidth 10 })
  | .waitv h d a b cc sgn x2 scope off => some ((Fields.ofHdr h) |> fun z => { z with op := 0x245#10, d := d, a := a.bits, b := b.bits, c := (scope.bits ++ 0#2 ++ BitVec.ofBool x2 ++ BitVec.ofBool sgn ++ cc.bits).setWidth 10, imm := off })
  | .hbpub h a scope off => some ((Fields.ofHdr h) |> fun z => { z with op := 0x246#10, a := a.bits, c := (scope.bits ++ 0#7).setWidth 10, imm := off })
  | .hbjoin h d a scope off => some ((Fields.ofHdr h) |> fun z => { z with op := 0x247#10, d := d, a := a.bits, c := (scope.bits ++ 0#7).setWidth 10, imm := off })
  | .racectlTrap h => some ((Fields.ofHdr h) |> fun z => { z with op := 0x248#10, c := (0#7 ++ 0#3).setWidth 10 })
  | .racectlReport h => some ((Fields.ofHdr h) |> fun z => { z with op := 0x248#10, c := (0#7 ++ 1#3).setWidth 10 })
  | .racectlOff h => some ((Fields.ofHdr h) |> fun z => { z with op := 0x248#10, c := (0#7 ++ 2#3).setWidth 10 })
  | .racectlOn h => some ((Fields.ofHdr h) |> fun z => { z with op := 0x248#10, c := (0#7 ++ 3#3).setWidth 10 })
  | .racectlRdun h d => some ((Fields.ofHdr h) |> fun z => { z with op := 0x248#10, d := d, c := (0#7 ++ 4#3).setWidth 10 })
  | .racectlForget h a b off => some ((Fields.ofHdr h) |> fun z => { z with op := 0x248#10, a := a.bits, b := b.bits, c := (0#7 ++ 5#3).setWidth 10, imm := off })
  | .hbclk h d => some ((Fields.ofHdr h) |> fun z => { z with op := 0x249#10, d := d, c := (0#9 ++ 0#1).setWidth 10 })
  | .hbclkVec h d a => some ((Fields.ofHdr h) |> fun z => { z with op := 0x249#10, d := d, a := a.bits, c := (0#9 ++ 1#1).setWidth 10, imm := immOf [a] })
  | .cpyk h a n off => some ((Fields.ofHdr h) |> fun z => { z with op := 0x280#10, a := a.bits, c := (0#5 ++ n).setWidth 10, imm := off })
  | .sbinit h a b off => some ((Fields.ofHdr h) |> fun z => { z with op := 0x281#10, a := a.bits, b := b.bits, imm := off })
  | .sbadd h a b off => some ((Fields.ofHdr h) |> fun z => { z with op := 0x282#10, a := a.bits, b := b.bits, imm := off })
  | .sbwait h a b off => some ((Fields.ofHdr h) |> fun z => { z with op := 0x283#10, a := a.bits, b := b.bits, imm := off })
  | .sbtest h d a off => some ((Fields.ofHdr h) |> fun z => { z with op := 0x284#10, d := d, a := a.bits, imm := off })
  | .cpyres h a off => some ((Fields.ofHdr h) |> fun z => { z with op := 0x285#10, a := a.bits, imm := off })
  | .nrxarm h d a ring off => some ((Fields.ofHdr h) |> fun z => { z with op := 0x286#10, d := d, a := a.bits, c := (0#6 ++ ring).setWidth 10, imm := off })
  | .ntx h d a b ts p1 off => some ((Fields.ofHdr h) |> fun z => { z with op := 0x287#10, d := d, a := a.bits, b := b.bits, c := (0#8 ++ BitVec.ofBool p1 ++ BitVec.ofBool ts).setWidth 10, imm := off })
  | .ntsrSt h d a => some ((Fields.ofHdr h) |> fun z => { z with op := 0x288#10, d := d, a := a.bits, c := (0#8 ++ 0#2).setWidth 10, imm := immOf [a] })
  | .ntsrTick h d a => some ((Fields.ofHdr h) |> fun z => { z with op := 0x288#10, d := d, a := a.bits, c := (0#8 ++ 1#2).setWidth 10, imm := immOf [a] })
  | .ntsrPtp h d a => some ((Fields.ofHdr h) |> fun z => { z with op := 0x288#10, d := d, a := a.bits, c := (0#8 ++ 2#2).setWidth 10, imm := immOf [a] })
  | .launch h d a off => some ((Fields.ofHdr h) |> fun z => { z with op := 0x2c0#10, d := d, a := a.bits, imm := off })
  | .tnode h d a off => some ((Fields.ofHdr h) |> fun z => { z with op := 0x2c1#10, d := d, a := a.bits, imm := off })
  | .tedge h d a b => some ((Fields.ofHdr h) |> fun z => { z with op := 0x2c2#10, d := d, a := a.bits, b := b.bits, imm := immOf [a, b] })
  | .tdone h a => some ((Fields.ofHdr h) |> fun z => { z with op := 0x2c3#10, a := a.bits, imm := immOf [a] })
  | .tspawn h d a b off => some ((Fields.ofHdr h) |> fun z => { z with op := 0x2c4#10, d := d, a := a.bits, b := b.bits, imm := off })
  | .tstat h d a => some ((Fields.ofHdr h) |> fun z => { z with op := 0x2c5#10, d := d, a := a.bits, imm := immOf [a] })
  | .trearm h d a => some ((Fields.ofHdr h) |> fun z => { z with op := 0x2c6#10, d := d, a := a.bits, c := (0#9 ++ 0#1).setWidth 10, imm := immOf [a] })
  | .trearmFree h d a => some ((Fields.ofHdr h) |> fun z => { z with op := 0x2c6#10, d := d, a := a.bits, c := (0#9 ++ 1#1).setWidth 10, imm := immOf [a] })
  | .cred h d a off => some ((Fields.ofHdr h) |> fun z => { z with op := 0x300#10, d := d, a := a.bits, imm := off })
  | .crsc h d a off => some ((Fields.ofHdr h) |> fun z => { z with op := 0x301#10, d := d, a := a.bits, imm := off })
  | .cagt h d a off => some ((Fields.ofHdr h) |> fun z => { z with op := 0x302#10, d := d, a := a.bits, imm := off })
  | .cbct h d a off => some ((Fields.ofHdr h) |> fun z => { z with op := 0x303#10, d := d, a := a.bits, imm := off })
  | .cwait h d a => some ((Fields.ofHdr h) |> fun z => { z with op := 0x304#10, d := d, a := a.bits, imm := immOf [a] })
  | .cstat h d a what => some ((Fields.ofHdr h) |> fun z => { z with op := 0x305#10, d := d, a := a.bits, imm := (0#30 ++ what).setWidth 32 })
  | .sqtab h d a tab off => some ((Fields.ofHdr h) |> fun z => { z with op := 0x306#10, d := d, a := a.bits, c := (0#6 ++ tab).setWidth 10, imm := off })
  | .sqdef h d a off => some ((Fields.ofHdr h) |> fun z => { z with op := 0x307#10, d := d, a := a.bits, imm := off })
  | .sqgo h d a => some ((Fields.ofHdr h) |> fun z => { z with op := 0x308#10, d := d, a := a.bits, imm := immOf [a] })
  | .sqstat h d a b what => some ((Fields.ofHdr h) |> fun z => { z with op := 0x309#10, d := d, a := a.bits, b := b.bits, imm := (0#29 ++ what).setWidth 32 })
  | .sqabt h d a free => some ((Fields.ofHdr h) |> fun z => { z with op := 0x30a#10, d := d, a := a.bits, c := (0#9 ++ BitVec.ofBool free).setWidth 10, imm := immOf [a] })
  | .trap h code kill => some ((Fields.ofHdr h) |> fun z => { z with op := 0x340#10, imm := (0#15 ++ BitVec.ofBool kill ++ code).setWidth 32 })
  | .rtt h => some ((Fields.ofHdr h) |> fun z => { z with op := 0x341#10, c := (0#9 ++ 0#1).setWidth 10 })
  | .rttSkip h => some ((Fields.ofHdr h) |> fun z => { z with op := 0x341#10, c := (0#9 ++ 1#1).setWidth 10 })
  | .sets h sr a => some ((Fields.ofHdr h) |> fun z => { z with op := 0x342#10, d := sr, a := a.bits, imm := immOf [a] })
  | .ychk h d => some ((Fields.ofHdr h) |> fun z => { z with op := 0x343#10, d := d })
  | .wgsave h d a b off => some ((Fields.ofHdr h) |> fun z => { z with op := 0x344#10, d := d, a := a.bits, b := b.bits, imm := off })
  | .ecnt h d => some ((Fields.ofHdr h) |> fun z => { z with op := 0x345#10, d := d })
  | .tlbinvPage h a b => some ((Fields.ofHdr h) |> fun z => { z with op := 0x346#10, a := a.bits, b := b.bits, c := (0#8 ++ 0#2).setWidth 10 })
  | .tlbinvAsid h b => some ((Fields.ofHdr h) |> fun z => { z with op := 0x346#10, b := b.bits, c := (0#8 ++ 1#2).setWidth 10 })
  | .tlbinvAll h => some ((Fields.ofHdr h) |> fun z => { z with op := 0x346#10, c := (0#8 ++ 2#2).setWidth 10 })
  | .asidnew h d a => some ((Fields.ofHdr h) |> fun z => { z with op := 0x347#10, d := d, a := a.bits, imm := immOf [a] })
  | .harvest h all => some ((Fields.ofHdr h) |> fun z => { z with op := 0x348#10, c := (0#9 ++ BitVec.ofBool all).setWidth 10 })
  | .logrdEnt h d e w => some ((Fields.ofHdr h) |> fun z => { z with op := 0x349#10, d := d, c := (0#8 ++ 0#2).setWidth 10, imm := (0#24 ++ w ++ 0#1 ++ e).setWidth 32 })
  | .logrdG h d n => some ((Fields.ofHdr h) |> fun z => { z with op := 0x349#10, d := d, c := (0#8 ++ 1#2).setWidth 10, imm := (0#28 ++ n).setWidth 32 })
  | .logrdPut h a n => some ((Fields.ofHdr h) |> fun z => { z with op := 0x349#10, a := a.bits, c := (0#8 ++ 2#2).setWidth 10, imm := (0#28 ++ n).setWidth 32 })
  | .bkpt h code => some ((Fields.ofHdr h) |> fun z => { z with op := 0x380#10, imm := (0#16 ++ code).setWidth 32 })
  | .tick h d => some ((Fields.ofHdr h) |> fun z => { z with op := 0x381#10, d := d })
  | .ptprd h d => some ((Fields.ofHdr h) |> fun z => { z with op := 0x382#10, d := d })
  | .stallrd h d i clr => some ((Fields.ofHdr h) |> fun z => { z with op := 0x383#10, d := d, imm := (0#27 ++ BitVec.ofBool clr ++ i).setWidth 32 })
  | .trace h a tag => some ((Fields.ofHdr h) |> fun z => { z with op := 0x384#10, a := a.bits, imm := (0#16 ++ tag).setWidth 32 })
  | .progrWg h d => some ((Fields.ofHdr h) |> fun z => { z with op := 0x385#10, d := d, c := (0#9 ++ 0#1).setWidth 10 })
  | .progrPark h d a => some ((Fields.ofHdr h) |> fun z => { z with op := 0x385#10, d := d, a := a.bits, c := (0#9 ++ 1#1).setWidth 10 })
  | .legacyBehaviour _ _ w => some (Fields.ofWord w)
  | .registerReturn _ => none
  | .slotSwitch _ _ => none
  | .forcedSwitch _ _ => none
  | .fibreReady _ => none
  | .barrierPhaseComplete _ => none
  | .loadComplete _ => none
  | .storeQueueDrain _ => none
  | .mergingFill _ _ => none
  | .l1WritebackTimer _ _ => none
  | .replicaApply _ => none
  | .watchFire _ => none
  | .watchRetry _ => none
  | .relaunch _ => none
  | .quarterReady _ => none
  | .passOpen _ => none
  | .weightSlotLoad _ => none
  | .quarterCommit _ => none
  | .wloadComplete _ _ => none
  | .wloadFault _ _ _ _ => none
  | .copyCardStart _ _ => none
  | .copyDelivery _ _ => none
  | .copyComplete _ _ => none
  | .copyFault _ _ => none
  | .frameSent _ _ => none
  | .frameNodeDispatch _ _ => none
  | .decrementArrival _ => none
  | .seedbedDispatch _ => none
  | .nodeComplete _ _ => none
  | .launchStart _ => none
  | .workGroupAdmission _ => none
  | .workGroupComplete _ => none
  | .clusterRetire _ => none
  | .launchComplete _ => none
  | .laneTaskGather _ _ => none
  | .collectiveNodeDispatch _ _ => none
  | .streamRow _ _ => none
  | .collectiveComplete _ _ => none
  | .collectiveFault _ _ _ => none
  | .sequenceStartNode _ _ => none
  | .stageInputs _ _ => none
  | .returnNodeDispatch _ _ => none
  | .sequenceEnd _ _ => none
  | .resumeWorkGroup _ => none
  | .deadlineExpiry _ => none
  | .contextFault _ _ => none
  | .preempted _ => none
  | .queueNoOperation _ => none
  | .queueLaunch _ => none
  | .queueNodeDecrement _ => none
  | .sample _ => none
  | .issue _ _ => none
  | .instructionFetch _ => none
  | .trapEntry _ _ => none
  | .collectiveRefused _ _ _ => none
  | .scrub _ _ => none
  | .uncorrectableError _ => none
  | .frameReceive _ _ _ => none
  | .linkDown _ _ => none
  | .breakpointResume _ => none
  | .breakpointKill _ => none
  | .waitForGraph _ => none
  | .run _ => none
  | .preempt _ => none
  | .resume _ => none
  | .reset _ => none
  | .queueNotify _ _ => none
  | .hostRingTailWrite _ => none
  | .hostAccess _ _ _ => none
  | .controlRegisterWrite _ _ _ => none
  | .attest _ => none
  | .setCap _ => none
  | .retire _ => none
  | .powerCapEnforce _ => none
  | .thermalLimit _ _ => none
  | .thermalTrip _ _ => none
  | .freezeTickWrite _ => none
  | .powerOn _ => none
  | .forwardedAccess _ _ _ => none
  | .ualinkDomainJoinOrLeave _ _ _ => none
  | .ethernetLinkChange _ _ _ => none
  | .ptpLock _ => none
  | .msiXMasking _ _ => none
  | .freezeReadOut => none
  | .freezeN => none
  | .freeze => none
  | .observationPortRead => none
  | .resetRelease => none
  | .ptpSteering => none
  | .dirtyWriteOut => none

/-- The 96-bit word of an instruction (R23, R24), where it is a word of the instruction set. -/
def encode (i : Instr) : Option (BitVec 96) := (encodeFields i).map Fields.toWord

end Sys2Proof
end

