-- ==== Sys2Proof/Config.lean ====
section
/-! DEFINITION. What one package fixes and the spec leaves open: the counts of a package with every unit enabled (R1)
and the free values, opaque constants that no proof can look into. -/

namespace Sys2Proof.Config

/-- A free choice among several agents or paths that may act next (assumption 1). -/
opaque pick : Nat → Nat
/-- How many steps something that can happen waits at most before it is first in line, and how often a word that could issue is
stalled or withheld at most: bounds the spec does not give (R16, R97, R98; assumptions 1 and 3). -/
opaque patience : Nat
/-- How many ticks pass in one step (assumption 2): none, where more happens on the same tick. -/
opaque ticksPassed : Nat → Nat
/-- Whether a governed word meets a stall at its issue (R97; assumption 3). -/
opaque governedStall : Nat → Bool
/-- A byte the spec leaves to the device: a byte an engine reads while it may change, a signature byte (assumption 4). -/
opaque freeByte : Nat → BitVec 8
/-- A word the spec leaves open (assumption 4). -/
opaque freeWord : Nat → BitVec 32
/-- A bit the spec leaves open: a yes or no that timing decides (assumption 5). -/
opaque freeBit : Nat → Bool
/-- The seconds, nanoseconds and fraction the PTP clock shows, as one 128-bit stamp payload (R314; assumption 6). -/
opaque ptpClock : Nat → BitVec 48 × BitVec 30 × BitVec 16

/-- What `nansrc` of a collective names where no output element is NaN: the spec gives no value (R353, R359; assumption 91). -/
opaque noNanSource : BitVec 17

/-- The pseudo-channel that backs a byte of local memory: the spec gives no map (R211; assumption 8). -/
opaque pchOf : Nat → Nat

/-- The L2 slice of its die that serves a line: a fixed hash the spec does not give (R228; assumption 8). -/
opaque sliceOf : Nat → Nat

/-- Cores of a die (R7). -/
def coresPerDie : Nat := 160
/-- Dies of the package (R4). -/
def dies : Nat := 8
/-- Lines of one core's scratchpad (R9). -/
def scratchLines : Nat := 8192
/-- Bytes of one core's scratchpad (R9). -/
def scratchBytes : Nat := 1048576
/-- The base of the aperture in every context's virtual space (R208). -/
def aperture : Nat := 0x00FFFE0000000000
/-- Physical vector registers of an unrepaired core (R9, R85). -/
def physRegs : Nat := 4096

end Sys2Proof.Config
end

