-- ==== Sys2Proof/Machine/State.lean ====
section
/-! DEFINITION. The state of a package: everything the spec gives the machine, as plain data, and the machine right
after reset. Sparse tables are maps by number; a number that is not listed has the default of its table. -/

namespace Sys2Proof.Machine

/-! ### Stops -/

/-- Why a step can stop the machine. -/
inductive Fault where
  /-- Raised by `exec` on a word where no fibre of the package has issued it (`State.cur` is empty or names no fibre):
  no run reaches it, since `step` sets `cur` before it runs a word. Safe. -/
  | noIssuer
  /-- Raised where the package has lost power after a thermal trip (R432) or has not verified its firmware (R431): no
  step follows until power-on. Safe. -/
  | unpowered
deriving DecidableEq, Repr

/-- Why an instruction has no meaning. -/
inductive Refusal where
  /-- Raised only by an arm of `exec` whose instruction the model has not reached. Safe. -/
  | notModelled (mnemonic : String)
deriving DecidableEq, Repr

/-! ### Waits and barriers -/

/-- Operations of the matrix array that a word waits for: its fibre's, its work-group's, or so many that some places of the queue
are free. -/
inductive MatWait where
  | fibre
  | group
  | queue (k : Nat)
deriving DecidableEq, Repr

/-- What a thread waits for. -/
inductive WaitCond where
  /-- Every line listed (physical scratchpad line numbers) is present (R224). -/
  | present (lines : List Nat)
  /-- A barrier phase beyond the one numbered (R104). -/
  | barrier (k : BarKey) (phase : Nat)
  /-- A window part is full and owned by the fibre (R100). -/
  | window (lslot w half : Nat)
  /-- A watched line changes, or the retry time comes (R270): the core's watch entry, the tick of a retry, and the address
  waited at. -/
  | watch (entry : Option Nat) (retry va : Nat)
  /-- A stage barrier's phase advances (R308): scratchpad byte of the barrier, phase waited for, and the address it is waited at. -/
  | stage (byte : Nat) (phase : Nat) (va : Nat)
  /-- A collective handle completes (R367). -/
  | collective (die op : Nat)
  /-- Operations of the matrix array of the core end (R172, R187, R192, R196). -/
  | array (w : MatWait)
  /-- A weight slot is no longer referenced, or no longer loads (R180, R203): physical slot, and the dictionary bank whose
  references count. -/
  | slot (phys : Nat) (bank : Option Nat)
  /-- Some register names, latches as 256 and up, get the values that tile reads owe them (R189, R190). -/
  | regs (names : List Nat)
  /-- The stores that the fibre's `MSTT` words owe its queue have entered it (R188, R190). -/
  | owed
  /-- An `MCFG` of the work-group waits, by its number (R196, R197). -/
  | config (ticket : Nat)
  /-- Its own claim of the pools, by its number (R196). -/
  | pool (ticket : Nat)
  /-- Every live thread of the fibre stands at this address (R133). -/
  | conv (pc : Nat)
  /-- A place of the fibre's operand log (R235). -/
  | log
  /-- Room in an engine's queue of this number (R301, R363). -/
  | room (what : Nat)
  /-- A place in a ring (R389). -/
  | ring (ctx r : Nat)
  /-- Every other fibre of the work-group has stopped or parked at its save (R401). -/
  | save
deriving DecidableEq, Repr

/-- Governance of a thread by `SWP` (R97, R396): governed words left, the prefix's n and address. -/
structure Gov where
  left : Nat
  n : Nat
  pc : Nat
deriving Inhabited, DecidableEq, Repr

/-- An issued word that still holds an access: its place in the fibre's issue order, address, bits, active mask, issue
group, and the governance it issued under (R396). -/
structure WordRef where
  num : Nat
  pc : Nat
  bits : BitVec 96
  mask : Mask
  group : Mask
  gov : Gov
deriving Inhabited, DecidableEq, Repr

/-- Threads of a fibre that wait at one word. -/
structure Wait where
  lanes : Mask
  cond : WaitCond
  /-- Whether the wait parks the path (R93, R96). -/
  parks : Bool
  since : Nat
  /-- The word they wait at: a stage barrier that faults makes it trap (R308). -/
  word : WordRef
deriving DecidableEq, Repr

/-- One barrier (R103 to R107): the phase now collecting, threads arrived at it by fibre, the fibres that wait in it,
the mask of an `FBAR` phase, and the vectors taken at arrival for each participant (R276). -/
structure Barrier where
  phase : Nat := 0
  arrived : List (FibRef × Mask) := []
  waiting : List FibRef := []
  mask : Option Nat := none
  vecs : List (FibRef × Map Nat) := []
deriving DecidableEq, Repr

/-! ### Memory accesses in flight -/

/-- A lane's share of a word that touches memory: its address, and the bytes it stores. -/
structure LaneAcc where
  lane : Nat
  addr : Dword
  bytes : List Byte
deriving Inhabited, DecidableEq, Repr

/-- How a queued store reaches memory. -/
inductive StoreKind where
  | plain
  | byp
  | atomic (op : AtomOp) (x2 : Bool)
deriving Inhabited, DecidableEq, Repr

/-- One entry of a fibre's store queue (R235): its word, its access, and how it reaches memory. -/
structure StoreEntry where
  word : WordRef
  acc : LaneAcc
  kind : StoreKind
  release : Option Scope
  /-- Clock a release recorded, under which its store commits (R282). -/
  clock : Nat
  /-- The place of the operand log, where the word holds a global access (R235). -/
  log : Option Nat
  /-- Whether the race check is left out at its commit (R289). -/
  unchecked : Bool
  /-- Whether its check has been made already, as its word issued (R288). -/
  verified : Bool
  /-- Whether a part of its bytes has left: the access has been checked and recorded, and its other bytes follow (R244). -/
  begun : Bool
  /-- Whether its word has reported a race (R290). -/
  reported : Bool
  frozen : Bool
  /-- The new value of a `.cas`. -/
  swap : Nat
deriving Inhabited, DecidableEq, Repr

/-- What a logged access does when `RTT` re-issues it (R226, R393, R411). -/
inductive LogWork where
  /-- Destination, registers, bytes of one access, sign extension, acquire, `.byp`, and the lanes written. -/
  | load (d regs n : Nat) (sgn : Bool) (acq : Option Scope) (byp : Bool) (dst : Mask)
  | atom (d : Nat) (op : AtomOp) (x2 : Bool) (ord : Ord) (scope : Scope) (swaps : List Nat)
  | store
  /-- The fetch of a `WLOAD`: the physical slot, and its descriptor's bytes (R202). -/
  | fetch (phys : Nat) (desc : List Byte)
  /-- The word is performed again from its start. -/
  | again
deriving Inhabited, DecidableEq, Repr

/-- One place of a fibre's operand log (R393): the word, its accesses, and its fault. -/
structure LogEntry where
  word : WordRef
  size : Nat
  accs : List LaneAcc
  probed : Bool
  faulted : Option Nat
  work : LogWork
  /-- Set where the fault is a race: the re-issue is not checked (R289). -/
  raced : Bool
deriving Inhabited, DecidableEq, Repr

/-- A load that has bound its value and has not yet written its register (R241). -/
structure PendingLoad where
  d : Nat
  lanes : Mask
  vals : List LaneVec
deriving Inhabited, DecidableEq, Repr

/-! ### Fibres -/

/-- Where a fibre stands in its slot (R94). -/
inductive FibState where
  | current
  | ready (since : Nat)
  | parked
  | exited
deriving Inhabited, DecidableEq, Repr

/-- Trap mode (R389 to R396): what the trap was, the handler's threads, the h registers, and what `RTT` restores: the
address at which each thread goes on, its governance, and the waits of the other paths. -/
structure TrapFrame where
  info : TrapInfo
  lanes : Mask
  hregs : Vector LaneVec 16
  back : Vector Nat 32
  gov : Vector Gov 32
  waits : List Wait
  /-- Where the record waits for a free place in its ring (R389). -/
  waiting : Bool
  /-- Set while a breakpoint without a handler keeps the fibre stopped (R416). -/
  stopped : Bool
deriving DecidableEq, Repr

/-- A frontier-table entry (R277): writer identity, clock, and the fibres that hold it; the list runs from the most
recently installed. -/
structure Frontier where
  writer : Nat
  clock : Nat
  fibs : List Nat
deriving DecidableEq, Repr

/-- One fibre (R17, R85, R89 to R97, R235, R275, R276). -/
structure Fibre where
  /-- Number within the work-group, position within its logical slot, logical slot (R85). -/
  num : Nat
  pos : Nat
  lslot : Nat
  /-- Its place in its physical slot (R86, R274). -/
  place : Nat
  st : FibState
  live : Mask
  pcs : Vector Nat 32
  ages : Vector Nat 32
  gov : Vector Gov 32
  /-- p0 to p6, thread by thread (R33); p7 is always true. -/
  preds : Vector Mask 7
  /-- Mapped names (R89); window names are in the work-group. -/
  regs : Map LaneVec
  released : Map Mask
  undefRead : Bool
  /-- b0 to b3: lanes and valid bits (R32). -/
  latches : Vector (LaneVec × Mask) 4
  fpf : BitVec 6
  fp4x : BitVec 8
  spmask : Mask
  /-- The first tick on which the delay hint of the last word lets the fibre issue (R37). -/
  delayUntil : Nat
  waits : List Wait
  /-- Barrier phases a thread has executed and not yet passed by re-issue (R105). -/
  passed : List (BarKey × Nat × Mask)
  loads : List PendingLoad
  /-- Registers that tile reads have still to write, latches as 256 and up, handler registers as 512 and up: the operation and the
  lanes it owes (R189, R190). -/
  awaits : List (Nat × Nat × Mask)
  log : Map LogEntry
  queue : List StoreEntry
  /-- The second store queue, used in trap mode (R394). -/
  trapQueue : List StoreEntry
  /-- Words the fibre has issued. -/
  issued : Nat
  /-- How often its next word has met a stall or been withheld (R16, R97): the model's own count. -/
  stalled : Nat
  trap : Option TrapFrame
  /-- A word that `RTT` performs again: its address, active mask, and whether its accesses go unchecked (R289, R411). -/
  redo : Option (Nat × Mask × Bool)
  /-- The absent lines that loads of a checked launch have parked on, with their lanes, until they issue again (R260, R283). -/
  sought : List (Nat × Mask)
  /-- Half pointers of the double windows (R100). -/
  halves : Vector Nat 4
  clock : Nat
  saturated : Bool
  suspended : Bool
  vec : Map Nat
  cgen : Nat
  ggen : Nat
  /-- A lane task's argument and return places, by thread (R346). -/
  task : List (Nat × Nat)
deriving DecidableEq, Repr

/-! ### Work-groups -/

/-- One part of a register window (R99, R100). -/
structure WinPart where
  owner : Nat
  full : Bool
deriving Inhabited, DecidableEq, Repr

/-- A window of a logical slot: its parts, the registers it shares, and the vector its owner released with (R276). -/
structure WinState where
  lslot : Nat
  w : Nat
  parts : List WinPart
  regs : List LaneVec
  vecs : List (Map Nat)
deriving DecidableEq, Repr

/-- A logical weight slot or tile of a work-group names storage of the core; a tile is its rows of 64 elements with its
three counters (R168, R194). -/
structure Tile where
  rows : List (List (BitVec 32))
  swamp : Nat
  nans : Nat
  ovf : Nat
deriving Inhabited, DecidableEq, Repr

/-- State of a weight slot (R193). -/
inductive SlotState where
  | empty
  | loading
  | loaded
deriving Inhabited, DecidableEq, Repr

/-- A weight slot (R193): descriptor fields of the last `WLOAD`, stored bytes, scales, banks, extra value, version. -/
structure WSlot where
  phys : Nat
  st : SlotState
  format : Fmt
  compress : Nat
  scaled : Bool
  /-- Per column: stored elements, 2:4 metadata, scales. -/
  elems : List (List Byte)
  metas : List (List Byte)
  scales : List (List Byte)
  banks : Vector (Vector (BitVec 16) 16) 2
  bank : Nat
  extra : BitVec 8
  version : Nat
  /-- Bytes a loading `WLOAD` has read and not yet stored: elements, metadata and scales by column. -/
  pend : Option (List (List Byte) × List (List Byte) × List (List Byte))
  /-- The `WLOAD` that loads the slot, with its descriptor's bytes (R202). -/
  loader : Option (FibRef × WordRef × List Byte)
deriving DecidableEq, Repr

/-- A `WGSAVE` in progress (R401): whether a request was pending when the first fibre arrived, the area and size, the threads
that have arrived, and each fibre's destination. -/
structure SaveRound where
  asks : Bool
  area : Nat
  size : Nat
  arrived : List (Nat × Mask)
  dsts : List (Nat × Nat)
deriving DecidableEq, Repr

/-- A resident work-group (R17, R87). -/
structure WorkGroup where
  /-- s.wg, launch, cluster of the launch, core it runs on, position in the cluster. -/
  num : Nat
  launch : Nat
  cluster : Nat
  core : Nat
  pos : Nat
  /-- Physical slot of each logical slot (R86). -/
  slots : List (Option Nat)
  /-- Base of its scratchpad region (R209). -/
  base : Nat
  fibres : Map Fibre
  windows : List WinState
  /-- Registers on their way back to the reservation (R89). -/
  returning : Nat
  tcb : BitVec 32
  tiles : List Tile
  wslots : List WSlot
  frontier : List Frontier
  lostIn : Nat
  lostOut : Nat
  report : Bool
  stalls : Vector Nat 16
  /-- The progress counter (R417). -/
  progress : Nat
  /-- Attempt number (R231), relaunches that followed a forced reset (R400), ticks at admission, whether it was saved and
  resumed. -/
  attempt : Nat
  forced : Nat
  start : Nat
  resumed : Bool
  /-- End code of a killed work-group (R344, R387). -/
  killed : Option Nat
  /-- The `WGSAVE` its threads are arriving at (R401). -/
  saves : List SaveRound
  /-- Threads of its fibres that have still to take the status of a `WGSAVE` that is over (R401). -/
  saveDone : List (Nat × Mask × Nat)
  /-- Whether it is a gathered fibre of lane tasks (R346). -/
  lane : Bool
deriving DecidableEq, Repr

/-! ### Jobs -/

/-- The kick of a job (R258, R259, R284): the kicking fibre, its identity, core, context, launch, clock and generations, and
the job's scope. -/
structure Kick where
  ref : FibRef
  writer : Nat
  core : Nat
  ctx : Nat
  launch : Nat
  clock : Nat
  cgen : Nat
  ggen : Nat
  scope : Scope
  checked : Bool
deriving Inhabited, DecidableEq, Repr

/-- A copy request record (R298). -/
structure CopyRec where
  src : Nat
  dst : Nat
  rowbytes : Nat
  rows : Nat
  sstride : Nat
  dstride : Nat
  bar : Nat
  sspace : Bool
  dspace : Bool
  barv : Bool
  nodev : Bool
  mcast : Bool
  mask : Nat
  conv : Nat
  rnd : Rnd
  sat : Bool
  node : Nat
deriving Inhabited, DecidableEq, Repr

/-- An accepted copy card (R301): its number on its core, the offset it was accepted from, its record, its kick, the base of
its launch cluster's regions, and the source bytes of its sequence already delivered. -/
structure Card where
  num : Nat
  offset : Nat
  rcd : CopyRec
  kick : Kick
  base : Nat
  started : Bool
  faulted : Bool
  done : Nat
  /-- The bytes it has read of the piece that it moves next, and whether some of them may have been written already (R262). -/
  moving : Option (List Byte × Bool)
deriving Inhabited, DecidableEq, Repr

/-! ### Cores, clusters -/

/-- What an operation of the matrix array does when it takes effect (R171, R176, R182 to R186, R148, R205). -/
inductive MatKind where
  | quarter
  | mldt
  /-- `MZERO`, and whether it clears the counters. -/
  | zero (mon : Bool)
  /-- `MWR`: row, column and value, in lane order. -/
  | write (l : List (Nat × Nat × BitVec 32))
  /-- `MRD`: its register, format, rounding, saturation, and the row and column of each lane. -/
  | read (d : Nat) (fmt : Fmt) (rnd : Rnd) (sat : Bool) (places : List (Nat × Nat × Nat))
  /-- `MSTT`: its word, format, rounding, saturation, and the accesses of the rows that have still to be read. -/
  | store (word : WordRef) (fmt : Fmt) (rnd : Rnd) (sat : Bool) (accs : List LaneAcc)
  /-- `MSEND`: its operand (the stream's handle and first row), format, rounding, saturation, and rows already sent. -/
  | send (handle : Nat) (fmt : Fmt) (rnd : Rnd) (sat : Bool) (row : Nat)
  /-- `MMON`: its register, the counter, and whether it clears it. -/
  | monitor (d : Nat) (ctr : Nat) (clr : Bool)
  /-- The tile form of `FLREDM`: its destination, the lanes with their rows, and whether it takes the maximum. -/
  | extreme (d : Dst) (max : Bool) (places : List (Nat × Nat))
deriving Inhabited, DecidableEq, Repr

/-- The contents of a B tile of the array (R160, R175): the physical slot and version it was loaded for, and what the slot held
then. -/
structure BTile where
  slot : Nat
  version : Nat
  weights : WSlot
deriving DecidableEq, Repr

/-- One operation of a core's matrix array, in issue order (R172, R176): its number, issuing fibre and lanes, tile, control field,
weight slot with the version and bank it references (R203), the rows it takes (tile row, A bytes, scales), and rows still to be read
from the aperture (tile row, physical scratchpad byte of the row, bytes, byte of its scales, scale bytes). -/
structure MatOp where
  num : Nat
  kind : MatKind
  ref : FibRef
  lanes : Mask
  tile : Nat
  ctl : BitVec 32
  asc : Bool
  slot : Nat
  version : Nat
  bank : Nat
  extraA : BitVec 8
  rows : List (Nat × List Byte × List Byte)
  wanted : List (Nat × Nat × Nat × Nat × Nat)
  issued : Nat
  ready : Bool
  /-- The weights it uses, once its pass has opened or it has joined one (R174, R175). -/
  opened : Option WSlot
deriving DecidableEq, Repr

/-- A line of a core's L1 (R217, R218, R227, R257). `pa` is where the line is stored; valid and dirty have one bit for
each word; `filled` is the tick each word was filled, `dirtied` the tick the oldest dirty word became dirty. -/
structure L1Line where
  asid : Nat
  gen : Nat
  vline : Nat
  pa : Nat
  /-- Where its stores go: the addresses of every copy, the storing die's first (R214). -/
  copies : List Nat
  /-- Its distance from the first byte of its page, and the page's size. -/
  page : Nat × Nat
  valid : Mask
  dirty : Mask
  words : LaneVec
  filled : Vector Nat 32
  dirtied : Nat
  read : Bool
  write : Bool
  noted : Bool
  through : Bool
  atomicPage : Bool
  /-- Whether its page carries race metadata (R213, R272). -/
  checkedPage : Bool
  /-- A fill that has been sent and has not arrived (R227). -/
  filling : Bool
deriving DecidableEq, Repr

/-! ### The issue context -/

/-- Which fibre issues which word: the issue group, its PC and the word's bits (R91). -/
structure Cur where
  ref : FibRef
  lanes : Mask
  pc : Nat
  bits : BitVec 96
deriving Inhabited, DecidableEq, Repr

/-! ### Slots -/

/-- A physical slot of a core (R91, R94, R95). -/
structure PSlot where
  cur : Option FibRef := none
  /-- A switch is due; the slot issues nothing until it has taken place. -/
  due : Bool := false
  /-- The tick on which the slot issued last, and what it issued (R91, R415). -/
  last : Option (Nat × Cur) := none
  /-- What it issued before that: a word that waits without parking has not issued (R91, R93). -/
  prev : Option (Nat × Cur) := none
deriving DecidableEq, Repr

/-- The race record of a line (R274), tagged with the context and launch it belongs to (R273). -/
structure LineMeta where
  writer : Nat
  clock : Nat
  scope : Nat
  cgen : Nat
  ggen : Nat
  valid : Bool
  multi : Bool
  rel : Bool
  atom : Bool
  mask : Mask
  launch : Nat
deriving Inhabited, DecidableEq, Repr

/-- A watch entry of a core (R270): the watched line and the fibre. -/
structure Watch where
  line : Nat
  ref : FibRef
  fired : Bool
deriving DecidableEq, Repr

/-- An `MCFG` that waits (R196): its work-group, fibre and address; whether it has given back what it returns and asks the pools; the
slots it keeps, and what it asks for. -/
structure PoolClaim where
  ticket : Nat
  wg : Nat
  fib : Nat
  pc : Nat
  asks : Bool
  keep : Nat
  bytes : Nat
  slots : Nat
deriving DecidableEq, Repr

/-- One core (R9). Registers, fibres and windows are in the work-groups it holds. -/
structure Core where
  /-- s.rfcap (R85). -/
  rfcap : Nat := 4096
  pslots : Vector PSlot 8 := Vector.replicate 8 {}
  /-- Trap and race records the core has written (R291, R397). -/
  seq : Nat := 0
  /-- Scratchpad lines whose presence bit is 0 (R223). -/
  absent : List Nat := []
  /-- The tick on which an event set a line's presence bit last (R223). -/
  setAt : Map Nat := []
  /-- Race records of scratchpad lines (R273). -/
  records : Map LineMeta := []
  l1 : List L1Line := []
  matq : List MatOp := []
  claims : List PoolClaim := []
  watches : Map Watch := []
  /-- The current B tile of the array, and the loading tile (R160, R174, R175). -/
  btile : Option BTile := none
  ltile : Option BTile := none
  /-- The pass that opened last: its first quarter, and how many it holds (R174). -/
  pass : Option (MatOp × Nat) := none
  /-- The number of the next operation of the array. -/
  nextOp : Nat := 0
  /-- Version counters of the physical weight slots that no work-group holds (R193). -/
  versions : Map Nat := []
  /-- The card queue, in order of acceptance (R301), the next card's number, and for each line that a card has cleared the
  latest accepted card that writes it (R302). -/
  cards : List Card := []
  nextCard : Nat := 0
  owners : Map Nat := []
  /-- For each stage barrier, by scratchpad address: the kicks of the copies that have completed in the phase that is collecting, and of
  those that completed in the phase before it (R260, R284). -/
  stageKicks : Map (List Kick × List Kick) := []
deriving DecidableEq, Repr

/-- A TLB entry (R213 to R222). -/
structure TlbEntry where
  ctx : Nat
  asid : Nat
  gen : Nat
  vbase : Nat
  bytes : Nat
  frame : Nat
  read : Bool
  write : Bool
  exec : Bool
  home : Nat
  atomic : Bool
  checked : Bool
  migratable : Bool
  cache : Nat
  /-- Address of the leaf entry, gathered dirty state and who gathered it (R221). -/
  leaf : Nat
  dirty : Bool
  setter : List Nat
  count : Nat
deriving DecidableEq, Repr

/-- A walk-cache entry (R215): the table that a prefix of an address leads to. -/
structure WalkEntry where
  asid : Nat
  gen : Nat
  level : Nat
  prefx : Nat
  next : Nat
deriving DecidableEq, Repr

/-- A TLB with its walk cache: one for each cluster, and one for the engines of each die (R215). -/
structure Tlb where
  entries : List TlbEntry := []
  walks : List WalkEntry := []
deriving DecidableEq, Repr

/-! ### Contexts and launches -/

/-- State of a context (R399). -/
inductive CtxState where
  | idle
  | running
  | draining
  | preempted
  | faulted
deriving Inhabited, DecidableEq, Repr

/-- A ring the device writes (R406): base, log2 of its entry count, head, and the address of its descriptor. -/
structure Ring where
  base : Nat
  log : Nat
  head : Nat
  desc : Nat
deriving Inhabited, DecidableEq, Repr

/-- A work-group that `WGSAVE` has saved (R401 to R405): its number in the package, launch, number, launch cluster, position
in it, core and slots, its area, its attempt and how many of its relaunches followed a forced reset, and the destination
of each fibre's `WGSAVE`. -/
structure SavedWg where
  wg : Nat
  launch : Nat
  num : Nat
  cluster : Nat
  pos : Nat
  core : Nat
  slots : List (Option Nat)
  area : Nat
  attempt : Nat
  forced : Nat
  dsts : List (Nat × Nat)
  /-- Its exit mask and stall counters, for the exit record of one that is killed before it resumes (R344). -/
  exit : Mask
  stalls : List Nat
  /-- Its progress counter (R417). -/
  progress : Nat
  /-- The place of each fibre in its physical slot, and the vectors of its windows' parts (R276, R279). -/
  places : Map Nat
  vecs : List (List (Map Nat))
deriving DecidableEq, Repr

/-- A killed work-group that is to be relaunched (R231, R400): its attempts, and those that followed a forced reset. -/
structure AgainWg where
  launch : Nat
  num : Nat
  cluster : Nat
  pos : Nat
  attempt : Nat
  forced : Nat
deriving DecidableEq, Repr

/-- A context (R406), its control block of R426 and what the device holds for it. -/
structure Context where
  st : CtxState := .idle
  entry : Nat := 0
  asid : Nat := 0
  gen : Nat := 0
  valid : Bool := false
  system : Bool := false
  root : Nat := 0
  deadline : Nat := 0
  /-- trap, exit, completion, race, access counter (R406). -/
  rings : Vector Ring 5 := Vector.replicate 5 default
  emul : Nat := 0
  /-- Energy in pJ; the counter is its whole µJ (R407). -/
  energy : Nat := 0
  esat : Bool := false
  unchecked : Nat := 0
  racedrop : Nat := 0
  accdrop : Nat := 0
  stray : Nat := 0
  /-- A pre-emption request is pending (R399), the tick at which its deadline expires. -/
  request : Bool := false
  expires : Option Nat := none
  /-- Saved work-groups that wait for a resume, and work-groups a forced reset killed (R399, R400). -/
  saved : List SavedWg := []
  again : List AgainWg := []
deriving DecidableEq, Repr

/-- A register window of a kernel descriptor (R55). -/
structure WinDesc where
  first : Nat
  count : Nat
  fibs : BitVec 4
  owner : Nat
  double : Bool
  valid : Bool
deriving Inhabited, DecidableEq, Repr

/-- A launch: what its KD and LPB gave it and how far it has come. -/
structure Launch where
  ctx : Nat := 0
  entry : Nat := 0
  trapVec : Nat := 0
  regs : Nat := 1
  fibres : Nat := 1
  cluster : Nat := 1
  plan : List Nat := [1]
  scratch : Nat := 0
  params : Nat := 0
  paramPtr : Nat := 0
  windows : List WinDesc := []
  coresident : Bool := false
  determ : Bool := false
  checked : Bool := false
  reserve : Bool := false
  idempotent : Bool := false
  retry : Nat := 0
  /-- Grid generation, cluster generations, alias of each moved cluster: die and cluster within it (R278, R279). -/
  ggen : Nat := 0
  cgens : Map Nat := []
  aliases : Map Nat := []
  /-- The cores of each cluster that has been placed, and the identities that its fibres have held (R274, R277). -/
  places : Map (List Nat) := []
  homes : Map (List Nat) := []
  /-- Die whose scheduler runs it, sequence number there, address of its KD and LPB fields (R337). -/
  die : Nat := 0
  seq : Nat := 0
  kd : Nat := 0
  grid : Nat × Nat × Nat := (1, 1, 1)
  shape : Nat × Nat × Nat := (1, 1, 1)
  timestamps : Bool := false
  exitrec : Bool := false
  prio : Nat := 0
  mask : Nat := 0
  recaddr : Nat := 0
  tag : Nat := 0
  succs : List Nat := []
  /-- Reference of the launch node, 0 for `LAUNCH`. -/
  node : Nat := 0
  /-- Clusters in the order they retire, each with its die (R339, R340); clusters not yet in a seedbed (R332). -/
  order : List (Nat × Nat) := []
  unplaced : List (Nat × Nat) := []
  /-- Work-groups completed in each cluster, clusters retired, exit records held until retirement (R341). -/
  ended : Map Nat := []
  retiredTo : Nat := 0
  held : Map (List (List Byte)) := []
  wgsDone : Nat := 0
  relaunches : Nat := 0
  spwgs : Nat := 0
  status : Nat := 0
  started : Bool := false
  /-- A gathered fibre's launch (R346): no LPB and no records of its own. -/
  lane : Bool := false
  done : Bool := false
  /-- The kick that its start acquires, and the event that follows the end of a forced reset. -/
  kick : Option Kick := none
deriving DecidableEq, Repr

/-! ### Engines of a die -/

/-- An armed receive slot (R316): core and number of the work-group whose region holds it, its scratchpad address and
aperture offset. -/
structure ArmedSlot where
  core : Nat
  wg : Nat
  phys : Nat
  offset : Nat
deriving DecidableEq, Repr

/-- A receive ring (R316, R317): armed slots, oldest first, sequence and drop counters. -/
structure RxRing where
  armed : List ArmedSlot := []
  sequence : Nat := 0
  drops : Nat := 0
deriving DecidableEq, Repr

/-- A frame that waits to be sent (R319, R321): handle, core, work-group, scratchpad address, length, port, and the frame
node that sends it. -/
structure TxFrame where
  handle : Nat
  core : Nat
  wg : Nat
  phys : Nat
  len : Nat
  ts : Bool
  p1 : Bool
  node : Option Nat
deriving DecidableEq, Repr

/-- What the die knows of a transmit handle (R320). -/
structure TxState where
  sent : Bool := false
  stamped : Bool := false
  dropped : Bool := false
  tick : Nat := 0
  ptp : List Byte := []
deriving DecidableEq, Repr

/-- A network engine (R315 to R321); its rules and ring descriptors stand in the control registers. -/
structure Net where
  rings : Map RxRing := []
  unmatched : Nat := 0
  /-- Frames that the MAC has discarded for a bad FCS (R315). -/
  badFcs : Nat := 0
  queue : List TxFrame := []
  /-- The bytes of the frame that each port sent last (R319, R321). -/
  wire : Map (List Byte) := []
  handles : Map TxState := []
  nextHandle : Nat := 0
  /-- Ports whose link is down, and whether the port is split (R315, R319). -/
  down : List Nat := []
deriving DecidableEq, Repr

/-- State of a graph node (R326). -/
inductive NodeState where
  | free
  | waiting
  | ready
  | running
  | done
deriving Inhabited, DecidableEq, Repr

/-- A graph node (R326); `queued` says whether a ready node is in the seedbed (R328). -/
structure Node where
  pred : Nat
  init : Nat
  kind : Nat
  st : NodeState
  rearm : Bool
  ctx : Nat
  payload : Nat
  succs : List Nat
  tag : Nat
  queued : Bool
deriving Inhabited, DecidableEq, Repr

/-- A lane task (R345): address of its KD, context, argument record, kick, and whether it may be stolen by another die. -/
structure LaneTask where
  kd : Nat
  ctx : Nat
  arg : List Byte
  kick : Option Kick
deriving DecidableEq, Repr

/-- What a seedbed entry is (R332). -/
inductive Work where
  | node (n : Nat)
  | place (launch cluster : Nat)
  | task (t : LaneTask)
deriving DecidableEq, Repr

/-- A seedbed entry (R332, R333): its order, the cluster whose sub-pool holds it (none: the die pool), its class (4:
reserved), and the tick it entered. -/
structure Entry where
  num : Nat
  pool : Option Nat
  cls : Nat
  work : Work
  since : Nat
deriving DecidableEq, Repr

/-- A launch that waits in a die's launch queue (R349): sequence number, context, LPB address, launch node, kick. -/
structure LaunchReq where
  seq : Nat
  ctx : Nat
  lpb : Nat
  node : Option Nat
  kick : Option Kick
deriving DecidableEq, Repr

/-- A task-graph scheduler (R324 to R336). -/
structure Sched where
  nodes : Map Node := []
  seedbed : List Entry := []
  nextEntry : Nat := 0
  queue : List LaunchReq := []
  nextSeq : Nat := 0
  /-- The number of the next gathered fibre (R344). -/
  gather : Nat := 0
  /-- Running nodes whose unit has finished, and which have still to complete (R328). -/
  finished : List Nat := []
  /-- Whether the seedbed runs as one queue: during start-up and built-in test, and in the recovery after a context reset (R336). -/
  single : Bool := true
deriving DecidableEq, Repr

/-- A collective descriptor (R353). -/
structure CollDesc where
  src : Nat
  dst : Nat
  count : Nat
  kind : Nat
  op : Nat
  arrival : Bool
  rnd : Rnd
  infmt : Nat
  outfmt : Nat
  sspace : Bool
  dspace : Bool
  nodev : Bool
  spec : Bool
  stream : Bool
  group : Nat
  slot : Nat
  sequence : Nat
  node : Nat
  root : Nat
  bucketmib : Nat
  bucket : Nat
  binexp : Int
deriving DecidableEq, Repr

/-- One contribution of this package to a collective (R352 to R369): its handle and context, descriptor and where that
stands, kick, type-3 node, core and region base of its aperture addresses, member dies and position among them, participants
per die, rows delivered to a stream, and its result. -/
structure CollOp where
  handle : Nat
  ctx : Nat
  desc : CollDesc
  place : Nat
  scratch : Bool
  launch : Nat
  kick : Option Kick
  node : Option Nat
  core : Nat
  base : Nat
  members : List (Nat × Nat)
  m : Nat
  c : Nat
  /-- Stream rows delivered, with their 64 elements (R363), those of them that stand in staging, and whether the stream has fallen
  back to its bucket (R364). -/
  rows : List (Nat × List (BitVec 32))
  staged : List Nat
  fallback : Bool
  /-- The bytes of its output and its status, once the operation has been reduced and until they are written. -/
  out : Option (List Byte)
  result : Nat
  status : Nat
  nanidx : Nat
  nansrc : Nat
  redone : Nat
deriving DecidableEq, Repr

/-- A collective operation that has ended as refused or faulted before every contribution of this package has come: its context, group and
sequence number, its status, and the participants that have still to come; theirs end the same way (R366, R369). -/
structure CollEnd where
  ctx : Nat
  group : Nat
  sequence : Nat
  status : Nat
  left : List Nat
deriving DecidableEq, Repr

/-- A collective engine: operations, the next handle of each context, and the exponents that the last operation of a group
left, block by block (R360). -/
structure Coll where
  ops : List CollOp := []
  next : Map Nat := []
  exps : List ((Nat × Nat) × List Int) := []
deriving DecidableEq, Repr

/-- A sequence descriptor (R373). -/
structure SeqDesc where
  ybase : Nat
  kbase : Nat
  xbase : Nat
  obase : Nat
  bbase : Nat
  sdef : Nat
  ystride : Nat
  n : Nat
  nsamp : Nat
  table : Nat
  den : Nat
  ret : Nat
  fin : Nat
  doneaddr : Nat
deriving DecidableEq, Repr

/-- A sample record (R374), with the current round's step, its mark (R376), and tend (R373). -/
structure Sample where
  t : BitVec 32 := 0
  h : BitVec 32 := 0
  errprev : BitVec 32 := 0
  acc : Nat := 0
  rej : Nat := 0
  k0 : Bool := false
  status : Nat := 8
  step : BitVec 32 := 0
  last : Bool := false
  tend : BitVec 32 := 0
deriving Inhabited, DecidableEq, Repr

/-- A sequence place (R373 to R384): `state` and `reason` as in the sequence word, the table it was started with, the stage in
progress and its active set, whether the denoiser runs, whether an abort is pending and frees the place, the end that is
due (state, reason, faulting address), and the start and return nodes that it holds. -/
structure SeqPlace where
  ctx : Nat
  gen : Nat
  defined : Bool
  desc : SeqDesc
  samples : List Sample
  state : Nat
  reason : Nat
  rounds : Nat
  stage : Nat
  active : List Nat
  waiting : Bool
  abort : Bool
  freeAfter : Bool
  ending : Option (Nat × Nat × Nat)
  table : List Byte
  kick : Option Kick
  startNode : Option Nat
  retNode : Option Nat
deriving DecidableEq, Repr

/-- A solver sequencer (R371): tables by number with the context that wrote them, and places. -/
structure Sequencer where
  tables : Map (Nat × List Byte) := []
  places : Map SeqPlace := []
deriving DecidableEq, Repr

/-- A trace buffer (R414): records written so far, and those dropped. -/
structure Trace where
  count : Nat := 0
  drops : Nat := 0
deriving DecidableEq, Repr

/-- The engines of one die. -/
structure Die where
  net : Net := {}
  sched : Sched := {}
  coll : Coll := {}
  sequencer : Sequencer := {}
  trace : Trace := {}
deriving DecidableEq, Repr

/-- A completion event on its way to a node (R328, R330): the node reference and the context that posted it. -/
structure Post where
  ref : Nat
  ctx : Nat
deriving DecidableEq, Repr

/-- The bytes of one access or write-back that a replica has still to apply (R244, R256): each with its address there, the page of the
replica (its first byte and its size), the core they came from, and the tick of the primary's application. -/
structure ReplicaStore where
  cells : List Host.Cell
  page : Nat × Nat
  origin : Nat
  tick : Nat
deriving Inhabited, DecidableEq, Repr

/-- An MSI-X vector (R430): masked, pending, whether it has signalled and has not yet observed a changed tail, the tails last
read of the rings that feed it, and messages sent. -/
structure MsiVec where
  masked : Bool := false
  pending : Bool := false
  quiet : Bool := false
  tails : Map Nat := []
  sent : Nat := 0
deriving DecidableEq, Repr

/-! ### What can happen next -/

/-- A step that the package can take. -/
inductive Action where
  /-- A row of the table that is an event of the package itself. -/
  | event (i : Instr)
  /-- The oldest event from outside. -/
  | input
  /-- The oldest event that the device owes itself. -/
  | owed
  /-- A store of the package to control registers acts. -/
  | regs
  /-- A port issues a word. -/
  | issue (core port : Nat)
  /-- A trap whose record has found its place goes on (R389). -/
  | trap (r : FibRef)
  /-- A fibre issues the faulted entries of its log again (R411). -/
  | reissue (r : FibRef)
  /-- The contributions of a collective do not agree (R366). -/
  | conflict (die op : Nat)
  /-- An operation of a core's matrix array that is no quarter takes effect (R176). -/
  | tileStep (core : Nat)
  /-- The start-up, the test or the recovery of a die ends, and its seedbed is in normal service (R336). -/
  | normal (die : Nat)
deriving DecidableEq, Repr

/-! ### The package -/

/-- The state of the package. -/
structure State where
  /-- The global tick counter. One counter stands for all: the spec lets those of two dies differ by 0 or 1 at an instant (R12), and
  the model reads the same value on every die (assumption 76). -/
  tick : Nat
  /-- Steps that could be taken and were not, each with the number of steps it has waited: the model's own, by which no step waits
  for ever (R98; assumption 1). -/
  deferred : List (Action × Nat)
  /-- How many free values the run has taken so far: the model's own counter. -/
  free : Nat
  /-- The word being issued, if any: set by `step` before it runs a word. -/
  cur : Option Cur
  /-- Events from outside that wait to be taken, oldest first. -/
  inputs : List Instr
  /-- Events the device owes itself, oldest first: a context fault, a relaunch. -/
  todo : List Instr
  dies : Map Die
  /-- Decrements on their way, oldest first. -/
  posts : List Post
  ctxs : Map Context
  launches : Map Launch
  /-- Resident work-groups, by a number that is never used twice. -/
  wgs : Map WorkGroup
  nextWg : Nat
  cores : Map Core
  tlbs : Map Tlb
  /-- Global memory: bytes by storage address. -/
  mem : List Host.Cell
  /-- Scratchpads: bytes by core times 2^20 plus offset (R9). -/
  scratch : List Host.Cell
  /-- Race records of global lines, by line address (R273). -/
  records : Map LineMeta
  /-- Pinned lines: context and count for each (R240). -/
  pins : Map (Map Nat)
  /-- Poisoned lines (R230). -/
  poison : List Nat
  barriers : List (BarKey × Barrier)
  replicas : List ReplicaStore
  /-- The control registers of W0, by offset (R425); fields the device derives are composed when they are read. -/
  w0 : List Host.Cell
  /-- Records of the common layout written to the host ring so far (R461). -/
  hostSeq : Nat
  /-- Collective operations that have ended before every contribution has come (R366, R369). -/
  collEnds : List CollEnd
  /-- MSI-X vectors (R430). -/
  msi : Map MsiVec
  powered : Bool
  /-- s.pkg, and the package numbers present in the UALink domain (R131, R211). -/
  pkg : Nat
  peers : List Nat
  /-- Units out of service, and units marked for retirement at the next package reset (R434). -/
  retired : List UnitRef
  marked : List UnitRef
  /-- Uncorrectable errors of units, with their ticks (R434). -/
  errors : List (UnitRef × Nat)
  nextLaunch : Nat
  /-- For each ASID at generation 15, whether a `TLBINV.all` has completed since it reached it (R410). -/
  flushed : List Nat
  /-- Ports of the collective engines whose link is down, by die times 4 plus port (R351). -/
  linksDown : List Nat
  /-- Whether the PTP clock is locked, and whether the tick counters were loaded from it (R14, R433). -/
  ptpLocked : Bool
  tickPtp : Bool
  /-- A tick and the PTP time of it, in 2^-16 ns: while the clock is locked, the tick counters keep their rate to it (R14). -/
  ptpBase : Nat × Nat
  /-- The power cap in W (R16, R431), whether it withholds issue, and the dies whose sensors do (R432). -/
  cap : Nat
  capped : Bool
  hot : List Nat
  /-- Thermal-trip records in the management controller's flash (R432): die, tenths of a degree, tick. -/
  flash : List (Nat × Nat × Nat)
  /-- Stores of programs and engines to control registers that have still to act (R211, R425): offset and bytes. -/
  regWrites : List (Nat × List Byte)
  /-- What the last read from outside the package returned (R219, R424). -/
  reply : List Byte
  /-- The ticks that the register and the pin name for a freeze, and whether it has taken place (R422). -/
  freezeAt : Option Nat
  freezePin : Option Nat
  frozen : Bool
  /-- Progress counters the wait-for graph read last, by work-group, with the tick (R418). -/
  progressSeen : Map (Nat × Nat)
deriving DecidableEq, Repr

/-- The machine right after reset (R1 to R14, R211, R230, R406, R425 to R434): nothing runs, no context is defined, every
register of W0 is zero, and every unit is in service. -/
def State.reset : State where
  tick := 0
  deferred := []
  free := 0
  cur := none
  inputs := []
  todo := []
  dies := []
  posts := []
  ctxs := []
  launches := []
  wgs := []
  nextWg := 0
  cores := []
  tlbs := []
  mem := []
  scratch := []
  records := []
  pins := []
  poison := []
  barriers := []
  replicas := []
  w0 := []
  hostSeq := 0
  collEnds := []
  msi := []
  powered := true
  pkg := 0
  peers := []
  retired := []
  marked := []
  errors := []
  nextLaunch := 0
  flushed := []
  linksDown := []
  ptpLocked := false
  tickPtp := false
  ptpBase := (0, 0)
  cap := 2400
  capped := false
  hot := []
  flash := []
  regWrites := []
  reply := []
  freezeAt := none
  freezePin := none
  frozen := false
  progressSeen := []

end Sys2Proof.Machine
end

