-- ==== Sys2Proof/Machine/Mem.lean ====
section
/-! DEFINITION. Byte memories in one canonical form: addresses strictly rising, no byte equal to what an unlisted address
reads as, which is 0 (assumption 7). -/

namespace Sys2Proof.Machine

/-- A byte memory (R211, R9, R425). -/
abbrev Memory := List Host.Cell

/-- What an address reads as that no entry lists (assumption 7). -/
def Memory.unlisted : Byte := 0

/-- One byte. -/
def Memory.get (m : Memory) (a : Nat) : Byte :=
  match m with
  | [] => Memory.unlisted
  | c :: r => if c.1 = a then c.2 else Memory.get r a

/-- Puts a byte in front of a memory whose addresses all lie above it. -/
def Memory.cons (a : Nat) (b : Byte) (m : Memory) : Memory := if b = Memory.unlisted then m else (a, b) :: m

/-- Writes one byte. -/
def Memory.set (m : Memory) (a : Nat) (b : Byte) : Memory :=
  match m with
  | [] => Memory.cons a b []
  | c :: r =>
    if a < c.1 then Memory.cons a b (c :: r)
    else if a = c.1 then Memory.cons a b r
    else c :: Memory.set r a b

/-- The canonical form: addresses strictly rising above `lo`, no listed byte that an unlisted one reads as. -/
def Memory.wfFrom (lo : Nat) : Memory → Bool
  | [] => true
  | c :: r => decide (lo ≤ c.1) && decide (c.2 ≠ Memory.unlisted) && Memory.wfFrom (c.1 + 1) r

/-- The canonical form. -/
def Memory.wf (m : Memory) : Bool := Memory.wfFrom 0 m

/-- Sets every byte of `[a, a + n)` to zero, which an unlisted byte reads as. -/
def Memory.clear (m : Memory) (a n : Nat) : Memory := m.filter (fun c => c.1 < a || a + n ≤ c.1)

/-- Some bytes from `a` upward. -/
def Memory.read (m : Memory) (a n : Nat) : List Byte := (List.range n).map (fun i => Memory.get m (a + i))

/-- Writes bytes from `a` upward. -/
def Memory.write (m : Memory) (a : Nat) : List Byte → Memory
  | [] => m
  | b :: r => Memory.write (Memory.set m a b) (a + 1) r

/-- The little-endian number of some bytes. -/
def leNat (l : List Byte) : Nat := l.foldr (fun b n => b.toNat + 256 * n) 0

/-- The `n` little-endian bytes of a number. -/
def leBytes (n v : Nat) : List Byte := (List.range n).map (fun i => BitVec.ofNat 8 (v / 256 ^ i))

/-- The little-endian number at an address. -/
def Memory.num (m : Memory) (a n : Nat) : Nat := leNat (Memory.read m a n)

/-- Writes a little-endian number. -/
def Memory.put (m : Memory) (a n v : Nat) : Memory := Memory.write m a (leBytes n v)

/-- A field of a number: bits `[lo + w - 1 : lo]`. -/
def bits (v lo w : Nat) : Nat := v / 2 ^ lo % 2 ^ w

/-- One bit of a number. -/
def bit (v k : Nat) : Bool := v / 2 ^ k % 2 == 1

/-- A bit as a number. -/
def bit01 (b : Bool) : Nat := if b then 1 else 0

/-- The physical address that R211 gives a byte of a storing die's memory. -/
def localAddr (die off : Nat) : Nat := die * 2 ^ 37 + off

/-- Sign extension of the low `w` bits. -/
def sext (v w : Nat) : Int := let x := v % 2 ^ w; if 2 * x < 2 ^ w then (x : Int) else (x : Int) - 2 ^ w

/-- An integer modulo 2^64. -/
def wrap64 (v : Int) : Nat := (v % 2 ^ 64).toNat

end Sys2Proof.Machine
end

