-- ==== Sys2Proof/Machine/Regs.lean ====
section
/-! DEFINITION. Reading and writing the parts of the state by name: fibres, work-groups, cores, registers, windows, latches
and predicates (R17, R32, R33, R48, R85 to R90, R99 to R101). -/

namespace Sys2Proof.Machine

/-! ### Places (R7, R10, R211) -/

/-- The die of a core. -/
def dieOf (core : Nat) : Nat := core / Config.coresPerDie
/-- The cluster of a core, counted over the package. -/
def clusterOf (core : Nat) : Nat := core / 8
/-- Core within its die. -/
def coreInDie (core : Nat) : Nat := core % Config.coresPerDie
/-- The TLB that serves a die's engines: the numbers after those of the 160 cluster TLBs. -/
def engineTlb (die : Nat) : Nat := 160 + die
/-- The scratchpad byte at an offset of a core's scratchpad. -/
def scratchAddr (core off : Nat) : Nat := core * Config.scratchBytes + off

/-! ### Parts of the state -/

/-- A fibre. -/
def State.fib (s : State) (r : FibRef) : Option Fibre := (Map.find s.wgs r.wg).bind (fun w => Map.find w.fibres r.fib)

/-- A work-group changed. -/
def State.modWg (s : State) (g : Nat) (f : WorkGroup → WorkGroup) : State := { s with wgs := Map.modify s.wgs g f }

/-- A fibre replaced. -/
def State.setFib (s : State) (r : FibRef) (f : Fibre) : State :=
  s.modWg r.wg (fun w => { w with fibres := Map.set w.fibres r.fib f })

/-- A fibre changed. -/
def State.modFib (s : State) (r : FibRef) (g : Fibre → Fibre) : State :=
  s.modWg r.wg (fun w => { w with fibres := Map.modify w.fibres r.fib g })

/-- A core. -/
def State.core (s : State) (k : Nat) : Core := Map.getD s.cores k {}
/-- A core changed. -/
def State.modCore (s : State) (k : Nat) (f : Core → Core) : State := { s with cores := Map.set s.cores k (f (s.core k)) }
/-- A TLB. -/
def State.tlb (s : State) (k : Nat) : Tlb := Map.getD s.tlbs k {}
/-- A TLB changed. -/
def State.modTlb (s : State) (k : Nat) (f : Tlb → Tlb) : State := { s with tlbs := Map.set s.tlbs k (f (s.tlb k)) }
/-- A context. -/
def State.ctx (s : State) (k : Nat) : Context := Map.getD s.ctxs k {}
/-- A context changed. -/
def State.modCtx (s : State) (k : Nat) (f : Context → Context) : State := { s with ctxs := Map.set s.ctxs k (f (s.ctx k)) }
/-- A launch. -/
def State.launch (s : State) (k : Nat) : Launch := Map.getD s.launches k {}
/-- A launch changed. -/
def State.modLaunch (s : State) (k : Nat) (f : Launch → Launch) : State :=
  { s with launches := Map.set s.launches k (f (s.launch k)) }
/-- The launch of a work-group. -/
def State.launchOf (s : State) (g : Nat) : Launch := s.launch (((Map.find s.wgs g).map (·.launch)).getD 0)
/-- The context number of a work-group. -/
def State.ctxOf (s : State) (g : Nat) : Nat := (s.launchOf g).ctx
/-- The core of a work-group. -/
def State.coreOf (s : State) (g : Nat) : Nat := ((Map.find s.wgs g).map (·.core)).getD 0

/-- Takes one free value: its number, and the state that has taken it. -/
def State.draw (s : State) : Nat × State := (s.free, { s with free := s.free + 1 })

/-- The fibres of the package on a core. -/
def State.fibresOn (s : State) (core : Nat) : List FibRef :=
  s.wgs.flatMap (fun (g, w) => if w.core == core then w.fibres.map (fun (k, _) => ⟨g, k⟩) else [])

/-- The physical slot of a fibre (R86). -/
def WorkGroup.pslot (w : WorkGroup) (f : Fibre) : Nat := ((w.slots.getD f.lslot none)).getD 0

/-- The fibres that share a physical slot of a core (R86). -/
def State.slotFibres (s : State) (core k : Nat) : List FibRef :=
  s.wgs.flatMap (fun (g, w) =>
    if w.core == core then
      w.fibres.filterMap (fun (n, f) => if w.pslot f == k then some ⟨g, n⟩ else none)
    else [])

/-- The fibre's identity (R274): die, core within die, physical slot times 4 plus the fibre's place in it. Work-groups may share a
physical slot (R86), so a fibre's place there is its own, and is its position where its logical slot has the physical one alone. -/
def State.identity (s : State) (r : FibRef) : Nat :=
  match Map.find s.wgs r.wg, s.fib r with
  | some w, some f => dieOf w.core * 2 ^ 13 + coreInDie w.core * 32 + w.pslot f * 4 + f.place
  | _, _ => 0

/-! ### Predicates and guards (R33) -/

/-- A predicate, thread by thread; p7 is always true. -/
def Fibre.pred (f : Fibre) (n : BitVec 3) : Mask := if n == 7 then allLanes else f.preds.toList.getD n.toNat 0

/-- Writes a predicate in some threads; a write to p7 is discarded (R120). -/
def Fibre.setPred (f : Fibre) (n : BitVec 3) (act val : Mask) : Fibre :=
  if h : n.toNat < 7 then
    let new := (f.pred n &&& ~~~act) ||| (val &&& act)
    { f with preds := f.preds.set n.toNat new h }
  else f

/-- The threads for which a guard is true. -/
def Fibre.guard (f : Fibre) (h : Hdr) : Mask := if h.neg then ~~~(f.pred h.gp) else f.pred h.gp

/-! ### What tile reads owe (R189, R190) -/

/-- The trap frame of a fibre that has entered its handler: until then its registers and its store queue are its own (R389, R390). -/
def Fibre.handler (f : Fibre) : Option TrapFrame := f.trap.bind (fun t => if t.waiting then none else some t)

/-- The name under which tile reads owe a register: handler registers are apart from the fibre's own (R48). -/
def Fibre.owedName (f : Fibre) (n : Nat) : Nat := if f.handler.isSome && n < 16 then 512 + n else n

/-- Takes some lanes out of what tile reads owe a name: a later write stands in their place. -/
def Fibre.paid (f : Fibre) (n : Nat) (m : Mask) : Fibre :=
  if f.awaits.isEmpty then f
  else { f with awaits := (f.awaits.map (fun (k, o, l) => (k, o, if k == n then l &&& ~~~m else l))).filter (fun e => e.2.2 != 0) }

/-- Whether tile reads owe a name of some list. -/
def Fibre.owes (f : Fibre) (names : List Nat) : Bool := names.any (fun n => f.awaits.any (fun e => e.1 == f.owedName n))

/-- A tile read owes some names in some lanes: its operation's number is `k`. -/
def Fibre.owe (f : Fibre) (names : List Nat) (k : Nat) (m : Mask) : Fibre :=
  { f with awaits := f.awaits ++ names.map (fun n => (f.owedName n, k, m)) }

/-- The lanes of a name that a tile read still owes. -/
def Fibre.owedLanes (f : Fibre) (n k : Nat) : Mask :=
  f.awaits.foldl (fun m e => if e.1 == f.owedName n && e.2.1 == k then m ||| e.2.2 else m) 0

/-- Takes an operation's debts away. -/
def Fibre.settled (f : Fibre) (k : Nat) : Fibre := { f with awaits := f.awaits.filter (fun e => e.2.1 != k) }

/-! ### Latches (R32) -/

/-- Captures into a latch: the active lanes' contents and valid bits. -/
def Fibre.capture (f : Fibre) (b : BitVec 2) (act : Mask) (v : LaneVec) : Fibre :=
  let old := f.latches.toList.getD b.toNat (splat 0, 0)
  let new := (lanes (fun i => if act.getLsbD i then lane v i else lane old.1 i), old.2 ||| act)
  ({ f with latches := f.latches.set b.toNat new (by omega) } : Fibre).paid (256 + b.toNat) act

/-- All valid bits of all latches clear; a capture that has still to come is discarded (R96). -/
def Fibre.clearLatches (f : Fibre) : Fibre :=
  { f with latches := f.latches.map (fun l => (l.1, 0)), awaits := f.awaits.filter (fun e => e.1 < 256 || 512 ≤ e.1) }

/-! ### Windows (R99, R101) -/

/-- The window instance, its part and the place in it of a register name, where the name is a window's in the fibre's
logical slot: index in the work-group's windows, part, register index. -/
def State.windowOf (s : State) (r : FibRef) (n : Nat) : Option (Nat × Nat × Nat) :=
  match Map.find s.wgs r.wg, s.fib r with
  | some w, some f =>
    let ds := (s.launch w.launch).windows
    (List.range w.windows.length).findSome? (fun i =>
      match w.windows[i]? with
      | none => none
      | some ws =>
        let d := ds.getD ws.w default
        if ws.lslot == f.lslot && d.fibs.getLsbD f.pos && d.first ≤ n && n < d.first + ws.regs.length then
          let k := n - d.first
          some (i, if d.double then k / (d.count / 2) else 0, k)
        else none)
  | _, _ => none

/-- The registers of a window instance. -/
def State.windowReg (s : State) (g i k : Nat) : LaneVec :=
  match Map.find s.wgs g with
  | some w => ((w.windows[i]?).bind (fun ws => ws.regs[k]?)).getD (splat 0)
  | none => splat 0

/-! ### Registers (R48, R89, R90) -/

/-- Whether a register number names a handler register of the fibre (R48). -/
def Fibre.isH (f : Fibre) (n : Nat) : Bool := f.handler.isSome && n < 16

/-- The lanes of a register name, `none` where it is unmapped (R89). -/
def State.regOpt (s : State) (r : FibRef) (n : Nat) : Option LaneVec :=
  match s.fib r with
  | none => none
  | some f =>
    match f.handler with
    | some t => if n < 16 then some (t.hregs.toList.getD n (splat 0)) else
      match s.windowOf r n with
      | some (i, _, k) => some (s.windowReg r.wg i k)
      | none => Map.find f.regs n
    | none =>
      match s.windowOf r n with
      | some (i, _, k) => some (s.windowReg r.wg i k)
      | none => Map.find f.regs n

/-- The lanes of a register name; an unmapped one reads zero (R89). -/
def State.reg (s : State) (r : FibRef) (n : Nat) : LaneVec := (s.regOpt r n).getD (splat 0)

/-- Marks undefread where one of some names is unmapped (R89); latches have the names from 256. -/
def State.noteReads (s : State) (r : FibRef) (names : List Nat) : State :=
  if names.any (fun n => n < 256 && (s.regOpt r n).isNone) then s.modFib r (fun f => { f with undefRead := true }) else s

/-- One vector written over another in some lanes. -/
def mergeLanes (act : Mask) (new old : LaneVec) : LaneVec :=
  lanes (fun i => if act.getLsbD i then lane new i else lane old i)

/-- Names a fibre has mapped, its windows' registers included (R90). -/
def State.mappedCount (s : State) (r : FibRef) : Nat :=
  match Map.find s.wgs r.wg, s.fib r with
  | some w, some f =>
    let ds := (s.launch w.launch).windows
    f.regs.length + (w.windows.map (fun ws =>
      let d := ds.getD ws.w default
      if ws.lslot == f.lslot && d.fibs.getLsbD f.pos then d.count else 0)).sum
  | _, _ => 0

/-- What a write of a register can fail with: the detail of R388. -/
abbrev Detail := Nat

/-- Whether a register may be written: window ownership (R101) and room for one more name (R90). -/
def State.writeCheck (s : State) (r : FibRef) (n : Nat) : Option Detail :=
  match Map.find s.wgs r.wg, s.fib r with
  | some w, some f =>
    if f.isH n then none
    else match s.windowOf r n with
      | some (i, p, _) =>
        if ((w.windows[i]?).bind (fun ws => ws.parts[p]?)).map (·.owner) == some f.pos then none else some 3
      | none =>
        if (Map.find f.regs n).isSome then none
        else if s.mappedCount r < (s.launch w.launch).regs then none else some 2
  | _, _ => none

/-- Writes a register in some lanes: an unmapped name is mapped with every lane zero first, and the released bits of the
writing lanes clear (R89). A write of no lane is no write. A register on its way back to the reservation is waited for
where the reservation has no other free (R90). -/
def State.writeReg (s : State) (r : FibRef) (n : Nat) (act : Mask) (v : LaneVec) : State :=
  if act == 0 then s
  else match s.fib r with
  | none => s
  | some f =>
    match f.handler, decide (n < 16) with
    | some t, true =>
      s.setFib r (({ f with trap := some { t with
        hregs := t.hregs.setIfInBounds n (mergeLanes act v (t.hregs.toList.getD n (splat 0))) } } : Fibre).paid (512 + n) act)
    | _, _ =>
      match s.windowOf r n with
      | some (i, _, k) =>
        (s.modWg r.wg (fun w => { w with windows := w.windows.modify i (fun ws =>
          { ws with regs := ws.regs.modify k (fun old => mergeLanes act v old) }) })).modFib r (fun f => f.paid n act)
      | none =>
        let old := Map.find f.regs n
        let s := if old.isNone then s.modWg r.wg (fun w =>
            let total := (s.launch w.launch).regs * w.fibres.length
            let used := (w.fibres.map (fun (_, x) => x.regs.length)).sum
            if total ≤ used + w.returning then { w with returning := 0 } else w) else s
        s.setFib r (({ f with
          regs := Map.set f.regs n (mergeLanes act v (old.getD (splat 0)))
          released := Map.set f.released n ((Map.getD f.released n 0) &&& ~~~act) } : Fibre).paid n act)

/-- A word that will write a register later claims it when it issues: the name is mapped, and the released bits of the writing lanes
clear (R89, R90). -/
def State.claimReg (s : State) (r : FibRef) (n : Nat) (m : Mask) : State := s.writeReg r n m (s.reg r n)

/-- Sets the released bits of some threads for some names (R26, R89); a window's names keep their mapping (R99). -/
def State.release (s : State) (r : FibRef) (names : List Nat) (lanesM : Mask) : State :=
  s.modFib r (fun f =>
    { f with released := names.foldl (fun m n =>
        if f.isH n || (s.windowOf r n).isSome || (Map.find f.regs n).isNone then m
        else Map.set m n (Map.getD m n 0 ||| lanesM)) f.released })

/-- Whether the released bits of a name cover every live thread (R89). -/
def Fibre.freed (f : Fibre) (n : Nat) : Bool :=
  match Map.find f.released n with
  | some m => f.live &&& ~~~m == 0
  | none => false

/-- Unmaps every name whose released bits cover every live thread (R89). -/
def State.sweep (s : State) (r : FibRef) : State :=
  match s.fib r with
  | none => s
  | some f =>
    let gone := f.regs.filter (fun e => f.freed e.1)
    if gone.isEmpty then s
    else
      let s := s.modWg r.wg (fun w => { w with returning := w.returning + gone.length })
      s.setFib r { f with regs := f.regs.filter (fun e => !(f.freed e.1)), released := f.released.filter (fun e => !(f.freed e.1)) }

/-- Raises sticky flags (R83). -/
def State.raise (s : State) (r : FibRef) (fl : BitVec 6) : State := s.modFib r (fun f => { f with fpf := f.fpf ||| fl })

end Sys2Proof.Machine
end

