-- ==== Sys2Proof/Machine/Rings.lean ====
section
/-! DEFINITION. Physical accesses of the device, record rings and interrupts (R211, R214, R406, R430, R461). -/

namespace Sys2Proof.Machine

/-! ### Physical memory -/

/-- The region of a physical address (R211). -/
def paRegion (pa : Nat) : Nat := bits pa 50 2

/-- The die that a unit belongs to: units are numbered through the package, die by die (R7, R11). -/
def unitDie : UnitRef → Nat
  | .die n => n
  | .core n => n / 160
  | .cluster n => n / 20
  | .l2Slice n => n / 80
  | .pseudoChannel n => n / 384
  | .uaLane n => n / 16

/-- Whether a die is out of service as a whole. R1 speaks of dies fused off or retired, and D0 is never one of them (R6); the spec does
not say when another one is, and the model takes a die out where the die itself has been retired as a unit (assumption 84). -/
def State.dieOut (s : State) (d : Nat) : Bool := s.retired.contains (.die d) && d != 0

/-- Whether a unit is out of service: it has been retired, or its die has. -/
def State.out (s : State) (u : UnitRef) : Bool := s.dieOut (unitDie u) || (s.retired.contains u && decide (u ≠ .die 0))

/-- Mask of the dies in service (R433). -/
def State.dieMask (s : State) : Nat := ((List.range 8).map (fun d => bit01 (!(s.dieOut d)) * 2 ^ d)).sum

/-- Mask of the clusters of a die in service. -/
def State.clusterMask (s : State) (die : Nat) : Nat :=
  ((List.range 20).map (fun c => bit01 (!(s.out (.cluster (20 * die + c)))) * 2 ^ c)).sum

/-- Mask of the cores of a cluster in service. -/
def State.coreMask (s : State) (cluster : Nat) : Nat :=
  ((List.range 8).map (fun c => bit01 (!(s.out (.cluster cluster)) && !(s.out (.core (8 * cluster + c)))) * 2 ^ c)).sum

/-- The units of a kind that are out of service, of which each die has `n`. -/
def State.lost (s : State) (n : Nat) (p : UnitRef → Bool) : Nat :=
  n * ((List.range 8).filter s.dieOut).length + (s.retired.eraseDups.filter (fun u => p u && !(s.dieOut (unitDie u)))).length

/-- The words of the identity block (R433). -/
def State.identityWord (s : State) (k : Nat) : Nat :=
  match k with
  | 0 => 1
  | 1 => s.dieMask
  | 2 => ((List.range 160).map (fun c => ((List.range 8).map (fun i => bit01 (bit (s.coreMask c) i))).sum)).sum
  | 3 => 640 - s.lost 80 (fun u => match u with | .l2Slice _ => true | _ => false)
  | 4 => 3072 - s.lost 384 (fun u => match u with | .pseudoChannel _ => true | _ => false)
  | 5 => 128 - s.lost 16 (fun u => match u with | .uaLane _ => true | _ => false)
  | 6 => bit01 s.tickPtp
  | _ => 0

/-- A context's state as its control block reads it (R426). -/
def CtxState.code : CtxState → Nat
  | .idle => 0
  | .running => 1
  | .draining => 2
  | .preempted => 3
  | .faulted => 4

/-- A byte of the control registers as it reads (R425, R426, R433): the fields the device derives, or what was written. -/
def State.regByte (s : State) (o : Nat) : Byte :=
  if o < 0x1000 then BitVec.ofNat 8 (s.identityWord (o / 4) / 256 ^ (o % 4))
  else if 0x10000 ≤ o && o < 0x11000 && 8 ≤ o % 64 then
    if o % 64 == 8 then BitVec.ofNat 8 (((s.ctxs.find? (fun e => e.1 == (o - 0x10000) / 64)).map (fun e => e.2.st.code * 16)).getD 0) else 0
  else Memory.get s.w0 o

/-- The bytes at a physical address as their storing die holds them: the control registers in region 01, memory otherwise. -/
def State.physRead (s : State) (pa n : Nat) : List Byte :=
  if paRegion pa == 1 then (List.range n).map (fun i => s.regByte (pa % 2 ^ 22 + i)) else Memory.read s.mem pa n

/-- A little-endian number at a physical address. -/
def State.physNum (s : State) (pa n : Nat) : Nat := leNat (s.physRead pa n)

/-- Writes bytes at a physical address; a store to control registers acts as a step of its own (R425). -/
def State.physWrite (s : State) (pa : Nat) (l : List Byte) : State :=
  if paRegion pa == 1 then { s with regWrites := s.regWrites ++ [(pa % 2 ^ 22, l)] } else { s with mem := Memory.write s.mem pa l }

/-- Where the line of a physical address is stored, the primary first (R214): `home` is the page's attribute. -/
def storedAt (home pa : Nat) : List Nat :=
  if paRegion pa != 0 then [pa]
  else
    let off := pa % 2 ^ 37
    let die := bits pa 37 3
    if home == 1 then [localAddr (die ^^^ bits pa 12 3) off]
    else if home == 2 then localAddr die off :: ((List.range 8).filter (· != die)).map (fun d => localAddr d off)
    else [localAddr die off]

/-- Where a load of a die reads a line (R214): its own replica of a replicated page. -/
def loadFrom (home pa die : Nat) : Nat :=
  if paRegion pa == 0 && home == 2 then localAddr die (pa % 2 ^ 37) else (storedAt home pa).headD pa

/-- The pseudo-channel that backs a byte of local memory, by where it is stored. -/
def pchAt (p : Nat) : Nat := 384 * (p / 2 ^ 37) + Config.pchOf p % 384

/-- The L2 slice that serves a stored line (R228): a die's hash spreads its lines over the slices that it has left (R434). -/
def State.l2Slice (s : State) (p : Nat) : Nat :=
  let d := p / 2 ^ 37
  let l := ((List.range 80).map (· + 80 * d)).filter (fun k => !(s.out (.l2Slice k)))
  l.getD (Config.sliceOf (p / 128) % max 1 l.length) (80 * d)

/-- Whether a physical address names memory that exists (R211), where its bytes stand at some places of local memory: no fused-off or
retired pseudo-channel, no absent package, no set bit among [49:40] of local memory. -/
def State.paHolds (s : State) (pa : Nat) (places : List Nat) : Bool :=
  match paRegion pa with
  | 0 => bits pa 40 10 == 0 && places.all (fun p => !(s.out (.pseudoChannel (pchAt p))))
  | 2 => bits pa 48 2 == 0 && s.peers.contains (bits pa 40 8)
  | _ => true

/-- The same for an address that names its own place. -/
def State.paExists (s : State) (pa : Nat) : Bool := s.paHolds pa [pa]

/-! ### The PTP clock (R12, R314) -/

/-- A time of the PTP clock as its seconds, nanoseconds and fraction give it, in 2^-16 ns. -/
def ptpValue (n : Nat) : Nat :=
  let (sec, ns, frac) := Config.ptpClock n
  (sec.toNat * 10 ^ 9 + ns.toNat % 10 ^ 9) * 2 ^ 16 + frac.toNat

/-- The PTP time of this tick, in 2^-16 ns. While the clock is locked, 1.2 * 10^9 ticks pass in each of its seconds (R14); a clock that
is not locked shows a free time (assumption 6). -/
def State.ptpTime (s : State) : Nat :=
  if s.ptpLocked then s.ptpBase.2 + (s.tick - s.ptpBase.1) * 5 * 2 ^ 16 / 6 else ptpValue s.tick

/-- The 16 bytes of a PTP timestamp (R314). -/
def ptpBytes (t : Nat) : List Byte :=
  leBytes 4 (t % 2 ^ 16) ++ leBytes 4 (t / 2 ^ 16 % 10 ^ 9) ++ leBytes 8 (t / 2 ^ 16 / 10 ^ 9 % 2 ^ 48)

/-- The timestamp of this instant. -/
def State.ptpStamp (s : State) : List Byte := ptpBytes s.ptpTime

/-! ### Interrupts (R430) -/

/-- Observes the tail of a ring that feeds a vector: one that differs from the tail read before lets the vector signal
again. -/
def MsiVec.observe (x : MsiVec) (ring tail : Nat) : MsiVec :=
  { x with quiet := x.quiet && (Map.find x.tails ring).all (· == tail), tails := Map.set x.tails ring tail }

/-- Sends a vector's message, or marks it pending where it is masked. -/
def MsiVec.send (x : MsiVec) : MsiVec := if x.masked then { x with pending := true } else { x with sent := x.sent + 1 }

/-- Signals a vector once, until a changed tail is observed. -/
def State.signal (s : State) (v : Nat) : State :=
  let x := Map.getD s.msi v {}
  if x.quiet then s else { s with msi := Map.set s.msi v { x.send with quiet := true } }

/-- The tail of a ring that feeds a vector is read. -/
def State.readTail (s : State) (v ring tail : Nat) : State :=
  { s with msi := Map.set s.msi v ((Map.getD s.msi v {}).observe ring tail) }

/-! ### Rings (R406) -/

/-- Bytes of one entry of a context's ring: trap, exit, completion, race, access counter. -/
def ringEntry (r : Nat) : Nat := if r == 1 then 128 else if r == 4 then 16 else 64

/-- Whether a context has a ring of this kind. -/
def State.hasRing (s : State) (c r : Nat) : Bool := ((s.ctx c).rings.toList.getD r default).base != 0

/-- Whether a context's ring has a free place: its tail is read from the descriptor in memory. -/
def State.ringRoom (s : State) (c r : Nat) : Bool :=
  let g := (s.ctx c).rings.toList.getD r default
  (g.head + 2 ^ 32 - s.physNum (g.desc + 12) 4) % 2 ^ 32 != 2 ^ g.log

/-- Appends a record to a context's ring and writes the head to its descriptor; nothing where there is no ring or no
free place. -/
def State.ringAppend (s : State) (c r : Nat) (rcd : List Byte) : State :=
  if s.hasRing c r && s.ringRoom c r then
    let g := (s.ctx c).rings.toList.getD r default
    let s := s.physWrite (g.base + g.head % 2 ^ g.log * ringEntry r) rcd
    let head := (g.head + 1) % 2 ^ 32
    let s := s.physWrite (g.desc + 8) (leBytes 4 head)
    let s := s.modCtx c (fun x => { x with rings := x.rings.setIfInBounds r { g with head := head } })
    (s.readTail (8 + c) r (s.physNum (g.desc + 12) 4)).signal (8 + c)
  else s

/-- The address a context's next record of a ring goes to. -/
def State.ringPlace (s : State) (c r : Nat) : Nat :=
  let g := (s.ctx c).rings.toList.getD r default
  g.base + g.head % 2 ^ g.log * ringEntry r

/-- Base of the host ring, without the size bits. -/
def State.hostBase (s : State) : Nat := let b := Memory.num s.w0 0x1000 8; b - b % 4096
/-- log2 of the host ring's entry count. -/
def State.hostLog (s : State) : Nat := bits (Memory.num s.w0 0x1000 8) 0 5
/-- Whether the host ring has a free place. -/
def State.hostRoom (s : State) : Bool :=
  s.hostBase != 0 &&
    (Memory.num s.w0 0x1008 4 + 2 ^ 32 - Memory.num s.w0 0x100C 4) % 2 ^ 32 != 2 ^ s.hostLog

/-- Appends a 64-byte record to the host ring; a full ring or none drops it (assumption 9). -/
def State.hostAppend (s : State) (rcd : List Byte) : State :=
  if s.hostRoom then
    let head := Memory.num s.w0 0x1008 4
    let s := s.physWrite (s.hostBase + head % 2 ^ s.hostLog * 64) rcd
    let s := { s with w0 := Memory.put s.w0 0x1008 4 ((head + 1) % 2 ^ 32) }
    s.signal 0
  else s

/-- A record of the common layout of R461. -/
def hostRecord (kind ctx : Nat) (noctx : Bool) (die seq tick object detail : Nat) : List Byte :=
  leBytes 4 (kind + ctx * 2 ^ 8 + bit01 noctx * 2 ^ 14 + die * 2 ^ 15) ++ leBytes 4 seq ++ leBytes 8 tick ++
    leBytes 8 object ++ leBytes 8 detail ++ List.replicate 32 0

/-- Sends a record of the common layout to the host ring; one that is written advances its count. -/
def State.hostEvent (s : State) (kind ctx die object detail : Nat) : State :=
  let noctx := kind == 0x4A || kind == 0x4B || kind == 0x4C
  if s.hostRoom then
    let s := s.hostAppend (hostRecord kind (if noctx then 0 else ctx) noctx die (s.hostSeq % 2 ^ 32) s.tick object detail)
    { s with hostSeq := s.hostSeq + 1 }
  else s

/-- Owes the context a fault, to be taken as the next event (R399); `kind` is the kind or cause of the record before it. -/
def State.oweFault (s : State) (ctx kind : Nat) : State := { s with todo := s.todo ++ [.contextFault ctx kind] }

/-- Meeting a poisoned line faults the context of the access (R230). -/
def State.meetPoison (s : State) (ctx die pa : Nat) : State :=
  if s.poison.contains (pa / 128) then (s.hostEvent 0x50 ctx die pa 0).oweFault ctx 0x50 else s

/-! ### The registers and the trace buffer of a die (R414, R425) -/

/-- A number in the register block of a die. -/
def State.dieReg (s : State) (die off n : Nat) : Nat := Memory.num s.w0 (0x40000 + 0x40000 * die + off) n

/-- A trace buffer as the driver has set it: base, size in records, whether it wraps (assumption 12). -/
def State.traceBuffer (s : State) (die : Nat) : Nat × Nat × Bool :=
  (s.dieReg die 0xD00 8, s.dieReg die 0xD08 4 / 32, bit (s.dieReg die 0xD0C 4) 0)

/-- Changes a die's trace counts. -/
def State.modTrace (s : State) (die : Nat) (f : Trace → Trace) : State :=
  let d : Die := Map.getD s.dies die {}
  { s with dies := Map.set s.dies die { d with trace := f d.trace } }

/-- Appends a record to a die's trace buffer: where it is full, stop mode drops the record and counts it, and wrap mode
overwrites the oldest (R414). -/
def State.traceAppend (s : State) (die : Nat) (rcd : List Byte) : State :=
  let (base, size, wrap) := s.traceBuffer die
  let n := ((Map.getD s.dies die {}).trace).count
  if base == 0 || size == 0 then s
  else if n < size || wrap then
    (s.physWrite (base + n % size * 32) rcd).modTrace die (fun t => { t with count := t.count + 1 })
  else s.modTrace die (fun t => { t with drops := min (2 ^ 32 - 1) (t.drops + 1) })

/-- A trace record (R414). -/
def traceRecord (kind ctx fibre mask tick pc tag value : Nat) : List Byte :=
  leBytes 4 (kind + ctx * 2 ^ 8 + fibre * 2 ^ 16) ++ leBytes 4 mask ++ leBytes 8 tick ++ leBytes 8 pc ++ leBytes 4 tag ++ leBytes 4 value

end Sys2Proof.Machine
end

