-- ==== Sys2Proof/Machine/Translate.lean ====
section
/-! DEFINITION. Translation: page tables, TLBs, dirty state and migration counts (R208, R212 to R222). -/

namespace Sys2Proof.Machine

/-- What an access does with the page (R213). -/
inductive Perm where
  | read
  | write
  | rmw
  | fetch
deriving DecidableEq, Repr

/-- A canonical address: bits [63:57] equal bit 56 (R208). -/
def canonical (va : Nat) : Bool := va / 2 ^ 56 == 0 || va / 2 ^ 56 == 2 ^ 8 - 1

/-- Whether an address lies in the aperture (R208). -/
def inAperture (va : Nat) : Bool := Config.aperture ≤ va && va < Config.aperture + 2 ^ 24

/-- The lowest address bit a level's index covers (R212). -/
def levelShift : Nat → Nat
  | 0 => 16
  | 1 => 21
  | 2 => 30
  | 3 => 39
  | _ => 48

/-- The index of a level (R212). -/
def levelIndex (level va : Nat) : Nat := bits va (levelShift level) (if level == 0 then 5 else 9)

/-- Bytes of the page a leaf of a level maps. -/
def pageBytes (level : Nat) : Nat := 2 ^ levelShift level

/-- Whether a valid entry keeps the layout of R213. -/
def entryOk (level e : Nat) : Bool :=
  if bit e 1 then
    level ≤ 2 && bits e 6 2 != 3 && bits e 11 2 != 3 && bits e 13 3 == 0 &&
      (bits e 16 36 * 2 ^ 16) % pageBytes level == 0
  else level != 0 && bits e 2 6 == 0 && (level == 1 || bits e 8 4 == 0)

/-- What a walk finds: the leaf's address, the leaf, its level, and the tables it passed (level of the table and its
address), or the subcode of R226. -/
def walk (s : State) (va : Nat) : (level : Nat) → (table : Nat) → List (Nat × Nat) →
    Except Nat (Nat × Nat × Nat × List (Nat × Nat))
  | level, table, seen =>
    let a := table + 8 * levelIndex level va
    let e := s.physNum a 8
    if !(s.paExists a) then .error 6
    else if !bit e 0 then .error 1
    else if !entryOk level e then .error 6
    else if bit e 1 then .ok (a, e, level, seen)
    else
      match level with
      | 0 => .error 6
      | l + 1 => let next := bits e 8 44 * 2 ^ 8; walk s va l next ((l, next) :: seen)

/-- The addresses of the entries that a walk reads. -/
def walkReads (s : State) (va : Nat) : (level : Nat) → (table : Nat) → List Nat
  | level, table =>
    let a := table + 8 * levelIndex level va
    let e := s.physNum a 8
    if !bit e 0 || bit e 1 then [a]
    else
      match level with
      | 0 => [a]
      | l + 1 => a :: walkReads s va l (bits e 8 44 * 2 ^ 8)

/-- The TLB entry of a leaf. -/
def entryOf (ctx asid gen va leaf e level : Nat) : TlbEntry where
  ctx := ctx
  asid := asid
  gen := gen
  vbase := va - va % pageBytes level
  bytes := pageBytes level
  frame := bits e 16 36 * 2 ^ 16
  read := bit e 2
  write := bit e 3
  exec := bit e 4
  home := bits e 6 2
  atomic := bit e 8
  checked := bit e 9
  migratable := bit e 10
  cache := bits e 11 2
  leaf := leaf
  dirty := false
  setter := []
  count := 0

/-- Whether an entry translates an address of an ASID and generation (R216). -/
def TlbEntry.hits (t : TlbEntry) (asid gen va : Nat) : Bool :=
  t.asid == asid && t.gen == gen && t.vbase ≤ va && va < t.vbase + t.bytes

/-- The physical address an entry gives. -/
def TlbEntry.pa (t : TlbEntry) (va : Nat) : Nat := t.frame + (va - t.vbase)

/-- Writes the gathered dirty state out to the leaf entry, by an OR (R221). -/
def State.writeDirty (s : State) (t : TlbEntry) : State :=
  if t.dirty then s.physWrite t.leaf (leBytes 1 (s.physNum t.leaf 1 ||| 0x20)) else s

/-- Appends the access-counter record of an entry with a non-zero count (R222). -/
def State.writeCount (s : State) (die : Nat) (t : TlbEntry) : State :=
  if t.count == 0 then s
  else
    let rcd := leBytes 8 (t.vbase - t.vbase % 2 ^ 21) ++ leBytes 4 (die + t.count * 2 ^ 8) ++ leBytes 4 (bits s.tick 10 32)
    if s.hasRing t.ctx 4 && !s.ringRoom t.ctx 4 then
      s.modCtx t.ctx (fun c => { c with accdrop := min (2 ^ 32 - 1) (c.accdrop + 1) })
    else s.ringAppend t.ctx 4 rcd

/-- The die of a TLB: of its cluster, or the die whose engines it serves. -/
def tlbDie (k : Nat) : Nat := if k < 160 then k / 20 else k - 160

/-- Writes an entry's gathered state and count out. -/
def State.writeOut (s : State) (k : Nat) (t : TlbEntry) : State := (s.writeDirty t).writeCount (tlbDie k) t

/-- Drops the entries of a TLB that a test names, after their write-outs. -/
def State.dropEntries (s : State) (k : Nat) (p : TlbEntry → Bool) : State :=
  let gone := (s.tlb k).entries.filter p
  let s := gone.foldl (fun s t => s.writeOut k t) s
  s.modTlb k (fun b => { b with entries := b.entries.filter (fun t => !(p t)) })

/-- Writes out the gathered state of the entries that a test names, and keeps them. -/
def State.harvestEntries (s : State) (k : Nat) (p : TlbEntry → Bool) : State :=
  let hit := (s.tlb k).entries.filter p
  let s := hit.foldl (fun s t => s.writeOut k t) s
  s.modTlb k (fun b => { b with entries := b.entries.map (fun t =>
    if p t then { t with dirty := false, setter := [], count := 0 } else t) })

/-- Places an entry; a full TLB displaces its oldest (R215; assumption 10). The spec gives the cluster TLB 4,096 entries and the engine
TLB no number; the model gives both 4,096 (R7; assumption 10). -/
def State.insertEntry (s : State) (k : Nat) (t : TlbEntry) : State :=
  let s := if (s.tlb k).entries.length < 4096 then s
    else match (s.tlb k).entries with
      | [] => s
      | o :: r => (s.writeOut k o).modTlb k (fun b => { b with entries := r })
  s.modTlb k (fun b => { b with entries := b.entries ++ [t] })

/-- Where a walk of an address starts: the deepest table the walk cache holds, or the root (R215). -/
def State.walkStart (s : State) (k asid gen root va : Nat) : Nat × Nat :=
  let hit (l : Nat) : Option (Nat × Nat) :=
    ((s.tlb k).walks.find? (fun w => w.asid == asid && w.gen == gen && w.level == l &&
      w.prefx == va % 2 ^ 57 / 2 ^ levelShift (l + 1))).map (fun w => (l, w.next))
  ((((hit 0).orElse (fun _ => hit 1)).orElse (fun _ => hit 2)).orElse (fun _ => hit 3)).getD (4, root)

/-- Whether a page's permissions allow an access: the subcode of R226 where they do not. -/
def TlbEntry.permits (t : TlbEntry) (p : Perm) : Option Nat :=
  match p with
  | .read => if t.read then none else some 3
  | .write => if t.write then none else some 4
  | .rmw => if !t.read then some 3 else if !t.write then some 4 else none
  | .fetch => if t.exec then none else some 3

/-- Where an access through a page reads or writes local memory: a load its own die's copy, a store every copy (R214). -/
def TlbEntry.places (t : TlbEntry) (die va : Nat) (p : Perm) : List Nat :=
  match p with
  | .read => [loadFrom t.home (t.pa va) die]
  | .fetch => [loadFrom t.home (t.pa va) die]
  | _ => storedAt t.home (t.pa va)

/-- Translates one address for a context at a TLB: the entry, or the subcode of R226. The aperture is mapped by no entry (R208). A
failed translation leaves no entry in the TLB or the walk cache (R395); a walk that meets a poisoned line faults the context (R230). -/
def State.translate (s : State) (k ctx va : Nat) (p : Perm) : Except Nat TlbEntry × State :=
  let c := s.ctx ctx
  if !canonical va then (.error 2, s)
  else if inAperture va then (.error 1, s)
  else match (s.tlb k).entries.find? (fun t => t.hits c.asid c.gen va) with
    | some t =>
      match t.permits p with
      | some e => (.error e, s)
      | none => if s.paHolds (t.pa va) (t.places (tlbDie k) va p) then (.ok t, s) else (.error 6, s)
    | none =>
      let (l0, t0) := s.walkStart k c.asid c.gen c.root va
      let found := walk s va l0 t0 []
      let s := (walkReads s va l0 t0).foldl (fun s a => s.meetPoison ctx (tlbDie k) a) s
      match found with
      | .error e => (.error e, s)
      | .ok (leaf, e, level, seen) =>
        let t := entryOf ctx c.asid c.gen va leaf e level
        match t.permits p with
        | some e => (.error e, s)
        | none =>
          if s.paHolds (t.pa va) (t.places (tlbDie k) va p) then
            let s := s.insertEntry k t
            (.ok t, s.modTlb k (fun b => { b with walks := seen.map (fun (l, next) =>
              (⟨c.asid, c.gen, l, va % 2 ^ 57 / 2 ^ levelShift (l + 1), next⟩ : WalkEntry)) ++ b.walks }))
          else (.error 6, s)

/-- Records a store in the entry that translates it (R218, R221): dirty, and the launch that set it. -/
def State.gather (s : State) (k : Nat) (t : TlbEntry) (launch : Nat) : State :=
  s.modTlb k (fun b => { b with entries := b.entries.map (fun x =>
    if x.leaf == t.leaf && x.asid == t.asid && x.gen == t.gen && x.vbase == t.vbase then
      { x with dirty := true, setter := if x.setter.contains launch then x.setter else launch :: x.setter } else x) })

/-- Counts one forwarded request to a migratable page that is not stored on the issuing die (R219, R222). -/
def State.countForward (s : State) (k : Nat) (t : TlbEntry) (pa : Nat) : State :=
  let away := paRegion pa != 0 || (t.home != 2 && bits ((storedAt t.home pa).headD 0) 37 3 != tlbDie k)
  if t.migratable && away then
    let same (x : TlbEntry) : Bool := x.leaf == t.leaf && x.asid == t.asid && x.gen == t.gen && x.vbase == t.vbase
    let n := (((s.tlb k).entries.find? same).map (·.count)).getD 0 + 1
    let full := n == 4095
    let s := if full then s.writeCount (tlbDie k) { t with count := n } else s
    s.modTlb k (fun b => { b with entries := b.entries.map (fun x =>
      if same x then { x with count := if full then 0 else n } else x) })
  else s

/-- Counts a request that a core's L1 forwards for a line it holds (R219, R222), in the entry that translates the line now. -/
def State.countLine (s : State) (core asid gen va : Nat) : State :=
  match (s.tlb (clusterOf core)).entries.find? (fun t => t.hits asid gen va) with
  | some t => s.countForward (clusterOf core) t (t.pa va)
  | none => s

end Sys2Proof.Machine
end

