-- ==== Sys2Proof/Machine/Race.lean ====
section
/-! DEFINITION. Race checking: line records, causal clocks, vectors, frontier tables, the kept relation and race records
(R272 to R291). -/

namespace Sys2Proof.Machine

/-- A byte that checking can concern: of a core's scratchpad (its scratchpad address) or of global memory (where it is
stored). -/
inductive Loc where
  | scr (byte : Nat)
  | glob (pa : Nat)
deriving DecidableEq, Repr

/-- The line of a byte. -/
def Loc.line : Loc → Nat
  | .scr b => b / 128
  | .glob p => p / 128

/-- The words of a line that `n` bytes from a byte touch. -/
def wordsOf (a n : Nat) : Mask :=
  let o := a % 128
  maskOf (fun i => decide (o / 4 ≤ i) && decide (4 * i < o + n))

/-- The byte's address. -/
def Loc.byte : Loc → Nat
  | .scr b => b
  | .glob p => p

/-- The record of a byte's line, where it is this launch's (R273). -/
def State.lineMeta (s : State) (launch : Nat) (l : Loc) : Option LineMeta :=
  let m := match l with
    | .scr b => Map.find (s.core (b / Config.scratchBytes)).records l.line
    | .glob _ => Map.find s.records l.line
  m.filter (fun x => x.launch == launch)

/-- Replaces the record of a byte's line. -/
def State.setMeta (s : State) (l : Loc) (m : LineMeta) : State :=
  match l with
  | .scr b => s.modCore (b / Config.scratchBytes) (fun c => { c with records := Map.set c.records l.line m })
  | .glob _ => { s with records := Map.set s.records l.line m }

/-- Whether a launch is checked (R272). -/
def State.checked (s : State) (r : FibRef) : Bool := (s.launchOf r.wg).checked

/-- An identity, read through the alias of the fibre's launch cluster (R279). -/
def State.unalias (s : State) (r : FibRef) (w : Nat) : Nat :=
  match Map.find s.wgs r.wg with
  | none => w
  | some g =>
    match Map.find (s.launch g.launch).aliases g.cluster with
    | none => w
    | some old =>
      let core := w / 2 ^ 13 * Config.coresPerDie + w / 32 % 256
      if clusterOf core == old then
        let new := clusterOf g.core * 8 + core % 8
        dieOf new * 2 ^ 13 + coreInDie new * 32 + w % 32
      else w

/-- The core an identity names. -/
def identityCore (w : Nat) : Nat := w / 2 ^ 13 * Config.coresPerDie + w / 32 % 256

/-- The fibre of a work-group that has an identity. -/
def State.fibreOf (s : State) (g w : Nat) : Option Nat :=
  (Map.find s.wgs g).bind (fun x => (x.fibres.map (·.1)).find? (fun k => s.identity ⟨g, k⟩ == w))

/-- Whether an identity lies in the fibre's launch cluster: one of its fibres has held it. Other launch clusters of the launch may have
work-groups on the same cores. -/
def State.sameCluster (s : State) (r : FibRef) (w : Nat) : Bool :=
  match Map.find s.wgs r.wg with
  | none => false
  | some g => (Map.getD (s.launch g.launch).homes g.cluster []).contains w

/-- The best clock a fibre holds for a writer (R291): of its vector or its frontier table. -/
def State.known (s : State) (r : FibRef) (w : Nat) : Nat :=
  match s.fib r, Map.find s.wgs r.wg with
  | some f, some g =>
    match s.fibreOf r.wg w with
    | some k => if k == r.fib then f.clock else Map.getD f.vec k 0
    | none => ((g.frontier.filter (fun e => s.unalias r e.writer == w && e.fibs.contains r.fib)).map (·.clock)).foldl max 0
  | _, _ => 0

/-- Whether a recorded write is ordered before an access of the fibre under K1 to K4 (R280). -/
def State.ordered (s : State) (r : FibRef) (m : LineMeta) : Bool :=
  match s.fib r with
  | none => true
  | some f =>
    let w := s.unalias r m.writer
    let age (a b : Nat) : Bool := let d := (a + 8 - b % 8) % 8; 1 ≤ d && d ≤ 6
    w == s.identity r || m.clock ≤ s.known r w ||
      (s.sameCluster r w && age f.cgen m.cgen) || age f.ggen m.ggen

/-- Outcome of checking one access (R281, R285): a full check passed, no full check was made, or a race with a record at some words
of its line. -/
inductive Verdict where
  | clean
  | partly
  | race (m : LineMeta) (words : Mask)
deriving DecidableEq, Repr

/-- Checks one access of a fibre to some words of a line (R281, R285); a handler's accesses are not checked (R391). -/
def State.check (s : State) (r : FibRef) (l : Loc) (words : Mask) (atomic : Bool) : Verdict :=
  match s.fib r, Map.find s.wgs r.wg with
  | some f, some g =>
    if f.suspended || f.handler.isSome then .partly
    else match s.lineMeta g.launch l with
      | none => .partly
      | some m =>
        if !m.valid then .partly
        else if m.mask &&& words == 0 || (m.atom && atomic) || s.ordered r m then .clean
        else
          let lost := if s.sameCluster r (s.unalias r m.writer) then g.lostIn != 0 else g.lostOut != 0
          if m.multi || lost then .partly else .race m words
  | _, _ => .clean

/-- Adds to the context's unchecked counter (R285). -/
def State.addUnchecked (s : State) (r : FibRef) (n : Nat) : State :=
  if n == 0 then s
  else s.modCtx (s.ctxOf r.wg) (fun c => { c with unchecked := min (2 ^ 64 - 1) (c.unchecked + n) })

/-- Updates the record of a line for a committed checked write (R282): `clock` is the writer's clock, `rel` the scope of a
release whose store this is. -/
def State.commitMeta (s : State) (r : FibRef) (l : Loc) (words : Mask) (atomic : Bool) (rel : Option Scope) (clock : Nat) :
    State :=
  match s.fib r, Map.find s.wgs r.wg with
  | some f, some g =>
    if f.handler.isSome then s
    else
    let old := (s.lineMeta g.launch l).getD { (default : LineMeta) with launch := g.launch }
    let me := s.identity r
    let mine := s.unalias r old.writer == me
    if f.saturated then s.setMeta l { old with valid := false }
    else if atomic && rel.isNone && old.valid && old.rel && !mine then
      let out := words &&& ~~~old.mask != 0
      s.setMeta l { old with atom := true, mask := old.mask ||| words, multi := old.multi || out }
    else
      let covers := old.mask &&& ~~~words == 0 || !old.valid
      let same := old.valid && mine && old.clock == clock && old.cgen == f.cgen % 8 && old.ggen == f.ggen % 8
      s.setMeta l
        { writer := me, clock := clock, cgen := f.cgen % 8, ggen := f.ggen % 8
          multi := if covers then false else if same then old.multi else true
          mask := if covers then words else old.mask ||| words
          rel := rel.isSome, atom := atomic
          scope := (rel.map (fun x => x.bits.toNat)).getD 0
          valid := true, launch := g.launch }
  | _, _ => s

/-! ### Releases and acquires (R275 to R277, R283) -/

/-- A release event: the fibre's clock and what it becomes (R275). -/
def State.releaseEvent (s : State) (r : FibRef) : Nat × State :=
  match s.fib r with
  | none => (0, s)
  | some f =>
    if (s.launchOf r.wg).checked then
      if f.clock == 0xFFFF then (f.clock, s.setFib r { f with saturated := true })
      else (f.clock, s.setFib r { f with clock := f.clock + 1 })
    else (0, s)

/-- The vector a fibre gives at a release: its own entry is the clock the release recorded (R276). -/
def State.vecAt (s : State) (r : FibRef) (clock : Nat) : Map Nat :=
  match s.fib r with
  | none => []
  | some f => Map.set f.vec r.fib clock

/-- The element-wise maximum of two vectors. -/
def vecMax (a b : Map Nat) : Map Nat := b.foldl (fun m e => Map.set m e.1 (max (Map.getD m e.1 0) e.2)) a

/-- Whether a scope includes two cores' parties (R242, R243). -/
def scopeIncludes (sc : Scope) (sameFibre : Bool) (a b : Nat) : Bool :=
  match sc with
  | .fib => sameFibre
  | .core => a == b
  | .clus => clusterOf a == clusterOf b
  | .die => dieOf a == dieOf b
  | _ => true

/-- Installs a writer and a clock for a fibre (R276, R277). -/
def State.install (s : State) (r : FibRef) (w c : Nat) : State :=
  match s.fibreOf r.wg w with
  | some k =>
    s.modFib r (fun f => if k == r.fib then f else { f with vec := Map.set f.vec k (max (Map.getD f.vec k 0) c) })
  | none =>
    match Map.find s.wgs r.wg with
    | none => s
    | some g =>
      match g.frontier.find? (fun e => s.unalias r e.writer == w && e.clock == c) with
      | some e =>
        let e' := { e with fibs := if e.fibs.contains r.fib then e.fibs else e.fibs ++ [r.fib] }
        s.modWg r.wg (fun g => { g with frontier := e' :: g.frontier.filter (fun x => !(s.unalias r x.writer == w && x.clock == c)) })
      | none =>
        if g.frontier.any (fun e => s.unalias r e.writer == w && c ≤ e.clock && e.fibs.contains r.fib) then s
        else
          let new : Frontier := ⟨w, c, [r.fib]⟩
          if g.frontier.length < 32 then s.modWg r.wg (fun g => { g with frontier := new :: g.frontier })
          else
            let out := (g.frontier.getLast?.map (·.writer)).getD 0
            let inside := s.sameCluster r (s.unalias r out)
            s.modWg r.wg (fun g => { g with
              frontier := new :: g.frontier.dropLast
              lostIn := if inside then 2 else g.lostIn
              lostOut := if inside then g.lostOut else 2 })

/-- What an acquire of a fibre learns from the line it read (R283). -/
def State.acquireFrom (s : State) (r : FibRef) (l : Loc) (words : Mask) (sc : Scope) : State :=
  match Map.find s.wgs r.wg with
  | none => s
  | some g =>
    if !(s.launch g.launch).checked then s
    else match s.lineMeta g.launch l with
      | none => s
      | some m =>
        let w := s.unalias r m.writer
        let same := w == s.identity r
        let wsc := (Scope.ofBits (BitVec.ofNat 3 m.scope)).getD .sys
        if m.valid && m.rel && m.mask &&& words != 0 && scopeIncludes sc same (identityCore w) g.core &&
            scopeIncludes wsc same (identityCore w) g.core then s.install r w m.clock
        else s

/-- The kind of a race (R291). -/
def raceKind (m : LineMeta) (access : Nat) : Nat :=
  if access == 2 || m.atom then 3 else if access == 1 then 2 else 1

/-- A race record (R291), as 16 words; `access` is 0 for a read, 1 a write, 2 an atomic. -/
def State.raceRecord (s : State) (r : FibRef) (m : LineMeta) (lane pc addr access size : Nat) (words : Mask) (reported : Bool) :
    List Word :=
  match s.fib r, Map.find s.wgs r.wg with
  | some f, some g =>
    let w := s.unalias r m.writer
    let n (v : Nat) : Word := BitVec.ofNat 32 v
    let seq := (s.core g.core).seq
    [n (0x18 + raceKind m access * 2 ^ 8 + lane * 2 ^ 16 + bit01 reported * 2 ^ 21), n seq, n s.tick, n (s.tick / 2 ^ 32),
      n pc, n (pc / 2 ^ 32), n addr, n (addr / 2 ^ 32), n (s.identity r + f.clock * 2 ^ 16), words,
      n (m.writer + m.clock * 2 ^ 16),
      n (m.scope + m.cgen * 2 ^ 3 + m.ggen * 2 ^ 6 + bit01 m.valid * 2 ^ 9 + bit01 m.multi * 2 ^ 10 + bit01 m.rel * 2 ^ 11 +
        bit01 m.atom * 2 ^ 12 + f.cgen % 8 * 2 ^ 16 + f.ggen % 8 * 2 ^ 19),
      m.mask, n (s.known r w + bit01 (s.fibreOf r.wg w).isSome * 2 ^ 16),
      n ((s.launch g.launch).ctx + access * 2 ^ 6 + size * 2 ^ 8), n g.num]
  | _, _ => []

/-- The bytes of a record's words. -/
def recordBytes (l : List Word) : List Byte := l.flatMap (fun w => leBytes 4 w.toNat)

/-- Takes the core's next record sequence number (R398). -/
def State.bumpSeq (s : State) (core : Nat) : State := s.modCore core (fun c => { c with seq := (c.seq + 1) % 2 ^ 32 })

/-- Appends a race record in reporting-only mode, or counts its drop (R290). -/
def State.reportRace (s : State) (r : FibRef) (rcd : List Word) : State :=
  let c := s.ctxOf r.wg
  let s := s.bumpSeq (s.coreOf r.wg)
  if s.hasRing c 3 && s.ringRoom c 3 then s.ringAppend c 3 (recordBytes rcd)
  else s.modCtx c (fun x => { x with racedrop := min (2 ^ 32 - 1) (x.racedrop + 1) })

end Sys2Proof.Machine
end

