-- ==== Sys2Proof/Machine/Access.lean ====
section
/-! DEFINITION. Accesses to the scratchpads and to global memory through the L1 (R208 to R211, R214, R217 to R219, R227,
R228, R244 to R257). -/

namespace Sys2Proof.Machine

/-! ### The scratchpad and the trellis window (R209, R223) -/

/-- The region an aperture offset names: the target core and the byte in its region, where such a core is (R209). -/
def State.apertureTarget (s : State) (g : Nat) (o : Nat) : Option (Nat × Nat) :=
  match Map.find s.wgs g with
  | none => none
  | some w =>
    if o < 0x100000 then some (w.core, o)
    else if o < 0x900000 then
      let c := clusterOf w.core * 8 + (o - 0x100000) / 0x100000
      let same := s.wgs.any (fun (_, x) => x.core == c && x.launch == w.launch && x.cluster == w.cluster)
      if same then some (c, (o - 0x100000) % 0x100000) else none
    else none

/-- The scratchpad address of `n` bytes at an aperture offset, where the whole range is valid (R209); alignment is the
caller's. -/
def State.aperture (s : State) (g : Nat) (o n : Nat) : Option Nat :=
  match Map.find s.wgs g, s.apertureTarget g o with
  | some w, some (core, byte) =>
    if byte + n ≤ (s.launch w.launch).scratch then some (scratchAddr core (w.base + byte)) else none
  | _, _ => none

/-- The scratchpad address of one lane's aligned access (R225). -/
def State.laneAperture (s : State) (g : Nat) (o n : Nat) : Option Nat :=
  match s.apertureTarget g o with
  | some (_, byte) => if byte % n == 0 then s.aperture g o n else none
  | none => none

/-- Whether a scratchpad line is present (R223): lines are numbered over the package. -/
def State.isPresent (s : State) (line : Nat) : Bool := !((s.core (line / 8192)).absent.contains line)

/-- Takes a line that has been set on some tick out of what a thread waits for (R224). -/
def Wait.sees (line tick : Nat) (w : Wait) : Wait :=
  match w.cond with
  | .present l => if l.contains line then { w with cond := .present (l.filter (· != line)), since := tick } else w
  | _ => w

/-- Whether a wait is for a line. -/
def Wait.seeks (line : Nat) (w : Wait) : Bool :=
  match w.cond with
  | .present l => l.contains line
  | _ => false

/-- Takes a line that has been set out of what fibres wait for, those paths too whose waits a trap has set aside (R224, R392). -/
def State.wakeLine (s : State) (line : Nat) : State :=
  let all (f : Fibre) : List Wait := f.waits ++ (f.trap.map (·.waits)).getD []
  let one (f : Fibre) : Fibre := { f with
    waits := f.waits.map (Wait.sees line s.tick), trap := f.trap.map (fun t => { t with waits := t.waits.map (Wait.sees line s.tick) }) }
  { s with wgs := s.wgs.map (fun (g, w) => (g, if w.fibres.any (fun e => (all e.2).any (Wait.seeks line)) then
      { w with fibres := w.fibres.map (fun (k, f) => (k, one f)) } else w)) }

/-- Sets or clears the presence bit of a scratchpad line; setting it fires the line's watches (R223, R270). The clears of a tick come
before its sets (R223): one on the tick of a set changes nothing. -/
def State.setPresent (s : State) (line : Nat) (p : Bool) : State :=
  let k := line / 8192
  let s := if p then s.wakeLine line else s
  s.modCore k (fun c => { c with
    absent := if p then c.absent.filter (· != line)
      else if Map.find c.setAt line == some s.tick || c.absent.contains line then c.absent else line :: c.absent
    setAt := if p then Map.set c.setAt line s.tick else c.setAt
    watches := if p then c.watches.map (fun (i, w) => (i, if w.line == line then { w with fired := true } else w))
      else c.watches })

/-- The scratchpad lines of a range of scratchpad addresses. -/
def linesOf (a n : Nat) : List Nat := if n == 0 then [] else (List.range ((a + n - 1) / 128 - a / 128 + 1)).map (· + a / 128)

/-! ### Watches (R270) -/

/-- The number a watch uses for a global line: scratchpad lines come first. -/
def globalLine (pa : Nat) : Nat := 2 ^ 40 + pa / 128

/-- Fires every watch on a line. -/
def State.fireWatches (s : State) (line : Nat) : State :=
  { s with cores := s.cores.map (fun (k, c) =>
      (k, if c.watches.any (fun e => e.2.line == line && !e.2.fired) then
        { c with watches := c.watches.map (fun (i, w) => (i, if w.line == line then { w with fired := true } else w)) }
      else c)) }

/-- Writes scratchpad bytes (R223): presence stays as it is. -/
def State.scratchWrite (s : State) (a : Nat) (l : List Byte) : State :=
  let s := { s with scratch := Memory.write s.scratch a l }
  (linesOf a l.length).foldl (fun s k => s.fireWatches k) s

/-! ### Owners (R214, R219, R254 to R256) -/

/-- A replica applies one store (R256). -/
def State.applyStore (s : State) (x : ReplicaStore) : State :=
  { s with mem := x.cells.foldl (fun (m : Memory) (c : Host.Cell) => Memory.set m c.1 c.2) s.mem }.fireWatches (globalLine ((x.cells.headD (0, 0)).1))

/-- Whether two stores wait for one page of one replica: it applies them in their order (R256). -/
def ReplicaStore.follows (x y : ReplicaStore) : Bool := x.page.1 < y.page.1 + y.page.2 && y.page.1 < x.page.1 + x.page.2

/-- Replicas apply the stores that a test names, each after the earlier ones of its page (R245, R256; assumption 23). -/
def State.applyWhere (s : State) (p : ReplicaStore → Bool) : State :=
  if s.replicas.any p then
    let l := s.replicas.zipIdx
    let due (e : ReplicaStore × Nat) : Bool := l.any (fun y => e.2 ≤ y.2 && p y.1 && e.1.follows y.1)
    let t := (l.filter due).foldl (fun (s : State) e => s.applyStore e.1) s
    { t with replicas := (l.filter (fun e => !due e)).map (·.1) }
  else s

/-- Applies the replica stores of some origin core that wait for bytes of one range, with every earlier one of their pages (R245). -/
def State.applyOwn (s : State) (core a n : Nat) : State :=
  s.applyWhere (fun x => x.origin == core && x.cells.any (fun (c : Host.Cell) => a ≤ c.1 && c.1 < a + n))

/-- A store enters the stores that the other replicas have still to apply: bytes by their offset from the copies' addresses, which
stand at a distance from the first byte of a page of some size. -/
def State.lateWrite (s : State) (core : Nat) (rest : List Nat) (page : Nat × Nat) (cells : List (Nat × Byte)) : State :=
  { s with replicas := s.replicas ++ rest.map (fun c => ⟨cells.map (fun e => (c + e.1, e.2)), (c - page.1, page.2), core, s.tick⟩) }

/-- Writes bytes at the owner: at the storing die at once, at the other replicas later (R256). -/
def State.ownerWrite (s : State) (core : Nat) (copies : List Nat) (page : Nat × Nat) (off : Nat) (l : List Byte) : State :=
  match copies with
  | [] => s
  | p :: rest =>
    ((s.physWrite (p + off) l).lateWrite core rest page (l.mapIdx (fun i b => (off + i, b)))).fireWatches (globalLine (p + off))

/-- Removes the L1 copies of an atomic-propagation line that cores other than its writer hold (R254). -/
def State.dropCopies (s : State) (core : Option Nat) (line : Nat) : State :=
  { s with cores := s.cores.map (fun (k, c) =>
      (k, if some k != core && c.l1.any (fun x => x.atomicPage && x.pa == line) then
        { c with l1 := c.l1.filter (fun x => !(x.atomicPage && x.pa == line)) } else c)) }

/-! ### The L1 (R217, R218, R227, R257) -/

/-- The L1 line of a virtual line for an ASID and generation. -/
def State.l1Find (s : State) (core asid gen vline : Nat) : Option L1Line :=
  (s.core core).l1.find? (fun x => x.asid == asid && x.gen == gen && x.vline == vline)

/-- The four bytes of a word. -/
def wordBytes (w : Word) : List Byte := leBytes 4 w.toNat

/-- Writes an L1 line's dirty words back to their owner (R227), as one request (R219). -/
def State.writeBack (s : State) (core : Nat) (x : L1Line) : State :=
  if x.dirty == 0 then s
  else
    let p := x.copies.headD 0
    let words := lanesOf x.dirty
    let s := words.foldl (fun s i => s.physWrite (p + 4 * i) (wordBytes (lane x.words i))) s
    let s := s.lateWrite core (x.copies.drop 1) x.page (words.flatMap (fun i => (wordBytes (lane x.words i)).mapIdx (fun j b => (4 * i + j, b))))
    let s := (s.fireWatches (globalLine p)).countLine core x.asid x.gen (128 * x.vline)
    let ctx := ((s.ctxs.find? (fun e => e.2.asid == x.asid && e.2.gen == x.gen)).map (·.1)).getD 0
    s.meetPoison ctx (dieOf core) p

/-- The lines of an L1 (R9). -/
def l1Lines : Nat := 2048

/-- Replaces or adds an L1 line. A full L1 gives up one of its lines, whose dirty words are written back; the spec does not say which
(R9, R227, R228; assumption 24). -/
def State.l1Put (s : State) (core : Nat) (x : L1Line) : State :=
  let same (y : L1Line) : Bool := y.asid == x.asid && y.gen == x.gen && y.vline == x.vline
  let l := (s.core core).l1.filter (fun y => !same y)
  if l.length < l1Lines then s.modCore core (fun c => { c with l1 := x :: l })
  else
    let (k, s) := s.draw
    let i := Config.pick k % l.length
    let s := match l[i]? with
      | some y => s.writeBack core y
      | none => s
    s.modCore core (fun c => { c with l1 := x :: l.eraseIdx i })

/-- Writes back the dirty words of the L1 lines a test names and leaves them clean. -/
def State.cleanL1 (s : State) (core : Nat) (p : L1Line → Bool) : State :=
  let hit := (s.core core).l1.filter p
  let s := hit.foldl (fun s x => s.writeBack core x) s
  s.modCore core (fun c => { c with l1 := c.l1.map (fun x => if p x then { x with dirty := 0 } else x) })

/-- Writes back and invalidates the L1 lines a test names. -/
def State.flushL1 (s : State) (core : Nat) (p : L1Line → Bool) : State :=
  let hit := (s.core core).l1.filter p
  let s := hit.foldl (fun s x => s.writeBack core x) s
  s.modCore core (fun c => { c with l1 := c.l1.filter (fun x => !(p x)) })

/-- Invalidates some words of the L1 lines a test names; their dirty words have been written back. -/
def State.dropWords (s : State) (core : Nat) (p : L1Line → Bool) (words : Mask) : State :=
  s.modCore core (fun c => { c with l1 := c.l1.map (fun x => if p x then { x with valid := x.valid &&& ~~~words } else x) })

/-- An empty L1 line of a page (R218, R227). -/
def newLine (t : TlbEntry) (asid gen va die : Nat) : L1Line :=
  let line := t.pa va / 128 * 128
  let st := storedAt t.home line
  { asid := asid, gen := gen, vline := va / 128
    pa := loadFrom t.home line die, copies := st, page := (line - t.frame, t.bytes), checkedPage := t.checked
    valid := 0, dirty := 0, words := splat 0, filled := Vector.replicate 32 0, dirtied := 0
    read := t.read, write := t.write, noted := t.dirty
    through := t.cache == 1 || t.atomic, atomicPage := t.atomic, filling := false }

/-- Whether two L1 lines stand for one physical line, under whatever addresses (R217). -/
def L1Line.synonym (x y : L1Line) : Bool := (x.pa :: x.copies).any (y.pa :: y.copies).contains

/-- The bytes an owner gives for a line, as words. -/
def State.ownerLine (s : State) (x : L1Line) : LaneVec :=
  lanes (fun i => BitVec.ofNat 32 (s.physNum (x.pa + 4 * i) 4))

/-- A merging fill: the line's bytes, as its owner holds them when the fill arrives, go into its invalid words only (R227). -/
def State.fillLine (s : State) (core : Nat) (x : L1Line) : State :=
  let s := s.applyOwn core x.pa 128
  let new := s.ownerLine x
  s.l1Put core { x with
    words := mergeLanes (~~~x.valid) new x.words, valid := allLanes, filling := false
    filled := x.filled.mapIdx (fun i t => if x.valid.getLsbD i then t else s.tick) }

/-- Whether some words of a line can be used for a hit: valid, and dirty, of an atomic page, or no older than 4,096 ticks
(R227, R257). -/
def L1Line.usable (x : L1Line) (tick : Nat) (words : Mask) : Bool :=
  x.read && (lanesOf words).all (fun i => x.valid.getLsbD i &&
    (x.dirty.getLsbD i || x.atomicPage || tick ≤ x.filled.toList.getD i 0 + 4096))

/-- Makes words that are too old invalid again, so that a fill replaces them. -/
def L1Line.expire (x : L1Line) (tick : Nat) : L1Line :=
  { x with valid := x.valid &&& (x.dirty ||| (if x.atomicPage then allLanes else
      maskOf (fun i => decide (tick ≤ x.filled.toList.getD i 0 + 4096)))) }

/-- The bytes of an L1 line. -/
def L1Line.bytes (x : L1Line) (off n : Nat) : List Byte :=
  (List.range n).map (fun k => (lane x.words ((off + k) / 4)).extractLsb' (8 * ((off + k) % 4)) 8)

/-- Whom a fibre's global accesses are made for. -/
structure Agent where
  core : Nat
  ctx : Nat
  asid : Nat
  gen : Nat
  launch : Nat
  checked : Bool
deriving Inhabited, DecidableEq, Repr

/-- The agent of a work-group. -/
def State.agent (s : State) (g : Nat) : Agent :=
  let w := Map.find s.wgs g
  let l := s.launchOf g
  let c := s.ctx l.ctx
  ⟨(w.map (·.core)).getD 0, l.ctx, c.asid, c.gen, (w.map (·.launch)).getD 0, l.checked⟩

/-- Whether a page is served without the L1: its attribute, which an atomic page has not (R227), checking (R272), or an atomic page
another die stores (R254). -/
def noL1 (a : Agent) (t : TlbEntry) (va : Nat) : Bool :=
  (t.cache == 2 && !t.atomic) || (a.checked && t.checked && paRegion (t.pa va) != 3) ||
    (t.atomic && !(paRegion (t.pa va) == 0 && ((storedAt t.home (t.pa va)).headD 0) / 2 ^ 37 == dieOf a.core))

/-- Where a page's bytes are read and written when no L1 is in between: checked replicated pages at the primary (R272). -/
def homeOf (a : Agent) (t : TlbEntry) (va : Nat) : Nat :=
  if a.checked && t.checked then (storedAt t.home (t.pa va)).headD 0
  else loadFrom t.home (t.pa va) (dieOf a.core)

/-- The L1 line under which a core finds or places an address, where the page's entry is `t`: as it is held, with the permissions and
the dirty state of the entry that translates it now (R218). Another copy of the physical line has left the L1 (R217). -/
def State.lineFor (s : State) (a : Agent) (t : TlbEntry) (va : Nat) : L1Line × State :=
  let blank := newLine t a.asid a.gen va (dieOf a.core)
  let mine (x : L1Line) : Bool := x.asid == a.asid && x.gen == a.gen && x.vline == va / 128
  let s := s.flushL1 a.core (fun x => x.synonym blank && !(mine x))
  match s.l1Find a.core a.asid a.gen (va / 128) with
  | some x =>
    if x.copies == blank.copies then ({ x with read := t.read, write := t.write, noted := t.dirty, checkedPage := t.checked }, s)
    else (blank, s.flushL1 a.core mine)
  | none => (blank, s)

/-- What the L1 does before an access goes to the owner past it: `.byp` writes back and invalidates every copy of the line (R233); on a
no-L1 page, which leaves the L1 as it is (R227), a copy that another mapping has put there gives its dirty words (R245; assumption
85). -/
def State.passL1 (s : State) (a : Agent) (t : TlbEntry) (byp : Bool) (va : Nat) : State :=
  let blank := newLine t a.asid a.gen va (dieOf a.core)
  if byp then s.flushL1 a.core (fun x => x.synonym blank) else s.cleanL1 a.core (fun x => x.synonym blank)

/-- Reads part of one line of global memory: through the L1 where the page allows it (R227), from the owner otherwise.
`fresh` leaves no clean word unfetched. The subcode of R226 where the translation fails. -/
def State.readPart (s : State) (a : Agent) (byp fresh : Bool) (va n : Nat) : Except Nat (List Byte) × State :=
  let words := wordsOf va n
  let hit := match s.l1Find a.core a.asid a.gen (va / 128) with
    | some x => if !byp && !fresh && !(a.checked && x.checkedPage) && x.usable s.tick words then some x else none
    | none => none
  match hit with
  | some x => (.ok (x.bytes (va % 128) n), s)
  | none =>
    match s.translate (clusterOf a.core) a.ctx va .read with
    | (.error e, s) => (.error e, s)
    | (.ok t, s) =>
      if byp || noL1 a t va then
        let s := (s.passL1 a t byp va).countForward (clusterOf a.core) t (t.pa va)
        let p := homeOf a t va
        let s := s.applyOwn a.core p n
        (.ok (s.physRead p n), s.meetPoison a.ctx (dieOf a.core) p)
      else
        let (x, s) := s.lineFor a t va
        let x := if fresh then { x with valid := x.dirty } else x.expire s.tick
        if x.usable s.tick words then (.ok (x.bytes (va % 128) n), s.l1Put a.core x)
        else
          let s := (s.countForward (clusterOf a.core) t (t.pa va)).fillLine a.core x
          let y := (s.l1Find a.core a.asid a.gen (va / 128)).getD x
          (.ok (y.bytes (va % 128) n), s.meetPoison a.ctx (dieOf a.core) y.pa)

/-- The parts of an access that lie in one line each, up to a number of them: address and bytes. -/
def splitLines : Nat → Nat → Nat → List (Nat × Nat)
  | 0, _, _ => []
  | k + 1, va, n =>
    let room := 128 - va % 128
    if n ≤ room then [(va, n)] else (va, room) :: splitLines k ((va + room) % 2 ^ 64) (n - room)

/-- The parts of an access that lie in one line each (R226). -/
def linePieces (va n : Nat) : List (Nat × Nat) := splitLines (n / 128 + 2) va n

/-- Reads some bytes of global memory: the bytes, or the subcode and the first byte that fails. -/
def State.readGlobal (s : State) (a : Agent) (byp fresh : Bool) (va n : Nat) : Except (Nat × Nat) (List Byte) × State :=
  (linePieces va n).foldl (fun (acc, s) (p, k) =>
    match acc with
    | .error e => (.error e, s)
    | .ok l =>
      match s.readPart a byp fresh p k with
      | (.ok x, s) => (.ok (l ++ x), s)
      | (.error e, s) => (.error (e, p), s)) (.ok [], s)

/-- Whether an access translates: the subcode and the first byte that fails (R226). -/
def State.probe (s : State) (a : Agent) (p : Perm) (va n : Nat) : Option (Nat × Nat) × State :=
  (linePieces va n).foldl (fun (acc, s) (q, _) =>
    match acc with
    | some e => (some e, s)
    | none =>
      -- a store that finds its line writable and noted in the L1 is not translated (R218)
      let held := match s.l1Find a.core a.asid a.gen (q / 128) with
        | some x => !(a.checked && x.checkedPage) &&
            ((decide (p = .write) && x.write && x.noted) || (decide (p = .read) && x.usable s.tick (wordsOf q 1)))
        | none => false
      if held = true then (none, s)
      else match s.translate (clusterOf a.core) a.ctx q p with
        | (.ok _, s) => (none, s)
        | (.error e, s) => (some (e, q), s)) (none, s)

/-- The words of an L1 line with some bytes of it replaced. -/
def L1Line.put (x : L1Line) (off : Nat) (l : List Byte) : LaneVec :=
  lanes (fun i => BitVec.ofNat 32 (leNat ((List.range 4).map (fun k =>
    let o := 4 * i + k
    if off ≤ o && o < off + l.length then l.getD (o - off) 0 else (lane x.words i).extractLsb' (8 * k) 8))))

/-- A store reaches an L1 line that admits it (R227): a part of a word waits for a merging fill where the word is invalid; a line that
is written through goes to its owner at once. -/
def State.storeLine (s : State) (a : Agent) (x : L1Line) (va : Nat) (l : List Byte) : State :=
  let words := wordsOf va l.length
  let whole (i : Nat) : Bool := decide (va % 128 ≤ 4 * i) && decide (4 * i + 4 ≤ va % 128 + l.length)
  let s := if (lanesOf words).all (fun i => x.valid.getLsbD i || whole i) then s.l1Put a.core x
    else ((s.countLine a.core x.asid x.gen va).meetPoison a.ctx (dieOf a.core) x.pa).fillLine a.core x
  let x := (s.l1Find a.core a.asid a.gen (va / 128)).getD x
  let s := s.l1Put a.core { x with
    words := x.put (va % 128) l, valid := x.valid ||| words, dirty := if x.through then x.dirty else x.dirty ||| words
    dirtied := if x.dirty == 0 then s.tick else x.dirtied
    filled := x.filled.mapIdx (fun i t => if words.getLsbD i then s.tick else t) }
  if x.through then
    let s := (s.countLine a.core x.asid x.gen va).ownerWrite a.core x.copies x.page (va % 128) l
    let s := s.meetPoison a.ctx (dieOf a.core) (x.copies.headD 0)
    if x.atomicPage then s.dropCopies (some a.core) x.pa else s
  else s.fireWatches (globalLine (x.copies.headD 0))

/-- Writes part of one line of global memory (R218, R227, R254); the access has been probed. -/
def State.writePart (s : State) (a : Agent) (byp : Bool) (va : Nat) (l : List Byte) : State :=
  let held := match s.l1Find a.core a.asid a.gen (va / 128) with
    | some x => if !byp && !(a.checked && x.checkedPage) && x.write && x.noted then some x else none
    | none => none
  match held with
  | some x => s.storeLine a x va l
  | none =>
    match s.translate (clusterOf a.core) a.ctx va .write with
    | (.error _, s) => s
    | (.ok t, s) =>
      let s := s.gather (clusterOf a.core) t a.launch
      if byp || noL1 a t va then
        let blank := newLine t a.asid a.gen va (dieOf a.core)
        let s := ((s.passL1 a t byp va).dropWords a.core (fun x => x.synonym blank) (wordsOf va l.length)).countForward
          (clusterOf a.core) t (t.pa va)
        let s := (s.ownerWrite a.core blank.copies blank.page (va % 128) l).meetPoison a.ctx (dieOf a.core) (blank.copies.headD 0)
        if t.atomic then s.dropCopies (some a.core) (blank.copies.headD 0) else s
      else
        let (x, s) := s.lineFor a t va
        s.storeLine a { x with noted := true } va l

/-- Writes bytes of global memory. -/
def State.writeGlobal (s : State) (a : Agent) (byp : Bool) (va : Nat) (l : List Byte) : State :=
  ((linePieces va l.length).foldl (fun (s, k) (p, n) => (s.writePart a byp p ((l.drop k).take n), k + n)) (s, 0)).1

/-! ### Releases and acquires on the caches (R253) -/

/-- Whether a scope reaches beyond one die. -/
def scopeWide (sc : Scope) : Bool :=
  match sc with
  | .pkg => true
  | .dom => true
  | .sys => true
  | _ => false

/-- Replicas apply the stores of a core, with the earlier ones of each page they stand in: those of one die, or all (R252, R256;
assumption 23). -/
def State.applyCore (s : State) (core : Nat) (die : Option Nat) : State :=
  s.applyWhere (fun x => x.origin == core && die.all (fun d => x.page.1 / 2 ^ 37 == d))

/-- The cache action of a release at `.clus` or wider: every dirty word the core holds for the context is written back, and its stores reach
its own die's replicas, or, at a scope beyond the die, every replica (R252, R256). -/
def State.cacheRelease (s : State) (a : Agent) (sc : Scope) : State :=
  match sc with
  | .fib => s
  | .core => s
  | _ =>
    let s := s.cleanL1 a.core (fun x => x.asid == a.asid && x.gen == a.gen)
    s.applyCore a.core (if scopeWide sc then none else some (dieOf a.core))

/-- The cache action of an acquire at `.clus` or wider: every clean word of the context's lines becomes invalid, atomic
pages apart. -/
def State.cacheAcquire (s : State) (a : Agent) (sc : Scope) : State :=
  match sc with
  | .fib => s
  | .core => s
  | _ => s.modCore a.core (fun c => { c with l1 := c.l1.map (fun x =>
      if x.asid == a.asid && x.gen == a.gen && !x.atomicPage then { x with valid := x.dirty } else x) })

/-- The agent that a context is on a core, for its caches. -/
def State.agentOn (s : State) (core ctx : Nat) : Agent := ⟨core, ctx, (s.ctx ctx).asid, (s.ctx ctx).gen, 0, false⟩

/-- The release of what the work-groups of a context have stored on some cores (R331). -/
def State.releaseCores (s : State) (ctx : Nat) (cores : List Nat) : State :=
  cores.foldl (fun s k => s.cacheRelease (s.agentOn k ctx) .sys) s

/-- Every replica applies every store of a replicated page (R256). -/
def State.applyReplicas (s : State) : State := s.applyWhere (fun _ => true)

/-! ### Where an address leads, for checking (R272, R281) -/

/-- The byte of a checked page that an address names, where the page is read or written at its owner. -/
def State.checkedAt (s : State) (a : Agent) (va : Nat) : Option Loc :=
  let here (p : Perm) : Option Loc :=
    match (s.translate (clusterOf a.core) a.ctx va p).1 with
    | .ok t => if t.checked && paRegion (t.pa va) != 3 then some (.glob ((storedAt t.home (t.pa va)).headD 0)) else none
    | .error _ => none
  (here .read).orElse (fun _ => here .write)

/-- The places that an access is checked at, line by line, each with its bytes: of the scratchpad, and of checked global pages. -/
def State.checkedPieces (s : State) (r : FibRef) (a : Agent) (va n : Nat) : List (Loc × Nat) :=
  if !a.checked then []
  else if inAperture va then
    match s.aperture r.wg (va - Config.aperture) n with
    | some p => (linePieces p n).map (fun e => (Loc.scr e.1, e.2))
    | none => []
  else (linePieces va n).filterMap (fun e => (s.checkedAt a e.1).map (fun l => (l, e.2)))

end Sys2Proof.Machine
end

