-- ==== Sys2Proof/Machine/Flags.lean ====
section
/-! DEFINITION. Number formats, exact values, the rounding function and the sticky flags (R60 to R84). -/

namespace Sys2Proof.Machine

/-! ### Sticky flags (R82) -/

/-- A set of s.fpf flags, bit by bit as in s.fpf. -/
abbrev Flags := BitVec 6

/-- No flag. -/
def noFlags : Flags := 0
/-- invalid (R82). -/
def fInvalid : Flags := 0x01
/-- divzero (R82). -/
def fDivZero : Flags := 0x02
/-- overflow (R82). -/
def fOverflow : Flags := 0x04
/-- underflow (R82). -/
def fUnderflow : Flags := 0x08
/-- inexact (R82). -/
def fInexact : Flags := 0x10
/-- lostbits (R82). -/
def fLostBits : Flags := 0x20
/-- A flag under a condition. -/
def flagIf (b : Bool) (f : Flags) : Flags := if b then f else 0

/-! ### Exact values -/

/-- What a code of a format stands for (R61 to R69): a NaN and whether it signals, an infinity, or the exact value
`± m · 2^e`; `m = 0` is a zero with its sign. -/
inductive Val where
  | nan (signalling : Bool)
  | inf (neg : Bool)
  | fin (neg : Bool) (m : Nat) (e : Int)
deriving Inhabited, DecidableEq, Repr

/-- The layout of a binary format (R60): exponent width, fraction width, bias, whether the top exponent holds the
infinities and NaNs, and the largest finite code. -/
structure Layout where
  eb : Nat
  fb : Nat
  bias : Nat
  ieee : Bool
  maxCode : Nat
deriving DecidableEq, Repr

/-- FP32. -/
def lF32 : Layout := ⟨8, 23, 127, true, 0x7F7FFFFF⟩
/-- BF16. -/
def lBf16 : Layout := ⟨8, 7, 127, true, 0x7F7F⟩
/-- FP16. -/
def lF16 : Layout := ⟨5, 10, 15, true, 0x7BFF⟩
/-- FP8 E4M3. -/
def lE4m3 : Layout := ⟨4, 3, 7, false, 0x7E⟩
/-- FP8 E5M2. -/
def lE5m2 : Layout := ⟨5, 2, 15, true, 0x7B⟩
/-- FP4 E2M1. -/
def lE2m1 : Layout := ⟨2, 1, 1, false, 0x7⟩

/-- The layout of an element format; FP32 stands in for the formats that have none. -/
def layoutOf : Fmt → Layout
  | .f32 => lF32
  | .bf16 => lBf16
  | .f16 => lF16
  | .e4m3 => lE4m3
  | .e5m2 => lE5m2
  | .e2m1 => lE2m1
  | .mx4 => lE2m1
  | .ds8 => lF32

/-- Bits of one element of a format (R60). -/
def fmtWidth : Fmt → Nat
  | .f32 => 32
  | .bf16 => 16
  | .f16 => 16
  | .e4m3 => 8
  | .e5m2 => 8
  | .e2m1 => 4
  | .mx4 => 4
  | .ds8 => 8

/-- The canonical NaN code of a format (R79). -/
def nanCode : Fmt → Nat
  | .f32 => 0x7FC00000
  | .bf16 => 0x7FC0
  | .f16 => 0x7E00
  | .e4m3 => 0x7F
  | .e5m2 => 0x7E
  | .e2m1 => 0x8
  | .mx4 => 0x8
  | .ds8 => 0x77

/-- The exponent of the last digit of a format's subnormals. -/
def Layout.qmin (l : Layout) : Int := 1 - (l.bias : Int) - (l.fb : Int)

/-- The sign bit's place. -/
def Layout.signBit (l : Layout) : Nat := l.eb + l.fb

/-- The finite value of an exponent and fraction (R61, R63). -/
def Layout.finite (l : Layout) (neg : Bool) (E f : Nat) : Val :=
  if E = 0 then .fin neg f l.qmin else .fin neg (2 ^ l.fb + f) (l.qmin + (E : Int) - 1)

/-- The value of a code of a binary layout other than E2M1 (R61 to R64). -/
def Layout.decode (l : Layout) (code : Nat) : Val :=
  let neg := code / 2 ^ l.signBit % 2 == 1
  let E := code / 2 ^ l.fb % 2 ^ l.eb
  let f := code % 2 ^ l.fb
  if l.ieee && E == 2 ^ l.eb - 1 then
    if f == 0 then .inf neg else .nan (f < 2 ^ (l.fb - 1))
  else if !l.ieee && l.eb == 4 && E == 15 && f == 7 then .nan false
  else l.finite neg E f

/-- The value of an E2M1 code under the governing extra-value register (R65). -/
def decodeE2m1 (extra : BitVec 8) (code : Nat) : Val :=
  if code % 16 == 8 then lE4m3.decode extra.toNat else lE2m1.decode (code % 16)

/-- One term of a DS8 code, in units of 1/64 (R70). -/
def ds8Term (neg : Bool) (x : Nat) : Int :=
  if x == 7 then 0 else if neg then -((2 : Int) ^ (6 - x)) else (2 : Int) ^ (6 - x)

/-- The value of a DS8 code, in units of 1/64 (R70). -/
def ds8Units (code : Nat) : Int :=
  ds8Term (code / 128 % 2 == 1) (code / 16 % 8) + ds8Term (code / 8 % 2 == 1) (code % 8)

/-- The value of a DS8 code (R70): every zero-valued code is +0. -/
def decodeDs8 (code : Nat) : Val := let v := ds8Units code; .fin (v < 0) v.natAbs (-6)

/-- The value of an element code of a format (R60 to R70), E2M1 under `extra`. -/
def decodeElem (extra : BitVec 8) (fmt : Fmt) (code : Nat) : Val :=
  match fmt with
  | .e2m1 => decodeE2m1 extra code
  | .mx4 => decodeE2m1 extra code
  | .ds8 => decodeDs8 code
  | .f32 => lF32.decode code
  | .bf16 => lBf16.decode code
  | .f16 => lF16.decode code
  | .e4m3 => lE4m3.decode code
  | .e5m2 => lE5m2.decode code

/-- The value of a FP32 register lane. -/
def f32 (w : Word) : Val := lF32.decode w.toNat

/-- An element value under an E8M0 scale code (R67, R68). -/
def scaleVal (c : Nat) (v : Val) : Val :=
  if c == 0xFF then .nan false
  else match v with
    | .fin n m e => .fin n m (e + (c : Int) - 127)
    | v => v

/-- Whether a value is a NaN. -/
def Val.isNan : Val → Bool
  | .nan _ => true
  | _ => false
/-- Whether a value is a signalling NaN. -/
def Val.isSnan : Val → Bool
  | .nan s => s
  | _ => false
/-- Whether a value is a zero. -/
def Val.isZero : Val → Bool
  | .fin _ m _ => m == 0
  | _ => false
/-- A value's sign bit. -/
def Val.neg : Val → Bool
  | .nan _ => false
  | .inf n => n
  | .fin n _ _ => n
/-- The value with its sign flipped. -/
def Val.negate : Val → Val
  | .nan s => .nan s
  | .inf n => .inf !n
  | .fin n m e => .fin (!n) m e

/-! ### Rounding (R75 to R78) -/

/-- `m · 2^k` as a natural number, or its floor where `k` is negative. -/
def shiftBy (m : Nat) (k : Int) : Nat := if k < 0 then m >>> k.natAbs else m <<< k.natAbs

/-- Whether a floor at `2^q` of a magnitude is to be raised to the next grid point: `up` for a positive or negative
value under each mode (R75). `rem` is what the floor dropped, in units where one grid step is `2^s`, `sticky` says that
the true value lies strictly above. -/
def roundsUp (mode : Rnd) (neg : Bool) (odd : Bool) (rem s : Nat) (sticky : Bool) : Bool :=
  let inexact := rem != 0 || sticky
  match mode with
  | .rne => decide (2 ^ s < 2 * rem) || (2 * rem == 2 ^ s && s != 0 && (sticky || odd))
  | .rtz => false
  | .rup => inexact && !neg
  | .rdn => inexact && neg
  | .rto => inexact && !odd

/-- A magnitude on the grid `r · 2^q`, and whether it differs from the true value. -/
structure Grid where
  r : Nat
  q : Int
  inexact : Bool
deriving DecidableEq, Repr

/-- Rounds `(m · 2^e, plus something below one unit of m where sticky)` to `p` digits with a last digit no finer than
`2^qmin` (R75). With `sticky`, `m` carries more digits than the grid keeps. -/
def roundGrid (p : Nat) (qmin : Int) (mode : Rnd) (neg : Bool) (m : Nat) (e : Int) (sticky : Bool) : Grid :=
  let top : Int := e + (m.log2 : Int)
  let q : Int := max qmin (top - (p : Int) + 1)
  if q ≤ e then ⟨shiftBy m (e - q), q, sticky⟩
  else
    let s := (q - e).toNat
    let fl := m >>> s
    let rem := m - fl <<< s
    let r := if roundsUp mode neg (fl % 2 == 1) rem s sticky then fl + 1 else fl
    ⟨r, q, rem != 0 || sticky⟩

/-- The code of a grid magnitude that does not exceed the largest finite one. -/
def Layout.pack (l : Layout) (r : Nat) (q : Int) : Nat :=
  let (r, q) := if r == 2 ^ (l.fb + 1) then (2 ^ l.fb, q + 1) else (r, q)
  if r < 2 ^ l.fb then r
  else (q - l.qmin + 1).toNat * 2 ^ l.fb + (r - 2 ^ l.fb)

/-- A code with a sign; E2M1 has no −0 (R78). -/
def Layout.signed (l : Layout) (neg : Bool) (code : Nat) : Nat :=
  if neg && !(l == lE2m1 && code == 0) then 2 ^ l.signBit + code else code

/-- Infinity of a format, as a result (R76, R79): E4M3 has its NaN instead and E2M1 ±6. -/
def infCode (fmt : Fmt) (neg : Bool) : Nat :=
  let l := layoutOf fmt
  match fmt with
  | .e4m3 => 0x7F
  | .e2m1 => l.signed neg l.maxCode
  | .mx4 => l.signed neg l.maxCode
  | _ => l.signed neg ((2 ^ l.eb - 1) * 2 ^ l.fb)

/-- The largest finite value of a format with a sign. -/
def maxOf (fmt : Fmt) (neg : Bool) : Nat := (layoutOf fmt).signed neg (layoutOf fmt).maxCode

/-- Whether an overflow goes to infinity (R76). -/
def overflowToInf (mode : Rnd) (neg : Bool) : Bool :=
  match mode with
  | .rne => true
  | .rtz => false
  | .rup => !neg
  | .rdn => neg
  | .rto => false

/-- A result code with the flags it raises. -/
structure Res where
  code : Nat
  flags : Flags
deriving Inhabited, DecidableEq, Repr

/-- Whether a grid magnitude exceeds the largest finite one of a layout. -/
def Layout.exceeds (l : Layout) (r : Nat) (q : Int) : Bool :=
  match l.decode l.maxCode with
  | .fin _ m e => decide (shiftBy m (max 0 (e - q)) * 2 ^ (0 : Nat) < r * 2 ^ (max 0 (q - e)).toNat)
  | _ => false

/-- The infinite result of a format, replaced by the largest finite one under `.sat` (R77). -/
def infOrMax (fmt : Fmt) (sat neg : Bool) : Nat := if sat then maxOf fmt neg else infCode fmt neg

/-- round_to of a non-zero magnitude (R75 to R78). -/
def roundMag (fmt : Fmt) (mode : Rnd) (sat neg : Bool) (m : Nat) (e : Int) (sticky : Bool) : Res :=
  let l := layoutOf fmt
  let g := roundGrid (l.fb + 1) l.qmin mode neg m e sticky
  if l.exceeds g.r g.q then
    ⟨if overflowToInf mode neg then infOrMax fmt sat neg else maxOf fmt neg, fOverflow ||| fInexact⟩
  else
    let tiny := g.r < 2 ^ l.fb
    ⟨l.signed neg (l.pack g.r g.q), flagIf g.inexact fInexact ||| flagIf (tiny && g.inexact) fUnderflow⟩

/-- round_to of an exact finite value (R75); a zero keeps its sign. -/
def roundFin (fmt : Fmt) (mode : Rnd) (sat neg : Bool) (m : Nat) (e : Int) : Res :=
  if m == 0 then ⟨(layoutOf fmt).signed neg 0, 0⟩ else roundMag fmt mode sat neg m e false

/-- A conversion of a value to a format, special operands as R79 gives them. -/
def convert (fmt : Fmt) (mode : Rnd) (sat : Bool) (v : Val) : Res :=
  match v with
  | .fin n m e => roundFin fmt mode sat n m e
  | .nan s => ⟨nanCode fmt, flagIf (s || fmt == .e2m1 || fmt == .mx4) fInvalid⟩
  | .inf n => ⟨infOrMax fmt sat n, flagIf (fmt == .e4m3 || fmt == .e2m1 || fmt == .mx4) fInvalid⟩

/-- The canonical NaN with invalid, for operations that create a NaN (R80). -/
def nanInvalid (fmt : Fmt) : Res := ⟨nanCode fmt, fInvalid⟩

/-- The canonical NaN of an arithmetic operation on some operands, at least one of them a NaN (R80). -/
def nanOf (fmt : Fmt) (l : List Val) : Res := ⟨nanCode fmt, flagIf (l.any Val.isSnan) fInvalid⟩

end Sys2Proof.Machine
end

