-- ==== Sys2Proof/Machine/Arith.lean ====
section
/-! DEFINITION. The arithmetic of classes 0x4 and 0x5 on one lane: each operation from its exact result (R139 to R159). -/

namespace Sys2Proof.Machine

/-! ### Addition, multiplication, fused multiply-add (R141, R143, R156) -/

/-- A finite value as a signed integer times `2^k`, for a `k` no larger than its exponent. -/
def signedAt (neg : Bool) (m : Nat) (e k : Int) : Int :=
  let n : Int := (m <<< (e - k).toNat : Nat)
  if neg then -n else n

/-- Rounds the exact sum of two finite values, zero signs as R141 gives them. -/
def sumFin (fmt : Fmt) (mode : Rnd) (sat : Bool) (n1 : Bool) (m1 : Nat) (e1 : Int) (n2 : Bool) (m2 : Nat) (e2 : Int) :
    Res :=
  let k := min e1 e2
  let t := signedAt n1 m1 e1 k + signedAt n2 m2 e2 k
  if t == 0 then
    let neg := if m1 == 0 && m2 == 0 && n1 == n2 then n1 else mode == .rdn
    roundFin fmt mode sat neg 0 0
  else roundFin fmt mode sat (t < 0) t.natAbs k

/-- A + B (R143). -/
def addVal (fmt : Fmt) (mode : Rnd) (sat : Bool) (a b : Val) : Res :=
  if a.isNan || b.isNan then nanOf fmt [a, b]
  else match a, b with
    | .inf n, .inf n' => if n == n' then ⟨infOrMax fmt sat n, 0⟩ else nanInvalid fmt
    | .inf n, _ => ⟨infOrMax fmt sat n, 0⟩
    | _, .inf n => ⟨infOrMax fmt sat n, 0⟩
    | .fin n1 m1 e1, .fin n2 m2 e2 => sumFin fmt mode sat n1 m1 e1 n2 m2 e2
    | _, _ => nanInvalid fmt

/-- The exact product, `none` for 0 · ∞; NaNs are the caller's. -/
def mulExact (a b : Val) : Option Val :=
  match a, b with
  | .inf n, .inf n' => some (.inf (n != n'))
  | .inf n, .fin n' m _ => if m == 0 then none else some (.inf (n != n'))
  | .fin n m _, .inf n' => if m == 0 then none else some (.inf (n != n'))
  | .fin n m e, .fin n' m' e' => some (.fin (n != n') (m * m') (e + e'))
  | .nan s, _ => some (.nan s)
  | _, .nan s => some (.nan s)

/-- A · B (R143). -/
def mulVal (fmt : Fmt) (mode : Rnd) (sat : Bool) (a b : Val) : Res :=
  if a.isNan || b.isNan then nanOf fmt [a, b]
  else match mulExact a b with
    | some (.fin n m e) => roundFin fmt mode sat n m e
    | some (.inf n) => ⟨infOrMax fmt sat n, 0⟩
    | _ => nanInvalid fmt

/-- A · B + C with one rounding (R143): 0 · ∞ raises invalid even when C is a quiet NaN. -/
def fmaVal (fmt : Fmt) (mode : Rnd) (sat : Bool) (a b c : Val) : Res :=
  if a.isNan || b.isNan then nanOf fmt [a, b, c]
  else match mulExact a b with
    | none => nanInvalid fmt
    | some p => if c.isNan then nanOf fmt [c] else addVal fmt mode sat p c

/-! ### Division and roots -/

/-- Division (R143). -/
def divVal (mode : Rnd) (a b : Val) : Res :=
  if a.isNan || b.isNan then nanOf .f32 [a, b]
  else match a, b with
    | .inf _, .inf _ => nanInvalid .f32
    | .inf n, _ => ⟨infCode .f32 (n != b.neg), 0⟩
    | .fin n _ _, .inf n' => roundFin .f32 mode false (n != n') 0 0
    | .fin n m e, .fin n' m' e' =>
      if m' == 0 then
        if m == 0 then nanInvalid .f32 else ⟨infCode .f32 (n != n'), fDivZero⟩
      else if m == 0 then roundFin .f32 mode false (n != n') 0 0
      else
        let k := 64 + m'.log2
        let x := m <<< k
        let q := x / m'
        roundMag .f32 mode false (n != n') q (e - e' - (k : Int)) (q * m' != x)
    | _, _ => nanInvalid .f32

/-- The integer square root, one bit at a time: `r` plus the bits below `2^k` that fit. -/
def isqrtFrom (n : Nat) : Nat → Nat → Nat
  | 0, r => r
  | k + 1, r => let r' := r + 2 ^ k; isqrtFrom n k (if r' * r' ≤ n then r' else r)

/-- floor(√n). -/
def isqrt (n : Nat) : Nat := isqrtFrom n (n.log2 / 2 + 1) 0

/-- √A (R144). -/
def sqrtVal (mode : Rnd) (a : Val) : Res :=
  match a with
  | .nan _ => nanOf .f32 [a]
  | .inf n => if n then nanInvalid .f32 else ⟨infCode .f32 false, 0⟩
  | .fin n m e =>
    if m == 0 then roundFin .f32 mode false n 0 0
    else if n then nanInvalid .f32
    else
      let k := 64 + ((e + 64) % 2).toNat
      let x := m <<< k
      let r := isqrt x
      roundMag .f32 mode false false r ((e - (k : Int)) / 2) (r * r != x)

/-- 1/A (R144). -/
def rcpVal (mode : Rnd) (a : Val) : Res := divVal mode (.fin false 1 0) a

/-- 1/√A (R144). -/
def rsqVal (mode : Rnd) (a : Val) : Res :=
  match a with
  | .nan _ => nanOf .f32 [a]
  | .inf n => if n then nanInvalid .f32 else roundFin .f32 mode false false 0 0
  | .fin n m e =>
    if m == 0 then ⟨infCode .f32 n, fDivZero⟩
    else if n then nanInvalid .f32
    else
      let h := (e % 2).toNat
      let m' := m <<< h
      let x := 2 ^ 160 / m'
      let r := isqrt x
      roundMag .f32 mode false false r (-80 - (e - (h : Int)) / 2) (r * r * m' != 2 ^ 160)

/-- A · 2^n (R143). An n beyond ±1,000 takes every FP32 magnitude as far out of range as ±1,000 does. -/
def scaleVal2 (mode : Rnd) (sat : Bool) (a : Val) (n : Int) : Res :=
  match a with
  | .nan _ => nanOf .f32 [a]
  | .inf s => ⟨infOrMax .f32 sat s, 0⟩
  | .fin s m e => roundFin .f32 mode sat s m (e + max (-1000) (min 1000 n))

/-! ### The transcendental functions (R144)

Each function encloses its value, in units of `2^-P`, strictly between two whole numbers; the enclosure is refined until
both ends round alike. None of these values is a whole number of units: the exact cases of R144 are taken first. -/

/-- floor(π · 2^1200). -/
def piBits : Nat := 0x3243f6a8885a308d313198a2e03707344a4093822299f31d0082efa98ec4e6c89452821e638d01377be5466cf34e90c6cc0ac29b7c97c50dd3f84d5b5b54709179216d5d98979fb1bd1310ba698dfb5ac2ffd72dbd01adfb7b8e1afed6a267e96ba7c9045f12c7f9924a19947b3916cf70801f2e2858efc16636920d871574e69a458fea3f4933d7e0d95748f728eb658718bcd588215
/-- floor(ln 2 · 2^700). -/
def ln2Bits : Nat := 0xb17217f7d1cf79abc9e3b39803f2f6af40f343267298b62d8a0d175b8baafa2be7b876206debac98559552fb4afa1b10ed2eae35c138214427573b291169b8253e96ca16224ae8c51acbda11317c387eb9ea9bc3b136603

/-- An enclosure: the value lies strictly between `lo` and `hi` units of `2^-P`. -/
structure Enclosure where
  lo : Int
  hi : Int
deriving DecidableEq, Repr

/-- Rounds a magnitude enclosed in units of `2^(k-P)`, where both ends round alike. -/
def roundEnclosure (mode : Rnd) (neg : Bool) (k : Int) (P : Nat) (x : Enclosure) : Option Res :=
  if x.lo ≤ 0 then none
  else
    let a := roundMag .f32 mode false neg x.lo.toNat (k - (P : Int)) true
    let b := roundMag .f32 mode false neg (x.hi - 1).toNat (k - (P : Int)) true
    if a = b then some a else none

/-- The precisions tried. -/
def precisions : List Nat := [64, 128, 256, 512, 640]

/-- The first enclosure that decides the rounding: `f` gives a sign and an enclosure of the magnitude divided by `2^k`. -/
def refine (mode : Rnd) (k : Int) (f : Nat → Bool × Enclosure) : Res :=
  match precisions.findSome? (fun P => roundEnclosure mode (f P).1 k P (f P).2) with
  | some r => r
  | none => roundMag .f32 mode false (f 640).1 (f 640).2.lo.toNat (k - 640) true

/-- Sum of the Taylor terms `y^i / i!` from a term `t` at index `i`, in units of `2^-P`, every floor below its value. -/
def expSum (P y : Nat) : Nat → Nat → Nat → Nat → Nat
  | 0, _, _, s => s
  | fuel + 1, i, t, s =>
    if t == 0 then s
    else expSum P y fuel (i + 1) (t * y / (2 ^ P * (i + 1))) (s + t)

/-- An enclosure of `e^y` for `0 ≤ y < 1` known to two units, in units of `2^-P`. -/
def expEnclosure (P y : Nat) : Enclosure :=
  let s := expSum P y (P + 8) 0 (2 ^ P) 0
  ⟨(s : Int) - 1, (s : Int) + 8 * (P : Int) + 64⟩

/-- ln 2 in units of `2^-P`, rounded down. -/
def ln2At (P : Nat) : Nat := ln2Bits >>> (700 - P)

/-- Enclosure of `2^f` for the fraction `f = m · 2^e` below one. -/
def exp2Enclosure (P : Nat) (m : Nat) (e : Int) : Enclosure :=
  expEnclosure P (shiftBy (m * ln2At P) e)

/-- 2^A (R144). Beyond ±1,000 every result is out of range alike. -/
def exp2Val (mode : Rnd) (a : Val) : Res :=
  match a with
  | .nan _ => nanOf .f32 [a]
  | .inf n => if n then roundFin .f32 mode false false 0 0 else ⟨infCode .f32 false, 0⟩
  | .fin n m e =>
    if m == 0 then roundFin .f32 mode false false 1 0
    else if (10 : Int) ≤ e + (m.log2 : Int) then
      roundMag .f32 mode false false 1 (if n then -1000 else 1000) true
    else if 0 ≤ e then
      let k : Int := (m <<< e.toNat : Nat)
      roundFin .f32 mode false false 1 (if n then -k else k)
    else
      let d := e.natAbs
      let q := m >>> d
      let r := m - (q <<< d)
      if r == 0 then roundFin .f32 mode false false 1 (if n then -(q : Int) else q)
      else
        refine mode (if n then -(q : Int) - 1 else q)
        (fun P => (false, exp2Enclosure P (if n then (1 <<< d) - r else r) e))

/-- Sum of the terms `z^(2i+1) / (2i+1)` from the power `t` at index `i`, in units of `2^-P`. -/
def atanhSum (P z : Nat) : Nat → Nat → Nat → Nat → Nat
  | 0, _, _, s => s
  | fuel + 1, i, t, s =>
    if t == 0 then s
    else atanhSum P z fuel (i + 1) (t * z * z / 2 ^ (2 * P)) (s + t / (2 * i + 1))

/-- An enclosure of `|log2 (a / b)|`, for a ratio between 3/4 and 3/2 (R144). -/
def log2Enclosure (P a b : Nat) : Enclosure :=
  let z := (if a < b then b - a else a - b) * 2 ^ P / (a + b)
  let s := 2 * atanhSum P z (P + 8) 0 z 0
  let c := ln2At P
  ⟨(s * 2 ^ P / (c + 1) : Nat) - (1 : Int), ((s + 4 * P + 64) * 2 ^ P / c + 1 : Nat)⟩

/-- log2 A (R144). -/
def log2Val (mode : Rnd) (a : Val) : Res :=
  match a with
  | .nan _ => nanOf .f32 [a]
  | .inf n => if n then nanInvalid .f32 else ⟨infCode .f32 false, 0⟩
  | .fin n m e =>
    if m == 0 then ⟨infCode .f32 true, fDivZero⟩
    else if n then nanInvalid .f32
    else
      let L := m.log2
      let L' := if 3 * 2 ^ L < 2 * m then L + 1 else L
      let k : Int := e + (L' : Int)
      if m == 2 ^ L then roundFin .f32 mode false (k < 0) k.natAbs 0
      else
        let below := m < 2 ^ L'
        refine mode 0 (fun P =>
          let x := log2Enclosure P m (2 ^ L')
          let w : Int := (k.natAbs * 2 ^ P : Nat)
          if k == 0 then (below, x)
          else if (k < 0) == below then (k < 0, ⟨w + x.lo, w + x.hi⟩)
          else (k < 0, ⟨w - x.hi, w - x.lo⟩))

/-- The alternating sum of `y^i / i!` from the term `t` at index `i`, every second index, in units of `2^-P`:
what is added and what is taken away. -/
def altSum (P y : Nat) : Nat → Nat → Nat → Bool → Nat → Nat → Nat × Nat
  | 0, _, _, _, p, q => (p, q)
  | fuel + 1, i, t, minus, p, q =>
    if t == 0 then (p, q)
    else altSum P y fuel (i + 2) (t * y * y / (2 ^ (2 * P) * ((i + 1) * (i + 2)))) (!minus)
      (if minus then p else p + t) (if minus then q + t else q)

/-- sin y or cos y for `0 ≤ y ≤ π/2`, in units of `2^-P`, off by less than `4P + 60`. -/
def trigAt (P y : Nat) (cosine : Bool) : Int :=
  let (p, q) := if cosine then altSum P y (P + 8) 0 (2 ^ P) false 0 0 else altSum P y (P + 8) 1 y false 0 0
  (p : Int) - (q : Int)

/-- The quadrant of `m · 2^e` and an enclosure of the angle within it, in units of `2^-P` (exact reduction, R144). -/
def reduceAngle (P m : Nat) (e : Int) : Nat × Int × Int :=
  let Q := P + 160
  let X := shiftBy m (e + (Q : Int))
  let H := piBits >>> (1201 - Q)
  let k := X / H
  let r : Int := (X % H : Nat)
  (k % 4, (r - (k : Int)) / 2 ^ 160, r / 2 ^ 160 + 1)

/-- An enclosure of |sin| or |cos| of an angle in its quadrant. -/
def trigEnclosure (P : Nat) (lo hi : Int) (cosine : Bool) : Enclosure :=
  let err : Int := 4 * P + 64
  if lo < 0 && !cosine then ⟨0, 2 ^ P⟩
  else
    let a := if cosine then trigAt P hi.toNat true else trigAt P lo.toNat false
    let b := if cosine then trigAt P lo.toNat true else trigAt P hi.toNat false
    ⟨a - err, min (b + err) (2 ^ P)⟩

/-- sin A or cos A (R144). -/
def trigVal (mode : Rnd) (cosine : Bool) (a : Val) : Res :=
  match a with
  | .nan _ => nanOf .f32 [a]
  | .inf _ => nanInvalid .f32
  | .fin n m e =>
    if m == 0 then (if cosine then roundFin .f32 mode false false 1 0 else roundFin .f32 mode false n 0 0)
    else refine mode 0 (fun P =>
      let (k, lo, hi) := reduceAngle P m e
      let k' := if cosine then k + 1 else k
      let neg := (k' % 4 == 2 || k' % 4 == 3) != (n && !cosine)
      (neg, trigEnclosure P lo hi (k' % 2 == 1)))

/-- An enclosure of `e^(2x)` divided by `2^k`, and `k`, for `x = m · 2^e` below 64. -/
def exp2xEnclosure (P m : Nat) (e : Int) : Nat × Enclosure :=
  let Y := shiftBy m (e + 1 + (P : Int))
  let c := ln2At P
  let k := Y / c
  let r := Y % c
  (k, ⟨(expEnclosure P (r - k)).lo - (k : Int) - 2, (expEnclosure P (r + 1)).hi⟩)

/-- tanh A (R144). -/
def tanhVal (mode : Rnd) (a : Val) : Res :=
  match a with
  | .nan _ => nanOf .f32 [a]
  | .inf n => roundFin .f32 mode false n 1 0
  | .fin n m e =>
    if m == 0 then roundFin .f32 mode false n 0 0
    else if (5 : Int) ≤ e + (m.log2 : Int) then
      roundMag .f32 mode false n (2 ^ 64 - 2 ^ 10) (-64) true
    else refine mode 0 (fun P =>
      let (k, x) := exp2xEnclosure P m e
      let one : Int := 2 ^ P
      let lo := x.lo * 2 ^ k
      let hi := x.hi * 2 ^ k
      (n, ⟨(lo - one) * one / (lo + one), min ((hi - one) * one / (hi + one) + 1) one⟩))

/-! ### Minimum, maximum, comparison, class (R145, R146) -/

/-- Numeric order of two values that are no NaN, −0 below +0 where `zeros` says so. -/
def ltVal (zeros : Bool) (a b : Val) : Bool :=
  match a, b with
  | .inf n, .inf n' => n && !n'
  | .inf n, .fin _ _ _ => n
  | .fin _ _ _, .inf n => !n
  | .fin n m e, .fin n' m' e' =>
    if m == 0 && m' == 0 then zeros && n && !n'
    else
      let k := min e e'
      decide (signedAt n m e k < signedAt n' m' e' k)
  | _, _ => false

/-- The chosen operand of a minimum or maximum, and its flags (R145): codes `x`, `y` of values `a`, `b`. -/
def minMax (fmt : Fmt) (isMax number : Bool) (a b : Val) (x y : Nat) : Res :=
  let fl := flagIf (a.isSnan || b.isSnan) fInvalid
  if a.isNan && b.isNan then ⟨nanCode fmt, fl⟩
  else if a.isNan then ⟨if number then y else nanCode fmt, fl⟩
  else if b.isNan then ⟨if number then x else nanCode fmt, fl⟩
  else
    let lt := ltVal true a b
    ⟨if isMax then (if lt then y else x) else (if ltVal true b a then y else x), fl⟩

/-- The truth and the flags of a comparison (R146). -/
def cmpVal (cc : FCc) (a b : Val) : Bool × Flags :=
  let un := a.isNan || b.isNan
  let sig := flagIf (a.isSnan || b.isSnan) fInvalid
  let lt := ltVal false a b
  let gt := ltVal false b a
  match cc with
  | .eq => (!un && !lt && !gt, sig)
  | .ne => (un || lt || gt, sig)
  | .lt => (!un && lt, flagIf un fInvalid)
  | .le => (!un && !gt, flagIf un fInvalid)
  | .gt => (!un && gt, flagIf un fInvalid)
  | .ge => (!un && !lt, flagIf un fInvalid)
  | .un => (un, sig)
  | .num => (!un, sig)

/-- The one-hot class mask of a FP32 code (R146). -/
def classOf (w : Word) : Word :=
  match f32 w with
  | .nan s => if s then 0x100 else 0x200
  | .inf n => if n then 0x001 else 0x080
  | .fin n m _ =>
    if m == 0 then (if n then 0x008 else 0x010)
    else if m < 2 ^ 23 then (if n then 0x004 else 0x020)
    else if n then 0x002 else 0x040

/-- The rank of a FP32 code in the total order of R147; every NaN has one rank above +∞. -/
def rankOf (w : Word) : Int :=
  if (f32 w).isNan then 2 ^ 40
  else if w.getLsbD 31 then -((w.toNat % 2 ^ 31 : Nat) : Int) - 1
  else (w.toNat : Int)

/-! ### Integers (R154) -/

/-- A magnitude rounded to a whole number, and whether it differs. -/
def roundWhole (mode : Rnd) (neg : Bool) (m : Nat) (e : Int) : Nat × Bool :=
  if 0 ≤ e then (m <<< e.toNat, false)
  else
    let s := min e.natAbs (m.log2 + 3)
    let fl := m >>> s
    let rem := m - (fl <<< s)
    (if roundsUp mode neg (fl % 2 == 1) rem s false then fl + 1 else fl, rem != 0)

/-- FP32 to an integer of `w` bits, saturating (R154). -/
def toInt (mode : Rnd) (sgn : Bool) (w : Nat) (a : Val) : Int × Flags :=
  let lo : Int := if sgn then -(2 ^ (w - 1)) else 0
  let hi : Int := if sgn then 2 ^ (w - 1) - 1 else 2 ^ w - 1
  match a with
  | .nan _ => (0, fInvalid)
  | .inf n => (if n then lo else hi, fInvalid)
  | .fin n m e =>
    let (k, inex) := roundWhole mode n m e
    let v : Int := if n then -(k : Int) else k
    if v < lo then (lo, fInvalid) else if hi < v then (hi, fInvalid) else (v, flagIf inex fInexact)

/-- An integer to FP32 (R154). -/
def ofInt (mode : Rnd) (v : Int) : Res := roundFin .f32 mode false (v < 0) v.natAbs 0

/-- FP32 to an integral FP32 value (R154). -/
def roundIntegral (mode : Rnd) (w : Word) : Res :=
  match f32 w with
  | .nan s => ⟨nanCode .f32, flagIf s fInvalid⟩
  | .inf _ => ⟨w.toNat, 0⟩
  | .fin n m e =>
    if 0 ≤ e then ⟨w.toNat, 0⟩
    else
      let (k, _) := roundWhole mode n m e
      ⟨(roundFin .f32 mode false n k 0).code, 0⟩

/-! ### Block scales and quantisation (R157, R158) -/

/-- emax of a format (R157). -/
def emaxOf : Fmt → Int
  | .e4m3 => 8
  | .e5m2 => 15
  | .e2m1 => 2
  | _ => 1

/-- max(F), as a whole number (R157). -/
def maxMag : Fmt → Nat
  | .e4m3 => 448
  | .e5m2 => 57344
  | .e2m1 => 6
  | _ => 2

/-- Whether `m · 2^e ≤ n`. -/
def leWhole (m : Nat) (e : Int) (n : Nat) : Bool :=
  decide (m <<< e.toNat ≤ n <<< (-e).toNat)

/-- The E8M0 scale code of a block whose largest magnitude is |A| (R157). -/
def qscaleVal (fit : Bool) (fmt : Fmt) (a : Val) : Res :=
  match a with
  | .nan s => ⟨0xFF, flagIf s fInvalid⟩
  | .inf _ => ⟨0xFF, fInvalid⟩
  | .fin _ m e =>
    if m == 0 then ⟨0, 0⟩
    else if fit then
      ⟨((List.range 255).find? (fun c : Nat => leWhole m (e + 127 - (c : Int)) (maxMag fmt))).getD 254, 0⟩
    else ⟨(max 0 (min 254 (e + (m.log2 : Int) - emaxOf fmt + 127))).toNat, 0⟩

/-- The canonical DS8 terms of a magnitude in units of 1/64: `a`, `b` and whether the second sign is the opposite of the
value's (R71). One-term values come first, then like signs, then unlike signs. -/
def ds8Terms (u : Nat) : Option (Nat × Nat × Bool) :=
  let xs := List.range 7
  let one := (xs.find? (fun a => 2 ^ (6 - a) == u)).map (fun a => (a, 7, false))
  let like := (xs.flatMap (fun a => xs.map (fun b => (a, b)))).find? (fun p => p.1 ≤ p.2 && 2 ^ (6 - p.1) + 2 ^ (6 - p.2) == u)
  let unlike := (xs.flatMap (fun a => xs.map (fun b => (a, b)))).find? (fun p => p.1 < p.2 && 2 ^ (6 - p.1) == u + 2 ^ (6 - p.2))
  one.orElse (fun _ => (like.map (fun p => (p.1, p.2, false))).orElse (fun _ => unlike.map (fun p => (p.1, p.2, true))))

/-- Whether a magnitude in units of 1/64 is one of DS8's (R70). -/
def ds8Has (u : Nat) : Bool := u == 0 || (ds8Terms u).isSome

/-- The canonical DS8 code of a value (R71). -/
def ds8Code (neg : Bool) (u : Nat) : Nat :=
  match ds8Terms u with
  | none => 0x77
  | some (a, b, opp) => (if neg then 128 else 0) + 16 * a + (if neg != opp then 8 else 0) + b

/-- Non-zero terms of a magnitude's canonical code. -/
def ds8Count (u : Nat) : Nat :=
  match ds8Terms u with
  | none => 0
  | some (_, b, _) => if b == 7 then 1 else 2

/-- The largest DS8 magnitude not above `n` units. -/
def ds8Below : Nat → Nat
  | 0 => 0
  | n + 1 => if ds8Has (n + 1) then n + 1 else ds8Below n

/-- The smallest DS8 magnitude not below `n` units, looked for in `fuel` places. -/
def ds8Above : Nat → Nat → Nat
  | 0, n => n
  | fuel + 1, n => if ds8Has n then n else ds8Above fuel (n + 1)

/-- Rounding to DS8 (R158). -/
def ds8Round (mode : Rnd) (a : Val) : Res :=
  match a with
  | .nan _ => ⟨0x77, fInvalid⟩
  | .inf n => ⟨ds8Code n 128, fInvalid⟩
  | .fin n m e =>
    if m == 0 then ⟨0x77, 0⟩
    else if !leWhole m e 2 then ⟨ds8Code n 128, fOverflow ||| fInexact⟩
    else
      let k := e + 6
      let lo := ds8Below (shiftBy m k)
      let exact := leWhole m k lo
      let hi := if exact then lo else ds8Above 129 (lo + 1)
      let up := match mode with
        | .rne =>
          -- 2v against lo + hi
          if !leWhole (2 * m) k (lo + hi) then true
          else if decide ((2 * m) <<< k.toNat = (lo + hi) <<< (-k).toNat) then decide (ds8Count hi < ds8Count lo)
          else false
        | .rtz => false
        | .rup => !n
        | .rdn => n
        | .rto => false
      let u := if exact then lo else if up then hi else lo
      ⟨ds8Code n u, flagIf (!exact) fInexact ||| flagIf (u == 0) fUnderflow⟩

/-- The quantised code of A under scale code `c` (R158). -/
def qntVal (mode : Rnd) (sat : Bool) (fmt : Fmt) (a : Val) (c : Nat) : Res :=
  if c == 0xFF || a.isNan then ⟨nanCode fmt, fInvalid⟩
  else
    let v := match a with
      | .fin n m e => Val.fin n m (e + 127 - (c : Int))
      | v => v
    if fmt == .ds8 then ds8Round mode v else convert fmt mode sat v

/-! ### Binned fixed point (R72, R73, R159) -/

/-- Positive saturation. -/
def binPos : Dword := 0x7FFFFFFFFFFFFFFF
/-- Negative saturation. -/
def binNeg : Dword := 0x8000000000000001
/-- Bin NaN. -/
def binNan : Dword := 0x8000000000000000

/-- An exact whole number as a binned value, saturating (R73). -/
def binOf (n : Int) : Dword × Flags :=
  if n > 2 ^ 63 - 2 then (binPos, fOverflow)
  else if n < -(2 ^ 63 - 2) then (binNeg, fOverflow)
  else (BitVec.ofInt 64 n, 0)

/-- FP32 to binned (R159). -/
def binCvt (mode : Rnd) (a : Val) (e : Int) : Dword × Flags :=
  match a with
  | .nan _ => (binNan, fInvalid)
  | .inf n => (if n then binNeg else binPos, fOverflow)
  | .fin n m x =>
    let (k, lost) := roundWhole mode n m (x + 46 - e)
    let (N, f) := binOf (if n then -(k : Int) else k)
    (N, f ||| flagIf lost fLostBits)

/-- The sum of two binned values (R159). -/
def binAdd (a b : Dword) : Dword × Flags :=
  let sat (x : Dword) : Bool := x == binPos || x == binNeg
  if a == binNan || b == binNan then (binNan, 0)
  else if sat a && sat b && a != b then (binNan, fInvalid)
  else if sat a then (a, 0)
  else if sat b then (b, 0)
  else binOf (a.toInt + b.toInt)

/-- Binned to FP32 (R159). -/
def binToF32 (mode : Rnd) (n : Dword) (e : Int) : Res :=
  if n == binNan then nanInvalid .f32
  else if n == binPos then ⟨infCode .f32 false, fOverflow⟩
  else if n == binNeg then ⟨infCode .f32 true, fOverflow⟩
  else roundFin .f32 mode false (n.toInt < 0) n.toInt.natAbs (e - 46)

end Sys2Proof.Machine
end

