-- ==== Sys2Proof/Machine/MatrixOps.lean ====
section
/-! DEFINITION. The matrix array: formats and pass depth, products, the four accumulation levels, weight decompression,
and the queue of quarter operations of a core (R160 to R176, R199, R200, R203). -/

namespace Sys2Proof.Machine

/-! ### Shapes (R161) -/

/-- Pass depth K and bytes of one A row for a pairing of formats, where the pairing exists. -/
def passShape (fa fb : Fmt) : Option (Nat × Nat) :=
  match fa, fb with
  | .bf16, .bf16 => some (64, 128)
  | .f16, .f16 => some (64, 128)
  | .e4m3, .e4m3 => some (128, 128)
  | .e4m3, .e5m2 => some (128, 128)
  | .e5m2, .e4m3 => some (128, 128)
  | .e5m2, .e5m2 => some (128, 128)
  | .e2m1, .e2m1 => some (256, 128)
  | .e2m1, .mx4 => some (256, 128)
  | .mx4, .e2m1 => some (256, 128)
  | .mx4, .mx4 => some (256, 128)
  | .e4m3, .ds8 => some (256, 256)
  | .e5m2, .ds8 => some (256, 256)
  | .e2m1, .ds8 => some (256, 128)
  | .mx4, .ds8 => some (256, 128)
  | _, _ => none

/-- Elements of one B column (R161, R199). -/
def slotDepth (f : Fmt) : Nat :=
  match f with
  | .bf16 => 64
  | .f16 => 64
  | .e4m3 => 128
  | .e5m2 => 128
  | .e2m1 => 256
  | .mx4 => 256
  | .ds8 => 256
  | .f32 => 0

/-- Element `k` of width `w` in packed bytes (R152). -/
def packedElem (l : List Byte) (w k : Nat) : Nat :=
  if w == 4 then bits (l.getD (k / 2) 0).toNat (4 * (k % 2)) 4
  else leNat ((l.drop (k * w / 8)).take (w / 8))

/-- Packs elements of width `w` (R152), 4 apart. -/
def packElems (w : Nat) (l : List Nat) : List Byte :=
  if w == 4 then (List.range ((l.length + 1) / 2)).map (fun i =>
      BitVec.ofNat 8 (l.getD (2 * i) 0 % 16 + 16 * (l.getD (2 * i + 1) 0 % 16)))
  else l.flatMap (fun v => leBytes (w / 8) v)

/-! ### Products and levels (R165, R166) -/

/-- One exact product and whether it raises invalid. -/
def matProduct (x y : Val) : Val × Bool :=
  let sig := x.isSnan || y.isSnan
  if x.isNan || y.isNan then (.nan false, sig)
  else match mulExact x y with
    | some v => (v, sig)
    | none => (.nan false, true)

/-- One bits of a number. -/
def ones : Nat → Nat → Nat
  | 0, _ => 0
  | k + 1, n => n % 2 + ones k (n / 2)

/-- What a level returns: its value, the bits lost, and whether it raises invalid. -/
structure LevelOut where
  val : Val
  lost : Nat
  inv : Bool
deriving Inhabited, DecidableEq, Repr

/-- The leading-one position of a value that is not zero. -/
def leadPos : Val → Option Int
  | .fin _ m e => if m == 0 then none else some ((m.log2 : Int) + e)
  | _ => none

/-- A level of width `w` and alignment mode `t` over some inputs (R166). -/
def level (xs : List Val) (w : Nat) (t : Bool) : LevelOut :=
  if xs.any Val.isNan then ⟨.nan false, 0, false⟩
  else
    let pinf := xs.contains (.inf false)
    let ninf := xs.contains (.inf true)
    if pinf && ninf then ⟨.nan false, 0, true⟩
    else if pinf then ⟨.inf false, 0, false⟩
    else if ninf then ⟨.inf true, 0, false⟩
    else match (xs.filterMap leadPos).max? with
      | none => ⟨.fin false 0 0, 0, false⟩
      | some top =>
        let ulp : Int := top - ((w : Int) - 2 - (xs.length.log2 : Int))
        let step (acc : Int × Nat) (x : Val) : Int × Nat :=
          match x with
          | .fin neg m e =>
            if ulp ≤ e then
              let q : Int := ((m <<< (e - ulp).toNat : Nat) : Int)
              (if neg then acc.1 - q else acc.1 + q, acc.2)
            else
              let d := (ulp - e).toNat
              let low := m % 2 ^ d
              let fl := m / 2 ^ d
              let up := t && (2 ^ d < 2 * low || (2 * low == 2 ^ d && fl % 2 == 1))
              let q : Int := ((if up then fl + 1 else fl : Nat) : Int)
              (if neg then acc.1 - q else acc.1 + q, acc.2 + ones (d + 1) low)
          | _ => acc
        let r := xs.foldl step (0, 0)
        ⟨.fin (r.1 < 0) r.1.natAbs ulp, r.2, false⟩

/-- Splits a list into runs of `n`; `k` runs are taken. -/
def chunks {α : Type} (n : Nat) : Nat → List α → List (List α)
  | 0, _ => []
  | k + 1, l => l.take n :: chunks n k (l.drop n)

/-- The accumulation field of a control word (R178). -/
structure AccShape where
  na : Nat
  nb : Nat
  nc : Nat
  wa : Nat
  wb : Nat
  wc : Nat
  ta : Bool
  tb : Bool
  tc : Bool
  rnd : Rnd
deriving Inhabited, DecidableEq, Repr

/-- Reads the accumulation field. -/
def accShape (ctl : BitVec 32) : AccShape :=
  let n := ctl.toNat
  { na := 2 ^ (bits n 0 2 + 1), nb := 2 ^ bits n 2 2, nc := 2 ^ bits n 4 2
    wa := 14 + 4 * bits n 6 2, wb := 20 + 4 * bits n 8 2, wc := 26 + 4 * bits n 10 2
    ta := bit n 12, tb := bit n 13, tc := bit n 14
    rnd := (Rnd.ofBits (BitVec.ofNat 3 (bits n 15 3))).getD .rne }

/-- Products of one group (R167). -/
def AccShape.group (a : AccShape) : Nat := a.na * a.nb * a.nc

/-- The value one group of products gives at the third level, the bits lost and whether invalid was raised (R167). -/
def groupValue (a : AccShape) (ps : List Val) : LevelOut :=
  let as := (chunks a.na (a.nb * a.nc) ps).map (fun l => level l a.wa a.ta)
  let bs := (chunks a.nb a.nc (as.map (·.val))).map (fun l => level l a.wb a.tb)
  let c := level (bs.map (·.val)) a.wc a.tc
  ⟨c.val, (as.map (·.lost)).sum + (bs.map (·.lost)).sum + c.lost, as.any (·.inv) || bs.any (·.inv) || c.inv⟩

/-- What a tile element becomes: its bits, lost bits, flags, overflows. -/
structure ElemOut where
  acc : Word
  lost : Nat
  flags : Flags
  ovf : Nat
deriving Inhabited, DecidableEq, Repr

/-- One tile element after the products of one A row and one column (R167). -/
def elemUpdate (a : AccShape) (acc : Word) (ps : List (Val × Bool)) : ElemOut :=
  let inv := ps.any (·.2)
  let start : ElemOut := ⟨acc, 0, flagIf inv fInvalid, 0⟩
  (chunks a.group (ps.length / a.group) (ps.map (·.1))).foldl (fun o l =>
    let g := groupValue a l
    let r := addVal .f32 a.rnd false (f32 o.acc) g.val
    { acc := BitVec.ofNat 32 r.code, lost := o.lost + g.lost
      flags := o.flags ||| r.flags ||| flagIf g.inv fInvalid
      ovf := o.ovf + (if r.flags &&& fOverflow != 0 then 1 else 0) }) start

/-! ### Weights (R199, R200) -/

/-- Element (k, j) of a slot, decoded with its scale and extra value; `bank` is the dictionary bank referenced. -/
def WSlot.elem (x : WSlot) (bank k j : Nat) : Val :=
  let w := fmtWidth x.format
  let col := x.elems.getD j []
  let raw : Option Nat :=
    if x.compress == 0 then some (packedElem col w k)
    else if x.compress == 1 then
      let g := k / 4
      let m := packedElem (x.metas.getD j []) 4 g
      if m / 4 == k % 4 then some (packedElem col w (2 * g + 1))
      else if m % 4 == k % 4 then some (packedElem col w (2 * g))
      else none
    else
      let c := packedElem col 4 k
      some (((x.banks.toList.getD bank (Vector.replicate 16 0)).toList.getD c 0).toNat % 2 ^ w)
  let v := match raw with
    | some c => decodeElem x.extra x.format c
    | none => .fin false 0 0
  if x.scaled then scaleVal ((x.scales.getD j []).getD (k / 32) 0).toNat v else v

/-- Element k of an A row (R163, R164). -/
def rowElem (fa : Fmt) (asc : Bool) (extra : BitVec 8) (row scales : List Byte) (k : Nat) : Val :=
  let v := decodeElem extra fa (packedElem row (fmtWidth fa) k)
  if asc then scaleVal (scales.getD (k / 32) 0).toNat v else v

/-- The A and B formats of a control word (R178). -/
def ctlFmt (ctl : BitVec 32) : Fmt × Fmt :=
  ((Fmt.ofBits (BitVec.ofNat 4 (bits ctl.toNat 18 4))).getD .f32, (Fmt.ofBits (BitVec.ofNat 4 (bits ctl.toNat 22 4))).getD .f32)

/-- One A row against a slot's columns, added into a tile row: the new row, lost bits, flags, overflows, new NaNs. -/
def rowUpdate (op : MatOp) (x : WSlot) (old : List Word) (row scales : List Byte) : List Word × Nat × Flags × Nat × Nat :=
  let (fa, fb) := ctlFmt op.ctl
  let a := accShape op.ctl
  let K := ((passShape fa fb).map (·.1)).getD 0
  let xs := (List.range K).map (fun k => rowElem fa op.asc op.extraA row scales k)
  let outs := (List.range 64).map (fun j =>
    let o := old.getD j 0
    (o, elemUpdate a o (xs.mapIdx (fun k v => matProduct v (x.elem op.bank k j)))))
  let lost := (outs.map (fun p => p.2.lost)).sum
  (outs.map (fun p => p.2.acc), lost,
    outs.foldl (fun f p => f ||| p.2.flags) (flagIf (lost != 0) fLostBits),
    (outs.map (fun p => p.2.ovf)).sum,
    (outs.filter (fun p => !(f32 p.1).isNan && (f32 p.2.acc).isNan)).length)

/-- A 32-bit counter that saturates. -/
def satAdd (a b : Nat) : Nat := min (2 ^ 32 - 1) (a + b)

/-! ### The array of a core (R160, R172 to R176) -/

/-- A tile of a work-group. -/
def State.tile (s : State) (g t : Nat) : Option Tile := (Map.find s.wgs g).bind (fun w => w.tiles[t]?)

/-- Rows of a tile. -/
def State.tileRows (s : State) (g t : Nat) : List (List Word) := ((s.tile g t).map (·.rows)).getD []

/-- Changes a tile of a work-group. -/
def State.modTile (s : State) (g t : Nat) (f : Tile → Tile) : State :=
  s.modWg g (fun w => { w with tiles := w.tiles.modify t f })

/-- A work-group's weight slot that holds a physical slot. -/
def State.slotAt (s : State) (g phys : Nat) : Option WSlot :=
  (Map.find s.wgs g).bind (fun w => w.wslots.find? (fun x => x.phys == phys))

/-- The version counters of the slots that a work-group returns, those beyond the first `keep`, stay with the slots (R193). -/
def State.keepVersions (s : State) (g keep : Nat) : State :=
  match Map.find s.wgs g with
  | some w => s.modCore w.core (fun c => { c with
      versions := (w.wslots.drop keep).foldl (fun m x => Map.set m x.phys x.version) c.versions })
  | none => s

/-- The operations of a core's array, in issue order. -/
def State.ops (s : State) (core : Nat) : List MatOp := (s.core core).matq

/-- Changes the operation of a number. -/
def State.modOpAt (s : State) (core k : Nat) (f : MatOp → MatOp) : State :=
  s.modCore core (fun c => { c with matq := c.matq.map (fun op => if op.num == k then f op else op) })

/-- Takes the operation of a number away. -/
def State.dropOp (s : State) (core k : Nat) : State := s.modCore core (fun c => { c with matq := c.matq.filter (fun op => op.num != k) })

/-- Whether an operation is a quarter (R171). -/
def MatOp.isQuarter (op : MatOp) : Bool := decide (op.kind = .quarter)

/-- Whether an operation belongs to a work-group. -/
def MatOp.ofWg (g : Nat) (op : MatOp) : Bool := op.ref.wg == g

/-- Whether an operation acts on a tile of a work-group. -/
def MatOp.onTile (op : MatOp) (g t : Nat) : Bool := op.ref.wg == g && op.tile == t

/-- The quarters whose pass has not opened: they stand in the matrix queue and reference their slots (R172, R203). -/
def waiting (l : List MatOp) : List MatOp := l.filter (fun op => op.isQuarter && op.opened.isNone)

/-- Whether a B tile holds what an operation references. -/
def BTile.serves (b : BTile) (op : MatOp) : Bool := b.slot == op.slot && b.version == op.version

/-- Lines an operation still has to see present. -/
def MatOp.lines (op : MatOp) : List Nat := op.wanted.flatMap (fun (_, a, n, b, k) => linesOf a n ++ linesOf b k)

/-- Whether an operation has still to read bytes of a scratchpad range (R188). -/
def MatOp.wants (op : MatOp) (p n : Nat) : Bool := op.wanted.any (fun (_, a, k, b, j) => (p < a + k && a < p + n) || (p < b + j && b < p + n))

/-- Reads an operation's rows from the scratchpads, once every line of them is present (R173). -/
def State.collect (s : State) (op : MatOp) : MatOp :=
  { op with
    rows := op.rows ++ op.wanted.map (fun (r, a, n, b, k) => (r, Memory.read s.scratch a n, Memory.read s.scratch b k))
    wanted := [], ready := true }

/-- QUARTER_READY: the oldest operation whose rows can be read now becomes ready (R173). -/
def State.quarterReady (s : State) (core : Nat) : Option State :=
  ((s.ops core).find? (fun op => !op.ready && op.lines.all s.isPresent)).map (fun op => s.modOpAt core op.num s.collect)

/-- WEIGHT_SLOT_LOAD: the array loads, into its loading tile, the slot of the first quarter whose slot is neither the current tile nor
in the loading tile; the slot is read here (R160, R175, R200). -/
def State.weightLoad (s : State) (core : Nat) : Option State :=
  let c := s.core core
  match (waiting c.matq).find? (fun op => !(c.btile.any (·.serves op))) with
  | none => none
  | some op =>
    if c.ltile.any (·.serves op) then none
    else (s.slotAt op.ref.wg op.slot).map (fun x => s.modCore core (fun c => { c with ltile := some ⟨op.slot, op.version, x⟩ }))

/-- Whether a quarter joins the pass that another opened (R174). -/
def joins (first op : MatOp) : Bool :=
  op.slot == first.slot && op.version == first.version && op.ctl.toNat % 2 ^ 26 == first.ctl.toNat % 2 ^ 26 && op.asc == first.asc &&
    op.issued ≤ first.issued + 3

/-- The array takes a quarter into its pass: the quarter's place in it, the pass's first quarter, and its weights. -/
def State.takeQuarter (s : State) (core : Nat) (op first : MatOp) (n : Nat) (x : WSlot) : State :=
  (s.modOpAt core op.num (fun y => { y with opened := some x })).modCore core (fun c => { c with
    pass := some ({ first with opened := some x }, n) })

/-- PASS_OPEN: the next quarter of the queue joins the open pass, or, where it does not and is ready, opens one; at that boundary the
loading tile becomes the current one where the quarter needs it (R174, R175). -/
def State.passOpen (s : State) (core : Nat) : Option State :=
  let c := s.core core
  match (waiting c.matq).head? with
  | none => none
  | some op =>
    let fresh : Option State :=
      if !op.ready then none
      else if c.btile.any (·.serves op) then c.btile.map (fun b => s.takeQuarter core op op 1 b.weights)
      else match c.ltile.filter (·.serves op) with
        | some b => some ((s.modCore core (fun c => { c with btile := some b, ltile := none })).takeQuarter core op op 1 b.weights)
        | none => none
    match c.pass with
    | some (first, n) =>
      match first.opened with
      | some x => if n < 4 && joins first op then some (s.takeQuarter core op first (n + 1) x) else fresh
      | none => fresh
    | none => fresh

/-- Adds a quarter's rows to its tile (R167 to R169). -/
def State.commitOp (s : State) (op : MatOp) : State :=
  match op.opened with
  | none => s
  | some x =>
    op.rows.foldl (fun s (r, l, sc) =>
      let (new, lost, fl, ov, nn) := rowUpdate op x ((s.tileRows op.ref.wg op.tile).getD r []) l sc
      (s.modTile op.ref.wg op.tile (fun t =>
        { rows := t.rows.set r new, swamp := satAdd t.swamp lost, nans := satAdd t.nans nn, ovf := satAdd t.ovf ov })).raise
          op.ref fl) s

/-- QUARTER_COMMIT: the oldest quarter commits, once its rows have been read, its pass has opened and every earlier operation on its
tile has taken effect (R169, R172, R175, R176). -/
def State.quarterCommit (s : State) (core : Nat) : Option State :=
  match (s.ops core).find? MatOp.isQuarter with
  | none => none
  | some op =>
    let before := (s.ops core).takeWhile (fun y => y.num != op.num)
    if op.ready && op.opened.isSome && !(before.any (fun y => y.onTile op.ref.wg op.tile)) then some ((s.dropOp core op.num).commitOp op)
    else none

/-- The first operation of a list that is no quarter, satisfies a test and has no earlier operation on its tile (R176). -/
def firstFree (p : MatOp → Bool) (seen : List MatOp) : List MatOp → Option MatOp
  | [] => none
  | op :: rest =>
    if !op.isQuarter && !(seen.any (fun y => y.onTile op.ref.wg op.tile)) && p op then some op else firstFree p (op :: seen) rest

/-- Appends an operation to its core's array, in issue order. -/
def State.pushOp (s : State) (op : MatOp) : State :=
  s.modCore (s.coreOf op.ref.wg) (fun c => { c with matq := c.matq ++ [{ op with num := c.nextOp }], nextOp := c.nextOp + 1 })

/-- The number that the next operation of a work-group's core gets. -/
def State.opNumber (s : State) (g : Nat) : Nat := (s.core (s.coreOf g)).nextOp

/-- Whether quarters reference a physical slot of a core, by some bank or by any (R203). -/
def State.referenced (s : State) (core phys : Nat) (bank : Option Nat) : Bool :=
  (waiting (s.ops core)).any (fun op => op.slot == phys && (bank.map (fun b => op.bank == b)).getD true)

/-- Whether the operations that a wait is for are still there. -/
def State.arrayBusy (s : State) (r : FibRef) (w : MatWait) : Bool :=
  let l := s.ops (s.coreOf r.wg)
  match w with
  | .fibre => l.any (fun op => op.ref == r)
  | .group => l.any (MatOp.ofWg r.wg)
  | .queue k => 16 < (waiting l).length + k

/-- The claim of a work-group's waiting `MCFG` (R196). -/
def State.claimOf (s : State) (g : Nat) : Option PoolClaim := (s.core (s.coreOf g)).claims.find? (fun c => c.wg == g)

end Sys2Proof.Machine
end

