-- ==== Sys2Proof/Machine/Ops.lean ====
section
/-! DEFINITION. The named operations that every word is built from: slots and switches (R91 to R97), the ends of threads
and work-groups (R111, R387), the store queue (R235, R247, R394), taking a trap (R386 to R398), and the runner of a word
(R33, R37, R42). -/

namespace Sys2Proof.Machine

/-! ### Slots and switches (R94 to R96) -/

/-- The physical slot of a fibre: its core and slot. -/
def State.slotOf (s : State) (r : FibRef) : Nat × Nat :=
  match Map.find s.wgs r.wg, s.fib r with
  | some w, some f => (w.core, w.pslot f)
  | _, _ => (0, 0)

/-- Changes a physical slot. -/
def State.modSlot (s : State) (core k : Nat) (f : PSlot → PSlot) : State :=
  s.modCore core (fun c => { c with pslots := c.pslots.mapIdx (fun i x => if i == k then f x else x) })

/-- A physical slot. -/
def State.pslot (s : State) (core k : Nat) : PSlot := (s.core core).pslots.toList.getD k {}

/-- The ready fibres of a slot, each with the tick at which it became ready. -/
def State.readyIn (s : State) (core k : Nat) : List (Nat × FibRef) :=
  (s.slotFibres core k).filterMap (fun r =>
    match s.fib r with
    | some f =>
      match f.st with
      | .ready t => some (t, r)
      | _ => none
    | none => none)

/-- The fibre that has been ready longest (R95). The spec does not say which of several that are ready since the same tick comes
first; the model takes the first of the list (assumption 77). -/
def longestReady : List (Nat × FibRef) → Option FibRef
  | [] => none
  | x :: l => some (l.foldl (fun b y => if y.1 < b.1 then y else b) x).2

/-- Makes a switch of a fibre's slot due, if another fibre of the slot is ready (R94). -/
def State.yieldSlot (s : State) (r : FibRef) : State :=
  let (core, k) := s.slotOf r
  if (s.readyIn core k).any (fun e => e.2 != r) then s.modSlot core k (fun p => { p with due := true }) else s

/-- A switch point: the forced switch is due where another fibre has been ready for 2,048 ticks (R94, R96). -/
def State.switchPoint (s : State) (r : FibRef) : State :=
  let (core, k) := s.slotOf r
  if (s.readyIn core k).any (fun e => e.2 != r && e.1 + 2048 ≤ s.tick) then
    s.modSlot core k (fun p => { p with due := true })
  else s

/-- The threads of a fibre that run: the handler's in trap mode, every live one otherwise (R390). -/
def Fibre.running (f : Fibre) : Mask :=
  match f.trap with
  | some t => if t.waiting || t.stopped then 0 else f.live &&& t.lanes
  | none => f.live

/-- Threads that wait at a word. -/
def Fibre.blocked (f : Fibre) : Mask := f.waits.foldl (fun m w => m ||| w.lanes) 0

/-- Threads that can issue (R93). -/
def Fibre.free (f : Fibre) : Mask := f.running &&& ~~~f.blocked

/-- Whether a fibre can issue but for its delay and its slot. -/
def Fibre.canIssue (f : Fibre) : Bool := f.free != 0

/-- Whether a fibre is parked (R93): no path of it can issue, and a path of it waits at a word that parks. The spec does not say how
a fibre counts of which one path is parked and another merely stalls; the model takes it as parked (assumption 77). -/
def Fibre.isParked (f : Fibre) : Bool := f.free == 0 && f.waits.any (·.parks)

/-- Whether a fibre in trap mode issues nothing: its record waits for a place, or it is stopped for good (R389 to R391, R416). -/
def Fibre.stands (f : Fibre) : Bool := (f.trap.map (fun t => t.waiting || t.stopped)).getD false

/-- Clears a fibre's latches and takes it out of its slot's current place. -/
def State.leaveSlot (s : State) (r : FibRef) (st : FibState) : State :=
  let (core, k) := s.slotOf r
  let s := s.modFib r (fun f => { f.clearLatches with st := st })
  if (s.pslot core k).cur == some r then s.modSlot core k (fun p => { p with cur := none, due := false }) else s

/-! ### Loads in flight (R241) -/

/-- Writes the registers of a fibre's oldest load in flight; threads that have exited are not written (R111). -/
def State.loadDone (s : State) (r : FibRef) : State :=
  match s.fib r with
  | none => s
  | some f =>
    match f.loads with
    | [] => s
    | l :: rest =>
      let s := s.setFib r { f with loads := rest }
      (l.vals.foldl (fun (s, n) v => (s.writeReg r n (l.lanes &&& f.live) v, n + 1)) (s, l.d)).1

/-- Writes the registers of every load in flight. -/
def State.settleLoads (s : State) (r : FibRef) : State :=
  (List.range (((s.fib r).map (·.loads.length)).getD 0)).foldl (fun s _ => s.loadDone r) s

/-! ### The ends of threads and work-groups (R111, R225, R387) -/

/-- A fibre without pending operations and without threads. -/
def Fibre.ended (f : Fibre) : Fibre :=
  { f.clearLatches with live := 0, st := .exited, waits := [], loads := [], log := [], queue := [], trapQueue := []
                        trap := none, redo := none }

/-- Discards what some threads of a handler have logged and frozen (R392). -/
def Fibre.discard (f : Fibre) (m : Mask) : Fibre :=
  let keep (e : LogEntry) : LogEntry := { e with accs := e.accs.filter (fun (x : LaneAcc) => !(m.getLsbD x.lane)) }
  let gone (e : LogEntry) : Bool := e.accs.isEmpty && e.word.group &&& m != 0
  { f with
    log := (f.log.map (fun (k, e) => (k, keep e))).filter (fun e => !(gone e.2))
    queue := f.queue.filter (fun (e : StoreEntry) => !(e.frozen && m.getLsbD e.acc.lane)) }

/-- The store queue after trap mode (R392, R394, R411): the handler's stores, then the frozen ones in their order. -/
def Fibre.thaw (f : Fibre) : Fibre :=
  { f with queue := f.trapQueue ++ f.queue.map (fun (e : StoreEntry) => { e with frozen := false }), trapQueue := [] }

/-! ### Barrier phases (R103 to R105) -/

/-- A barrier; one that nothing has used yet collects its first phase. -/
def State.barrier (s : State) (k : BarKey) : Barrier := ((s.barriers.find? (fun e => e.1 == k)).map (·.2)).getD {}

/-- Replaces a barrier. -/
def State.setBarrier (s : State) (k : BarKey) (b : Barrier) : State :=
  { s with barriers := (k, b) :: s.barriers.filter (fun e => e.1 != k) }

/-- Threads of a fibre that have executed a barrier for its collecting phase. -/
def Barrier.arrivedOf (b : Barrier) (r : FibRef) : Mask :=
  (b.arrived.filter (fun e => e.1 == r)).foldl (fun m e => m ||| e.2) 0

/-- The scope of a barrier's release and acquire (R103). -/
def barrierScope : BarKey → Scope
  | .fib _ _ _ => .core
  | .wgp _ _ => .core
  | .clus _ _ _ => .clus
  | .grid _ => .pkg

/-- A fibre arrives at a phase: its release event, and the vector it gives (R104, R275, R276). -/
def State.arriveAt (s : State) (b : Barrier) (r : FibRef) : Barrier × State :=
  let (clock, s) := s.releaseEvent r
  ({ b with vecs := b.vecs.filter (fun e => e.1 != r) ++ [(r, s.vecAt r clock)] }, s)

/-- A fibre's arrival at a phase: its release at the barrier's scope comes first (R105, R253). -/
def State.arrive (s : State) (k : BarKey) (b : Barrier) (r : FibRef) : State :=
  let s := s.cacheRelease (s.agent r.wg) (barrierScope k)
  let (b, s) := s.arriveAt b r
  s.setBarrier k b

/-- Ends threads of a fibre: they count as exited for barriers, `.conv` words and renaming. In trap mode what they have
logged and frozen is discarded, and the last thread of a handler ends trap mode (R392). Names are tested for release at the end of
the word that ends them (R89). -/
def State.exitLanes (s : State) (r : FibRef) (m : Mask) : State :=
  match s.fib r with
  | none => s
  | some f =>
    let live := f.live &&& ~~~m
    let cut (l : List Wait) : List Wait :=
      (l.map (fun (w : Wait) => { w with lanes := w.lanes &&& live })).filter (fun w => w.lanes != 0)
    let f := { f with live := live, waits := cut f.waits }
    let f := match f.trap with
      | some t =>
        let f := f.discard (m &&& t.lanes)
        if live &&& t.lanes == 0 then { f.clearLatches.thaw with trap := none, waits := cut t.waits } else f
      | none => f
    let s := s.setFib r f
    if live == 0 then
      let s := s.leaveSlot r .exited
      s.modFib r (fun f => { f with waits := [], trap := none })
    else s

/-- Takes the armed receive slots of a work-group out of a network engine's rings (R316). -/
def disarmNet (n : Net) (g : Nat) : Net :=
  let cut (r : RxRing) : RxRing := { r with armed := r.armed.filter (fun (a : ArmedSlot) => a.wg != g) }
  { n with rings := n.rings.map (fun (k, r) => (k, cut r)) }

/-- The same for a die. -/
def Die.disarm (x : Die) (g : Nat) : Die := { x with net := disarmNet x.net g }

/-- Abandons the cards that a work-group kicked (R387). -/
def Core.abandon (c : Core) (g : Nat) : Core := { c with cards := c.cards.filter (fun (x : Card) => x.kick.ref.wg != g) }

/-- Kills a work-group (R231, R387): its pending operations are discarded and its threads end. -/
def State.killOne (s : State) (code g : Nat) : State :=
  match Map.find s.wgs g with
  | none => s
  | some w =>
    if w.killed.isSome then s
    else
      let s := w.fibres.foldl (fun s (k, _) => s.leaveSlot ⟨g, k⟩ .exited) (s.keepVersions g 0)
      let s := s.modWg g (fun w => { w with
        fibres := w.fibres.map (fun (k, f) => (k, f.ended)), killed := some code, saves := [], saveDone := [], tiles := [], wslots := [], tcb := 0 })
      let s := { s with dies := s.dies.map (fun (d, x) => (d, Die.disarm x g)), cores := s.cores.map (fun (k, c) => (k, Core.abandon c g)) }
      s.modCore w.core (fun c => { c with
        matq := c.matq.filter (fun op => !(op.ofWg g)), claims := c.claims.filter (fun x => x.wg != g)
        watches := c.watches.filter (fun e => e.2.ref.wg != g) })

/-- The work-groups that a kill of one extends to (R387): its launch cluster, or the whole of a co-resident launch. -/
def State.killExtent (s : State) (g : Nat) : List Nat :=
  match Map.find s.wgs g with
  | none => []
  | some w =>
    let l := s.launch w.launch
    if l.coresident then (s.wgs.filter (fun (_, x) => x.launch == w.launch)).map (·.1)
    else if l.cluster != 1 then (s.wgs.filter (fun (_, x) => x.launch == w.launch && x.cluster == w.cluster)).map (·.1)
    else [g]

/-- The bytes of an exit record (R344): how the work-group ended, its number, exit mask, core, launch, attempts and stall counters. -/
def State.exitBytes (s : State) (code num : Nat) (mask : Mask) (core seq attempt : Nat) (stalls : List Nat) : List Byte :=
  leBytes 4 (3 + code * 2 ^ 8) ++ leBytes 4 num ++ leBytes 8 s.tick ++ s.ptpStamp ++ leBytes 4 mask.toNat ++
    leBytes 4 (dieOf core + clusterOf core % 20 * 8 + core % 8 * 2 ^ 8) ++ leBytes 4 seq ++ leBytes 4 (attempt % 8) ++
    List.replicate 16 0 ++ stalls.flatMap (leBytes 4)

/-- Writes an exit record of a launch's cluster: that of a deterministic launch waits until the cluster retires (R341, R344). -/
def State.putExit (s : State) (id q : Nat) (rcd : List Byte) : State :=
  if (s.launch id).determ then
    s.modLaunch id (fun l => { l with held := Map.set l.held q (Map.getD l.held q [] ++ [rcd]) })
  else s.ringAppend (s.launch id).ctx 1 rcd

/-- The exit record of a saved work-group that is killed (R344). -/
def State.exitSaved (s : State) (code : Nat) (x : SavedWg) : State :=
  s.putExit x.launch x.cluster (s.exitBytes code x.num x.exit x.core (s.launch x.launch).seq x.attempt x.stalls)

/-- The saved work-groups of an extent that is killed (R387, R401): they are relaunched with it, or they have ended. `forced`
is 1 for a forced reset. -/
def State.killSaved (s : State) (g code forced : Nat) : State :=
  match Map.find s.wgs g with
  | none => s
  | some w =>
    let l := s.launch w.launch
    let hit (x : SavedWg) : Bool := x.launch == w.launch && (l.coresident || (l.cluster != 1 && x.cluster == w.cluster))
    let gone := (s.ctx l.ctx).saved.filter hit
    let again := gone.map (fun (x : SavedWg) => (⟨x.launch, x.num, x.cluster, x.pos, x.attempt + 1, x.forced + forced⟩ : AgainWg))
    let s := s.modCtx l.ctx (fun c => { c with
      saved := c.saved.filter (fun x => !(hit x)), again := if code == 1 then c.again ++ again else c.again })
    let s := gone.foldl (fun s x => s.exitSaved code x) s
    if code == 1 then s
    else gone.foldl (fun s (x : SavedWg) => s.modLaunch w.launch (fun l => { l with
      ended := Map.set l.ended x.cluster (Map.getD l.ended x.cluster 0 + 1), spwgs := l.spwgs + bit01 (x.exit != 0)
      status := if l.status == 0 then 7 else l.status })) s

/-- Kills a work-group and everything its kill extends to. -/
def State.killWg (s : State) (g code : Nat) : State :=
  (s.killExtent g).foldl (fun s x => s.killOne code x) (s.killSaved g code 0)

/-! ### Energy (R407) -/

/-- Charges an issued word to its context's energy (R407), in pJ. -/
def State.charge (s : State) (c pj : Nat) : State :=
  let most := (2 ^ 48 - 1) * 1000000
  s.modCtx c (fun x => { x with energy := min (x.energy + pj) most, esat := x.esat || decide (most < x.energy + pj) })

/-- Charges the lines that accesses move to their context (R407), each once: at the scratchpad, at the L1, or at the L2 or
HBM, whichever a free value says (assumption 11). -/
def State.chargeLines (s : State) (a : Agent) (l : List (Nat × Nat)) : State :=
  ((l.flatMap (fun (va, n) => (linePieces va n).map (fun p => p.1 / 128))).eraseDups).foldl (fun s k =>
    if inAperture (128 * k) then s.charge a.ctx 40
    else if (s.l1Find a.core a.asid a.gen k).isSome then s.charge a.ctx 60
    else
      let (n, s) := s.draw
      s.charge a.ctx (if Config.freeBit n then 250 else 1800)) s

/-! ### The store queue (R235, R246, R247) -/

/-- The queue a fibre's stores enter: the second one once the handler runs (R394). -/
def Fibre.curQueue (f : Fibre) : List StoreEntry := if f.handler.isSome then f.trapQueue else f.queue

/-- Replaces that queue. -/
def Fibre.setQueue (f : Fibre) (q : List StoreEntry) : Fibre :=
  if f.handler.isSome then { f with trapQueue := q } else { f with queue := q }

/-- The place of an address that all names of one byte share: scratchpad bytes by their scratchpad address, global ones by where they are
stored (R209, R217, R245). -/
def State.place (s : State) (g va : Nat) : Nat :=
  let a := s.agent g
  let here (p : Perm) : Option Nat :=
    match (s.translate (clusterOf a.core) a.ctx va p).1 with
    | .ok t => some ((storedAt t.home (t.pa va)).headD 0)
    | .error _ => none
  if inAperture va then
    match s.aperture g (va - Config.aperture) 1 with
    | some x => 2 ^ 70 + x
    | none => 2 ^ 72 + va
  else ((here .read).orElse (fun _ => here .write)).getD (2 ^ 72 + va)

/-- The places of the bytes of an access. -/
def State.placesOf (s : State) (g va n : Nat) : List Nat :=
  (linePieces va n).flatMap (fun e => let p := s.place g e.1; (List.range e.2).map (· + p))

/-- Bytes of an access as the fibre's queue holds them, over the bytes given (R246). -/
def State.forward (s : State) (r : FibRef) (va : Nat) (l : List Byte) : List Byte :=
  match s.fib r with
  | none => l
  | some f =>
    if f.curQueue.isEmpty then l
    else
      let mine := s.placesOf r.wg va l.length
      f.curQueue.foldl (fun l e =>
        let other := s.placesOf r.wg e.acc.addr.toNat e.acc.bytes.length
        l.mapIdx (fun i b =>
          match other.findIdx? (fun p => some p == mine[i]?) with
          | some j => e.acc.bytes.getD j b
          | none => b)) l

/-- Whether a queue holds an atomic. -/
def Fibre.queueHasAtomic (f : Fibre) : Bool :=
  f.curQueue.any (fun e => match e.kind with | .atomic _ _ => true | _ => false)

/-- What an atomic stores (R265): `v` is B, `new` the new value of a `.cas`; numbers are of `w` bits. -/
def atomResult (op : AtomOp) (w old v new : Nat) : Nat :=
  match op with
  | .add => (old + v) % 2 ^ w
  | .minS => if sext old w ≤ sext v w then old else v
  | .minZ => min old v
  | .maxS => if sext old w ≤ sext v w then v else old
  | .maxZ => max old v
  | .and => old &&& v
  | .or => old ||| v
  | .xor => old ^^^ v
  | .exch => v
  | .cas => if old == v then new else old
  | .fadd => (addVal .f32 .rne false (f32 (BitVec.ofNat 32 old)) (f32 (BitVec.ofNat 32 v))).code

/-- The answer of the host to an atomic (R266): it refuses where a free value says so, and then the context faults, with the completion
status in the record (assumption 86). -/
def State.hostAnswer (s : State) (a : Agent) (p : Nat) : Bool × State :=
  let (n, s) := s.draw
  if Config.freeBit n then
    let (k, s) := s.draw
    (false, (s.hostEvent 0x4F a.ctx (dieOf a.core) (p % 2 ^ 50) (if Config.freeBit k then 1 else 4)).oweFault a.ctx 0x4F)
  else (true, s)

/-- Performs one atomic at the owner of its address (R265): the old value, which is free where the host refuses. The access has been
probed. -/
def State.atomAt (s : State) (a : Agent) (g va : Nat) (op : AtomOp) (x2 : Bool) (v new : Nat) : Nat × State :=
  let n := if x2 then 8 else 4
  if inAperture va then
    match s.aperture g (va - Config.aperture) n with
    | some p =>
      let old := Memory.num s.scratch p n
      (old, s.scratchWrite p (leBytes n (atomResult op (8 * n) old v new)))
    | none => (0, s)
  else
    match s.translate (clusterOf a.core) a.ctx va .rmw with
    | (.error _, s) => (0, s)
    | (.ok t, s) =>
      let blank := newLine t a.asid a.gen va (dieOf a.core)
      let s := s.flushL1 a.core (fun x => x.synonym blank)
      let s := (s.gather (clusterOf a.core) t a.launch).countForward (clusterOf a.core) t (t.pa va)
      let p := blank.copies.headD 0 + va % 128
      let (yes, s) := if paRegion (t.pa va) == 3 then s.hostAnswer a p else (true, s)
      if yes then
        let s := (s.applyOwn a.core p n).meetPoison a.ctx (dieOf a.core) p
        let old := s.physNum p n
        let s := s.ownerWrite a.core blank.copies blank.page (va % 128) (leBytes n (atomResult op (8 * n) old v new))
        (old, if t.atomic then s.dropCopies (some a.core) (blank.copies.headD 0) else s)
      else
        let (k, s) := s.draw
        let (j, s) := s.draw
        (((Config.freeWord k).toNat + 2 ^ 32 * (Config.freeWord j).toNat) % 2 ^ (8 * n), s)

/-- Writes some bytes where an address leads: the scratchpad or global memory. -/
def State.storeAt (s : State) (a : Agent) (g : Nat) (byp : Bool) (va : Nat) (l : List Byte) : State :=
  if inAperture va then
    match s.aperture g (va - Config.aperture) l.length with
    | some p => s.scratchWrite p l
    | none => s
  else s.writeGlobal a byp va l

/-- The memory-fault facts of an issued word: the trap it takes when lane `lane` fails at `addr` (R226, R386, R397). -/
def WordRef.trap (w : WordRef) (cause sub lane addr : Nat) (race : List Word) : TrapInfo where
  cause := cause
  sub := sub
  lane := lane
  mask := w.mask
  pc := w.pc
  addr := BitVec.ofNat 64 addr
  aux := 0
  w34 := 0
  word := w.bits
  after := true
  resume := w.pc + 12
  govern := if w.gov.left == 0 then 0 else w.gov.n
  swp := w.gov.pc
  retired := w.gov.n - w.gov.left
  kill := false
  group := w.group
  race := race

/-- Where the threads of a group go on after a word that has issued: the first word of their path that has not (R397). -/
def Fibre.resumeOf (f : Fibre) (group : Mask) (old : Nat) : Nat :=
  match lowest (group &&& f.live) with
  | some i => f.pcs.toList.getD i 0
  | none => old

/-- Marks a place of the operand log faulted (R393). -/
def Fibre.markLog (f : Fibre) (k sub : Nat) (raced : Bool) : Fibre :=
  { f with log := Map.modify f.log k (fun e => { e with faulted := some sub, raced := e.raced || raced, probed := false }) }

/-- The lowest lane of a word that fails, with the subcode and the byte (R226): for a word whose global accesses must be aligned, one that
is not (R264), or one whose translation fails. -/
def State.probeAll (s : State) (a : Agent) (p : Perm) (aligned : Bool) (n : Nat) (accs : List LaneAcc) :
    Option (Nat × Nat × Nat) × State :=
  accs.foldl (fun (bad, s) x =>
    match bad with
    | some b => (some b, s)
    | none =>
      if inAperture x.addr.toNat then (none, s)
      else if aligned && x.addr.toNat % n != 0 then (some (5, x.lane, x.addr.toNat), s)
      else match s.probe a p x.addr.toNat n with
        | (some (sub, byte), s) => (some (sub, x.lane, byte), s)
        | (none, s) => (none, s)) (none, s)

/-- The race verdict of one access, over the lines it touches: the first race, or whether some line had no full check. -/
def State.checkAccess (s : State) (r : FibRef) (a : Agent) (va n : Nat) (atomic : Bool) : Verdict :=
  (s.checkedPieces r a va n).foldl (fun v e =>
    match v with
    | .race m k => .race m k
    | _ =>
      match s.check r e.1 (wordsOf e.1.byte e.2) atomic with
      | .clean => v
      | x => x) .clean

/-- Updates the records of the lines a committed access writes (R282). -/
def State.commitAccess (s : State) (r : FibRef) (a : Agent) (va n : Nat) (atomic : Bool) (rel : Option Scope) (clock : Nat) :
    State :=
  (s.checkedPieces r a va n).foldl (fun s e => s.commitMeta r e.1 (wordsOf e.1.byte e.2) atomic rel clock) s

/-- Whether some byte of an access is checked (R272). -/
def State.isChecked (s : State) (r : FibRef) (a : Agent) (va n : Nat) : Bool := !(s.checkedPieces r a va n).isEmpty

/-- The size code of an access (R41). -/
def sizeCode (n : Nat) : Nat := if n == 1 then 0 else if n == 2 then 1 else if n == 4 then 2 else if n == 8 then 3 else 4

/-- Whether a work-group reports races instead of trapping (R290). -/
def State.reports (s : State) (g : Nat) : Bool := ((Map.find s.wgs g).map (·.report)).getD false

/-- The bytes of a store that reach memory together (R244): an aligned access of up to 8 bytes, each half of an aligned one of 16, and
single bytes of a misaligned one. -/
def StoreEntry.share (e : StoreEntry) : Nat :=
  let n := e.acc.bytes.length
  if e.begun then (if n == 8 && e.acc.addr.toNat % 8 == 0 then 8 else 1)
  else if e.acc.addr.toNat % n != 0 then 1 else min n 8

/-- What a store that has been checked writes next: the state, and the bytes of it that are left (R244). -/
def State.storeNext (s : State) (a : Agent) (g : Nat) (e : StoreEntry) : State × List Byte :=
  let va := e.acc.addr.toNat
  match e.kind with
  | .atomic op x2 => ((s.atomAt a g va op x2 (leNat e.acc.bytes) e.swap).2, [])
  | _ => (s.storeAt a g (decide (e.kind = .byp)) va (e.acc.bytes.take e.share), e.acc.bytes.drop e.share)

/-- An entry whose bytes have left in part stays at the head of its queue with the others; one that has left gives its place of the
operand log back with the last entry of its word. -/
def Fibre.afterStore (f : Fibre) (e : StoreEntry) (left : List Byte) (reported : Bool) : Fibre :=
  let note (x : StoreEntry) : StoreEntry := if x.word.num == e.word.num then { x with reported := x.reported || reported } else x
  let rest := (f.curQueue.drop 1).map note
  match left with
  | [] =>
    let f := f.setQueue rest
    match e.log with
    | some k =>
      if rest.any (fun x => x.word.num == e.word.num) then { f with log := Map.modify f.log k (fun x => { x with probed := true }) }
      else { f with log := Map.del f.log k }
    | none => f
  | _ :: _ =>
    f.setQueue ({ e with
      acc := ⟨e.acc.lane, e.acc.addr + BitVec.ofNat 64 e.share, left⟩, begun := true, reported := e.reported || reported } :: rest)

/-- The race check of the store at the head of a queue: what it answers, unless its word is not to be checked, or has been (R288,
R289). -/
def State.storeVerdict (s : State) (r : FibRef) (a : Agent) (e : StoreEntry) : Verdict :=
  if e.verified then .clean
  else if e.unchecked then (if s.isChecked r a e.acc.addr.toNat e.acc.bytes.length then .partly else .clean)
  else s.checkAccess r a e.acc.addr.toNat e.acc.bytes.length (match e.kind with | .atomic _ _ => true | _ => false)

/-- Lets the head of a fibre's queue leave it (R235, R244, R249, R288): nothing where the queue is empty or frozen; a fault
where the word's translation or race check fails, which freezes the queue. -/
def State.drainOne (s : State) (r : FibRef) : Option (State × Option TrapInfo) :=
  match s.fib r with
  | none => none
  | some f =>
    match f.curQueue with
    | [] => none
    | e :: _ =>
      if e.frozen then none
      else
        let a := s.agent r.wg
        let va := e.acc.addr.toNat
        let n := e.acc.bytes.length
        if e.begun then
          let (s1, left) := s.storeNext a r.wg e
          some (s1.modFib r (fun f => f.afterStore e left false), none)
        else
          let rmw := match e.kind with | .atomic _ _ => true | _ => false
          let log := e.log.bind (fun k => (Map.find f.log k).map (fun x => (k, x)))
          let (bad, s1) := match log with
            | some (_, x) =>
              if x.probed then (none, s) else s.probeAll a (if rmw then .rmw else .write) (rmw || e.release.isSome) x.size x.accs
            | none => (none, s)
          let freeze (f : Fibre) : Fibre := f.setQueue (f.curQueue.map (fun e => { e with frozen := true }))
          match bad with
          | some (sub, lane, byte) =>
            let s1 := s1.modFib r (fun f => freeze (match log with | some (k, _) => f.markLog k sub false | none => f))
            some (s1, some (e.word.trap 0x08 sub lane byte []))
          | none =>
            let kind := if rmw then 2 else 1
            match s1.storeVerdict r a e, s1.reports r.wg with
            | .race m words, false =>
              let rcd := s1.raceRecord r m e.acc.lane e.word.pc va kind (sizeCode n) words false
              let again (f : Fibre) : Fibre := f.setQueue (f.curQueue.map (fun (x : StoreEntry) =>
                if x.word.num == e.word.num then { x with unchecked := true } else x))
              let s1 := s1.modFib r (fun f => again (freeze (match log with | some (k, _) => f.markLog k 0 true | none => f)))
              some (s1, some (e.word.trap 0x18 0 e.acc.lane va rcd))
            | v, _ =>
              let s1 := match v with
                | .race m words =>
                  if e.reported then s1 else s1.reportRace r (s1.raceRecord r m e.acc.lane e.word.pc va kind (sizeCode n) words true)
                | .partly => s1.addUnchecked r 1
                | .clean => s1
              let clock := if e.release.isSome then e.clock else f.clock
              let s1 := (s1.chargeLines a [(va, n)]).commitAccess r a va n rmw e.release clock
              let (s1, left) := s1.storeNext a r.wg e
              some (s1.modFib r (fun f => f.afterStore e left (match v with | .race _ _ => true | _ => false)), none)

/-- Lets entries leave a fibre's queue until at most `keep` are left, or one faults. -/
def State.drainTo (r : FibRef) (keep : Nat) : Nat → State → State × Option TrapInfo
  | 0, s => (s, none)
  | k + 1, s =>
    if (((s.fib r).map (·.curQueue.length)).getD 0) ≤ keep then (s, none)
    else match s.drainOne r with
      | none => (s, none)
      | some (s, some t) => (s, some t)
      | some (s, none) => State.drainTo r keep k s

/-- Lets the whole queue leave, up to a faulted entry. -/
def State.drain (s : State) (r : FibRef) : State × Option TrapInfo :=
  State.drainTo r 0 (16 * ((s.fib r).map (·.curQueue.length)).getD 0 + 1) s

/-- Lets the entries of a fibre's queue leave that do not fault. -/
def State.drainGood (r : FibRef) : Nat → State → State
  | 0, s => s
  | k + 1, s =>
    match s.drainOne r with
    | some (s, none) => State.drainGood r k s
    | _ => s

/-- The arrivals that the end of threads completes (R104, R105): where every thread that a fibre has left has executed a barrier, the
fibre arrives at it, and what it has stored is released. -/
def State.arriveRest (s : State) (r : FibRef) : State :=
  match s.fib r with
  | none => s
  | some f =>
    let due (b : Barrier) : Bool := b.arrivedOf r != 0 && f.live &&& ~~~(b.arrivedOf r) == 0 && !(b.vecs.any (fun e => e.1 == r))
    if f.live == 0 || !(s.barriers.any (fun e => due e.2)) then s
    else
      let s := State.drainGood r (16 * f.curQueue.length + 1) s
      (s.barriers.filter (fun e => due e.2)).foldl (fun s e => s.arrive e.1 e.2 r) s

/-- Whether a fibre's queue is empty. -/
def State.queueEmpty (s : State) (r : FibRef) : Bool := ((s.fib r).map (fun f => f.curQueue.isEmpty)).getD true

/-! ### Taking a trap (R389 to R398) -/

/-- The masks of held and of faulted places of a fibre's operand log, as record word 0x34 gives them (R397). -/
def Fibre.logMasks (f : Fibre) : Nat :=
  f.log.foldl (fun m (k, e) => m ||| 2 ^ (8 + k) ||| (if e.faulted.isSome then 2 ^ k else 0)) 0

/-- Record word 0x00 (R397). -/
def trapWord0 (t : TrapInfo) (double handled : Bool) : Nat :=
  t.cause + t.sub * 2 ^ 8 + t.lane * 2 ^ 16 + bit01 double * 2 ^ 21 + bit01 handled * 2 ^ 22 +
    bit01 (t.govern != 0) * 2 ^ 23 + t.retired * 2 ^ 24 + t.govern * 2 ^ 26

/-- Record pc (R396, R397). -/
def trapPc (t : TrapInfo) : Nat := if t.govern != 0 then t.swp else t.pc

/-- The 16 words of a trap or race record (R291, R397). -/
def State.trapWords (s : State) (r : FibRef) (t : TrapInfo) (double handled : Bool) : List Word :=
  let n (v : Nat) : Word := BitVec.ofNat 32 v
  let core := s.coreOf r.wg
  let seq := (s.core core).seq
  if t.race.isEmpty then
    [n (trapWord0 t double handled), n seq, n s.tick, n (s.tick / 2 ^ 32), n (trapPc t), n (trapPc t / 2 ^ 32),
     t.addr.setWidth 32, n (t.addr.toNat / 2 ^ 32), n (s.identity r + s.ctxOf r.wg * 2 ^ 16),
     n (((Map.find s.wgs r.wg).map (·.num)).getD 0), t.mask, n (bit01 t.after), t.aux, t.w34, n t.resume, n (t.resume / 2 ^ 32)]
  else t.race.mapIdx (fun i w => if i == 1 then n seq else if i == 2 then n s.tick else if i == 3 then n (s.tick / 2 ^ 32) else w)

/-- The h registers at handler entry (R390, R408); `at_` is where the record stands. -/
def handlerRegs (t : TrapInfo) (ws : List Word) (place : Nat) : Vector LaneVec 16 :=
  let w (i : Nat) : LaneVec := splat (ws.getD i 0)
  let n (v : Nat) : LaneVec := splat (BitVec.ofNat 32 v)
  let race := !t.race.isEmpty
  let old := t.cause == 0x28
  #v[n place, n (place / 2 ^ 32), if old then n (t.cause + t.lane * 2 ^ 16) else w 0, splat t.mask, w 4, w 5, w 6, w 7, w 12,
     if old then splat 0 else w 13,
     splat (t.word.setWidth 32), splat ((t.word >>> 32).setWidth 32), splat ((t.word >>> 64).setWidth 32),
     if race then n t.resume else w 14, if race then n (t.resume / 2 ^ 32) else w 15, splat 0]

/-- The handler a trap runs: the KD's trap vector, or the emulation routine for legacy behaviour; 0 for none (R389). -/
def State.handlerOf (s : State) (r : FibRef) (cause : Nat) : Nat :=
  if cause == 0x28 then (s.ctx (s.ctxOf r.wg)).emul else (s.launchOf r.wg).trapVec

/-- What follows a trap that no handler takes (R386, R416): the work-group is killed, or the context faults; a breakpoint
leaves a trace record and a stopped fibre. -/
def State.unhandled (s : State) (r : FibRef) (t : TrapInfo) : State :=
  let s := s.modFib r (fun f => { f with trap := f.trap.map (fun x => { x with stopped := true }) })
  if t.cause == 0x21 then
    s.traceAppend (dieOf (s.coreOf r.wg)) (traceRecord 3 (s.ctxOf r.wg) (s.identity r) t.mask.toNat s.tick t.pc t.aux.toNat 0)
  else if t.cause == 2 || (t.cause == 0x20 && t.kill) then s.killWg r.wg 2 else s.oweFault (s.ctxOf r.wg) t.cause

/-- Whether the next record of a trap finds its place (R389): its context's trap ring where a handler takes it, the host
ring otherwise. -/
def State.trapRoom (s : State) (r : FibRef) (cause : Nat) : Bool :=
  if s.handlerOf r cause != 0 then cause == 0x28 || !(s.hasRing (s.ctxOf r.wg) 0) || s.ringRoom (s.ctxOf r.wg) 0
  else s.hostBase == 0 || s.hostRoom

/-- Steps 4 and 5 of trap entry (R389): the record is written and the handler entered, or, with no handler, what R386
gives follows. -/
def State.enterHandler (s : State) (r : FibRef) (t : TrapInfo) : State :=
  let c := s.ctxOf r.wg
  let h := s.handlerOf r t.cause
  if h != 0 then
    let ws := s.trapWords r t false true
    let place := if t.cause != 0x28 && s.hasRing c 0 then s.ringPlace c 0 else 0
    let s := if t.cause == 0x28 then s else (s.ringAppend c 0 (recordBytes ws)).bumpSeq (s.coreOf r.wg)
    s.modFib r (fun f => { f with
      trap := f.trap.map (fun x => { x with waiting := false, info := t, hregs := handlerRegs t ws place })
      pcs := f.pcs.mapIdx (fun i p => if (f.trap.map (fun (x : TrapFrame) => x.lanes.getLsbD i)).getD false then h else p) })
  else
    let s := (s.hostAppend (recordBytes (s.trapWords r t false false))).bumpSeq (s.coreOf r.wg)
    let s := s.modFib r (fun f => { f with trap := f.trap.map (fun x => { x with waiting := false, info := t }) })
    s.unhandled r t

/-- A trap in trap mode (R391): its record goes to the host ring, the fibre stops, and the context faults. -/
def State.doubleTrap (s : State) (r : FibRef) (t : TrapInfo) : State :=
  let s := (s.hostAppend (recordBytes (s.trapWords r t true false))).bumpSeq (s.coreOf r.wg)
  (s.modFib r (fun f => { f with trap := f.trap.map (fun x => { x with stopped := true }) })).oweFault (s.ctxOf r.wg) t.cause

/-- Whether a fibre's matrix operations have all committed. -/
def State.arrayDone (s : State) (r : FibRef) : Bool :=
  !(s.arrayBusy r .fibre)

/-- Steps 2 to 5 of trap entry (R389, R391, R393): when the matrix operations of the fibre are complete, its store queue drains up
to its first faulted entry. That entry's word is older than the trapping one, so the trap is its own, and the other word issues again
(assumption 79). Then the record is written and the handler entered, once the record has a place. -/
def State.proceedTrap (s : State) (r : FibRef) : State :=
  match (s.fib r).bind (·.trap) with
  | none => s
  | some x =>
    if !x.waiting || !(s.arrayDone r) then s
    else
      let (s, older) := s.drain r
      let t := older.getD x.info
      match s.fib r with
      | none => s
      | some f =>
        let t := if t.race.isEmpty then
            { t with w34 := t.w34 ||| BitVec.ofNat 32 f.logMasks } else t
        let t := if t.after then { t with resume := f.resumeOf t.group t.resume } else t
        let lanes := t.group &&& f.live
        let s := s.setFib r { f with
          trap := some { x with info := t, lanes := lanes }
          gov := x.gov.mapIdx (fun i g => if lanes.getLsbD i then { g with left := 0 } else g)
          redo := if older.isSome then f.redo else none }
        if s.trapRoom r t.cause then s.enterHandler r t else s

/-- Whether trap entry can go on: the fibre's matrix operations are complete, and a store can leave or the record has a place. -/
def State.trapGoes (s : State) (r : FibRef) (f : Fibre) : Bool :=
  match f.trap with
  | some x => x.waiting && s.arrayDone r && ((f.queue.head?.map (fun e => !e.frozen)).getD false || s.trapRoom r x.info.cause)
  | none => false

/-- TAKING A TRAP (R389): the one way any trap is entered. `t` is what the trapping word knows; the handler runs on the threads of its
issue group. Loads complete and the fibre is in trap mode; `proceedTrap` does the rest. -/
def State.takeTrap (s : State) (r : FibRef) (t : TrapInfo) : State :=
  match s.fib r with
  | none => s
  | some f =>
    if f.trap.isSome then s.doubleTrap r t
    else
      let s := s.settleLoads r
      let f := (s.fib r).getD f
      let frame : TrapFrame := { info := t, lanes := t.group &&& f.live, hregs := Vector.replicate 16 (splat 0), back := f.pcs, gov := f.gov
                                 waits := f.waits, waiting := true, stopped := false }
      (s.setFib r { f.clearLatches with trap := some frame, waits := [] }).proceedTrap r

/-! ### Running a word (R33 to R37, R42) -/

/-- The word being issued and its active threads (R33). -/
structure Act where
  ref : FibRef
  lanes : Mask
  group : Mask
  pc : Nat
  bits : BitVec 96
  gov : Gov
deriving Inhabited, DecidableEq, Repr

/-- What the body of a word answers: it is done; some threads of its
group wait at the word; it traps with no effect; it has issued and an
access of it is held faulted; the same, and `RTT` performs the word again; or an older access of the fibre faults first, and the word
has not issued. -/
inductive Out where
  | done (s : State)
  | hold (s : State) (m : Mask) (cond : WaitCond) (parks : Bool)
  | bad (t : TrapInfo)
  | logged (s : State) (t : TrapInfo)
  | redo (s : State) (t : TrapInfo)
  | older (s : State) (t : TrapInfo)

/-- The governance a word issues under (R97). Threads of one path may hold different governance, after a guarded `SWP`, and the spec
does not say which the word then has; the model takes that of the lowest thread of the group (assumption 77). -/
def Fibre.govOf (f : Fibre) (group : Mask) : Gov :=
  match lowest group with
  | some i => f.gov.toList.getD i ⟨0, 0, 0⟩
  | none => ⟨0, 0, 0⟩

/-- A precise trap of the word (R42, R43, R386): it resumes at the word. -/
def Act.trap (a : Act) (cause sub lane addr aux : Nat) : TrapInfo where
  cause := cause
  sub := sub
  lane := lane
  mask := a.lanes
  pc := a.pc
  addr := BitVec.ofNat 64 addr
  aux := BitVec.ofNat 32 aux
  w34 := 0
  word := a.bits
  after := false
  resume := a.pc
  govern := 0
  swp := 0
  retired := 0
  kill := false
  group := a.group
  race := []

/-- The lowest active thread. -/
def Act.low (a : Act) : Nat := (lowest a.lanes).getD 0

/-- An illegal instruction with a subcode (R42). -/
def Act.illegal (a : Act) (sub : Nat) : TrapInfo := a.trap 1 sub ((lowest a.lanes).getD ((lowest a.group).getD 0)) 0 0

/-- An illegal operand with a detail, in a lane (R388). -/
def Act.operand (a : Act) (lane detail : Nat) : TrapInfo := a.trap 2 0 lane 0 detail

/-- A nondeterministic instruction (R43). -/
def Act.nondet (a : Act) : TrapInfo := a.trap 3 0 a.low 0 0

/-- The governance of a trap that the runner adds (R396). -/
def underGov (t : TrapInfo) (g : Gov) : TrapInfo :=
  if g.left == 0 then t else { t with govern := g.n, swp := g.pc, retired := g.n - g.left }

/-- The issue of a word by a group: its threads pass the word, governance counts it, and the other paths age (R33, R92,
R97). -/
def Fibre.issue (f : Fibre) (group : Mask) (pc : Nat) (ends : Bool) : Fibre :=
  { f with
    pcs := f.pcs.mapIdx (fun i p => if group.getLsbD i then (pc + 12) % 2 ^ 64 else p)
    gov := f.gov.mapIdx (fun i g => if group.getLsbD i then { g with left := if ends then 0 else g.left - 1 } else g)
    ages := f.ages.mapIdx (fun i a => if group.getLsbD i then 0 else a + 1)
    issued := f.issued + 1, stalled := 0 }

/-- An issue opportunity of which a trap makes nothing (R92): the group's path has had its turn, and the other paths age. -/
def Fibre.turn (f : Fibre) (group : Mask) : Fibre :=
  { f with ages := f.ages.mapIdx (fun i a => if group.getLsbD i then 0 else a + 1) }

/-- The header of a word that is a switch point by its kind (R96): it acts at one as a Y hint does, whatever its guard leaves active;
a (!p7) word stays none (R34). -/
def atPoint (h : Hdr) : Hdr := if h = Hdr.never then h else { h with y := true }

/-- The threads of an issue group that act: those the guard leaves active, or those that perform the word again (R33,
R411). -/
def Fibre.acting (f : Fibre) (h : Hdr) (c : Cur) : Mask :=
  match f.redo with
  | some (pc, m, _) => if pc == c.pc then m &&& c.lanes else c.lanes &&& f.guard h
  | none => c.lanes &&& f.guard h

/-- The word a fibre issues; a word of class 0x0 ends governance (R97). -/
def Fibre.actOf (f : Fibre) (h : Hdr) (ends : Bool) (c : Cur) : Act :=
  ⟨c.ref, f.acting h c, c.lanes, c.pc, c.bits, if ends then ⟨0, 0, 0⟩ else f.govOf c.lanes⟩

/-- The state in which a word acts: its group has passed it, an unmapped name that it reads is noted, and the names it reads
last are released (R26, R89). -/
def State.begun (s : State) (f : Fibre) (h : Hdr) (ends : Bool) (reads last : List Nat) (c : Cur) : State :=
  let s1 := s.setFib c.ref (f.issue c.lanes c.pc ends)
  (if f.acting h c == 0 then s1 else s1.noteReads c.ref reads).release c.ref last c.lanes

/-- Counts a word that retires (R417). -/
def State.countWord (s : State) (g : Nat) : State :=
  s.modWg g (fun w => { w with progress := (w.progress + 1) % 2 ^ 32 })

/-- What a word that has issued leaves behind: unmapped names, its delay and switch points, its energy (R26, R37, R89,
R96, R407). -/
def State.finish (s : State) (h : Hdr) (a : Act) (pj : Nat) : State :=
  let s := s.sweep a.ref
  let s := s.modFib a.ref (fun f => { f with
    delayUntil := if h.delay == 0 then f.delayUntil else s.tick + h.delay.toNat + 1
    redo := if f.redo.map (·.1) == some a.pc then none else f.redo })
  let s := if h.y || a.gov.left != 0 then s.switchPoint a.ref else s
  let s := s.countWord a.ref.wg
  if (Map.find s.wgs a.ref.wg).isSome then s.charge (s.ctxOf a.ref.wg) pj else s

/-- Puts some threads of a group back at their word. -/
def Fibre.putBack (f : Fibre) (old : Fibre) (m : Mask) (pc : Nat) : Fibre :=
  { f with
    pcs := f.pcs.mapIdx (fun i p => if m.getLsbD i then pc else p)
    gov := f.gov.mapIdx (fun i g => if m.getLsbD i then old.gov.toList.getD i g else g) }

/-- The released bits of a fibre of which some threads have still to read their sources (R26, R89). -/
def Fibre.rereads (f old : Fibre) (m : Mask) : Map Mask :=
  (f.released.map (fun (k, v) => (k, (v &&& ~~~m) ||| (Map.getD old.released k 0 &&& m)))).filter (fun e => e.2 != 0)

/-- Whether a wait of a governed word is a governed stall (R97): a busy matrix pipe, a weight slot, a register still to be
written, a full store queue, a full operand log, or an engine's queue without room (R311, R319, R366). -/
def WaitCond.governs : WaitCond → Bool
  | .array _ => true
  | .slot _ _ => true
  | .regs _ => true
  | .config _ => true
  | .pool _ => true
  | .owed => true
  | .log => true
  | .room _ => true
  | _ => false

/-- Takes the stamp of its issue from a slot whose word has not issued after all (R91, R93). -/
def State.unstamp (s : State) (r : FibRef) : State :=
  let (core, k) := s.slotOf r
  s.modSlot core k (fun p => { p with last := p.prev })

/-- Puts some threads of a group back at their word and lets them wait there. A word that parks has issued, and its hints act (R37,
R96); one that waits without parking has not: its slot and its paths stand as before (R91 to R93), it is a switch point only with the
Y hint or where it is governed, and a governed stall lets another fibre in (R94, R96, R97). Threads that wait have still to read their
sources. -/
def State.holdAt (s : State) (h : Hdr) (a : Act) (old : Fibre) (m : Mask) (cond : WaitCond) (parks : Bool) : State :=
  let s := s.modFib a.ref (fun f =>
    let f := f.putBack old m a.pc
    { f with
      released := f.rereads old m
      undefRead := if m == a.group then old.undefRead else f.undefRead
      ages := if parks then f.ages else old.ages
      issued := if parks then f.issued else old.issued
      delayUntil := if parks && h.delay != 0 then s.tick + h.delay.toNat + 1 else f.delayUntil
      waits := f.waits ++ [⟨m &&& f.live, cond, parks, s.tick, ⟨old.issued, a.pc, a.bits, a.lanes, m, a.gov⟩⟩] })
  let s := if parks then s.sweep a.ref else s.unstamp a.ref
  let governed := a.gov.left != 0
  let s := if parks || h.y || governed then s.switchPoint a.ref else s
  if !parks && governed && cond.governs then s.yieldSlot a.ref else s

/-- Runs one word of the issuing fibre. `ends` says that it is of class 0x0, which ends governance; `reads` are the
register names its active threads read, `last` those read with the last-read bit; `pj` is its energy weight; `body` gives
its effect on a state in which the group has passed the word. -/
def runWord (h : Hdr) (ends : Bool) (reads last : List Nat) (pj : Nat) (s : State) (body : Act → State → Out) :
    Host.Outcome State Fault Refusal :=
  match s.cur with
  | none => .fault .noIssuer
  | some c =>
    let s := s.settleLoads c.ref
    match s.fib c.ref with
    | none => .fault .noIssuer
    | some f =>
      if h = Hdr.never then .next ((s.setFib c.ref { f.issue c.lanes c.pc false with redo := none }).countWord c.ref.wg)
      else if f.owes reads && f.acting h c != 0 then .next (s.holdAt h (f.actOf h ends c) f c.lanes (.regs reads) false)
      else
        let a := f.actOf h ends c
        let s2 := s.begun f h ends reads last c
        match if a.lanes == 0 then Out.done s2 else body a s2 with
        | .done t => .next (t.finish h a pj)
        | .hold t m cond parks => .next (t.holdAt h a f m cond parks)
        | .bad t => .next ((s.modFib c.ref (fun f => f.turn c.lanes)).takeTrap c.ref (underGov t a.gov))
        | .logged u t => .next ((u.finish h a pj).takeTrap c.ref (underGov t a.gov))
        | .redo u t =>
          .next (((u.modFib c.ref (fun x => { x with released := x.rereads f c.lanes })).finish h a pj).takeTrap c.ref
            (underGov t a.gov))
        | .older u t =>
          let back (x : Fibre) : Fibre := { x.putBack f c.lanes c.pc with
            released := x.rereads f c.lanes, undefRead := f.undefRead, ages := f.ages, issued := f.issued }
          .next ((u.modFib c.ref back).takeTrap c.ref t)

/-- The accesses of the rows that an `MSTT` has still to enter into its fibre's queue. -/
def MatOp.owedRows (op : MatOp) : List LaneAcc :=
  match op.kind with
  | .store _ _ _ _ l => l
  | _ => []

/-- Whether `MSTT` words of a fibre have still to enter their rows into its queue (R188, R190). -/
def State.owesStores (s : State) (r : FibRef) : Bool :=
  (s.ops (s.coreOf r.wg)).any (fun op => op.ref == r && !op.owedRows.isEmpty)

/-- Whether such rows overlap some scratchpad ranges. -/
def State.owesAt (s : State) (r : FibRef) (l : List (Nat × Nat)) : Bool :=
  (s.ops (s.coreOf r.wg)).any (fun op => op.ref == r && op.owedRows.any (fun x =>
    match s.aperture r.wg (x.addr.toNat - Config.aperture) x.bytes.length with
    | some p => l.any (fun (q, n) => q < p + x.bytes.length && p < q + n)
    | none => false))

/-- Lets every earlier store of the fibre leave its queue, and goes on (R235, R247): an older one that faults comes first. -/
def afterStores (w : Act) (s : State) (k : State → Out) : Out :=
  if s.owesStores w.ref then .hold s w.group .owed false
  else match s.drain w.ref with
    | (s, some t) => .older s t
    | (s, none) => k s

/-- Waits for every operation of the array that the fibre has issued, and goes on (R83, R187). -/
def afterOwn (w : Act) (s : State) (k : State → Out) : Out :=
  if s.arrayBusy w.ref .fibre then .hold s w.group (.array .fibre) false else k s

/-- Waits while an `MCFG` of the work-group waits, and goes on (R196). -/
def afterConfig (w : Act) (s : State) (k : State → Out) : Out :=
  match s.claimOf w.ref.wg with
  | some c => .hold s w.group (.config c.ticket) false
  | none => k s

/-- An operation of the array that a word issues, without the fields that quarters alone use. -/
def mkOp (w : Act) (s : State) (kind : MatKind) (t : Nat) : MatOp where
  num := 0
  kind := kind
  ref := w.ref
  lanes := w.lanes
  tile := t
  ctl := 0
  asc := false
  slot := 0
  version := 0
  bank := 0
  extraA := 0
  rows := []
  wanted := []
  issued := s.tick
  ready := true
  opened := none

/-- A word that reads a tile issues: it claims its registers, and owes them until the read takes effect (R176, R189, R190). -/
def State.owing (s : State) (w : Act) (kind : MatKind) (t : Nat) (regs latches : List Nat) : State :=
  let k := s.opNumber w.ref.wg
  let s := regs.foldl (fun s n => s.claimReg w.ref n w.lanes) s
  (s.modFib w.ref (fun f => f.owe (regs ++ latches) k w.lanes)).pushOp (mkOp w s kind t)

/-- An illegal instruction that the decoder finds from the state: it traps whatever the guard leaves active, except in a
(!p7) word (R33, R42); otherwise the word runs. -/
def unlessIllegal (h : Hdr) (sub : Nat) (bad : FibRef → Bool) (s : State) (k : Host.Outcome State Fault Refusal) :
    Host.Outcome State Fault Refusal :=
  match s.cur with
  | none => .fault .noIssuer
  | some c =>
    match s.fib c.ref with
    | none => .fault .noIssuer
    | some f =>
      if h != Hdr.never && bad c.ref then
        let a : Act := ⟨c.ref, c.lanes &&& f.guard h, c.lanes, c.pc, c.bits, ⟨0, 0, 0⟩⟩
        .next ((s.modFib c.ref (fun f => f.turn c.lanes)).takeTrap c.ref (underGov (a.illegal sub) (f.govOf c.lanes)))
      else k

/-- Whether a fibre is in trap mode. -/
def State.inTrap (s : State) (r : FibRef) : Bool := ((s.fib r).map (fun f => f.trap.isSome)).getD false

end Sys2Proof.Machine
end

