-- ==== Sys2Proof/Machine/Operands.lean ====
section
/-! DEFINITION. The operand forms: sources, pairs, literals, latches, uniform reads, destinations, and the word shapes
shared by the instructions that compute lane by lane (R25 to R35, R89, R90). -/

namespace Sys2Proof.Machine

/-! ### Sources (R25, R28) -/

/-- A source field with its width, and how a literal widens: sign-extended, or zero-extended under `.z` (R25). -/
structure Operand where
  src : Src
  pair : Bool
  zext : Bool
deriving Inhabited, DecidableEq, Repr

/-- A 32-bit operand. -/
def one (a : Src) : Operand := ⟨a, false, false⟩
/-- An operand that is a pair where `x2` holds; a literal is sign-extended. -/
def wide (x2 : Bool) (a : Src) : Operand := ⟨a, x2, false⟩
/-- An operand that is a pair where `x2` holds; a literal is extended by signedness. -/
def wideBy (x2 sgn : Bool) (a : Src) : Operand := ⟨a, x2, !sgn⟩
/-- An operand that the instruction does not use. -/
def absent : Operand := ⟨.imm 0, false, false⟩

/-- Register names an operand reads: the whole group of `n` registers; a latch has the name 256 plus its number. -/
def srcNames (a : Src) (n : Nat) : List Nat :=
  match a with
  | .reg k _ => (List.range n).map (fun i => k.toNat + i)
  | .latch b => [256 + b.toNat]
  | .imm _ => []

/-- Register names an operand reads with the last-read bit (R26, R28). -/
def srcLast (a : Src) (n : Nat) : List Nat :=
  match a with
  | .reg k true => (List.range n).map (fun i => k.toNat + i)
  | _ => []

/-- Registers of an operand. -/
def Operand.count (o : Operand) : Nat := if o.pair then 2 else 1
/-- Names it reads. -/
def Operand.names (o : Operand) : List Nat := srcNames o.src o.count
/-- Names it reads with the last-read bit. -/
def Operand.last (o : Operand) : List Nat := srcLast o.src o.count

/-- A source's value in one lane, as 32 bits. -/
def State.srcLane (s : State) (r : FibRef) (a : Src) (i : Nat) : Word :=
  match a with
  | .reg n _ => lane (s.reg r n.toNat) i
  | .latch b => match s.fib r with
    | some f => lane (f.latches.toList.getD b.toNat (splat 0, 0)).1 i
    | none => 0
  | .imm v => v

/-- An operand's value in one lane, as 64 bits: a single register is the low half. -/
def State.opLane (s : State) (r : FibRef) (o : Operand) (i : Nat) : Dword :=
  match o.src with
  | .reg n _ =>
    if o.pair then lane (s.reg r (n.toNat + 1)) i ++ lane (s.reg r n.toNat) i
    else (lane (s.reg r n.toNat) i).setWidth 64
  | .latch _ => (s.srcLane r o.src i).setWidth 64
  | .imm v => if o.pair then (if o.zext then v.setWidth 64 else v.signExtend 64) else v.setWidth 64

/-- A register pair's value in one lane. -/
def State.pairLane (s : State) (r : FibRef) (a : Src) (i : Nat) : Dword := s.opLane r ⟨a, true, false⟩ i

/-- The lowest of some lanes in which a source names a latch whose valid bit is clear (R32). -/
def State.badLatch (s : State) (r : FibRef) (a : Src) (m : Mask) : Option Nat :=
  match a with
  | .latch b => match s.fib r with
    | some f => lowest (m &&& ~~~(f.latches.toList.getD b.toNat (splat 0, 0)).2)
    | none => none
  | _ => none

/-- The lowest lane in which one of several sources reads a latch it may not. -/
def State.badLatches (s : State) (r : FibRef) (l : List Src) (m : Mask) : Option Nat :=
  (l.filterMap (fun a => s.badLatch r a m)).min?

/-- The lanes whose operands a word reads: every active one, or the lowest under U (R35). -/
def Act.readers (a : Act) (u : Bool) : Mask := if u then oneLane a.low else a.lanes

/-! ### Destinations (R30, R31, R89, R90, R101) -/

/-- Why a write of some registers fails, as a detail of R388: a window part the fibre does not own, or register overflow. -/
def State.writeFault (s : State) (r : FibRef) (names : List Nat) : Option Nat :=
  match Map.find s.wgs r.wg, s.fib r with
  | some w, some f =>
    if names.any (fun n => s.writeCheck r n == some 3) then some 3
    else
      let new := names.filter (fun n => !(f.isH n) && (s.windowOf r n).isNone && (Map.find f.regs n).isNone)
      if new.isEmpty || s.mappedCount r + new.length ≤ (s.launch w.launch).regs then none else some 2
  | _, _ => none

/-- The registers a destination writes. -/
def dstNames (d : Dst) (n : Nat) : List Nat :=
  match d with
  | .reg k _ => (List.range n).map (fun i => k.toNat + i)
  | .latchOnly _ => []

/-- The latch a destination captures into. -/
def Dst.latch : Dst → BitVec 2
  | .reg _ b => b
  | .latchOnly b => b

/-- Writes a result: the register or pair, in the active lanes, and the capture of its low half (R30, R31). -/
def State.putDst (s : State) (r : FibRef) (d : Dst) (pair : Bool) (act : Mask) (lo hi : LaneVec) : State :=
  match d with
  | .reg n b =>
    let s := s.writeReg r n.toNat act lo
    let s := if pair then s.writeReg r (n.toNat + 1) act hi else s
    s.modFib r (fun f => f.capture b act lo)
  | .latchOnly b => s.modFib r (fun f => f.capture b act lo)

/-- Writes a pair of registers from 64-bit values. -/
def State.putPair (s : State) (r : FibRef) (n : Nat) (act : Mask) (f : Nat → Dword) : State :=
  (s.writeReg r n act (lanes (fun i => (f i).setWidth 32))).writeReg r (n + 1) act (lanes (fun i => (f i >>> 32).setWidth 32))

/-- The number of registers of a result. -/
def regCount (pair : Bool) : Nat := if pair then 2 else 1

/-! ### Words that compute lane by lane -/

/-- What a lane computes: its result, as 64 bits, and the flags it raises. -/
abbrev LaneFn := Nat → Dword → Dword → Dword → Dword × BitVec 6

/-- The result of every lane: under U, that of the lowest active lane (R35). -/
def laneResults (s : State) (a : Act) (u : Bool) (x y z : Operand) (f : LaneFn) (i : Nat) : Dword × BitVec 6 :=
  let k := if u then a.low else i
  f k (s.opLane a.ref x k) (s.opLane a.ref y k) (s.opLane a.ref z k)

/-- The flags some lanes raise together. -/
def flagsOf (m : Mask) (f : Nat → Dword × BitVec 6) : BitVec 6 := (lanesOf m).foldl (fun fl i => fl ||| (f i).2) 0

/-- A word that computes a register result in each active lane from up to three operands. -/
def aluWord (h : Hdr) (u : Bool) (d : Dst) (pair : Bool) (x y z : Operand) (pj : Nat) (f : LaneFn) (s : State) :
    Host.Outcome State Fault Refusal :=
  runWord h false (x.names ++ y.names ++ z.names) (x.last ++ y.last ++ z.last) pj s fun a s =>
    match s.badLatches a.ref [x.src, y.src, z.src] (a.readers u) with
    | some i => .bad (a.operand i 1)
    | none =>
      match s.writeFault a.ref (dstNames d (regCount pair)) with
      | some e => .bad (a.operand a.low e)
      | none =>
        let g := laneResults s a u x y z f
        .done ((s.putDst a.ref d pair a.lanes (lanes (fun i => (g i).1.setWidth 32))
          (lanes (fun i => ((g i).1 >>> 32).setWidth 32))).raise a.ref (flagsOf (a.readers u) g))

/-- A word that computes a predicate in each active lane. -/
def predWord (h : Hdr) (u : Bool) (pd : BitVec 3) (x y : Operand) (pj : Nat) (f : Nat → Dword → Dword → Bool × BitVec 6)
    (s : State) : Host.Outcome State Fault Refusal :=
  runWord h false (x.names ++ y.names) (x.last ++ y.last) pj s fun a s =>
    match s.badLatches a.ref [x.src, y.src] (a.readers u) with
    | some i => .bad (a.operand i 1)
    | none =>
      let g (i : Nat) : Bool × BitVec 6 :=
        let k := if u then a.low else i
        f k (s.opLane a.ref x k) (s.opLane a.ref y k)
      .done ((s.modFib a.ref (fun f => f.setPred pd a.lanes (maskOf (fun i => (g i).1)))).raise a.ref
        (flagsOf (a.readers u) (fun i => (0, (g i).2))))

/-- A word that writes one general register in every active lane with a value that does not depend on the lane. -/
def State.putAll (s : State) (a : Act) (n : Nat) (v : Nat) : State := s.writeReg a.ref n a.lanes (splat (BitVec.ofNat 32 v))

/-! ### Operands of words that act once for the fibre -/

/-- A source taken from the lowest active lane. -/
def State.low32 (s : State) (a : Act) (x : Src) : Nat := (s.srcLane a.ref x a.low).toNat

/-- A pair taken from the lowest active lane, plus a sign-extended offset, modulo 2^64. -/
def State.lowAddr (s : State) (a : Act) (x : Src) (off : BitVec 32) : Nat :=
  (s.pairLane a.ref x a.low + off.signExtend 64).toNat

/-- The checks a word makes before it acts: its latches in some lanes, and its destination registers. -/
def State.wordFault (s : State) (a : Act) (srcs : List Src) (m : Mask) (dsts : List Nat) : Option TrapInfo :=
  match s.badLatches a.ref srcs m with
  | some i => some (a.operand i 1)
  | none => (s.writeFault a.ref dsts).map (fun e => a.operand a.low e)

/-- A word that acts once for the fibre, with its operands from the lowest active lane: `srcs` are its sources with the
registers each names, `dsts` the registers it writes. R32 speaks of a latch named in an active lane; such a word reads its latches in
the lowest active lane alone, and the model looks at that lane's valid bit only (assumption 81). -/
def onceWord (h : Hdr) (srcs : List (Src × Nat)) (dsts : List Nat) (s : State) (body : Act → State → Out) :
    Host.Outcome State Fault Refusal :=
  runWord h false (srcs.flatMap (fun x => srcNames x.1 x.2)) (srcs.flatMap (fun x => srcLast x.1 x.2)) 6 s fun a s =>
    match s.wordFault a (srcs.map (·.1)) (oneLane a.low) dsts with
    | some t => .bad t
    | none => body a s

end Sys2Proof.Machine
end

