-- ==== Sys2Proof/Machine/Integer.lean ====
section
/-! DEFINITION. Class 0x1: integer arithmetic (R119 to R124). -/

namespace Sys2Proof.Machine

/-- The width of a form. -/
def wOf (x2 : Bool) : Nat := if x2 then 64 else 32

/-- The ext value of an operand of width `w` (R123). -/
def extVal (sgn : Bool) (w : Nat) (v : Dword) : Int := if sgn then sext v.toNat w else ((v.toNat % 2 ^ w : Nat) : Int)

/-- An integer modulo 2^w, as a result. -/
def ofIntMod (w : Nat) (v : Int) : Dword := BitVec.ofNat 64 (v % 2 ^ w).toNat

/-- A result without flags. -/
def plain (v : Dword) : Dword × BitVec 6 := (v, 0)

/-- IADD (R123). -/
def execIadd (h : Hdr) (u : Bool) (d : Dst) (a b : Src) (x2 : Bool) (s : State) : Host.Outcome State Fault Refusal :=
  aluWord h u d x2 (wide x2 a) (wide x2 b) absent 6 (fun _ x y _ => plain (x + y)) s

/-- ISUB (R123). -/
def execIsub (h : Hdr) (u : Bool) (d : Dst) (a b : Src) (x2 : Bool) (s : State) : Host.Outcome State Fault Refusal :=
  aluWord h u d x2 (wide x2 a) (wide x2 b) absent 6 (fun _ x y _ => plain (x - y)) s

/-- The carry-out of 32-bit operands and a carry-in. -/
def addCarry (x y : Dword) (c : Bool) : Nat := x.toNat + y.toNat + bit01 c

/-- IADDC (R123): predicates carry in and out. -/
def execIaddc (h : Hdr) (u : Bool) (d : Dst) (a b : Src) (cin : BitVec 3) (cneg : Bool) (cout : BitVec 3) (s : State) :
    Host.Outcome State Fault Refusal :=
  runWord h false (srcNames a 1 ++ srcNames b 1) (srcLast a 1 ++ srcLast b 1) 6 s fun w s =>
    match s.wordFault w [a, b] (w.readers u) (dstNames d 1) with
    | some t => .bad t
    | none =>
      let p := ((s.fib w.ref).map (fun f => f.pred cin)).getD 0
      let sum (i : Nat) : Nat :=
        let k := if u then w.low else i
        addCarry (s.opLane w.ref (one a) k) (s.opLane w.ref (one b) k) (p.getLsbD k != cneg)
      .done ((s.putDst w.ref d false w.lanes (lanes (fun i => BitVec.ofNat 32 (sum i))) (splat 0)).modFib w.ref
        (fun f => f.setPred cout w.lanes (maskOf (fun i => decide (2 ^ 32 ≤ sum i)))))

/-- IMUL (R123). -/
def execImul (h : Hdr) (u : Bool) (d : Dst) (a b : Src) (sgn : Bool) (part : MulPart) (s : State) :
    Host.Outcome State Fault Refusal :=
  aluWord h u d (part == .wide) (one a) (one b) absent 6 (fun _ x y _ =>
    let p := extVal sgn 32 x * extVal sgn 32 y
    plain (match part with
      | .lo => ofIntMod 32 p
      | .hi => ofIntMod 32 (p / 2 ^ 32)
      | .wide => ofIntMod 64 p)) s

/-- IMAD (R123). -/
def execImad (h : Hdr) (u : Bool) (d : Dst) (a b c : Src) (sgn wd : Bool) (s : State) : Host.Outcome State Fault Refusal :=
  aluWord h u d wd (one a) (one b) ⟨c, wd, !sgn⟩ 6 (fun _ x y z =>
    plain (ofIntMod (wOf wd) (extVal sgn 32 x * extVal sgn 32 y + z.toNat))) s

/-- IMIN (R123). -/
def execImin (h : Hdr) (u : Bool) (d : Dst) (a b : Src) (sgn : Bool) (s : State) : Host.Outcome State Fault Refusal :=
  aluWord h u d false (one a) (one b) absent 6 (fun _ x y _ =>
    plain (if extVal sgn 32 x ≤ extVal sgn 32 y then x else y)) s

/-- IMAX (R123). -/
def execImax (h : Hdr) (u : Bool) (d : Dst) (a b : Src) (sgn : Bool) (s : State) : Host.Outcome State Fault Refusal :=
  aluWord h u d false (one a) (one b) absent 6 (fun _ x y _ =>
    plain (if extVal sgn 32 x ≤ extVal sgn 32 y then y else x)) s

/-- IABS (R123). -/
def execIabs (h : Hdr) (u : Bool) (d : Dst) (a : Src) (sat : Bool) (s : State) : Host.Outcome State Fault Refusal :=
  aluWord h u d false (one a) absent absent 6 (fun _ x _ _ =>
    let t := (extVal true 32 x).natAbs
    plain (BitVec.ofNat 64 (if t == 2 ^ 31 && sat then 2 ^ 31 - 1 else t))) s

/-- INEG (R123). -/
def execIneg (h : Hdr) (u : Bool) (d : Dst) (a : Src) (x2 sat : Bool) (s : State) : Host.Outcome State Fault Refusal :=
  aluWord h u d x2 (wide x2 a) absent absent 6 (fun _ x _ _ =>
    let t := -(extVal true (wOf x2) x)
    plain (ofIntMod (wOf x2) (if t == 2 ^ (wOf x2 - 1) && sat then 2 ^ (wOf x2 - 1) - 1 else t))) s

/-- Quotient and remainder, truncating toward zero, with the cases of R124. -/
def divRem (sgn : Bool) (w : Nat) (x y : Dword) : Int × Int :=
  let a := extVal sgn w x
  let b := extVal sgn w y
  if b == 0 then ((if !sgn then 2 ^ w - 1 else if 0 ≤ a then 2 ^ (w - 1) - 1 else -(2 ^ (w - 1))), a)
  else if sgn && a == -(2 ^ (w - 1)) && b == -1 then (-(2 ^ (w - 1)), 0)
  else (a.tdiv b, a - a.tdiv b * b)

/-- IDIV (R124). -/
def execIdiv (h : Hdr) (u : Bool) (d : Dst) (a b : Src) (sgn x2 : Bool) (s : State) : Host.Outcome State Fault Refusal :=
  aluWord h u d x2 (wideBy x2 sgn a) (wideBy x2 sgn b) absent 6 (fun _ x y _ =>
    plain (ofIntMod (wOf x2) (divRem sgn (wOf x2) x y).1)) s

/-- IREM (R124). -/
def execIrem (h : Hdr) (u : Bool) (d : Dst) (a b : Src) (sgn x2 : Bool) (s : State) : Host.Outcome State Fault Refusal :=
  aluWord h u d x2 (wideBy x2 sgn a) (wideBy x2 sgn b) absent 6 (fun _ x y _ =>
    plain (ofIntMod (wOf x2) (divRem sgn (wOf x2) x y).2)) s

/-- An integer comparison (R123). -/
def ccHolds (cc : Cc) (x y : Int) : Bool :=
  match cc with
  | .eq => x == y
  | .ne => x != y
  | .lt => decide (x < y)
  | .le => decide (x ≤ y)
  | .gt => decide (y < x)
  | .ge => decide (y ≤ x)

/-- ICMP (R123). -/
def execIcmp (h : Hdr) (u : Bool) (pd : BitVec 3) (a b : Src) (sgn x2 : Bool) (cc : Cc) (s : State) :
    Host.Outcome State Fault Refusal :=
  predWord h u pd (wideBy x2 sgn a) (wideBy x2 sgn b) 6 (fun _ x y =>
    (ccHolds cc (extVal sgn (wOf x2) x) (extVal sgn (wOf x2) y), 0)) s

/-- A value between two bounds. -/
def clampInt (v lo hi : Int) : Int := if v < lo then lo else if hi < v then hi else v

/-- IADDS (R123): a saturating sum or difference. -/
def execIadds (h : Hdr) (u : Bool) (d : Dst) (a b : Src) (sgn sub : Bool) (s : State) : Host.Outcome State Fault Refusal :=
  aluWord h u d false (one a) (one b) absent 6 (fun _ x y _ =>
    let v := if sub then extVal sgn 32 x - extVal sgn 32 y else extVal sgn 32 x + extVal sgn 32 y
    plain (ofIntMod 32 (if sgn then clampInt v (-(2 ^ 31)) (2 ^ 31 - 1) else clampInt v 0 (2 ^ 32 - 1)))) s

/-- LEA (R123): a pair plus a scaled 32-bit index. -/
def execLea (h : Hdr) (u : Bool) (d : Dst) (a b : Src) (sgn : Bool) (sh : BitVec 3) (s : State) :
    Host.Outcome State Fault Refusal :=
  aluWord h u d true ⟨a, true, !sgn⟩ (one b) absent 6 (fun _ x y _ =>
    plain (ofIntMod 64 (x.toNat + extVal sgn 32 y * 2 ^ sh.toNat))) s

end Sys2Proof.Machine
end

