-- ==== Sys2Proof/Machine/MemOps.lean ====
section
/-! DEFINITION. What words that load and store share: bounds, presence, race checks, the operand log, and entry into the
store queue (R224 to R226, R233, R235, R264, R281, R288). -/

namespace Sys2Proof.Machine

/-! ### Bounds (R225) -/

/-- Whether an access of `n` bytes passes the aperture's checks; global addresses always do. -/
def State.boundsOk (s : State) (g va n : Nat) : Bool :=
  !inAperture va || (s.laneAperture g (va - Config.aperture) n).isSome

/-- Switches threads off: recorded in s.spmask, they end as at EXIT (R105, R225). -/
def State.switchOff (s : State) (r : FibRef) (m : Mask) : State :=
  if m == 0 then s else ((s.modFib r (fun f => { f with spmask := f.spmask ||| m })).exitLanes r m).arriveRest r

/-- Splits accesses into those within bounds and the lanes of the others. -/
def State.bounds (s : State) (g n : Nat) (l : List LaneAcc) : List LaneAcc × Mask :=
  (l.filter (fun x => s.boundsOk g x.addr.toNat n),
    (l.filter (fun x => !(s.boundsOk g x.addr.toNat n))).foldl (fun m x => m ||| oneLane x.lane) 0)

/-- The absent scratchpad lines that accesses touch (R224). -/
def State.absentLines (s : State) (g n : Nat) (l : List LaneAcc) : List Nat :=
  (l.flatMap (fun x =>
    if inAperture x.addr.toNat then
      match s.aperture g (x.addr.toNat - Config.aperture) n with
      | some p => linesOf p n
      | none => []
    else [])).filter (fun k => !(s.isPresent k))

/-! ### The operand log (R235, R393) -/

/-- The lowest free place of the operand log. -/
def Fibre.freePlace (f : Fibre) : Option Nat := (List.range 8).find? (fun k => (Map.find f.log k).isNone)

/-- The issued word as its log and queue entries name it. -/
def Act.wordRef (a : Act) (f : Fibre) : WordRef := ⟨f.issued, a.pc, a.bits, a.lanes, a.group, a.gov⟩

/-- Lets queued stores leave until the operand log has a free place. -/
def State.logRoom (r : FibRef) : Nat → State → State × Option TrapInfo
  | 0, s => (s, none)
  | k + 1, s =>
    if (((s.fib r).map (·.log.length)).getD 0) < 8 then (s, none)
    else match s.drainOne r with
      | none => (s, none)
      | some (s, some t) => (s, some t)
      | some (s, none) => State.logRoom r k s

/-- Whether every place of a fibre's operand log is held. -/
def State.logFull (s : State) (r : FibRef) : Bool := 8 ≤ (((s.fib r).map (·.log.length)).getD 0)

/-- A word that may hold a place of the operand log waits until one is free (R235): stores of the fibre leave, and give theirs back. -/
def afterLog (w : Act) (s : State) (needs : Bool) (k : State → Out) : Out :=
  if !needs then k s
  else match State.logRoom w.ref (16 * ((s.fib w.ref).map (·.curQueue.length)).getD 0 + 1) s with
    | (s, some t) => .older s t
    | (s, none) => if s.logFull w.ref then .hold s w.group .log false else k s

/-- Holds a faulted access of an issued word in its fibre's operand log (R226, R288, R393). -/
def State.holdFault (s : State) (r : FibRef) (w : WordRef) (n : Nat) (accs : List LaneAcc) (work : LogWork) (sub : Nat)
    (raced : Bool) : State :=
  match s.fib r with
  | none => s
  | some f =>
    let e : LogEntry := { word := w, size := n, accs := accs, probed := false, faulted := some sub, work := work, raced := raced }
    match f.freePlace with
    | some k => s.setFib r { f with log := Map.set f.log k e }
    | none => s

/-- Holds a faulted access of the issuing word: the state, and the trap it takes. -/
def State.logFault (s : State) (a : Act) (n : Nat) (accs : List LaneAcc) (work : LogWork) (cause sub lane addr : Nat)
    (rcd : List Word) : State × TrapInfo :=
  match s.fib a.ref with
  | none => (s, a.trap cause sub lane addr 0)
  | some f =>
    let w := a.wordRef f
    (s.holdFault a.ref w n accs work sub (!rcd.isEmpty), w.trap cause sub lane addr rcd)

/-! ### Race checks of loads and of words that act once (R281, R285, R288, R290) -/

/-- The outcome of checking a word's accesses, each with its kind (0 read, 1 write, 2 atomic): the first race, with its
words, lane, address, size and kind, and the accesses that had no full check. -/
def State.checkAll (s : State) (r : FibRef) (a : Agent) (l : List (Nat × Nat × Nat × Nat)) :
    Option (LineMeta × Mask × Nat × Nat × Nat × Nat) × Nat :=
  l.foldl (fun (found, k) (lane, va, n, kind) =>
    match s.checkAccess r a va n (kind == 2) with
    | .clean => (found, k)
    | .partly => (found, k + 1)
    | .race m words => (if found.isSome then found else some (m, words, lane, va, n, kind), k)) (none, 0)

/-- Whether a word is performed again after a race that has trapped: its accesses go unchecked (R289). -/
def State.again (s : State) (w : Act) : Bool :=
  match (s.fib w.ref).bind (·.redo) with
  | some (pc, _, raced) => raced && pc == w.pc
  | none => false

/-- What a word's race check leaves for its commit: the accesses without a full check, and a race to report. -/
abbrev CheckNote := Nat × Option (List Word)

/-- Checks a word's accesses before any takes effect: the race record of a trapping race, or what its commit counts and reports
(R285, R288, R290). -/
def State.raceCheck (s : State) (w : Act) (a : Agent) (l : List (Nat × Nat × Nat × Nat)) : Except (Nat × Nat × List Word) CheckNote :=
  if s.again w then .ok ((l.filter (fun x => s.isChecked w.ref a x.2.1 x.2.2.1)).length, none)
  else match s.checkAll w.ref a l with
  | (none, k) => .ok (k, none)
  | (some (m, words, lane, va, n, kind), k) =>
    if s.reports w.ref.wg then .ok (k, some (s.raceRecord w.ref m lane w.pc va kind (sizeCode n) words true))
    else .error (lane, va, s.raceRecord w.ref m lane w.pc va kind (sizeCode n) words false)

/-- The commit of a checked word counts what had no full check, and appends at most one race record (R84, R285, R290). -/
def State.noteCheck (s : State) (r : FibRef) (c : CheckNote) : State :=
  (match c.2 with
  | some rcd => s.reportRace r rcd
  | none => s).addUnchecked r c.1

/-- A word's answer with what its commit notes. -/
def Out.noting (r : FibRef) (c : CheckNote) : Out → Out
  | .done s => .done (s.noteCheck r c)
  | o => o

/-- Checks a word's accesses in the state that its acquire leaves (R283), and goes on; `race` answers a race. -/
def afterCheck (w : Act) (s : State) (known : State) (l : List (Nat × Nat × Nat × Nat)) (race : Nat → Nat → List Word → Out) (k : Out) :
    Out :=
  match known.raceCheck w (s.agent w.ref.wg) l with
  | .error (lane, va, rcd) => race lane va rcd
  | .ok c => k.noting w.ref c

/-! ### Loads (R224, R226, R233, R234, R268) -/

/-- The value of some bytes in each register of a load: narrow ones extended by signedness (R233). -/
def loadWords (n : Nat) (sgn : Bool) (l : List Byte) : List Word :=
  if n < 4 then [if sgn then BitVec.ofNat 32 (sext (leNat l) (8 * n) % 2 ^ 32).toNat else BitVec.ofNat 32 (leNat l)]
  else (List.range (n / 4)).map (fun j => BitVec.ofNat 32 (leNat ((l.drop (4 * j)).take 4)))

/-- Reads the bytes of one access: the scratchpad or global memory, with the fibre's queued stores over them (R246). -/
def State.loadBytes (s : State) (r : FibRef) (a : Agent) (byp fresh : Bool) (va n : Nat) :
    Except (Nat × Nat) (List Byte) × State :=
  if inAperture va then
    match s.aperture r.wg (va - Config.aperture) n with
    | some p => (.ok (s.forward r va (Memory.read s.scratch p n)), s)
    | none => (.ok (List.replicate n 0), s)
  else match s.readGlobal a byp fresh va n with
    | (.ok l, s) => (.ok (s.forward r va l), s)
    | (.error e, s) => (.error e, s)

/-- Reads every access of a word: the bytes of each lane, or the first lane that faults (R226); an acquire's global accesses must be
aligned (R264). -/
def State.loadAll (s : State) (r : FibRef) (a : Agent) (byp fresh aligned : Bool) (n : Nat) (l : List LaneAcc) :
    Except (Nat × Nat × Nat) (List (Nat × List Byte)) × State :=
  l.foldl (fun (acc, s) x =>
    match acc with
    | .error e => (.error e, s)
    | .ok out =>
      if aligned && !(inAperture x.addr.toNat) && x.addr.toNat % n != 0 then (.error (5, x.lane, x.addr.toNat), s)
      else match s.loadBytes r a byp fresh x.addr.toNat n with
        | (.ok b, s) => (.ok (out ++ [(x.lane, b)]), s)
        | (.error (sub, byte), s) => (.error (sub, x.lane, byte), s)) (.ok [], s)

/-- The register vectors of loaded lanes; a single uniform access is given to every lane. -/
def loadVecs (regs n : Nat) (sgn u : Bool) (l : List (Nat × List Byte)) : List LaneVec :=
  (List.range regs).map (fun j => lanes (fun i =>
    let e := if u then l.head? else l.find? (fun x => x.1 == i)
    match e with
    | some (_, b) => (loadWords n sgn b).getD j 0
    | none => 0))

/-- What an acquire of some accesses installs in a checked launch (R283). -/
def State.learn (s : State) (r : FibRef) (a : Agent) (n : Nat) (sc : Scope) (l : List LaneAcc) : State :=
  l.foldl (fun s x => (s.checkedPieces r a x.addr.toNat n).foldl (fun s e => s.acquireFrom r e.1 (wordsOf e.1.byte e.2) sc) s) s

/-- What the checked launch and the caches do at an acquire at the end of a load (R253, R268, R283). -/
def State.acquireAll (s : State) (r : FibRef) (a : Agent) (n : Nat) (sc : Scope) (l : List LaneAcc) : State :=
  (s.learn r a n sc l).cacheAcquire a sc

/-- A load of a checked launch that had parked on absent lines acquires the words that it reads of them (R260, R283). -/
def State.joinSought (s : State) (w : Act) (a : Agent) (n : Nat) (l : List LaneAcc) : State :=
  let lines := (((s.fib w.ref).map (·.sought)).getD []).filterMap (fun e => if e.2 &&& w.group != 0 then some e.1 else none)
  if lines.isEmpty then s
  else l.foldl (fun s x => (s.checkedPieces w.ref a x.addr.toNat n).foldl (fun s e =>
    match e.1 with
    | .scr b => if lines.contains (b / 128) then s.acquireFrom w.ref e.1 (wordsOf b e.2) .sys else s
    | .glob _ => s) s) s

/-- The lines that some threads have parked on, noted in a checked launch until they issue again (R260). -/
def State.seek (s : State) (w : Act) (lines : List Nat) : State :=
  if (s.launchOf w.ref.wg).checked then
    s.modFib w.ref (fun f => { f with sought := f.sought ++ lines.map (fun k => (k, w.group)) })
  else s

/-- Some threads seek no line any more. -/
def State.unseek (s : State) (w : Act) : State :=
  if ((s.fib w.ref).map (fun f => f.sought.isEmpty)).getD true then s
  else s.modFib w.ref (fun f => { f with
    sought := (f.sought.map (fun e => (e.1, e.2 &&& ~~~w.group))).filter (fun e => e.2 != 0) })

/-- Leaves a load's value in flight: its registers are its own from its issue (R89, R241). -/
def State.startLoad (s : State) (r : FibRef) (d regs : Nat) (dst : Mask) (vals : List LaneVec) : State :=
  let s := (List.range regs).foldl (fun s j => s.claimReg r (d + j) dst) s
  s.modFib r (fun f => { f with loads := f.loads ++ [⟨d, dst &&& f.live, vals⟩] })

/-- A load of some accesses within bounds, after its race check: it faults as a whole, or leaves
its value in flight. `dst` is the lanes it writes; `u` marks a single uniform access. -/
def loadChecked (w : Act) (s : State) (accs : List LaneAcc) (d regs n : Nat) (sgn : Bool) (acq : Option Scope) (byp u : Bool)
    (dst : Mask) : Out :=
  let a := s.agent w.ref.wg
  let work := LogWork.load d regs n sgn acq byp (if u then dst else 0)
  let s := s.chargeLines a (accs.map (fun x => (x.addr.toNat, n)))
  match s.loadAll w.ref a byp false acq.isSome n accs with
  | (.error (sub, lane, byte), s) =>
    let (s, t) := s.logFault w n accs work 0x08 sub lane byte []
    .logged s t
  | (.ok l, s) =>
    let s := match acq with
      | some sc => s.acquireAll w.ref a n sc accs
      | none => s
    .done (((s.joinSought w a n accs).unseek w).startLoad w.ref d regs dst (loadVecs regs n sgn u l))

/-- The queue holds an atomic: a load waits until it has left. -/
def State.settleAtomics (s : State) (r : FibRef) : State × Option TrapInfo :=
  if ((s.fib r).map (fun f => f.queueHasAtomic)).getD false then s.drain r else (s, none)

/-- The state in which a load's race check is made: what it acquires it knows already (R283). -/
def State.knowing (s : State) (w : Act) (a : Agent) (n : Nat) (acq : Option Scope) (accs : List LaneAcc) : State :=
  if !a.checked then s
  else match acq with
    | some sc => (s.joinSought w a n accs).learn w.ref a n sc accs
    | none => s.joinSought w a n accs

/-- Whether a word with some accesses may hold a place of the operand log: it has a global one, or a race may hold it (R235, R288). -/
def State.mayLog (s : State) (r : FibRef) (accs : List LaneAcc) : Bool :=
  (s.launchOf r.wg).checked || accs.any (fun x => !(inAperture x.addr.toNat))

/-- The scratchpad ranges of some accesses. -/
def State.scratchRanges (s : State) (g n : Nat) (accs : List LaneAcc) : List (Nat × Nat) :=
  accs.filterMap (fun x =>
    if inAperture x.addr.toNat then (s.aperture g (x.addr.toNat - Config.aperture) n).map (fun p => (p, n)) else none)

/-- A load word with its accesses (R224 to R226, R233, R234, R281): bounds, presence, race check, then the load. It waits for rows of an
earlier `MSTT` of the fibre that it would read (R188). -/
def loadBody (w : Act) (s : State) (accs : List LaneAcc) (d regs n : Nat) (sgn : Bool) (acq : Option Scope) (byp u : Bool) : Out :=
  let a := s.agent w.ref.wg
  let (accs, off) := s.bounds w.ref.wg n accs
  let s := s.switchOff w.ref off
  let dst := w.lanes &&& ~~~off
  if accs.isEmpty then .done s
  else
    let absent := s.absentLines w.ref.wg n accs
    if !absent.isEmpty then .hold (s.seek w absent) w.group (.present absent) true
    else if s.owesAt w.ref (s.scratchRanges w.ref.wg n accs) then .hold s w.group .owed false
    else match s.settleAtomics w.ref with
      | (s, some t) => .older s t
      | (s, none) => afterLog w s (s.mayLog w.ref accs) fun s =>
          afterCheck w s (s.knowing w a n acq accs) (accs.map (fun x => (x.lane, x.addr.toNat, n, 0)))
            (fun lane va rcd =>
              let (s, t) := s.logFault w n accs (.load d regs n sgn acq byp (if u then dst else 0)) 0x18 0 lane va rcd
              .logged s t)
            (loadChecked w s accs d regs n sgn acq byp u dst)

/-- The accesses of a word: an address for each lane that makes one. -/
def laneAccs (m : Mask) (addr : Nat → Nat) (bytes : Nat → List Byte) : List LaneAcc :=
  (lanesOf m).map (fun i => ⟨i, BitVec.ofNat 64 (addr i), bytes i⟩)

/-! ### Stores (R233 to R235, R188) -/

/-- A store waits until the fibre's matrix operations have read what it would overwrite (R188): those whose lines are all present read
them now; the others have lines that are still absent. -/
def State.readFirst (s : State) (r : FibRef) (l : List (Nat × Nat)) : State × List Nat :=
  let core := s.coreOf r.wg
  let hit := (s.ops core).filter (fun op => op.ref == r && l.any (fun (p, n) => op.wants p n))
  hit.foldl (fun (s, absent) op =>
    if op.lines.all s.isPresent then (s.modOpAt core op.num s.collect, absent)
    else (s, absent ++ op.lines.filter (fun k => !(s.isPresent k)))) (s, [])

/-- Enters the accesses of a store word into the fibre's queue, in order, once enough entries are free (R235): a log place
is held where an access is global. The queue proper is its first 16 entries; those of a word with more stand behind them until they
enter. `verified` says that their race check has been made. -/
def State.enqueue (s : State) (w : Act) (n : Nat) (kind : StoreKind) (rel : Option Scope) (clock : Nat) (verified : Bool)
    (accs : List LaneAcc) (swap : Nat → Nat) : State :=
  match s.fib w.ref with
  | none => s
  | some f =>
    let global := accs.any (fun x => !(inAperture x.addr.toNat))
    let ref := w.wordRef f
    let place := if global then f.freePlace else none
    let f := match place with
      | some k => { f with log := Map.set f.log k { word := ref, size := n, accs := accs, probed := false, faulted := none
                                                    work := .store, raced := false } }
      | none => f
    let new := accs.map (fun x => ({ word := ref, acc := x, kind := kind, release := rel, clock := clock, log := place
                                     unchecked := s.again w, verified := verified, begun := false, reported := false
                                     frozen := false, swap := swap x.lane } : StoreEntry))
    s.setFib w.ref (f.setQueue (f.curQueue ++ new))

/-- Makes room in the queue for the entries of a store word (R235): older ones leave. -/
def State.storeRoom (s : State) (r : FibRef) (k : Nat) : State × Option TrapInfo :=
  State.drainTo r (16 - min k 16) (16 * ((s.fib r).map (·.curQueue.length)).getD 0 + 1) s

/-- What a release does before its store, and goes on with the clock it recorded: the queue leaves, and the caches are written back
(R253, R268, R275). -/
def afterRelease (w : Act) (s : State) (sc : Scope) (k : State → Nat → Out) : Out :=
  afterStores w s fun s =>
    let (clock, s) := (s.cacheRelease (s.agent w.ref.wg) sc).releaseEvent w.ref
    k s clock

/-- A store word with its accesses: bounds, the matrix operations that read first, room, a release where it is one, and entry into the
queue. Rows of an earlier `MSTT` enter before it (R235). -/
def storeBody (w : Act) (s : State) (n : Nat) (kind : StoreKind) (rel : Option Scope) (accs : List LaneAcc) (swap : Nat → Nat) : Out :=
  let (accs, off) := s.bounds w.ref.wg n accs
  let s := s.switchOff w.ref off
  if accs.isEmpty then .done s
  else
    let (s, waits) := s.readFirst w.ref (s.scratchRanges w.ref.wg n accs)
    if !waits.isEmpty then .hold s w.group (.present waits) false
    else if s.owesStores w.ref then .hold s w.group .owed false
    else match s.storeRoom w.ref accs.length with
      | (s, some t) => .older s t
      | (s, none) => afterLog w s (accs.any (fun x => !(inAperture x.addr.toNat))) fun s =>
        match rel with
        | some sc => afterRelease w s sc fun s clock => .done (s.enqueue w n kind rel clock false accs swap)
        | none => .done (s.enqueue w n kind none 0 false accs swap)

/-- The low bytes of a store's value in one lane: a register, pair or quad (R233). -/
def State.valueBytes (s : State) (r : FibRef) (x : Src) (n i : Nat) : List Byte :=
  match x with
  | .reg k _ => ((List.range ((n + 3) / 4)).flatMap (fun j => wordBytes (lane (s.reg r (k.toNat + j)) i))).take n
  | _ => (wordBytes (s.srcLane r x i)).take n

/-! ### Words that act once and touch memory -/

/-- Reads some ranges of memory for a word that acts once: their bytes, a memory fault, or nothing where an aperture range
is not valid. -/
def State.readOnce (s : State) (r : FibRef) (a : Agent) (va n : Nat) : Except (Nat × Nat) (List Byte) × State :=
  s.loadBytes r a false false va n

/-- A memory fault of a word that acts once, which `RTT` performs again (R226). -/
def faultOnce (w : Act) (s : State) (sub byte : Nat) : Out :=
  let (s, t) := s.logFault w 0 [⟨w.low, BitVec.ofNat 64 byte, []⟩] .again 0x08 sub w.low byte []
  .redo s t

/-- A race of a word that acts once, which `RTT` performs again (R288, R289). -/
def raceOnce (w : Act) (s : State) (lane va : Nat) (rcd : List Word) : Out :=
  let (s, t) := s.logFault w 0 [⟨lane, BitVec.ofNat 64 va, []⟩] .again 0x18 0 lane va rcd
  .redo s t

/-- The race check of a word that acts once, with a place of the operand log in reserve (R288). -/
def onceChecked (w : Act) (s : State) (l : List (Nat × Nat × Nat × Nat)) (k : State → Out) : Out :=
  afterLog w s (s.launchOf w.ref.wg).checked fun s => afterCheck w s s l (raceOnce w s) (k s)

/-- Whether an address range of global memory translates: the first subcode and byte that does not, page by page. -/
def State.probeRange (s : State) (a : Agent) (p : Perm) (va n : Nat) : Option (Nat × Nat) × State :=
  (List.range (n / 128 + 2)).foldl (fun (bad, s) i =>
    match bad with
    | some b => (some b, s)
    | none =>
      let x := if i == 0 then va else (va / 128 + i) * 128
      if va + n ≤ x then (none, s)
      else match s.translate (clusterOf a.core) a.ctx (x % 2 ^ 64) p with
        | (.ok _, s) => (none, s)
        | (.error e, s) => (some (e, x % 2 ^ 64), s)) (none, s)

end Sys2Proof.Machine
end

