-- ==== Sys2Proof/Machine/Memory.lean ====
section
/-! DEFINITION. Class 0x8: loads, stores, presence, cache control and pins (R232 to R241). -/

namespace Sys2Proof.Machine

/-! ### Loads and stores (R233, R234) -/

/-- The lanes that make an access of their own: every active one, or the lowest under U (R35). -/
def Act.makers (w : Act) (u : Bool) : Mask := w.readers u

/-- The 64-bit address of a lane: pair plus sign-extended offset (R233). -/
def State.laneAddr (s : State) (r : FibRef) (x : Src) (off : BitVec 32) (i : Nat) : Nat :=
  (s.pairLane r x i + off.signExtend 64).toNat

/-- The aperture address of a lane: 32-bit offset plus offset, modulo 2^32 (R234). An offset beyond the aperture gives an
address that no region holds. -/
def State.laneOffset (s : State) (r : FibRef) (x : Src) (off : BitVec 32) (i : Nat) : Nat := (s.srcLane r x i + off).toNat

/-- The virtual address of an aperture offset; offsets past the aperture name no byte of any region and are kept apart by
the last offset of the aperture, which no region holds (R209). -/
def apertureVa (o : Nat) : Nat := Config.aperture + (if o < 2 ^ 24 then o else 2 ^ 24 - 1)

/-- A register load in each active lane, which can park (R96, R233, R234). -/
def loadWord (h : Hdr) (u : Bool) (d : BitVec 8) (x : Src) (pair : Bool) (size : Size) (sgn byp : Bool)
    (addr : State → FibRef → Nat → Nat) (s : State) : Host.Outcome State Fault Refusal :=
  let k := regCount pair
  runWord (atPoint h) false (srcNames x k) (srcLast x k) 6 s fun w s =>
    match s.wordFault w [x] (w.makers u) ((List.range size.regs).map (fun j => d.toNat + j)) with
    | some t => .bad t
    | none =>
      loadBody w s (laneAccs (w.makers u) (addr s w.ref) (fun _ => [])) d.toNat size.regs size.bytes sgn none byp u

/-- A register store in each active lane (R233, R234). -/
def storeWord (h : Hdr) (x : Src) (pair : Bool) (y : Src) (size : Size) (byp : Bool) (addr : State → FibRef → Nat → Nat)
    (s : State) : Host.Outcome State Fault Refusal :=
  runWord h false (srcNames x (regCount pair) ++ srcNames y size.regs) (srcLast x (regCount pair) ++ srcLast y size.regs) 6 s
    fun w s =>
    match s.wordFault w [x, y] w.lanes [] with
    | some t => .bad t
    | none =>
      storeBody w s size.bytes (if byp then .byp else .plain) none
        (laneAccs w.lanes (addr s w.ref) (fun i => s.valueBytes w.ref y size.bytes i)) (fun _ => 0)

/-- LD (R233). -/
def execLd (h : Hdr) (u : Bool) (d : BitVec 8) (a : Src) (size : Size) (sgn : Bool) (hint : CacheHint) (off : BitVec 32)
    (s : State) : Host.Outcome State Fault Refusal :=
  loadWord h u d a true size sgn (hint == .byp) (fun s r i => s.laneAddr r a off i) s

/-- ST (R233). -/
def execSt (h : Hdr) (a b : Src) (size : Size) (hint : CacheHint) (off : BitVec 32) (s : State) :
    Host.Outcome State Fault Refusal :=
  storeWord h a true b size (hint == .byp) (fun s r i => s.laneAddr r a off i) s

/-- LDS (R234). -/
def execLds (h : Hdr) (u : Bool) (d : BitVec 8) (a : Src) (size : Size) (sgn : Bool) (off : BitVec 32) (s : State) :
    Host.Outcome State Fault Refusal :=
  loadWord h u d a false size sgn false (fun s r i => apertureVa (s.laneOffset r a off i)) s

/-- STS (R234). -/
def execSts (h : Hdr) (a b : Src) (size : Size) (off : BitVec 32) (s : State) : Host.Outcome State Fault Refusal :=
  storeWord h a false b size false (fun s r i => apertureVa (s.laneOffset r a off i)) s

/-- The parameter-block offset of a lane (R236). -/
def State.paramOff (s : State) (r : FibRef) (x : Src) (useA : Bool) (off : BitVec 32) (i : Nat) : Int :=
  (if useA then ((s.srcLane r x i).toNat : Int) else 0) + sext off.toNat 32

/-- LDC (R236): every active lane is checked before any reads. -/
def execLdc (h : Hdr) (u : Bool) (d : BitVec 8) (a : Src) (size : Size) (sgn useA : Bool) (off : BitVec 32) (s : State) :
    Host.Outcome State Fault Refusal :=
  let x := if useA then a else .imm 0
  runWord h false (srcNames x 1) (srcLast x 1) 6 s fun w s =>
    let l := s.launchOf w.ref.wg
    let bad (i : Nat) : Bool :=
      let o := s.paramOff w.ref x useA off i
      decide (o < 0) || decide ((l.params : Int) < o + size.bytes)
    match s.wordFault w [x] (w.makers u) ((List.range size.regs).map (fun j => d.toNat + j)), (lanesOf (w.makers u)).find? bad with
    | some t, _ => .bad t
    | none, some i => .bad (w.operand i 8)
    | none, none =>
      loadBody w s (laneAccs (w.makers u)
        (fun i => (l.paramPtr + (s.paramOff w.ref x useA off i).toNat) % 2 ^ 64) (fun _ => []))
        d.toNat size.regs size.bytes sgn none false u

/-! ### Prefetch (R238) -/

/-- Prefetches one line: an address that would fault, or lies in the aperture, is ignored. A fill of the L1 is sent, and its bytes come
later (R227, R238). -/
def State.prefetch (s : State) (a : Agent) (l2 : Bool) (va : Nat) : State :=
  if inAperture va then s
  else match s.translate (clusterOf a.core) a.ctx va .read with
    | (.error _, _) => s
    | (.ok t, s) =>
      if l2 || noL1 a t va || s.poison.contains (loadFrom t.home (t.pa va) (dieOf a.core) / 128) then s
      else
        let (x, s) := s.lineFor a t va
        let x := x.expire s.tick
        if x.valid == allLanes || x.filling then s.l1Put a.core x
        else (s.countForward (clusterOf a.core) t (t.pa va)).l1Put a.core { x with filling := true }

/-- PREF (R238). -/
def execPref (h : Hdr) (u : Bool) (x : Src) (l2 : Bool) (off : BitVec 32) (s : State) : Host.Outcome State Fault Refusal :=
  runWord h false (srcNames x 2) (srcLast x 2) 6 s fun w s =>
    let addrs := (lanesOf (w.makers u)).map (s.laneAddr w.ref x off)
    .done (addrs.foldl (fun s va => s.prefetch (s.agent w.ref.wg) l2 va) s)

/-! ### Presence (R237) -/

/-- What `PRES` installs where it finds a line present (R260, R283). -/
def State.installLine (s : State) (r : FibRef) (line : Nat) : State := s.acquireFrom r (.scr (line * 128)) allLanes .sys

/-- PRES (R237). -/
def execPres (h : Hdr) (pd : BitVec 3) (x : Src) (off : BitVec 32) (s : State) : Host.Outcome State Fault Refusal :=
  runWord h false (srcNames x 1) (srcLast x 1) 6 s fun w s =>
    match s.wordFault w [x] w.lanes [] with
    | some t => .bad t
    | none =>
      let accs := laneAccs w.lanes (fun i => apertureVa (s.laneOffset w.ref x off i)) (fun _ => [])
      let (accs, out) := s.bounds w.ref.wg 1 accs
      let s := s.switchOff w.ref out
      let lineOf (y : LaneAcc) : Nat := ((s.aperture w.ref.wg (y.addr.toNat - Config.aperture) 1).getD 0) / 128
      let here := accs.filter (fun y => s.isPresent (lineOf y))
      let act := w.lanes &&& ~~~out
      let yes := here.foldl (fun m y => m ||| oneLane y.lane) (0 : Mask)
      let s := here.foldl (fun s y => s.installLine w.ref (lineOf y)) s
      .done (s.modFib w.ref (fun f => f.setPred pd act yes))

/-- PCLR (R237). -/
def execPclr (h : Hdr) (x y : Src) (set : Bool) (off : BitVec 32) (s : State) : Host.Outcome State Fault Refusal :=
  onceWord h [(x, 1), (y, 1)] [] s fun w s =>
    let o := (s.low32 w x + off.toNat) % 2 ^ 32
    let n := s.low32 w y
    match if o % 128 == 0 && n % 128 == 0 && n != 0 then s.aperture w.ref.wg o n else none with
    | some p => .done ((linesOf p n).foldl (fun s k => s.setPresent k set) s)
    | none => .bad (w.operand w.low 6)

/-! ### Cache control (R239) -/

/-- The L1 lines a cache-control word acts on: those of its addresses, or every line of its ASID and generation. -/
def cacheLines (a : Agent) (all : Bool) (addrs : List Nat) (x : L1Line) : Bool :=
  x.asid == a.asid && x.gen == a.gen && (all || addrs.any (fun va => !(inAperture va) && x.vline == va / 128))

/-- A cache-control word: it waits for the fibre's stores, then acts on the lines. -/
def cacheWord (h : Hdr) (x : Src) (all : Bool) (off : BitVec 32) (act : State → Nat → (L1Line → Bool) → State) (s : State) :
    Host.Outcome State Fault Refusal :=
  let y := if all then Src.imm 0 else x
  runWord h false (srcNames y 2) (srcLast y 2) 6 s fun w s =>
    afterStores w s fun s =>
      let a := s.agent w.ref.wg
      .done (act s a.core (cacheLines a all ((lanesOf w.lanes).map (s.laneAddr w.ref y off))))

/-- CWB (R239). -/
def execCwb (h : Hdr) (x : Src) (all : Bool) (off : BitVec 32) (s : State) : Host.Outcome State Fault Refusal :=
  cacheWord h x all off (fun s k p => s.cleanL1 k p) s

/-- CINV (R239). -/
def execCinv (h : Hdr) (x : Src) (all : Bool) (off : BitVec 32) (s : State) : Host.Outcome State Fault Refusal :=
  cacheWord h x all off (fun s k p => s.flushL1 k p) s

/-! ### Pins (R240) -/

/-- The storage lines of a range: every replica of a replicated page, and whether every line is in this package's local
memory. The subcode and byte where a translation fails. -/
def State.pinLines (s : State) (a : Agent) (va n : Nat) : Except (Nat × Nat) (List Nat × Bool) × State :=
  (List.range (n / 128)).foldl (fun (acc, s) i =>
    match acc with
    | .error e => (.error e, s)
    | .ok l =>
      let x := (va + 128 * i) % 2 ^ 64
      match s.translate (clusterOf a.core) a.ctx x .read with
      | (.error e, s) => (.error (e, x), s)
      | (.ok t, s) =>
        (.ok (if paRegion (t.pa x) == 0 then (l.1 ++ storedAt t.home (t.pa x), l.2) else (l.1, false)), s)) (.ok ([], true), s)

/-- A context's pin count of a line. -/
def State.pinCount (s : State) (ctx line : Nat) : Nat := Map.getD (Map.getD s.pins line []) ctx 0

/-- Pinned lines of a die, and of one of its L2 slices. -/
def State.pinned (s : State) (pins : Map (Map Nat)) (die : Nat) (slice : Option Nat) : Nat :=
  (pins.filter (fun (l, c) => l / 2 ^ 37 == die && !c.isEmpty && (slice.map (fun k => s.l2Slice l == k)).getD true)).length

/-- Adds a pin of a context to some lines. -/
def addPins (pins : Map (Map Nat)) (ctx : Nat) (l : List Nat) : Map (Map Nat) :=
  l.foldl (fun p x => Map.set p x (Map.set (Map.getD p x []) ctx (Map.getD (Map.getD p x []) ctx 0 + 1))) pins

/-- Whether pins exceed 1 MiB of some L2 slice or 512 MiB of some LLC, or a count 255, at some lines. -/
def State.pinsOver (s : State) (pins : Map (Map Nat)) (ctx : Nat) (l : List Nat) : Bool :=
  l.any (fun x =>
    255 < Map.getD (Map.getD pins x []) ctx 0 || 2 ^ 22 < s.pinned pins (x / 2 ^ 37) none ||
      2 ^ 13 < s.pinned pins (x / 2 ^ 37) (some (s.l2Slice x)))

/-- Removes one pin of a context from a line. -/
def dropPin (pins : Map (Map Nat)) (ctx x : Nat) : Map (Map Nat) :=
  let c := Map.getD pins x []
  let k := Map.getD c ctx 0
  let c := if k ≤ 1 then Map.del c ctx else Map.set c ctx (k - 1)
  if c.isEmpty then Map.del pins x else Map.set pins x c

/-- What LOCK and UNLOCK share: the checks of R240. -/
def pinWord (h : Hdr) (d : BitVec 8) (x y : Src) (off : BitVec 32) (act : State → Nat → List Nat → Bool → Nat × State)
    (s : State) : Host.Outcome State Fault Refusal :=
  unlessIllegal h 8 (fun r => !(s.launchOf r.wg).reserve) s <|
    onceWord h [(x, 2), (y, 1)] [d.toNat] s fun w s =>
      let ea := s.lowAddr w x off
      let n := s.low32 w y
      if ea % 128 != 0 || n % 128 != 0 || n == 0 || 2 ^ 24 < n then .bad (w.operand w.low 9)
      else match s.pinLines (s.agent w.ref.wg) ea n with
        | (.error (sub, byte), _) => .bad (w.trap 8 sub w.low byte 0)
        | (.ok (l, here), s) =>
          let (status, s) := act s (s.ctxOf w.ref.wg) l here
          .done (s.putAll w d.toNat status)

/-- LOCK (R240). -/
def execLock (h : Hdr) (d : BitVec 8) (x y : Src) (off : BitVec 32) (s : State) : Host.Outcome State Fault Refusal :=
  pinWord h d x y off (fun s c l here =>
    let p := addPins s.pins c l
    if !here then (2, s) else if s.pinsOver p c l then (1, s) else (0, { s with pins := p })) s

/-- UNLOCK (R240). -/
def execUnlock (h : Hdr) (d : BitVec 8) (x y : Src) (off : BitVec 32) (s : State) : Host.Outcome State Fault Refusal :=
  pinWord h d x y off (fun s c l here =>
    let mine := l.filter (fun k => s.pinCount c k != 0)
    (if mine.length == l.length && here then 0 else 1, { s with pins := mine.foldl (fun p k => dropPin p c k) s.pins })) s

end Sys2Proof.Machine
end

