-- ==== Sys2Proof/Machine/Atomics.lean ====
section
/-! DEFINITION. Class 0x9: atomics, acquires, releases, fences and waits (R250 to R271). -/

namespace Sys2Proof.Machine

/-- Whether some access goes to host memory (R266). -/
def State.anyHost (s : State) (a : Agent) (l : List LaneAcc) : Bool :=
  l.any (fun x => !(inAperture x.addr.toNat) &&
    (match (s.translate (clusterOf a.core) a.ctx x.addr.toNat .rmw).1 with
      | .ok t => paRegion (t.pa x.addr.toNat) == 3
      | .error _ => false))

/-- The operations the PCIe AtomicOp requests carry (R266). -/
def atomHost (op : AtomOp) : Bool := op == .add || op == .exch || op == .cas

/-- Whether an ordering releases, and whether it acquires. -/
def ordReleases (o : Ord) : Bool := o == .rel || o == .ar
/-- Whether an ordering acquires. -/
def ordAcquires (o : Ord) : Bool := o == .acq || o == .ar

/-- Performs the lanes of an `ATOM` in increasing order (R265), with their records, and leaves the old values in flight. -/
def State.atomLanes (s : State) (r : FibRef) (d : Nat) (op : AtomOp) (x2 : Bool) (ordRel ordAcq : Bool) (sc : Scope) (clock : Nat)
    (accs : List LaneAcc) (swap : Nat → Nat) : State :=
  let a := s.agent r.wg
  let n := if x2 then 8 else 4
  let (s, olds) := accs.foldl (fun (s, olds) x =>
    let va := x.addr.toNat
    let s := if ordAcq then s.learn r a n sc [x] else s
    let c := if ordRel then clock else ((s.fib r).map (·.clock)).getD 0
    let s := s.commitAccess r a va n true (if ordRel then some sc else none) c
    let (old, s) := s.atomAt a r.wg va op x2 (leNat x.bytes) (swap x.lane)
    (s, olds ++ [(x.lane, leBytes n old)])) (s, [])
  let s := if ordAcq then s.cacheAcquire a sc else s
  s.startLoad r d (n / 4) (accs.foldl (fun m x => m ||| oneLane x.lane) (0 : Mask)) (loadVecs (n / 4) n false false olds)

/-- The value and the new value of an atomic in one lane (R265): a `.cas` compares with B and stores B + 1 (pairs under
`.x2`: B and B + 2). -/
def State.atomArgs (s : State) (r : FibRef) (y : Src) (op : AtomOp) (x2 : Bool) (i : Nat) : List Byte × Nat :=
  let n := if x2 then 8 else 4
  let l := s.valueBytes r y (if op = .cas then 2 * n else n) i
  (l.take n, leNat (l.drop n))

/-- Registers that the value of an atomic names (R263). -/
def atomRegs (op : AtomOp) (x2 : Bool) : Nat := (if op = .cas then 2 else 1) * regCount x2

/-- A checked atomic access list: performed, or held faulted (R226, R264). -/
def atomChecked (w : Act) (s : State) (d : Nat) (op : AtomOp) (x2 : Bool) (ord : Ord) (sc : Scope) (accs : List LaneAcc)
    (swap : Nat → Nat) : Out :=
  let a := s.agent w.ref.wg
  let n := if x2 then 8 else 4
  let work := LogWork.atom d op x2 ord sc ((List.range 32).map swap)
  match s.probeAll a .rmw true n accs with
  | (some (sub, lane, byte), s) =>
    let (s, t) := s.logFault w n accs work 0x08 sub lane byte []
    .logged s t
  | (none, s) =>
    if s.anyHost a accs && !(atomHost op) then .bad (w.operand w.low 9)
    else if ordReleases ord then
      afterRelease w s sc fun s clock => .done (s.atomLanes w.ref d op x2 true (ordAcquires ord) sc clock accs swap)
    else .done (s.atomLanes w.ref d op x2 false (ordAcquires ord) sc 0 accs swap)

/-- ATOM (R264 to R267): it waits until every earlier store of the fibre has left. -/
def execAtom (h : Hdr) (d : BitVec 8) (x y : Src) (op : AtomOp) (x2 : Bool) (ord : Ord) (scope : Scope) (off : BitVec 32)
    (s : State) : Host.Outcome State Fault Refusal :=
  runWord (atPoint h) false (srcNames x 2 ++ srcNames y (atomRegs op x2)) (srcLast x 2 ++ srcLast y (atomRegs op x2)) 6 s fun w s =>
    let n := if x2 then 8 else 4
    match s.wordFault w [x, y] w.lanes ((List.range (regCount x2)).map (fun j => d.toNat + j)) with
    | some t => .bad t
    | none =>
      if op == .fadd && (s.launchOf w.ref.wg).determ then .bad w.nondet
      else afterStores w s fun s =>
        let accs := laneAccs w.lanes (s.laneAddr w.ref x off) (fun i => (s.atomArgs w.ref y op x2 i).1)
        let swap (i : Nat) : Nat := (s.atomArgs w.ref y op x2 i).2
        let (accs, out) := s.bounds w.ref.wg n accs
        let s := s.switchOff w.ref out
        let absent := s.absentLines w.ref.wg n accs
        if accs.isEmpty then .done s
        else if !absent.isEmpty then .hold s w.group (.present absent) true
        else afterLog w s (s.mayLog w.ref accs) fun s =>
          let known := if ordAcquires ord then s.learn w.ref (s.agent w.ref.wg) n scope accs else s
          afterCheck w s known (accs.map (fun x => (x.lane, x.addr.toNat, n, 2)))
            (fun lane va rcd =>
              let (s, t) := s.logFault w n accs (.atom d.toNat op x2 ord scope ((List.range 32).map swap)) 0x18 0 lane va rcd
              .logged s t)
            (atomChecked w s d.toNat op x2 ord scope accs swap)

/-- RED (R264 to R267): its accesses enter the store queue, and what its translation meets is known when it leaves it. -/
def execRed (h : Hdr) (x y : Src) (op : AtomOp) (x2 : Bool) (ord : Ord) (scope : Scope) (off : BitVec 32) (s : State) :
    Host.Outcome State Fault Refusal :=
  runWord (atPoint h) false (srcNames x 2 ++ srcNames y (atomRegs op x2)) (srcLast x 2 ++ srcLast y (atomRegs op x2)) 6 s fun w s =>
    let n := if x2 then 8 else 4
    match s.wordFault w [x, y] w.lanes [] with
    | some t => .bad t
    | none =>
      if op == .fadd && (s.launchOf w.ref.wg).determ then .bad w.nondet
      else
        let accs := laneAccs w.lanes (s.laneAddr w.ref x off) (fun i => (s.atomArgs w.ref y op x2 i).1)
        let swap (i : Nat) : Nat := (s.atomArgs w.ref y op x2 i).2
        let (inside, out) := s.bounds w.ref.wg n accs
        let absent := s.absentLines w.ref.wg n inside
        if !absent.isEmpty then .hold (s.switchOff w.ref out) w.group (.present absent) true
        else if s.anyHost (s.agent w.ref.wg) accs && !(atomHost op) then .bad (w.operand w.low 9)
        else storeBody w s n (.atomic op x2) (if ordReleases ord then some scope else none) accs swap

/-- LDACQ (R264, R268). -/
def execLdacq (h : Hdr) (d : BitVec 8) (x : Src) (size : Size) (sgn : Bool) (scope : Scope) (off : BitVec 32) (s : State) :
    Host.Outcome State Fault Refusal :=
  runWord (atPoint h) false (srcNames x 2) (srcLast x 2) 6 s fun w s =>
    match s.wordFault w [x] w.lanes ((List.range size.regs).map (fun j => d.toNat + j)) with
    | some t => .bad t
    | none =>
      let accs := laneAccs w.lanes (s.laneAddr w.ref x off) (fun _ => [])
      loadBody w s accs d.toNat size.regs size.bytes sgn (some scope) false false

/-- STREL (R264, R268). -/
def execStrel (h : Hdr) (x y : Src) (size : Size) (scope : Scope) (off : BitVec 32) (s : State) :
    Host.Outcome State Fault Refusal :=
  runWord h false (srcNames x 2 ++ srcNames y size.regs) (srcLast x 2 ++ srcLast y size.regs) 6 s fun w s =>
    match s.wordFault w [x, y] w.lanes [] with
    | some t => .bad t
    | none =>
      storeBody w s size.bytes .plain (some scope)
        (laneAccs w.lanes (s.laneAddr w.ref x off) (fun i => s.valueBytes w.ref y size.bytes i)) (fun _ => 0)

/-- FENCE (R256, R269). -/
def execFence (h : Hdr) (scope : Scope) (s : State) : Host.Outcome State Fault Refusal :=
  runWord h false [] [] 6 s fun w s =>
    afterStores w s fun s =>
      let a := s.agent w.ref.wg
      let s := (s.cacheRelease a scope).cacheAcquire a scope
      .done (if scopeWide scope then s.applyReplicas else s)

/-- The line that a watch of an address names: where the fibre's reads are served, its own die's replica of a replicated page; host
memory has none (R256, R270). -/
def State.watchLine (s : State) (r : FibRef) (a : Agent) (va : Nat) : Option Nat :=
  if inAperture va then (s.aperture r.wg (va - Config.aperture) 1).map (· / 128)
  else match (s.translate (clusterOf a.core) a.ctx va .read).1 with
    | .ok t => if paRegion (t.pa va) == 3 then none else some (globalLine (homeOf a t va))
    | .error _ => none

/-- Registers a watch, if the core has a free entry: its number (R270). -/
def State.addWatch (s : State) (core : Nat) (line : Option Nat) (r : FibRef) : Option Nat × State :=
  match line, (List.range 32).find? (fun k => (Map.find (s.core core).watches k).isNone) with
  | some l, some k => (some k, s.modCore core (fun c => { c with watches := Map.set c.watches k ⟨l, r, false⟩ }))
  | _, _ => (none, s)

/-- WAITV (R264, R270). -/
def execWaitv (h : Hdr) (d : BitVec 8) (x y : Src) (cc : Cc) (sgn x2 : Bool) (scope : Scope) (off : BitVec 32) (s : State) :
    Host.Outcome State Fault Refusal :=
  let k := regCount x2
  onceWord (atPoint h) [(x, 2), (y, k)] ((List.range k).map (fun j => d.toNat + j)) s fun w s =>
    let n := 4 * k
    let a := s.agent w.ref.wg
    let va := s.lowAddr w x off
    let acc : LaneAcc := ⟨w.low, BitVec.ofNat 64 va, []⟩
    if !(s.boundsOk w.ref.wg va n) then
      let me := oneLane w.low
      .done ((s.modFib w.ref (fun f => f.putBack f (w.group &&& ~~~me) w.pc)).switchOff w.ref me)
    else if !(inAperture va) && va % n != 0 then .bad (w.trap 8 5 w.low va 0)
    else
      let absent := s.absentLines w.ref.wg n [acc]
      if !absent.isEmpty then .hold s w.group (.present absent) true
      else if s.owesAt w.ref (s.scratchRanges w.ref.wg n [acc]) then .hold s w.group .owed false
      else match s.settleAtomics w.ref with
        | (s, some t) => .older s t
        | (s, none) => afterLog w s (s.launchOf w.ref.wg).checked fun s =>
          afterCheck w s (s.knowing w a n (some scope) [acc]) [(w.low, va, n, 0)] (raceOnce w s)
            (match s.loadBytes w.ref a false true va n with
            | (.error (sub, byte), _) => .bad (w.trap 8 sub w.low byte 0)
            | (.ok l, s) =>
              let v := BitVec.ofNat 64 (leNat l)
              let c := BitVec.ofNat 64 (leNat (s.valueBytes w.ref y n w.low))
              if ccHolds cc (extVal sgn (8 * n) v) (extVal sgn (8 * n) c) then
                let s := s.acquireAll w.ref a n scope [acc]
                .done (if x2 then s.putPair w.ref d.toNat w.lanes (fun _ => v) else s.putAll w d.toNat v.toNat)
              else
                let (e, s) := s.addWatch a.core (s.watchLine w.ref a va) w.ref
                .hold s w.group (.watch e (s.tick + 256) va) true)

end Sys2Proof.Machine
end

