-- ==== Sys2Proof/Machine/Logic.lean ====
section
/-! DEFINITION. Class 0x2: logic, shifts and bit-fields (R125 to R129). -/

namespace Sys2Proof.Machine

/-- LOGIC of one lane: each bit of the result is an entry of the table (R126). -/
def logicVal (lut : BitVec 8) (x y z : Word) : Word :=
  BitVec.ofNat 32 ((List.range 32).foldr (fun i n =>
    bit01 (lut.getLsbD (4 * bit01 (x.getLsbD i) + 2 * bit01 (y.getLsbD i) + bit01 (z.getLsbD i))) + 2 * n) 0)

/-- Whether a truth table depends on A, on B, on C (R126). -/
def lutUses (lut : BitVec 8) : Bool × Bool × Bool :=
  (((lut ^^^ (lut >>> 4)) &&& 0x0F) != 0, ((lut ^^^ (lut >>> 2)) &&& 0x33) != 0, ((lut ^^^ (lut >>> 1)) &&& 0x55) != 0)

/-- A source that the table reads, or none where it does not depend on it (R126). -/
def usedSrc (uses : Bool) (a : Src) : Operand := if uses then one a else absent

/-- LOGIC (R126). -/
def execLogic (h : Hdr) (u : Bool) (d : Dst) (a b c : Src) (lut : BitVec 8) (s : State) : Host.Outcome State Fault Refusal :=
  let (ua, ub, uc) := lutUses lut
  aluWord h u d false (usedSrc ua a) (usedSrc ub b) (usedSrc uc c) 6 (fun _ x y z =>
    plain ((logicVal lut (x.setWidth 32) (y.setWidth 32) (z.setWidth 32)).setWidth 64)) s

/-- SHL (R127). -/
def execShl (h : Hdr) (u : Bool) (d : Dst) (a b : Src) (x2 : Bool) (s : State) : Host.Outcome State Fault Refusal :=
  aluWord h u d x2 (wide x2 a) (one b) absent 6 (fun _ x y _ =>
    plain (if wOf x2 ≤ y.toNat then 0 else x <<< y.toNat)) s

/-- A right shift of `w` bits (R127). -/
def shrVal (sgn : Bool) (w : Nat) (x : Dword) (n : Nat) : Dword :=
  if sgn then ofIntMod w (extVal true w x / 2 ^ (min n w)) else if w ≤ n then 0 else BitVec.ofNat 64 (x.toNat % 2 ^ w / 2 ^ n)

/-- SHR (R127). -/
def execShr (h : Hdr) (u : Bool) (d : Dst) (a b : Src) (sgn x2 : Bool) (s : State) : Host.Outcome State Fault Refusal :=
  aluWord h u d x2 (wideBy x2 sgn a) (one b) absent 6 (fun _ x y _ => plain (shrVal sgn (wOf x2) x y.toNat)) s

/-- ROT (R127). -/
def execRot (h : Hdr) (u : Bool) (d : Dst) (a b : Src) (s : State) : Host.Outcome State Fault Refusal :=
  aluWord h u d false (one a) (one b) absent 6 (fun _ x y _ =>
    plain (((x.setWidth 32).rotateLeft (y.toNat % 32)).setWidth 64)) s

/-- A funnel shift (R127). -/
def funnel (left : Bool) (x y : Nat) (n : Nat) : Nat :=
  let v := y * 2 ^ 32 + x
  let k := min n 32
  if left then v * 2 ^ k / 2 ^ 32 % 2 ^ 32 else v / 2 ^ k % 2 ^ 32

/-- FSH (R127). -/
def execFsh (h : Hdr) (u : Bool) (d : Dst) (a b c : Src) (left : Bool) (s : State) : Host.Outcome State Fault Refusal :=
  aluWord h u d false (one a) (one b) (one c) 6 (fun _ x y z =>
    plain (BitVec.ofNat 64 (funnel left x.toNat y.toNat z.toNat))) s

/-- Zeros from the bottom of the low `w` bits. -/
def ctzVal (w v : Nat) : Nat := ((List.range w).find? (fun i => bit v i)).getD w
/-- Zeros from the top of the low `w` bits. -/
def clzVal (w v : Nat) : Nat := ((List.range w).find? (fun i => bit v (w - 1 - i))).getD w
/-- The low `w` bits in reverse order. -/
def brevVal (w v : Nat) : Nat := (List.range w).foldl (fun n i => 2 * n + bit01 (bit v i)) 0

/-- POPC (R127). -/
def execPopc (h : Hdr) (u : Bool) (d : Dst) (a : Src) (x2 : Bool) (s : State) : Host.Outcome State Fault Refusal :=
  aluWord h u d false (wide x2 a) absent absent 6 (fun _ x _ _ => plain (BitVec.ofNat 64 (ones (wOf x2) x.toNat))) s

/-- CLZ (R127). -/
def execClz (h : Hdr) (u : Bool) (d : Dst) (a : Src) (x2 : Bool) (s : State) : Host.Outcome State Fault Refusal :=
  aluWord h u d false (wide x2 a) absent absent 6 (fun _ x _ _ => plain (BitVec.ofNat 64 (clzVal (wOf x2) x.toNat))) s

/-- CTZ (R127). -/
def execCtz (h : Hdr) (u : Bool) (d : Dst) (a : Src) (x2 : Bool) (s : State) : Host.Outcome State Fault Refusal :=
  aluWord h u d false (wide x2 a) absent absent 6 (fun _ x _ _ => plain (BitVec.ofNat 64 (ctzVal (wOf x2) x.toNat))) s

/-- BREV (R127). -/
def execBrev (h : Hdr) (u : Bool) (d : Dst) (a : Src) (x2 : Bool) (s : State) : Host.Outcome State Fault Refusal :=
  aluWord h u d x2 (wide x2 a) absent absent 6 (fun _ x _ _ => plain (BitVec.ofNat 64 (brevVal (wOf x2) x.toNat))) s

/-- Position and width of a bit-field operand (R128). -/
def fieldOf (y : Nat) : Nat × Nat := (min (bits y 0 8) 32, min (bits y 8 8) 32)

/-- BFX of one lane (R128). -/
def bfxVal (sgn : Bool) (x y : Nat) : Dword :=
  let (p, w) := fieldOf y
  let f := x / 2 ^ p % 2 ^ w
  if sgn && w != 0 then ofIntMod 32 (sext f w) else BitVec.ofNat 64 f

/-- BFX (R128). -/
def execBfx (h : Hdr) (u : Bool) (d : Dst) (a b : Src) (sgn : Bool) (s : State) : Host.Outcome State Fault Refusal :=
  aluWord h u d false (one a) (one b) absent 6 (fun _ x y _ => plain (bfxVal sgn x.toNat y.toNat)) s

/-- BFI of one lane (R128). -/
def bfiVal (x y z : Nat) : Nat :=
  let (p, w) := fieldOf y
  let m := (2 ^ w - 1) * 2 ^ p % 2 ^ 32
  (z &&& (m ^^^ (2 ^ 32 - 1))) ||| (x * 2 ^ p &&& m)

/-- BFI (R128). -/
def execBfi (h : Hdr) (u : Bool) (d : Dst) (a b c : Src) (s : State) : Host.Outcome State Fault Refusal :=
  aluWord h u d false (one a) (one b) (one c) 6 (fun _ x y z => plain (BitVec.ofNat 64 (bfiVal x.toNat y.toNat z.toNat))) s

/-- One result byte of PRMT (R129). -/
def prmtByte (octet sel : Nat) : Nat :=
  let x := bits octet (8 * bits sel 0 3) 8
  if bit sel 3 then 0
  else if bit sel 4 then (if bit x 7 then 0xFF else 0)
  else
    let r := if bit sel 5 then brevVal 8 x else x
    if bit sel 6 then r ^^^ 0xFF else r

/-- PRMT of one lane (R129). -/
def prmtVal (x y z : Nat) : Nat :=
  ((List.range 4).map (fun k => prmtByte (y * 2 ^ 32 + x) (bits z (8 * k) 8) * 2 ^ (8 * k))).sum

/-- PRMT (R129). -/
def execPrmt (h : Hdr) (u : Bool) (d : Dst) (a b c : Src) (s : State) : Host.Outcome State Fault Refusal :=
  aluWord h u d false (one a) (one b) (one c) 6 (fun _ x y z => plain (BitVec.ofNat 64 (prmtVal x.toNat y.toNat z.toNat))) s

/-- The predicate of a word's issuing fibre in a lane, after negation. -/
def State.predLane (s : State) (p : BitVec 3) (neg : Bool) (i : Nat) : Bool :=
  (match s.cur.bind (fun c => s.fib c.ref) with | some f => f.pred p | none => 0).getLsbD i != neg

/-- SEL (R129). -/
def execSel (h : Hdr) (u : Bool) (d : Dst) (a b : Src) (p : BitVec 3) (pneg : Bool) (s : State) :
    Host.Outcome State Fault Refusal :=
  aluWord h u d false (one a) (one b) absent 6 (fun i x y _ => plain (if s.predLane p pneg i then x else y)) s

end Sys2Proof.Machine
end

