-- ==== Sys2Proof/Machine/Lane.lean ====
section
/-! DEFINITION. Class 0x3: moves, predicates and lane exchanges (R130 to R136). -/

namespace Sys2Proof.Machine

/-! ### Moves (R131) -/

/-- MOV (R131). -/
def execMov (h : Hdr) (u : Bool) (d : Dst) (a : Src) (x2 : Bool) (s : State) : Host.Outcome State Fault Refusal :=
  aluWord h u d x2 (wide x2 a) absent absent 6 (fun _ x _ _ => plain x) s

/-- MOVI (R131): the literal, extended to a pair by signedness. -/
def execMovi (h : Hdr) (u : Bool) (d : Dst) (sgn x2 : Bool) (imm : BitVec 32) (s : State) :
    Host.Outcome State Fault Refusal :=
  aluWord h u d x2 (wideBy x2 sgn (.imm imm)) absent absent 6 (fun _ x _ _ => plain x) s

/-- A special register in one lane (R131, R85, R82, R66, R225, R433); `none` for a number the device does not have. -/
def State.special (s : State) (r : FibRef) (n i : Nat) : Option Nat :=
  match Map.find s.wgs r.wg, s.fib r with
  | some w, some f =>
    match n with
    | 0x00 => some i
    | 0x01 => some (i / 8)
    | 0x02 => some (f.num + f.pos * 2 ^ 5 + f.lslot * 2 ^ 7 + bit01 f.undefRead * 2 ^ 31)
    | 0x03 => some (w.pslot f)
    | 0x04 => some (w.core % 8)
    | 0x05 => some (clusterOf w.core % 20)
    | 0x06 => some (dieOf w.core)
    | 0x07 => some s.pkg
    | 0x08 => some w.num
    | 0x09 => some f.fpf.toNat
    | 0x0A => some f.fp4x.toNat
    | 0x0B => some (s.ctxOf r.wg)
    | 0x0C => some (s.core w.core).rfcap
    | 0x0D => some s.dieMask
    | 0x0E => some (s.clusterMask (dieOf w.core))
    | 0x0F => some (s.coreMask (clusterOf w.core))
    | 0x10 => some f.spmask.toNat
    | 0x11 => some 1
    | _ => none
  | _, _ => none

/-- MOVS (R131): a read of s.fpf waits for the fibre's operations of the matrix array (R83, R121). -/
def execMovs (h : Hdr) (u : Bool) (d : Dst) (sr : BitVec 8) (s : State) : Host.Outcome State Fault Refusal :=
  runWord h false [] [] 6 s fun a s =>
    match s.wordFault a [] 0 (dstNames d 1) with
    | some t => .bad t
    | none =>
      (if sr == 0x09 then afterOwn a s else fun k => k s) fun s =>
      let v (i : Nat) : Word := BitVec.ofNat 32 ((s.special a.ref sr.toNat (if u then a.low else i)).getD 0)
      .done (s.putDst a.ref d false a.lanes (lanes v) (splat 0))

/-! ### Predicates (R132) -/

/-- PSET (R132). -/
def execPset (h : Hdr) (u : Bool) (pd pa pb pc : BitVec 3) (lut : BitVec 8) (s : State) : Host.Outcome State Fault Refusal :=
  runWord h false [] [] 6 s fun a s =>
    match s.fib a.ref with
    | none => .done s
    | some f =>
      let v (i : Nat) : Bool :=
        let k := if u then a.low else i
        lut.getLsbD (4 * bit01 ((f.pred pa).getLsbD k) + 2 * bit01 ((f.pred pb).getLsbD k) + bit01 ((f.pred pc).getLsbD k))
      .done (s.modFib a.ref (fun f => f.setPred pd a.lanes (maskOf v)))

/-- The predicates of one lane as a number, p7 included (R132). -/
def Fibre.predBits (f : Fibre) (i : Nat) : Nat :=
  ((List.range 8).map (fun k => bit01 ((f.pred (BitVec.ofNat 3 k)).getLsbD i) * 2 ^ k)).sum

/-- PMOV (R132). -/
def execPmov (h : Hdr) (u : Bool) (d : Dst) (s : State) : Host.Outcome State Fault Refusal :=
  runWord h false [] [] 6 s fun a s =>
    match s.wordFault a [] 0 (dstNames d 1), s.fib a.ref with
    | some t, _ => .bad t
    | none, none => .done s
    | none, some f =>
      .done (s.putDst a.ref d false a.lanes (lanes (fun i => BitVec.ofNat 32 (f.predBits (if u then a.low else i)))) (splat 0))

/-- PMOV.in (R132). -/
def execPmovIn (h : Hdr) (u : Bool) (x : Src) (mask : BitVec 7) (s : State) : Host.Outcome State Fault Refusal :=
  runWord h false (srcNames x 1) (srcLast x 1) 6 s fun a s =>
    match s.wordFault a [x] (a.readers u) [] with
    | some t => .bad t
    | none =>
      let v (i : Nat) : Word := s.srcLane a.ref x (if u then a.low else i)
      .done (s.modFib a.ref (fun f => (List.range 7).foldl (fun f k =>
        if mask.getLsbD k then f.setPred (BitVec.ofNat 3 k) a.lanes (maskOf (fun i => (v i).getLsbD k)) else f) f))

/-! ### Lane exchanges (R133 to R136) -/

/-- A word that exchanges values between lanes (R133): under `.conv` it issues only for every live thread of the fibre;
without it, a group that lacks a live thread faults in a deterministic launch. -/
def exchangeWord (h : Hdr) (conv : Bool) (reads last : List Nat) (pj : Nat) (s : State) (body : Act → State → Out) :
    Host.Outcome State Fault Refusal :=
  let apart : Option (Cur × Fibre) := match s.cur with
    | some c => (s.fib c.ref).bind (fun f => if f.live != c.lanes then some (c, f) else none)
    | none => none
  match apart with
  | none => runWord h false reads last pj s body
  | some (c, f) =>
    if conv && h != Hdr.never then .next (s.holdAt h (f.actOf h false c) f c.lanes (.conv c.pc) false)
    else runWord h false reads last pj s fun a s =>
      if (s.launchOf a.ref.wg).determ then .bad a.nondet else body a s

/-- Lanes of an active set in which a predicate holds, after negation. -/
def State.predMask (s : State) (a : Act) (p : BitVec 3) (neg : Bool) : Mask :=
  match s.fib a.ref with
  | some f => a.lanes &&& (if neg then ~~~(f.pred p) else f.pred p)
  | none => 0

/-- The number of lanes of a mask. -/
def maskCount (m : Mask) : Nat := (lanesOf m).length

/-- BALLOT (R134). -/
def execBallot (h : Hdr) (d : Dst) (p : BitVec 3) (pneg cnt conv : Bool) (s : State) : Host.Outcome State Fault Refusal :=
  exchangeWord h conv [] [] 6 s fun a s =>
    match s.wordFault a [] 0 (dstNames d 1) with
    | some t => .bad t
    | none =>
      let m := s.predMask a p pneg
      .done (s.putDst a.ref d false a.lanes (splat (if cnt then BitVec.ofNat 32 (maskCount m) else m)) (splat 0))

/-- The value of VOTE for the lanes where its predicate is true (R134). -/
def voteValue (mode : VoteMode) (act yes : Mask) : Bool :=
  match mode with
  | .all => yes == act
  | .any => yes != 0
  | .eq => yes == act || yes == 0
  | .maj => decide (maskCount act < 2 * maskCount yes)

/-- VOTE (R134). -/
def execVote (h : Hdr) (pd p : BitVec 3) (pneg : Bool) (mode : VoteMode) (conv : Bool) (s : State) :
    Host.Outcome State Fault Refusal :=
  exchangeWord h conv [] [] 6 s fun a s =>
    let v := voteValue mode a.lanes (s.predMask a p pneg)
    .done (s.modFib a.ref (fun f => f.setPred pd a.lanes (if v then allLanes else 0)))

/-- The source lane of SHFL (R135). -/
def shflSource (mode : ShflMode) (seg n i : Nat) : Option Nat :=
  let g := 2 ^ seg
  let base := i - i % g
  let off := i % g
  match mode with
  | .pick => some (base + n % g)
  | .rot => some (base + (off + n) % g)
  | .sh =>
    let t : Int := off + sext n 32
    if t < 0 || (g : Int) ≤ t then none else some (base + t.toNat)
  | .xor => some (base + (off ^^^ (n % g)))
  | .rev => some (base + (g - 1 - off))

/-- SHFL (R135): a latch that may not be read in a source lane is a fault of the active lane that reads it (R32, R397). -/
def execShfl (h : Hdr) (d : Dst) (x y : Src) (mode : ShflMode) (seg : BitVec 3) (zf conv : Bool) (s : State) :
    Host.Outcome State Fault Refusal :=
  let ys := if mode = .rev then Src.imm 0 else y
  exchangeWord h conv (srcNames x 1 ++ srcNames ys 1) (srcLast x 1 ++ srcLast ys 1) 6 s fun a s =>
    let from1 (i : Nat) : Option Nat := shflSource mode seg.toNat (s.srcLane a.ref ys i).toNat i
    let unread (i : Nat) : Bool :=
      match from1 i with
      | some k => (s.badLatch a.ref x (oneLane k)).isSome
      | none => !zf && (s.badLatch a.ref x (oneLane i)).isSome
    match s.wordFault a [ys] a.lanes (dstNames d 1), (lanesOf a.lanes).find? unread with
    | some t, _ => .bad t
    | none, some i => .bad (a.operand i 1)
    | none, none =>
      let v (i : Nat) : Word := match from1 i with
        | some k => s.srcLane a.ref x k
        | none => if zf then 0 else s.srcLane a.ref x i
      .done (s.putDst a.ref d false a.lanes (lanes v) (splat 0))

/-- MATCH (R134). -/
def execMatch (h : Hdr) (d : Dst) (x : Src) (x2 low conv : Bool) (s : State) : Host.Outcome State Fault Refusal :=
  let o := wide x2 x
  exchangeWord h conv o.names o.last 6 s fun a s =>
    match s.wordFault a [x] a.lanes (dstNames d 1) with
    | some t => .bad t
    | none =>
      let same (i : Nat) : List Nat := (lanesOf a.lanes).filter (fun k => s.opLane a.ref o k == s.opLane a.ref o i)
      let v (i : Nat) : Word :=
        if low then BitVec.ofNat 32 ((same i).headD 0) else (same i).foldl (fun m k => m ||| oneLane k) 0
      .done (s.putDst a.ref d false a.lanes (lanes v) (splat 0))

/-- The combination of two values (R136). -/
def laneCombine (op : LaneOp) (sgn : Bool) (x y : Word) : Word :=
  match op with
  | .add => x + y
  | .min => if extVal sgn 32 (x.setWidth 64) ≤ extVal sgn 32 (y.setWidth 64) then x else y
  | .max => if extVal sgn 32 (x.setWidth 64) ≤ extVal sgn 32 (y.setWidth 64) then y else x
  | .and => x &&& y
  | .or => x ||| y
  | .xor => x ^^^ y

/-- The identity of an operation (R136). -/
def laneIdentity (op : LaneOp) (sgn : Bool) : Word :=
  match op with
  | .add => 0
  | .min => if sgn then 0x7FFFFFFF else 0xFFFFFFFF
  | .max => if sgn then 0x80000000 else 0
  | .and => 0xFFFFFFFF
  | .or => 0
  | .xor => 0

/-- Lanes of the same fibre, or of the same quarter under `.q`. -/
def sameGroup (q : Bool) (i k : Nat) : Bool := !q || i / 8 == k / 8

/-- LREDI (R136). -/
def execLredi (h : Hdr) (d : Dst) (x : Src) (sgn q : Bool) (op : LaneOp) (conv : Bool) (s : State) :
    Host.Outcome State Fault Refusal :=
  exchangeWord h conv (srcNames x 1) (srcLast x 1) 6 s fun a s =>
    match s.wordFault a [x] a.lanes (dstNames d 1) with
    | some t => .bad t
    | none =>
      let v (i : Nat) : Word := ((lanesOf a.lanes).filter (sameGroup q i)).foldl
        (fun m k => laneCombine op sgn m (s.srcLane a.ref x k)) (laneIdentity op sgn)
      .done (s.putDst a.ref d false a.lanes (lanes v) (splat 0))

/-- LSCAN (R136). -/
def execLscan (h : Hdr) (d : Dst) (x : Src) (sgn q excl : Bool) (op : LaneOp) (conv : Bool) (s : State) :
    Host.Outcome State Fault Refusal :=
  exchangeWord h conv (srcNames x 1) (srcLast x 1) 6 s fun a s =>
    match s.wordFault a [x] a.lanes (dstNames d 1) with
    | some t => .bad t
    | none =>
      let v (i : Nat) : Word := ((lanesOf a.lanes).filter (fun k => sameGroup q i k && (k < i || (k == i && !excl)))).foldl
        (fun m k => laneCombine op sgn m (s.srcLane a.ref x k)) (laneIdentity op sgn)
      .done (s.putDst a.ref d false a.lanes (lanes v) (splat 0))

/-- ELECT (R134). -/
def execElect (h : Hdr) (pd : BitVec 3) (high conv : Bool) (s : State) : Host.Outcome State Fault Refusal :=
  exchangeWord h conv [] [] 6 s fun a s =>
    let k := if high then (lanesOf a.lanes).getLast?.getD 0 else a.low
    .done (s.modFib a.ref (fun f => f.setPred pd a.lanes (oneLane k)))

end Sys2Proof.Machine
end

