-- ==== Sys2Proof/Machine/Float.lean ====
section
/-! DEFINITION. Class 0x4: FP32 arithmetic, comparisons, functions and lane reductions (R139 to R150). -/

namespace Sys2Proof.Machine

/-- The low word of an operand. -/
def lo32 (x : Dword) : Word := x.setWidth 32

/-- A rounded result as what a lane computes. -/
def asLane (r : Res) : Dword × BitVec 6 := (BitVec.ofNat 64 r.code, r.flags)

/-- The FP32 value of an operand. -/
def fv (x : Dword) : Val := f32 (lo32 x)

/-- FADD (R143). -/
def execFadd (h : Hdr) (u : Bool) (d : Dst) (a b : Src) (rnd : Rnd) (sat : Bool) (s : State) : Host.Outcome State Fault Refusal :=
  aluWord h u d false (one a) (one b) absent 9 (fun _ x y _ => asLane (addVal .f32 rnd sat (fv x) (fv y))) s

/-- FSUB (R143). -/
def execFsub (h : Hdr) (u : Bool) (d : Dst) (a b : Src) (rnd : Rnd) (sat : Bool) (s : State) : Host.Outcome State Fault Refusal :=
  aluWord h u d false (one a) (one b) absent 9 (fun _ x y _ => asLane (addVal .f32 rnd sat (fv x) (fv y).negate)) s

/-- FMUL (R143). -/
def execFmul (h : Hdr) (u : Bool) (d : Dst) (a b : Src) (rnd : Rnd) (sat : Bool) (s : State) : Host.Outcome State Fault Refusal :=
  aluWord h u d false (one a) (one b) absent 9 (fun _ x y _ => asLane (mulVal .f32 rnd sat (fv x) (fv y))) s

/-- FFMA (R143). -/
def execFfma (h : Hdr) (u : Bool) (d : Dst) (a b c : Src) (rnd : Rnd) (sat : Bool) (s : State) :
    Host.Outcome State Fault Refusal :=
  aluWord h u d false (one a) (one b) (one c) 9 (fun _ x y z => asLane (fmaVal .f32 rnd sat (fv x) (fv y) (fv z))) s

/-- A minimum or maximum (R145). -/
def minMaxWord (isMax number : Bool) (h : Hdr) (u : Bool) (d : Dst) (a b : Src) (s : State) : Host.Outcome State Fault Refusal :=
  aluWord h u d false (one a) (one b) absent 9 (fun _ x y _ =>
    asLane (minMax .f32 isMax number (fv x) (fv y) (lo32 x).toNat (lo32 y).toNat)) s

/-- FMIN (R145). -/
def execFmin (h : Hdr) (u : Bool) (d : Dst) (a b : Src) (s : State) : Host.Outcome State Fault Refusal :=
  minMaxWord false false h u d a b s
/-- FMAX (R145). -/
def execFmax (h : Hdr) (u : Bool) (d : Dst) (a b : Src) (s : State) : Host.Outcome State Fault Refusal :=
  minMaxWord true false h u d a b s
/-- FMINN (R145). -/
def execFminn (h : Hdr) (u : Bool) (d : Dst) (a b : Src) (s : State) : Host.Outcome State Fault Refusal :=
  minMaxWord false true h u d a b s
/-- FMAXN (R145). -/
def execFmaxn (h : Hdr) (u : Bool) (d : Dst) (a b : Src) (s : State) : Host.Outcome State Fault Refusal :=
  minMaxWord true true h u d a b s

/-- FCMP (R146). -/
def execFcmp (h : Hdr) (u : Bool) (pd : BitVec 3) (a b : Src) (cc : FCc) (s : State) : Host.Outcome State Fault Refusal :=
  predWord h u pd (one a) (one b) 9 (fun _ x y => cmpVal cc (fv x) (fv y)) s

/-- FABS (R81, R146): the sign bit clear. -/
def execFabs (h : Hdr) (u : Bool) (d : Dst) (a : Src) (s : State) : Host.Outcome State Fault Refusal :=
  aluWord h u d false (one a) absent absent 9 (fun _ x _ _ => plain (x &&& 0x7FFFFFFF)) s

/-- FNEG (R81, R146): the sign bit inverted. -/
def execFneg (h : Hdr) (u : Bool) (d : Dst) (a : Src) (s : State) : Host.Outcome State Fault Refusal :=
  aluWord h u d false (one a) absent absent 9 (fun _ x _ _ => plain (x ^^^ 0x80000000)) s

/-- FCLASS (R146). -/
def execFclass (h : Hdr) (u : Bool) (d : Dst) (a : Src) (s : State) : Host.Outcome State Fault Refusal :=
  aluWord h u d false (one a) absent absent 9 (fun _ x _ _ => plain ((classOf (lo32 x)).setWidth 64)) s

/-- FDIV (R143). -/
def execFdiv (h : Hdr) (u : Bool) (d : Dst) (a b : Src) (rnd : Rnd) (s : State) : Host.Outcome State Fault Refusal :=
  aluWord h u d false (one a) (one b) absent 20 (fun _ x y _ => asLane (divVal rnd (fv x) (fv y))) s

/-- A correctly rounded function of one operand (R144). -/
def unaryWord (f : Val → Res) (h : Hdr) (u : Bool) (d : Dst) (a : Src) (s : State) : Host.Outcome State Fault Refusal :=
  aluWord h u d false (one a) absent absent 20 (fun _ x _ _ => asLane (f (fv x))) s

/-- FSQRT (R144). -/
def execFsqrt (h : Hdr) (u : Bool) (d : Dst) (a : Src) (rnd : Rnd) (s : State) : Host.Outcome State Fault Refusal :=
  unaryWord (sqrtVal rnd) h u d a s
/-- FRCP (R144). -/
def execFrcp (h : Hdr) (u : Bool) (d : Dst) (a : Src) (rnd : Rnd) (s : State) : Host.Outcome State Fault Refusal :=
  unaryWord (rcpVal rnd) h u d a s
/-- FRSQ (R144). -/
def execFrsq (h : Hdr) (u : Bool) (d : Dst) (a : Src) (rnd : Rnd) (s : State) : Host.Outcome State Fault Refusal :=
  unaryWord (rsqVal rnd) h u d a s
/-- FEXP2 (R144). -/
def execFexp2 (h : Hdr) (u : Bool) (d : Dst) (a : Src) (rnd : Rnd) (s : State) : Host.Outcome State Fault Refusal :=
  unaryWord (exp2Val rnd) h u d a s
/-- FLOG2 (R144). -/
def execFlog2 (h : Hdr) (u : Bool) (d : Dst) (a : Src) (rnd : Rnd) (s : State) : Host.Outcome State Fault Refusal :=
  unaryWord (log2Val rnd) h u d a s
/-- FSIN (R144). -/
def execFsin (h : Hdr) (u : Bool) (d : Dst) (a : Src) (rnd : Rnd) (s : State) : Host.Outcome State Fault Refusal :=
  unaryWord (trigVal rnd false) h u d a s
/-- FCOS (R144). -/
def execFcos (h : Hdr) (u : Bool) (d : Dst) (a : Src) (rnd : Rnd) (s : State) : Host.Outcome State Fault Refusal :=
  unaryWord (trigVal rnd true) h u d a s
/-- FTANH (R144). -/
def execFtanh (h : Hdr) (u : Bool) (d : Dst) (a : Src) (rnd : Rnd) (s : State) : Host.Outcome State Fault Refusal :=
  unaryWord (tanhVal rnd) h u d a s

/-- FSCALE (R143). -/
def execFscale (h : Hdr) (u : Bool) (d : Dst) (a b : Src) (rnd : Rnd) (sat : Bool) (s : State) :
    Host.Outcome State Fault Refusal :=
  aluWord h u d false (one a) (one b) absent 9 (fun _ x y _ => asLane (scaleVal2 rnd sat (fv x) (sext y.toNat 32))) s

/-- The element of extreme rank among numbered ones, the lowest number on a tie (R147). -/
def extreme (max : Bool) (l : List (Nat × Word)) : Nat × Word :=
  match l with
  | [] => (0, 0)
  | e :: r => r.foldl (fun b x =>
      if (if max then decide (rankOf b.2 < rankOf x.2) else decide (rankOf x.2 < rankOf b.2)) then x else b) e

/-- Writes an element and its index to a pair, capturing the element (R147). -/
def State.putElem (s : State) (a : Act) (d : Dst) (f : Nat → Nat × Word) : State :=
  s.putDst a.ref d true a.lanes (lanes (fun i => (f i).2)) (lanes (fun i => BitVec.ofNat 32 (f i).1))

/-- FLREDM over the lanes (R147). -/
def execFlredm (h : Hdr) (d : Dst) (x : Src) (max q conv : Bool) (s : State) : Host.Outcome State Fault Refusal :=
  exchangeWord h conv (srcNames x 1) (srcLast x 1) 9 s fun a s =>
    match s.wordFault a [x] a.lanes (dstNames d 2) with
    | some t => .bad t
    | none =>
      let g (i : Nat) := extreme max (((lanesOf a.lanes).filter (sameGroup q i)).map (fun k => (k, s.srcLane a.ref x k)))
      .done (s.putElem a d g)

/-- FLREDM over the columns of a tile row (R147, R148, R190): the word issues at once, and the read, with its register writes and its
capture, takes effect in its place in the tile's order. -/
def execFlredmTile (h : Hdr) (d : Dst) (x : Src) (tile : BitVec 4) (max : Bool) (s : State) :
    Host.Outcome State Fault Refusal :=
  runWord h false (srcNames x 1) (srcLast x 1) 9 s fun a s =>
    afterConfig a s fun s =>
    match s.wordFault a [x] a.lanes (dstNames d 2), s.tile a.ref.wg tile.toNat with
    | some t, _ => .bad t
    | none, none => .bad (a.operand a.low 5)
    | none, some tl =>
      let row (i : Nat) : Nat := (s.srcLane a.ref x i).toNat
      match (lanesOf a.lanes).find? (fun i => tl.rows.length ≤ row i) with
      | some i => .bad (a.operand i 5)
      | none =>
        .done (s.owing a (.extreme d max ((lanesOf a.lanes).map (fun i => (i, row i)))) tile.toNat (dstNames d 2) [256 + (Dst.latch d).toNat])

/-- The two inputs of one node of the tree (R149): an absent one gives the other. -/
def sumNode (rnd : Rnd) (x y : Option Word × BitVec 6) : Option Word × BitVec 6 :=
  match x.1, y.1 with
  | some p, some q => let r := addVal .f32 rnd false (f32 p) (f32 q); (some (BitVec.ofNat 32 r.code), x.2 ||| y.2 ||| r.flags)
  | some p, none => (some p, x.2 ||| y.2)
  | none, q => (q, x.2 ||| y.2)

/-- The tree sum of `2^k` lanes from lane `i` (R149). -/
def treeSum (rnd : Rnd) (v : Nat → Option Word) : Nat → Nat → Option Word × BitVec 6
  | 0, i => (v i, 0)
  | k + 1, i => sumNode rnd (treeSum rnd v k i) (treeSum rnd v k (i + 2 ^ k))

/-- FLSUM (R149). -/
def execFlsum (h : Hdr) (d : Dst) (x : Src) (rnd : Rnd) (q conv : Bool) (s : State) : Host.Outcome State Fault Refusal :=
  exchangeWord h conv (srcNames x 1) (srcLast x 1) 9 s fun a s =>
    match s.wordFault a [x] a.lanes (dstNames d 1) with
    | some t => .bad t
    | none =>
      let v (i : Nat) : Option Word := if a.lanes.getLsbD i then some (s.srcLane a.ref x i) else none
      let r (i : Nat) := if q then treeSum rnd v 3 (i / 8 * 8) else treeSum rnd v 5 0
      .done ((s.putDst a.ref d false a.lanes (lanes (fun i => ((r i).1).getD 0)) (splat 0)).raise a.ref
        (((lanesOf a.lanes).foldl (fun fl i => fl ||| (r i).2) 0)))

end Sys2Proof.Machine
end

