-- ==== Sys2Proof/Machine/Convert.lean ====
section
/-! DEFINITION. Class 0x5: conversions, packed 16-bit arithmetic, quantisation and bins (R151 to R159). -/

namespace Sys2Proof.Machine

/-- The issuing fibre's s.fp4x (R66). -/
def State.fp4x (s : State) : BitVec 8 :=
  match s.cur.bind (fun c => s.fib c.ref) with
  | some f => f.fp4x
  | none => 0x80

/-- Widening of an element to FP32 (R153, R155). -/
def widen (extra : BitVec 8) (fmt : Fmt) (code : Nat) : Res := convert .f32 .rne false (decodeElem extra fmt code)

/-- Narrowing of an FP32 value (R153). -/
def narrow (fmt : Fmt) (rnd : Rnd) (sat : Bool) (x : Dword) : Res := convert fmt rnd sat (fv x)

/-- FCVT (R153). -/
def execFcvt (h : Hdr) (u : Bool) (d : Dst) (a : Src) (rnd : Rnd) (sat : Bool) (fmt : Fmt) (s : State) :
    Host.Outcome State Fault Refusal :=
  aluWord h u d false (one a) absent absent 9 (fun _ x _ _ => asLane (narrow fmt rnd sat x)) s

/-- FCVT.wid (R153). -/
def execFcvtWid (h : Hdr) (u : Bool) (d : Dst) (a : Src) (fmt : Fmt) (s : State) : Host.Outcome State Fault Refusal :=
  aluWord h u d false (one a) absent absent 9 (fun _ x _ _ => asLane (widen s.fp4x fmt (x.toNat % 2 ^ fmtWidth fmt))) s

/-- F2I (R154). -/
def execF2i (h : Hdr) (u : Bool) (d : Dst) (a : Src) (sgn x2 : Bool) (rnd : Rnd) (s : State) :
    Host.Outcome State Fault Refusal :=
  aluWord h u d x2 (one a) absent absent 9 (fun _ x _ _ =>
    let r := toInt rnd sgn (wOf x2) (fv x)
    (ofIntMod (wOf x2) r.1, r.2)) s

/-- I2F (R154). -/
def execI2f (h : Hdr) (u : Bool) (d : Dst) (a : Src) (sgn x2 : Bool) (rnd : Rnd) (s : State) :
    Host.Outcome State Fault Refusal :=
  aluWord h u d false (wideBy x2 sgn a) absent absent 9 (fun _ x _ _ => asLane (ofInt rnd (extVal sgn (wOf x2) x))) s

/-- FRND (R154). -/
def execFrnd (h : Hdr) (u : Bool) (d : Dst) (a : Src) (rnd : Rnd) (s : State) : Host.Outcome State Fault Refusal :=
  aluWord h u d false (one a) absent absent 9 (fun _ x _ _ => asLane (roundIntegral rnd (lo32 x))) s

/-- A number with one element of width `w` replaced. -/
def putElemAt (v w k e : Nat) : Nat := v - bits v (w * k) w * 2 ^ (w * k) + e % 2 ^ w * 2 ^ (w * k)

/-- FPACK (R155). -/
def execFpack (h : Hdr) (u : Bool) (d : Dst) (a b c : Src) (rnd : Rnd) (sat : Bool) (fmt : Fmt) (pos : BitVec 2) (s : State) :
    Host.Outcome State Fault Refusal :=
  aluWord h u d false (one a) (one b) (if fmt.is16 then absent else one c) 9 (fun _ x y z =>
    let p := narrow fmt rnd sat x
    let q := narrow fmt rnd sat y
    let w := fmtWidth fmt
    (BitVec.ofNat 64 (putElemAt (putElemAt z.toNat w (2 * pos.toNat) p.code) w (2 * pos.toNat + 1) q.code), p.flags ||| q.flags)) s

/-- FUNPK (R155). -/
def execFunpk (h : Hdr) (u : Bool) (d : Dst) (a : Src) (idx : BitVec 3) (x2 : Bool) (fmt : Fmt) (s : State) :
    Host.Outcome State Fault Refusal :=
  aluWord h u d x2 (one a) absent absent 9 (fun _ x _ _ =>
    let w := fmtWidth fmt
    let e (k : Nat) := widen s.fp4x fmt (bits x.toNat (w * k) w)
    let p := e idx.toNat
    let q := if x2 then e (idx.toNat + 1) else ⟨0, 0⟩
    (BitVec.ofNat 64 (p.code + q.code * 2 ^ 32), p.flags ||| q.flags)) s

/-- The two 16-bit elements of an operand. -/
def halfVal (fmt : Fmt) (x : Dword) (k : Nat) : Val := (layoutOf fmt).decode (bits x.toNat (16 * k) 16)

/-- Two independent halves of a packed result (R156). -/
def halves (f : Nat → Res) : Dword × BitVec 6 :=
  (BitVec.ofNat 64 ((f 0).code + (f 1).code * 2 ^ 16), (f 0).flags ||| (f 1).flags)

/-- HADD2 (R156). -/
def execHadd2 (h : Hdr) (u : Bool) (d : Dst) (a b : Src) (rnd : Rnd) (sat : Bool) (fmt : Fmt) (s : State) :
    Host.Outcome State Fault Refusal :=
  aluWord h u d false (one a) (one b) absent 9 (fun _ x y _ =>
    halves (fun k => addVal fmt rnd sat (halfVal fmt x k) (halfVal fmt y k))) s

/-- HMUL2 (R156). -/
def execHmul2 (h : Hdr) (u : Bool) (d : Dst) (a b : Src) (rnd : Rnd) (sat : Bool) (fmt : Fmt) (s : State) :
    Host.Outcome State Fault Refusal :=
  aluWord h u d false (one a) (one b) absent 9 (fun _ x y _ =>
    halves (fun k => mulVal fmt rnd sat (halfVal fmt x k) (halfVal fmt y k))) s

/-- HFMA2 (R156). -/
def execHfma2 (h : Hdr) (u : Bool) (d : Dst) (a b c : Src) (rnd : Rnd) (sat : Bool) (fmt : Fmt) (s : State) :
    Host.Outcome State Fault Refusal :=
  aluWord h u d false (one a) (one b) (one c) 9 (fun _ x y z =>
    halves (fun k => fmaVal fmt rnd sat (halfVal fmt x k) (halfVal fmt y k) (halfVal fmt z k))) s

/-- A packed minimum or maximum (R156). -/
def halfMinMax (isMax num : Bool) (fmt : Fmt) (x y : Dword) : Dword × BitVec 6 :=
  halves (fun k => minMax fmt isMax num (halfVal fmt x k) (halfVal fmt y k) (bits x.toNat (16 * k) 16) (bits y.toNat (16 * k) 16))

/-- HMIN2 (R156). -/
def execHmin2 (h : Hdr) (u : Bool) (d : Dst) (a b : Src) (num : Bool) (fmt : Fmt) (s : State) :
    Host.Outcome State Fault Refusal :=
  aluWord h u d false (one a) (one b) absent 9 (fun _ x y _ => halfMinMax false num fmt x y) s

/-- HMAX2 (R156). -/
def execHmax2 (h : Hdr) (u : Bool) (d : Dst) (a b : Src) (num : Bool) (fmt : Fmt) (s : State) :
    Host.Outcome State Fault Refusal :=
  aluWord h u d false (one a) (one b) absent 9 (fun _ x y _ => halfMinMax true num fmt x y) s

/-- QSCALE (R157). -/
def execQscale (h : Hdr) (u : Bool) (d : Dst) (a : Src) (fit : Bool) (fmt : Fmt) (s : State) :
    Host.Outcome State Fault Refusal :=
  aluWord h u d false (one a) absent absent 9 (fun _ x _ _ => asLane (qscaleVal fit fmt (fv x))) s

/-- QNT (R158). -/
def execQnt (h : Hdr) (u : Bool) (d : Dst) (a b c : Src) (rnd : Rnd) (sat : Bool) (fmt : Fmt) (pos : BitVec 3) (s : State) :
    Host.Outcome State Fault Refusal :=
  aluWord h u d false (one a) (one b) (one c) 9 (fun _ x y z =>
    let r := qntVal rnd sat fmt (fv x) (bits y.toNat 0 8)
    (BitVec.ofNat 64 (putElemAt z.toNat (fmtWidth fmt) pos.toNat r.code), r.flags)) s

/-- The block exponent of an operand (R159). -/
def binExp (y : Dword) : Int := sext y.toNat 32

/-- Whether a block exponent is one of R159. -/
def binExpOk (y : Dword) : Bool := decide (-126 ≤ binExp y) && decide (binExp y ≤ 127)

/-- The lowest lane that reads a block exponent R159 forbids. -/
def State.badExp (s : State) (a : Act) (u : Bool) (y : Src) : Option Nat :=
  (lanesOf (a.readers u)).find? (fun i => !binExpOk (s.opLane a.ref (one y) i))

/-- A word with a block exponent: an exponent out of range raises an illegal-operand fault (R159). -/
def binWord (h : Hdr) (u : Bool) (d : Dst) (pair : Bool) (x : Operand) (y : Src) (f : LaneFn) (s : State) :
    Host.Outcome State Fault Refusal :=
  runWord h false (x.names ++ srcNames y 1) (x.last ++ srcLast y 1) 9 s fun a s =>
    match s.wordFault a [x.src, y] (a.readers u) (dstNames d (regCount pair)), s.badExp a u y with
    | some t, _ => .bad t
    | none, some i => .bad (a.operand i 9)
    | none, none =>
      let g := laneResults s a u x (one y) absent f
      .done ((s.putDst a.ref d pair a.lanes (lanes (fun i => (g i).1.setWidth 32))
        (lanes (fun i => ((g i).1 >>> 32).setWidth 32))).raise a.ref (flagsOf (a.readers u) g))

/-- BINCV (R159). -/
def execBincv (h : Hdr) (u : Bool) (d : Dst) (a b : Src) (rnd : Rnd) (s : State) : Host.Outcome State Fault Refusal :=
  binWord h u d true (one a) b (fun _ x y _ => binCvt rnd (fv x) (binExp y)) s

/-- BINADD (R159). -/
def execBinadd (h : Hdr) (u : Bool) (d : Dst) (a b : Src) (s : State) : Host.Outcome State Fault Refusal :=
  aluWord h u d true (wide true a) (wide true b) absent 9 (fun _ x y _ => binAdd x y) s

/-- BINFP (R159). -/
def execBinfp (h : Hdr) (u : Bool) (d : Dst) (a b : Src) (rnd : Rnd) (s : State) : Host.Outcome State Fault Refusal :=
  binWord h u d false (wide true a) b (fun _ x y _ => asLane (binToF32 rnd x (binExp y))) s

end Sys2Proof.Machine
end

