-- ==== Sys2Proof/Machine/Racing.lean ====
section
/-! DEFINITION. Class 0x9: published clocks and race control (R287 to R296). -/

namespace Sys2Proof.Machine

/-- The accesses of a 64-byte clock record: eight of 8 bytes. -/
def recordParts (va : Nat) : List Nat := (List.range 8).map (fun i => (va + 8 * i) % 2 ^ 64)

/-- Where an aperture address leads for words that act once: an invalid one is an illegal operand (R388). -/
def State.onceOk (s : State) (g va n : Nat) : Bool := !(inAperture va) || (s.aperture g (va - Config.aperture) n).isSome

/-- The entries a fibre publishes (R287): itself, its vector, its frontier entries. -/
def State.published (s : State) (r : FibRef) (clock : Nat) : List (Nat × Nat) :=
  match s.fib r, Map.find s.wgs r.wg with
  | some f, some g =>
    let vec := (List.range 32).filterMap (fun k =>
      let c := Map.getD f.vec k 0
      if k != r.fib && c != 0 then some (s.identity ⟨r.wg, k⟩, c) else none)
    let fr := (g.frontier.filter (fun e => e.fibs.contains r.fib)).map (fun e => (e.writer, e.clock))
    (s.identity r, clock) :: vec ++ fr
  | _, _ => []

/-- The 64 bytes of a clock record (R287). -/
def clockRecord (cgen ggen : Nat) (l : List (Nat × Nat)) : List Byte :=
  let k := min l.length 14
  leBytes 4 (0x4843 + k * 2 ^ 16 + bit01 (decide (14 < l.length)) * 2 ^ 20) ++ leBytes 4 (cgen % 8 + ggen % 8 * 8) ++
    (List.range 14).flatMap (fun i => match l[i]? with
      | some (w, c) => leBytes 4 (w + c * 2 ^ 16)
      | none => leBytes 4 0)

/-- HBPUB (R287, R293): its eight stores enter the store queue (R235). -/
def execHbpub (h : Hdr) (x : Src) (scope : Scope) (off : BitVec 32) (s : State) : Host.Outcome State Fault Refusal :=
  onceWord h [(x, 2)] [] s fun w s =>
    let va := s.lowAddr w x off
    if va % 64 != 0 then .bad (w.operand w.low 9)
    else if !(s.onceOk w.ref.wg va 64) then .bad (w.operand w.low 6)
    else afterStores w s fun s => afterLog w s ((s.launchOf w.ref.wg).checked || !(inAperture va)) fun s =>
      afterCheck w s s ((recordParts va).map (fun p => (w.low, p, 8, 1))) (raceOnce w s)
        (afterRelease w s scope fun s clock =>
          let gens := ((s.fib w.ref).map (fun f => (f.cgen, f.ggen))).getD (0, 0)
          let l := clockRecord gens.1 gens.2 (if (s.launchOf w.ref.wg).checked then s.published w.ref clock else [])
          let accs : List LaneAcc := (recordParts va).mapIdx (fun i p => ⟨w.low, BitVec.ofNat 64 p, (l.drop (8 * i)).take 8⟩)
          .done (s.enqueue w 8 .plain (some scope) clock true accs (fun _ => 0)))

/-- The entries of a clock record's bytes. -/
def recordEntries (l : List Byte) : List (Nat × Nat) :=
  (List.range 14).map (fun i => let v := leNat ((l.drop (8 + 4 * i)).take 4); (v % 2 ^ 16, v / 2 ^ 16))

/-- HBJOIN (R287, R294). -/
def execHbjoin (h : Hdr) (d : BitVec 8) (x : Src) (scope : Scope) (off : BitVec 32) (s : State) :
    Host.Outcome State Fault Refusal :=
  onceWord h [(x, 2)] [d.toNat] s fun w s =>
    let a := s.agent w.ref.wg
    let va := s.lowAddr w x off
    if va % 64 != 0 then .bad (w.operand w.low 9)
    else if !(s.onceOk w.ref.wg va 64) then .bad (w.operand w.low 6)
    else match s.settleAtomics w.ref with
      | (s, some t) => .older s t
      | (s, none) => afterLog w s ((s.launchOf w.ref.wg).checked || !(inAperture va)) fun s =>
        let accs : List LaneAcc := (recordParts va).map (fun p => ⟨w.low, BitVec.ofNat 64 p, []⟩)
        afterCheck w s (s.learn w.ref a 8 scope accs) (accs.map (fun x => (x.lane, x.addr.toNat, 8, 0)))
          (raceOnce w s)
          (match s.loadBytes w.ref a false false va 64 with
          | (.error (sub, byte), s) => faultOnce w s sub byte
          | (.ok l, s) =>
            let s := s.acquireAll w.ref a 8 scope accs
            if !(s.launchOf w.ref.wg).checked then .done (s.putAll w d.toNat 0)
            else
              let head := leNat (l.take 4)
              let count := bits head 16 4
              if head % 2 ^ 16 != 0x4843 || count == 0 || 14 < count then .done (s.putAll w d.toNat 0x20)
              else
                let new := (recordEntries l).filter (fun e => e.2 != 0)
                let s := new.foldl (fun s e => s.install w.ref (s.unalias w.ref e.1) e.2) s
                let more := bit head 20
                let s := if more then s.modWg w.ref.wg (fun g => { g with lostIn := 2, lostOut := 2 }) else s
                .done (s.putAll w d.toNat (new.length + bit01 more * 2 ^ 4)))

/-- Sets a work-group's race mode. -/
def raceMode (h : Hdr) (report : Bool) (s : State) : Host.Outcome State Fault Refusal :=
  onceWord h [] [] s fun w s =>
    .done (if (s.launchOf w.ref.wg).checked then s.modWg w.ref.wg (fun g => { g with report := report }) else s)

/-- RACECTL.trap (R295). -/
def execRacectlTrap (h : Hdr) (s : State) : Host.Outcome State Fault Refusal := raceMode h false s
/-- RACECTL.report (R295). -/
def execRacectlReport (h : Hdr) (s : State) : Host.Outcome State Fault Refusal := raceMode h true s

/-- Suspends or resumes the checking of the issuing fibre. -/
def raceSuspend (h : Hdr) (off : Bool) (s : State) : Host.Outcome State Fault Refusal :=
  onceWord h [] [] s fun w s =>
    .done (if (s.launchOf w.ref.wg).checked then s.modFib w.ref (fun f => { f with suspended := off }) else s)

/-- RACECTL.off (R295). -/
def execRacectlOff (h : Hdr) (s : State) : Host.Outcome State Fault Refusal := raceSuspend h true s
/-- RACECTL.on (R295). -/
def execRacectlOn (h : Hdr) (s : State) : Host.Outcome State Fault Refusal := raceSuspend h false s

/-- RACECTL.rdun (R295). -/
def execRacectlRdun (h : Hdr) (d : BitVec 8) (s : State) : Host.Outcome State Fault Refusal :=
  onceWord h [] [d.toNat, d.toNat + 1] s fun w s =>
    let v := if (s.launchOf w.ref.wg).checked then (s.ctx (s.ctxOf w.ref.wg)).unchecked else 0
    .done (s.putPair w.ref d.toNat w.lanes (fun _ => BitVec.ofNat 64 v))

/-- Marks the record of a line invalid. -/
def State.forget (s : State) (r : FibRef) (l : Loc) : State :=
  match Map.find s.wgs r.wg with
  | none => s
  | some g => match s.lineMeta g.launch l with
    | some m => s.setMeta l { m with valid := false }
    | none => s

/-- RACECTL.forget (R295). -/
def execRacectlForget (h : Hdr) (x y : Src) (off : BitVec 32) (s : State) : Host.Outcome State Fault Refusal :=
  onceWord h [(x, 2), (y, 1)] [] s fun w s =>
    let a := s.agent w.ref.wg
    let va := s.lowAddr w x off
    let n := s.low32 w y
    if !a.checked then .done s
    else if va % 128 != 0 || n % 128 != 0 || n == 0 || 2 ^ 24 < n then .bad (w.operand w.low 9)
    else if !(s.onceOk w.ref.wg va n) then
      let me := oneLane w.low
      .done ((s.modFib w.ref (fun f => f.putBack f (w.group &&& ~~~me) w.pc)).switchOff w.ref me)
    else afterStores w s fun s => afterLog w s (!(inAperture va)) fun s =>
      match if inAperture va then (none, s) else s.probeRange a .write va n with
      | (some (sub, byte), s) => faultOnce w s sub byte
      | (none, s) =>
        .done ((List.range (n / 128)).foldl (fun s i =>
          (s.checkedPieces w.ref a ((va + 128 * i) % 2 ^ 64) 128).foldl (fun s e => s.forget w.ref e.1) s) s)

/-- HBCLK (R296). -/
def execHbclk (h : Hdr) (d : BitVec 8) (s : State) : Host.Outcome State Fault Refusal :=
  onceWord h [] [d.toNat] s fun w s =>
    match s.fib w.ref with
    | none => .done s
    | some f =>
      let v := f.clock + f.cgen % 8 * 2 ^ 16 + f.ggen % 8 * 2 ^ 19 + bit01 f.saturated * 2 ^ 22 + bit01 f.suspended * 2 ^ 23 +
        bit01 (s.reports w.ref.wg) * 2 ^ 24
      .done (s.putAll w d.toNat (if (s.launchOf w.ref.wg).checked then v else 0))

/-- HBCLK.vec (R296). -/
def execHbclkVec (h : Hdr) (d : BitVec 8) (x : Src) (s : State) : Host.Outcome State Fault Refusal :=
  onceWord h [(x, 1)] [d.toNat] s fun w s =>
    let k := s.low32 w x
    match s.fib w.ref, s.fib ⟨w.ref.wg, k⟩ with
    | some f, some _ =>
      let v := if k == w.ref.fib then f.clock else Map.getD f.vec k 0
      .done (s.putAll w d.toNat (if (s.launchOf w.ref.wg).checked then v else 0))
    | some _, none => if (s.launchOf w.ref.wg).checked then .bad (w.operand w.low 9) else .done (s.putAll w d.toNat 0)
    | none, _ => .done s

end Sys2Proof.Machine
end

