-- ==== Sys2Proof/Machine/Matrix.lean ====
section
/-! DEFINITION. Class 0x6: matrix issue and tile instructions (R160 to R192); `MSEND` stands with the collectives. -/

namespace Sys2Proof.Machine

/-! ### Slots that load (R201) -/

/-- Changes the weight slot of a work-group that holds a physical slot. -/
def State.modSlotAt (s : State) (g phys : Nat) (f : WSlot → WSlot) : State :=
  s.modWg g (fun w => { w with wslots := w.wslots.map (fun x => if x.phys == phys then f x else x) })

/-- Commits a `WLOAD`: the bytes it has read enter the stores (R201). -/
def WSlot.loadDone (x : WSlot) : WSlot :=
  match x.pend with
  | some (e, m, sc) => { x with st := .loaded, elems := e, metas := m, scales := sc, pend := none }
  | none => x

/-- The work-group of a core that holds a physical slot. -/
def State.slotOwner (s : State) (core phys : Nat) : Option Nat :=
  (s.wgs.find? (fun e => e.2.core == core && e.2.wslots.any (fun x => x.phys == phys))).map (·.1)

/-- A logical weight slot of a work-group. -/
def State.wslot (s : State) (g k : Nat) : Option WSlot := (Map.find s.wgs g).bind (fun w => w.wslots[k]?)

/-! ### Shared checks and waits -/

/-- A word of class 0x6 or 0x7: it waits while an `MCFG` of its work-group waits (R196). -/
def matWord (h : Hdr) (srcs : List (Src × Nat)) (extra last : List Nat) (pj : Nat) (s : State) (body : Act → State → Out) :
    Host.Outcome State Fault Refusal :=
  runWord h false (srcs.flatMap (fun x => srcNames x.1 x.2) ++ extra) (srcs.flatMap (fun x => srcLast x.1 x.2) ++ last) pj s
    fun w s => afterConfig w s (body w)

/-- The scratchpad range of an aperture region, for the checks against rows that `MSTT` words have still to store (R188). -/
def State.rangeAt (s : State) (g o n : Nat) : List (Nat × Nat) := ((s.aperture g o n).map (fun p => (p, n))).toList

/-! ### MMAQ and MMAQS (R161 to R164, R171, R177 to R180) -/

/-- The control field (R178). -/
def ctlWord (la lb lc wa wb wc : BitVec 2) (ta tb tc : Bool) (rnd : Rnd) (fa fb : Fmt) (qoff : BitVec 3) : BitVec 32 :=
  BitVec.ofNat 32 (la.toNat + lb.toNat * 2 ^ 2 + lc.toNat * 2 ^ 4 + wa.toNat * 2 ^ 6 + wb.toNat * 2 ^ 8 + wc.toNat * 2 ^ 10 +
    bit01 ta * 2 ^ 12 + bit01 tb * 2 ^ 13 + bit01 tc * 2 ^ 14 + rnd.bits.toNat * 2 ^ 15 + fa.bits.toNat * 2 ^ 18 +
    fb.bits.toNat * 2 ^ 22 + qoff.toNat * 2 ^ 26)

/-- The quarters of a mask that have an active lane. -/
def quartersOf (m : Mask) : List Nat := (List.range 4).filter (fun q => (lanesOf m).any (fun i => i / 8 == q))

/-- Energy of the quarters a word creates (R407). -/
def quarterEnergy (fa fb : Fmt) : Nat :=
  if fa.is16 then 6400 else if fb == .ds8 || fb == .e2m1 || fb == .mx4 then 5200 else 4600

/-- The checks of R180: the slot the word references. -/
def State.mmaSlot (s : State) (w : Act) (t slot off : Nat) (ctl : BitVec 32) : Option WSlot :=
  let a := accShape ctl
  let (fa, fb) := ctlFmt ctl
  let K := ((passShape fa fb).map (·.1)).getD 0
  match s.tile w.ref.wg t, s.wslot w.ref.wg slot with
  | some tl, some x =>
    if (quartersOf w.lanes).all (fun q => decide (8 * (off + q) + 7 < tl.rows.length)) && K % a.group == 0 &&
        decide (x.st = .loaded) && x.format == fb then some x else none
  | _, _ => none

/-- A word that references a slot waits while a `WLOAD` loads it, and goes on (R180). -/
def afterLoad (w : Act) (s : State) (slot : Nat) (k : State → Out) : Out :=
  match s.wslot w.ref.wg slot with
  | some x => if decide (x.st = .loading) then .hold s w.group (.slot x.phys none) false else k s
  | none => k s

/-- Waits until the matrix queue has room for some quarters, and goes on (R172; assumption 82). -/
def roomFor (w : Act) (s : State) (k : Nat) (go : State → Out) : Out :=
  if s.arrayBusy w.ref (.queue k) then .hold s w.group (.array (.queue k)) false else go s

/-- The operation that a quarter of a word makes. -/
def mkQuarter (w : Act) (s : State) (t : Nat) (ctl : BitVec 32) (asc : Bool) (x : WSlot)
    (rows : List (Nat × List Byte × List Byte)) (wanted : List (Nat × Nat × Nat × Nat × Nat)) : MatOp :=
  { mkOp w s .quarter t with
    ctl := ctl, asc := asc, slot := x.phys, version := x.version, bank := x.bank
    extraA := ((s.fib w.ref).map (·.fp4x)).getD 0x80, rows := rows, wanted := wanted, ready := wanted.isEmpty }

/-- An operation that reads the aperture enters the array; what is present it reads at once (R173, R188). -/
def State.pushRead (s : State) (op : MatOp) : State := s.pushOp (if op.lines.all s.isPresent then s.collect op else op)

/-- The bytes of a lane in consecutive registers. -/
def State.regBytes (s : State) (r : FibRef) (a n i : Nat) : List Byte :=
  (List.range n).flatMap (fun j => wordBytes (lane (s.reg r (a + j)) i))

/-- MMAQ (R163, R171, R179, R180). -/
def execMmaq (h : Hdr) (t : BitVec 4) (a : Src) (slot : BitVec 4) (asc sclast : Bool) (sc : BitVec 8)
    (la lb lc wa wb wc : BitVec 2) (ta tb tc : Bool) (rnd : Rnd) (fa fb : Fmt) (qoff : BitVec 3) (s : State) :
    Host.Outcome State Fault Refusal :=
  let ctl := ctlWord la lb lc wa wb wc ta tb tc rnd fa fb qoff
  let (K, bytes) := (passShape fa fb).getD (0, 0)
  let scRegs := if asc then (if K / 32 == 8 then 2 else 1) else 0
  let scNames := (List.range scRegs).map (fun j => sc.toNat + j)
  let base := match a with | .reg n _ => n.toNat | _ => 0
  matWord h [(a, bytes / 4)] scNames (if sclast then scNames else []) 0 s fun w s =>
    afterLoad w s slot.toNat fun s =>
    match s.mmaSlot w t.toNat slot.toNat qoff.toNat ctl with
    | none => .bad (w.operand w.low 5)
    | some x =>
      let qs := quartersOf w.lanes
      roomFor w s qs.length fun s =>
        let s := s.charge (s.ctxOf w.ref.wg) (quarterEnergy fa fb * qs.length)
        .done (qs.foldl (fun s q =>
          let rows := ((lanesOf w.lanes).filter (fun i => i / 8 == q)).map (fun i =>
            (8 * (qoff.toNat + q) + i % 8, s.regBytes w.ref base (bytes / 4) i, (s.regBytes w.ref sc.toNat scRegs i).take (K / 32)))
          s.pushOp (mkQuarter w s t.toNat ctl asc x rows [])) s)

/-- MMAQS (R164, R171, R173, R180, R188). -/
def execMmaqs (h : Hdr) (t : BitVec 4) (a : Src) (slot : BitVec 4) (asc : Bool) (la lb lc wa wb wc : BitVec 2)
    (ta tb tc : Bool) (rnd : Rnd) (fa fb : Fmt) (qoff : BitVec 3) (s : State) : Host.Outcome State Fault Refusal :=
  let ctl := ctlWord la lb lc wa wb wc ta tb tc rnd fa fb qoff
  let (K, bytes) := (passShape fa fb).getD (0, 0)
  let sb := if asc then K / 32 else 0
  matWord h [(a, 1)] [] [] 0 s fun w s =>
    afterLoad w s slot.toNat fun s =>
    match s.wordFault w [a] w.lanes [], s.mmaSlot w t.toNat slot.toNat qoff.toNat ctl with
    | some t, _ => .bad t
    | none, none => .bad (w.operand w.low 5)
    | none, some x =>
      let off (i : Nat) : Nat := (s.srcLane w.ref a i).toNat
      if s.owesAt w.ref ((lanesOf w.lanes).flatMap (fun i => s.rangeAt w.ref.wg (off i) (bytes + sb))) then .hold s w.group .owed false
      else match s.drain w.ref with
      | (s, some t) => .older s t
      | (s, none) =>
        let ok (i : Nat) : Bool := off i % 128 == 0 && (s.aperture w.ref.wg (off i) (bytes + sb)).isSome
        let qs := quartersOf w.lanes
        let out := maskOf (fun i => w.lanes.getLsbD i && !(ok i))
        let live := w.lanes &&& ~~~out
        onceChecked w s ((lanesOf live).map (fun i => (i, apertureVa (off i), bytes + sb, 0))) fun s =>
          roomFor w s qs.length fun s =>
            let s := s.charge (s.ctxOf w.ref.wg) (quarterEnergy fa fb * qs.length)
            let s := qs.foldl (fun s q =>
              let want := ((lanesOf live).filter (fun i => i / 8 == q)).map (fun i =>
                let p := (s.aperture w.ref.wg (off i) (bytes + sb)).getD 0
                (8 * (qoff.toNat + q) + i % 8, p, bytes, p + bytes, sb))
              s.pushRead (mkQuarter w s t.toNat ctl asc x [] want)) s
            .done (s.switchOff w.ref out)

/-! ### Tile instructions (R181 to R187) -/

/-- A tile of zeros. -/
def zeroRows (n : Nat) : List (List Word) := List.replicate n (List.replicate 64 0)

/-- MZERO (R176, R182). -/
def execMzero (h : Hdr) (t : BitVec 4) (mon : Bool) (s : State) : Host.Outcome State Fault Refusal :=
  matWord h [] [] [] 6 s fun w s =>
    if (s.tile w.ref.wg t.toNat).isNone then .bad (w.operand w.low 5) else .done (s.pushOp (mkOp w s (.zero mon) t.toNat))

/-- One element of a tile converted (R183): `.f32` keeps the bits. -/
def tileElem (fmt : Fmt) (rnd : Rnd) (sat : Bool) (v : Word) : Res :=
  if fmt == .f32 then ⟨v.toNat, 0⟩ else convert fmt rnd sat (f32 v)

/-- MRD (R176, R183, R189, R190). -/
def execMrd (h : Hdr) (d : BitVec 8) (a b : Src) (tile : BitVec 4) (rnd : Rnd) (sat : Bool) (fmt : Fmt) (s : State) :
    Host.Outcome State Fault Refusal :=
  matWord h [(a, 1), (b, 1)] [] [] 6 s fun w s =>
    let n := 32 / fmtWidth fmt
    let row (i : Nat) : Nat := (s.srcLane w.ref a i).toNat
    let col (i : Nat) : Nat := (s.srcLane w.ref b i).toNat
    match s.wordFault w [a, b] w.lanes [d.toNat], s.tile w.ref.wg tile.toNat with
    | some t, _ => .bad t
    | none, none => .bad (w.operand w.low 5)
    | none, some x =>
      match (lanesOf w.lanes).find? (fun i => x.rows.length ≤ row i || 64 < col i + n || col i % n != 0) with
      | some i => .bad (w.operand i 5)
      | none => .done (s.owing w (.read d.toNat fmt rnd sat ((lanesOf w.lanes).map (fun i => (i, row i, col i)))) tile.toNat [d.toNat] [])

/-- MWR (R176, R184). -/
def execMwr (h : Hdr) (t : BitVec 4) (a b c : Src) (s : State) : Host.Outcome State Fault Refusal :=
  matWord h [(a, 1), (b, 1), (c, 1)] [] [] 6 s fun w s =>
    let at1 (x : Src) (i : Nat) : Nat := (s.srcLane w.ref x i).toNat
    match s.wordFault w [a, b, c] w.lanes [], s.tile w.ref.wg t.toNat with
    | some t, _ => .bad t
    | none, none => .bad (w.operand w.low 5)
    | none, some x =>
      match (lanesOf w.lanes).find? (fun i => x.rows.length ≤ at1 b i || 64 ≤ at1 c i) with
      | some i => .bad (w.operand i 5)
      | none => .done (s.pushOp (mkOp w s (.write ((lanesOf w.lanes).map (fun i => (at1 b i, at1 c i, s.srcLane w.ref a i)))) t.toNat))

/-- The base of a tile's region in the aperture: the scratchpad address, where it is aligned and valid (R185). -/
def State.tileBase (s : State) (w : Act) (x : Src) (off : BitVec 32) (align bytes : Nat) : Option (Nat × Nat) :=
  let o := (s.low32 w x + off.toNat) % 2 ^ 32
  if o % align == 0 then (s.aperture w.ref.wg o bytes).map (fun p => (o, p)) else none

/-- MLDT (R172, R176, R185, R188): it takes no place of the matrix queue. -/
def execMldt (h : Hdr) (t : BitVec 4) (x : Src) (off : BitVec 32) (s : State) : Host.Outcome State Fault Refusal :=
  matWord h [(x, 1)] [] [] 6 s fun w s =>
    match s.wordFault w [x] (oneLane w.low) [], s.tile w.ref.wg t.toNat with
    | some t, _ => .bad t
    | none, none => .bad (w.operand w.low 5)
    | none, some tl =>
      let n := tl.rows.length
      match s.tileBase w x off 128 (256 * n) with
      | none => .bad (w.operand w.low 6)
      | some (o, p) =>
        if s.owesAt w.ref [(p, 256 * n)] then .hold s w.group .owed false
        else match s.drain w.ref with
        | (s, some t) => .older s t
        | (s, none) =>
          onceChecked w s [(w.low, apertureVa o, 256 * n, 0)] fun s => .done (s.pushRead { mkOp w s .mldt t.toNat with
              wanted := (List.range n).map (fun r => (r, p + 256 * r, 256, 0, 0)), ready := false })

/-- The rows of a tile, converted and packed, with the flags raised (R185, R186). -/
def packTile (fmt : Fmt) (rnd : Rnd) (sat : Bool) (rows : List (List Word)) : List (List Byte) × BitVec 6 :=
  (rows.map (fun l => packElems (fmtWidth fmt) (l.map (fun v => (tileElem fmt rnd sat v).code))),
    rows.foldl (fun f l => l.foldl (fun f v => f ||| (tileElem fmt rnd sat v).flags) f) 0)

/-- MSTT (R176, R185, R188, R190, R235): one store-queue entry for each row, which enters when the row is read. -/
def execMstt (h : Hdr) (t : BitVec 4) (x : Src) (rnd : Rnd) (sat : Bool) (fmt : Fmt) (off : BitVec 32) (s : State) :
    Host.Outcome State Fault Refusal :=
  matWord h [(x, 1)] [] [] 6 s fun w s =>
    match s.wordFault w [x] (oneLane w.low) [], s.tile w.ref.wg t.toNat, s.fib w.ref with
    | some t, _, _ => .bad t
    | none, some tl, some f =>
      let n := 8 * fmtWidth fmt
      match s.tileBase w x off 64 (n * tl.rows.length) with
      | none => .bad (w.operand w.low 6)
      | some (o, _) =>
        let accs := (List.range tl.rows.length).map (fun r =>
          (⟨w.low, BitVec.ofNat 64 (apertureVa (o + n * r)), List.replicate n 0⟩ : LaneAcc))
        .done (s.pushOp (mkOp w s (.store (w.wordRef f) fmt rnd sat accs) t.toNat))
    | none, _, _ => .bad (w.operand w.low 5)

/-- MSYNC (R187). -/
def execMsync (h : Hdr) (wg : Bool) (s : State) : Host.Outcome State Fault Refusal :=
  matWord h [] [] [] 6 s fun w s =>
    let k : MatWait := if wg then .group else .fibre
    if s.arrayBusy w.ref k then .hold s w.group (.array k) false else .done s

end Sys2Proof.Machine
end

