-- ==== Sys2Proof/Machine/Supply.lean ====
section
/-! DEFINITION. Class 0x7 and the steps the matrix array takes by itself: pools and configuration, weight slots, monitors
(R173 to R176, R193 to R206). -/

namespace Sys2Proof.Machine

/-! ### The tile configuration block (R195 to R197) -/

/-- Tiles of a TCB. -/
def tcbTiles (v : Nat) : Nat := bits v 0 5
/-- Rows of each of its tiles. -/
def tcbRows (v : Nat) : Nat := if bits v 5 2 == 0 then 8 else if bits v 5 2 == 1 then 16 else 32
/-- Weight slots of a TCB. -/
def tcbSlots (v : Nat) : Nat := bits v 7 5
/-- Whether a value is a TCB (R196). -/
def tcbOk (v : Nat) : Bool := tcbTiles v ≤ 16 && bits v 5 2 != 3 && tcbSlots v ≤ 16 && v < 4096
/-- Bytes of tile storage a TCB needs. -/
def tcbBytes (v : Nat) : Nat := tcbTiles v * tcbRows v * 256

/-- The work-groups on a core. -/
def State.wgsOn (s : State) (core : Nat) : List (Nat × WorkGroup) := s.wgs.filter (fun e => e.2.core == core)

/-- Tile storage of a core that no work-group holds (R193). -/
def State.freeTiles (s : State) (core : Nat) : Nat :=
  262144 - ((s.wgsOn core).map (fun e => (e.2.tiles.map (fun t => t.rows.length * 256)).sum)).sum

/-- Physical weight slots of a core that no work-group holds, in increasing order (R193). -/
def State.freeSlots (s : State) (core : Nat) : List Nat :=
  (List.range 16).filter (fun k => !((s.wgsOn core).any (fun e => e.2.wslots.any (fun x => x.phys == k))))

/-- Whether the pools of a core can serve a claim: it is the earliest that asks them, and they hold enough (R196). -/
def State.claimServed (s : State) (core ticket : Nat) : Bool :=
  match (s.core core).claims.filter (fun c => c.asks) with
  | [] => false
  | c :: _ => c.ticket == ticket && c.bytes ≤ s.freeTiles core && c.slots ≤ (s.freeSlots core).length

/-- Whether the loads that a claim waits for are over: those of the slots beyond the ones kept (R196). -/
def State.claimIdle (s : State) (c : PoolClaim) : Bool :=
  !(s.arrayBusy ⟨c.wg, c.fib⟩ .group) && (((Map.find s.wgs c.wg).map (fun w => (w.wslots.drop c.keep).all (fun x =>
    decide (x.st ≠ .loading)))).getD true)

/-- Whether an `MCFG` that waits can go on (R192, R196). -/
def State.claimGoes (s : State) (core ticket : Nat) : Bool :=
  match (s.core core).claims.find? (fun c => c.ticket == ticket) with
  | some c => if c.asks then s.claimServed core ticket else s.claimIdle c
  | none => true

/-- A newly allotted weight slot (R193, R196): its version counter goes on. -/
def freshSlot (versions : Map Nat) (phys : Nat) : WSlot where
  phys := phys
  st := .empty
  format := .f32
  compress := 0
  scaled := false
  elems := []
  metas := []
  scales := []
  banks := Vector.replicate 2 (Vector.replicate 16 0)
  bank := 0
  extra := 0x80
  version := Map.getD versions phys 0
  pend := none
  loader := none

/-- Allots what a TCB asks for beyond the slots a work-group has kept (R196). -/
def State.allot (s : State) (g v : Nat) : State :=
  let free := s.freeSlots (s.coreOf g)
  let old := (s.core (s.coreOf g)).versions
  s.modWg g (fun w => { w with
    tcb := BitVec.ofNat 32 v
    tiles := List.replicate (tcbTiles v) ⟨zeroRows (tcbRows v), 0, 0, 0⟩
    wslots := w.wslots ++ (free.take (tcbSlots v - w.wslots.length)).map (freshSlot old) })

/-- Returns a work-group's tiles and the slots beyond those it keeps (R196). -/
def State.giveBack (s : State) (g keep : Nat) : State :=
  let s := s.keepVersions g keep
  s.modWg g (fun w => { w with tiles := [], wslots := w.wslots.take keep })

/-- Places a claim at the end of a core's order (R196). -/
def State.claim (s : State) (core : Nat) (c : PoolClaim) : State := s.modCore core (fun x => { x with claims := x.claims ++ [c] })

/-- Takes a claim away. -/
def State.unclaim (s : State) (core ticket : Nat) : State :=
  s.modCore core (fun x => { x with claims := x.claims.filter (fun c => c.ticket != ticket) })

/-- Changes a claim. -/
def State.modClaim (s : State) (core : Nat) (c : PoolClaim) : State :=
  s.modCore core (fun x => { x with claims := x.claims.filter (fun y => y.ticket != c.ticket) ++ [c] })

/-- The configuration of a work-group by its `MCFG` (R192, R196): it waits for the array and for loads of the slots it returns, then
returns them and asks the pools, and waits for those. Requests are served in the order in which they reach the pools
(assumption 83). -/
def serveClaim (w : Act) (s : State) (v : Nat) (c : PoolClaim) : Out :=
  let core := s.coreOf w.ref.wg
  let wait (s : State) : Out := .hold s w.group (.pool c.ticket) false
  if !(c.asks || s.claimIdle c) then wait s
  else
    let s := if c.asks then s else (s.giveBack w.ref.wg c.keep).modClaim core { c with asks := true }
    if s.claimServed core c.ticket then .done ((s.allot w.ref.wg v).unclaim core c.ticket) else wait s

/-- MCFG (R192, R195, R196). -/
def execMcfg (h : Hdr) (a : Src) (s : State) : Host.Outcome State Fault Refusal :=
  onceWord h [(a, 1)] [] s fun w s =>
    let g := w.ref.wg
    let v := s.low32 w a
    match s.claimOf g with
    | some c => if c.fib == w.ref.fib && c.pc == w.pc then serveClaim w s v c else .hold s w.group (.config c.ticket) false
    | none =>
      if !(tcbOk v) then .bad (w.operand w.low 7)
      else
        let keep := min (tcbSlots v) (((Map.find s.wgs g).map (·.wslots.length)).getD 0)
        let (k, s) := s.draw
        let c : PoolClaim := ⟨k, g, w.ref.fib, w.pc, false, keep, tcbBytes v, tcbSlots v - keep⟩
        serveClaim w (s.claim (s.coreOf g) c) v c

/-- MCFGR (R197): it waits for an earlier `MCFG` as every word of its class does. -/
def execMcfgr (h : Hdr) (d : BitVec 8) (s : State) : Host.Outcome State Fault Refusal :=
  matWord h [] [] [] 6 s fun w s =>
    match s.wordFault w [] 0 [d.toNat] with
    | some t => .bad t
    | none => .done (s.putAll w d.toNat (((Map.find s.wgs w.ref.wg).map (·.tcb.toNat)).getD 0))

/-! ### WLOAD (R198 to R202) -/

/-- A tensor descriptor (R198). -/
structure Tensor where
  data : Nat
  aux : Nat
  scale : Nat
  dstride : Nat
  astride : Nat
  sstride : Nat
  format : Fmt
  compress : Nat
  axis : Nat
  space : Bool
deriving DecidableEq, Repr

/-- Bytes of one column of elements or codes, of metadata and of scales (R199). -/
def Tensor.colBytes (t : Tensor) : Nat × Nat × Nat :=
  let K := slotDepth t.format
  let w := fmtWidth t.format
  (if t.compress == 0 then K * w / 8 else if t.compress == 1 then K * w / 16 else K / 2,
    if t.compress == 1 then K / 8 else 0, if t.axis == 1 then K / 32 else 0)

/-- Reads a descriptor's bytes and checks what R198 and R201 say of its contents alone. -/
def readTensor (l : List Byte) : Option Tensor :=
  let n (o k : Nat) : Nat := leNat ((l.drop o).take k)
  let c := n 0x24 4
  match Fmt.ofBits (BitVec.ofNat 4 (bits c 0 4)) with
  | none => none
  | some f =>
    let t : Tensor := ⟨n 0 8, n 8 8, n 16 8, n 0x18 4, n 0x1C 4, n 0x20 4, f, bits c 4 2, bits c 6 2, bit c 8⟩
    let unscaled := f == .bf16 || f == .f16 || f == .e2m1
    let mustScale := f == .mx4 || f == .ds8
    if f != .f32 && t.compress != 3 && t.axis != 2 && t.axis != 3 && bits c 9 23 == 0 && (l.drop 0x28).all (· == 0) &&
        (t.compress == 1 || (t.aux == 0 && t.astride == 0)) && (t.axis == 1 || (t.scale == 0 && t.sstride == 0)) &&
        !(t.axis == 0 && mustScale) && !(t.axis == 1 && unscaled) && !(t.compress == 2 && (f == .e2m1 || f == .mx4)) &&
        [t.data, t.aux, t.scale, t.dstride, t.astride, t.sstride].all (fun x => x % 4 == 0)
    then some t else none

/-- The ranges of a descriptor: elements, metadata and scales of each column, by virtual address. -/
def Tensor.ranges (t : Tensor) : List (List (Nat × Nat)) :=
  let (e, m, sc) := t.colBytes
  let col (base stride n : Nat) : List (Nat × Nat) := (List.range 64).map (fun j =>
    (if t.space then Config.aperture + (base % 2 ^ 32 + j * stride) else (base + j * stride) % 2 ^ 64, n))
  [col t.data t.dstride e, if m == 0 then [] else col t.aux t.astride m, if sc == 0 then [] else col t.scale t.sstride sc]

/-- Whether a descriptor's addresses are those R201 allows: aperture regions that are valid, by bits [31:0] of its addresses, or
canonical addresses; one that lies in the aperture is served as any access to it is (R208). -/
def State.tensorOk (s : State) (g : Nat) (t : Tensor) : Bool :=
  t.ranges.all (fun l => l.all (fun (va, n) =>
    if t.space then
      (s.aperture g (va - Config.aperture) n).isSome
    else canonical va && canonical ((va + n - 1) % 2 ^ 64)))

/-- The bytes of some ranges: those of each range, or a memory fault. -/
def State.readRanges (s : State) (r : FibRef) (a : Agent) (l : List (Nat × Nat)) : Except (Nat × Nat) (List (List Byte)) × State :=
  l.foldl (fun (acc, s) (va, n) =>
    match acc with
    | .error e => (.error e, s)
    | .ok out =>
      match s.loadBytes r a false false va n with
      | (.ok b, s) => (.ok (out ++ [b]), s)
      | (.error e, s) => (.error e, s)) (.ok [], s)

/-- A new version of a slot with a new state; what it was loading is lost. -/
def WSlot.renew (x : WSlot) (st : SlotState) : WSlot := { x with st := st, version := x.version + 1, pend := none, loader := none }

/-- A fetch that faults: the slot becomes empty, and the issuing fibre's operand log holds the `WLOAD` (R202). -/
def State.slotFault (s : State) (r : FibRef) (w : WordRef) (phys : Nat) (desc : List Byte) (sub addr : Nat) : State :=
  (s.modSlotAt r.wg phys (fun x => x.renew .empty)).holdFault r w 0 [⟨(lowest w.mask).getD 0, BitVec.ofNat 64 addr, []⟩]
    (.fetch phys desc) sub false

/-- What a word that modifies a slot waits for (R203): no quarter of some bank references it (`none` names every bank), and, where it
matters to the word, no `WLOAD` loads it. -/
def State.slotWait (s : State) (g phys : Nat) (bank : Option Nat) (load : Bool) : Option WaitCond :=
  if s.referenced (s.coreOf g) phys bank || (load && ((s.slotAt g phys).any (fun x => decide (x.st = .loading)))) then
    some (.slot phys bank)
  else none

/-- Waits for a slot, and goes on (R203). -/
def afterSlot (w : Act) (s : State) (phys : Nat) (bank : Option Nat) (load : Bool) (k : State → Out) : Out :=
  match s.slotWait w.ref.wg phys bank load with
  | some c => .hold s w.group c false
  | none => k s

/-- The scratchpad ranges of some virtual ranges. -/
def State.apertureRanges (s : State) (g : Nat) (l : List (Nat × Nat)) : List (Nat × Nat) :=
  l.flatMap (fun (va, n) => if inAperture va then s.rangeAt g (va - Config.aperture) n else [])

/-- The absent lines that the source of a tensor touches (R224). -/
def State.tensorAbsent (s : State) (g : Nat) (t : Tensor) : List Nat :=
  ((s.apertureRanges g t.ranges.flatten).flatMap (fun (p, n) => linesOf p n)).filter (fun k => !(s.isPresent k))

/-- What a `WLOAD` whose descriptor has passed waits for: its slot, absent lines of its source, and rows that an `MSTT` has still to
store there (R188, R202, R203). -/
def State.fetchWait (s : State) (r : FibRef) (phys : Nat) (t : Tensor) : Option WaitCond :=
  match s.slotWait r.wg phys none true with
  | some c => some c
  | none =>
    let absent := s.tensorAbsent r.wg t
    if !absent.isEmpty then some (.present absent)
    else if s.owesAt r (s.apertureRanges r.wg t.ranges.flatten) then some .owed
    else none

/-- The fetch of a `WLOAD` that waits for nothing more (R201, R202): the bytes are bound here, at its place in program
order, and enter the slot when the load completes. `first` is what else its word has read. -/
def fetchTensor (w : Act) (s : State) (phys : Nat) (desc : List Byte) (t : Tensor) (first : List (Nat × Nat × Nat × Nat)) : Out :=
  let a := s.agent w.ref.wg
  let all := t.ranges
  let flat := all.flatten
  match s.settleAtomics w.ref with
  | (s, some t) => .older s t
  | (s, none) => afterLog w s (s.mayLog w.ref (flat.map (fun e => ⟨w.low, BitVec.ofNat 64 e.1, []⟩))) fun s =>
    afterCheck w s s (first ++ flat.flatMap (fun (va, n) => (linePieces va n).map (fun (p, k) => (w.low, p, k, 0)))) (raceOnce w s) <|
      let ref := ((s.fib w.ref).map (fun f => w.wordRef f)).getD default
      let s := s.modSlotAt w.ref.wg phys (fun x => { x.renew .loading with
        format := t.format, compress := t.compress, scaled := t.axis == 1, loader := some (w.ref, ref, desc) })
      match s.readRanges w.ref a flat with
      | (.error (sub, byte), s) =>
        .logged (s.slotFault w.ref ref phys desc sub byte) (ref.trap 0x08 sub w.low byte [])
      | (.ok l, s) =>
        let m := ((all.getD 1 []).length)
        .done (s.modSlotAt w.ref.wg phys (fun x => { x with
          pend := some (l.take 64, (l.drop 64).take m, l.drop (64 + m)) }))

/-- WLOAD (R198 to R203): its read of the descriptor is a load of the fibre, after queued atomics and checked as loads are. -/
def execWload (h : Hdr) (a : Src) (slot : BitVec 4) (off : BitVec 32) (s : State) : Host.Outcome State Fault Refusal :=
  matWord h [(a, 1)] [] [] 6 s fun w s =>
    let g := w.ref.wg
    let o := (s.low32 w a + off.toNat) % 2 ^ 32
    match s.wordFault w [a] (oneLane w.low) [], s.wslot g slot.toNat, s.aperture g o 64 with
    | some t, _, _ => .bad t
    | none, none, _ => .bad (w.operand w.low 5)
    | none, some _, none => .bad (w.operand w.low 6)
    | none, some x, some p =>
      if o % 64 != 0 then .bad (w.operand w.low 6)
      else if !(s.isPresent (p / 128)) then .hold s w.group (.present [p / 128]) false
      else if s.owesAt w.ref [(p, 64)] then .hold s w.group .owed false
      else match s.settleAtomics w.ref with
      | (s, some t) => .older s t
      | (s, none) =>
        match s.loadBytes w.ref (s.agent g) false false (apertureVa o) 64 with
        | (.error _, _) => .bad (w.operand w.low 6)
        | (.ok l, _) => afterLog w s (s.launchOf g).checked fun s =>
          match s.raceCheck w (s.agent g) [(w.low, apertureVa o, 64, 0)], readTensor l with
          | .error (lane, va, rcd), _ => raceOnce w s lane va rcd
          | .ok _, none => .bad (w.operand w.low 7)
          | .ok _, some t =>
            if !(s.tensorOk g t) then .bad (w.operand w.low 7)
            else match s.fetchWait w.ref x.phys t with
              | some c => .hold s w.group c false
              | none => fetchTensor w s x.phys l t [(w.low, apertureVa o, 64, 0)]

/-! ### Slot-modifying words and monitors (R203 to R205) -/

/-- A word that acts on one weight slot. -/
def slotWord (h : Hdr) (srcs : List (Src × Nat)) (m : Mask) (slot : BitVec 4) (s : State)
    (body : Act → State → WSlot → Out) : Host.Outcome State Fault Refusal :=
  matWord h srcs [] [] 6 s fun w s =>
    match s.wordFault w (srcs.map (·.1)) (if m == 0 then oneLane w.low else m) [], s.wslot w.ref.wg slot.toNat with
    | some t, _ => .bad t
    | none, none => .bad (w.operand w.low 5)
    | none, some x => body w s x

/-- WDICT (R203). -/
def execWdict (h : Hdr) (a : Src) (slot : BitVec 4) (s : State) : Host.Outcome State Fault Refusal :=
  slotWord h [(a, 1)] 0xFFFF slot s fun w s x =>
    let b := 1 - x.bank
    afterSlot w s x.phys (some b) false fun s =>
      let new : Vector (BitVec 16) 16 := Vector.ofFn (fun (i : Fin 16) => (s.srcLane w.ref a i.val).setWidth 16)
      .done (s.modSlotAt w.ref.wg x.phys (fun x => { x with
        banks := x.banks.setIfInBounds b new, bank := b, version := x.version + 1 }))

/-- WSET (R203). -/
def execWset (h : Hdr) (a : Src) (slot : BitVec 4) (s : State) : Host.Outcome State Fault Refusal :=
  slotWord h [(a, 1)] 0 slot s fun w s x =>
    let v : BitVec 8 := BitVec.ofNat 8 (s.low32 w a)
    afterSlot w s x.phys none false fun s =>
      .done (s.modSlotAt w.ref.wg x.phys (fun x => { x with extra := v, version := x.version + 1 }))

/-- WFREE (R203). -/
def execWfree (h : Hdr) (slot : BitVec 4) (s : State) : Host.Outcome State Fault Refusal :=
  slotWord h [] 0 slot s fun w s x =>
    afterSlot w s x.phys none true fun s => .done (s.modSlotAt w.ref.wg x.phys (fun x => x.renew .empty))

/-- The description of a slot (R204). -/
def WSlot.query (x : WSlot) : Nat :=
  (match x.st with | .empty => 0 | .loading => 1 | .loaded => 2) + x.format.bits.toNat * 2 ^ 2 + x.compress * 2 ^ 6 +
    bit01 x.scaled * 2 ^ 8 + x.bank * 2 ^ 9 + x.extra.toNat * 2 ^ 10 + x.version % 256 * 2 ^ 18

/-- WQRY (R204). -/
def execWqry (h : Hdr) (d : BitVec 8) (slot : BitVec 4) (s : State) : Host.Outcome State Fault Refusal :=
  matWord h [] [] [] 6 s fun w s =>
    match s.wordFault w [] 0 [d.toNat] with
    | some t => .bad t
    | none => .done (s.putAll w d.toNat (((s.wslot w.ref.wg slot.toNat).map WSlot.query).getD 3))

/-- MMON (R168, R176, R190, R205). -/
def execMmon (h : Hdr) (d : BitVec 8) (tile : BitVec 4) (ctr : BitVec 2) (clr : Bool) (s : State) :
    Host.Outcome State Fault Refusal :=
  matWord h [] [] [] 6 s fun w s =>
    match s.wordFault w [] 0 [d.toNat], s.tile w.ref.wg tile.toNat with
    | some t, _ => .bad t
    | none, none => .bad (w.operand w.low 5)
    | none, some _ => .done (s.owing w (.monitor d.toNat ctr.toNat clr) tile.toNat [d.toNat] [])

/-! ### Steps of the array by itself -/

/-- A step that a unit takes where it can, and that otherwise changes nothing. -/
def orStay (s : State) (o : Option State) : Host.Outcome State Fault Refusal := .next (o.getD s)

/-- QUARTER_READY (R163, R173). -/
def execQuarterReady (core : Nat) (s : State) : Host.Outcome State Fault Refusal := orStay s (s.quarterReady core)
/-- PASS_OPEN (R160, R174, R175). -/
def execPassOpen (core : Nat) (s : State) : Host.Outcome State Fault Refusal := orStay s (s.passOpen core)
/-- WEIGHT_SLOT_LOAD (R175, R200). -/
def execWeightSlotLoad (core : Nat) (s : State) : Host.Outcome State Fault Refusal := orStay s (s.weightLoad core)
/-- QUARTER_COMMIT (R165 to R169). -/
def execQuarterCommit (core : Nat) (s : State) : Host.Outcome State Fault Refusal := orStay s (s.quarterCommit core)

/-- WLOAD_COMPLETE (R199, R201): the bytes a `WLOAD` has read enter the slot. -/
def execWloadComplete (core slot : Nat) (s : State) : Host.Outcome State Fault Refusal :=
  .next (match s.slotOwner core slot with
    | some g => s.modSlotAt g slot WSlot.loadDone
    | none => s)

/-- WLOAD_FAULT (R202): a source line of a loading slot does not translate. -/
def execWloadFault (r : FibRef) (slot : BitVec 4) (addr : Dword) (sub : Nat) (s : State) : Host.Outcome State Fault Refusal :=
  .next (match s.wslot r.wg slot.toNat with
    | some x =>
      match x.loader with
      | some (q, w, desc) =>
        if decide (x.st = .loading) then
          (s.slotFault q w x.phys desc sub addr.toNat).takeTrap q (w.trap 0x08 sub ((lowest w.mask).getD 0) addr.toNat [])
        else s
      | none => s
    | none => s)

end Sys2Proof.Machine
end

