-- ==== Sys2Proof/Machine/Engine.lean ====
section
/-! DEFINITION. What the engines of a die share: jobs and kicks, accesses through the engine TLB, deliveries, completion
events (R214, R223, R256 to R262, R275, R284, R325, R328 to R331). -/

namespace Sys2Proof.Machine

/-! ### Dies and units -/

/-- The engines of a die. -/
def State.die (s : State) (d : Nat) : Die := Map.getD s.dies d {}
/-- Changes the engines of a die. -/
def State.modDie (s : State) (d : Nat) (f : Die → Die) : State := { s with dies := Map.set s.dies d (f (s.die d)) }
/-- Changes a die's network engine. -/
def State.modNet (s : State) (d : Nat) (f : Net → Net) : State := s.modDie d (fun x => { x with net := f x.net })
/-- Changes a die's scheduler. -/
def State.modSched (s : State) (d : Nat) (f : Sched → Sched) : State := s.modDie d (fun x => { x with sched := f x.sched })
/-- Changes a die's collective engine. -/
def State.modColl (s : State) (d : Nat) (f : Coll → Coll) : State := s.modDie d (fun x => { x with coll := f x.coll })
/-- Changes a die's sequencer. -/
def State.modSeq (s : State) (d : Nat) (f : Sequencer → Sequencer) : State :=
  s.modDie d (fun x => { x with sequencer := f x.sequencer })

/-- Whether a core is in service (R434). -/
def State.coreUp (s : State) (k : Nat) : Bool := k < 1280 && bit (s.coreMask (clusterOf k)) (k % 8)
/-- Whether a die is in service. -/
def State.dieUp (s : State) (d : Nat) : Bool := d < 8 && bit s.dieMask d

/-! ### Job scopes and kicks (R258, R259, R275) -/

/-- The narrower and the wider of two scopes. -/
def scopeMax (a b : Scope) : Scope := if a.bits.toNat ≤ b.bits.toNat then b else a

/-- The narrowest scope that includes a core and a line of global memory of a context: another die's memory takes `.pkg`
(R258). -/
def State.lineScope (s : State) (core ctx va : Nat) : Scope :=
  match (s.translate (engineTlb (dieOf core)) ctx va .read).1 with
  | .error _ => .die
  | .ok t =>
    let pa := t.pa va
    if paRegion pa == 3 then .sys
    else if paRegion pa == 2 then .dom
    else if t.home != 2 && ((storedAt t.home pa).headD 0) / 2 ^ 37 == dieOf core then .die else .pkg

/-- The scope of a byte range: of each of its lines. -/
def State.rangeScope (s : State) (core ctx va n : Nat) : Scope :=
  (linePieces va n).foldl (fun sc p => scopeMax sc (s.lineScope core ctx p.1)) .core

/-- The kick of the issuing fibre, after its release (R259, R275, R284). -/
def State.kickOf (s : State) (r : FibRef) (sc : Scope) (clock : Nat) : Kick :=
  let f := s.fib r
  { ref := r, writer := s.identity r, core := s.coreOf r.wg, ctx := s.ctxOf r.wg
    launch := ((Map.find s.wgs r.wg).map (·.launch)).getD 0
    clock := clock, cgen := ((f.map (·.cgen)).getD 0) % 8, ggen := ((f.map (·.ggen)).getD 0) % 8
    scope := sc, checked := (s.launchOf r.wg).checked }

/-- A kick: a release at the job's scope, and then the job. -/
def kicked (w : Act) (s : State) (sc : Scope) (k : Kick → State → Out) : Out :=
  afterRelease w s sc fun s clock => k (s.kickOf w.ref sc clock) s

/-! ### Engine accesses to global memory (R214, R215, R256) -/

/-- The core number under which an engine's stores reach replicas. -/
def engineOrigin (die : Nat) : Nat := 1280 + die

/-- Whether a range translates at a die's engine TLB: the subcode and the first byte that fails. -/
def State.engineProbe (s : State) (die ctx : Nat) (p : Perm) (va n : Nat) : Option (Nat × Nat) × State :=
  (linePieces va n).foldl (fun (bad, s) (q, _) =>
    match bad with
    | some b => (some b, s)
    | none =>
      match s.translate (engineTlb die) ctx q p with
      | (.ok _, s) => (none, s)
      | (.error e, s) => (some (e, q), s)) (none, s)

/-- Reads a range: its bytes, or the subcode and the first byte that fails. -/
def State.engineRead (s : State) (die ctx va n : Nat) : Except (Nat × Nat) (List Byte) × State :=
  (linePieces va n).foldl (fun (acc, s) (q, k) =>
    match acc with
    | .error e => (.error e, s)
    | .ok l =>
      match s.translate (engineTlb die) ctx q .read with
      | (.error e, s) => (.error (e, q), s)
      | (.ok t, s) =>
        let p := loadFrom t.home (t.pa q) die
        let s := ((s.countForward (engineTlb die) t (t.pa q)).applyOwn (engineOrigin die) p k).meetPoison ctx die p
        (.ok (l ++ s.physRead p k), s)) (.ok [], s)

/-- What an engine delivery does to the race record of a line (R284): the kicking fibre is its writer. -/
def State.deliverMeta (s : State) (k : Kick) (l : Loc) (words : Mask) (atom : Bool) : State :=
  let old := ((match l with
    | .scr b => Map.find (s.core (b / Config.scratchBytes)).records l.line
    | .glob _ => Map.find s.records l.line).filter (fun (x : LineMeta) => x.launch == k.launch)).getD default
  let covers := old.mask &&& ~~~words == 0 || !old.valid
  let same := old.valid && old.writer == k.writer && old.clock == k.clock && old.cgen == k.cgen && old.ggen == k.ggen
  s.setMeta l
    { writer := k.writer, clock := k.clock, cgen := k.cgen, ggen := k.ggen
      multi := if covers then false else if same then old.multi else true
      mask := if covers then words else old.mask ||| words
      rel := true, atom := atom, scope := k.scope.bits.toNat, valid := true, launch := k.launch }

/-- Writes part of one line for a job; the range has been probed. -/
def State.engineWritePart (s : State) (die ctx : Nat) (k : Option Kick) (va : Nat) (l : List Byte) : State :=
  match s.translate (engineTlb die) ctx va .write with
  | (.error _, s) => s
  | (.ok t, s) =>
    let s := (s.gather (engineTlb die) t ((k.map (·.launch)).getD 0)).countForward (engineTlb die) t (t.pa va)
    let copies := storedAt t.home (t.pa va)
    let p := copies.headD 0
    let s := (s.ownerWrite (engineOrigin die) copies (t.pa va - t.frame, t.bytes) 0 l).meetPoison ctx die p
    let s := if t.atomic then s.dropCopies none (p / 128 * 128) else s
    match k with
    | some k => if k.checked && t.checked && paRegion (t.pa va) != 3 then s.deliverMeta k (.glob p) (wordsOf p l.length) false else s
    | none => s

/-- Writes a range that has been probed. -/
def State.engineWrite (s : State) (die ctx : Nat) (k : Option Kick) (va : Nat) (l : List Byte) : State :=
  ((linePieces va l.length).foldl (fun (s, o) (p, n) => (s.engineWritePart die ctx k p ((l.drop o).take n), o + n)) (s, 0)).1

/-- Probes a range for writing and writes it: the fault, if there is one. -/
def State.engineStore (s : State) (die ctx : Nat) (k : Option Kick) (va : Nat) (l : List Byte) : Option (Nat × Nat) × State :=
  match s.engineProbe die ctx .write va l.length with
  | (some e, s) => (some e, s)
  | (none, s) => (none, s.engineWrite die ctx k va l)

/-- Writes scratchpad bytes for a job (R303); `atom` marks the update of a stage barrier (R306). -/
def State.scratchDeliver (s : State) (k : Option Kick) (p : Nat) (l : List Byte) (atom : Bool) : State :=
  let s := s.scratchWrite p l
  match k with
  | some k => if k.checked then (linePieces p l.length).foldl (fun s (q, n) => s.deliverMeta k (.scr q) (wordsOf q n) atom) s
    else s
  | none => s

/-- What passing a job's completion gives a fibre of a checked launch (R284). -/
def State.joinKick (s : State) (r : FibRef) (k : Option Kick) : State :=
  match k with
  | some k =>
    if (s.launchOf r.wg).checked && k.checked && ((Map.find s.wgs r.wg).map (·.launch)) == some k.launch then
      s.install r k.writer k.clock
    else s
  | none => s

/-! ### Aperture ranges of jobs -/

/-- The core that an aperture offset of a core names (R209). -/
def jobCore (core o : Nat) : Nat := if o < 0x100000 then core else clusterOf core * 8 + (o - 0x100000) / 0x100000

/-- The scratchpad address of an aperture offset of a core, where its launch cluster's regions start at `base` (R209). -/
def jobPlace (core base o : Nat) : Nat := scratchAddr (jobCore core o) (base + o % 0x100000)

/-- Whether an aperture range of the issuing core's own region is valid (R209). -/
def State.ownRegion (s : State) (g o n : Nat) : Option Nat := if o < 0x100000 then s.aperture g o n else none

/-! ### Completion events (R325, R328 to R330) -/

/-- The die and number of the node a reference names on this package (R325). -/
def State.refNode (s : State) (ref : Nat) : Option (Nat × Nat) :=
  let d := bits ref 18 3
  if bit ref 31 && !(bit ref 30) && s.dieUp d && (!(bit ref 29) || bits ref 21 8 == s.pkg) then some (d, ref % 2 ^ 18) else none

/-- Whether a reference names a node of a peer package. -/
def State.peerRef (s : State) (ref : Nat) : Bool :=
  bit ref 31 && !(bit ref 30) && bit ref 29 && bits ref 21 8 != s.pkg && s.peers.contains (bits ref 21 8)

/-- The reference of a node of this package. -/
def mkRef (die n : Nat) : Nat := n + die * 2 ^ 18 + 2 ^ 31

/-- A graph node; one that has never been taken is free (R324). -/
def State.node (s : State) (die n : Nat) : Node :=
  Map.getD (s.die die).sched.nodes n
    { pred := 0, init := 0, kind := 0, st := .free, rearm := false, ctx := 0, payload := 0, succs := [], tag := 0, queued := false }

/-- Replaces a graph node. -/
def State.setNode (s : State) (die n : Nat) (x : Node) : State := s.modSched die (fun c => { c with nodes := Map.set c.nodes n x })

/-- Posts a decrement to a reference for a context; a reference without its valid bit posts nothing (R326, R330). -/
def State.post (s : State) (ctx ref : Nat) : State := if bit ref 31 then { s with posts := s.posts ++ [⟨ref, ctx⟩] } else s

/-- A post by an engine of a die, which is a release of what the engine has stored (R331): it reaches the replicas of its own die, or
every replica where the node is elsewhere. -/
def State.enginePost (s : State) (die ctx ref : Nat) : State :=
  (s.applyCore (engineOrigin die) (if bits ref 18 3 == die && !(bit ref 29) then some die else none)).post ctx ref

/-! ### The seedbed (R332, R333) -/

/-- Entries of a pool: a cluster's sub-pool, or the die pool. -/
def Sched.poolSize (c : Sched) (pool : Option Nat) : Nat := (c.seedbed.filter (fun e => e.pool == pool)).length

/-- Whether a pool has a free place. -/
def Sched.room (c : Sched) (pool : Option Nat) : Bool := c.poolSize pool < (if pool.isSome then 1024 else 8192)

/-- Enters work into a pool. -/
def Sched.enter (c : Sched) (pool : Option Nat) (cls tick : Nat) (work : Work) : Sched :=
  { c with seedbed := c.seedbed ++ [⟨c.nextEntry, pool, cls, work, tick⟩], nextEntry := c.nextEntry + 1 }

/-- The seedbed class of the clusters of a launch (R333). -/
def Launch.cls (l : Launch) : Nat := if l.reserve then 4 else l.prio

/-- Enters the ready nodes that found the seedbed full, while places are free (R328). -/
def State.refill (s : State) (die : Nat) : State :=
  let c := (s.die die).sched
  let late := c.nodes.filter (fun e => decide (e.2.st = .ready) && !e.2.queued)
  late.foldl (fun s (n, x) =>
    if (s.die die).sched.room none then
      (s.setNode die n { x with queued := true }).modSched die (fun c => c.enter none 3 s.tick (.node n))
    else s) s

/-- Enters clusters of a launch that found the die pools full, in cluster order, while places are free (R332). -/
def State.enterClusters (s : State) (id : Nat) : State :=
  (s.launch id).unplaced.foldl (fun s (q, d) =>
    if (s.die d).sched.room none then
      (s.modSched d (fun c => c.enter none (s.launch id).cls s.tick (.place id q))).modLaunch id (fun l =>
        { l with unplaced := l.unplaced.filter (fun e => e.1 != q) })
    else s) s

/-- Removes an entry from a seedbed: a place is free again, and what has found none enters (R328, R332). -/
def State.takeEntry (s : State) (die num : Nat) : State :=
  let s := (s.modSched die (fun c => { c with seedbed := c.seedbed.filter (fun e => e.num != num) })).refill die
  s.launches.foldl (fun s (id, l) => if l.unplaced.isEmpty then s else s.enterClusters id) s

/-- A node whose counter has reached zero (R328): it is ready and enters the seedbed, if a place is free. -/
def State.makeReady (s : State) (die n : Nat) : State :=
  (s.setNode die n { s.node die n with st := .ready, queued := false }).refill die

/-- A node restored to its initial count (R328). -/
def State.restart (s : State) (die n : Nat) : State :=
  let x := s.node die n
  let s := s.setNode die n { x with pred := x.init, st := .waiting, rearm := false, queued := false }
  if x.init == 0 then s.makeReady die n else s

/-- The unit completes a running node (R328): its successors receive their decrements; a re-armed node restarts. -/
def State.nodeDone (s : State) (die n : Nat) : State :=
  let x := s.node die n
  if decide (x.st = .running) then
    let s := x.succs.foldl (fun s r => s.enginePost die x.ctx r) s
    let s := s.setNode die n { x with st := .done }
    if x.rearm then s.restart die n else s
  else s

/-- A unit has finished with a node: the node has still to complete. -/
def State.unitDone (s : State) (die n : Nat) : State := s.modSched die (fun c => { c with finished := c.finished ++ [n] })

/-- Counts and reports a stray event (R329). -/
def State.stray (s : State) (ctx die ref : Nat) : State :=
  (s.modCtx ctx (fun c => { c with stray := min (2 ^ 32 - 1) (c.stray + 1) })).hostEvent 0x41 ctx die ref 0

/-- A decrement reaches a node (R328, R329); one that reaches a node that does not wait, or of another context, is stray. -/
def State.decrement (s : State) (ctx ref : Nat) : State :=
  match s.refNode ref with
  | some (d, n) =>
    let x := s.node d n
    if decide (x.st = .waiting) && x.ctx == ctx then
      if x.pred ≤ 1 then (s.setNode d n { x with pred := 0 }).makeReady d n
      else s.setNode d n { x with pred := x.pred - 1 }
    else s.stray ctx d ref
  | none => if s.peerRef ref then s else s.stray ctx 0 ref

end Sys2Proof.Machine
end

