-- ==== Sys2Proof/Machine/Copy.lean ====
section
/-! DEFINITION. Class 0xA: asynchronous copies and stage barriers, and the steps of the copy engines (R298 to R312). -/

namespace Sys2Proof.Machine

/-! ### Request records (R298 to R300) -/

/-- Source and destination element bytes of a conversion, and its source and destination formats, where it is defined. -/
def convShape (conv : Nat) : Option (Nat × Nat × Fmt × Fmt) :=
  match conv with
  | 0 => some (1, 1, .f32, .f32)
  | 1 => some (4, 2, .f32, .bf16)
  | 2 => some (4, 2, .f32, .f16)
  | 3 => some (4, 1, .f32, .e4m3)
  | 4 => some (4, 1, .f32, .e5m2)
  | 5 => some (2, 4, .bf16, .f32)
  | 6 => some (2, 4, .f16, .f32)
  | _ => none

/-- The fields of a request record (R298). -/
def copyFields (l : List Byte) : CopyRec :=
  let n (o k : Nat) : Nat := leNat ((l.drop o).take k)
  let fl := n 0x24 4
  { src := n 0 8, dst := n 8 8, rowbytes := n 0x10 3, rows := n 0x14 2, sstride := n 0x18 4, dstride := n 0x1C 4, bar := n 0x20 4
    sspace := bit fl 0, dspace := bit fl 1, barv := bit fl 2, nodev := bit fl 3, mcast := bit fl 4, mask := bits fl 5 8
    conv := bits fl 13 4, rnd := (Rnd.ofBits (BitVec.ofNat 3 (bits fl 17 3))).getD .rne, sat := bit fl 20, node := n 0x28 4 % 2 ^ 18 }

/-- Reads a request record and checks its own fields (R298, R299). -/
def readCopy (l : List Byte) : Option CopyRec :=
  let n (o k : Nat) : Nat := leNat ((l.drop o).take k)
  let fl := n 0x24 4
  let r := copyFields l
  match Rnd.ofBits (BitVec.ofNat 3 (bits fl 17 3)), convShape r.conv with
  | some _, some (es, _, _, _) =>
    let rounds := 1 ≤ r.conv && r.conv ≤ 4
    if n 0x13 1 == 0 && n 0x16 2 == 0 && bits fl 21 11 == 0 && n 0x28 4 / 2 ^ 18 == 0 && (l.drop 0x2C).all (· == 0) &&
        r.rowbytes != 0 && r.rows != 0 && (rounds || (bits fl 17 3 == 0 && !r.sat)) && r.rowbytes % es == 0 &&
        (r.barv || r.nodev) && !(r.mcast && (r.mask == 0 || !r.dspace)) && (!r.sspace || r.src < 2 ^ 32) &&
        (!r.dspace || r.dst < 2 ^ 32) && (!r.barv || r.bar % 16 == 0)
    then some r else none
  | _, _ => none

/-- Bytes of a destination row (R300). -/
def CopyRec.dstRow (r : CopyRec) : Nat :=
  match convShape r.conv with
  | some (es, ed, _, _) => r.rowbytes / es * ed
  | none => 0

/-- Bytes of the sequence. -/
def CopyRec.total (r : CopyRec) : Nat := r.rowbytes * r.rows

/-- Cores that a multicast delivers to; a copy that is not multicast is listed by its own core alone. -/
def CopyRec.targets (r : CopyRec) (core : Nat) : List Nat :=
  if r.mcast then ((List.range 8).filter (fun c => bit r.mask c)).map (fun c => clusterOf core * 8 + c) else [core]

/-- The scratchpad addresses of a destination offset in every receiving core. -/
def CopyRec.places (r : CopyRec) (core base o : Nat) : List Nat := (r.targets core).map (fun c => jobPlace c base o)

/-- Whether a core holds a work-group of the launch cluster of another work-group. -/
def State.holdsCluster (s : State) (g core : Nat) : Bool :=
  match Map.find s.wgs g with
  | some w => s.wgs.any (fun (_, x) => x.core == core && x.launch == w.launch && x.cluster == w.cluster)
  | none => false

/-- The checks of a record's regions and addresses (R299). -/
def State.copyOk (s : State) (g : Nat) (r : CopyRec) : Bool :=
  let core := s.coreOf g
  let scratch := (s.launchOf g).scratch
  let own (o n : Nat) : Bool := if r.mcast then o < 0x100000 && o + n ≤ scratch else (s.aperture g o n).isSome
  (!r.mcast || (r.targets core).all (s.holdsCluster g)) &&
    (if r.sspace then (List.range r.rows).all (fun i => (s.aperture g (r.src + i * r.sstride) r.rowbytes).isSome) else canonical r.src) &&
    (if r.dspace then (List.range r.rows).all (fun i => own (r.dst + i * r.dstride) r.dstRow) else canonical r.dst) &&
    (!r.barv || own r.bar 16)

/-- The scope of a copy (R258): a trellis offset that names the issuing core, and a mask that holds it alone, reach no other. -/
def State.copyScope (s : State) (g ctx : Nat) (r : CopyRec) : Scope :=
  let core := s.coreOf g
  let seen (c : Nat) : Scope := if c == core then .core else .clus
  let rows (space : Bool) (a stride n : Nat) : Scope := (List.range r.rows).foldl (fun sc i =>
    scopeMax sc (if space then seen (jobCore core (a + i * stride)) else s.rangeScope core ctx ((a + i * stride) % 2 ^ 64) n)) .core
  scopeMax ((r.targets core).foldl (fun sc c => scopeMax sc (seen c)) .core)
    (scopeMax (if r.barv && !r.mcast then seen (jobCore core r.bar) else .core)
      (scopeMax (rows r.sspace r.src r.sstride r.rowbytes) (rows r.dspace r.dst r.dstride r.dstRow)))

/-- Whether the offsets of a record name bytes of the cores of the cluster. A record that a `CPYRES` presents unchanged does; what the
spec says of another one is that the engine copies what it describes (R309; assumption 40). -/
def CopyRec.placed (r : CopyRec) (base : Nat) : Bool :=
  let ok (o n : Nat) : Bool := (o < 0x900000) && base + o % 0x100000 + n ≤ Config.scratchBytes
  let rows (space : Bool) (a stride n : Nat) : Bool := !space || (List.range r.rows).all (fun i => ok (a + i * stride) n)
  rows r.sspace r.src r.sstride r.rowbytes && rows r.dspace r.dst r.dstride r.dstRow && (!r.barv || ok r.bar 16)

/-- Destination lines of a record in every receiving core. -/
def CopyRec.lines (r : CopyRec) (core base : Nat) : List Nat :=
  if r.dspace then
    ((List.range r.rows).flatMap (fun i =>
      (r.places core base (r.dst + i * r.dstride)).flatMap (fun p => linesOf p r.dstRow))).eraseDups
  else []

/-! ### The card queue (R301, R302, R261) -/

/-- Accepts a card: it enters its core's queue, and its destination lines become absent (R301, R302). -/
def State.acceptCard (s : State) (core offset base : Nat) (r : CopyRec) (k : Kick) : State :=
  let num := (s.core core).nextCard
  let s := s.modCore core (fun c => { c with
    cards := c.cards ++ [⟨num, offset, r, k, base, false, false, 0, none⟩], nextCard := num + 1 })
  (r.lines core base).foldl (fun s l =>
    (s.setPresent l false).modCore (l / 8192) (fun c => { c with owners := Map.set c.owners l (core * 2 ^ 32 + num) })) s

/-- A byte range in a space of its own: 2 c for the scratchpad of core c, 2 k + 1 for the addresses of context k. -/
abbrev Region := Nat × Nat × Nat

/-- The range of some bytes of the scratchpads. -/
def scratchRegion (p n : Nat) : Region := (2 * (p / Config.scratchBytes), p, n)

/-- The rows of one side of a card. -/
def Card.rowRegions (c : Card) (space : Bool) (a stride n : Nat) (mult : Bool) : List Region :=
  (List.range c.rcd.rows).flatMap (fun i =>
    let o := a + i * stride
    if space then
      (if mult then c.rcd.places c.kick.core c.base o else [jobPlace c.kick.core c.base o]).map (fun p => scratchRegion p n)
    else [(2 * c.kick.ctx + 1, o % 2 ^ 64, n)])

/-- The rows that a card reads, and those that it writes. -/
def Card.reads (c : Card) : List Region := c.rowRegions c.rcd.sspace c.rcd.src c.rcd.sstride c.rcd.rowbytes false
/-- The rows that it writes. -/
def Card.writes (c : Card) : List Region := c.rowRegions c.rcd.dspace c.rcd.dst c.rcd.dstride c.rcd.dstRow true
/-- The barriers that it counts into. -/
def Card.bars (c : Card) : List Region :=
  if c.rcd.barv then (c.rcd.places c.kick.core c.base c.rcd.bar).map (fun p => scratchRegion p 16) else []

/-- Ranges taken together, in each space from the lowest byte to the highest (R301). -/
def spans (l : List Region) : List Region :=
  ((l.map (·.1)).eraseDups).map (fun k =>
    let m := l.filter (fun x => x.1 == k)
    let lo := m.foldl (fun a x => min a x.2.1) (m.headD (0, 0, 0)).2.1
    (k, lo, m.foldl (fun a x => max a (x.2.1 + x.2.2)) 0 - lo))

/-- Whether two ranges share a byte. -/
def Region.meets (a b : Region) : Bool := a.1 == b.1 && a.2.1 < b.2.1 + b.2.2 && b.2.1 < a.2.1 + a.2.2

/-- Whether two cards conflict (R261, R301): counting into one barrier is no conflict (R306). -/
def Card.conflicts (a b : Card) : Bool :=
  let hit (x y : List Region) : Bool := x.any (fun p => y.any (Region.meets p))
  let (ra, wa) := (spans a.reads, spans a.writes)
  let (rb, wb) := (spans b.reads, spans b.writes)
  hit ra (wb ++ b.bars) || hit (wa ++ a.bars) rb || hit wa (wb ++ b.bars) || hit a.bars wb

/-- Whether a card can start: fewer than four run, and no earlier unfinished card conflicts with it (R261, R301). -/
def Core.canStart (c : Core) (x : Card) : Bool :=
  !x.started && !x.faulted && (c.cards.filter (·.started)).length < 4 &&
    (c.cards.filter (fun y => y.num < x.num)).all (fun y => !(y.conflicts x))

/-- A card of a core. -/
def State.card (s : State) (core num : Nat) : Option Card := (s.core core).cards.find? (fun x => x.num == num)

/-- Changes a card. -/
def State.modCard (s : State) (core num : Nat) (f : Card → Card) : State :=
  s.modCore core (fun c => { c with cards := c.cards.map (fun x => if x.num == num then f x else x) })

/-- Takes a card out of its queue: it has completed or is abandoned (R304). -/
def State.dropCard (s : State) (core num : Nat) : State :=
  s.modCore core (fun c => { c with cards := c.cards.filter (fun x => x.num != num) })

/-! ### Stage barriers (R305, R306) -/

/-- A stage barrier (R305). -/
structure Stage where
  expected : Nat
  arrived : Nat
  phase : Nat
  fault : Bool
  kind : Nat
  foffset : Nat
deriving DecidableEq, Repr

/-- Reads a stage barrier. -/
def State.stage (s : State) (p : Nat) : Stage :=
  let n (o : Nat) : Nat := Memory.num s.scratch (p + o) 4
  ⟨n 0, n 4, bits (n 8) 0 1, bit (n 8) 1, bits (n 8) 2 2, n 12⟩

/-- Word 0x08 of a stage barrier. -/
def Stage.word (b : Stage) : Nat := b.phase + bit01 b.fault * 2 + b.kind * 4

/-- The bytes of a stage barrier. -/
def Stage.bytes (b : Stage) : List Byte := leBytes 4 b.expected ++ leBytes 4 b.arrived ++ leBytes 4 b.word ++ leBytes 4 b.foffset

/-- Counts delivered bytes into a barrier (R306). -/
def Stage.count (b : Stage) (n : Nat) : Stage :=
  if b.expected < b.arrived + n then { b with fault := true, kind := 2, arrived := (b.arrived + n) % 2 ^ 32 }
  else if b.arrived + n == b.expected then { b with arrived := 0, expected := 0, phase := 1 - b.phase }
  else { b with arrived := b.arrived + n }

/-- Notes that the copy of a kick has completed at a barrier, and whether the phase has (R260, R284). -/
def State.noteStage (s : State) (p : Nat) (k : Option Kick) (flips : Bool) : State :=
  if k.isNone && !flips then s
  else s.modCore (p / Config.scratchBytes) (fun c =>
    let (now, past) := Map.getD c.stageKicks p ([], [])
    let now := now ++ k.toList
    { c with stageKicks := Map.set c.stageKicks p (if flips then ([], now) else (now, past)) })

/-- The stage fault of a barrier (R308, R397). -/
def stageTrap (w : Act) (va : Nat) (b : Stage) : TrapInfo :=
  { w.trap 0x10 0 w.low va b.foffset with w34 := BitVec.ofNat 32 (b.kind * 2 ^ 16) }

/-- The threads that wait at a word, as the word's issue. -/
def Wait.act (x : Wait) (r : FibRef) : Act := ⟨r, x.word.mask &&& x.lanes, x.lanes, x.word.pc, x.word.bits, x.word.gov⟩

/-- The fibres that are parked on a barrier whose fault bit has been set take their traps (R308). -/
def State.stageFaults (s : State) (p : Nat) : State :=
  s.wgs.foldl (fun s (g, w) => w.fibres.foldl (fun s (k, f) =>
    match f.waits.findSome? (fun (x : Wait) => match x.cond with
      | .stage q _ va => if q == p then some (x, va) else none
      | _ => none) with
    | some (x, va) =>
      let a := x.act ⟨g, k⟩
      s.takeTrap ⟨g, k⟩ (underGov (stageTrap a va (s.stage p)) a.gov)
    | none => s) s) s

/-! ### Delivery (R300, R302, R303, R306, R307) -/

/-- The next piece of a card's sequence: source address and bytes, destination address and bytes; at most one line of
each, or one element. -/
def Card.piece (c : Card) : Nat × Nat × Nat × Nat :=
  let r := c.rcd
  let (es, ed) := match convShape r.conv with | some (a, b, _, _) => (a, b) | none => (1, 1)
  let row := c.done / r.rowbytes
  let b := c.done % r.rowbytes
  let sa := r.src + row * r.sstride + b
  let da := r.dst + row * r.dstride + b / es * ed
  let k := min ((r.rowbytes - b) / es) (min (max 1 ((128 - sa % 128) / es)) (max 1 ((128 - da % 128) / ed)))
  (sa % 2 ^ 64, k * es, da % 2 ^ 64, k * ed)

/-- Elements converted between formats (R300). -/
def convBytes (r : CopyRec) (l : List Byte) : List Byte :=
  match convShape r.conv with
  | some (es, ed, f, g) =>
    if r.conv == 0 then l
    else (List.range (l.length / es)).flatMap (fun i =>
      leBytes ed (convert g r.rnd r.sat (decodeElem 0 f (leNat ((l.drop (i * es)).take es)))).code)
  | none => l

/-- What the next piece meets: its source bytes, or the subcode and address of the fault that stops it (R307). -/
def State.pieceRead (s : State) (c : Card) : Except (Nat × Nat) (List Byte) × State :=
  let (sa, n, da, m) := c.piece
  let die := dieOf c.kick.core
  let (src, s) := if c.rcd.sspace then (.ok (Memory.read s.scratch (jobPlace c.kick.core c.base sa) n), s)
    else s.engineRead die c.kick.ctx sa n
  match src with
  | .error e => (.error e, s)
  | .ok l =>
    if c.rcd.dspace then (.ok l, s)
    else match s.engineProbe die c.kick.ctx .write da m with
      | (some e, s) => (.error e, s)
      | (none, s) => (.ok l, s)

/-- Of bytes that have changed, each one as it was or as it is: a free choice (R262). -/
def State.mixBytes (s : State) (old new : List Byte) : List Byte × State :=
  (old.zip new).foldl (fun (l, s) (a, b) =>
    if a == b then (l ++ [b], s)
    else
      let (k, s) := s.draw
      (l ++ [if Config.freeBit k then b else a], s)) ([], s)

/-- Whether bytes of a card beyond those delivered touch a line (R302). -/
def Card.touchesLater (c : Card) (done line : Nat) : Bool :=
  let r := c.rcd
  let (es, ed) := match convShape r.conv with | some (a, b, _, _) => (a, b) | none => (1, 1)
  (List.range (r.rows - done / r.rowbytes)).any (fun i =>
    let row := done / r.rowbytes + i
    let skip := if i == 0 then done % r.rowbytes / es * ed else 0
    (r.places c.kick.core c.base (r.dst + row * r.dstride)).any (fun p =>
      skip < r.dstRow && (linesOf (p + skip) (r.dstRow - skip)).contains line))

/-- Counts a card's bytes into a barrier (R306); `whole` says that the copy is complete with them. -/
def State.countStage (s : State) (c : Card) (n : Nat) (whole : Bool) (p : Nat) : State :=
  let b := s.stage p
  let x := b.count n
  let s := (s.scratchDeliver (some c.kick) p x.bytes true).noteStage p (if whole then some c.kick else none) (x.phase != b.phase)
  if x.fault && !b.fault then s.stageFaults p else s

/-- Delivers the next piece of a card, from its source bytes (R300, R303, R306). -/
def State.deliver (s : State) (core : Nat) (c : Card) (l : List Byte) : State :=
  let (_, n, da, _) := c.piece
  let r := c.rcd
  let done := c.done + n
  let out := convBytes r l
  let s := s.modCard core c.num (fun x => { x with done := done, moving := none })
  let s := if r.dspace then
      (r.places c.kick.core c.base da).foldl (fun s p =>
        let s := s.scratchDeliver (some c.kick) p out false
        (linesOf p out.length).foldl (fun s line =>
          let k := line / 8192
          if Map.find (s.core k).owners line == some (core * 2 ^ 32 + c.num) && !(c.touchesLater done line) then
            (s.setPresent line true).modCore k (fun x => { x with owners := Map.del x.owners line })
          else s) s) s
    else s.engineWrite (dieOf core) c.kick.ctx (some c.kick) da out
  if r.barv then
    (r.places c.kick.core c.base r.bar).foldl (fun s p => s.countStage c out.length (decide (r.total ≤ done)) p) s
  else s

/-- Writes some of a piece's bytes before the others: a program that looks at them may find each one old or new (R262). -/
def State.deliverSome (s : State) (core : Nat) (c : Card) (l : List Byte) : State :=
  let (_, _, da, _) := c.piece
  let out := convBytes c.rcd l
  if c.rcd.dspace then
    (c.rcd.places c.kick.core c.base da).foldl (fun s p =>
      let (x, s) := s.mixBytes (Memory.read s.scratch p out.length) out
      s.scratchDeliver (some c.kick) p x false) s
  else match s.translate (engineTlb (dieOf core)) c.kick.ctx da .write with
    | (.ok t, _) =>
      let (x, s) := s.mixBytes (s.physRead ((storedAt t.home (t.pa da)).headD 0) out.length) out
      s.engineWrite (dieOf core) c.kick.ctx (some c.kick) da x
    | (.error _, _) => s

/-- Moves the next piece of a card on: the engine reads it, reads again the bytes that have changed since, which it may take as they
were or as they are, and writes some of them; and then delivers and counts the whole (R262, R303, R306; assumption 87). -/
def State.movePiece (s : State) (core : Nat) (c : Card) (now : List Byte) (read : State) : State :=
  match c.moving with
  | none => read.modCard core c.num (fun x => { x with moving := some (now, false) })
  | some (old, false) =>
    let (l, s) := s.mixBytes old now
    (s.deliverSome core c l).modCard core c.num (fun x => { x with moving := some (l, true) })
  | some (l, true) => s.deliver core c l

/-- A copy stops at a faulting line (R307). -/
def State.copyFault (s : State) (core : Nat) (c : Card) (sub addr : Nat) : State :=
  let bars := if c.rcd.barv then c.rcd.places c.kick.core c.base c.rcd.bar else []
  let late := bars.any (fun p => (s.stage p).fault)
  let s := bars.foldl (fun s p =>
    let b := s.stage p
    if b.fault then s
    else (s.scratchDeliver (some c.kick) p ({ b with fault := true, kind := 1, foffset := c.done } : Stage).bytes true).stageFaults p) s
  if late || !c.rcd.barv then
    ((s.hostEvent 0x40 c.kick.ctx (dieOf core) (c.offset + coreInDie core * 2 ^ 32 + sub * 2 ^ 40) addr).oweFault c.kick.ctx 0x40).dropCard
      core c.num
  else s.modCard core c.num (fun x => { x with faulted := true, started := false, moving := none })

/-! ### Steps of the copy engine -/

/-- COPY_CARD_START (R261, R301). -/
def execCopyCardStart (core card : Nat) (s : State) : Host.Outcome State Fault Refusal :=
  .next (match s.card core card with
    | some c => if (s.core core).canStart c then s.modCard core card (fun x => { x with started := true }) else s
    | none => s)

/-- COPY_DELIVERY (R262, R300 to R306): nothing where the next piece faults or none is left. -/
def execCopyDelivery (core card : Nat) (s : State) : Host.Outcome State Fault Refusal :=
  .next (match s.card core card with
    | some c =>
      if c.started && c.done < c.rcd.total then
        match s.pieceRead c with
        | (.ok l, t) => s.movePiece core c l t
        | (.error _, _) => s
      else s
    | none => s)

/-- COPY_COMPLETE (R304). -/
def execCopyComplete (core card : Nat) (s : State) : Host.Outcome State Fault Refusal :=
  .next (match s.card core card with
    | some c =>
      if c.started && c.rcd.total ≤ c.done then
        let s := s.dropCard core card
        if c.rcd.nodev then s.enginePost (dieOf core) c.kick.ctx (mkRef (dieOf core) c.rcd.node) else s
      else s
    | none => s)

/-- COPY_FAULT (R307). -/
def execCopyFault (core card : Nat) (s : State) : Host.Outcome State Fault Refusal :=
  .next (match s.card core card with
    | some c =>
      if c.started && c.done < c.rcd.total then
        match s.pieceRead c with
        | (.ok _, _) => s
        | (.error (sub, addr), s) => s.copyFault core c sub addr
      else s
    | none => s)

/-! ### Words (R309 to R312) -/

/-- The aperture offset of a word that acts once (R310). -/
def State.jobOffset (s : State) (w : Act) (x : Src) (off : BitVec 32) : Nat := (s.low32 w x + off.toNat) % 2 ^ 32

/-- Some bytes of the issuing core's own region as the fibre's loads see them (R246). -/
def State.ownBytes (s : State) (r : FibRef) (o n : Nat) : List Byte :=
  match s.aperture r.wg o n with
  | some p => s.forward r (apertureVa o) (Memory.read s.scratch p n)
  | none => []

/-- Reads records of a job from the issuing core's own region, after the race check of each (R288); the fibre's atomics have been
performed before. -/
def ownRecords (w : Act) (s : State) (o size n : Nat) (k : List (List Byte) → State → Out) : Out :=
  match s.settleAtomics w.ref with
  | (s, some t) => .older s t
  | (s, none) => onceChecked w s ((List.range n).map (fun i => (w.low, apertureVa (o + size * i), size, 0))) fun s =>
    k ((List.range n).map (fun i => s.ownBytes w.ref (o + size * i) size)) s

/-- The base of a work-group's region. -/
def State.baseOf (s : State) (g : Nat) : Nat := ((Map.find s.wgs g).map (·.base)).getD 0

/-- CPYK (R259, R299, R301, R302, R311). -/
def execCpyk (h : Hdr) (a : Src) (n : BitVec 5) (off : BitVec 32) (s : State) : Host.Outcome State Fault Refusal :=
  onceWord h [(a, 1)] [] s fun w s =>
    let g := w.ref.wg
    let core := s.coreOf g
    let o := s.jobOffset w a off
    if 64 < (s.core core).cards.length + n.toNat then .hold s w.group (.room n.toNat) false
    else if o % 64 != 0 || (s.ownRegion g o (64 * n.toNat)).isNone then .bad (w.operand w.low 6)
    else ownRecords w s o 64 n.toNat fun recs s =>
      let recs := recs.map readCopy
      if !(recs.all (fun r => (r.map (s.copyOk g)).getD false)) then .bad (w.operand w.low 7)
      else
        let recs := recs.filterMap id
        let cards := recs.map (fun r => (r, s.copyScope g (s.ctxOf g) r))
        kicked w s (cards.foldl (fun sc e => scopeMax sc e.2) .core) fun k s =>
          .done (cards.foldl (fun (s, i) e => (s.acceptCard core (o + 64 * i) (s.baseOf g) e.1 { k with scope := e.2 }, i + 1)) (s, 0)).1

/-- CPYRES (R309). -/
def execCpyres (h : Hdr) (a : Src) (off : BitVec 32) (s : State) : Host.Outcome State Fault Refusal :=
  onceWord h [(a, 1)] [] s fun w s =>
    let g := w.ref.wg
    let core := s.coreOf g
    let o := s.jobOffset w a off
    let base := s.baseOf g
    if o % 64 != 0 || (s.ownRegion g o 64).isNone then .bad (w.operand w.low 6)
    else ownRecords w s o 64 1 fun recs s =>
      let r := copyFields (recs.headD [])
      let bars := if r.barv then r.places core base r.bar else []
      let b := s.stage (bars.headD 0)
      match (s.core core).cards.find? (fun c => c.faulted && c.base + c.offset == base + o) with
      | none => .bad (w.operand w.low 9)
      | some c =>
        if (convShape r.conv).isNone || !(r.placed base) then .bad (w.operand w.low 7)
        else if bars.isEmpty || !b.fault || b.kind != 1 then .bad (w.operand w.low 9)
        else kicked w s (s.copyScope g (s.ctxOf g) r) fun k s =>
          let s := bars.foldl (fun s p => s.scratchDeliver (some k) p
            ({ s.stage p with fault := false, kind := 0, foffset := 0 } : Stage).bytes true) s
          .done (s.modCard core c.num (fun x => { x with rcd := r, kick := k, faulted := false, done := b.foffset }))

/-- A word that acts on a stage barrier as one indivisible step (R306, R312): its queued stores leave first, and its
access is checked as an atomic. -/
def stageWord (h : Hdr) (srcs : List (Src × Nat)) (dsts : List Nat) (a : Src) (off : BitVec 32) (s : State)
    (body : Act → State → Nat → Nat → Out) : Host.Outcome State Fault Refusal :=
  onceWord h srcs dsts s fun w s =>
    let o := s.jobOffset w a off
    match if o % 16 == 0 then s.aperture w.ref.wg o 16 else none with
    | none => .bad (w.operand w.low 6)
    | some p => afterStores w s fun s => onceChecked w s [(w.low, apertureVa o, 16, 2)] fun s => body w s o p

/-- Writes a stage barrier for the issuing fibre. -/
def State.putStage (s : State) (w : Act) (o p : Nat) (b : Stage) : State :=
  let s := s.commitAccess w.ref (s.agent w.ref.wg) (apertureVa o) 16 true none (((s.fib w.ref).map (·.clock)).getD 0)
  s.scratchWrite p b.bytes

/-- SBINIT (R312). -/
def execSbinit (h : Hdr) (a b : Src) (off : BitVec 32) (s : State) : Host.Outcome State Fault Refusal :=
  stageWord h [(a, 1), (b, 1)] [] a off s fun w s o p =>
    let s := s.putStage w o p ⟨s.low32 w b, 0, 0, false, 0, 0⟩
    .done (s.modCore (p / Config.scratchBytes) (fun c => { c with stageKicks := Map.del c.stageKicks p }))

/-- SBADD (R312). -/
def execSbadd (h : Hdr) (a b : Src) (off : BitVec 32) (s : State) : Host.Outcome State Fault Refusal :=
  stageWord h [(a, 1), (b, 1)] [] a off s fun w s o p =>
    let x := s.stage p
    let sum := x.expected + s.low32 w b
    if 2 ^ 32 ≤ sum then .bad (w.operand w.low 9) else .done (s.putStage w o p { x with expected := sum })

/-- SBTEST (R312). -/
def execSbtest (h : Hdr) (d : BitVec 8) (a : Src) (off : BitVec 32) (s : State) : Host.Outcome State Fault Refusal :=
  stageWord h [(a, 1)] [d.toNat] a off s fun w s _ p => .done (s.putAll w d.toNat (Memory.num s.scratch (p + 8) 4))

/-- What passing a stage barrier gives a fibre: it acquires, at each one's scope, the copies that completed in the phase (R260,
R284). -/
def State.joinStage (s : State) (r : FibRef) (p : Nat) : State :=
  let ks := (Map.getD (s.core (p / Config.scratchBytes)).stageKicks p ([], [])).2
  let s := ks.foldl (fun s k => s.joinKick r (some k)) s
  s.cacheAcquire (s.agent r.wg) (ks.foldl (fun sc k => scopeMax sc k.scope) .core)

/-- SBWAIT (R96, R308, R312). -/
def execSbwait (h : Hdr) (a b : Src) (off : BitVec 32) (s : State) : Host.Outcome State Fault Refusal :=
  stageWord (atPoint h) [(a, 1), (b, 1)] [] a off s fun w s o p =>
    let x := s.stage p
    let parity := s.low32 w b % 2
    if x.fault then .bad (stageTrap w (apertureVa o) x)
    else if x.phase != parity then .done (s.joinStage w.ref p)
    else .hold s w.group (.stage p parity (apertureVa o)) true

end Sys2Proof.Machine
end

