-- ==== Sys2Proof/Machine/Network.lean ====
section
/-! DEFINITION. The network engines: filter rules, receive rings, transmit, and frame nodes (R314 to R321). The places of the
rules, descriptors and grants within a die's register block are the model's (assumption 12). -/

namespace Sys2Proof.Machine

/-! ### Registers of a die (R425; assumption 12) -/

/-- The bytes of a filter rule (R315). -/
def State.ruleBytes (s : State) (die i : Nat) : List Byte := Memory.read s.w0 (0x40000 + 0x40000 * die + 32 * i) 32

/-- A receive ring's descriptor: the context it belongs to, slot size and depth (R316). -/
def State.ringDesc (s : State) (die k : Nat) : Option (Nat × Nat × Nat) :=
  let n (o : Nat) : Nat := s.dieReg die (0x800 + 16 * k + o) 4
  if bit (n 0) 31 then some (n 0 % 64, n 4, n 8) else none

/-- Whether the port is split into two (R315). -/
def State.splitPort (s : State) (die : Nat) : Bool := bit (s.dieReg die 0xC40 1) 0

/-- Whether a context may transmit on a port: the driver's grant, and port 1 of a split port only (R319). -/
def State.mayTransmit (s : State) (die ctx : Nat) (p1 : Bool) : Bool :=
  bit (s.dieReg die (0xC00 + ctx) 1) (bit01 p1) && (!p1 || s.splitPort die)

/-! ### Frames (R315) -/

/-- A big-endian number in a frame. -/
def beNat (l : List Byte) (o n : Nat) : Nat := leNat (((l.drop o).take n).reverse)

/-- What the filter reads of a frame. -/
structure FrameInfo where
  etype : Nat
  vlan : Option Nat
  proto : Option Nat
  dip : Option Nat
  port : Option Nat
deriving DecidableEq, Repr

/-- Reads the fields of a frame that rules test. -/
def frameInfo (l : List Byte) : FrameInfo :=
  let tagged := beNat l 12 2 == 0x8100
  let o := if tagged then 18 else 14
  let etype := beNat l (o - 2) 2
  let vlan := if tagged then some (beNat l 14 2 % 4096) else none
  let portOf (p at4 : Nat) : Option Nat := if p == 6 || p == 17 then some (beNat l (at4 + 2) 2) else none
  if etype == 0x0800 then
    let p := beNat l (o + 9) 1
    ⟨etype, vlan, some p, some (beNat l (o + 16) 4), portOf p (o + 4 * (beNat l o 1 % 16))⟩
  else if etype == 0x86DD then
    let p := beNat l (o + 6) 1
    ⟨etype, vlan, some p, none, portOf p (o + 40)⟩
  else ⟨etype, vlan, none, none, none⟩

/-- Whether a rule is valid and a frame that came in at a port passes every enabled test of it. -/
def ruleMatches (r : List Byte) (f : FrameInfo) (port : Nat) : Bool :=
  let w (o : Nat) : Nat := leNat ((r.drop o).take 4)
  let lo := bits (w 0x10) 0 16
  let hi := bits (w 0x10) 16 16
  let inport := bits (w 0x14) 7 2
  bit (w 0x14) 6 && (!bit (w 0) 16 || f.etype == bits (w 0) 0 16) && (!bit (w 0) 29 || f.vlan == some (bits (w 0) 17 12)) &&
    (!bit (w 4) 8 || f.proto == some (bits (w 4) 0 8)) &&
    (w 0xC == 0 || (f.dip.map (fun d => d &&& w 0xC)) == some (w 8 &&& w 0xC)) &&
    ((lo == 0 && hi == 0xFFFF) || (f.port.map (fun p => lo ≤ p && p ≤ hi)).getD false) &&
    (inport == 0 || inport == port + 1)

/-- The lowest-numbered valid rule that matches. -/
def State.findRule (s : State) (die port : Nat) (l : List Byte) : Option Nat :=
  (List.range 64).find? (fun i => ruleMatches (s.ruleBytes die i) (frameInfo l) port)

/-! ### Reception (R316 to R318) -/

/-- The header of a received frame (R317). -/
def rxHeader (len : Nat) (trunc : Bool) (rule port seq tick : Nat) (stamp : List Byte) : List Byte :=
  leBytes 4 (len % 2 ^ 14 + bit01 trunc * 2 ^ 14 + rule * 2 ^ 16 + port * 2 ^ 22) ++ leBytes 4 seq ++ leBytes 8 tick ++
    stamp ++ List.replicate 32 0

/-- The argument record of a lane task that a filter places (R318). -/
def rxTask (slot : ArmedSlot) (hdr : List Byte) : List Byte :=
  leBytes 4 slot.offset ++ leBytes 4 (slot.core % 8 + clusterOf slot.core % 20 * 8) ++ hdr.take 4 ++ (hdr.drop 4).take 4 ++
    (hdr.drop 8).take 8 ++ List.replicate 40 0

/-- Enters a lane task into the sub-pool of a cluster, or the die pool where that is full: whether there was a place
(R332). -/
def State.enterTask (s : State) (cluster cls : Nat) (t : LaneTask) : Bool × State :=
  let die := cluster / 20
  let c := (s.die die).sched
  if c.room (some cluster) then (true, s.modSched die (fun c => c.enter (some cluster) cls s.tick (.task t)))
  else if c.room none then (true, s.modSched die (fun c => c.enter none cls s.tick (.task t)))
  else (false, s)

/-- Changes a receive ring. -/
def State.modRing (s : State) (die k : Nat) (f : RxRing → RxRing) : State :=
  s.modNet die (fun n => { n with rings := Map.set n.rings k (f (Map.getD n.rings k {})) })

/-- A frame that selects a ring: its slot, the delivery, and the event of its rule (R317, R318). -/
def State.receive (s : State) (die port rule k : Nat) (l : List Byte) : State :=
  let r := s.ruleBytes die rule
  let ring := Map.getD (s.die die).net.rings k {}
  let seq := ring.sequence
  match ring.armed, s.ringDesc die k with
  | slot :: rest, some (ctx, size, _) =>
    let s := s.modRing die k (fun x => { x with armed := rest, sequence := (seq + 1) % 2 ^ 32 })
    let hdr := rxHeader l.length (size - 64 < l.length) rule port seq s.tick s.ptpStamp
    let s := s.scratchDeliver none (slot.phys + 64) (l.take (size - 64)) false
    let s := s.scratchDeliver none slot.phys hdr false
    let s := (linesOf slot.phys size).foldl (fun s line => s.setPresent line true) s
    let target := leNat ((r.drop 0x18).take 8)
    let action := bits (leNat ((r.drop 0x14).take 4)) 4 2
    if action == 2 then s.post ctx (mkRef die (target % 2 ^ 18))
    else if action == 3 then
      (s.enterTask (clusterOf slot.core) 3 { kd := target, ctx := ctx, arg := rxTask slot hdr, kick := none }).2
    else s
  | _, _ => s.modRing die k (fun x => { x with drops := (x.drops + 1) % 2 ^ 32, sequence := (seq + 1) % 2 ^ 32 })

/-- FRAME_RECEIVE (R315 to R318): a frame without its FCS; the MAC discards and counts one whose FCS is bad. -/
def execFrameReceive (die port : Nat) (frame : MacFrame) (s : State) : Host.Outcome State Fault Refusal :=
  .next (if !frame.good then s.modNet die (fun n => { n with badFcs := n.badFcs + 1 })
    else match s.findRule die port frame.bytes with
    | none => s.modNet die (fun n => { n with unmatched := (n.unmatched + 1) % 2 ^ 32 })
    | some i =>
      let v := leNat (((s.ruleBytes die i).drop 0x14).take 4)
      if bits v 4 2 == 0 then s else s.receive die port i (bits v 0 4) frame.bytes)

/-- NRXARM (R316). -/
def execNrxarm (h : Hdr) (d : BitVec 8) (a : Src) (ring : BitVec 4) (off : BitVec 32) (s : State) :
    Host.Outcome State Fault Refusal :=
  onceWord h [(a, 1)] [d.toNat] s fun w s =>
    let g := w.ref.wg
    let die := dieOf (s.coreOf g)
    match s.ringDesc die ring.toNat with
    | none => .done (s.putAll w d.toNat 2)
    | some (ctx, size, depth) =>
      let o := s.jobOffset w a off
      if ctx != s.ctxOf g then .done (s.putAll w d.toNat 2)
      else match if o % 128 == 0 then s.aperture g o size else none with
        | none => .bad (w.operand w.low 6)
        | some p =>
          if depth ≤ (Map.getD (s.die die).net.rings ring.toNat {}).armed.length then .done (s.putAll w d.toNat 1)
          else
            let core := p / Config.scratchBytes
            let owner := match Map.find s.wgs g with
              | some x => ((s.wgs.find? (fun e => e.2.core == core && e.2.launch == x.launch && e.2.cluster == x.cluster)).map
                  (·.1)).getD g
              | none => g
            let s := (linesOf p size).foldl (fun s l => s.setPresent l false) s
            .done ((s.modRing die ring.toNat (fun x => { x with armed := x.armed ++ [⟨core, owner, p, o⟩] })).putAll w d.toNat 0)

/-! ### Transmission (R319 to R321) -/

/-- Gives a frame its handle, and offers it: a frame offered while the link is down is discarded (R319). The handle, and
whether the frame was taken. -/
def State.offer (s : State) (die : Nat) (f : TxFrame) : Nat × Bool × State :=
  let n := (s.die die).net
  let k := n.nextHandle
  let down := n.down.contains (bit01 f.p1)
  let keep := n.handles.filter (fun e => (k + 2 ^ 16 - e.1) % 2 ^ 16 < 1024)
  (k, !down, s.modNet die (fun n => { n with
    nextHandle := (k + 1) % 2 ^ 16
    handles := Map.set keep k { dropped := down }
    queue := if down then n.queue else n.queue ++ [{ f with handle := k }] }))

/-- NTX (R319). -/
def execNtx (h : Hdr) (d : BitVec 8) (a b : Src) (ts p1 : Bool) (off : BitVec 32) (s : State) :
    Host.Outcome State Fault Refusal :=
  onceWord h [(a, 1), (b, 1)] [d.toNat] s fun w s =>
    let g := w.ref.wg
    let core := s.coreOf g
    let die := dieOf core
    let o := s.jobOffset w a off
    let len := s.low32 w b
    if 16 ≤ ((s.die die).net.queue.filter (fun f => f.core == core)).length then .hold s w.group (.room 32) false
    else if len < 60 || 9212 < len || !(s.mayTransmit die (s.ctxOf g) p1) then .bad (w.operand w.low 9)
    else match if o % 4 == 0 then s.aperture g o len else none with
      | none => .bad (w.operand w.low 6)
      | some p => kicked w s .die fun _ s =>
        let (k, _, s) := s.offer die ⟨0, core, g, p, len, ts, p1, none⟩
        .done (s.putAll w d.toNat k)

/-- FRAME_SENT (R319 to R321): the engine has read every byte of the oldest frame of its port, and the frame has left. -/
def execFrameSent (die handle : Nat) (s : State) : Host.Outcome State Fault Refusal :=
  let n := (s.die die).net
  .next (match n.queue.find? (fun f => f.handle == handle) with
    | none => s
    | some f =>
      if (n.queue.find? (fun x => x.p1 == f.p1)).map (·.handle) != some handle then s
      else
        let down := n.down.contains (bit01 f.p1)
        let st : TxState := if down then { dropped := true }
          else { sent := true, stamped := f.ts, tick := s.tick, ptp := s.ptpStamp }
        let bytes := Memory.read s.scratch f.phys f.len
        let s := s.modNet die (fun n => { n with
          queue := n.queue.filter (fun x => x.handle != handle)
          wire := if down then n.wire else Map.set n.wire (bit01 f.p1) bytes
          handles := if (Map.find n.handles handle).isSome then Map.set n.handles handle st else n.handles })
        match f.node with
        | some k => s.unitDone die k
        | none => s)

/-- What a handle reads as: `none` is expired (R320). -/
def State.txState (s : State) (w : Act) (a : Src) : Option TxState :=
  Map.find (s.die (dieOf (s.coreOf w.ref.wg))).net.handles (s.low32 w a % 2 ^ 16)

/-- NTSR.st (R320). -/
def execNtsrSt (h : Hdr) (d : BitVec 8) (a : Src) (s : State) : Host.Outcome State Fault Refusal :=
  onceWord h [(a, 1)] [d.toNat] s fun w s =>
    .done (s.putAll w d.toNat (match s.txState w a with
      | some x => bit01 x.sent + bit01 x.stamped * 2 + bit01 x.dropped * 8
      | none => 4))

/-- NTSR.tick (R320). -/
def execNtsrTick (h : Hdr) (d : BitVec 8) (a : Src) (s : State) : Host.Outcome State Fault Refusal :=
  onceWord h [(a, 1)] [d.toNat, d.toNat + 1] s fun w s =>
    let v := match s.txState w a with
      | some x => if x.stamped then x.tick else 0
      | none => 0
    .done (s.putPair w.ref d.toNat w.lanes (fun _ => BitVec.ofNat 64 v))

/-- Writes four consecutive registers in the active lanes. -/
def State.putQuad (s : State) (w : Act) (d : Nat) (l : List Byte) : State :=
  (List.range 4).foldl (fun s j => s.putAll w (d + j) (leNat ((l.drop (4 * j)).take 4))) s

/-- NTSR.ptp (R320). -/
def execNtsrPtp (h : Hdr) (d : BitVec 8) (a : Src) (s : State) : Host.Outcome State Fault Refusal :=
  onceWord h [(a, 1)] ((List.range 4).map (fun j => d.toNat + j)) s fun w s =>
    let l := match s.txState w a with
      | some x => if x.stamped then x.ptp else List.replicate 16 0
      | none => List.replicate 16 0
    .done (s.putQuad w d.toNat l)

/-- Takes a ready node out of the seedbed to run (R328). -/
def State.startNode (s : State) (die n : Nat) : State :=
  let es := (s.die die).sched.seedbed.filter (fun e => decide (e.work = .node n))
  let s := s.setNode die n { s.node die n with st := .running, queued := false }
  es.foldl (fun s e => s.takeEntry die e.num) s

/-- Whether a node is ready, in the seedbed, and of a kind. -/
def State.readyNode (s : State) (die n kind : Nat) : Bool :=
  let x := s.node die n
  decide (x.st = .ready) && x.queued && x.kind == kind && decide ((s.ctx x.ctx).st = .running)

/-- FRAME_NODE_DISPATCH (R321). -/
def execFrameNodeDispatch (die node : Nat) (s : State) : Host.Outcome State Fault Refusal :=
  if s.readyNode die node 4 then
    let x := s.node die node
    let s := s.startNode die node
    let v := x.payload
    let off := bits v 0 20
    let core := die * Config.coresPerDie + bits v 20 8
    let len := bits v 28 14
    let p1 := bit v 43
    let inside := s.wgs.find? (fun e => e.2.core == core && s.ctxOf e.1 == x.ctx && e.2.base + 4 ≤ off &&
      off + len ≤ e.2.base + (s.launch e.2.launch).scratch)
    let granted := s.mayTransmit die x.ctx p1
    match inside, granted with
    | some (g, _), true =>
      let (k, taken, s) := s.offer die ⟨0, core, g, scratchAddr core off, len, bit v 42, p1, some node⟩
      let s := s.scratchDeliver none (scratchAddr core (off - 4)) (leBytes 4 (k + 2 ^ 31)) false
      .next (if taken then s else s.unitDone die node)
    | _, _ =>
      .next ((s.hostEvent 0x4D x.ctx die (mkRef die node) (bit01 inside.isNone + bit01 (!granted) * 2)).unitDone die node)
  else .next s

/-- ETHERNET_LINK_CHANGE (R315, R319). -/
def execEthernetLinkChange (die port : Nat) (up : Bool) (s : State) : Host.Outcome State Fault Refusal :=
  .next (s.modNet die (fun n => { n with
    down := if up then n.down.filter (· != port) else if n.down.contains port then n.down else port :: n.down }))

end Sys2Proof.Machine
end

