-- ==== Sys2Proof/Machine/Tasks.lean ====
section
/-! DEFINITION. Class 0xB and the task-graph scheduler: nodes, completion events, the seedbed and lane tasks (R324 to R336,
R345, R348, R349). -/

namespace Sys2Proof.Machine

/-! ### Node templates (R326, R349) -/

/-- The 64-bit payload of a frame node is well formed (R321). -/
def framePayloadOk (v : Nat) : Bool :=
  let off := bits v 0 20
  let len := bits v 28 14
  off % 4 == 0 && 4 ≤ off && bits v 20 8 < 160 && 60 ≤ len && len ≤ 9212 && v / 2 ^ 44 == 0

/-- Reads a template for a context, and checks it. -/
def readNode (ctx : Nat) (l : List Byte) : Option Node :=
  let n (o k : Nat) : Nat := leNat ((l.drop o).take k)
  let kind := bits (n 4 4) 0 4
  let payload := n 8 8
  let ok := kind < 5 && bits (n 4 4) 14 18 == 0 && n 0x38 8 == 0 && (kind != 0 || payload == 0) &&
    (kind != 1 || payload % 128 == 0) && (kind != 2 || payload / 2 ^ 33 == 0) && (kind != 4 || framePayloadOk payload)
  if ok then
    some { pred := n 2 2, init := n 2 2, kind := kind, st := .waiting, rearm := false, ctx := ctx, payload := payload
           succs := (List.range 8).map (fun i => n (0x10 + 4 * i) 4), tag := n 0x30 8, queued := false }
  else none

/-- A free node record of a die: which one the scheduler takes is free (assumption 1). -/
def State.freeNode (s : State) (die : Nat) : Option Nat × State :=
  let (k, s) := s.draw
  let start := Config.pick k
  let used := (s.die die).sched.nodes
  let free (n : Nat) : Bool := decide ((s.node die n).st = .free)
  (((List.range (min (used.length + 1) 262144)).map (fun i => (start + i) % 262144)).find? free, s)

/-- TNODE (R326, R328, R349). -/
def execTnode (h : Hdr) (d : BitVec 8) (a : Src) (off : BitVec 32) (s : State) : Host.Outcome State Fault Refusal :=
  onceWord h [(a, 1)] [d.toNat] s fun w s =>
    let g := w.ref.wg
    let die := dieOf (s.coreOf g)
    let o := s.jobOffset w a off
    if o % 64 != 0 || (s.aperture g o 64).isNone then .bad (w.operand w.low 6)
    else ownRecords w s o 64 1 fun recs s => match readNode (s.ctxOf g) (recs.headD []) with
      | none => .bad (w.operand w.low 7)
      | some x =>
        match s.freeNode die with
        | (none, s) => .done (s.putAll w d.toNat 1)
        | (some n, s) =>
          let s := s.setNode die n x
          let s := if x.init == 0 then s.makeReady die n else s
          .done (s.putAll w d.toNat (mkRef die n))

/-! ### Words on nodes (R349) -/

/-- A node that a reference names and that a context may act on. -/
def State.ownNode (s : State) (ctx ref : Nat) : Option (Nat × Nat × Node) :=
  match s.refNode ref with
  | some (d, n) =>
    let x := s.node d n
    if decide (x.st = .free) || x.ctx != ctx then none else some (d, n, x)
  | none => none

/-- What a peer package answers about one of its nodes: not this package's to say (assumption 13). -/
def State.peerAnswer (s : State) (w : Act) (d bound : Nat) : State :=
  let (k, s) := s.draw
  s.putAll w d ((Config.freeWord k).toNat % bound)

/-- Adds a reference to the first free successor place of a node. -/
def State.addSucc (s : State) (die n ref : Nat) : State :=
  let x := s.node die n
  match x.succs.findIdx? (fun r => !(bit r 31)) with
  | some i => s.setNode die n { x with succs := x.succs.set i ref }
  | none => s

/-- Whether a node has a free successor place. -/
def Node.open (x : Node) : Bool := x.succs.any (fun r => !(bit r 31))

/-- The target of an edge gains a predecessor: the status (R349). -/
def State.edgeTarget (s : State) (die n : Nat) : Nat × State :=
  let y := s.node die n
  let waiting := decide (y.st = .waiting)
  (if waiting then 0 else if decide (y.st = .done) then 2 else 1,
    s.setNode die n { y with init := y.init + 1, pred := if waiting then y.pred + 1 else y.pred })

/-- An edge as far as it lies in this package, for a context (R349): the source's part, the target's, or both. A node of a peer package
has another part there, whose answer is `far` (assumption 13). -/
def State.edge (s : State) (ctx src dst : Nat) (srcHere dstHere : Bool) (far : Nat) : Nat × State :=
  let a := s.ownNode ctx src
  let b := s.ownNode ctx dst
  if (srcHere && a.isNone) || (dstHere && b.isNone) || far == 4 then (4, s)
  else if (srcHere && !((a.map (fun x => x.2.2.open)).getD false)) || far == 3 then (3, s)
  else if (dstHere && ((b.map (fun y => y.2.2.init)).getD 0 == 0xFFFF)) || far == 5 then (5, s)
  else
    let s := match a with
      | some (d, n, _) => if srcHere then s.addSucc d n dst else s
      | none => s
    match b with
    | some (d, n, _) => if dstHere then s.edgeTarget d n else (far, s)
    | none => (far, s)

/-- TEDGE (R328, R349). -/
def execTedge (h : Hdr) (d : BitVec 8) (a b : Src) (s : State) : Host.Outcome State Fault Refusal :=
  onceWord h [(a, 1), (b, 1)] [d.toNat] s fun w s =>
    let ctx := s.ctxOf w.ref.wg
    let ra := s.low32 w a
    let rb := s.low32 w b
    let (pa, pb) := (s.peerRef ra, s.peerRef rb)
    if !(bit ra 31) || !(bit rb 31) then .bad (w.operand w.low 9)
    else if pa && pb then .done (s.peerAnswer w d.toNat 6)
    else
      -- what the peer's part answers: a source there is good, is no node, or has no free place; a target there gives a status
      let (k, s) := if pa || pb then s.draw else (0, s)
      let far := if pa then [0, 4, 3].getD ((Config.freeWord k).toNat % 3) 0
        else if pb then [0, 1, 2, 4, 5].getD ((Config.freeWord k).toNat % 5) 0 else 0
      let (v, s) := s.edge ctx ra rb (!pa) (!pb) far
      .done (s.putAll w d.toNat v)

/-- TDONE (R329, R331, R349). -/
def execTdone (h : Hdr) (a : Src) (s : State) : Host.Outcome State Fault Refusal :=
  onceWord h [(a, 1)] [] s fun w s =>
    let ref := s.low32 w a
    let die := dieOf (s.coreOf w.ref.wg)
    let sc : Scope := match s.refNode ref with
      | some (d, _) => if d == die then .die else .pkg
      | none => if s.peerRef ref then .dom else .die
    if !(bit ref 31) then .bad (w.operand w.low 9)
    else kicked w s sc fun k s => .done (s.post k.ctx ref)

/-- TSTAT (R349). -/
def execTstat (h : Hdr) (d : BitVec 8) (a : Src) (s : State) : Host.Outcome State Fault Refusal :=
  onceWord h [(a, 1)] [d.toNat] s fun w s =>
    let ref := s.low32 w a
    if !(bit ref 31) then .bad (w.operand w.low 9)
    else if s.peerRef ref then .done (s.peerAnswer w d.toNat (2 ^ 32))
    else match s.ownNode (s.ctxOf w.ref.wg) ref with
      | some (_, _, x) => .done (s.putAll w d.toNat (x.pred + x.init * 2 ^ 16))
      | none => .done (s.putAll w d.toNat 0xFFFFFFFF)

/-- What TREARM does to a node, with its status (R328, R349). -/
def State.rearmNode (s : State) (die n : Nat) (free : Bool) : Nat × State :=
  let x := s.node die n
  match x.st with
  | .done => if free then (0, s.setNode die n { x with st := .free }) else (0, s.restart die n)
  | .running => if free then (2, s) else (1, s.setNode die n { x with rearm := true })
  | _ => (2, s)

/-- Both forms of TREARM. -/
def rearmWord (h : Hdr) (d : BitVec 8) (a : Src) (free : Bool) (s : State) : Host.Outcome State Fault Refusal :=
  onceWord h [(a, 1)] [d.toNat] s fun w s =>
    let ref := s.low32 w a
    if !(bit ref 31) then .bad (w.operand w.low 9)
    else if s.peerRef ref then .done (s.peerAnswer w d.toNat 4)
    else match s.ownNode (s.ctxOf w.ref.wg) ref with
      | some (die, n, _) =>
        let (st, s) := s.rearmNode die n free
        .done (s.putAll w d.toNat st)
      | none => .done (s.putAll w d.toNat 3)

/-- TREARM (R328, R349). -/
def execTrearm (h : Hdr) (d : BitVec 8) (a : Src) (s : State) : Host.Outcome State Fault Refusal := rearmWord h d a false s
/-- TREARM.free (R328, R349). -/
def execTrearmFree (h : Hdr) (d : BitVec 8) (a : Src) (s : State) : Host.Outcome State Fault Refusal := rearmWord h d a true s

/-! ### LAUNCH and TSPAWN (R349) -/

/-- LAUNCH (R235, R259, R349). -/
def execLaunch (h : Hdr) (d : BitVec 8) (a : Src) (off : BitVec 32) (s : State) : Host.Outcome State Fault Refusal :=
  onceWord h [(a, 2)] [d.toNat] s fun w s =>
    let g := w.ref.wg
    let ag := s.agent g
    let die := dieOf ag.core
    let va := s.lowAddr w a off
    if va % 128 != 0 then .bad (w.operand w.low 9)
    else if !(s.onceOk g va 128) then .bad (w.operand w.low 6)
    else match s.settleAtomics w.ref with
      | (s, some t) => .older s t
      | (s, none) => afterLog w s (ag.checked || !(inAperture va)) fun s =>
        afterCheck w s s [(w.low, va, 128, 0)] (raceOnce w s)
          (match s.loadBytes w.ref ag false false va 128 with
          | (.error (sub, byte), s) => faultOnce w s sub byte
          | (.ok l, s) =>
            if 64 ≤ (s.die die).sched.queue.length then .done (s.putAll w d.toNat 1)
            else
              let mask := leNat ((l.drop 0x1A).take 1)
              let sc := scopeMax (s.rangeScope ag.core ag.ctx va 128) (if mask == 0 || mask == 2 ^ die then .die else .pkg)
              kicked w s sc fun k s =>
                let seq := (s.die die).sched.nextSeq
                let s := s.modSched die (fun c => { c with
                  queue := c.queue ++ [⟨seq, k.ctx, va, none, some k⟩], nextSeq := (seq + 1) % 2 ^ 31 })
                .done (s.putAll w d.toNat (seq + 2 ^ 31)))

/-- TSPAWN (R345, R349): lanes enter in increasing order. -/
def execTspawn (h : Hdr) (d : BitVec 8) (a b : Src) (off : BitVec 32) (s : State) : Host.Outcome State Fault Refusal :=
  runWord h false (srcNames a 1 ++ srcNames b 2) (srcLast a 1 ++ srcLast b 2) 6 s fun w s =>
    let g := w.ref.wg
    let o (i : Nat) : Nat := (s.srcLane w.ref a i + off).toNat
    match s.wordFault w [a, b] w.lanes [d.toNat] with
    | some t => .bad t
    | none =>
      if (s.launchOf g).determ then .bad w.nondet
      else match (lanesOf w.lanes).find? (fun i => o i % 64 != 0 || (s.pairLane w.ref b i).toNat % 256 != 0) with
        | some i => .bad (w.operand i 9)
        | none =>
          let out := maskOf (fun i => w.lanes.getLsbD i && !(s.boundsOk g (apertureVa (o i)) 64))
          let live := w.lanes &&& ~~~out
          match s.settleAtomics w.ref with
          | (s, some t) => .older s t
          | (s, none) =>
            let tasks := (lanesOf live).map (fun i => (i, (s.pairLane w.ref b i).toNat, s.ownBytes w.ref (o i) 64))
            onceChecked w s ((lanesOf live).map (fun i => (i, apertureVa (o i), 64, 0))) fun s => kicked w s .die fun k s =>
              let s := s.switchOff w.ref out
              let (s, acc) := tasks.foldl (fun (s, acc) (i, kd, l) =>
                let (ok, s) := s.enterTask (clusterOf k.core) (s.launchOf g).cls { kd := kd, ctx := k.ctx, arg := l, kick := some k }
                (s, if ok then acc else acc ||| oneLane i)) (s, (0 : Mask))
              .done (s.writeReg w.ref d.toNat live (lanes (fun i => if acc.getLsbD i then 1 else 0)))

/-! ### Steps of the scheduler (R328, R333) -/

/-- Whether the events of a context wait (R399): while it drains and while it is pre-empted. -/
def State.eventsWait (s : State) (ctx : Nat) : Bool :=
  match (s.ctx ctx).st with
  | .draining => true
  | .preempted => true
  | _ => false

/-- DECREMENT_ARRIVAL (R19, R328 to R330, R399): a posted decrement reaches its node; which of several comes first is
free. -/
def execDecrementArrival (n : Nat) (s : State) : Host.Outcome State Fault Refusal :=
  .next (match s.posts[n]? with
    | some p => if s.eventsWait p.ctx then s else ({ s with posts := s.posts.eraseIdx n }).decrement p.ctx p.ref
    | none => s)

/-- NODE_COMPLETE (R327, R328). -/
def execNodeComplete (die node : Nat) (s : State) : Host.Outcome State Fault Refusal :=
  .next (if (s.die die).sched.finished.contains node then
      (s.modSched die (fun c => { c with finished := c.finished.filter (· != node) })).nodeDone die node
    else s)

/-- The entry of some that a unit takes: the highest class, and among those the oldest (R333); where the die runs its
seedbed as a single queue, the oldest of all (R336). -/
def bestEntry (single : Bool) : List Entry → Option Entry
  | [] => none
  | e :: l => some (l.foldl (fun b x =>
      if (!single && b.cls < x.cls) || ((single || b.cls == x.cls) && x.num < b.num) then x else b) e)

/-- Entries of a seedbed that are nodes of some kinds whose dispatch needs no engine: event nodes, and launch nodes while
the launch queue has a free place (R333). -/
def State.dispatchable (s : State) (die : Nat) : List Entry :=
  (s.die die).sched.seedbed.filter (fun e =>
    match e.work with
    | .node n =>
      let k := (s.node die n).kind
      !(s.eventsWait (s.node die n).ctx) && (k == 0 || (k == 1 && (s.die die).sched.queue.length < 64))
    | _ => false)

/-- SEEDBED_DISPATCH (R327, R332, R333): an event node completes; a launch node enters the launch queue. -/
def execSeedbedDispatch (die : Nat) (s : State) : Host.Outcome State Fault Refusal :=
  .next (match (bestEntry (s.die die).sched.single (s.dispatchable die)).map (fun (e : Entry) => e.work) with
    | some (Work.node n) =>
      let x := s.node die n
      let s := s.startNode die n
      if x.kind == 0 then s.nodeDone die n
      else
        let seq := (s.die die).sched.nextSeq
        s.modSched die (fun c => { c with
          queue := c.queue ++ [⟨seq, x.ctx, x.payload, some n, none⟩], nextSeq := (seq + 1) % 2 ^ 31 })
    | _ => s)

end Sys2Proof.Machine
end

