-- ==== Sys2Proof/Machine/Collective.lean ====
section
/-! DEFINITION. Class 0xC, collectives: descriptors, reduction, gradient streams, and the steps of the collective engine
(R186, R351 to R369). -/

namespace Sys2Proof.Machine

/-! ### Descriptors (R353, R366) -/

/-- Bytes of an element of a format code; 8 is binned. -/
def collSize (f : Nat) : Nat := if f == 8 then 8 else if f == 0 then 4 else 2
/-- The floating-point format of a code. -/
def collFmt (f : Nat) : Fmt := if f == 0 then .f32 else if f == 1 then .bf16 else .f16
/-- Whether a format code is defined. -/
def collFmtOk (f : Nat) : Bool := f ≤ 2 || f == 8

/-- Reads a descriptor, and checks what R366 says of it alone. -/
def readColl (l : List Byte) : Option CollDesc :=
  let n (o k : Nat) : Nat := leNat ((l.drop o).take k)
  let fl := n 0x14 4
  match Rnd.ofBits (BitVec.ofNat 3 (bits fl 6 3)) with
  | none => none
  | some rnd =>
    let d : CollDesc :=
      { src := n 0 (if bit fl 17 then 4 else 8), dst := n 8 (if bit fl 18 then 4 else 8), count := n 0x10 4, kind := bits fl 0 3, op := bits fl 3 2, arrival := bit fl 5, rnd := rnd
        infmt := bits fl 9 4, outfmt := bits fl 13 4, sspace := bit fl 17, dspace := bit fl 18, nodev := bit fl 19
        spec := bit fl 20, stream := bit fl 21, group := n 0x18 1, slot := bits (n 0x18 4) 8 6, sequence := n 0x1C 4
        node := n 0x20 4, root := n 0x24 2, bucketmib := bits (n 0x24 4) 16 7, bucket := n 0x28 8
        binexp := sext (n 0x3C 1) 8 }
    let moves := d.kind == 2 || d.kind == 3
    let binned := d.infmt == 8 || d.outfmt == 8
    let place (space : Bool) (a size : Nat) : Bool := a % size == 0 && (space || canonical a)
    if d.kind < 4 && d.op < 3 && collFmtOk d.infmt && collFmtOk d.outfmt && bits fl 22 10 == 0 && bits (n 0x18 4) 14 18 == 0 &&
        bits (n 0x24 4) 23 9 == 0 && n 0x3C 4 / 256 == 0 && (d.kind == 3 || d.root == 0) && 1 ≤ d.count && d.count ≤ 2 ^ 28 &&
        place d.sspace d.src (collSize d.infmt) && place d.dspace d.dst (collSize d.outfmt) &&
        (if d.bucket == 0 then d.bucketmib == 0 else d.bucket % 4096 == 0 && 4 ≤ d.bucketmib && d.bucketmib ≤ 64) &&
        (!d.stream || (d.kind == 1 && d.count % 64 == 0 && d.infmt == 0)) && !(d.arrival && (d.spec || binned)) &&
        !(moves && (d.op != 0 || d.arrival || bits fl 6 3 != 0 || d.spec || d.stream || d.outfmt != d.infmt)) &&
        (if d.infmt == 8 then decide (-126 ≤ d.binexp) else d.binexp == 0) && !(d.op != 0 && binned)
    then some d else none

/-- Whether two contributions agree in the fields that R353 names. -/
def CollDesc.agrees (a b : CollDesc) : Bool :=
  a.count == b.count && a.kind == b.kind && a.op == b.op && a.arrival == b.arrival && a.rnd == b.rnd && a.infmt == b.infmt &&
    a.outfmt == b.outfmt && a.spec == b.spec && a.stream == b.stream && a.root == b.root && a.binexp == b.binexp

/-- A group record (R352): contributions for each die, and the members as package and die; none where it is invalid. -/
def State.groupRecord (s : State) (ctx g : Nat) : Option (Nat × List (Nat × Nat)) :=
  let a := 0x300000 + 4096 * ctx + 16 * g
  let v := Memory.num s.w0 a 4
  let n := bits v 0 12
  let c := bits v 12 7
  if bit v 19 && 1 ≤ n && n ≤ 2048 && 1 ≤ c && c ≤ 64 then
    let list := Memory.num s.w0 (a + 8) 8
    some (c, (List.range n).map (fun i => let e := s.physNum (list + 2 * i) 2; (bits e 0 8, bits e 8 3)))
  else none

/-- The shard size of a descriptor among `p` participants (R355). -/
def CollDesc.shard (d : CollDesc) (p : Nat) : Nat :=
  let u := if d.stream then 64 else 32
  u * ((d.count + u * p - 1) / (u * p))

/-- The elements that a participant owns: the first and how many. -/
def CollDesc.owned (d : CollDesc) (p i : Nat) : Nat × Nat :=
  let sh := d.shard p
  (i * sh, min d.count ((i + 1) * sh) - min d.count (i * sh))

/-- Elements of a participant's source and destination: the first element of the vector and how many (R355). -/
def CollDesc.extents (d : CollDesc) (p i : Nat) : (Nat × Nat) × (Nat × Nat) :=
  let all := (0, d.count)
  match d.kind with
  | 0 => (all, all)
  | 1 => (if d.stream then (0, 0) else all, d.owned p i)
  | 2 => (d.owned p i, all)
  | _ => (if d.root == i then all else (0, 0), all)

/-! ### Operations -/

/-- Participants of an operation. -/
def CollOp.parts (o : CollOp) : Nat := o.members.length * o.c
/-- Its own participant index. -/
def CollOp.index (o : CollOp) : Nat := o.m * o.c + o.desc.slot
/-- Whether it has not ended. -/
def CollOp.pending (o : CollOp) : Bool := o.status == 0

/-- An operation of a context by its handle (R367). -/
def State.collOp (s : State) (die ctx handle : Nat) : Option CollOp :=
  (s.die die).coll.ops.find? (fun o => o.handle == handle && o.ctx == ctx)

/-- Changes an operation. -/
def State.modOp (s : State) (die ctx handle : Nat) (f : CollOp → CollOp) : State :=
  s.modColl die (fun c => { c with ops := c.ops.map (fun o => if o.handle == handle && o.ctx == ctx then f o else o) })

/-- The contributions on this package to the operation of one of them, with their dies: those that have not been
reduced. -/
def State.contributions (s : State) (o : CollOp) : List (Nat × CollOp) :=
  s.dies.flatMap (fun (d, x) => (x.coll.ops.filter (fun (y : CollOp) => y.ctx == o.ctx && y.desc.group == o.desc.group &&
    y.desc.sequence == o.desc.sequence && y.pending && y.out.isNone && !y.members.isEmpty)).map (fun y => (d, y)))

/-- Writes the last twelve bytes of an operation's descriptor (R368): dropped where its region has left the launch. -/
def State.putResult (s : State) (die : Nat) (o : CollOp) : State :=
  let l := leBytes 4 o.nanidx ++ leBytes 4 o.nansrc ++ leBytes 4 o.status
  if o.scratch then
    if s.wgs.any (fun e => e.2.launch == o.launch && e.2.core == o.core && scratchAddr o.core e.2.base ≤ o.place &&
        o.place + 64 ≤ scratchAddr o.core e.2.base + (s.launch e.2.launch).scratch) then
      s.scratchDeliver o.kick (o.place + 0x30) l false
    else s
  else (s.engineStore die o.ctx o.kick ((o.place + 0x30) % 2 ^ 64) l).2

/-- The end of an operation (R354, R368): its status, its result words, its completion event, its node. -/
def State.endOp (s : State) (die : Nat) (o : CollOp) (status nanidx nansrc : Nat) : State :=
  let o := { o with status := status, nanidx := nanidx, nansrc := nansrc, out := none, rows := [], staged := [] }
  let s := (s.modOp die o.ctx o.handle (fun _ => o)).putResult die o
  let s := if o.desc.nodev then s.enginePost die o.ctx o.desc.node else s
  match o.node with
  | some n => s.unitDone die n
  | none => s

/-- Every contribution on this package to the operation of one of them that has not ended, with its die. -/
def State.partners (s : State) (o : CollOp) : List (Nat × CollOp) :=
  s.dies.flatMap (fun (d, x) => (x.coll.ops.filter (fun (y : CollOp) => y.ctx == o.ctx && y.desc.group == o.desc.group &&
    y.desc.sequence == o.desc.sequence && y.pending && !y.members.isEmpty)).map (fun y => (d, y)))

/-- Writes some of the elements of a contribution's output to its destination, each or not: a free value says (R369; assumption 91). -/
def State.spill (s : State) (die : Nat) (o : CollOp) (l : List Byte) : State :=
  let z := collSize o.desc.outfmt
  (List.range (l.length / z)).foldl (fun s i =>
    let (k, s) := s.draw
    let e := (l.drop (z * i)).take z
    if !(Config.freeBit k) then s
    else if o.desc.dspace then s.scratchDeliver o.kick (jobPlace o.core o.base o.desc.dst + z * i) e false
    else (s.engineStore die o.ctx o.kick ((o.desc.dst + z * i) % 2 ^ 64) e).2) s

/-- The participants of an operation that are on this package. -/
def State.localParts (s : State) (o : CollOp) : List Nat :=
  (List.range o.parts).filter (fun i => ((o.members[i / o.c]?).map (fun e => e.1 == s.pkg)).getD false)

/-- An operation without output has no NaN to name (R353, R359). -/
def State.endEmpty (s : State) (die : Nat) (o : CollOp) (status : Nat) : State :=
  s.endOp die o status 0xFFFFFFFF Config.noNanSource.toNat

/-- Whether an ended operation is the one of a contribution. -/
def CollEnd.same (e : CollEnd) (o : CollOp) : Bool := e.ctx == o.ctx && e.group == o.desc.group && e.sequence == o.desc.sequence

/-- Ends every contribution on this package with a reason, refused or faulted, and those that have still to come but for some that
have (R366, R369). -/
def State.endOthers (s : State) (o : CollOp) (came : List Nat) (state reason : Nat) : State :=
  let l := s.partners o
  let status := state + reason * 2 ^ 4
  let left := (s.localParts o).filter (fun i => !(came.contains i) && !(l.any (fun e => e.2.index == i)))
  let s := l.foldl (fun s (d, x) => s.endEmpty d x status) s
  let new : List CollEnd := if left.isEmpty then [] else [⟨o.ctx, o.desc.group, o.desc.sequence, status, left⟩]
  { s with collEnds := new ++ s.collEnds.filter (fun e => !(e.same o)) }

/-- The same for all of them. -/
def State.endAll (s : State) (o : CollOp) (state reason : Nat) : State := s.endOthers o [] state reason

/-- A contribution to an operation that has ended: the status that it ends with (R366, R369). -/
def State.endedFor (s : State) (o : CollOp) : Option Nat := (s.collEnds.find? (fun e => e.same o && e.left.contains o.index)).map (·.status)

/-- A contribution to an operation that has ended has come. -/
def State.cameLate (s : State) (o : CollOp) : State :=
  let one (e : CollEnd) : CollEnd := if e.same o then { e with left := e.left.filter (· != o.index) } else e
  { s with collEnds := (s.collEnds.map one).filter (fun e => !e.left.isEmpty) }

/-- The reason for which the contributions on this package are refused, if two disagree or share a slot (R366). -/
def State.conflict (s : State) (o : CollOp) : Option Nat :=
  let l := s.contributions o
  if l.any (fun x => !(x.2.desc.agrees o.desc)) then some 2
  else if (l.filter (fun x => x.2.index == o.index)).length != 1 then some 4
  else none

/-! ### Reduction (R356 to R362) -/

/-- The output of one element: its code, the status bits it sets, and the participant whose NaN it is. -/
structure CollElem where
  code : Nat
  nan : Bool := false
  inf : Bool := false
  ovf : Bool := false
  inexact : Bool := false
  src : Nat := 0
deriving Inhabited, DecidableEq, Repr

/-- Whether a value is an infinity of a sign. -/
def Val.isInf (v : Val) (neg : Bool) : Bool :=
  match v with
  | .inf n => n == neg
  | _ => false

/-- The exponent of a finite contribution (R356). -/
def finExp : Val → Option Int
  | .fin _ m e => some (if m == 0 then -126 else max (-126) ((m.log2 : Int) + e))
  | _ => none

/-- A finite contribution as a multiple of 2^(E - 46), and whether a one bit is dropped. -/
def toBin (E : Int) : Val → Int × Bool
  | .fin n m e => let (k, lost) := roundWhole .rtz n m (e + 46 - E); (if n then -(k : Int) else k, lost)
  | _ => (0, false)

/-- A rounded output. -/
def outElem (f : Nat) (r : Res) : CollElem :=
  { code := r.code, inf := Val.isInf (decodeElem 0 (collFmt f) r.code) false || Val.isInf (decodeElem 0 (collFmt f) r.code) true
    ovf := r.flags &&& fOverflow != 0, inexact := r.flags &&& fInexact != 0 }

/-- The NaN and the infinities of an output format. -/
def collNan (f : Nat) : Nat := if f == 8 then binNan.toNat else nanCode (collFmt f)
/-- An infinity of an output format. -/
def collInf (f : Nat) (neg : Bool) : Nat := if f == 8 then (if neg then binNeg else binPos).toNat else infCode (collFmt f) neg

/-- The position of the first participant with a property. -/
def firstOf {α : Type} (p : α → Bool) (l : List α) : Nat := (l.findIdx? p).getD 0

/-- The special output of an element, if there is one (R356, R359). -/
def specialElem (f : Nat) (vs : List Val) : Option CollElem :=
  let pos := vs.any (fun v => Val.isInf v false)
  let neg := vs.any (fun v => Val.isInf v true)
  if vs.any Val.isNan then some { code := collNan f, nan := true, src := firstOf Val.isNan vs }
  else if pos && neg then
    some { code := collNan f, nan := true, src := firstOf (fun v => Val.isInf v false || Val.isInf v true) vs }
  else if pos || neg then some { code := collInf f neg, inf := true }
  else none

/-- A deterministic sum of one element under a block exponent (R356). -/
def sumElem (d : CollDesc) (E : Int) (vs : List Val) : CollElem :=
  match specialElem d.outfmt vs with
  | some x => x
  | none =>
    let n : Int := vs.foldl (fun a v => a + (toBin E v).1) 0
    if d.outfmt == 8 then { code := (BitVec.ofInt 64 n).toNat }
    else outElem d.outfmt (roundFin (collFmt d.outfmt) d.rnd false (decide (n < 0)) n.natAbs (E - 46))

/-- A sum of binned contributions (R357). -/
def binElem (d : CollDesc) (xs : List Dword) : CollElem :=
  let pos := xs.contains binPos
  let neg := xs.contains binNeg
  if xs.contains binNan then { code := collNan d.outfmt, nan := true, src := firstOf (· == binNan) xs }
  else if pos && neg then
    { code := collNan d.outfmt, nan := true, src := firstOf (fun x => x == binPos || x == binNeg) xs }
  else
    let n : Int := xs.foldl (fun a x => a + x.toInt) 0
    if pos || (!neg && decide (n > 2 ^ 63 - 2)) then { code := collInf d.outfmt false, inf := true, ovf := true }
    else if neg || decide (n < -(2 ^ 63 - 2)) then { code := collInf d.outfmt true, inf := true, ovf := true }
    else if d.outfmt == 8 then { code := (BitVec.ofInt 64 n).toNat }
    else outElem d.outfmt (roundFin (collFmt d.outfmt) d.rnd false (decide (n < 0)) n.natAbs (d.binexp - 46))

/-- A maximum or minimum of one element (R358). -/
def pickElem (d : CollDesc) (vs : List Val) : CollElem :=
  if vs.any Val.isNan then { code := collNan d.outfmt, nan := true, src := firstOf Val.isNan vs }
  else
    let code (v : Val) : Nat := (convert .f32 .rne false v).code
    match vs with
    | [] => { code := 0 }
    | v :: rest =>
      let best := rest.foldl (fun b x =>
        let r := (minMax .f32 (d.op == 1) false b x (code b) (code x)).code
        if r == code b then b else x) v
      outElem d.outfmt (convert (collFmt d.outfmt) d.rnd false best)

/-- Pairwise additions in an order that free values choose (R362). -/
def arrivalSum (rnd : Rnd) : Nat → Nat → List Val → Val
  | 0, _, l => l.headD (.fin false 0 0)
  | n + 1, k, l =>
    match l with
    | [] => .fin false 0 0
    | [v] => v
    | _ =>
      let i := Config.pick k % l.length
      let a := l.getD i (.fin false 0 0)
      let rest := l.eraseIdx i
      let j := Config.pick (k + 1) % rest.length
      let b := rest.getD j (.fin false 0 0)
      arrivalSum rnd n (k + 2) (rest.eraseIdx j ++ [f32 (BitVec.ofNat 32 (addVal .f32 rnd false a b).code)])

/-- An arrival-order sum of one element; `k` is the first of its free values. -/
def arrivalElem (d : CollDesc) (k : Nat) (vs : List Val) : CollElem :=
  let v := arrivalSum d.rnd vs.length k vs
  if v.isNan then
    -- where no contribution is NaN, infinities of both signs have met, of which some may come from an overflow (R359)
    let inf (x : Val) : Bool := Val.isInf x false || Val.isInf x true
    { code := collNan d.outfmt, nan := true, src := firstOf (if vs.any Val.isNan then Val.isNan else inf) vs }
  else outElem d.outfmt (convert (collFmt d.outfmt) d.rnd false v)

/-- An element that a gather or a broadcast moves (R355). -/
def moveElem (d : CollDesc) (owner code : Nat) : CollElem :=
  if d.infmt == 8 then
    { code := code, nan := code == binNan.toNat, inf := code == binPos.toNat || code == binNeg.toNat, src := owner }
  else
    let v := decodeElem 0 (collFmt d.infmt) code
    { code := code, nan := v.isNan, inf := Val.isInf v false || Val.isInf v true, src := owner }

/-- The block exponent of some elements (R356). -/
def blockExp (vss : List (List Val)) : Int :=
  vss.foldl (fun E vs => vs.foldl (fun E v => match finExp v with | some x => max E x | none => E) E) (-126)

/-- What happened to one block: its exponent, whether a bit was lost under it, whether it was sent speculatively, and
whether that was kept (R360). -/
structure BlockOut where
  exp : Int
  lost : Bool
  tried : Bool
  kept : Bool
deriving Inhabited, DecidableEq, Repr

/-- The block's exponent, with its speculation under a previous one. -/
def blockOut (vss : List (List Val)) (prev : Option Int) : BlockOut :=
  let E := blockExp vss
  let lostAt (e : Int) : Bool := vss.any (fun vs => vs.any (fun v => (toBin e v).2))
  match prev with
  | none => ⟨E, lostAt E, false, false⟩
  | some p =>
    let t := min 127 (p + 1)
    let above := vss.any (fun vs => vs.any (fun v => match finExp v with | some x => decide (t < x) | none => false))
    ⟨E, lostAt E, true, !above && (E == t || !(lostAt t))⟩

/-! ### The data of an operation -/

/-- The bytes at a contribution's source or destination, as its engine reads them. -/
def State.collRead (s : State) (die : Nat) (o : CollOp) (n : Nat) : Except (Nat × Nat) (List Byte) × State :=
  if n == 0 then (.ok [], s)
  else if o.desc.sspace then (.ok (Memory.read s.scratch (jobPlace o.core o.base o.desc.src) n), s)
  else s.engineRead die o.ctx o.desc.src n

/-- The element codes of a contribution: where its source starts in the vector, and the codes from there. -/
abbrev Source := Nat × List Nat

/-- The codes of a contribution on this package. -/
def State.sourceOf (s : State) (die : Nat) (o : CollOp) : Except (Nat × Nat) Source × State :=
  let d := o.desc
  if d.stream then
    (.ok (0, (List.range (d.count / 64)).flatMap (fun r =>
      (((o.rows.find? (fun e => e.1 == r)).map (·.2)).getD []).map (fun w => w.toNat))), s)
  else
    let (first, k) := (d.extents o.parts o.index).1
    let z := collSize d.infmt
    match s.collRead die o (k * z) with
    | (.error e, s) => (.error e, s)
    | (.ok l, s) => (.ok (first, (List.range k).map (fun j => leNat ((l.drop (j * z)).take z))), s)

/-- The codes of a contribution from another package: free values, from `k` on (assumption 13). -/
def peerSource (d : CollDesc) (k : Nat) : Source :=
  (0, (List.range d.count).map (fun j =>
    let w := (Config.freeWord (k + 2 * j)).toNat
    if d.infmt == 8 then w + (Config.freeWord (k + 2 * j + 1)).toNat * 2 ^ 32 else w % 2 ^ (8 * collSize d.infmt)))

/-- The sources of every participant, or the contribution whose source faults. -/
def State.sources (s : State) (o : CollOp) : Except (Nat × CollOp × Nat × Nat) (List Source) × State :=
  let l := s.contributions o
  (List.range o.parts).foldl (fun (acc, s) i =>
    match acc with
    | .error e => (.error e, s)
    | .ok out =>
      match l.find? (fun x => x.2.index == i) with
      | some (d, x) =>
        match s.sourceOf d x with
        | (.ok c, s) => (.ok (out ++ [c]), s)
        | (.error (sub, a), s) => (.error (d, x, sub, a), s)
      | none => (.ok (out ++ [peerSource o.desc s.free]), { s with free := s.free + 2 * o.desc.count })) (.ok [], s)

/-- The code of an element in a source. -/
def Source.code (c : Source) (j : Nat) : Nat := c.2.getD (j - c.1) 0

/-- Every element of a reduction, with the blocks of a deterministic sum. -/
def reduceAll (d : CollDesc) (srcs : List Source) (prev : Nat → Option Int) (free : Nat) : List CollElem × List BlockOut :=
  let codes (j : Nat) : List Nat := srcs.map (fun c => Source.code c j)
  let vals (j : Nat) : List Val := (codes j).map (decodeElem 0 (collFmt d.infmt))
  if d.kind == 2 then
    let sh := d.shard srcs.length
    ((List.range d.count).map (fun j => moveElem d (j / sh) (Source.code (srcs.getD (j / sh) (0, [])) j)), [])
  else if d.kind == 3 then
    -- a root that no participant has gives free values (assumption 91)
    ((List.range d.count).map (fun j => moveElem d d.root (Source.code (srcs.getD d.root (peerSource d free)) j)), [])
  else if d.op != 0 then ((List.range d.count).map (fun j => pickElem d (vals j)), [])
  else if d.infmt == 8 then ((List.range d.count).map (fun j => binElem d ((codes j).map (BitVec.ofNat 64))), [])
  else if d.arrival then
    ((List.range d.count).map (fun j => arrivalElem d (free + 2 * srcs.length * j) (vals j)), [])
  else
    let blocks := (List.range ((d.count + 31) / 32)).map (fun k =>
      blockOut ((List.range (min 32 (d.count - 32 * k))).map (fun i => vals (32 * k + i))) (prev k))
    ((List.range d.count).map (fun j => sumElem d (blocks.getD (j / 32) default).exp (vals j)), blocks)

/-- The status word of a completed reduction (R354). -/
def doneStatus (spec fallback : Bool) (es : List CollElem) (bs : List BlockOut) : Nat :=
  1 + bit01 (es.any (·.nan)) * 2 ^ 8 + bit01 (es.any (·.inf)) * 2 ^ 9 + bit01 (bs.any (·.lost)) * 2 ^ 10 +
    bit01 (spec && !bs.isEmpty && bs.all (·.kept)) * 2 ^ 11 + bit01 (bs.any (fun b => b.tried && !b.kept)) * 2 ^ 12 +
    bit01 (es.any (·.ovf)) * 2 ^ 13 + bit01 (es.any (·.inexact)) * 2 ^ 14 + bit01 fallback * 2 ^ 15

/-- The words that name a vector's lowest NaN (R359). -/
def nanWords (o : CollOp) (es : List CollElem) : Nat × Nat :=
  match es.findIdx? (·.nan) with
  | none => (0xFFFFFFFF, Config.noNanSource.toNat)
  | some j =>
    let i := (es.getD j default).src
    let (pkg, die) := o.members.getD (i / o.c) (0, 0)
    (j, pkg + die * 2 ^ 8 + i % o.c * 2 ^ 11)

/-- The exponents an engine holds for a group (R360). -/
def State.heldExps (s : State) (die ctx g : Nat) : List Int :=
  (((s.die die).coll.exps.find? (fun e => e.1 == (ctx, g))).map (·.2)).getD []

/-- The exponent of a block that every contribution on this package holds alike; whether another package's does is free. -/
def State.sharedExp (s : State) (o : CollOp) (l : List (Nat × CollOp)) (k : Nat) : Option Int :=
  if !o.desc.spec || 4096 ≤ k then none
  else
    let held := l.map (fun x => (s.heldExps x.1 o.ctx o.desc.group)[k]?)
    match held with
    | some p :: rest => if rest.all (· == some p) && (l.length == o.parts || Config.freeBit s.free) then some p else none
    | _ => none

/-- Whether every contribution that this package owes has come, for a stream with all its rows (R363, R369). -/
def State.allIn (s : State) (o : CollOp) : Bool :=
  let l := s.contributions o
  (List.range o.parts).all (fun i =>
    match o.members[i / o.c]? with
    | some (pkg, _) => pkg != s.pkg || l.any (fun x => x.2.index == i)
    | none => true) &&
  (!o.desc.stream || l.all (fun x => x.2.rows.length == o.desc.count / 64))

/-- The bytes of a contribution's output. -/
def outBytes (o : CollOp) (es : List CollElem) : List Byte :=
  let (first, k) := (o.desc.extents o.parts o.index).2
  ((es.drop first).take k).flatMap (fun (e : CollElem) => leBytes (collSize o.desc.outfmt) e.code)

/-- Reduces an operation: each contribution on this package keeps its output, its status and the exponents agreed; and some of its elements
arrive (R369). -/
def State.reduceOp (s : State) (o : CollOp) : Except (Nat × CollOp × Nat × Nat) Unit × State :=
  let l := s.contributions o
  match s.sources o with
  | (.error e, s) => (.error e, s)
  | (.ok srcs, s) =>
    let (es, bs) := reduceAll o.desc srcs (s.sharedExp o l) (s.free + 1)
    let s := { s with free := s.free + 1 + 2 * max 1 srcs.length * o.desc.count }
    let st := doneStatus o.desc.spec (l.any (fun x => x.2.fallback)) es bs
    let (idx, src) := nanWords o es
    (.ok (), l.foldl (fun s (d, x) =>
      let s := s.modOp d x.ctx x.handle (fun y => { y with
        out := some (outBytes y es), nanidx := idx, nansrc := src, rows := [], staged := []
        redone := (bs.filter (fun b => b.tried && !b.kept)).length, result := st })
      let s := s.spill d x (outBytes x es)
      if bs.isEmpty then s
      else s.modColl d (fun c => { c with
        exps := ((o.ctx, o.desc.group), (bs.take 4096).map (·.exp)) :: c.exps.filter (fun e => e.1 != (o.ctx, o.desc.group)) })) s)

/-! ### Acceptance (R366 to R368) -/

/-- Where the destination of a contribution lies: its first byte, and how many. -/
def CollOp.dest (o : CollOp) : Nat × Nat := (o.desc.dst, ((o.desc.extents o.parts o.index).2.2) * collSize o.desc.outfmt)

/-- The lines of a scratchpad destination. -/
def CollOp.lines (o : CollOp) : List Nat := linesOf (jobPlace o.core o.base o.dest.1) o.dest.2

/-- The number by which lines know the contribution that writes them: no copy card has it (R302). -/
def CollOp.owner (o : CollOp) (die : Nat) : Nat := 2 ^ 64 + (die * 64 + o.ctx) * 4096 + o.handle

/-- A contribution clears the lines of its scratchpad destination, and is the latest that writes them (R302, R355). -/
def State.ownLines (s : State) (die : Nat) (o : CollOp) : State :=
  o.lines.foldl (fun s l =>
    (s.setPresent l false).modCore (l / 8192) (fun c => { c with owners := Map.set c.owners l (o.owner die) })) s

/-- The lines of an output that has arrived are present, but for those that a later card writes (R302, R355). -/
def State.setLines (s : State) (die : Nat) (o : CollOp) : State :=
  o.lines.foldl (fun s l =>
    if Map.find (s.core (l / 8192)).owners l == some (o.owner die) then
      (s.setPresent l true).modCore (l / 8192) (fun c => { c with owners := Map.del c.owners l })
    else s) s

/-- The next handle of a context at an engine: one that names no pending operation. -/
def State.nextHandle (s : State) (die ctx : Nat) : Nat :=
  let k := Map.getD (s.die die).coll.next ctx 0
  (((List.range 4096).map (fun i => (k + i) % 4096)).find? (fun h =>
    !(((s.collOp die ctx h).map CollOp.pending).getD false))).getD k

/-- Operations in progress at an engine. -/
def State.collPlaces (s : State) (die : Nat) : Nat := ((s.die die).coll.ops.filter CollOp.pending).length

/-- Accepts a descriptor (R366): its handle. A group that refuses it ends the operation at once. -/
def State.acceptColl (s : State) (die ctx : Nat) (d : CollDesc) (place : Nat) (scratch : Bool) (launch core base : Nat)
    (k : Option Kick) (node : Option Nat) : Nat × State :=
  let h := s.nextHandle die ctx
  let (c, members) := (s.groupRecord ctx d.group).getD (0, [])
  let m := members.findIdx? (fun e => e == (s.pkg, die))
  let o : CollOp := { handle := h, ctx := ctx, desc := d, place := place, scratch := scratch, launch := launch, kick := k
                      node := node, core := core, base := base, members := members, m := m.getD 0, c := c, rows := []
                      staged := [], fallback := false, out := none, status := 0, result := 0, nanidx := 0
                      nansrc := 0, redone := 0 }
  let s := s.modColl die (fun x => { x with
    ops := x.ops.filter (fun y => !(y.ctx == ctx && y.handle == h)) ++ [o], next := Map.set x.next ctx ((h + 1) % 4096) })
  let why := if members.isEmpty || m.isNone then some 3 else if c ≤ d.slot then some 4
    else if 2 ^ 16 < o.parts then some 1 else none
  match why with
  | some r => (h, (s.endEmpty die o (2 + r * 2 ^ 4)).endAll o 2 r)
  | none =>
    let s := if d.dspace then s.ownLines die o else s
    (h, match s.endedFor o with
      | some status => (s.endEmpty die o status).cameLate o
      | none => s)

/-- The aperture ranges of a descriptor are valid for the issuing work-group (R366). -/
def State.collRegions (s : State) (g ctx die : Nat) (d : CollDesc) : Bool :=
  let (c, members) := (s.groupRecord ctx d.group).getD (1, [])
  let p := max 1 (members.length * c)
  let i := ((members.findIdx? (fun e => e == (s.pkg, die))).getD 0) * c + d.slot
  let ((_, a), (_, b)) := d.extents p i
  let ok (space : Bool) (o n : Nat) : Bool := !space || (s.aperture g o (max 1 n)).isSome
  ok d.sspace d.src (a * collSize d.infmt) && ok d.dspace d.dst (b * collSize d.outfmt)

/-- The scope of a collective: at least `.dom`; `.sys` where it touches host memory (R258). -/
def State.collScope (s : State) (core ctx : Nat) (d : CollDesc) : Scope :=
  let r (space : Bool) (a n : Nat) : Scope := if space then .core else s.rangeScope core ctx a n
  scopeMax .dom (scopeMax (r d.sspace d.src (d.count * collSize d.infmt)) (r d.dspace d.dst (d.count * collSize d.outfmt)))

/-- The four starting words (R366). -/
def collWord (h : Hdr) (kind : Nat) (d : BitVec 8) (a : Src) (off : BitVec 32) (s : State) : Host.Outcome State Fault Refusal :=
  onceWord h [(a, 1)] [d.toNat] s fun w s =>
    let g := w.ref.wg
    let core := s.coreOf g
    let die := dieOf core
    let ctx := s.ctxOf g
    let o := s.jobOffset w a off
    match if o % 64 == 0 then s.ownRegion g o 64 else none with
    | none => .bad (w.operand w.low 6)
    | some p => ownRecords w s o 64 1 fun recs s =>
      match readColl (recs.headD []) with
      | none => .bad (w.operand w.low 7)
      | some x =>
        if x.kind != kind || !(s.collRegions g ctx die x) then .bad (w.operand w.low 7)
        else if x.arrival && x.op == 0 && (s.launchOf g).determ then .bad w.nondet
        else if 64 ≤ s.collPlaces die then .hold s w.group (.room 64) false
        else kicked w s (s.collScope core ctx x) fun k s =>
          let (h, s) := s.acceptColl die ctx x p true k.launch core (s.baseOf g) (some k) none
          .done (s.putAll w d.toNat h)

/-- CRED (R366). -/
def execCred (h : Hdr) (d : BitVec 8) (a : Src) (off : BitVec 32) (s : State) : Host.Outcome State Fault Refusal := collWord h 0 d a off s
/-- CRSC (R363, R366). -/
def execCrsc (h : Hdr) (d : BitVec 8) (a : Src) (off : BitVec 32) (s : State) : Host.Outcome State Fault Refusal := collWord h 1 d a off s
/-- CAGT (R366). -/
def execCagt (h : Hdr) (d : BitVec 8) (a : Src) (off : BitVec 32) (s : State) : Host.Outcome State Fault Refusal := collWord h 2 d a off s
/-- CBCT (R366). -/
def execCbct (h : Hdr) (d : BitVec 8) (a : Src) (off : BitVec 32) (s : State) : Host.Outcome State Fault Refusal := collWord h 3 d a off s

/-! ### CWAIT and CSTAT (R367) -/

/-- The operation that a handle value names for a fibre. -/
def State.namedOp (s : State) (r : FibRef) (v : Nat) : Option CollOp :=
  if v < 4096 then s.collOp (dieOf (s.coreOf r.wg)) (s.ctxOf r.wg) v else none

/-- CWAIT (R96, R260, R284, R367). -/
def execCwait (h : Hdr) (d : BitVec 8) (a : Src) (s : State) : Host.Outcome State Fault Refusal :=
  onceWord (atPoint h) [(a, 1)] [d.toNat] s fun w s =>
    let v := s.low32 w a
    match s.namedOp w.ref v with
    | none => .done (s.putAll w d.toNat 4)
    | some o =>
      if o.pending then .hold s w.group (.collective (dieOf (s.coreOf w.ref.wg)) v) true
      else
        let s := if o.status % 16 == 1 then
            (s.joinKick w.ref o.kick).cacheAcquire (s.agent w.ref.wg) ((o.kick.map (fun k => k.scope)).getD .dom)
          else s
        .done (s.putAll w d.toNat o.status)

/-- CSTAT (R367): what the selectors above 0 give for a handle that has expired is free (assumption 91). -/
def execCstat (h : Hdr) (d : BitVec 8) (a : Src) (what : BitVec 2) (s : State) : Host.Outcome State Fault Refusal :=
  onceWord h [(a, 1)] [d.toNat] s fun w s =>
    match s.namedOp w.ref (s.low32 w a) with
    | none =>
      if what == 0 then .done (s.putAll w d.toNat 4)
      else
        let (k, s) := s.draw
        .done (s.putAll w d.toNat (Config.freeWord k).toNat)
    | some o =>
      .done (s.putAll w d.toNat (
        if o.pending then 0
        else if what == 0 then o.status else if what == 1 then o.nanidx else if what == 2 then o.nansrc
        else min o.redone 0xFFFFFFFF))

/-! ### Gradient streams (R186, R363, R364) -/

/-- Rows in staging at an engine. -/
def State.stagedRows (s : State) (die : Nat) : Nat := ((s.die die).coll.ops.map (fun (o : CollOp) => o.staged.length)).sum

/-- What one row of a stream meets: it is sent, it is repeated, it waits for staging, or its bucket faults. -/
inductive RowOut where
  | sent (s : State)
  | again (s : State)
  | full
  | lost (s : State)

/-- Writes a row into a stream's bucket (R364): which of its places it takes is free (assumption 91). -/
def State.bucketRow (s : State) (die : Nat) (o : CollOp) (l : List Word) : Option (Nat × Nat) × State :=
  let (k, s) := s.draw
  s.engineStore die o.ctx o.kick ((o.desc.bucket + 256 * (Config.pick k % (4096 * o.desc.bucketmib))) % 2 ^ 64) (l.flatMap wordBytes)

/-- Sends one row to a stream (R363, R364): a row beyond count is discarded; once an operation has been reduced, every row is one that it
has had. -/
def State.sendRow (s : State) (die : Nat) (o : CollOp) (row : Nat) (l : List Word) : RowOut :=
  if o.desc.count / 64 ≤ row then .sent s
  else if o.out.isSome || o.rows.any (fun e => e.1 == row) then .again s
  else
    let full := 16384 ≤ s.stagedRows die
    if full && o.desc.bucket == 0 then .full
    else if o.fallback || full then
      match s.bucketRow die o l with
      | (some _, s) => .lost s
      | (none, s) => .sent (s.modOp die o.ctx o.handle (fun y => { y with rows := y.rows ++ [(row, l)], fallback := true }))
    else .sent (s.modOp die o.ctx o.handle (fun y => { y with rows := y.rows ++ [(row, l)], staged := y.staged ++ [row] }))

/-- A memory fault of one contribution (R369): it ends there with its record, its context faults, and the others end. -/
def State.collMemFault (s : State) (die : Nat) (o : CollOp) : State :=
  let s := s.endEmpty die o (3 + 1 * 2 ^ 4)
  ((s.hostEvent 0x42 o.ctx die o.handle (3 + 1 * 2 ^ 4)).oweFault o.ctx 0x42).endOthers o [o.index] 3 2

/-- MSEND (R176, R186, R190, R191, R363, R364): every fault is raised here; the rows are sent when the tile is read. -/
def execMsend (h : Hdr) (t : BitVec 4) (x : Src) (rnd : Rnd) (sat : Bool) (fmt : Fmt) (s : State) :
    Host.Outcome State Fault Refusal :=
  matWord h [(x, 1)] [] [] 6 s fun w s =>
    match s.wordFault w [x] (oneLane w.low) [], s.tile w.ref.wg t.toNat with
    | some t, _ => .bad t
    | none, none => .bad (w.operand w.low 5)
    | none, some _ =>
      let v := s.low32 w x
      match (s.collOp (dieOf (s.coreOf w.ref.wg)) (s.ctxOf w.ref.wg) (v % 4096)).filter (fun o =>
          o.pending && o.desc.stream) with
      | none => .bad (w.operand w.low 9)
      | some _ => .done (s.pushOp (mkOp w s (.send v fmt rnd sat 0) t.toNat))

/-! ### Operations of the array on tiles (R148, R176, R182 to R190, R205) -/

/-- The next row of a tile that an `MSEND` sends: what its stream makes of it; a stream that has ended takes none (R186, R363, R364). -/
def State.sendTile (s : State) (op : MatOp) (v : Nat) (fmt : Fmt) (rnd : Rnd) (sat : Bool) (row : Nat) : RowOut :=
  let die := dieOf (s.coreOf op.ref.wg)
  let conv (e : Word) : Word := BitVec.ofNat 32 (widen 0x80 fmt (tileElem fmt rnd sat e).code).code
  match (s.collOp die (s.ctxOf op.ref.wg) (v % 4096)).filter CollOp.pending with
  | none => .sent s
  | some o => s.sendRow die o (v / 4096 + row) (((s.tileRows op.ref.wg op.tile).getD row []).map conv)

/-- Whether a queue of stores has room for one more entry, or holds entries that stay until trap mode ends (R235, R389; assumption 79). -/
def Fibre.storeFree (f : Fibre) : Bool := f.curQueue.length < 16 || (f.curQueue.head?.map (·.frozen)).getD false

/-- Whether an operation can take its next step, where every earlier one on its tile has taken effect (R173, R188, R235, R364). -/
def State.tileGoes (s : State) (core : Nat) (op : MatOp) : Bool :=
  match op.kind with
  | .mldt => op.ready
  | .store _ _ _ _ (x :: _) =>
    let before := ((s.ops core).takeWhile (fun y => y.num != op.num)).filter (fun y => y.ref == op.ref && !y.ready)
    let p := (s.aperture op.ref.wg (x.addr.toNat - Config.aperture) x.bytes.length).getD 0
    ((s.fib op.ref).map Fibre.storeFree).getD true && !(before.any (fun y => y.wants p x.bytes.length))
  | .send v fmt rnd sat row => match s.sendTile op v fmt rnd sat row with
    | .full => false
    | _ => true
  | _ => true

/-- Enters one row of an `MSTT` into its fibre's store queue (R185, R190, R235). -/
def State.enterRow (s : State) (op : MatOp) (w : WordRef) (x : LaneAcc) (l : List Byte) : State :=
  let e : StoreEntry := { word := w, acc := { x with bytes := l }, kind := .plain, release := none, clock := 0, log := none
                          unchecked := false, verified := false, begun := false, reported := false, frozen := false, swap := 0 }
  s.modFib op.ref (fun f => f.setQueue (f.curQueue ++ [e]))

/-- A tile read pays what it owes: a register gets its value in the lanes that still wait for it, of threads that live (R111, R189). -/
def State.payReg (s : State) (op : MatOp) (n : Nat) (v : LaneVec) : State :=
  match s.fib op.ref with
  | none => s
  | some f => s.writeReg op.ref n (f.owedLanes n op.num &&& f.live) v

/-- The effect of a tile read on its registers, its latch and the flags; then it owes nothing. -/
def State.payTo (s : State) (op : MatOp) (regs : List (Nat × LaneVec)) (latch : Option (BitVec 2 × LaneVec)) (fl : BitVec 6) : State :=
  let s := regs.foldl (fun s e => s.payReg op e.1 e.2) s
  s.modFib op.ref (fun f =>
    let f := match latch with
      | some (b, v) => let m := f.owedLanes (256 + b.toNat) op.num &&& f.live; if m == 0 then f else f.capture b m v
      | none => f
    { f.settled op.num with fpf := f.fpf ||| fl })

/-- Values of some lanes as a vector. -/
def vecOf (l : List (Nat × Word)) : LaneVec := lanes (fun i => ((l.find? (fun e => e.1 == i)).map (·.2)).getD 0)

/-- `MRD` takes effect (R183). -/
def State.readTile (s : State) (op : MatOp) (d : Nat) (fmt : Fmt) (rnd : Rnd) (sat : Bool) (places : List (Nat × Nat × Nat)) : State :=
  let rows := s.tileRows op.ref.wg op.tile
  let n := 32 / fmtWidth fmt
  let elem (r c e : Nat) : Res := tileElem fmt rnd sat ((rows.getD r []).getD (c + e) 0)
  let v := places.map (fun (i, r, c) =>
    (i, BitVec.ofNat 32 (((List.range n).map (fun e => (elem r c e).code * 2 ^ (fmtWidth fmt * e))).sum)))
  s.payTo op [(d, vecOf v)] none (places.foldl (fun f (_, r, c) => (List.range n).foldl (fun f e => f ||| (elem r c e).flags) f) 0)

/-- The tile form of `FLREDM` takes effect (R147, R148). -/
def State.extremeTile (s : State) (op : MatOp) (d : Dst) (max : Bool) (places : List (Nat × Nat)) : State :=
  let rows := s.tileRows op.ref.wg op.tile
  let g := places.map (fun (i, r) => (i, extreme max ((rows.getD r []).mapIdx (fun k w => (k, w)))))
  let vals := vecOf (g.map (fun e => (e.1, e.2.2)))
  let index := vecOf (g.map (fun e => (e.1, BitVec.ofNat 32 e.2.1)))
  s.payTo op ((dstNames d 2).zip [vals, index]) (some ((Dst.latch d), vals)) 0

/-- `MMON` takes effect (R205). -/
def State.monitorTile (s : State) (op : MatOp) (d ctr : Nat) (clr : Bool) : State :=
  let v := ((s.tile op.ref.wg op.tile).map (fun x => if ctr == 0 then x.swamp else if ctr == 1 then x.nans else x.ovf)).getD 0
  let s := s.payTo op [(d, splat (BitVec.ofNat 32 v))] none 0
  if clr then s.modTile op.ref.wg op.tile (fun x =>
      { x with swamp := if ctr == 0 then 0 else x.swamp, nans := if ctr == 1 then 0 else x.nans, ovf := if ctr == 2 then 0 else x.ovf })
  else s

/-- The next step of an operation that is no quarter: it takes effect and leaves the array, or it has taken one of its rows. -/
def State.tileEffect (s : State) (core : Nat) (op : MatOp) : State :=
  let g := op.ref.wg
  let after := s.dropOp core op.num
  match op.kind with
  | .quarter => s
  | .zero mon => after.modTile g op.tile (fun x =>
      let x := { x with rows := zeroRows x.rows.length }
      if mon then { x with swamp := 0, nans := 0, ovf := 0 } else x)
  | .write l => after.modTile g op.tile (fun x =>
      { x with rows := l.foldl (fun rows (r, k, v) => rows.modify r (fun l => l.set k v)) x.rows })
  | .mldt => op.rows.foldl (fun s (r, l, _) => s.modTile g op.tile (fun t =>
      { t with rows := t.rows.set r ((List.range 64).map (fun j => BitVec.ofNat 32 (packedElem l 32 j))) })) after
  | .read d fmt rnd sat places => after.readTile op d fmt rnd sat places
  | .extreme d max places => after.extremeTile op d max places
  | .monitor d ctr clr => after.monitorTile op d ctr clr
  | .store w fmt rnd sat l =>
    let rows := s.tileRows g op.tile
    match l with
    | [] => after
    | x :: rest =>
      let (out, fl) := packTile fmt rnd sat [rows.getD (rows.length - l.length) []]
      let s := (s.enterRow op w x (out.headD [])).raise op.ref fl
      if rest.isEmpty then s.dropOp core op.num else s.modOpAt core op.num (fun y => { y with kind := .store w fmt rnd sat rest })
  | .send v fmt rnd sat row =>
    match s.sendTile op v fmt rnd sat row with
    | .full => s
    | .again s => match s.collOp (dieOf core) (s.ctxOf g) (v % 4096) with
      | some o => (s.endAll o 3 4).dropOp core op.num
      | none => s.dropOp core op.num
    | .lost s => match s.collOp (dieOf core) (s.ctxOf g) (v % 4096) with
      | some o => (s.collMemFault (dieOf core) o).dropOp core op.num
      | none => s.dropOp core op.num
    | .sent s =>
      let s := s.raise op.ref (packTile fmt rnd sat [(s.tileRows g op.tile).getD row []]).2
      if (s.tileRows g op.tile).length ≤ row + 1 then s.dropOp core op.num
      else s.modOpAt core op.num (fun y => { y with kind := .send v fmt rnd sat (row + 1) })

/-- The next step of a core's operations on tiles: of those that are no quarter, the first that can take one (R176). -/
def State.tileStep (s : State) (core : Nat) : Option State :=
  (firstFree (s.tileGoes core) [] (s.ops core)).map (s.tileEffect core)

/-- The first row in staging of an operation that every contribution of this package has sent (R364). -/
def State.readyRow (s : State) (o : CollOp) : Option Nat :=
  let l := s.contributions o
  o.staged.find? (fun r => (List.range o.parts).all (fun i =>
    match o.members[i / o.c]? with
    | some (pkg, _) => pkg != s.pkg || l.any (fun x => x.2.index == i && x.2.rows.any (fun e => e.1 == r))
    | none => true))

/-- The operations of an engine. -/
def State.opAt (s : State) (die i : Nat) : Option CollOp := (s.die die).coll.ops[i]?

/-- STREAM_ROW (R364): a row that every contribution has sent leaves staging. -/
def execStreamRow (die op : Nat) (s : State) : Host.Outcome State Fault Refusal :=
  .next (match s.opAt die op with
    | some o => match s.readyRow o with
      | some r => s.modOp die o.ctx o.handle (fun y => { y with staged := y.staged.filter (· != r) })
      | none => s
    | none => s)

/-! ### Steps of the engine (R356 to R369) -/

/-- Writes a contribution's output, and ends it. -/
def State.deliverOp (s : State) (die : Nat) (o : CollOp) (l : List Byte) : State :=
  let s := if l.isEmpty then s
    else if o.desc.dspace then
      (s.scratchDeliver o.kick (jobPlace o.core o.base o.desc.dst) l false).setLines die o
    else s.engineWrite die o.ctx o.kick o.desc.dst l
  s.endOp die o o.result o.nanidx o.nansrc

/-- Whether a contribution's destination translates: the subcode and address that fail. -/
def State.destFault (s : State) (die : Nat) (o : CollOp) : Option (Nat × Nat) :=
  let (a, n) := o.dest
  if o.desc.dspace || n == 0 then none else (s.engineProbe die o.ctx .write a n).1

/-- The contribution of an operation that a memory fault stops, if there is one. -/
def State.opFault (s : State) (die : Nat) (o : CollOp) : Option (Nat × CollOp) :=
  if o.out.isSome then (s.destFault die o).map (fun _ => (die, o))
  else match (s.contributions o).find? (fun x => (s.destFault x.1 x.2).isSome) with
    | some x => some x
    | none => match (s.sources o).1 with
      | .error (d, x, _, _) => some (d, x)
      | .ok _ => none

/-- Whether a port of the package, by die times 4 plus port, is on the routes: its link is up, and some of its four lanes are in service
(R351, R434). -/
def State.portUp (s : State) (k : Nat) : Bool := !(s.linksDown.contains k) && (List.range 4).any (fun i => !(s.out (.uaLane (4 * k + i))))

/-- Whether a member die can be reached (R351): a die in service of this package, or one of a package of the domain over some port. -/
def State.reaches (s : State) (e : Nat × Nat) : Bool :=
  if e.1 == s.pkg then s.dieUp e.2 else s.peers.contains e.1 && (List.range 32).any s.portUp

/-- Whether an operation has a member that cannot be reached (R369). -/
def State.cutOff (s : State) (o : CollOp) : Bool := o.members.any (fun e => !(s.reaches e))

/-- COLLECTIVE_COMPLETE (R353 to R362, R368, R369): an operation with a member that cannot be reached ends
as faulted; nothing while a contribution is missing; whether those of other packages have come is free. The operation is reduced in one
step, and each contribution's output arrives in a later one. -/
def execCollectiveComplete (die op : Nat) (s : State) : Host.Outcome State Fault Refusal :=
  .next (match s.opAt die op with
    | none => s
    | some o =>
      if !o.pending || (s.opFault die o).isSome then s
      else match o.out with
        | some l => s.deliverOp die o l
        | none =>
          if s.cutOff o then s.endAll o 3 2
          else if o.members.isEmpty || !(s.allIn o) || (s.conflict o).isSome then s
          else
            let (n, s) := s.draw
            if o.members.any (fun e => e.1 != s.pkg) && !(Config.freeBit n) then s
            else (s.reduceOp o).2)

/-- COLLECTIVE_FAULT (R369): a memory fault of a contribution, or a member that is lost. -/
def execCollectiveFault (die op reason : Nat) (s : State) : Host.Outcome State Fault Refusal :=
  .next (match s.opAt die op with
    | none => s
    | some o =>
      if !o.pending then s
      else if reason == 1 then
        match s.opFault die o with
        | some (d, x) => s.collMemFault d x
        | none => s
      else if reason == 2 then (if o.out.isSome then s else s.endAll o 3 2)
      else s)

/-- COLLECTIVE_REFUSED (R366): every contribution ends refused; the reason that this package's contributions give comes
before one that is reported from outside. -/
def execCollectiveRefused (die op reason : Nat) (s : State) : Host.Outcome State Fault Refusal :=
  .next (match s.opAt die op with
    | some o =>
      if !o.pending || o.out.isSome then s
      else s.endAll o 2 ((s.conflict o).getD (if reason == 4 then 4 else 2))
    | none => s)

/-- COLLECTIVE_NODE_DISPATCH (R327, R368): a node whose descriptor is not one completes with nothing done (assumption 17). -/
def execCollectiveNodeDispatch (die node : Nat) (s : State) : Host.Outcome State Fault Refusal :=
  .next (if s.readyNode die node 3 && s.collPlaces die < 64 then
      let x := s.node die node
      let s := s.startNode die node
      match if x.payload % 64 == 0 then s.engineRead die x.ctx x.payload 64 else (.ok [], s) with
      | (.error _, s) => ((s.hostEvent 0x42 x.ctx die 0 (3 + 1 * 2 ^ 4)).oweFault x.ctx 0x42).unitDone die node
      | (.ok l, s) =>
        match (readColl l).filter (fun d => !d.sspace && !d.dspace) with
        | none => s.unitDone die node
        | some d => (s.acceptColl die x.ctx d x.payload false 0 (die * Config.coresPerDie) 0 none (some node)).2
    else s)

/-! ### Links and members (R351, R364, R369) -/

/-- Ends every operation of a test at every contribution, a member being lost. -/
def State.loseMembers (s : State) (p : Nat → CollOp → Bool) : State :=
  s.dies.foldl (fun s (d, x) => x.coll.ops.foldl (fun s o =>
    if o.pending && o.out.isNone && p d o then s.endAll o 3 2 else s) s) s

/-- LINK_DOWN (R351, R369): a port leaves the routes; with none of the package's 32 ports left, other packages cannot be
reached. -/
def execLinkDown (die port : Nat) (s : State) : Host.Outcome State Fault Refusal :=
  let k := 4 * die + port
  let s := if s.linksDown.contains k then s else { s with linksDown := k :: s.linksDown }
  .next (s.loseMembers (fun _ o => s.cutOff o))

/-- UALINK_DOMAIN_JOIN_OR_LEAVE (R364, R369). -/
def execUalinkDomainJoinOrLeave (die pkg : Nat) (joins : Bool) (s : State) : Host.Outcome State Fault Refusal :=
  let s := { s with peers := if joins then (if s.peers.contains pkg || pkg == s.pkg then s.peers else s.peers ++ [pkg])
    else s.peers.filter (· != pkg) }
  let s := { s with dies := s.dies.map (fun (d, x) => (d, { x with coll := { x.coll with
    ops := x.coll.ops.map (fun (o : CollOp) =>
      if o.pending && o.desc.stream && o.desc.bucket != 0 then { o with fallback := true } else o) } })) }
  .next (if joins then s else s.loseMembers (fun _ o => o.members.contains (pkg, die)))

/-- Abandons every operation of a context (R369). -/
def State.dropColls (s : State) (ctx : Nat) : State :=
  let mine := s.dies.flatMap (fun (d, x) => (x.coll.ops.filter (fun (o : CollOp) => o.ctx == ctx && o.pending)).map (fun o => (d, o)))
  mine.foldl (fun s (d, o) => s.modOp d ctx o.handle (fun y => { y with
    status := 3 + 3 * 2 ^ 4, out := none, rows := [], staged := [] }))
    { s with collEnds := s.collEnds.filter (fun e => e.ctx != ctx) }

end Sys2Proof.Machine
end

