-- ==== Sys2Proof/Machine/Placing.lean ====
section
/-! DEFINITION. What a launch asks for and where it goes: kernel descriptors, launch parameter blocks, the curve, room on a core, and
placement (R55 to R57, R86 to R88, R209, R210, R334, R337 to R340). -/

namespace Sys2Proof.Machine

/-! ### The kernel descriptor (R55, R56) -/

/-- A kernel descriptor that passes R56. -/
structure Kernel where
  idempotent : Bool
  retry : Nat
  coresident : Bool
  determ : Bool
  checked : Bool
  reserve : Bool
  entry : Nat
  trapVec : Nat
  fibres : Nat
  cluster : Nat
  regs : Nat
  plan : List Nat
  scratch : Nat
  params : Nat
  windows : List WinDesc
deriving DecidableEq, Repr

/-- A window of a kernel descriptor. -/
def readWindow (v : Nat) : WinDesc where
  first := bits v 0 8
  count := bits v 8 8
  fibs := BitVec.ofNat 4 (bits v 16 4)
  double := bit v 20
  owner := bits v 21 2
  valid := bit v 23

/-- Positions of a mask. -/
def positions (m : BitVec 4) : List Nat := (List.range 4).filter (fun p => m.getLsbD p)

/-- Whether a logical slot with `n` fibres holds a fibre at every position of a mask. -/
def slotHolds (n : Nat) (m : BitVec 4) : Bool := (positions m).all (fun p => p < n)

/-- Whether a valid window keeps R56. -/
def windowOk (plan : List Nat) (all : List WinDesc) (i : Nat) : Bool :=
  match all[i]? with
  | none => true
  | some w =>
    !w.valid ||
      (w.count != 0 && 2 ≤ (positions w.fibs).length && w.first + w.count ≤ 256 && w.fibs.getLsbD w.owner &&
        !(w.double && w.count % 2 == 1) && plan.any (fun n => slotHolds n w.fibs) &&
        (List.range all.length).all (fun j =>
          match all[j]? with
          | some x => j == i || !x.valid || w.first + w.count ≤ x.first || x.first + x.count ≤ w.first
          | none => true))

/-- Reads a kernel descriptor at an address, and checks it (R56). `checked` says whether the launch is checked by its LPB. The spec does
not say what follows where the address of a KD is not a multiple of 256 (R55); the model refuses it as a bad descriptor
(assumption 88). -/
def readKernel (kd : Nat) (checked : Bool) (l : List Byte) : Option Kernel :=
  let n (o k : Nat) : Nat := leNat ((l.drop o).take k)
  let fl := n 4 4
  let dims := n 0x14 4
  let plan := (List.range 8).map (fun i => bits (n 0x18 4) (4 * i) 4)
  let wins := (List.range 4).map (fun i => n (0x30 + 4 * i) 4)
  let ws := wins.map readWindow
  let chk := bit fl 6 || checked
  let trap := n 0x28 8
  let k : Kernel :=
    { idempotent := bit fl 0, retry := bits fl 1 3, coresident := bit fl 4, determ := bit fl 5, checked := bit fl 6
      reserve := bit fl 7, entry := (kd + n 8 8) % 2 ^ 64
      trapVec := if trap == 0 then 0 else (kd + trap) % 2 ^ 64
      fibres := bits dims 0 8, cluster := bits dims 8 4, regs := bits dims 16 9, plan := plan, scratch := n 0x1C 4
      params := n 0x20 4, windows := ws }
  let ok := n 0 2 == 0x4B44 && n 2 2 == 1 && bits fl 8 24 == 0 && bits dims 12 4 == 0 && bits dims 25 7 == 0 && n 0x24 4 == 0 &&
    wins.all (fun v => bits v 24 8 == 0) && ((l.drop 0x42).take 0x3E).all (· == 0) && n 0x40 2 ≤ 1 &&
    n 8 8 % 64 == 0 && trap % 64 == 0 && 1 ≤ k.fibres && k.fibres ≤ 32 && 1 ≤ k.cluster && k.cluster ≤ 8 &&
    1 ≤ k.regs && k.regs ≤ 256 && plan.all (· ≤ 4) && plan.sum == k.fibres &&
    k.scratch ≤ (if chk then 1048576 - 73728 else 1048576) && k.params ≤ 4096 &&
    (List.range 4).all (windowOk plan ws)
  if ok && kd % 256 == 0 then some k else none

/-! ### The launch parameter block (R337, R338) -/

/-- A launch parameter block whose own fields are well formed. -/
structure Lpb where
  kd : Nat
  grid : Nat × Nat × Nat
  shape : Nat × Nat × Nat
  params : Nat
  flags : Nat
  dies : Nat
  recaddr : Nat
  tag : Nat
  succs : List Nat
deriving DecidableEq, Repr

/-- Reads an LPB, and checks its zero fields and its grid. -/
def readLpb (l : List Byte) : Option Lpb :=
  let n (o k : Nat) : Nat := leNat ((l.drop o).take k)
  let b : Lpb := { kd := n 0 8, grid := (n 8 2, n 10 2, n 12 2)
                   shape := (bits (n 14 2) 0 4, bits (n 14 2) 4 4, bits (n 14 2) 8 4), params := n 0x10 8
                   flags := n 0x18 2, dies := n 0x1A 1, recaddr := n 0x20 8, tag := n 0x28 8
                   succs := (List.range 8).map (fun i => n (0x30 + 4 * i) 4) }
  let (gx, gy, gz) := b.grid
  let (cx, cy, cz) := b.shape
  if bits (n 14 2) 12 4 == 0 && bits b.flags 12 4 == 0 && n 0x1B 1 == 0 && n 0x1C 4 == 0 && (l.drop 0x50).all (· == 0) &&
      gx != 0 && gy != 0 && gz != 0 && cx != 0 && cy != 0 && cz != 0 && gx % cx == 0 && gy % cy == 0 && gz % cz == 0
  then some b else none

/-! ### Clusters and the curve (R339, R340) -/

/-- The distance of a cell along the curve (R340): `k` steps are left, the next of size 2^(k - 1). -/
def curve (n : Nat) : Nat → Nat → Nat → Nat
  | 0, _, _ => 0
  | k + 1, x, y =>
    let s := 2 ^ k
    let rx := bit01 (x &&& s != 0)
    let ry := bit01 (y &&& s != 0)
    let d := s * s * ((3 * rx) ^^^ ry)
    let (x, y) := if ry == 0 then (if rx == 1 then (n - 1 - y, n - 1 - x) else (y, x)) else (x, y)
    d + curve n k x y

/-- The least k with 2^k at or above a number. -/
def ceilLog (m : Nat) : Nat := if m ≤ 1 then 0 else (m - 1).log2 + 1

/-- The position of a cell of the cluster grid on the curve (R340). -/
def curveKey (ncx ncy : Nat) (x y z : Nat) : Nat :=
  let k := ceilLog (max ncx ncy)
  z * (2 ^ k * 2 ^ k) + curve (2 ^ k) k x y

/-- Inserts by key. -/
def insertKey {α : Type} (e : Nat × α) : List (Nat × α) → List (Nat × α)
  | [] => [e]
  | x :: r => if e.1 < x.1 then e :: x :: r else x :: insertKey e r

/-- The cells of the cluster grid. -/
def Launch.cells (l : Launch) : Nat × Nat × Nat :=
  (l.grid.1 / l.shape.1, l.grid.2.1 / l.shape.2.1, l.grid.2.2 / l.shape.2.2)

/-- Clusters in the order they retire, each with its die (R339 to R341), for the dies of a mask. -/
def Launch.clusterOrder (l : Launch) (dies : List Nat) : List (Nat × Nat) :=
  let (nx, ny, nz) := l.cells
  let N := nx * ny * nz
  let k := dies.length
  if l.determ then
    let keyed := (List.range N).foldl (fun acc q =>
      insertKey (curveKey nx ny (q % nx) (q / nx % ny) (q / (nx * ny)), q) acc) []
    keyed.mapIdx (fun i e =>
      let big := N % k
      let hi := N / k + 1
      let j := if i < big * hi then i / hi else big + (i - big * hi) / (N / k)
      (e.2, dies.getD j 0))
  else (List.range N).map (fun q => (q, dies.getD (q % k) 0))

/-- The number of the work-group at a position of a cluster (R339). -/
def Launch.wgNum (l : Launch) (q i : Nat) : Nat :=
  let (nx, ny, _) := l.cells
  let (cx, cy, cz) := l.shape
  let x := q % nx * cx + i % cx
  let y := q / nx % ny * cy + i / cx % cy
  let z := q / (nx * ny) * cz + i / (cx * cy) % cz
  x + l.grid.1 * (y + l.grid.2.1 * z)

/-! ### Room on a core (R86, R87, R209, R210, R304) -/

/-- What is taken of a core: registers, fibre places of each physical slot, scratchpad ranges, and whether each belongs to
a checked launch. -/
structure CoreUse where
  regs : Nat := 0
  slots : List Nat := List.replicate 8 0
  regions : List (Nat × Nat) := []
deriving DecidableEq, Repr

/-- The part of a core's scratchpad that holds race metadata where a checked launch runs (R210). -/
def metaRegion : Nat × Nat := (0xEE000, 0x12000)

/-- Adds a work-group to what is taken of a core. -/
def CoreUse.add (u : CoreUse) (l : Launch) (slots : List (Option Nat)) (base : Nat) : CoreUse where
  regs := u.regs + l.regs * l.fibres
  slots := u.slots.mapIdx (fun i n => n + ((l.plan.zip slots).map (fun e => if e.2 == some i then e.1 else 0)).sum)
  regions := (base, l.scratch) :: (if l.checked then [metaRegion] else []) ++ u.regions

/-- Scratchpad ranges of a core that unfinished cards still use (R304): the bytes that each of their rows reads and writes there. -/
def State.cardRegions (s : State) (core : Nat) : List (Nat × Nat) :=
  s.cores.flatMap (fun (_, c) => c.cards.flatMap (fun x => (x.reads ++ x.writes).filterMap (fun (sp, a, n) =>
    if sp == 2 * core then some (a, n) else none)))

/-- What is taken of a core now. -/
def State.useOf (s : State) (core : Nat) : CoreUse :=
  let u := s.wgs.foldl (fun (u : CoreUse) (_, w) =>
    if w.core == core && w.killed.isNone then u.add (s.launch w.launch) w.slots w.base else u) {}
  { u with regions := s.cardRegions core ++ u.regions }

/-- Maps logical slots to distinct physical slots with room, the fullest first (R86). -/
def assignSlots (plan used : List Nat) : Option (List (Option Nat)) :=
  let order := ((List.range plan.length).foldl (fun acc i => insertKey (4 - plan.getD i 0, i) acc) []).map (·.2)
  let start : Option (List (Option Nat)) := some (List.replicate plan.length none)
  order.foldl (fun acc i =>
    match acc with
    | none => none
    | some out =>
      let n := plan.getD i 0
      if n == 0 then some out
      else
        let free := (List.range 8).filter (fun k => used.getD k 0 + n ≤ 4 && !(out.contains (some k)))
        let best := free.foldl (fun (b : Option Nat) k =>
          match b with
          | none => some k
          | some j => if used.getD k 0 < used.getD j 0 then some k else b) none
        best.map (fun k => out.set i (some k))) start

/-- Whether a range is free among others. -/
def rangeFree (l : List (Nat × Nat)) (base n : Nat) : Bool := l.all (fun (a, k) => n == 0 || k == 0 || base + n ≤ a || a + k ≤ base)

/-- Whether a core of a capacity admits a work-group of a launch at a base: its slots (R87). -/
def CoreUse.admits (u : CoreUse) (l : Launch) (cap base : Nat) : Option (List (Option Nat)) :=
  let room := u.regs + l.regs * l.fibres ≤ cap && rangeFree u.regions base l.scratch &&
    base + l.scratch ≤ (if l.checked then 0xEE000 else Config.scratchBytes) &&
    (!l.checked || u.regions.all (fun r => r == metaRegion || rangeFree [metaRegion] r.1 r.2))
  if room then assignSlots l.plan u.slots else none

/-- Bases a region may take: the lowest byte, and the end of each range in use, on multiples of 128. -/
def bases (us : List CoreUse) : List Nat :=
  ((us.flatMap (fun u => u.regions.map (fun (a, n) => (a + n + 127) / 128 * 128))).foldl (fun acc a => insertKey (a, a) acc) [(0, 0)]).map
    (·.1)

/-- Where the work-groups of a cluster go: for each, its core and slots, with the base they share. -/
abbrev Placement := List (Nat × List (Option Nat)) × Nat

/-- Places some work-groups of a launch on cores of one physical cluster, at the lowest base that serves them all, in core order; where a
core is named, it is one of them. -/
def placeOn (l : Launch) (cap : Nat → Nat) (use : Nat → CoreUse) (cores : List Nat) (k : Nat) (must : Option Nat) : Option Placement :=
  (bases (cores.map use)).findSome? (fun b =>
    let fits := cores.filterMap (fun c => ((use c).admits l (cap c) b).map (fun x => (c, x)))
    let first := fits.filter (fun e => some e.1 == must)
    let others := (fits.filter (fun e => some e.1 != must)).take (k - first.length)
    if (must.isSome && first.isEmpty) || fits.length < k then none
    else some (fits.filter (fun e => some e.1 == must || others.any (·.1 == e.1)), b))

/-- The context a core is reserved for (R334; assumption 12). -/
def State.reservedFor (s : State) (core : Nat) : Option Nat :=
  let v := s.dieReg (dieOf core) (0x1000 + coreInDie core) 1
  if bit v 7 then some (v % 64) else none

/-- Whether a core may run work of a launch: in service, and reserved for its context exactly where the work is of the
reserved class (R334, R434). -/
def State.coreAllows (s : State) (l : Launch) (core : Nat) : Bool :=
  s.coreUp core && (if l.reserve then s.reservedFor core == some l.ctx else (s.reservedFor core).isNone)

/-- The cores of a physical cluster that a launch may use. -/
def State.clusterCores (s : State) (l : Launch) (pc : Nat) : List Nat :=
  ((List.range 8).map (fun c => pc * 8 + c)).filter (s.coreAllows l)

/-- s.rfcap of a core. -/
def State.rfcapOf (s : State) (core : Nat) : Nat := (s.core core).rfcap

/-- The dies of a mask. -/
def maskDies (m : Nat) : List Nat := (List.range 8).filter (fun d => bit m d)

/-- Dies a cluster of a launch may be placed on: its own; for a co-resident launch that is not deterministic, any of the
mask (R88, R339). -/
def Launch.diesOf (l : Launch) (own : Nat) : List Nat := if l.coresident && !l.determ then maskDies l.mask else [own]

/-! ### Placing all of a co-resident launch (R88) -/

/-- The first of some elements for each value of a key. -/
def oneOfEach {α β : Type} [BEq β] (key : α → β) (l : List α) : List α :=
  l.foldl (fun acc x => if acc.any (fun y => key y == key x) then acc else acc ++ [x]) []

/-- A way to give some work-groups their slots on a core: the places then taken of each physical slot, and each one's slots. -/
abbrev SlotTry := List Nat × List (List (Option Nat))

/-- The maps of logical slots to distinct physical slots with room; of physical slots equally full, one (R86). -/
def slotMaps (used : List Nat) : List (Nat × Nat) → List (Option Nat) → List (List (Option Nat))
  | [], out => [out]
  | (i, n) :: rest, out =>
    let free := (List.range 8).filter (fun k => used.getD k 0 + n ≤ 4 && !(out.contains (some k)))
    (oneOfEach (fun k => used.getD k 0) free).flatMap (fun k => slotMaps used rest (out.set i (some k)))

/-- The places taken after one more work-group has its slots. -/
def addSlots (plan used : List Nat) (x : List (Option Nat)) : List Nat :=
  used.mapIdx (fun i n => n + ((plan.zip x).map (fun e => if e.2 == some i then e.1 else 0)).sum)

/-- A count of the slots by how full they are. -/
def fullness (used : List Nat) : List Nat := (List.range 5).map (fun v => used.count v)

/-- Gives work-groups their slots one after another, as long as it can, at most `n` of them: all ways side by side, of those alike one. -/
def slotRounds (plan : List Nat) (order : List (Nat × Nat)) : Nat → List SlotTry → SlotTry
  | 0, l => l.headD ([], [])
  | n + 1, l =>
    let next := oneOfEach (fun x => fullness x.1) (l.flatMap (fun (u, p) =>
      (slotMaps u order (List.replicate plan.length none)).map (fun x => (addSlots plan u x, p ++ [x]))))
    if next.isEmpty then l.headD ([], []) else slotRounds plan order n next

/-- The slots of as many work-groups as a core takes, at most `n`. -/
def slotPath (plan used : List Nat) (n : Nat) : List (List (Option Nat)) :=
  let order := (((plan.mapIdx (fun i k => (i, k))).filter (fun e => e.2 != 0)).foldl (fun acc e => insertKey (4 - e.2, e) acc) []).map (·.2)
  (slotRounds plan order n [(used, [])]).2

/-- A core as a co-resident launch finds it: the slots of the work-groups it can still take, and its ranges in use. -/
structure PackCore where
  core : Nat
  slots : List (List (Option Nat))
  regions : List (Nat × Nat)
deriving Inhabited, DecidableEq, Repr

/-- The bytes from one region of a launch to the next, and the end of what its regions may use (R209, R210). -/
def Launch.step (l : Launch) : Nat := (l.scratch + 127) / 128 * 128
def Launch.limit (l : Launch) : Nat := if l.checked then 0xEE000 else Config.scratchBytes

/-- A core's room for at most `n` work-groups. -/
def CoreUse.pack (u : CoreUse) (l : Launch) (cap core n : Nat) : PackCore :=
  let places := (32 - u.slots.sum) / max 1 l.fibres
  let most := min n (min places ((cap - u.regs) / max 1 (l.regs * l.fibres)))
  let blocked := l.checked && !(u.regions.all (fun r => r == metaRegion || rangeFree [metaRegion] r.1 r.2))
  { core := core, slots := if blocked then [] else slotPath l.plan u.slots most, regions := u.regions }

/-- The ways to choose some cores; of cores alike, the first ones. `last` is the core passed by last. -/
def chooseCores : List PackCore → Option PackCore → Nat → List (List PackCore)
  | _, _, 0 => [[]]
  | [], _, _ + 1 => []
  | c :: rest, last, k + 1 =>
    let like := (last.map (fun x => x.slots.length == c.slots.length && x.regions == c.regions)).getD false
    (if like then [] else (chooseCores rest none k).map (c :: ·)) ++ chooseCores rest (some c) (k + 1)

/-- Whether `n` clusters might go on some cores, at bases from one up: by the work-groups that the cores take, and by the regions that
fit above one another. -/
def packMay (l : Launch) (cs : List PackCore) (low n : Nat) : Bool :=
  let able := (cs.filter (fun c => !c.slots.isEmpty)).length
  let high := if l.limit < low + l.scratch then 0 else if l.scratch == 0 then n else (l.limit - l.scratch - low) / l.step + 1
  l.cluster * n ≤ (cs.map (fun c => min c.slots.length (min n high))).sum && n ≤ able / max 1 l.cluster * high

/-- Places `n` clusters on the cores of one physical cluster, where they can all go: each with its cores and slots and its base. Bases do
not fall from one to the next, and each is the first byte or follows a range in use, since every region can be moved down so far. -/
def packs (l : Launch) : Nat → Nat → List PackCore → Option (List Placement)
  | 0, _, _ => some []
  | n + 1, low, cs =>
    if !(packMay l cs low (n + 1)) then none
    else ((bases (cs.map (fun c => { regions := c.regions }))).filter (fun b => low ≤ b && b + l.scratch ≤ l.limit)).findSome? (fun b =>
      let fits := cs.filter (fun c => !c.slots.isEmpty && rangeFree c.regions b l.scratch)
      let ranked := (fits.foldl (fun acc c => insertKey (32 - c.slots.length, c) acc) []).map (·.2)
      (chooseCores ranked none l.cluster).findSome? (fun (pick : List PackCore) =>
        let mine (c : PackCore) : Bool := pick.any (fun x => x.core == c.core)
        let next := cs.map (fun (c : PackCore) => if mine c then { c with slots := c.slots.drop 1, regions := (b, l.scratch) :: c.regions } else c)
        (packs l n b next).map (fun r => ((cs.filter mine).map (fun c => (c.core, c.slots.headD [])), b) :: r)))

/-- Places as many clusters as the cores of a physical cluster take, at most `n`. -/
def packMost (l : Launch) (cs : List PackCore) : Nat → List Placement
  | 0 => []
  | n + 1 =>
    match packs l (n + 1) 0 cs with
    | some r => r
    | none => packMost l cs n

/-- Gives as many of some clusters as it can a place on each of some physical clusters in turn: those placed, and those left. -/
def State.packOn (s : State) (l : Launch) (useOf : Nat → CoreUse) (pcs : List Nat) (qs : List Nat) : List (Nat × Placement) × List Nat :=
  pcs.foldl (fun (out, qs) pc =>
    let n := min qs.length 256
    if n == 0 then (out, qs)
    else
      let ps := packMost l ((s.clusterCores l pc).map (fun c => (useOf c).pack l (s.rfcapOf c) c n)) n
      (out ++ qs.zip ps, qs.drop ps.length)) ([], qs)

/-- The physical clusters of some dies. -/
def clustersOn (dies : List Nat) : List Nat := dies.flatMap (fun d => (List.range 20).map (fun c => d * 20 + c))

/-- Places some clusters of a launch at once, from a given use of the cores (R88): the work-groups of a deterministic launch stay on the
dies of their segments, and those of another co-resident launch go anywhere on the dies of its mask (R339, R340). -/
def State.placeSome (s : State) (l : Launch) (useOf : Nat → CoreUse) (qs : List (Nat × Nat)) : Option (List (Nat × Placement)) :=
  let go (dies : List Nat) (l' : List (Nat × Nat)) : Option (List (Nat × Placement)) :=
    match s.packOn l useOf (clustersOn dies) (l'.map (·.1)) with
    | (out, []) => some out
    | _ => none
  if l.determ || !l.coresident then
    ((qs.map (·.2)).eraseDups).foldl (fun acc d => acc.bind (fun out => (go [d] (qs.filter (·.2 == d))).map (out ++ ·))) (some [])
  else go (maskDies l.mask) qs

/-- The same for every cluster. -/
def State.placeAll (s : State) (l : Launch) (useOf : Nat → CoreUse) : Option (List (Nat × Placement)) := s.placeSome l useOf l.order

/-- Whether a launch could be admitted at all on empty cores (R87, R88, R338). The spec refuses a launch that is not co-resident where
the registers of a work-group exceed those of every core; the model refuses it as well where a launch cluster fits no physical cluster
that it may use, since it could never be admitted (assumption 88). -/
def State.couldFit (s : State) (l : Launch) : Bool :=
  if l.coresident then (s.placeAll l (fun _ => {})).isSome
  else (clustersOn (maskDies l.mask)).any (fun c => (placeOn l s.rfcapOf (fun _ => {}) (s.clusterCores l c) l.cluster none).isSome)

end Sys2Proof.Machine
end

