-- ==== Sys2Proof/Machine/Launch.lean ====
section
/-! DEFINITION. Launches: records, admission of work-groups, starts, ends and relaunches (R87 to R89, R99, R100, R210, R231, R274, R275,
R331, R337 to R344, R387). -/

namespace Sys2Proof.Machine

/-! ### Records (R343, R344) -/

/-- A launch or completion record (R343). -/
def Launch.record (l : Launch) (kind tick : Nat) (stamp : List Byte) : List Byte :=
  leBytes 4 (kind + (if kind == 2 then l.status else 0) * 2 ^ 8 + l.ctx * 2 ^ 16) ++ leBytes 4 l.seq ++ leBytes 8 tick ++ stamp ++
    leBytes 4 (if kind == 2 then l.wgsDone else 0) ++ leBytes 4 (min l.relaunches 0xFFFF + min l.spwgs 0xFFFF * 2 ^ 16) ++
    leBytes 8 l.tag ++ leBytes 4 l.node ++ leBytes 4 (l.mask + bit01 l.determ * 2 ^ 8) ++ leBytes 8 0

/-- Writes a launch or completion record: to recaddr, or to the completion ring (R343). -/
def State.putRecord (s : State) (l : Launch) (kind : Nat) : State :=
  let rcd := l.record kind s.tick s.ptpStamp
  if l.recaddr == 0 then s.ringAppend l.ctx 2 rcd
  else match s.engineStore l.die l.ctx none ((l.recaddr + (if kind == 2 then 64 else 0)) % 2 ^ 64) rcd with
    | (some (sub, _), s) => (s.hostEvent 0x52 l.ctx l.die l.recaddr (kind + sub * 2 ^ 8)).oweFault l.ctx 0x52
    | (none, s) => s

/-- Union of the s.spmask of a work-group's fibres (R344). -/
def WorkGroup.exitMask (w : WorkGroup) : Mask := w.fibres.foldl (fun m e => m ||| e.2.spmask) 0

/-- The exit record of a work-group (R344). -/
def State.exitRecord (s : State) (w : WorkGroup) : List Byte :=
  s.exitBytes (w.killed.getD 0) w.num w.exitMask w.core (s.launch w.launch).seq w.attempt w.stalls.toList

/-! ### Admission (R87, R89, R99, R100, R210, R275) -/

/-- A fibre at its start. -/
def newFibre (num pos lslot entry : Nat) (live : Mask) (cgen ggen tick : Nat) : Fibre where
  num := num
  pos := pos
  lslot := lslot
  place := 0
  st := .ready tick
  live := live
  pcs := Vector.replicate 32 entry
  ages := Vector.replicate 32 0
  gov := Vector.replicate 32 ⟨0, 0, 0⟩
  preds := Vector.replicate 7 0
  regs := []
  released := []
  undefRead := false
  latches := Vector.replicate 4 (splat 0, 0)
  fpf := 0
  fp4x := 0x80
  spmask := 0
  delayUntil := 0
  waits := []
  passed := []
  loads := []
  awaits := []
  log := []
  queue := []
  trapQueue := []
  issued := 0
  stalled := 0
  trap := none
  redo := none
  sought := []
  halves := Vector.replicate 4 0
  clock := 1
  saturated := false
  suspended := false
  vec := []
  cgen := cgen
  ggen := ggen
  task := []

/-- The fibres of a slot plan, in slot order (R53): each with its number, position and logical slot. -/
def planFibres (plan : List Nat) : List (Nat × Nat × Nat) :=
  ((plan.mapIdx (fun i n => (List.range n).map (fun p => (p, i)))).flatten).mapIdx (fun k e => (k, e.1, e.2))

/-- The windows of a launch at a work-group's start (R99, R100). -/
def startWindows (l : Launch) : List WinState :=
  (List.range l.windows.length).flatMap (fun w =>
    let d := l.windows.getD w default
    if d.valid then
      (List.range l.plan.length).filterMap (fun i =>
        if slotHolds (l.plan.getD i 0) d.fibs then
          let parts := if d.double then 2 else 1
          some { lslot := i, w := w, parts := List.replicate parts ⟨d.owner, true⟩
                 regs := List.replicate d.count (splat 0), vecs := List.replicate parts [] }
        else none)
    else [])

/-- A work-group at its start. -/
def newWg (l : Launch) (id num cluster pos core base : Nat) (attempt : Nat × Nat) (tick : Nat) (slots : List (Option Nat)) (live : Mask) : WorkGroup where
  num := num
  launch := id
  cluster := cluster
  core := core
  pos := pos
  slots := slots
  base := base
  fibres := (planFibres l.plan).map (fun (k, p, i) => (k, newFibre k p i l.entry live (Map.getD l.cgens cluster 0) l.ggen tick))
  windows := startWindows l
  returning := 0
  tcb := 0
  tiles := []
  wslots := []
  frontier := []
  lostIn := 0
  lostOut := 0
  report := false
  stalls := Vector.replicate 16 0
  progress := 0
  attempt := attempt.1
  forced := attempt.2
  start := tick
  resumed := false
  killed := none
  saves := []
  saveDone := []
  lane := l.lane

/-- Readies a region for a work-group: its bytes are zero, its lines present, their race records invalid (R210, R273). -/
def State.clearRegion (s : State) (core base n : Nat) : State :=
  let a := scratchAddr core base
  let ls := linesOf a n
  { s with scratch := Memory.clear s.scratch a n }.modCore core (fun c => { c with
    absent := c.absent.filter (fun l => !(ls.contains l))
    records := c.records.filter (fun e => !(ls.contains e.1))
    owners := c.owners.filter (fun e => !(ls.contains e.1))
    stageKicks := c.stageKicks.filter (fun e => !(a ≤ e.1 && e.1 < a + n)) })

/-- The places of a physical slot that live fibres of a core hold (R86). -/
def State.placesIn (s : State) (core k : Nat) : List Nat :=
  s.wgs.flatMap (fun (_, w) =>
    if w.core == core && w.killed.isNone then w.fibres.filterMap (fun (_, f) => if w.pslot f == k then some f.place else none) else [])

/-- Gives each fibre of a work-group the lowest free place of its physical slot, or the place it had (R86, R274, R279). -/
def State.seat (s : State) (w : WorkGroup) (kept : Map Nat) : WorkGroup :=
  { w with fibres := (w.fibres.foldl (fun (acc : Map Fibre × Map (List Nat)) (n, f) =>
      let k := w.pslot f
      let used := Map.getD acc.2 k (s.placesIn w.core k)
      let p := (Map.find kept n).getD (((List.range 4).find? (fun p => !(used.contains p))).getD 0)
      (acc.1 ++ [(n, { f with place := p })], Map.set acc.2 k (p :: used))) ([], [])).1 }

/-- A work-group takes its place on its core: it is resident, and the identities of its fibres are its cluster's (R274, R277). -/
def State.settleWg (s : State) (g : Nat) (w : WorkGroup) : State :=
  let s := { s with wgs := Map.set s.wgs g w }
  s.modLaunch w.launch (fun l => { l with
    homes := Map.set l.homes w.cluster ((Map.getD l.homes w.cluster [] ++ w.fibres.map (fun e => s.identity ⟨g, e.1⟩)).eraseDups) })

/-- Admits one work-group, after the acquire of its launch (R260, R331): its number in the package, and the state. -/
def State.admitOne (s : State) (id num cluster pos : Nat) (attempt : Nat × Nat) (core base : Nat) (slots : List (Option Nat)) (live : Mask) :
    Nat × State :=
  let l := s.launch id
  let g := s.nextWg
  let s := (s.clearRegion core base l.scratch).cacheAcquire (s.agentOn core l.ctx) .sys
  let w := s.seat (newWg l id num cluster pos core base attempt s.tick slots live) []
  (g, ({ s with nextWg := g + 1 }).settleWg g w)

/-- Admits work-groups of a cluster at a placement: their positions and attempts, with the forced ones. -/
def State.admitCluster (s : State) (id q : Nat) (who : List (Nat × Nat × Nat)) (p : Placement) : State :=
  let l := s.launch id
  let s := (who.zip p.1).foldl (fun s ((pos, attempt), (core, slots)) =>
    (s.admitOne id (l.wgNum q pos) q pos attempt core p.2 slots allLanes).2) s
  let s := s.modLaunch id (fun l => { l with places := Map.set l.places q (p.1.map (·.1)) })
  if l.started then s
  else
    let s := s.modLaunch id (fun l => { l with started := true })
    if l.timestamps then s.putRecord l 1 else s

/-- The launches in a list of contexts' work, whether they run. -/
def State.ctxRuns (s : State) (ctx : Nat) : Bool := decide ((s.ctx ctx).st = .running)

/-- Whether queued work of a context may be admitted (R399): it is running, and no saved or killed work-group comes first. -/
def State.admits (s : State) (ctx : Nat) : Bool := s.ctxRuns ctx && (s.ctx ctx).saved.isEmpty && (s.ctx ctx).again.isEmpty

/-- The same for a launch. -/
def State.mayAdmit (s : State) (l : Launch) : Bool := s.admits l.ctx

/-- The entries of a launch in the seedbeds, with their dies. -/
def State.waitingOf (s : State) (id : Nat) : List (Nat × Nat) :=
  s.dies.flatMap (fun (d, x) => x.sched.seedbed.filterMap (fun e =>
    match e.work with
    | .place i _ => if i == id then some (d, e.num) else none
    | _ => none))

/-! ### Starting a launch (R337 to R340) -/

/-- Whether a context has reserved cores (R334). -/
def State.hasReserved (s : State) (ctx : Nat) : Bool := (List.range 1280).any (fun c => s.coreUp c && s.reservedFor c == some ctx)

/-- The dies of a mask that are in service (R338). -/
def State.maskUp (s : State) (m : Nat) : Nat := (maskDies m).foldl (fun k d => if s.dieUp d then k + 2 ^ d else k) 0

/-- What the record of a launch says of its block, whether or not the launch runs (R338, R343): where it goes, whom it names, and the
properties that are known. -/
def Launch.named (l : Launch) (s : State) (bytes : List Byte) : Launch :=
  let n (o k : Nat) : Nat := leNat ((bytes.drop o).take k)
  { l with
    recaddr := n 0x20 8, tag := if n 0x28 8 == 0 then l.tag else n 0x28 8
    succs := (List.range 8).map (fun i => n (0x30 + 4 * i) 4)
    mask := s.maskUp (if n 0x1A 1 == 0 then 2 ^ l.die else n 0x1A 1), determ := bit (n 0x18 2) 5 }

/-- A launch as its kernel and its block make it (R57, R337). -/
def Launch.made (l : Launch) (k : Kernel) (b : Lpb) : Launch :=
  { l with
    entry := k.entry, trapVec := k.trapVec, regs := k.regs, fibres := k.fibres, cluster := k.cluster, plan := k.plan
    scratch := k.scratch, params := k.params, paramPtr := b.params, windows := k.windows
    coresident := k.coresident || bit b.flags 4, determ := k.determ || bit b.flags 5
    checked := k.checked || bit b.flags 6, reserve := k.reserve || bit b.flags 7
    idempotent := k.idempotent && bit b.flags 0, retry := min k.retry (bits b.flags 1 3)
    kd := b.kd, grid := b.grid, shape := b.shape, timestamps := bit b.flags 8, exitrec := bit b.flags 9
    prio := bits b.flags 10 2 }

/-- A launch that a request makes; `status` is not 0 where it is refused (R338). A block that cannot be read, or one with a bad field,
still has a record: it carries the node's tag, and as much of the block as there is. -/
def State.readLaunch (s : State) (die : Nat) (r : LaunchReq) : Launch × State :=
  let base : Launch := { ctx := r.ctx, die := die, seq := r.seq, node := (r.node.map (mkRef die)).getD 0, kick := r.kick
                         tag := (r.node.map (fun n => (s.node die n).tag)).getD 0 }
  match s.engineRead die r.ctx r.lpb 128 with
  | (.error _, s) => ({ base with status := 4 }, s)
  | (.ok bytes, s) =>
    let base := base.named s bytes
    match readLpb bytes with
    | none => ({ base with status := 4 }, s)
    | some b =>
      match s.engineRead die r.ctx b.kd 256 with
      | (.error _, s) => ({ base with status := 1 }, s)
      | (.ok kb, s) =>
        let (cx, cy, cz) := b.shape
        if cx * cy * cz != bits (leNat ((kb.drop 0x14).take 4)) 8 4 then ({ base with status := 4 }, s)
        else match readKernel b.kd (bit b.flags 6) kb with
          | none => ({ base with status := 1 }, s)
          | some k =>
            let l := base.made k b
            let l := { l with order := l.clusterOrder (maskDies l.mask) }
            let st := if l.mask == 0 then 2 else if l.reserve && !(s.hasReserved l.ctx) then 3 else if s.couldFit l then 0 else 2
            ({ l with status := st, unplaced := l.order }, s)

/-- The end of a launch (R341, R343): its completion record, the decrements of its successors, and its node. -/
def State.endLaunch (s : State) (l : Launch) : State :=
  let s := s.putRecord l 2
  let s := l.succs.foldl (fun s r => s.post l.ctx r) s
  match s.refNode l.node with
  | some (d, n) => s.unitDone d n
  | none => s

/-- LAUNCH_START (R55 to R57, R87, R88, R332, R334, R337 to R340): the head of a die's launch queue starts or is refused. -/
def execLaunchStart (die : Nat) (s : State) : Host.Outcome State Fault Refusal :=
  .next (match (s.die die).sched.queue with
    | [] => s
    | r :: rest =>
      if !(s.ctxRuns r.ctx) then s
      else
        let s := s.modSched die (fun c => { c with queue := rest })
        let (l, s) := s.readLaunch die r
        if l.status != 0 then s.endLaunch l
        else
          let id := s.nextLaunch
          ({ s with nextLaunch := id + 1, launches := Map.set s.launches id l }).enterClusters id)

/-! ### The end of a work-group (R111, R194, R316, R344, R387) -/

/-- Whether a work-group has ended: killed, or every fibre without threads, stores and matrix operations. -/
def State.wgEnded (s : State) (g : Nat) : Bool :=
  match Map.find s.wgs g with
  | some w => w.killed.isSome ||
      (w.fibres.all (fun e => e.2.live == 0 && e.2.queue.isEmpty && e.2.trapQueue.isEmpty) &&
        !((s.core w.core).matq.any (MatOp.ofWg g)))
  | none => false

/-- Removes a work-group from its core, with everything that names it. -/
def State.removeWg (s : State) (g : Nat) : State :=
  let core := s.coreOf g
  let s := s.keepVersions g 0
  let s := { s with
    wgs := Map.del s.wgs g
    barriers := s.barriers.filter (fun e => match e.1 with | .fib w _ _ => w != g | .wgp w _ => w != g | _ => true)
    dies := s.dies.map (fun (d, x) => (d, Die.disarm x g)) }
  s.modCore core (fun c => { c with
    matq := c.matq.filter (fun op => !(op.ofWg g)), claims := c.claims.filter (fun x => x.wg != g)
    watches := c.watches.filter (fun e => e.2.ref.wg != g)
    pslots := c.pslots.map (fun (p : PSlot) => if (p.cur.map (fun (x : FibRef) => x.wg)) == some g then { p with cur := none, due := false } else p) })

/-- The end of a work-group: it leaves its core, and its exit record is written (R344), in a deterministic launch as its cluster retires
(R341). -/
def State.endWg (s : State) (g : Nat) : State :=
  match Map.find s.wgs g with
    | none => s
    | some w =>
      if !(s.wgEnded g) then s
      else
        let rcd := s.exitRecord w
        let again := w.killed == some 1
        let s := s.removeWg g
        let s := if (s.launch w.launch).exitrec || w.exitMask != 0 || w.killed.isSome then s.putExit w.launch w.cluster rcd else s
        if again then s
        else if w.lane then { s with launches := Map.del s.launches w.launch }
        else s.modLaunch w.launch (fun l => { l with
          ended := Map.set l.ended w.cluster (Map.getD l.ended w.cluster 0 + 1)
          wgsDone := if l.determ then l.wgsDone else l.wgsDone + bit01 w.killed.isNone
          spwgs := l.spwgs + bit01 (w.exitMask != 0)
          status := if w.killed == some 2 && l.status == 0 then 7 else l.status })

/-- WORK_GROUP_COMPLETE (R104, R111, R194, R316, R344). -/
def execWorkGroupComplete (g : Nat) (s : State) : Host.Outcome State Fault Refusal := .next (s.endWg g)

/-- Whether every work-group of the next cluster of a deterministic launch has ended (R341). -/
def Launch.canRetire (l : Launch) : Bool :=
  match l.order[l.retiredTo]? with
  | some (q, _) => l.determ && l.cluster ≤ Map.getD l.ended q 0
  | none => false

/-- CLUSTER_RETIRE (R341, R344): clusters of a deterministic launch retire in curve order. -/
def execClusterRetire (id : Nat) (s : State) : Host.Outcome State Fault Refusal :=
  .next (match Map.find s.launches id with
    | none => s
    | some l =>
      match l.order[l.retiredTo]? with
      | some (q, _) =>
        if !l.canRetire then s
        else
          let rs := Map.getD l.held q []
          let killed := (rs.filter (fun r => bits (leNat (r.take 4)) 8 2 == 2)).length
          let s := rs.foldl (fun s r => s.ringAppend l.ctx 1 r) s
          s.modLaunch id (fun l => { l with
            retiredTo := l.retiredTo + 1, held := Map.del l.held q, wgsDone := l.wgsDone + (l.cluster - killed) })
      | none => s)

/-- Whether a launch has nothing left to run (R341). -/
def State.launchOver (s : State) (id : Nat) (l : Launch) : Bool :=
  !l.lane && l.unplaced.isEmpty && (s.waitingOf id).isEmpty && !(s.wgs.any (fun e => e.2.launch == id)) &&
    !((s.ctx l.ctx).again.any (fun x => x.launch == id)) && !((s.ctx l.ctx).saved.any (fun x => x.launch == id)) &&
    (!l.determ || l.order.length ≤ l.retiredTo)

/-- The close of a launch (R221, R331, R341, R343): the dirty state its stores gathered is written out first, and its stores
are released. -/
def State.closeLaunch (s : State) (id : Nat) : State :=
  match Map.find s.launches id with
    | none => s
    | some l =>
        let s := s.tlbs.foldl (fun s (k, _) =>
          let hit (t : TlbEntry) : Bool := t.dirty && t.setter.contains id
          let s := ((s.tlb k).entries.filter hit).foldl (fun s t => s.writeDirty t) s
          s.modTlb k (fun b => { b with entries := b.entries.map (fun t => if hit t then { t with dirty := false, setter := [] } else t) })) s
        let s := s.releaseCores l.ctx (l.places.flatMap (·.2)).eraseDups
        ({ s with launches := Map.del s.launches id
                  barriers := s.barriers.filter (fun e => match e.1 with
                    | .clus n _ _ => n != id | .grid n => n != id | _ => true) }).endLaunch l

/-- LAUNCH_COMPLETE (R221, R331, R341, R343). -/
def execLaunchComplete (id : Nat) (s : State) : Host.Outcome State Fault Refusal :=
  .next (match Map.find s.launches id with
    | none => s
    | some l => if s.launchOver id l then s.closeLaunch id else s)

/-! ### Relaunches (R231, R387, R400) -/

/-- The work-groups to be relaunched together with the first of a context: those of its launch cluster, or of the whole
co-resident launch. -/
def State.againGroup (s : State) (ctx : Nat) : List AgainWg :=
  match (s.ctx ctx).again with
  | [] => []
  | x :: rest => x :: rest.filter (fun y => y.launch == x.launch && (y.cluster == x.cluster || (s.launch x.launch).coresident))

/-- Where the clusters of some relaunched work-groups go: each in its turn on the first physical cluster with room for the work-groups it
has left; or, where they do not all find room so, all of them as whole clusters (R88, R387). -/
def State.againPlan (s : State) (l : List AgainWg) : Option (List (Nat × Placement)) :=
  match l.head? with
  | none => none
  | some x =>
    let la := s.launch x.launch
    let qs := la.order.filter (fun e => l.any (fun y => y.cluster == e.1))
    let turn := (qs.foldl (fun (acc : Option (List (Nat × Placement) × Map CoreUse)) (q, own) =>
      match acc with
      | none => none
      | some (out, m) =>
        let use (c : Nat) : CoreUse := Map.getD m c (s.useOf c)
        let k := (l.filter (fun y => y.cluster == q)).length
        let dies := if la.determ || !la.coresident then [own] else maskDies la.mask
        let p := (clustersOn dies).findSome? (fun c => placeOn la s.rfcapOf use (s.clusterCores la c) k none)
        p.map (fun p => (out ++ [(q, p)], p.1.foldl (fun m (c, y) => Map.set m c ((use c).add la y p.2)) m)))
      (some ([], []))).map (·.1)
    turn.orElse (fun _ => s.placeSome la s.useOf qs)

/-- Whether the first relaunch of a context can take place: none of its work-groups is still resident. -/
def State.canRelaunch (s : State) (ctx : Nat) : Bool :=
  let g := s.againGroup ctx
  s.ctxRuns ctx && (s.ctx ctx).saved.isEmpty && !g.isEmpty && (s.againPlan g).isSome &&
    g.all (fun x => !(s.wgs.any (fun e => e.2.launch == x.launch && e.2.num == x.num)))

/-- RELAUNCH (R231, R387, R400): the work-groups of one extent of a context start again together. -/
def execRelaunch (ctx : Nat) (s : State) : Host.Outcome State Fault Refusal :=
  .next (if s.canRelaunch ctx then
      let g := s.againGroup ctx
      match s.againPlan g with
      | some ps =>
        let s := s.modCtx ctx (fun c => { c with again := c.again.filter (fun x => !(g.contains x)) })
        let id := ((g.head?).map (·.launch)).getD 0
        let s := ps.foldl (fun s (q, p) =>
          s.admitCluster id q ((g.filter (fun x => x.cluster == q)).map (fun x => (x.pos, x.attempt, x.forced))) p) s
        s.modLaunch id (fun l => { l with relaunches := l.relaunches + g.length })
      | none => s
    else s)

/-- Kills a work-group after an uncorrectable error (R231, R387): its extent is relaunched where its launch is idempotent
and its retry limit is not reached; otherwise the context faults. -/
def State.killForError (s : State) (g : Nat) : State :=
  match Map.find s.wgs g with
  | none => s
  | some w =>
    let l := s.launch w.launch
    if w.killed.isSome then s
    else
      let ext := (s.killExtent g).filterMap (fun k => (Map.find s.wgs k).map (fun x => (k, x)))
      let ext := ext.filter (fun e => e.2.killed.isNone)
      if l.idempotent && w.attempt - w.forced < l.retry then
        let s := s.modCtx l.ctx (fun c => { c with
          again := c.again ++ ext.map (fun (_, x) => ⟨x.launch, x.num, x.cluster, x.pos, x.attempt + 1, x.forced⟩) })
        s.killWg g 1
      else ((s.killWg g 2).hostEvent 0x51 l.ctx (dieOf w.core) (w.num + l.seq * 2 ^ 32) (min w.attempt 0xFFFF)).oweFault l.ctx 0x51

end Sys2Proof.Machine
end

