-- ==== Sys2Proof/Machine/Sequence.lean ====
section
/-! DEFINITION. Class 0xC, the solver sequencer: tables, sequences, rounds, the norm and the decision (R371 to R384). -/

namespace Sys2Proof.Machine

/-! ### Coefficient tables (R372) -/

/-- A word of some bytes. -/
def wordAt (l : List Byte) (o : Nat) : Word := BitVec.ofNat 32 (leNat ((l.drop o).take 4))

/-- Whether an FP32 word is finite. -/
def finite32 (w : Word) : Bool := match f32 w with | .fin _ _ _ => true | _ => false

/-- Whether an FP32 word is below another. -/
def lt32 (a b : Word) : Bool := ltVal false (f32 a) (f32 b)
/-- Whether an FP32 word is at or below another; neither is NaN. -/
def le32 (a b : Word) : Bool := !(lt32 b a)

/-- Stages of a table. -/
def tabStages (l : List Byte) : Nat := leNat (l.take 1) % 16
/-- Whether its last stage serves as the next step's first. -/
def tabFsal (l : List Byte) : Bool := bit (leNat (l.take 1)) 4
/-- Node c of a stage. -/
def tabC (l : List Byte) (i : Nat) : Word := wordAt l (0x30 + 4 * i)
/-- Solution weight b of a stage. -/
def tabB (l : List Byte) (i : Nat) : Word := wordAt l (0x50 + 4 * i)
/-- Error weight e of a stage. -/
def tabE (l : List Byte) (i : Nat) : Word := wordAt l (0x70 + 4 * i)
/-- Coupling of stage `i` to stage `j`. -/
def tabA (l : List Byte) (i j : Nat) : Word := wordAt l (0x90 + 4 * (i * (i - 1) / 2 + j))

/-- +1 in FP32. -/
def one32 : Word := 0x3F800000

/-- Whether 256 bytes are a coefficient table. -/
def tableOk (l : List Byte) : Bool :=
  let s := tabStages l
  let w (o : Nat) : Word := wordAt l o
  let pos (x : Word) : Bool := lt32 0 x
  let late := (List.range 8).filter (fun i => s ≤ i)
  2 ≤ s && s ≤ 8 && (w 0).toNat / 32 == 0 && (w 0x2C).toNat / 2 ^ 16 == 0 && (w 0x2C).toNat % 2 ^ 16 != 0 &&
    ((List.range 10).map (fun i => w (4 + 4 * i))).all finite32 && ((List.range 52).map (fun i => w (0x30 + 4 * i))).all finite32 &&
    pos (w 4) && le32 (w 4) one32 && pos (w 8) && le32 (w 8) one32 && le32 one32 (w 0xC) && le32 0 (w 0x10) && le32 0 (w 0x14) &&
    pos (w 0x18) && le32 0 (w 0x1C) && pos (w 0x20) && le32 0 (w 0x24) && pos (w 0x28) && 0x00800000 ≤ (w 0x28).toNat &&
    tabC l 0 == 0 && late.all (fun i => tabC l i == 0 && tabB l i == 0 && tabE l i == 0 && (List.range i).all (fun j => tabA l i j == 0))

/-! ### Sequence descriptors (R373) -/

/-- Reads a sequence descriptor, and checks it. -/
def readSeq (l : List Byte) : Option SeqDesc :=
  let n (o k : Nat) : Nat := leNat ((l.drop o).take k)
  let d : SeqDesc := { ybase := n 0 8, kbase := n 8 8, xbase := n 16 8, obase := n 24 8, bbase := n 32 8, sdef := n 40 8
                       ystride := n 0x30 4, n := n 0x34 4, nsamp := bits (n 0x38 4) 0 13, table := bits (n 0x38 4) 16 4
                       den := n 0x3C 4, ret := n 0x40 4, fin := n 0x44 4, doneaddr := n 0x48 8 }
  let place (a : Nat) : Bool := a != 0 && a % 128 == 0 && canonical a
  if bits (n 0x38 4) 13 3 == 0 && bits (n 0x38 4) 20 12 == 0 && (l.drop 0x50).all (· == 0) && 1 ≤ d.n && d.n ≤ 65536 &&
      1 ≤ d.nsamp && d.nsamp ≤ 4096 && d.ystride % 128 == 0 && 4 * d.n ≤ d.ystride && d.doneaddr % 4 == 0 && canonical d.doneaddr &&
      [d.ybase, d.kbase, d.xbase, d.obase, d.bbase, d.sdef].all place
  then some d else none

/-- Whether a reference has the form that SQDEF asks for: a valid one, that names the issuing die and package (R454). -/
def State.seqRefOk (s : State) (die ref : Nat) : Bool :=
  bit ref 31 && !(bit ref 30) && bits ref 18 3 == die && (!(bit ref 29) || bits ref 21 8 == s.pkg)

/-- Whether the references of a descriptor have the right form: fin may be none (R373, R454). The nodes are not read. -/
def State.seqRefsOk (s : State) (die : Nat) (d : SeqDesc) : Bool :=
  s.seqRefOk die d.den && s.seqRefOk die d.ret && (!(bit d.fin 31) || s.seqRefOk die d.fin)

/-! ### Places -/

/-- A sequence place of a die. -/
def State.seqPlace (s : State) (die k : Nat) : Option SeqPlace := Map.find (s.die die).sequencer.places k

/-- Changes a sequence place. -/
def State.modPlace (s : State) (die k : Nat) (f : SeqPlace → SeqPlace) : State :=
  s.modSeq die (fun q => { q with places := Map.modify q.places k f })

/-- The handle of a place (R383). -/
def SeqPlace.handle (p : SeqPlace) (k : Nat) : Nat := k + p.gen * 2 ^ 4 + 2 ^ 31

/-- The place that a handle names for a context. -/
def State.seqNamed (s : State) (die ctx h : Nat) : Option (Nat × SeqPlace) :=
  (s.seqPlace die (h % 16)).bind (fun p => if p.defined && p.ctx == ctx && p.handle (h % 16) == h then some (h % 16, p) else none)

/-- Samples that are running. -/
def SeqPlace.running (p : SeqPlace) : List Nat := (List.range p.samples.length).filter (fun i => (p.samples.getD i default).status == 0)

/-- The sequence word (R384). -/
def SeqPlace.word (p : SeqPlace) : Nat := p.state + p.reason * 2 ^ 4 + p.running.length * 2 ^ 16

/-- The sample records that the defined sequences of a die hold. -/
def State.seqRecords (s : State) (die : Nat) : Nat :=
  ((s.die die).sequencer.places.map (fun e => if e.2.defined then e.2.desc.nsamp else 0)).sum

/-! ### Memory of a sequence (R373, R381) -/

/-- Bytes of an engine buffer, or the address that faults. -/
def State.seqRead (s : State) (die : Nat) (p : SeqPlace) (va n : Nat) : Except Nat (List Byte) × State :=
  match s.engineRead die p.ctx (va % 2 ^ 64) n with
  | (.ok l, s) => (.ok l, s)
  | (.error (_, a), s) => (.error a, s)

/-- Writes an engine buffer: the address that faults, if one does. -/
def State.seqWrite (s : State) (die : Nat) (p : SeqPlace) (va : Nat) (l : List Byte) : Option Nat × State :=
  match s.engineStore die p.ctx p.kick (va % 2 ^ 64) l with
  | (some (_, a), s) => (some a, s)
  | (none, s) => (none, s)

/-- FP32 words of some bytes. -/
def wordsAt (n : Nat) (l : List Byte) : List Word := (List.range n).map (fun i => wordAt l (4 * i))

/-- Bytes of FP32 words. -/
def wordList (l : List Word) : List Byte := l.flatMap (fun w => leBytes 4 w.toNat)

/-- The address of a stage derivative (R373). -/
def SeqDesc.stageAt (d : SeqDesc) (j i : Nat) : Nat := d.kbase + (j * d.nsamp + i) * d.ystride

/-- A row of a sample: the state, or a stage derivative. -/
def State.seqRow (s : State) (die : Nat) (p : SeqPlace) (va : Nat) : Except Nat (List Word) × State :=
  match s.seqRead die p va (4 * p.desc.n) with
  | (.ok l, s) => (.ok (wordsAt p.desc.n l), s)
  | (.error a, s) => (.error a, s)

/-- The first `k` stage derivatives of a sample. -/
def State.seqStages (s : State) (die : Nat) (p : SeqPlace) (i k : Nat) : Except Nat (List (List Word)) × State :=
  (List.range k).foldl (fun (acc, s) j =>
    match acc with
    | .error a => (.error a, s)
    | .ok out => match s.seqRow die p (p.desc.stageAt j i) with
      | (.ok l, s) => (.ok (out ++ [l]), s)
      | (.error a, s) => (.error a, s)) (.ok [], s)

/-! ### Arithmetic of the stream unit (R376 to R379) -/

/-- The exact sum of two values; `none` where it is invalid. -/
def addExact (a b : Val) : Option Val :=
  match a, b with
  | .nan x, _ => some (.nan x)
  | _, .nan x => some (.nan x)
  | .inf n, .inf n' => if n == n' then some (.inf n) else none
  | .inf n, _ => some (.inf n)
  | _, .inf n => some (.inf n)
  | .fin n m e, .fin n' m' e' =>
    let k := min e e'
    let t := signedAt n m e k + signedAt n' m' e' k
    some (.fin (if t == 0 then m == 0 && m' == 0 && n && n' else decide (t < 0)) t.natAbs k)

/-- The exact sum of products of FP32 words. -/
def dotExact : List (Word × Word) → Option Val
  | [] => some (.fin false 0 0)
  | [(a, b)] => mulExact (f32 a) (f32 b)
  | (a, b) :: rest => (dotExact rest).bind (fun x => (mulExact (f32 a) (f32 b)).bind (fun y => addExact y x))

/-- One rounding to FP32, to nearest even; an invalid value gives the canonical NaN. -/
def round32 (v : Option Val) : Word := BitVec.ofNat 32 ((v.map (fun x => (convert .f32 .rne false x).code)).getD (nanCode .f32))

/-- The result of an operation as a word. -/
def resWord (r : Res) : Word := BitVec.ofNat 32 r.code
/-- One rounded product. -/
def mul32 (a b : Word) : Word := resWord (mulVal .f32 .rne false (f32 a) (f32 b))
/-- `FMAX` and `FMIN` of two words (R145). -/
def max32 (a b : Word) : Word := resWord (minMax .f32 true false (f32 a) (f32 b) a.toNat b.toNat)
/-- `FMIN` of two words (R145). -/
def min32 (a b : Word) : Word := resWord (minMax .f32 false false (f32 a) (f32 b) a.toNat b.toNat)
/-- A magnitude. -/
def abs32 (a : Word) : Word := a &&& 0x7FFFFFFF
/-- A word with its sign changed. -/
def neg32 (a : Word) : Word := a ^^^ 0x80000000
/-- pw (R379). -/
def pw (x y : Word) : Word := resWord (exp2Val .rne (f32 (mul32 y (resWord (log2Val .rne (f32 x))))))

/-- y + h times a weighted sum of stage derivatives, with one rounding. -/
def stepFrom (y h : Word) (l : List (Word × Word)) : Word :=
  round32 ((dotExact l).bind (fun d => (mulExact (f32 h) d).bind (fun x => addExact (f32 y) x)))

/-- One element of the norm: ynew and q (R378). -/
def normElem (tab : List Byte) (h y : Word) (ks : List Word) : Word × Word :=
  let ynew := stepFrom y h (ks.mapIdx (fun j k => (tabB tab j, k)))
  let e := round32 ((dotExact (ks.mapIdx (fun j k => (tabE tab j, k)))).bind (fun d => mulExact (f32 h) d))
  let big := max32 (abs32 y) (abs32 ynew)
  let sc := round32 ((mulExact (f32 (wordAt tab 0x24)) (f32 big)).bind (fun x => addExact (f32 (wordAt tab 0x20)) x))
  let r := resWord (divVal .rne (f32 e) (f32 sc))
  (ynew, mul32 r r)

/-- The exponent of a finite word. -/
def exp32 (w : Word) : Option Int :=
  match f32 w with
  | .fin _ m e => if m == 0 then none else some ((m.log2 : Int) + e)
  | _ => none

/-- The error of a round (R378). -/
def normErr (qs : List Word) : Word :=
  if qs.any (fun q => (f32 q).isNan) then BitVec.ofNat 32 (nanCode .f32)
  else if qs.any (fun q => !(finite32 q)) then 0x7F800000
  else
    let E := (qs.filterMap exp32).foldl max (-126)
    let S := qs.foldl (fun n q => match f32 q with
      | .fin _ m e => n + (roundWhole .rtz false m (e + 46 - E)).1
      | _ => n) 0
    resWord (sqrtVal .rne (f32 (resWord (divVal .rne (.fin false S (E - 46)) (.fin false qs.length 0)))))

/-- The new step of an accepted attempt (R379). -/
def grow (tab : List Byte) (h err errprev : Word) : Word :=
  let ea := max32 err (wordAt tab 0x28)
  let g := mul32 (mul32 (wordAt tab 4) (pw ea (neg32 (wordAt tab 0x10)))) (pw (max32 errprev (wordAt tab 0x28)) (wordAt tab 0x14))
  mul32 h (min32 (wordAt tab 0xC) (max32 (wordAt tab 8) g))

/-- The new step of a rejected attempt. -/
def shrink (tab : List Byte) (h err : Word) : Word :=
  mul32 h (max32 (wordAt tab 8) (mul32 (wordAt tab 4) (pw (max32 err (wordAt tab 0x28)) (neg32 (wordAt tab 0x18)))))

/-- The status after a decision (R379). -/
def afterStep (tab : List Byte) (x : Sample) : Sample :=
  if x.status != 0 then x
  else if !(finite32 x.h) then { x with status := 4 }
  else if lt32 (abs32 x.h) (wordAt tab 0x1C) then { x with status := 2 }
  else if (wordAt tab 0x2C).toNat % 2 ^ 16 ≤ x.acc + x.rej then { x with status := 3 }
  else x

/-- The decision of a sample (R379): its new record, and whether the step is accepted. -/
def decideSample (tab : List Byte) (x : Sample) (err : Word) (ynew : List Word) : Sample × Bool :=
  if (f32 err).isNan then ({ x with status := 4 }, false)
  else if le32 err one32 then
    if !(ynew.all finite32) then ({ x with status := 4 }, false)
    else
      let t := if x.last then x.tend else resWord (addVal .f32 .rne false (f32 x.t) (f32 x.step))
      (afterStep tab { x with
        h := grow tab x.step err x.errprev, errprev := err, acc := (x.acc + 1) % 2 ^ 16, t := t
        status := if x.last then 1 else 0, k0 := x.k0 && tabFsal tab }, true)
  else (afterStep tab { x with h := shrink tab x.step err, rej := (x.rej + 1) % 2 ^ 16 }, false)

/-! ### Rounds (R375, R376) -/

/-- A sample at the start of a sequence (R375), from its definition. -/
def startSample (l : List Byte) : Sample :=
  let t0 := wordAt l 0
  let tend := wordAt l 4
  let h0 := wordAt l 8
  let ep := wordAt l 12
  let x : Sample := { t := t0, h := h0, errprev := ep, tend := tend, status := 0 }
  if !([t0, tend, h0, ep].all finite32) || (f32 h0).isZero then { x with status := 7 }
  else if !(lt32 t0 tend) && !(lt32 tend t0) then { x with status := 1 }
  else if (f32 h0).neg != lt32 tend t0 then { x with status := 7 }
  else x

/-- The clip of a round (R376). -/
def clipSample (x : Sample) : Sample :=
  if x.status != 0 then x
  else
    let rem := resWord (addVal .f32 .rne false (f32 x.tend) (f32 (neg32 x.t)))
    if (f32 rem).isZero then { x with status := 1 }
    else if le32 (abs32 rem) (abs32 x.h) then { x with step := rem, last := true }
    else { x with step := x.h, last := false }

/-- The active set of a stage (R376). -/
def SeqPlace.needs (p : SeqPlace) (i : Nat) : List Nat :=
  p.running.filter (fun k => i != 0 || !((p.samples.getD k default).k0))

/-- The first stage from `i` on with an active set. -/
def SeqPlace.nextStage (p : SeqPlace) (i : Nat) : Option Nat :=
  (List.range (tabStages p.table)).find? (fun k => i ≤ k && !(p.needs k).isEmpty)

/-- A new round: its steps are clipped; with no running sample the sequence is to end (R376). -/
def SeqPlace.newRound (p : SeqPlace) : SeqPlace :=
  let p := { p with samples := p.samples.map clipSample }
  match p.nextStage 0 with
  | some i => { p with stage := i, active := p.needs i, waiting := false }
  | none => { p with active := [], waiting := false, ending := some (2, 0, 0) }

/-- The end that a memory fault makes due. -/
def SeqPlace.failAt (p : SeqPlace) (a : Nat) : SeqPlace := { p with ending := some (4, 1, a), waiting := false }

/-- Decides one sample of a round, with what it writes: the address that faults, if one does (R378, R379). -/
def State.decideAt (s : State) (die k i : Nat) : Option Nat × State :=
  match s.seqPlace die k with
  | none => (none, s)
  | some p =>
    let x := p.samples.getD i default
    let n := tabStages p.table
    match s.seqRow die p (p.desc.ybase + i * p.desc.ystride) with
    | (.error a, s) => (some a, s)
    | (.ok y, s) => match s.seqStages die p i n with
      | (.error a, s) => (some a, s)
      | (.ok ks, s) =>
        let es := y.mapIdx (fun l w => normElem p.table x.step w (ks.map (fun r => r.getD l 0)))
        let ynew := es.map (·.1)
        let (x, acc) := decideSample p.table x (normErr (es.map (·.2))) ynew
        let (bad, s) := if acc then s.seqWrite die p (p.desc.ybase + i * p.desc.ystride) (wordList ynew) else (none, s)
        let (bad, s) := match bad with
          | some a => (some a, s)
          | none => if acc && tabFsal p.table then s.seqWrite die p (p.desc.stageAt 0 i) (wordList (ks.getD (n - 1) [])) else (none, s)
        match bad with
        | some a => (some a, s)
        | none => (none, s.modPlace die k (fun p => { p with samples := p.samples.set i x }))

/-- Goes on after a stage: to the next one, or to the decisions and the next round (R376). -/
def State.afterStage (s : State) (die k : Nat) : State :=
  match s.seqPlace die k with
  | none => s
  | some p =>
    match p.nextStage (p.stage + 1) with
    | some i => s.modPlace die k (fun p => { p with stage := i, active := p.needs i, waiting := false })
    | none =>
      let (bad, s) := p.running.foldl (fun (bad, s) i =>
        match bad with
        | some a => (some a, s)
        | none => s.decideAt die k i) ((none : Option Nat), s)
      match bad with
      | some a => s.modPlace die k (fun p => p.failAt a)
      | none => s.modPlace die k (fun p => { p with rounds := p.rounds + 1 : SeqPlace }.newRound)

/-- The definitions of every sample, read at the start (R375). -/
def State.readSamples (s : State) (die : Nat) (p : SeqPlace) : Except Nat (List Sample) × State :=
  match s.seqRead die p p.desc.sdef (16 * p.desc.nsamp) with
  | (.ok l, s) => (.ok ((List.range p.desc.nsamp).map (fun i => startSample ((l.drop (16 * i)).take 16))), s)
  | (.error a, s) => (.error a, s)

/-- Starts a sequence (R375, R376). -/
def State.startSeq (s : State) (die k : Nat) (kick : Option Kick) (node : Option Nat) (tab : List Byte) : State :=
  match s.seqPlace die k with
  | none => s
  | some p =>
    let p := { p with state := 1, reason := 0, rounds := 0, stage := 0, active := [], waiting := false, abort := false
                      freeAfter := false, ending := none, table := tab, kick := kick, startNode := node, retNode := none }
    match s.readSamples die p with
    | (.error a, s) => s.modPlace die k (fun _ => p.failAt a)
    | (.ok l, s) => s.modPlace die k (fun _ => SeqPlace.newRound { p with samples := l })

/-- Whether a node can take part: done, or waiting with a count of 1 (R377, R384). -/
def Node.usable (x : Node) : Bool := decide (x.st = .done) || (decide (x.st = .waiting) && x.pred == 1)

/-- The node of a reference on a die, where it belongs to a context. -/
def State.nodeOn (s : State) (die ctx ref : Nat) : Option (Nat × Node) :=
  match s.ownNode ctx ref with
  | some (d, n, x) => if d == die then some (n, x) else none
  | none => none

/-- What stands against starting a sequence (R384): a status, or its place, its table and its two nodes. -/
def State.canStart (s : State) (die ctx h : Nat) : Except Nat (Nat × SeqPlace × List Byte × Nat × Nat) :=
  match s.seqNamed die ctx h with
  | none => .error 2
  | some (k, p) =>
    if p.state == 1 then .error 1
    else match (Map.find (s.die die).sequencer.tables p.desc.table).filter (fun t => t.1 == ctx) with
      | none => .error 3
      | some (_, tab) =>
        match s.nodeOn die ctx p.desc.den, s.nodeOn die ctx p.desc.ret with
        | some (a, x), some (b, y) =>
          if x.kind == 1 && y.kind == 2 && y.payload == h && x.usable && y.usable then .ok (k, p, tab, a, b) else .error 4
        | _, _ => .error 4

/-- Re-arms a node that is done. -/
def State.rearmDone (s : State) (die n : Nat) : State := if decide ((s.node die n).st = .done) then s.restart die n else s

/-- The scope of a sequence: of every buffer (R258, R375). -/
def State.seqScope (s : State) (core ctx : Nat) (p : SeqPlace) (stages : Nat) : Scope :=
  let d := p.desc
  let rows := d.nsamp * d.ystride
  ([(d.ybase, rows), (d.kbase, stages * rows), (d.xbase, rows), (d.obase, rows), (d.bbase, 0x4040 + 4 * d.nsamp),
    (d.sdef, 16 * d.nsamp)] ++ (if d.doneaddr == 0 then [] else [(d.doneaddr, 4)])).foldl (fun sc (a, n) =>
      scopeMax sc (s.rangeScope core ctx a n)) .die

/-! ### Words (R384) -/

/-- SQTAB (R372, R384). -/
def execSqtab (h : Hdr) (d : BitVec 8) (a : Src) (tab : BitVec 4) (off : BitVec 32) (s : State) :
    Host.Outcome State Fault Refusal :=
  onceWord h [(a, 1)] [d.toNat] s fun w s =>
    let g := w.ref.wg
    let die := dieOf (s.coreOf g)
    let ctx := s.ctxOf g
    let o := s.jobOffset w a off
    if o % 64 != 0 || (s.ownRegion g o 256).isNone then .bad (w.operand w.low 6)
    else ownRecords w s o 256 1 fun recs s =>
      let l := recs.headD []
      if !(tableOk l) then .bad (w.operand w.low 7)
      else if (s.die die).sequencer.places.any (fun e => e.2.ctx == ctx && e.2.state == 1 && e.2.desc.table == tab.toNat) then
        .done (s.putAll w d.toNat 1)
      else .done ((s.modSeq die (fun q => { q with tables := Map.set q.tables tab.toNat (ctx, l) })).putAll w d.toNat 0)

/-- SQDEF (R373, R384, R454). -/
def execSqdef (h : Hdr) (d : BitVec 8) (a : Src) (off : BitVec 32) (s : State) : Host.Outcome State Fault Refusal :=
  onceWord h [(a, 1)] [d.toNat] s fun w s =>
    let g := w.ref.wg
    let die := dieOf (s.coreOf g)
    let o := s.jobOffset w a off
    if o % 128 != 0 || (s.ownRegion g o 128).isNone then .bad (w.operand w.low 6)
    else ownRecords w s o 128 1 fun recs s =>
      match (readSeq (recs.headD [])).filter (s.seqRefsOk die) with
      | none => .bad (w.operand w.low 7)
      | some x =>
        match (List.range 16).find? (fun k => !(((s.seqPlace die k).map (fun p => p.defined)).getD false)) with
        | none => .done (s.putAll w d.toNat 1)
        | some k =>
          if 16384 < s.seqRecords die + x.nsamp then .done (s.putAll w d.toNat 2)
          else
            let gen := (((s.seqPlace die k).map (fun p => p.gen)).getD 0 + 1) % 256
            let p : SeqPlace := { ctx := s.ctxOf g, gen := gen, defined := true, desc := x
                                  samples := List.replicate x.nsamp {}, state := 0, reason := 0, rounds := 0, stage := 0
                                  active := [], waiting := false, abort := false, freeAfter := false, ending := none
                                  table := [], kick := none, startNode := none, retNode := none }
            let s := s.modSeq die (fun q => { q with places := Map.set q.places k p })
            .done (s.putAll w d.toNat (p.handle k))

/-- SQGO (R375, R384). -/
def execSqgo (h : Hdr) (d : BitVec 8) (a : Src) (s : State) : Host.Outcome State Fault Refusal :=
  onceWord h [(a, 1)] [d.toNat] s fun w s =>
    let die := dieOf (s.coreOf w.ref.wg)
    let ctx := s.ctxOf w.ref.wg
    match s.canStart die ctx (s.low32 w a) with
    | .error st => .done (s.putAll w d.toNat st)
    | .ok (k, p, tab, den, ret) =>
      kicked w s (s.seqScope (s.coreOf w.ref.wg) ctx p (tabStages tab)) fun kick s =>
        .done ((((s.rearmDone die den).rearmDone die ret).startSeq die k (some kick) none tab).putAll w d.toNat 0)

/-- What SQSTAT reads (R374, R384). -/
def SeqPlace.stat (p : SeqPlace) (what i : Nat) : Nat :=
  if what == 5 then p.word
  else if what == 6 then p.rounds
  else if p.samples.length ≤ i then 0xFFFFFFFF
  else
    let x := p.samples.getD i default
    match what with
    | 0 => x.status
    | 1 => x.t.toNat
    | 2 => x.h.toNat
    | 3 => x.errprev.toNat
    | _ => x.acc + x.rej * 2 ^ 16

/-- SQSTAT (R384). -/
def execSqstat (h : Hdr) (d : BitVec 8) (a b : Src) (what : BitVec 3) (s : State) : Host.Outcome State Fault Refusal :=
  onceWord h [(a, 1), (b, 1)] [d.toNat] s fun w s =>
    let v := match s.seqNamed (dieOf (s.coreOf w.ref.wg)) (s.ctxOf w.ref.wg) (s.low32 w a) with
      | none => 0xFFFFFFFF
      | some (_, p) => p.stat what.toNat (s.low32 w b)
    .done (s.putAll w d.toNat v)

/-- SQABT (R381, R384). -/
def execSqabt (h : Hdr) (d : BitVec 8) (a : Src) (free : Bool) (s : State) : Host.Outcome State Fault Refusal :=
  onceWord h [(a, 1)] [d.toNat] s fun w s =>
    let die := dieOf (s.coreOf w.ref.wg)
    match s.seqNamed die (s.ctxOf w.ref.wg) (s.low32 w a) with
    | none => .done (s.putAll w d.toNat 2)
    | some (k, p) =>
      if p.state == 1 then
        .done ((s.modPlace die k (fun p => { p with abort := true, freeAfter := p.freeAfter || free })).putAll w d.toNat 0)
      else .done ((if free then s.modPlace die k (fun p => { p with defined := false }) else s).putAll w d.toNat 1)

/-! ### Steps of the sequencer (R375 to R381) -/

/-- SEQUENCE_START_NODE (R383): a node that cannot start its sequence completes at once. -/
def execSequenceStartNode (die node : Nat) (s : State) : Host.Outcome State Fault Refusal :=
  .next (
    let x := s.node die node
    if s.readyNode die node 2 && bit x.payload 32 then
      let s := s.startNode die node
      match s.canStart die x.ctx (x.payload % 2 ^ 32) with
      | .error _ => s.unitDone die node
      | .ok (k, _, tab, den, ret) => ((s.rearmDone die den).rearmDone die ret).startSeq die k none (some node) tab
    else s)

/-- The time of a stage for a sample (R377). -/
def stageTime (p : SeqPlace) (i : Nat) : Word :=
  let x := p.samples.getD i default
  round32 ((mulExact (f32 (tabC p.table p.stage)) (f32 x.step)).bind (fun v => addExact (f32 x.t) v))

/-- The batch block of a stage (R377). -/
def batchBlock (p : SeqPlace) (k : Nat) : List (Nat × List Byte) :=
  let b := p.desc.bbase
  [(b, leBytes 4 p.active.length ++ leBytes 4 p.stage ++ leBytes 4 p.rounds ++ leBytes 4 (p.handle k) ++ List.replicate 48 0),
   (b + 0x40, p.active.flatMap (fun i => leBytes 4 (stageTime p i).toNat)),
   (b + 0x4040, p.active.flatMap (leBytes 4))]

/-- The denoiser input of one sample (R377): for stage 0 the state itself, bit for bit. -/
def State.stageInput (s : State) (die : Nat) (p : SeqPlace) (i : Nat) : Except Nat (List Word) × State :=
  match s.seqRow die p (p.desc.ybase + i * p.desc.ystride) with
  | (.error a, s) => (.error a, s)
  | (.ok y, s) =>
    if p.stage == 0 then (.ok y, s)
    else match s.seqStages die p i p.stage with
      | (.error a, s) => (.error a, s)
      | (.ok ks, s) =>
        let h := (p.samples.getD i default).step
        (.ok (y.mapIdx (fun l w => stepFrom w h (ks.mapIdx (fun j r => (tabA p.table p.stage j, r.getD l 0))))), s)

/-- Writes the batch block and the inputs of a stage: the address that faults, if one does. -/
def State.putStageInputs (s : State) (die k : Nat) (p : SeqPlace) : Option Nat × State :=
  let (bad, s) := (batchBlock p k).foldl (fun (bad, s) (a, l) =>
    match bad with
    | some a => (some a, s)
    | none => s.seqWrite die p a l) ((none : Option Nat), s)
  (p.active.zipIdx).foldl (fun (bad, s) (i, b) =>
    match bad with
    | some a => (some a, s)
    | none => match s.stageInput die p i with
      | (.error a, s) => (some a, s)
      | (.ok l, s) => s.seqWrite die p (p.desc.xbase + b * p.desc.ystride) (wordList l)) (bad, s)

/-- Whether a place has a stage to start. -/
def SeqPlace.stageDue (p : SeqPlace) : Bool := p.state == 1 && !p.waiting && p.ending.isNone && !p.abort

/-- Whether a sequence's return node is still one: of type 2, of its context, and naming it (R377, R381; assumption 92). -/
def State.returns (s : State) (die k : Nat) (p : SeqPlace) : Bool :=
  match s.nodeOn die p.ctx p.desc.ret with
  | some (_, y) => y.kind == 2 && y.payload == p.handle k
  | none => false

/-- STAGE_INPUTS (R376, R377): the inputs are written, den receives its decrement, and the return node that was read
completes. -/
def execStageInputs (die place : Nat) (s : State) : Host.Outcome State Fault Refusal :=
  .next (match s.seqPlace die place with
    | none => s
    | some p =>
      if !p.stageDue then s
      else match s.putStageInputs die place p with
        | (some a, s) => s.modPlace die place (fun p => p.failAt a)
        | (none, s) =>
          match s.nodeOn die p.ctx p.desc.den with
          | some (n, x) =>
            if x.kind == 1 && x.usable && s.returns die place p then
              let s := (s.rearmDone die n).enginePost die p.ctx p.desc.den
              let s := s.modPlace die place (fun p => { p with waiting := true, retNode := none })
              match p.retNode with
              | some r => s.nodeDone die r
              | none => s
            else s.modPlace die place (fun p => { p with ending := some (4, 2, 0) })
          | none => s.modPlace die place (fun p => { p with ending := some (4, 2, 0) }))

/-- Reads the outputs of a stage into its buffers: the address that faults, if one does (R377). -/
def State.takeOutputs (s : State) (die : Nat) (p : SeqPlace) : Option Nat × State :=
  (p.active.zipIdx).foldl (fun (bad, s) (i, b) =>
    match bad with
    | some a => (some a, s)
    | none => match s.seqRead die p (p.desc.obase + b * p.desc.ystride) (4 * p.desc.n) with
      | (.error a, s) => (some a, s)
      | (.ok l, s) => s.seqWrite die p (p.desc.stageAt p.stage i) l) ((none : Option Nat), s)

/-- RETURN_NODE_DISPATCH (R376 to R379): the stage's outputs are read and the sequence goes on; a node whose sequence does not
wait for it completes at once. -/
def execReturnNodeDispatch (die node : Nat) (s : State) : Host.Outcome State Fault Refusal :=
  .next (
    let x := s.node die node
    if s.readyNode die node 2 && !(bit x.payload 32) then
      let s := s.startNode die node
      match (s.seqNamed die x.ctx (x.payload % 2 ^ 32)).filter (fun e => e.2.state == 1 && e.2.waiting) with
      | none => s.unitDone die node
      | some (k, p) =>
        let s := s.setNode die node { s.node die node with rearm := true }
        let s := s.modPlace die k (fun p => { p with waiting := false, retNode := some node })
        if p.abort then s
        else match s.takeOutputs die p with
          | (some a, s) => s.modPlace die k (fun p => p.failAt a)
          | (none, s) =>
            let s := s.modPlace die k (fun p => { p with
              samples := if p.stage == 0 then p.samples.mapIdx (fun i x => if p.active.contains i then { x with k0 := true } else x)
                         else p.samples })
            s.afterStage die k
    else s)

/-- The end that is due of a place: state, reason and faulting address. -/
def SeqPlace.due (p : SeqPlace) : Option (Nat × Nat × Nat) :=
  if p.state != 1 || p.waiting then none
  else match p.ending with
    | some e => some e
    | none => if p.abort then some (3, 0, 0) else none

/-- Ends a sequence (R381): the running samples, doneaddr, fin, and the nodes it holds. -/
def State.endSeq (s : State) (die k : Nat) (p : SeqPlace) (state reason addr : Nat) : State :=
  let code := if state == 3 then 5 else 6
  let s := s.modPlace die k (fun p => { p with
    state := state, reason := reason, waiting := false, ending := none, abort := false, startNode := none, retNode := none
    active := [], defined := p.defined && !p.freeAfter
    samples := p.samples.map (fun (x : Sample) => if x.status == 0 then { x with status := code } else x) })
  let q := (s.seqPlace die k).getD p
  let s := if p.desc.doneaddr == 0 then s else (s.seqWrite die p p.desc.doneaddr (leBytes 4 (p.handle k))).2
  let s := s.enginePost die p.ctx p.desc.fin
  let s := match p.retNode with | some n => s.nodeDone die n | none => s
  let s := match p.startNode with | some n => s.unitDone die n | none => s
  if state == 4 then (s.hostEvent 0x43 p.ctx die (p.handle k + q.word * 2 ^ 32) addr).oweFault p.ctx 0x43 else s

/-- SEQUENCE_END (R381): a sequence whose last write faults ends faulted. -/
def execSequenceEnd (die place : Nat) (s : State) : Host.Outcome State Fault Refusal :=
  .next (match s.seqPlace die place with
    | none => s
    | some p =>
      match p.due with
      | none => s
      | some (st, reason, addr) =>
        match if p.desc.doneaddr == 0 || st == 4 then none else (s.engineProbe die p.ctx .write p.desc.doneaddr 4).1 with
        | some (_, a) => s.endSeq die place p 4 1 a
        | none => s.endSeq die place p st reason addr)

/-- Abandons every running sequence of a context (R381). -/
def State.dropSeqs (s : State) (ctx : Nat) : State :=
  { s with dies := s.dies.map (fun (d, x) => (d, { x with sequencer := { x.sequencer with
      places := x.sequencer.places.map (fun (k, (p : SeqPlace)) =>
        (k, if p.ctx == ctx && p.state == 1 then
          { p with state := 4, reason := 3, waiting := false, ending := none, abort := false, startNode := none, retNode := none
                   active := [], samples := p.samples.map (fun (x : Sample) => if x.status == 0 then { x with status := 6 } else x) }
          else p)) } })) }

end Sys2Proof.Machine
end

