-- ==== Sys2Proof/Machine/Reissue.lean ====
section
/-! DEFINITION. What a fibre does again after trap mode: its faulted log entries are re-issued and its frozen stores go on
(R289, R392 to R394, R411). -/

namespace Sys2Proof.Machine

/-- The word of a log entry, as it issued. -/
def WordRef.act (w : WordRef) (r : FibRef) : Act := ⟨r, w.mask, w.group, w.pc, w.bits, w.gov⟩

/-- Lanes of some accesses. -/
def accLanes (l : List LaneAcc) : Mask := l.foldl (fun m x => m ||| oneLane x.lane) 0

/-- What a load or an atomic of the operand log does when it is issued again: a race that has trapped is not checked again
(R289). -/
def LogEntry.again (e : LogEntry) (r : FibRef) (s : State) : Out :=
  let w := e.word.act r
  let check (kind : Nat) (known : State) (go : State → Out) : Out :=
    if e.raced then (go s).noting r ((e.accs.filter (fun x => s.isChecked r (s.agent r.wg) x.addr.toNat e.size)).length, none)
    else afterCheck w s known (e.accs.map (fun x => (x.lane, x.addr.toNat, e.size, kind)))
      (fun lane va rcd =>
        let (s, t) := s.logFault w e.size e.accs e.work 0x18 0 lane va rcd
        .logged s t)
      (go s)
  match e.work with
  | .load d regs n sgn acq byp dst =>
    check 0 (s.knowing w (s.agent r.wg) n acq e.accs) fun s => loadChecked w s e.accs d regs n sgn acq byp (dst != 0) (if dst != 0 then dst else accLanes e.accs)
  | .atom d op x2 ord sc swaps =>
    check 2 (if ordAcquires ord then s.learn r (s.agent r.wg) e.size sc e.accs else s) fun s => atomChecked w s d op x2 ord sc e.accs (fun i => swaps.getD i 0)
  | .fetch phys desc =>
    match readTensor desc with
    | some t => fetchTensor w s phys desc t []
    | none => .done s
  | _ => .done s

/-- Issues one log entry again; a new fault is held in the log under the word's own number. -/
def State.reissueOne (s : State) (r : FibRef) (k : Nat) (e : LogEntry) : State × Option TrapInfo :=
  match s.fib r with
  | none => (s, none)
  | some f =>
    match e.work with
    | .store =>
      (s.setFib r { f with
        log := Map.set f.log k { e with faulted := none, probed := false }
        queue := f.queue.map (fun (x : StoreEntry) => if x.word.num == e.word.num then { x with unchecked := e.raced } else x) }, none)
    | .again =>
      (s.setFib r { f.putBack f e.word.group e.word.pc with
        log := Map.del f.log k
        gov := f.gov.mapIdx (fun i g => if e.word.group.getLsbD i then e.word.gov else g)
        redo := some (e.word.pc, e.word.mask, e.raced) }, none)
    | _ =>
      let n := f.issued
      let s := s.setFib r { f with log := Map.del f.log k, issued := e.word.num }
      let back (s : State) : State := s.modFib r (fun f => { f with issued := n })
      match e.again r s with
      | .done s => (back s, none)
      | .hold s _ _ _ => (back s, none)
      | .bad t => (back s, some t)
      | .logged s t => (back s, some t)
      | .redo s t => (back s, some t)
      | .older s t => (back s, some t)

/-- The faulted places of a fibre's log, oldest word first. -/
def Fibre.faultedLog (f : Fibre) : List (Nat × LogEntry) :=
  (f.log.filter (fun e => e.2.faulted.isSome)).foldl (fun acc e =>
    (acc.filter (fun x => x.2.word.num ≤ e.2.word.num)) ++ [e] ++ acc.filter (fun x => e.2.word.num < x.2.word.num)) []

/-- Whether a fibre out of trap mode has still to issue a log entry again. -/
def Fibre.owesReissue (f : Fibre) : Bool := f.trap.isNone && f.log.any (fun e => e.2.faulted.isSome)

/-- Whether a fibre's faulted entries can be issued again: the fetch of a `WLOAD` waits for its slot (R202, R203). -/
def State.reissueGoes (s : State) (r : FibRef) (f : Fibre) : Bool :=
  f.owesReissue && f.faultedLog.all (fun (_, e) =>
    match e.work with
    | .fetch phys desc => ((readTensor desc).bind (fun t => s.fetchWait r phys t)).isNone
    | _ => true)

/-- Issues every remaining faulted log entry of a fibre again, in program order; the oldest new fault is an ordinary trap
(R411). -/
def State.reissue (s : State) (r : FibRef) : State :=
  match s.fib r with
  | none => s
  | some f =>
    if !(s.reissueGoes r f) then s
    else
      let (s, t) := f.faultedLog.foldl (fun (s, t) (k, e) =>
        let (s, new) := s.reissueOne r k e
        (s, match t with
          | some t => some t
          | none => new)) (s, (none : Option TrapInfo))
      match t with
      | some t => s.takeTrap r t
      | none => s

end Sys2Proof.Machine
end

