-- ==== Sys2Proof/Machine/System.lean ====
section
/-! DEFINITION. Class 0xD: traps, their return, special registers, pre-emption checks, energy, invalidations and the operand
log (R386, R409 to R411). `WGSAVE` is in Saving.lean. -/

namespace Sys2Proof.Machine

/-! ### TRAP and RTT (R410, R411) -/

/-- TRAP (R386, R410): it resumes after the word. -/
def execTrap (h : Hdr) (code : BitVec 16) (kill : Bool) (s : State) : Host.Outcome State Fault Refusal :=
  onceWord h [] [] s fun a s =>
    .logged s { a.trap 0x20 0 a.low 0 code.toNat with after := true, resume := a.pc + 12, kill := kill }

/-- Whether a trap's word is held in the operand log or in the store queue (R393, R394). -/
def heldTrap (t : TrapInfo) : Bool := t.cause == 0x08 && t.after || t.cause == 0x18

/-- The number of the word that a held trap names: the oldest faulted entry (R393). -/
def Fibre.faultNum (f : Fibre) : Option Nat :=
  let raced := (f.queue.filter (fun (e : StoreEntry) => e.frozen && e.unchecked && e.log.isNone)).map (fun e => e.word.num)
  ((f.faultedLog.map (fun e => e.2.word.num)) ++ raced).min?

/-- Discards a word's log entries and frozen store entries (R411). -/
def Fibre.dropWord (f : Fibre) (n : Option Nat) : Fibre :=
  { f with log := f.log.filter (fun (e : Nat × LogEntry) => some e.2.word.num != n)
           queue := f.queue.filter (fun (e : StoreEntry) => !(e.frozen && some e.word.num == n)) }

/-- The governance of a thread past one more word. -/
def Gov.pass (g : Gov) : Gov := { g with left := g.left - 1 }

/-- Trap mode left by `RTT` (R390, R396, R411): the threads of the handler go on where the trap took them, and the other
paths are as they were. -/
def Fibre.returned (f : Fibre) (t : TrapFrame) (skip : Bool) : Fibre :=
  let f := if skip && heldTrap t.info then f.dropWord f.faultNum else f
  let pass := skip && !t.info.after
  let pc (i p : Nat) : Nat :=
    if t.lanes.getLsbD i then (if pass then (t.info.pc + 12) % 2 ^ 64 else t.back.toList.getD i p) else p
  let gov (i : Nat) (g : Gov) : Gov :=
    if t.lanes.getLsbD i then (if pass then Gov.pass (t.gov.toList.getD i g) else t.gov.toList.getD i g) else g
  let waits := (t.waits.map (fun (w : Wait) => { w with lanes := w.lanes &&& f.live })).filter (fun w => w.lanes != 0)
  { f.clearLatches.thaw with
    awaits := f.awaits.filter (fun e => e.1 < 256), trap := none, waits := waits, pcs := f.pcs.mapIdx pc, gov := f.gov.mapIdx gov }

/-- The return from trap mode (R411): what was held is then issued again. -/
def State.leaveTrap (s : State) (r : FibRef) (skip : Bool) : State :=
  match s.fib r with
  | none => s
  | some f =>
    match f.trap with
    | none => s
    | some t => (s.setFib r (f.returned t skip)).reissue r

/-- Both forms of RTT: the handler's stores leave first, with those that its tile stores still owe (R394, R411). -/
def rttWord (h : Hdr) (skip : Bool) (s : State) : Host.Outcome State Fault Refusal :=
  unlessIllegal h 9 (fun r => !(s.inTrap r)) s
    (onceWord h [] [] s fun a s =>
      afterStores a s fun s => .done (s.leaveTrap a.ref skip))

/-- RTT (R411). -/
def execRtt (h : Hdr) (s : State) : Host.Outcome State Fault Refusal := rttWord h false s
/-- RTT.skip (R411). -/
def execRttSkip (h : Hdr) (s : State) : Host.Outcome State Fault Refusal := rttWord h true s

/-! ### SETS, YCHK, ECNT (R410) -/

/-- Writes one of the special registers that SETS names (R66, R83, R85, R225). -/
def Fibre.setSpecial (f : Fibre) (n : Nat) (v : Word) : Fibre :=
  match n with
  | 0x02 => { f with undefRead := f.undefRead && !(v.getLsbD 31) }
  | 0x09 => { f with fpf := v.setWidth 6 }
  | 0x0A => { f with fp4x := v.setWidth 8 }
  | 0x10 => { f with spmask := f.spmask &&& ~~~v }
  | _ => f

/-- SETS (R410): a write of s.fpf waits for the array (R83). -/
def execSets (h : Hdr) (sr : BitVec 8) (a : Src) (s : State) : Host.Outcome State Fault Refusal :=
  onceWord h [(a, 1)] [] s fun w s =>
    let v : Word := BitVec.ofNat 32 (s.low32 w a)
    let put (s : State) : Out := .done (s.modFib w.ref (fun f => f.setSpecial sr.toNat v))
    if sr == 0x09 then afterOwn w s put else put s

/-- What YCHK reads (R410): a running deadline's remaining time is rounded up (assumption 15). -/
def Context.ychk (c : Context) (tick : Nat) : Nat :=
  bit01 c.request + (match c.expires with
    | some t => 2 + min ((t - tick + 255) / 256) 0xFFFFFF * 2 ^ 8
    | none => 0)

/-- YCHK (R410). -/
def execYchk (h : Hdr) (d : BitVec 8) (s : State) : Host.Outcome State Fault Refusal :=
  onceWord h [] [d.toNat] s fun w s => .done (s.putAll w d.toNat ((s.ctx (s.ctxOf w.ref.wg)).ychk s.tick))

/-- The energy counter as the context entry holds it (R406, R407). -/
def Context.energyWord (c : Context) : Nat := c.energy / 1000000 % 2 ^ 48 + bit01 c.esat * 2 ^ 63

/-- ECNT (R407, R410). -/
def execEcnt (h : Hdr) (d : BitVec 8) (s : State) : Host.Outcome State Fault Refusal :=
  onceWord h [] [d.toNat, d.toNat + 1] s fun w s =>
    if (s.launchOf w.ref.wg).determ then .bad w.nondet
    else .done (s.putPair w.ref d.toNat w.lanes (fun _ => BitVec.ofNat 64 ((s.ctx (s.ctxOf w.ref.wg)).energyWord)))

/-! ### TLBINV, ASIDNEW, HARVEST (R216, R218, R221, R222, R410) -/

/-- The TLBs of the package: of its clusters, and of the engines of each die. -/
def allTlbs : List Nat := List.range 168

/-- Drops translations everywhere: TLB entries and walk-cache entries that tests name, and the L1 lines that a third does,
after their write-outs and write-backs. -/
def State.invalidate (s : State) (p : TlbEntry → Bool) (q : WalkEntry → Bool) (l : L1Line → Bool) : State :=
  let s := s.cores.foldl (fun s (k, _) => s.flushL1 k l) s
  s.tlbs.foldl (fun s (k, _) =>
    (s.dropEntries k p).modTlb k (fun b => { b with walks := b.walks.filter (fun w => !(q w)) })) s

/-- Whether the issuing context is a system context (R409). -/
def State.isSystem (s : State) (r : FibRef) : Bool := (s.ctx (s.ctxOf r.wg)).system

/-- Whether a walk-cache entry's prefix covers an address. -/
def WalkEntry.covers (w : WalkEntry) (va : Nat) : Bool := w.prefx == va % 2 ^ 57 / 2 ^ levelShift (w.level + 1)

/-- TLBINV.page (R218, R410): the L1 gives up every line of the ASID and generation (assumption 16). -/
def execTlbinvPage (h : Hdr) (a b : Src) (s : State) : Host.Outcome State Fault Refusal :=
  unlessIllegal h 8 (fun r => !(s.isSystem r)) s
    (onceWord h [(a, 2), (b, 1)] [] s fun w s =>
      let v := s.low32 w b
      let va := s.lowAddr w a 0
      let asid := bits v 0 16
      let gen := bits v 16 4
      if v / 2 ^ 20 != 0 then .bad (w.operand w.low 9)
      else .done (s.invalidate (fun t => t.hits asid gen va) (fun x => x.asid == asid && x.gen == gen && x.covers va)
        (fun x => x.asid == asid && x.gen == gen)))

/-- TLBINV.asid (R410). -/
def execTlbinvAsid (h : Hdr) (b : Src) (s : State) : Host.Outcome State Fault Refusal :=
  unlessIllegal h 8 (fun r => !(s.isSystem r)) s
    (onceWord h [(b, 1)] [] s fun w s =>
      let v := s.low32 w b
      let asid := bits v 0 16
      let gen := bits v 16 4
      if v / 2 ^ 20 != 0 then .bad (w.operand w.low 9)
      else .done (s.invalidate (fun t => t.asid == asid && t.gen == gen) (fun x => x.asid == asid && x.gen == gen)
        (fun x => x.asid == asid && x.gen == gen)))

/-- The ASIDs of the contexts that the driver has named. -/
def State.asids (s : State) : List Nat :=
  ((s.ctxs.filter (fun e => e.2.entry != 0)).map (fun e => bits (s.physNum e.2.entry 4) 0 16)).eraseDups

/-- TLBINV.all (R216, R410). -/
def execTlbinvAll (h : Hdr) (s : State) : Host.Outcome State Fault Refusal :=
  unlessIllegal h 8 (fun r => !(s.isSystem r)) s
    (onceWord h [] [] s fun _ s =>
      .done { s.invalidate (fun _ => true) (fun _ => true) (fun _ => true) with flushed := s.asids })

/-- Whether a context is resident: the device holds its entry's fields on chip (R406). -/
def Context.resident (c : Context) : Bool :=
  match c.st with
  | .running => true
  | .draining => true
  | _ => false

/-- ASIDNEW (R216, R410). -/
def execAsidnew (h : Hdr) (d : BitVec 8) (a : Src) (s : State) : Host.Outcome State Fault Refusal :=
  unlessIllegal h 8 (fun r => !(s.isSystem r)) s
    (onceWord h [(a, 1)] [d.toNat] s fun w s =>
      let k := s.low32 w a
      let c := s.ctx k
      let e := s.physNum c.entry 4
      if 64 ≤ k || c.entry == 0 || !(bit e 20) then .bad (w.operand w.low 9)
      else if c.resident then .done (s.putAll w d.toNat 0x80000002)
      else
        let asid := bits e 0 16
        let gen := bits e 16 4
        if gen == 15 && !(s.flushed.contains asid) then .done (s.putAll w d.toNat 0x80000001)
        else
          let gen := (gen + 1) % 16
          let s := s.physWrite (c.entry + 2) (leBytes 1 (bits e 16 8 / 16 * 16 + gen))
          let s := s.modCtx k (fun c => { c with gen := gen })
          let s := if gen == 15 then { s with flushed := s.flushed.filter (· != asid) } else s
          .done (s.putAll w d.toNat (asid + gen * 2 ^ 16)))

/-- Writes out what the TLB entries of a test have gathered (R221, R222). -/
def State.harvest (s : State) (p : TlbEntry → Bool) : State := s.tlbs.foldl (fun s (k, _) => s.harvestEntries k p) s

/-- HARVEST (R221, R410): every context's with `.all`, which only a system context may use. -/
def execHarvest (h : Hdr) (all : Bool) (s : State) : Host.Outcome State Fault Refusal :=
  unlessIllegal h 8 (fun r => all && !(s.isSystem r)) s
    (onceWord h [] [] s fun w s =>
      let c := s.ctx (s.ctxOf w.ref.wg)
      .done (s.harvest (fun t => all || (t.asid == c.asid && t.gen == c.gen))))

/-! ### LOGRD (R393, R410) -/

/-- What an atomic of the log holds beside the bytes of a lane: the new value of a `.cas`. -/
def LogWork.extra (x : LogWork) (n i : Nat) : List Byte :=
  match x with
  | .atom _ .cas _ _ _ swaps => leBytes n (swaps.getD i 0)
  | _ => []

/-- Whether a log entry is a store's. -/
def LogWork.isStore (x : LogWork) : Bool :=
  match x with
  | .store => true
  | _ => false

/-- Word `w` of a log entry, for a lane (R410). -/
def LogEntry.read (e : LogEntry) (w i : Nat) : Nat :=
  let acc := e.accs.find? (fun (x : LaneAcc) => x.lane == i)
  let addr := (acc.map (fun x => x.addr.toNat)).getD 0
  let data := ((acc.map (fun x => x.bytes)).getD []) ++ e.work.extra e.size i
  match w with
  | 0 => 1 + bit01 e.faulted.isSome * 2 + bit01 e.work.isStore * 4 + sizeCode e.size * 2 ^ 8 + e.faulted.getD 0 * 2 ^ 16
  | 1 => e.word.pc % 2 ^ 32
  | 2 => e.word.pc / 2 ^ 32
  | 3 => addr % 2 ^ 32
  | 4 => addr / 2 ^ 32
  | 9 => e.word.mask.toNat
  | k => leNat ((data.drop (4 * (k - 5))).take 4)

/-- LOGRD.ent (R410). -/
def execLogrdEnt (h : Hdr) (d : BitVec 8) (e : BitVec 3) (w : BitVec 4) (s : State) : Host.Outcome State Fault Refusal :=
  unlessIllegal h 9 (fun r => !(s.inTrap r)) s
    (onceWord h [] [d.toNat] s fun a s =>
      let x := (s.fib a.ref).bind (fun f => Map.find f.log e.toNat)
      .done (s.writeReg a.ref d.toNat a.lanes (lanes (fun i => BitVec.ofNat 32 ((x.map (fun y => y.read w.toNat i)).getD 0)))))

/-- The state with a fibre's handler registers set aside, so that the interrupted fibre's names are reached (R48, R410). -/
def State.setAside (s : State) (r : FibRef) : State := s.modFib r (fun f => { f with trap := none })

/-- Puts the trap frame of another state back. -/
def State.putFrame (s : State) (r : FibRef) (old : State) : State :=
  s.modFib r (fun f => { f with trap := (old.fib r).bind (·.trap) })

/-- LOGRD.g (R410). -/
def execLogrdG (h : Hdr) (d : BitVec 8) (n : BitVec 4) (s : State) : Host.Outcome State Fault Refusal :=
  unlessIllegal h 9 (fun r => !(s.inTrap r)) s
    (onceWord h [] [d.toNat] s fun a s =>
      let v := (s.setAside a.ref).reg a.ref n.toNat
      let s := (((s.setAside a.ref).noteReads a.ref [n.toNat])).putFrame a.ref s
      .done (s.writeReg a.ref d.toNat a.lanes v))

/-- LOGRD.put (R410). -/
def execLogrdPut (h : Hdr) (x : Src) (n : BitVec 4) (s : State) : Host.Outcome State Fault Refusal :=
  unlessIllegal h 9 (fun r => !(s.inTrap r)) s
    (runWord h false (srcNames x 1) (srcLast x 1) 6 s fun a s =>
      match s.wordFault a [x] a.lanes [], (s.setAside a.ref).writeFault a.ref [n.toNat] with
      | some t, _ => .bad t
      | none, some e => .bad (a.operand a.low e)
      | none, none =>
        .done (((s.setAside a.ref).writeReg a.ref n.toNat a.lanes (lanes (s.srcLane a.ref x))).putFrame a.ref s))

end Sys2Proof.Machine
end

