-- ==== Sys2Proof/Machine/Contexts.lean ====
section
/-! DEFINITION. Contexts: their states, pre-emption, deadlines, resets and faults (R240, R387, R399, R400, R406, R407,
R426). -/

namespace Sys2Proof.Machine

/-! ### The context entry (R406) -/

/-- A ring descriptor as a context entry holds it. -/
def ringOf (desc base head : Nat) : Ring := ⟨base - base % 4096, bits base 0 5, head, desc⟩

/-- A context as its entry defines it. -/
def Context.load (c : Context) (s : State) : Context :=
  let n (o k : Nat) : Nat := s.physNum (c.entry + o) k
  { c with
    asid := bits (n 0 4) 0 16, gen := bits (n 0 4) 16 4, valid := bit (n 0 4) 20, system := bit (n 0 4) 21
    deadline := n 4 4, root := n 8 8
    rings := Vector.ofFn (fun (r : Fin 5) =>
      ringOf (c.entry + 0x10 + 16 * r.val) (n (0x10 + 16 * r.val) 8) (n (0x18 + 16 * r.val) 4))
    emul := n 0x60 8, energy := bits (n 0x70 8) 0 48 * 1000000 + c.energy % 1000000, esat := bit (n 0x70 8) 63
    unchecked := n 0x78 8, racedrop := n 0x80 4, accdrop := n 0x84 4, stray := n 0x88 4 }

/-- Writes back what the device holds of a context (R406): its generation, ring heads and counters. It holds the entry's address no longer:
what its register has named meanwhile counts from now on (R426). -/
def State.writeBackCtx (s : State) (k : Nat) : State :=
  let c := s.ctx k
  if c.entry == 0 then s
  else
    let old := s.physNum (c.entry + 2) 1
    let s := s.physWrite (c.entry + 2) (leBytes 1 (old / 16 * 16 + c.gen % 16))
    let s := (c.rings.toList.foldl (fun (s, i) x => (s.physWrite (c.entry + 0x18 + 16 * i) (leBytes 4 x.head), i + 1)) (s, 0)).1
    let s := s.physWrite (c.entry + 0x70)
      (leBytes 8 c.energyWord ++ leBytes 8 c.unchecked ++ leBytes 4 c.racedrop ++ leBytes 4 c.accdrop ++ leBytes 4 c.stray)
    s.modCtx k (fun c => { c with entry := Memory.num s.w0 (0x10000 + 64 * k) 8 })

/-- RUN (R399, R406, R426): the entry is read and an idle context becomes running; an entry that defines no context is not
run. -/
def execRun (ctx : Nat) (s : State) : Host.Outcome State Fault Refusal :=
  .next (
    let c := (s.ctx ctx).load s
    if decide ((s.ctx ctx).st = .idle) && (s.ctx ctx).entry != 0 && c.valid then
      s.modCtx ctx (fun _ => { c with st := .running, request := false, expires := none })
    else s)

/-! ### Pre-emption (R399, R400) -/

/-- PREEMPT (R399, R426): a running context drains; a deadline of 0 never expires. -/
def execPreempt (ctx : Nat) (s : State) : Host.Outcome State Fault Refusal :=
  .next (if s.ctxRuns ctx then
      s.modCtx ctx (fun c => { c with
        st := .draining, request := true, expires := if c.deadline == 0 then none else some (s.tick + 256 * c.deadline) })
    else s)

/-- The resident work-groups of a context. -/
def State.wgsOf (s : State) (ctx : Nat) : List Nat := (s.wgs.filter (fun e => (s.launch e.2.launch).ctx == ctx)).map (·.1)

/-- Whether a draining context has no resident work-group left. -/
def State.drained (s : State) (ctx : Nat) : Bool := decide ((s.ctx ctx).st = .draining) && (s.wgsOf ctx).isEmpty

/-- PREEMPTED (R399, R406, R461): the entry is written back and a record goes to the host ring. -/
def execPreempted (ctx : Nat) (s : State) : Host.Outcome State Fault Refusal :=
  .next (if s.drained ctx then
      let s := (s.writeBackCtx ctx).modCtx ctx (fun c => { c with st := .preempted, request := false, expires := none })
      s.hostEvent 0x44 ctx 0 0 (s.ctx ctx).energyWord
    else s)

/-- Whether a context's deadline has passed. -/
def State.deadlinePast (s : State) (ctx : Nat) : Bool :=
  decide ((s.ctx ctx).st = .draining) && ((s.ctx ctx).expires.map (fun t => decide (t ≤ s.tick))).getD false

/-- The forced reset of one work-group and its extent (R387, R400): relaunched at resume where its launch is idempotent. -/
def State.forceReset (s : State) (g : Nat) : State :=
  match Map.find s.wgs g with
  | none => s
  | some w =>
    let l := s.launch w.launch
    if w.killed.isSome || (s.reservedFor w.core).isSome then s
    else if l.idempotent then
      let ext := ((s.killExtent g).filterMap (Map.find s.wgs)).filter (fun x => x.killed.isNone)
      let s := s.modCtx l.ctx (fun c => { c with
        again := c.again ++ ext.map (fun (x : WorkGroup) => ⟨x.launch, x.num, x.cluster, x.pos, x.attempt + 1, x.forced + 1⟩) })
      (s.killExtent g).foldl (fun s k => s.killOne 1 k) (s.killSaved g 1 1)
    else (s.modLaunch w.launch (fun l => { l with status := if l.status == 0 then 6 else l.status })).killWg g 2

/-- DEADLINE_EXPIRY (R399, R400): the resident work-groups of the context are reset, those on reserved cores excepted. -/
def execDeadlineExpiry (ctx : Nat) (s : State) : Host.Outcome State Fault Refusal :=
  .next (if s.deadlinePast ctx then
      ((s.wgsOf ctx).foldl (fun s g => s.forceReset g) s).modCtx ctx (fun c => { c with expires := none })
    else s)

/-- RESUME (R399, R406, R426): the entry is read and a pre-empted context runs again; what it saved is admitted first. -/
def execResume (ctx : Nat) (s : State) : Host.Outcome State Fault Refusal :=
  .next (
    let c := (s.ctx ctx).load s
    if decide ((s.ctx ctx).st = .preempted) && c.valid then s.modCtx ctx (fun _ => { c with st := .running }) else s)

/-! ### Resets and faults (R399) -/

/-- Ends a work-group without relaunch: it is killed and leaves its core (R344, R387). -/
def State.dropWg (s : State) (g : Nat) : State :=
  ((s.killOne 2 g).modWg g (fun w => { w with killed := some 2 })).endWg g

/-- Ends a launch before its work is done (R399, R403, R404): its work-groups are killed without relaunch, what it has not
started does not run, and it completes with a status; those that were saved are killed as well, with their exit records. -/
def State.abortLaunch (s : State) (id status : Nat) : State :=
  match Map.find s.launches id with
  | none => s
  | some l =>
    let s := ((s.wgs.filter (fun e => e.2.launch == id)).map (·.1)).foldl (fun s g => s.dropWg g) s
    let s := s.modLaunch id (fun l => { l with unplaced := [] })
    let s := (s.waitingOf id).foldl (fun s (d, k) => s.takeEntry d k) s
    let s := ((s.ctx l.ctx).saved.filter (fun x => x.launch == id)).foldl (fun s x =>
      (s.exitSaved 2 x).modLaunch id (fun l => { l with spwgs := l.spwgs + bit01 (x.exit != 0) })) s
    let s := s.modCtx l.ctx (fun c => { c with
      again := c.again.filter (fun x => x.launch != id), saved := c.saved.filter (fun x => x.launch != id) })
    let s := l.order.foldl (fun s (q, _) => (Map.getD (s.launch id).held q []).foldl (fun s r => s.ringAppend l.ctx 1 r) s) s
    if l.lane then { s with launches := Map.del s.launches id }
    else (s.modLaunch id (fun l => { l with status := status, unplaced := [] })).closeLaunch id

/-- Refuses the launches of a context that still wait in a die's launch queue. -/
def State.dropRequests (s : State) (ctx status : Nat) : State :=
  (List.range Config.dies).foldl (fun s d =>
    let mine := (s.die d).sched.queue.filter (fun (r : LaunchReq) => r.ctx == ctx)
    if mine.isEmpty then s
    else mine.foldl (fun s r =>
      let (l, s) := s.readLaunch d r
      s.endLaunch { l with status := status })
      (s.modSched d (fun c => { c with queue := c.queue.filter (fun (r : LaunchReq) => r.ctx != ctx) }))) s

/-- The lane tasks of a context that wait in a seedbed, with their dies. -/
def State.tasksOf (s : State) (ctx : Nat) : List (Nat × Nat) :=
  s.dies.flatMap (fun (d, x) => x.sched.seedbed.filterMap (fun (e : Entry) =>
    match e.work with
    | .task t => if t.ctx == ctx then some (d, e.num) else none
    | _ => none))

/-- Abandons the cards of a context (R304). -/
def Core.abandonCtx (c : Core) (ctx : Nat) : Core := { c with cards := c.cards.filter (fun (x : Card) => x.kick.ctx != ctx) }

/-- Releases the pins of a context (R240). -/
def State.unpinAll (s : State) (ctx : Nat) : State :=
  { s with pins := (s.pins.map (fun (l, m) => (l, Map.del m ctx))).filter (fun e => !e.2.isEmpty) }

/-- Runs each die's seedbed as one queue, in the recovery after a context reset (R336; assumption 14). -/
def State.runSingle (s : State) : State :=
  let go (x : Die) : Die := { x with sched := { x.sched with single := true } }
  { s with dies := s.dies.map (fun (d, x) => (d, go x)) }

/-- Whether the device holds fields of a context's entry that it has still to write back: an idle or faulted context has none (R406). -/
def Context.held (c : Context) : Bool :=
  match c.st with
  | .idle => false
  | .faulted => false
  | _ => true

/-- Everything of a context ends (R399): `status` is what its launches complete with. -/
def State.clearCtx (s : State) (ctx status : Nat) : State :=
  let s := { s with cores := s.cores.map (fun (k, c) => (k, Core.abandonCtx c ctx)) }
  let s := (s.dropColls ctx).dropSeqs ctx
  let s := ((s.launches.filter (fun e => e.2.ctx == ctx)).map (·.1)).foldl (fun s id => s.abortLaunch id status) s
  let s := s.dropRequests ctx status
  let s := (s.tasksOf ctx).foldl (fun s (d, k) => s.takeEntry d k) s
  let t := (s.unpinAll ctx).runSingle.modCtx ctx (fun c => { c with saved := [], again := [], request := false, expires := none })
  if (s.ctx ctx).held then t.writeBackCtx ctx else t

/-- RESET (R399, R426): any context becomes idle. -/
def execReset (ctx : Nat) (s : State) : Host.Outcome State Fault Refusal :=
  .next ((s.clearCtx ctx 6).modCtx ctx (fun c => { c with st := .idle }))

/-- CONTEXT_FAULT (R386, R399, R461): `kind` is the cause or kind of the record that states the fault. A context that has
gone meanwhile does not fault. -/
def execContextFault (ctx kind : Nat) (s : State) : Host.Outcome State Fault Refusal :=
  .next (match (s.ctx ctx).st with
    | .idle => s
    | .faulted => s
    | _ => ((s.clearCtx ctx 5).modCtx ctx (fun c => { c with st := .faulted })).hostEvent 0x45 ctx 0 kind 0)

end Sys2Proof.Machine
end

