-- ==== Sys2Proof/Machine/Control.lean ====
section
/-! DEFINITION. Class 0x0: branches, ends of threads, governance, barriers and register windows (R94 to R115). -/

namespace Sys2Proof.Machine

/-! ### Branches (R110) -/

/-- Moves some threads to addresses. -/
def State.jump (s : State) (r : FibRef) (m : Mask) (target : Nat → Nat) : State :=
  s.modFib r (fun f => { f with pcs := f.pcs.mapIdx (fun i p => if m.getLsbD i then target i % 2 ^ 64 else p) })

/-- The target of a PC-relative word. -/
def relTarget (pc : Nat) (off : BitVec 32) : Nat := wrap64 ((pc : Int) + 12 + sext off.toNat 32)

/-- A transfer is a switch point where its target is at or before its own address (R96). -/
def backward (off : BitVec 32) : Bool := decide (sext off.toNat 32 + 12 ≤ 0)

/-- NOP (R40): its hints apart, nothing. -/
def execNop (h : Hdr) (s : State) : Host.Outcome State Fault Refusal := runWord h true [] [] 6 s fun _ s => .done s

/-- BRA (R96, R110). -/
def execBra (h : Hdr) (off : BitVec 32) (s : State) : Host.Outcome State Fault Refusal :=
  runWord (if backward off then (atPoint h) else h) true [] [] 6 s fun a s =>
    .done (s.jump a.ref a.lanes (fun _ => relTarget a.pc off))

/-- A transfer to a pair's value in each lane (R110). -/
def State.jumpTo (s : State) (a : Act) (u : Bool) (x : Src) : State :=
  let target (i : Nat) : Nat := (s.pairLane a.ref x (if u then a.low else i)).toNat
  s.jump a.ref a.lanes target

/-- BRX (R96, R110). -/
def execBrx (h : Hdr) (u : Bool) (x : Src) (s : State) : Host.Outcome State Fault Refusal :=
  runWord (atPoint h) true (srcNames x 2) (srcLast x 2) 6 s fun a s => .done (s.jumpTo a u x)

/-- CALL (R96, R110). -/
def execCall (h : Hdr) (d : BitVec 8) (off : BitVec 32) (s : State) : Host.Outcome State Fault Refusal :=
  runWord (if backward off then (atPoint h) else h) true [] [] 6 s fun a s =>
    match s.wordFault a [] 0 [d.toNat, d.toNat + 1] with
    | some t => .bad t
    | none =>
      let s := s.putPair a.ref d.toNat a.lanes (fun _ => BitVec.ofNat 64 (a.pc + 12))
      .done (s.jump a.ref a.lanes (fun _ => relTarget a.pc off))

/-- CALLX (R96, R110): the target is read before the link is written. -/
def execCallx (h : Hdr) (u : Bool) (d : BitVec 8) (x : Src) (s : State) : Host.Outcome State Fault Refusal :=
  runWord (atPoint h) true (srcNames x 2) (srcLast x 2) 6 s fun a s =>
    match s.wordFault a [] 0 [d.toNat, d.toNat + 1] with
    | some t => .bad t
    | none =>
      let target (i : Nat) : Nat := (s.pairLane a.ref x (if u then a.low else i)).toNat
      let s := s.putPair a.ref d.toNat a.lanes (fun _ => BitVec.ofNat 64 (a.pc + 12))
      .done (s.jump a.ref a.lanes target)

/-- RET (R96, R110). -/
def execRet (h : Hdr) (x : Src) (s : State) : Host.Outcome State Fault Refusal :=
  runWord (atPoint h) true (srcNames x 2) (srcLast x 2) 6 s fun a s => .done (s.jumpTo a false x)

/-! ### Ends and switches (R111, R112) -/

/-- EXIT (R96, R105, R111, R392): outside trap mode the queued stores leave first. -/
def execExit (h : Hdr) (s : State) : Host.Outcome State Fault Refusal :=
  runWord (atPoint h) true [] [] 6 s fun a s =>
    if s.inTrap a.ref then .done (((s.exitLanes a.ref a.lanes).arriveRest a.ref).reissue a.ref)
    else afterStores a s fun s => .done ((s.exitLanes a.ref a.lanes).arriveRest a.ref)

/-- SWP (R112). -/
def execSwp (h : Hdr) (n : BitVec 2) (s : State) : Host.Outcome State Fault Refusal :=
  runWord h true [] [] 6 s fun a s =>
    .done (s.modFib a.ref (fun f => { f with
      gov := f.gov.mapIdx (fun i g => if a.lanes.getLsbD i then ⟨n.toNat, n.toNat, a.pc⟩ else g) }))

/-- FYIELD (R94, R96, R112): the slot switches whatever the guard leaves active. -/
def execFyield (h : Hdr) (s : State) : Host.Outcome State Fault Refusal :=
  let s := match s.cur with
    | some c => if h = Hdr.never then s else s.yieldSlot c.ref
    | none => s
  runWord (atPoint h) true [] [] 6 s fun _ s => .done s

/-! ### Barriers (R103 to R107, R113) -/

/-- The fibres that take part in a barrier (R103), living or not. -/
def State.participants (s : State) (k : BarKey) (mask : Nat) : List FibRef :=
  match k with
  | .fib g slot _ =>
    match Map.find s.wgs g with
    | none => []
    | some w => w.fibres.filterMap (fun (n, f) =>
        if f.lslot == slot && (mask == 0 || bit mask f.pos) then some ⟨g, n⟩ else none)
  | .wgp g _ => ((Map.find s.wgs g).map (fun w => w.fibres.map (fun (n, _) => (⟨g, n⟩ : FibRef)))).getD []
  | .clus l c _ => s.wgs.flatMap (fun (g, w) =>
      if w.launch == l && w.cluster == c then w.fibres.map (fun (n, _) => (⟨g, n⟩ : FibRef)) else [])
  | .grid l => s.wgs.flatMap (fun (g, w) => if w.launch == l then w.fibres.map (fun (n, _) => (⟨g, n⟩ : FibRef)) else [])

/-- Whether a saved work-group takes part in a barrier (R103, R401): its threads live on. -/
def State.savedPart (s : State) (k : BarKey) : Bool :=
  let any (id : Nat) (p : SavedWg → Bool) : Bool := (s.ctx (s.launch id).ctx).saved.any (fun x => x.launch == id && p x)
  match k with
  | .clus id c _ => any id (fun x => x.cluster == c)
  | .grid id => any id (fun _ => true)
  | _ => false

/-- Whether the collecting phase is complete (R104): every live thread of every participant has executed it. -/
def State.phaseComplete (s : State) (k : BarKey) : Bool :=
  let b := s.barrier k
  !b.arrived.isEmpty && !(s.savedPart k) && (s.participants k (b.mask.getD 0)).all (fun r =>
    match s.fib r with
    | some f => f.live &&& ~~~(b.arrivedOf r) == 0
    | none => true)

/-- A thread's own phases at a barrier: those it waits in, by phase. -/
def Fibre.passedOf (f : Fibre) (k : BarKey) : List (Nat × Mask) :=
  f.passed.filterMap (fun e => if e.1 == k then some e.2 else none)

/-- The generations a fibre takes when it acquires a completion (R278). -/
def State.takeGens (s : State) (r : FibRef) (k : BarKey) : State :=
  match Map.find s.wgs r.wg with
  | none => s
  | some w =>
    let l := s.launch w.launch
    match k with
    | .clus _ _ _ => s.modFib r (fun f => { f with cgen := Map.getD l.cgens w.cluster 0 })
    | .grid _ => s.modFib r (fun f => { f with cgen := Map.getD l.cgens w.cluster 0, ggen := l.ggen })
    | _ => s

/-- A barrier word of key `k` (R104 to R106, R113). Threads that waited in a phase that has completed pass; threads that
have executed the collecting phase wait for its end; the others arrive, and wait unless `arv`. -/
def barrierWord (h : Hdr) (arv : Bool) (key : State → FibRef → BarKey) (mask : Option Nat) (s : State) :
    Host.Outcome State Fault Refusal :=
  runWord (atPoint h) true [] [] 6 s fun a s =>
    match s.fib a.ref with
    | none => .done s
    | some f =>
      let k := key s a.ref
      let b := s.barrier k
      let done := ((f.passedOf k).filter (fun e => e.1 < b.phase)).foldl (fun m e => m ||| e.2) (0 : Mask)
      let pass := a.lanes &&& done
      let again := a.lanes &&& b.arrivedOf a.ref &&& ~~~pass
      let fresh := a.lanes &&& ~~~pass &&& ~~~again
      if f.trap.isSome then .bad (a.operand a.low 9)
      else if pass != 0 then
        let s := s.takeGens a.ref k
        let s := s.modFib a.ref (fun f => { f.putBack f (a.lanes &&& ~~~pass) a.pc with
          passed := (f.passed.map (fun e => if e.1 == k && e.2.1 < b.phase then (e.1, e.2.1, e.2.2 &&& ~~~pass) else e)).filter
            (fun e => e.2.2 != 0) })
        .done (s.cacheAcquire (s.agent a.ref.wg) (barrierScope k))
      else if again != 0 then
        .hold (s.modFib a.ref (fun f => f.putBack f fresh a.pc)) again (.barrier k b.phase) true
      else if (mask.map (fun m => (m != 0 && !(bit m f.pos)) || (b.mask.isSome && b.mask != some m))).getD false then
        .bad (a.operand a.low 4)
      else
        afterStores a s fun s =>
        let b := { b with
          arrived := b.arrived ++ [(a.ref, fresh)]
          mask := if mask.isSome then mask else b.mask
          waiting := if arv || b.waiting.contains a.ref then b.waiting else b.waiting ++ [a.ref] }
        let s := if f.live &&& ~~~(b.arrivedOf a.ref) == 0 then s.arrive k b a.ref else s.setBarrier k b
        if arv then .done s
        else .hold (s.modFib a.ref (fun f => { f with passed := f.passed ++ [(k, b.phase, fresh)] })) fresh
          (.barrier k b.phase) true

/-- FBAR (R103, R106). -/
def execFbar (h : Hdr) (id : BitVec 2) (arv : Bool) (mask : BitVec 4) (s : State) : Host.Outcome State Fault Refusal :=
  barrierWord h arv (fun s r => .fib r.wg (((s.fib r).map (·.lslot)).getD 0) id.toNat) (some mask.toNat) s

/-- WGBAR (R103). -/
def execWgbar (h : Hdr) (id : BitVec 3) (arv : Bool) (s : State) : Host.Outcome State Fault Refusal :=
  barrierWord h arv (fun _ r => .wgp r.wg id.toNat) none s

/-- The launch and launch cluster of a work-group. -/
def State.clusterKey (s : State) (g : Nat) : Nat × Nat :=
  match Map.find s.wgs g with
  | some w => (w.launch, w.cluster)
  | none => (0, 0)

/-- CLBAR (R103). -/
def execClbar (h : Hdr) (id : BitVec 1) (arv : Bool) (s : State) : Host.Outcome State Fault Refusal :=
  barrierWord h arv (fun s r => .clus (s.clusterKey r.wg).1 (s.clusterKey r.wg).2 id.toNat) none s

/-- GBAR (R103, R113): illegal with subcode 8 outside a co-resident launch. -/
def execGbar (h : Hdr) (arv : Bool) (s : State) : Host.Outcome State Fault Refusal :=
  unlessIllegal h 8 (fun r => !(s.launchOf r.wg).coresident) s
    (barrierWord h arv (fun s r => .grid (s.clusterKey r.wg).1) none s)

/-! ### Windows (R99 to R102, R114) -/

/-- The instance of window `w` in a fibre's logical slot, where the fibre is in its mask: its index and its part. -/
def State.windowPart (s : State) (r : FibRef) (w : Nat) : Option (Nat × Nat) :=
  match Map.find s.wgs r.wg, s.fib r with
  | some g, some f =>
    let d := (s.launch g.launch).windows.getD w default
    if d.valid && d.fibs.getLsbD f.pos then
      (g.windows.findIdx? (fun x => x.w == w && x.lslot == f.lslot)).map (fun i =>
        (i, if d.double then f.halves.toList.getD w 0 else 0))
    else none
  | _, _ => none

/-- A part of a window instance. -/
def State.winPart (s : State) (g i p : Nat) : WinPart :=
  (((Map.find s.wgs g).bind (fun w => w.windows[i]?)).bind (fun x => x.parts[p]?)).getD default

/-- Changes a window instance. -/
def State.modWindow (s : State) (g i : Nat) (f : WinState → WinState) : State :=
  s.modWg g (fun w => { w with windows := w.windows.modify i f })

/-- The next position of a mask after `p`, wrapping round (R100). -/
def nextPos (m : BitVec 4) (p : Nat) : Nat :=
  (([1, 2, 3, 4].map (fun k => (p + k) % 4)).find? (fun q => m.getLsbD q)).getD p

/-- The position of a mask before `p`, wrapping round. -/
def prevPos (m : BitVec 4) (p : Nat) : Nat :=
  (([3, 2, 1, 0].map (fun k => (p + k) % 4)).find? (fun q => m.getLsbD q)).getD p

/-- The register names of a part of a window. -/
def State.windowNames (s : State) (r : FibRef) (w p : Nat) : List Nat :=
  let d := (s.launchOf r.wg).windows.getD w default
  let n := if d.double then d.count / 2 else d.count
  (List.range n).map (fun k => d.first + p * n + k)

/-- WREL (R100, R102, R114): it waits for the fibre's earlier writes of the part's registers. -/
def execWrel (h : Hdr) (w : BitVec 2) (s : State) : Host.Outcome State Fault Refusal :=
  runWord h true [] [] 6 s fun a s =>
    match s.fib a.ref, s.windowPart a.ref w.toNat with
    | some f, some (i, p) =>
      if f.trap.isSome then .bad (a.operand a.low 9)
      else if (s.winPart a.ref.wg i p).owner != f.pos then .bad (a.operand a.low 3)
      else if f.owes (s.windowNames a.ref w.toNat p) then .hold s a.group (.regs (s.windowNames a.ref w.toNat p)) false
      else afterStores a s fun s =>
        let (clock, s) := s.releaseEvent a.ref
        let d := (s.launchOf a.ref.wg).windows.getD w.toNat default
        let vec := if (s.launchOf a.ref.wg).checked then s.vecAt a.ref clock else []
        let s := s.modWindow a.ref.wg i (fun x => { x with
          parts := x.parts.set p ⟨nextPos d.fibs f.pos, true⟩, vecs := x.vecs.set p vec })
        .done (if d.double then s.modFib a.ref (fun f => { f with halves := f.halves.setIfInBounds w.toNat (1 - p) }) else s)
    | some f, none => .bad (a.operand a.low (if f.trap.isSome then 9 else 3))
    | none, _ => .done s

/-- What an acquirer learns at a hand-off (R276, R277). -/
def State.handOff (s : State) (r : FibRef) (owner : Nat) (vec : Map Nat) : State :=
  if vec.isEmpty then s
  else
    let s := s.modFib r (fun f => { f with vec := vecMax f.vec (Map.del vec r.fib) })
    s.modWg r.wg (fun w => { w with frontier := w.frontier.map (fun e =>
      if e.fibs.contains owner && !(e.fibs.contains r.fib) then { e with fibs := e.fibs ++ [r.fib] } else e) })

/-- The number of the fibre at a position of a logical slot. -/
def State.fibreAt (s : State) (g lslot pos : Nat) : Nat :=
  (((Map.find s.wgs g).bind (fun w => w.fibres.find? (fun e => e.2.lslot == lslot && e.2.pos == pos))).map (·.1)).getD 0

/-- WACQ (R96, R100, R102, R114). -/
def execWacq (h : Hdr) (w : BitVec 2) (s : State) : Host.Outcome State Fault Refusal :=
  runWord (atPoint h) true [] [] 6 s fun a s =>
    match s.fib a.ref, s.windowPart a.ref w.toNat with
    | some f, some (i, p) =>
      let x := s.winPart a.ref.wg i p
      if f.trap.isSome then .bad (a.operand a.low 9)
      else if x.full && x.owner == f.pos then
        let d := (s.launchOf a.ref.wg).windows.getD w.toNat default
        let vec := (((Map.find s.wgs a.ref.wg).bind (fun g => g.windows[i]?)).bind (fun x => x.vecs[p]?)).getD []
        let s := s.modWindow a.ref.wg i (fun x => { x with parts := x.parts.set p ⟨f.pos, false⟩ })
        .done (s.handOff a.ref (s.fibreAt a.ref.wg f.lslot (prevPos d.fibs f.pos)) vec)
      else .hold s a.group (.window f.lslot w.toNat p) true
    | some f, none => .bad (a.operand a.low (if f.trap.isSome then 9 else 3))
    | none, _ => .done s

end Sys2Proof.Machine
end

