-- ==== Sys2Proof/Machine/Debug.lean ====
section
/-! DEFINITION. Class 0xE, sampling, breakpoints, the wait-for graph and the freeze (R413 to R423). -/

namespace Sys2Proof.Machine

/-! ### Stall reasons (R413) -/

/-- The reason for which a wait holds its fibre. -/
def WaitCond.reason : WaitCond → Nat
  | .present _ => 9
  | .barrier (.fib _ _ _) _ => 12
  | .barrier (.wgp _ _) _ => 13
  | .barrier (.clus _ _ _) _ => 14
  | .barrier (.grid _) _ => 14
  | .window _ _ _ => 11
  | .watch _ _ _ => 10
  | .stage _ _ _ => 10
  | .log => 6
  | .collective _ _ => 10
  | .array _ => 7
  | .slot _ _ => 8
  | .regs _ => 2
  | .owed => 5
  | .config _ => 7
  | .pool _ => 7
  | .conv _ => 15
  | .room _ => 5
  | .ring _ _ => 15
  | .save => 13

/-- The reason for which a fibre did not issue on a tick. A fibre that could have issued was held by what the spec's timing
decides: one of the first nine, by the free value `k` (assumption 3). -/
def State.stallReason (s : State) (r : FibRef) (k : Nat) : Nat :=
  match s.fib r with
  | none => 15
  | some f =>
    let waits := f.waits.map (fun (w : Wait) => w.cond.reason)
    match f.st with
    | .exited => 15
    | .ready _ => 15
    | .parked => waits.foldl min 15
    | .current =>
      if f.running == 0 then 15
      else if s.tick < f.delayUntil then waits.foldl min 2
      else if f.canIssue then waits.foldl min (k % 9) else waits.foldl min 15

/-- The reasons that operations of the array give a work-group, whatever its fibres do (R173, R364, R413): an `MSEND` that waits for
staging, and a quarter whose lines are absent. -/
def State.opReason (s : State) (core g : Nat) : Nat :=
  let l := (s.ops core).filter (MatOp.ofWg g)
  let sends (op : MatOp) : Bool := match op.kind with
    | .send _ _ _ _ _ => !(s.tileGoes core op)
    | _ => false
  if l.any sends then 7 else if l.any (fun op => !op.ready && !(op.lines.all s.isPresent)) then 9 else 15

/-- The reason that a work-group's stalled tick counts. -/
def State.groupReason (s : State) (g k : Nat) : Nat :=
  match Map.find s.wgs g with
  | some w => (w.fibres.filter (fun (e : Nat × Fibre) => e.2.live != 0)).foldl (fun m e => min m (s.stallReason ⟨g, e.1⟩ k))
      (s.opReason w.core g)
  | none => 15

/-- Counts `n` ticks on which a work-group did not issue. -/
def State.stallTicks (s : State) (g n k : Nat) : State :=
  let i := s.groupReason g k
  s.modWg g (fun w => { w with stalls := w.stalls.setIfInBounds i (min (2 ^ 32 - 1) (w.stalls.toList.getD i 0 + n)) })

/-! ### Words (R416, R419, R420) -/

/-- BKPT (R416). -/
def execBkpt (h : Hdr) (code : BitVec 16) (s : State) : Host.Outcome State Fault Refusal :=
  onceWord h [] [] s fun a s => .logged s { a.trap 0x21 0 a.low 0 code.toNat with after := true, resume := a.pc + 12 }

/-- A word of class 0xE that a deterministic launch may not execute (R43, R419). -/
def timeWord (h : Hdr) (srcs : List (Src × Nat)) (dsts : List Nat) (s : State) (body : Act → State → Out) :
    Host.Outcome State Fault Refusal :=
  onceWord h srcs dsts s fun w s => if (s.launchOf w.ref.wg).determ then .bad w.nondet else body w s

/-- TICK (R420). -/
def execTick (h : Hdr) (d : BitVec 8) (s : State) : Host.Outcome State Fault Refusal :=
  timeWord h [] [d.toNat, d.toNat + 1] s fun w s => .done (s.putPair w.ref d.toNat w.lanes (fun _ => BitVec.ofNat 64 s.tick))

/-- PTPRD (R314, R420). -/
def execPtprd (h : Hdr) (d : BitVec 8) (s : State) : Host.Outcome State Fault Refusal :=
  timeWord h [] ((List.range 4).map (fun j => d.toNat + j)) s fun w s => .done (s.putQuad w d.toNat s.ptpStamp)

/-- STALLRD (R413, R420). -/
def execStallrd (h : Hdr) (d : BitVec 8) (i : BitVec 4) (clr : Bool) (s : State) : Host.Outcome State Fault Refusal :=
  timeWord h [] [d.toNat] s fun w s =>
    let v := ((Map.find s.wgs w.ref.wg).map (fun g => g.stalls.toList.getD i.toNat 0)).getD 0
    let s := s.putAll w d.toNat v
    .done (if clr then s.modWg w.ref.wg (fun g => { g with stalls := g.stalls.setIfInBounds i.toNat 0 }) else s)

/-- TRACE (R414, R420). -/
def execTrace (h : Hdr) (a : Src) (tag : BitVec 16) (s : State) : Host.Outcome State Fault Refusal :=
  onceWord h [(a, 1)] [] s fun w s =>
    .done (s.traceAppend (dieOf (s.coreOf w.ref.wg))
      (traceRecord 1 (s.ctxOf w.ref.wg) (s.identity w.ref) w.lanes.toNat s.tick w.pc tag.toNat (s.low32 w a)))

/-- PROGR.wg (R417, R420): the word itself is counted. -/
def execProgrWg (h : Hdr) (d : BitVec 8) (s : State) : Host.Outcome State Fault Refusal :=
  timeWord h [] [d.toNat] s fun w s =>
    .done (s.putAll w d.toNat (((Map.find s.wgs w.ref.wg).map (fun g => (g.progress + 1) % 2 ^ 32)).getD 0))

/-! ### Wait descriptors (R417) -/

/-- The aperture offset that names a scratchpad address for a work-group (R209). -/
def State.offsetOf (s : State) (g p : Nat) : Nat :=
  let core := s.coreOf g
  let base := s.baseOf g
  if p / Config.scratchBytes == core then p % Config.scratchBytes - base
  else 0x100000 + p / Config.scratchBytes % 8 * 0x100000 + (p % Config.scratchBytes - base)

/-- Kind, id and object of a wait. -/
def State.describe (s : State) (g : Nat) (c : WaitCond) : Nat × Nat × Nat :=
  match c with
  | .barrier (.fib _ _ id) _ => (1, id, 0)
  | .barrier (.wgp _ id) _ => (2, id, 0)
  | .barrier (.clus _ _ id) _ => (3, id, 0)
  | .barrier (.grid _) _ => (4, 0, 0)
  | .window _ w _ => (5, w, 0)
  | .stage byte _ _ => (6, 0, s.offsetOf g byte)
  | .watch _ _ va => (7, 0, va % 2 ^ 32)
  | .collective _ op => (8, 0, op)
  | .present l => (9, 0, s.offsetOf g ((l.find? (fun x => !s.isPresent x)).getD (l.headD 0) * 128))
  | .save => (10, 0, 0)
  | _ => (0, 0, 0)

/-- The wait that a parked fibre exposes. -/
def Fibre.parkedAt (f : Fibre) : Option WaitCond :=
  if f.isParked then (f.waits.find? (fun (w : Wait) => w.parks)).map (fun w => w.cond) else none

/-- A fibre's wait descriptor (R417). -/
def State.descriptor (s : State) (r : FibRef) : Nat :=
  match (s.fib r).bind Fibre.parkedAt with
  | some c => let (k, id, o) := s.describe r.wg c; k + id % 16 * 2 ^ 4 + o * 2 ^ 32
  | none => 0

/-- PROGR.park (R417, R420). -/
def execProgrPark (h : Hdr) (d : BitVec 8) (a : Src) (s : State) : Host.Outcome State Fault Refusal :=
  timeWord h [(a, 1)] [d.toNat, d.toNat + 1] s fun w s =>
    let r : FibRef := ⟨w.ref.wg, s.low32 w a⟩
    if (s.fib r).isNone then .bad (w.operand w.low 9)
    else .done (s.putPair w.ref d.toNat w.lanes (fun _ => BitVec.ofNat 64 (s.descriptor r)))

/-! ### Sampling (R415) -/

/-- The period of a die's samples, as a power of two, where sampling is enabled (assumption 12). -/
def State.samplePeriod (s : State) (die : Nat) : Option Nat :=
  let v := s.dieReg die 0xD0C 4
  let k := bits v 8 5
  if bit v 1 && 10 ≤ k && k ≤ 20 then some (2 ^ k) else none

/-- What the lowest-numbered port of a core that issued on a tick issued (assumption 21). -/
def State.issuedOn (s : State) (core tick : Nat) : Option Cur :=
  (s.core core).pslots.toList.findSome? (fun (p : PSlot) =>
    match p.last with
    | some (t, c) => if t == tick && (s.fib c.ref).isSome then some c else none
    | none => none)

/-- The sample record of a core: of the word issued there on this tick, or of its lowest-numbered resident work-group. -/
def State.sampleOf (s : State) (core k : Nat) : Option (List Byte) :=
  match s.issuedOn core s.tick with
  | some c => some (traceRecord 2 (s.ctxOf c.ref.wg) (s.identity c.ref) c.lanes.toNat s.tick c.pc 0 0)
  | none =>
    match (s.wgs.filter (fun e => e.2.core == core)).foldl (fun (b : Option (Nat × WorkGroup)) e =>
      match b with
      | none => some e
      | some x => if e.2.num < x.2.num then some e else b) none with
    | some (g, _) => some (traceRecord 2 (s.ctxOf g) 0 0 s.tick 0 (s.groupReason g k) 0)
    | none => none

/-- One record for each core of a die that holds a work-group; `k` is what the reasons counted on the tick were taken with (R413). -/
def State.sampleDie (s : State) (die k : Nat) : State :=
  (List.range Config.coresPerDie).foldl (fun s c =>
    match s.sampleOf (die * Config.coresPerDie + c) k with
    | some rcd => s.traceAppend die rcd
    | none => s) s

/-- SAMPLE (R415): one record for each core of the die that holds a work-group. -/
def execSample (die : Nat) (s : State) : Host.Outcome State Fault Refusal :=
  let (n, t) := s.draw
  .next (t.sampleDie die (Config.freeWord n).toNat)

/-! ### Breakpoints (R416) -/

/-- Whether a fibre stands stopped at a breakpoint. -/
def State.atBreakpoint (s : State) (r : FibRef) : Bool :=
  match (s.fib r).bind (·.trap) with
  | some t => t.stopped && t.info.cause == 0x21
  | none => false

/-- BREAKPOINT_RESUME (R416). -/
def execBreakpointResume (r : FibRef) (s : State) : Host.Outcome State Fault Refusal :=
  .next (if s.atBreakpoint r then s.leaveTrap r false else s)

/-- BREAKPOINT_KILL (R416). -/
def execBreakpointKill (r : FibRef) (s : State) : Host.Outcome State Fault Refusal :=
  .next (if s.atBreakpoint r then s.killWg r.wg 2 else s)

/-! ### The wait-for graph (R418) -/

/-- Who must act before a wait can end: fibres, whether an engine, whether an unknown party. -/
structure Parties where
  fibres : List FibRef
  engine : Bool
  unknown : Bool
deriving DecidableEq, Repr

/-- The parties of unfinished cards: those who kicked them, or the engine where a kicker has exited. -/
def State.kickers (s : State) (p : Card → Bool) : Parties :=
  let refs := (s.cores.flatMap (fun e => e.2.cards.filter p)).map (fun (c : Card) => c.kick.ref)
  let alive := refs.filter (fun r => ((s.fib r).map (fun f => f.live != 0)).getD false)
  ⟨alive, alive.length != refs.length, false⟩

/-- The fibre that an identity names, where it is resident. -/
def State.byIdentity (s : State) (w : Nat) : Option FibRef :=
  (s.wgs.flatMap (fun (g, x) => x.fibres.map (fun (k, _) => (⟨g, k⟩ : FibRef)))).find? (fun r => s.identity r == w)

/-- The parties of a wait. -/
def State.parties (s : State) (r : FibRef) (c : WaitCond) : Parties :=
  match c with
  | .barrier k _ =>
    let b := s.barrier k
    ⟨(s.participants k (b.mask.getD 0)).filter (fun q => match s.fib q with
      | some f => f.live &&& ~~~(b.arrivedOf q) != 0
      | none => false), false, false⟩
  | .window lslot w half =>
    let i := ((Map.find s.wgs r.wg).bind (fun g => g.windows.findIdx? (fun x => x.w == w && x.lslot == lslot))).getD 0
    ⟨[⟨r.wg, s.fibreAt r.wg lslot (s.winPart r.wg i half).owner⟩], false, false⟩
  | .stage byte _ _ => s.kickers (fun x => x.rcd.barv && (x.rcd.places x.kick.core x.base x.rcd.bar).contains byte)
  | .present l => s.kickers (fun x => l.any (fun k => (x.rcd.lines x.kick.core x.base).contains k))
  | .watch _ _ va =>
    let a := s.agent r.wg
    let rcd := match ((s.checkedPieces r a va 4).head?).map (·.1) with
      | some p => (s.lineMeta a.launch p).filter (fun (m : LineMeta) => m.valid)
      | none => none
    match rcd.bind (fun m => s.byIdentity m.writer) with
    | some q => ⟨[q], false, false⟩
    | none => ⟨[], false, true⟩
  | .collective _ _ => ⟨[], true, false⟩
  | _ => ⟨[], false, false⟩

/-- The parked fibres of a context, each with its parties. -/
def State.waitGraph (s : State) (ctx : Nat) : List (FibRef × Parties) :=
  (s.wgs.filter (fun e => (s.launch e.2.launch).ctx == ctx)).flatMap (fun (g, w) => w.fibres.filterMap (fun (k, f) =>
    f.parkedAt.map (fun c => (⟨g, k⟩, s.parties ⟨g, k⟩ c))))

/-- The parties of a parked fibre in a graph. -/
def partiesOf (l : List (FibRef × Parties)) (r : FibRef) : Parties := ((l.find? (fun e => e.1 == r)).map (·.2)).getD ⟨[], false, false⟩

/-- A shortest cycle through a fibre: paths grow by one edge a round, each fibre reached once. -/
def cycleThrough (l : List (FibRef × Parties)) (goal : FibRef) : Nat → List (List FibRef) → List FibRef → Option (List FibRef)
  | 0, _, _ => none
  | n + 1, paths, seen =>
    let more := paths.flatMap (fun p => ((partiesOf l (p.getLastD goal)).fibres).map (fun q => p ++ [q]))
    match more.find? (fun p => p.getLast? == some goal) with
    | some p => some p.dropLast
    | none =>
      let (paths, seen) := more.foldl (fun (acc, seen) p =>
        let q := p.getLastD goal
        if seen.contains q || !(l.any (fun e => e.1 == q)) then (acc, seen) else (acc ++ [p], seen ++ [q])) (([] : List (List FibRef)), seen)
      cycleThrough l goal n paths seen

/-- The cycles of a graph, no fibre in two. -/
def graphCycles (l : List (FibRef × Parties)) : List (List FibRef) :=
  l.foldl (fun out e =>
    if out.any (fun c => c.contains e.1) then out
    else match cycleThrough l e.1 (l.length + 1) [[e.1]] [] with
      | some c => out ++ [c]
      | none => out) []

/-- A deadlock record (R418). -/
def State.deadlockRecord (s : State) (ctx : Nat) (c : List FibRef) (unknown : Bool) : List Byte :=
  let entry (r : FibRef) : List Byte :=
    let d := s.descriptor r
    leBytes 8 (s.identity r + d % 2 ^ 8 * 2 ^ 16 + d / 2 ^ 32 * 2 ^ 24)
  leBytes 8 (bit01 unknown + 0x30 + min c.length 6 * 2 ^ 8 + bit01 (decide (6 < c.length)) * 2 ^ 12 + ctx * 2 ^ 13) ++ leBytes 8 s.tick ++
    (((c.take 6).flatMap entry) ++ List.replicate 48 0).take 48

/-- Whether a work-group's progress counter has stood still since a read at least 2^20 ticks ago. -/
def State.stalledLong (s : State) (g : Nat) : Bool :=
  match Map.find s.progressSeen g, Map.find s.wgs g with
  | some (p, t), some w => p == w.progress && t + 2 ^ 20 ≤ s.tick
  | _, _ => false

/-- WAIT_FOR_GRAPH (R418): the cycles without progress are reported, and the counters read are remembered. -/
def execWaitForGraph (ctx : Nat) (s : State) : Host.Outcome State Fault Refusal :=
  .next (
    let l := s.waitGraph ctx
    let dead := (graphCycles l).filter (fun c => c.all (fun r => s.stalledLong r.wg) && !(c.any (fun r => (partiesOf l r).engine)))
    let s := dead.foldl (fun s c => s.hostAppend (s.deadlockRecord ctx c (c.any (fun r => (partiesOf l r).unknown)))) s
    (s.wgs.filter (fun e => (s.launch e.2.launch).ctx == ctx)).foldl (fun s (g, w) =>
      if (Map.find s.progressSeen g).map (·.1) == some w.progress then s
      else { s with progressSeen := Map.set s.progressSeen g (w.progress, s.tick) }) s)

/-! ### Freeze (R422, R423) -/

/-- The tick at which the package freezes: the earlier of the register's and the pin's (R422). -/
def State.freezeTick (s : State) : Option Nat :=
  match s.freezeAt, s.freezePin with
  | some a, some b => some (min a b)
  | some a, none => some a
  | none, b => b

/-- FREEZE_TICK_WRITE (R422): 0 disables the register. -/
def execFreezeTickWrite (value : Dword) (s : State) : Host.Outcome State Fault Refusal :=
  let v := value.toNat
  let s := { s with w0 := Memory.put s.w0 0x1020 8 v }
  .next (if s.frozen then s
    else if v == 0 then { s with freezeAt := none }
    else { s with freezeAt := some (max v (s.tick + 64)) })

/-- FREEZE_N (R422). -/
def execFreezeN (s : State) : Host.Outcome State Fault Refusal := .next (if s.frozen || s.freezePin.isSome then s else { s with freezePin := some (s.tick + 64) })

/-- FREEZE (R422): at the tick named, every die stops. -/
def execFreeze (s : State) : Host.Outcome State Fault Refusal :=
  .next (match s.freezeTick with
    | some t => if t ≤ s.tick then { s with frozen := true } else s
    | none => s)

/-- FREEZE_READ_OUT (R423, R431): it writes nothing. -/
def execFreezeReadOut (s : State) : Host.Outcome State Fault Refusal := .next s

/-- OBSERVATION_PORT_READ (R21, R418): it changes nothing. -/
def execObservationPortRead (s : State) : Host.Outcome State Fault Refusal := .next s

end Sys2Proof.Machine
end

