-- ==== Sys2Proof/Machine/Saving.lean ====
section
/-! DEFINITION. Saving a work-group and resuming it (R192, R279, R401 to R405). -/

namespace Sys2Proof.Machine

/-! ### The save area (R402) -/

/-- The bytes of a lane vector. -/
def vecBytes (v : LaneVec) : List Byte := v.toList.flatMap wordBytes

/-- The bitmap of some numbers below `8 * n`, in `n` bytes. -/
def bitmap (n : Nat) (p : Nat → Bool) : List Byte :=
  (List.range n).map (fun k => BitVec.ofNat 8 ((List.range 8).foldr (fun i m => bit01 (p (8 * k + i)) + 2 * m) 0))

/-- Whether bit `i` of a bitmap is set. -/
def inBitmap (l : List Byte) (i : Nat) : Bool := bit (leNat ((l.drop (i / 8)).take 1)) (i % 8)

/-- Names in increasing order. -/
def sortNames (l : List Nat) : List Nat := (l.foldl (fun acc n => insertKey (n, n) acc) []).map (·.1)

/-- A fibre's block: `resume` is the address after its `WGSAVE`. Bit 31 of s.fibre stands in bit 31 of its word (assumption
18). -/
def fibreBlock (f : Fibre) (resume : Nat) : List Byte :=
  leBytes 8 resume ++ wordBytes f.live ++ leBytes 4 f.fpf.toNat ++ leBytes 4 f.fp4x.toNat ++
    leBytes 4 (bit01 f.undefRead * 2 ^ 31) ++ wordBytes f.spmask ++ f.preds.toList.flatMap wordBytes ++
    leBytes 4 (f.clock % 2 ^ 16 + bit01 f.saturated * 2 ^ 16 + bit01 f.suspended * 2 ^ 17) ++ leBytes 4 0 ++
    bitmap 32 (fun n => (Map.find f.regs n).isSome) ++
    (List.range 32).flatMap (fun k => leBytes 2 (Map.getD f.vec k 0)) ++ leBytes 96 0 ++
    (sortNames (f.regs.map (·.1))).flatMap (fun n => vecBytes (Map.getD f.regs n (splat 0)))

/-- The state word of a window instance: its parts, and the half pointers of its positions. -/
def instWord (w : WorkGroup) (x : WinState) : Nat :=
  let part (i : Nat) : Nat := match x.parts[i]? with
    | some p => p.owner % 4 + bit01 p.full * 4
    | none => 0
  let ptr (p : Nat) : Nat :=
    ((w.fibres.find? (fun e => e.2.lslot == x.lslot && e.2.pos == p)).map (fun e => e.2.halves.toList.getD x.w 0)).getD 0
  part 0 + part 1 * 2 ^ 3 + ((List.range 4).map (fun p => ptr p % 2 * 2 ^ (6 + p))).sum

/-- A window instance's block. -/
def instBlock (w : WorkGroup) (x : WinState) : List Byte := leBytes 4 (instWord w x) ++ leBytes 12 0 ++ x.regs.flatMap vecBytes

/-- A tile's block. -/
def tileBlock (t : Tile) : List Byte :=
  t.rows.flatMap (fun r => r.flatMap wordBytes) ++ leBytes 4 t.swamp ++ leBytes 4 t.nans ++ leBytes 4 t.ovf ++ leBytes 4 0

/-- The race state of a work-group: its frontier table, then, in places the spec leaves open (assumption 18), the cluster and
grid generations of its fibres, its lost flags and its report mode. -/
def raceBlock (w : WorkGroup) : List Byte :=
  let entry (i : Nat) : List Byte := match w.frontier[i]? with
    | some e => leBytes 2 e.writer ++ leBytes 2 e.clock ++ leBytes 4 (e.fibs.foldl (fun m k => m ||| 2 ^ k) 0)
    | none => leBytes 8 0
  let gen (g : Fibre → Nat) (k : Nat) : List Byte := leBytes 1 (((Map.find w.fibres k).map g).getD 0)
  (List.range 32).flatMap entry ++ (List.range 32).flatMap (gen (·.cgen)) ++ (List.range 32).flatMap (gen (·.ggen)) ++
    leBytes 1 w.lostIn ++ leBytes 1 w.lostOut ++ leBytes 1 (bit01 w.report) ++ leBytes 189 0

/-- The blocks after the header, in order: fibres, window instances, tiles, presence, race state, scratch. -/
def State.saveBlocks (s : State) (w : WorkGroup) (resume : Nat → Nat) : List (List Byte) :=
  let l := s.launch w.launch
  let core := s.core w.core
  let first := scratchAddr w.core w.base
  [w.fibres.flatMap (fun (k, f) => fibreBlock f (resume k)),
   w.windows.flatMap (instBlock w),
   w.tiles.flatMap tileBlock,
   bitmap 1024 (fun i => 128 * i < l.scratch && !(core.absent.contains (first / 128 + i))),
   if l.checked then raceBlock w else [],
   Memory.read s.scratch first l.scratch]

/-- Where blocks of some lengths begin. -/
def blockStarts (at0 : Nat) : List Nat → List Nat
  | [] => []
  | n :: r => at0 :: blockStarts (at0 + n) r

/-- The header. -/
def State.saveHeader (s : State) (w : WorkGroup) (sizes : List Nat) : List Byte :=
  let l := s.launch w.launch
  let win (k : Nat) : Nat := ((w.windows.find? (fun x => x.w == k)).map (instWord w)).getD 0
  leBytes 2 0x5753 ++ leBytes 2 1 ++ leBytes 4 w.num ++ leBytes 4 l.seq ++ wordBytes w.tcb ++ leBytes 8 l.kd ++
    leBytes 4 (256 + sizes.sum) ++ leBytes 4 (w.pos % 8) ++ (List.range 4).flatMap (fun k => leBytes 4 (win k)) ++
    (blockStarts 256 sizes).flatMap (leBytes 8) ++ leBytes 96 0 ++ w.stalls.toList.flatMap (leBytes 4)

/-- The size a save area needs (R402). -/
def State.saveSize (s : State) (w : WorkGroup) : Nat :=
  let l := s.launch w.launch
  256 + (w.fibres.map (fun (_, f) => 256 + 128 * f.regs.length)).sum + (w.windows.map (fun x => 16 + 128 * x.regs.length)).sum +
    (w.tiles.map (fun t => 256 * t.rows.length + 16)).sum + 1024 + (if l.checked then 512 else 0) + l.scratch

/-- The bytes of a work-group's save area. -/
def State.saveBytes (s : State) (w : WorkGroup) (resume : Nat → Nat) : List Byte :=
  let bs := s.saveBlocks w resume
  s.saveHeader w (bs.map List.length) ++ bs.flatten

/-! ### WGSAVE (R401) -/

/-- Threads of a fibre that have arrived. -/
def SaveRound.arrivedOf (r : SaveRound) (k : Nat) : Mask :=
  (r.arrived.filter (fun e => e.1 == k)).foldl (fun m e => m ||| e.2) 0

/-- Threads arrive, with their destination. -/
def SaveRound.arrive (r : SaveRound) (k : Nat) (m : Mask) (d : Nat) : SaveRound :=
  { r with arrived := r.arrived.filter (fun e => e.1 != k) ++ [(k, r.arrivedOf k ||| m)], dsts := Map.set r.dsts k d }

/-- Whether every live thread of a work-group has arrived. -/
def WorkGroup.allArrived (w : WorkGroup) (r : SaveRound) : Bool :=
  w.fibres.all (fun (k, f) => f.live &&& ~~~(r.arrivedOf k) == 0)

/-- The lowest-numbered fibre of a work-group that lives. -/
def WorkGroup.firstFibre (w : WorkGroup) : Option Nat := ((w.fibres.filter (fun e => e.2.live != 0)).map (·.1)).min?

/-- Whether nothing of a work-group that a save waits for is still under way: matrix operations, cards and frames. -/
def State.quiet (s : State) (g : Nat) : Bool :=
  !((s.core (s.coreOf g)).matq.any (fun op => op.ref.wg == g)) &&
    !(s.cores.any (fun (_, c) => c.cards.any (fun (x : Card) => x.kick.ref.wg == g && !x.faulted))) &&
    !(s.dies.any (fun (_, x) => x.net.queue.any (fun (f : TxFrame) => f.wg == g)))

/-- Whether a card of a work-group has faulted. -/
def State.faultedCard (s : State) (g : Nat) : Bool :=
  s.cores.any (fun (_, c) => c.cards.any (fun (x : Card) => x.kick.ref.wg == g && x.faulted))

/-- Whether a fibre that waits in a save can go on: the save has a status, or it is the one that performs it. -/
def State.saveGoes (s : State) (r : FibRef) : Bool :=
  match Map.find s.wgs r.wg with
  | none => true
  | some w =>
    w.saveDone.any (fun e => e.1 == r.fib) ||
      w.saves.all (fun x => !x.asks || (w.allArrived x && w.firstFibre == some r.fib && s.quiet r.wg))

/-- The status that a fibre's threads have still to take. -/
def WorkGroup.owedStatus (w : WorkGroup) (k : Nat) (m : Mask) : Option Nat :=
  (w.saveDone.find? (fun e => e.1 == k && e.2.1 &&& m != 0)).map (fun e => e.2.2)

/-- Threads take the status they are owed. -/
def State.tookStatus (s : State) (r : FibRef) (m : Mask) : State :=
  s.modWg r.wg (fun w => { w with saveDone :=
    (w.saveDone.map (fun e => if e.1 == r.fib then (e.1, e.2.1 &&& ~~~m, e.2.2) else e)).filter (fun e => e.2.1 != 0) })

/-- A save ends with a status: the fibre that performed it takes it, and the others have still to. -/
def State.endSave (s : State) (w : Act) (r : SaveRound) (d v : Nat) : Out :=
  let s := s.modWg w.ref.wg (fun g => { g with saves := [], saveDone := g.saveDone ++ r.arrived.map (fun (k, m) => (k, m, v)) })
  .done ((s.tookStatus w.ref w.lanes).putAll w d v)

/-- The `WGSAVE` that arriving threads belong to: the first one they have not arrived at, or the one they wait at. -/
def WorkGroup.saveRound (w : WorkGroup) (k : Nat) (m : Mask) : Option Nat :=
  w.saves.findIdx? (fun x => x.asks || x.arrivedOf k &&& m == 0)

/-- Where the live threads of a fibre stand: at the `WGSAVE`, or past it for the group that performs the save. -/
def State.saveResume (s : State) (w : Act) (k : Nat) : Nat :=
  match s.fib ⟨w.ref.wg, k⟩ with
  | none => 0
  | some f =>
    match lowest f.live with
    | none => 0
    | some i => if k == w.ref.fib then (w.pc + 12) % 2 ^ 64 else (f.pcs.toList.getD i 0 + 12) % 2 ^ 64

/-- Lets every store of a work-group leave its queue; a fibre whose store faults takes its trap. -/
def State.drainAll (s : State) (g : Nat) : State :=
  (((Map.find s.wgs g).map (fun w => w.fibres.map (·.1))).getD []).foldl (fun s k =>
    match s.drain ⟨g, k⟩ with
    | (s, none) => s
    | (s, some t) => s.takeTrap ⟨g, k⟩ t) s

/-- Whether every store queue and operand log of a work-group is clear. -/
def State.logsClear (s : State) (g : Nat) : Bool :=
  ((Map.find s.wgs g).map (fun w => w.fibres.all (fun (_, f) => f.queue.isEmpty && f.log.isEmpty && f.loads.isEmpty))).getD true

/-- The work-group is written to its area and leaves its core (R194, R402). -/
def State.saveNow (s : State) (w : Act) (x : WorkGroup) (r : SaveRound) : State :=
  let g := w.ref.wg
  let l := s.launch x.launch
  let a := s.agent g
  let s := ((s.cacheRelease a .sys).writeGlobal a true r.area (s.saveBytes x (s.saveResume w))).charge l.ctx 6
  let saved : SavedWg := { wg := g, launch := x.launch, num := x.num, cluster := x.cluster, pos := x.pos, core := x.core
                           slots := x.slots, area := r.area, attempt := x.attempt, forced := x.forced, dsts := r.dsts
                           exit := x.exitMask, stalls := x.stalls.toList, progress := x.progress, places := x.fibres.map (fun (k, f) => (k, f.place))
                           vecs := x.windows.map (·.vecs) }
  (s.modCtx l.ctx (fun c => { c with saved := c.saved ++ [saved] })).removeWg g

/-- What the fibre that performs a save does, once every thread has arrived. -/
def State.performSave (s : State) (w : Act) (r : SaveRound) (d : Nat) : Out :=
  let g := w.ref.wg
  match Map.find s.wgs g with
  | none => .done s
  | some x =>
    if r.area % 4096 != 0 || r.size < s.saveSize x then s.endSave w r d 2
    else
      afterStores w s fun s =>
        let s := s.drainAll g
        if !(s.logsClear g) || !(s.quiet g) then .hold s w.lanes .save true
        else if s.faultedCard g then s.endSave w r d 3
        else match s.probeRange (s.agent g) .write r.area (s.saveSize x) with
          | (some (sub, byte), _) => .bad (w.trap 0x08 sub w.low byte 0)
          | (none, s) =>
            match Map.find s.wgs g with
            | none => .done s
            | some x => .done (s.saveNow w x r)

/-- WGSAVE (R401 to R405). -/
def execWgsave (h : Hdr) (d : BitVec 8) (a b : Src) (off : BitVec 32) (s : State) : Host.Outcome State Fault Refusal :=
  onceWord (atPoint h) [(a, 2), (b, 1)] [d.toNat] s fun w s =>
    let g := w.ref.wg
    match Map.find s.wgs g with
    | none => .done s
    | some x =>
      let area := s.lowAddr w a off
      let size := s.low32 w b
      match x.owedStatus w.ref.fib w.lanes with
      | some v => .done ((s.tookStatus w.ref w.lanes).putAll w d.toNat v)
      | none =>
        let fresh : SaveRound := { asks := (s.ctx (s.ctxOf g)).request, area := area, size := size, arrived := [], dsts := [] }
        let k := (x.saveRound w.ref.fib w.lanes).getD x.saves.length
        let r := x.saves.getD k fresh
        if s.inTrap w.ref || x.lane || w.gov.left != 0 || r.area != area || r.size != size then .bad (w.operand w.low 9)
        else
          let r := r.arrive w.ref.fib w.lanes d.toNat
          let saves := x.saves.take k ++ [r] ++ x.saves.drop (k + 1)
          let s := s.modWg g (fun y => { y with saves := saves.filter (fun z => z.asks || !x.allArrived z) })
          if !r.asks then .done (s.putAll w d.toNat 0)
          else if x.allArrived r && x.firstFibre == some w.ref.fib then s.performSave w r d.toNat
          else .hold s w.lanes .save true

/-! ### Resuming (R279, R403 to R405) -/

/-- The saved work-groups of a context that resume next, together: a launch cluster, or a whole co-resident launch; in
increasing s.wg within the launch. -/
def State.resumeGroup (s : State) (ctx : Nat) : List SavedWg :=
  let l := (s.ctx ctx).saved
  match (l.map (·.launch)).min? with
  | none => []
  | some id =>
    let mine := l.filter (fun x => x.launch == id)
    match mine.find? (fun x => mine.all (fun y => x.num ≤ y.num)) with
    | none => []
    | some x => if (s.launch id).coresident then mine else mine.filter (fun y => y.cluster == x.cluster)

/-- A number of a save area's bytes. -/
def areaNum (l : List Byte) (o n : Nat) : Nat := leNat ((l.drop o).take n)

/-- Reads a saved work-group's area: its bytes, or the address at fault (R403). -/
def State.readArea (s : State) (x : SavedWg) : Except Nat (List Byte) × State :=
  let l := s.launch x.launch
  match s.engineRead l.die l.ctx x.area 256 with
  | (.error (_, a), s) => (.error a, s)
  | (.ok h, s) =>
    if areaNum h 0 2 != 0x5753 || areaNum h 2 2 != 1 then (.error x.area, s)
    else match s.engineRead l.die l.ctx x.area (areaNum h 0x18 4) with
      | (.error (_, a), s) => (.error a, s)
      | (.ok b, s) => (.ok b, s)

/-- Reads the areas of some saved work-groups: the first that fails, or all. -/
def State.readAreas (s : State) : List SavedWg → Except (SavedWg × Nat) (List (SavedWg × List Byte)) × State
  | [] => (.ok [], s)
  | x :: rest =>
    match s.readArea x with
    | (.error a, s) => (.error (x, a), s)
    | (.ok b, s) =>
      match s.readAreas rest with
      | (.ok l, s) => (.ok ((x, b) :: l), s)
      | (.error e, s) => (.error e, s)

/-- What some work-groups that resume together take, before they do: room on cores, places of physical slots (core, slot, place), and
tile storage and weight slots (core, bytes, slots). -/
structure ResumeRoom where
  use : Map CoreUse := []
  seats : List (Nat × Nat × Nat) := []
  pools : List (Nat × Nat × Nat) := []
deriving Repr

/-- The places of physical slots that a saved work-group's fibres had. -/
def SavedWg.seats (x : SavedWg) (l : Launch) : List (Nat × Nat) :=
  (planFibres l.plan).filterMap (fun (k, _, i) => (x.slots.getD i none).map (fun sl => (sl, Map.getD x.places k 0)))

/-- Whether a core has the storage a saved TCB asks for beside what others take, with no earlier request waiting (R196, R404); or, where
`now` is not asked, whether an empty core would. -/
def State.poolsFor (s : State) (m : ResumeRoom) (now : Bool) (core tcb : Nat) : Bool :=
  let mine := m.pools.filter (fun e => e.1 == core)
  let bytes := (mine.map (fun e => e.2.1)).sum + tcbBytes tcb
  let slots := (mine.map (fun e => e.2.2)).sum + tcbSlots tcb
  tcbOk tcb && bytes ≤ (if now then s.freeTiles core else 262144) && slots ≤ (if now then (s.freeSlots core).length else 16) &&
    (!now || (s.core core).claims.isEmpty)

/-- The slots a saved work-group takes on the core of its own position in a physical cluster, where it can resume there; in a checked
launch its fibres keep their places (R279, R404). -/
def State.resumeOn (s : State) (l : Launch) (m : ResumeRoom) (now : Bool) (x : SavedWg) (b : List Byte) (core base : Nat) :
    Option (List (Option Nat)) :=
  let u := (Map.find m.use core).getD (if now then s.useOf core else {})
  let free (e : Nat × Nat) : Bool := !(m.seats.contains (core, e)) && !(now && (s.placesIn core e.1).contains e.2)
  if !(s.coreUp core) || !(s.coreAllows l core) || !(s.poolsFor m now core (areaNum b 0xC 4)) then none
  else
    let room := u.admits l (s.rfcapOf core) base
    if !l.checked then room
    else if room.isSome && (x.seats l).all free then some x.slots else none

/-- Room with one more work-group in it. -/
def ResumeRoom.add (m : ResumeRoom) (s : State) (l : Launch) (now : Bool) (x : SavedWg) (b : List Byte) (core base : Nat)
    (slots : List (Option Nat)) : ResumeRoom :=
  let u := (Map.find m.use core).getD (if now then s.useOf core else {})
  let tcb := areaNum b 0xC 4
  { use := Map.set m.use core (u.add l slots base), seats := (x.seats l).map (fun e => (core, e)) ++ m.seats
    pools := (core, tcbBytes tcb, tcbSlots tcb) :: m.pools }

/-- A saved work-group with its area, its core, slots and base. -/
abbrev Resumed := SavedWg × List Byte × Nat × List (Option Nat) × Nat

/-- Places the work-groups of a launch cluster on a physical cluster at a base, each at its saved position. -/
def State.resumeAt (s : State) (l : Launch) (now : Bool) (pc base : Nat) :
    List (SavedWg × List Byte) → ResumeRoom → Option (List Resumed × ResumeRoom)
  | [], m => some ([], m)
  | (x, b) :: rest, m =>
    let core := pc * 8 + x.core % 8
    match s.resumeOn l m now x b core base with
    | none => none
    | some slots =>
      (s.resumeAt l now pc base rest (m.add s l now x b core base slots)).map (fun (out, m) => ((x, b, core, slots, base) :: out, m))

/-- Bases that the regions of a resume may take on some cores: those that the ranges in use leave, each with up to `n` regions below. -/
def deepBases (l : Launch) (us : List CoreUse) (n : Nat) : List Nat :=
  ((bases us).flatMap (fun b => (List.range (n + 1)).map (fun i => b + i * l.step))).eraseDups.filter (fun b => b + l.scratch ≤ l.limit)

/-- Places several launch clusters, each on one physical cluster: all of them, or none. -/
def State.resumeAll (s : State) (l : Launch) (now : Bool) (n : Nat) :
    List (List Nat × List (SavedWg × List Byte)) → ResumeRoom → Option (List Resumed)
  | [], _ => some []
  | (pcs, xs) :: rest, m =>
    pcs.findSome? (fun pc =>
      let us := (List.range 8).map (fun c => if now then s.useOf (pc * 8 + c) else {})
      (deepBases l us n).findSome? (fun b =>
        match s.resumeAt l now pc b xs m with
        | some (out, m) => (s.resumeAll l now n rest m).map (out ++ ·)
        | none => none))

/-- Where saved work-groups resume: each launch cluster on one physical cluster of the launch's dies, its own before others. `now` asks
for what is free now; otherwise whether the package could ever hold them. -/
def State.resumePlan (s : State) (g : List (SavedWg × List Byte)) (now : Bool) : Option (List Resumed) :=
  match g.head? with
  | none => none
  | some (y, _) =>
    let l := s.launch y.launch
    let qs := (g.map (fun x => x.1.cluster)).eraseDups
    let of (q : Nat) : List Nat × List (SavedWg × List Byte) :=
      let xs := g.filter (fun x => x.1.cluster == q)
      let old := ((xs.head?).map (fun x => clusterOf x.1.core)).getD 0
      (old :: (clustersOn (if l.determ then [old / 20] else maskDies l.mask)).filter (· != old), xs)
    s.resumeAll l now qs.length (qs.map of) {}

/-- A lane vector of 128 bytes. -/
def savedVec (l : List Byte) (o : Nat) : LaneVec := lanes (fun i => wordAt l (o + 4 * i))

/-- A fibre as its block gives it (R405). -/
def restoreFibre (f : Fibre) (b : List Byte) (o tick : Nat) : Fibre :=
  let live : Mask := wordAt b (o + 8)
  let names := (List.range 256).filter (inBitmap ((b.drop (o + 0x40)).take 32))
  let flags := areaNum b (o + 0x38) 4
  { f with
    pcs := Vector.replicate 32 (areaNum b o 8), live := live, st := if live == 0 then .exited else .ready tick
    fpf := BitVec.ofNat 6 (areaNum b (o + 0xC) 4), fp4x := BitVec.ofNat 8 (areaNum b (o + 0x10) 4)
    undefRead := bit (areaNum b (o + 0x14) 4) 31, spmask := wordAt b (o + 0x18)
    preds := Vector.ofFn (fun (k : Fin 7) => wordAt b (o + 0x1C + 4 * k.val))
    clock := flags % 2 ^ 16, saturated := bit flags 16, suspended := bit flags 17
    vec := ((List.range 32).map (fun k => (k, areaNum b (o + 0x60 + 2 * k) 2))).filter (fun e => e.2 != 0)
    regs := names.mapIdx (fun i n => (n, savedVec b (o + 256 + 128 * i))) }

/-- Fibres restored one after another, from an offset of the area. -/
def restoreFibres (b : List Byte) (tick : Nat) : Nat → List (Nat × Fibre) → Nat × List (Nat × Fibre)
  | o, [] => (o, [])
  | o, (k, f) :: rest =>
    let f := restoreFibre f b o tick
    let (e, l) := restoreFibres b tick (o + 256 + 128 * f.regs.length) rest
    (e, (k, f) :: l)

/-- Window instances restored one after another. -/
def restoreWindows (b : List Byte) : Nat → List WinState → Nat × List (WinState × Nat)
  | o, [] => (o, [])
  | o, x :: rest =>
    let v := areaNum b o 4
    let y := { x with
      parts := x.parts.mapIdx (fun i _ => ⟨bits v (3 * i) 2, bit v (3 * i + 2)⟩)
      regs := (List.range x.regs.length).map (fun k => savedVec b (o + 16 + 128 * k)), vecs := x.parts.map (fun _ => []) }
    let (e, l) := restoreWindows b (o + 16 + 128 * x.regs.length) rest
    (e, (y, v) :: l)

/-- Tiles restored one after another. -/
def restoreTiles (b : List Byte) (o rows n : Nat) : List Tile :=
  (List.range n).map (fun t =>
    let p := o + t * (256 * rows + 16)
    { rows := (List.range rows).map (fun r => (List.range 64).map (fun j => wordAt b (p + 256 * r + 4 * j)))
      swamp := areaNum b (p + 256 * rows) 4, nans := areaNum b (p + 256 * rows + 4) 4, ovf := areaNum b (p + 256 * rows + 8) 4 })

/-- The race state restored (R277 to R279). -/
def WorkGroup.restoreRace (w : WorkGroup) (b : List Byte) (o : Nat) : WorkGroup :=
  let entry (i : Nat) : Frontier :=
    let m := areaNum b (o + 8 * i + 4) 4
    ⟨areaNum b (o + 8 * i) 2, areaNum b (o + 8 * i + 2) 2, (List.range 32).filter (fun k => bit m k)⟩
  { w with
    frontier := ((List.range 32).map entry).filter (fun e => !e.fibs.isEmpty)
    fibres := w.fibres.map (fun (k, f) => (k, { f with cgen := areaNum b (o + 256 + k) 1, ggen := areaNum b (o + 288 + k) 1 }))
    lostIn := areaNum b (o + 320) 1, lostOut := areaNum b (o + 321) 1, report := bit (areaNum b (o + 322) 1) 0 }

/-- A work-group restored from its area (R405), on a core: everything but its tiles and its scratchpad. -/
def restoreWg (l : Launch) (x : SavedWg) (b : List Byte) (core base tick : Nat) (slots : List (Option Nat)) : WorkGroup × Nat :=
  let w := newWg l x.launch x.num x.cluster x.pos core base (x.attempt, x.forced) tick slots allLanes
  let (o, fs) := restoreFibres b tick 256 w.fibres
  let (o, ws) := restoreWindows b o w.windows
  let halves (f : Fibre) : Vector Nat 4 := Vector.ofFn (fun (k : Fin 4) =>
    ((ws.find? (fun e => e.1.w == k.val && e.1.lslot == f.lslot)).map (fun e => bits e.2 (6 + f.pos) 1)).getD 0)
  ({ w with
     fibres := fs.map (fun (k, f) => (k, { f with halves := halves f }))
     windows := ws.mapIdx (fun i e => { e.1 with vecs := x.vecs.getD i e.1.vecs }), resumed := true, progress := x.progress
     stalls := Vector.ofFn (fun (i : Fin 16) => areaNum b (0xC0 + 4 * i.val) 4) }, o)

/-- Resumes one work-group at its place (R405). -/
def State.resumeOne (s : State) (x : SavedWg) (b : List Byte) (core base : Nat) (slots : List (Option Nat)) : State :=
  let l := s.launch x.launch
  let s := (s.clearRegion core base l.scratch).cacheAcquire (s.agentOn core l.ctx) .sys
  let (w, o) := restoreWg l x b core base s.tick slots
  let tcb := areaNum b 0xC 4
  let tiles := restoreTiles b o (tcbRows tcb) (tcbTiles tcb)
  let po := o + tcbTiles tcb * (256 * tcbRows tcb + 16)
  let w := if l.checked then w.restoreRace b (po + 1024) else w
  let so := po + 1024 + (if l.checked then 512 else 0)
  let s := s.settleWg x.wg (s.seat w (if l.checked then x.places else []))
  let s := (s.allot x.wg tcb).modWg x.wg (fun w => { w with tiles := tiles })
  let first := scratchAddr core base
  let gone := (List.range ((l.scratch + 127) / 128)).filter (fun i => !(inBitmap ((b.drop po).take 1024) i))
  let s := s.modCore core (fun c => { c with absent := gone.map (fun i => first / 128 + i) ++ c.absent })
  let s := { s with scratch := Memory.write s.scratch first ((b.drop so).take l.scratch) }
  x.dsts.foldl (fun s (k, d) =>
    let r : FibRef := ⟨x.wg, k⟩
    s.writeReg r d (((s.fib r).map (·.live)).getD 0) (splat 1)) s

/-- A launch cluster that moves keeps its previous physical cluster as an alias; a second move loses ordering (R279): `old` is
the state before the resume. -/
def State.noteMove (s old : State) (x : SavedWg) (core : Nat) : State :=
  let l := old.launch x.launch
  let s := s.modLaunch x.launch (fun l => { l with
    places := Map.set l.places x.cluster ((Map.getD l.places x.cluster []).set x.pos core) })
  if !l.checked || clusterOf core == clusterOf x.core then s
  else
    let second := (Map.find l.aliases x.cluster).isSome
    let s := s.modLaunch x.launch (fun l => { l with aliases := Map.set l.aliases x.cluster (clusterOf x.core) })
    if second then s.modWg x.wg (fun w => { w with lostIn := 2, lostOut := 2 }) else s

/-- Ends a launch whose resume fails, with its record (R403, R404, R461). -/
def State.failResume (s : State) (x : SavedWg) (kind detail status : Nat) : State :=
  let l := s.launch x.launch
  (s.hostEvent kind l.ctx l.die (x.num + l.seq * 2 ^ 32) detail).abortLaunch x.launch status

/-- Whether a saved work-group of a context can resume or fail to resume now. -/
def State.canResume (s : State) (ctx : Nat) : Bool :=
  let g := s.resumeGroup ctx
  s.ctxRuns ctx && !g.isEmpty &&
    (match (s.readAreas g).1 with
      | .error _ => true
      | .ok l => (s.resumePlan l true).isSome || (s.resumePlan l false).isNone)

/-- RESUME_WORK_GROUP (R279, R403 to R405, R461): the saved work-groups of a context that come next go on together. -/
def execResumeWorkGroup (ctx : Nat) (s : State) : Host.Outcome State Fault Refusal :=
  .next (if !(s.ctxRuns ctx) then s
    else
      let g := s.resumeGroup ctx
      match s.readAreas g, g.head? with
      | _, none => s
      | (.error (x, a), s), _ => s.failResume x 0x47 a 4
      | (.ok l, s), some x =>
        match s.resumePlan l true with
        | some ps =>
          let t := s.modCtx ctx (fun c => { c with saved := c.saved.filter (fun y => !(g.contains y)) })
          ps.foldl (fun t (y, b, core, slots, base) => (t.resumeOne y b core base slots).noteMove s y core) t
        | none => if (s.resumePlan l false).isNone then s.failResume x 0x46 0 2 else s)

end Sys2Proof.Machine
end

