-- ==== Sys2Proof/Machine/HostIf.lean ====
section
/-! DEFINITION. The host interface: windows, control registers, queues and interrupts; the management controller; power,
reset, time, errors and retirement (R12 to R16, R219, R230, R231, R424 to R434). -/

namespace Sys2Proof.Machine

/-- The state a step leaves, or the one before it where it has stopped. -/
def orElse (s : State) (o : Host.Outcome State Fault Refusal) : State :=
  match o with
  | .next t => t
  | _ => s

/-! ### Control registers (R425 to R427) -/

/-- Whether a queue is in service (R427). -/
def State.queueOn (s : State) (q : Nat) : Bool := bit (Memory.num s.w0 (0x20000 + 32 * q + 8) 4) 10

/-- Whether a byte of the control registers can be written: read-only and unassigned bytes cannot, nor a queue's descriptor
while the queue is in service (R425 to R427; places within a die's block: assumption 12). -/
def State.regWritable (s : State) (o : Nat) : Bool :=
  let d := (o - 0x40000) % 0x40000
  (0x1000 ≤ o && o < 0x1008) || (0x100C ≤ o && o < 0x1010) || (0x1020 ≤ o && o < 0x1028) || (0x2000 ≤ o && o < 0x3000) ||
    (0x10000 ≤ o && o < 0x11000 && o % 64 < 8) ||
    (0x20000 ≤ o && o < 0x22000 && o % 32 < 12 && !(s.queueOn ((o - 0x20000) / 32))) ||
    (0x40000 ≤ o && o < 0x240000 && (d < 0x900 || (0xC00 ≤ d && d < 0xC41) || (0xD00 ≤ d && d < 0xD10) || (0x1000 ≤ d && d < 0x10A0))) ||
    (0x300000 ≤ o && o < 0x340000)

/-- What a written byte keeps: the zero bits of a queue's flags stay zero (R427). -/
def regKeeps (o : Nat) (b : Byte) : Byte :=
  if 0x20000 ≤ o && o < 0x22000 then (if o % 32 == 9 then b &&& 7 else if o % 32 == 10 || o % 32 == 11 then 0 else b) else b

/-- A command of a context's control block (R426): the lowest-numbered bit acts. -/
def State.command (s : State) (ctx : Nat) (v : Nat) : State :=
  orElse s (if bit v 0 then execRun ctx s else if bit v 1 then execPreempt ctx s else if bit v 2 then execResume ctx s
    else if bit v 3 then execReset ctx s else .next s)

/-- The host ring's tail as written (R430): the device observes it. -/
def State.observeHostTail (s : State) : State := s.readTail 0 0 (Memory.num s.w0 0x100C 4)

/-- HOST_RING_TAIL_WRITE (R406, R430). -/
def execHostRingTailWrite (tail : Word) (s : State) : Host.Outcome State Fault Refusal :=
  .next ({ s with w0 := Memory.put s.w0 0x100C 4 tail.toNat }.observeHostTail)

/-- What follows from writing one byte of the control registers (R422, R425, R426). -/
def State.regEffect (s : State) (o : Nat) (b : Byte) : State :=
  if 0x10000 ≤ o && o < 0x11000 then
    let c := (o - 0x10000) / 64
    if o % 64 < 8 then
      s.modCtx c (fun x => if x.resident then x else { x with entry := Memory.num s.w0 (0x10000 + 64 * c) 8 })
    else if o % 64 == 8 then s.command c b.toNat
    else s
  else if 0x100C ≤ o && o < 0x1010 then s.observeHostTail
  else if 0x1020 ≤ o && o < 0x1028 then orElse s (execFreezeTickWrite (BitVec.ofNat 64 (Memory.num s.w0 0x1020 8)) s)
  else if 0x40000 ≤ o && o < 0x240000 && 0xD00 ≤ (o - 0x40000) % 0x40000 && (o - 0x40000) % 0x40000 < 0xD0C then
    s.modTrace ((o - 0x40000) / 0x40000) (fun t => { t with count := 0 })
  else s

/-- Writes bytes to the control registers: first they are stored, then they act. -/
def State.regWrite (s : State) (off : Nat) (l : List Byte) : State :=
  let bytes := l.mapIdx (fun i b => (off + i, b))
  let t := bytes.foldl (fun (t : State) (o, b) => if s.regWritable o then { t with w0 := Memory.set t.w0 o (regKeeps o b) } else t) s
  bytes.foldl (fun t (o, b) => t.regEffect o b) t

/-- CONTROL_REGISTER_WRITE (R315, R316, R334, R352, R414, R425 to R427). -/
def execControlRegisterWrite (off : Nat) (value : Dword) (size : Nat) (s : State) : Host.Outcome State Fault Refusal :=
  .next (s.regWrite off (leBytes (min size 8) value.toNat))

/-- A store of the package to control registers acts. -/
def State.regWriteDue (s : State) : State :=
  match s.regWrites with
  | [] => s
  | (o, l) :: rest => { s with regWrites := rest }.regWrite o l

/-- Writes part of a line of this package's memory for the host or for a peer package: at the line's point of coherence, which takes the
line from every L1 that holds it as a line of an atomic page (R228, R254). -/
def State.outsideWrite (s : State) (p : Nat) (l : List Byte) : State :=
  (s.ownerWrite (engineOrigin (p / 2 ^ 37)) [p] (0, 1) 0 l).dropCopies none (p / 128 * 128)

/-- HOST_ACCESS (R424): an access through W2; one that R211 would treat as a bad entry reads all ones and writes nothing. -/
def execHostAccess (off : Nat) (l : List Byte) (write : Bool) (s : State) : Host.Outcome State Fault Refusal :=
  let n := l.length
  let ok := off + n ≤ 2 ^ 40 && (linePieces off n).all (fun e => s.paExists e.1)
  .next (if !ok then
      let s := s.hostEvent 0x4A 0 0 off (bit01 write)
      if write then s else { s with reply := List.replicate n 0xFF }
    else if write then ((linePieces off n).foldl (fun (s, o) (p, k) => (s.outsideWrite p ((l.drop o).take k), o + k)) (s, 0)).1
    else { s with reply := s.physRead off n })

/-! ### Queues (R427 to R429) -/

/-- A queue's descriptor: base, entries, context, head and tail. -/
def State.queueBase (s : State) (q : Nat) : Nat := Memory.num s.w0 (0x20000 + 32 * q) 8
/-- Entries of a queue. -/
def State.queueSize (s : State) (q : Nat) : Nat := 2 ^ bits (Memory.num s.w0 (0x20000 + 32 * q + 8) 4) 0 4
/-- The context a queue belongs to. -/
def State.queueCtx (s : State) (q : Nat) : Nat := bits (Memory.num s.w0 (0x20000 + 32 * q + 8) 4) 4 6
/-- Index of the next entry the device reads. -/
def State.queueHead (s : State) (q : Nat) : Nat := Memory.num s.w0 (0x20000 + 32 * q + 12) 4
/-- The last tail notified. -/
def State.queueTail (s : State) (q : Nat) : Nat := Memory.num s.w0 (0x20000 + 32 * q + 16) 4

/-- QUEUE_NOTIFY (R428, R429): a queue that is not in service ignores it (assumption 19); a tail too far ahead stops the
queue. -/
def execQueueNotify (q : Nat) (tail : Word) (s : State) : Host.Outcome State Fault Refusal :=
  let s1 := { s with w0 := Memory.put s.w0 (0x20000 + 32 * q + 16) 4 tail.toNat }
  .next (if 256 ≤ q || !(s.queueOn q) then s
    else if s1.queueSize q < (tail.toNat + 2 ^ 32 - s1.queueHead q) % 2 ^ 32 then
      let w := Memory.num s1.w0 (0x20000 + 32 * q + 8) 4
      let s2 := { s1 with w0 := Memory.put (Memory.put s1.w0 (0x20000 + 32 * q + 8) 4 (w - 2 ^ 10)) (0x20000 + 32 * q + 0x14) 4 1 }
      s2.hostEvent 0x48 (s1.queueCtx q) 0 q (tail.toNat + s1.queueHead q * 2 ^ 32)
    else s1)

/-- The entry at a queue's head, where one waits. -/
def State.queueEntry (s : State) (q : Nat) : Option (List Byte) :=
  if s.queueOn q && s.queueHead q != s.queueTail q then
    some (s.physRead (s.queueBase q + 64 * (s.queueHead q % s.queueSize q)) 64)
  else none

/-- Whether an entry is malformed (R428). -/
def badQueueEntry (e : List Byte) : Bool :=
  let kind := leNat (e.take 1)
  2 < kind || leNat ((e.drop 1).take 7) != 0 || leNat (e.drop 16) != 0 || (kind == 2 && leNat ((e.drop 12).take 4) != 0)

/-- The queue passes its head. -/
def State.queuePass (s : State) (q : Nat) : State :=
  { s with w0 := Memory.put s.w0 (0x20000 + 32 * q + 12) 4 ((s.queueHead q + 1) % 2 ^ 32) }

/-- Takes the entry at a queue's head where its kind is among some: a malformed one is skipped with a record. -/
def State.queueTake (s : State) (q : Nat) (kinds : Nat → Bool) (act : Nat → State → State) : State :=
  match s.queueEntry q with
  | none => s
  | some e =>
    if !(kinds (leNat (e.take 1))) then s
    else if badQueueEntry e then (s.queuePass q).hostEvent 0x49 (s.queueCtx q) 0 q (s.queueHead q)
    else act (leNat ((e.drop 8).take 8)) s

/-- QUEUE_NO_OPERATION (R428): also the entries of reserved kinds. -/
def execQueueNoOperation (q : Nat) (s : State) : Host.Outcome State Fault Refusal :=
  .next (s.queueTake q (fun k => k != 1 && k != 2) (fun _ s => s.queuePass q))

/-- QUEUE_LAUNCH (R349, R428): it waits while D0's launch queue is full. -/
def execQueueLaunch (q : Nat) (s : State) : Host.Outcome State Fault Refusal :=
  .next (s.queueTake q (fun k => k == 1) (fun lpb s =>
    let seq := (s.die 0).sched.nextSeq
    if 64 ≤ (s.die 0).sched.queue.length then s
    else (s.queuePass q).modSched 0 (fun c => { c with
      queue := c.queue ++ [⟨seq, s.queueCtx q, lpb, none, none⟩], nextSeq := (seq + 1) % 2 ^ 31 })))

/-- QUEUE_NODE_DECREMENT (R329, R428). -/
def execQueueNodeDecrement (q : Nat) (s : State) : Host.Outcome State Fault Refusal :=
  .next (s.queueTake q (fun k => k == 2) (fun ref s => (s.queuePass q).post (s.queueCtx q) ref))

/-- Which entry a queue's head holds, for the step that takes it: 0, 1 or 2; a launch only where it has room. -/
def State.queueKind (s : State) (q : Nat) : Option Nat :=
  match s.queueEntry q with
  | none => none
  | some e =>
    let k := leNat (e.take 1)
    if k == 1 && !(badQueueEntry e) && 64 ≤ (s.die 0).sched.queue.length then none
    else some (if k == 1 || k == 2 then k else 0)

/-! ### Interrupts (R430) -/

/-- MSI_X_MASKING (R430): unmasking a pending vector sends its message. -/
def execMsiXMasking (v : Nat) (masked : Bool) (s : State) : Host.Outcome State Fault Refusal :=
  let x : MsiVec := { Map.getD s.msi v {} with masked := masked }
  .next (if 72 ≤ v then s
    else { s with msi := Map.set s.msi v (if !masked && x.pending then { x with pending := false, sent := x.sent + 1 } else x) })

/-! ### The mailbox (R431) -/

/-- A mailbox response replaces the request (R431): what it holds is the controller's (assumption 20). -/
def State.mailReply (s : State) : State :=
  let k := s.free
  let s := { s with free := k + 4096, w0 := Memory.write s.w0 0x2000 ((List.range 4096).map (fun i => Config.freeByte (k + i))) }
  let x := Map.getD s.msi 1 {}
  { s with msi := Map.set s.msi 1 x.send }

/-- ATTEST (R431). -/
def execAttest (nonce : List Byte) (s : State) : Host.Outcome State Fault Refusal :=
  .next (if nonce.length == 32 then s.mailReply else s)

/-- SET_CAP (R16, R431): other values are refused. -/
def execSetCap (watts : Nat) (s : State) : Host.Outcome State Fault Refusal :=
  .next ({ s with cap := if 600 ≤ watts && watts ≤ 2400 then watts else s.cap }.mailReply)

/-- Marks a unit for the next package reset (R434). -/
def State.markUnit (s : State) (u : UnitRef) : State := if s.marked.contains u then s else { s with marked := s.marked ++ [u] }

/-- RETIRE (R431, R434). -/
def execRetire (u : UnitRef) (s : State) : Host.Outcome State Fault Refusal := .next ((s.markUnit u).mailReply)

/-! ### Power and temperature (R16, R432) -/

/-- Whether the issue gate withholds opportunities from a core: never from a reserved one (R16, R432). -/
def State.isGated (s : State) (core : Nat) : Bool :=
  (s.capped || s.hot.contains (dieOf core)) && (s.reservedFor core).isNone

/-- POWER_CAP_ENFORCE (R16): the package draws `drawn` watts; where the gate already withholds all it may, a record says that
the cap is not met. -/
def execPowerCapEnforce (drawn : Nat) (s : State) : Host.Outcome State Fault Refusal :=
  .next (if drawn ≤ s.cap then { s with capped := false }
    else if s.capped then s.hostEvent 0x4B 0 0 s.cap drawn
    else { s with capped := true })

/-- THERMAL_LIMIT (R432): a sensor of a die reads a temperature, in tenths of a degree. -/
def execThermalLimit (die tenths : Nat) (s : State) : Host.Outcome State Fault Refusal :=
  .next (if tenths ≤ 1050 then { s with hot := s.hot.filter (· != die) }
    else ({ s with hot := die :: s.hot.filter (· != die) }).hostEvent 0x4C 0 0 die tenths)

/-- THERMAL_TRIP (R432): at 120 °C a record goes to the controller's flash and the package loses power. -/
def execThermalTrip (die tenths : Nat) (s : State) : Host.Outcome State Fault Refusal :=
  .next (if tenths < 1200 then s else { s with flash := s.flash ++ [(die, tenths, s.tick)], powered := false })

/-! ### Reset and time (R12, R14, R433, R434) -/

/-- The value the tick counters load (R14): floor(1.2 P) of the PTP time in nanoseconds, here in 2^-16 ns. -/
def ptpTicks (t : Nat) : Nat := 12 * t / (10 * 2 ^ 16) % 2 ^ 64

/-- What a reset leaves of the cores: the register-file capacity that is fused into each (R85). -/
def State.fusedCores (s : State) : Map Core :=
  (s.cores.filter (fun e => e.2.rfcap != 4096)).map (fun (k, c) => (k, { rfcap := c.rfcap }))

/-- RESET_RELEASE (R12, R14, R433, R434): everything is as after reset, but for what the package keeps outside its clocks;
marked units are out of service. -/
def execResetRelease (s : State) : Host.Outcome State Fault Refusal :=
  -- how long the package has been in reset is free
  let t := s.ptpTime + ptpValue s.free
  let tick := if s.ptpLocked then ptpTicks t else 0
  .next { State.reset with
    tick := tick, cores := s.fusedCores
    tickPtp := s.ptpLocked, ptpLocked := s.ptpLocked, ptpBase := if s.ptpLocked then (tick, t) else (0, 0)
    free := s.free + 1, inputs := s.inputs, pkg := s.pkg, peers := s.peers
    retired := s.retired ++ s.marked.filter (fun u => !(s.retired.contains u)), flash := s.flash, linksDown := s.linksDown }

/-- POWER_ON (R431): verified firmware runs; otherwise the package stays in reset. -/
def execPowerOn (verified : Bool) (s : State) : Host.Outcome State Fault Refusal :=
  .next { State.reset with
    powered := verified, free := s.free, inputs := s.inputs, pkg := s.pkg, cores := s.fusedCores
    retired := s.retired ++ s.marked.filter (fun u => !(s.retired.contains u)), flash := s.flash }

/-- PTP_LOCK (R14): a clock that becomes locked shows the time of its domain, which is free; from then on the tick counters keep their
rate to it. -/
def execPtpLock (locked : Bool) (s : State) : Host.Outcome State Fault Refusal :=
  let (k, t) := s.draw
  .next (if locked && !s.ptpLocked then { t with ptpLocked := true, ptpBase := (s.tick, ptpValue k) }
    else { s with ptpLocked := locked })

/-- PTP_STEERING (R13, R14): the trim changes no result and no relation between tick counters. -/
def execPtpSteering (s : State) : Host.Outcome State Fault Refusal := .next s

/-! ### Errors (R230, R231, R434) -/

/-- Notes an uncorrectable error of a unit: the third within 2^32 ticks marks the unit (R434). -/
def State.noteError (s : State) (u : UnitRef) : State :=
  let s := { s with errors := s.errors ++ [(u, s.tick)] }
  if 3 ≤ (s.errors.filter (fun e => e.1 == u && s.tick < e.2 + 2 ^ 32)).length then s.markUnit u else s

/-- The work-group whose region holds a line of a core's scratchpad. -/
def State.regionOwner (s : State) (core line : Nat) : Option Nat :=
  (s.wgs.find? (fun e => e.2.core == core && e.2.killed.isNone && e.2.base < 128 * line + 128 &&
    128 * line < e.2.base + (s.launch e.2.launch).scratch)).map (·.1)

/-- The work-group that holds a physical weight slot of a core (R193). -/
def State.slotHolder (s : State) (core phys : Nat) : Option Nat :=
  (s.wgs.find? (fun e => e.2.core == core && e.2.killed.isNone && e.2.wslots.any (fun (x : WSlot) => x.phys == phys))).map (·.1)

/-- An L1 word that an uncorrectable error has met is invalid (R230). -/
def L1Line.lose (x : L1Line) (word : Nat) : L1Line :=
  { x with valid := x.valid &&& ~~~(oneLane word), dirty := x.dirty &&& ~~~(oneLane word) }

/-- UNCORRECTABLE_ERROR (R193, R230, R231, R304, R387, R434): of a register, of a scratchpad line, of a word that an L1 holds, of a weight
slot's element or scale store, or of a line of L2, LLC or HBM. Which of a line's L2 slice and pseudo-channel the error counts
against is free (assumption 5). -/
def execUncorrectableError (site : ErrorSite) (s : State) : Host.Outcome State Fault Refusal :=
  .next (match site with
    | .register core wg => if s.coreOf wg == core then (s.noteError (.core core)).killForError wg else s.noteError (.core core)
    | .scratch core line =>
      let s := s.noteError (.core core)
      match s.regionOwner core line with
      | some g => s.killForError g
      | none => { s with scratch := Memory.clear s.scratch (scratchAddr core (128 * line)) 128 }
    | .l1 core asid gen line word =>
      let s := s.noteError (.core core)
      let here (x : L1Line) : Bool := x.asid == asid && x.gen == gen && x.vline == line
      let dirty := (s.core core).l1.any (fun x => here x && x.dirty.getLsbD word)
      let s := s.modCore core (fun c => { c with l1 := c.l1.map (fun x => if here x then x.lose word else x) })
      if dirty then
        ((s.wgs.filter (fun e => e.2.core == core && (s.ctx (s.launch e.2.launch).ctx).asid == asid &&
          (s.ctx (s.launch e.2.launch).ctx).gen == gen)).map (·.1)).foldl
          (fun s g => s.killForError g) s
      else s
    | .slot core phys =>
      let s := s.noteError (.core core)
      match s.slotHolder core phys with
      | some g => s.killForError g
      | none => s
    | .line addr =>
      let (k, s) := s.draw
      let s := s.noteError (if Config.freeBit k then .l2Slice (s.l2Slice addr) else .pseudoChannel (pchAt addr))
      { s with poison := if s.poison.contains (addr / 128) then s.poison else s.poison ++ [addr / 128] })

/-- SCRUB (R230): a bad reserved register kills its work-group; a bad free one is logged and zeroed. -/
def execScrub (core : Nat) (found : ScrubFinding) (s : State) : Host.Outcome State Fault Refusal :=
  .next (match found with
    | .clean => s
    | .singleBit => s
    | .reservedBad g => if s.coreOf g == core then (s.noteError (.core core)).killForError g else s
    | .freeBad _ => s.noteError (.core core))

/-! ### Requests from a peer package (R219) -/

/-- FORWARDED_ACCESS (R219, R265, R330, R349): a request of a peer package of at most one line, performed at this package's memory (an
atomic's bytes are its operand and, for a `.cas`, its new value); or a completion event for a node of this package, or what `TEDGE`,
`TSTAT` and `TREARM` ask of its scheduler. -/
def execForwardedAccess (kind : ForwardKind) (addr : Nat) (l : List Byte) (s : State) : Host.Outcome State Fault Refusal :=
  let there := s.paExists addr && decide (addr < 2 ^ 40)
  .next (match kind with
    | .load n => if there then { s with reply := s.physRead addr (min n (128 - addr % 128)) } else s
    | .store => if there then s.outsideWrite addr (l.take (128 - addr % 128)) else s
    | .atomic op x2 =>
      let n := if x2 then 8 else 4
      let old := s.physNum addr n
      let new := atomResult op (8 * n) old (leNat (l.take n)) (leNat ((l.drop n).take n))
      if there then { s.outsideWrite addr (leBytes n new) with reply := leBytes n old } else s
    | .decrement ctx ref => s.post ctx ref
    | .edge ctx src dst =>
      -- the far part has answered before this part is asked: a source there is good, a target there waits
      let (v, s) := s.edge ctx src dst (s.refNode src).isSome (s.refNode dst).isSome 0
      { s with reply := leBytes 4 v }
    | .stat ctx ref =>
      { s with reply := leBytes 4 (match s.ownNode ctx ref with
        | some (_, _, x) => x.pred + x.init * 2 ^ 16
        | none => 0xFFFFFFFF) }
    | .rearm ctx ref free =>
      match s.ownNode ctx ref with
      | some (die, n, _) =>
        let (v, s) := s.rearmNode die n free
        { s with reply := leBytes 4 v }
      | none => { s with reply := leBytes 4 3 })

end Sys2Proof.Machine
end

