-- ==== Sys2Proof/Machine/Events.lean ====
section
/-! DEFINITION. Steps of a core that are no word: arbitration and fetch, switches, wakes, barrier phases, loads, stores and
caches, traps, and legacy behaviour (R39, R43 to R45, R89, R91 to R97, R104, R105, R221, R227, R235, R241, R256, R257, R270,
R276 to R278, R389). -/

namespace Sys2Proof.Machine

/-! ### Waking (R95, R96) -/

/-- Whether what a wait asks for holds (R100, R104, R133, R196, R224, R301, R308, R319, R363, R367, R389, R401). -/
def State.waitOver (s : State) (r : FibRef) (c : WaitCond) : Bool :=
  let core := s.coreOf r.wg
  let die := dieOf core
  match c with
  | .present l => l.isEmpty
  | .barrier k n => n < (s.barrier k).phase
  | .window i w p =>
    match s.fib r with
    | some f => match (((Map.find s.wgs r.wg).bind (fun x => x.windows.find? (fun v => v.lslot == i && v.w == w))).bind
        (fun v => v.parts[p]?)) with
      | some q => q.full && q.owner == f.pos
      | none => true
    | none => true
  | .watch _ _ _ => false
  | .stage b parity _ => (s.stage b).fault || (s.stage b).phase != parity
  | .collective d h => !(((s.collOp d (s.ctxOf r.wg) h).map CollOp.pending).getD false)
  | .array w => !(s.arrayBusy r w)
  | .slot k b => !(s.referenced core k b) && !((s.slotAt r.wg k).any (fun x => decide (x.st = .loading)))
  | .regs l => ((s.fib r).map (fun f => !(f.owes l))).getD true
  | .owed => !(s.owesStores r)
  | .config t => !((s.core core).claims.any (fun c => c.ticket == t))
  | .pool t => s.claimGoes core t
  | .conv pc => match s.fib r with
    | some f => (lanesOf f.live).all (fun i => f.pcs.toList.getD i 0 == pc)
    | none => true
  | .log => !(s.logFull r)
  | .room k =>
    if k == 32 then ((s.die die).net.queue.filter (fun f => f.core == core)).length < 16
    else if k == 64 then s.collPlaces die < 64
    else (s.core core).cards.length + k ≤ 64
  | .ring c k => s.ringRoom c k
  | .save => s.saveGoes r

/-- A parked fibre that can issue again is ready. -/
def State.readyUp (s : State) (r : FibRef) : State :=
  s.modFib r (fun f => if decide (f.st = .parked) && f.canIssue then { f with st := .ready s.tick } else f)

/-- Ends the waits of a fibre that a test names. -/
def State.endWaits (s : State) (r : FibRef) (p : WaitCond → Bool) : State :=
  (s.modFib r (fun f => { f with waits := f.waits.filter (fun (w : Wait) => !(p w.cond)) })).readyUp r

/-- Whether a fibre has a wait that is over, or is parked and can issue. -/
def State.wakes (s : State) (r : FibRef) : Bool :=
  match s.fib r with
  | none => false
  | some f => f.waits.any (fun (w : Wait) => s.waitOver r w.cond) || (decide (f.st = .parked) && f.canIssue)

/-- FIBRE_READY (R94, R95, R224): every wait of a fibre that is over ends. -/
def execFibreReady (r : FibRef) (s : State) : Host.Outcome State Fault Refusal := .next (s.endWaits r (s.waitOver r))

/-- Whether a watch of a fibre has fired, and its entry. -/
def State.firedWatch (s : State) (r : FibRef) : Option Nat :=
  (s.fib r).bind (fun f => f.waits.findSome? (fun (w : Wait) =>
    match w.cond with
    | .watch (some e) _ _ => if ((Map.find (s.core (s.coreOf r.wg)).watches e).map (·.fired)).getD true then some e else none
    | _ => none))

/-- WATCH_FIRE (R270): the fibre reads again, and its watch entry is free. -/
def execWatchFire (r : FibRef) (s : State) : Host.Outcome State Fault Refusal :=
  .next (match s.firedWatch r with
    | none => s
    | some e =>
      (s.modCore (s.coreOf r.wg) (fun c => { c with watches := Map.del c.watches e })).endWaits r (fun c =>
        match c with
        | .watch (some k) _ _ => k == e
        | _ => false))

/-- Whether a wait without a watch entry has come to its retry. -/
def retryDue (tick : Nat) (c : WaitCond) : Bool :=
  match c with
  | .watch none t _ => decide (t ≤ tick)
  | _ => false

/-- Whether a fibre has such a wait. -/
def State.retries (s : State) (r : FibRef) : Bool :=
  match s.fib r with
  | some f => f.waits.any (fun (w : Wait) => retryDue s.tick w.cond)
  | none => false

/-- WATCH_RETRY (R270): without a watch entry the fibre reads again after 256 ticks. -/
def execWatchRetry (r : FibRef) (s : State) : Host.Outcome State Fault Refusal := .next (s.endWaits r (retryDue s.tick))

/-! ### Switches (R94, R95) -/

/-- Whether a slot is to switch: to a ready fibre other than its current one. A current fibre that stands in trap mode, its record
without a place or its breakpoint without a handler, lets the others run (R94, R416; assumption 77). -/
def State.switches (s : State) (core k : Nat) : Bool :=
  let p := s.pslot core k
  let others := (s.readyIn core k).filter (fun e => some e.2 != p.cur)
  !others.isEmpty && (match p.cur with
    | none => true
    | some r => p.due || (match s.fib r with
      | some f => f.isParked || f.stands
      | none => true))

/-- Whether the switch that is due was forced by a fibre that has been ready for 2,048 ticks. -/
def State.forced (s : State) (core k : Nat) : Bool :=
  let p := s.pslot core k
  p.due && p.cur.isSome && (s.readyIn core k).any (fun e => some e.2 != p.cur && e.1 + 2048 ≤ s.tick)

/-- A switch: the outgoing fibre's latches clear, and the fibre that has been ready longest becomes current. -/
def State.switchSlot (s : State) (core k : Nat) : State :=
  let p := s.pslot core k
  match longestReady ((s.readyIn core k).filter (fun e => some e.2 != p.cur)) with
  | none => s
  | some r =>
    let s := match p.cur with
      | none => s
      | some o => s.modFib o (fun f => { f.clearLatches with
          st := match f.st with
            | .current => if f.canIssue then .ready s.tick else .parked
            | x => x })
    (s.modFib r (fun f => { f with st := .current })).modSlot core k (fun p => { p with cur := some r, due := false })

/-- SLOT_SWITCH (R32, R94 to R96). -/
def execSlotSwitch (core slot : Nat) (s : State) : Host.Outcome State Fault Refusal :=
  .next (if s.switches core slot then s.switchSlot core slot else s)

/-- FORCED_SWITCH (R94): at a switch point of the current fibre, where another has been ready for 2,048 ticks. -/
def execForcedSwitch (core slot : Nat) (s : State) : Host.Outcome State Fault Refusal :=
  .next (if s.forced core slot then s.switchSlot core slot else s)

/-! ### Arbitration and fetch (R43 to R45, R91 to R93, R97) -/

/-- The paths of a fibre that can issue, by address, with their ageing counts. -/
def Fibre.paths (f : Fibre) : List (Nat × Nat) :=
  (lanesOf f.free).foldl (fun acc i =>
    let p := f.pcs.toList.getD i 0
    let a := f.ages.toList.getD i 0
    match Map.find acc p with
    | some b => Map.set acc p (max a b)
    | none => acc ++ [(p, a)]) []

/-- The path that issues (R91): an aged one, the highest count and then the lowest address first; otherwise the lowest
address. -/
def Fibre.choosePath (f : Fibre) : Option Nat :=
  match f.paths with
  | [] => none
  | x :: l => some (l.foldl (fun (b : Nat × Nat) y =>
      let best (p : Nat × Nat) : Nat := if 64 ≤ p.2 then p.2 else 0
      if best b < best y || (best b == best y && y.1 < b.1) then y else b) x).1

/-- The issue group of a fibre and its address: a word that `RTT` performs again comes first (R289, R411). -/
def Fibre.nextGroup (f : Fibre) : Option (Nat × Mask) :=
  let at' (p : Nat) : Mask := f.free &&& maskOf (fun i => f.pcs.toList.getD i 0 == p)
  match f.redo with
  | some (p, _, _) => if at' p != 0 then some (p, at' p) else f.choosePath.map (fun q => (q, at' q))
  | none => f.choosePath.map (fun q => (q, at' q))

/-- Whether a slot's current fibre can issue now, and which it is. -/
def State.issuer (s : State) (core k : Nat) : Option FibRef :=
  let p := s.pslot core k
  match p.cur with
  | none => none
  | some r =>
    match s.fib r with
    | none => none
    | some f =>
      let held := p.due && (s.readyIn core k).any (fun e => some e.2 != p.cur)
      if f.canIssue && decide (f.delayUntil ≤ s.tick) && !f.owesReissue && !held then some r else none

/-- The tick of a slot's last issue, counted from 1; 0 where it has issued nothing. -/
def PSlot.lastTick (p : PSlot) : Nat :=
  match p.last with
  | some (t, _) => t + 1
  | none => 0

/-- The slot a port serves (R91; assumption 21): of its two, the one that issued less recently. The spec does not say which where
neither has issued yet; the model takes the lower one (assumption 77). A port issues one word a tick. -/
def State.portSlot (s : State) (core port : Nat) : Option (Nat × FibRef) :=
  let la := (s.pslot core (2 * port)).lastTick
  let lb := (s.pslot core (2 * port + 1)).lastTick
  if s.tick < la || s.tick < lb then none
  else
    match s.issuer core (2 * port), s.issuer core (2 * port + 1) with
    | some x, some y => if lb < la then some (2 * port + 1, y) else some (2 * port, x)
    | some x, none => some (2 * port, x)
    | none, some y => some (2 * port + 1, y)
    | none, none => none

/-- Counts the request of a fetch to a page that is stored elsewhere (R219, R222): whether a word's fetch misses the caches, and so
makes one, is free (assumption 90). -/
def State.countFetch (s : State) (core : Nat) (t : TlbEntry) (va : Nat) : State :=
  if t.migratable then
    let (n, s) := s.draw
    if Config.freeBit n then s.countForward (clusterOf core) t (t.pa va) else s
  else s

/-- The three words at an address, each translated on its own, or the address that fails (R43, R44). Where code changes while its
launch is active, a fetched line may hold the old or the new contents (R45); the model always takes the present ones (assumption 78). -/
def State.fetchWord (s : State) (r : FibRef) (pc : Nat) : Except Nat (BitVec 96) × State :=
  let core := s.coreOf r.wg
  if pc % 4 != 0 then (.error pc, s)
  else
    match [0, 4, 8].foldl (fun (acc : Except Nat Nat × State) k =>
      match acc with
      | (.error e, s) => (.error e, s)
      | (.ok v, s) =>
        let va := (pc + k) % 2 ^ 64
        match s.translate (clusterOf core) (s.ctxOf r.wg) va .fetch with
        | (.error _, s) => (.error va, s)
        | (.ok t, s) =>
          let p := loadFrom t.home (t.pa va) (dieOf core)
          (.ok (v + s.physNum p 4 * 2 ^ (8 * k)), (s.countFetch core t va).meetPoison (s.ctxOf r.wg) (dieOf core) p)) (.ok 0, s) with
    | (.error e, s) => (.error e, s)
    | (.ok v, s) => (.ok (BitVec.ofNat 96 v), s)

/-- Fetches the next word of a fibre: it stands in `cur`, or the fibre takes an instruction-fetch trap. -/
def State.fetchNext (s : State) (r : FibRef) : State :=
  match s.fib r with
  | none => { s with cur := none }
  | some f =>
    match f.nextGroup with
    | none => { s with cur := none }
    | some (pc, m) =>
      match s.fetchWord r pc with
      | (.ok w, s) => { s with cur := some ⟨r, m, pc, w⟩ }
      | (.error va, s) =>
        let g := f.govOf m
        let a : Act := ⟨r, m, m, pc, 0, g⟩
        { (s.modFib r (fun f => f.turn m)).takeTrap r (underGov (a.trap 4 0 a.low va 0) g) with cur := none }

/-- INSTRUCTION_FETCH (R43 to R45). -/
def execInstructionFetch (r : FibRef) (s : State) : Host.Outcome State Fault Refusal := .next (s.fetchNext r)

/-- A word of a fibre that could issue and does not (R16, R97). -/
def State.stallAt (s : State) (r : FibRef) : State := { s.modFib r (fun f => { f with stalled := f.stalled + 1 }) with cur := none }

/-- Whether a fibre's word has been stalled or withheld as often as a word is at most (assumption 3). -/
def State.patient (s : State) (r : FibRef) : Bool := ((s.fib r).map (fun f => decide (f.stalled < Config.patience))).getD false

/-- Whether the issue gate withholds the opportunity of a fibre (R16): a free value. -/
def State.withheld (s : State) (core : Nat) (r : FibRef) : Bool × State :=
  if s.isGated core && s.patient r then (Config.freeBit s.free, s.draw.2) else (false, s)

/-- Whether governance covers a word: none of class 0x0, and no (!p7) word (R34, R97). -/
def governable (w : BitVec 96) : Bool := w.extractLsb' 92 4 != 0 && w.extractLsb' 81 4 != 0xF

/-- Whether a governed word meets a stall that lets another fibre of its slot in: a free value (R97; assumption 3). -/
def State.stalls (s : State) (core k : Nat) (c : Cur) : Bool × State :=
  let gov := ((s.fib c.ref).map (fun f => (f.govOf c.lanes).left != 0)).getD false
  if gov && governable c.bits && (s.readyIn core k).any (fun e => e.2 != c.ref) && s.patient c.ref then
    (Config.governedStall s.free, s.draw.2)
  else (false, s)

/-- ISSUE (R16, R91 to R93, R97): a port chooses the slot it serves, its current fibre and the issue group; the word it fetches
stands in `cur`, and its effect is the word's own. -/
def execIssue (core port : Nat) (s : State) : Host.Outcome State Fault Refusal :=
  .next (match s.portSlot core port with
    | none => { s with cur := none }
    | some (k, r) =>
      match s.withheld core r with
      | (true, s) => s.stallAt r
      | (false, s) =>
        let s := s.fetchNext r
        match s.cur with
        | none => s
        | some c =>
          match s.stalls core k c with
          | (true, s) => (s.yieldSlot r).stallAt r
          | (false, s) => s.modSlot core k (fun p => { p with last := some (s.tick, c), prev := p.last }))

/-! ### Barrier phases (R104, R105, R276 to R278) -/

/-- Joins the vectors of a work-group's participants in each of those that waited, and their frontier bits. -/
def State.joinPhase (s : State) (b : Barrier) (g : Nat) : State :=
  let v := (b.vecs.filter (fun e => e.1.wg == g)).foldl (fun m e => vecMax m e.2) []
  let parts := ((b.arrived.map (·.1)).filter (fun (r : FibRef) => r.wg == g)).map (fun (r : FibRef) => r.fib)
  let waiting := (b.waiting.filter (fun (r : FibRef) => r.wg == g)).map (fun (r : FibRef) => r.fib)
  let s := waiting.foldl (fun s k => s.modFib ⟨g, k⟩ (fun f => { f with vec := vecMax f.vec (Map.del v k) })) s
  s.modWg g (fun w => { w with frontier := w.frontier.map (fun (e : Frontier) =>
    if parts.any e.fibs.contains then { e with fibs := e.fibs ++ waiting.filter (fun k => !(e.fibs.contains k)) } else e) })

/-- Ages the race records of a launch that a test names. -/
def State.ageRecords (s : State) (launch : Nat) (p : LineMeta → Bool) (f : LineMeta → LineMeta) : State :=
  let one (m : LineMeta) : LineMeta := if m.launch == launch && p m then f m else m
  let all (m : Map LineMeta) : Map LineMeta := m.map (fun (k, x) => (k, one x))
  { s with records := all s.records, cores := s.cores.map (fun (k, (c : Core)) => (k, { c with records := all c.records })) }

/-- Counts an advance towards the clearing of the lost flags of some work-groups. -/
def State.countLost (s : State) (p : WorkGroup → Bool) (out : Bool) : State :=
  let one (w : WorkGroup) : WorkGroup := { w with lostIn := w.lostIn - 1, lostOut := if out then w.lostOut - 1 else w.lostOut }
  { s with wgs := s.wgs.map (fun (g, w) => (g, if p w then one w else w)) }

/-- The advance of a generation at the completion of a cluster or grid phase (R278). -/
def State.advanceGen (s : State) (k : BarKey) : State :=
  match k with
  | .clus id c _ =>
    let l := s.launch id
    let g := (Map.getD l.cgens c 0 + 1) % 8
    let s := s.modLaunch id (fun l => { l with cgens := Map.set l.cgens c g })
    let inside (m : LineMeta) : Bool := (Map.getD l.homes c []).contains m.writer
    let s := s.ageRecords id (fun m => inside m && m.cgen == (g + 1) % 8) (fun m => { m with cgen := (g + 2) % 8 })
    s.countLost (fun w => w.launch == id && w.cluster == c) false
  | .grid id =>
    let g := ((s.launch id).ggen + 1) % 8
    let s := s.modLaunch id (fun l => { l with ggen := g })
    let s := s.ageRecords id (fun m => m.ggen == (g + 1) % 8) (fun m => { m with ggen := (g + 2) % 8 })
    s.countLost (fun w => w.launch == id) true
  | _ => s

/-- BARRIER_PHASE_COMPLETE (R104, R105, R276 to R278): the threads that wait in the phase can pass. -/
def execBarrierPhaseComplete (k : BarKey) (s : State) : Host.Outcome State Fault Refusal :=
  .next (if s.phaseComplete k then
      let b := s.barrier k
      let s := ((b.arrived.map (fun e => e.1.wg)).eraseDups).foldl (fun s g => s.joinPhase b g) s
      (s.setBarrier k { phase := b.phase + 1 }).advanceGen k
    else s)

/-! ### Registers, loads, stores and caches -/

/-- REGISTER_RETURN (R89). -/
def execRegisterReturn (g : Nat) (s : State) : Host.Outcome State Fault Refusal := .next (s.modWg g (fun w => { w with returning := 0 }))

/-- LOAD_COMPLETE (R241): a load that has bound its value writes its registers. -/
def execLoadComplete (r : FibRef) (s : State) : Host.Outcome State Fault Refusal := .next (s.loadDone r)

/-- STORE_QUEUE_DRAIN (R235, R247, R249, R282, R288): the head of a fibre's store queue leaves it, or faults. -/
def execStoreQueueDrain (r : FibRef) (s : State) : Host.Outcome State Fault Refusal :=
  .next (match s.drainOne r with
    | none => s
    | some (s, none) => s
    | some (s, some t) => s.takeTrap r t)

/-- Changes the L1 lines of a core that stand for a virtual line. -/
def State.onLines (s : State) (core line : Nat) (p : L1Line → Bool) (f : State → L1Line → State) : State :=
  ((s.core core).l1.filter (fun (x : L1Line) => x.vline == line && p x)).foldl f s

/-- MERGING_FILL (R227): a fill that has been sent arrives. -/
def execMergingFill (core line : Nat) (s : State) : Host.Outcome State Fault Refusal :=
  .next (s.onLines core line (fun x => x.filling) (fun s x => s.fillLine core x))

/-- L1_WRITEBACK_TIMER (R227, R257): a line's dirty words go to their owner. -/
def execL1WritebackTimer (core line : Nat) (s : State) : Host.Outcome State Fault Refusal :=
  .next (s.cleanL1 core (fun x => x.vline == line && x.dirty != 0))

/-- REPLICA_APPLY (R214, R256, R257): a replica applies a store of its page, the oldest first; which replica comes next is
free. -/
def execReplicaApply (n : Nat) (s : State) : Host.Outcome State Fault Refusal :=
  .next (match s.replicas[n]? with
    | none => s
    | some x =>
      if (s.replicas.take n).any (·.follows x) then s
      else ({ s with replicas := s.replicas.eraseIdx n } : State).applyStore x)

/-- DIRTY_WRITE_OUT (R221): the dirty state that TLB entries have gathered goes to their leaf entries. -/
def State.dirtyOut (s : State) : State :=
  s.tlbs.foldl (fun s (k, _) =>
    let s := ((s.tlb k).entries.filter (fun (t : TlbEntry) => t.dirty)).foldl (fun s t => s.writeDirty t) s
    s.modTlb k (fun b => { b with entries := b.entries.map (fun (t : TlbEntry) => { t with dirty := false, setter := [] }) })) s

/-- DIRTY_WRITE_OUT (R221). -/
def execDirtyWriteOut (s : State) : Host.Outcome State Fault Refusal := .next s.dirtyOut

/-! ### Traps (R39, R389, R408) -/

/-- TRAP_ENTRY (R389 to R398): a fibre takes a trap; one that waits for a place in its ring goes on. -/
def execTrapEntry (r : FibRef) (t : TrapInfo) (s : State) : Host.Outcome State Fault Refusal :=
  .next (match (s.fib r).bind (·.trap) with
    | some x => if x.waiting then s.proceedTrap r else s.takeTrap r t
    | none => s.takeTrap r t)

/-- LEGACY_BEHAVIOUR (R39, R408): an installed emulation routine takes the word, whatever its guard leaves active. -/
def execLegacyBehaviour (neg : Bool) (gp : BitVec 3) (w : BitVec 96) (s : State) : Host.Outcome State Fault Refusal :=
  match s.cur with
  | none => .fault .noIssuer
  | some c =>
    match s.fib c.ref with
    | none => .fault .noIssuer
    | some f =>
      let p := if neg then ~~~(f.pred gp) else f.pred gp
      let a : Act := ⟨c.ref, c.lanes &&& p, c.lanes, c.pc, w, ⟨0, 0, 0⟩⟩
      let s := s.modFib c.ref (fun f => f.turn c.lanes)
      .next (if (s.ctx (s.ctxOf c.ref.wg)).emul != 0 then s.takeTrap c.ref (a.trap 0x28 0 a.low 0 0)
        else s.takeTrap c.ref (underGov (a.illegal 2) (f.govOf c.lanes)))

end Sys2Proof.Machine
end

