-- ==== Sys2Proof/Machine/Offers.lean ====
section
/-! DEFINITION. What the seedbeds offer and what idle cores take: clusters of launches and lane tasks (R332 to R336, R345 to R347). -/

namespace Sys2Proof.Machine

/-! ### Lane tasks (R345 to R347) -/

/-- The launch that a gathered fibre makes from its kernel, where the kernel is suitable (R347); its class is that of its tasks (R333,
R334). -/
def laneLaunch (ctx die kd seq cls : Nat) (k : Kernel) : Option Launch :=
  if k.fibres == 1 && k.cluster == 1 && !k.coresident && !k.determ && 2048 ≤ k.scratch then
    some { ctx := ctx, die := die, seq := seq, entry := k.entry, trapVec := k.trapVec, regs := k.regs, fibres := 1, cluster := 1
           plan := k.plan, scratch := k.scratch, windows := k.windows, checked := k.checked, reserve := cls == 4, prio := min cls 3
           kd := kd, mask := 2 ^ die, lane := true, started := true, order := [(0, die)] }
  else none

/-- Reads the kernel of some lane tasks of a class. -/
def State.laneKernel (s : State) (die : Nat) (t : LaneTask) (cls : Nat) : Option Launch × State :=
  match s.engineRead die t.ctx t.kd 256 with
  | (.ok b, s) => ((readKernel t.kd false b).bind (laneLaunch t.ctx die t.kd (s.die die).sched.gather cls), s)
  | (.error _, s) => (none, s)

/-- The lane tasks that wait in a pool, in order of entry; `far` leaves those that another die may take (R335, R345). -/
def State.tasksIn (s : State) (die : Nat) (pool : Option Nat) (far : Bool) : List (Entry × LaneTask) :=
  (s.die die).sched.seedbed.filterMap (fun e =>
    match e.work with
    | .task t =>
      if e.pool == pool && s.admits t.ctx && (!far || (e.cls != 4 && bit (leNat (t.arg.take 4)) 31)) then some (e, t) else none
    | _ => none)

/-- The tasks that a pool can dispatch as fibres now: those of one kernel, one context and one kind of core that are 32, or of which the
oldest has waited 64 ticks (R346). -/
def State.groupsIn (s : State) (die : Nat) (pool : Option Nat) (far : Bool) : List (List (Entry × LaneTask)) :=
  let tasks := s.tasksIn die pool far
  let key (x : Entry × LaneTask) : Nat × Nat × Bool := (x.2.kd, x.2.ctx, x.1.cls == 4)
  (oneOfEach key tasks).filterMap (fun x =>
    let l := (tasks.filter (fun y => key y == key x)).take 32
    if l.length == 32 || x.1.since + 64 ≤ s.tick then some l else none)

/-- The class of some tasks: that of the highest of them (assumption 89). -/
def groupClass (g : List (Entry × LaneTask)) : Nat := g.foldl (fun m x => max m x.1.cls) 0

/-- The pools of a die that hold lane tasks. -/
def State.taskPools (s : State) (die : Nat) : List (Option Nat) :=
  ((s.die die).sched.seedbed.filterMap (fun (e : Entry) =>
    match e.work with
    | .task _ => some e.pool
    | _ => none)).eraseDups

/-- Tasks of a pool that are ready and whose kernel is unsuitable (R347). -/
def State.badGroup (s : State) (die : Nat) (pool : Option Nat) : Option (List (Entry × LaneTask)) :=
  (s.groupsIn die pool false).find? (fun g =>
    match g.head? with
    | some (_, t) => (s.laneKernel die t (groupClass g)).1.isNone
    | none => false)

/-! ### Offers (R333) -/

/-- What a pool of a die has for cores (R333): its oldest entry with its class, the launch that it makes or belongs to; a cluster of it, or
tasks; whether it is for cores of other dies only; and where a co-resident launch goes as a whole. -/
structure Offer where
  die : Nat
  pool : Option Nat
  num : Nat
  since : Nat
  cls : Nat
  id : Nat
  launch : Launch
  cluster : Nat
  tasks : List (Entry × LaneTask)
  far : Bool
  plan : Option (List (Nat × Placement))
deriving Repr

/-- The offers of a die's lane tasks. -/
def State.laneOffers (s : State) (die : Nat) (far : Bool) : List Offer :=
  (s.taskPools die).flatMap (fun pool => (s.groupsIn die pool far).filterMap (fun g =>
    match g.head? with
    | some (e, t) => (s.laneKernel die t (groupClass g)).1.map (fun l =>
        { die := die, pool := pool, num := e.num, since := e.since, cls := groupClass g, id := 0, launch := l, cluster := 0, tasks := g
          far := far, plan := none })
    | none => none))

/-- The entries of a die that are clusters, with their launches. -/
def State.clusterEntries (s : State) (die : Nat) : List (Entry × Nat × Nat) :=
  (s.die die).sched.seedbed.filterMap (fun e =>
    match e.work with
    | .place id q => some (e, id, q)
    | _ => none)

/-- The offers of a die's clusters of launches that are not co-resident: of each launch, the oldest. -/
def State.clusterOffers (s : State) (die : Nat) : List Offer :=
  (oneOfEach (fun (x : Entry × Nat × Nat) => x.2.1)
    ((s.clusterEntries die).filter (fun x => !(s.launch x.2.1).coresident && s.mayAdmit (s.launch x.2.1)))).map (fun (e, id, q) =>
      { die := die, pool := e.pool, num := e.num, since := e.since, cls := e.cls, id := id, launch := s.launch id, cluster := q
        tasks := [], far := false, plan := none })

/-- The co-resident launches that could be admitted now, each as one offer of the age of its oldest cluster (R88). -/
def State.gridOffers (s : State) : List Offer :=
  s.launches.filterMap (fun (id, l) =>
    if !l.coresident || !(s.mayAdmit l) then none
    else
      let es := s.dies.flatMap (fun (d, _) => ((s.clusterEntries d).filter (fun x => x.2.1 == id)).map (fun x => (d, x.1)))
      match es with
      | [] => none
      | (d, e) :: rest =>
        let first := rest.foldl (fun (b : Nat × Entry) (x : Nat × Entry) => if x.2.since < b.2.since then x else b) (d, e)
        (s.placeAll l s.useOf).map (fun ps =>
          { die := first.1, pool := none, num := first.2.num, since := first.2.since, cls := l.cls, id := id, launch := l, cluster := 0
            tasks := [], far := false, plan := some ps }))

/-- Everything that cores could take. -/
def State.offers (s : State) : List Offer :=
  s.dies.flatMap (fun (d, _) => s.clusterOffers d ++ s.laneOffers d false ++ s.laneOffers d true) ++ s.gridOffers

/-! ### What a core takes (R335, R336) -/

/-- The place at which a core finds an offer (R335): 0 its own cluster's sub-pool, 1 the die pool, 2 the sub-pools of the die's other
clusters, 3 other dies. To take from another cluster or die is to steal, which the reserved class is spared. A die in single-queue service
has one place. -/
def Offer.stage (o : Offer) (core : Nat) (single : Bool) : Option Nat :=
  if o.plan.isSome then some 1
  else if o.die != dieOf core then (if o.far && !single then some 3 else none)
  else if o.far then none
  else match o.pool with
    | none => some 1
    | some c => if c == clusterOf core then some 0 else if single then some 1 else if o.cls == 4 then none else some 2

/-- The order in which a core looks at offers: by place, then the highest class, then the oldest (R333, R335); in single-queue service, in
order of entry (R336). -/
def Offer.rank (o : Offer) (single : Bool) (stage : Nat) : Nat :=
  if single then o.num else ((stage * 8 + (4 - o.cls)) * 2 ^ 64 + o.since) * 2 ^ 64 + o.num

/-- Where an offer goes if a core takes it. -/
def State.spot (s : State) (use : Nat → CoreUse) (o : Offer) (core : Nat) : Option Placement :=
  match o.plan with
  | some ps => (ps.find? (fun e => e.2.1.any (fun x => x.1 == core))).map (·.2)
  | none => placeOn o.launch s.rfcapOf use (s.clusterCores o.launch (clusterOf core)) o.launch.cluster (some core)

/-- What a core takes of some offers. -/
def State.takes (s : State) (all : List Offer) (use : Nat → CoreUse) (core : Nat) : Option (Offer × Placement) :=
  let single := (s.die (dieOf core)).sched.single
  let ranked := all.foldl (fun acc o =>
    match o.stage core single with
    | some k => insertKey (o.rank single k, o) acc
    | none => acc) []
  ranked.findSome? (fun e => (s.spot use e.2 core).map (fun p => (e.2, p)))

/-- The cores of a die that take something, in increasing order; in single-queue service, those that take what entered first (R336). -/
def State.takersOf (s : State) (all : List Offer) (die : Nat) : List (Nat × Offer × Placement) :=
  let l := (clustersOn [die]).flatMap (fun pc =>
    let cores := ((List.range 8).map (fun c => pc * 8 + c)).filter s.coreUp
    let uses := cores.map (fun c => (c, s.useOf c))
    cores.filterMap (fun c => (s.takes all (fun k => Map.getD uses k {}) c).map (fun x => (c, x))))
  if (s.die die).sched.single then
    match (l.map (fun x => x.2.1.num)).min? with
    | some n => l.filter (fun x => x.2.1.num == n)
    | none => []
  else l

/-- The cores that take something, with where it goes (R333, R335, R336). A co-resident launch is taken by all the cores that it needs
together (R88). -/
def State.takers (s : State) : List (Nat × Offer × Placement) :=
  let all := s.offers
  let l := ((List.range 8).filter (fun d => s.dieUp d && all.any (fun o => o.die == d || o.far || o.plan.isSome))).flatMap (s.takersOf all)
  l.filter (fun x =>
    match x.2.1.plan with
    | none => true
    | some ps => ps.all (fun e => e.2.1.all (fun y => l.any (fun z => z.1 == y.1 && z.2.1.plan.isSome && z.2.1.id == x.2.1.id))))

/-- One of some cores that could act: in single-queue service the lowest-numbered (R336), otherwise any of them (assumption 1). -/
def State.oneTaker (s : State) : List (Nat × Offer × Placement) → Option (Nat × Offer × Placement) × State
  | [] => (none, s)
  | x :: rest =>
    if rest.isEmpty || (s.die (dieOf x.1)).sched.single then (some x, s)
    else
      let (k, s) := s.draw
      ((x :: rest)[Config.pick k % (rest.length + 1)]?, s)

/-- Admits what a core has taken from a launch (R88, R335): one cluster at a placement, or all of them. -/
def State.admitOffer (s : State) (o : Offer) (p : Placement) : State :=
  let who := (List.range o.launch.cluster).map (fun i => (i, 0, 0))
  match o.plan with
  | some ps =>
    let s := s.modLaunch o.id (fun l => { l with unplaced := [] })
    let s := (s.waitingOf o.id).foldl (fun s (d, k) => s.takeEntry d k) s
    ps.foldl (fun s (q, p) => s.admitCluster o.id q who p) s
  | none => (s.takeEntry o.die o.num).admitCluster o.id o.cluster who p

/-- The cores that take work of a launch. -/
def State.takersFor (s : State) (id : Nat) : List (Nat × Offer × Placement) :=
  s.takers.filter (fun x => x.2.1.tasks.isEmpty && x.2.1.id == id)

/-- WORK_GROUP_ADMISSION (R86 to R88, R209, R210, R333, R335, R336): the work-groups of one cluster of a launch start, or of a whole
co-resident launch, on a core that takes them. -/
def execWorkGroupAdmission (id : Nat) (s : State) : Host.Outcome State Fault Refusal :=
  .next (match s.oneTaker (s.takersFor id) with
    | (some (_, o, p), s) => s.admitOffer o p
    | (none, s) => s)

/-! ### Gathering lane tasks (R335, R345 to R347) -/

/-- Drops lane tasks that cannot run, with a record for each (R347). -/
def State.dropTasks (s : State) (die : Nat) (g : List (Entry × LaneTask)) : State :=
  g.foldl (fun s (e, t) => (s.takeEntry die e.num).hostEvent 0x4E t.ctx die t.kd (leNat (t.arg.take 4))) s

/-- Starts a gathered fibre on a core (R346, R347). -/
def State.gatherOn (s : State) (core : Nat) (o : Offer) (slots : List (Option Nat)) (base : Nat) : State :=
  let s := o.tasks.foldl (fun s (e, _) => s.takeEntry o.die e.num) s
  let id := s.nextLaunch
  let l := { o.launch with die := dieOf core, mask := 2 ^ dieOf core, order := [(0, dieOf core)] }
  let s := { s with nextLaunch := id + 1, launches := Map.set s.launches id l }
  let s := s.modSched o.die (fun c => { c with gather := (c.gather + 1) % 2 ^ 32 })
  let (wg, s) := s.admitOne id l.seq 0 0 (0, 0) core base slots (maskOf (fun i => i < o.tasks.length))
  let s := o.tasks.mapIdx (fun i x => (i, x.2)) |>.foldl (fun s (i, t) =>
    { s with scratch := Memory.write s.scratch (scratchAddr core (base + 64 * i)) t.arg }) s
  s.modFib ⟨wg, 0⟩ (fun f => { f with
    regs := [(0, lanes (fun i => BitVec.ofNat 32 (64 * i))), (1, splat 0x00FFFE00)]
    task := o.tasks.mapIdx (fun i x => (i, x.2.kd)) })

/-- The pool that an event names: a cluster's, or with cluster 20 or above the die pool. -/
def poolNamed (die cluster : Nat) : Option Nat := if cluster < 20 then some (die * 20 + cluster) else none

/-- The cores that take tasks of a pool. -/
def State.takersFrom (s : State) (die : Nat) (pool : Option Nat) : List (Nat × Offer × Placement) :=
  s.takers.filter (fun x => !x.2.1.tasks.isEmpty && x.2.1.die == die && x.2.1.pool == pool)

/-- LANE_TASK_GATHER (R335, R345 to R347): tasks of a pool start as a fibre on a core that takes them, or are dropped. -/
def execLaneTaskGather (die cluster : Nat) (s : State) : Host.Outcome State Fault Refusal :=
  .next (match s.badGroup die (poolNamed die cluster) with
    | some g => s.dropTasks die g
    | none =>
      match s.oneTaker (s.takersFrom die (poolNamed die cluster)) with
      | (some (core, o, ps, base), s) =>
        match o.tasks.head?, ps.head? with
        | some (_, t), some (_, slots) => (s.laneKernel o.die t o.cls).2.gatherOn core o slots base
        | _, _ => s
      | (none, s) => s)

end Sys2Proof.Machine
end

