-- ==== Sys2Proof/Machine/Dispatch.lean ====
section
/-! DEFINITION. One arm for each row of the opcode table. -/

namespace Sys2Proof.Machine

/-- What one instruction or event does. -/
def exec (i : Instr) (s : State) : Host.Outcome State Fault Refusal :=
  match i with
  | .nop h => Sys2Proof.Machine.execNop h s
  | .bra h off => Sys2Proof.Machine.execBra h off s
  | .brx h u a => Sys2Proof.Machine.execBrx h u a s
  | .call h d off => Sys2Proof.Machine.execCall h d off s
  | .callx h u d a => Sys2Proof.Machine.execCallx h u d a s
  | .ret h a => Sys2Proof.Machine.execRet h a s
  | .exit h => Sys2Proof.Machine.execExit h s
  | .swp h n => Sys2Proof.Machine.execSwp h n s
  | .fyield h => Sys2Proof.Machine.execFyield h s
  | .fbar h id arv mask => Sys2Proof.Machine.execFbar h id arv mask s
  | .wgbar h id arv => Sys2Proof.Machine.execWgbar h id arv s
  | .clbar h id arv => Sys2Proof.Machine.execClbar h id arv s
  | .gbar h arv => Sys2Proof.Machine.execGbar h arv s
  | .wrel h w => Sys2Proof.Machine.execWrel h w s
  | .wacq h w => Sys2Proof.Machine.execWacq h w s
  | .iadd h u d a b x2 => Sys2Proof.Machine.execIadd h u d a b x2 s
  | .isub h u d a b x2 => Sys2Proof.Machine.execIsub h u d a b x2 s
  | .iaddc h u d a b cin cneg cout => Sys2Proof.Machine.execIaddc h u d a b cin cneg cout s
  | .imul h u d a b sgn part => Sys2Proof.Machine.execImul h u d a b sgn part s
  | .imad h u d a b c sgn wide => Sys2Proof.Machine.execImad h u d a b c sgn wide s
  | .imin h u d a b sgn => Sys2Proof.Machine.execImin h u d a b sgn s
  | .imax h u d a b sgn => Sys2Proof.Machine.execImax h u d a b sgn s
  | .iabs h u d a sat => Sys2Proof.Machine.execIabs h u d a sat s
  | .ineg h u d a x2 sat => Sys2Proof.Machine.execIneg h u d a x2 sat s
  | .idiv h u d a b sgn x2 => Sys2Proof.Machine.execIdiv h u d a b sgn x2 s
  | .irem h u d a b sgn x2 => Sys2Proof.Machine.execIrem h u d a b sgn x2 s
  | .icmp h u pd a b sgn x2 cc => Sys2Proof.Machine.execIcmp h u pd a b sgn x2 cc s
  | .iadds h u d a b sgn sub => Sys2Proof.Machine.execIadds h u d a b sgn sub s
  | .lea h u d a b sgn sh => Sys2Proof.Machine.execLea h u d a b sgn sh s
  | .logic h u d a b c lut => Sys2Proof.Machine.execLogic h u d a b c lut s
  | .shl h u d a b x2 => Sys2Proof.Machine.execShl h u d a b x2 s
  | .shr h u d a b sgn x2 => Sys2Proof.Machine.execShr h u d a b sgn x2 s
  | .rot h u d a b => Sys2Proof.Machine.execRot h u d a b s
  | .fsh h u d a b c left => Sys2Proof.Machine.execFsh h u d a b c left s
  | .popc h u d a x2 => Sys2Proof.Machine.execPopc h u d a x2 s
  | .clz h u d a x2 => Sys2Proof.Machine.execClz h u d a x2 s
  | .ctz h u d a x2 => Sys2Proof.Machine.execCtz h u d a x2 s
  | .brev h u d a x2 => Sys2Proof.Machine.execBrev h u d a x2 s
  | .bfx h u d a b sgn => Sys2Proof.Machine.execBfx h u d a b sgn s
  | .bfi h u d a b c => Sys2Proof.Machine.execBfi h u d a b c s
  | .prmt h u d a b c => Sys2Proof.Machine.execPrmt h u d a b c s
  | .sel h u d a b p pneg => Sys2Proof.Machine.execSel h u d a b p pneg s
  | .mov h u d a x2 => Sys2Proof.Machine.execMov h u d a x2 s
  | .movi h u d sgn x2 imm => Sys2Proof.Machine.execMovi h u d sgn x2 imm s
  | .movs h u d sr => Sys2Proof.Machine.execMovs h u d sr s
  | .pset h u pd pa pb pc lut => Sys2Proof.Machine.execPset h u pd pa pb pc lut s
  | .pmov h u d => Sys2Proof.Machine.execPmov h u d s
  | .pmovIn h u a mask => Sys2Proof.Machine.execPmovIn h u a mask s
  | .ballot h d p pneg cnt conv => Sys2Proof.Machine.execBallot h d p pneg cnt conv s
  | .vote h pd p pneg mode conv => Sys2Proof.Machine.execVote h pd p pneg mode conv s
  | .shfl h d a b mode seg zf conv => Sys2Proof.Machine.execShfl h d a b mode seg zf conv s
  | .matchx h d a x2 low conv => Sys2Proof.Machine.execMatch h d a x2 low conv s
  | .lredi h d a sgn q op conv => Sys2Proof.Machine.execLredi h d a sgn q op conv s
  | .lscan h d a sgn q excl op conv => Sys2Proof.Machine.execLscan h d a sgn q excl op conv s
  | .elect h pd high conv => Sys2Proof.Machine.execElect h pd high conv s
  | .fadd h u d a b rnd sat => Sys2Proof.Machine.execFadd h u d a b rnd sat s
  | .fsub h u d a b rnd sat => Sys2Proof.Machine.execFsub h u d a b rnd sat s
  | .fmul h u d a b rnd sat => Sys2Proof.Machine.execFmul h u d a b rnd sat s
  | .ffma h u d a b c rnd sat => Sys2Proof.Machine.execFfma h u d a b c rnd sat s
  | .fmin h u d a b => Sys2Proof.Machine.execFmin h u d a b s
  | .fmax h u d a b => Sys2Proof.Machine.execFmax h u d a b s
  | .fminn h u d a b => Sys2Proof.Machine.execFminn h u d a b s
  | .fmaxn h u d a b => Sys2Proof.Machine.execFmaxn h u d a b s
  | .fcmp h u pd a b cc => Sys2Proof.Machine.execFcmp h u pd a b cc s
  | .fabs h u d a => Sys2Proof.Machine.execFabs h u d a s
  | .fneg h u d a => Sys2Proof.Machine.execFneg h u d a s
  | .fclass h u d a => Sys2Proof.Machine.execFclass h u d a s
  | .fdiv h u d a b rnd => Sys2Proof.Machine.execFdiv h u d a b rnd s
  | .fsqrt h u d a rnd => Sys2Proof.Machine.execFsqrt h u d a rnd s
  | .frcp h u d a rnd => Sys2Proof.Machine.execFrcp h u d a rnd s
  | .frsq h u d a rnd => Sys2Proof.Machine.execFrsq h u d a rnd s
  | .fexp2 h u d a rnd => Sys2Proof.Machine.execFexp2 h u d a rnd s
  | .flog2 h u d a rnd => Sys2Proof.Machine.execFlog2 h u d a rnd s
  | .fsin h u d a rnd => Sys2Proof.Machine.execFsin h u d a rnd s
  | .fcos h u d a rnd => Sys2Proof.Machine.execFcos h u d a rnd s
  | .ftanh h u d a rnd => Sys2Proof.Machine.execFtanh h u d a rnd s
  | .flredm h d a max q conv => Sys2Proof.Machine.execFlredm h d a max q conv s
  | .flredmTile h d a tile max => Sys2Proof.Machine.execFlredmTile h d a tile max s
  | .flsum h d a rnd q conv => Sys2Proof.Machine.execFlsum h d a rnd q conv s
  | .fscale h u d a b rnd sat => Sys2Proof.Machine.execFscale h u d a b rnd sat s
  | .fcvt h u d a rnd sat fmt => Sys2Proof.Machine.execFcvt h u d a rnd sat fmt s
  | .fcvtWid h u d a fmt => Sys2Proof.Machine.execFcvtWid h u d a fmt s
  | .f2i h u d a sgn x2 rnd => Sys2Proof.Machine.execF2i h u d a sgn x2 rnd s
  | .i2f h u d a sgn x2 rnd => Sys2Proof.Machine.execI2f h u d a sgn x2 rnd s
  | .frnd h u d a rnd => Sys2Proof.Machine.execFrnd h u d a rnd s
  | .fpack h u d a b c rnd sat fmt pos => Sys2Proof.Machine.execFpack h u d a b c rnd sat fmt pos s
  | .funpk h u d a idx x2 fmt => Sys2Proof.Machine.execFunpk h u d a idx x2 fmt s
  | .hadd2 h u d a b rnd sat fmt => Sys2Proof.Machine.execHadd2 h u d a b rnd sat fmt s
  | .hmul2 h u d a b rnd sat fmt => Sys2Proof.Machine.execHmul2 h u d a b rnd sat fmt s
  | .hfma2 h u d a b c rnd sat fmt => Sys2Proof.Machine.execHfma2 h u d a b c rnd sat fmt s
  | .hmin2 h u d a b num fmt => Sys2Proof.Machine.execHmin2 h u d a b num fmt s
  | .hmax2 h u d a b num fmt => Sys2Proof.Machine.execHmax2 h u d a b num fmt s
  | .qscale h u d a fit fmt => Sys2Proof.Machine.execQscale h u d a fit fmt s
  | .qnt h u d a b c rnd sat fmt pos => Sys2Proof.Machine.execQnt h u d a b c rnd sat fmt pos s
  | .bincv h u d a b rnd => Sys2Proof.Machine.execBincv h u d a b rnd s
  | .binadd h u d a b => Sys2Proof.Machine.execBinadd h u d a b s
  | .binfp h u d a b rnd => Sys2Proof.Machine.execBinfp h u d a b rnd s
  | .mmaq h t a slot asc sclast sc la lb lc wa wb wc ta tb tc rnd fa fb qoff => Sys2Proof.Machine.execMmaq h t a slot asc sclast sc la lb lc wa wb wc ta tb tc rnd fa fb qoff s
  | .mmaqs h t a slot asc la lb lc wa wb wc ta tb tc rnd fa fb qoff => Sys2Proof.Machine.execMmaqs h t a slot asc la lb lc wa wb wc ta tb tc rnd fa fb qoff s
  | .mzero h t mon => Sys2Proof.Machine.execMzero h t mon s
  | .mrd h d a b tile rnd sat fmt => Sys2Proof.Machine.execMrd h d a b tile rnd sat fmt s
  | .mwr h t a b c => Sys2Proof.Machine.execMwr h t a b c s
  | .mldt h t a off => Sys2Proof.Machine.execMldt h t a off s
  | .mstt h t a rnd sat fmt off => Sys2Proof.Machine.execMstt h t a rnd sat fmt off s
  | .msend h t a rnd sat fmt => Sys2Proof.Machine.execMsend h t a rnd sat fmt s
  | .msync h wg => Sys2Proof.Machine.execMsync h wg s
  | .mcfg h a => Sys2Proof.Machine.execMcfg h a s
  | .mcfgr h d => Sys2Proof.Machine.execMcfgr h d s
  | .wload h a slot off => Sys2Proof.Machine.execWload h a slot off s
  | .wdict h a slot => Sys2Proof.Machine.execWdict h a slot s
  | .wset h a slot => Sys2Proof.Machine.execWset h a slot s
  | .wfree h slot => Sys2Proof.Machine.execWfree h slot s
  | .wqry h d slot => Sys2Proof.Machine.execWqry h d slot s
  | .mmon h d tile ctr clr => Sys2Proof.Machine.execMmon h d tile ctr clr s
  | .ld h u d a size sgn hint off => Sys2Proof.Machine.execLd h u d a size sgn hint off s
  | .st h a b size hint off => Sys2Proof.Machine.execSt h a b size hint off s
  | .lds h u d a size sgn off => Sys2Proof.Machine.execLds h u d a size sgn off s
  | .sts h a b size off => Sys2Proof.Machine.execSts h a b size off s
  | .ldc h u d a size sgn useA off => Sys2Proof.Machine.execLdc h u d a size sgn useA off s
  | .pref h u a l2 off => Sys2Proof.Machine.execPref h u a l2 off s
  | .pres h pd a off => Sys2Proof.Machine.execPres h pd a off s
  | .pclr h a b set off => Sys2Proof.Machine.execPclr h a b set off s
  | .cwb h a all off => Sys2Proof.Machine.execCwb h a all off s
  | .cinv h a all off => Sys2Proof.Machine.execCinv h a all off s
  | .lock h d a b off => Sys2Proof.Machine.execLock h d a b off s
  | .unlock h d a b off => Sys2Proof.Machine.execUnlock h d a b off s
  | .atom h d a b op x2 ord scope off => Sys2Proof.Machine.execAtom h d a b op x2 ord scope off s
  | .red h a b op x2 ord scope off => Sys2Proof.Machine.execRed h a b op x2 ord scope off s
  | .ldacq h d a size sgn scope off => Sys2Proof.Machine.execLdacq h d a size sgn scope off s
  | .strel h a b size scope off => Sys2Proof.Machine.execStrel h a b size scope off s
  | .fence h scope => Sys2Proof.Machine.execFence h scope s
  | .waitv h d a b cc sgn x2 scope off => Sys2Proof.Machine.execWaitv h d a b cc sgn x2 scope off s
  | .hbpub h a scope off => Sys2Proof.Machine.execHbpub h a scope off s
  | .hbjoin h d a scope off => Sys2Proof.Machine.execHbjoin h d a scope off s
  | .racectlTrap h => Sys2Proof.Machine.execRacectlTrap h s
  | .racectlReport h => Sys2Proof.Machine.execRacectlReport h s
  | .racectlOff h => Sys2Proof.Machine.execRacectlOff h s
  | .racectlOn h => Sys2Proof.Machine.execRacectlOn h s
  | .racectlRdun h d => Sys2Proof.Machine.execRacectlRdun h d s
  | .racectlForget h a b off => Sys2Proof.Machine.execRacectlForget h a b off s
  | .hbclk h d => Sys2Proof.Machine.execHbclk h d s
  | .hbclkVec h d a => Sys2Proof.Machine.execHbclkVec h d a s
  | .cpyk h a n off => Sys2Proof.Machine.execCpyk h a n off s
  | .sbinit h a b off => Sys2Proof.Machine.execSbinit h a b off s
  | .sbadd h a b off => Sys2Proof.Machine.execSbadd h a b off s
  | .sbwait h a b off => Sys2Proof.Machine.execSbwait h a b off s
  | .sbtest h d a off => Sys2Proof.Machine.execSbtest h d a off s
  | .cpyres h a off => Sys2Proof.Machine.execCpyres h a off s
  | .nrxarm h d a ring off => Sys2Proof.Machine.execNrxarm h d a ring off s
  | .ntx h d a b ts p1 off => Sys2Proof.Machine.execNtx h d a b ts p1 off s
  | .ntsrSt h d a => Sys2Proof.Machine.execNtsrSt h d a s
  | .ntsrTick h d a => Sys2Proof.Machine.execNtsrTick h d a s
  | .ntsrPtp h d a => Sys2Proof.Machine.execNtsrPtp h d a s
  | .launch h d a off => Sys2Proof.Machine.execLaunch h d a off s
  | .tnode h d a off => Sys2Proof.Machine.execTnode h d a off s
  | .tedge h d a b => Sys2Proof.Machine.execTedge h d a b s
  | .tdone h a => Sys2Proof.Machine.execTdone h a s
  | .tspawn h d a b off => Sys2Proof.Machine.execTspawn h d a b off s
  | .tstat h d a => Sys2Proof.Machine.execTstat h d a s
  | .trearm h d a => Sys2Proof.Machine.execTrearm h d a s
  | .trearmFree h d a => Sys2Proof.Machine.execTrearmFree h d a s
  | .cred h d a off => Sys2Proof.Machine.execCred h d a off s
  | .crsc h d a off => Sys2Proof.Machine.execCrsc h d a off s
  | .cagt h d a off => Sys2Proof.Machine.execCagt h d a off s
  | .cbct h d a off => Sys2Proof.Machine.execCbct h d a off s
  | .cwait h d a => Sys2Proof.Machine.execCwait h d a s
  | .cstat h d a what => Sys2Proof.Machine.execCstat h d a what s
  | .sqtab h d a tab off => Sys2Proof.Machine.execSqtab h d a tab off s
  | .sqdef h d a off => Sys2Proof.Machine.execSqdef h d a off s
  | .sqgo h d a => Sys2Proof.Machine.execSqgo h d a s
  | .sqstat h d a b what => Sys2Proof.Machine.execSqstat h d a b what s
  | .sqabt h d a free => Sys2Proof.Machine.execSqabt h d a free s
  | .trap h code kill => Sys2Proof.Machine.execTrap h code kill s
  | .rtt h => Sys2Proof.Machine.execRtt h s
  | .rttSkip h => Sys2Proof.Machine.execRttSkip h s
  | .sets h sr a => Sys2Proof.Machine.execSets h sr a s
  | .ychk h d => Sys2Proof.Machine.execYchk h d s
  | .wgsave h d a b off => Sys2Proof.Machine.execWgsave h d a b off s
  | .ecnt h d => Sys2Proof.Machine.execEcnt h d s
  | .tlbinvPage h a b => Sys2Proof.Machine.execTlbinvPage h a b s
  | .tlbinvAsid h b => Sys2Proof.Machine.execTlbinvAsid h b s
  | .tlbinvAll h => Sys2Proof.Machine.execTlbinvAll h s
  | .asidnew h d a => Sys2Proof.Machine.execAsidnew h d a s
  | .harvest h all => Sys2Proof.Machine.execHarvest h all s
  | .logrdEnt h d e w => Sys2Proof.Machine.execLogrdEnt h d e w s
  | .logrdG h d n => Sys2Proof.Machine.execLogrdG h d n s
  | .logrdPut h a n => Sys2Proof.Machine.execLogrdPut h a n s
  | .bkpt h code => Sys2Proof.Machine.execBkpt h code s
  | .tick h d => Sys2Proof.Machine.execTick h d s
  | .ptprd h d => Sys2Proof.Machine.execPtprd h d s
  | .stallrd h d k clr => Sys2Proof.Machine.execStallrd h d k clr s
  | .trace h a tag => Sys2Proof.Machine.execTrace h a tag s
  | .progrWg h d => Sys2Proof.Machine.execProgrWg h d s
  | .progrPark h d a => Sys2Proof.Machine.execProgrPark h d a s
  | .legacyBehaviour neg gp w => Sys2Proof.Machine.execLegacyBehaviour neg gp w s
  | .registerReturn wg => Sys2Proof.Machine.execRegisterReturn wg s
  | .slotSwitch core slot => Sys2Proof.Machine.execSlotSwitch core slot s
  | .forcedSwitch core slot => Sys2Proof.Machine.execForcedSwitch core slot s
  | .fibreReady r => Sys2Proof.Machine.execFibreReady r s
  | .barrierPhaseComplete k => Sys2Proof.Machine.execBarrierPhaseComplete k s
  | .loadComplete r => Sys2Proof.Machine.execLoadComplete r s
  | .storeQueueDrain r => Sys2Proof.Machine.execStoreQueueDrain r s
  | .mergingFill core line => Sys2Proof.Machine.execMergingFill core line s
  | .l1WritebackTimer core line => Sys2Proof.Machine.execL1WritebackTimer core line s
  | .replicaApply n => Sys2Proof.Machine.execReplicaApply n s
  | .watchFire r => Sys2Proof.Machine.execWatchFire r s
  | .watchRetry r => Sys2Proof.Machine.execWatchRetry r s
  | .relaunch n => Sys2Proof.Machine.execRelaunch n s
  | .quarterReady core => Sys2Proof.Machine.execQuarterReady core s
  | .passOpen core => Sys2Proof.Machine.execPassOpen core s
  | .weightSlotLoad core => Sys2Proof.Machine.execWeightSlotLoad core s
  | .quarterCommit core => Sys2Proof.Machine.execQuarterCommit core s
  | .wloadComplete core slot => Sys2Proof.Machine.execWloadComplete core slot s
  | .wloadFault r slot addr sub => Sys2Proof.Machine.execWloadFault r slot addr sub s
  | .copyCardStart core card => Sys2Proof.Machine.execCopyCardStart core card s
  | .copyDelivery core card => Sys2Proof.Machine.execCopyDelivery core card s
  | .copyComplete core card => Sys2Proof.Machine.execCopyComplete core card s
  | .copyFault core card => Sys2Proof.Machine.execCopyFault core card s
  | .frameSent die handle => Sys2Proof.Machine.execFrameSent die handle s
  | .frameNodeDispatch die node => Sys2Proof.Machine.execFrameNodeDispatch die node s
  | .decrementArrival n => Sys2Proof.Machine.execDecrementArrival n s
  | .seedbedDispatch die => Sys2Proof.Machine.execSeedbedDispatch die s
  | .nodeComplete die node => Sys2Proof.Machine.execNodeComplete die node s
  | .launchStart die => Sys2Proof.Machine.execLaunchStart die s
  | .workGroupAdmission launch => Sys2Proof.Machine.execWorkGroupAdmission launch s
  | .workGroupComplete wg => Sys2Proof.Machine.execWorkGroupComplete wg s
  | .clusterRetire launch => Sys2Proof.Machine.execClusterRetire launch s
  | .launchComplete launch => Sys2Proof.Machine.execLaunchComplete launch s
  | .laneTaskGather die cluster => Sys2Proof.Machine.execLaneTaskGather die cluster s
  | .collectiveNodeDispatch die node => Sys2Proof.Machine.execCollectiveNodeDispatch die node s
  | .streamRow die op => Sys2Proof.Machine.execStreamRow die op s
  | .collectiveComplete die op => Sys2Proof.Machine.execCollectiveComplete die op s
  | .collectiveFault die op reason => Sys2Proof.Machine.execCollectiveFault die op reason s
  | .sequenceStartNode die node => Sys2Proof.Machine.execSequenceStartNode die node s
  | .stageInputs die place => Sys2Proof.Machine.execStageInputs die place s
  | .returnNodeDispatch die node => Sys2Proof.Machine.execReturnNodeDispatch die node s
  | .sequenceEnd die place => Sys2Proof.Machine.execSequenceEnd die place s
  | .resumeWorkGroup n => Sys2Proof.Machine.execResumeWorkGroup n s
  | .deadlineExpiry ctx => Sys2Proof.Machine.execDeadlineExpiry ctx s
  | .contextFault ctx kind => Sys2Proof.Machine.execContextFault ctx kind s
  | .preempted ctx => Sys2Proof.Machine.execPreempted ctx s
  | .queueNoOperation q => Sys2Proof.Machine.execQueueNoOperation q s
  | .queueLaunch q => Sys2Proof.Machine.execQueueLaunch q s
  | .queueNodeDecrement q => Sys2Proof.Machine.execQueueNodeDecrement q s
  | .sample die => Sys2Proof.Machine.execSample die s
  | .issue core port => Sys2Proof.Machine.execIssue core port s
  | .instructionFetch r => Sys2Proof.Machine.execInstructionFetch r s
  | .trapEntry r t => Sys2Proof.Machine.execTrapEntry r t s
  | .collectiveRefused die op reason => Sys2Proof.Machine.execCollectiveRefused die op reason s
  | .scrub core found => Sys2Proof.Machine.execScrub core found s
  | .uncorrectableError site => Sys2Proof.Machine.execUncorrectableError site s
  | .frameReceive die port frame => Sys2Proof.Machine.execFrameReceive die port frame s
  | .linkDown die port => Sys2Proof.Machine.execLinkDown die port s
  | .breakpointResume r => Sys2Proof.Machine.execBreakpointResume r s
  | .breakpointKill r => Sys2Proof.Machine.execBreakpointKill r s
  | .waitForGraph ctx => Sys2Proof.Machine.execWaitForGraph ctx s
  | .run ctx => Sys2Proof.Machine.execRun ctx s
  | .preempt ctx => Sys2Proof.Machine.execPreempt ctx s
  | .resume ctx => Sys2Proof.Machine.execResume ctx s
  | .reset ctx => Sys2Proof.Machine.execReset ctx s
  | .queueNotify q tail => Sys2Proof.Machine.execQueueNotify q tail s
  | .hostRingTailWrite tail => Sys2Proof.Machine.execHostRingTailWrite tail s
  | .hostAccess off bytes write => Sys2Proof.Machine.execHostAccess off bytes write s
  | .controlRegisterWrite off value size => Sys2Proof.Machine.execControlRegisterWrite off value size s
  | .attest nonce => Sys2Proof.Machine.execAttest nonce s
  | .setCap watts => Sys2Proof.Machine.execSetCap watts s
  | .retire unit => Sys2Proof.Machine.execRetire unit s
  | .powerCapEnforce drawn => Sys2Proof.Machine.execPowerCapEnforce drawn s
  | .thermalLimit die tenths => Sys2Proof.Machine.execThermalLimit die tenths s
  | .thermalTrip die tenths => Sys2Proof.Machine.execThermalTrip die tenths s
  | .freezeTickWrite value => Sys2Proof.Machine.execFreezeTickWrite value s
  | .powerOn verified => Sys2Proof.Machine.execPowerOn verified s
  | .forwardedAccess kind addr bytes => Sys2Proof.Machine.execForwardedAccess kind addr bytes s
  | .ualinkDomainJoinOrLeave die pkg joins => Sys2Proof.Machine.execUalinkDomainJoinOrLeave die pkg joins s
  | .ethernetLinkChange die port up => Sys2Proof.Machine.execEthernetLinkChange die port up s
  | .ptpLock locked => Sys2Proof.Machine.execPtpLock locked s
  | .msiXMasking vector masked => Sys2Proof.Machine.execMsiXMasking vector masked s
  | .freezeReadOut => Sys2Proof.Machine.execFreezeReadOut s
  | .freezeN => Sys2Proof.Machine.execFreezeN s
  | .freeze => Sys2Proof.Machine.execFreeze s
  | .observationPortRead => Sys2Proof.Machine.execObservationPortRead s
  | .resetRelease => Sys2Proof.Machine.execResetRelease s
  | .ptpSteering => Sys2Proof.Machine.execPtpSteering s
  | .dirtyWriteOut => Sys2Proof.Machine.execDirtyWriteOut s

end Sys2Proof.Machine
end

