-- ==== Sys2Proof/Machine/Schedule.lean ====
section
/-! DEFINITION. What the package can do next, and the passing of time: the steps its units could take now, the choice among
them, one word as a whole, and what follows from a change of the tick counter (R12, R91, R221, R407, R413, R415, R422). -/

namespace Sys2Proof.Machine

/-- An action where a test holds. -/
def act? (b : Bool) (a : Action) : List Action := if b then [a] else []

/-! ### What each unit can do -/

/-- Actions of a fibre. -/
def State.fibreActions (s : State) (r : FibRef) (f : Fibre) : List Action :=
  act? (!f.loads.isEmpty) (.event (.loadComplete r)) ++
  act? (!f.stands && (match f.curQueue with
    | e :: _ => !e.frozen
    | [] => false)) (.event (.storeQueueDrain r)) ++
  act? (s.wakes r) (.event (.fibreReady r)) ++
  act? (s.firedWatch r).isSome (.event (.watchFire r)) ++
  act? (s.retries r) (.event (.watchRetry r)) ++
  act? (s.trapGoes r f) (.trap r) ++
  act? (s.reissueGoes r f) (.reissue r)

/-- Actions of a work-group. -/
def State.wgActions (s : State) (g : Nat) (w : WorkGroup) : List Action :=
  act? (s.wgEnded g) (.event (.workGroupComplete g)) ++
  act? (w.returning != 0) (.event (.registerReturn g)) ++
  w.wslots.flatMap (fun (x : WSlot) => act? (decide (x.st = .loading)) (.event (.wloadComplete w.core x.phys))) ++
  w.fibres.flatMap (fun (k, f) => s.fibreActions ⟨g, k⟩ f)

/-- Actions of a copy card. -/
def State.cardActions (s : State) (core : Nat) (c : Card) : List Action :=
  act? ((s.core core).canStart c) (.event (.copyCardStart core c.num)) ++
  (if c.started then
    if c.rcd.total ≤ c.done then [.event (.copyComplete core c.num)]
    else match (s.pieceRead c).1 with
      | .ok _ => [.event (.copyDelivery core c.num)]
      | .error _ => [.event (.copyFault core c.num)]
  else [])

/-- Actions of a core: its ports, slots, array, copy engine and L1. -/
def State.coreActions (s : State) (core : Nat) (c : Core) : List Action :=
  (List.range 4).flatMap (fun p => act? (s.portSlot core p).isSome (.issue core p)) ++
  (List.range 8).flatMap (fun k => act? (s.switches core k)
    (.event (if s.forced core k then .forcedSwitch core k else .slotSwitch core k))) ++
  act? (s.quarterReady core).isSome (.event (.quarterReady core)) ++
  act? (s.passOpen core).isSome (.event (.passOpen core)) ++
  act? (s.weightLoad core).isSome (.event (.weightSlotLoad core)) ++
  act? (s.quarterCommit core).isSome (.event (.quarterCommit core)) ++
  act? (s.tileStep core).isSome (.tileStep core) ++
  c.cards.flatMap (s.cardActions core) ++
  c.l1.flatMap (fun (x : L1Line) =>
    act? x.filling (.event (.mergingFill core x.vline)) ++ act? (x.dirty != 0) (.event (.l1WritebackTimer core x.vline)))

/-- The ready node of a kind that a die's unit takes next (R333). -/
def State.nextNode (s : State) (die kind : Nat) : Option Nat :=
  let es := (s.die die).sched.seedbed.filter (fun (e : Entry) =>
    match e.work with
    | .node n => s.readyNode die n kind
    | _ => false)
  match (bestEntry (s.die die).sched.single es).map (fun (e : Entry) => e.work) with
  | some (Work.node n) => some n
  | _ => none

/-- Actions of a die's task-graph scheduler and of the units its nodes start. -/
def State.schedActions (s : State) (die : Nat) (c : Sched) : List Action :=
  c.finished.map (fun n => .event (.nodeComplete die n)) ++
  act? (!(s.dispatchable die).isEmpty) (.event (.seedbedDispatch die)) ++
  act? (((c.queue.head?).map (fun (r : LaunchReq) => s.ctxRuns r.ctx)).getD false) (.event (.launchStart die)) ++
  ((s.nextNode die 4).toList).map (fun n => .event (.frameNodeDispatch die n)) ++
  (if s.collPlaces die < 64 then ((s.nextNode die 3).toList).map (fun n => .event (.collectiveNodeDispatch die n)) else []) ++
  ((s.nextNode die 2).toList).map (fun n =>
    .event (if bit (s.node die n).payload 32 then .sequenceStartNode die n else .returnNodeDispatch die n))

/-- Actions of a collective operation. -/
def State.collActions (s : State) (die i : Nat) (o : CollOp) : List Action :=
  act? (s.readyRow o).isSome (.event (.streamRow die i)) ++
  (if !o.pending then []
  else if (s.opFault die o).isSome then [.event (.collectiveFault die i 1)]
  else if o.out.isSome then [.event (.collectiveComplete die i)]
  else if (s.conflict o).isSome then [.conflict die i]
  else act? (s.cutOff o || (!o.members.isEmpty && s.allIn o)) (.event (.collectiveComplete die i)))

/-- Actions of a sequence place. -/
def seqActions (die k : Nat) (p : SeqPlace) : List Action :=
  act? p.stageDue (.event (.stageInputs die k)) ++ act? p.due.isSome (.event (.sequenceEnd die k))

/-- Actions of a die's network engine: the oldest frame of each port leaves. -/
def netActions (die : Nat) (n : Net) : List Action :=
  let first (p1 : Bool) : Option Nat := (n.queue.find? (fun (f : TxFrame) => f.p1 == p1)).map (·.handle)
  ((first false).toList ++ (first true).toList).map (fun k => .event (.frameSent die k))

/-- Actions of a die. -/
def State.dieActions (s : State) (d : Nat) (x : Die) : List Action :=
  netActions d x.net ++ s.schedActions d x.sched ++ (x.coll.ops.zipIdx).flatMap (fun (o, i) => s.collActions d i o) ++
  x.sequencer.places.flatMap (fun (k, p) => seqActions d k p)

/-- Actions of a context. -/
def State.ctxActions (s : State) (c : Nat) : List Action :=
  act? (s.canResume c) (.event (.resumeWorkGroup c)) ++ act? (s.canRelaunch c) (.event (.relaunch c)) ++
  act? (s.deadlinePast c) (.event (.deadlineExpiry c)) ++ act? (s.drained c) (.event (.preempted c))

/-- The event of a die and one of its pools of lane tasks. -/
def gatherEvent (die : Nat) (pool : Option Nat) : Action := .event (.laneTaskGather die ((pool.map (· % 20)).getD 20))

/-- What cores take of the seedbeds (R333, R335), and lane tasks that cannot run (R347). -/
def State.takeActions (s : State) : List Action :=
  (s.takers.map (fun x => if x.2.1.tasks.isEmpty then .event (.workGroupAdmission x.2.1.id) else gatherEvent x.2.1.die x.2.1.pool) ++
    s.dies.flatMap (fun (d, _) => ((s.taskPools d).filter (fun p => (s.badGroup d p).isSome)).map (gatherEvent d))).eraseDups

/-- Actions of a launch. -/
def State.launchActions (s : State) (id : Nat) (l : Launch) : List Action :=
  act? l.canRetire (.event (.clusterRetire id)) ++ act? (s.launchOver id l) (.event (.launchComplete id))

/-- Queues that may be in service: those with a byte of their flags listed. -/
def State.queueNumbers (s : State) : List Nat :=
  (s.w0.filterMap (fun (a, _) => if 0x20000 ≤ a && a < 0x22000 && a % 32 == 9 then some ((a - 0x20000) / 32) else none))

/-- Actions of a queue. -/
def State.queueActions (s : State) (q : Nat) : List Action :=
  match s.queueKind q with
  | some 1 => [.event (.queueLaunch q)]
  | some 2 => [.event (.queueNodeDecrement q)]
  | some _ => [.event (.queueNoOperation q)]
  | none => []

/-- Every step the package can take now. -/
def State.actions (s : State) : List Action :=
  act? (!s.inputs.isEmpty) .input ++ act? (!s.todo.isEmpty) .owed ++ act? (!s.regWrites.isEmpty) .regs ++
  s.cores.flatMap (fun (k, c) => s.coreActions k c) ++
  s.wgs.flatMap (fun (g, w) => s.wgActions g w) ++
  s.barriers.flatMap (fun (k, _) => act? (s.phaseComplete k) (.event (.barrierPhaseComplete k))) ++
  (s.posts.zipIdx).flatMap (fun ((p : Post), n) => act? (!(s.eventsWait p.ctx)) (.event (.decrementArrival n))) ++
  (s.replicas.zipIdx).flatMap (fun ((x : ReplicaStore), n) =>
    act? (!((s.replicas.take n).any (fun (y : ReplicaStore) => y.follows x))) (.event (.replicaApply n))) ++
  s.dies.flatMap (fun (d, x) => s.dieActions d x) ++
  (if s.dies.isEmpty then [] else (List.range 8).flatMap (fun d => act? (s.dieUp d && (s.die d).sched.single) (.normal d))) ++
  s.takeActions ++ s.ctxs.flatMap (fun (c, _) => s.ctxActions c) ++
  s.launches.flatMap (fun (id, l) => s.launchActions id l) ++
  s.queueNumbers.flatMap s.queueActions

/-! ### One action -/

/-- An illegal instruction that the decoder finds: it traps whatever its guard leaves active (R33, R42). -/
def State.illegalWord (s : State) (c : Cur) (f : Fibre) (sub : Nat) : State :=
  let w := Fields.ofWord c.bits
  let p := if w.neg then ~~~(f.pred w.gp) else f.pred w.gp
  let a : Act := ⟨c.ref, c.lanes &&& p, c.lanes, c.pc, c.bits, ⟨0, 0, 0⟩⟩
  (s.modFib c.ref (fun f => f.turn c.lanes)).takeTrap c.ref (underGov (a.illegal sub) (f.govOf c.lanes))

/-- Runs the word that stands in `cur`: what its bits decode to, or an illegal instruction with the decoder's subcode (R42). -/
def State.runCur (s : State) : Host.Outcome State Fault Refusal :=
  match s.cur with
  | none => .next s
  | some c =>
    match decode c.bits with
    | .ok i => exec i s
    | .error sub =>
      match s.fib c.ref with
      | none => .next s
      | some f => .next (s.illegalWord c f sub)

/-- A port issues: the word it fetches runs at once. -/
def State.issueWord (s : State) (core port : Nat) : Host.Outcome State Fault Refusal :=
  match execIssue core port s with
  | .next s => s.runCur
  | o => o

/-- Takes the oldest event from outside. -/
def State.takeInput (s : State) : Host.Outcome State Fault Refusal :=
  match s.inputs with
  | [] => .next s
  | i :: rest => exec i { s with inputs := rest }

/-- Takes the oldest event that the device owes itself. -/
def State.takeOwed (s : State) : Host.Outcome State Fault Refusal :=
  match s.todo with
  | [] => .next s
  | i :: rest => exec i { s with todo := rest }

/-- Performs an action. -/
def State.perform (s : State) (a : Action) : Host.Outcome State Fault Refusal :=
  match a with
  | .event i => exec i s
  | .input => s.takeInput
  | .owed => s.takeOwed
  | .regs => .next s.regWriteDue
  | .issue core port => s.issueWord core port
  | .trap r => .next (s.proceedTrap r)
  | .reissue r => .next (s.reissue r)
  | .conflict die op => execCollectiveRefused die op 2 s
  | .tileStep core => .next ((s.tileStep core).getD s)
  | .normal die => .next (s.modSched die (fun c => { c with single := false }))

/-! ### Time -/

/-- Whether a fibre of a work-group issued on a tick. -/
def State.issuedWg (s : State) (g core tick : Nat) : Bool :=
  (s.core core).pslots.toList.any (fun (p : PSlot) =>
    match p.last with
    | some (t, c) => t == tick && c.ref.wg == g
    | none => false)

/-- Counts the ticks that pass towards the stall counters (R413). -/
def State.countStalls (s : State) (n k : Nat) : State :=
  s.wgs.foldl (fun s (g, w) => s.stallTicks g (n - bit01 (s.issuedWg g w.core s.tick)) k) s

/-- The static energy of a core over some ticks, divided by register reservations (R407). -/
def State.staticEnergy (s : State) (n : Nat) : State :=
  let share (w : WorkGroup) : Nat := (s.launch w.launch).regs * w.fibres.length
  s.wgs.foldl (fun s (_, (w : WorkGroup)) =>
    let all := ((s.wgsOn w.core).map (fun e => share e.2)).sum
    s.charge (s.launch w.launch).ctx (333 * n * share w / all)) s

/-- The samples of a die on the ticks that pass, with the reasons that are counted on them (R415). -/
def State.sampleTicks (s : State) (die n k : Nat) : State :=
  match s.samplePeriod die with
  | none => s
  | some p =>
    let now := s.tick
    { (List.range n).foldl (fun s i => if (now + i) % p == 0 then ({ s with tick := now + i }).sampleDie die k else s) s with tick := now }

/-- A package whose tick counter has passed the tick of a freeze stopped at the end of that tick (R422). -/
def State.stopFrozen (s : State) (was : Nat) : State :=
  match s.freezeTick with
  | some t => if t < s.tick then { orElse s (execFreeze s) with tick := max was t } else s
  | none => s

/-- Lets `n` ticks pass: stalls, energy and samples are counted, dirty state is written out at every 2^24 ticks, and a freeze
takes place at the end of its tick, with nothing counted after it (R12, R221, R407, R413, R415, R422). -/
def State.passTicks (s : State) (n k : Nat) : State :=
  let m := match s.freezeTick with
    | some t => min n (t - s.tick)
    | none => n
  let s := (s.countStalls m k).staticEnergy m
  let s : State := (List.range Config.dies).foldl (fun (s : State) d => s.sampleTicks d m k) s
  let was : Nat := s.tick
  let s : State := { s with tick := was + n, cur := none }
  let s := if was / 2 ^ 24 < (was + m) / 2 ^ 24 then s.dirtyOut else s
  s.stopFrozen was

/-- What a cache holds and may replace (R227, R228): L1 lines without a fill in flight, by core; and global lines with a race record,
which the L2 drops with them, unless they are pinned (R240, R273). -/
def State.replaceable (s : State) : List (Nat × L1Line) × List Nat :=
  (s.cores.flatMap (fun (k, c) => (c.l1.filter (fun x => !x.filling)).map (fun x => (k, x))),
    (s.records.map (·.1)).filter (fun l => (Map.getD s.pins (128 * l) []).all (fun e => e.2 == 0)))

/-- Caches replace lines, each one or not (assumption 24). -/
def State.replaceLines (s : State) : State :=
  let (l, g) := s.replaceable
  let s := l.foldl (fun (s : State) (k, x) =>
    let (n, s) := s.draw
    if Config.freeBit n then s.flushL1 k (· == x) else s) s
  g.foldl (fun (s : State) k =>
    let (n, s) := s.draw
    if Config.freeBit n then { s with records := Map.del s.records k } else s) s

/-- The time that one step takes: at least `low` ticks (assumption 2); and what the caches replace in it. -/
def State.passTime (s : State) (low : Nat) : State :=
  let s := s.replaceLines
  let (n, s) := s.draw
  let (k, s) := s.draw
  s.passTicks (low + Config.ticksPassed n) (Config.freeWord k).toNat

/-- A step with the time it takes. -/
def timed (o : Host.Outcome State Fault Refusal) : Host.Outcome State Fault Refusal :=
  match o with
  | .next s => .next (s.passTime 0)
  | .fault r => .fault r
  | .refused r => .refused r

/-! ### Power and freeze -/

/-- Events that reach a package that is frozen (R422, R423): those of its management controller, of its pins and of its debug
port. -/
def whileFrozen (i : Instr) : Bool :=
  match i with
  | .freezeReadOut => true
  | .observationPortRead => true
  | .resetRelease => true
  | .powerOn _ => true
  | .thermalTrip _ _ => true
  | .attest _ => true
  | .setCap _ => true
  | .retire _ => true
  | .ptpLock _ => true
  | _ => false

/-- Events that reach a package without power or with unverified firmware (R431, R432). -/
def whileOff (i : Instr) : Bool :=
  match i with
  | .powerOn _ => true
  | _ => false

/-- A package of which only some events are taken: the others are lost. -/
def State.onlyInputs (s : State) (p : Instr → Bool) : Host.Outcome State Fault Refusal :=
  match s.inputs with
  | [] => .next s
  | i :: rest => if p i then exec i { s with inputs := rest } else .next { s with inputs := rest }

/-- How many steps an action has waited. -/
def State.waited (s : State) (a : Action) : Nat := ((s.deferred.find? (fun e => e.1 == a)).map (·.2)).getD 0

/-- Of several actions, one: that which has waited longest, where it has waited for as many steps as any does at most, and a free choice
otherwise (R98; assumption 1). -/
def State.choose (s : State) (a : Action) (l : List Action) : Action × State :=
  let (k, s) := s.draw
  let best := l.foldl (fun b x => if s.waited b < s.waited x then x else b) a
  (if Config.patience ≤ s.waited best then best else (a :: l).getD (Config.pick k % (l.length + 1)) a, s)

/-- Counts the step that the actions not taken have waited. -/
def State.defer (s : State) (l : List Action) (a : Action) : State :=
  { s with deferred := (l.filter (· != a)).map (fun x => (x, s.waited x + 1)) }

/-- Nothing has waited: the only action is taken. -/
def State.noneDeferred (s : State) : State := { s with deferred := [] }

/-- One step of the package: of what it can do, one thing happens; where several could, which is free, but none waits for ever (R98;
assumption 1). -/
def State.advance (s : State) : Host.Outcome State Fault Refusal :=
  if !s.powered then (if s.inputs.isEmpty then .fault .unpowered else s.onlyInputs whileOff)
  else if s.frozen then s.onlyInputs whileFrozen
  else
    match s.actions with
    | [] => .next (s.passTime 1)
    | [a] => timed (s.noneDeferred.perform a)
    | a :: l =>
      let (x, s) := s.choose a l
      timed ((s.defer (a :: l) x).perform x)

/-! ### A machine about to issue one word -/

/-- Virtual and physical address of the word. -/
def wordPlace : Nat := 0x1000

/-- The launch of a machine about to issue one word. -/
def wordLaunch : Launch := { entry := wordPlace, regs := 248, fibres := 1, plan := [1], scratch := 4096, started := true
                             order := [(0, 0)], places := [(0, [0])] }

/-- The work-group: one fibre, current in slot 0 of core 0. -/
def wordGroup (tick : Nat) : WorkGroup :=
  let w := newWg wordLaunch 0 0 0 0 0 0 (0, 0) tick [some 0] allLanes
  let go (f : Fibre) : Fibre := { f with st := .current }
  { w with fibres := w.fibres.map (fun (k, f) => (k, go f)) }

/-- The translation of the word's page. -/
def wordEntry : TlbEntry where
  ctx := 0
  asid := 1
  gen := 0
  vbase := wordPlace
  bytes := 4096
  frame := wordPlace
  read := true
  write := true
  exec := true
  home := 0
  atomic := true
  checked := false
  migratable := false
  cache := 0
  leaf := 0
  dirty := false
  setter := []
  count := 0

/-- A machine in which one fibre is about to issue the word with the given bytes, and nothing else can happen. -/
def State.placeWord (s : State) (l : List Byte) : State :=
  { s with
    powered := true, frozen := false, freezeAt := none, freezePin := none, cur := none, inputs := [], todo := [], posts := []
    regWrites := [], replicas := [], barriers := [], dies := [], capped := false, hot := [], retired := []
    ctxs := [(0, { st := .running, asid := 1, valid := true })]
    launches := [(0, wordLaunch)], nextLaunch := max 1 s.nextLaunch
    wgs := [(0, wordGroup s.tick)], nextWg := max 1 s.nextWg
    cores := [(0, { pslots := Vector.ofFn (fun (i : Fin 8) => if i.val = 0 then { cur := some ⟨0, 0⟩ } else {}) })]
    tlbs := [(0, { entries := [wordEntry] })]
    w0 := Memory.clear s.w0 0x20000 0x2000
    poison := s.poison.filter (fun k => k != wordPlace / 128)
    mem := Memory.write s.mem wordPlace l }

end Sys2Proof.Machine
end

