-- ==== Sys2Proof/Machine/Step.lean ====
section
/-! DEFINITION. One step of the package, and a machine that is about to issue a given word. -/

namespace Sys2Proof.Machine

/-- One step (R91, R425 to R434 and chapter 95): everything it does is in `State.advance`. -/
def step (s : State) : Host.Outcome State Fault Refusal := s.advance

/-- `s` with an instruction of the opcode table where its next step fetches one: a running context, one fibre of one
work-group current on core 0, and a translated page that holds the 12 bytes. -/
def State.withFetchWord (s : State) (nbits w : Nat) : State := s.placeWord (leBytes 12 (w % 2 ^ nbits))

end Sys2Proof.Machine
end

