-- ==== Sys2Proof/Safety.lean ====
section
/-! DEFINITION. The vocabulary of claims: what a word that issues does, what it leaves alone, and the states that every step
keeps. -/

namespace Sys2Proof.Machine

/-! ### A word that issues -/

/-- A fibre issues a word whose header is `h`: the threads of its issue group are live, and at least one of them acts (R33,
R91). Its loads in flight have written their registers (R241). -/
def Issues (s : State) (h : Hdr) (c : Cur) (f : Fibre) : Prop :=
  s.cur = some c ∧ (s.settleLoads c.ref).fib c.ref = some f ∧ h ≠ Hdr.never ∧ f.acting h c ≠ 0 ∧ c.lanes &&& f.live = c.lanes

/-- The state before a word that traps: its group has had its turn, and the other paths of the fibre age (R92). -/
def State.turned (s : State) (c : Cur) : State := s.modFib c.ref (fun f => f.turn c.lanes)

/-- Wherever the word issues, no tile read owes a register it reads (R190), and `P` holds in the state in which it acts, it completes,
and what it does is `E`; then what every word leaves behind (`State.finish`). -/
def Does (i : Instr) (s : State) (h : Hdr) (ends : Bool) (reads last : List Nat) (pj : Nat) (P : Act → State → Prop)
    (E : Act → State → State) : Prop :=
  ∀ c f, Issues s h c f →
    let a := f.actOf h ends c
    let b := (s.settleLoads c.ref).begun f h ends reads last c
    f.owes reads = false → P a b → exec i s = .next ((E a b).finish h a pj)

/-- The same for a word whose effect is given as a relation: wherever it issues, and `R` relates the state in which it acts to
`t`, it completes and leaves `t`. -/
def DoesTo (i : Instr) (s : State) (h : Hdr) (ends : Bool) (reads last : List Nat) (pj : Nat) (R : Act → State → State → Prop) :
    Prop :=
  ∀ c f, Issues s h c f →
    let a := f.actOf h ends c
    let b := (s.settleLoads c.ref).begun f h ends reads last c
    f.owes reads = false → ∀ t, R a b t → exec i s = .next (t.finish h a pj)

/-- A word that acts once for its fibre: its sources, each with the registers it names, and the registers it writes. Where the
latches it reads are valid in the lowest active lane and its registers can be written, and `R` holds, it completes. -/
def OnceTo (i : Instr) (s : State) (h : Hdr) (srcs : List (Src × Nat)) (dsts : List Nat) (R : Act → State → State → Prop) : Prop :=
  DoesTo i s h false (srcs.flatMap (fun x => srcNames x.1 x.2)) (srcs.flatMap (fun x => srcLast x.1 x.2)) 6
    (fun a b t => b.wordFault a (srcs.map (·.1)) (oneLane a.low) dsts = none ∧ R a b t)

/-- A word of class 0x6 or 0x7: it acts while no MCFG of its work-group waits for the pools (R196). -/
def MatTo (i : Instr) (s : State) (h : Hdr) (srcs : List (Src × Nat)) (R : Act → State → State → Prop) : Prop :=
  DoesTo i s h false (srcs.flatMap (fun x => srcNames x.1 x.2) ++ []) (srcs.flatMap (fun x => srcLast x.1 x.2) ++ []) 6
    (fun a b t => b.claimOf a.ref.wg = none ∧ R a b t)

/-- A word that acts once for its fibre, with an effect given as a function: where the latches it reads are valid in the lowest active
lane, its registers can be written and `P` holds, it completes. -/
def OnceDoes (i : Instr) (s : State) (h : Hdr) (srcs : List (Src × Nat)) (dsts : List Nat) (P : Act → State → Prop)
    (E : Act → State → State) : Prop :=
  Does i s h false (srcs.flatMap (fun x => srcNames x.1 x.2)) (srcs.flatMap (fun x => srcLast x.1 x.2)) 6
    (fun a b => b.wordFault a (srcs.map (·.1)) (oneLane a.low) dsts = none ∧ P a b) E

/-- The same for a word of class 0x6 or 0x7. -/
def MatDoes (i : Instr) (s : State) (h : Hdr) (srcs : List (Src × Nat)) (P : Act → State → Prop) (E : Act → State → State) : Prop :=
  Does i s h false (srcs.flatMap (fun x => srcNames x.1 x.2) ++ []) (srcs.flatMap (fun x => srcLast x.1 x.2) ++ []) 6
    (fun a b => b.claimOf a.ref.wg = none ∧ P a b) E

/-- Wherever the word issues and `P` holds in the state in which it would act, it traps with no effect: `T` is what the
trap knows (R42, R389). -/
def Traps (i : Instr) (s : State) (h : Hdr) (ends : Bool) (reads last : List Nat) (P : Act → State → Prop)
    (T : Act → State → TrapInfo) : Prop :=
  ∀ c f, Issues s h c f →
    let a := f.actOf h ends c
    let b := (s.settleLoads c.ref).begun f h ends reads last c
    f.owes reads = false → P a b →
      exec i s = .next (((s.settleLoads c.ref).turned c).takeTrap c.ref (underGov (T a b) a.gov))

/-- A word that acts once for its fibre traps with an illegal operand, with no effect (R388): in the lowest active lane, with
detail `n`. -/
def OnceTraps (i : Instr) (s : State) (h : Hdr) (srcs : List (Src × Nat)) (dsts : List Nat) (n : Nat) (P : Act → State → Prop) :
    Prop :=
  Traps i s h false (srcs.flatMap (fun x => srcNames x.1 x.2)) (srcs.flatMap (fun x => srcLast x.1 x.2))
    (fun a b => b.wordFault a (srcs.map (·.1)) (oneLane a.low) dsts = none ∧ P a b) (fun a _ => a.operand a.low n)

/-- A word of class 0x6 or 0x7 traps with no effect. -/
def MatTraps (i : Instr) (s : State) (h : Hdr) (srcs : List (Src × Nat)) (P : Act → State → Prop) (T : Act → State → TrapInfo) :
    Prop :=
  Traps i s h false (srcs.flatMap (fun x => srcNames x.1 x.2) ++ []) (srcs.flatMap (fun x => srcLast x.1 x.2) ++ [])
    (fun a b => b.claimOf a.ref.wg = none ∧ P a b) T

/-- Wherever the word issues and `P` holds in the state in which it would act, the threads `M` of its group wait at it. -/
def Waits (i : Instr) (s : State) (h : Hdr) (ends : Bool) (reads last : List Nat) (P : Act → State → Prop)
    (E : Act → State → State) (M : Act → Mask) (cond : Act → State → WaitCond) (parks : Bool) : Prop :=
  ∀ c f, Issues s h c f →
    let a := f.actOf h ends c
    let b := (s.settleLoads c.ref).begun f h ends reads last c
    f.owes reads = false → P a b → exec i s = .next ((E a b).holdAt h a f (M a) (cond a b) parks)

/-- A word that reads a register which an earlier tile read still owes waits for it (R190). -/
def AwaitsOwed (i : Instr) (s : State) (h : Hdr) (ends : Bool) (reads : List Nat) : Prop :=
  ∀ c f, Issues s h c f → f.owes reads = true →
    exec i s = .next ((s.settleLoads c.ref).holdAt h (f.actOf h ends c) f c.lanes (.regs reads) false)

/-! ### What a word that computes in registers leaves alone -/

/-- What no register word of a fibre changes in it: everything but its registers, handler registers, latches, predicates,
floating-point flags, loads in flight, registers that tile reads owe, issue bookkeeping and addresses. -/
def Fibre.fixed (f : Fibre) : Fibre :=
  { f with
    regs := [], released := [], undefRead := false, latches := Vector.replicate 4 (splat 0, 0), preds := Vector.replicate 7 0
    fpf := 0, pcs := Vector.replicate 32 0, gov := Vector.replicate 32 ⟨0, 0, 0⟩, ages := Vector.replicate 32 0, issued := 0
    delayUntil := 0, redo := none, loads := [], awaits := [], stalled := 0
    trap := f.trap.map (fun t => { t with hregs := Vector.replicate 16 (splat 0) }) }

/-- The same for its work-group: everything but its fibres, the registers of its windows, and its counts of words and of
returning registers. -/
def WorkGroup.fixed (w : WorkGroup) : WorkGroup :=
  { w with fibres := [], windows := w.windows.map (fun x => { x with regs := x.regs.map (fun _ => splat 0) }), progress := 0, returning := 0 }

/-- The same for a core: everything but its slots' bookkeeping. -/
def Core.fixed (c : Core) : Core := { c with pslots := Vector.replicate 8 {} }

/-- The same for a context: everything but its energy. -/
def Context.fixed (c : Context) : Context := { c with energy := 0, esat := false }

/-- The same for the package: its memories, control registers, engines and every other field but these tables. -/
def State.fixed (s : State) : State := { s with wgs := [], cores := [], ctxs := [] }

/-- `t` differs from `s` at most in what a register word of fibre `r` may change: all memory, every other fibre and
work-group, every engine and every control register are as they were. -/
def Calm (s t : State) (r : FibRef) : Prop :=
  t.fixed = s.fixed ∧ (∀ k, (t.core k).fixed = (s.core k).fixed) ∧ (∀ k, (t.ctx k).fixed = (s.ctx k).fixed) ∧
  (∀ g, g ≠ r.wg → Map.find t.wgs g = Map.find s.wgs g) ∧
  (Map.find t.wgs r.wg).map WorkGroup.fixed = (Map.find s.wgs r.wg).map WorkGroup.fixed ∧
  (∀ q, q ≠ r → t.fib q = s.fib q) ∧ (t.fib r).map Fibre.fixed = (s.fib r).map Fibre.fixed

/-- Every live thread of a fibre has read a name for the last time (R89). -/
def AllReleased (s : State) (r : FibRef) (n : Nat) : Prop :=
  ∃ f, s.fib r = some f ∧ f.live &&& ~~~(Map.getD f.released n 0) = 0

/-- A register name keeps its lanes, or it is unmapped because every live thread has read it for the last time. -/
def KeepsReg (s b t : State) (r : FibRef) (n : Nat) : Prop :=
  t.regOpt r n = s.regOpt r n ∨ (t.regOpt r n = none ∧ AllReleased b r n)

/-- A latch of a fibre: its lanes and valid bits. -/
def State.latch (s : State) (r : FibRef) (b : BitVec 2) : LaneVec × Mask :=
  match s.fib r with
  | some f => f.latches.toList.getD b.toNat (splat 0, 0)
  | none => (splat 0, 0)

/-- A destination holds a result in a lane: the register or pair, and the captured latch, which holds the low word (R30,
R31). -/
def DstHolds (t : State) (r : FibRef) (d : Dst) (pair : Bool) (i : Nat) (v : Dword) : Prop :=
  match d with
  | .reg n b =>
    lane (t.reg r n.toNat) i = v.setWidth 32 ∧ (pair = true → lane (t.reg r (n.toNat + 1)) i = (v >>> 32).setWidth 32) ∧
    lane (t.latch r b).1 i = v.setWidth 32 ∧ (t.latch r b).2.getLsbD i = true
  | .latchOnly b => lane (t.latch r b).1 i = v.setWidth 32 ∧ (t.latch r b).2.getLsbD i = true

/-- The issue group has passed the word: its threads stand at the next word, the others where they stood (R33). -/
def Passed (s t : State) (a : Act) : Prop :=
  ∀ f g, s.fib a.ref = some f → t.fib a.ref = some g → ∀ i, i < 32 →
    g.pcs.toList.getD i 0 = if a.group.getLsbD i then (a.pc + 12) % 2 ^ 64 else f.pcs.toList.getD i 0

/-- A word completes with a result in each active lane of its destination, and changes nothing else: inactive lanes, other
registers, other latches, every predicate, and all that `Calm` names. `fl` are the flags it raises. -/
def Computes (o : Host.Outcome State Fault Refusal) (s b : State) (a : Act) (d : Dst) (pair : Bool) (v : Nat → Dword)
    (fl : BitVec 6) : Prop :=
  ∃ t, o = .next t ∧ Calm s t a.ref ∧ Passed s t a ∧
    (∀ i, i < 32 → a.lanes.getLsbD i = true → DstHolds t a.ref d pair i (v i)) ∧
    (∀ n ∈ dstNames d (regCount pair), ∀ i, i < 32 → a.lanes.getLsbD i = false → lane (t.reg a.ref n) i = lane (s.reg a.ref n) i) ∧
    (∀ n, n ∉ dstNames d (regCount pair) → KeepsReg s b t a.ref n) ∧
    (∀ i, i < 32 → a.lanes.getLsbD i = false → lane (t.latch a.ref (Dst.latch d)).1 i = lane (s.latch a.ref (Dst.latch d)).1 i) ∧
    (∀ k, k ≠ (Dst.latch d) → t.latch a.ref k = s.latch a.ref k) ∧
    (t.fib a.ref).map (·.preds) = (s.fib a.ref).map (·.preds) ∧
    (t.fib a.ref).map (·.fpf) = (s.fib a.ref).map (fun f => f.fpf ||| fl)

/-- A word completes with a value in each active lane of a predicate, and changes nothing else; p7 stays true in every lane
(R120). -/
def Decides (o : Host.Outcome State Fault Refusal) (s b : State) (a : Act) (p : BitVec 3) (v : Nat → Bool) (fl : BitVec 6) :
    Prop :=
  ∃ t, o = .next t ∧ Calm s t a.ref ∧ Passed s t a ∧
    (∀ f g, s.fib a.ref = some f → t.fib a.ref = some g →
      (∀ i, i < 32 → (g.pred p).getLsbD i = if p = 7 then true else if a.lanes.getLsbD i then v i else (f.pred p).getLsbD i) ∧
      (∀ q, q ≠ p → g.pred q = f.pred q) ∧ g.latches = f.latches ∧ g.fpf = f.fpf ||| fl) ∧
    (∀ n, KeepsReg s b t a.ref n)

/-- The lane whose operands give the result of lane `i`: the lowest active one under U (R35). -/
def Act.laneFor (a : Act) (u : Bool) (i : Nat) : Nat := if u then a.low else i

/-- The outcome of a word of which some registers are still owed: its group waits for them (R190). -/
def Awaits (o : Host.Outcome State Fault Refusal) (s : State) (h : Hdr) (f : Fibre) (a : Act) (names : List Nat) : Prop :=
  o = .next (s.holdAt h a f a.group (.regs names) false)

/-- The outcome of a word that traps with an illegal operand and no effect (R42, R388): the lane and the detail. -/
def OperandTrap (o : Host.Outcome State Fault Refusal) (s : State) (a : Act) (lane detail : Nat) : Prop :=
  o = .next (s.takeTrap a.ref (underGov (a.operand lane detail) a.gov))

/-- A lane word of up to three operands, wherever it issues. It waits for registers that a tile read still owes (R190). An operand that
reads a latch without a valid bit traps with
detail 1 in the lowest such lane (R32); else a destination that cannot be written traps with its detail (R90, R101); else the
word computes `f` of its operands lane by lane, from the lowest active lane under U (R35). -/
def LaneWord (i : Instr) (s : State) (h : Hdr) (u : Bool) (d : Dst) (pair : Bool) (x y z : Operand) (f : LaneFn) : Prop :=
  ∀ c fb, Issues s h c fb →
    let a := fb.actOf h false c
    let s0 := s.settleLoads c.ref
    if fb.owes (x.names ++ y.names ++ z.names) then Awaits (exec i s) s0 h fb a (x.names ++ y.names ++ z.names)
    else match s0.badLatches c.ref [x.src, y.src, z.src] (a.readers u), s0.writeFault c.ref (dstNames d (regCount pair)) with
    | some k, _ => OperandTrap (exec i s) (s0.turned c) a k 1
    | none, some e => OperandTrap (exec i s) (s0.turned c) a a.low e
    | none, none =>
      Computes (exec i s) s0 (s0.begun fb h false (x.names ++ y.names ++ z.names) (x.last ++ y.last ++ z.last) c) a d pair
        (fun i => (laneResults s0 a u x y z f i).1) (flagsOf (a.readers u) (laneResults s0 a u x y z f))

/-- A lane word that writes a predicate, wherever it issues: it traps as a lane word does, or decides `f` lane by lane. -/
def PredWord (i : Instr) (s : State) (h : Hdr) (u : Bool) (p : BitVec 3) (x y : Operand)
    (f : Nat → Dword → Dword → Bool × BitVec 6) : Prop :=
  ∀ c fb, Issues s h c fb →
    let a := fb.actOf h false c
    let s0 := s.settleLoads c.ref
    let g (i : Nat) := f (a.laneFor u i) (s0.opLane c.ref x (a.laneFor u i)) (s0.opLane c.ref y (a.laneFor u i))
    if fb.owes (x.names ++ y.names) then Awaits (exec i s) s0 h fb a (x.names ++ y.names)
    else match s0.badLatches c.ref [x.src, y.src] (a.readers u) with
    | some k => OperandTrap (exec i s) (s0.turned c) a k 1
    | none =>
      Decides (exec i s) s0 (s0.begun fb h false (x.names ++ y.names) (x.last ++ y.last) c) a p (fun i => (g i).1)
        (flagsOf (a.readers u) (fun i => (0, (g i).2)))

/-- A lane word whose second operand is a block exponent (R159): one outside −126 to 127 traps with detail 9 in the lowest lane
that reads it. -/
def BinWord (i : Instr) (s : State) (h : Hdr) (u : Bool) (d : Dst) (pair : Bool) (x : Operand) (y : Src) (f : LaneFn) : Prop :=
  ∀ c fb, Issues s h c fb →
    let a := fb.actOf h false c
    let s0 := s.settleLoads c.ref
    let bad (i : Nat) : Bool := decide (sext (s0.opLane c.ref (one y) i).toNat 32 < -126) || decide (127 < sext (s0.opLane c.ref (one y) i).toNat 32)
    if fb.owes (x.names ++ srcNames y 1) then Awaits (exec i s) s0 h fb a (x.names ++ srcNames y 1)
    else match s0.badLatches c.ref [x.src, y] (a.readers u), s0.writeFault c.ref (dstNames d (regCount pair)),
        (lanesOf (a.readers u)).find? bad with
    | some k, _, _ => OperandTrap (exec i s) (s0.turned c) a k 1
    | none, some e, _ => OperandTrap (exec i s) (s0.turned c) a a.low e
    | none, none, some k => OperandTrap (exec i s) (s0.turned c) a k 9
    | none, none, none =>
      Computes (exec i s) s0 (s0.begun fb h false (x.names ++ srcNames y 1) (x.last ++ srcLast y 1) c) a d pair
        (fun i => (laneResults s0 a u x (one y) absent f i).1) (flagsOf (a.readers u) (laneResults s0 a u x (one y) absent f))

/-- The threads of a fibre that wait in a phase of a barrier that has completed (R104). -/
def State.barrierPassed (b : State) (r : FibRef) (k : BarKey) : Mask :=
  match b.fib r with
  | some f => ((f.passedOf k).filter (fun e => e.1 < (b.barrier k).phase)).foldl (fun m e => m ||| e.2) 0
  | none => 0

/-! ### Words that access memory -/

/-- The state once a word that may need it has a place of the operand log: older stores of the fibre leave, and give theirs back
(R235). -/
def State.withLog (v : State) (r : FibRef) (needs : Bool) : State × Option TrapInfo :=
  if needs then State.logRoom r (16 * ((v.fib r).map (·.curQueue.length)).getD 0 + 1) v else (v, none)

/-- Such a word finds a place: no older store faults, and one is free. -/
def State.logGoes (v : State) (r : FibRef) (needs : Bool) : Prop :=
  (v.withLog r needs).2 = none ∧ (needs = true → (v.withLog r needs).1.logFull r = false)

/-- The state in which a load of `n` bytes reads: lanes out of bounds are switched off, the fibre's queued atomics have left, and the
operand log has a place (R225, R235). -/
def State.loadReady (b : State) (a : Act) (n : Nat) (all : List LaneAcc) : State :=
  let u := ((b.switchOff a.ref (b.bounds a.ref.wg n all).2).settleAtomics a.ref).1
  (u.withLog a.ref (u.mayLog a.ref (b.bounds a.ref.wg n all).1)).1

/-- The race check of a load, in the state that its acquire leaves (R281, R283). -/
def State.loadCheck (b : State) (a : Act) (n : Nat) (acq : Option Scope) (all : List LaneAcc) : Except (Nat × Nat × List Word) CheckNote :=
  let l := (b.bounds a.ref.wg n all).1
  let y := b.loadReady a n all
  (y.knowing a (b.agent a.ref.wg) n acq l).raceCheck a (y.agent a.ref.wg) (l.map (fun x => (x.lane, x.addr.toNat, n, 0)))

/-- The bytes that a load's accesses read, or the first access that faults, and the state that reading leaves (R226, R407). -/
def State.loadRead (b : State) (a : Act) (n : Nat) (acq : Option Scope) (byp : Bool) (all : List LaneAcc) :
    Except (Nat × Nat × Nat) (List (Nat × List Byte)) × State :=
  let l := (b.bounds a.ref.wg n all).1
  let y := b.loadReady a n all
  (y.chargeLines (y.agent a.ref.wg) (l.map (fun x => (x.addr.toNat, n)))).loadAll a.ref (y.agent a.ref.wg) byp false acq.isSome n l

/-- A load executes normally: every lane is out of bounds, or the lines of the others are present, no earlier `MSTT` owes them rows, no
older store faults, the operand log has a place, no race traps and no access faults (R224 to R226, R188, R235, R288). -/
def LoadGoes (a : Act) (b : State) (n : Nat) (acq : Option Scope) (byp : Bool) (all : List LaneAcc) : Prop :=
  let l := (b.bounds a.ref.wg n all).1
  let v := b.switchOff a.ref (b.bounds a.ref.wg n all).2
  l = [] ∨ (v.absentLines a.ref.wg n l = [] ∧ v.owesAt a.ref (v.scratchRanges a.ref.wg n l) = false ∧
    (v.settleAtomics a.ref).2 = none ∧ (v.settleAtomics a.ref).1.logGoes a.ref ((v.settleAtomics a.ref).1.mayLog a.ref l) ∧
    (b.loadCheck a n acq all).isOk = true ∧ (b.loadRead a n acq byp all).1.isOk = true)

/-- What such a load of a register from `d` does (R233, R234): the bytes are in flight to the registers, in the active lanes within
bounds; an acquire follows the last of them (R268); the launch's checks are noted (R285, R290). -/
def State.loaded (b : State) (a : Act) (d : Nat) (size : Size) (sgn : Bool) (acq : Option Scope) (byp u : Bool) (all : List LaneAcc) :
    State :=
  let l := (b.bounds a.ref.wg size.bytes all).1
  let off := (b.bounds a.ref.wg size.bytes all).2
  if l = [] then b.switchOff a.ref off
  else
    let x := b.loadRead a size.bytes acq byp all
    let ag := (b.loadReady a size.bytes all).agent a.ref.wg
    let z := match acq with
      | some sc => x.2.acquireAll a.ref ag size.bytes sc l
      | none => x.2
    (((z.joinSought a ag size.bytes l).unseek a).startLoad a.ref d size.regs (a.lanes &&& ~~~off)
      (loadVecs size.regs size.bytes sgn u (x.1.toOption.getD []))).noteCheck a.ref ((b.loadCheck a size.bytes acq all).toOption.getD (0, none))

/-- The state in which a store's accesses enter the queue, but for its release: lanes out of bounds are switched off, the fibre's
matrix operations have read what the store overwrites, and queue and operand log have room (R188, R225, R235). -/
def State.storeReady (b : State) (a : Act) (n : Nat) (all : List LaneAcc) : State :=
  let l := (b.bounds a.ref.wg n all).1
  let v := b.switchOff a.ref (b.bounds a.ref.wg n all).2
  (((v.readFirst a.ref (v.scratchRanges a.ref.wg n l)).1.storeRoom a.ref l.length).1.withLog a.ref
    (l.any (fun x => !(inAperture x.addr.toNat)))).1

/-- Every earlier store of the fibre can leave: no `MSTT` of it owes rows, and no older store faults (R235, R247). -/
def State.storesLeave (v : State) (r : FibRef) : Prop := v.owesStores r = false ∧ (v.drain r).2 = none

/-- What a release at the scope does before its store or kick (R253, R259, R275): the queue leaves, the caches are written back, and
the fibre's clock steps. The clock, and the state. -/
def State.released (v : State) (a : Act) (sc : Scope) : Nat × State :=
  let y := (v.drain a.ref).1
  (y.cacheRelease (y.agent a.ref.wg) sc).releaseEvent a.ref

/-- A store executes normally: every lane is out of bounds, or no matrix operation of the fibre waits for absent lines it would
overwrite or owes rows, no older store faults, and the operand log has a place; where it releases, the queue leaves first. -/
def StoreGoes (a : Act) (b : State) (n : Nat) (rel : Option Scope) (all : List LaneAcc) : Prop :=
  let l := (b.bounds a.ref.wg n all).1
  let v := b.switchOff a.ref (b.bounds a.ref.wg n all).2
  let x := v.readFirst a.ref (v.scratchRanges a.ref.wg n l)
  l = [] ∨ (x.2 = [] ∧ x.1.owesStores a.ref = false ∧ (x.1.storeRoom a.ref l.length).2 = none ∧
    (x.1.storeRoom a.ref l.length).1.logGoes a.ref (l.any (fun y => !(inAperture y.addr.toNat))) ∧
    (rel.isSome = true → (b.storeReady a n all).storesLeave a.ref))

/-- What such a store does (R233 to R235, R268): its accesses enter the fibre's queue in lane order. -/
def State.stored (b : State) (a : Act) (n : Nat) (kind : StoreKind) (rel : Option Scope) (all : List LaneAcc) (swap : Nat → Nat) :
    State :=
  let l := (b.bounds a.ref.wg n all).1
  if l = [] then b.switchOff a.ref (b.bounds a.ref.wg n all).2
  else match rel with
    | some sc => ((b.storeReady a n all).released a sc).2.enqueue a n kind rel ((b.storeReady a n all).released a sc).1 false l swap
    | none => (b.storeReady a n all).enqueue a n kind none 0 false l swap

/-- What a kick does (R259): the fibre's queue leaves, with a release at the job's scope. The kick, and the state it leaves. -/
def State.kickFrom (v : State) (a : Act) (sc : Scope) : Kick × State :=
  ((v.released a sc).2.kickOf a.ref sc (v.released a sc).1, (v.released a sc).2)

/-- The race check of a word that acts once, with a place of the operand log in reserve (R288). -/
def State.onceCheck (v : State) (a : Act) (l : List (Nat × Nat × Nat × Nat)) : Except (Nat × Nat × List Word) CheckNote :=
  let u := (v.withLog a.ref (v.launchOf a.ref.wg).checked).1
  u.raceCheck a (u.agent a.ref.wg) l

/-- The state in which a word reads its records from its core's own region: the fibre's atomics have left, and the operand log has a place
where a race may need one (R247, R288). -/
def State.recordsReady (b : State) (a : Act) : State :=
  let v := (b.settleAtomics a.ref).1
  (v.withLog a.ref (v.launchOf a.ref.wg).checked).1

/-- The race check of `n` such records of some size, from an offset on. -/
def State.recordsCheck (b : State) (a : Act) (o size n : Nat) : Except (Nat × Nat × List Word) CheckNote :=
  (b.settleAtomics a.ref).1.onceCheck a ((List.range n).map (fun i => (a.low, apertureVa (o + size * i), size, 0)))

/-- The records' bytes. -/
def State.recordsAt (b : State) (a : Act) (o size n : Nat) : List (List Byte) :=
  (List.range n).map (fun i => (b.recordsReady a).ownBytes a.ref (o + size * i) size)

/-- They are read: no older store faults, the operand log has a place, and no race traps. -/
def RecordsGo (a : Act) (b : State) (o size n : Nat) : Prop :=
  (b.settleAtomics a.ref).2 = none ∧
    (b.settleAtomics a.ref).1.logGoes a.ref ((b.settleAtomics a.ref).1.launchOf a.ref.wg).checked ∧
    (b.recordsCheck a o size n).isOk = true

/-- What their check leaves for the word's commit. -/
def State.recordsNote (b : State) (a : Act) (o size n : Nat) : CheckNote := (b.recordsCheck a o size n).toOption.getD (0, none)

/-! ### The fetch of a weight slot (R201, R202) -/

/-- The state in which a WLOAD that waits for nothing reads the bytes its descriptor names. -/
def State.fetchReady (v : State) (a : Act) (tn : Tensor) : State :=
  let u := (v.settleAtomics a.ref).1
  (u.withLog a.ref (u.mayLog a.ref (tn.ranges.flatten.map (fun e => ⟨a.low, BitVec.ofNat 64 e.1, []⟩)))).1

/-- The race check of such a fetch; `first` is what else the word has read. -/
def State.fetchCheck (v : State) (a : Act) (tn : Tensor) (first : List (Nat × Nat × Nat × Nat)) : Except (Nat × Nat × List Word) CheckNote :=
  let u := v.fetchReady a tn
  u.raceCheck a (u.agent a.ref.wg)
    (first ++ tn.ranges.flatten.flatMap (fun e => (linePieces e.1 e.2).map (fun p => (a.low, p.1, p.2, 0))))

/-- The bytes it reads, or the access that faults: the slot has a new version, and loads. -/
def State.fetchRead (v : State) (a : Act) (phys : Nat) (desc : List Byte) (tn : Tensor) :
    Except (Nat × Nat) (List (List Byte)) × State :=
  let u := v.fetchReady a tn
  let ref := ((u.fib a.ref).map (fun f => a.wordRef f)).getD default
  (u.modSlotAt a.ref.wg phys (fun y => { y.renew .loading with
    format := tn.format, compress := tn.compress, scaled := tn.axis == 1, loader := some (a.ref, ref, desc) })).readRanges a.ref
      (v.agent a.ref.wg) tn.ranges.flatten

/-- Such a fetch executes normally: no older store faults, the operand log has a place, no race traps and no access faults. -/
def FetchGoes (a : Act) (v : State) (phys : Nat) (desc : List Byte) (tn : Tensor) (first : List (Nat × Nat × Nat × Nat)) : Prop :=
  let u := (v.settleAtomics a.ref).1
  (v.settleAtomics a.ref).2 = none ∧ u.logGoes a.ref (u.mayLog a.ref (tn.ranges.flatten.map (fun e => ⟨a.low, BitVec.ofNat 64 e.1, []⟩))) ∧
    (v.fetchCheck a tn first).isOk = true ∧ (v.fetchRead a phys desc tn).1.isOk = true

/-- What it does: the bytes are bound, and enter the slot when the load completes (R201). -/
def State.fetched (v : State) (a : Act) (phys : Nat) (desc : List Byte) (tn : Tensor) (first : List (Nat × Nat × Nat × Nat)) : State :=
  let data := (v.fetchRead a phys desc tn).1.toOption.getD []
  let m := (tn.ranges.getD 1 []).length
  ((v.fetchRead a phys desc tn).2.modSlotAt a.ref.wg phys (fun y => { y with
    pend := some (data.take 64, (data.drop 64).take m, data.drop (64 + m)) })).noteCheck a.ref ((v.fetchCheck a tn first).toOption.getD (0, none))

/-- A word that has issued while an access of it faulted: the access is held in the operand log, and the trap resumes after the
word (R226, R393). -/
def HeldTrap (i : Instr) (s : State) (h : Hdr) (reads last : List Nat) (P : Act → State → Prop)
    (L : Act → State → State × TrapInfo) : Prop :=
  ∀ c f, Issues s h c f →
    let a := f.actOf h false c
    let b := (s.settleLoads c.ref).begun f h false reads last c
    f.owes reads = false → P a b → exec i s = .next (((L a b).1.finish h a 6).takeTrap c.ref (underGov (L a b).2 a.gov))

/-! ### Words that exchange values between lanes -/

/-- A lane-exchange word may act (R133): its issue group holds every live thread of the fibre, or the word has no `.conv`
and the launch is not deterministic. -/
def MayExchange (s : State) (c : Cur) (conv : Bool) : Prop :=
  (∃ f, s.fib c.ref = some f ∧ f.live = c.lanes) ∨ (conv = false ∧ (s.launchOf c.ref.wg).determ = false)

/-- A lane-exchange word that may act and writes a register: `srcs` are its sources, `v` the result of each lane. -/
def ExchangeWord (i : Instr) (s : State) (h : Hdr) (conv : Bool) (d : Dst) (pair : Bool) (srcs : List Src) (reads last : List Nat)
    (v : State → Act → Nat → Dword) (fl : State → Act → BitVec 6) : Prop :=
  ∀ c fb, Issues s h c fb → MayExchange s c conv →
    let a := fb.actOf h false c
    let s0 := s.settleLoads c.ref
    if fb.owes reads then Awaits (exec i s) s0 h fb a reads
    else match s0.badLatches c.ref srcs a.lanes, s0.writeFault c.ref (dstNames d (regCount pair)) with
    | some k, _ => OperandTrap (exec i s) (s0.turned c) a k 1
    | none, some e => OperandTrap (exec i s) (s0.turned c) a a.low e
    | none, none => Computes (exec i s) s0 (s0.begun fb h false reads last c) a d pair (v s0 a) (fl s0 a)

/-- A lane-exchange word that may act and writes a predicate. -/
def ExchangePred (i : Instr) (s : State) (h : Hdr) (conv : Bool) (p : BitVec 3) (v : State → Act → Nat → Bool) : Prop :=
  ∀ c fb, Issues s h c fb → MayExchange s c conv →
    let a := fb.actOf h false c
    let s0 := s.settleLoads c.ref
    Decides (exec i s) s0 (s0.begun fb h false [] [] c) a p (v s0 a) 0

/-- A lane-exchange word whose issue group lacks a live thread (R43, R133): under `.conv` its threads wait at the word; in
a deterministic launch it traps as a nondeterministic instruction. -/
def ExchangeApart (i : Instr) (s : State) (h : Hdr) (conv : Bool) (reads : List Nat) : Prop :=
  ∀ c fb f, Issues s h c fb → s.fib c.ref = some f → f.live ≠ c.lanes →
    (conv = true → exec i s = .next (s.holdAt h (f.actOf h false c) f c.lanes (.conv c.pc) false)) ∧
    (conv = false → (s.launchOf c.ref.wg).determ = true → fb.owes reads = false →
      exec i s = .next (((s.settleLoads c.ref).turned c).takeTrap c.ref (underGov (fb.actOf h false c).nondet (fb.actOf h false c).gov)))

/-! ### States that every step keeps -/

/-- Between two steps no word is half issued, and no package that runs has passed the tick named for its freeze. -/
def Settled (s : State) : Prop :=
  s.cur = none ∧ (s.powered = true → s.frozen = false → ∀ t, s.freezeTick = some t → s.tick ≤ t)

end Sys2Proof.Machine
end

