-- ==== Sys2Proof/Certificates/Slice0/Obligations.lean ====
section
/-! DEFINITION. The statements for the provers, in the order of the specification's chapters. -/

open Sys2Proof Sys2Proof.Machine

/-! ### Integer arithmetic (class 0x1) -/

/-- Integer arithmetic computes R123's pseudocode in each active lane, for every operand form; `wOf x2` is the form's width. -/
def Obligations.IntegerArithmeticComputes : Prop :=
  ∀ (s : State) (h : Hdr) (u sgn x2 : Bool) (d : Dst) (x y z : Src),
    LaneWord (.iadd h u d x y x2) s h u d x2 (wide x2 x) (wide x2 y) absent (fun _ a b _ => plain (a + b)) ∧
    LaneWord (.isub h u d x y x2) s h u d x2 (wide x2 x) (wide x2 y) absent (fun _ a b _ => plain (a - b)) ∧
    (∀ sub, LaneWord (.iadds h u d x y sgn sub) s h u d false (one x) (one y) absent (fun _ a b _ =>
      let t := if sub then extVal sgn 32 a - extVal sgn 32 b else extVal sgn 32 a + extVal sgn 32 b
      plain (ofIntMod 32 (if sgn then clampInt t (-(2 ^ 31)) (2 ^ 31 - 1) else clampInt t 0 (2 ^ 32 - 1))))) ∧
    LaneWord (.imin h u d x y sgn) s h u d false (one x) (one y) absent (fun _ a b _ =>
      plain (if extVal sgn 32 a ≤ extVal sgn 32 b then a else b)) ∧
    LaneWord (.imax h u d x y sgn) s h u d false (one x) (one y) absent (fun _ a b _ =>
      plain (if extVal sgn 32 a ≤ extVal sgn 32 b then b else a)) ∧
    (∀ sat, LaneWord (.iabs h u d x sat) s h u d false (one x) absent absent (fun _ a _ _ =>
      let t := (extVal true 32 a).natAbs
      plain (BitVec.ofNat 64 (if t == 2 ^ 31 && sat then 2 ^ 31 - 1 else t)))) ∧
    (∀ sat, LaneWord (.ineg h u d x x2 sat) s h u d x2 (wide x2 x) absent absent (fun _ a _ _ =>
      let t := -(extVal true (wOf x2) a)
      plain (ofIntMod (wOf x2) (if t == 2 ^ (wOf x2 - 1) && sat then 2 ^ (wOf x2 - 1) - 1 else t)))) ∧
    LaneWord (.imul h u d x y sgn .lo) s h u d false (one x) (one y) absent (fun _ a b _ =>
      plain (ofIntMod 32 (extVal sgn 32 a * extVal sgn 32 b))) ∧
    LaneWord (.imul h u d x y sgn .hi) s h u d false (one x) (one y) absent (fun _ a b _ =>
      plain (ofIntMod 32 (extVal sgn 32 a * extVal sgn 32 b / 2 ^ 32))) ∧
    LaneWord (.imul h u d x y sgn .wide) s h u d true (one x) (one y) absent (fun _ a b _ =>
      plain (ofIntMod 64 (extVal sgn 32 a * extVal sgn 32 b))) ∧
    LaneWord (.imad h u d x y z sgn x2) s h u d x2 (one x) (one y) ⟨z, x2, !sgn⟩ (fun _ a b c =>
      plain (ofIntMod (wOf x2) (extVal sgn 32 a * extVal sgn 32 b + c.toNat))) ∧
    (∀ sh, LaneWord (.lea h u d x y sgn sh) s h u d true ⟨x, true, !sgn⟩ (one y) absent (fun _ a b _ =>
      plain (ofIntMod 64 (a.toNat + extVal sgn 32 b * 2 ^ sh.toNat))))

/-- ICMP compares ext values of the form's width (R123), and IADDC adds with a predicate's carry and leaves the carry out in a
predicate, in each active lane. R132: PSET writes a truth table's entry of three predicates, PMOV reads the predicates as a
number, and PMOV.in writes the predicates of its mask. -/
def Obligations.ComparesCarriesAndPredicates : Prop :=
  (
    ∀ (s : State) (h : Hdr) (u : Bool) (x y : Src),
      (∀ p sgn x2 cc, PredWord (.icmp h u p x y sgn x2 cc) s h u p (wideBy x2 sgn x) (wideBy x2 sgn y) (fun _ a b =>
        (match cc with
          | .eq => decide (extVal sgn (wOf x2) a = extVal sgn (wOf x2) b)
          | .ne => decide (extVal sgn (wOf x2) a ≠ extVal sgn (wOf x2) b)
          | .lt => decide (extVal sgn (wOf x2) a < extVal sgn (wOf x2) b)
          | .le => decide (extVal sgn (wOf x2) a ≤ extVal sgn (wOf x2) b)
          | .gt => decide (extVal sgn (wOf x2) b < extVal sgn (wOf x2) a)
          | .ge => decide (extVal sgn (wOf x2) b ≤ extVal sgn (wOf x2) a), 0))) ∧
      (∀ d cin cneg cout, Does (.iaddc h u d x y cin cneg cout) s h false (srcNames x 1 ++ srcNames y 1) (srcLast x 1 ++ srcLast y 1) 6
        (fun a b => b.wordFault a [x, y] (a.readers u) (dstNames d 1) = none)
        (fun a b =>
          let carry (i : Nat) : Bool := (((b.fib a.ref).map (fun f : Fibre => f.pred cin)).getD 0).getLsbD i != cneg
          let sum (i : Nat) : Nat := (b.opLane a.ref (one x) (a.laneFor u i)).toNat + (b.opLane a.ref (one y) (a.laneFor u i)).toNat +
            (if carry (a.laneFor u i) then 1 else 0)
          (b.putDst a.ref d false a.lanes (lanes (fun i => BitVec.ofNat 32 (sum i))) (splat 0)).modFib a.ref
            (fun f => f.setPred cout a.lanes (maskOf (fun i => decide (2 ^ 32 ≤ sum i))))))
  ) ∧
  (
    ∀ (s : State) (h : Hdr) (u : Bool),
      (∀ pd pa pb pc lut c fb, Issues s h c fb →
        let a := fb.actOf h false c
        let s0 := s.settleLoads c.ref
        let v (i : Nat) : Bool := lut.getLsbD (4 * bit01 ((fb.pred pa).getLsbD (a.laneFor u i)) +
          2 * bit01 ((fb.pred pb).getLsbD (a.laneFor u i)) + bit01 ((fb.pred pc).getLsbD (a.laneFor u i)))
        Decides (exec (.pset h u pd pa pb pc lut) s) s0 (s0.begun fb h false [] [] c) a pd v 0) ∧
      (∀ d c fb, Issues s h c fb →
        let a := fb.actOf h false c
        let s0 := s.settleLoads c.ref
        match s0.writeFault c.ref (dstNames d 1) with
        | some e => OperandTrap (exec (.pmov h u d) s) (s0.turned c) a a.low e
        | none => Computes (exec (.pmov h u d) s) s0 (s0.begun fb h false [] [] c) a d false
            (fun i => BitVec.ofNat 64 (128 + ((List.range 7).map (fun k =>
              bit01 ((fb.pred (BitVec.ofNat 3 k)).getLsbD (a.laneFor u i)) * 2 ^ k)).sum)) 0) ∧
      (∀ x mask, Does (.pmovIn h u x mask) s h false (srcNames x 1) (srcLast x 1) 6
        (fun a b => b.wordFault a [x] (a.readers u) [] = none)
        (fun a b => b.modFib a.ref (fun f => (List.range 7).foldl (fun f k =>
          if mask.getLsbD k then f.setPred (BitVec.ofNat 3 k) a.lanes (maskOf (fun i => (b.srcLane a.ref x (a.laneFor u i)).getLsbD k))
          else f) f)))
  )

/-- R124: IDIV and IREM truncate toward zero, by zero and at overflow give the values of R124, and neither fault nor raise a
flag. -/
def Obligations.DivisionTruncates : Prop :=
  ∀ (s : State) (h : Hdr) (u sgn x2 : Bool) (d : Dst) (x y : Src),
    let w := wOf x2
    let q (a b : Dword) : Int :=
      if b.toNat % 2 ^ w = 0 then (if !sgn then 2 ^ w - 1 else if 0 ≤ sext a.toNat w then 2 ^ (w - 1) - 1 else -(2 ^ (w - 1)))
      else if sgn = true ∧ sext a.toNat w = -(2 ^ (w - 1)) ∧ sext b.toNat w = -1 then -(2 ^ (w - 1))
      else (extVal sgn w a).tdiv (extVal sgn w b)
    let r (a b : Dword) : Int :=
      if b.toNat % 2 ^ w = 0 then extVal sgn w a
      else if sgn = true ∧ sext a.toNat w = -(2 ^ (w - 1)) ∧ sext b.toNat w = -1 then 0
      else extVal sgn w a - (extVal sgn w a).tdiv (extVal sgn w b) * extVal sgn w b
    LaneWord (.idiv h u d x y sgn x2) s h u d x2 (wideBy x2 sgn x) (wideBy x2 sgn y) absent (fun _ a b _ => (ofIntMod w (q a b), 0)) ∧
    LaneWord (.irem h u d x y sgn x2) s h u d x2 (wideBy x2 sgn x) (wideBy x2 sgn y) absent (fun _ a b _ => (ofIntMod w (r a b), 0))

/-! ### Logic, shifts, bit-fields (class 0x2) -/

/-- LOGIC reads its truth table bit by bit, and reads no source on which the table does not depend (R126). Shifts, rotates and
counts compute R127's results. -/
def Obligations.LogicShiftsAndCounts : Prop :=
  (
    ∀ (s : State) (h : Hdr) (u : Bool) (d : Dst) (x y z : Src) (lut : BitVec 8),
      LaneWord (.logic h u d x y z lut) s h u d false (usedSrc (lutUsesA lut) x) (usedSrc (lutUsesB lut) y) (usedSrc (lutUsesC lut) z)
        (fun _ a b c => ((logicVal lut (a.setWidth 32) (b.setWidth 32) (c.setWidth 32)).setWidth 64, 0)) ∧
      (∀ (a b c : Word) (i : Nat), i < 32 → (logicVal lut a b c).getLsbD i =
        lut.getLsbD (4 * bit01 (a.getLsbD i) + 2 * bit01 (b.getLsbD i) + bit01 (c.getLsbD i)))
  ) ∧
  (
    ∀ (s : State) (h : Hdr) (u x2 : Bool) (d : Dst) (x y z : Src),
      LaneWord (.shl h u d x y x2) s h u d x2 (wide x2 x) (one y) absent (fun _ a b _ =>
        plain (if wOf x2 ≤ b.toNat then 0 else BitVec.ofNat 64 (a.toNat * 2 ^ b.toNat))) ∧
      LaneWord (.shr h u d x y false x2) s h u d x2 ⟨x, x2, true⟩ (one y) absent (fun _ a b _ =>
        plain (if wOf x2 ≤ b.toNat then 0 else BitVec.ofNat 64 (a.toNat % 2 ^ wOf x2 / 2 ^ b.toNat))) ∧
      LaneWord (.shr h u d x y true x2) s h u d x2 ⟨x, x2, false⟩ (one y) absent (fun _ a b _ =>
        plain (ofIntMod (wOf x2) (sext a.toNat (wOf x2) / 2 ^ (min b.toNat (wOf x2))))) ∧
      LaneWord (.rot h u d x y) s h u d false (one x) (one y) absent (fun _ a b _ =>
        plain (((a.setWidth 32).rotateLeft (b.toNat % 32)).setWidth 64)) ∧
      LaneWord (.fsh h u d x y z false) s h u d false (one x) (one y) (one z) (fun _ a b c =>
        plain (BitVec.ofNat 64 ((b.toNat * 2 ^ 32 + a.toNat) / 2 ^ (min c.toNat 32) % 2 ^ 32))) ∧
      LaneWord (.fsh h u d x y z true) s h u d false (one x) (one y) (one z) (fun _ a b c =>
        plain (BitVec.ofNat 64 ((b.toNat * 2 ^ 32 + a.toNat) * 2 ^ (min c.toNat 32) / 2 ^ 32 % 2 ^ 32))) ∧
      LaneWord (.popc h u d x x2) s h u d false (wide x2 x) absent absent (fun _ a _ _ =>
        plain (BitVec.ofNat 64 (ones (wOf x2) a.toNat))) ∧
      LaneWord (.clz h u d x x2) s h u d false (wide x2 x) absent absent (fun _ a _ _ =>
        plain (BitVec.ofNat 64 (clzVal (wOf x2) a.toNat))) ∧
      LaneWord (.ctz h u d x x2) s h u d false (wide x2 x) absent absent (fun _ a _ _ =>
        plain (BitVec.ofNat 64 (ctzVal (wOf x2) a.toNat))) ∧
      LaneWord (.brev h u d x x2) s h u d x2 (wide x2 x) absent absent (fun _ a _ _ =>
        plain (BitVec.ofNat 64 (brevVal (wOf x2) a.toNat)))
  )

/-- R128: BFX and BFI on the position and width that B gives, each capped at 32. -/
def Obligations.BitFieldsExtractAndInsert : Prop :=
  ∀ (s : State) (h : Hdr) (u : Bool) (d : Dst) (x y z : Src),
    let p (b : Dword) : Nat := min (b.toNat % 2 ^ 8) 32
    let w (b : Dword) : Nat := min (b.toNat / 2 ^ 8 % 2 ^ 8) 32
    let f (a b : Dword) : Nat := a.toNat / 2 ^ p b % 2 ^ w b
    let m (b : Dword) : Nat := (2 ^ w b - 1) * 2 ^ p b % 2 ^ 32
    LaneWord (.bfx h u d x y false) s h u d false (one x) (one y) absent (fun _ a b _ => (BitVec.ofNat 64 (f a b), 0)) ∧
    LaneWord (.bfx h u d x y true) s h u d false (one x) (one y) absent (fun _ a b _ =>
      (if w b = 0 then 0 else ofIntMod 32 (sext (f a b) (w b)), 0)) ∧
    LaneWord (.bfi h u d x y z) s h u d false (one x) (one y) (one z) (fun _ a b c =>
      (BitVec.ofNat 64 ((c.toNat &&& (m b ^^^ (2 ^ 32 - 1))) ||| (a.toNat * 2 ^ p b &&& m b)), 0))

/-! ### Moves and predicates (class 0x3) -/

/-- PRMT builds each result byte from the octet by its selector, SEL picks by a predicate (R129), MOV copies and MOVI writes its
literal, extended to a pair by signedness (R131). MOVS writes the special register that its number names, as it stands at issue,
in each active lane (R131); a read of s.fpf waits for the fibre's operations of the matrix array (R83, R121). -/
def Obligations.MovesAndSpecialRegisters : Prop :=
  (
    ∀ (s : State) (h : Hdr) (u sgn x2 : Bool) (d : Dst) (x y z : Src) (imm : Word),
      LaneWord (.prmt h u d x y z) s h u d false (one x) (one y) (one z) (fun _ a b c =>
        plain (BitVec.ofNat 64 (((List.range 4).map (fun k =>
          prmtByte (b.toNat * 2 ^ 32 + a.toNat) (bits c.toNat (8 * k) 8) * 2 ^ (8 * k))).sum))) ∧
      (∀ p pneg, LaneWord (.sel h u d x y p pneg) s h u d false (one x) (one y) absent (fun i a b _ =>
        plain (if s.predLane p pneg i then a else b))) ∧
      LaneWord (.mov h u d x x2) s h u d x2 (wide x2 x) absent absent (fun _ a _ _ => plain a) ∧
      LaneWord (.movi h u d sgn x2 imm) s h u d x2 ⟨.imm imm, x2, !sgn⟩ absent absent (fun _ a _ _ => plain a)
  ) ∧
  (
    ∀ (s : State) (h : Hdr) (u : Bool) (d : Dst) (sr : BitVec 8) c fb, Issues s h c fb →
      let a := fb.actOf h false c
      let s0 := s.settleLoads c.ref
      let b := s0.begun fb h false [] [] c
      match s0.writeFault c.ref (dstNames d 1) with
      | some e => OperandTrap (exec (.movs h u d sr) s) (s0.turned c) a a.low e
      | none =>
        if sr = 0x09 ∧ b.arrayBusy c.ref .fibre = true then
          exec (.movs h u d sr) s = .next (b.holdAt h a fb c.lanes (.array .fibre) false)
        else Computes (exec (.movs h u d sr) s) s0 b a d false
          (fun i => BitVec.ofNat 64 (((b.special c.ref sr.toNat (a.laneFor u i)).getD 0) % 2 ^ 32)) 0
  )

/-! ### Lane exchanges -/

/-- R134: BALLOT, VOTE, ELECT and MATCH write their results in each active lane, from the active lanes alone. -/
def Obligations.LaneExchangesOfPredicates : Prop :=
  ∀ (s : State) (h : Hdr) (conv : Bool),
    (∀ d p pneg cnt, ExchangeWord (.ballot h d p pneg cnt conv) s h conv d false [] [] [] (fun s a _ =>
      let m := s.predMask a p pneg
      if cnt then BitVec.ofNat 64 (lanesOf m).length else m.setWidth 64) (fun _ _ => 0)) ∧
    (∀ pd p pneg mode, ExchangePred (.vote h pd p pneg mode conv) s h conv pd (fun s a _ =>
      let yes := s.predMask a p pneg
      match mode with
      | .all => yes == a.lanes
      | .any => yes != 0
      | .eq => yes == a.lanes || yes == 0
      | .maj => decide ((lanesOf a.lanes).length < 2 * (lanesOf yes).length))) ∧
    (∀ pd, ExchangePred (.elect h pd false conv) s h conv pd (fun _ a i => i == (lanesOf a.lanes).headD 0)) ∧
    (∀ pd, ExchangePred (.elect h pd true conv) s h conv pd (fun _ a i => i == ((lanesOf a.lanes).getLast?).getD 0)) ∧
    (∀ d x x2, ExchangeWord (.matchx h d x x2 false conv) s h conv d false [x] (wide x2 x).names (wide x2 x).last (fun s a i =>
      (((lanesOf a.lanes).filter (fun k => s.opLane a.ref (wide x2 x) k == s.opLane a.ref (wide x2 x) i)).foldl
        (fun m k => m ||| oneLane k) 0).setWidth 64) (fun _ _ => 0)) ∧
    (∀ d x x2, ExchangeWord (.matchx h d x x2 true conv) s h conv d false [x] (wide x2 x).names (wide x2 x).last (fun s a i =>
      BitVec.ofNat 64 (((lanesOf a.lanes).filter (fun k => s.opLane a.ref (wide x2 x) k == s.opLane a.ref (wide x2 x) i)).headD 0))
      (fun _ _ => 0))

/-- SHFL reads A in the source lane that its mode gives within its segments (R135); where a latch is not valid in a source lane, the
lowest active lane that reads it traps (R32, R397). -/
def Obligations.ShuffleReadsItsSourceLane : Prop :=
  ∀ (s : State) (h : Hdr) (d : Dst) (x y : Src) (mode : ShflMode) (seg : BitVec 3) (zf conv : Bool),
    let n := if mode = .rev then Src.imm 0 else y
    ∀ c fb, Issues s h c fb → MayExchange s c conv →
      let a := fb.actOf h false c
      let s0 := s.settleLoads c.ref
      let source (i : Nat) : Option Nat := shflSource mode seg.toNat (s0.srcLane c.ref n i).toNat i
      let unread (i : Nat) : Bool :=
        match source i with
        | some k => (s0.badLatch c.ref x (oneLane k)).isSome
        | none => !zf && (s0.badLatch c.ref x (oneLane i)).isSome
      fb.owes (srcNames x 1 ++ srcNames n 1) = false →
      s0.badLatches c.ref [n] a.lanes = none → s0.writeFault c.ref (dstNames d 1) = none →
      match (lanesOf a.lanes).find? unread with
      | some i => OperandTrap (exec (.shfl h d x y mode seg zf conv) s) (s0.turned c) a i 1
      | none =>
        Computes (exec (.shfl h d x y mode seg zf conv) s) s0
          (s0.begun fb h false (srcNames x 1 ++ srcNames n 1) (srcLast x 1 ++ srcLast n 1) c) a d false
          (fun i => match source i with
            | some k => (s0.srcLane c.ref x k).setWidth 64
            | none => if zf then 0 else (s0.srcLane c.ref x i).setWidth 64) 0

/-- LREDI and LSCAN combine the active lanes' values, over the fibre or over each quarter (R136). FLREDM picks the element of
extreme rank with its number, over the lanes or over the columns of a tile row, and FLSUM adds by the fixed tree (R147 to R149).
The form over a tile issues at once and owes its registers; a lane whose row the tile lacks traps with detail 5. -/
def Obligations.LanesReduce : Prop :=
  (
    ∀ (s : State) (h : Hdr) (d : Dst) (x : Src) (sgn q conv : Bool) (op : LaneOp),
      ExchangeWord (.lredi h d x sgn q op conv) s h conv d false [x] (srcNames x 1) (srcLast x 1) (fun s a i =>
        (((lanesOf a.lanes).filter (fun k => !q || i / 8 == k / 8)).foldl (fun m k => laneCombine op sgn m (s.srcLane a.ref x k))
          (laneIdentity op sgn)).setWidth 64) (fun _ _ => 0) ∧
      (∀ excl, ExchangeWord (.lscan h d x sgn q excl op conv) s h conv d false [x] (srcNames x 1) (srcLast x 1) (fun s a i =>
        (((lanesOf a.lanes).filter (fun k => (!q || i / 8 == k / 8) && (k < i || (k == i && !excl)))).foldl
          (fun m k => laneCombine op sgn m (s.srcLane a.ref x k)) (laneIdentity op sgn)).setWidth 64) (fun _ _ => 0))
  ) ∧
  (
    ∀ (s : State) (h : Hdr) (d : Dst) (x : Src) (max q conv : Bool) (rnd : Rnd),
      ExchangeWord (.flredm h d x max q conv) s h conv d true [x] (srcNames x 1) (srcLast x 1) (fun s a i =>
        let e := extreme max (((lanesOf a.lanes).filter (fun k => !q || i / 8 == k / 8)).map (fun k => (k, s.srcLane a.ref x k)))
        BitVec.ofNat 32 e.1 ++ e.2) (fun _ _ => 0) ∧
      ExchangeWord (.flsum h d x rnd q conv) s h conv d false [x] (srcNames x 1) (srcLast x 1)
        (fun s a i =>
          let v (k : Nat) : Option Word := if a.lanes.getLsbD k then some (s.srcLane a.ref x k) else none
          (((if q then treeSum rnd v 3 (i / 8 * 8) else treeSum rnd v 5 0).1).getD 0).setWidth 64)
        (fun s a =>
          let v (k : Nat) : Option Word := if a.lanes.getLsbD k then some (s.srcLane a.ref x k) else none
          (lanesOf a.lanes).foldl (fun fl i => fl ||| (if q then treeSum rnd v 3 (i / 8 * 8) else treeSum rnd v 5 0).2) 0) ∧
      (∀ tile, let out (a : Act) (b : State) (w : Tile) (i : Nat) : Bool := decide (w.rows.length ≤ (b.srcLane a.ref x i).toNat)
        let ok (a : Act) (b : State) : Prop := b.claimOf a.ref.wg = none ∧ b.wordFault a [x] a.lanes (dstNames d 2) = none
        Does (.flredmTile h d x tile max) s h false (srcNames x 1) (srcLast x 1) 9
          (fun a b => ok a b ∧ ∃ w, b.tile a.ref.wg tile.toNat = some w ∧ (lanesOf a.lanes).find? (out a b w) = none)
          (fun a b => b.owing a (.extreme d max ((lanesOf a.lanes).map (fun i => (i, (b.srcLane a.ref x i).toNat)))) tile.toNat
            (dstNames d 2) [256 + (Dst.latch d).toNat]) ∧
        (∀ k, Traps (.flredmTile h d x tile max) s h false (srcNames x 1) (srcLast x 1)
          (fun a b => ok a b ∧ ∃ w, b.tile a.ref.wg tile.toNat = some w ∧ (lanesOf a.lanes).find? (out a b w) = some k)
          (fun a _ => a.operand k 5)) ∧
        Traps (.flredmTile h d x tile max) s h false (srcNames x 1) (srcLast x 1)
          (fun a b => ok a b ∧ b.tile a.ref.wg tile.toNat = none) (fun a _ => a.operand a.low 5))
  )

/-- A lane-exchange word whose issue group lacks a live thread of the fibre: under `.conv` it waits for the others; without
it, in a deterministic launch, it traps as nondeterministic (R43, R133). -/
def Obligations.ExchangesApart : Prop :=
  ∀ (s : State) (h : Hdr) (conv : Bool) (d : Dst) (p q : BitVec 3) (x y : Src),
    (∀ n k, ExchangeApart (.ballot h d p n k conv) s h conv []) ∧ (∀ n m, ExchangeApart (.vote h q p n m conv) s h conv []) ∧
    (∀ m g z, ExchangeApart (.shfl h d x y m g z conv) s h conv (srcNames x 1 ++ srcNames (if m = .rev then .imm 0 else y) 1)) ∧
    (∀ w l, ExchangeApart (.matchx h d x w l conv) s h conv (wide w x).names) ∧
    (∀ g r o, ExchangeApart (.lredi h d x g r o conv) s h conv (srcNames x 1)) ∧
    (∀ g r e o, ExchangeApart (.lscan h d x g r e o conv) s h conv (srcNames x 1)) ∧
    (∀ k, ExchangeApart (.elect h q k conv) s h conv []) ∧ (∀ m r, ExchangeApart (.flredm h d x m r conv) s h conv (srcNames x 1)) ∧
    (∀ r k, ExchangeApart (.flsum h d x r k conv) s h conv (srcNames x 1))

/-! ### FP32 arithmetic (class 0x4) -/

/-- FP32 arithmetic rounds the exact result once under the word's mode, and raises the flags of R82 (R143). The functions of one
operand round their exact value once (R144). Minima, maxima, comparisons and classes (R145, R146), and FABS and FNEG, which
change the sign bit alone (R81, R146). -/
def Obligations.FloatWords : Prop :=
  (
    ∀ (s : State) (h : Hdr) (u sat : Bool) (d : Dst) (x y z : Src) (rnd : Rnd),
      LaneWord (.fadd h u d x y rnd sat) s h u d false (one x) (one y) absent (fun _ a b _ => asLane (addVal .f32 rnd sat (fv a) (fv b))) ∧
      LaneWord (.fsub h u d x y rnd sat) s h u d false (one x) (one y) absent (fun _ a b _ =>
        asLane (addVal .f32 rnd sat (fv a) (fv b).negate)) ∧
      LaneWord (.fmul h u d x y rnd sat) s h u d false (one x) (one y) absent (fun _ a b _ => asLane (mulVal .f32 rnd sat (fv a) (fv b))) ∧
      LaneWord (.ffma h u d x y z rnd sat) s h u d false (one x) (one y) (one z) (fun _ a b c =>
        asLane (fmaVal .f32 rnd sat (fv a) (fv b) (fv c))) ∧
      LaneWord (.fdiv h u d x y rnd) s h u d false (one x) (one y) absent (fun _ a b _ => asLane (divVal rnd (fv a) (fv b))) ∧
      LaneWord (.fscale h u d x y rnd sat) s h u d false (one x) (one y) absent (fun _ a b _ =>
        asLane (scaleVal2 rnd sat (fv a) (sext b.toNat 32)))
  ) ∧
  (
    ∀ (s : State) (h : Hdr) (u : Bool) (d : Dst) (x : Src) (rnd : Rnd),
      let f (g : Val → Res) : LaneFn := fun _ a _ _ => asLane (g (fv a))
      LaneWord (.fsqrt h u d x rnd) s h u d false (one x) absent absent (f (sqrtVal rnd)) ∧
      LaneWord (.frcp h u d x rnd) s h u d false (one x) absent absent (f (rcpVal rnd)) ∧
      LaneWord (.frsq h u d x rnd) s h u d false (one x) absent absent (f (rsqVal rnd)) ∧
      LaneWord (.fexp2 h u d x rnd) s h u d false (one x) absent absent (f (exp2Val rnd)) ∧
      LaneWord (.flog2 h u d x rnd) s h u d false (one x) absent absent (f (log2Val rnd)) ∧
      LaneWord (.fsin h u d x rnd) s h u d false (one x) absent absent (f (trigVal rnd false)) ∧
      LaneWord (.fcos h u d x rnd) s h u d false (one x) absent absent (f (trigVal rnd true)) ∧
      LaneWord (.ftanh h u d x rnd) s h u d false (one x) absent absent (f (tanhVal rnd))
  ) ∧
  (
    ∀ (s : State) (h : Hdr) (u : Bool) (d : Dst) (x y : Src),
      let m (isMax number : Bool) : LaneFn := fun _ a b _ =>
        asLane (minMax .f32 isMax number (fv a) (fv b) (lo32 a).toNat (lo32 b).toNat)
      LaneWord (.fmin h u d x y) s h u d false (one x) (one y) absent (m false false) ∧
      LaneWord (.fmax h u d x y) s h u d false (one x) (one y) absent (m true false) ∧
      LaneWord (.fminn h u d x y) s h u d false (one x) (one y) absent (m false true) ∧
      LaneWord (.fmaxn h u d x y) s h u d false (one x) (one y) absent (m true true) ∧
      (∀ p cc, PredWord (.fcmp h u p x y cc) s h u p (one x) (one y) (fun _ a b => cmpVal cc (fv a) (fv b))) ∧
      LaneWord (.fclass h u d x) s h u d false (one x) absent absent (fun _ a _ _ => plain ((classOf (lo32 a)).setWidth 64)) ∧
      LaneWord (.fabs h u d x) s h u d false (one x) absent absent (fun _ a _ _ => plain (a &&& 0x7FFFFFFF)) ∧
      LaneWord (.fneg h u d x) s h u d false (one x) absent absent (fun _ a _ _ => plain (a ^^^ 0x80000000))
  )

/-! ### Conversions, packed arithmetic, quantisation, bins (class 0x5) -/

/-- Conversions between FP32, the element formats and integers (R153 to R155). -/
def Obligations.ConversionsRound : Prop :=
  ∀ (s : State) (h : Hdr) (u sgn sat x2 : Bool) (d : Dst) (x y z : Src) (rnd : Rnd) (fmt : Fmt),
    LaneWord (.fcvt h u d x rnd sat fmt) s h u d false (one x) absent absent (fun _ a _ _ => asLane (convert fmt rnd sat (fv a))) ∧
    LaneWord (.fcvtWid h u d x fmt) s h u d false (one x) absent absent (fun _ a _ _ =>
      asLane (convert .f32 .rne false (decodeElem s.fp4x fmt (a.toNat % 2 ^ fmtWidth fmt)))) ∧
    LaneWord (.f2i h u d x sgn x2 rnd) s h u d x2 (one x) absent absent (fun _ a _ _ =>
      (ofIntMod (wOf x2) (toInt rnd sgn (wOf x2) (fv a)).1, (toInt rnd sgn (wOf x2) (fv a)).2)) ∧
    LaneWord (.i2f h u d x sgn x2 rnd) s h u d false (wideBy x2 sgn x) absent absent (fun _ a _ _ =>
      asLane (ofInt rnd (extVal sgn (wOf x2) a))) ∧
    LaneWord (.frnd h u d x rnd) s h u d false (one x) absent absent (fun _ a _ _ => asLane (roundIntegral rnd (lo32 a))) ∧
    (∀ pos, LaneWord (.fpack h u d x y z rnd sat fmt pos) s h u d false (one x) (one y) (if fmt.is16 then absent else one z)
      (fun _ a b c =>
        let p := convert fmt rnd sat (fv a)
        let q := convert fmt rnd sat (fv b)
        (BitVec.ofNat 64 (putElemAt (putElemAt c.toNat (fmtWidth fmt) (2 * pos.toNat) p.code) (fmtWidth fmt) (2 * pos.toNat + 1) q.code),
          p.flags ||| q.flags))) ∧
    (∀ idx, LaneWord (.funpk h u d x idx x2 fmt) s h u d x2 (one x) absent absent (fun _ a _ _ =>
      let e (k : Nat) := convert .f32 .rne false (decodeElem s.fp4x fmt (bits a.toNat (fmtWidth fmt * k) (fmtWidth fmt)))
      let q := if x2 then e (idx.toNat + 1) else ⟨0, 0⟩
      (BitVec.ofNat 64 ((e idx.toNat).code + q.code * 2 ^ 32), (e idx.toNat).flags ||| q.flags)))

/-- Packed 16-bit arithmetic works on the two halves independently and gathers their flags (R156). Quantisation (R157, R158) and
bins (R159): a block exponent outside −126 to 127 traps with detail 9 in its lowest lane. -/
def Obligations.PackedHalvesQuantisationAndBins : Prop :=
  (
    ∀ (s : State) (h : Hdr) (u sat num : Bool) (d : Dst) (x y z : Src) (rnd : Rnd) (fmt : Fmt),
      let v (a : Dword) (k : Nat) : Val := (layoutOf fmt).decode (bits a.toNat (16 * k) 16)
      let two (f : Nat → Res) : Dword × BitVec 6 := (BitVec.ofNat 64 ((f 0).code + (f 1).code * 2 ^ 16), (f 0).flags ||| (f 1).flags)
      let mm (isMax : Bool) : LaneFn := fun _ a b _ =>
        two (fun k => minMax fmt isMax num (v a k) (v b k) (bits a.toNat (16 * k) 16) (bits b.toNat (16 * k) 16))
      LaneWord (.hadd2 h u d x y rnd sat fmt) s h u d false (one x) (one y) absent (fun _ a b _ =>
        two (fun k => addVal fmt rnd sat (v a k) (v b k))) ∧
      LaneWord (.hmul2 h u d x y rnd sat fmt) s h u d false (one x) (one y) absent (fun _ a b _ =>
        two (fun k => mulVal fmt rnd sat (v a k) (v b k))) ∧
      LaneWord (.hfma2 h u d x y z rnd sat fmt) s h u d false (one x) (one y) (one z) (fun _ a b c =>
        two (fun k => fmaVal fmt rnd sat (v a k) (v b k) (v c k))) ∧
      LaneWord (.hmin2 h u d x y num fmt) s h u d false (one x) (one y) absent (mm false) ∧
      LaneWord (.hmax2 h u d x y num fmt) s h u d false (one x) (one y) absent (mm true)
  ) ∧
  (
    ∀ (s : State) (h : Hdr) (u sat fit : Bool) (d : Dst) (x y z : Src) (rnd : Rnd) (fmt : Fmt),
      LaneWord (.qscale h u d x fit fmt) s h u d false (one x) absent absent (fun _ a _ _ => asLane (qscaleVal fit fmt (fv a))) ∧
      (∀ pos, LaneWord (.qnt h u d x y z rnd sat fmt pos) s h u d false (one x) (one y) (one z) (fun _ a b c =>
        let r := qntVal rnd sat fmt (fv a) (bits b.toNat 0 8)
        (BitVec.ofNat 64 (putElemAt c.toNat (fmtWidth fmt) pos.toNat r.code), r.flags))) ∧
      LaneWord (.binadd h u d x y) s h u d true (wide true x) (wide true y) absent (fun _ a b _ => binAdd a b) ∧
      BinWord (.bincv h u d x y rnd) s h u d true (one x) y (fun _ a b _ => binCvt rnd (fv a) (sext b.toNat 32)) ∧
      BinWord (.binfp h u d x y rnd) s h u d false (wide true x) y (fun _ a b _ => asLane (binToF32 rnd a (sext b.toNat 32)))
  )

/-! ### Control and fibres (class 0x0) -/

/-- NOP and SWP do nothing but pass, and govern the words that follow (R40, R112). FYIELD passes, and lets another ready fibre
of its slot in, whatever its guard leaves active (R94, R96, R112). Branches move each active thread to its target, and calls
write the return address first (R110). A target at or before the word is a switch point, as a computed one always is (R96). -/
def Obligations.PlainWordsBranchesAndCalls : Prop :=
  (
    ∀ (s : State) (h : Hdr) (n : BitVec 2),
      Does (.nop h) s h true [] [] 6 (fun _ _ => True) (fun _ b => b) ∧
      Does (.swp h n) s h true [] [] 6 (fun _ _ => True) (fun a b => b.modFib a.ref (fun f => { f with
        gov := f.gov.mapIdx (fun i g => if a.lanes.getLsbD i then ⟨n.toNat, n.toNat, a.pc⟩ else g) })) ∧
      (∀ c f, s.cur = some c → h ≠ Hdr.never →
        let s0 := (s.yieldSlot c.ref).settleLoads c.ref
        s0.fib c.ref = some f →
        exec (.fyield h) s = .next ((s0.begun f (atPoint h) true [] [] c).finish (atPoint h) (f.actOf (atPoint h) true c) 6) ∧
        (let (core, k) := s.slotOf c.ref
         (s.readyIn core k).any (fun e => e.2 != c.ref) = true →
          s.yieldSlot c.ref = s.modSlot core k (fun p => { p with due := true })))
  ) ∧
  (
    ∀ (s : State) (h : Hdr) (u : Bool) (off : BitVec 32) (d : BitVec 8) (x : Src),
      let target (a : Act) : Nat := (((a.pc : Int) + 12 + off.toInt) % 2 ^ 64).toNat
      let move (a : Act) (b : State) (g : Nat → Nat) : State := b.modFib a.ref (fun f => { f with
        pcs := f.pcs.mapIdx (fun i p => if a.lanes.getLsbD i then g i % 2 ^ 64 else p) })
      let turn : Hdr := if off.toInt + 12 ≤ 0 then atPoint h else h
      let link (a : Act) (b : State) : State := b.putPair a.ref d.toNat a.lanes (fun _ => BitVec.ofNat 64 (a.pc + 12))
      let writable (a : Act) (b : State) : Prop := b.writeFault a.ref [d.toNat, d.toNat + 1] = none
      Does (.bra h off) s turn true [] [] 6 (fun _ _ => True) (fun a b => move a b (fun _ => target a)) ∧
      Does (.brx h u x) s (atPoint h) true (srcNames x 2) (srcLast x 2) 6 (fun _ _ => True)
        (fun a b => move a b (fun i => (b.pairLane a.ref x (a.laneFor u i)).toNat)) ∧
      Does (.ret h x) s (atPoint h) true (srcNames x 2) (srcLast x 2) 6 (fun _ _ => True)
        (fun a b => move a b (fun i => (b.pairLane a.ref x i).toNat)) ∧
      Does (.call h d off) s turn true [] [] 6 writable (fun a b => move a (link a b) (fun _ => target a)) ∧
      Does (.callx h u d x) s (atPoint h) true (srcNames x 2) (srcLast x 2) 6 writable
        (fun a b => move a (link a b) (fun i => (b.pairLane a.ref x (a.laneFor u i)).toNat))
  )

/-- EXIT ends its active threads: outside trap mode once the stores that the fibre has queued have left, in trap mode after it
performs again what its threads still owe (R111, R392). A fibre whose other live threads have all executed a barrier then arrives at it
(R105). -/
def Obligations.ExitEndsThreads : Prop :=
  ∀ (s : State) (h : Hdr),
    Does (.exit h) s (atPoint h) true [] [] 6 (fun a b => b.inTrap a.ref = false ∧ b.storesLeave a.ref)
      (fun a b => ((b.drain a.ref).1.exitLanes a.ref a.lanes).arriveRest a.ref) ∧
    Does (.exit h) s (atPoint h) true [] [] 6 (fun a b => b.inTrap a.ref = true)
      (fun a b => ((b.exitLanes a.ref a.lanes).arriveRest a.ref).reissue a.ref) ∧
    (∀ r m f, s.fib r = some f → f.trap = none → f.live &&& ~~~m ≠ 0 →
      ((s.exitLanes r m).fib r).map (fun g : Fibre => (g.live, g.st)) = some (f.live &&& ~~~m, f.st)) ∧
    (∀ r m f, s.fib r = some f → f.live &&& ~~~m = 0 →
      ((s.exitLanes r m).fib r).map (fun g : Fibre => (g.live, g.st)) = some (0, .exited))

/-- A barrier word arrives: its queued stores leave, its release event takes place when the last live thread of its fibre
arrives, and the barrier counts its threads. Under `.arv` the threads go on; otherwise they park until the phase completes (R104
to R106, R113). Threads that waited in a phase that has completed pass their barrier word, and acquire what the phase released
(R104, R107). GBAR outside a co-resident launch is an illegal instruction with subcode 8 (R113). -/
def Obligations.BarriersArriveAndPass : Prop :=
  (
    ∀ (s : State) (h : Hdr) (n2 : BitVec 2) (n3 : BitVec 3) (n1 : BitVec 1) (mask : BitVec 4),
      let arrives (i : Bool → Instr) (key : State → FibRef → BarKey) (m : Option Nat) : Prop :=
        let fresh (a : Act) (b : State) : Prop :=
          b.inTrap a.ref = false ∧ a.lanes &&& b.barrierPassed a.ref (key b a.ref) = 0 ∧
          a.lanes &&& (b.barrier (key b a.ref)).arrivedOf a.ref = 0 ∧ b.storesLeave a.ref ∧
          (∀ v, m = some v → (b.barrier (key b a.ref)).mask = none ∨ (b.barrier (key b a.ref)).mask = some v) ∧
          (∀ v f, m = some v → b.fib a.ref = some f → v = 0 ∨ bit v f.pos = true)
        let joined (a : Act) (b : State) (waits : Bool) : State :=
          let k := key b a.ref
          let x := b.barrier k
          let y := { x with
            arrived := x.arrived ++ [(a.ref, a.lanes)]
            mask := if m.isSome then m else x.mask
            waiting := if !waits || x.waiting.contains a.ref then x.waiting else x.waiting ++ [a.ref] }
          if (((b.fib a.ref).map (·.live)).getD 0) &&& ~~~(y.arrivedOf a.ref) == 0 then (b.drain a.ref).1.arrive k y a.ref
          else (b.drain a.ref).1.setBarrier k y
        Does (i true) s (atPoint h) true [] [] 6 fresh (fun a b => joined a b false) ∧
        Waits (i false) s (atPoint h) true [] [] fresh
          (fun a b => (joined a b true).modFib a.ref (fun f => { f with
            passed := f.passed ++ [(key b a.ref, (b.barrier (key b a.ref)).phase, a.lanes)] }))
          (fun a => a.lanes) (fun a b => .barrier (key b a.ref) (b.barrier (key b a.ref)).phase) true
      arrives (fun arv => .fbar h n2 arv mask) (fun b r => .fib r.wg (((b.fib r).map (·.lslot)).getD 0) n2.toNat) (some mask.toNat) ∧
      arrives (fun arv => .wgbar h n3 arv) (fun _ r => .wgp r.wg n3.toNat) none ∧
      arrives (fun arv => .clbar h n1 arv) (fun b r => .clus (b.clusterKey r.wg).1 (b.clusterKey r.wg).2 n1.toNat) none ∧
      ((∀ c, s.cur = some c → (s.launchOf c.ref.wg).coresident = true) →
        arrives (fun arv => .gbar h arv) (fun b r => .grid (b.clusterKey r.wg).1) none)
  ) ∧
  (
    ∀ (s : State) (h : Hdr) (arv : Bool) (n2 : BitVec 2) (n3 : BitVec 3) (n1 : BitVec 1) (mask : BitVec 4),
      let passes (i : Instr) (key : State → FibRef → BarKey) : Prop :=
        Does i s (atPoint h) true [] [] 6
          (fun a b => b.inTrap a.ref = false ∧ a.lanes &&& b.barrierPassed a.ref (key b a.ref) = a.lanes)
          (fun a b =>
            let k := key b a.ref
            let w := (b.takeGens a.ref k).modFib a.ref (fun f => { f with
              passed := (f.passed.map (fun e => if e.1 == k && e.2.1 < (b.barrier k).phase then (e.1, e.2.1, e.2.2 &&& ~~~a.lanes) else e)).filter
                (fun e => e.2.2 != 0) })
            w.cacheAcquire (w.agent a.ref.wg) (barrierScope k))
      passes (.fbar h n2 arv mask) (fun b r => .fib r.wg (((b.fib r).map (·.lslot)).getD 0) n2.toNat) ∧
      passes (.wgbar h n3 arv) (fun _ r => .wgp r.wg n3.toNat) ∧
      passes (.clbar h n1 arv) (fun b r => .clus (b.clusterKey r.wg).1 (b.clusterKey r.wg).2 n1.toNat) ∧
      ((∀ c, s.cur = some c → (s.launchOf c.ref.wg).coresident = true) →
        passes (.gbar h arv) (fun b r => .grid (b.clusterKey r.wg).1)) ∧
      (∀ c f, s.cur = some c → s.fib c.ref = some f → h ≠ Hdr.never → (s.launchOf c.ref.wg).coresident = false →
        exec (.gbar h arv) s = .next ((s.turned c).takeTrap c.ref (underGov
          (Act.illegal ⟨c.ref, c.lanes &&& f.guard h, c.lanes, c.pc, c.bits, ⟨0, 0, 0⟩⟩ 8) (f.govOf c.lanes))))
  )

/-- WREL hands a window's part that the fibre owns to the next position of the mask, once its registers are written and its stores have
left; WACQ takes a part that is full and the fibre's own, and parks until it is (R100, R102, R114). -/
def Obligations.WindowHandOff : Prop :=
  ∀ (s : State) (h : Hdr) (w : BitVec 2),
    let at' (a : Act) (b : State) : Nat × Nat := (b.windowPart a.ref w.toNat).getD (0, 0)
    let part (a : Act) (b : State) : WinPart := b.winPart a.ref.wg (at' a b).1 (at' a b).2
    let desc (a : Act) (b : State) : WinDesc := (b.launchOf a.ref.wg).windows.getD w.toNat default
    let pos (a : Act) (b : State) : Nat := ((b.fib a.ref).map (·.pos)).getD 0
    let names (a : Act) (b : State) : List Nat :=
      let n := if (desc a b).double then (desc a b).count / 2 else (desc a b).count
      (List.range n).map (fun k => (desc a b).first + (at' a b).2 * n + k)
    let owed (a : Act) (b : State) : Bool := ((b.fib a.ref).map (fun f => f.owes (names a b))).getD false
    let mine (a : Act) (b : State) : Prop := b.inTrap a.ref = false ∧ (b.windowPart a.ref w.toNat).isSome = true
    Does (.wrel h w) s h true [] [] 6
      (fun a b => mine a b ∧ (part a b).owner = pos a b ∧ owed a b = false ∧ b.storesLeave a.ref)
      (fun a b =>
        let e := (b.drain a.ref).1.releaseEvent a.ref
        let d := desc a e.2
        let t := e.2.modWindow a.ref.wg (at' a b).1 (fun x => { x with
          parts := x.parts.set (at' a b).2 ⟨nextPos d.fibs (pos a b), true⟩
          vecs := x.vecs.set (at' a b).2 (if (e.2.launchOf a.ref.wg).checked then e.2.vecAt a.ref e.1 else []) })
        if d.double then t.modFib a.ref (fun f => { f with halves := f.halves.setIfInBounds w.toNat (1 - (at' a b).2) }) else t) ∧
    Waits (.wrel h w) s h true [] [] (fun a b => mine a b ∧ (part a b).owner = pos a b ∧ owed a b = true) (fun _ b => b)
      (fun a => a.group) (fun a b => .regs (names a b)) false ∧
    Does (.wacq h w) s (atPoint h) true [] [] 6
      (fun a b => mine a b ∧ (part a b).full = true ∧ (part a b).owner = pos a b)
      (fun a b =>
        let vec := (((Map.find b.wgs a.ref.wg).bind (fun g => g.windows[(at' a b).1]?)).bind (fun x => x.vecs[(at' a b).2]?)).getD []
        let t := b.modWindow a.ref.wg (at' a b).1 (fun x => { x with parts := x.parts.set (at' a b).2 ⟨pos a b, false⟩ })
        let giver := t.fibreAt a.ref.wg (((b.fib a.ref).map (·.lslot)).getD 0) (prevPos (desc a b).fibs (pos a b))
        t.handOff a.ref giver vec) ∧
    Waits (.wacq h w) s (atPoint h) true [] []
      (fun a b => mine a b ∧ ¬ ((part a b).full = true ∧ (part a b).owner = pos a b)) (fun _ b => b) (fun a => a.group)
      (fun a b => .window (((b.fib a.ref).map (·.lslot)).getD 0) w.toNat (at' a b).2) true

/-! ### Matrix issue (class 0x6) and matrix supply (class 0x7) -/

/-- MZERO, MWR, MRD, MMON and the tile form of FLREDM issue at once, as operations that act on their tile in issue order; MRD, MMON and
FLREDM claim their registers and owe them (R148, R176, R182 to R184, R189, R190, R205). MSYNC waits until the array holds none of the
operations it names (R187). -/
def Obligations.TilesReadAndWritten : Prop :=
  ∀ (s : State) (h : Hdr) (t : BitVec 4) (x y z : Src) (d : BitVec 8),
    let val (a : Act) (b : State) (v : Src) (i : Nat) : Nat := (b.srcLane a.ref v i).toNat
    (∀ mon, MatDoes (.mzero h t mon) s h [] (fun a b => (b.tile a.ref.wg t.toNat).isSome = true)
      (fun a b => b.pushOp (mkOp a b (.zero mon) t.toNat))) ∧
    MatDoes (.mwr h t x y z) s h [(x, 1), (y, 1), (z, 1)]
      (fun a b => b.wordFault a [x, y, z] a.lanes [] = none ∧
        ∃ w, b.tile a.ref.wg t.toNat = some w ∧ ∀ i ∈ lanesOf a.lanes, val a b y i < w.rows.length ∧ val a b z i < 64)
      (fun a b => b.pushOp (mkOp a b
        (.write ((lanesOf a.lanes).map (fun i => (val a b y i, val a b z i, b.srcLane a.ref x i)))) t.toNat)) ∧
    (∀ rnd sat fmt, MatDoes (.mrd h d x y t rnd sat fmt) s h [(x, 1), (y, 1)]
      (fun a b => b.wordFault a [x, y] a.lanes [d.toNat] = none ∧
        ∃ w, b.tile a.ref.wg t.toNat = some w ∧ ∀ i ∈ lanesOf a.lanes,
          val a b x i < w.rows.length ∧ val a b y i + 32 / fmtWidth fmt ≤ 64 ∧ val a b y i % (32 / fmtWidth fmt) = 0)
      (fun a b => b.owing a (.read d.toNat fmt rnd sat ((lanesOf a.lanes).map (fun i => (i, val a b x i, val a b y i)))) t.toNat
        [d.toNat] [])) ∧
    (∀ ctr clr, MatDoes (.mmon h d t ctr clr) s h []
      (fun a b => b.wordFault a [] 0 [d.toNat] = none ∧ (b.tile a.ref.wg t.toNat).isSome = true)
      (fun a b => b.owing a (.monitor d.toNat ctr.toNat clr) t.toNat [d.toNat] [])) ∧
    (∀ (e : Dst) max, Does (.flredmTile h e x t max) s h false (srcNames x 1) (srcLast x 1) 9
      (fun a b => b.claimOf a.ref.wg = none ∧ b.wordFault a [x] a.lanes (dstNames e 2) = none ∧
        ∃ w, b.tile a.ref.wg t.toNat = some w ∧ ∀ i ∈ lanesOf a.lanes, val a b x i < w.rows.length)
      (fun a b => b.owing a (.extreme e max ((lanesOf a.lanes).map (fun i => (i, val a b x i)))) t.toNat (dstNames e 2)
        [256 + (Dst.latch e).toNat])) ∧
    (∀ wg, let k : MatWait := if wg then .group else .fibre
      MatDoes (.msync h wg) s h [] (fun a b => b.arrayBusy a.ref k = false) (fun _ b => b) ∧
      Waits (.msync h wg) s h false [] [] (fun a b => b.claimOf a.ref.wg = none ∧ b.arrayBusy a.ref k = true)
        (fun _ b => b) (fun a => a.group) (fun _ _ => .array k) false)

/-- MMAQ and MMAQS put one operation for each quarter with an active lane into their core's array: the rows are bound when MMAQ
issues (R163, R171), and MMAQS names the scratchpad bytes it will read (R164, R173), its threads out of bounds switched off. A tile or
slot that R180 does not admit traps with detail 5. -/
def Obligations.MatrixWordsQueueQuarters : Prop :=
  ∀ (s : State) (h : Hdr) (t slot : BitVec 4) (x : Src) (asc sclast : Bool) (sc : BitVec 8) (la lb lc wa wb wc : BitVec 2)
    (ta tb tc : Bool) (rnd : Rnd) (fa fb : Fmt) (qoff : BitVec 3),
    let ctl := ctlWord la lb lc wa wb wc ta tb tc rnd fa fb qoff
    let K := ((passShape fa fb).getD (0, 0)).1
    let n := ((passShape fa fb).getD (0, 0)).2
    let scRegs := if asc then (if K / 32 == 8 then 2 else 1) else 0
    let scNames := (List.range scRegs).map (fun j => sc.toNat + j)
    let base := match x with | .reg r _ => r.toNat | _ => 0
    let reads := [(x, n / 4)].flatMap (fun e => srcNames e.1 e.2) ++ scNames
    let last := [(x, n / 4)].flatMap (fun e => srcLast e.1 e.2) ++ (if sclast then scNames else [])
    let i := Instr.mmaq h t x slot asc sclast sc la lb lc wa wb wc ta tb tc rnd fa fb qoff
    let slotOf (a : Act) (b : State) : Option WSlot := b.mmaSlot a t.toNat slot.toNat qoff.toNat ctl
    let idle (a : Act) (b : State) : Prop := b.claimOf a.ref.wg = none ∧ ∀ w, b.wslot a.ref.wg slot.toNat = some w → w.st ≠ .loading
    let qs (a : Act) : List Nat := quartersOf a.lanes
    let charged (a : Act) (b : State) : State := b.charge (b.ctxOf a.ref.wg) (quarterEnergy fa fb * (qs a).length)
    Does i s h false reads last 0
      (fun a b => idle a b ∧ (slotOf a b).isSome = true ∧ b.arrayBusy a.ref (.queue (qs a).length) = false)
      (fun a b => (qs a).foldl (fun v q =>
        let rows := ((lanesOf a.lanes).filter (fun i => i / 8 == q)).map (fun i =>
          (8 * (qoff.toNat + q) + i % 8, v.regBytes a.ref base (n / 4) i, (v.regBytes a.ref sc.toNat scRegs i).take (K / 32)))
        v.pushOp (mkQuarter a v t.toNat ctl asc ((slotOf a b).getD (freshSlot [] 0)) rows [])) (charged a b)) ∧
    Waits i s h false reads last (fun a b => idle a b ∧ (slotOf a b).isSome = true ∧ b.arrayBusy a.ref (.queue (qs a).length) = true)
      (fun _ b => b) (fun a => a.group) (fun a _ => .array (.queue (qs a).length)) false ∧
    Traps i s h false reads last (fun a b => idle a b ∧ slotOf a b = none) (fun a _ => a.operand a.low 5) ∧
    (let bytes := n + if asc then K / 32 else 0
     let off (a : Act) (b : State) (i : Nat) : Nat := (b.srcLane a.ref x i).toNat
     let left (a : Act) (b : State) : State := (b.drain a.ref).1
     let inside (a : Act) (b : State) (i : Nat) : Bool := off a b i % 128 == 0 && ((left a b).aperture a.ref.wg (off a b i) bytes).isSome
     let out (a : Act) (b : State) : Mask := maskOf (fun i => a.lanes.getLsbD i && !(inside a b i))
     let live (a : Act) (b : State) : Mask := a.lanes &&& ~~~(out a b)
     let race (a : Act) (b : State) := (left a b).onceCheck a ((lanesOf (live a b)).map (fun i => (i, apertureVa (off a b i), bytes, 0)))
     let ready (a : Act) (b : State) : State := ((left a b).withLog a.ref ((left a b).launchOf a.ref.wg).checked).1
     Does (.mmaqs h t x slot asc la lb lc wa wb wc ta tb tc rnd fa fb qoff) s h false
      ([(x, 1)].flatMap (fun e => srcNames e.1 e.2) ++ []) ([(x, 1)].flatMap (fun e => srcLast e.1 e.2) ++ []) 0
      (fun a b => idle a b ∧ b.wordFault a [x] a.lanes [] = none ∧ (slotOf a b).isSome = true ∧
        b.owesAt a.ref ((lanesOf a.lanes).flatMap (fun i => b.rangeAt a.ref.wg (off a b i) bytes)) = false ∧ (b.drain a.ref).2 = none ∧
        (left a b).logGoes a.ref ((left a b).launchOf a.ref.wg).checked ∧ (race a b).isOk = true ∧
        (ready a b).arrayBusy a.ref (.queue (qs a).length) = false)
      (fun a b => (((qs a).foldl (fun v q =>
          let want := ((lanesOf (live a b)).filter (fun i => i / 8 == q)).map (fun i =>
            let p := (v.aperture a.ref.wg (off a b i) bytes).getD 0
            (8 * (qoff.toNat + q) + i % 8, p, n, p + n, if asc then K / 32 else 0))
          v.pushRead (mkQuarter a v t.toNat ctl asc ((slotOf a b).getD (freshSlot [] 0)) [] want))
          (charged a (ready a b))).switchOff a.ref (out a b)).noteCheck a.ref ((race a b).toOption.getD (0, none))))

/-- MLDT, MSTT and MSEND issue at once, as operations on their tile: MLDT reads the scratchpad (R185, R188), MSTT enters one row at a
time into the fibre's store queue (R185, R190), MSEND sends its rows to a streamed collective (R186). A region that is not aligned or
not inside the aperture traps with detail 6, a handle without a stream with detail 9. -/
def Obligations.TilesMove : Prop :=
  ∀ (s : State) (h : Hdr) (t : BitVec 4) (x : Src) (rnd : Rnd) (sat : Bool) (fmt : Fmt) (off : BitVec 32),
    let o (a : Act) (b : State) : Nat := ((b.srcLane a.ref x a.low).toNat + off.toNat) % 2 ^ 32
    let height (a : Act) (b : State) : Nat := ((b.tile a.ref.wg t.toNat).map (·.rows.length)).getD 0
    let left (a : Act) (b : State) : State := (b.drain a.ref).1
    let place (a : Act) (b : State) : Nat := (b.aperture a.ref.wg (o a b) (256 * height a b)).getD 0
    let race (a : Act) (b : State) := (left a b).onceCheck a [(a.low, apertureVa (o a b), 256 * height a b, 0)]
    let ready (a : Act) (b : State) : State := ((left a b).withLog a.ref ((left a b).launchOf a.ref.wg).checked).1
    let plain (a : Act) (b : State) : Prop := b.wordFault a [x] (oneLane a.low) [] = none ∧ (b.tile a.ref.wg t.toNat).isSome = true ∧
      (b.fib a.ref).isSome = true
    let inside (a : Act) (b : State) (align n : Nat) : Prop :=
      o a b % align = 0 ∧ (b.aperture a.ref.wg (o a b) (n * height a b)).isSome = true
    let stream (a : Act) (b : State) (op : CollOp) : Prop :=
      b.collOp (dieOf (b.coreOf a.ref.wg)) (b.ctxOf a.ref.wg) ((b.srcLane a.ref x a.low).toNat % 4096) = some op ∧
        op.pending = true ∧ op.desc.stream = true
    MatDoes (.mldt h t x off) s h [(x, 1)]
      (fun a b => plain a b ∧ inside a b 128 256 ∧ b.owesAt a.ref [(place a b, 256 * height a b)] = false ∧ (b.drain a.ref).2 = none ∧
        (left a b).logGoes a.ref ((left a b).launchOf a.ref.wg).checked ∧ (race a b).isOk = true)
      (fun a b => ((ready a b).pushRead { mkOp a (ready a b) .mldt t.toNat with
        wanted := (List.range (height a b)).map (fun r => (r, place a b + 256 * r, 256, 0, 0)), ready := false }).noteCheck a.ref
          ((race a b).toOption.getD (0, none))) ∧
    MatDoes (.mstt h t x rnd sat fmt off) s h [(x, 1)]
      (fun a b => plain a b ∧ inside a b 64 (8 * fmtWidth fmt))
      (fun a b => b.pushOp (mkOp a b (.store (((b.fib a.ref).map (fun f => a.wordRef f)).getD default) fmt rnd sat
        ((List.range (height a b)).map (fun r => (⟨a.low, BitVec.ofNat 64 (apertureVa (o a b + 8 * fmtWidth fmt * r)),
          List.replicate (8 * fmtWidth fmt) 0⟩ : LaneAcc)))) t.toNat)) ∧
    MatDoes (.msend h t x rnd sat fmt) s h [(x, 1)] (fun a b => plain a b ∧ ∃ op, stream a b op)
      (fun a b => b.pushOp (mkOp a b (.send (b.srcLane a.ref x a.low).toNat fmt rnd sat 0) t.toNat)) ∧
    MatTraps (.mldt h t x off) s h [(x, 1)] (fun a b => plain a b ∧ ¬ inside a b 128 256) (fun a _ => a.operand a.low 6) ∧
    MatTraps (.mstt h t x rnd sat fmt off) s h [(x, 1)] (fun a b => plain a b ∧ ¬ inside a b 64 (8 * fmtWidth fmt))
      (fun a _ => a.operand a.low 6) ∧
    MatTraps (.msend h t x rnd sat fmt) s h [(x, 1)] (fun a b => plain a b ∧ ¬ ∃ op, stream a b op) (fun a _ => a.operand a.low 9)

/-- MCFG gives the work-group the tiles and slots of a TCB: once the array has finished the work-group's operations and the
slots it returns have finished loading, what the new configuration does not keep returns to the pools; a request whose turn it
is and that the pools can serve is served; until then the word waits, and no other word of classes 0x6 and 0x7 of the work-group
issues (R195, R196). A value that is no TCB traps with detail 7. MCFGR reads the TCB (R197). The words that change a weight slot
act once no quarter that has not entered its pass refers to it, and give it a new version; a slot that loads is waited for by
WLOAD and WFREE (R203). WLOAD binds its descriptor and the bytes it names, which enter the slot when the load completes (R201,
R202). WQRY describes a slot (R204). -/
def Obligations.TileConfigurationAndSlots : Prop :=
  (
    ∀ (s : State) (h : Hdr) (x : Src) (d : BitVec 8),
      let v (a : Act) (b : State) : Nat := (b.srcLane a.ref x a.low).toNat
      let rows (n : Nat) : Nat := 2 ^ (3 + n / 32 % 4)
      let bytes (n : Nat) : Nat := n % 32 * rows n * 256
      let slots (n : Nat) : Nat := n / 128 % 32
      let bad (n : Nat) : Prop := 16 < n % 32 ∨ n / 32 % 4 = 3 ∨ 16 < slots n ∨ 4096 ≤ n
      let keep (a : Act) (b : State) : Nat := min (slots (v a b)) (((Map.find b.wgs a.ref.wg).map (·.wslots.length)).getD 0)
      let core (a : Act) (b : State) : Nat := b.coreOf a.ref.wg
      let fresh (a : Act) (b : State) : PoolClaim :=
        ⟨b.draw.1, a.ref.wg, a.ref.fib, a.pc, false, keep a b, bytes (v a b), slots (v a b) - keep a b⟩
      let claimed (a : Act) (b : State) : State := b.draw.2.claim (core a b) (fresh a b)
      let asking (a : Act) (b : State) (c : PoolClaim) : State := (b.giveBack a.ref.wg c.keep).modClaim (b.coreOf a.ref.wg) { c with asks := true }
      let mine (a : Act) (b : State) (c : PoolClaim) : Prop := b.claimOf a.ref.wg = some c ∧ c.fib = a.ref.fib ∧ c.pc = a.pc
      let given (a : Act) (b u : State) (c : PoolClaim) : State := (u.allot a.ref.wg (v a b)).unclaim (b.coreOf a.ref.wg) c.ticket
      OnceDoes (.mcfg h x) s h [(x, 1)] [] (fun a b => b.claimOf a.ref.wg = none ∧ ¬ bad (v a b) ∧
          (claimed a b).claimIdle (fresh a b) = true ∧
          (asking a (claimed a b) (fresh a b)).claimServed ((claimed a b).coreOf a.ref.wg) (fresh a b).ticket = true)
        (fun a b => given a (claimed a b) (asking a (claimed a b) (fresh a b)) (fresh a b)) ∧
      Waits (.mcfg h x) s h false ([(x, 1)].flatMap (fun e => srcNames e.1 e.2)) ([(x, 1)].flatMap (fun e => srcLast e.1 e.2))
        (fun a b => b.wordFault a [x] (oneLane a.low) [] = none ∧ b.claimOf a.ref.wg = none ∧ ¬ bad (v a b) ∧
          (claimed a b).claimIdle (fresh a b) = false) (fun a b => claimed a b) (fun a => a.group) (fun a b => .pool (fresh a b).ticket) false ∧
      (∀ c, OnceDoes (.mcfg h x) s h [(x, 1)] [] (fun a b => mine a b c ∧ c.asks = true ∧ b.claimServed (core a b) c.ticket = true)
        (fun a b => given a b b c)) ∧
      (∀ c, OnceDoes (.mcfg h x) s h [(x, 1)] [] (fun a b => mine a b c ∧ c.asks = false ∧ b.claimIdle c = true ∧
          (asking a b c).claimServed (core a b) c.ticket = true) (fun a b => given a b (asking a b c) c)) ∧
      OnceTraps (.mcfg h x) s h [(x, 1)] [] 7 (fun a b => b.claimOf a.ref.wg = none ∧ bad (v a b)) ∧
      MatDoes (.mcfgr h d) s h [] (fun a b => b.wordFault a [] 0 [d.toNat] = none ∧ (Map.find b.wgs a.ref.wg).isSome = true)
        (fun a b => b.writeReg a.ref d.toNat a.lanes (splat (((Map.find b.wgs a.ref.wg).map (·.tcb)).getD 0))) ∧
      (∀ c, Waits (.mcfgr h d) s h false [] [] (fun a b => b.claimOf a.ref.wg = some c) (fun _ b => b) (fun a => a.group)
        (fun _ _ => .config c.ticket) false)
  ) ∧
  (
    ∀ (s : State) (h : Hdr) (slot : BitVec 4) (x : Src) (d : BitVec 8) (off : BitVec 32),
      let free (a : Act) (b : State) (w : WSlot) (bank : Option Nat) : Prop := b.referenced (b.coreOf a.ref.wg) w.phys bank = false
      let still (a : Act) (b : State) (w : WSlot) : Prop := ∀ y, b.slotAt a.ref.wg w.phys = some y → y.st ≠ .loading
      (∀ w, MatDoes (.wdict h x slot) s h [(x, 1)]
        (fun a b => b.wordFault a [x] 0xFFFF [] = none ∧ b.wslot a.ref.wg slot.toNat = some w ∧ free a b w (some (1 - w.bank)))
        (fun a b => b.modSlotAt a.ref.wg w.phys (fun y => { y with
          banks := y.banks.setIfInBounds (1 - w.bank) (Vector.ofFn (fun (i : Fin 16) => (b.srcLane a.ref x i.val).setWidth 16))
          bank := 1 - w.bank, version := y.version + 1 }))) ∧
      (∀ w, MatDoes (.wset h x slot) s h [(x, 1)]
        (fun a b => b.wordFault a [x] (oneLane a.low) [] = none ∧ b.wslot a.ref.wg slot.toNat = some w ∧ free a b w none)
        (fun a b => b.modSlotAt a.ref.wg w.phys (fun y => { y with extra := BitVec.ofNat 8 (b.low32 a x), version := y.version + 1 }))) ∧
      (∀ w, MatDoes (.wfree h slot) s h []
        (fun a b => b.wordFault a [] (oneLane a.low) [] = none ∧ b.wslot a.ref.wg slot.toNat = some w ∧ free a b w none ∧ still a b w)
        (fun a b => b.modSlotAt a.ref.wg w.phys (fun y => { y with st := .empty, version := y.version + 1, pend := none, loader := none }))) ∧
      MatDoes (.wqry h d slot) s h [] (fun a b => b.wordFault a [] 0 [d.toNat] = none)
        (fun a b => b.writeReg a.ref d.toNat a.lanes (splat (BitVec.ofNat 32 (match b.wslot a.ref.wg slot.toNat with
          | some w => (match w.st with | .empty => 0 | .loading => 1 | .loaded => 2) + w.format.bits.toNat * 4 + w.compress * 64 +
            bit01 w.scaled * 256 + w.bank * 512 + w.extra.toNat * 1024 + w.version % 256 * 262144
          | none => 3)))) ∧
      (let o (a : Act) (b : State) : Nat := ((b.srcLane a.ref x a.low).toNat + off.toNat) % 2 ^ 32
      let settled (a : Act) (b : State) : State := (b.settleAtomics a.ref).1
      let desc (a : Act) (b : State) : List Byte :=
        ((settled a b).loadBytes a.ref ((settled a b).agent a.ref.wg) false false (apertureVa (o a b)) 64).1.toOption.getD []
      let logged (a : Act) (b : State) : State := ((settled a b).withLog a.ref ((settled a b).launchOf a.ref.wg).checked).1
      let first (a : Act) (b : State) : List (Nat × Nat × Nat × Nat) := [(a.low, apertureVa (o a b), 64, 0)]
      ∀ w tn, MatDoes (.wload h x slot off) s h [(x, 1)]
        (fun a b => b.wordFault a [x] (oneLane a.low) [] = none ∧ b.wslot a.ref.wg slot.toNat = some w ∧ o a b % 64 = 0 ∧
          (∃ p, b.aperture a.ref.wg (o a b) 64 = some p ∧ b.isPresent (p / 128) = true ∧ b.owesAt a.ref [(p, 64)] = false) ∧
          (b.settleAtomics a.ref).2 = none ∧
          ((settled a b).loadBytes a.ref ((settled a b).agent a.ref.wg) false false (apertureVa (o a b)) 64).1.isOk = true ∧
          (settled a b).logGoes a.ref ((settled a b).launchOf a.ref.wg).checked ∧
          ((logged a b).raceCheck a ((logged a b).agent a.ref.wg) (first a b)).isOk = true ∧ readTensor (desc a b) = some tn ∧
          (logged a b).tensorOk a.ref.wg tn = true ∧ (logged a b).fetchWait a.ref w.phys tn = none ∧
          FetchGoes a (logged a b) w.phys (desc a b) tn (first a b))
        (fun a b => (logged a b).fetched a w.phys (desc a b) tn (first a b)))
  )

/-- The steps that the array takes by itself: the oldest operation whose lines are present reads its rows (R173); the array loads, into
its loading tile, the slot of the first quarter whose slot neither B tile holds (R160, R175); the queue's next quarter joins the open pass
or opens one (R174); the oldest quarter commits once its rows are read, its pass has opened and earlier operations on its tile have
acted (R169, R176). The first other operation that can act acts on its tile, and a tile read pays what it owes (R182 to R190, R205). A
WLOAD's bytes enter its slot, or its fetch faults (R201, R202). -/
def Obligations.ArraySteps : Prop :=
  ∀ (s : State) (core : Nat),
    (∀ op, (s.core core).matq.find? (fun op => !op.ready && op.lines.all s.isPresent) = some op →
      exec (.quarterReady core) s = .next (s.modOpAt core op.num (fun op => { op with
        rows := op.rows ++ op.wanted.map (fun e => (e.1, Memory.read s.scratch e.2.1 e.2.2.1, Memory.read s.scratch e.2.2.2.1 e.2.2.2.2))
        wanted := [], ready := true }))) ∧
    (∀ op w, (waiting (s.core core).matq).find? (fun op => !((s.core core).btile.any (·.serves op))) = some op →
      (s.core core).ltile.any (·.serves op) = false → s.slotAt op.ref.wg op.slot = some w →
      exec (.weightSlotLoad core) s = .next (s.modCore core (fun c => { c with ltile := some ⟨op.slot, op.version, w⟩ }))) ∧
    (∀ op rest b, waiting (s.core core).matq = op :: rest → op.ready = true → (s.core core).pass = none →
      (s.core core).btile = some b →
      (b.serves op = true → exec (.passOpen core) s = .next (s.takeQuarter core op op 1 b.weights)) ∧
      (∀ b', b.serves op = false → (s.core core).ltile = some b' → b'.serves op = true → exec (.passOpen core) s =
        .next ((s.modCore core (fun c => { c with btile := some b', ltile := none })).takeQuarter core op op 1 b'.weights))) ∧
    (∀ op rest first n w, waiting (s.core core).matq = op :: rest → (s.core core).pass = some (first, n) → first.opened = some w →
      n < 4 → op.slot = first.slot → op.version = first.version → op.ctl.toNat % 2 ^ 26 = first.ctl.toNat % 2 ^ 26 →
      op.asc = first.asc → op.issued ≤ first.issued + 3 →
      exec (.passOpen core) s = .next (s.takeQuarter core op first (n + 1) w)) ∧
    (∀ op before rest, (s.core core).matq = before ++ op :: rest → op.isQuarter = true →
      before.all (fun y => y.num != op.num && !y.isQuarter && !(y.onTile op.ref.wg op.tile)) = true →
      op.ready = true → op.opened.isSome = true →
      exec (.quarterCommit core) s = .next ((s.dropOp core op.num).commitOp op)) ∧
    ((s.core core).matq = [] → exec (.quarterReady core) s = .next s ∧ exec (.weightSlotLoad core) s = .next s ∧
      exec (.passOpen core) s = .next s ∧ exec (.quarterCommit core) s = .next s ∧ s.tileStep core = none) ∧
    (∀ op, firstFree (s.tileGoes core) [] (s.ops core) = some op →
      let after := s.dropOp core op.num
      let rows := after.tileRows op.ref.wg op.tile
      (∀ mon, op.kind = .zero mon → s.tileStep core = some (after.modTile op.ref.wg op.tile (fun w =>
        let v := { w with rows := List.replicate w.rows.length (List.replicate 64 0) }
        if mon then { v with swamp := 0, nans := 0, ovf := 0 } else v))) ∧
      (∀ l, op.kind = .write l → s.tileStep core = some (after.modTile op.ref.wg op.tile (fun w => { w with
        rows := l.foldl (fun rows e => rows.modify e.1 (fun r => r.set e.2.1 e.2.2)) w.rows }))) ∧
      (op.kind = .mldt → s.tileStep core = some (op.rows.foldl (fun v e => v.modTile op.ref.wg op.tile (fun w => { w with
        rows := w.rows.set e.1 ((List.range 64).map (fun j => BitVec.ofNat 32 (leNat ((e.2.1.drop (j * 32 / 8)).take 4)))) })) after)) ∧
      (∀ d fmt rnd sat places, op.kind = .read d fmt rnd sat places →
        let n := 32 / fmtWidth fmt
        let elem (r c e : Nat) : Res := tileElem fmt rnd sat ((rows.getD r []).getD (c + e) 0)
        s.tileStep core = some (after.payTo op [(d, vecOf (places.map (fun p =>
          (p.1, BitVec.ofNat 32 (((List.range n).map (fun e => (elem p.2.1 p.2.2 e).code * 2 ^ (fmtWidth fmt * e))).sum))))) ] none
          (places.foldl (fun f p => (List.range n).foldl (fun f e => f ||| (elem p.2.1 p.2.2 e).flags) f) 0))) ∧
      (∀ d max places, op.kind = .extreme d max places →
        let g := places.map (fun p => (p.1, extreme max ((rows.getD p.2 []).mapIdx (fun k w => (k, w)))))
        let vals := vecOf (g.map (fun e => (e.1, e.2.2)))
        s.tileStep core = some (after.payTo op ((dstNames d 2).zip [vals, vecOf (g.map (fun e => (e.1, BitVec.ofNat 32 e.2.1)))])
          (some (Dst.latch d, vals)) 0)) ∧
      (∀ w fmt rnd sat x rest, op.kind = .store w fmt rnd sat (x :: rest) →
        let l := (s.tileRows op.ref.wg op.tile).getD ((s.tileRows op.ref.wg op.tile).length - (rest.length + 1)) []
        let u := (s.enterRow op w x (packElems (fmtWidth fmt) (l.map (fun v => (tileElem fmt rnd sat v).code)))).raise op.ref
          (l.foldl (fun f v => f ||| (tileElem fmt rnd sat v).flags) 0)
        s.tileStep core = some (if rest.isEmpty then u.dropOp core op.num
          else u.modOpAt core op.num (fun y => { y with kind := .store w fmt rnd sat rest })))) ∧
    (∀ slot g, s.slotOwner core slot = some g →
      exec (.wloadComplete core slot) s = .next (s.modSlotAt g slot (fun x =>
        match x.pend with
        | some e => { x with st := .loaded, elems := e.1, metas := e.2.1, scales := e.2.2, pend := none }
        | none => x))) ∧
    (∀ r (slot : BitVec 4) addr sub x q w desc, s.wslot r.wg slot.toNat = some x → x.loader = some (q, w, desc) → x.st = .loading →
      exec (.wloadFault r slot addr sub) s = .next ((s.slotFault q w x.phys desc sub addr.toNat).takeTrap q
        (w.trap 0x08 sub ((lowest w.mask).getD 0) addr.toNat [])))

/-! ### Memory access (class 0x8) and atomics (class 0x9) -/

/-- LD, LDS, LDC and LDACQ read in each active lane, or once under U, at the address the rules give: a pair plus an offset modulo
2^64, an aperture offset modulo 2^32, an offset into the parameter block that is checked against its size, a pair plus an offset
(R233, R234, R236, R268). Where the lines are present and nothing faults (`LoadGoes`), the word completes. A load whose line is absent
parks (R224), and one whose parameter offset is outside the block traps. -/
def Obligations.LoadsRead : Prop :=
  ∀ (s : State) (h : Hdr) (u : Bool) (d : BitVec 8) (x : Src) (size : Size) (sgn useA : Bool) (hint : CacheHint) (scope : Scope)
    (off : BitVec 32),
    let regs := (List.range size.regs).map (fun j => d.toNat + j)
    let at' (m : Mask) (addr : Nat → Nat) : List LaneAcc := laneAccs m addr (fun _ => [])
    let ea (a : Act) (b : State) : Nat → Nat := fun i => (b.pairLane a.ref x i + off.signExtend 64).toNat
    let so (a : Act) (b : State) : Nat → Nat := fun i => apertureVa (b.srcLane a.ref x i + off).toNat
    let po (a : Act) (b : State) (i : Nat) : Int := (if useA then ((b.srcLane a.ref x i).toNat : Int) else 0) + off.toInt
    let y := if useA then x else .imm 0
    let pa (a : Act) (b : State) : Nat → Nat := fun i => ((b.launchOf a.ref.wg).paramPtr + (po a b i).toNat) % 2 ^ 64
    let out (a : Act) (b : State) (i : Nat) : Bool :=
      decide (po a b i < 0) || decide (((b.launchOf a.ref.wg).params : Int) < po a b i + size.bytes)
    let ok (a : Act) (b : State) (z : Src) (m : Mask) : Prop := b.wordFault a [z] m regs = none
    let parked (a : Act) (b : State) (all : List LaneAcc) : State × List Nat :=
      let v := b.switchOff a.ref (b.bounds a.ref.wg size.bytes all).2
      (v, v.absentLines a.ref.wg size.bytes (b.bounds a.ref.wg size.bytes all).1)
    Does (.ld h u d x size sgn hint off) s (atPoint h) false (srcNames x 2) (srcLast x 2) 6
      (fun a b => ok a b x (a.readers u) ∧ LoadGoes a b size.bytes none (hint == .byp) (at' (a.readers u) (ea a b)))
      (fun a b => b.loaded a d.toNat size sgn none (hint == .byp) u (at' (a.readers u) (ea a b))) ∧
    Does (.lds h u d x size sgn off) s (atPoint h) false (srcNames x 1) (srcLast x 1) 6
      (fun a b => ok a b x (a.readers u) ∧ LoadGoes a b size.bytes none false (at' (a.readers u) (so a b)))
      (fun a b => b.loaded a d.toNat size sgn none false u (at' (a.readers u) (so a b))) ∧
    Does (.ldc h u d x size sgn useA off) s h false (srcNames y 1) (srcLast y 1) 6
      (fun a b => ok a b y (a.readers u) ∧ (lanesOf (a.readers u)).find? (out a b) = none ∧
        LoadGoes a b size.bytes none false (at' (a.readers u) (pa a b)))
      (fun a b => b.loaded a d.toNat size sgn none false u (at' (a.readers u) (pa a b))) ∧
    (∀ k, Traps (.ldc h u d x size sgn useA off) s h false (srcNames y 1) (srcLast y 1)
      (fun a b => ok a b y (a.readers u) ∧ (lanesOf (a.readers u)).find? (out a b) = some k) (fun a _ => a.operand k 8)) ∧
    Does (.ldacq h d x size sgn scope off) s (atPoint h) false (srcNames x 2) (srcLast x 2) 6
      (fun a b => ok a b x a.lanes ∧ LoadGoes a b size.bytes (some scope) false (at' a.lanes (ea a b)))
      (fun a b => b.loaded a d.toNat size sgn (some scope) false false (at' a.lanes (ea a b))) ∧
    (∀ c f, Issues s (atPoint h) c f →
      let a := f.actOf (atPoint h) false c
      let b := (s.settleLoads c.ref).begun f (atPoint h) false (srcNames x 1) (srcLast x 1) c
      let p := parked a b (at' (a.readers u) (so a b))
      f.owes (srcNames x 1) = false → ok a b x (a.readers u) → (b.bounds a.ref.wg size.bytes (at' (a.readers u) (so a b))).1 ≠ [] →
      p.2 ≠ [] → exec (.lds h u d x size sgn off) s = .next ((p.1.seek a p.2).holdAt (atPoint h) a f a.group (.present p.2) true))

/-- ST, STS, STREL and RED enter the fibre's store queue, one entry for each active lane in lane order; STREL and a releasing RED
release first (R233 to R235, R247, R265, R268). Where no older store faults and there is room (`StoreGoes`), the word completes. -/
def Obligations.StoresAreQueued : Prop :=
  ∀ (s : State) (h : Hdr) (x y : Src) (size : Size) (hint : CacheHint) (scope : Scope) (op : AtomOp) (x2 : Bool) (ord : Ord)
    (off : BitVec 32),
    let ea (a : Act) (b : State) : Nat → Nat := fun i => (b.pairLane a.ref x i + off.signExtend 64).toNat
    let so (a : Act) (b : State) : Nat → Nat := fun i => apertureVa (b.srcLane a.ref x i + off).toNat
    let at' (a : Act) (b : State) (addr : Nat → Nat) : List LaneAcc :=
      laneAccs a.lanes addr (fun i => b.valueBytes a.ref y size.bytes i)
    let n := if x2 then 8 else 4
    let args (a : Act) (b : State) : List LaneAcc := laneAccs a.lanes (ea a b) (fun i => (b.atomArgs a.ref y op x2 i).1)
    let rel : Option Scope := if ord = .rel ∨ ord = .ar then some scope else none
    let kind : StoreKind := if hint == .byp then .byp else .plain
    let ok (a : Act) (b : State) : Prop := b.wordFault a [x, y] a.lanes [] = none
    Does (.st h x y size hint off) s h false (srcNames x 2 ++ srcNames y size.regs) (srcLast x 2 ++ srcLast y size.regs) 6
      (fun a b => ok a b ∧ StoreGoes a b size.bytes none (at' a b (ea a b)))
      (fun a b => b.stored a size.bytes kind none (at' a b (ea a b)) (fun _ => 0)) ∧
    Does (.sts h x y size off) s h false (srcNames x 1 ++ srcNames y size.regs) (srcLast x 1 ++ srcLast y size.regs) 6
      (fun a b => ok a b ∧ StoreGoes a b size.bytes none (at' a b (so a b)))
      (fun a b => b.stored a size.bytes .plain none (at' a b (so a b)) (fun _ => 0)) ∧
    Does (.strel h x y size scope off) s h false (srcNames x 2 ++ srcNames y size.regs) (srcLast x 2 ++ srcLast y size.regs) 6
      (fun a b => ok a b ∧ StoreGoes a b size.bytes (some scope) (at' a b (ea a b)))
      (fun a b => b.stored a size.bytes .plain (some scope) (at' a b (ea a b)) (fun _ => 0)) ∧
    Does (.red h x y op x2 ord scope off) s (atPoint h) false (srcNames x 2 ++ srcNames y (atomRegs op x2))
      (srcLast x 2 ++ srcLast y (atomRegs op x2)) 6
      (fun a b => ok a b ∧ (op = .fadd → (b.launchOf a.ref.wg).determ = false) ∧
        b.absentLines a.ref.wg n (b.bounds a.ref.wg n (args a b)).1 = [] ∧
        (b.anyHost (b.agent a.ref.wg) (args a b) = true → op = .add ∨ op = .exch ∨ op = .cas) ∧ StoreGoes a b n rel (args a b))
      (fun a b => b.stored a n (.atomic op x2) rel (args a b) (fun i => (b.atomArgs a.ref y op x2 i).2)) ∧
    Traps (.red h x y op x2 ord scope off) s (atPoint h) false (srcNames x 2 ++ srcNames y (atomRegs op x2))
      (srcLast x 2 ++ srcLast y (atomRegs op x2)) (fun a b => ok a b ∧ op = .fadd ∧ (b.launchOf a.ref.wg).determ = true)
      (fun a _ => a.nondet)

/-- A load's bytes reach its registers (R241), and the head of a store queue leaves it (R235, R247): a store to the scratchpad
changes the bytes it stores and no other byte of any memory; an entry whose queue is frozen or absent stays. -/
def Obligations.QueuedStoresLand : Prop :=
  ∀ (s : State) (r : FibRef) (f : Fibre), s.fib r = some f →
    (∀ l rest, f.loads = l :: rest → exec (.loadComplete r) s = .next
      ((l.vals.foldl (fun (e : State × Nat) v => (e.1.writeReg r e.2 (l.lanes &&& f.live) v, e.2 + 1))
        (s.setFib r { f with loads := rest }, l.d)).1)) ∧
    (f.loads = [] → exec (.loadComplete r) s = .next s) ∧
    (f.curQueue = [] → exec (.storeQueueDrain r) s = .next s) ∧
    (∀ e rest, f.curQueue = e :: rest → e.frozen = true → exec (.storeQueueDrain r) s = .next s) ∧
    (∀ e rest p, f.curQueue = e :: rest → e.frozen = false → e.begun = false → e.log = none → e.kind = .plain →
      inAperture e.acc.addr.toNat = true → s.aperture r.wg (e.acc.addr.toNat - Config.aperture) e.acc.bytes.length = some p →
      (s.agent r.wg).checked = false → Memory.wf s.scratch = true →
      let now := e.acc.bytes.take e.share
      let left := e.acc.bytes.drop e.share
      ∃ t, exec (.storeQueueDrain r) s = .next t ∧ t.mem = s.mem ∧ t.w0 = s.w0 ∧
        (t.fib r).map Fibre.curQueue = some (if left = [] then rest
          else { e with acc := ⟨e.acc.lane, e.acc.addr + BitVec.ofNat 64 e.share, left⟩, begun := true } :: rest) ∧
        ∀ q, Memory.get t.scratch q = if p ≤ q ∧ q < p + now.length then now.getD (q - p) 0 else Memory.get s.scratch q)

/-- A global address of ATOM, RED, LDACQ and STREL that is not a multiple of the access size faults with subcode 5: where a load reads
it, or an atomic is performed, the access held in the operand log; where a queued store or RED leaves the queue, in its lowest failing
lane, the queue frozen (R226, R264, R235). One of WAITV faults before the word. -/
def Obligations.MisalignedAccessesFault : Prop :=
  ∀ (s : State) (h : Hdr) (d : BitVec 8) (x y : Src) (size : Size) (sgn x2 : Bool) (scope : Scope) (cc : Cc) (off : BitVec 32),
    let ea (a : Act) (b : State) : Nat → Nat := fun i => (b.pairLane a.ref x i + off.signExtend 64).toNat
    let n := if x2 then 8 else 4
    let all (a : Act) (b : State) : List LaneAcc := laneAccs a.lanes (ea a b) (fun _ => [])
    let inside (a : Act) (b : State) : List LaneAcc := (b.bounds a.ref.wg size.bytes (all a b)).1
    let v (a : Act) (b : State) : State := b.switchOff a.ref (b.bounds a.ref.wg size.bytes (all a b)).2
    let ready (a : Act) (b : State) : Prop :=
      (v a b).absentLines a.ref.wg size.bytes (inside a b) = [] ∧
      (v a b).owesAt a.ref ((v a b).scratchRanges a.ref.wg size.bytes (inside a b)) = false ∧ ((v a b).settleAtomics a.ref).2 = none ∧
      ((v a b).settleAtomics a.ref).1.logGoes a.ref (((v a b).settleAtomics a.ref).1.mayLog a.ref (inside a b)) ∧
      (b.loadCheck a size.bytes (some scope) (all a b)).isOk = true
    let work : LogWork := .load d.toNat size.regs size.bytes sgn (some scope) false 0
    (∀ sub k va, HeldTrap (.ldacq h d x size sgn scope off) s (atPoint h) (srcNames x 2) (srcLast x 2)
      (fun a b => b.wordFault a [x] a.lanes ((List.range size.regs).map (fun j => d.toNat + j)) = none ∧ inside a b ≠ [] ∧ ready a b ∧
        (b.loadRead a size.bytes (some scope) false (all a b)).1 = .error (sub, k, va))
      (fun a b => (b.loadRead a size.bytes (some scope) false (all a b)).2.logFault a size.bytes (inside a b) work 0x08 sub k va [])) ∧
    (∀ (r : FibRef) (b : State) (ag : Agent) (byp fresh : Bool) (e : LaneAcc) rest, inAperture e.addr.toNat = false →
      e.addr.toNat % n ≠ 0 → (b.loadAll r ag byp fresh true n (e :: rest)).1 = .error (5, e.lane, e.addr.toNat) ∧
        b.probeAll ag .rmw true n (e :: rest) = (some (5, e.lane, e.addr.toNat), b)) ∧
    (∀ (r : FibRef) (f : Fibre) (e : StoreEntry) rest k (g : LogEntry) (l : LaneAcc) more, s.fib r = some f → f.curQueue = e :: rest →
      e.frozen = false → e.begun = false → (∃ op w, e.kind = .atomic op w) ∨ e.release.isSome = true → e.log = some k →
      Map.find f.log k = some g → g.probed = false → g.accs = l :: more → inAperture l.addr.toNat = false → l.addr.toNat % g.size ≠ 0 →
      exec (.storeQueueDrain r) s = .next ((s.modFib r (fun f =>
        let f := f.markLog k 5 false
        f.setQueue (f.curQueue.map (fun e => { e with frozen := true })))).takeTrap r (e.word.trap 0x08 5 l.lane l.addr.toNat []))) ∧
    Traps (.waitv h d x y cc sgn x2 scope off) s (atPoint h) false (srcNames x 2 ++ (srcNames y (regCount x2) ++ []))
      (srcLast x 2 ++ (srcLast y (regCount x2) ++ []))
      (fun a b => b.wordFault a [x, y] (oneLane a.low) ((List.range (regCount x2)).map (fun j => d.toNat + j)) = none ∧
        inAperture (ea a b a.low) = false ∧ ea a b a.low % n ≠ 0)
      (fun a b => a.trap 8 5 a.low (ea a b a.low) 0)

/-- ATOM acts on each active lane's location in lane order, once the fibre's queue is empty, and its old values are in flight to
its registers (R264 to R267). What one lane does in the scratchpad is the operation of R265 on the bytes there and on no other
byte. -/
def Obligations.AtomsReadModifyWrite : Prop :=
  (∀ (s : State) (h : Hdr) (d : BitVec 8) (x y : Src) (op : AtomOp) (x2 : Bool) (ord : Ord) (scope : Scope) (off : BitVec 32),
    let n := if x2 then 8 else 4
    let ea (a : Act) (b : State) : Nat → Nat := fun i => (b.pairLane a.ref x i + off.signExtend 64).toNat
    let acq := decide (ord = .acq) || decide (ord = .ar)
    let rel := decide (ord = .rel) || decide (ord = .ar)
    let v (a : Act) (b : State) : State := (b.drain a.ref).1
    let all (a : Act) (b : State) : List LaneAcc := laneAccs a.lanes (ea a (v a b)) (fun i => ((v a b).atomArgs a.ref y op x2 i).1)
    let swap (a : Act) (b : State) : Nat → Nat := fun i => ((v a b).atomArgs a.ref y op x2 i).2
    let l (a : Act) (b : State) : List LaneAcc := ((v a b).bounds a.ref.wg n (all a b)).1
    let z (a : Act) (b : State) : State := (v a b).switchOff a.ref ((v a b).bounds a.ref.wg n (all a b)).2
    let u (a : Act) (b : State) : State := ((z a b).withLog a.ref ((z a b).mayLog a.ref (l a b))).1
    let ag (a : Act) (b : State) : Agent := (u a b).agent a.ref.wg
    let check (a : Act) (b : State) : Except (Nat × Nat × List Word) CheckNote :=
      (if acq then (u a b).learn a.ref (ag a b) n scope (l a b) else u a b).raceCheck a (ag a b)
        ((l a b).map (fun e => (e.lane, e.addr.toNat, n, 2)))
    let found (a : Act) (b : State) : Option (Nat × Nat × Nat) × State := (u a b).probeAll (ag a b) .rmw true n (l a b)
    let i := Instr.atom h d x y op x2 ord scope off
    let reads := srcNames x 2 ++ srcNames y (atomRegs op x2)
    let last := srcLast x 2 ++ srcLast y (atomRegs op x2)
    let ok (a : Act) (b : State) : Prop :=
      b.wordFault a [x, y] a.lanes ((List.range (regCount x2)).map (fun j => d.toNat + j)) = none
    let goes (a : Act) (b : State) : Prop := ok a b ∧ (op = .fadd → (b.launchOf a.ref.wg).determ = false) ∧ b.storesLeave a.ref
    Does i s (atPoint h) false reads last 6 (fun a b => goes a b ∧ l a b = []) (fun a b => z a b) ∧
    Does i s (atPoint h) false reads last 6
      (fun a b => goes a b ∧ l a b ≠ [] ∧ (z a b).absentLines a.ref.wg n (l a b) = [] ∧
        (z a b).logGoes a.ref ((z a b).mayLog a.ref (l a b)) ∧ (check a b).isOk = true ∧ (found a b).1 = none ∧
        ((found a b).2.anyHost (ag a b) (l a b) = true → op = .add ∨ op = .exch ∨ op = .cas) ∧
        (rel = true → (found a b).2.storesLeave a.ref))
      (fun a b => (if rel then
          ((found a b).2.released a scope).2.atomLanes a.ref d.toNat op x2 true acq scope ((found a b).2.released a scope).1 (l a b) (swap a b)
        else (found a b).2.atomLanes a.ref d.toNat op x2 false acq scope 0 (l a b) (swap a b)).noteCheck a.ref
          ((check a b).toOption.getD (0, none))) ∧
    Waits i s (atPoint h) false reads last
      (fun a b => goes a b ∧ l a b ≠ [] ∧ (z a b).absentLines a.ref.wg n (l a b) ≠ []) (fun a b => z a b) (fun a => a.group)
      (fun a b => .present ((z a b).absentLines a.ref.wg n (l a b))) true ∧
    Traps i s (atPoint h) false reads last (fun a b => ok a b ∧ op = .fadd ∧ (b.launchOf a.ref.wg).determ = true)
      (fun a _ => a.nondet)) ∧
  (∀ (s : State) (g : Nat) (ag : Agent) (va p : Nat) (op : AtomOp) (x2 : Bool) (v new : Nat),
    let n := if x2 then 8 else 4
    inAperture va = true → s.aperture g (va - Config.aperture) n = some p → Memory.wf s.scratch = true →
      let old := Memory.num s.scratch p n
      let r := s.atomAt ag g va op x2 v new
      r.1 = old ∧ (∀ q, q < p ∨ p + n ≤ q → Memory.get r.2.scratch q = Memory.get s.scratch q) ∧ r.2.mem = s.mem ∧
      (v < 2 ^ (8 * n) → new < 2 ^ (8 * n) → op ≠ .fadd → Memory.num r.2.scratch p n =
        match op with
        | .add => (old + v) % 2 ^ (8 * n)
        | .minS => if sext old (8 * n) ≤ sext v (8 * n) then old else v
        | .minZ => min old v
        | .maxS => if sext old (8 * n) ≤ sext v (8 * n) then v else old
        | .maxZ => max old v
        | .and => old &&& v
        | .or => old ||| v
        | .xor => old ^^^ v
        | .exch => v
        | .cas => if old = v then new else old
        | .fadd => 0))

/-- FENCE lets the fibre's queue leave, writes back, at a scope beyond the die lets every replica store land, and invalidates
(R253, R256, R269); WAITV completes when the value it reads satisfies its comparison, and parks with a watch on the line when it does not
(R270). -/
def Obligations.FencesAndWaits : Prop :=
  ∀ (s : State) (h : Hdr) (scope : Scope) (d : BitVec 8) (x y : Src) (cc : Cc) (sgn x2 : Bool) (off : BitVec 32),
    let n := 4 * regCount x2
    let ea (a : Act) (b : State) : Nat := (b.pairLane a.ref x a.low + off.signExtend 64).toNat
    let acc (a : Act) (b : State) : LaneAcc := ⟨a.low, BitVec.ofNat 64 (ea a b), []⟩
    let srcs : List (Src × Nat) := [(x, 2), (y, regCount x2)]
    let dsts := (List.range (regCount x2)).map (fun j => d.toNat + j)
    let u (a : Act) (b : State) : State := ((b.settleAtomics a.ref).1.withLog a.ref ((b.settleAtomics a.ref).1.launchOf a.ref.wg).checked).1
    let check (a : Act) (b : State) : Except (Nat × Nat × List Word) CheckNote :=
      ((u a b).knowing a (b.agent a.ref.wg) n (some scope) [acc a b]).raceCheck a ((u a b).agent a.ref.wg) [(a.low, ea a b, n, 0)]
    let read (a : Act) (b : State) : Except (Nat × Nat) (List Byte) × State :=
      (u a b).loadBytes a.ref (b.agent a.ref.wg) false true (ea a b) n
    let ready (a : Act) (b : State) : Prop :=
      b.boundsOk a.ref.wg (ea a b) n = true ∧ (inAperture (ea a b) = true ∨ ea a b % n = 0) ∧
      b.absentLines a.ref.wg n [acc a b] = [] ∧ b.owesAt a.ref (b.scratchRanges a.ref.wg n [acc a b]) = false ∧
      (b.settleAtomics a.ref).2 = none ∧
      (b.settleAtomics a.ref).1.logGoes a.ref ((b.settleAtomics a.ref).1.launchOf a.ref.wg).checked ∧
      (check a b).isOk = true ∧ (read a b).1.isOk = true
    let got (a : Act) (b : State) : Nat := leNat ((read a b).1.toOption.getD [])
    let holds (a : Act) (b : State) : Prop :=
      ccHolds cc (extVal sgn (8 * n) (BitVec.ofNat 64 (got a b)))
        (extVal sgn (8 * n) (BitVec.ofNat 64 (leNat ((read a b).2.valueBytes a.ref y n a.low)))) = true
    let watch (a : Act) (b : State) : Option Nat × State :=
      (read a b).2.addWatch (b.agent a.ref.wg).core ((read a b).2.watchLine a.ref (b.agent a.ref.wg) (ea a b)) a.ref
    Does (.fence h scope) s h false [] [] 6 (fun a b => b.storesLeave a.ref) (fun a b =>
      let v := (b.drain a.ref).1
      let w := (v.cacheRelease (v.agent a.ref.wg) scope).cacheAcquire (v.agent a.ref.wg) scope
      if scopeWide scope then w.applyReplicas else w) ∧
    (∀ v : State, (∀ e ∈ v.replicas, 0 < e.page.2) →
      v.applyReplicas = { v.replicas.foldl (fun w e => w.applyStore e) v with replicas := [] }) ∧
    OnceDoes (.waitv h d x y cc sgn x2 scope off) s (atPoint h) srcs dsts (fun a b => ready a b ∧ holds a b)
      (fun a b =>
        let w := (read a b).2.acquireAll a.ref (b.agent a.ref.wg) n scope [acc a b]
        (if x2 then w.putPair a.ref d.toNat a.lanes (fun _ => BitVec.ofNat 64 (got a b))
          else w.writeReg a.ref d.toNat a.lanes (splat (BitVec.ofNat 32 (got a b % 2 ^ 64)))).noteCheck a.ref
            ((check a b).toOption.getD (0, none))) ∧
    Waits (.waitv h d x y cc sgn x2 scope off) s (atPoint h) false (srcs.flatMap (fun e => srcNames e.1 e.2))
      (srcs.flatMap (fun e => srcLast e.1 e.2))
      (fun a b => b.wordFault a (srcs.map (·.1)) (oneLane a.low) dsts = none ∧ ready a b ∧ ¬ holds a b) (fun a b => (watch a b).2)
      (fun a => a.group) (fun a b => .watch (watch a b).1 ((watch a b).2.tick + 256) (ea a b)) true

/-- PREF never faults; PRES tells which lines are present and installs what delivered them; PCLR sets or clears presence over whole
lines; CWB and CINV write back or invalidate once the fibre's queue has left; LOCK and UNLOCK change pins, all or none, in a launch
with reserve (R237 to R240). -/
def Obligations.PresenceCachesAndPins : Prop :=
  ∀ (s : State) (h : Hdr) (u l2 all set : Bool) (pd : BitVec 3) (d : BitVec 8) (x y : Src) (off : BitVec 32),
    let ea (a : Act) (b : State) (i : Nat) : Nat := (b.pairLane a.ref x i + off.signExtend 64).toNat
    let z := if all then Src.imm 0 else x
    let hit (a : Act) (v : State) (e : L1Line) : Bool :=
      e.asid == (v.agent a.ref.wg).asid && e.gen == (v.agent a.ref.wg).gen && (all || ((lanesOf a.lanes).map (fun i =>
        (v.pairLane a.ref z i + off.signExtend 64).toNat)).any (fun va => !(inAperture va) && e.vline == va / 128))
    let found (a : Act) (b : State) : Except (Nat × Nat) (List Nat × Bool) × State :=
      b.pinLines (b.agent a.ref.wg) (ea a b a.low) (b.low32 a y)
    let pins (i : Instr) (act : State → Nat → List Nat → Bool → Nat × State) : Prop :=
      ((∀ c, s.cur = some c → (s.launchOf c.ref.wg).reserve = true) →
        (∀ l here, OnceDoes i s h [(x, 2), (y, 1)] [d.toNat] (fun a b =>
            ea a b a.low % 128 = 0 ∧ b.low32 a y % 128 = 0 ∧ b.low32 a y ≠ 0 ∧ b.low32 a y ≤ 2 ^ 24 ∧ (found a b).1 = .ok (l, here))
          (fun a b =>
            let r := act (found a b).2 ((found a b).2.ctxOf a.ref.wg) l here
            r.2.putAll a d.toNat r.1)) ∧
        OnceTraps i s h [(x, 2), (y, 1)] [d.toNat] 9 (fun a b =>
          ea a b a.low % 128 ≠ 0 ∨ b.low32 a y % 128 ≠ 0 ∨ b.low32 a y = 0 ∨ 2 ^ 24 < b.low32 a y)) ∧
      (∀ c f, s.cur = some c → s.fib c.ref = some f → h ≠ Hdr.never → (s.launchOf c.ref.wg).reserve = false →
        exec i s = .next ((s.turned c).takeTrap c.ref (underGov
          (Act.illegal ⟨c.ref, c.lanes &&& f.guard h, c.lanes, c.pc, c.bits, ⟨0, 0, 0⟩⟩ 8) (f.govOf c.lanes))))
    Does (.pref h u x l2 off) s h false (srcNames x 2) (srcLast x 2) 6 (fun _ _ => True)
      (fun a b => ((lanesOf (a.readers u)).map (ea a b)).foldl (fun v va => v.prefetch (v.agent a.ref.wg) l2 va) b) ∧
    Does (.pres h pd x off) s h false (srcNames x 1) (srcLast x 1) 6 (fun a b => b.wordFault a [x] a.lanes [] = none) (fun a b =>
      let at' (i : Nat) : Nat := apertureVa (b.srcLane a.ref x i + off).toNat
      let accs := (b.bounds a.ref.wg 1 (laneAccs a.lanes at' (fun _ => []))).1
      let out := (b.bounds a.ref.wg 1 (laneAccs a.lanes at' (fun _ => []))).2
      let v := b.switchOff a.ref out
      let line (e : LaneAcc) : Nat := ((v.aperture a.ref.wg (e.addr.toNat - Config.aperture) 1).getD 0) / 128
      let here := accs.filter (fun e => v.isPresent (line e))
      (here.foldl (fun w e => w.acquireFrom a.ref (.scr (line e * 128)) allLanes .sys) v).modFib a.ref (fun f =>
        f.setPred pd (a.lanes &&& ~~~out) (here.foldl (fun m e => m ||| oneLane e.lane) 0))) ∧
    (∀ p, OnceDoes (.pclr h x y set off) s h [(x, 1), (y, 1)] [] (fun a b =>
        let o := (b.low32 a x + off.toNat) % 2 ^ 32
        o % 128 = 0 ∧ b.low32 a y % 128 = 0 ∧ b.low32 a y ≠ 0 ∧ b.aperture a.ref.wg o (b.low32 a y) = some p)
      (fun a b => (linesOf p (b.low32 a y)).foldl (fun v k => v.setPresent k set) b)) ∧
    OnceTraps (.pclr h x y set off) s h [(x, 1), (y, 1)] [] 6 (fun a b =>
      let o := (b.low32 a x + off.toNat) % 2 ^ 32
      o % 128 ≠ 0 ∨ b.low32 a y % 128 ≠ 0 ∨ b.low32 a y = 0 ∨ b.aperture a.ref.wg o (b.low32 a y) = none) ∧
    Does (.cwb h x all off) s h false (srcNames z 2) (srcLast z 2) 6 (fun a b => b.storesLeave a.ref) (fun a b =>
      let v := (b.drain a.ref).1
      v.cleanL1 (v.agent a.ref.wg).core (hit a v)) ∧
    Does (.cinv h x all off) s h false (srcNames z 2) (srcLast z 2) 6 (fun a b => b.storesLeave a.ref) (fun a b =>
      let v := (b.drain a.ref).1
      v.flushL1 (v.agent a.ref.wg).core (hit a v)) ∧
    pins (.lock h d x y off) (fun v c l here =>
      if !here then (2, v) else if v.pinsOver (addPins v.pins c l) c l then (1, v) else (0, { v with pins := addPins v.pins c l })) ∧
    pins (.unlock h d x y off) (fun v c l here =>
      (if (l.filter (fun k => v.pinCount c k != 0)).length == l.length && here then 0 else 1,
        { v with pins := (l.filter (fun k => v.pinCount c k != 0)).foldl (fun p k => dropPin p c k) v.pins }))

/-! ### Race checking (class 0x9) -/

/-- HBPUB releases, and its fibre's clock record enters the store queue as eight 8-byte stores; HBJOIN reads one, acquires,
installs its entries and writes its status (R287, R293, R294, R235). An address that is not a multiple of 64 traps with detail
9, an invalid one of the aperture with detail 6. RACECTL sets the race mode of the work-group, suspends and resumes the checking
of the fibre, reads the unchecked counter and makes the records of a range invalid; HBCLK reads the fibre's clock word or one
component of its vector. In a launch that is not checked, nothing changes and the results are 0 (R295, R296). -/
def Obligations.RaceWords : Prop :=
  (
    ∀ (s : State) (h : Hdr) (x : Src) (d : BitVec 8) (scope : Scope) (off : BitVec 32),
      let ea (a : Act) (b : State) : Nat := (b.pairLane a.ref x a.low + off.signExtend 64).toNat
      let parts (a : Act) (b : State) : List Nat := (List.range 8).map (fun i => (ea a b + 8 * i) % 2 ^ 64)
      let ok (a : Act) (b : State) : Prop := ea a b % 64 = 0 ∧ b.onceOk a.ref.wg (ea a b) 64 = true
      let needs (a : Act) (b v : State) : Bool := (v.launchOf a.ref.wg).checked || !(inAperture (ea a b))
      let q (a : Act) (b : State) : State := ((b.drain a.ref).1.withLog a.ref (needs a b (b.drain a.ref).1)).1
      let pubCheck (a : Act) (b : State) : Except (Nat × Nat × List Word) CheckNote :=
        (q a b).raceCheck a ((q a b).agent a.ref.wg) ((parts a b).map (fun p => (a.low, p, 8, 1)))
      let u (a : Act) (b : State) : State :=
        ((b.settleAtomics a.ref).1.withLog a.ref (needs a b (b.settleAtomics a.ref).1)).1
      let accs (a : Act) (b : State) : List LaneAcc := (parts a b).map (fun p => ⟨a.low, BitVec.ofNat 64 p, []⟩)
      let joinCheck (a : Act) (b : State) : Except (Nat × Nat × List Word) CheckNote :=
        ((u a b).learn a.ref (b.agent a.ref.wg) 8 scope (accs a b)).raceCheck a ((u a b).agent a.ref.wg)
          ((accs a b).map (fun e => (e.lane, e.addr.toNat, 8, 0)))
      let read (a : Act) (b : State) : Except (Nat × Nat) (List Byte) × State :=
        (u a b).loadBytes a.ref (b.agent a.ref.wg) false false (ea a b) 64
      OnceDoes (.hbpub h x scope off) s h [(x, 2)] []
        (fun a b => ok a b ∧ b.storesLeave a.ref ∧ (b.drain a.ref).1.logGoes a.ref (needs a b (b.drain a.ref).1) ∧
          (pubCheck a b).isOk = true ∧ (q a b).storesLeave a.ref)
        (fun a b =>
          let w := (q a b).released a scope
          let gens := ((w.2.fib a.ref).map (fun f => (f.cgen, f.ggen))).getD (0, 0)
          let bytes := clockRecord gens.1 gens.2 (if (w.2.launchOf a.ref.wg).checked then w.2.published a.ref w.1 else [])
          (w.2.enqueue a 8 .plain (some scope) w.1 true
            ((parts a b).mapIdx (fun i p => (⟨a.low, BitVec.ofNat 64 p, (bytes.drop (8 * i)).take 8⟩ : LaneAcc))) (fun _ => 0)).noteCheck
              a.ref ((pubCheck a b).toOption.getD (0, none))) ∧
      OnceDoes (.hbjoin h d x scope off) s h [(x, 2)] [d.toNat]
        (fun a b => ok a b ∧ (b.settleAtomics a.ref).2 = none ∧
          (b.settleAtomics a.ref).1.logGoes a.ref (needs a b (b.settleAtomics a.ref).1) ∧
          (joinCheck a b).isOk = true ∧ (read a b).1.isOk = true)
        (fun a b =>
          let l := (read a b).1.toOption.getD []
          let w := (read a b).2.acquireAll a.ref (b.agent a.ref.wg) 8 scope (accs a b)
          let head := leNat (l.take 4)
          let count := head / 2 ^ 16 % 16
          let new := ((List.range 14).map (fun i =>
            let e := leNat ((l.drop (8 + 4 * i)).take 4)
            (e % 2 ^ 16, e / 2 ^ 16))).filter (fun e => e.2 != 0)
          let joined := new.foldl (fun q e => q.install a.ref (q.unalias a.ref e.1) e.2) w
          (if (w.launchOf a.ref.wg).checked = false then w.putAll a d.toNat 0
          else if head % 2 ^ 16 ≠ 0x4843 ∨ count = 0 ∨ 14 < count then w.putAll a d.toNat 0x20
          else (if bit head 20 then joined.modWg a.ref.wg (fun g => { g with lostIn := 2, lostOut := 2 }) else joined).putAll a d.toNat
            (new.length + bit01 (bit head 20) * 16)).noteCheck a.ref ((joinCheck a b).toOption.getD (0, none))) ∧
      OnceTraps (.hbpub h x scope off) s h [(x, 2)] [] 9 (fun a b => ea a b % 64 ≠ 0) ∧
      OnceTraps (.hbjoin h d x scope off) s h [(x, 2)] [d.toNat] 9 (fun a b => ea a b % 64 ≠ 0) ∧
      OnceTraps (.hbpub h x scope off) s h [(x, 2)] [] 6 (fun a b => ea a b % 64 = 0 ∧ b.onceOk a.ref.wg (ea a b) 64 = false) ∧
      OnceTraps (.hbjoin h d x scope off) s h [(x, 2)] [d.toNat] 6
        (fun a b => ea a b % 64 = 0 ∧ b.onceOk a.ref.wg (ea a b) 64 = false)
  ) ∧
  (
    ∀ (s : State) (h : Hdr) (d : BitVec 8) (x y : Src) (off : BitVec 32),
      let checked (a : Act) (b : State) : Bool := (b.launchOf a.ref.wg).checked
      OnceDoes (.racectlTrap h) s h [] [] (fun _ _ => True) (fun a b =>
        if checked a b then b.modWg a.ref.wg (fun g => { g with report := false }) else b) ∧
      OnceDoes (.racectlReport h) s h [] [] (fun _ _ => True) (fun a b =>
        if checked a b then b.modWg a.ref.wg (fun g => { g with report := true }) else b) ∧
      OnceDoes (.racectlOff h) s h [] [] (fun _ _ => True) (fun a b =>
        if checked a b then b.modFib a.ref (fun f => { f with suspended := true }) else b) ∧
      OnceDoes (.racectlOn h) s h [] [] (fun _ _ => True) (fun a b =>
        if checked a b then b.modFib a.ref (fun f => { f with suspended := false }) else b) ∧
      OnceDoes (.racectlRdun h d) s h [] [d.toNat, d.toNat + 1] (fun _ _ => True) (fun a b =>
        b.putPair a.ref d.toNat a.lanes (fun _ =>
          BitVec.ofNat 64 (if checked a b then (b.ctx (b.ctxOf a.ref.wg)).unchecked else 0))) ∧
      (let ea (a : Act) (b : State) : Nat := (b.pairLane a.ref x a.low + off.signExtend 64).toNat
       let n (a : Act) (b : State) : Nat := b.low32 a y
       let ag (a : Act) (b : State) : Agent := b.agent a.ref.wg
       let q (a : Act) (b : State) : State := ((b.drain a.ref).1.withLog a.ref (!(inAperture (ea a b)))).1
       let found (a : Act) (b : State) : Option (Nat × Nat) × State :=
         if inAperture (ea a b) then (none, q a b) else (q a b).probeRange (ag a b) .write (ea a b) (n a b)
       let fits (a : Act) (b : State) : Prop := ea a b % 128 = 0 ∧ n a b % 128 = 0 ∧ n a b ≠ 0 ∧ n a b ≤ 2 ^ 24
       OnceDoes (.racectlForget h x y off) s h [(x, 2), (y, 1)] [] (fun a b => (ag a b).checked = false) (fun _ b => b) ∧
       OnceDoes (.racectlForget h x y off) s h [(x, 2), (y, 1)] []
         (fun a b => (ag a b).checked = true ∧ fits a b ∧ b.onceOk a.ref.wg (ea a b) (n a b) = true ∧ b.storesLeave a.ref ∧
           (b.drain a.ref).1.logGoes a.ref (!(inAperture (ea a b))) ∧ (found a b).1 = none)
         (fun a b => (List.range (n a b / 128)).foldl (fun v i =>
           (v.checkedPieces a.ref (ag a b) ((ea a b + 128 * i) % 2 ^ 64) 128).foldl (fun v e => v.forget a.ref e.1) v) (found a b).2) ∧
       OnceTraps (.racectlForget h x y off) s h [(x, 2), (y, 1)] [] 9 (fun a b => (ag a b).checked = true ∧ ¬ fits a b)) ∧
      (∀ f, OnceDoes (.hbclk h d) s h [] [d.toNat] (fun a b => b.fib a.ref = some f) (fun a b =>
        b.putAll a d.toNat (if checked a b then f.clock + f.cgen % 8 * 2 ^ 16 + f.ggen % 8 * 2 ^ 19 + bit01 f.saturated * 2 ^ 22 +
          bit01 f.suspended * 2 ^ 23 + bit01 (b.reports a.ref.wg) * 2 ^ 24 else 0))) ∧
      (∀ f, OnceDoes (.hbclkVec h d x) s h [(x, 1)] [d.toNat]
        (fun a b => b.fib a.ref = some f ∧ (b.fib ⟨a.ref.wg, b.low32 a x⟩).isSome = true) (fun a b =>
        b.putAll a d.toNat (if checked a b then
          (if b.low32 a x = a.ref.fib then f.clock else Map.getD f.vec (b.low32 a x) 0) else 0))) ∧
      OnceTraps (.hbclkVec h d x) s h [(x, 1)] [d.toNat] 9 (fun a b => (b.fib a.ref).isSome = true ∧ b.fib ⟨a.ref.wg, b.low32 a x⟩ = none ∧
        (b.launchOf a.ref.wg).checked = true)
  )

/-! ### Asynchronous copies, the network and tasks (classes 0xA and 0xB) -/

/-- CPYK accepts its cards while its core's queue has room, after a release at the widest of their scopes, and waits for room
otherwise; CPYRES resumes a copy that a fault stopped, at the byte it stopped at (R258, R259, R301, R302, R309, R311). -/
def Obligations.CopiesAreKicked : Prop :=
  ∀ (s : State) (h : Hdr) (x : Src) (n : BitVec 5) (off : BitVec 32),
    let o (a : Act) (b : State) : Nat := (b.low32 a x + off.toNat) % 2 ^ 32
    let core (a : Act) (b : State) : Nat := b.coreOf a.ref.wg
    let u (a : Act) (b : State) : State := b.recordsReady a
    let own (a : Act) (b : State) (k : Nat) : Prop :=
      o a b % 64 = 0 ∧ (b.ownRegion a.ref.wg (o a b) (64 * k)).isSome = true ∧ RecordsGo a b (o a b) 64 k
    (∀ recs : List CopyRec, OnceDoes (.cpyk h x n off) s h [(x, 1)] []
      (fun a b => (b.core (core a b)).cards.length + n.toNat ≤ 64 ∧ own a b n.toNat ∧
        (b.recordsAt a (o a b) 64 n.toNat).map readCopy = recs.map some ∧ (∀ r ∈ recs, (u a b).copyOk a.ref.wg r = true) ∧
        (u a b).storesLeave a.ref)
      (fun a b =>
        let cards := recs.map (fun r => (r, (u a b).copyScope a.ref.wg ((u a b).ctxOf a.ref.wg) r))
        let k := (u a b).kickFrom a (cards.foldl (fun sc e => scopeMax sc e.2) .core)
        (cards.foldl (fun (e : State × Nat) r =>
          (e.1.acceptCard (core a b) (o a b + 64 * e.2) (e.1.baseOf a.ref.wg) r.1 { k.1 with scope := r.2 }, e.2 + 1)) (k.2, 0)).1.noteCheck
            a.ref (b.recordsNote a (o a b) 64 n.toNat))) ∧
    Waits (.cpyk h x n off) s h false (srcNames x 1 ++ []) (srcLast x 1 ++ [])
      (fun a b => b.wordFault a [x] (oneLane a.low) [] = none ∧ 64 < (b.core (core a b)).cards.length + n.toNat) (fun _ b => b)
      (fun a => a.group) (fun _ _ => .room n.toNat) false ∧
    OnceTraps (.cpyk h x n off) s h [(x, 1)] [] 7 (fun a b => (b.core (core a b)).cards.length + n.toNat ≤ 64 ∧ own a b n.toNat ∧
      ∃ l ∈ b.recordsAt a (o a b) 64 n.toNat, ∀ r, readCopy l = some r → (u a b).copyOk a.ref.wg r = false) ∧
    (∀ c : Card,
      let rcd (a : Act) (b : State) : CopyRec := copyFields ((b.recordsAt a (o a b) 64 1).headD [])
      let base (a : Act) (b : State) : Nat := b.baseOf a.ref.wg
      let bars (a : Act) (b : State) : List Nat := (rcd a b).places (core a b) (base a b) (rcd a b).bar
      let bar (a : Act) (b : State) : Stage := (u a b).stage ((bars a b).headD 0)
      OnceDoes (.cpyres h x off) s h [(x, 1)] []
        (fun a b => own a b 1 ∧ (rcd a b).barv = true ∧ (convShape (rcd a b).conv).isSome = true ∧ (rcd a b).placed (base a b) = true ∧
          ((u a b).core (core a b)).cards.find? (fun c => c.faulted && c.base + c.offset == base a b + o a b) = some c ∧
          bars a b ≠ [] ∧ (bar a b).fault = true ∧ (bar a b).kind = 1 ∧ (u a b).storesLeave a.ref)
        (fun a b =>
          let k := (u a b).kickFrom a ((u a b).copyScope a.ref.wg ((u a b).ctxOf a.ref.wg) (rcd a b))
          (((bars a b).foldl (fun w p => w.scratchDeliver (some k.1) p
            ({ w.stage p with fault := false, kind := 0, foffset := 0 } : Stage).bytes true) k.2).modCard (core a b) c.num
              (fun y => { y with rcd := rcd a b, kick := k.1, faulted := false, done := (bar a b).foffset })).noteCheck a.ref
                (b.recordsNote a (o a b) 64 1)))

/-- The stage-barrier words act in one step on 16 aligned bytes of the aperture, after the fibre's queue has left: SBINIT, SBADD,
SBTEST, and SBWAIT, which passes when the phase differs from the parity it names, parks while it does not, and traps with a stage
fault (R305, R306, R308, R312). -/
def Obligations.StageBarriers : Prop :=
  ∀ (s : State) (h : Hdr) (d : BitVec 8) (x y : Src) (off : BitVec 32),
    let o (a : Act) (b : State) : Nat := (b.low32 a x + off.toNat) % 2 ^ 32
    let left (a : Act) (b : State) : State := (b.drain a.ref).1
    let v (a : Act) (b : State) : State := ((left a b).withLog a.ref ((left a b).launchOf a.ref.wg).checked).1
    let check (a : Act) (b : State) : Except (Nat × Nat × List Word) CheckNote :=
      (left a b).onceCheck a [(a.low, apertureVa (o a b), 16, 2)]
    let note (a : Act) (b : State) : CheckNote := (check a b).toOption.getD (0, none)
    let bar (p : Nat) (a : Act) (b : State) : Prop := o a b % 16 = 0 ∧ b.aperture a.ref.wg (o a b) 16 = some p ∧
      b.storesLeave a.ref ∧ (left a b).logGoes a.ref ((left a b).launchOf a.ref.wg).checked ∧ (check a b).isOk = true
    let word (v : State) (p k : Nat) : Nat := Memory.num v.scratch (p + k) 4
    let two := [(x, 1), (y, 1)].flatMap (fun e => srcNames e.1 e.2)
    let twoLast := [(x, 1), (y, 1)].flatMap (fun e => srcLast e.1 e.2)
    (∀ p, OnceDoes (.sbinit h x y off) s h [(x, 1), (y, 1)] [] (bar p) (fun a b =>
      (((v a b).putStage a (o a b) p ⟨(v a b).low32 a y, 0, 0, false, 0, 0⟩).modCore (p / 2 ^ 20) (fun c => { c with
        stageKicks := Map.del c.stageKicks p })).noteCheck a.ref (note a b))) ∧
    (∀ p, OnceDoes (.sbadd h x y off) s h [(x, 1), (y, 1)] []
      (fun a b => bar p a b ∧ word (v a b) p 0 + (v a b).low32 a y < 2 ^ 32) (fun a b =>
      ((v a b).putStage a (o a b) p ⟨word (v a b) p 0 + (v a b).low32 a y, word (v a b) p 4, word (v a b) p 8 % 2,
        bit (word (v a b) p 8) 1, word (v a b) p 8 / 4 % 4, word (v a b) p 12⟩).noteCheck a.ref (note a b))) ∧
    (∀ p, OnceTraps (.sbadd h x y off) s h [(x, 1), (y, 1)] [] 9
      (fun a b => bar p a b ∧ 2 ^ 32 ≤ word (v a b) p 0 + (v a b).low32 a y)) ∧
    (∀ p, OnceDoes (.sbtest h d x off) s h [(x, 1)] [d.toNat] (bar p)
      (fun a b => ((v a b).putAll a d.toNat (word (v a b) p 8)).noteCheck a.ref (note a b))) ∧
    (∀ p, OnceDoes (.sbwait h x y off) s (atPoint h) [(x, 1), (y, 1)] []
      (fun a b => bar p a b ∧ bit (word (v a b) p 8) 1 = false ∧ word (v a b) p 8 % 2 ≠ (v a b).low32 a y % 2)
      (fun a b => ((v a b).joinStage a.ref p).noteCheck a.ref (note a b))) ∧
    (∀ p, Waits (.sbwait h x y off) s (atPoint h) false two twoLast
      (fun a b => b.wordFault a [x, y] (oneLane a.low) [] = none ∧ bar p a b ∧ bit (word (v a b) p 8) 1 = false ∧
        word (v a b) p 8 % 2 = (v a b).low32 a y % 2)
      v (fun a => a.group) (fun a b => .stage p ((v a b).low32 a y % 2) (apertureVa (o a b))) true) ∧
    (∀ p, Traps (.sbwait h x y off) s (atPoint h) false two twoLast
      (fun a b => b.wordFault a [x, y] (oneLane a.low) [] = none ∧ bar p a b ∧ bit (word (v a b) p 8) 1 = true)
      (fun a b => { a.trap 0x10 0 a.low (apertureVa (o a b)) (word (v a b) p 12) with
        w34 := BitVec.ofNat 32 (word (v a b) p 8 / 4 % 4 * 2 ^ 16) })) ∧
    (∀ (v : State) (a : Act) (k p : Nat) (z : Stage), (v.agent a.ref.wg).checked = false → Memory.wf v.scratch = true →
      z.expected < 2 ^ 32 → z.arrived < 2 ^ 32 → z.phase < 2 → z.kind < 4 → z.foffset < 2 ^ 32 →
      (v.putStage a k p z).stage p = z ∧
      ∀ q, q < p ∨ p + 16 ≤ q → Memory.get (v.putStage a k p z).scratch q = Memory.get v.scratch q)

/-- NRXARM arms a slot of a ring of the fibre's context and clears the presence of its lines; NTX offers a frame and returns its
handle; NTSR reads what became of a handle (R316, R319, R320). -/
def Obligations.NetworkWords : Prop :=
  ∀ (s : State) (h : Hdr) (d : BitVec 8) (x y : Src) (ring : BitVec 4) (ts p1 : Bool) (off : BitVec 32),
    let o (a : Act) (b : State) : Nat := (b.low32 a x + off.toNat) % 2 ^ 32
    let die (a : Act) (b : State) : Nat := dieOf (b.coreOf a.ref.wg)
    let tx (a : Act) (b : State) : Option TxState := Map.find (b.die (die a b)).net.handles (b.low32 a x % 2 ^ 16)
    let size (e : Nat × Nat × Nat) : Nat := e.2.1
    let armed (a : Act) (b : State) : List ArmedSlot := (Map.getD (b.die (die a b)).net.rings ring.toNat {}).armed
    let mine (e : Nat × Nat × Nat) (p : Nat) (a : Act) (b : State) : Prop := b.ringDesc (die a b) ring.toNat = some e ∧
      e.1 = b.ctxOf a.ref.wg ∧ o a b % 128 = 0 ∧ b.aperture a.ref.wg (o a b) (size e) = some p
    OnceDoes (.nrxarm h d x ring off) s h [(x, 1)] [d.toNat]
      (fun a b => ∀ e, b.ringDesc (die a b) ring.toNat = some e → e.1 ≠ b.ctxOf a.ref.wg) (fun a b => b.putAll a d.toNat 2) ∧
    (∀ e p, OnceDoes (.nrxarm h d x ring off) s h [(x, 1)] [d.toNat] (fun a b => mine e p a b ∧ e.2.2 ≤ (armed a b).length)
      (fun a b => b.putAll a d.toNat 1)) ∧
    (∀ e p, OnceDoes (.nrxarm h d x ring off) s h [(x, 1)] [d.toNat] (fun a b => mine e p a b ∧ (armed a b).length < e.2.2)
      (fun a b =>
        let g := match Map.find b.wgs a.ref.wg with
          | some w => ((b.wgs.find? (fun e => e.2.core == p / 2 ^ 20 && e.2.launch == w.launch && e.2.cluster == w.cluster)).map
              (·.1)).getD a.ref.wg
          | none => a.ref.wg
        (((linesOf p (size e)).foldl (fun v l => v.setPresent l false) b).modRing (die a b) ring.toNat (fun r => { r with
          armed := r.armed ++ [⟨p / 2 ^ 20, g, p, o a b⟩] })).putAll a d.toNat 0)) ∧
    (let fits (a : Act) (b : State) : Prop := 60 ≤ b.low32 a y ∧ b.low32 a y ≤ 9212 ∧
       b.mayTransmit (die a b) (b.ctxOf a.ref.wg) p1 = true
     let busy (a : Act) (b : State) : Nat := ((b.die (die a b)).net.queue.filter (fun f => f.core == b.coreOf a.ref.wg)).length
     (∀ p, OnceDoes (.ntx h d x y ts p1 off) s h [(x, 1), (y, 1)] [d.toNat]
       (fun a b => busy a b < 16 ∧ fits a b ∧ o a b % 4 = 0 ∧ b.aperture a.ref.wg (o a b) (b.low32 a y) = some p ∧ b.storesLeave a.ref)
       (fun a b =>
         let k := (b.kickFrom a .die).2
         (k.offer (die a b) ⟨0, b.coreOf a.ref.wg, a.ref.wg, p, b.low32 a y, ts, p1, none⟩).2.2.putAll a d.toNat
           (k.die (die a b)).net.nextHandle)) ∧
     Waits (.ntx h d x y ts p1 off) s h false ([(x, 1), (y, 1)].flatMap (fun e => srcNames e.1 e.2))
       ([(x, 1), (y, 1)].flatMap (fun e => srcLast e.1 e.2))
       (fun a b => b.wordFault a [x, y] (oneLane a.low) [d.toNat] = none ∧ 16 ≤ busy a b) (fun _ b => b) (fun a => a.group)
       (fun _ _ => .room 32) false ∧
     OnceTraps (.ntx h d x y ts p1 off) s h [(x, 1), (y, 1)] [d.toNat] 9 (fun a b => busy a b < 16 ∧ ¬ fits a b)) ∧
    OnceDoes (.ntsrSt h d x) s h [(x, 1)] [d.toNat] (fun _ _ => True) (fun a b => b.putAll a d.toNat (match tx a b with
      | some e => bit01 e.sent + bit01 e.stamped * 2 + bit01 e.dropped * 8
      | none => 4)) ∧
    OnceDoes (.ntsrTick h d x) s h [(x, 1)] [d.toNat, d.toNat + 1] (fun _ _ => True) (fun a b =>
      b.putPair a.ref d.toNat a.lanes (fun _ => BitVec.ofNat 64 (match (tx a b).filter (·.stamped) with
        | some e => e.tick
        | none => 0))) ∧
    OnceDoes (.ntsrPtp h d x) s h [(x, 1)] ((List.range 4).map (fun j => d.toNat + j)) (fun _ _ => True) (fun a b =>
      b.putQuad a d.toNat (match (tx a b).filter (·.stamped) with
        | some e => e.ptp
        | none => List.replicate 16 0))

/-- The words on nodes of the task graph: TNODE makes one, ready at once if it awaits nothing; TEDGE adds a successor; TDONE posts a
completion; TSTAT reads the counts; TREARM restarts or frees a node (R326, R328, R329, R349). A reference without its valid bit traps
with detail 9. -/
def Obligations.TaskGraphWords : Prop :=
  ∀ (s : State) (h : Hdr) (d : BitVec 8) (x y : Src) (off : BitVec 32),
    let o (a : Act) (b : State) : Nat := (b.low32 a x + off.toNat) % 2 ^ 32
    let die (a : Act) (b : State) : Nat := dieOf (b.coreOf a.ref.wg)
    let ra (a : Act) (b : State) : Nat := b.low32 a x
    let ref (a : Act) (b : State) : Prop := bit (ra a b) 31 = true ∧ b.peerRef (ra a b) = false
    let na (a : Act) (b : State) : Option (Nat × Nat × Node) := b.ownNode (b.ctxOf a.ref.wg) (ra a b)
    let nb (a : Act) (b : State) : Option (Nat × Nat × Node) := b.ownNode (b.ctxOf a.ref.wg) (b.low32 a y)
    (∀ n, OnceDoes (.tnode h d x off) s h [(x, 1)] [d.toNat]
      (fun a b => o a b % 64 = 0 ∧ (b.aperture a.ref.wg (o a b) 64).isSome = true ∧ RecordsGo a b (o a b) 64 1 ∧
        readNode ((b.recordsReady a).ctxOf a.ref.wg) ((b.recordsAt a (o a b) 64 1).headD []) = some n)
      (fun a b =>
        let f := (b.recordsReady a).freeNode (die a b)
        (match f.1 with
          | none => f.2.putAll a d.toNat 1
          | some k =>
            let w := f.2.setNode (die a b) k n
            (if n.init = 0 then w.makeReady (die a b) k else w).putAll a d.toNat (mkRef (die a b) k)).noteCheck a.ref
              (b.recordsNote a (o a b) 64 1))) ∧
    OnceTraps (.tnode h d x off) s h [(x, 1)] [d.toNat] 7
      (fun a b => o a b % 64 = 0 ∧ (b.aperture a.ref.wg (o a b) 64).isSome = true ∧ RecordsGo a b (o a b) 64 1 ∧
        readNode ((b.recordsReady a).ctxOf a.ref.wg) ((b.recordsAt a (o a b) 64 1).headD []) = none) ∧
    (let edge (P : Act → State → Prop) (E : Act → State → State) : Prop :=
       OnceDoes (.tedge h d x y) s h [(x, 1), (y, 1)] [d.toNat] (fun a b => ref a b ∧ bit (b.low32 a y) 31 = true ∧
         b.peerRef (b.low32 a y) = false ∧ P a b) E
     edge (fun a b => na a b = none ∨ nb a b = none) (fun a b => b.putAll a d.toNat 4) ∧
     (∀ d1 n1 e1 d2 n2 e2, edge (fun a b => na a b = some (d1, n1, e1) ∧ nb a b = some (d2, n2, e2) ∧
         e1.succs.findIdx? (fun r => !(bit r 31)) = none) (fun a b => b.putAll a d.toNat 3) ∧
       (∀ i, edge (fun a b => na a b = some (d1, n1, e1) ∧ nb a b = some (d2, n2, e2) ∧
         e1.succs.findIdx? (fun r => !(bit r 31)) = some i)
         (fun a b =>
           if e2.init = 0xFFFF then b.putAll a d.toNat 5
           else
             let w := b.setNode d1 n1 { e1 with succs := e1.succs.set i (b.low32 a y) }
             let e := w.node d2 n2
             (w.setNode d2 n2 { e with init := e.init + 1, pred := if e.st = .waiting then e.pred + 1 else e.pred }).putAll a
               d.toNat (if e.st = .waiting then 0 else if e.st = .done then 2 else 1))))) ∧
    OnceDoes (.tdone h x) s h [(x, 1)] [] (fun a b => bit (ra a b) 31 = true ∧ b.storesLeave a.ref) (fun a b =>
      let sc : Scope := match b.refNode (ra a b) with
        | some (e, _) => if e == die a b then .die else .pkg
        | none => if b.peerRef (ra a b) then .dom else .die
      let k := b.kickFrom a sc
      { k.2 with posts := k.2.posts ++ [⟨ra a b, k.1.ctx⟩] }) ∧
    OnceDoes (.tstat h d x) s h [(x, 1)] [d.toNat] ref (fun a b => b.putAll a d.toNat (match na a b with
      | some e => e.2.2.pred + e.2.2.init * 2 ^ 16
      | none => 0xFFFFFFFF)) ∧
    (let rearm (i : Instr) (done running : State → Nat → Nat → Node → Nat × State) : Prop :=
      OnceDoes i s h [(x, 1)] [d.toNat] ref (fun a b =>
        match na a b with
        | none => b.putAll a d.toNat 3
        | some (d1, n1, e) =>
          let r := if e.st = .done then done b d1 n1 e else if e.st = .running then running b d1 n1 e else (2, b)
          r.2.putAll a d.toNat r.1)
    rearm (.trearm h d x) (fun b d1 n1 _ => (0, b.restart d1 n1)) (fun b d1 n1 e => (1, b.setNode d1 n1 { e with rearm := true })) ∧
    rearm (.trearmFree h d x) (fun b d1 n1 e => (0, b.setNode d1 n1 { e with st := .free })) (fun b _ _ _ => (2, b))) ∧
    (let bad (i : Instr) (srcs : List (Src × Nat)) (dsts : List Nat) : Prop :=
      OnceTraps i s h srcs dsts 9 (fun a b => bit (ra a b) 31 = false)
    bad (.tedge h d x y) [(x, 1), (y, 1)] [d.toNat] ∧ bad (.tdone h x) [(x, 1)] [] ∧ bad (.tstat h d x) [(x, 1)] [d.toNat] ∧
    bad (.trearm h d x) [(x, 1)] [d.toNat] ∧ bad (.trearmFree h d x) [(x, 1)] [d.toNat])

/-- LAUNCH reads its parameter block and places the launch in the die's queue of 64, after a release; TSPAWN enters a lane task for
each active lane, in lane order, and tells the lanes that found no place (R259, R345, R349). -/
def Obligations.LaunchesAndSpawns : Prop :=
  ∀ (s : State) (h : Hdr) (d : BitVec 8) (x y : Src) (off : BitVec 32),
    let va (a : Act) (b : State) : Nat := (b.pairLane a.ref x a.low + off.signExtend 64).toNat
    let ag (a : Act) (b : State) : Agent := b.agent a.ref.wg
    let needs (a : Act) (b : State) : Bool := (ag a b).checked || !(inAperture (va a b))
    let u (a : Act) (b : State) : State := ((b.settleAtomics a.ref).1.withLog a.ref (needs a b)).1
    let check (a : Act) (b : State) : Except (Nat × Nat × List Word) CheckNote :=
      (u a b).raceCheck a ((u a b).agent a.ref.wg) [(a.low, va a b, 128, 0)]
    let read (a : Act) (b : State) : Except (Nat × Nat) (List Byte) × State :=
      (u a b).loadBytes a.ref (ag a b) false false (va a b) 128
    let sched (a : Act) (b : State) : Sched := ((read a b).2.die (dieOf (ag a b).core)).sched
    let ready (a : Act) (b : State) : Prop := va a b % 128 = 0 ∧ b.onceOk a.ref.wg (va a b) 128 = true ∧
      (b.settleAtomics a.ref).2 = none ∧ (b.settleAtomics a.ref).1.logGoes a.ref (needs a b) ∧ (check a b).isOk = true ∧
      (read a b).1.isOk = true
    let note (a : Act) (b : State) : CheckNote := (check a b).toOption.getD (0, none)
    OnceDoes (.launch h d x off) s h [(x, 2)] [d.toNat] (fun a b => ready a b ∧ 64 ≤ (sched a b).queue.length)
      (fun a b => ((read a b).2.putAll a d.toNat 1).noteCheck a.ref (note a b)) ∧
    OnceDoes (.launch h d x off) s h [(x, 2)] [d.toNat]
      (fun a b => ready a b ∧ (sched a b).queue.length < 64 ∧ (read a b).2.storesLeave a.ref)
      (fun a b =>
        let die := dieOf (ag a b).core
        let mask := leNat ((((read a b).1.toOption.getD []).drop 0x1A).take 1)
        let k := (read a b).2.kickFrom a (scopeMax ((read a b).2.rangeScope (ag a b).core (ag a b).ctx (va a b) 128)
          (if mask = 0 ∨ mask = 2 ^ die then .die else .pkg))
        let seq := (k.2.die die).sched.nextSeq
        ((k.2.modSched die (fun c => { c with
          queue := c.queue ++ [⟨seq, k.1.ctx, va a b, none, some k.1⟩], nextSeq := (seq + 1) % 2 ^ 31 })).putAll a d.toNat
            (seq + 2 ^ 31)).noteCheck a.ref (note a b)) ∧
    OnceTraps (.launch h d x off) s h [(x, 2)] [d.toNat] 9 (fun a b => va a b % 128 ≠ 0) ∧
    (let o (a : Act) (b : State) (i : Nat) : Nat := (b.srcLane a.ref x i + off).toNat
     let kd (a : Act) (b : State) (i : Nat) : Nat := (b.pairLane a.ref y i).toNat
     let out (a : Act) (b : State) : Mask := maskOf (fun i => a.lanes.getLsbD i && !(b.boundsOk a.ref.wg (apertureVa (o a b i)) 64))
     let live (a : Act) (b : State) : Mask := a.lanes &&& ~~~(out a b)
     let z (a : Act) (b : State) : State := (b.settleAtomics a.ref).1
     let v (a : Act) (b : State) : State := ((z a b).withLog a.ref ((z a b).launchOf a.ref.wg).checked).1
     let race (a : Act) (b : State) : Except (Nat × Nat × List Word) CheckNote :=
       (z a b).onceCheck a ((lanesOf (live a b)).map (fun i => (i, apertureVa (o a b i), 64, 0)))
     Does (.tspawn h d x y off) s h false (srcNames x 1 ++ srcNames y 2) (srcLast x 1 ++ srcLast y 2) 6
       (fun a b => b.wordFault a [x, y] a.lanes [d.toNat] = none ∧ (b.launchOf a.ref.wg).determ = false ∧
         (∀ i ∈ lanesOf a.lanes, o a b i % 64 = 0 ∧ kd a b i % 256 = 0) ∧ (b.settleAtomics a.ref).2 = none ∧
         (z a b).logGoes a.ref ((z a b).launchOf a.ref.wg).checked ∧ (race a b).isOk = true ∧ (v a b).storesLeave a.ref)
       (fun a b =>
         let k := (v a b).kickFrom a .die
         let r := ((lanesOf (live a b)).map (fun i => (i, ((z a b).pairLane a.ref y i).toNat, (z a b).ownBytes a.ref (o a b i) 64))).foldl
           (fun (e : State × Mask) j =>
             let n := e.1.enterTask (clusterOf k.1.core) (e.1.launchOf a.ref.wg).cls { kd := j.2.1, ctx := k.1.ctx, arg := j.2.2, kick := some k.1 }
             (n.2, if n.1 then e.2 else e.2 ||| oneLane j.1)) (k.2.switchOff a.ref (out a b), (0 : Mask))
         (r.1.writeReg a.ref d.toNat (live a b) (lanes (fun i => if r.2.getLsbD i then 1 else 0))).noteCheck a.ref
           ((race a b).toOption.getD (0, none))))

/-! ### Collectives and the solver sequencer (class 0xC) -/

/-- The four starting words accept a descriptor of their kind and write its handle, and wait while their engine has no place;
CWAIT gives a handle's status once its operation has ended and parks until then; CSTAT reads what is known of it, and selectors
1 to 3 of a handle that has expired give a free value, the model's choice (assumption 91) (R366, R367). SQTAB and SQDEF define
tables and sequences, SQGO starts a sequence after a release, SQSTAT reads one and SQABT asks for its end (R372 to R375, R381,
R384). A descriptor that breaks R373, or whose references do not name the issuing die and package, traps with detail 7 (R454).
-/
def Obligations.CollectiveAndSequenceWords : Prop :=
  (
    ∀ (s : State) (h : Hdr) (d : BitVec 8) (x : Src) (off : BitVec 32) (what : BitVec 2),
      let o (a : Act) (b : State) : Nat := (b.low32 a x + off.toNat) % 2 ^ 32
      let u (a : Act) (b : State) : State := b.recordsReady a
      let g (a : Act) : Nat := a.ref.wg
      let start (i : Instr) (kind : Nat) : Prop := ∀ (p : Nat) (c : CollDesc),
        let accepts (a : Act) (b : State) : Prop := o a b % 64 = 0 ∧ b.ownRegion (g a) (o a b) 64 = some p ∧ RecordsGo a b (o a b) 64 1 ∧
          readColl ((b.recordsAt a (o a b) 64 1).headD []) = some c ∧ c.kind = kind ∧
          (u a b).collRegions (g a) (b.ctxOf (g a)) (dieOf (b.coreOf (g a))) c = true ∧
          (c.arrival = true → c.op = 0 → ((u a b).launchOf (g a)).determ = false)
        OnceDoes i s h [(x, 1)] [d.toNat]
          (fun a b => accepts a b ∧ (u a b).collPlaces (dieOf (b.coreOf (g a))) < 64 ∧ (u a b).storesLeave a.ref)
          (fun a b =>
            let core := b.coreOf (g a)
            let ctx := b.ctxOf (g a)
            let k := (u a b).kickFrom a ((u a b).collScope core ctx c)
            let r := k.2.acceptColl (dieOf core) ctx c p true k.1.launch core (k.2.baseOf (g a)) (some k.1) none
            (r.2.putAll a d.toNat r.1).noteCheck a.ref (b.recordsNote a (o a b) 64 1)) ∧
        Waits i s h false (srcNames x 1 ++ []) (srcLast x 1 ++ [])
          (fun a b => b.wordFault a [x] (oneLane a.low) [d.toNat] = none ∧ accepts a b ∧
            64 ≤ (u a b).collPlaces (dieOf (b.coreOf (g a)))) u (fun a => a.group) (fun _ _ => .room 64) false
      let named (a : Act) (b : State) : Option CollOp :=
        if b.low32 a x < 4096 then b.collOp (dieOf (b.coreOf (g a))) (b.ctxOf (g a)) (b.low32 a x) else none
      start (.cred h d x off) 0 ∧ start (.crsc h d x off) 1 ∧ start (.cagt h d x off) 2 ∧ start (.cbct h d x off) 3 ∧
      OnceDoes (.cwait h d x) s (atPoint h) [(x, 1)] [d.toNat] (fun a b => named a b = none) (fun a b => b.putAll a d.toNat 4) ∧
      (∀ e : CollOp, OnceDoes (.cwait h d x) s (atPoint h) [(x, 1)] [d.toNat] (fun a b => named a b = some e ∧ e.status ≠ 0)
        (fun a b =>
          let v := if e.status % 16 = 1 then
              (b.joinKick a.ref e.kick).cacheAcquire (b.agent (g a)) ((e.kick.map (fun k => k.scope)).getD .dom)
            else b
          v.putAll a d.toNat e.status)) ∧
      (∀ e : CollOp, Waits (.cwait h d x) s (atPoint h) false (srcNames x 1 ++ []) (srcLast x 1 ++ [])
        (fun a b => b.wordFault a [x] (oneLane a.low) [d.toNat] = none ∧ named a b = some e ∧ e.status = 0) (fun _ b => b)
        (fun a => a.group) (fun a b => .collective (dieOf (b.coreOf (g a))) (b.low32 a x)) true) ∧
      OnceDoes (.cstat h d x what) s h [(x, 1)] [d.toNat] (fun a b => named a b = none) (fun a b =>
        if what = 0 then b.putAll a d.toNat 4 else b.draw.2.putAll a d.toNat (Config.freeWord b.draw.1).toNat) ∧
      (∀ e : CollOp, OnceDoes (.cstat h d x what) s h [(x, 1)] [d.toNat] (fun a b => named a b = some e) (fun a b =>
        b.putAll a d.toNat (if e.status = 0 then 0 else if what = 0 then e.status else if what = 1 then e.nanidx
          else if what = 2 then e.nansrc else min e.redone (2 ^ 32 - 1))))
  ) ∧
  (
    ∀ (s : State) (h : Hdr) (d : BitVec 8) (x y : Src) (tab : BitVec 4) (off : BitVec 32) (what : BitVec 3) (free : Bool),
      let o (a : Act) (b : State) : Nat := (b.low32 a x + off.toNat) % 2 ^ 32
      let die (a : Act) (b : State) : Nat := dieOf (b.coreOf a.ref.wg)
      let u (a : Act) (b : State) : State := b.recordsReady a
      let own (align n : Nat) (a : Act) (b : State) : Prop := o a b % align = 0 ∧ (b.ownRegion a.ref.wg (o a b) n).isSome = true ∧
        RecordsGo a b (o a b) n 1
      let bytes (n : Nat) (a : Act) (b : State) : List Byte := (b.recordsAt a (o a b) n 1).headD []
      let note (n : Nat) (a : Act) (b : State) : CheckNote := b.recordsNote a (o a b) n 1
      let busy (a : Act) (b : State) : Bool := ((u a b).die (die a b)).sequencer.places.any (fun e =>
        e.2.ctx == b.ctxOf a.ref.wg && e.2.state == 1 && e.2.desc.table == tab.toNat)
      let place (a : Act) (b : State) : Option Nat := (List.range 16).find? (fun k =>
        !((((u a b).seqPlace (die a b) k).map (fun p => p.defined)).getD false))
      let named (a : Act) (b : State) : Option (Nat × SeqPlace) := b.seqNamed (die a b) (b.ctxOf a.ref.wg) (b.low32 a x)
      OnceDoes (.sqtab h d x tab off) s h [(x, 1)] [d.toNat]
        (fun a b => own 64 256 a b ∧ tableOk (bytes 256 a b) = true) (fun a b =>
          (if busy a b then (u a b).putAll a d.toNat 1
          else ((u a b).modSeq (die a b) (fun q => { q with
            tables := Map.set q.tables tab.toNat (b.ctxOf a.ref.wg, bytes 256 a b) })).putAll a d.toNat 0).noteCheck a.ref (note 256 a b)) ∧
      (∀ c, OnceDoes (.sqdef h d x off) s h [(x, 1)] [d.toNat]
        (fun a b => own 128 128 a b ∧ readSeq (bytes 128 a b) = some c ∧ (u a b).seqRefsOk (die a b) c = true ∧ place a b = none) (fun a b =>
          ((u a b).putAll a d.toNat 1).noteCheck a.ref (note 128 a b))) ∧
      (∀ c k, OnceDoes (.sqdef h d x off) s h [(x, 1)] [d.toNat]
        (fun a b => own 128 128 a b ∧ readSeq (bytes 128 a b) = some c ∧ (u a b).seqRefsOk (die a b) c = true ∧ place a b = some k) (fun a b =>
          let v := u a b
          let p : SeqPlace := { ctx := v.ctxOf a.ref.wg, gen := (((v.seqPlace (die a b) k).map (fun p => p.gen)).getD 0 + 1) % 256
                                defined := true, desc := c, samples := List.replicate c.nsamp {}, state := 0, reason := 0, rounds := 0
                                stage := 0, active := [], waiting := false, abort := false, freeAfter := false, ending := none
                                table := [], kick := none, startNode := none, retNode := none }
          (if 16384 < v.seqRecords (die a b) + c.nsamp then v.putAll a d.toNat 2
          else (v.modSeq (die a b) (fun q => { q with places := Map.set q.places k p })).putAll a d.toNat (p.handle k)).noteCheck a.ref
            (note 128 a b))) ∧
      OnceTraps (.sqdef h d x off) s h [(x, 1)] [d.toNat] 7 (fun a b => own 128 128 a b ∧
        ∀ c, readSeq (bytes 128 a b) = some c → (u a b).seqRefsOk (die a b) c = false) ∧
      (∀ e, OnceDoes (.sqgo h d x) s h [(x, 1)] [d.toNat]
        (fun a b => b.canStart (die a b) (b.ctxOf a.ref.wg) (b.low32 a x) = .error e) (fun a b => b.putAll a d.toNat e)) ∧
      (∀ k p l den ret, OnceDoes (.sqgo h d x) s h [(x, 1)] [d.toNat]
        (fun a b => b.canStart (die a b) (b.ctxOf a.ref.wg) (b.low32 a x) = .ok (k, p, l, den, ret) ∧ b.storesLeave a.ref)
        (fun a b =>
          let q := b.kickFrom a (b.seqScope (b.coreOf a.ref.wg) (b.ctxOf a.ref.wg) p (tabStages l))
          (((q.2.rearmDone (die a b) den).rearmDone (die a b) ret).startSeq (die a b) k (some q.1) none l).putAll a d.toNat 0)) ∧
      OnceDoes (.sqstat h d x y what) s h [(x, 1), (y, 1)] [d.toNat] (fun a b => named a b = none)
        (fun a b => b.putAll a d.toNat (2 ^ 32 - 1)) ∧
      (∀ k p, OnceDoes (.sqstat h d x y what) s h [(x, 1), (y, 1)] [d.toNat] (fun a b => named a b = some (k, p)) (fun a b =>
        let e := p.samples.getD (b.low32 a y) default
        b.putAll a d.toNat (
          if what = 5 then p.word else if what = 6 then p.rounds
          else if p.samples.length ≤ b.low32 a y then 2 ^ 32 - 1
          else if what = 0 then e.status else if what = 1 then e.t.toNat else if what = 2 then e.h.toNat
          else if what = 3 then e.errprev.toNat else e.acc + e.rej * 2 ^ 16))) ∧
      OnceDoes (.sqabt h d x free) s h [(x, 1)] [d.toNat] (fun a b => named a b = none) (fun a b => b.putAll a d.toNat 2) ∧
      (∀ k p, OnceDoes (.sqabt h d x free) s h [(x, 1)] [d.toNat] (fun a b => named a b = some (k, p)) (fun a b =>
        if p.state = 1 then (b.modPlace (die a b) k (fun q => { q with abort := true, freeAfter := q.freeAfter || free })).putAll a d.toNat 0
        else (if free then b.modPlace (die a b) k (fun q => { q with defined := false }) else b).putAll a d.toNat 1))
  )

/-! ### Traps, contexts and system words (class 0xD) -/

/-- Taking a trap outside trap mode (R389, R390): the fibre's loads complete, and the live threads of the trapping word's issue
group wait in trap mode, with where every thread stood, its governance and its waits kept for the return; every other thread
keeps its address. Entry waits while the array holds operations of the fibre. Then its queue drains, and the trap is that of the
older word where a store faults, the model's reading (assumption 79); the handler is entered once the record has a place. A
handler's entry (R389, R390, R397): the record of 64 bytes is appended to the context's trap ring and the core's sequence number
advances; the handler's threads go to the KD's trap vector, and its h registers hold the record. A trap in trap mode (R391): its
record goes to the host ring, the fibre stops, and its context faults. -/
def Obligations.TrapsAreTaken : Prop :=
  (
    (∀ (s : State) (r : FibRef) (t : TrapInfo) (f g : Fibre), s.fib r = some f → f.trap = none → (s.settleLoads r).fib r = some g →
      ∃ x : Fibre,
        x.trap = some { info := t, lanes := t.group &&& g.live, hregs := Vector.replicate 16 (splat 0), back := g.pcs, gov := g.gov
                        waits := g.waits, waiting := true, stopped := false } ∧
        x.pcs = g.pcs ∧ x.live = g.live ∧ x.waits = [] ∧ x.regs = g.regs ∧ x.preds = g.preds ∧ x.log = g.log ∧ x.queue = g.queue ∧
        (∀ b : Fin 4, (x.latches[b]).2 = 0) ∧ s.takeTrap r t = ((s.settleLoads r).setFib r x).proceedTrap r) ∧
    (∀ (v : State) (r : FibRef) (f : Fibre) (z : TrapFrame), v.fib r = some f → f.trap = some z → z.waiting = true →
      (v.arrayBusy r .fibre = true → v.proceedTrap r = v) ∧
      (∀ (u : State) (o : Option TrapInfo) (w : Fibre), v.arrayBusy r .fibre = false → v.drain r = (u, o) → u.fib r = some w →
        (o.getD z.info).race = [] → ∃ (n : TrapInfo) (y : Fibre),
          n.cause = (o.getD z.info).cause ∧ n.pc = (o.getD z.info).pc ∧ n.mask = (o.getD z.info).mask ∧ n.sub = (o.getD z.info).sub ∧
          n.lane = (o.getD z.info).lane ∧ n.addr = (o.getD z.info).addr ∧
          n.w34 = (o.getD z.info).w34 ||| BitVec.ofNat 32 w.logMasks ∧
          n.resume = (if (o.getD z.info).after then w.resumeOf (o.getD z.info).group (o.getD z.info).resume else (o.getD z.info).resume) ∧
          y.trap = some { z with info := n, lanes := (o.getD z.info).group &&& w.live } ∧ y.pcs = w.pcs ∧ y.live = w.live ∧
          (∀ k, k < 32 → ((o.getD z.info).group &&& w.live).getLsbD k = true → (y.gov.toList.getD k ⟨1, 0, 0⟩).left = 0) ∧
          v.proceedTrap r = (if (u.setFib r y).trapRoom r n.cause then (u.setFib r y).enterHandler r n else u.setFib r y)))
  ) ∧
  (
    ∀ (s : State) (r : FibRef) (t : TrapInfo) (f : Fibre) (z : TrapFrame), s.fib r = some f → f.trap = some z → t.cause ≠ 0x28 →
      (s.launchOf r.wg).trapVec ≠ 0 →
      let ws := s.trapWords r t false true
      let place := if s.hasRing (s.ctxOf r.wg) 0 then s.ringPlace (s.ctxOf r.wg) 0 else 0
      (t.race = [] → ws.length = 16 ∧ (recordBytes ws).length = 64) ∧
      s.enterHandler r t = ((s.ringAppend (s.ctxOf r.wg) 0 (recordBytes ws)).bumpSeq (s.coreOf r.wg)).modFib r (fun g => { g with
          trap := g.trap.map (fun y => { y with waiting := false, info := t, hregs := handlerRegs t ws place })
          pcs := g.pcs.mapIdx (fun i p => if (g.trap.map (fun y : TrapFrame => y.lanes.getLsbD i)).getD false then (s.launchOf r.wg).trapVec else p) })
  ) ∧
  (
    ∀ (s : State) (r : FibRef) (t : TrapInfo) (f : Fibre) (z : TrapFrame), s.fib r = some f → f.trap = some z →
      s.takeTrap r t = ((((s.hostAppend (recordBytes (s.trapWords r t true false))).bumpSeq (s.coreOf r.wg)).modFib r (fun g => { g with
        trap := g.trap.map (fun y => { y with stopped := true }) })).oweFault (s.ctxOf r.wg) t.cause)
  )

/-- TRAP and BKPT take their trap after the word, with the code in the record (R386, R410, R416). A word of class 0xF traps with
cause 0x28 where an emulation routine is installed, and as an illegal instruction with subcode 2 otherwise (R39, R408). RTT ends
trap mode once the handler's stores have left: its threads go back to where the trap took them, the others stay, and what was
held is issued again; RTT.skip passes a word that has not issued, and drops one that is held (R390, R396, R411). -/
def Obligations.TrapWordsAndReturns : Prop :=
  (
    ∀ (s : State) (h : Hdr) (code : BitVec 16) (kill : Bool) (neg : Bool) (gp : BitVec 3) (w : BitVec 96),
      HeldTrap (.trap h code kill) s h [] [] (fun _ _ => True) (fun a b =>
        (b, { a.trap 0x20 0 a.low 0 code.toNat with after := true, resume := a.pc + 12, kill := kill })) ∧
      HeldTrap (.bkpt h code) s h [] [] (fun _ _ => True) (fun a b =>
        (b, { a.trap 0x21 0 a.low 0 code.toNat with after := true, resume := a.pc + 12 })) ∧
      (∀ c f, s.cur = some c → s.fib c.ref = some f →
        let a : Act := ⟨c.ref, c.lanes &&& (if neg then ~~~(f.pred gp) else f.pred gp), c.lanes, c.pc, w, ⟨0, 0, 0⟩⟩
        ((s.ctx (s.ctxOf c.ref.wg)).emul ≠ 0 →
          exec (.legacyBehaviour neg gp w) s = .next ((s.turned c).takeTrap c.ref (a.trap 0x28 0 a.low 0 0))) ∧
        ((s.ctx (s.ctxOf c.ref.wg)).emul = 0 →
          exec (.legacyBehaviour neg gp w) s = .next ((s.turned c).takeTrap c.ref (underGov (a.illegal 2) (f.govOf c.lanes)))))
  ) ∧
  (
    ∀ (s : State) (h : Hdr) (skip : Bool),
      let i : Instr := if skip then .rttSkip h else .rtt h
      ((∀ c, s.cur = some c → s.inTrap c.ref = true) →
        OnceDoes i s h [] [] (fun a b => b.storesLeave a.ref) (fun a b => (b.drain a.ref).1.leaveTrap a.ref skip) ∧
        Waits i s h false [] [] (fun a b => b.wordFault a [] (oneLane a.low) [] = none ∧ b.owesStores a.ref = true) (fun _ b => b)
          (fun a => a.group) (fun _ _ => .owed) false) ∧
      (∀ (v : State) (r : FibRef) (f : Fibre) (z : TrapFrame), v.fib r = some f → f.trap = some z → f.log = [] → f.queue = [] →
        ∃ g, (v.leaveTrap r skip).fib r = some g ∧ g.trap = none ∧ g.queue = f.trapQueue ∧ g.trapQueue = [] ∧ g.live = f.live ∧
        ∀ k, k < 32 → g.pcs.toList.getD k 0 =
          if z.lanes.getLsbD k then (if skip = true ∧ z.info.after = false then (z.info.pc + 12) % 2 ^ 64 else z.back.toList.getD k 0)
          else f.pcs.toList.getD k 0)
  )

/-- The privilege rules (R240, R409 to R411): outside a system context TLBINV, ASIDNEW and HARVEST.all are illegal instructions with
subcode 8, outside a launch with reserve so are LOCK and UNLOCK, and outside trap mode RTT and LOGRD are illegal with subcode 9. -/
def Obligations.PrivilegedWordsTrap : Prop :=
  ∀ (s : State) (h : Hdr) (c : Cur) (f : Fibre) (d e : BitVec 8) (x y : Src) (n w : BitVec 4) (k : BitVec 3) (off : BitVec 32),
    s.cur = some c → s.fib c.ref = some f → h ≠ Hdr.never →
    let illegal (i : Instr) (sub : Nat) : Prop := exec i s = .next ((s.turned c).takeTrap c.ref (underGov
      (Act.illegal ⟨c.ref, c.lanes &&& f.guard h, c.lanes, c.pc, c.bits, ⟨0, 0, 0⟩⟩ sub) (f.govOf c.lanes)))
    ((s.ctx (s.ctxOf c.ref.wg)).system = false → illegal (.tlbinvPage h x y) 8 ∧ illegal (.tlbinvAsid h y) 8 ∧
      illegal (.tlbinvAll h) 8 ∧ illegal (.asidnew h d x) 8 ∧ illegal (.harvest h true) 8) ∧
    ((s.launchOf c.ref.wg).reserve = false → illegal (.lock h d x y off) 8 ∧ illegal (.unlock h e x y off) 8) ∧
    (s.inTrap c.ref = false → illegal (.rtt h) 9 ∧ illegal (.rttSkip h) 9 ∧ illegal (.logrdEnt h d k w) 9 ∧
      illegal (.logrdG h d n) 9 ∧ illegal (.logrdPut h x n) 9)

/-- SETS writes the special registers that may be written, s.fpf once the fibre's matrix operations have committed; YCHK reads the
pre-emption request and its deadline; ECNT reads the energy counter, outside a deterministic launch; LOGRD reads the operand log and
reaches the interrupted fibre's g registers from a handler (R83, R393, R407, R410). -/
def Obligations.SystemWords : Prop :=
  ∀ (s : State) (h : Hdr) (d sr : BitVec 8) (x : Src) (k : BitVec 3) (w n : BitVec 4),
    let inTrap : Prop := ∀ c, s.cur = some c → s.inTrap c.ref = true
    let frame (a : Act) (b v : State) : State := v.modFib a.ref (fun f => { f with trap := (b.fib a.ref).bind (·.trap) })
    let plain (a : Act) (b : State) : State := b.modFib a.ref (fun f => { f with trap := none })
    OnceDoes (.sets h sr x) s h [(x, 1)] [] (fun a b => sr = 0x09 → b.arrayBusy a.ref .fibre = false) (fun a b =>
      let y := b.srcLane a.ref x a.low
      b.modFib a.ref (fun f =>
        if sr = 0x02 then { f with undefRead := f.undefRead && !(y.getLsbD 31) }
        else if sr = 0x09 then { f with fpf := y.setWidth 6 }
        else if sr = 0x0A then { f with fp4x := y.setWidth 8 }
        else if sr = 0x10 then { f with spmask := f.spmask &&& ~~~y } else f)) ∧
    Waits (.sets h 0x09 x) s h false (srcNames x 1 ++ []) (srcLast x 1 ++ [])
      (fun a b => b.wordFault a [x] (oneLane a.low) [] = none ∧ b.arrayBusy a.ref .fibre = true) (fun _ b => b)
      (fun a => a.group) (fun _ _ => .array .fibre) false ∧
    OnceDoes (.ychk h d) s h [] [d.toNat] (fun _ _ => True) (fun a b =>
      let c := b.ctx (b.ctxOf a.ref.wg)
      b.putAll a d.toNat (bit01 c.request + (match c.expires with
        | some e => 2 + min ((e - b.tick + 255) / 256) (2 ^ 24 - 1) * 256
        | none => 0))) ∧
    OnceDoes (.ecnt h d) s h [] [d.toNat, d.toNat + 1] (fun a b => (b.launchOf a.ref.wg).determ = false) (fun a b =>
      let c := b.ctx (b.ctxOf a.ref.wg)
      b.putPair a.ref d.toNat a.lanes (fun _ => BitVec.ofNat 64 (c.energy / 1000000 % 2 ^ 48 + bit01 c.esat * 2 ^ 63))) ∧
    (inTrap → OnceDoes (.logrdEnt h d k w) s h [] [d.toNat] (fun _ _ => True) (fun a b =>
      b.writeReg a.ref d.toNat a.lanes (lanes (fun i => BitVec.ofNat 32 (
        match (b.fib a.ref).bind (fun f => Map.find f.log k.toNat) with
        | some e => e.read w.toNat i
        | none => 0))))) ∧
    (inTrap → OnceDoes (.logrdG h d n) s h [] [d.toNat] (fun _ _ => True) (fun a b =>
      (frame a b ((plain a b).noteReads a.ref [n.toNat])).writeReg a.ref d.toNat a.lanes ((plain a b).reg a.ref n.toNat))) ∧
    (inTrap → Does (.logrdPut h x n) s h false (srcNames x 1) (srcLast x 1) 6
      (fun a b => b.wordFault a [x] a.lanes [] = none ∧ (plain a b).writeFault a.ref [n.toNat] = none)
      (fun a b => frame a b ((plain a b).writeReg a.ref n.toNat a.lanes (lanes (b.srcLane a.ref x)))))

/-- In a system context TLBINV drops translations and the L1 lines they stand for, ASIDNEW gives a context that is not resident its
next generation, and HARVEST writes out what the TLBs have gathered (R216, R218, R221, R410). -/
def Obligations.TranslationWords : Prop :=
  ∀ (s : State) (h : Hdr) (d : BitVec 8) (x y : Src) (all : Bool),
    (∀ c, s.cur = some c → (s.ctx (s.ctxOf c.ref.wg)).system = true) →
    let v (a : Act) (b : State) : Nat := b.low32 a y
    let mine (a : Act) (b : State) (e : L1Line) : Bool := e.asid == v a b % 2 ^ 16 && e.gen == v a b / 2 ^ 16 % 2 ^ 4
    OnceDoes (.tlbinvPage h x y) s h [(x, 2), (y, 1)] [] (fun a b => v a b < 2 ^ 20) (fun a b =>
      (let va := (b.pairLane a.ref x a.low).toNat
      b.invalidate (fun e => e.hits (v a b % 2 ^ 16) (v a b / 2 ^ 16 % 2 ^ 4) va)
        (fun e => e.asid == v a b % 2 ^ 16 && e.gen == v a b / 2 ^ 16 % 2 ^ 4 && e.covers va) (mine a b))) ∧
    OnceDoes (.tlbinvAsid h y) s h [(y, 1)] [] (fun a b => v a b < 2 ^ 20) (fun a b =>
      b.invalidate (fun e => e.asid == v a b % 2 ^ 16 && e.gen == v a b / 2 ^ 16 % 2 ^ 4)
        (fun e => e.asid == v a b % 2 ^ 16 && e.gen == v a b / 2 ^ 16 % 2 ^ 4) (mine a b)) ∧
    OnceDoes (.tlbinvAll h) s h [] [] (fun _ _ => True) (fun _ b =>
      { b.invalidate (fun _ => true) (fun _ => true) (fun _ => true) with flushed := b.asids }) ∧
    (let k (a : Act) (b : State) : Nat := b.low32 a x
     let c (a : Act) (b : State) : Context := b.ctx (k a b)
     let e (a : Act) (b : State) : Nat := b.physNum (c a b).entry 4
     let gen (a : Act) (b : State) : Nat := e a b / 2 ^ 16 % 2 ^ 4
     let asid (a : Act) (b : State) : Nat := e a b % 2 ^ 16
     OnceDoes (.asidnew h d x) s h [(x, 1)] [d.toNat] (fun a b => k a b < 64 ∧ (c a b).entry ≠ 0 ∧ bit (e a b) 20 = true) (fun a b =>
      if (c a b).resident then b.putAll a d.toNat 0x80000002
      else if gen a b = 15 ∧ b.flushed.contains (asid a b) = false then b.putAll a d.toNat 0x80000001
      else
        let g := (gen a b + 1) % 16
        let w := (b.physWrite ((c a b).entry + 2) (leBytes 1 (e a b / 2 ^ 16 % 2 ^ 8 / 16 * 16 + g))).modCtx (k a b) (fun c => { c with
          gen := g })
        (if g = 15 then { w with flushed := w.flushed.filter (· != asid a b) } else w).putAll a d.toNat (asid a b + g * 2 ^ 16))) ∧
    OnceDoes (.harvest h all) s h [] [] (fun _ _ => True) (fun a b =>
      let c := b.ctx (b.ctxOf a.ref.wg)
      b.harvest (fun e => all || (e.asid == c.asid && e.gen == c.gen)))

/-- WGSAVE gives the threads that a save has ended for its status; with no request pending it writes 0; threads that arrive before the
others park; once every thread of a work-group that is asked to save has arrived, its lowest-numbered fibre saves it, or ends the save
with status 2 where the area is too small or not aligned (R401, R402). -/
def Obligations.WorkGroupsAreSaved : Prop :=
  ∀ (s : State) (h : Hdr) (d : BitVec 8) (x y : Src) (off : BitVec 32),
    let area (a : Act) (b : State) : Nat := (b.pairLane a.ref x a.low + off.signExtend 64).toNat
    let ask (a : Act) (b : State) : Bool := (b.ctx (b.ctxOf a.ref.wg)).request
    let r (a : Act) (b : State) : SaveRound := { asks := ask a b, area := area a b, size := b.low32 a y
                                                 arrived := [(a.ref.fib, a.lanes)], dsts := [(a.ref.fib, d.toNat)] }
    let first (w : WorkGroup) (a : Act) (b : State) : Prop := Map.find b.wgs a.ref.wg = some w ∧
      w.owedStatus a.ref.fib a.lanes = none ∧ b.inTrap a.ref = false ∧ w.lane = false ∧ a.gov.left = 0 ∧ w.saves = []
    let v (w : WorkGroup) (a : Act) (b : State) : State := b.modWg a.ref.wg (fun z => { z with
      saves := [r a b].filter (fun q => q.asks || !w.allArrived q) })
    let srcs := [(x, 2), (y, 1)]
    let saves (w : WorkGroup) (a : Act) (b : State) : Prop := first w a b ∧ ask a b = true ∧ w.allArrived (r a b) = true ∧
      w.firstFibre = some a.ref.fib
    let small (w z : WorkGroup) (a : Act) (b : State) : Prop := area a b % 4096 ≠ 0 ∨ b.low32 a y < (v w a b).saveSize z
    let drained (w : WorkGroup) (a : Act) (b : State) : State := ((v w a b).drain a.ref).1.drainAll a.ref.wg
    (∀ w n, OnceDoes (.wgsave h d x y off) s (atPoint h) srcs [d.toNat]
      (fun a b => Map.find b.wgs a.ref.wg = some w ∧ w.owedStatus a.ref.fib a.lanes = some n)
      (fun a b => (b.tookStatus a.ref a.lanes).putAll a d.toNat n)) ∧
    (∀ w, OnceDoes (.wgsave h d x y off) s (atPoint h) srcs [d.toNat] (fun a b => first w a b ∧ ask a b = false)
      (fun a b => (v w a b).putAll a d.toNat 0)) ∧
    (∀ w, Waits (.wgsave h d x y off) s (atPoint h) false (srcs.flatMap (fun e => srcNames e.1 e.2))
      (srcs.flatMap (fun e => srcLast e.1 e.2))
      (fun a b => b.wordFault a [x, y] (oneLane a.low) [d.toNat] = none ∧ first w a b ∧ ask a b = true ∧ w.allArrived (r a b) = false)
      (v w) (fun a => a.lanes) (fun _ _ => .save) true) ∧
    (∀ w z, OnceDoes (.wgsave h d x y off) s (atPoint h) srcs [d.toNat]
      (fun a b => saves w a b ∧ Map.find (v w a b).wgs a.ref.wg = some z ∧ small w z a b)
      (fun a b => (((v w a b).modWg a.ref.wg (fun g => { g with
        saves := [], saveDone := g.saveDone ++ [(a.ref.fib, a.lanes, 2)] })).tookStatus a.ref a.lanes).putAll a d.toNat 2)) ∧
    (∀ w z q, OnceDoes (.wgsave h d x y off) s (atPoint h) srcs [d.toNat]
      (fun a b => saves w a b ∧ Map.find (v w a b).wgs a.ref.wg = some z ∧ ¬ small w z a b ∧ (v w a b).storesLeave a.ref ∧
        (drained w a b).logsClear a.ref.wg = true ∧ (drained w a b).quiet a.ref.wg = true ∧
        (drained w a b).faultedCard a.ref.wg = false ∧
        (let e := (drained w a b).probeRange ((drained w a b).agent a.ref.wg) .write (area a b) ((drained w a b).saveSize z)
        e.1 = none ∧ Map.find e.2.wgs a.ref.wg = some q))
      (fun a b => ((drained w a b).probeRange ((drained w a b).agent a.ref.wg) .write (area a b) ((drained w a b).saveSize z)).2.saveNow
        a q (r a b)))

/-! ### Debug, trace and profiling (class 0xE) -/

/-- The words that read time and counters, which a deterministic launch may not execute (R43, R419): TICK, PTPRD, STALLRD, PROGR;
and TRACE, which it may (R314, R413, R414, R417, R420). -/
def Obligations.DebugWords : Prop :=
  ∀ (s : State) (h : Hdr) (d : BitVec 8) (x : Src) (k : BitVec 4) (clr : Bool) (tag : BitVec 16),
    let timed (i : Instr) (srcs : List (Src × Nat)) (dsts : List Nat) (P : Act → State → Prop) (E : Act → State → State) : Prop :=
      OnceDoes i s h srcs dsts (fun a b => (b.launchOf a.ref.wg).determ = false ∧ P a b) E ∧
      Traps i s h false (srcs.flatMap (fun e => srcNames e.1 e.2)) (srcs.flatMap (fun e => srcLast e.1 e.2))
        (fun a b => b.wordFault a (srcs.map (·.1)) (oneLane a.low) dsts = none ∧ (b.launchOf a.ref.wg).determ = true) (fun a _ => a.nondet)
    timed (.tick h d) [] [d.toNat, d.toNat + 1] (fun _ _ => True) (fun a b =>
      b.putPair a.ref d.toNat a.lanes (fun _ => BitVec.ofNat 64 b.tick)) ∧
    timed (.ptprd h d) [] ((List.range 4).map (fun j => d.toNat + j)) (fun _ _ => True) (fun a b => b.putQuad a d.toNat b.ptpStamp) ∧
    (∀ w, timed (.stallrd h d k clr) [] [d.toNat] (fun a b => Map.find b.wgs a.ref.wg = some w) (fun a b =>
      let v := b.putAll a d.toNat (w.stalls.toList.getD k.toNat 0)
      if clr then v.modWg a.ref.wg (fun g => { g with stalls := g.stalls.setIfInBounds k.toNat 0 }) else v)) ∧
    (∀ w, timed (.progrWg h d) [] [d.toNat] (fun a b => Map.find b.wgs a.ref.wg = some w) (fun a b =>
      b.putAll a d.toNat ((w.progress + 1) % 2 ^ 32))) ∧
    timed (.progrPark h d x) [(x, 1)] [d.toNat, d.toNat + 1] (fun a b => (b.fib ⟨a.ref.wg, b.low32 a x⟩).isSome = true) (fun a b =>
      b.putPair a.ref d.toNat a.lanes (fun _ => BitVec.ofNat 64 (b.descriptor ⟨a.ref.wg, b.low32 a x⟩))) ∧
    OnceDoes (.trace h x tag) s h [(x, 1)] [] (fun _ _ => True) (fun a b =>
      b.traceAppend (dieOf (b.coreOf a.ref.wg))
        (traceRecord 1 (b.ctxOf a.ref.wg) (b.identity a.ref) a.lanes.toNat b.tick a.pc tag.toNat (b.low32 a x)))

/-! ### Events of a core -/

/-- Waits end and slots switch: a wait that is over ends, a watch that has fired and a retry that is due let their fibre read
again, and a parked fibre that can issue is ready (R94, R95, R224, R270); a switch clears the outgoing fibre's latches and makes
the fibre that has been ready longest current (R32, R94); a load's lanes that left return, and traps are taken (R89, R389). A
barrier's phase completes when every participant's live threads have executed it, and its next phase begins with nobody arrived
(R104, R105); the L1 sends what it fills or writes back, a replica applies the oldest store of its page, and the dirty state
that the TLBs hold is written out (R214, R221, R227, R257). -/
def Obligations.CoreEvents : Prop :=
  (
    (∀ (s : State) (r : FibRef), exec (.fibreReady r) s = .next (s.modFib r (fun g =>
        let h := { g with waits := g.waits.filter (fun w => !(s.waitOver r w.cond)) }
        if h.st = .parked ∧ h.canIssue = true then { h with st := .ready s.tick } else h))) ∧
    (∀ (s : State) (r : FibRef) (e : Nat), s.firedWatch r = some e → ∃ t, exec (.watchFire r) s = .next t ∧
      Map.find (t.core (s.coreOf r.wg)).watches e = none ∧
      ∀ f g, s.fib r = some f → t.fib r = some g →
        (∀ w ∈ g.waits, match w.cond with | .watch (some k) _ _ => k ≠ e | _ => True) ∧ (g.st = f.st ∨ (f.st = .parked ∧ g.st = .ready s.tick))) ∧
    (∀ (s : State) (r : FibRef), s.firedWatch r = none → exec (.watchFire r) s = .next s) ∧
    (∀ (s : State) (r : FibRef), exec (.watchRetry r) s = .next (s.modFib r (fun g =>
      let h := { g with waits := g.waits.filter (fun w =>
        match w.cond with
        | .watch none due _ => decide (s.tick < due)
        | _ => true) }
      if h.st = .parked ∧ h.canIssue = true then { h with st := .ready s.tick } else h))) ∧
    (∀ (s : State) (core k : Nat) (o r : FibRef) (fo fr : Fibre), s.switches core k = true → (s.pslot core k).cur = some o → o ≠ r →
      longestReady ((s.readyIn core k).filter (fun e => some e.2 != some o)) = some r → s.fib o = some fo → s.fib r = some fr → k < 8 →
      ∃ t fo' fr', exec (.slotSwitch core k) s = .next t ∧ (s.forced core k = true → exec (.forcedSwitch core k) s = .next t) ∧
        (t.pslot core k).cur = some r ∧ (t.pslot core k).due = false ∧ t.fib r = some fr' ∧ t.fib o = some fo' ∧
        fr' = { fr with st := .current } ∧ (∀ b : Fin 4, (fo'.latches[b]).2 = 0) ∧ fo'.regs = fo.regs ∧ fo'.pcs = fo.pcs ∧
        (fo.st = .current → fo'.st = if fo.canIssue = true then .ready s.tick else .parked) ∧ t.mem = s.mem ∧ t.scratch = s.scratch) ∧
    (∀ (s : State) (core k : Nat), s.switches core k = false →
      exec (.slotSwitch core k) s = .next s ∧ exec (.forcedSwitch core k) s = .next s) ∧
    (∀ (s : State) (g : Nat), exec (.registerReturn g) s = .next (s.modWg g (fun w => { w with returning := 0 }))) ∧
    (∀ (s : State) (r : FibRef) (t : TrapInfo), ((s.fib r).bind (·.trap) = none → exec (.trapEntry r t) s = .next (s.takeTrap r t)) ∧
      (∀ x, (s.fib r).bind (·.trap) = some x → x.waiting = true → exec (.trapEntry r t) s = .next (s.proceedTrap r)))
  ) ∧
  (
    (∀ (s : State) (k : BarKey), s.phaseComplete k = true → ∃ t, exec (.barrierPhaseComplete k) s = .next t ∧
      t.barrier k = { phase := (s.barrier k).phase + 1 } ∧ (∀ j, j ≠ k → t.barrier j = s.barrier j) ∧ t.mem = s.mem ∧
      t.scratch = s.scratch) ∧
    (∀ (s : State) (k : BarKey), s.phaseComplete k = false → exec (.barrierPhaseComplete k) s = .next s) ∧
    (∀ (s : State) (core line : Nat) (x : L1Line),
      (s.core core).l1.filter (fun y => y.vline == line && y.filling) = [x] →
      exec (.mergingFill core line) s = .next (s.fillLine core x)) ∧
    (∀ (s : State) (core line : Nat), exec (.l1WritebackTimer core line) s = .next
      (s.cleanL1 core (fun x => x.vline == line && x.dirty != 0))) ∧
    (∀ (s : State) (n : Nat) (x : ReplicaStore), s.replicas[n]? = some x →
      let first : Prop := ∀ y ∈ s.replicas.take n, ¬ (y.page.1 < x.page.1 + x.page.2 ∧ x.page.1 < y.page.1 + y.page.2)
      (first → Memory.wf s.mem = true → ∃ t, exec (.replicaApply n) s = .next t ∧ t.replicas = s.replicas.eraseIdx n ∧
        (∀ a, Memory.get t.mem a = match x.cells.reverse.find? (fun c => c.1 == a) with
          | some c => c.2
          | none => Memory.get s.mem a) ∧ t.scratch = s.scratch) ∧
      (¬ first → exec (.replicaApply n) s = .next s)) ∧
    (∀ (s : State), (∀ e ∈ s.tlbs, ∀ x ∈ e.2.entries, x.dirty = false) → ∃ t, exec .dirtyWriteOut s = .next t ∧ t.mem = s.mem) ∧
    (∀ (s : State) (k : Nat) (x : TlbEntry), s.tlbs = [(k, { entries := [x] })] → x.dirty = true → exec .dirtyWriteOut s = .next
      ((s.writeDirty x).modTlb k (fun b => { b with entries := b.entries.map (fun y => { y with dirty := false, setter := [] }) })))
  )

/-- A fibre fetches the three words at its path's address, each translated on its own (R43, R44, R91); an address that is not a
multiple of 4 takes an instruction-fetch trap (R45). A port issues for the slot that it serves, or issues nothing where the issue gate
withholds its opportunity or a governed word stalls (R16, R97). -/
def Obligations.WordsAreFetched : Prop :=
  (∀ (s : State) (r : FibRef) (f : Fibre) (pc : Nat) (m : Mask), s.fib r = some f → f.nextGroup = some (pc, m) →
    (∀ w u, s.fetchWord r pc = (.ok w, u) → exec (.instructionFetch r) s = .next { u with cur := some ⟨r, m, pc, w⟩ }) ∧
    (pc % 4 ≠ 0 →
      let a : Act := ⟨r, m, m, pc, 0, f.govOf m⟩
      exec (.instructionFetch r) s = .next { (s.modFib r (fun g => g.turn m)).takeTrap r (underGov (a.trap 4 0 a.low pc 0) (f.govOf m)) with
        cur := none })) ∧
  (∀ (s u : State) (core port k : Nat) (r : FibRef), s.portSlot core port = some (k, r) →
    let stalled (v : State) : State := { v.modFib r (fun f => { f with stalled := f.stalled + 1 }) with cur := none }
    (s.withheld core r = (true, u) → exec (.issue core port) s = .next (stalled u)) ∧
    (∀ f pc m w v, s.withheld core r = (false, u) → u.fib r = some f → f.nextGroup = some (pc, m) → u.fetchWord r pc = (.ok w, v) →
      let x : State := { v with cur := some ⟨r, m, pc, w⟩ }
      (∀ y, x.stalls core k ⟨r, m, pc, w⟩ = (true, y) → exec (.issue core port) s = .next (stalled (y.yieldSlot r))) ∧
      (∀ y, x.stalls core k ⟨r, m, pc, w⟩ = (false, y) → exec (.issue core port) s = .next (y.modSlot core k (fun p => { p with
        last := some (y.tick, ⟨r, m, pc, w⟩), prev := p.last }))))) ∧
  (∀ (s : State) (core port : Nat), s.portSlot core port = none → exec (.issue core port) s = .next { s with cur := none }) ∧
  (∀ (s : State) (r : FibRef) (pc : Nat) (t0 t1 t2 : TlbEntry) (u0 u1 u2 : State), pc % 4 = 0 → pc + 8 < 2 ^ 64 →
    let core := s.coreOf r.wg
    s.translate (clusterOf core) (s.ctxOf r.wg) pc .fetch = (.ok t0, u0) →
    let meet (t : TlbEntry) (a : Nat) (u : State) : State :=
      (u.countFetch core t a).meetPoison (u.ctxOf r.wg) (dieOf core) (loadFrom t.home (t.pa a) (dieOf core))
    (meet t0 pc u0).translate (clusterOf core) ((meet t0 pc u0).ctxOf r.wg) (pc + 4) .fetch = (.ok t1, u1) →
    (meet t1 (pc + 4) u1).translate (clusterOf core) ((meet t1 (pc + 4) u1).ctxOf r.wg) (pc + 8) .fetch = (.ok t2, u2) →
    let word (t : TlbEntry) (a : Nat) (u : State) : Nat := u.physNum (loadFrom t.home (t.pa a) (dieOf core)) 4
    s.fetchWord r pc = (.ok (BitVec.ofNat 96 (word t0 pc u0 + word t1 (pc + 4) u1 * 2 ^ 32 + word t2 (pc + 8) u2 * 2 ^ 64)),
      meet t2 (pc + 8) u2))

/-! ### Events of the engines, the scheduler and the contexts -/

/-- The copy engine (R301 to R307): a card that may start starts; its next piece is read, some of its bytes are written, and then it is
delivered and counted, the model's three events of one delivery (assumption 87); a card with nothing left is dropped and posts its node;
a piece that faults stops the card with its barrier's fault set. A barrier's phase changes when the expected bytes have arrived, and
bytes beyond them set its fault. -/
def Obligations.CopiesMove : Prop :=
  (∀ (s : State) (core card : Nat) (c : Card), s.card core card = some c →
    ((s.core core).canStart c = true →
      exec (.copyCardStart core card) s = .next (s.modCard core card (fun x => { x with started := true }))) ∧
    (c.started = true → c.done < c.rcd.total →
      (∀ l u, s.pieceRead c = (.ok l, u) → exec (.copyFault core card) s = .next s ∧
        (c.moving = none → exec (.copyDelivery core card) s = .next (u.modCard core card (fun x => { x with moving := some (l, false) }))) ∧
        (∀ old, c.moving = some (old, false) → exec (.copyDelivery core card) s = .next
          (((s.mixBytes old l).2.deliverSome core c (s.mixBytes old l).1).modCard core card (fun x => { x with
            moving := some ((s.mixBytes old l).1, true) }))) ∧
        (∀ old, c.moving = some (old, true) → exec (.copyDelivery core card) s = .next (s.deliver core c old))) ∧
      (∀ e u, s.pieceRead c = (.error e, u) →
        exec (.copyDelivery core card) s = .next s ∧ exec (.copyFault core card) s = .next (u.copyFault core c e.1 e.2))) ∧
    (c.started = true → c.rcd.total ≤ c.done → exec (.copyDelivery core card) s = .next s ∧ exec (.copyFault core card) s = .next s ∧
      exec (.copyComplete core card) s = .next (if c.rcd.nodev then
        (s.dropCard core card).enginePost (dieOf core) c.kick.ctx (mkRef (dieOf core) c.rcd.node) else s.dropCard core card)) ∧
    (c.started = false → exec (.copyDelivery core card) s = .next s ∧ exec (.copyComplete core card) s = .next s ∧
      exec (.copyFault core card) s = .next s)) ∧
  (∀ (s : State) (l m : List Byte), l.length = m.length → (s.mixBytes l m).1.length = l.length ∧
    ∀ i, (s.mixBytes l m).1.getD i 0 = l.getD i 0 ∨ (s.mixBytes l m).1.getD i 0 = m.getD i 0) ∧
  (∀ (b : Stage) (n : Nat), b.phase < 2 →
    (b.arrived + n < b.expected → b.count n = { b with arrived := b.arrived + n }) ∧
    (b.arrived + n = b.expected → b.count n = { b with arrived := 0, expected := 0, phase := 1 - b.phase }) ∧
    (b.expected < b.arrived + n → (b.count n).fault = true ∧ (b.count n).kind = 2 ∧ (b.count n).phase = b.phase))

/-- Frames (R315 to R321): a frame with a bad FCS and one that no rule matches are counted, one whose rule drops it does nothing, and one
that finds no armed slot is counted by its ring; the oldest frame of a port leaves it with its bytes; a frame node offers its frame, or
completes with a record where it may not; a port goes up and down. -/
def Obligations.FramesMove : Prop :=
  (∀ (s : State) (die port : Nat) (l : List Byte),
    exec (.frameReceive die port ⟨false, l⟩) s = .next (s.modNet die (fun n => { n with badFcs := n.badFcs + 1 })) ∧
    (s.findRule die port l = none → exec (.frameReceive die port ⟨true, l⟩) s = .next (s.modNet die (fun n => { n with
      unmatched := (n.unmatched + 1) % 2 ^ 32 }))) ∧
    (∀ i, s.findRule die port l = some i →
      let v := leNat (((s.ruleBytes die i).drop 0x14).take 4)
      (v / 2 ^ 4 % 4 = 0 → exec (.frameReceive die port ⟨true, l⟩) s = .next s) ∧
      (v / 2 ^ 4 % 4 ≠ 0 → (Map.getD (s.die die).net.rings (v % 16) {}).armed = [] → exec (.frameReceive die port ⟨true, l⟩) s = .next
        (s.modRing die (v % 16) (fun x => { x with drops := (x.drops + 1) % 2 ^ 32
                                                   sequence := ((Map.getD (s.die die).net.rings (v % 16) {}).sequence + 1) % 2 ^ 32 }))) ∧
      (v / 2 ^ 4 % 4 ≠ 0 → exec (.frameReceive die port ⟨true, l⟩) s = .next (s.receive die port i (v % 16) l)))) ∧
  (∀ (s : State) (die handle : Nat) (f : TxFrame), (s.die die).net.queue.find? (fun x => x.handle == handle) = some f →
    ((s.die die).net.queue.find? (fun x => x.p1 == f.p1)).map (·.handle) = some handle →
    let down := (s.die die).net.down.contains (bit01 f.p1)
    let t := s.modNet die (fun n => { n with
      queue := n.queue.filter (fun x => x.handle != handle)
      wire := if down then n.wire else Map.set n.wire (bit01 f.p1) (Memory.read s.scratch f.phys f.len)
      handles := if (Map.find n.handles handle).isSome then Map.set n.handles handle
          (if down then { dropped := true } else { sent := true, stamped := f.ts, tick := s.tick, ptp := s.ptpStamp })
        else n.handles })
    exec (.frameSent die handle) s = .next (match f.node with
      | some k => t.unitDone die k
      | none => t)) ∧
  (∀ (s : State) (die node : Nat), s.readyNode die node 4 = false → exec (.frameNodeDispatch die node) s = .next s) ∧
  (∀ (s : State) (die node : Nat), s.readyNode die node 4 = true →
    let x := s.node die node
    let u := s.startNode die node
    let off := x.payload % 2 ^ 20
    let core := die * Config.coresPerDie + x.payload / 2 ^ 20 % 2 ^ 8
    let len := x.payload / 2 ^ 28 % 2 ^ 14
    let inside := u.wgs.find? (fun e => e.2.core == core && u.ctxOf e.1 == x.ctx && decide (e.2.base + 4 ≤ off) &&
      decide (off + len ≤ e.2.base + (u.launch e.2.launch).scratch))
    let granted := u.mayTransmit die x.ctx (bit x.payload 43)
    (∀ e, inside = some e → granted = true →
      let r := u.offer die ⟨0, core, e.1, scratchAddr core off, len, bit x.payload 42, bit x.payload 43, some node⟩
      let v := r.2.2.scratchDeliver none (scratchAddr core (off - 4)) (leBytes 4 (r.1 + 2 ^ 31)) false
      exec (.frameNodeDispatch die node) s = .next (if r.2.1 then v else v.unitDone die node)) ∧
    (inside = none ∨ granted = false → exec (.frameNodeDispatch die node) s = .next ((u.hostEvent 0x4D x.ctx die (mkRef die node)
      ((if inside = none then 1 else 0) + (if granted = false then 2 else 0))).unitDone die node))) ∧
  (∀ (s : State) (die port : Nat), exec (.ethernetLinkChange die port true) s = .next
      (s.modNet die (fun n => { n with down := n.down.filter (· != port) })) ∧
    (port ∈ (s.die die).net.down → exec (.ethernetLinkChange die port false) s = .next (s.modNet die (fun n => n))) ∧
    (port ∉ (s.die die).net.down → exec (.ethernetLinkChange die port false) s = .next
      (s.modNet die (fun n => { n with down := port :: n.down }))))

/-- The task graph and launches: a posted decrement reaches its node unless its context's events wait, a finished node completes, and
the best entry that a die can dispatch is dispatched (R328 to R333); the head of a launch queue starts or is refused (R338 to R340),
what idle cores take is admitted (R86, R88, R335, R346), a work-group that has ended leaves its core, clusters of a
deterministic launch retire in order, and a launch with nothing left to run closes (R341, R344). -/
def Obligations.LaunchesProceed : Prop :=
  (∀ (s : State) (n : Nat) (p : Post), s.posts[n]? = some p →
    (s.eventsWait p.ctx = true → exec (.decrementArrival n) s = .next s) ∧
    (s.eventsWait p.ctx = false →
      exec (.decrementArrival n) s = .next (({ s with posts := s.posts.eraseIdx n }).decrement p.ctx p.ref))) ∧
  (∀ (s : State) (die node : Nat),
    (node ∈ (s.die die).sched.finished → exec (.nodeComplete die node) s = .next ((s.modSched die (fun c => { c with
      finished := c.finished.filter (· != node) })).nodeDone die node)) ∧
    (node ∉ (s.die die).sched.finished → exec (.nodeComplete die node) s = .next s)) ∧
  (∀ (s : State) (die n : Nat) (e : Entry), bestEntry (s.die die).sched.single (s.dispatchable die) = some e → e.work = .node n →
    ((s.node die n).kind = 0 → exec (.seedbedDispatch die) s = .next ((s.startNode die n).nodeDone die n)) ∧
    ((s.node die n).kind ≠ 0 → exec (.seedbedDispatch die) s = .next ((s.startNode die n).modSched die (fun c => { c with
      queue := c.queue ++ [⟨((s.startNode die n).die die).sched.nextSeq, (s.node die n).ctx, (s.node die n).payload, some n, none⟩]
      nextSeq := (((s.startNode die n).die die).sched.nextSeq + 1) % 2 ^ 31 })))) ∧
  (∀ (s : State) (die : Nat), ((s.die die).sched.queue = [] → exec (.launchStart die) s = .next s) ∧
    (∀ r rest l u, (s.die die).sched.queue = r :: rest → s.ctxRuns r.ctx = true →
      (s.modSched die (fun c => { c with queue := rest })).readLaunch die r = (l, u) →
      (l.status ≠ 0 → exec (.launchStart die) s = .next (u.endLaunch l)) ∧
      (l.status = 0 → exec (.launchStart die) s = .next
        (({ u with nextLaunch := u.nextLaunch + 1, launches := Map.set u.launches u.nextLaunch l }).enterClusters u.nextLaunch)))) ∧
  (∀ (s : State) (id : Nat), (s.takersFor id = [] → exec (.workGroupAdmission id) s = .next s) ∧
    (∀ core o p, s.takersFor id = [(core, o, p)] →
      let who := (List.range o.launch.cluster).map (fun i => (i, 0, 0))
      (o.plan = none → exec (.workGroupAdmission id) s = .next ((s.takeEntry o.die o.num).admitCluster o.id o.cluster who p)) ∧
      (∀ ps, o.plan = some ps → exec (.workGroupAdmission id) s = .next
        (let u := s.modLaunch o.id (fun l => { l with unplaced := [] })
        ps.foldl (fun u (e : Nat × Placement) => u.admitCluster o.id e.1 who e.2)
          ((u.waitingOf o.id).foldl (fun u (e : Nat × Nat) => u.takeEntry e.1 e.2) u)))) ∧
    (s.takersFor id ≠ [] → ∃ x ∈ s.takersFor id, ∃ u, (u = s ∨ u = s.draw.2) ∧
      exec (.workGroupAdmission id) s = .next (u.admitOffer x.2.1 x.2.2))) ∧
  (∀ (s : State) (g : Nat), (s.wgEnded g = false → exec (.workGroupComplete g) s = .next s) ∧
    (s.wgEnded g = true → ∃ t, exec (.workGroupComplete g) s = .next t ∧ Map.find t.wgs g = none ∧
      ∀ k, k ≠ g → Map.find t.wgs k = Map.find s.wgs k)) ∧
  (∀ (s : State) (id : Nat) (l : Launch), Map.find s.launches id = some l →
    (l.canRetire = false → exec (.clusterRetire id) s = .next s) ∧
    (∀ q d, l.canRetire = true → l.order[l.retiredTo]? = some (q, d) → exec (.clusterRetire id) s = .next
      (((Map.getD l.held q []).foldl (fun u r => u.ringAppend l.ctx 1 r) s).modLaunch id (fun x => { x with
        retiredTo := x.retiredTo + 1, held := Map.del x.held q
        wgsDone := x.wgsDone + (x.cluster -
          ((Map.getD l.held q []).filter (fun r => leNat (r.take 4) / 2 ^ 8 % 2 ^ 2 == 2)).length) }))) ∧
    (s.launchOver id l = true → exec (.launchComplete id) s = .next (s.closeLaunch id)) ∧
    (s.launchOver id l = false → exec (.launchComplete id) s = .next s)) ∧
  (∀ (s : State) (ctx : Nat), (s.canRelaunch ctx = false → exec (.relaunch ctx) s = .next s) ∧
    (∀ ps x rest, s.canRelaunch ctx = true → s.againGroup ctx = x :: rest → s.againPlan (x :: rest) = some ps →
      exec (.relaunch ctx) s = .next
        ((ps.foldl (fun (u : State) (e : Nat × Placement) => u.admitCluster x.launch e.1
          (((x :: rest).filter (fun y => y.cluster == e.1)).map (fun y => (y.pos, y.attempt, y.forced))) e.2)
          (s.modCtx ctx (fun c => { c with again := c.again.filter (fun y => !((x :: rest).contains y)) }))).modLaunch x.launch (fun l =>
            { l with relaunches := l.relaunches + (rest.length + 1) })))) ∧
  (∀ (s : State) (die cluster : Nat),
    let pool := if cluster < 20 then some (die * 20 + cluster) else none
    (∀ g, s.badGroup die pool = some g → exec (.laneTaskGather die cluster) s = .next
      (g.foldl (fun (v : State) (x : Entry × LaneTask) =>
        (v.takeEntry die x.1.num).hostEvent 0x4E x.2.ctx die x.2.kd (leNat (x.2.arg.take 4))) s)) ∧
    (s.badGroup die pool = none → s.takersFrom die pool = [] → exec (.laneTaskGather die cluster) s = .next s) ∧
    (∀ core o c slots rest base e t more, s.badGroup die pool = none → s.takersFrom die pool = [(core, o, (c, slots) :: rest, base)] →
      o.tasks = (e, t) :: more → exec (.laneTaskGather die cluster) s = .next
        (let v := o.tasks.foldl (fun (v : State) (x : Entry × LaneTask) => v.takeEntry o.die x.1.num) (s.laneKernel o.die t o.cls).2
        let l := { o.launch with die := dieOf core, mask := 2 ^ dieOf core, order := [(0, dieOf core)] }
        let w := ({ v with nextLaunch := v.nextLaunch + 1, launches := Map.set v.launches v.nextLaunch l }).modSched o.die (fun c =>
          { c with gather := (c.gather + 1) % 2 ^ 32 })
        let q := w.admitOne v.nextLaunch o.launch.seq 0 0 (0, 0) core base slots (maskOf (fun i => i < o.tasks.length))
        let z := (o.tasks.mapIdx (fun i x => (i, x.2))).foldl (fun (z : State) (x : Nat × LaneTask) => { z with
          scratch := Memory.write z.scratch (scratchAddr core (base + 64 * x.1)) x.2.arg }) q.2
        z.modFib ⟨q.1, 0⟩ (fun f => { f with
          regs := [(0, lanes (fun i => BitVec.ofNat 32 (64 * i))), (1, splat 0x00FFFE00)]
          task := o.tasks.mapIdx (fun i x => (i, x.2.kd)) }))))

/-- Collectives (R353 to R369): a row that every contribution has sent leaves staging; an operation whose contributions of this
package are all in is reduced and its output delivered; a fault, a conflict or a lost member ends it. Sequences (R375 to R383): a start
node starts its sequence, a stage's inputs are written and its node decremented, the return node takes the outputs, and a sequence
that is due ends. -/
def Obligations.CollectivesAndSequencesProceed : Prop :=
  (∀ (s : State) (die op : Nat) (o : CollOp), s.opAt die op = some o →
    (∀ r, s.readyRow o = some r → exec (.streamRow die op) s = .next (s.modOp die o.ctx o.handle (fun y => { y with
      staged := y.staged.filter (· != r) }))) ∧
    (s.readyRow o = none → exec (.streamRow die op) s = .next s) ∧
    (o.pending = false → exec (.collectiveComplete die op) s = .next s ∧ (∀ k, exec (.collectiveFault die op k) s = .next s ∧
      exec (.collectiveRefused die op k) s = .next s)) ∧
    (∀ l, o.pending = true → s.opFault die o = none → o.out = some l →
      exec (.collectiveComplete die op) s = .next (s.deliverOp die o l)) ∧
    (o.pending = true → s.opFault die o = none → o.out = none → s.cutOff o = true →
      exec (.collectiveComplete die op) s = .next (s.endAll o 3 2)) ∧
    (o.pending = true → s.opFault die o = none → o.out = none → s.cutOff o = false → o.members ≠ [] → s.allIn o = true →
      s.conflict o = none → (∀ e ∈ o.members, e.1 = s.pkg) → exec (.collectiveComplete die op) s = .next (s.draw.2.reduceOp o).2) ∧
    (∀ d x, o.pending = true → s.opFault die o = some (d, x) → exec (.collectiveFault die op 1) s = .next
      ((((s.endEmpty d x 19).hostEvent 0x42 x.ctx d x.handle 19).oweFault x.ctx 0x42).endOthers x [x.index] 3 2)) ∧
    (o.pending = true → o.out = none → exec (.collectiveFault die op 2) s = .next (s.endAll o 3 2) ∧
      (∀ k, s.conflict o = none → exec (.collectiveRefused die op k) s = .next (s.endAll o 2 (if k = 4 then 4 else 2))) ∧
      (∀ k n, s.conflict o = some n → exec (.collectiveRefused die op k) s = .next (s.endAll o 2 n)))) ∧
  (∀ (s : State) (die node : Nat), (s.readyNode die node 3 = false → exec (.collectiveNodeDispatch die node) s = .next s) ∧
    (∀ l u c, s.readyNode die node 3 = true → s.collPlaces die < 64 → (s.node die node).payload % 64 = 0 →
      (s.startNode die node).engineRead die (s.node die node).ctx (s.node die node).payload 64 = (.ok l, u) →
      readColl l = some c → c.sspace = false → c.dspace = false →
      exec (.collectiveNodeDispatch die node) s = .next (u.acceptColl die (s.node die node).ctx c (s.node die node).payload false 0
        (die * Config.coresPerDie) 0 none (some node)).2)) ∧
  (∀ (s : State) (die port : Nat),
    (let u : State := if 4 * die + port ∈ s.linksDown then s else { s with linksDown := (4 * die + port) :: s.linksDown }
    exec (.linkDown die port) s = .next (u.loseMembers (fun _ o => u.cutOff o))) ∧
    (∀ (p : Nat) (joins : Bool),
      let u : State := { s with
        peers := if joins then (if s.peers.contains p || p == s.pkg then s.peers else s.peers ++ [p]) else s.peers.filter (· != p)
        dies := s.dies.map (fun (d, x) => (d, { x with coll := { x.coll with ops := x.coll.ops.map (fun (o : CollOp) =>
          if o.status = 0 ∧ o.desc.stream = true ∧ o.desc.bucket ≠ 0 then { o with fallback := true } else o) } })) }
      exec (.ualinkDomainJoinOrLeave die p joins) s = .next
        (if joins then u else u.loseMembers (fun _ o => o.members.contains (p, die))))) ∧
  (∀ (s : State) (die node : Nat), let x := s.node die node
    (s.readyNode die node 2 = true → bit x.payload 32 = true →
      (∀ e, (s.startNode die node).canStart die x.ctx (x.payload % 2 ^ 32) = .error e →
        exec (.sequenceStartNode die node) s = .next ((s.startNode die node).unitDone die node)) ∧
      (∀ k p tab den ret, (s.startNode die node).canStart die x.ctx (x.payload % 2 ^ 32) = .ok (k, p, tab, den, ret) →
        exec (.sequenceStartNode die node) s = .next
          ((((s.startNode die node).rearmDone die den).rearmDone die ret).startSeq die k none (some node) tab)) ∧
      exec (.returnNodeDispatch die node) s = .next s) ∧
    (s.readyNode die node 2 = true → bit x.payload 32 = false →
      exec (.sequenceStartNode die node) s = .next s ∧
      ((∀ k p, (s.startNode die node).seqNamed die x.ctx (x.payload % 2 ^ 32) = some (k, p) → ¬ (p.state = 1 ∧ p.waiting = true)) →
        exec (.returnNodeDispatch die node) s = .next ((s.startNode die node).unitDone die node)) ∧
      (∀ k p u, (s.startNode die node).seqNamed die x.ctx (x.payload % 2 ^ 32) = some (k, p) → p.state = 1 → p.waiting = true →
        u = ((s.startNode die node).setNode die node { (s.startNode die node).node die node with rearm := true }).modPlace die k (fun q =>
          { q with waiting := false, retNode := some node }) →
        (p.abort = true → exec (.returnNodeDispatch die node) s = .next u) ∧
        (∀ a v, p.abort = false → u.takeOutputs die p = (some a, v) →
          exec (.returnNodeDispatch die node) s = .next (v.modPlace die k (fun q => q.failAt a))) ∧
        (∀ v, p.abort = false → u.takeOutputs die p = (none, v) → p.stage ≠ 0 →
          exec (.returnNodeDispatch die node) s = .next ((v.modPlace die k (fun q => { q with
            samples := if q.stage == 0 then q.samples.mapIdx (fun i y => if q.active.contains i then { y with k0 := true } else y)
              else q.samples })).afterStage die k))))) ∧
  (∀ (s : State) (die place : Nat) (p : SeqPlace), s.seqPlace die place = some p →
    (p.stageDue = false → exec (.stageInputs die place) s = .next s) ∧
    (∀ a u, p.stageDue = true → s.putStageInputs die place p = (some a, u) →
      exec (.stageInputs die place) s = .next (u.modPlace die place (fun q => q.failAt a))) ∧
    (∀ u n x, p.stageDue = true → s.putStageInputs die place p = (none, u) → u.nodeOn die p.ctx p.desc.den = some (n, x) →
      x.kind = 1 → x.usable = true → u.returns die place p = true → p.retNode = none → exec (.stageInputs die place) s = .next
        (((u.rearmDone die n).enginePost die p.ctx p.desc.den).modPlace die place (fun q => { q with waiting := true, retNode := none }))) ∧
    (p.due = none → exec (.sequenceEnd die place) s = .next s) ∧
    (∀ st reason addr, p.due = some (st, reason, addr) → p.desc.doneaddr = 0 →
      exec (.sequenceEnd die place) s = .next (s.endSeq die place p st reason addr)))

/-- Contexts (R399, R400, R406): RUN takes an idle context whose entry is valid, PREEMPT starts its draining with its deadline, a
drained one is written back and reported, a deadline that passes resets its work-groups, RESUME runs a pre-empted one, RESET makes any
idle and a fault makes it faulted; saved work-groups go on together (R403). -/
def Obligations.ContextsChange : Prop :=
  ∀ (s : State) (k : Nat),
    let c := (s.ctx k).load s
    ((s.ctx k).st = .idle → (s.ctx k).entry ≠ 0 → c.valid = true →
      exec (.run k) s = .next (s.modCtx k (fun _ => { c with st := .running, request := false, expires := none }))) ∧
    ((s.ctx k).st ≠ .idle ∨ (s.ctx k).entry = 0 ∨ c.valid = false → exec (.run k) s = .next s) ∧
    ((s.ctx k).st = .running → exec (.preempt k) s = .next (s.modCtx k (fun x => { x with
      st := .draining, request := true
      expires := if (s.ctx k).deadline = 0 then none else some (s.tick + 256 * (s.ctx k).deadline) }))) ∧
    ((s.ctx k).st ≠ .running → exec (.preempt k) s = .next s) ∧
    (s.drained k = true → ∃ t u, exec (.preempted k) s = .next t ∧
      u = (s.writeBackCtx k).modCtx k (fun x => { x with st := .preempted, request := false, expires := none }) ∧
      t = u.hostEvent 0x44 k 0 0 (u.ctx k).energyWord ∧ (u.ctx k).st = .preempted) ∧
    (s.drained k = false → exec (.preempted k) s = .next s) ∧
    ((∀ e, (s.ctx k).expires = some e → s.tick < e) → exec (.deadlineExpiry k) s = .next s) ∧
    (∀ e, (s.ctx k).st = .draining → (s.ctx k).expires = some e → e ≤ s.tick → exec (.deadlineExpiry k) s = .next
      (((s.wgsOf k).foldl (fun u g => u.forceReset g) s).modCtx k (fun x => { x with expires := none }))) ∧
    ((s.ctx k).st = .preempted → c.valid = true → exec (.resume k) s = .next (s.modCtx k (fun _ => { c with st := .running }))) ∧
    ((s.ctx k).st ≠ .preempted → exec (.resume k) s = .next s) ∧
    (∃ t, exec (.reset k) s = .next t ∧ (t.ctx k).st = .idle) ∧
    (∀ n, (s.ctx k).st = .idle ∨ (s.ctx k).st = .faulted → exec (.contextFault k n) s = .next s) ∧
    (∀ n, (s.ctx k).st ≠ .idle → (s.ctx k).st ≠ .faulted → exec (.contextFault k n) s = .next
      (((s.clearCtx k 5).modCtx k (fun x => { x with st := .faulted })).hostEvent 0x45 k 0 n 0)) ∧
    ((s.ctx k).st ≠ .running → exec (.resumeWorkGroup k) s = .next s) ∧
    (∀ x rest, (s.ctx k).st = .running → s.resumeGroup k = x :: rest →
      (∀ y a u, s.readAreas (x :: rest) = (.error (y, a), u) → exec (.resumeWorkGroup k) s = .next (u.failResume y 0x47 a 4)) ∧
      (∀ l u, s.readAreas (x :: rest) = (.ok l, u) → u.resumePlan l true = none → u.resumePlan l false = none →
        exec (.resumeWorkGroup k) s = .next (u.failResume x 0x46 0 2)) ∧
      (∀ l u ps, s.readAreas (x :: rest) = (.ok l, u) → u.resumePlan l true = some ps → exec (.resumeWorkGroup k) s = .next
        (ps.foldl (fun t e => (t.resumeOne e.1 e.2.1 e.2.2.1 e.2.2.2.2 e.2.2.2.1).noteMove u e.1 e.2.2.1)
          (u.modCtx k (fun y => { y with saved := y.saved.filter (fun z => !((x :: rest).contains z)) })))))

/-! ### The host, the management controller, errors and debug -/

/-- Queues (R427 to R429): a tail that is not too far ahead is noted, one too far ahead stops the queue; the entry at the head launches,
decrements or does nothing, and a malformed one is skipped with a record. A masked vector holds its message until it is unmasked
(R430). A write to control registers stores its bytes and acts (R425, R426). W2 reads and writes memory, and reads ones where there is
none (R424). -/
def Obligations.HostActs : Prop :=
  (∀ (s : State) (q : Nat) (tail : Word),
    let u : State := { s with w0 := Memory.put s.w0 (0x20000 + 32 * q + 16) 4 tail.toNat }
    let ahead := (tail.toNat + 2 ^ 32 - u.queueHead q) % 2 ^ 32
    (256 ≤ q ∨ s.queueOn q = false → exec (.queueNotify q tail) s = .next s) ∧
    (q < 256 → s.queueOn q = true → ahead ≤ u.queueSize q → exec (.queueNotify q tail) s = .next u) ∧
    (q < 256 → s.queueOn q = true → u.queueSize q < ahead → exec (.queueNotify q tail) s = .next
      (let stopped := Memory.put u.w0 (0x20000 + 32 * q + 8) 4 (Memory.num u.w0 (0x20000 + 32 * q + 8) 4 - 2 ^ 10)
      ({ u with w0 := Memory.put stopped (0x20000 + 32 * q + 0x14) 4 1 } : State).hostEvent 0x48 (u.queueCtx q) 0 q (tail.toNat + u.queueHead q * 2 ^ 32)))) ∧
  (∀ (s : State) (q : Nat),
    (s.queueEntry q = none → exec (.queueNoOperation q) s = .next s ∧ exec (.queueLaunch q) s = .next s ∧
      exec (.queueNodeDecrement q) s = .next s) ∧
    (∀ e, s.queueEntry q = some e →
      let kind := leNat (e.take 1)
      let arg := leNat ((e.drop 8).take 8)
      let skipped := (s.queuePass q).hostEvent 0x49 (s.queueCtx q) 0 q (s.queueHead q)
      (kind ≠ 1 → kind ≠ 2 → exec (.queueNoOperation q) s = .next (if badQueueEntry e then skipped else s.queuePass q)) ∧
      (kind = 1 → badQueueEntry e = true → exec (.queueLaunch q) s = .next skipped) ∧
      (kind = 1 → badQueueEntry e = false → 64 ≤ (s.die 0).sched.queue.length → exec (.queueLaunch q) s = .next s) ∧
      (kind = 1 → badQueueEntry e = false → (s.die 0).sched.queue.length < 64 → exec (.queueLaunch q) s = .next
        ((s.queuePass q).modSched 0 (fun c => { c with
          queue := c.queue ++ [⟨(s.die 0).sched.nextSeq, s.queueCtx q, arg, none, none⟩]
          nextSeq := ((s.die 0).sched.nextSeq + 1) % 2 ^ 31 }))) ∧
      (kind = 2 → exec (.queueNodeDecrement q) s = .next (if badQueueEntry e then skipped else
        (s.queuePass q).post (s.queueCtx q) arg)))) ∧
  (∀ (s : State) (v : Nat),
    (72 ≤ v → ∀ m, exec (.msiXMasking v m) s = .next s) ∧
    (v < 72 → exec (.msiXMasking v true) s = .next { s with msi := Map.set s.msi v { Map.getD s.msi v {} with masked := true } }) ∧
    (v < 72 →
      let x : MsiVec := Map.getD s.msi v {}
      let y : MsiVec := if x.pending then { x with masked := false, pending := false, sent := x.sent + 1 } else { x with masked := false }
      exec (.msiXMasking v false) s = .next { s with msi := Map.set s.msi v y })) ∧
  (∀ (s : State) (tail : Word), ∃ t, exec (.hostRingTailWrite tail) s = .next t ∧ Memory.num t.w0 0x100C 4 = tail.toNat ∧ t.mem = s.mem) ∧
  (∀ (s : State) (off : Nat) (v : Dword) (size : Nat),
    exec (.controlRegisterWrite off v size) s = .next (s.regWrite off (leBytes (min size 8) v.toNat))) ∧
  (∀ (s : State) (off : Nat) (b : Byte), s.regWritable off = true → 0x300000 ≤ off → off < 0x340000 →
    s.regWrite off [b] = { s with w0 := Memory.set s.w0 off b }) ∧
  (∀ (s : State) (off : Nat) (b : Byte), s.regWritable off = false → off < 0x1000 → s.regWrite off [b] = s) ∧
  (∀ (s : State) (off : Nat) (l : List Byte),
    let there : Prop := off + l.length ≤ 2 ^ 40 ∧ ∀ e ∈ linePieces off l.length, s.paExists e.1 = true
    (there →
      exec (.hostAccess off l false) s = .next { s with reply := s.physRead off l.length } ∧
      exec (.hostAccess off l true) s = .next ((linePieces off l.length).foldl (fun (e : State × Nat) p =>
        ((e.1.ownerWrite (engineOrigin (p.1 / 2 ^ 37)) [p.1] (0, 1) 0 ((l.drop e.2).take p.2)).dropCopies none (p.1 / 128 * 128),
          e.2 + p.2)) (s, 0)).1) ∧
    (¬ there → exec (.hostAccess off l true) s = .next (s.hostEvent 0x4A 0 0 off 1) ∧
      exec (.hostAccess off l false) s = .next { s.hostEvent 0x4A 0 0 off 0 with reply := List.replicate l.length 0xFF }))

/-- The management controller's commands and limits (R16, R431, R432), the power and reset events (R14, R433, R434), errors (R230,
R231) and the requests of a peer package (R219). -/
def Obligations.PackageEvents : Prop :=
  ∀ (s : State),
    (∀ n, n.length = 32 → exec (.attest n) s = .next s.mailReply) ∧
    (∀ n, n.length ≠ 32 → exec (.attest n) s = .next s) ∧
    (∀ w, 600 ≤ w → w ≤ 2400 → exec (.setCap w) s = .next ({ s with cap := w } : State).mailReply) ∧
    (∀ w, w < 600 ∨ 2400 < w → exec (.setCap w) s = .next s.mailReply) ∧
    (∀ u, ∃ t, exec (.retire u) s = .next t ∧ u ∈ t.marked ∧ t.retired = s.retired) ∧
    (∀ w, w ≤ s.cap → exec (.powerCapEnforce w) s = .next { s with capped := false }) ∧
    (∀ w, s.cap < w → s.capped = false → exec (.powerCapEnforce w) s = .next { s with capped := true }) ∧
    (∀ w, s.cap < w → s.capped = true → exec (.powerCapEnforce w) s = .next (s.hostEvent 0x4B 0 0 s.cap w)) ∧
    (∀ d t, t ≤ 1050 → exec (.thermalLimit d t) s = .next { s with hot := s.hot.filter (· != d) }) ∧
    (∀ d t, 1050 < t → exec (.thermalLimit d t) s = .next
      (({ s with hot := d :: s.hot.filter (· != d) } : State).hostEvent 0x4C 0 0 d t)) ∧
    (∀ d t, t < 1200 → exec (.thermalTrip d t) s = .next s) ∧
    (∀ d t, 1200 ≤ t → exec (.thermalTrip d t) s = .next { s with flash := s.flash ++ [(d, t, s.tick)], powered := false }) ∧
    (∃ t, exec .resetRelease s = .next t ∧ t.tick = (if s.ptpLocked then ptpTicks (s.ptpTime + ptpValue s.free) else 0) ∧ t.wgs = [] ∧ t.launches = [] ∧
      t.mem = State.reset.mem ∧ t.powered = State.reset.powered ∧ t.flash = s.flash ∧ t.frozen = false ∧
      (∀ u, u ∈ s.retired ∨ u ∈ s.marked → u ∈ t.retired) ∧ t.marked = []) ∧
    (∀ v, ∃ t, exec (.powerOn v) s = .next t ∧ t.powered = v ∧ t.wgs = [] ∧ t.launches = [] ∧ t.flash = s.flash ∧
      (∀ u, u ∈ s.retired ∨ u ∈ s.marked → u ∈ t.retired)) ∧
    (s.ptpLocked = false → exec (.ptpLock true) s = .next { s.draw.2 with ptpLocked := true, ptpBase := (s.tick, ptpValue s.draw.1) }) ∧
    (s.ptpLocked = true → exec (.ptpLock true) s = .next s) ∧
    exec (.ptpLock false) s = .next { s with ptpLocked := false } ∧
    exec .ptpSteering s = .next s ∧
    (∀ core wg, s.coreOf wg = core →
      exec (.uncorrectableError (.register core wg)) s = .next ((s.noteError (.core core)).killForError wg) ∧
      exec (.scrub core (.reservedBad wg)) s = .next ((s.noteError (.core core)).killForError wg)) ∧
    (∀ core, exec (.scrub core .clean) s = .next s ∧ exec (.scrub core .singleBit) s = .next s ∧
      ∀ n, exec (.scrub core (.freeBad n)) s = .next (s.noteError (.core core))) ∧
    (∀ core line g, (s.noteError (.core core)).regionOwner core line = some g →
      exec (.uncorrectableError (.scratch core line)) s = .next ((s.noteError (.core core)).killForError g)) ∧
    (∀ core line, (s.noteError (.core core)).regionOwner core line = none → exec (.uncorrectableError (.scratch core line)) s = .next
      (let u := s.noteError (.core core)
      { u with scratch := Memory.clear u.scratch (scratchAddr core (128 * line)) 128 })) ∧
    (∀ core asid gen line word,
      let here (x : L1Line) : Bool := x.asid == asid && x.gen == gen && x.vline == line
      let u := (s.noteError (.core core)).modCore core (fun c => { c with l1 := c.l1.map (fun x =>
        if here x then { x with valid := x.valid &&& ~~~(oneLane word), dirty := x.dirty &&& ~~~(oneLane word) } else x) })
      let dirty := ((s.noteError (.core core)).core core).l1.any (fun x => here x && x.dirty.getLsbD word)
      exec (.uncorrectableError (.l1 core asid gen line word)) s = .next (if dirty then
        ((u.wgs.filter (fun e => e.2.core == core && (u.ctx (u.launch e.2.launch).ctx).asid == asid)).map (·.1)).foldl
          (fun v g => v.killForError g) u
      else u)) ∧
    (∀ core phys g, (s.noteError (.core core)).slotHolder core phys = some g →
      exec (.uncorrectableError (.slot core phys)) s = .next ((s.noteError (.core core)).killForError g)) ∧
    (∀ a, ∃ t, exec (.uncorrectableError (.line a)) s = .next t ∧ a / 128 ∈ t.poison ∧ t.mem = s.mem) ∧
    (∀ a l, (s.paExists a = false ∨ 2 ^ 40 ≤ a) → exec (.forwardedAccess .store a l) s = .next s ∧
      (∀ n, exec (.forwardedAccess (.load n) a l) s = .next s) ∧ ∀ op x2, exec (.forwardedAccess (.atomic op x2) a l) s = .next s) ∧
    (∀ a l, s.paExists a = true → a < 2 ^ 40 →
      let put (bytes : List Byte) : State := (s.ownerWrite (engineOrigin (a / 2 ^ 37)) [a] (0, 1) 0 bytes).dropCopies none (a / 128 * 128)
      (∀ n, exec (.forwardedAccess (.load n) a l) s = .next { s with reply := s.physRead a (min n (128 - a % 128)) }) ∧
      exec (.forwardedAccess .store a l) s = .next (put (l.take (128 - a % 128))) ∧
      (∀ op x2,
        let n := if x2 then 8 else 4
        let old := s.physNum a n
        exec (.forwardedAccess (.atomic op x2) a l) s = .next
          { put (leBytes n (atomResult op (8 * n) old (leNat (l.take n)) (leNat ((l.drop n).take n)))) with reply := leBytes n old })) ∧
    (∀ a l c r, exec (.forwardedAccess (.decrement c r) a l) s = .next (s.post c r)) ∧
    (∀ a l c r d n x, s.ownNode c r = some (d, n, x) →
      exec (.forwardedAccess (.stat c r) a l) s = .next { s with reply := leBytes 4 (x.pred + x.init * 2 ^ 16) } ∧
      ∀ free, exec (.forwardedAccess (.rearm c r free) a l) s = .next { (s.rearmNode d n free).2 with
        reply := leBytes 4 (s.rearmNode d n free).1 })

/-- Sampling, breakpoints, the wait-for graph and freezing (R415, R416, R418, R422, R423): a freeze takes place at its tick, which lies
at least 64 ticks ahead of the write or of the pin that asks for it; reading a frozen package, or its observation port, changes
nothing. -/
def Obligations.DebugEvents : Prop :=
  ∀ (s : State),
    (∀ d, exec (.sample d) s = .next (s.draw.2.sampleDie d (Config.freeWord s.draw.1).toNat)) ∧
    (∀ r, s.atBreakpoint r = true → exec (.breakpointResume r) s = .next (s.leaveTrap r false) ∧
      exec (.breakpointKill r) s = .next (s.killWg r.wg 2)) ∧
    (∀ r, s.atBreakpoint r = false → exec (.breakpointResume r) s = .next s ∧ exec (.breakpointKill r) s = .next s) ∧
    (∀ c, graphCycles (s.waitGraph c) = [] → ∃ t, exec (.waitForGraph c) s = .next t ∧ t.mem = s.mem ∧ t.wgs = s.wgs ∧
      ∀ g w, (g, w) ∈ s.wgs → (s.launch w.launch).ctx = c → (Map.find t.progressSeen g).isSome = true) ∧
    (∀ v : Dword, s.frozen = false → v ≠ 0 → exec (.freezeTickWrite v) s = .next { s with
      w0 := Memory.put s.w0 0x1020 8 v.toNat, freezeAt := some (max v.toNat (s.tick + 64)) }) ∧
    (s.frozen = false → exec (.freezeTickWrite 0) s = .next { s with w0 := Memory.put s.w0 0x1020 8 0, freezeAt := none }) ∧
    (s.frozen = false → s.freezePin = none → exec .freezeN s = .next { s with freezePin := some (s.tick + 64) }) ∧
    (s.frozen = true ∨ s.freezePin ≠ none → exec .freezeN s = .next s) ∧
    (∀ t, s.freezeTick = some t → t ≤ s.tick → exec .freeze s = .next { s with frozen := true }) ∧
    (∀ t, s.freezeTick = some t → s.tick < t → exec .freeze s = .next s) ∧
    (s.freezeTick = none → exec .freeze s = .next s) ∧
    exec .freezeReadOut s = .next s ∧ exec .observationPortRead s = .next s

/-! ### Decoding and the step -/

/-- Words written out from the encoding tables: the worked encodings of chapter 2, TICK, and one word of other classes. -/
def Obligations.WorkedWordsDecode : Prop :=
  decode 0x100E41105800005000000000#96 = .ok (.iadd ⟨false, 7, 2, true, false⟩ false (.reg 4 1) (.reg 5 true) (.latch 0) false) ∧
  decode 0x101401807C000000FFFFFFFD#96 = .ok (.iadd ⟨true, 2, 0, false, false⟩ false (.reg 6 0) (.reg 7 false) (.imm 0xFFFFFFFD) false) ∧
  decode 0x000E00000000000000000000#96 = .ok (.nop ⟨false, 7, 0, false, false⟩) ∧
  decode 0xE04E02800000000000000000#96 = .ok (.tick ⟨false, 7, 0, false, false⟩ 10) ∧
  (∀ w : BitVec 96, w.extractLsb' 81 4 = 0b1111#4 → decode w = .ok (.nop Hdr.never))

/-- Every well-formed instruction of a word has an encoding, and decoding its encoding gives it back, with every operand. -/
def Obligations.DecodeUndoesEncode : Prop :=
  ∀ i : Instr, i.wf = true → ∃ w : BitVec 96, encode i = some w ∧ decode w = .ok i

/-- R34: the decoder checks no other field of a (!p7) word, and the word does nothing: its group stands at the next word, and no
register, latch, predicate, flag, last-read mark, delay, switch point or memory changes. -/
def Obligations.NeverGuardedWordsPass : Prop :=
  (∀ f : Fields, f.neg = true → f.gp = 7 → decodeFields f = .ok (.nop Hdr.never)) ∧
  (∀ (s : State) (c : Cur) (f : Fibre), s.cur = some c → (s.settleLoads c.ref).fib c.ref = some f →
    let s0 := s.settleLoads c.ref
    ∃ t g, exec (.nop Hdr.never) s = .next t ∧ t.fib c.ref = some g ∧
      (∀ k, k < 32 → (g.gov.toList.getD k default).n = (f.gov.toList.getD k default).n ∧
        (g.gov.toList.getD k default).left =
          (f.gov.toList.getD k default).left - (if c.lanes.getLsbD k then 1 else 0)) ∧
      (∀ k, k < 32 → g.pcs.toList.getD k 0 = if c.lanes.getLsbD k then (c.pc + 12) % 2 ^ 64 else f.pcs.toList.getD k 0) ∧
      g.regs = f.regs ∧ g.latches = f.latches ∧ g.preds = f.preds ∧ g.fpf = f.fpf ∧ g.released = f.released ∧
      g.undefRead = f.undefRead ∧ g.delayUntil = f.delayUntil ∧ g.live = f.live ∧ g.trap = f.trap ∧ g.queue = f.queue ∧ g.st = f.st ∧
      g.waits = f.waits ∧ t.cores = s0.cores ∧ t.ctxs = s0.ctxs ∧ t.mem = s0.mem ∧ t.scratch = s0.scratch ∧ t.w0 = s0.w0 ∧
      ∀ r, r ≠ c.ref → t.fib r = s0.fib r)

/-- A word whose guard leaves no thread of its group active passes without effect (R33): the group stands at the next word, and no
register, latch, predicate, flag or memory changes. -/
def Obligations.InactiveWordsPass : Prop :=
  ∀ (s : State) (c : Cur) (f : Fibre) (h : Hdr) (d : Dst) (x y : Src) (size : Size) (hint : CacheHint) (off : BitVec 32),
    s.cur = some c → (s.settleLoads c.ref).fib c.ref = some f → h ≠ Hdr.never → f.acting h c = 0 →
    let passes (i : Instr) (ends : Bool) (reads last : List Nat) (pj : Nat) : Prop :=
      exec i s = .next (((s.settleLoads c.ref).begun f h ends reads last c).finish h (f.actOf h ends c) pj)
    passes (.nop h) true [] [] 6 ∧ passes (.bra h off) true [] [] 6 ∧ passes (.exit h) true [] [] 6 ∧
    passes (.st h x y size hint off) false (srcNames x 2 ++ srcNames y size.regs) (srcLast x 2 ++ srcLast y size.regs) 6 ∧
    passes (.mov h false d x false) false ((wide false x).names ++ absent.names ++ absent.names)
      ((wide false x).last ++ absent.last ++ absent.last) 6 ∧
    (∃ t, exec (.mov h false d x false) s = .next t ∧ Calm (s.settleLoads c.ref) t c.ref ∧
      (t.fib c.ref).map (·.preds) = some f.preds ∧ (t.fib c.ref).map (·.latches) = some f.latches ∧
      (t.fib c.ref).map (·.fpf) = some f.fpf)

/-- One step. Where the only thing that can happen is that a port issues, the step runs the instruction that the fetched word
decodes to, or takes the illegal-instruction trap of its subcode, and then time passes; where several things can happen, one of them
does, and where one has waited for the longest that any may, it is one that has waited longest. A frozen package takes only the events that reach it, and a package without power only its power-on (R91, R422, R423). -/
def Obligations.StepRunsTheDecodedWord : Prop :=
  (∀ (s v : State) (core port : Nat) (c : Cur), s.powered = true → s.frozen = false → s.actions = [.issue core port] →
    exec (.issue core port) s.noneDeferred = .next v → v.cur = some c →
    (∀ i, decode c.bits = .ok i → step s = timed (exec i v)) ∧
    (∀ sub f, decode c.bits = .error sub → v.fib c.ref = some f →
      let a : Act := ⟨c.ref, c.lanes &&& (if (Fields.ofWord c.bits).neg then ~~~(f.pred (Fields.ofWord c.bits).gp)
        else f.pred (Fields.ofWord c.bits).gp), c.lanes, c.pc, c.bits, ⟨0, 0, 0⟩⟩
      step s = .next (((v.modFib c.ref (fun f => f.turn c.lanes)).takeTrap c.ref
        (underGov (a.illegal sub) (f.govOf c.lanes))).passTime 0))) ∧
  (∀ (s v : State) (core port : Nat), s.powered = true → s.frozen = false → s.actions = [.issue core port] →
    exec (.issue core port) s.noneDeferred = .next v → v.cur = none → step s = .next (v.passTime 0)) ∧
  (∀ (t : State), timed (.next t) = .next (t.passTime 0)) ∧
  (∀ (s : State) (a b : Action) (l : List Action), s.powered = true → s.frozen = false → s.actions = a :: b :: l →
    ∃ x ∈ a :: b :: l, step s = timed ((s.draw.2.defer (a :: b :: l) x).perform x) ∧
      ((∃ y ∈ a :: b :: l, Config.patience ≤ s.waited y) → ∀ y ∈ a :: b :: l, s.waited y ≤ s.waited x)) ∧
  (∀ (s : State), s.powered = true → s.frozen = false → s.actions = [] → step s = .next (s.passTime 1)) ∧
  (∀ (s : State) (i : Instr), s.powered = true → s.frozen = false → s.actions = [.event i] →
    step s = timed (exec i s.noneDeferred)) ∧
  (∀ (s : State), s.powered = true → s.frozen = true → s.inputs = [] → step s = .next s) ∧
  (∀ (s : State) (i : Instr) (rest : List Instr), s.powered = true → s.frozen = true → s.inputs = i :: rest →
    (whileFrozen i = true → step s = exec i { s with inputs := rest }) ∧
    (whileFrozen i = false → step s = .next { s with inputs := rest })) ∧
  (∀ (s : State), s.powered = false → s.inputs = [] → step s = .fault .unpowered) ∧
  (∀ (s : State) (i : Instr) (rest : List Instr), s.powered = false → s.inputs = i :: rest →
    (whileOff i = true → step s = exec i { s with inputs := rest }) ∧
    (whileOff i = false → step s = .next { s with inputs := rest }))

/-- Every step keeps `Settled`: from every state, the freeze is never missed (R422). -/
def Obligations.EveryStepKeepsSettled : Prop :=
  ∀ s t : State, Settled s → step s = .next t → Settled t

/-- After reset: nothing is resident, nothing is queued, the freeze register is 0, no unit is retired, the power cap is 2,400 W,
the control registers and the memory read 0, and `Settled` holds. That memory and registers without a stated reset value read 0, and the value of the cap, is
the model's choice (log entries 7 and 22). -/
def Obligations.AfterReset : Prop :=
  Settled State.reset ∧ State.reset.tick = 0 ∧ State.reset.frozen = false ∧ State.reset.freezeTick = none ∧
  State.reset.wgs = [] ∧ State.reset.launches = [] ∧ State.reset.inputs = [] ∧ State.reset.posts = [] ∧
  (∀ k, (State.reset.ctx k).st = .idle) ∧ (∀ k, State.reset.die k = {}) ∧ State.reset.cap = 2400 ∧
  (∀ a, Memory.get State.reset.mem a = 0 ∧ Memory.get State.reset.scratch a = 0 ∧ Memory.get State.reset.w0 a = 0) ∧
  Memory.wf State.reset.mem = true ∧ Memory.wf State.reset.scratch = true ∧ Memory.wf State.reset.w0 = true
end

