-- ==== Sys2Proof/Laws/Map.lean ====
section
/-! SUPPORT. The laws of the finite map and of lane vectors. -/

namespace Sys2Proof

variable {α : Type}

@[simp] theorem Map.find_nil (k : Nat) : Map.find ([] : Map α) k = none := rfl

theorem Map.find_cons (e : Nat × α) (m : Map α) (k : Nat) :
    Map.find (e :: m) k = if e.1 == k then some e.2 else Map.find m k := by
  simp only [Map.find, List.find?_cons]
  cases e.1 == k <;> rfl

@[simp] theorem Map.find_set_same (m : Map α) (k : Nat) (v : α) : Map.find (Map.set m k v) k = some v := by
  induction m with
  | nil => simp [Map.set, Map.find_cons]
  | cons e m ih =>
    by_cases h : (e.1 == k) = true
    · simp [Map.set, h, Map.find_cons]
    · simp only [Map.set, h]; simpa [Map.find_cons, h] using ih

theorem Map.find_set_other (m : Map α) {k j : Nat} (v : α) (h : j ≠ k) : Map.find (Map.set m k v) j = Map.find m j := by
  induction m with
  | nil => simp [Map.set, Map.find_cons, Ne.symm h]
  | cons e m ih =>
    by_cases hk : (e.1 == k) = true
    · have : e.1 ≠ j := fun hj => h (hj.symm.trans (beq_iff_eq.1 hk))
      simp [Map.set, hk, Map.find_cons, Ne.symm h, this]
    · simp only [Map.set, hk, Map.find_cons]; simp [Map.find_cons, ih]

theorem Map.find_set (m : Map α) (k j : Nat) (v : α) :
    Map.find (Map.set m k v) j = if j = k then some v else Map.find m j := by
  by_cases h : j = k
  · subst h; simp
  · simp [h, Map.find_set_other m v h]

theorem Map.find_modify (m : Map α) (k j : Nat) (f : α → α) :
    Map.find (Map.modify m k f) j = if j = k then (Map.find m j).map f else Map.find m j := by
  induction m with
  | nil => simp [Map.modify]
  | cons e m ih =>
    have hc : Map.modify (e :: m) k f = (if e.1 == k then (k, f e.2) else e) :: Map.modify m k f := rfl
    rw [hc, Map.find_cons, Map.find_cons]
    by_cases hk : e.1 = k <;> by_cases hj : j = k
    · subst hk; subst hj; simp
    · subst hk; have : ¬ e.1 = j := fun h => hj h.symm
      simp [this, hj]; simpa [hj] using ih
    · subst hj; simp [hk]; simpa using ih
    · simp [hk, hj]; split <;> simp_all

theorem Map.find_del (m : Map α) (k j : Nat) : Map.find (Map.del m k) j = if j = k then none else Map.find m j := by
  induction m with
  | nil => simp [Map.del]
  | cons e m ih =>
    by_cases hk : e.1 = k
    · have : Map.del (e :: m) k = Map.del m k := by simp [Map.del, hk]
      rw [this, ih, Map.find_cons]
      by_cases hj : j = k
      · simp [hj]
      · have : ¬ e.1 = j := fun h => hj (h.symm.trans hk)
        simp [hj, this]
    · have : Map.del (e :: m) k = e :: Map.del m k := by simp [Map.del, hk]
      rw [this, Map.find_cons, Map.find_cons, ih]
      by_cases hj : j = k
      · subst hj; simp [hk]
      · simp [hj]

@[simp] theorem Map.getD_set_same (m : Map α) (k : Nat) (v d : α) : Map.getD (Map.set m k v) k d = v := by
  simp [Map.getD]

theorem Map.getD_set (m : Map α) (k j : Nat) (v d : α) :
    Map.getD (Map.set m k v) j d = if j = k then v else Map.getD m j d := by
  simp only [Map.getD, Map.find_set]; split <;> rfl

/-! ### Lanes -/

@[simp] theorem lane_splat (w : Word) {i : Nat} (h : i < 32) : lane (splat w) i = w := by
  have : (splat w).toList = List.replicate 32 w := by simp [splat, Vector.toList_replicate]
  simp only [lane, this]
  rw [List.getD_eq_getElem?_getD, List.getElem?_replicate]; simp [h]

theorem lane_lanes (f : Nat → Word) {i : Nat} (h : i < 32) : lane (lanes f) i = f i := by
  simp [lane, lanes, h]

theorem mem_lanesOf (m : Mask) (i : Nat) : i ∈ lanesOf m ↔ i < 32 ∧ m.getLsbD i = true := by
  simp [lanesOf]

theorem lanesOf_zero : lanesOf 0 = [] := by decide

/-- A mask that is not empty has a thread. -/
theorem exists_lane (m : Mask) (h : m ≠ 0) : ∃ i, i < 32 ∧ m.getLsbD i = true := by
  by_contra hc
  push Not at hc
  apply h
  apply BitVec.eq_of_getLsbD_eq
  intro i hi
  have := hc i hi
  simp_all

end Sys2Proof
end

