-- ==== Sys2Proof/Laws/State.lean ====
section
/-! SUPPORT. Every field of the package's state after every named update of it: true by unfolding, so that no proof unfolds an
update. -/

namespace Sys2Proof.Machine

/-! ### State.modWg -/

@[simp] theorem modWg_tick (s : State) (g : Nat) (f : WorkGroup → WorkGroup) : (s.modWg g f).tick = s.tick := rfl
@[simp] theorem modWg_free (s : State) (g : Nat) (f : WorkGroup → WorkGroup) : (s.modWg g f).free = s.free := rfl
@[simp] theorem modWg_cur (s : State) (g : Nat) (f : WorkGroup → WorkGroup) : (s.modWg g f).cur = s.cur := rfl
@[simp] theorem modWg_inputs (s : State) (g : Nat) (f : WorkGroup → WorkGroup) : (s.modWg g f).inputs = s.inputs := rfl
@[simp] theorem modWg_todo (s : State) (g : Nat) (f : WorkGroup → WorkGroup) : (s.modWg g f).todo = s.todo := rfl
@[simp] theorem modWg_dies (s : State) (g : Nat) (f : WorkGroup → WorkGroup) : (s.modWg g f).dies = s.dies := rfl
@[simp] theorem modWg_posts (s : State) (g : Nat) (f : WorkGroup → WorkGroup) : (s.modWg g f).posts = s.posts := rfl
@[simp] theorem modWg_ctxs (s : State) (g : Nat) (f : WorkGroup → WorkGroup) : (s.modWg g f).ctxs = s.ctxs := rfl
@[simp] theorem modWg_launches (s : State) (g : Nat) (f : WorkGroup → WorkGroup) : (s.modWg g f).launches = s.launches := rfl
@[simp] theorem modWg_wgs (s : State) (g : Nat) (f : WorkGroup → WorkGroup) : (s.modWg g f).wgs = Map.modify s.wgs g f := rfl
@[simp] theorem modWg_nextWg (s : State) (g : Nat) (f : WorkGroup → WorkGroup) : (s.modWg g f).nextWg = s.nextWg := rfl
@[simp] theorem modWg_cores (s : State) (g : Nat) (f : WorkGroup → WorkGroup) : (s.modWg g f).cores = s.cores := rfl
@[simp] theorem modWg_tlbs (s : State) (g : Nat) (f : WorkGroup → WorkGroup) : (s.modWg g f).tlbs = s.tlbs := rfl
@[simp] theorem modWg_mem (s : State) (g : Nat) (f : WorkGroup → WorkGroup) : (s.modWg g f).mem = s.mem := rfl
@[simp] theorem modWg_scratch (s : State) (g : Nat) (f : WorkGroup → WorkGroup) : (s.modWg g f).scratch = s.scratch := rfl
@[simp] theorem modWg_records (s : State) (g : Nat) (f : WorkGroup → WorkGroup) : (s.modWg g f).records = s.records := rfl
@[simp] theorem modWg_pins (s : State) (g : Nat) (f : WorkGroup → WorkGroup) : (s.modWg g f).pins = s.pins := rfl
@[simp] theorem modWg_poison (s : State) (g : Nat) (f : WorkGroup → WorkGroup) : (s.modWg g f).poison = s.poison := rfl
@[simp] theorem modWg_barriers (s : State) (g : Nat) (f : WorkGroup → WorkGroup) : (s.modWg g f).barriers = s.barriers := rfl
@[simp] theorem modWg_replicas (s : State) (g : Nat) (f : WorkGroup → WorkGroup) : (s.modWg g f).replicas = s.replicas := rfl
@[simp] theorem modWg_w0 (s : State) (g : Nat) (f : WorkGroup → WorkGroup) : (s.modWg g f).w0 = s.w0 := rfl
@[simp] theorem modWg_hostSeq (s : State) (g : Nat) (f : WorkGroup → WorkGroup) : (s.modWg g f).hostSeq = s.hostSeq := rfl
@[simp] theorem modWg_msi (s : State) (g : Nat) (f : WorkGroup → WorkGroup) : (s.modWg g f).msi = s.msi := rfl
@[simp] theorem modWg_powered (s : State) (g : Nat) (f : WorkGroup → WorkGroup) : (s.modWg g f).powered = s.powered := rfl
@[simp] theorem modWg_deferred (s : State) (g : Nat) (f : WorkGroup → WorkGroup) : (s.modWg g f).deferred = s.deferred := rfl
@[simp] theorem modWg_collEnds (s : State) (g : Nat) (f : WorkGroup → WorkGroup) : (s.modWg g f).collEnds = s.collEnds := rfl
@[simp] theorem modWg_ptpBase (s : State) (g : Nat) (f : WorkGroup → WorkGroup) : (s.modWg g f).ptpBase = s.ptpBase := rfl
@[simp] theorem modWg_pkg (s : State) (g : Nat) (f : WorkGroup → WorkGroup) : (s.modWg g f).pkg = s.pkg := rfl
@[simp] theorem modWg_peers (s : State) (g : Nat) (f : WorkGroup → WorkGroup) : (s.modWg g f).peers = s.peers := rfl
@[simp] theorem modWg_retired (s : State) (g : Nat) (f : WorkGroup → WorkGroup) : (s.modWg g f).retired = s.retired := rfl
@[simp] theorem modWg_marked (s : State) (g : Nat) (f : WorkGroup → WorkGroup) : (s.modWg g f).marked = s.marked := rfl
@[simp] theorem modWg_errors (s : State) (g : Nat) (f : WorkGroup → WorkGroup) : (s.modWg g f).errors = s.errors := rfl
@[simp] theorem modWg_nextLaunch (s : State) (g : Nat) (f : WorkGroup → WorkGroup) : (s.modWg g f).nextLaunch = s.nextLaunch := rfl
@[simp] theorem modWg_flushed (s : State) (g : Nat) (f : WorkGroup → WorkGroup) : (s.modWg g f).flushed = s.flushed := rfl
@[simp] theorem modWg_linksDown (s : State) (g : Nat) (f : WorkGroup → WorkGroup) : (s.modWg g f).linksDown = s.linksDown := rfl
@[simp] theorem modWg_ptpLocked (s : State) (g : Nat) (f : WorkGroup → WorkGroup) : (s.modWg g f).ptpLocked = s.ptpLocked := rfl
@[simp] theorem modWg_tickPtp (s : State) (g : Nat) (f : WorkGroup → WorkGroup) : (s.modWg g f).tickPtp = s.tickPtp := rfl
@[simp] theorem modWg_cap (s : State) (g : Nat) (f : WorkGroup → WorkGroup) : (s.modWg g f).cap = s.cap := rfl
@[simp] theorem modWg_capped (s : State) (g : Nat) (f : WorkGroup → WorkGroup) : (s.modWg g f).capped = s.capped := rfl
@[simp] theorem modWg_hot (s : State) (g : Nat) (f : WorkGroup → WorkGroup) : (s.modWg g f).hot = s.hot := rfl
@[simp] theorem modWg_flash (s : State) (g : Nat) (f : WorkGroup → WorkGroup) : (s.modWg g f).flash = s.flash := rfl
@[simp] theorem modWg_regWrites (s : State) (g : Nat) (f : WorkGroup → WorkGroup) : (s.modWg g f).regWrites = s.regWrites := rfl
@[simp] theorem modWg_reply (s : State) (g : Nat) (f : WorkGroup → WorkGroup) : (s.modWg g f).reply = s.reply := rfl
@[simp] theorem modWg_freezeAt (s : State) (g : Nat) (f : WorkGroup → WorkGroup) : (s.modWg g f).freezeAt = s.freezeAt := rfl
@[simp] theorem modWg_freezePin (s : State) (g : Nat) (f : WorkGroup → WorkGroup) : (s.modWg g f).freezePin = s.freezePin := rfl
@[simp] theorem modWg_frozen (s : State) (g : Nat) (f : WorkGroup → WorkGroup) : (s.modWg g f).frozen = s.frozen := rfl
@[simp] theorem modWg_progressSeen (s : State) (g : Nat) (f : WorkGroup → WorkGroup) : (s.modWg g f).progressSeen = s.progressSeen := rfl

/-! ### State.setFib -/

@[simp] theorem setFib_tick (s : State) (r : FibRef) (f : Fibre) : (s.setFib r f).tick = s.tick := rfl
@[simp] theorem setFib_free (s : State) (r : FibRef) (f : Fibre) : (s.setFib r f).free = s.free := rfl
@[simp] theorem setFib_cur (s : State) (r : FibRef) (f : Fibre) : (s.setFib r f).cur = s.cur := rfl
@[simp] theorem setFib_inputs (s : State) (r : FibRef) (f : Fibre) : (s.setFib r f).inputs = s.inputs := rfl
@[simp] theorem setFib_todo (s : State) (r : FibRef) (f : Fibre) : (s.setFib r f).todo = s.todo := rfl
@[simp] theorem setFib_dies (s : State) (r : FibRef) (f : Fibre) : (s.setFib r f).dies = s.dies := rfl
@[simp] theorem setFib_posts (s : State) (r : FibRef) (f : Fibre) : (s.setFib r f).posts = s.posts := rfl
@[simp] theorem setFib_ctxs (s : State) (r : FibRef) (f : Fibre) : (s.setFib r f).ctxs = s.ctxs := rfl
@[simp] theorem setFib_launches (s : State) (r : FibRef) (f : Fibre) : (s.setFib r f).launches = s.launches := rfl
@[simp] theorem setFib_wgs (s : State) (r : FibRef) (f : Fibre) : (s.setFib r f).wgs = Map.modify s.wgs r.wg (fun w => { w with fibres := Map.set w.fibres r.fib f }) := rfl
@[simp] theorem setFib_nextWg (s : State) (r : FibRef) (f : Fibre) : (s.setFib r f).nextWg = s.nextWg := rfl
@[simp] theorem setFib_cores (s : State) (r : FibRef) (f : Fibre) : (s.setFib r f).cores = s.cores := rfl
@[simp] theorem setFib_tlbs (s : State) (r : FibRef) (f : Fibre) : (s.setFib r f).tlbs = s.tlbs := rfl
@[simp] theorem setFib_mem (s : State) (r : FibRef) (f : Fibre) : (s.setFib r f).mem = s.mem := rfl
@[simp] theorem setFib_scratch (s : State) (r : FibRef) (f : Fibre) : (s.setFib r f).scratch = s.scratch := rfl
@[simp] theorem setFib_records (s : State) (r : FibRef) (f : Fibre) : (s.setFib r f).records = s.records := rfl
@[simp] theorem setFib_pins (s : State) (r : FibRef) (f : Fibre) : (s.setFib r f).pins = s.pins := rfl
@[simp] theorem setFib_poison (s : State) (r : FibRef) (f : Fibre) : (s.setFib r f).poison = s.poison := rfl
@[simp] theorem setFib_barriers (s : State) (r : FibRef) (f : Fibre) : (s.setFib r f).barriers = s.barriers := rfl
@[simp] theorem setFib_replicas (s : State) (r : FibRef) (f : Fibre) : (s.setFib r f).replicas = s.replicas := rfl
@[simp] theorem setFib_w0 (s : State) (r : FibRef) (f : Fibre) : (s.setFib r f).w0 = s.w0 := rfl
@[simp] theorem setFib_hostSeq (s : State) (r : FibRef) (f : Fibre) : (s.setFib r f).hostSeq = s.hostSeq := rfl
@[simp] theorem setFib_msi (s : State) (r : FibRef) (f : Fibre) : (s.setFib r f).msi = s.msi := rfl
@[simp] theorem setFib_powered (s : State) (r : FibRef) (f : Fibre) : (s.setFib r f).powered = s.powered := rfl
@[simp] theorem setFib_deferred (s : State) (r : FibRef) (f : Fibre) : (s.setFib r f).deferred = s.deferred := rfl
@[simp] theorem setFib_collEnds (s : State) (r : FibRef) (f : Fibre) : (s.setFib r f).collEnds = s.collEnds := rfl
@[simp] theorem setFib_ptpBase (s : State) (r : FibRef) (f : Fibre) : (s.setFib r f).ptpBase = s.ptpBase := rfl
@[simp] theorem setFib_pkg (s : State) (r : FibRef) (f : Fibre) : (s.setFib r f).pkg = s.pkg := rfl
@[simp] theorem setFib_peers (s : State) (r : FibRef) (f : Fibre) : (s.setFib r f).peers = s.peers := rfl
@[simp] theorem setFib_retired (s : State) (r : FibRef) (f : Fibre) : (s.setFib r f).retired = s.retired := rfl
@[simp] theorem setFib_marked (s : State) (r : FibRef) (f : Fibre) : (s.setFib r f).marked = s.marked := rfl
@[simp] theorem setFib_errors (s : State) (r : FibRef) (f : Fibre) : (s.setFib r f).errors = s.errors := rfl
@[simp] theorem setFib_nextLaunch (s : State) (r : FibRef) (f : Fibre) : (s.setFib r f).nextLaunch = s.nextLaunch := rfl
@[simp] theorem setFib_flushed (s : State) (r : FibRef) (f : Fibre) : (s.setFib r f).flushed = s.flushed := rfl
@[simp] theorem setFib_linksDown (s : State) (r : FibRef) (f : Fibre) : (s.setFib r f).linksDown = s.linksDown := rfl
@[simp] theorem setFib_ptpLocked (s : State) (r : FibRef) (f : Fibre) : (s.setFib r f).ptpLocked = s.ptpLocked := rfl
@[simp] theorem setFib_tickPtp (s : State) (r : FibRef) (f : Fibre) : (s.setFib r f).tickPtp = s.tickPtp := rfl
@[simp] theorem setFib_cap (s : State) (r : FibRef) (f : Fibre) : (s.setFib r f).cap = s.cap := rfl
@[simp] theorem setFib_capped (s : State) (r : FibRef) (f : Fibre) : (s.setFib r f).capped = s.capped := rfl
@[simp] theorem setFib_hot (s : State) (r : FibRef) (f : Fibre) : (s.setFib r f).hot = s.hot := rfl
@[simp] theorem setFib_flash (s : State) (r : FibRef) (f : Fibre) : (s.setFib r f).flash = s.flash := rfl
@[simp] theorem setFib_regWrites (s : State) (r : FibRef) (f : Fibre) : (s.setFib r f).regWrites = s.regWrites := rfl
@[simp] theorem setFib_reply (s : State) (r : FibRef) (f : Fibre) : (s.setFib r f).reply = s.reply := rfl
@[simp] theorem setFib_freezeAt (s : State) (r : FibRef) (f : Fibre) : (s.setFib r f).freezeAt = s.freezeAt := rfl
@[simp] theorem setFib_freezePin (s : State) (r : FibRef) (f : Fibre) : (s.setFib r f).freezePin = s.freezePin := rfl
@[simp] theorem setFib_frozen (s : State) (r : FibRef) (f : Fibre) : (s.setFib r f).frozen = s.frozen := rfl
@[simp] theorem setFib_progressSeen (s : State) (r : FibRef) (f : Fibre) : (s.setFib r f).progressSeen = s.progressSeen := rfl

/-! ### State.modFib -/

@[simp] theorem modFib_tick (s : State) (r : FibRef) (f : Fibre → Fibre) : (s.modFib r f).tick = s.tick := rfl
@[simp] theorem modFib_free (s : State) (r : FibRef) (f : Fibre → Fibre) : (s.modFib r f).free = s.free := rfl
@[simp] theorem modFib_cur (s : State) (r : FibRef) (f : Fibre → Fibre) : (s.modFib r f).cur = s.cur := rfl
@[simp] theorem modFib_inputs (s : State) (r : FibRef) (f : Fibre → Fibre) : (s.modFib r f).inputs = s.inputs := rfl
@[simp] theorem modFib_todo (s : State) (r : FibRef) (f : Fibre → Fibre) : (s.modFib r f).todo = s.todo := rfl
@[simp] theorem modFib_dies (s : State) (r : FibRef) (f : Fibre → Fibre) : (s.modFib r f).dies = s.dies := rfl
@[simp] theorem modFib_posts (s : State) (r : FibRef) (f : Fibre → Fibre) : (s.modFib r f).posts = s.posts := rfl
@[simp] theorem modFib_ctxs (s : State) (r : FibRef) (f : Fibre → Fibre) : (s.modFib r f).ctxs = s.ctxs := rfl
@[simp] theorem modFib_launches (s : State) (r : FibRef) (f : Fibre → Fibre) : (s.modFib r f).launches = s.launches := rfl
@[simp] theorem modFib_wgs (s : State) (r : FibRef) (f : Fibre → Fibre) : (s.modFib r f).wgs = Map.modify s.wgs r.wg (fun w => { w with fibres := Map.modify w.fibres r.fib f }) := rfl
@[simp] theorem modFib_nextWg (s : State) (r : FibRef) (f : Fibre → Fibre) : (s.modFib r f).nextWg = s.nextWg := rfl
@[simp] theorem modFib_cores (s : State) (r : FibRef) (f : Fibre → Fibre) : (s.modFib r f).cores = s.cores := rfl
@[simp] theorem modFib_tlbs (s : State) (r : FibRef) (f : Fibre → Fibre) : (s.modFib r f).tlbs = s.tlbs := rfl
@[simp] theorem modFib_mem (s : State) (r : FibRef) (f : Fibre → Fibre) : (s.modFib r f).mem = s.mem := rfl
@[simp] theorem modFib_scratch (s : State) (r : FibRef) (f : Fibre → Fibre) : (s.modFib r f).scratch = s.scratch := rfl
@[simp] theorem modFib_records (s : State) (r : FibRef) (f : Fibre → Fibre) : (s.modFib r f).records = s.records := rfl
@[simp] theorem modFib_pins (s : State) (r : FibRef) (f : Fibre → Fibre) : (s.modFib r f).pins = s.pins := rfl
@[simp] theorem modFib_poison (s : State) (r : FibRef) (f : Fibre → Fibre) : (s.modFib r f).poison = s.poison := rfl
@[simp] theorem modFib_barriers (s : State) (r : FibRef) (f : Fibre → Fibre) : (s.modFib r f).barriers = s.barriers := rfl
@[simp] theorem modFib_replicas (s : State) (r : FibRef) (f : Fibre → Fibre) : (s.modFib r f).replicas = s.replicas := rfl
@[simp] theorem modFib_w0 (s : State) (r : FibRef) (f : Fibre → Fibre) : (s.modFib r f).w0 = s.w0 := rfl
@[simp] theorem modFib_hostSeq (s : State) (r : FibRef) (f : Fibre → Fibre) : (s.modFib r f).hostSeq = s.hostSeq := rfl
@[simp] theorem modFib_msi (s : State) (r : FibRef) (f : Fibre → Fibre) : (s.modFib r f).msi = s.msi := rfl
@[simp] theorem modFib_powered (s : State) (r : FibRef) (f : Fibre → Fibre) : (s.modFib r f).powered = s.powered := rfl
@[simp] theorem modFib_deferred (s : State) (r : FibRef) (f : Fibre → Fibre) : (s.modFib r f).deferred = s.deferred := rfl
@[simp] theorem modFib_collEnds (s : State) (r : FibRef) (f : Fibre → Fibre) : (s.modFib r f).collEnds = s.collEnds := rfl
@[simp] theorem modFib_ptpBase (s : State) (r : FibRef) (f : Fibre → Fibre) : (s.modFib r f).ptpBase = s.ptpBase := rfl
@[simp] theorem modFib_pkg (s : State) (r : FibRef) (f : Fibre → Fibre) : (s.modFib r f).pkg = s.pkg := rfl
@[simp] theorem modFib_peers (s : State) (r : FibRef) (f : Fibre → Fibre) : (s.modFib r f).peers = s.peers := rfl
@[simp] theorem modFib_retired (s : State) (r : FibRef) (f : Fibre → Fibre) : (s.modFib r f).retired = s.retired := rfl
@[simp] theorem modFib_marked (s : State) (r : FibRef) (f : Fibre → Fibre) : (s.modFib r f).marked = s.marked := rfl
@[simp] theorem modFib_errors (s : State) (r : FibRef) (f : Fibre → Fibre) : (s.modFib r f).errors = s.errors := rfl
@[simp] theorem modFib_nextLaunch (s : State) (r : FibRef) (f : Fibre → Fibre) : (s.modFib r f).nextLaunch = s.nextLaunch := rfl
@[simp] theorem modFib_flushed (s : State) (r : FibRef) (f : Fibre → Fibre) : (s.modFib r f).flushed = s.flushed := rfl
@[simp] theorem modFib_linksDown (s : State) (r : FibRef) (f : Fibre → Fibre) : (s.modFib r f).linksDown = s.linksDown := rfl
@[simp] theorem modFib_ptpLocked (s : State) (r : FibRef) (f : Fibre → Fibre) : (s.modFib r f).ptpLocked = s.ptpLocked := rfl
@[simp] theorem modFib_tickPtp (s : State) (r : FibRef) (f : Fibre → Fibre) : (s.modFib r f).tickPtp = s.tickPtp := rfl
@[simp] theorem modFib_cap (s : State) (r : FibRef) (f : Fibre → Fibre) : (s.modFib r f).cap = s.cap := rfl
@[simp] theorem modFib_capped (s : State) (r : FibRef) (f : Fibre → Fibre) : (s.modFib r f).capped = s.capped := rfl
@[simp] theorem modFib_hot (s : State) (r : FibRef) (f : Fibre → Fibre) : (s.modFib r f).hot = s.hot := rfl
@[simp] theorem modFib_flash (s : State) (r : FibRef) (f : Fibre → Fibre) : (s.modFib r f).flash = s.flash := rfl
@[simp] theorem modFib_regWrites (s : State) (r : FibRef) (f : Fibre → Fibre) : (s.modFib r f).regWrites = s.regWrites := rfl
@[simp] theorem modFib_reply (s : State) (r : FibRef) (f : Fibre → Fibre) : (s.modFib r f).reply = s.reply := rfl
@[simp] theorem modFib_freezeAt (s : State) (r : FibRef) (f : Fibre → Fibre) : (s.modFib r f).freezeAt = s.freezeAt := rfl
@[simp] theorem modFib_freezePin (s : State) (r : FibRef) (f : Fibre → Fibre) : (s.modFib r f).freezePin = s.freezePin := rfl
@[simp] theorem modFib_frozen (s : State) (r : FibRef) (f : Fibre → Fibre) : (s.modFib r f).frozen = s.frozen := rfl
@[simp] theorem modFib_progressSeen (s : State) (r : FibRef) (f : Fibre → Fibre) : (s.modFib r f).progressSeen = s.progressSeen := rfl

/-! ### State.modCore -/

@[simp] theorem modCore_tick (s : State) (k : Nat) (f : Core → Core) : (s.modCore k f).tick = s.tick := rfl
@[simp] theorem modCore_free (s : State) (k : Nat) (f : Core → Core) : (s.modCore k f).free = s.free := rfl
@[simp] theorem modCore_cur (s : State) (k : Nat) (f : Core → Core) : (s.modCore k f).cur = s.cur := rfl
@[simp] theorem modCore_inputs (s : State) (k : Nat) (f : Core → Core) : (s.modCore k f).inputs = s.inputs := rfl
@[simp] theorem modCore_todo (s : State) (k : Nat) (f : Core → Core) : (s.modCore k f).todo = s.todo := rfl
@[simp] theorem modCore_dies (s : State) (k : Nat) (f : Core → Core) : (s.modCore k f).dies = s.dies := rfl
@[simp] theorem modCore_posts (s : State) (k : Nat) (f : Core → Core) : (s.modCore k f).posts = s.posts := rfl
@[simp] theorem modCore_ctxs (s : State) (k : Nat) (f : Core → Core) : (s.modCore k f).ctxs = s.ctxs := rfl
@[simp] theorem modCore_launches (s : State) (k : Nat) (f : Core → Core) : (s.modCore k f).launches = s.launches := rfl
@[simp] theorem modCore_wgs (s : State) (k : Nat) (f : Core → Core) : (s.modCore k f).wgs = s.wgs := rfl
@[simp] theorem modCore_nextWg (s : State) (k : Nat) (f : Core → Core) : (s.modCore k f).nextWg = s.nextWg := rfl
@[simp] theorem modCore_cores (s : State) (k : Nat) (f : Core → Core) : (s.modCore k f).cores = Map.set s.cores k (f (s.core k)) := rfl
@[simp] theorem modCore_tlbs (s : State) (k : Nat) (f : Core → Core) : (s.modCore k f).tlbs = s.tlbs := rfl
@[simp] theorem modCore_mem (s : State) (k : Nat) (f : Core → Core) : (s.modCore k f).mem = s.mem := rfl
@[simp] theorem modCore_scratch (s : State) (k : Nat) (f : Core → Core) : (s.modCore k f).scratch = s.scratch := rfl
@[simp] theorem modCore_records (s : State) (k : Nat) (f : Core → Core) : (s.modCore k f).records = s.records := rfl
@[simp] theorem modCore_pins (s : State) (k : Nat) (f : Core → Core) : (s.modCore k f).pins = s.pins := rfl
@[simp] theorem modCore_poison (s : State) (k : Nat) (f : Core → Core) : (s.modCore k f).poison = s.poison := rfl
@[simp] theorem modCore_barriers (s : State) (k : Nat) (f : Core → Core) : (s.modCore k f).barriers = s.barriers := rfl
@[simp] theorem modCore_replicas (s : State) (k : Nat) (f : Core → Core) : (s.modCore k f).replicas = s.replicas := rfl
@[simp] theorem modCore_w0 (s : State) (k : Nat) (f : Core → Core) : (s.modCore k f).w0 = s.w0 := rfl
@[simp] theorem modCore_hostSeq (s : State) (k : Nat) (f : Core → Core) : (s.modCore k f).hostSeq = s.hostSeq := rfl
@[simp] theorem modCore_msi (s : State) (k : Nat) (f : Core → Core) : (s.modCore k f).msi = s.msi := rfl
@[simp] theorem modCore_powered (s : State) (k : Nat) (f : Core → Core) : (s.modCore k f).powered = s.powered := rfl
@[simp] theorem modCore_deferred (s : State) (k : Nat) (f : Core → Core) : (s.modCore k f).deferred = s.deferred := rfl
@[simp] theorem modCore_collEnds (s : State) (k : Nat) (f : Core → Core) : (s.modCore k f).collEnds = s.collEnds := rfl
@[simp] theorem modCore_ptpBase (s : State) (k : Nat) (f : Core → Core) : (s.modCore k f).ptpBase = s.ptpBase := rfl
@[simp] theorem modCore_pkg (s : State) (k : Nat) (f : Core → Core) : (s.modCore k f).pkg = s.pkg := rfl
@[simp] theorem modCore_peers (s : State) (k : Nat) (f : Core → Core) : (s.modCore k f).peers = s.peers := rfl
@[simp] theorem modCore_retired (s : State) (k : Nat) (f : Core → Core) : (s.modCore k f).retired = s.retired := rfl
@[simp] theorem modCore_marked (s : State) (k : Nat) (f : Core → Core) : (s.modCore k f).marked = s.marked := rfl
@[simp] theorem modCore_errors (s : State) (k : Nat) (f : Core → Core) : (s.modCore k f).errors = s.errors := rfl
@[simp] theorem modCore_nextLaunch (s : State) (k : Nat) (f : Core → Core) : (s.modCore k f).nextLaunch = s.nextLaunch := rfl
@[simp] theorem modCore_flushed (s : State) (k : Nat) (f : Core → Core) : (s.modCore k f).flushed = s.flushed := rfl
@[simp] theorem modCore_linksDown (s : State) (k : Nat) (f : Core → Core) : (s.modCore k f).linksDown = s.linksDown := rfl
@[simp] theorem modCore_ptpLocked (s : State) (k : Nat) (f : Core → Core) : (s.modCore k f).ptpLocked = s.ptpLocked := rfl
@[simp] theorem modCore_tickPtp (s : State) (k : Nat) (f : Core → Core) : (s.modCore k f).tickPtp = s.tickPtp := rfl
@[simp] theorem modCore_cap (s : State) (k : Nat) (f : Core → Core) : (s.modCore k f).cap = s.cap := rfl
@[simp] theorem modCore_capped (s : State) (k : Nat) (f : Core → Core) : (s.modCore k f).capped = s.capped := rfl
@[simp] theorem modCore_hot (s : State) (k : Nat) (f : Core → Core) : (s.modCore k f).hot = s.hot := rfl
@[simp] theorem modCore_flash (s : State) (k : Nat) (f : Core → Core) : (s.modCore k f).flash = s.flash := rfl
@[simp] theorem modCore_regWrites (s : State) (k : Nat) (f : Core → Core) : (s.modCore k f).regWrites = s.regWrites := rfl
@[simp] theorem modCore_reply (s : State) (k : Nat) (f : Core → Core) : (s.modCore k f).reply = s.reply := rfl
@[simp] theorem modCore_freezeAt (s : State) (k : Nat) (f : Core → Core) : (s.modCore k f).freezeAt = s.freezeAt := rfl
@[simp] theorem modCore_freezePin (s : State) (k : Nat) (f : Core → Core) : (s.modCore k f).freezePin = s.freezePin := rfl
@[simp] theorem modCore_frozen (s : State) (k : Nat) (f : Core → Core) : (s.modCore k f).frozen = s.frozen := rfl
@[simp] theorem modCore_progressSeen (s : State) (k : Nat) (f : Core → Core) : (s.modCore k f).progressSeen = s.progressSeen := rfl

/-! ### State.modTlb -/

@[simp] theorem modTlb_tick (s : State) (k : Nat) (f : Tlb → Tlb) : (s.modTlb k f).tick = s.tick := rfl
@[simp] theorem modTlb_free (s : State) (k : Nat) (f : Tlb → Tlb) : (s.modTlb k f).free = s.free := rfl
@[simp] theorem modTlb_cur (s : State) (k : Nat) (f : Tlb → Tlb) : (s.modTlb k f).cur = s.cur := rfl
@[simp] theorem modTlb_inputs (s : State) (k : Nat) (f : Tlb → Tlb) : (s.modTlb k f).inputs = s.inputs := rfl
@[simp] theorem modTlb_todo (s : State) (k : Nat) (f : Tlb → Tlb) : (s.modTlb k f).todo = s.todo := rfl
@[simp] theorem modTlb_dies (s : State) (k : Nat) (f : Tlb → Tlb) : (s.modTlb k f).dies = s.dies := rfl
@[simp] theorem modTlb_posts (s : State) (k : Nat) (f : Tlb → Tlb) : (s.modTlb k f).posts = s.posts := rfl
@[simp] theorem modTlb_ctxs (s : State) (k : Nat) (f : Tlb → Tlb) : (s.modTlb k f).ctxs = s.ctxs := rfl
@[simp] theorem modTlb_launches (s : State) (k : Nat) (f : Tlb → Tlb) : (s.modTlb k f).launches = s.launches := rfl
@[simp] theorem modTlb_wgs (s : State) (k : Nat) (f : Tlb → Tlb) : (s.modTlb k f).wgs = s.wgs := rfl
@[simp] theorem modTlb_nextWg (s : State) (k : Nat) (f : Tlb → Tlb) : (s.modTlb k f).nextWg = s.nextWg := rfl
@[simp] theorem modTlb_cores (s : State) (k : Nat) (f : Tlb → Tlb) : (s.modTlb k f).cores = s.cores := rfl
@[simp] theorem modTlb_tlbs (s : State) (k : Nat) (f : Tlb → Tlb) : (s.modTlb k f).tlbs = Map.set s.tlbs k (f (s.tlb k)) := rfl
@[simp] theorem modTlb_mem (s : State) (k : Nat) (f : Tlb → Tlb) : (s.modTlb k f).mem = s.mem := rfl
@[simp] theorem modTlb_scratch (s : State) (k : Nat) (f : Tlb → Tlb) : (s.modTlb k f).scratch = s.scratch := rfl
@[simp] theorem modTlb_records (s : State) (k : Nat) (f : Tlb → Tlb) : (s.modTlb k f).records = s.records := rfl
@[simp] theorem modTlb_pins (s : State) (k : Nat) (f : Tlb → Tlb) : (s.modTlb k f).pins = s.pins := rfl
@[simp] theorem modTlb_poison (s : State) (k : Nat) (f : Tlb → Tlb) : (s.modTlb k f).poison = s.poison := rfl
@[simp] theorem modTlb_barriers (s : State) (k : Nat) (f : Tlb → Tlb) : (s.modTlb k f).barriers = s.barriers := rfl
@[simp] theorem modTlb_replicas (s : State) (k : Nat) (f : Tlb → Tlb) : (s.modTlb k f).replicas = s.replicas := rfl
@[simp] theorem modTlb_w0 (s : State) (k : Nat) (f : Tlb → Tlb) : (s.modTlb k f).w0 = s.w0 := rfl
@[simp] theorem modTlb_hostSeq (s : State) (k : Nat) (f : Tlb → Tlb) : (s.modTlb k f).hostSeq = s.hostSeq := rfl
@[simp] theorem modTlb_msi (s : State) (k : Nat) (f : Tlb → Tlb) : (s.modTlb k f).msi = s.msi := rfl
@[simp] theorem modTlb_powered (s : State) (k : Nat) (f : Tlb → Tlb) : (s.modTlb k f).powered = s.powered := rfl
@[simp] theorem modTlb_deferred (s : State) (k : Nat) (f : Tlb → Tlb) : (s.modTlb k f).deferred = s.deferred := rfl
@[simp] theorem modTlb_collEnds (s : State) (k : Nat) (f : Tlb → Tlb) : (s.modTlb k f).collEnds = s.collEnds := rfl
@[simp] theorem modTlb_ptpBase (s : State) (k : Nat) (f : Tlb → Tlb) : (s.modTlb k f).ptpBase = s.ptpBase := rfl
@[simp] theorem modTlb_pkg (s : State) (k : Nat) (f : Tlb → Tlb) : (s.modTlb k f).pkg = s.pkg := rfl
@[simp] theorem modTlb_peers (s : State) (k : Nat) (f : Tlb → Tlb) : (s.modTlb k f).peers = s.peers := rfl
@[simp] theorem modTlb_retired (s : State) (k : Nat) (f : Tlb → Tlb) : (s.modTlb k f).retired = s.retired := rfl
@[simp] theorem modTlb_marked (s : State) (k : Nat) (f : Tlb → Tlb) : (s.modTlb k f).marked = s.marked := rfl
@[simp] theorem modTlb_errors (s : State) (k : Nat) (f : Tlb → Tlb) : (s.modTlb k f).errors = s.errors := rfl
@[simp] theorem modTlb_nextLaunch (s : State) (k : Nat) (f : Tlb → Tlb) : (s.modTlb k f).nextLaunch = s.nextLaunch := rfl
@[simp] theorem modTlb_flushed (s : State) (k : Nat) (f : Tlb → Tlb) : (s.modTlb k f).flushed = s.flushed := rfl
@[simp] theorem modTlb_linksDown (s : State) (k : Nat) (f : Tlb → Tlb) : (s.modTlb k f).linksDown = s.linksDown := rfl
@[simp] theorem modTlb_ptpLocked (s : State) (k : Nat) (f : Tlb → Tlb) : (s.modTlb k f).ptpLocked = s.ptpLocked := rfl
@[simp] theorem modTlb_tickPtp (s : State) (k : Nat) (f : Tlb → Tlb) : (s.modTlb k f).tickPtp = s.tickPtp := rfl
@[simp] theorem modTlb_cap (s : State) (k : Nat) (f : Tlb → Tlb) : (s.modTlb k f).cap = s.cap := rfl
@[simp] theorem modTlb_capped (s : State) (k : Nat) (f : Tlb → Tlb) : (s.modTlb k f).capped = s.capped := rfl
@[simp] theorem modTlb_hot (s : State) (k : Nat) (f : Tlb → Tlb) : (s.modTlb k f).hot = s.hot := rfl
@[simp] theorem modTlb_flash (s : State) (k : Nat) (f : Tlb → Tlb) : (s.modTlb k f).flash = s.flash := rfl
@[simp] theorem modTlb_regWrites (s : State) (k : Nat) (f : Tlb → Tlb) : (s.modTlb k f).regWrites = s.regWrites := rfl
@[simp] theorem modTlb_reply (s : State) (k : Nat) (f : Tlb → Tlb) : (s.modTlb k f).reply = s.reply := rfl
@[simp] theorem modTlb_freezeAt (s : State) (k : Nat) (f : Tlb → Tlb) : (s.modTlb k f).freezeAt = s.freezeAt := rfl
@[simp] theorem modTlb_freezePin (s : State) (k : Nat) (f : Tlb → Tlb) : (s.modTlb k f).freezePin = s.freezePin := rfl
@[simp] theorem modTlb_frozen (s : State) (k : Nat) (f : Tlb → Tlb) : (s.modTlb k f).frozen = s.frozen := rfl
@[simp] theorem modTlb_progressSeen (s : State) (k : Nat) (f : Tlb → Tlb) : (s.modTlb k f).progressSeen = s.progressSeen := rfl

/-! ### State.modCtx -/

@[simp] theorem modCtx_tick (s : State) (k : Nat) (f : Context → Context) : (s.modCtx k f).tick = s.tick := rfl
@[simp] theorem modCtx_free (s : State) (k : Nat) (f : Context → Context) : (s.modCtx k f).free = s.free := rfl
@[simp] theorem modCtx_cur (s : State) (k : Nat) (f : Context → Context) : (s.modCtx k f).cur = s.cur := rfl
@[simp] theorem modCtx_inputs (s : State) (k : Nat) (f : Context → Context) : (s.modCtx k f).inputs = s.inputs := rfl
@[simp] theorem modCtx_todo (s : State) (k : Nat) (f : Context → Context) : (s.modCtx k f).todo = s.todo := rfl
@[simp] theorem modCtx_dies (s : State) (k : Nat) (f : Context → Context) : (s.modCtx k f).dies = s.dies := rfl
@[simp] theorem modCtx_posts (s : State) (k : Nat) (f : Context → Context) : (s.modCtx k f).posts = s.posts := rfl
@[simp] theorem modCtx_ctxs (s : State) (k : Nat) (f : Context → Context) : (s.modCtx k f).ctxs = Map.set s.ctxs k (f (s.ctx k)) := rfl
@[simp] theorem modCtx_launches (s : State) (k : Nat) (f : Context → Context) : (s.modCtx k f).launches = s.launches := rfl
@[simp] theorem modCtx_wgs (s : State) (k : Nat) (f : Context → Context) : (s.modCtx k f).wgs = s.wgs := rfl
@[simp] theorem modCtx_nextWg (s : State) (k : Nat) (f : Context → Context) : (s.modCtx k f).nextWg = s.nextWg := rfl
@[simp] theorem modCtx_cores (s : State) (k : Nat) (f : Context → Context) : (s.modCtx k f).cores = s.cores := rfl
@[simp] theorem modCtx_tlbs (s : State) (k : Nat) (f : Context → Context) : (s.modCtx k f).tlbs = s.tlbs := rfl
@[simp] theorem modCtx_mem (s : State) (k : Nat) (f : Context → Context) : (s.modCtx k f).mem = s.mem := rfl
@[simp] theorem modCtx_scratch (s : State) (k : Nat) (f : Context → Context) : (s.modCtx k f).scratch = s.scratch := rfl
@[simp] theorem modCtx_records (s : State) (k : Nat) (f : Context → Context) : (s.modCtx k f).records = s.records := rfl
@[simp] theorem modCtx_pins (s : State) (k : Nat) (f : Context → Context) : (s.modCtx k f).pins = s.pins := rfl
@[simp] theorem modCtx_poison (s : State) (k : Nat) (f : Context → Context) : (s.modCtx k f).poison = s.poison := rfl
@[simp] theorem modCtx_barriers (s : State) (k : Nat) (f : Context → Context) : (s.modCtx k f).barriers = s.barriers := rfl
@[simp] theorem modCtx_replicas (s : State) (k : Nat) (f : Context → Context) : (s.modCtx k f).replicas = s.replicas := rfl
@[simp] theorem modCtx_w0 (s : State) (k : Nat) (f : Context → Context) : (s.modCtx k f).w0 = s.w0 := rfl
@[simp] theorem modCtx_hostSeq (s : State) (k : Nat) (f : Context → Context) : (s.modCtx k f).hostSeq = s.hostSeq := rfl
@[simp] theorem modCtx_msi (s : State) (k : Nat) (f : Context → Context) : (s.modCtx k f).msi = s.msi := rfl
@[simp] theorem modCtx_powered (s : State) (k : Nat) (f : Context → Context) : (s.modCtx k f).powered = s.powered := rfl
@[simp] theorem modCtx_deferred (s : State) (k : Nat) (f : Context → Context) : (s.modCtx k f).deferred = s.deferred := rfl
@[simp] theorem modCtx_collEnds (s : State) (k : Nat) (f : Context → Context) : (s.modCtx k f).collEnds = s.collEnds := rfl
@[simp] theorem modCtx_ptpBase (s : State) (k : Nat) (f : Context → Context) : (s.modCtx k f).ptpBase = s.ptpBase := rfl
@[simp] theorem modCtx_pkg (s : State) (k : Nat) (f : Context → Context) : (s.modCtx k f).pkg = s.pkg := rfl
@[simp] theorem modCtx_peers (s : State) (k : Nat) (f : Context → Context) : (s.modCtx k f).peers = s.peers := rfl
@[simp] theorem modCtx_retired (s : State) (k : Nat) (f : Context → Context) : (s.modCtx k f).retired = s.retired := rfl
@[simp] theorem modCtx_marked (s : State) (k : Nat) (f : Context → Context) : (s.modCtx k f).marked = s.marked := rfl
@[simp] theorem modCtx_errors (s : State) (k : Nat) (f : Context → Context) : (s.modCtx k f).errors = s.errors := rfl
@[simp] theorem modCtx_nextLaunch (s : State) (k : Nat) (f : Context → Context) : (s.modCtx k f).nextLaunch = s.nextLaunch := rfl
@[simp] theorem modCtx_flushed (s : State) (k : Nat) (f : Context → Context) : (s.modCtx k f).flushed = s.flushed := rfl
@[simp] theorem modCtx_linksDown (s : State) (k : Nat) (f : Context → Context) : (s.modCtx k f).linksDown = s.linksDown := rfl
@[simp] theorem modCtx_ptpLocked (s : State) (k : Nat) (f : Context → Context) : (s.modCtx k f).ptpLocked = s.ptpLocked := rfl
@[simp] theorem modCtx_tickPtp (s : State) (k : Nat) (f : Context → Context) : (s.modCtx k f).tickPtp = s.tickPtp := rfl
@[simp] theorem modCtx_cap (s : State) (k : Nat) (f : Context → Context) : (s.modCtx k f).cap = s.cap := rfl
@[simp] theorem modCtx_capped (s : State) (k : Nat) (f : Context → Context) : (s.modCtx k f).capped = s.capped := rfl
@[simp] theorem modCtx_hot (s : State) (k : Nat) (f : Context → Context) : (s.modCtx k f).hot = s.hot := rfl
@[simp] theorem modCtx_flash (s : State) (k : Nat) (f : Context → Context) : (s.modCtx k f).flash = s.flash := rfl
@[simp] theorem modCtx_regWrites (s : State) (k : Nat) (f : Context → Context) : (s.modCtx k f).regWrites = s.regWrites := rfl
@[simp] theorem modCtx_reply (s : State) (k : Nat) (f : Context → Context) : (s.modCtx k f).reply = s.reply := rfl
@[simp] theorem modCtx_freezeAt (s : State) (k : Nat) (f : Context → Context) : (s.modCtx k f).freezeAt = s.freezeAt := rfl
@[simp] theorem modCtx_freezePin (s : State) (k : Nat) (f : Context → Context) : (s.modCtx k f).freezePin = s.freezePin := rfl
@[simp] theorem modCtx_frozen (s : State) (k : Nat) (f : Context → Context) : (s.modCtx k f).frozen = s.frozen := rfl
@[simp] theorem modCtx_progressSeen (s : State) (k : Nat) (f : Context → Context) : (s.modCtx k f).progressSeen = s.progressSeen := rfl

/-! ### State.modLaunch -/

@[simp] theorem modLaunch_tick (s : State) (k : Nat) (f : Launch → Launch) : (s.modLaunch k f).tick = s.tick := rfl
@[simp] theorem modLaunch_free (s : State) (k : Nat) (f : Launch → Launch) : (s.modLaunch k f).free = s.free := rfl
@[simp] theorem modLaunch_cur (s : State) (k : Nat) (f : Launch → Launch) : (s.modLaunch k f).cur = s.cur := rfl
@[simp] theorem modLaunch_inputs (s : State) (k : Nat) (f : Launch → Launch) : (s.modLaunch k f).inputs = s.inputs := rfl
@[simp] theorem modLaunch_todo (s : State) (k : Nat) (f : Launch → Launch) : (s.modLaunch k f).todo = s.todo := rfl
@[simp] theorem modLaunch_dies (s : State) (k : Nat) (f : Launch → Launch) : (s.modLaunch k f).dies = s.dies := rfl
@[simp] theorem modLaunch_posts (s : State) (k : Nat) (f : Launch → Launch) : (s.modLaunch k f).posts = s.posts := rfl
@[simp] theorem modLaunch_ctxs (s : State) (k : Nat) (f : Launch → Launch) : (s.modLaunch k f).ctxs = s.ctxs := rfl
@[simp] theorem modLaunch_launches (s : State) (k : Nat) (f : Launch → Launch) : (s.modLaunch k f).launches = Map.set s.launches k (f (s.launch k)) := rfl
@[simp] theorem modLaunch_wgs (s : State) (k : Nat) (f : Launch → Launch) : (s.modLaunch k f).wgs = s.wgs := rfl
@[simp] theorem modLaunch_nextWg (s : State) (k : Nat) (f : Launch → Launch) : (s.modLaunch k f).nextWg = s.nextWg := rfl
@[simp] theorem modLaunch_cores (s : State) (k : Nat) (f : Launch → Launch) : (s.modLaunch k f).cores = s.cores := rfl
@[simp] theorem modLaunch_tlbs (s : State) (k : Nat) (f : Launch → Launch) : (s.modLaunch k f).tlbs = s.tlbs := rfl
@[simp] theorem modLaunch_mem (s : State) (k : Nat) (f : Launch → Launch) : (s.modLaunch k f).mem = s.mem := rfl
@[simp] theorem modLaunch_scratch (s : State) (k : Nat) (f : Launch → Launch) : (s.modLaunch k f).scratch = s.scratch := rfl
@[simp] theorem modLaunch_records (s : State) (k : Nat) (f : Launch → Launch) : (s.modLaunch k f).records = s.records := rfl
@[simp] theorem modLaunch_pins (s : State) (k : Nat) (f : Launch → Launch) : (s.modLaunch k f).pins = s.pins := rfl
@[simp] theorem modLaunch_poison (s : State) (k : Nat) (f : Launch → Launch) : (s.modLaunch k f).poison = s.poison := rfl
@[simp] theorem modLaunch_barriers (s : State) (k : Nat) (f : Launch → Launch) : (s.modLaunch k f).barriers = s.barriers := rfl
@[simp] theorem modLaunch_replicas (s : State) (k : Nat) (f : Launch → Launch) : (s.modLaunch k f).replicas = s.replicas := rfl
@[simp] theorem modLaunch_w0 (s : State) (k : Nat) (f : Launch → Launch) : (s.modLaunch k f).w0 = s.w0 := rfl
@[simp] theorem modLaunch_hostSeq (s : State) (k : Nat) (f : Launch → Launch) : (s.modLaunch k f).hostSeq = s.hostSeq := rfl
@[simp] theorem modLaunch_msi (s : State) (k : Nat) (f : Launch → Launch) : (s.modLaunch k f).msi = s.msi := rfl
@[simp] theorem modLaunch_powered (s : State) (k : Nat) (f : Launch → Launch) : (s.modLaunch k f).powered = s.powered := rfl
@[simp] theorem modLaunch_deferred (s : State) (k : Nat) (f : Launch → Launch) : (s.modLaunch k f).deferred = s.deferred := rfl
@[simp] theorem modLaunch_collEnds (s : State) (k : Nat) (f : Launch → Launch) : (s.modLaunch k f).collEnds = s.collEnds := rfl
@[simp] theorem modLaunch_ptpBase (s : State) (k : Nat) (f : Launch → Launch) : (s.modLaunch k f).ptpBase = s.ptpBase := rfl
@[simp] theorem modLaunch_pkg (s : State) (k : Nat) (f : Launch → Launch) : (s.modLaunch k f).pkg = s.pkg := rfl
@[simp] theorem modLaunch_peers (s : State) (k : Nat) (f : Launch → Launch) : (s.modLaunch k f).peers = s.peers := rfl
@[simp] theorem modLaunch_retired (s : State) (k : Nat) (f : Launch → Launch) : (s.modLaunch k f).retired = s.retired := rfl
@[simp] theorem modLaunch_marked (s : State) (k : Nat) (f : Launch → Launch) : (s.modLaunch k f).marked = s.marked := rfl
@[simp] theorem modLaunch_errors (s : State) (k : Nat) (f : Launch → Launch) : (s.modLaunch k f).errors = s.errors := rfl
@[simp] theorem modLaunch_nextLaunch (s : State) (k : Nat) (f : Launch → Launch) : (s.modLaunch k f).nextLaunch = s.nextLaunch := rfl
@[simp] theorem modLaunch_flushed (s : State) (k : Nat) (f : Launch → Launch) : (s.modLaunch k f).flushed = s.flushed := rfl
@[simp] theorem modLaunch_linksDown (s : State) (k : Nat) (f : Launch → Launch) : (s.modLaunch k f).linksDown = s.linksDown := rfl
@[simp] theorem modLaunch_ptpLocked (s : State) (k : Nat) (f : Launch → Launch) : (s.modLaunch k f).ptpLocked = s.ptpLocked := rfl
@[simp] theorem modLaunch_tickPtp (s : State) (k : Nat) (f : Launch → Launch) : (s.modLaunch k f).tickPtp = s.tickPtp := rfl
@[simp] theorem modLaunch_cap (s : State) (k : Nat) (f : Launch → Launch) : (s.modLaunch k f).cap = s.cap := rfl
@[simp] theorem modLaunch_capped (s : State) (k : Nat) (f : Launch → Launch) : (s.modLaunch k f).capped = s.capped := rfl
@[simp] theorem modLaunch_hot (s : State) (k : Nat) (f : Launch → Launch) : (s.modLaunch k f).hot = s.hot := rfl
@[simp] theorem modLaunch_flash (s : State) (k : Nat) (f : Launch → Launch) : (s.modLaunch k f).flash = s.flash := rfl
@[simp] theorem modLaunch_regWrites (s : State) (k : Nat) (f : Launch → Launch) : (s.modLaunch k f).regWrites = s.regWrites := rfl
@[simp] theorem modLaunch_reply (s : State) (k : Nat) (f : Launch → Launch) : (s.modLaunch k f).reply = s.reply := rfl
@[simp] theorem modLaunch_freezeAt (s : State) (k : Nat) (f : Launch → Launch) : (s.modLaunch k f).freezeAt = s.freezeAt := rfl
@[simp] theorem modLaunch_freezePin (s : State) (k : Nat) (f : Launch → Launch) : (s.modLaunch k f).freezePin = s.freezePin := rfl
@[simp] theorem modLaunch_frozen (s : State) (k : Nat) (f : Launch → Launch) : (s.modLaunch k f).frozen = s.frozen := rfl
@[simp] theorem modLaunch_progressSeen (s : State) (k : Nat) (f : Launch → Launch) : (s.modLaunch k f).progressSeen = s.progressSeen := rfl

/-! ### State.modDie -/

@[simp] theorem modDie_tick (s : State) (k : Nat) (f : Die → Die) : (s.modDie k f).tick = s.tick := rfl
@[simp] theorem modDie_free (s : State) (k : Nat) (f : Die → Die) : (s.modDie k f).free = s.free := rfl
@[simp] theorem modDie_cur (s : State) (k : Nat) (f : Die → Die) : (s.modDie k f).cur = s.cur := rfl
@[simp] theorem modDie_inputs (s : State) (k : Nat) (f : Die → Die) : (s.modDie k f).inputs = s.inputs := rfl
@[simp] theorem modDie_todo (s : State) (k : Nat) (f : Die → Die) : (s.modDie k f).todo = s.todo := rfl
@[simp] theorem modDie_dies (s : State) (k : Nat) (f : Die → Die) : (s.modDie k f).dies = Map.set s.dies k (f (s.die k)) := rfl
@[simp] theorem modDie_posts (s : State) (k : Nat) (f : Die → Die) : (s.modDie k f).posts = s.posts := rfl
@[simp] theorem modDie_ctxs (s : State) (k : Nat) (f : Die → Die) : (s.modDie k f).ctxs = s.ctxs := rfl
@[simp] theorem modDie_launches (s : State) (k : Nat) (f : Die → Die) : (s.modDie k f).launches = s.launches := rfl
@[simp] theorem modDie_wgs (s : State) (k : Nat) (f : Die → Die) : (s.modDie k f).wgs = s.wgs := rfl
@[simp] theorem modDie_nextWg (s : State) (k : Nat) (f : Die → Die) : (s.modDie k f).nextWg = s.nextWg := rfl
@[simp] theorem modDie_cores (s : State) (k : Nat) (f : Die → Die) : (s.modDie k f).cores = s.cores := rfl
@[simp] theorem modDie_tlbs (s : State) (k : Nat) (f : Die → Die) : (s.modDie k f).tlbs = s.tlbs := rfl
@[simp] theorem modDie_mem (s : State) (k : Nat) (f : Die → Die) : (s.modDie k f).mem = s.mem := rfl
@[simp] theorem modDie_scratch (s : State) (k : Nat) (f : Die → Die) : (s.modDie k f).scratch = s.scratch := rfl
@[simp] theorem modDie_records (s : State) (k : Nat) (f : Die → Die) : (s.modDie k f).records = s.records := rfl
@[simp] theorem modDie_pins (s : State) (k : Nat) (f : Die → Die) : (s.modDie k f).pins = s.pins := rfl
@[simp] theorem modDie_poison (s : State) (k : Nat) (f : Die → Die) : (s.modDie k f).poison = s.poison := rfl
@[simp] theorem modDie_barriers (s : State) (k : Nat) (f : Die → Die) : (s.modDie k f).barriers = s.barriers := rfl
@[simp] theorem modDie_replicas (s : State) (k : Nat) (f : Die → Die) : (s.modDie k f).replicas = s.replicas := rfl
@[simp] theorem modDie_w0 (s : State) (k : Nat) (f : Die → Die) : (s.modDie k f).w0 = s.w0 := rfl
@[simp] theorem modDie_hostSeq (s : State) (k : Nat) (f : Die → Die) : (s.modDie k f).hostSeq = s.hostSeq := rfl
@[simp] theorem modDie_msi (s : State) (k : Nat) (f : Die → Die) : (s.modDie k f).msi = s.msi := rfl
@[simp] theorem modDie_powered (s : State) (k : Nat) (f : Die → Die) : (s.modDie k f).powered = s.powered := rfl
@[simp] theorem modDie_deferred (s : State) (k : Nat) (f : Die → Die) : (s.modDie k f).deferred = s.deferred := rfl
@[simp] theorem modDie_collEnds (s : State) (k : Nat) (f : Die → Die) : (s.modDie k f).collEnds = s.collEnds := rfl
@[simp] theorem modDie_ptpBase (s : State) (k : Nat) (f : Die → Die) : (s.modDie k f).ptpBase = s.ptpBase := rfl
@[simp] theorem modDie_pkg (s : State) (k : Nat) (f : Die → Die) : (s.modDie k f).pkg = s.pkg := rfl
@[simp] theorem modDie_peers (s : State) (k : Nat) (f : Die → Die) : (s.modDie k f).peers = s.peers := rfl
@[simp] theorem modDie_retired (s : State) (k : Nat) (f : Die → Die) : (s.modDie k f).retired = s.retired := rfl
@[simp] theorem modDie_marked (s : State) (k : Nat) (f : Die → Die) : (s.modDie k f).marked = s.marked := rfl
@[simp] theorem modDie_errors (s : State) (k : Nat) (f : Die → Die) : (s.modDie k f).errors = s.errors := rfl
@[simp] theorem modDie_nextLaunch (s : State) (k : Nat) (f : Die → Die) : (s.modDie k f).nextLaunch = s.nextLaunch := rfl
@[simp] theorem modDie_flushed (s : State) (k : Nat) (f : Die → Die) : (s.modDie k f).flushed = s.flushed := rfl
@[simp] theorem modDie_linksDown (s : State) (k : Nat) (f : Die → Die) : (s.modDie k f).linksDown = s.linksDown := rfl
@[simp] theorem modDie_ptpLocked (s : State) (k : Nat) (f : Die → Die) : (s.modDie k f).ptpLocked = s.ptpLocked := rfl
@[simp] theorem modDie_tickPtp (s : State) (k : Nat) (f : Die → Die) : (s.modDie k f).tickPtp = s.tickPtp := rfl
@[simp] theorem modDie_cap (s : State) (k : Nat) (f : Die → Die) : (s.modDie k f).cap = s.cap := rfl
@[simp] theorem modDie_capped (s : State) (k : Nat) (f : Die → Die) : (s.modDie k f).capped = s.capped := rfl
@[simp] theorem modDie_hot (s : State) (k : Nat) (f : Die → Die) : (s.modDie k f).hot = s.hot := rfl
@[simp] theorem modDie_flash (s : State) (k : Nat) (f : Die → Die) : (s.modDie k f).flash = s.flash := rfl
@[simp] theorem modDie_regWrites (s : State) (k : Nat) (f : Die → Die) : (s.modDie k f).regWrites = s.regWrites := rfl
@[simp] theorem modDie_reply (s : State) (k : Nat) (f : Die → Die) : (s.modDie k f).reply = s.reply := rfl
@[simp] theorem modDie_freezeAt (s : State) (k : Nat) (f : Die → Die) : (s.modDie k f).freezeAt = s.freezeAt := rfl
@[simp] theorem modDie_freezePin (s : State) (k : Nat) (f : Die → Die) : (s.modDie k f).freezePin = s.freezePin := rfl
@[simp] theorem modDie_frozen (s : State) (k : Nat) (f : Die → Die) : (s.modDie k f).frozen = s.frozen := rfl
@[simp] theorem modDie_progressSeen (s : State) (k : Nat) (f : Die → Die) : (s.modDie k f).progressSeen = s.progressSeen := rfl

/-! ### State.draw -/

@[simp] theorem draw_tick (s : State) : s.draw.2.tick = s.tick := rfl
@[simp] theorem draw_free (s : State) : s.draw.2.free = s.free + 1 := rfl
@[simp] theorem draw_cur (s : State) : s.draw.2.cur = s.cur := rfl
@[simp] theorem draw_inputs (s : State) : s.draw.2.inputs = s.inputs := rfl
@[simp] theorem draw_todo (s : State) : s.draw.2.todo = s.todo := rfl
@[simp] theorem draw_dies (s : State) : s.draw.2.dies = s.dies := rfl
@[simp] theorem draw_posts (s : State) : s.draw.2.posts = s.posts := rfl
@[simp] theorem draw_ctxs (s : State) : s.draw.2.ctxs = s.ctxs := rfl
@[simp] theorem draw_launches (s : State) : s.draw.2.launches = s.launches := rfl
@[simp] theorem draw_wgs (s : State) : s.draw.2.wgs = s.wgs := rfl
@[simp] theorem draw_nextWg (s : State) : s.draw.2.nextWg = s.nextWg := rfl
@[simp] theorem draw_cores (s : State) : s.draw.2.cores = s.cores := rfl
@[simp] theorem draw_tlbs (s : State) : s.draw.2.tlbs = s.tlbs := rfl
@[simp] theorem draw_mem (s : State) : s.draw.2.mem = s.mem := rfl
@[simp] theorem draw_scratch (s : State) : s.draw.2.scratch = s.scratch := rfl
@[simp] theorem draw_records (s : State) : s.draw.2.records = s.records := rfl
@[simp] theorem draw_pins (s : State) : s.draw.2.pins = s.pins := rfl
@[simp] theorem draw_poison (s : State) : s.draw.2.poison = s.poison := rfl
@[simp] theorem draw_barriers (s : State) : s.draw.2.barriers = s.barriers := rfl
@[simp] theorem draw_replicas (s : State) : s.draw.2.replicas = s.replicas := rfl
@[simp] theorem draw_w0 (s : State) : s.draw.2.w0 = s.w0 := rfl
@[simp] theorem draw_hostSeq (s : State) : s.draw.2.hostSeq = s.hostSeq := rfl
@[simp] theorem draw_msi (s : State) : s.draw.2.msi = s.msi := rfl
@[simp] theorem draw_powered (s : State) : s.draw.2.powered = s.powered := rfl
@[simp] theorem draw_deferred (s : State) : s.draw.2.deferred = s.deferred := rfl
@[simp] theorem draw_collEnds (s : State) : s.draw.2.collEnds = s.collEnds := rfl
@[simp] theorem draw_ptpBase (s : State) : s.draw.2.ptpBase = s.ptpBase := rfl
@[simp] theorem draw_pkg (s : State) : s.draw.2.pkg = s.pkg := rfl
@[simp] theorem draw_peers (s : State) : s.draw.2.peers = s.peers := rfl
@[simp] theorem draw_retired (s : State) : s.draw.2.retired = s.retired := rfl
@[simp] theorem draw_marked (s : State) : s.draw.2.marked = s.marked := rfl
@[simp] theorem draw_errors (s : State) : s.draw.2.errors = s.errors := rfl
@[simp] theorem draw_nextLaunch (s : State) : s.draw.2.nextLaunch = s.nextLaunch := rfl
@[simp] theorem draw_flushed (s : State) : s.draw.2.flushed = s.flushed := rfl
@[simp] theorem draw_linksDown (s : State) : s.draw.2.linksDown = s.linksDown := rfl
@[simp] theorem draw_ptpLocked (s : State) : s.draw.2.ptpLocked = s.ptpLocked := rfl
@[simp] theorem draw_tickPtp (s : State) : s.draw.2.tickPtp = s.tickPtp := rfl
@[simp] theorem draw_cap (s : State) : s.draw.2.cap = s.cap := rfl
@[simp] theorem draw_capped (s : State) : s.draw.2.capped = s.capped := rfl
@[simp] theorem draw_hot (s : State) : s.draw.2.hot = s.hot := rfl
@[simp] theorem draw_flash (s : State) : s.draw.2.flash = s.flash := rfl
@[simp] theorem draw_regWrites (s : State) : s.draw.2.regWrites = s.regWrites := rfl
@[simp] theorem draw_reply (s : State) : s.draw.2.reply = s.reply := rfl
@[simp] theorem draw_freezeAt (s : State) : s.draw.2.freezeAt = s.freezeAt := rfl
@[simp] theorem draw_freezePin (s : State) : s.draw.2.freezePin = s.freezePin := rfl
@[simp] theorem draw_frozen (s : State) : s.draw.2.frozen = s.frozen := rfl
@[simp] theorem draw_progressSeen (s : State) : s.draw.2.progressSeen = s.progressSeen := rfl

end Sys2Proof.Machine
end

