-- ==== Sys2Proof/Laws/Calm.lean ====
section
/-! SUPPORT. Fibres under updates, and `Calm`: what each named operation of a register word leaves alone. -/

namespace Sys2Proof.Machine

/-! ### Fibres -/

theorem fib_some {s : State} {r : FibRef} {f : Fibre} (h : s.fib r = some f) :
    ∃ w, Map.find s.wgs r.wg = some w ∧ Map.find w.fibres r.fib = some f := by
  unfold State.fib at h
  cases hw : Map.find s.wgs r.wg with
  | none => simp [hw] at h
  | some w => exact ⟨w, rfl, by simpa [hw] using h⟩

theorem fib_of_find {s : State} {r : FibRef} {w : WorkGroup} (h : Map.find s.wgs r.wg = some w) :
    s.fib r = Map.find w.fibres r.fib := by simp [State.fib, h]

theorem fib_modWg (s : State) (g : Nat) (f : WorkGroup → WorkGroup) (r : FibRef) :
    (s.modWg g f).fib r = (Map.find s.wgs r.wg).bind (fun w => Map.find (if r.wg = g then f w else w).fibres r.fib) := by
  simp only [State.fib, modWg_wgs, Map.find_modify]
  split <;> cases Map.find s.wgs r.wg <;> rfl

/-- An update of a work-group that keeps its fibres keeps every fibre. -/
theorem fib_modWg_keep {s : State} {g : Nat} {f : WorkGroup → WorkGroup} (h : ∀ w, (f w).fibres = w.fibres) (r : FibRef) :
    (s.modWg g f).fib r = s.fib r := by
  rw [fib_modWg]; unfold State.fib
  cases Map.find s.wgs r.wg with
  | none => rfl
  | some w => simp only [Option.bind_some]; split <;> simp [h]

theorem fib_setFib_same {s : State} {r : FibRef} {f0 : Fibre} (h : s.fib r = some f0) (f : Fibre) :
    (s.setFib r f).fib r = some f := by
  obtain ⟨w, hw, -⟩ := fib_some h
  simp only [State.setFib, fib_modWg, hw, Option.bind_some, if_true, Map.find_set_same]

theorem fib_setFib_other {s : State} {r q : FibRef} (f : Fibre) (h : q ≠ r) : (s.setFib r f).fib q = s.fib q := by
  rw [State.setFib, fib_modWg]; unfold State.fib
  cases Map.find s.wgs q.wg with
  | none => rfl
  | some w =>
    simp only [Option.bind_some]
    by_cases hg : q.wg = r.wg
    · have hf : q.fib ≠ r.fib := by
        intro hf; apply h
        cases q; cases r; simp_all
      simp [hg, Map.find_set_other _ _ hf]
    · simp [hg]

theorem fib_modFib_same {s : State} {r : FibRef} {f0 : Fibre} (h : s.fib r = some f0) (k : Fibre → Fibre) :
    (s.modFib r k).fib r = some (k f0) := by
  obtain ⟨w, hw, hf⟩ := fib_some h
  simp only [State.modFib, fib_modWg, hw, Option.bind_some, if_true, Map.find_modify, hf, Option.map_some]

theorem fib_modFib_none {s : State} {r : FibRef} (h : s.fib r = none) (k : Fibre → Fibre) : (s.modFib r k).fib r = none := by
  simp only [State.modFib, fib_modWg]
  cases hw : Map.find s.wgs r.wg with
  | none => rfl
  | some w => rw [fib_of_find hw] at h; simp [Map.find_modify, h]

theorem fib_modFib_other {s : State} {r q : FibRef} (k : Fibre → Fibre) (h : q ≠ r) : (s.modFib r k).fib q = s.fib q := by
  rw [State.modFib, fib_modWg]; unfold State.fib
  cases Map.find s.wgs q.wg with
  | none => rfl
  | some w =>
    simp only [Option.bind_some]
    by_cases hg : q.wg = r.wg
    · have hf : q.fib ≠ r.fib := by
        intro hf; apply h
        cases q; cases r; simp_all
      simp [hg, Map.find_modify, hf]
    · simp [hg]

theorem fib_of_wgs {s t : State} (h : t.wgs = s.wgs) (r : FibRef) : t.fib r = s.fib r := by simp [State.fib, h]

@[simp] theorem fib_modCore (s : State) (k : Nat) (f : Core → Core) (r : FibRef) : (s.modCore k f).fib r = s.fib r := rfl
@[simp] theorem fib_modCtx (s : State) (k : Nat) (f : Context → Context) (r : FibRef) : (s.modCtx k f).fib r = s.fib r := rfl

/-! ### Calm is kept by composition -/

theorem Calm.refl (s : State) (r : FibRef) : Calm s s r :=
  ⟨rfl, fun _ => rfl, fun _ => rfl, fun _ _ => rfl, rfl, fun _ _ => rfl, rfl⟩

theorem Calm.trans {s t u : State} {r : FibRef} (h : Calm s t r) (k : Calm t u r) : Calm s u r := by
  obtain ⟨a1, a2, a3, a4, a5, a6, a7⟩ := h
  obtain ⟨b1, b2, b3, b4, b5, b6, b7⟩ := k
  exact ⟨b1.trans a1, fun k => (b2 k).trans (a2 k), fun k => (b3 k).trans (a3 k), fun g hg => (b4 g hg).trans (a4 g hg),
    b5.trans a5, fun q hq => (b6 q hq).trans (a6 q hq), b7.trans a7⟩

/-- An update of the fibre's work-group that keeps its fibres and what `WorkGroup.fixed` keeps. -/
theorem Calm.ofWg {s : State} {r : FibRef} {f : WorkGroup → WorkGroup} (h1 : ∀ w, (f w).fibres = w.fibres)
    (h2 : ∀ w, (f w).fixed = w.fixed) : Calm s (s.modWg r.wg f) r := by
  refine ⟨rfl, fun _ => rfl, fun _ => rfl, ?_, ?_, fun q _ => fib_modWg_keep h1 q, by rw [fib_modWg_keep h1]⟩
  · intro g hg; simp [Map.find_modify, hg]
  · simp only [modWg_wgs, Map.find_modify, if_true]
    cases Map.find s.wgs r.wg with
    | none => rfl
    | some w => simp [h2]

/-- An update of the fibre that keeps what `Fibre.fixed` keeps. -/
theorem Calm.ofFib {s : State} {r : FibRef} {k : Fibre → Fibre} (h : ∀ f, s.fib r = some f → (k f).fixed = f.fixed) :
    Calm s (s.modFib r k) r := by
  refine ⟨rfl, fun _ => rfl, fun _ => rfl, ?_, ?_, fun q hq => fib_modFib_other k hq, ?_⟩
  · intro g hg; simp [Map.find_modify, hg]
  · simp only [modFib_wgs, Map.find_modify, if_true]
    cases Map.find s.wgs r.wg <;> rfl
  · cases hf : s.fib r with
    | none => simp [fib_modFib_none hf]
    | some f => simp [fib_modFib_same hf, h f hf]

theorem Calm.ofSet {s : State} {r : FibRef} {f0 f : Fibre} (h0 : s.fib r = some f0) (h : f.fixed = f0.fixed) :
    Calm s (s.setFib r f) r := by
  refine ⟨rfl, fun _ => rfl, fun _ => rfl, ?_, ?_, fun q hq => fib_setFib_other f hq, ?_⟩
  · intro g hg; simp [Map.find_modify, hg]
  · simp only [setFib_wgs, Map.find_modify, if_true]
    cases Map.find s.wgs r.wg <;> rfl
  · simp [fib_setFib_same h0, h0, h]

/-- An update of a core that keeps what `Core.fixed` keeps. -/
theorem Calm.ofCore {s : State} {r : FibRef} {k : Nat} {f : Core → Core} (h : ∀ c, (f c).fixed = c.fixed) :
    Calm s (s.modCore k f) r := by
  refine ⟨rfl, ?_, fun _ => rfl, fun _ _ => rfl, rfl, fun _ _ => rfl, rfl⟩
  intro j
  have : (s.modCore k f).core j = if j = k then f (s.core k) else s.core j := by
    simp [State.core, State.modCore, Map.getD_set]
  rw [this]; split
  · rename_i hj; subst hj; exact h _
  · rfl

/-- An update of a context that keeps what `Context.fixed` keeps. -/
theorem Calm.ofCtx {s : State} {r : FibRef} {k : Nat} {f : Context → Context} (h : ∀ c, (f c).fixed = c.fixed) :
    Calm s (s.modCtx k f) r := by
  refine ⟨rfl, fun _ => rfl, ?_, fun _ _ => rfl, rfl, fun _ _ => rfl, rfl⟩
  intro j
  have : (s.modCtx k f).ctx j = if j = k then f (s.ctx k) else s.ctx j := by
    simp [State.ctx, State.modCtx, Map.getD_set]
  rw [this]; split
  · rename_i hj; subst hj; exact h _
  · rfl

/-! ### The operations of a register word -/

theorem Calm.ite {s t u : State} {r : FibRef} {p : Prop} [Decidable p] (h : Calm s t r) (k : Calm s u r) :
    Calm s (if p then t else u) r := by split <;> assumption

theorem Calm.modFib {s t : State} {r : FibRef} {k : Fibre → Fibre} (h : Calm s t r) (hk : ∀ f, (k f).fixed = f.fixed) :
    Calm s (t.modFib r k) r := h.trans (Calm.ofFib (fun f _ => hk f))

theorem Calm.modWg {s t : State} {r : FibRef} {f : WorkGroup → WorkGroup} (h : Calm s t r) (h1 : ∀ w, (f w).fibres = w.fibres)
    (h2 : ∀ w, (f w).fixed = w.fixed) : Calm s (t.modWg r.wg f) r := h.trans (Calm.ofWg h1 h2)

theorem Calm.setFib {s t : State} {r : FibRef} {f0 f : Fibre} (h : Calm s t r) (h0 : t.fib r = some f0)
    (hf : f.fixed = f0.fixed) : Calm s (t.setFib r f) r := h.trans (Calm.ofSet h0 hf)

theorem Calm.modSlot {s t : State} {r : FibRef} {core k : Nat} {f : PSlot → PSlot} (h : Calm s t r) :
    Calm s (t.modSlot core k f) r := h.trans (Calm.ofCore (fun _ => rfl))

theorem Calm.switchPoint {s t : State} {q r : FibRef} (h : Calm s t r) : Calm s (t.switchPoint q) r := by
  unfold State.switchPoint; exact Calm.ite h.modSlot h

theorem Calm.yieldSlot {s t : State} {q r : FibRef} (h : Calm s t r) : Calm s (t.yieldSlot q) r := by
  unfold State.yieldSlot; exact Calm.ite h.modSlot h

theorem fixed_energy (x : Context) (e : Nat) (b : Bool) : ({ x with energy := e, esat := b } : Context).fixed = x.fixed := rfl

theorem Calm.charge {s t : State} {r : FibRef} {c pj : Nat} (h : Calm s t r) : Calm s (t.charge c pj) r :=
  h.trans (Calm.ofCtx (fun _ => rfl))

theorem Calm.countWord {s t : State} {r : FibRef} (h : Calm s t r) : Calm s (t.countWord r.wg) r :=
  h.modWg (fun _ => rfl) (fun _ => rfl)

theorem Calm.sweep {s t : State} {r : FibRef} (h : Calm s t r) : Calm s (t.sweep r) r := by
  unfold State.sweep
  cases hf : t.fib r with
  | none => exact h
  | some f =>
    refine Calm.ite h (Calm.setFib (f0 := f) (h.modWg (fun _ => rfl) (fun _ => rfl)) ?_ rfl)
    refine Eq.trans (fib_modWg_keep ?_ r) hf
    exact fun _ => rfl

theorem Calm.noteReads {s t : State} {r : FibRef} {l : List Nat} (h : Calm s t r) : Calm s (t.noteReads r l) r := by
  unfold State.noteReads; exact Calm.ite (h.modFib (fun _ => rfl)) h

theorem Calm.release {s t : State} {r : FibRef} {l : List Nat} {m : Mask} (h : Calm s t r) : Calm s (t.release r l m) r :=
  h.modFib (fun _ => rfl)

theorem Calm.raise {s t : State} {r : FibRef} {fl : BitVec 6} (h : Calm s t r) : Calm s (t.raise r fl) r :=
  h.modFib (fun _ => rfl)

@[simp] theorem paid_fixed (f : Fibre) (n : Nat) (m : Mask) : (f.paid n m).fixed = f.fixed := by
  unfold Fibre.paid; split <;> rfl

@[simp] theorem capture_fixed (f : Fibre) (b : BitVec 2) (m : Mask) (v : LaneVec) : (f.capture b m v).fixed = f.fixed := by
  unfold Fibre.capture; simp only [paid_fixed]; rfl

theorem Calm.capture {s t : State} {r : FibRef} {b : BitVec 2} {m : Mask} {v : LaneVec} (h : Calm s t r) :
    Calm s (t.modFib r (fun f => f.capture b m v)) r := h.modFib (fun f => capture_fixed f b m v)

theorem fixed_setPred (f : Fibre) (n : BitVec 3) (m v : Mask) : (f.setPred n m v).fixed = f.fixed := by
  unfold Fibre.setPred; split <;> rfl

theorem Calm.setPred {s t : State} {r : FibRef} {n : BitVec 3} {m v : Mask} (h : Calm s t r) :
    Calm s (t.modFib r (fun f => f.setPred n m v)) r := h.modFib (fun f => fixed_setPred f n m v)

theorem calm_begun {s : State} {f : Fibre} {c : Cur} (h : Hdr) (ends : Bool) (reads last : List Nat)
    (hf : s.fib c.ref = some f) : Calm s (s.begun f h ends reads last c) c.ref := by
  have h0 : Calm s (s.setFib c.ref (f.issue c.lanes c.pc ends)) c.ref := Calm.ofSet hf rfl
  exact (Calm.ite h0 h0.noteReads).release

theorem Calm.finish {s t : State} {h : Hdr} {a : Act} {pj : Nat} (k : Calm s t a.ref) : Calm s (t.finish h a pj) a.ref := by
  have h1 : Calm s ((t.sweep a.ref).modFib a.ref (fun f => { f with
    delayUntil := if h.delay == 0 then f.delayUntil else (t.sweep a.ref).tick + h.delay.toNat + 1
    redo := if f.redo.map (·.1) == some a.pc then none else f.redo })) a.ref := k.sweep.modFib (fun _ => rfl)
  have h2 := (Calm.ite (p := (h.y || a.gov.left != 0) = true) (h1.switchPoint (q := a.ref)) h1).countWord
  exact Calm.ite h2.charge h2

theorem windows_fixed_modify (ws : List WinState) (i : Nat) (g : List LaneVec → List LaneVec)
    (hg : ∀ l, (g l).length = l.length) :
    (ws.modify i (fun x => { x with regs := g x.regs })).map (fun x : WinState => { x with regs := x.regs.map (fun _ => splat 0) }) =
      ws.map (fun x : WinState => { x with regs := x.regs.map (fun _ => splat 0) }) := by
  apply List.ext_getElem
  · simp
  · intro k h1 h2
    simp only [List.getElem_map, List.getElem_modify]
    split
    · simp only [List.map_const', hg]
    · rfl

/-- The frame of a fibre that has entered its handler is its trap frame. -/
theorem handler_trap {f : Fibre} {t : TrapFrame} (h : f.handler = some t) : f.trap = some t ∧ t.waiting = false := by
  unfold Fibre.handler at h
  cases hx : f.trap with
  | none => simp [hx] at h
  | some x =>
    simp only [hx, Option.bind_some] at h
    split at h
    · cases h
    · rename_i hw; cases h; exact ⟨rfl, by simpa using hw⟩

theorem Calm.writeReg {s t : State} {r : FibRef} {n : Nat} {m : Mask} {v : LaneVec} (h : Calm s t r) :
    Calm s (t.writeReg r n m v) r := by
  unfold State.writeReg
  refine Calm.ite h ?_
  cases hf : t.fib r with
  | none => exact h
  | some f =>
    dsimp only
    split
    · rename_i x y hx hn
      exact h.setFib hf (by rw [paid_fixed]; simp only [Fibre.fixed, (handler_trap hx).1, Option.map_some])
    · split
      · refine Calm.modFib ?_ (fun f => paid_fixed f _ _)
        refine h.modWg (fun _ => rfl) (fun w => ?_)
        simp only [WorkGroup.fixed]
        rw [windows_fixed_modify w.windows _ (fun l => l.modify _ (fun old => mergeLanes m v old)) (fun l => by simp)]
      · refine Calm.setFib (f0 := f) (Calm.ite (h.modWg (fun w => ?_) (fun w => ?_)) h) ?_ (by rw [paid_fixed]; rfl)
        · split <;> rfl
        · split <;> rfl
        · split
          · exact (fib_modWg_keep (fun w => by split <;> rfl) r).trans hf
          · exact hf

theorem Calm.putDst {s t : State} {r : FibRef} {d : Dst} {pair : Bool} {m : Mask} {lo hi : LaneVec} (h : Calm s t r) :
    Calm s (t.putDst r d pair m lo hi) r := by
  cases d with
  | reg n b => exact (Calm.ite h.writeReg.writeReg h.writeReg).capture
  | latchOnly b => exact h.capture

end Sys2Proof.Machine
end

