-- ==== Sys2Proof/Laws/Regs.lean ====
section
/-! SUPPORT. Register names under updates: what a write of a register does to every name of the fibre. -/

namespace Sys2Proof.Machine

/-! ### Windows -/

/-- What the window of a name depends on: the windows' places, the launch, and the fibre's slot and position. -/
def SameWindows (s t : State) (r : FibRef) : Prop :=
  t.launches = s.launches ∧
  (Map.find t.wgs r.wg).map (fun w => (w.launch, w.windows.map (fun x => (x.w, x.lslot, x.regs.length)))) =
    (Map.find s.wgs r.wg).map (fun w => (w.launch, w.windows.map (fun x => (x.w, x.lslot, x.regs.length)))) ∧
  (t.fib r).map (fun f => (f.lslot, f.pos)) = (s.fib r).map (fun f => (f.lslot, f.pos))

theorem windows_keys_of_fixed {w v : WorkGroup} (h : w.fixed = v.fixed) :
    w.launch = v.launch ∧ w.windows.map (fun x => (x.w, x.lslot, x.regs.length)) = v.windows.map (fun x => (x.w, x.lslot, x.regs.length)) := by
  have h1 : w.fixed.launch = v.fixed.launch := by rw [h]
  have h2 : w.fixed.windows.map (fun x => (x.w, x.lslot, x.regs.length)) = v.fixed.windows.map (fun x => (x.w, x.lslot, x.regs.length)) := by rw [h]
  simp only [WorkGroup.fixed, List.map_map] at h2
  refine ⟨h1, ?_⟩
  have : ((fun x : WinState => (x.w, x.lslot, x.regs.length)) ∘ fun x => { x with regs := x.regs.map (fun _ => splat 0) }) =
      (fun x : WinState => (x.w, x.lslot, x.regs.length)) := by
    funext x; simp
  rwa [this] at h2

theorem fibre_keys_of_fixed {f g : Fibre} (h : f.fixed = g.fixed) : f.lslot = g.lslot ∧ f.pos = g.pos ∧ f.live = g.live :=
  ⟨by have : f.fixed.lslot = g.fixed.lslot := by rw [h]
      exact this, by
      have : f.fixed.pos = g.fixed.pos := by rw [h]
      exact this, by
      have : f.fixed.live = g.fixed.live := by rw [h]
      exact this⟩

theorem launches_of_calm {s t : State} {r : FibRef} (h : Calm s t r) : t.launches = s.launches := by
  have : t.fixed.launches = s.fixed.launches := by rw [h.1]
  exact this

theorem wg_of_calm {s t : State} {r : FibRef} {w : WorkGroup} (h : Calm s t r) (hw : Map.find s.wgs r.wg = some w) :
    ∃ v, Map.find t.wgs r.wg = some v ∧ v.fixed = w.fixed := by
  have := h.2.2.2.2.1
  rw [hw] at this
  cases hv : Map.find t.wgs r.wg with
  | none => simp [hv] at this
  | some v => exact ⟨v, rfl, by simpa [hv] using this⟩

theorem fib_of_calm {s t : State} {r : FibRef} {f : Fibre} (h : Calm s t r) (hf : s.fib r = some f) :
    ∃ g, t.fib r = some g ∧ g.fixed = f.fixed := by
  have := h.2.2.2.2.2.2
  rw [hf] at this
  cases hv : t.fib r with
  | none => simp [hv] at this
  | some v => exact ⟨v, rfl, by simpa [hv] using this⟩

theorem windowOf_congr {s t : State} {r : FibRef} (h : SameWindows s t r) (n : Nat) : t.windowOf r n = s.windowOf r n := by
  obtain ⟨h1, h2, h3⟩ := h
  unfold State.windowOf
  cases hw : Map.find s.wgs r.wg with
  | none =>
    rw [hw] at h2
    cases hv : Map.find t.wgs r.wg with
    | none => rfl
    | some v => simp [hv] at h2
  | some w =>
    rw [hw] at h2
    cases hv : Map.find t.wgs r.wg with
    | none => simp [hv] at h2
    | some v =>
      simp only [hv, Option.map_some, Option.some.injEq, Prod.mk.injEq] at h2
      cases hf : s.fib r with
      | none =>
        rw [hf] at h3
        cases hg : t.fib r with
        | none => rfl
        | some g => simp [hg] at h3
      | some f =>
        rw [hf] at h3
        cases hg : t.fib r with
        | none => simp [hg] at h3
        | some g =>
          simp only [hg, Option.map_some, Option.some.injEq, Prod.mk.injEq] at h3
          have hl : v.windows.length = w.windows.length := by simpa using congrArg List.length h2.2
          have hk : ∀ i : Nat, (v.windows[i]?).map (fun x : WinState => (x.w, x.lslot, x.regs.length)) = (w.windows[i]?).map (fun x : WinState => (x.w, x.lslot, x.regs.length)) := by
            intro i
            have := congrArg (fun l : List (Nat × Nat × Nat) => l[i]?) h2.2
            simpa using this
          have hlaunch : (t.launch v.launch).windows = (s.launch w.launch).windows := by
            rw [h2.1]; simp only [State.launch, h1]
          dsimp only
          rw [hl, hlaunch, h3.1, h3.2]
          congr 1
          funext i
          have := hk i
          cases hx : v.windows[i]? with
          | none =>
            rw [hx] at this
            cases hy : w.windows[i]? with
            | none => rfl
            | some y => simp [hy] at this
          | some x =>
            rw [hx] at this
            cases hy : w.windows[i]? with
            | none => simp [hy] at this
            | some y =>
              simp only [hy, Option.map_some, Option.some.injEq, Prod.mk.injEq] at this
              dsimp only
              rw [this.1, this.2.1, this.2.2]

theorem SameWindows.ofCalm {s t : State} {r : FibRef} (h : Calm s t r) : SameWindows s t r := by
  refine ⟨launches_of_calm h, ?_, ?_⟩
  · cases hw : Map.find s.wgs r.wg with
    | none =>
      have := h.2.2.2.2.1
      rw [hw] at this
      cases hv : Map.find t.wgs r.wg with
      | none => rfl
      | some v => simp [hv] at this
    | some w =>
      obtain ⟨v, hv, hvw⟩ := wg_of_calm h hw
      obtain ⟨k1, k2⟩ := windows_keys_of_fixed hvw
      simp only [hv, Option.map_some, k1, Option.some.injEq, Prod.mk.injEq, true_and]
      exact k2
  · cases hf : s.fib r with
    | none =>
      have := h.2.2.2.2.2.2
      rw [hf] at this
      cases hg : t.fib r with
      | none => rfl
      | some g => simp [hg] at this
    | some f =>
      obtain ⟨g, hg, hgf⟩ := fib_of_calm h hf
      obtain ⟨k1, k2, -⟩ := fibre_keys_of_fixed hgf
      simp [hg, k1, k2]

/-- Windows of names are the same after anything a register word does. -/
theorem windowOf_calm {s t : State} {r : FibRef} (h : Calm s t r) (n : Nat) : t.windowOf r n = s.windowOf r n :=
  windowOf_congr (SameWindows.ofCalm h) n

/-- Every register that a window of the fibre's slot names is in the window's storage. -/
def WindowsHold (s : State) (r : FibRef) : Prop :=
  ∀ n i p k w ws, s.windowOf r n = some (i, p, k) → Map.find s.wgs r.wg = some w → w.windows[i]? = some ws → k < ws.regs.length

theorem windowsHold (s : State) (r : FibRef) : WindowsHold s r := by
  intro n i p k w ws h hw hx
  unfold State.windowOf at h
  cases hf : s.fib r with
  | none => simp [hw, hf] at h
  | some f =>
    simp only [hw, hf] at h
    obtain ⟨j, -, hj⟩ := List.exists_of_findSome?_eq_some h
    cases hy : w.windows[j]? with
    | none => simp [hy] at hj
    | some y =>
      simp only [hy] at hj
      split at hj
      · rename_i hc
        simp only [Option.some.injEq, Prod.mk.injEq] at hj
        obtain ⟨rfl, -, rfl⟩ := hj
        rw [hx] at hy
        obtain rfl : ws = y := by simpa using hy
        simp only [Bool.and_eq_true, decide_eq_true_eq] at hc
        omega
      · simp at hj

theorem WindowsHold.calm {s t : State} {r : FibRef} (_ : Calm s t r) (_ : WindowsHold s r) : WindowsHold t r := windowsHold t r

/-- Two names of one fibre are never the same register of a window. -/
theorem windowOf_inj {s : State} {r : FibRef} {n m i p q k : Nat} (h1 : s.windowOf r n = some (i, p, k))
    (h2 : s.windowOf r m = some (i, q, k)) : n = m := by
  unfold State.windowOf at h1 h2
  cases hw : Map.find s.wgs r.wg with
  | none => simp [hw] at h1
  | some w =>
    cases hf : s.fib r with
    | none => simp [hw, hf] at h1
    | some f =>
      simp only [hw, hf] at h1 h2
      have aux : ∀ n p, (List.range w.windows.length).findSome? (fun i =>
          match w.windows[i]? with
          | none => none
          | some ws =>
            let d := (s.launch w.launch).windows.getD ws.w default
            if ws.lslot == f.lslot && d.fibs.getLsbD f.pos && d.first ≤ n && n < d.first + ws.regs.length then
              let k := n - d.first
              some (i, if d.double then k / (d.count / 2) else 0, k)
            else none) = some (i, p, k) →
          ∃ ws, w.windows[i]? = some ws ∧ n = ((s.launch w.launch).windows.getD ws.w default).first + k := by
        intro n p h
        obtain ⟨j, -, hj⟩ := List.exists_of_findSome?_eq_some h
        cases hx : w.windows[j]? with
        | none => simp [hx] at hj
        | some ws =>
          simp only [hx] at hj
          split at hj
          · rename_i hc
            simp only [Option.some.injEq, Prod.mk.injEq] at hj
            obtain ⟨rfl, -, rfl⟩ := hj
            simp only [Bool.and_eq_true, decide_eq_true_eq] at hc
            exact ⟨ws, hx, by omega⟩
          · simp at hj
      obtain ⟨a, ha, hn⟩ := aux n p h1
      obtain ⟨b, hb, hm⟩ := aux m q h2
      rw [ha] at hb
      obtain rfl : a = b := by simpa using hb
      omega

/-! ### Reading a name -/

/-- A fibre's own registers: what a name reads as that is no window's. -/
def Fibre.ownReg (f : Fibre) (n : Nat) : Option LaneVec :=
  match f.handler with
  | some t => if n < 16 then some (t.hregs.toList.getD n (splat 0)) else Map.find f.regs n
  | none => Map.find f.regs n

theorem regOpt_eq {s : State} {r : FibRef} {f : Fibre} (hf : s.fib r = some f) (n : Nat) :
    s.regOpt r n = if f.isH n then f.ownReg n else
      match s.windowOf r n with
      | some (i, _, k) => some (s.windowReg r.wg i k)
      | none => f.ownReg n := by
  unfold State.regOpt Fibre.isH Fibre.ownReg
  rw [hf]
  dsimp only
  cases ht : f.handler with
  | none => simp only [Option.isSome_none, Bool.false_and, Bool.false_eq_true, if_false] <;> (cases s.windowOf r n <;> rfl)
  | some t =>
    by_cases hn : n < 16
    · simp [hn]
    · simp only [hn, if_false, decide_false, Bool.and_false, Bool.false_eq_true] <;> (cases s.windowOf r n <;> rfl)

theorem isH_of_fixed {f g : Fibre} (h : f.fixed = g.fixed) (n : Nat) : f.isH n = g.isH n := by
  have key : ∀ x : Fibre, x.fixed.handler.isSome = x.handler.isSome := by
    intro x
    unfold Fibre.handler Fibre.fixed
    cases x.trap with
    | none => rfl
    | some t => simp only [Option.map_some, Option.bind_some]; split <;> rfl
  unfold Fibre.isH; rw [← key f, ← key g, h]

/-- Whether a number names a handler register is the same after anything a register word does. -/
theorem isH_calm {s t : State} {r : FibRef} {f g : Fibre} (h : Calm s t r) (hf : s.fib r = some f) (hg : t.fib r = some g) (n : Nat) :
    g.isH n = f.isH n := by
  obtain ⟨x, hx, hfix⟩ := fib_of_calm h hf
  rw [hg] at hx
  obtain rfl : g = x := by simpa using hx
  exact isH_of_fixed hfix n

theorem windowReg_congr {s t : State} {g : Nat} (h : (Map.find t.wgs g).map (·.windows) = (Map.find s.wgs g).map (·.windows)) (i k : Nat) :
    t.windowReg g i k = s.windowReg g i k := by
  unfold State.windowReg
  cases hw : Map.find s.wgs g <;> cases hv : Map.find t.wgs g <;> simp_all

/-- An update that changes no window register and only what `Fibre.fixed` leaves out of one fibre changes a name as it
changes the fibre's own register. -/
theorem regOpt_congr {s t : State} {r : FibRef} {f g : Fibre} (h : Calm s t r) (hf : s.fib r = some f) (hg : t.fib r = some g)
    (hw : (Map.find t.wgs r.wg).map (·.windows) = (Map.find s.wgs r.wg).map (·.windows)) {n : Nat}
    (hn : g.ownReg n = f.ownReg n) : t.regOpt r n = s.regOpt r n := by
  have hfix : g.fixed = f.fixed := by
    obtain ⟨g', hg', hx⟩ := fib_of_calm h hf
    rw [hg] at hg'
    obtain rfl : g = g' := by simpa using hg'
    exact hx
  rw [regOpt_eq hf, regOpt_eq hg, windowOf_calm h, isH_of_fixed hfix, hn]
  split
  · rfl
  · split
    · rw [windowReg_congr hw]
    · rfl

theorem windows_modFib (s : State) (r : FibRef) (k : Fibre → Fibre) (g : Nat) :
    (Map.find (s.modFib r k).wgs g).map (·.windows) = (Map.find s.wgs g).map (·.windows) := by
  simp only [modFib_wgs, Map.find_modify]
  split <;> cases Map.find s.wgs g <;> rfl

theorem windows_setFib (s : State) (r : FibRef) (f : Fibre) (g : Nat) :
    (Map.find (s.setFib r f).wgs g).map (·.windows) = (Map.find s.wgs g).map (·.windows) := by
  simp only [setFib_wgs, Map.find_modify]
  split <;> cases Map.find s.wgs g <;> rfl

theorem windows_modWg_keep {s : State} {g : Nat} {f : WorkGroup → WorkGroup} (h : ∀ w, (f w).windows = w.windows) (j : Nat) :
    (Map.find (s.modWg g f).wgs j).map (·.windows) = (Map.find s.wgs j).map (·.windows) := by
  simp only [modWg_wgs, Map.find_modify]
  split <;> cases Map.find s.wgs j <;> simp [h]

/-- A change of a fibre that keeps its registers keeps every name. -/
theorem regOpt_modFib {s : State} {r : FibRef} {k : Fibre → Fibre} (h1 : ∀ f, (k f).fixed = f.fixed)
    (h2 : ∀ f, (k f).regs = f.regs) (h3 : ∀ f, (k f).trap = f.trap) (n : Nat) : (s.modFib r k).regOpt r n = s.regOpt r n := by
  cases hf : s.fib r with
  | none => simp [State.regOpt, hf, fib_modFib_none hf]
  | some f =>
    refine regOpt_congr (Calm.ofFib (fun f _ => h1 f)) hf (fib_modFib_same hf k) (windows_modFib ..) ?_
    simp [Fibre.ownReg, Fibre.handler, h2, h3]

/-- A change of a work-group's counts keeps every name. -/
theorem regOpt_modWg {s : State} {r : FibRef} {f : WorkGroup → WorkGroup} (h1 : ∀ w, (f w).fixed = w.fixed)
    (h2 : ∀ w, (f w).fibres = w.fibres) (h3 : ∀ w, (f w).windows = w.windows) (n : Nat) :
    (s.modWg r.wg f).regOpt r n = s.regOpt r n := by
  cases hf : s.fib r with
  | none => simp [State.regOpt, fib_modWg_keep h2, hf]
  | some g =>
    exact regOpt_congr (Calm.ofWg h2 h1) hf (by rw [fib_modWg_keep h2, hf]) (windows_modWg_keep h3 _) rfl

theorem regOpt_of_wgs {s t : State} (h1 : t.wgs = s.wgs) (h2 : t.launches = s.launches) (r : FibRef) (n : Nat) :
    t.regOpt r n = s.regOpt r n := by
  have hf := fib_of_wgs h1 r
  have hw : t.windowOf r n = s.windowOf r n := windowOf_congr ⟨h2, by rw [h1], by rw [hf]⟩ n
  unfold State.regOpt State.windowReg
  rw [hf, hw, h1]

end Sys2Proof.Machine
end

