-- ==== Sys2Proof/Laws/Write.lean ====
section
/-! SUPPORT. What a write of a register, the sweep of released names, and the rest of a register word do to each name. -/

namespace Sys2Proof.Machine

/-- Where a write of a name goes: a handler register, a window's register, or a register of the fibre's own. -/
inductive Kind where
  | handler
  | window (i k : Nat)
  | own

/-- Where a name leads. -/
def State.kindOf (s : State) (r : FibRef) (f : Fibre) (n : Nat) : Kind :=
  if f.isH n then .handler else match s.windowOf r n with
    | some (i, _, k) => .window i k
    | none => .own

@[simp] theorem paid_regs (f : Fibre) (n : Nat) (m : Mask) : (f.paid n m).regs = f.regs := by
  unfold Fibre.paid; split <;> rfl
@[simp] theorem paid_released (f : Fibre) (n : Nat) (m : Mask) : (f.paid n m).released = f.released := by
  unfold Fibre.paid; split <;> rfl
@[simp] theorem paid_trap (f : Fibre) (n : Nat) (m : Mask) : (f.paid n m).trap = f.trap := by
  unfold Fibre.paid; split <;> rfl
@[simp] theorem paid_isH (f : Fibre) (n : Nat) (m : Mask) (j : Nat) : (f.paid n m).isH j = f.isH j := by
  simp [Fibre.isH, Fibre.handler]
@[simp] theorem paid_ownReg (f : Fibre) (n : Nat) (m : Mask) (j : Nat) : (f.paid n m).ownReg j = f.ownReg j := by
  simp [Fibre.ownReg, Fibre.handler]

/-- What is paid of a name changes nothing but what is owed. -/
theorem paid_eq (f : Fibre) (n : Nat) (m : Mask) : ∃ aw, f.paid n m = { f with awaits := aw } := by
  unfold Fibre.paid; split
  · exact ⟨f.awaits, rfl⟩
  · exact ⟨_, rfl⟩

/-- The registers of the handler that a fibre runs, with one of them written. -/
def Fibre.putH (f : Fibre) (n : Nat) (m : Mask) (v : LaneVec) : Fibre :=
  { f with trap := f.trap.map (fun t => { t with
      hregs := t.hregs.setIfInBounds n (mergeLanes m v (t.hregs.toList.getD n (splat 0))) }) }

theorem isH_frame {f : Fibre} {n : Nat} (h : f.isH n = true) : ∃ t, f.handler = some t ∧ f.trap = some t ∧ n < 16 := by
  unfold Fibre.isH at h
  cases hx : f.handler with
  | none => simp [hx] at h
  | some t => exact ⟨t, rfl, (handler_trap hx).1, by simpa [hx] using h⟩

theorem putH_handler {f : Fibre} {t : TrapFrame} (h : f.handler = some t) (n : Nat) (m : Mask) (v : LaneVec) :
    (f.putH n m v).handler = some { t with
      hregs := t.hregs.setIfInBounds n (mergeLanes m v (t.hregs.toList.getD n (splat 0))) } := by
  obtain ⟨h1, h2⟩ := handler_trap h
  simp [Fibre.putH, Fibre.handler, h1, h2]

theorem writeReg_eq {s : State} {r : FibRef} {f : Fibre} (hf : s.fib r = some f) (n : Nat) {m : Mask} (hm : m ≠ 0) (v : LaneVec) :
    s.writeReg r n m v =
      match s.kindOf r f n with
      | .handler => s.setFib r ((f.putH n m v).paid (512 + n) m)
      | .window i k => (s.modWg r.wg (fun w => { w with windows := w.windows.modify i (fun ws =>
          { ws with regs := ws.regs.modify k (fun old => mergeLanes m v old) }) })).modFib r (fun f => f.paid n m)
      | .own => (if (Map.find f.regs n).isNone then s.modWg r.wg (fun w =>
            if (s.launch w.launch).regs * w.fibres.length ≤ (w.fibres.map (fun (_, x) => x.regs.length)).sum + w.returning
            then { w with returning := 0 } else w) else s).setFib r (({ f with
          regs := Map.set f.regs n (mergeLanes m v ((Map.find f.regs n).getD (splat 0)))
          released := Map.set f.released n ((Map.getD f.released n 0) &&& ~~~m) } : Fibre).paid n m) := by
  have hm' : ¬ (m == 0) = true := by simpa using hm
  unfold State.writeReg State.kindOf Fibre.isH
  rw [if_neg hm', hf]
  dsimp only
  cases ht : f.handler with
  | none =>
    simp only [Option.isSome_none, Bool.false_and, Bool.false_eq_true, if_false]
    cases hw : s.windowOf r n with
    | none => rfl
    | some x => rfl
  | some t =>
    by_cases hn : n < 16
    · simp only [hn, decide_true, Option.isSome_some, Bool.and_self, if_true, Fibre.putH, (handler_trap ht).1, Option.map_some]
    · simp only [hn, decide_false, Bool.and_false, Bool.false_eq_true, if_false]
      cases hw : s.windowOf r n with
      | none => rfl
      | some x => rfl

theorem fib_ite_returning {s : State} {r : FibRef} {p : Prop} [Decidable p] {q : WorkGroup → Prop} [∀ w, Decidable (q w)] :
    (if p then s.modWg r.wg (fun w => if q w then { w with returning := 0 } else w) else s).fib r = s.fib r := by
  split
  · exact fib_modWg_keep (fun w => by split <;> rfl) r
  · rfl

/-- The fibre after a write of a name: its handler registers, mapped names and released bits may differ. -/
theorem writeReg_fib {s : State} {r : FibRef} {f : Fibre} (hf : s.fib r = some f) (n : Nat) (m : Mask) (v : LaneVec) :
    ∃ tr rg rl aw, (s.writeReg r n m v).fib r = some { f with trap := tr, regs := rg, released := rl, awaits := aw } ∧
      (∀ j, j ≠ n → Map.find rg j = Map.find f.regs j ∧ Map.find rl j = Map.find f.released j) ∧
      (∀ t, f.trap = some t → ∃ u, tr = some u ∧ ∀ j, j ≠ n → u.hregs.toList.getD j (splat 0) = t.hregs.toList.getD j (splat 0)) ∧
      (f.trap = none → tr = none) ∧
      (m ≠ 0 → f.isH n = false → s.windowOf r n = none → Map.find rl n = some ((Map.getD f.released n 0) &&& ~~~m)) := by
  by_cases hm : m = 0
  · subst hm
    refine ⟨f.trap, f.regs, f.released, f.awaits, ?_, fun _ _ => ⟨rfl, rfl⟩, fun t ht => ⟨t, ht, fun _ _ => rfl⟩, fun h => h, fun h => absurd rfl h⟩
    simp [State.writeReg, hf]
  · rw [writeReg_eq hf n hm v]
    cases hk : s.kindOf r f n with
    | handler =>
      have hH : f.isH n = true := by
        unfold State.kindOf at hk
        by_contra hc
        rw [if_neg hc] at hk
        cases hw : s.windowOf r n <;> simp [hw] at hk
      obtain ⟨aw, haw⟩ := paid_eq (f.putH n m v) (512 + n) m
      refine ⟨_, f.regs, f.released, aw, by rw [fib_setFib_same hf, haw]; rfl, fun _ _ => ⟨rfl, rfl⟩, ?_, ?_, ?_⟩
      · intro t ht
        refine ⟨_, by unfold Fibre.putH; rw [ht]; rfl, ?_⟩
        intro j hj
        simp only [Vector.toList_setIfInBounds]
        simp [List.getD_eq_getElem?_getD, List.getElem?_set_ne (Ne.symm hj)]
      · intro h; simp [Fibre.putH, h]
      · intro _ h; rw [hH] at h; simp at h
    | window i k =>
      have hW : s.windowOf r n ≠ none := by
        unfold State.kindOf at hk
        split at hk
        · simp at hk
        · intro hc; simp [hc] at hk
      obtain ⟨aw, haw⟩ := paid_eq f n m
      refine ⟨f.trap, f.regs, f.released, aw, ?_, fun _ _ => ⟨rfl, rfl⟩, fun t ht => ⟨t, ht, fun _ _ => rfl⟩, fun h => h, ?_⟩
      · refine (fib_modFib_same (f0 := f) (Eq.trans (fib_modWg_keep (fun _ => ?_) r) hf) _).trans (by rw [haw])
        rfl
      · intro _ _ h; exact absurd h hW
    | own =>
      obtain ⟨aw, haw⟩ := paid_eq { f with
          regs := Map.set f.regs n (mergeLanes m v ((Map.find f.regs n).getD (splat 0)))
          released := Map.set f.released n ((Map.getD f.released n 0) &&& ~~~m) } n m
      refine ⟨f.trap, _, _, aw, (fib_setFib_same (f0 := f) ?_ _).trans (by rw [haw]), ?_, fun t ht => ⟨t, ht, fun _ _ => rfl⟩,
        fun h => h, ?_⟩
      · exact fib_ite_returning.trans hf
      · intro j hj; simp [Map.find_set_other _ _ hj]
      · intro _ _ _; simp

theorem kind_handler {s : State} {r : FibRef} {f : Fibre} {n : Nat} (h : s.kindOf r f n = .handler) : f.isH n = true := by
  unfold State.kindOf at h
  by_contra hc
  rw [if_neg hc] at h
  cases hw : s.windowOf r n <;> simp [hw] at h

/-- A write of a name leaves every other name as it was. -/
theorem writeReg_other {s : State} {r : FibRef} {n j : Nat} (hj : j ≠ n) (m : Mask) (v : LaneVec) :
    (s.writeReg r n m v).regOpt r j = s.regOpt r j := by
  cases hf : s.fib r with
  | none => unfold State.writeReg; rw [hf]; split <;> rfl
  | some f =>
    by_cases hm : m = 0
    · subst hm; simp [State.writeReg]
    · have hc : Calm s (s.writeReg r n m v) r := (Calm.refl s r).writeReg
      rw [writeReg_eq hf n hm v] at hc ⊢
      cases hk : s.kindOf r f n with
      | handler =>
        rw [hk] at hc
        refine regOpt_congr hc hf (fib_setFib_same hf _) (windows_setFib ..) ?_
        obtain ⟨t, ht, -, -⟩ := isH_frame (kind_handler hk)
        rw [paid_ownReg]
        simp only [Fibre.ownReg, ht, putH_handler ht]
        split
        · simp only [Vector.toList_setIfInBounds]
          simp [List.getD_eq_getElem?_getD, List.getElem?_set_ne (Ne.symm hj)]
        · rfl
      | own =>
        rw [hk] at hc
        refine regOpt_congr hc hf (fib_setFib_same (fib_ite_returning.trans hf) _) ?_ ?_
        · dsimp only
          rw [windows_setFib]
          split
          · exact windows_modWg_keep (fun w => by split <;> rfl) _
          · rfl
        · simp [Fibre.ownReg, Fibre.handler, Map.find_set_other _ _ hj]
      | window i k =>
        rw [hk] at hc
        have hg : (s.modWg r.wg (fun w => { w with windows := w.windows.modify i (fun ws =>
          { ws with regs := ws.regs.modify k (fun old => mergeLanes m v old) }) })).fib r = some f := by
          refine Eq.trans (fib_modWg_keep ?_ r) hf; intro _; rfl
        dsimp only at hc ⊢
        rw [regOpt_eq (fib_modFib_same hg _), regOpt_eq hf, windowOf_calm hc, paid_isH, paid_ownReg]
        split
        · rfl
        · cases hw : s.windowOf r j with
          | none => rfl
          | some x =>
            obtain ⟨i', p', k'⟩ := x
            have hne : ¬ (i' = i ∧ k' = k) := by
              rintro ⟨rfl, rfl⟩
              unfold State.kindOf at hk
              split at hk
              · simp at hk
              · cases hx : s.windowOf r n with
                | none => simp [hx] at hk
                | some y =>
                  obtain ⟨a, b, c⟩ := y
                  simp only [hx, Kind.window.injEq] at hk
                  obtain ⟨rfl, rfl⟩ := hk
                  exact hj (windowOf_inj hw hx)
            dsimp only
            congr 1
            rw [windowReg_congr (windows_modFib ..)]
            unfold State.windowReg
            simp only [modWg_wgs, Map.find_modify, if_true]
            cases hwg : Map.find s.wgs r.wg with
            | none => rfl
            | some w =>
              simp only [Option.map_some, List.getElem?_modify]
              by_cases hi : i = i'
              · subst hi
                have hkk : k ≠ k' := fun h => hne ⟨rfl, h.symm⟩
                cases hx : w.windows[i]? with
                | none => simp
                | some ws => simp [hkk]
              · cases hx : w.windows[i']? with
                | none => simp
                | some ws => simp [hi]

/-- A write of a name in some lanes: those lanes hold the new value, the others what they held. -/
theorem writeReg_same {s : State} {r : FibRef} {f : Fibre} (hf : s.fib r = some f) (n : Nat) {m : Mask} (hm : m ≠ 0) (v : LaneVec)
    (hW : WindowsHold s r) : (s.writeReg r n m v).regOpt r n = some (mergeLanes m v (s.reg r n)) := by
  have hc : Calm s (s.writeReg r n m v) r := (Calm.refl s r).writeReg
  unfold State.reg
  rw [regOpt_eq hf]
  rw [writeReg_eq hf n hm v] at hc ⊢
  cases hk : s.kindOf r f n with
  | handler =>
    have hH := kind_handler hk
    obtain ⟨t, ht, -, hn⟩ := isH_frame hH
    rw [hk] at hc
    dsimp only
    rw [regOpt_eq (fib_setFib_same hf _), if_pos hH, paid_isH, paid_ownReg,
      if_pos (show (f.putH n m v).isH n = true by simp [Fibre.isH, putH_handler ht, hn])]
    simp only [Fibre.ownReg, ht, putH_handler ht, hn, if_true, Vector.toList_setIfInBounds, Option.getD_some]
    rw [List.getD_eq_getElem?_getD, List.getElem?_set_self (by simpa using hn)]
    rfl
  | own =>
    have hH : f.isH n = false ∧ s.windowOf r n = none := by
      unfold State.kindOf at hk
      split at hk
      · simp at hk
      · rename_i h1
        refine ⟨by simpa using h1, ?_⟩
        cases hw : s.windowOf r n with
        | none => rfl
        | some x => simp [hw] at hk
    rw [hk] at hc
    dsimp only at hc ⊢
    have hg := fib_setFib_same ((fib_ite_returning (s := s) (r := r) (p := (Map.find f.regs n).isNone = true)
      (q := fun w => (s.launch w.launch).regs * w.fibres.length ≤ (w.fibres.map (fun (_, x) => x.regs.length)).sum + w.returning)).trans hf)
      (({ f with regs := Map.set f.regs n (mergeLanes m v ((Map.find f.regs n).getD (splat 0)))
                 released := Map.set f.released n ((Map.getD f.released n 0) &&& ~~~m) } : Fibre).paid n m)
    rw [regOpt_eq hg, windowOf_calm hc, paid_isH, paid_ownReg]
    have hH3 : ({ f with regs := Map.set f.regs n (mergeLanes m v ((Map.find f.regs n).getD (splat 0)))
                         released := Map.set f.released n ((Map.getD f.released n 0) &&& ~~~m) } : Fibre).isH n = false := hH.1
    rw [hH3, hH.2]
    simp only [Bool.false_eq_true, if_false, hH.1]
    have hno : ∀ t, f.handler = some t → ¬ n < 16 := by
      intro t ht; have := hH.1; simp [Fibre.isH, ht] at this; omega
    have hown : f.ownReg n = Map.find f.regs n := by
      unfold Fibre.ownReg
      cases ht : f.handler with
      | none => rfl
      | some t => simp [hno t ht]
    rw [hown]
    unfold Fibre.ownReg
    cases ht : f.handler with
    | none =>
      have : ({ f with regs := Map.set f.regs n (mergeLanes m v ((Map.find f.regs n).getD (splat 0)))
                       released := Map.set f.released n ((Map.getD f.released n 0) &&& ~~~m) } : Fibre).handler = none := ht
      rw [this]; exact Map.find_set_same ..
    | some t =>
      have : ({ f with regs := Map.set f.regs n (mergeLanes m v ((Map.find f.regs n).getD (splat 0)))
                       released := Map.set f.released n ((Map.getD f.released n 0) &&& ~~~m) } : Fibre).handler = some t := ht
      rw [this]; simp only [hno t ht, if_false]; exact Map.find_set_same ..
  | window i k =>
    have hH : f.isH n = false ∧ ∃ p, s.windowOf r n = some (i, p, k) := by
      unfold State.kindOf at hk
      split at hk
      · simp at hk
      · rename_i h1
        refine ⟨by simpa using h1, ?_⟩
        cases hw : s.windowOf r n with
        | none => simp [hw] at hk
        | some x =>
          obtain ⟨a, b, c⟩ := x
          simp only [hw, Kind.window.injEq] at hk
          obtain ⟨rfl, rfl⟩ := hk
          exact ⟨b, rfl⟩
    obtain ⟨hH, p, hw⟩ := hH
    rw [hk] at hc
    dsimp only at hc ⊢
    have hg : (s.modWg r.wg (fun w => { w with windows := w.windows.modify i (fun ws =>
          { ws with regs := ws.regs.modify k (fun old => mergeLanes m v old) }) })).fib r = some f := by
          refine Eq.trans (fib_modWg_keep ?_ r) hf; intro _; rfl
    rw [regOpt_eq (fib_modFib_same hg _), windowOf_calm hc, hw, paid_isH]
    simp only [hH, Bool.false_eq_true, if_false, Option.getD_some]
    congr 1
    rw [windowReg_congr (windows_modFib ..)]
    unfold State.windowReg
    simp only [modWg_wgs, Map.find_modify, if_true]
    obtain ⟨wg, hwg, -⟩ := fib_some hf
    rw [hwg]
    simp only [Option.map_some, List.getElem?_modify, if_true]
    cases hx : wg.windows[i]? with
    | none =>
      exfalso
      unfold State.windowOf at hw
      simp only [hwg, hf] at hw
      obtain ⟨j, -, hj⟩ := List.exists_of_findSome?_eq_some hw
      cases hy : wg.windows[j]? with
      | none => simp [hy] at hj
      | some ws =>
        simp only [hy] at hj
        split at hj
        · simp only [Option.some.injEq, Prod.mk.injEq] at hj
          obtain ⟨rfl, -, -⟩ := hj
          rw [hx] at hy; simp at hy
        · simp at hj
    | some ws =>
      have hlen := hW n i p k wg ws hw hwg hx
      simp [hlen]

end Sys2Proof.Machine
end

