-- ==== Sys2Proof/Laws/Word.lean ====
section
/-! SUPPORT. The runner of a word: what a word that completes leaves, and the two shapes of a lane word. -/

namespace Sys2Proof.Machine

/-! ### The runner -/

/-- A word whose body completes. -/
theorem runWord_done {h : Hdr} {ends : Bool} {reads last : List Nat} {pj : Nat} {s : State} {body : Act → State → Out} {c : Cur}
    {f : Fibre} (hi : Issues s h c f) (ho : f.owes reads = false) {t : State}
    (hb : body (f.actOf h ends c) ((s.settleLoads c.ref).begun f h ends reads last c) = .done t) :
    runWord h ends reads last pj s body = .next (t.finish h (f.actOf h ends c) pj) := by
  obtain ⟨h1, h2, h3, h4, -⟩ := hi
  have h5 : ¬ ((f.actOf h ends c).lanes == 0) = true := by simpa [Fibre.actOf] using h4
  have h6 : ¬ (f.owes reads && f.acting h c != 0) = true := by simp [ho]
  unfold runWord
  simp only [h1, h2, if_neg h3, if_neg h6, if_neg h5, hb]

/-- A word whose body traps has no effect. -/
theorem runWord_bad {h : Hdr} {ends : Bool} {reads last : List Nat} {pj : Nat} {s : State} {body : Act → State → Out} {c : Cur}
    {f : Fibre} (hi : Issues s h c f) (ho : f.owes reads = false) {t : TrapInfo}
    (hb : body (f.actOf h ends c) ((s.settleLoads c.ref).begun f h ends reads last c) = .bad t) :
    runWord h ends reads last pj s body =
      .next (((s.settleLoads c.ref).turned c).takeTrap c.ref (underGov t (f.actOf h ends c).gov)) := by
  obtain ⟨h1, h2, h3, h4, -⟩ := hi
  have h5 : ¬ ((f.actOf h ends c).lanes == 0) = true := by simpa [Fibre.actOf] using h4
  have h6 : ¬ (f.owes reads && f.acting h c != 0) = true := by simp [ho]
  unfold runWord
  simp only [h1, h2, if_neg h3, if_neg h6, if_neg h5, hb]
  rfl

/-- A word whose body waits. -/
theorem runWord_hold {h : Hdr} {ends : Bool} {reads last : List Nat} {pj : Nat} {s : State} {body : Act → State → Out} {c : Cur}
    {f : Fibre} (hi : Issues s h c f) (ho : f.owes reads = false) {t : State} {m : Mask} {w : WaitCond} {p : Bool}
    (hb : body (f.actOf h ends c) ((s.settleLoads c.ref).begun f h ends reads last c) = .hold t m w p) :
    runWord h ends reads last pj s body = .next (t.holdAt h (f.actOf h ends c) f m w p) := by
  obtain ⟨h1, h2, h3, h4, -⟩ := hi
  have h5 : ¬ ((f.actOf h ends c).lanes == 0) = true := by simpa [Fibre.actOf] using h4
  have h6 : ¬ (f.owes reads && f.acting h c != 0) = true := by simp [ho]
  unfold runWord
  simp only [h1, h2, if_neg h3, if_neg h6, if_neg h5, hb]

/-- A word whose body has issued with a faulted access. -/
theorem runWord_logged {h : Hdr} {ends : Bool} {reads last : List Nat} {pj : Nat} {s : State} {body : Act → State → Out} {c : Cur}
    {f : Fibre} (hi : Issues s h c f) (ho : f.owes reads = false) {u : State} {t : TrapInfo}
    (hb : body (f.actOf h ends c) ((s.settleLoads c.ref).begun f h ends reads last c) = .logged u t) :
    runWord h ends reads last pj s body =
      .next ((u.finish h (f.actOf h ends c) pj).takeTrap c.ref (underGov t (f.actOf h ends c).gov)) := by
  obtain ⟨h1, h2, h3, h4, -⟩ := hi
  have h5 : ¬ ((f.actOf h ends c).lanes == 0) = true := by simpa [Fibre.actOf] using h4
  have h6 : ¬ (f.owes reads && f.acting h c != 0) = true := by simp [ho]
  unfold runWord
  simp only [h1, h2, if_neg h3, if_neg h6, if_neg h5, hb]

/-- A word that reads registers a tile read owes waits for them. -/
theorem runWord_owes {h : Hdr} {ends : Bool} {reads last : List Nat} {pj : Nat} {s : State} {body : Act → State → Out} {c : Cur}
    {f : Fibre} (hi : Issues s h c f) (ho : f.owes reads = true) :
    runWord h ends reads last pj s body =
      .next ((s.settleLoads c.ref).holdAt h (f.actOf h ends c) f c.lanes (.regs reads) false) := by
  obtain ⟨h1, h2, h3, h4, -⟩ := hi
  have h6 : (f.owes reads && f.acting h c != 0) = true := by simpa [ho] using h4
  unfold runWord
  simp only [h1, h2, if_neg h3, if_pos h6]

/-- A word run by `runWord` waits for registers that it reads and a tile read owes. -/
theorem awaits_of_runWord {i : Instr} {s : State} {h : Hdr} {ends : Bool} {reads last : List Nat} {pj : Nat}
    {body : Act → State → Out} (he : exec i s = runWord h ends reads last pj s body) : AwaitsOwed i s h ends reads := by
  intro c f hi ho
  rw [he]
  exact runWord_owes hi ho

/-- A word run by `runWord` does what its body does. -/
theorem does_of_runWord {i : Instr} {s : State} {h : Hdr} {ends : Bool} {reads last : List Nat} {pj : Nat} {P : Act → State → Prop}
    {E : Act → State → State} {body : Act → State → Out} (he : exec i s = runWord h ends reads last pj s body)
    (hb : ∀ a b, P a b → body a b = .done (E a b)) : Does i s h ends reads last pj P E := by
  intro c f hi
  dsimp only
  intro ho hp
  rw [he]
  exact runWord_done hi ho (hb _ _ hp)

/-- A word run by `runWord` traps where its body does. -/
theorem traps_of_runWord {i : Instr} {s : State} {h : Hdr} {ends : Bool} {reads last : List Nat} {pj : Nat} {P : Act → State → Prop}
    {T : Act → State → TrapInfo} {body : Act → State → Out} (he : exec i s = runWord h ends reads last pj s body)
    (hb : ∀ a b, P a b → body a b = .bad (T a b)) : Traps i s h ends reads last P T := by
  intro c f hi
  dsimp only
  intro ho hp
  rw [he]
  exact runWord_bad hi ho (hb _ _ hp)

/-- A word run by `runWord` waits where its body does. -/
theorem waits_of_runWord {i : Instr} {s : State} {h : Hdr} {ends : Bool} {reads last : List Nat} {pj : Nat} {P : Act → State → Prop}
    {E : Act → State → State} {M : Act → Mask} {cond : Act → State → WaitCond} {parks : Bool} {body : Act → State → Out}
    (he : exec i s = runWord h ends reads last pj s body) (hb : ∀ a b, P a b → body a b = .hold (E a b) (M a) (cond a b) parks) :
    Waits i s h ends reads last P E M cond parks := by
  intro c f hi
  dsimp only
  intro ho hp
  rw [he]
  exact runWord_hold hi ho (hb _ _ hp)

/-- A word run by `runWord` leaves what its body leaves. -/
theorem doesTo_of_runWord {i : Instr} {s : State} {h : Hdr} {ends : Bool} {reads last : List Nat} {pj : Nat}
    {R : Act → State → State → Prop} {body : Act → State → Out} (he : exec i s = runWord h ends reads last pj s body)
    (hb : ∀ a b t, R a b t → body a b = .done t) : DoesTo i s h ends reads last pj R := by
  intro c f hi
  dsimp only
  intro ho t ht
  rw [he]
  exact runWord_done hi ho (hb _ _ _ ht)

/-- A word run by `onceWord` leaves what its body leaves. -/
theorem onceTo_of_onceWord {i : Instr} {s : State} {h : Hdr} {srcs : List (Src × Nat)} {dsts : List Nat}
    {R : Act → State → State → Prop} {body : Act → State → Out} (he : exec i s = onceWord h srcs dsts s body)
    (hb : ∀ a b t, R a b t → body a b = .done t) : OnceTo i s h srcs dsts R :=
  doesTo_of_runWord he (fun a b t ⟨h1, h2⟩ => by rw [h1]; exact hb a b t h2)

/-- A word run by `onceWord` does what its body does. -/
theorem onceDoes_of_onceWord {i : Instr} {s : State} {h : Hdr} {srcs : List (Src × Nat)} {dsts : List Nat}
    {P : Act → State → Prop} {E : Act → State → State} {body : Act → State → Out} (he : exec i s = onceWord h srcs dsts s body)
    (hb : ∀ a b, P a b → body a b = .done (E a b)) : OnceDoes i s h srcs dsts P E :=
  does_of_runWord he (fun a b ⟨h1, h2⟩ => by rw [h1]; exact hb a b h2)

/-- A word run by `onceWord` traps where its body does. -/
theorem onceTraps_of_onceWord {i : Instr} {s : State} {h : Hdr} {srcs : List (Src × Nat)} {dsts : List Nat} {n : Nat}
    {P : Act → State → Prop} {body : Act → State → Out} (he : exec i s = onceWord h srcs dsts s body)
    (hb : ∀ a b, P a b → body a b = .bad (a.operand a.low n)) : OnceTraps i s h srcs dsts n P :=
  traps_of_runWord he (fun a b ⟨h1, h2⟩ => by rw [h1]; exact hb a b h2)

/-! ### The state in which a word acts -/

/-- The fibre as the word acts: its group has passed the word. -/
theorem fib_begun {s : State} {f : Fibre} {c : Cur} (h : Hdr) (ends : Bool) (reads last : List Nat) (hf : s.fib c.ref = some f) :
    ∃ u rl, (s.begun f h ends reads last c).fib c.ref =
      some { f.issue c.lanes c.pc ends with undefRead := u, released := rl } := by
  unfold State.begun State.release
  have h1 := fib_setFib_same hf (f.issue c.lanes c.pc ends)
  dsimp only
  split
  · exact ⟨_, _, fib_modFib_same h1 _⟩
  · unfold State.noteReads
    split
    · exact ⟨_, _, fib_modFib_same (fib_modFib_same h1 _) _⟩
    · exact ⟨_, _, fib_modFib_same h1 _⟩

theorem regOpt_setFib {s : State} {r : FibRef} {f g : Fibre} (hf : s.fib r = some f) (h1 : g.fixed = f.fixed)
    (h2 : g.regs = f.regs) (h3 : g.trap = f.trap) (n : Nat) : (s.setFib r g).regOpt r n = s.regOpt r n :=
  regOpt_congr (Calm.ofSet hf h1) hf (fib_setFib_same hf g) (windows_setFib ..) (by simp [Fibre.ownReg, Fibre.handler, h2, h3])

theorem regOpt_noteReads (s : State) (r : FibRef) (l : List Nat) (n : Nat) : (s.noteReads r l).regOpt r n = s.regOpt r n := by
  unfold State.noteReads; split
  · apply regOpt_modFib <;> intro _ <;> rfl
  · rfl

theorem regOpt_release (s : State) (r : FibRef) (l : List Nat) (m : Mask) (n : Nat) : (s.release r l m).regOpt r n = s.regOpt r n := by
  unfold State.release; apply regOpt_modFib <;> intro _ <;> rfl

/-- Every name reads in a word as before it. -/
theorem regOpt_begun {s : State} {f : Fibre} {c : Cur} (h : Hdr) (ends : Bool) (reads last : List Nat) (hf : s.fib c.ref = some f)
    (n : Nat) : (s.begun f h ends reads last c).regOpt c.ref n = s.regOpt c.ref n := by
  unfold State.begun
  dsimp only
  rw [regOpt_release]
  split
  · exact regOpt_setFib (g := f.issue c.lanes c.pc ends) hf rfl rfl rfl n
  · rw [regOpt_noteReads]; exact regOpt_setFib (g := f.issue c.lanes c.pc ends) hf rfl rfl rfl n

theorem reg_begun {s : State} {f : Fibre} {c : Cur} (h : Hdr) (ends : Bool) (reads last : List Nat) (hf : s.fib c.ref = some f)
    (n : Nat) : (s.begun f h ends reads last c).reg c.ref n = s.reg c.ref n := by
  unfold State.reg; rw [regOpt_begun h ends reads last hf]

theorem latches_begun {s : State} {f : Fibre} {c : Cur} (h : Hdr) (ends : Bool) (reads last : List Nat) (hf : s.fib c.ref = some f) :
    ((s.begun f h ends reads last c).fib c.ref).map (·.latches) = (s.fib c.ref).map (·.latches) := by
  obtain ⟨u, rl, hg⟩ := fib_begun h ends reads last hf
  rw [hg, hf]; rfl

theorem srcLane_begun {s : State} {f : Fibre} {c : Cur} (h : Hdr) (ends : Bool) (reads last : List Nat) (hf : s.fib c.ref = some f)
    (a : Src) (i : Nat) : (s.begun f h ends reads last c).srcLane c.ref a i = s.srcLane c.ref a i := by
  cases a with
  | reg n l => simp only [State.srcLane, reg_begun h ends reads last hf]
  | latch b =>
    obtain ⟨u, rl, hg⟩ := fib_begun h ends reads last hf
    simp only [State.srcLane, hg, hf]; rfl
  | imm v => rfl

/-- Every operand has in a word the value it had before it. -/
theorem opLane_begun {s : State} {f : Fibre} {c : Cur} (h : Hdr) (ends : Bool) (reads last : List Nat) (hf : s.fib c.ref = some f)
    (o : Operand) (i : Nat) : (s.begun f h ends reads last c).opLane c.ref o i = s.opLane c.ref o i := by
  unfold State.opLane
  cases o.src with
  | reg n l => simp only [reg_begun h ends reads last hf]
  | latch b => dsimp only; rw [srcLane_begun h ends reads last hf]
  | imm v => rfl

theorem badLatch_begun {s : State} {f : Fibre} {c : Cur} (h : Hdr) (ends : Bool) (reads last : List Nat) (hf : s.fib c.ref = some f)
    (a : Src) (m : Mask) : (s.begun f h ends reads last c).badLatch c.ref a m = s.badLatch c.ref a m := by
  cases a with
  | reg n l => rfl
  | latch b =>
    obtain ⟨u, rl, hg⟩ := fib_begun h ends reads last hf
    simp only [State.badLatch, hg, hf]; rfl
  | imm v => rfl

theorem badLatches_begun {s : State} {f : Fibre} {c : Cur} (h : Hdr) (ends : Bool) (reads last : List Nat) (hf : s.fib c.ref = some f)
    (l : List Src) (m : Mask) : (s.begun f h ends reads last c).badLatches c.ref l m = s.badLatches c.ref l m := by
  unfold State.badLatches
  have : (fun a => (s.begun f h ends reads last c).badLatch c.ref a m) = (fun a => s.badLatch c.ref a m) := by
    funext a; exact badLatch_begun h ends reads last hf a m
  rw [this]

theorem windows_begun (s : State) (f : Fibre) (c : Cur) (h : Hdr) (ends : Bool) (reads last : List Nat) :
    (Map.find (s.begun f h ends reads last c).wgs c.ref.wg).map (fun w => (w.launch, w.windows)) =
      (Map.find s.wgs c.ref.wg).map (fun w => (w.launch, w.windows)) := by
  have key : ∀ (x : State) (k : Fibre → Fibre), (Map.find (x.modFib c.ref k).wgs c.ref.wg).map (fun w => (w.launch, w.windows)) =
      (Map.find x.wgs c.ref.wg).map (fun w => (w.launch, w.windows)) := by
    intro x k
    simp only [modFib_wgs, Map.find_modify, if_true]
    cases Map.find x.wgs c.ref.wg <;> rfl
  have key2 : (Map.find (s.setFib c.ref (f.issue c.lanes c.pc ends)).wgs c.ref.wg).map (fun w => (w.launch, w.windows)) =
      (Map.find s.wgs c.ref.wg).map (fun w => (w.launch, w.windows)) := by
    simp only [setFib_wgs, Map.find_modify, if_true]
    cases Map.find s.wgs c.ref.wg <;> rfl
  unfold State.begun State.release
  dsimp only
  rw [key]
  split
  · exact key2
  · unfold State.noteReads
    split
    · rw [key]; exact key2
    · exact key2

/-- Whether destinations can be written does not change as a word begins. -/
theorem writeFault_begun {s : State} {f : Fibre} {c : Cur} (h : Hdr) (ends : Bool) (reads last : List Nat) (hf : s.fib c.ref = some f)
    (l : List Nat) : (s.begun f h ends reads last c).writeFault c.ref l = s.writeFault c.ref l := by
  have hc := calm_begun h ends reads last hf
  obtain ⟨u, rl, hg⟩ := fib_begun h ends reads last hf
  obtain ⟨w, hw, -⟩ := fib_some hf
  obtain ⟨v, hv, hvw⟩ := wg_of_calm hc hw
  have hk := windows_begun s f c h ends reads last
  rw [hv, hw] at hk
  simp only [Option.map_some, Option.some.injEq, Prod.mk.injEq] at hk
  have hl : (s.begun f h ends reads last c).launches = s.launches := launches_of_calm hc
  have hla : ∀ x, (s.begun f h ends reads last c).launch x = s.launch x := by intro x; simp [State.launch, hl]
  have hwc : ∀ n, (s.begun f h ends reads last c).writeCheck c.ref n = s.writeCheck c.ref n := by
    intro n
    unfold State.writeCheck State.mappedCount
    simp only [hg, hv, hf, hw, windowOf_calm hc, hla, hk.1, hk.2]
    rfl
  have hmc : (s.begun f h ends reads last c).mappedCount c.ref = s.mappedCount c.ref := by
    unfold State.mappedCount
    simp only [hg, hv, hf, hw, hla, hk.1, hk.2]
    rfl
  unfold State.writeFault
  simp only [hg, hv, hf, hw, hwc, hmc, windowOf_calm hc, hla, hk.1]
  rfl

/-! ### What a word that has completed leaves -/

theorem find_filter_freed (f : Fibre) (n : Nat) :
    Map.find (f.regs.filter (fun e => !(f.freed e.1))) n = if f.freed n then none else Map.find f.regs n := by
  induction f.regs with
  | nil => simp
  | cons e l ih =>
    rw [List.filter_cons]
    by_cases he : e.1 = n
    · subst he
      cases hx : f.freed e.1 with
      | true => simp only [Bool.not_true, Bool.false_eq_true, if_false, ih, hx, if_true]
      | false => simp [Map.find_cons]
    · split
      · simp only [Map.find_cons, ih]; simp [he]
      · rw [ih, Map.find_cons]; simp [he]

/-- The sweep of a fibre: names that every live thread has released are unmapped, and nothing else changes. -/
theorem fib_sweep {s : State} {r : FibRef} {f : Fibre} (hf : s.fib r = some f) :
    ∃ rg rl, (s.sweep r).fib r = some { f with regs := rg, released := rl } ∧
      ∀ n, Map.find rg n = if f.freed n then none else Map.find f.regs n := by
  unfold State.sweep
  rw [hf]
  dsimp only
  split
  · rename_i he
    refine ⟨f.regs, f.released, hf, ?_⟩
    intro n
    rw [← find_filter_freed]
    congr 1
    symm
    rw [List.filter_eq_self]
    intro e hm
    have : f.regs.filter (fun e => f.freed e.1) = [] := by simpa using he
    rw [List.filter_eq_nil_iff] at this
    simpa using this e hm
  · refine ⟨_, _, fib_setFib_same (f0 := f) ?_ _, find_filter_freed f⟩
    refine Eq.trans (fib_modWg_keep ?_ r) hf
    intro _; rfl

theorem windows_sweep (s : State) (r : FibRef) (g : Nat) :
    (Map.find (s.sweep r).wgs g).map (·.windows) = (Map.find s.wgs g).map (·.windows) := by
  unfold State.sweep
  cases s.fib r with
  | none => rfl
  | some f =>
    dsimp only
    split
    · rfl
    · rw [windows_setFib]
      refine windows_modWg_keep ?_ g
      intro _; rfl

/-- A name after the sweep: as before, or unmapped because every live thread has released it. -/
theorem regOpt_sweep {s : State} {r : FibRef} {f : Fibre} (hf : s.fib r = some f) (n : Nat) :
    (s.sweep r).regOpt r n = s.regOpt r n ∨
      ((s.sweep r).regOpt r n = none ∧ f.freed n = true ∧ f.isH n = false ∧ s.windowOf r n = none) := by
  obtain ⟨rg, rl, hg, hfind⟩ := fib_sweep hf
  have hc : Calm s (s.sweep r) r := (Calm.refl s r).sweep
  cases hx : f.freed n with
  | false =>
    left
    refine regOpt_congr hc hf hg (windows_sweep s r r.wg) ?_
    simp only [Fibre.ownReg, hfind, hx, Bool.false_eq_true, if_false]; rfl
  | true =>
    rw [regOpt_eq hg, regOpt_eq hf, windowOf_calm hc]
    have h1 : ({ f with regs := rg, released := rl } : Fibre).isH n = f.isH n := rfl
    rw [h1]
    split
    · rename_i hH
      left
      obtain ⟨t, ht, -, hn⟩ := isH_frame hH
      have ht2 : ({ f with regs := rg, released := rl } : Fibre).handler = some t := ht
      simp [Fibre.ownReg, ht, ht2, hn]
    · rename_i hH
      cases hwin : s.windowOf r n with
      | some x =>
        left
        dsimp only
        rw [windowReg_congr (windows_sweep s r r.wg)]
      | none =>
        right
        refine ⟨?_, rfl, by simpa using hH, rfl⟩
        dsimp only
        unfold Fibre.ownReg
        have ht2 : ({ f with regs := rg, released := rl } : Fibre).handler = f.handler := rfl
        rw [ht2]
        cases ht : f.handler with
        | none => simp [hfind, hx]
        | some t =>
          have : ¬ n < 16 := by simp [Fibre.isH, ht] at hH; omega
          simp [this, hfind, hx]

/-- The part of a finished word after the sweep. -/
def State.afterSweep (s : State) (h : Hdr) (a : Act) (pj : Nat) : State :=
  let s := s.modFib a.ref (fun f => { f with
    delayUntil := if h.delay == 0 then f.delayUntil else s.tick + h.delay.toNat + 1
    redo := if f.redo.map (·.1) == some a.pc then none else f.redo })
  let s := if h.y || a.gov.left != 0 then s.switchPoint a.ref else s
  let s := s.countWord a.ref.wg
  if (Map.find s.wgs a.ref.wg).isSome then s.charge (s.ctxOf a.ref.wg) pj else s

theorem finish_eq (s : State) (h : Hdr) (a : Act) (pj : Nat) : s.finish h a pj = (s.sweep a.ref).afterSweep h a pj := rfl

theorem switchPoint_wgs (s : State) (r : FibRef) : (s.switchPoint r).wgs = s.wgs ∧ (s.switchPoint r).launches = s.launches := by
  unfold State.switchPoint
  dsimp only
  split
  · exact ⟨rfl, rfl⟩
  · exact ⟨rfl, rfl⟩

theorem regOpt_afterSweep (s : State) (h : Hdr) (a : Act) (pj : Nat) (n : Nat) :
    (s.afterSweep h a pj).regOpt a.ref n = s.regOpt a.ref n := by
  have h1 : (s.modFib a.ref (fun f => { f with
      delayUntil := if h.delay == 0 then f.delayUntil else s.tick + h.delay.toNat + 1
      redo := if f.redo.map (·.1) == some a.pc then none else f.redo })).regOpt a.ref n = s.regOpt a.ref n := by
    apply regOpt_modFib <;> intro _ <;> rfl
  unfold State.afterSweep
  dsimp only
  generalize (s.modFib a.ref _) = x at h1 ⊢
  have h2 : (if (h.y || a.gov.left != 0) = true then x.switchPoint a.ref else x).regOpt a.ref n = x.regOpt a.ref n := by
    split
    · exact regOpt_of_wgs (switchPoint_wgs x a.ref).1 (switchPoint_wgs x a.ref).2 _ _
    · rfl
  generalize (if (h.y || a.gov.left != 0) = true then x.switchPoint a.ref else x) = y at h2 ⊢
  have h3 : (y.countWord a.ref.wg).regOpt a.ref n = y.regOpt a.ref n := by
    unfold State.countWord; apply regOpt_modWg <;> intro _ <;> rfl
  generalize y.countWord a.ref.wg = z at h3 ⊢
  rw [← h1, ← h2, ← h3]
  split
  · exact regOpt_of_wgs rfl rfl _ _
  · rfl

theorem fib_afterSweep {s : State} {h : Hdr} {a : Act} {pj : Nat} {f : Fibre} (hf : s.fib a.ref = some f) :
    ∃ d r, (s.afterSweep h a pj).fib a.ref = some { f with delayUntil := d, redo := r } := by
  have h1 := fib_modFib_same hf (fun f => { f with
      delayUntil := if h.delay == 0 then f.delayUntil else s.tick + h.delay.toNat + 1
      redo := if f.redo.map (·.1) == some a.pc then none else f.redo })
  refine ⟨_, _, Eq.trans ?_ h1⟩
  unfold State.afterSweep
  dsimp only
  generalize (s.modFib a.ref _) = x
  have h2 : (if (h.y || a.gov.left != 0) = true then x.switchPoint a.ref else x).fib a.ref = x.fib a.ref := by
    split
    · exact fib_of_wgs (switchPoint_wgs x a.ref).1 _
    · rfl
  generalize (if (h.y || a.gov.left != 0) = true then x.switchPoint a.ref else x) = y at h2 ⊢
  have h3 : (y.countWord a.ref.wg).fib a.ref = y.fib a.ref := by
    unfold State.countWord; apply fib_modWg_keep; intro _; rfl
  generalize y.countWord a.ref.wg = z at h3 ⊢
  rw [← h2, ← h3]
  split <;> rfl

/-- The fibre after a finished word. -/
theorem fib_finish {s : State} {h : Hdr} {a : Act} {pj : Nat} {f : Fibre} (hf : s.fib a.ref = some f) :
    ∃ rg rl d r, (s.finish h a pj).fib a.ref = some { f with regs := rg, released := rl, delayUntil := d, redo := r } := by
  rw [finish_eq]
  obtain ⟨rg, rl, hg, -⟩ := fib_sweep hf
  obtain ⟨d, r, hx⟩ := fib_afterSweep (h := h) (pj := pj) hg
  exact ⟨rg, rl, d, r, hx⟩

/-- A name after a finished word: as before, or unmapped because every live thread has released it. -/
theorem regOpt_finish {s : State} {h : Hdr} {a : Act} {pj : Nat} {f : Fibre} (hf : s.fib a.ref = some f) (n : Nat) :
    (s.finish h a pj).regOpt a.ref n = s.regOpt a.ref n ∨
      ((s.finish h a pj).regOpt a.ref n = none ∧ f.freed n = true ∧ f.isH n = false ∧ s.windowOf a.ref n = none) := by
  rw [finish_eq, regOpt_afterSweep]
  exact regOpt_sweep hf n

/-! ### Settling loads -/

theorem calm_loadDone (s : State) (r : FibRef) : Calm s (s.loadDone r) r := by
  unfold State.loadDone
  cases hf : s.fib r with
  | none => exact Calm.refl s r
  | some f =>
    dsimp only
    cases hl : f.loads with
    | nil => exact Calm.refl s r
    | cons l rest =>
      dsimp only
      have h0 : Calm s (s.setFib r { f with loads := rest }) r := Calm.ofSet hf rfl
      suffices H : ∀ (vs : List LaneVec) (x : State × Nat), Calm s x.1 r →
          Calm s (vs.foldl (fun (p : State × Nat) v => (p.1.writeReg r p.2 (l.lanes &&& f.live) v, p.2 + 1)) x).1 r from H _ _ h0
      intro vs
      induction vs with
      | nil => intro x hx; exact hx
      | cons v vs ih => intro x hx; exact ih _ hx.writeReg

/-- Completing the loads of a fibre is something a register word may do. -/
theorem calm_settleLoads (s : State) (r : FibRef) : Calm s (s.settleLoads r) r := by
  unfold State.settleLoads
  suffices H : ∀ (l : List Nat) (x : State), Calm s x r → Calm s (l.foldl (fun s _ => s.loadDone r) x) r from H _ _ (Calm.refl s r)
  intro l
  induction l with
  | nil => intro x hx; exact hx
  | cons v vs ih => intro x hx; exact ih _ (hx.trans (calm_loadDone x r))

end Sys2Proof.Machine
end

