-- ==== Sys2Proof/Laws/Once.lean ====
section
/-! SUPPORT. The words that act once for their fibre, and the words of the matrix classes: from a body to a statement; and the waits
that words share, once what they wait for has come. -/

namespace Sys2Proof.Machine

/-- A word with no waiting `MCFG` of its work-group goes on (R196). -/
theorem afterConfig_free {a : Act} {b : State} {k : State → Out} (h : b.claimOf a.ref.wg = none) : afterConfig a b k = k b := by
  unfold afterConfig; rw [h]

/-- A matrix word leaves what its body leaves. -/
theorem matTo_of_matWord {i : Instr} {s : State} {h : Hdr} {srcs : List (Src × Nat)} {R : Act → State → State → Prop}
    {body : Act → State → Out} (he : exec i s = matWord h srcs [] [] 6 s body) (hb : ∀ a b t, R a b t → body a b = .done t) :
    MatTo i s h srcs R :=
  doesTo_of_runWord he (fun a b t ⟨h1, h2⟩ => by rw [afterConfig_free h1]; exact hb a b t h2)

/-- A matrix word does what its body does. -/
theorem matDoes_of_matWord {i : Instr} {s : State} {h : Hdr} {srcs : List (Src × Nat)} {P : Act → State → Prop}
    {E : Act → State → State} {body : Act → State → Out} (he : exec i s = matWord h srcs [] [] 6 s body)
    (hb : ∀ a b, P a b → body a b = .done (E a b)) : MatDoes i s h srcs P E :=
  does_of_runWord he (fun a b ⟨h1, h2⟩ => by rw [afterConfig_free h1]; exact hb a b h2)

/-- A matrix word traps where its body does. -/
theorem matTraps_of_matWord {i : Instr} {s : State} {h : Hdr} {srcs : List (Src × Nat)} {P : Act → State → Prop}
    {T : Act → State → TrapInfo} {body : Act → State → Out} (he : exec i s = matWord h srcs [] [] 6 s body)
    (hb : ∀ a b, P a b → body a b = .bad (T a b)) : MatTraps i s h srcs P T :=
  traps_of_runWord he (fun a b ⟨h1, h2⟩ => by rw [afterConfig_free h1]; exact hb a b h2)

/-- A word that waits for its fibre's operations of the array goes on once none is left (R83, R187). -/
theorem afterOwn_free {a : Act} {b : State} {k : State → Out} (h : b.arrayBusy a.ref .fibre = false) : afterOwn a b k = k b := by
  unfold afterOwn; simp [h]

/-- A word that references a slot which does not load goes on (R180). -/
theorem afterLoad_idle {a : Act} {b : State} {k : Nat} {go : State → Out}
    (h : ∀ w, b.wslot a.ref.wg k = some w → w.st ≠ .loading) : afterLoad a b k go = go b := by
  unfold afterLoad
  split
  · rename_i x hx; rw [if_neg (by simpa using h x hx)]
  · rfl

/-- A word that changes a slot goes on where nothing references it and, where that matters, nothing loads it (R203). -/
theorem afterSlot_free {a : Act} {b : State} {phys : Nat} {bank : Option Nat} {load : Bool} {k : State → Out}
    (h1 : b.referenced (b.coreOf a.ref.wg) phys bank = false)
    (h2 : load = true → ∀ y, b.slotAt a.ref.wg phys = some y → y.st ≠ .loading) : afterSlot a b phys bank load k = k b := by
  have : b.slotWait a.ref.wg phys bank load = none := by
    unfold State.slotWait
    rw [if_neg]
    cases load with
    | false => simp [h1]
    | true =>
      cases hs : b.slotAt a.ref.wg phys with
      | none => simp [h1]
      | some y => simpa [h1] using h2 rfl y hs
  unfold afterSlot; rw [this]

/-- A queue with room takes quarters at once (R172). -/
theorem roomFor_room {a : Act} {b : State} {k : Nat} {go : State → Out} (h : b.arrayBusy a.ref (.queue k) = false) :
    roomFor a b k go = go b := by
  unfold roomFor; simp [h]

/-- A word whose fibre's earlier stores can leave goes on once they have (R235, R247). -/
theorem afterStores_leave {a : Act} {b : State} {k : State → Out} (h : b.storesLeave a.ref) : afterStores a b k = k (b.drain a.ref).1 := by
  obtain ⟨h1, h2⟩ := h
  unfold afterStores
  rw [if_neg (by simp [h1])]
  rcases hd : b.drain a.ref with ⟨v, o⟩
  rw [hd] at h2
  obtain rfl : o = none := h2
  rfl

/-- A word that releases goes on with the fibre's clock (R253, R275). -/
theorem afterRelease_leave {a : Act} {b : State} {sc : Scope} {k : State → Nat → Out} (h : b.storesLeave a.ref) :
    afterRelease a b sc k = k (b.released a sc).2 (b.released a sc).1 := by
  unfold afterRelease; rw [afterStores_leave h]; rfl

/-- A word that may need a place of the operand log goes on with one (R235). -/
theorem afterLog_goes {a : Act} {b : State} {needs : Bool} {k : State → Out} (h : b.logGoes a.ref needs) :
    afterLog a b needs k = k (b.withLog a.ref needs).1 := by
  obtain ⟨h1, h2⟩ := h
  unfold afterLog
  unfold State.withLog at h1 h2 ⊢
  cases needs with
  | false => rfl
  | true =>
    simp only [Bool.not_true, Bool.false_eq_true, if_false, if_true] at h1 h2 ⊢
    rcases hd : State.logRoom a.ref (16 * ((b.fib a.ref).map (·.curQueue.length)).getD 0 + 1) b with ⟨v, o⟩
    rw [hd] at h1 h2
    obtain rfl : o = none := h1
    have h3 : v.logFull a.ref = false := h2 trivial
    simp [h3]

/-- A word that no race stops goes on, and its commit notes what the check says (R285, R288). -/
theorem afterCheck_ok {a : Act} {b known : State} {l : List (Nat × Nat × Nat × Nat)} {race : Nat → Nat → List Word → Out} {k : Out}
    (h : (known.raceCheck a (b.agent a.ref.wg) l).isOk = true) :
    afterCheck a b known l race k = k.noting a.ref ((known.raceCheck a (b.agent a.ref.wg) l).toOption.getD (0, none)) := by
  unfold afterCheck
  cases hr : known.raceCheck a (b.agent a.ref.wg) l with
  | error e => rw [hr] at h; cases h
  | ok c => rfl

/-- What a word that acts once does after its check (R288). -/
theorem onceChecked_ok {a : Act} {b : State} {l : List (Nat × Nat × Nat × Nat)} {k : State → Out}
    (h1 : b.logGoes a.ref (b.launchOf a.ref.wg).checked)
    (h2 : ((b.withLog a.ref (b.launchOf a.ref.wg).checked).1.raceCheck a
      ((b.withLog a.ref (b.launchOf a.ref.wg).checked).1.agent a.ref.wg) l).isOk = true) :
    onceChecked a b l k = (k (b.withLog a.ref (b.launchOf a.ref.wg).checked).1).noting a.ref
      (((b.withLog a.ref (b.launchOf a.ref.wg).checked).1.raceCheck a
        ((b.withLog a.ref (b.launchOf a.ref.wg).checked).1.agent a.ref.wg) l).toOption.getD (0, none)) := by
  unfold onceChecked; rw [afterLog_goes h1]; exact afterCheck_ok h2

/-- A word that reads records goes on with their bytes (R247, R288). -/
theorem ownRecords_go {a : Act} {b : State} {o size n : Nat} {k : List (List Byte) → State → Out} (h : RecordsGo a b o size n) :
    ownRecords a b o size n k = (k (b.recordsAt a o size n) (b.recordsReady a)).noting a.ref (b.recordsNote a o size n) := by
  obtain ⟨h1, h2, h3⟩ := h
  unfold ownRecords State.recordsAt State.recordsReady State.recordsNote
  unfold State.recordsCheck State.onceCheck at h3 ⊢
  rcases hs : b.settleAtomics a.ref with ⟨v, o⟩
  rw [hs] at h1 h2 h3
  obtain rfl : o = none := h1
  dsimp only at h2 h3 ⊢
  exact onceChecked_ok h2 h3

end Sys2Proof.Machine
end

