-- ==== Sys2Proof/Laws/Access.lean ====
section
/-! SUPPORT. What the shared bodies of loads, stores, releases and kicks do, once for every word that is built from them. -/

namespace Sys2Proof.Machine

/-- A sign-extended literal, as an integer. -/
theorem sext_toInt (x : BitVec 32) : sext x.toNat 32 = x.toInt := by
  unfold sext; rw [BitVec.toInt_eq_toNat_cond]; simp only [Nat.mod_eq_of_lt x.isLt]; rfl

/-- A load that executes normally leaves what `State.loaded` says. -/
theorem loadBody_goes {a : Act} {b : State} {d : Nat} {size : Size} {sgn : Bool} {acq : Option Scope} {byp u : Bool}
    {all : List LaneAcc} (h : LoadGoes a b size.bytes acq byp all) :
    loadBody a b all d size.regs size.bytes sgn acq byp u = .done (b.loaded a d size sgn acq byp u all) := by
  unfold LoadGoes at h
  unfold loadBody State.loaded
  dsimp only at h ⊢
  rcases h with h1 | ⟨h2, h3, h4, h5, h6, h7⟩
  · rw [if_pos (by simp [h1]), if_pos h1]
  · by_cases h1 : (b.bounds a.ref.wg size.bytes all).1 = []
    · rw [if_pos (by simp [h1]), if_pos h1]
    · rw [if_neg (by simpa using h1), if_neg h1, if_neg (by simp [h2]), if_neg (by simp [h3])]
      rcases hs : (b.switchOff a.ref (b.bounds a.ref.wg size.bytes all).2).settleAtomics a.ref with ⟨v, o⟩
      rw [hs] at h4 h5
      obtain rfl : o = none := h4
      dsimp only at h5 ⊢
      rw [afterLog_goes h5]
      have hy : (v.withLog a.ref (v.mayLog a.ref (b.bounds a.ref.wg size.bytes all).1)).1 = b.loadReady a size.bytes all := by
        unfold State.loadReady; rw [hs]
      rw [hy]
      unfold State.loadCheck at h6 ⊢
      unfold State.loadRead at h7 ⊢
      dsimp only at h6 h7 ⊢
      rw [afterCheck_ok h6]
      unfold loadChecked
      dsimp only
      rcases hl : ((b.loadReady a size.bytes all).chargeLines ((b.loadReady a size.bytes all).agent a.ref.wg)
        (List.map (fun x => (x.addr.toNat, size.bytes)) (b.bounds a.ref.wg size.bytes all).1)).loadAll a.ref
          ((b.loadReady a size.bytes all).agent a.ref.wg) byp false acq.isSome size.bytes (b.bounds a.ref.wg size.bytes all).1 with ⟨r, v4⟩
      rw [hl] at h7 ⊢
      cases r with
      | error e => cases h7
      | ok data => cases acq <;> rfl

/-- A store that executes normally leaves what `State.stored` says. -/
theorem storeBody_goes {a : Act} {b : State} {n : Nat} {kind : StoreKind} {rel : Option Scope} {all : List LaneAcc} {swap : Nat → Nat}
    (h : StoreGoes a b n rel all) : storeBody a b n kind rel all swap = .done (b.stored a n kind rel all swap) := by
  unfold StoreGoes at h
  unfold storeBody State.stored
  dsimp only at h ⊢
  rcases h with h1 | ⟨h2, h3, h4, h5, h6⟩
  · rw [if_pos (by simp [h1]), if_pos h1]
  · by_cases h1 : (b.bounds a.ref.wg n all).1 = []
    · rw [if_pos (by simp [h1]), if_pos h1]
    · rw [if_neg (by simpa using h1), if_neg h1]
      rcases hx : (b.switchOff a.ref (b.bounds a.ref.wg n all).2).readFirst a.ref
        ((b.switchOff a.ref (b.bounds a.ref.wg n all).2).scratchRanges a.ref.wg n (b.bounds a.ref.wg n all).1) with ⟨v, waits⟩
      rw [hx] at h2 h3 h4 h5
      dsimp only at h2 h3 h4 h5 ⊢
      rw [if_neg (by simp [h2]), if_neg (by simp [h3])]
      rcases hs : v.storeRoom a.ref (b.bounds a.ref.wg n all).1.length with ⟨w, o⟩
      rw [hs] at h4 h5
      obtain rfl : o = none := h4
      dsimp only at h5 ⊢
      rw [afterLog_goes h5]
      have hy : (w.withLog a.ref ((b.bounds a.ref.wg n all).1.any (fun x => !(inAperture x.addr.toNat)))).1 = b.storeReady a n all := by
        unfold State.storeReady; dsimp only; rw [hx]; dsimp only; rw [hs]
      rw [hy]
      cases rel with
      | none => rfl
      | some sc => dsimp only; rw [afterRelease_leave (h6 rfl)]

/-- A kick whose queue leaves (R259). -/
theorem kicked_leave {a : Act} {s : State} {sc : Scope} {k : Kick → State → Out} (h : s.storesLeave a.ref) :
    kicked a s sc k = k (s.kickFrom a sc).1 (s.kickFrom a sc).2 := by
  unfold kicked; rw [afterRelease_leave h]; rfl

end Sys2Proof.Machine
end

