-- ==== Sys2Proof/Laws/Encoding.lean ====
section
/-! SUPPORT. The fields of an encoded word, and what the decoder reads back from them. -/

set_option linter.unusedSimpArgs false

namespace Sys2Proof.Laws.Encoding
open Sys2Proof

/-! ### Fields of concatenations -/

theorem and_append {w v n : Nat} (x : BitVec w) (y : BitVec v) (m : BitVec n) (h : w + v = n) :
    ((x ++ y).setWidth n &&& m == 0#n) = ((x &&& m.extractLsb' v w == 0#w) && (y &&& m.extractLsb' 0 v == 0#v)) := by
  subst h
  rw [Bool.eq_iff_iff]
  simp only [BitVec.setWidth_eq, beq_iff_eq, Bool.and_eq_true]
  constructor
  · intro h
    constructor
    · apply BitVec.eq_of_getLsbD_eq; intro i hi
      have := congrArg (fun z => z.getLsbD (v + i)) h
      simpa [BitVec.getLsbD_append, hi] using this
    · apply BitVec.eq_of_getLsbD_eq; intro i hi
      have := congrArg (fun z => z.getLsbD i) h
      simpa [BitVec.getLsbD_append, hi] using this
  · rintro ⟨h1, h2⟩
    apply BitVec.eq_of_getLsbD_eq; intro i hi
    by_cases hv : i < v
    · have := congrArg (fun z => z.getLsbD i) h2
      simpa [BitVec.getLsbD_append, hv] using this
    · have := congrArg (fun z => z.getLsbD (i - v)) h1
      have e : v + (i - v) = i := by omega
      have e2 : i - v < w := by omega
      simpa [BitVec.getLsbD_append, hv, e, e2] using this

theorem verdict_ok (l : List (Bool × Nat)) (i : Instr) (h : l.all (fun p => !p.1) = true) : verdict l i = .ok i := by
  have : l.filter (·.1) = [] := by
    rw [List.filter_eq_nil_iff]; intro p hp; simpa using List.all_eq_true.mp h p hp
  simp [verdict, this]


theorem get_cat {w v n : Nat} (x : BitVec w) (y : BitVec v) (i : Nat) (h : (w + v).beq n = true) :
    ((x ++ y).setWidth n).getLsbD i = if i < v then y.getLsbD i else x.getLsbD (i - v) := by
  obtain rfl := Nat.eq_of_beq_eq_true h; simp [BitVec.getLsbD_append]

theorem get_app {w v : Nat} (x : BitVec w) (y : BitVec v) (i : Nat) :
    (x ++ y).getLsbD i = if i < v then y.getLsbD i else x.getLsbD (i - v) := by
  simp [BitVec.getLsbD_append]

theorem ext_app_lo {w v : Nat} (x : BitVec w) (y : BitVec v) (s l : Nat) (h : (s + l).ble v = true) :
    (x ++ y).extractLsb' s l = y.extractLsb' s l := by
  replace h := Nat.le_of_ble_eq_true h
  apply BitVec.eq_of_getLsbD_eq; intro i hi
  have : s + i < v := by omega
  simp [BitVec.getLsbD_append, hi, this]

theorem ext_app_hi {w v : Nat} (x : BitVec w) (y : BitVec v) (s l : Nat) (h : v.ble s = true) :
    (x ++ y).extractLsb' s l = x.extractLsb' (s - v) l := by
  replace h := Nat.le_of_ble_eq_true h
  apply BitVec.eq_of_getLsbD_eq; intro i hi
  have : ¬ s + i < v := by omega
  have e : s - v + i = s + i - v := by omega
  simp [BitVec.getLsbD_append, hi, this, e]

theorem ext_cat_lo {w v n : Nat} (x : BitVec w) (y : BitVec v) (s l : Nat) (hn : (w + v).beq n = true) (h : (s + l).ble v = true) :
    ((x ++ y).setWidth n).extractLsb' s l = y.extractLsb' s l := by
  obtain rfl := Nat.eq_of_beq_eq_true hn; simpa using ext_app_lo x y s l h

theorem ext_cat_hi {w v n : Nat} (x : BitVec w) (y : BitVec v) (s l : Nat) (hn : (w + v).beq n = true) (h : v.ble s = true) :
    ((x ++ y).setWidth n).extractLsb' s l = x.extractLsb' (s - v) l := by
  obtain rfl := Nat.eq_of_beq_eq_true hn; simpa using ext_app_hi x y s l h

theorem ext_self {w : Nat} (x : BitVec w) : x.extractLsb' 0 w = x := by simp

theorem and_app {w v : Nat} (x : BitVec w) (y : BitVec v) (m : BitVec (w + v)) :
    ((x ++ y) &&& m == 0#(w + v)) = ((x &&& m.extractLsb' v w == 0#w) && (y &&& m.extractLsb' 0 v == 0#v)) := by
  rw [← and_append x y m rfl]; simp


theorem mask_cat {w v n : Nat} (x : BitVec w) (y : BitVec v) (m : BitVec n) (h : (w + v).beq n = true) :
    ((x ++ y).setWidth n &&& m != 0) = ((x &&& m.extractLsb' v w != 0) || (y &&& m.extractLsb' 0 v != 0)) := by
  have := and_append x y m (Nat.eq_of_beq_eq_true h)
  simp only [bne, BitVec.ofNat_eq_ofNat]
  rw [this]; simp

theorem mask_app {w v : Nat} (x : BitVec w) (y : BitVec v) (m : BitVec (w + v)) :
    ((x ++ y) &&& m != 0) = ((x &&& m.extractLsb' v w != 0) || (y &&& m.extractLsb' 0 v != 0)) := by
  rw [← mask_cat x y m (by simp)]; simp

/-! ### Operands -/

theorem src_bits (f : Fields) (s : Src) (h : ∀ v, s = .imm v → f.imm = v) : f.src s.bits = s := by
  cases s with
  | reg n l =>
    cases l <;> simp (disch := decide) only [Fields.src, Src.bits, ext_cat_lo, ext_cat_hi, ext_app_lo, ext_app_hi, ext_self, Nat.reduceSub] <;> rfl
  | latch n => simp (disch := decide) only [Fields.src, Src.bits, ext_cat_lo, ext_cat_hi, ext_app_lo, ext_app_hi, ext_self, Nat.reduceSub]; rfl
  | imm v => simp [Fields.src, Src.bits, h v rfl]

theorem isSel_bits (s : Src) : isSel s.bits = s.isImm := by
  cases s with
  | reg n l => cases l <;> simp (disch := decide) only [isSel, Src.bits, ext_cat_hi, ext_app_lo, ext_app_hi, ext_self, Nat.reduceSub] <;> rfl
  | latch n => simp (disch := decide) only [isSel, Src.bits, ext_cat_hi, ext_app_lo, ext_app_hi, ext_self, Nat.reduceSub]; rfl
  | imm v => simp [isSel, Src.bits, Src.isImm]

theorem badSrc_bits (s : Src) (w : Nat) (sel lo : Bool) : badSrc s.bits w sel lo = !(s.ok w sel lo) := by
  cases s with
  | reg n l =>
    cases l <;> simp (disch := decide) only [badSrc, Src.bits, ext_cat_lo, ext_cat_hi, ext_app_lo, ext_app_hi, ext_self, Nat.reduceSub] <;> rfl
  | latch n =>
    simp (disch := decide) only [badSrc, Src.bits, ext_cat_lo, ext_cat_hi, ext_app_lo, ext_app_hi, ext_self, Nat.reduceSub]
    show (0#6 != 0 || _) = _
    simp [Src.ok]
  | imm v => simp [badSrc, Src.bits, Src.ok]

theorem twoSel_bits (l : List Src) : twoSel (l.map Src.bits) = !(oneImm l) := by
  have : ((l.map Src.bits).filter isSel).length = (l.filter Src.isImm).length := by
    induction l with
    | nil => rfl
    | cons s r ih => cases hs : s.isImm <;> simp [isSel_bits, hs, ih]
  simp only [twoSel, this, oneImm]
  by_cases h : (l.filter Src.isImm).length ≤ 1
  · simp [h]
  · simp [h]; omega

theorem twoSel_two (a b : Src) : twoSel [a.bits, b.bits] = !(oneImm [a, b]) := twoSel_bits [a, b]
theorem twoSel_three (a b c : Src) : twoSel [a.bits, b.bits, c.bits] = !(oneImm [a, b, c]) := twoSel_bits [a, b, c]

/-- The literal field names the literal of the one source that uses the selector. -/
theorem immOf_one (a : Src) (v : BitVec 32) (h : a = .imm v) : immOf [a] = v := by subst h; rfl
theorem immOf_fst (a b : Src) (v : BitVec 32) (h : a = .imm v) : immOf [a, b] = v := by subst h; rfl
theorem immOf_snd (a b : Src) (hw : oneImm [a, b] = true) (v : BitVec 32) (h : b = .imm v) : immOf [a, b] = v := by
  subst h; cases a <;> simp_all [oneImm, Src.isImm, immOf, List.filter]
theorem immOf_fst3 (a b c : Src) (v : BitVec 32) (h : a = .imm v) : immOf [a, b, c] = v := by subst h; rfl
theorem immOf_snd3 (a b c : Src) (hw : oneImm [a, b, c] = true) (v : BitVec 32) (h : b = .imm v) : immOf [a, b, c] = v := by
  subst h; cases a <;> cases c <;> simp_all [oneImm, Src.isImm, immOf, List.filter]
theorem immOf_thd3 (a b c : Src) (hw : oneImm [a, b, c] = true) (v : BitVec 32) (h : c = .imm v) : immOf [a, b, c] = v := by
  subst h; cases a <;> cases b <;> simp_all [oneImm, Src.isImm, immOf, List.filter]

/-- A source without the selector reads back whatever the literal field holds. -/
theorem noSel (w : Nat) (lo : Bool) (s : Src) (h : s.ok w false lo = true) (x : BitVec 32) (v : BitVec 32) (e : s = .imm v) : x = v := by
  subst e; simp [Src.ok] at h

theorem src_noSel {w : Nat} {lo : Bool} {s : Src} (h : s.ok w false lo = true) (f : Fields) : f.src s.bits = s :=
  src_bits _ _ (fun v e => noSel w lo s h _ v e)
theorem src_one (f : Fields) (a : Src) (h : f.imm = immOf [a]) : f.src a.bits = a := src_bits _ _ (fun v e => h.trans (immOf_one a v e))
theorem src_fst2 (f : Fields) (a b : Src) (h : f.imm = immOf [a, b]) : f.src a.bits = a :=
  src_bits _ _ (fun v e => h.trans (immOf_fst a b v e))
theorem src_snd2 {a b : Src} (hw : oneImm [a, b] = true) (f : Fields) (h : f.imm = immOf [a, b]) : f.src b.bits = b :=
  src_bits _ _ (fun v e => h.trans (immOf_snd a b hw v e))
theorem src_fst3 (f : Fields) (a b c : Src) (h : f.imm = immOf [a, b, c]) : f.src a.bits = a :=
  src_bits _ _ (fun v e => h.trans (immOf_fst3 a b c v e))
theorem src_snd3 {a b c : Src} (hw : oneImm [a, b, c] = true) (f : Fields) (h : f.imm = immOf [a, b, c]) : f.src b.bits = b :=
  src_bits _ _ (fun v e => h.trans (immOf_snd3 a b c hw v e))
theorem src_thd3 {a b c : Src} (hw : oneImm [a, b, c] = true) (f : Fields) (h : f.imm = immOf [a, b, c]) : f.src c.bits = c :=
  src_bits _ _ (fun v e => h.trans (immOf_thd3 a b c hw v e))

theorem imm_one (a : Src) : (immOf [a] != 0 && !(a.isImm)) = false := by cases a <;> simp [immOf, Src.isImm]
theorem imm_two (a b : Src) : (immOf [a, b] != 0 && !(a.isImm || b.isImm)) = false := by
  cases a <;> cases b <;> simp [immOf, Src.isImm]
theorem imm_three (a b c : Src) : (immOf [a, b, c] != 0 && !(a.isImm || b.isImm || c.isImm)) = false := by
  cases a <;> cases b <;> cases c <;> simp [immOf, Src.isImm]

theorem dst_fields (f : Fields) (d : Dst) (h1 : f.nw = d.nw) (h2 : f.latch = d.latchNo) (h3 : f.d = d.number) : f.dst = d := by
  cases d <;> simp_all [Fields.dst, Dst.nw, Dst.latchNo, Dst.number]

theorem dst_eta (d : Dst) : (if d.nw = true then Dst.latchOnly d.latchNo else Dst.reg d.number d.latchNo) = d := by cases d <;> rfl
theorem dst_bad (d : Dst) (w : Nat) (h : d.ok w = true) : (d.number.toNat % w != 0) = false := by
  cases d <;> simp_all [Dst.ok, Dst.number]

theorem mod_bad {n k : Nat} (h : (n % k == 0) = true) : n % k = 0 := by simpa using h
theorem ne_ok {α : Type} [BEq α] [LawfulBEq α] {x y : α} (h : (x != y) = true) : ¬ x = y := by simpa using h

theorem dst_nw (d : Dst) : (d.nw && d.number != 0) = false := by cases d <;> simp [Dst.nw, Dst.number]

theorem ofBool_get (b : Bool) : (BitVec.ofBool b).getLsbD 0 = b := by cases b <;> rfl

/-! ### Decoding -/

theorem verdict_eq (l : List (Bool × Nat)) (i j : Instr) (h : l.all (fun p => !p.1) = true) (e : i = j) : verdict l i = .ok j := by
  subst e; exact verdict_ok l i h

/-- A word with a guard decodes by its class and operation number. -/
theorem decode_guarded (f : Fields) (i : Instr) (d : Fields → Except Nat Instr) (h : f.hdr.wf = true) (e : decodeGuarded f = d f)
    (g : d f = .ok i) : decodeFields f = .ok i := by
  have h' : ¬((f.neg && f.gp == 7) = true) := by
    intro c; simp only [Hdr.wf, Fields.hdr, c, Bool.not_true] at h; exact Bool.noConfusion h
  rw [decodeFields, if_neg h', e, g]

/-! ### Codes and their names -/
theorem rnd_code (x : Rnd) : Rnd.ofBits x.bits = some x := by cases x <;> rfl
theorem scope_code (x : Scope) : Scope.ofBits x.bits = some x := by cases x <;> rfl
theorem size_code (x : Size) : Size.ofBits x.bits = some x := by cases x <;> rfl
theorem fmt_code (x : Fmt) : Fmt.ofBits x.bits = some x := by cases x <;> rfl
theorem mulpart_code (x : MulPart) : MulPart.ofBits x.bits = some x := by cases x <;> rfl
theorem cc_code (x : Cc) : Cc.ofBits x.bits = some x := by cases x <;> rfl
theorem fcc_code (x : FCc) : FCc.ofBits x.bits = some x := by cases x <;> rfl
theorem votemode_code (x : VoteMode) : VoteMode.ofBits x.bits = some x := by cases x <;> rfl
theorem shflmode_code (x : ShflMode) : ShflMode.ofBits x.bits = some x := by cases x <;> rfl
theorem laneop_code (x : LaneOp) : LaneOp.ofBits x.bits = some x := by cases x <;> rfl
theorem atomop_code (x : AtomOp) : AtomOp.ofBits x.bits = some x := by cases x <;> rfl
theorem ord_code (x : Ord) : Ord.ofBits x.bits = some x := by cases x <;> rfl
theorem cachehint_code (x : CacheHint) : CacheHint.ofBits x.bits = some x := by cases x <;> rfl

/-! ### Classes -/

theorem class_0 (f : Fields) (op : BitVec 10) (n : Nat) (ho : f.op = op) (hc : op.extractLsb' 6 4 = 0#4)
    (hn : (op.extractLsb' 0 6).toNat = n) : decodeGuarded f = decClass0 f n := by
  subst ho hn; rw [decodeGuarded, hc]; rfl

theorem class_1 (f : Fields) (op : BitVec 10) (n : Nat) (ho : f.op = op) (hc : op.extractLsb' 6 4 = 1#4)
    (hn : (op.extractLsb' 0 6).toNat = n) : decodeGuarded f = decClass1 f n := by
  subst ho hn; rw [decodeGuarded, hc]; rfl

theorem class_2 (f : Fields) (op : BitVec 10) (n : Nat) (ho : f.op = op) (hc : op.extractLsb' 6 4 = 2#4)
    (hn : (op.extractLsb' 0 6).toNat = n) : decodeGuarded f = decClass2 f n := by
  subst ho hn; rw [decodeGuarded, hc]; rfl

theorem class_3 (f : Fields) (op : BitVec 10) (n : Nat) (ho : f.op = op) (hc : op.extractLsb' 6 4 = 3#4)
    (hn : (op.extractLsb' 0 6).toNat = n) : decodeGuarded f = decClass3 f n := by
  subst ho hn; rw [decodeGuarded, hc]; rfl

theorem class_4 (f : Fields) (op : BitVec 10) (n : Nat) (ho : f.op = op) (hc : op.extractLsb' 6 4 = 4#4)
    (hn : (op.extractLsb' 0 6).toNat = n) : decodeGuarded f = decClass4 f n := by
  subst ho hn; rw [decodeGuarded, hc]; rfl

theorem class_5 (f : Fields) (op : BitVec 10) (n : Nat) (ho : f.op = op) (hc : op.extractLsb' 6 4 = 5#4)
    (hn : (op.extractLsb' 0 6).toNat = n) : decodeGuarded f = decClass5 f n := by
  subst ho hn; rw [decodeGuarded, hc]; rfl

theorem class_6 (f : Fields) (op : BitVec 10) (n : Nat) (ho : f.op = op) (hc : op.extractLsb' 6 4 = 6#4)
    (hn : (op.extractLsb' 0 6).toNat = n) : decodeGuarded f = decClass6 f n := by
  subst ho hn; rw [decodeGuarded, hc]; rfl

theorem class_7 (f : Fields) (op : BitVec 10) (n : Nat) (ho : f.op = op) (hc : op.extractLsb' 6 4 = 7#4)
    (hn : (op.extractLsb' 0 6).toNat = n) : decodeGuarded f = decClass7 f n := by
  subst ho hn; rw [decodeGuarded, hc]; rfl

theorem class_8 (f : Fields) (op : BitVec 10) (n : Nat) (ho : f.op = op) (hc : op.extractLsb' 6 4 = 8#4)
    (hn : (op.extractLsb' 0 6).toNat = n) : decodeGuarded f = decClass8 f n := by
  subst ho hn; rw [decodeGuarded, hc]; rfl

theorem class_9 (f : Fields) (op : BitVec 10) (n : Nat) (ho : f.op = op) (hc : op.extractLsb' 6 4 = 9#4)
    (hn : (op.extractLsb' 0 6).toNat = n) : decodeGuarded f = decClass9 f n := by
  subst ho hn; rw [decodeGuarded, hc]; rfl

theorem class_A (f : Fields) (op : BitVec 10) (n : Nat) (ho : f.op = op) (hc : op.extractLsb' 6 4 = 10#4)
    (hn : (op.extractLsb' 0 6).toNat = n) : decodeGuarded f = decClassA f n := by
  subst ho hn; rw [decodeGuarded, hc]; rfl

theorem class_B (f : Fields) (op : BitVec 10) (n : Nat) (ho : f.op = op) (hc : op.extractLsb' 6 4 = 11#4)
    (hn : (op.extractLsb' 0 6).toNat = n) : decodeGuarded f = decClassB f n := by
  subst ho hn; rw [decodeGuarded, hc]; rfl

theorem class_C (f : Fields) (op : BitVec 10) (n : Nat) (ho : f.op = op) (hc : op.extractLsb' 6 4 = 12#4)
    (hn : (op.extractLsb' 0 6).toNat = n) : decodeGuarded f = decClassC f n := by
  subst ho hn; rw [decodeGuarded, hc]; rfl

theorem class_D (f : Fields) (op : BitVec 10) (n : Nat) (ho : f.op = op) (hc : op.extractLsb' 6 4 = 13#4)
    (hn : (op.extractLsb' 0 6).toNat = n) : decodeGuarded f = decClassD f n := by
  subst ho hn; rw [decodeGuarded, hc]; rfl

theorem class_E (f : Fields) (op : BitVec 10) (n : Nat) (ho : f.op = op) (hc : op.extractLsb' 6 4 = 14#4)
    (hn : (op.extractLsb' 0 6).toNat = n) : decodeGuarded f = decClassE f n := by
  subst ho hn; rw [decodeGuarded, hc]; rfl

/-! ### The word of some fields -/

theorem ofWord_toWord (f : Fields) : Fields.ofWord f.toWord = f := by
  obtain ⟨op, u, neg, gp, nw, latch, d, a, b, c, delay, y, lw, zero, imm⟩ := f
  simp (disch := decide) only [Fields.ofWord, Fields.toWord, get_cat, get_app, ext_cat_lo, ext_cat_hi, ext_app_lo, ext_app_hi, ext_self,
    Nat.reduceSub, Nat.reduceLT, if_true, if_false, ofBool_get]

/-- A bit of a field is a bit of the word. -/
theorem bit_of_field {n : Nat} (w v : BitVec 96) (k i : Nat) (h : w.extractLsb' k n = v.extractLsb' k n) (lo : k ≤ i) (hi : i < k + n) :
    w.getLsbD i = v.getLsbD i := by
  have e := congrArg (fun z => z.getLsbD (i - k)) h
  have e1 : k + (i - k) = i := by omega
  have e2 : i - k < n := by omega
  simpa [BitVec.getLsbD_extractLsb', e1, e2] using e

theorem ofWord_inj (w v : BitVec 96) (h : Fields.ofWord w = Fields.ofWord v) : w = v := by
  simp only [Fields.ofWord, Fields.mk.injEq] at h
  obtain ⟨h1, h2, h3, h4, h5, h6, h7, h8, h9, h10, h11, h12, h13, h14, h15⟩ := h
  apply BitVec.eq_of_getLsbD_eq; intro i hi
  by_cases c15 : i < 32
  · exact bit_of_field w v 0 i h15 (by omega) (by omega)
  by_cases c14 : i < 35
  · exact bit_of_field w v 32 i h14 (by omega) (by omega)
  by_cases c13 : i = 35
  · exact c13 ▸ h13
  by_cases c12 : i = 36
  · exact c12 ▸ h12
  by_cases c11 : i < 40
  · exact bit_of_field w v 37 i h11 (by omega) (by omega)
  by_cases c10 : i < 50
  · exact bit_of_field w v 40 i h10 (by omega) (by omega)
  by_cases c9 : i < 60
  · exact bit_of_field w v 50 i h9 (by omega) (by omega)
  by_cases c8 : i < 70
  · exact bit_of_field w v 60 i h8 (by omega) (by omega)
  by_cases c7 : i < 78
  · exact bit_of_field w v 70 i h7 (by omega) (by omega)
  by_cases c6 : i < 80
  · exact bit_of_field w v 78 i h6 (by omega) (by omega)
  by_cases c5 : i = 80
  · exact c5 ▸ h5
  by_cases c4 : i < 84
  · exact bit_of_field w v 81 i h4 (by omega) (by omega)
  by_cases c3 : i = 84
  · exact c3 ▸ h3
  by_cases c2 : i = 85
  · exact c2 ▸ h2
  · exact bit_of_field w v 86 i h1 (by omega) (by omega)

theorem toWord_ofWord (w : BitVec 96) : (Fields.ofWord w).toWord = w := ofWord_inj _ _ (ofWord_toWord _)

end Sys2Proof.Laws.Encoding
end

