-- ==== Sys2Proof/Laws/Lane.lean ====
section
/-! SUPPORT. Lane words: that a word which puts a result into its destination, or a value into a predicate, does just that. -/

namespace Sys2Proof.Machine

theorem lane_mergeLanes (m : Mask) (v w : LaneVec) {i : Nat} (h : i < 32) :
    lane (mergeLanes m v w) i = if m.getLsbD i then lane v i else lane w i := by
  unfold mergeLanes; rw [lane_lanes _ h]

theorem getD_mapIdx {α : Type} (v : Vector α 32) (f : Nat → α → α) (d : α) {i : Nat} (h : i < 32) :
    (v.mapIdx f).toList.getD i d = f i (v.toList.getD i d) := by
  simp [List.getD_eq_getElem?_getD, h]

theorem capture_eq (f : Fibre) (b : BitVec 2) (m : Mask) (v : LaneVec) : ∃ ls aw, f.capture b m v = { f with latches := ls, awaits := aw } := by
  unfold Fibre.capture
  dsimp only
  generalize (lanes (fun i => if m.getLsbD i then lane v i else lane (f.latches.toList.getD b.toNat (splat 0, 0)).1 i),
    (f.latches.toList.getD b.toNat (splat 0, 0)).2 ||| m) = x
  obtain ⟨aw, h⟩ := paid_eq ({ f with latches := f.latches.set b.toNat x (by omega) } : Fibre) (256 + b.toNat) m
  exact ⟨_, aw, h⟩
theorem capture_regs (f : Fibre) (b : BitVec 2) (m : Mask) (v : LaneVec) : (f.capture b m v).regs = f.regs := by
  obtain ⟨ls, aw, h⟩ := capture_eq f b m v; rw [h]
theorem capture_trap (f : Fibre) (b : BitVec 2) (m : Mask) (v : LaneVec) : (f.capture b m v).trap = f.trap := by
  obtain ⟨ls, aw, h⟩ := capture_eq f b m v; rw [h]
theorem capture_released (f : Fibre) (b : BitVec 2) (m : Mask) (v : LaneVec) : (f.capture b m v).released = f.released := by
  obtain ⟨ls, aw, h⟩ := capture_eq f b m v; rw [h]
theorem capture_live (f : Fibre) (b : BitVec 2) (m : Mask) (v : LaneVec) : (f.capture b m v).live = f.live := by
  obtain ⟨ls, aw, h⟩ := capture_eq f b m v; rw [h]

/-! ### The destination -/

theorem mem_dstNames_reg (n : BitVec 8) (b : BitVec 2) (pair : Bool) (j : Nat) :
    j ∈ dstNames (.reg n b) (regCount pair) ↔ j = n.toNat ∨ (pair = true ∧ j = n.toNat + 1) := by
  cases pair <;> simp [dstNames, regCount, List.range_succ]

/-- What putting a result into a destination does to the fibre and its names. -/
theorem putDst_spec {s : State} {r : FibRef} {f : Fibre} (hf : s.fib r = some f) (d : Dst) (pair : Bool) {m : Mask} (hm : m ≠ 0)
    (lo hi : LaneVec) (hW : WindowsHold s r) :
    ∃ tr rg rl aw, (s.putDst r d pair m lo hi).fib r =
        some (({ f with trap := tr, regs := rg, released := rl, awaits := aw } : Fibre).capture (Dst.latch d) m lo) ∧
      (∀ j, j ∉ dstNames d (regCount pair) → Map.find rl j = Map.find f.released j ∧ (s.putDst r d pair m lo hi).regOpt r j = s.regOpt r j) ∧
      (∀ j, j ∈ dstNames d (regCount pair) → f.isH j = false → s.windowOf r j = none →
        Map.find rl j = some ((Map.getD f.released j 0) &&& ~~~m)) ∧
      (∀ n b, d = .reg n b → (s.putDst r d pair m lo hi).regOpt r n.toNat = some (mergeLanes m lo (s.reg r n.toNat)) ∧
        (pair = true → (s.putDst r d pair m lo hi).regOpt r (n.toNat + 1) = some (mergeLanes m hi (s.reg r (n.toNat + 1))))) := by
  have hcap : ∀ (x : State) (b : BitVec 2) (j : Nat), (x.modFib r (fun f => f.capture b m lo)).regOpt r j = x.regOpt r j := by
    intro x b j; exact regOpt_modFib (fun f => capture_fixed f b m lo) (fun f => capture_regs f b m lo) (fun f => capture_trap f b m lo) j
  cases d with
  | latchOnly b =>
    refine ⟨f.trap, f.regs, f.released, f.awaits, fib_modFib_same hf _, ?_, ?_, ?_⟩
    · intro j _; exact ⟨rfl, hcap s b j⟩
    · intro j hj; simp [dstNames] at hj
    · intro n b' h; simp at h
  | reg n b =>
    obtain ⟨tr, rg, rl, aw, h1, h2, -, -, h5⟩ := writeReg_fib hf n.toNat m lo
    have hs1 := writeReg_same hf n.toNat hm lo hW
    have hc1 : Calm s (s.writeReg r n.toNat m lo) r := (Calm.refl s r).writeReg
    cases pair with
    | false =>
      have he : s.putDst r (.reg n b) false m lo hi = (s.writeReg r n.toNat m lo).modFib r (fun f => f.capture b m lo) := rfl
      rw [he]
      refine ⟨tr, rg, rl, aw, fib_modFib_same h1 _, ?_, ?_, ?_⟩
      · intro j hj
        have hne : j ≠ n.toNat := fun h => hj ((mem_dstNames_reg n b false j).2 (Or.inl h))
        exact ⟨(h2 j hne).2, by rw [hcap, writeReg_other hne]⟩
      · intro j hj hH hw
        have hje : j = n.toNat := by
          rcases (mem_dstNames_reg n b false j).1 hj with h | h
          · exact h
          · simp at h
        subst hje
        exact h5 hm hH hw
      · intro n' b' h
        simp only [Dst.reg.injEq] at h
        obtain ⟨rfl, rfl⟩ := h
        exact ⟨by rw [hcap, hs1], fun h => by simp at h⟩
    | true =>
      have he : s.putDst r (.reg n b) true m lo hi =
          ((s.writeReg r n.toNat m lo).writeReg r (n.toNat + 1) m hi).modFib r (fun f => f.capture b m lo) := rfl
      rw [he]
      obtain ⟨tr2, rg2, rl2, aw2, k1, k2, -, -, k5⟩ := writeReg_fib h1 (n.toNat + 1) m hi
      have hs2 := writeReg_same h1 (n.toNat + 1) hm hi (WindowsHold.calm hc1 hW)
      have hne1 : n.toNat ≠ n.toNat + 1 := by omega
      refine ⟨tr2, rg2, rl2, aw2, fib_modFib_same k1 _, ?_, ?_, ?_⟩
      · intro j hj
        have hne : j ≠ n.toNat := fun h => hj ((mem_dstNames_reg n b true j).2 (Or.inl h))
        have hne' : j ≠ n.toNat + 1 := fun h => hj ((mem_dstNames_reg n b true j).2 (Or.inr ⟨rfl, h⟩))
        exact ⟨((k2 j hne').2).trans (h2 j hne).2, by rw [hcap, writeReg_other hne', writeReg_other hne]⟩
      · intro j hj hH hw
        rcases (mem_dstNames_reg n b true j).1 hj with h | ⟨-, h⟩
        · subst h
          rw [(k2 _ hne1).2]
          exact h5 hm hH hw
        · subst h
          have hH' := (isH_calm hc1 hf h1 (n.toNat + 1)).trans hH
          have hw' : (s.writeReg r n.toNat m lo).windowOf r (n.toNat + 1) = none := by rw [windowOf_calm hc1]; exact hw
          have := k5 hm hH' hw'
          rw [this]
          simp only [Map.getD, (h2 _ (Ne.symm hne1)).2]
      · intro n' b' h
        simp only [Dst.reg.injEq] at h
        obtain ⟨rfl, rfl⟩ := h
        refine ⟨by rw [hcap, writeReg_other hne1, hs1], fun _ => ?_⟩
        rw [hcap, hs2]
        unfold State.reg
        rw [writeReg_other (Ne.symm hne1)]

theorem raise_zero (s : State) (r : FibRef) : s.raise r 0 = s := by
  have h1 : ∀ m : Map Fibre, Map.modify m r.fib (fun f => { f with fpf := f.fpf ||| 0#6 }) = m := by
    intro m
    unfold Map.modify
    conv_rhs => rw [← List.map_id m]
    apply List.map_congr_left
    intro e _
    split
    · rename_i h
      have := beq_iff_eq.1 h
      simp [← this]
    · rfl
  have h2 : s.wgs.map (fun e => if (e.1 == r.wg) = true then (r.wg, ({ e.2 with
      fibres := Map.modify e.2.fibres r.fib (fun f => { f with fpf := f.fpf ||| 0#6 }) } : WorkGroup)) else e) = s.wgs := by
    conv_rhs => rw [← List.map_id s.wgs]
    apply List.map_congr_left
    intro e _
    split
    · rename_i h
      have := beq_iff_eq.1 h
      rw [h1]
      simp [← this]
    · rfl
  unfold State.raise State.modFib State.modWg Map.modify
  exact congrArg (fun w => { s with wgs := w }) h2

theorem getD_capture (f : Fibre) (b k : BitVec 2) (m : Mask) (v : LaneVec) (d : LaneVec × Mask) :
    (f.capture b m v).latches.toList.getD k.toNat d =
      if k = b then (lanes (fun i => if m.getLsbD i then lane v i else lane (f.latches.toList.getD b.toNat (splat 0, 0)).1 i),
        (f.latches.toList.getD b.toNat (splat 0, 0)).2 ||| m) else f.latches.toList.getD k.toNat d := by
  unfold Fibre.capture
  dsimp only
  have hp : ∀ (g : Fibre) (n : Nat), (g.paid n m).latches = g.latches := by
    intro g n; obtain ⟨aw, h⟩ := paid_eq g n m; rw [h]
  rw [hp, Vector.toList_set]
  by_cases h : k = b
  · subst h
    have : k.toNat < 4 := by omega
    rw [if_pos rfl, List.getD_eq_getElem?_getD, List.getElem?_set_self (by simpa using this)]
    rfl
  · have : b.toNat ≠ k.toNat := fun hh => h (BitVec.eq_of_toNat_eq hh.symm)
    rw [if_neg h, List.getD_eq_getElem?_getD, List.getElem?_set_ne this, ← List.getD_eq_getElem?_getD]

/-- A word that puts a result into its destination and raises flags computes just that. -/
theorem computes_putDst {s : State} {h : Hdr} {c : Cur} {f : Fibre} {reads last : List Nat} {d : Dst} {pair : Bool} {pj : Nat}
    (hf : s.fib c.ref = some f) (hact : f.acting h c ≠ 0) (hlive : f.acting h c &&& f.live = f.acting h c)
    (hW : WindowsHold s c.ref) (ends : Bool) (lo hi : LaneVec) (v : Nat → Dword) (fl : BitVec 6)
    (hlo : ∀ i, i < 32 → (f.acting h c).getLsbD i = true → lane lo i = (v i).setWidth 32)
    (hhi : pair = true → ∀ i, i < 32 → (f.acting h c).getLsbD i = true → lane hi i = (v i >>> 32).setWidth 32) :
    Computes (.next ((((s.begun f h ends reads last c).putDst c.ref d pair (f.acting h c) lo hi).raise c.ref fl).finish h
      (f.actOf h ends c) pj)) s (s.begun f h ends reads last c) (f.actOf h ends c) d pair v fl := by
  have hcb := calm_begun h ends reads last hf
  obtain ⟨u, rl0, hb⟩ := fib_begun h ends reads last hf
  have hWb := WindowsHold.calm hcb hW
  obtain ⟨tr, rg, rl, aw, h1, h2, h3, h5⟩ := putDst_spec hb d pair hact lo hi hWb
  have hraise := fib_modFib_same h1 (fun f => { f with fpf := f.fpf ||| fl })
  have hreg : ∀ j, ((((s.begun f h ends reads last c).putDst c.ref d pair (f.acting h c) lo hi).raise c.ref fl)).regOpt c.ref j =
      ((s.begun f h ends reads last c).putDst c.ref d pair (f.acting h c) lo hi).regOpt c.ref j := by
    intro j; unfold State.raise; apply regOpt_modFib <;> intro _ <;> rfl
  have hcr : Calm s (((s.begun f h ends reads last c).putDst c.ref d pair (f.acting h c) lo hi).raise c.ref fl) c.ref :=
    (hcb.putDst).raise
  obtain ⟨rg9, rl9, d9, r9, hfin⟩ := fib_finish (h := h) (a := f.actOf h ends c) (pj := pj) hraise
  have hfinreg := fun n => regOpt_finish (h := h) (a := f.actOf h ends c) (pj := pj) hraise n
  obtain ⟨i0, hi0, hi0'⟩ := exists_lane _ hact
  have hname : ∀ n, n ∈ dstNames d (regCount pair) →
      ((((s.begun f h ends reads last c).putDst c.ref d pair (f.acting h c) lo hi).raise c.ref fl).finish h (f.actOf h ends c) pj).regOpt c.ref n =
        ((s.begun f h ends reads last c).putDst c.ref d pair (f.acting h c) lo hi).regOpt c.ref n := by
    intro n hn
    rcases hfinreg n with hx | ⟨-, hx, hH, hw⟩
    · exact hx.trans (hreg n)
    · exfalso
      have hH' := (isH_calm ((Calm.refl _ _).putDst.raise) hb hraise n).symm.trans hH
      have hw' : (s.begun f h ends reads last c).windowOf c.ref n = none := by
        have e1 : (((s.begun f h ends reads last c).putDst c.ref d pair (f.acting h c) lo hi).raise c.ref fl).windowOf c.ref n = none := hw
        rw [windowOf_calm hcr] at e1
        rw [windowOf_calm hcb]; exact e1
      have hrl := h3 n hn hH' hw'
      unfold Fibre.freed at hx
      simp only [capture_released, capture_live, hrl, beq_iff_eq] at hx
      have hb0 := congrArg (fun z : Mask => z.getLsbD i0) hx
      have hl0 : f.live.getLsbD i0 = true := by
        have := congrArg (fun z : Mask => z.getLsbD i0) hlive
        simp only [BitVec.getLsbD_and, hi0', Bool.true_and] at this
        exact this
      simp only [BitVec.getLsbD_and, BitVec.getLsbD_not, hi0, hi0', Fibre.issue, hl0, decide_true, Bool.not_true,
        Bool.and_false, Bool.not_false, Bool.and_true] at hb0
      simp at hb0
  have hlatch : ∀ k : BitVec 2,
      ((((s.begun f h ends reads last c).putDst c.ref d pair (f.acting h c) lo hi).raise c.ref fl).finish h (f.actOf h ends c) pj).latch c.ref k =
      if k = Dst.latch d then (lanes (fun i => if (f.acting h c).getLsbD i then lane lo i else lane (s.latch c.ref (Dst.latch d)).1 i),
        (s.latch c.ref (Dst.latch d)).2 ||| f.acting h c) else s.latch c.ref k := by
    intro k
    have hsl : ∀ k, s.latch c.ref k = f.latches.toList.getD k.toNat (splat 0, 0) := by intro k; simp only [State.latch, hf]
    rw [hsl, hsl]
    have e := hfin
    unfold State.latch
    have e' : ((((s.begun f h ends reads last c).putDst c.ref d pair (f.acting h c) lo hi).raise c.ref fl).finish h (f.actOf h ends c) pj).fib c.ref = _ := e
    rw [e']
    exact getD_capture _ (Dst.latch d) k (f.acting h c) lo (splat 0, 0)
  obtain ⟨ls9, aw9, hcap9⟩ := capture_eq ({ ({ f.issue c.lanes c.pc ends with undefRead := u, released := rl0 } : Fibre) with
    trap := tr, regs := rg, released := rl, awaits := aw } : Fibre) (Dst.latch d) (f.acting h c) lo
  refine ⟨_, rfl, hcr.finish, ?_, ?_, ?_, ?_, ?_, ?_, ?_, ?_⟩
  · intro f' g' hf' hg' i hi
    have e1 : f = f' := by
      have : s.fib c.ref = some f' := hf'
      rw [hf] at this; simpa using this
    subst e1
    have e2 := hfin.symm.trans hg'
    simp only [Option.some.injEq] at e2
    subst e2
    rw [hcap9]
    exact getD_mapIdx f.pcs (fun i p => if c.lanes.getLsbD i then (c.pc + 12) % 2 ^ 64 else p) 0 hi
  · intro i hi hm
    have hm' : (f.acting h c).getLsbD i = true := hm
    unfold DstHolds
    cases d with
    | latchOnly b =>
      dsimp only
      have e := hlatch b
      rw [if_pos (show b = Dst.latch _ from rfl)] at e
      have e' : State.latch _ (f.actOf h ends c).ref b = _ := e
      rw [e']
      exact ⟨by simp only [lane_lanes _ hi, hm', if_true]; exact hlo i hi hm', by simp [hm']⟩
    | reg n b =>
      dsimp only
      have e := hlatch b
      rw [if_pos (show b = Dst.latch _ from rfl)] at e
      have e' : State.latch _ (f.actOf h ends c).ref b = _ := e
      have hs := h5 n b rfl
      refine ⟨?_, ?_, ?_, ?_⟩
      · have hx := hname n.toNat ((mem_dstNames_reg n b pair _).2 (Or.inl rfl))
        rw [hs.1] at hx
        have hx' : State.reg _ (f.actOf h ends c).ref n.toNat = _ := congrArg (fun o => o.getD (splat 0)) hx
        rw [hx']
        simp only [Option.getD_some, lane_mergeLanes _ _ _ hi, hm', if_true]
        exact hlo i hi hm'
      · intro hp
        have hx := hname (n.toNat + 1) ((mem_dstNames_reg n b pair _).2 (Or.inr ⟨hp, rfl⟩))
        rw [hs.2 hp] at hx
        have hx' : State.reg _ (f.actOf h ends c).ref (n.toNat + 1) = _ := congrArg (fun o => o.getD (splat 0)) hx
        rw [hx']
        simp only [Option.getD_some, lane_mergeLanes _ _ _ hi, hm', if_true]
        exact hhi hp i hi hm'
      · rw [e']; simp only [lane_lanes _ hi, hm', if_true]; exact hlo i hi hm'
      · rw [e']; simp [hm']
  · intro n hn i hi hm
    have hm' : (f.acting h c).getLsbD i = false := hm
    have hx := hname n hn
    cases d with
    | latchOnly b => simp [dstNames] at hn
    | reg k b =>
      have hs := h5 k b rfl
      rcases (mem_dstNames_reg k b pair n).1 hn with hk | ⟨hp, hk⟩
      · subst hk
        rw [hs.1] at hx
        have hx' : State.reg _ (f.actOf h ends c).ref k.toNat = _ := congrArg (fun o => o.getD (splat 0)) hx
        rw [hx']
        simp only [Option.getD_some, lane_mergeLanes _ _ _ hi, hm', Bool.false_eq_true, if_false]
        rw [reg_begun h ends reads last hf]; rfl
      · subst hk
        rw [hs.2 hp] at hx
        have hx' : State.reg _ (f.actOf h ends c).ref (k.toNat + 1) = _ := congrArg (fun o => o.getD (splat 0)) hx
        rw [hx']
        simp only [Option.getD_some, lane_mergeLanes _ _ _ hi, hm', Bool.false_eq_true, if_false]
        rw [reg_begun h ends reads last hf]; rfl
  · intro n hn
    rcases hfinreg n with hx | ⟨hx, hfr, -, -⟩
    · left
      exact hx.trans ((hreg n).trans ((h2 n hn).2.trans (regOpt_begun h ends reads last hf n)))
    · right
      refine ⟨hx, _, hb, ?_⟩
      unfold Fibre.freed at hfr
      simp only [capture_released, capture_live, (h2 n hn).1] at hfr
      unfold Map.getD
      cases hz : Map.find ({ f.issue c.lanes c.pc ends with undefRead := u, released := rl0 } : Fibre).released n with
      | none => rw [hz] at hfr; simp at hfr
      | some z => rw [hz] at hfr; simpa using hfr
  · intro i hi hm
    have hm' : (f.acting h c).getLsbD i = false := hm
    have e := hlatch (Dst.latch d)
    rw [if_pos rfl] at e
    have e' : State.latch _ (f.actOf h ends c).ref (Dst.latch d) = _ := e
    rw [e']
    simp only [lane_lanes _ hi, hm', Bool.false_eq_true, if_false]
    rfl
  · intro k hk
    have e := hlatch k
    rw [if_neg hk] at e
    exact e
  · have e' : ((((s.begun f h ends reads last c).putDst c.ref d pair (f.acting h c) lo hi).raise c.ref fl).finish h (f.actOf h ends c) pj).fib (f.actOf h ends c).ref = _ := hfin
    have e2 : s.fib (f.actOf h ends c).ref = some f := hf
    rw [e', e2, hcap9]; rfl
  · have e' : ((((s.begun f h ends reads last c).putDst c.ref d pair (f.acting h c) lo hi).raise c.ref fl).finish h (f.actOf h ends c) pj).fib (f.actOf h ends c).ref = _ := hfin
    have e2 : s.fib (f.actOf h ends c).ref = some f := hf
    rw [e', e2, hcap9]; rfl

/-- The same for a word that raises no flag. -/
theorem computes_plain {s : State} {h : Hdr} {c : Cur} {f : Fibre} {reads last : List Nat} {d : Dst} {pair : Bool} {pj : Nat}
    (hf : s.fib c.ref = some f) (hact : f.acting h c ≠ 0) (hlive : f.acting h c &&& f.live = f.acting h c)
    (hW : WindowsHold s c.ref) (ends : Bool) (lo hi : LaneVec) (v : Nat → Dword)
    (hlo : ∀ i, i < 32 → (f.acting h c).getLsbD i = true → lane lo i = (v i).setWidth 32)
    (hhi : pair = true → ∀ i, i < 32 → (f.acting h c).getLsbD i = true → lane hi i = (v i >>> 32).setWidth 32) :
    Computes (.next (((s.begun f h ends reads last c).putDst c.ref d pair (f.acting h c) lo hi).finish h (f.actOf h ends c) pj)) s
      (s.begun f h ends reads last c) (f.actOf h ends c) d pair v 0 := by
  have := computes_putDst (reads := reads) (last := last) (d := d) (pj := pj) hf hact hlive hW ends lo hi v 0 hlo hhi
  rwa [raise_zero] at this

theorem low_mem (a : Act) (_ : a.lanes ≠ 0) : a.low < 32 := by
  unfold Act.low lowest
  cases hl : lanesOf a.lanes with
  | nil => simp
  | cons x l =>
    have : x ∈ lanesOf a.lanes := by rw [hl]; simp
    simpa using ((mem_lanesOf _ _).1 this).1

/-- The threads that act are live, since those of the issue group are. -/
theorem acting_live {f : Fibre} {c : Cur} (h : Hdr) (hl : c.lanes &&& f.live = c.lanes) : f.acting h c &&& f.live = f.acting h c := by
  have : ∀ m : Mask, (m &&& c.lanes) &&& f.live = m &&& c.lanes := by
    intro m; rw [BitVec.and_assoc, hl]
  unfold Fibre.acting
  split
  · split
    · exact this _
    · rw [BitVec.and_comm c.lanes]; exact this _
  · rw [BitVec.and_comm c.lanes]; exact this _

/-- A word of the shape `aluWord` is a lane word. -/
theorem laneWord_of_aluWord {i : Instr} {s : State} {h : Hdr} {u : Bool} {d : Dst} {pair : Bool} {x y z : Operand} {pj : Nat} {f : LaneFn}
    (he : exec i s = aluWord h u d pair x y z pj f s) : LaneWord i s h u d pair x y z f := by
  intro c fb hi
  dsimp only
  have hi' := hi
  obtain ⟨-, hf, -, hact, hl⟩ := hi'
  have hlive := acting_live h hl
  rw [he]
  unfold aluWord
  by_cases ho : fb.owes (x.names ++ y.names ++ z.names) = true
  · rw [if_pos ho]; exact runWord_owes hi ho
  rw [if_neg ho]
  rw [Bool.not_eq_true] at ho
  have hg : ∀ k, laneResults ((s.settleLoads c.ref).begun fb h false (x.names ++ y.names ++ z.names) (x.last ++ y.last ++ z.last) c)
      (fb.actOf h false c) u x y z f k = laneResults (s.settleLoads c.ref) (fb.actOf h false c) u x y z f k := by
    intro k
    unfold laneResults
    dsimp only [Fibre.actOf]
    simp only [opLane_begun h false _ _ hf]
  have e1 := badLatches_begun (s := s.settleLoads c.ref) h false (x.names ++ y.names ++ z.names) (x.last ++ y.last ++ z.last) hf
    [x.src, y.src, z.src] ((fb.actOf h false c).readers u)
  have e2 := writeFault_begun (s := s.settleLoads c.ref) h false (x.names ++ y.names ++ z.names) (x.last ++ y.last ++ z.last) hf
    (dstNames d (regCount pair))
  cases hbad : (s.settleLoads c.ref).badLatches c.ref [x.src, y.src, z.src] ((fb.actOf h false c).readers u) with
  | some k =>
    dsimp only
    refine runWord_bad hi ho (t := (fb.actOf h false c).operand k 1) ?_
    dsimp only [Fibre.actOf] at hbad e1 ⊢
    rw [e1, hbad]
  | none =>
    cases hwf : (s.settleLoads c.ref).writeFault c.ref (dstNames d (regCount pair)) with
    | some e =>
      dsimp only
      refine runWord_bad hi ho (t := (fb.actOf h false c).operand (fb.actOf h false c).low e) ?_
      dsimp only [Fibre.actOf] at hbad e1 e2 ⊢
      rw [e1, hbad]
      dsimp only
      rw [e2, hwf]
    | none =>
      dsimp only
      rw [runWord_done hi ho (t := (((s.settleLoads c.ref).begun fb h false (x.names ++ y.names ++ z.names) (x.last ++ y.last ++ z.last) c).putDst
        c.ref d pair (fb.acting h c) (lanes (fun i => (laneResults (s.settleLoads c.ref) (fb.actOf h false c) u x y z f i).1.setWidth 32))
        (lanes (fun i => ((laneResults (s.settleLoads c.ref) (fb.actOf h false c) u x y z f i).1 >>> 32).setWidth 32))).raise c.ref
          (flagsOf ((fb.actOf h false c).readers u) (laneResults (s.settleLoads c.ref) (fb.actOf h false c) u x y z f)))]
      · apply computes_putDst hf hact hlive (windowsHold _ _)
        · intro i hi _; rw [lane_lanes _ hi]
        · intro _ i hi _; rw [lane_lanes _ hi]
      · dsimp only [Fibre.actOf] at hbad e1 e2 ⊢
        rw [e1, hbad]
        dsimp only
        rw [e2, hwf]
        dsimp only
        have hg' := funext hg
        dsimp only [Fibre.actOf] at hg'
        rw [hg']

/-! ### Predicates -/

theorem pred_setPred_same (f : Fibre) (p : BitVec 3) (m v : Mask) {i : Nat} (hi : i < 32) :
    ((f.setPred p m v).pred p).getLsbD i = if p = 7 then true else if m.getLsbD i then v.getLsbD i else (f.pred p).getLsbD i := by
  by_cases hp : p = 7
  · subst hp
    have : (allLanes).getLsbD i = true := by unfold allLanes; rw [BitVec.getLsbD_allOnes]; simpa using hi
    simpa [Fibre.pred] using this
  · have h7 : p.toNat < 7 := by
      have : p.toNat ≠ 7 := fun h => hp (BitVec.eq_of_toNat_eq (by simpa using h))
      omega
    have hb : ¬ (p == 7) = true := by simpa using hp
    rw [if_neg hp]
    unfold Fibre.setPred
    rw [dif_pos h7]
    unfold Fibre.pred
    simp only [if_neg hb, Vector.toList_set]
    rw [List.getD_eq_getElem?_getD, List.getElem?_set_self (by simpa using h7)]
    simp only [Option.getD_some, BitVec.getLsbD_or, BitVec.getLsbD_and, BitVec.getLsbD_not, hi, decide_true, Bool.true_and]
    cases m.getLsbD i <;> simp

theorem pred_setPred_other (f : Fibre) {p q : BitVec 3} (m v : Mask) (hq : q ≠ p) : (f.setPred p m v).pred q = f.pred q := by
  unfold Fibre.setPred
  split
  · rename_i h7
    unfold Fibre.pred
    split
    · rfl
    · have hne : p.toNat ≠ q.toNat := fun h => hq (BitVec.eq_of_toNat_eq h.symm)
      simp only [Vector.toList_set]
      rw [List.getD_eq_getElem?_getD, List.getElem?_set_ne hne, ← List.getD_eq_getElem?_getD]
  · rfl

theorem setPred_rest (f : Fibre) (p : BitVec 3) (m v : Mask) : ∃ ps, f.setPred p m v = { f with preds := ps } := by
  unfold Fibre.setPred; split
  · exact ⟨_, rfl⟩
  · exact ⟨f.preds, rfl⟩

theorem maskOf_getLsbD (p : Nat → Bool) {i : Nat} (hi : i < 32) : (maskOf p).getLsbD i = p i := by
  have key : ∀ n k, (List.range' k n).foldr (fun i m => (if p i then 1 else 0) + 2 * m) 0 < 2 ^ n ∧
      ∀ j, j < n → ((List.range' k n).foldr (fun i m => (if p i then 1 else 0) + 2 * m) 0).testBit j = p (k + j) := by
    intro n
    induction n with
    | zero => intro k; simp
    | succ n ih =>
      intro k
      obtain ⟨h1, h2⟩ := ih (k + 1)
      rw [List.range'_succ, List.foldr_cons]
      generalize (List.range' (k + 1) n).foldr (fun i m => (if p i then 1 else 0) + 2 * m) 0 = x at h1 h2
      constructor
      · have : (if p k = true then 1 else 0) ≤ 1 := by split <;> omega
        rw [pow_succ]; omega
      · intro j hj
        cases j with
        | zero =>
          rw [Nat.testBit_zero]
          cases p k <;> simp
        | succ j =>
          rw [Nat.testBit_succ]
          have : ((if p k = true then 1 else 0) + 2 * x) / 2 = x := by split <;> omega
          rw [this, h2 j (by omega)]
          congr 1; omega
  have := (key 32 0).2 i hi
  unfold maskOf
  rw [BitVec.getLsbD_ofNat, List.range_eq_range', this]
  simp [hi]

/-- A word that writes a predicate decides just that. -/
theorem decides_setPred {s : State} {h : Hdr} {c : Cur} {f : Fibre} {reads last : List Nat} {p : BitVec 3} {pj : Nat}
    (hf : s.fib c.ref = some f) (ends : Bool) (val : Mask) (v : Nat → Bool) (fl : BitVec 6)
    (hv : ∀ i, i < 32 → (f.acting h c).getLsbD i = true → val.getLsbD i = v i) :
    Decides (.next ((((s.begun f h ends reads last c).modFib c.ref (fun g => g.setPred p (f.acting h c) val)).raise c.ref fl).finish h
      (f.actOf h ends c) pj)) s (s.begun f h ends reads last c) (f.actOf h ends c) p v fl := by
  have hcb := calm_begun h ends reads last hf
  obtain ⟨u, rl0, hb⟩ := fib_begun h ends reads last hf
  have h1 := fib_modFib_same hb (fun g => g.setPred p (f.acting h c) val)
  obtain ⟨ps, hps⟩ := setPred_rest ({ f.issue c.lanes c.pc ends with undefRead := u, released := rl0 } : Fibre) p (f.acting h c) val
  have hraise := fib_modFib_same h1 (fun f => { f with fpf := f.fpf ||| fl })
  have hreg : ∀ j, (((s.begun f h ends reads last c).modFib c.ref (fun g => g.setPred p (f.acting h c) val)).raise c.ref fl).regOpt c.ref j =
      s.regOpt c.ref j := by
    intro j
    have e1 : (((s.begun f h ends reads last c).modFib c.ref (fun g => g.setPred p (f.acting h c) val)).raise c.ref fl).regOpt c.ref j =
        ((s.begun f h ends reads last c).modFib c.ref (fun g => g.setPred p (f.acting h c) val)).regOpt c.ref j := by
      unfold State.raise; apply regOpt_modFib <;> intro _ <;> rfl
    have e2 : ((s.begun f h ends reads last c).modFib c.ref (fun g => g.setPred p (f.acting h c) val)).regOpt c.ref j =
        (s.begun f h ends reads last c).regOpt c.ref j := by
      apply regOpt_modFib
      · intro g; exact fixed_setPred g p _ _
      · intro g; obtain ⟨q, hq⟩ := setPred_rest g p (f.acting h c) val; rw [hq]
      · intro g; obtain ⟨q, hq⟩ := setPred_rest g p (f.acting h c) val; rw [hq]
    rw [e1, e2, regOpt_begun h ends reads last hf]
  obtain ⟨rg9, rl9, d9, r9, hfin⟩ := fib_finish (h := h) (a := f.actOf h ends c) (pj := pj) hraise
  refine ⟨_, rfl, ((hcb.setPred).raise).finish, ?_, ?_, ?_⟩
  · intro f' g' hf' hg' i hi
    have e1 : f = f' := by
      have : s.fib c.ref = some f' := hf'
      rw [hf] at this; simpa using this
    subst e1
    have e2 := hfin.symm.trans hg'
    simp only [Option.some.injEq] at e2
    subst e2
    rw [hps]
    exact getD_mapIdx f.pcs (fun i p => if c.lanes.getLsbD i then (c.pc + 12) % 2 ^ 64 else p) 0 hi
  · intro f' g' hf' hg'
    have e1 : f = f' := by
      have : s.fib c.ref = some f' := hf'
      rw [hf] at this; simpa using this
    subst e1
    have e2 := hfin.symm.trans hg'
    simp only [Option.some.injEq] at e2
    subst e2
    refine ⟨?_, ?_, ?_, ?_⟩
    · intro i hi
      have := pred_setPred_same ({ f.issue c.lanes c.pc ends with undefRead := u, released := rl0 } : Fibre) p (f.acting h c) val hi
      refine Eq.trans this ?_
      by_cases hp : p = 7
      · simp [hp]
      · simp only [if_neg hp]
        by_cases hm : (f.acting h c).getLsbD i = true
        · have hm' : (f.actOf h ends c).lanes.getLsbD i = true := hm
          rw [if_pos hm, if_pos hm', hv i hi hm]
        · have hm' : ¬ (f.actOf h ends c).lanes.getLsbD i = true := hm
          rw [if_neg hm, if_neg hm']; rfl
    · intro q hq
      exact pred_setPred_other ({ f.issue c.lanes c.pc ends with undefRead := u, released := rl0 } : Fibre) (f.acting h c) val hq
    · rw [hps]; rfl
    · rw [hps]; rfl
  · intro n
    rcases regOpt_finish (h := h) (a := f.actOf h ends c) (pj := pj) hraise n with hx | ⟨hx, hfr, -, -⟩
    · left; exact hx.trans (hreg n)
    · right
      refine ⟨hx, _, hb, ?_⟩
      rw [hps] at hfr
      unfold Fibre.freed at hfr
      unfold Map.getD
      dsimp only at hfr
      dsimp only [Fibre.issue] at hfr ⊢
      cases hz : Map.find rl0 n with
      | none => rw [hz] at hfr; simp at hfr
      | some z => rw [hz] at hfr; simpa using hfr

/-- A word of the shape `predWord` decides its predicate. -/
theorem predWord_of {i : Instr} {s : State} {h : Hdr} {u : Bool} {p : BitVec 3} {x y : Operand} {pj : Nat}
    {f : Nat → Dword → Dword → Bool × BitVec 6} (he : exec i s = predWord h u p x y pj f s) : PredWord i s h u p x y f := by
  intro c fb hi
  dsimp only
  have hi' := hi
  obtain ⟨-, hf, -, hact, -⟩ := hi'
  rw [he]
  unfold predWord
  by_cases ho : fb.owes (x.names ++ y.names) = true
  · rw [if_pos ho]; exact runWord_owes hi ho
  rw [if_neg ho]
  rw [Bool.not_eq_true] at ho
  have e1 := badLatches_begun (s := s.settleLoads c.ref) h false (x.names ++ y.names) (x.last ++ y.last) hf
      [x.src, y.src] ((fb.actOf h false c).readers u)
  cases hbad : (s.settleLoads c.ref).badLatches c.ref [x.src, y.src] ((fb.actOf h false c).readers u) with
  | some k =>
    dsimp only
    refine runWord_bad hi ho (t := (fb.actOf h false c).operand k 1) ?_
    dsimp only [Fibre.actOf] at hbad e1 ⊢
    rw [e1, hbad]
  | none =>
    dsimp only
    rw [runWord_done hi ho]
    · apply decides_setPred hf false (maskOf (fun i => (f ((fb.actOf h false c).laneFor u i)
        ((s.settleLoads c.ref).opLane c.ref x ((fb.actOf h false c).laneFor u i))
        ((s.settleLoads c.ref).opLane c.ref y ((fb.actOf h false c).laneFor u i))).1))
      intro i hi _
      rw [maskOf_getLsbD _ hi]
    · dsimp only [Fibre.actOf] at hbad e1 ⊢
      rw [e1, hbad]
      simp only [opLane_begun h false _ _ hf, Act.laneFor]

end Sys2Proof.Machine
end

