-- ==== Sys2Proof/Laws/Mem.lean ====
section
/-! SUPPORT. The laws of byte memories: what a read after a write gives, and that every operation keeps the canonical
form. -/

namespace Sys2Proof.Machine

/-- Below its first address a memory in canonical form lists nothing. -/
theorem Memory.get_below {m : Memory} {lo a : Nat} (h : Memory.wfFrom lo m = true) (ha : a < lo) : Memory.get m a = Memory.unlisted := by
  induction m generalizing lo with
  | nil => rfl
  | cons c m ih =>
    simp only [Memory.wfFrom, Bool.and_eq_true, decide_eq_true_eq] at h
    obtain ⟨⟨h1, -⟩, h3⟩ := h
    have : ¬ c.1 = a := by omega
    simp only [Memory.get, this, if_false]
    exact ih h3 (by omega)

theorem Memory.wfFrom_mono {m : Memory} {lo hi : Nat} (h : Memory.wfFrom hi m = true) (hl : lo ≤ hi) : Memory.wfFrom lo m = true := by
  cases m with
  | nil => rfl
  | cons c m =>
    simp only [Memory.wfFrom, Bool.and_eq_true, decide_eq_true_eq] at h ⊢
    exact ⟨⟨by omega, h.1.2⟩, h.2⟩

theorem Memory.wfFrom_cons {m : Memory} {lo a : Nat} (b : Byte) (h : Memory.wfFrom (a + 1) m = true) (hl : lo ≤ a) :
    Memory.wfFrom lo (Memory.cons a b m) = true := by
  unfold Memory.cons
  by_cases hb : b = Memory.unlisted
  · simp only [hb, if_true]; exact Memory.wfFrom_mono h (by omega)
  · simp only [hb, if_false, Memory.wfFrom, Bool.and_eq_true, decide_eq_true_eq]
    exact ⟨⟨hl, hb⟩, h⟩

theorem Memory.wfFrom_set {m : Memory} {lo a : Nat} (b : Byte) (h : Memory.wfFrom lo m = true) (hl : lo ≤ a) :
    Memory.wfFrom lo (Memory.set m a b) = true := by
  induction m generalizing lo with
  | nil => exact Memory.wfFrom_cons b rfl hl
  | cons c m ih =>
    have h' := h
    simp only [Memory.wfFrom, Bool.and_eq_true, decide_eq_true_eq] at h
    obtain ⟨⟨h1, h2⟩, h3⟩ := h
    unfold Memory.set
    split
    · rename_i hc
      apply Memory.wfFrom_cons b _ hl
      simp only [Memory.wfFrom, Bool.and_eq_true, decide_eq_true_eq]
      exact ⟨⟨by omega, h2⟩, h3⟩
    · split
      · rename_i hc he
        subst he
        exact Memory.wfFrom_cons b h3 hl
      · simp only [Memory.wfFrom, Bool.and_eq_true, decide_eq_true_eq]
        exact ⟨⟨h1, h2⟩, ih h3 (by omega)⟩

/-- Writing a byte keeps the canonical form. -/
theorem Memory.wf_set {m : Memory} (h : Memory.wf m = true) (a : Nat) (b : Byte) : Memory.wf (Memory.set m a b) = true :=
  Memory.wfFrom_set b h (by omega)

/-- Writing bytes keeps the canonical form. -/
theorem Memory.wf_write {m : Memory} (h : Memory.wf m = true) (a : Nat) (l : List Byte) : Memory.wf (Memory.write m a l) = true := by
  induction l generalizing m a with
  | nil => exact h
  | cons b l ih => exact ih (Memory.wf_set h a b) _

/-- Writing a number keeps the canonical form. -/
theorem Memory.wf_put {m : Memory} (h : Memory.wf m = true) (a n v : Nat) : Memory.wf (Memory.put m a n v) = true :=
  Memory.wf_write h a _

theorem Memory.wfFrom_filter {m : Memory} {lo : Nat} (p : Host.Cell → Bool) (h : Memory.wfFrom lo m = true) :
    Memory.wfFrom lo (m.filter p) = true := by
  induction m generalizing lo with
  | nil => rfl
  | cons c m ih =>
    simp only [Memory.wfFrom, Bool.and_eq_true, decide_eq_true_eq] at h
    obtain ⟨⟨h1, h2⟩, h3⟩ := h
    rw [List.filter_cons]
    split
    · simp only [Memory.wfFrom, Bool.and_eq_true, decide_eq_true_eq]
      exact ⟨⟨h1, h2⟩, ih h3⟩
    · exact Memory.wfFrom_mono (ih h3) (by omega)

/-- Clearing a range keeps the canonical form. -/
theorem Memory.wf_clear {m : Memory} (h : Memory.wf m = true) (a n : Nat) : Memory.wf (Memory.clear m a n) = true :=
  Memory.wfFrom_filter _ h

theorem Memory.get_set_from {m : Memory} {lo : Nat} (h : Memory.wfFrom lo m = true) (a b' : Nat) (b : Byte) :
    Memory.get (Memory.set m a b) b' = if b' = a then b else Memory.get m b' := by
  induction m generalizing lo with
  | nil =>
    unfold Memory.set Memory.cons
    by_cases hb : b = Memory.unlisted
    · rw [if_pos hb]; by_cases ha : b' = a
      · rw [if_pos ha, hb]; rfl
      · rw [if_neg ha]
    · rw [if_neg hb]; by_cases ha : b' = a
      · rw [if_pos ha]; simp [Memory.get, ha]
      · have : ¬ a = b' := fun h => ha h.symm
        rw [if_neg ha]; simp [Memory.get, this]
  | cons c m ih =>
    simp only [Memory.wfFrom, Bool.and_eq_true, decide_eq_true_eq] at h
    obtain ⟨⟨h1, h2⟩, h3⟩ := h
    unfold Memory.set
    split
    · rename_i hc
      by_cases hb : b = Memory.unlisted
      · by_cases ha : b' = a
        · subst ha
          have hw : Memory.wfFrom c.1 (c :: m) = true := by
            simp only [Memory.wfFrom, Bool.and_eq_true, decide_eq_true_eq]; exact ⟨⟨le_refl _, h2⟩, h3⟩
          rw [Memory.cons, if_pos hb, if_pos rfl, Memory.get_below hw hc, hb]
        · simp [Memory.cons, hb, ha]
      · by_cases ha : b' = a
        · subst ha; simp [Memory.cons, hb, Memory.get]
        · have : ¬ a = b' := fun h => ha h.symm
          simp [Memory.cons, hb, ha, Memory.get, this]
    · split
      · rename_i hc he
        subst he
        by_cases hb : b = Memory.unlisted
        · by_cases ha : b' = c.1
          · subst ha; rw [Memory.cons, if_pos hb, if_pos rfl, Memory.get_below h3 (Nat.lt_succ_self _), hb]
          · have : ¬ c.1 = b' := fun h => ha h.symm
            simp [Memory.cons, hb, ha, Memory.get, this]
        · by_cases ha : b' = c.1
          · subst ha; simp [Memory.cons, hb, Memory.get]
          · have : ¬ c.1 = b' := fun h => ha h.symm
            simp [Memory.cons, hb, ha, Memory.get, this]
      · rename_i hc he
        by_cases hcb : c.1 = b'
        · subst hcb
          have : ¬ c.1 = a := fun h => he h.symm
          simp [Memory.get, this]
        · simp only [Memory.get, hcb, if_false]
          exact ih h3

/-- Read after write of one byte. -/
theorem Memory.get_set {m : Memory} (h : Memory.wf m = true) (a b' : Nat) (b : Byte) :
    Memory.get (Memory.set m a b) b' = if b' = a then b else Memory.get m b' :=
  Memory.get_set_from h a b' b

/-- A byte after a write of several: the one written there, or what was there. -/
theorem Memory.get_write {m : Memory} (h : Memory.wf m = true) (a b' : Nat) (l : List Byte) :
    Memory.get (Memory.write m a l) b' = if a ≤ b' ∧ b' < a + l.length then l.getD (b' - a) 0 else Memory.get m b' := by
  induction l generalizing m a with
  | nil =>
    have : ¬ (a ≤ b' ∧ b' < a + ([] : List Byte).length) := by simp only [List.length_nil]; omega
    rw [if_neg this]; rfl
  | cons x l ih =>
    have hw : Memory.write m a (x :: l) = Memory.write (Memory.set m a x) (a + 1) l := rfl
    rw [hw, ih (Memory.wf_set h a x), Memory.get_set h]
    by_cases h1 : b' = a
    · subst h1
      have h2 : ¬ (b' + 1 ≤ b' ∧ b' < b' + 1 + l.length) := by omega
      have h3 : b' ≤ b' ∧ b' < b' + (x :: l).length := by simp
      rw [if_neg h2, if_pos h3]; simp
    · by_cases h2 : a + 1 ≤ b' ∧ b' < a + 1 + l.length
      · have h3 : a ≤ b' ∧ b' < a + (x :: l).length := by simp only [List.length_cons]; omega
        rw [if_pos h2, if_pos h3]
        obtain ⟨k, hk⟩ : ∃ k, b' - a = k + 1 := ⟨b' - a - 1, by omega⟩
        have hk' : b' - (a + 1) = k := by omega
        rw [hk, hk']; simp
      · have h3 : ¬ (a ≤ b' ∧ b' < a + (x :: l).length) := by simp only [List.length_cons]; omega
        rw [if_neg h2, if_neg h3]; simp [h1]

/-- Reading what was just written. -/
theorem Memory.read_write {m : Memory} (h : Memory.wf m = true) (a : Nat) (l : List Byte) :
    Memory.read (Memory.write m a l) a l.length = l := by
  apply List.ext_getElem
  · simp [Memory.read]
  · intro i h1 h2
    simp only [Memory.read, List.getElem_map, List.getElem_range, Memory.get_write h]
    rw [if_pos (by omega)]
    simp [h2]

end Sys2Proof.Machine
end

