-- ==== Sys2Proof/Laws/PerInstr.lean ====
section
/-! SUPPORT. Decoding undoes encoding, one lemma for each row of the opcode table. -/

set_option linter.unusedSimpArgs false

namespace Sys2Proof.Laws.Encoding
open Sys2Proof

/-- A well-formed word decodes from its own fields; a row that is an event is no word of the instruction set. -/
def Statement (i : Instr) : Prop :=
  match encodeFields i with
  | some f => i.wf = true → decodeFields f = .ok i
  | none => i.wf = false

theorem nop (h : Hdr) : Statement (.nop h) := by
  intro hw
  replace hw : (h.wf || h == Hdr.never) = true := hw
  simp only [Bool.or_eq_true, beq_iff_eq] at hw
  rcases hw with hh | rfl
  · refine decode_guarded _ _ decNop hh ?_ (verdict_eq _ _ _ ?_ ?_)
    · simp only [decodeGuarded, decClass0, Fields.ofHdr, BitVec.reduceExtractLsb', BitVec.toNat_ofNat, BitVec.reduceToNat]
    · simp [Fields.common, Fields.ofHdr]
    · rfl
  · rfl
theorem bra (h : Hdr) (off : BitVec 32) : Statement (.bra h off) := by
  intro (hw : (h.wf) = true)
  have hh := hw
  refine decode_guarded _ _ decBra hh ?_ ?_
  · exact class_0 _ 1#10 1 rfl (by decide) (by decide)
  unfold decBra
  refine verdict_eq _ _ _ ?_ ?_
  · simp (disch := first | decide | rfl) only [Fields.common, Fields.ofHdr, List.all_append, List.all_cons, List.all_nil, mask_cat, mask_app, badSrc_bits, twoSel_two, twoSel_three, isSel_bits, imm_one, imm_two, imm_three, dst_nw, rnd_code, scope_code, size_code, fmt_code, mulpart_code, cc_code, fcc_code, votemode_code, shflmode_code, laneop_code, atomop_code, ord_code, cachehint_code, get_cat, get_app, ext_cat_lo, ext_cat_hi, ext_app_lo, ext_app_hi, ext_self, Nat.reduceSub, Nat.reduceLT, if_true, if_false, ite_true, ite_false, ofBool_get]
    simp
  · simp (disch := first | decide | rfl) only [Fields.hdr, Fields.ofHdr, get_cat, get_app, ext_cat_lo, ext_cat_hi, ext_app_lo, ext_app_hi, ext_self, Nat.reduceSub, Nat.reduceLT, if_true, if_false, ite_true, ite_false, ofBool_get, rnd_code, scope_code, size_code, fmt_code, mulpart_code, cc_code, fcc_code, votemode_code, shflmode_code, laneop_code, atomop_code, ord_code, cachehint_code, Option.getD_some, Fields.dst, dst_eta]
theorem brx (h : Hdr) (u : Bool) (a : Src) : Statement (.brx h u a) := by
  intro (hw : (h.wf && a.ok 2 false false) = true)
  simp only [Bool.and_eq_true] at hw
  obtain ⟨hh, h1⟩ := hw
  refine decode_guarded _ _ decBrx hh ?_ ?_
  · exact class_0 _ 2#10 2 rfl (by decide) (by decide)
  unfold decBrx
  refine verdict_eq _ _ _ ?_ ?_
  · simp (disch := first | decide | rfl) only [Fields.common, Fields.ofHdr, List.all_append, List.all_cons, List.all_nil, mask_cat, mask_app, badSrc_bits, twoSel_two, twoSel_three, isSel_bits, imm_one, imm_two, imm_three, dst_nw, src_noSel h1, rnd_code, scope_code, size_code, fmt_code, mulpart_code, cc_code, fcc_code, votemode_code, shflmode_code, laneop_code, atomop_code, ord_code, cachehint_code, get_cat, get_app, ext_cat_lo, ext_cat_hi, ext_app_lo, ext_app_hi, ext_self, Nat.reduceSub, Nat.reduceLT, if_true, if_false, ite_true, ite_false, ofBool_get]
    simp [h1]
  · simp (disch := first | decide | rfl) only [Fields.hdr, Fields.ofHdr, src_noSel h1, get_cat, get_app, ext_cat_lo, ext_cat_hi, ext_app_lo, ext_app_hi, ext_self, Nat.reduceSub, Nat.reduceLT, if_true, if_false, ite_true, ite_false, ofBool_get, rnd_code, scope_code, size_code, fmt_code, mulpart_code, cc_code, fcc_code, votemode_code, shflmode_code, laneop_code, atomop_code, ord_code, cachehint_code, Option.getD_some, Fields.dst, dst_eta]
theorem call (h : Hdr) (d : BitVec 8) (off : BitVec 32) : Statement (.call h d off) := by
  intro (hw : (h.wf && d.toNat % 2 == 0) = true)
  simp only [Bool.and_eq_true] at hw
  obtain ⟨hh, h1⟩ := hw
  refine decode_guarded _ _ decCall hh ?_ ?_
  · exact class_0 _ 3#10 3 rfl (by decide) (by decide)
  unfold decCall
  refine verdict_eq _ _ _ ?_ ?_
  · simp (disch := first | decide | rfl) only [Fields.common, Fields.ofHdr, List.all_append, List.all_cons, List.all_nil, mask_cat, mask_app, badSrc_bits, twoSel_two, twoSel_three, isSel_bits, imm_one, imm_two, imm_three, dst_nw, rnd_code, scope_code, size_code, fmt_code, mulpart_code, cc_code, fcc_code, votemode_code, shflmode_code, laneop_code, atomop_code, ord_code, cachehint_code, get_cat, get_app, ext_cat_lo, ext_cat_hi, ext_app_lo, ext_app_hi, ext_self, Nat.reduceSub, Nat.reduceLT, if_true, if_false, ite_true, ite_false, ofBool_get]
    simp [mod_bad h1]
  · simp (disch := first | decide | rfl) only [Fields.hdr, Fields.ofHdr, get_cat, get_app, ext_cat_lo, ext_cat_hi, ext_app_lo, ext_app_hi, ext_self, Nat.reduceSub, Nat.reduceLT, if_true, if_false, ite_true, ite_false, ofBool_get, rnd_code, scope_code, size_code, fmt_code, mulpart_code, cc_code, fcc_code, votemode_code, shflmode_code, laneop_code, atomop_code, ord_code, cachehint_code, Option.getD_some, Fields.dst, dst_eta]
theorem callx (h : Hdr) (u : Bool) (d : BitVec 8) (a : Src) : Statement (.callx h u d a) := by
  intro (hw : (h.wf && d.toNat % 2 == 0 && a.ok 2 false false) = true)
  simp only [Bool.and_eq_true] at hw
  obtain ⟨⟨hh, h1⟩, h2⟩ := hw
  refine decode_guarded _ _ decCallx hh ?_ ?_
  · exact class_0 _ 4#10 4 rfl (by decide) (by decide)
  unfold decCallx
  refine verdict_eq _ _ _ ?_ ?_
  · simp (disch := first | decide | rfl) only [Fields.common, Fields.ofHdr, List.all_append, List.all_cons, List.all_nil, mask_cat, mask_app, badSrc_bits, twoSel_two, twoSel_three, isSel_bits, imm_one, imm_two, imm_three, dst_nw, src_noSel h2, rnd_code, scope_code, size_code, fmt_code, mulpart_code, cc_code, fcc_code, votemode_code, shflmode_code, laneop_code, atomop_code, ord_code, cachehint_code, get_cat, get_app, ext_cat_lo, ext_cat_hi, ext_app_lo, ext_app_hi, ext_self, Nat.reduceSub, Nat.reduceLT, if_true, if_false, ite_true, ite_false, ofBool_get]
    simp [mod_bad h1, h2]
  · simp (disch := first | decide | rfl) only [Fields.hdr, Fields.ofHdr, src_noSel h2, get_cat, get_app, ext_cat_lo, ext_cat_hi, ext_app_lo, ext_app_hi, ext_self, Nat.reduceSub, Nat.reduceLT, if_true, if_false, ite_true, ite_false, ofBool_get, rnd_code, scope_code, size_code, fmt_code, mulpart_code, cc_code, fcc_code, votemode_code, shflmode_code, laneop_code, atomop_code, ord_code, cachehint_code, Option.getD_some, Fields.dst, dst_eta]
theorem ret (h : Hdr) (a : Src) : Statement (.ret h a) := by
  intro (hw : (h.wf && a.ok 2 false false) = true)
  simp only [Bool.and_eq_true] at hw
  obtain ⟨hh, h1⟩ := hw
  refine decode_guarded _ _ decRet hh ?_ ?_
  · exact class_0 _ 5#10 5 rfl (by decide) (by decide)
  unfold decRet
  refine verdict_eq _ _ _ ?_ ?_
  · simp (disch := first | decide | rfl) only [Fields.common, Fields.ofHdr, List.all_append, List.all_cons, List.all_nil, mask_cat, mask_app, badSrc_bits, twoSel_two, twoSel_three, isSel_bits, imm_one, imm_two, imm_three, dst_nw, src_noSel h1, rnd_code, scope_code, size_code, fmt_code, mulpart_code, cc_code, fcc_code, votemode_code, shflmode_code, laneop_code, atomop_code, ord_code, cachehint_code, get_cat, get_app, ext_cat_lo, ext_cat_hi, ext_app_lo, ext_app_hi, ext_self, Nat.reduceSub, Nat.reduceLT, if_true, if_false, ite_true, ite_false, ofBool_get]
    simp [h1]
  · simp (disch := first | decide | rfl) only [Fields.hdr, Fields.ofHdr, src_noSel h1, get_cat, get_app, ext_cat_lo, ext_cat_hi, ext_app_lo, ext_app_hi, ext_self, Nat.reduceSub, Nat.reduceLT, if_true, if_false, ite_true, ite_false, ofBool_get, rnd_code, scope_code, size_code, fmt_code, mulpart_code, cc_code, fcc_code, votemode_code, shflmode_code, laneop_code, atomop_code, ord_code, cachehint_code, Option.getD_some, Fields.dst, dst_eta]
theorem exit (h : Hdr) : Statement (.exit h) := by
  intro (hw : (h.wf) = true)
  have hh := hw
  refine decode_guarded _ _ decExit hh ?_ ?_
  · exact class_0 _ 6#10 6 rfl (by decide) (by decide)
  unfold decExit
  refine verdict_eq _ _ _ ?_ ?_
  · simp (disch := first | decide | rfl) only [Fields.common, Fields.ofHdr, List.all_append, List.all_cons, List.all_nil, mask_cat, mask_app, badSrc_bits, twoSel_two, twoSel_three, isSel_bits, imm_one, imm_two, imm_three, dst_nw, rnd_code, scope_code, size_code, fmt_code, mulpart_code, cc_code, fcc_code, votemode_code, shflmode_code, laneop_code, atomop_code, ord_code, cachehint_code, get_cat, get_app, ext_cat_lo, ext_cat_hi, ext_app_lo, ext_app_hi, ext_self, Nat.reduceSub, Nat.reduceLT, if_true, if_false, ite_true, ite_false, ofBool_get]
    simp
  · simp (disch := first | decide | rfl) only [Fields.hdr, Fields.ofHdr, get_cat, get_app, ext_cat_lo, ext_cat_hi, ext_app_lo, ext_app_hi, ext_self, Nat.reduceSub, Nat.reduceLT, if_true, if_false, ite_true, ite_false, ofBool_get, rnd_code, scope_code, size_code, fmt_code, mulpart_code, cc_code, fcc_code, votemode_code, shflmode_code, laneop_code, atomop_code, ord_code, cachehint_code, Option.getD_some, Fields.dst, dst_eta]
theorem swp (h : Hdr) (n : BitVec 2) : Statement (.swp h n) := by
  intro (hw : (h.wf && (n != 0)) = true)
  simp only [Bool.and_eq_true] at hw
  obtain ⟨hh, h1⟩ := hw
  refine decode_guarded _ _ decSwp hh ?_ ?_
  · exact class_0 _ 7#10 7 rfl (by decide) (by decide)
  unfold decSwp
  refine verdict_eq _ _ _ ?_ ?_
  · simp (disch := first | decide | rfl) only [Fields.common, Fields.ofHdr, List.all_append, List.all_cons, List.all_nil, mask_cat, mask_app, badSrc_bits, twoSel_two, twoSel_three, isSel_bits, imm_one, imm_two, imm_three, dst_nw, rnd_code, scope_code, size_code, fmt_code, mulpart_code, cc_code, fcc_code, votemode_code, shflmode_code, laneop_code, atomop_code, ord_code, cachehint_code, get_cat, get_app, ext_cat_lo, ext_cat_hi, ext_app_lo, ext_app_hi, ext_self, Nat.reduceSub, Nat.reduceLT, if_true, if_false, ite_true, ite_false, ofBool_get]
    simp_all [dst_bad]
  · simp (disch := first | decide | rfl) only [Fields.hdr, Fields.ofHdr, get_cat, get_app, ext_cat_lo, ext_cat_hi, ext_app_lo, ext_app_hi, ext_self, Nat.reduceSub, Nat.reduceLT, if_true, if_false, ite_true, ite_false, ofBool_get, rnd_code, scope_code, size_code, fmt_code, mulpart_code, cc_code, fcc_code, votemode_code, shflmode_code, laneop_code, atomop_code, ord_code, cachehint_code, Option.getD_some, Fields.dst, dst_eta]
theorem fyield (h : Hdr) : Statement (.fyield h) := by
  intro (hw : (h.wf) = true)
  have hh := hw
  refine decode_guarded _ _ decFyield hh ?_ ?_
  · exact class_0 _ 8#10 8 rfl (by decide) (by decide)
  unfold decFyield
  refine verdict_eq _ _ _ ?_ ?_
  · simp (disch := first | decide | rfl) only [Fields.common, Fields.ofHdr, List.all_append, List.all_cons, List.all_nil, mask_cat, mask_app, badSrc_bits, twoSel_two, twoSel_three, isSel_bits, imm_one, imm_two, imm_three, dst_nw, rnd_code, scope_code, size_code, fmt_code, mulpart_code, cc_code, fcc_code, votemode_code, shflmode_code, laneop_code, atomop_code, ord_code, cachehint_code, get_cat, get_app, ext_cat_lo, ext_cat_hi, ext_app_lo, ext_app_hi, ext_self, Nat.reduceSub, Nat.reduceLT, if_true, if_false, ite_true, ite_false, ofBool_get]
    simp
  · simp (disch := first | decide | rfl) only [Fields.hdr, Fields.ofHdr, get_cat, get_app, ext_cat_lo, ext_cat_hi, ext_app_lo, ext_app_hi, ext_self, Nat.reduceSub, Nat.reduceLT, if_true, if_false, ite_true, ite_false, ofBool_get, rnd_code, scope_code, size_code, fmt_code, mulpart_code, cc_code, fcc_code, votemode_code, shflmode_code, laneop_code, atomop_code, ord_code, cachehint_code, Option.getD_some, Fields.dst, dst_eta]
theorem fbar (h : Hdr) (id : BitVec 2) (arv : Bool) (mask : BitVec 4) : Statement (.fbar h id arv mask) := by
  intro (hw : (h.wf) = true)
  have hh := hw
  refine decode_guarded _ _ decFbar hh ?_ ?_
  · exact class_0 _ 9#10 9 rfl (by decide) (by decide)
  unfold decFbar
  refine verdict_eq _ _ _ ?_ ?_
  · simp (disch := first | decide | rfl) only [Fields.common, Fields.ofHdr, List.all_append, List.all_cons, List.all_nil, mask_cat, mask_app, badSrc_bits, twoSel_two, twoSel_three, isSel_bits, imm_one, imm_two, imm_three, dst_nw, rnd_code, scope_code, size_code, fmt_code, mulpart_code, cc_code, fcc_code, votemode_code, shflmode_code, laneop_code, atomop_code, ord_code, cachehint_code, get_cat, get_app, ext_cat_lo, ext_cat_hi, ext_app_lo, ext_app_hi, ext_self, Nat.reduceSub, Nat.reduceLT, if_true, if_false, ite_true, ite_false, ofBool_get]
    simp
  · simp (disch := first | decide | rfl) only [Fields.hdr, Fields.ofHdr, get_cat, get_app, ext_cat_lo, ext_cat_hi, ext_app_lo, ext_app_hi, ext_self, Nat.reduceSub, Nat.reduceLT, if_true, if_false, ite_true, ite_false, ofBool_get, rnd_code, scope_code, size_code, fmt_code, mulpart_code, cc_code, fcc_code, votemode_code, shflmode_code, laneop_code, atomop_code, ord_code, cachehint_code, Option.getD_some, Fields.dst, dst_eta]
theorem wgbar (h : Hdr) (id : BitVec 3) (arv : Bool) : Statement (.wgbar h id arv) := by
  intro (hw : (h.wf) = true)
  have hh := hw
  refine decode_guarded _ _ decWgbar hh ?_ ?_
  · exact class_0 _ 10#10 10 rfl (by decide) (by decide)
  unfold decWgbar
  refine verdict_eq _ _ _ ?_ ?_
  · simp (disch := first | decide | rfl) only [Fields.common, Fields.ofHdr, List.all_append, List.all_cons, List.all_nil, mask_cat, mask_app, badSrc_bits, twoSel_two, twoSel_three, isSel_bits, imm_one, imm_two, imm_three, dst_nw, rnd_code, scope_code, size_code, fmt_code, mulpart_code, cc_code, fcc_code, votemode_code, shflmode_code, laneop_code, atomop_code, ord_code, cachehint_code, get_cat, get_app, ext_cat_lo, ext_cat_hi, ext_app_lo, ext_app_hi, ext_self, Nat.reduceSub, Nat.reduceLT, if_true, if_false, ite_true, ite_false, ofBool_get]
    simp
  · simp (disch := first | decide | rfl) only [Fields.hdr, Fields.ofHdr, get_cat, get_app, ext_cat_lo, ext_cat_hi, ext_app_lo, ext_app_hi, ext_self, Nat.reduceSub, Nat.reduceLT, if_true, if_false, ite_true, ite_false, ofBool_get, rnd_code, scope_code, size_code, fmt_code, mulpart_code, cc_code, fcc_code, votemode_code, shflmode_code, laneop_code, atomop_code, ord_code, cachehint_code, Option.getD_some, Fields.dst, dst_eta]
theorem clbar (h : Hdr) (id : BitVec 1) (arv : Bool) : Statement (.clbar h id arv) := by
  intro (hw : (h.wf) = true)
  have hh := hw
  refine decode_guarded _ _ decClbar hh ?_ ?_
  · exact class_0 _ 11#10 11 rfl (by decide) (by decide)
  unfold decClbar
  refine verdict_eq _ _ _ ?_ ?_
  · simp (disch := first | decide | rfl) only [Fields.common, Fields.ofHdr, List.all_append, List.all_cons, List.all_nil, mask_cat, mask_app, badSrc_bits, twoSel_two, twoSel_three, isSel_bits, imm_one, imm_two, imm_three, dst_nw, rnd_code, scope_code, size_code, fmt_code, mulpart_code, cc_code, fcc_code, votemode_code, shflmode_code, laneop_code, atomop_code, ord_code, cachehint_code, get_cat, get_app, ext_cat_lo, ext_cat_hi, ext_app_lo, ext_app_hi, ext_self, Nat.reduceSub, Nat.reduceLT, if_true, if_false, ite_true, ite_false, ofBool_get]
    simp
  · simp (disch := first | decide | rfl) only [Fields.hdr, Fields.ofHdr, get_cat, get_app, ext_cat_lo, ext_cat_hi, ext_app_lo, ext_app_hi, ext_self, Nat.reduceSub, Nat.reduceLT, if_true, if_false, ite_true, ite_false, ofBool_get, rnd_code, scope_code, size_code, fmt_code, mulpart_code, cc_code, fcc_code, votemode_code, shflmode_code, laneop_code, atomop_code, ord_code, cachehint_code, Option.getD_some, Fields.dst, dst_eta]
theorem gbar (h : Hdr) (arv : Bool) : Statement (.gbar h arv) := by
  intro (hw : (h.wf) = true)
  have hh := hw
  refine decode_guarded _ _ decGbar hh ?_ ?_
  · exact class_0 _ 12#10 12 rfl (by decide) (by decide)
  unfold decGbar
  refine verdict_eq _ _ _ ?_ ?_
  · simp (disch := first | decide | rfl) only [Fields.common, Fields.ofHdr, List.all_append, List.all_cons, List.all_nil, mask_cat, mask_app, badSrc_bits, twoSel_two, twoSel_three, isSel_bits, imm_one, imm_two, imm_three, dst_nw, rnd_code, scope_code, size_code, fmt_code, mulpart_code, cc_code, fcc_code, votemode_code, shflmode_code, laneop_code, atomop_code, ord_code, cachehint_code, get_cat, get_app, ext_cat_lo, ext_cat_hi, ext_app_lo, ext_app_hi, ext_self, Nat.reduceSub, Nat.reduceLT, if_true, if_false, ite_true, ite_false, ofBool_get]
    simp
  · simp (disch := first | decide | rfl) only [Fields.hdr, Fields.ofHdr, get_cat, get_app, ext_cat_lo, ext_cat_hi, ext_app_lo, ext_app_hi, ext_self, Nat.reduceSub, Nat.reduceLT, if_true, if_false, ite_true, ite_false, ofBool_get, rnd_code, scope_code, size_code, fmt_code, mulpart_code, cc_code, fcc_code, votemode_code, shflmode_code, laneop_code, atomop_code, ord_code, cachehint_code, Option.getD_some, Fields.dst, dst_eta]
theorem wrel (h : Hdr) (w : BitVec 2) : Statement (.wrel h w) := by
  intro (hw : (h.wf) = true)
  have hh := hw
  refine decode_guarded _ _ decWrel hh ?_ ?_
  · exact class_0 _ 13#10 13 rfl (by decide) (by decide)
  unfold decWrel
  refine verdict_eq _ _ _ ?_ ?_
  · simp (disch := first | decide | rfl) only [Fields.common, Fields.ofHdr, List.all_append, List.all_cons, List.all_nil, mask_cat, mask_app, badSrc_bits, twoSel_two, twoSel_three, isSel_bits, imm_one, imm_two, imm_three, dst_nw, rnd_code, scope_code, size_code, fmt_code, mulpart_code, cc_code, fcc_code, votemode_code, shflmode_code, laneop_code, atomop_code, ord_code, cachehint_code, get_cat, get_app, ext_cat_lo, ext_cat_hi, ext_app_lo, ext_app_hi, ext_self, Nat.reduceSub, Nat.reduceLT, if_true, if_false, ite_true, ite_false, ofBool_get]
    simp
  · simp (disch := first | decide | rfl) only [Fields.hdr, Fields.ofHdr, get_cat, get_app, ext_cat_lo, ext_cat_hi, ext_app_lo, ext_app_hi, ext_self, Nat.reduceSub, Nat.reduceLT, if_true, if_false, ite_true, ite_false, ofBool_get, rnd_code, scope_code, size_code, fmt_code, mulpart_code, cc_code, fcc_code, votemode_code, shflmode_code, laneop_code, atomop_code, ord_code, cachehint_code, Option.getD_some, Fields.dst, dst_eta]
theorem wacq (h : Hdr) (w : BitVec 2) : Statement (.wacq h w) := by
  intro (hw : (h.wf) = true)
  have hh := hw
  refine decode_guarded _ _ decWacq hh ?_ ?_
  · exact class_0 _ 14#10 14 rfl (by decide) (by decide)
  unfold decWacq
  refine verdict_eq _ _ _ ?_ ?_
  · simp (disch := first | decide | rfl) only [Fields.common, Fields.ofHdr, List.all_append, List.all_cons, List.all_nil, mask_cat, mask_app, badSrc_bits, twoSel_two, twoSel_three, isSel_bits, imm_one, imm_two, imm_three, dst_nw, rnd_code, scope_code, size_code, fmt_code, mulpart_code, cc_code, fcc_code, votemode_code, shflmode_code, laneop_code, atomop_code, ord_code, cachehint_code, get_cat, get_app, ext_cat_lo, ext_cat_hi, ext_app_lo, ext_app_hi, ext_self, Nat.reduceSub, Nat.reduceLT, if_true, if_false, ite_true, ite_false, ofBool_get]
    simp
  · simp (disch := first | decide | rfl) only [Fields.hdr, Fields.ofHdr, get_cat, get_app, ext_cat_lo, ext_cat_hi, ext_app_lo, ext_app_hi, ext_self, Nat.reduceSub, Nat.reduceLT, if_true, if_false, ite_true, ite_false, ofBool_get, rnd_code, scope_code, size_code, fmt_code, mulpart_code, cc_code, fcc_code, votemode_code, shflmode_code, laneop_code, atomop_code, ord_code, cachehint_code, Option.getD_some, Fields.dst, dst_eta]
theorem iadd (h : Hdr) (u : Bool) (d : Dst) (a : Src) (b : Src) (x2 : Bool) : Statement (.iadd h u d a b x2) := by
  intro (hw : (h.wf && d.ok (if x2 then 2 else 1) && a.ok (if x2 then 2 else 1) true true && b.ok (if x2 then 2 else 1) true true && oneImm [a, b]) = true)
  simp only [Bool.and_eq_true] at hw
  obtain ⟨⟨⟨⟨hh, h1⟩, h2⟩, h3⟩, h4⟩ := hw
  refine decode_guarded _ _ decIadd hh ?_ ?_
  · exact class_1 _ 64#10 0 rfl (by decide) (by decide)
  unfold decIadd
  refine verdict_eq _ _ _ ?_ ?_
  · simp (disch := first | decide | rfl) only [Fields.common, Fields.ofHdr, List.all_append, List.all_cons, List.all_nil, mask_cat, mask_app, badSrc_bits, twoSel_two, twoSel_three, isSel_bits, imm_one, imm_two, imm_three, dst_nw, src_snd2 h4, src_fst2, rnd_code, scope_code, size_code, fmt_code, mulpart_code, cc_code, fcc_code, votemode_code, shflmode_code, laneop_code, atomop_code, ord_code, cachehint_code, get_cat, get_app, ext_cat_lo, ext_cat_hi, ext_app_lo, ext_app_hi, ext_self, Nat.reduceSub, Nat.reduceLT, if_true, if_false, ite_true, ite_false, ofBool_get]
    simp [dst_bad d _ h1, h2, h3, h4]
  · simp (disch := first | decide | rfl) only [Fields.hdr, Fields.ofHdr, src_snd2 h4, src_fst2, get_cat, get_app, ext_cat_lo, ext_cat_hi, ext_app_lo, ext_app_hi, ext_self, Nat.reduceSub, Nat.reduceLT, if_true, if_false, ite_true, ite_false, ofBool_get, rnd_code, scope_code, size_code, fmt_code, mulpart_code, cc_code, fcc_code, votemode_code, shflmode_code, laneop_code, atomop_code, ord_code, cachehint_code, Option.getD_some, Fields.dst, dst_eta]
theorem isub (h : Hdr) (u : Bool) (d : Dst) (a : Src) (b : Src) (x2 : Bool) : Statement (.isub h u d a b x2) := by
  intro (hw : (h.wf && d.ok (if x2 then 2 else 1) && a.ok (if x2 then 2 else 1) true true && b.ok (if x2 then 2 else 1) true true && oneImm [a, b]) = true)
  simp only [Bool.and_eq_true] at hw
  obtain ⟨⟨⟨⟨hh, h1⟩, h2⟩, h3⟩, h4⟩ := hw
  refine decode_guarded _ _ decIsub hh ?_ ?_
  · exact class_1 _ 65#10 1 rfl (by decide) (by decide)
  unfold decIsub
  refine verdict_eq _ _ _ ?_ ?_
  · simp (disch := first | decide | rfl) only [Fields.common, Fields.ofHdr, List.all_append, List.all_cons, List.all_nil, mask_cat, mask_app, badSrc_bits, twoSel_two, twoSel_three, isSel_bits, imm_one, imm_two, imm_three, dst_nw, src_snd2 h4, src_fst2, rnd_code, scope_code, size_code, fmt_code, mulpart_code, cc_code, fcc_code, votemode_code, shflmode_code, laneop_code, atomop_code, ord_code, cachehint_code, get_cat, get_app, ext_cat_lo, ext_cat_hi, ext_app_lo, ext_app_hi, ext_self, Nat.reduceSub, Nat.reduceLT, if_true, if_false, ite_true, ite_false, ofBool_get]
    simp [dst_bad d _ h1, h2, h3, h4]
  · simp (disch := first | decide | rfl) only [Fields.hdr, Fields.ofHdr, src_snd2 h4, src_fst2, get_cat, get_app, ext_cat_lo, ext_cat_hi, ext_app_lo, ext_app_hi, ext_self, Nat.reduceSub, Nat.reduceLT, if_true, if_false, ite_true, ite_false, ofBool_get, rnd_code, scope_code, size_code, fmt_code, mulpart_code, cc_code, fcc_code, votemode_code, shflmode_code, laneop_code, atomop_code, ord_code, cachehint_code, Option.getD_some, Fields.dst, dst_eta]
theorem iaddc (h : Hdr) (u : Bool) (d : Dst) (a : Src) (b : Src) (cin : BitVec 3) (cneg : Bool) (cout : BitVec 3) : Statement (.iaddc h u d a b cin cneg cout) := by
  intro (hw : (h.wf && a.ok 1 true true && b.ok 1 true true && oneImm [a, b]) = true)
  simp only [Bool.and_eq_true] at hw
  obtain ⟨⟨⟨hh, h1⟩, h2⟩, h3⟩ := hw
  refine decode_guarded _ _ decIaddc hh ?_ ?_
  · exact class_1 _ 66#10 2 rfl (by decide) (by decide)
  unfold decIaddc
  refine verdict_eq _ _ _ ?_ ?_
  · simp (disch := first | decide | rfl) only [Fields.common, Fields.ofHdr, List.all_append, List.all_cons, List.all_nil, mask_cat, mask_app, badSrc_bits, twoSel_two, twoSel_three, isSel_bits, imm_one, imm_two, imm_three, dst_nw, src_snd2 h3, src_fst2, rnd_code, scope_code, size_code, fmt_code, mulpart_code, cc_code, fcc_code, votemode_code, shflmode_code, laneop_code, atomop_code, ord_code, cachehint_code, get_cat, get_app, ext_cat_lo, ext_cat_hi, ext_app_lo, ext_app_hi, ext_self, Nat.reduceSub, Nat.reduceLT, if_true, if_false, ite_true, ite_false, ofBool_get]
    simp [h1, h2, h3]
  · simp (disch := first | decide | rfl) only [Fields.hdr, Fields.ofHdr, src_snd2 h3, src_fst2, get_cat, get_app, ext_cat_lo, ext_cat_hi, ext_app_lo, ext_app_hi, ext_self, Nat.reduceSub, Nat.reduceLT, if_true, if_false, ite_true, ite_false, ofBool_get, rnd_code, scope_code, size_code, fmt_code, mulpart_code, cc_code, fcc_code, votemode_code, shflmode_code, laneop_code, atomop_code, ord_code, cachehint_code, Option.getD_some, Fields.dst, dst_eta]
theorem imul (h : Hdr) (u : Bool) (d : Dst) (a : Src) (b : Src) (sgn : Bool) (part : MulPart) : Statement (.imul h u d a b sgn part) := by
  intro (hw : (h.wf && d.ok (if part = MulPart.wide then 2 else 1) && a.ok 1 true true && b.ok 1 true true && oneImm [a, b]) = true)
  simp only [Bool.and_eq_true] at hw
  obtain ⟨⟨⟨⟨hh, h1⟩, h2⟩, h3⟩, h4⟩ := hw
  refine decode_guarded _ _ decImul hh ?_ ?_
  · exact class_1 _ 67#10 3 rfl (by decide) (by decide)
  unfold decImul
  refine verdict_eq _ _ _ ?_ ?_
  · simp (disch := first | decide | rfl) only [Fields.common, Fields.ofHdr, List.all_append, List.all_cons, List.all_nil, mask_cat, mask_app, badSrc_bits, twoSel_two, twoSel_three, isSel_bits, imm_one, imm_two, imm_three, dst_nw, src_snd2 h4, src_fst2, rnd_code, scope_code, size_code, fmt_code, mulpart_code, cc_code, fcc_code, votemode_code, shflmode_code, laneop_code, atomop_code, ord_code, cachehint_code, get_cat, get_app, ext_cat_lo, ext_cat_hi, ext_app_lo, ext_app_hi, ext_self, Nat.reduceSub, Nat.reduceLT, if_true, if_false, ite_true, ite_false, ofBool_get]
    simp [dst_bad d _ h1, h2, h3, h4]
  · simp (disch := first | decide | rfl) only [Fields.hdr, Fields.ofHdr, src_snd2 h4, src_fst2, get_cat, get_app, ext_cat_lo, ext_cat_hi, ext_app_lo, ext_app_hi, ext_self, Nat.reduceSub, Nat.reduceLT, if_true, if_false, ite_true, ite_false, ofBool_get, rnd_code, scope_code, size_code, fmt_code, mulpart_code, cc_code, fcc_code, votemode_code, shflmode_code, laneop_code, atomop_code, ord_code, cachehint_code, Option.getD_some, Fields.dst, dst_eta]
theorem imad (h : Hdr) (u : Bool) (d : Dst) (a : Src) (b : Src) (c : Src) (sgn : Bool) (wide : Bool) : Statement (.imad h u d a b c sgn wide) := by
  intro (hw : (h.wf && d.ok (if wide then 2 else 1) && a.ok 1 false true && b.ok 1 false true && c.ok (if wide then 2 else 1) false true) = true)
  simp only [Bool.and_eq_true] at hw
  obtain ⟨⟨⟨⟨hh, h1⟩, h2⟩, h3⟩, h4⟩ := hw
  refine decode_guarded _ _ decImad hh ?_ ?_
  · exact class_1 _ 68#10 4 rfl (by decide) (by decide)
  unfold decImad
  refine verdict_eq _ _ _ ?_ ?_
  · simp (disch := first | decide | rfl) only [Fields.common, Fields.ofHdr, List.all_append, List.all_cons, List.all_nil, mask_cat, mask_app, badSrc_bits, twoSel_two, twoSel_three, isSel_bits, imm_one, imm_two, imm_three, dst_nw, src_noSel h2, src_noSel h3, src_noSel h4, rnd_code, scope_code, size_code, fmt_code, mulpart_code, cc_code, fcc_code, votemode_code, shflmode_code, laneop_code, atomop_code, ord_code, cachehint_code, get_cat, get_app, ext_cat_lo, ext_cat_hi, ext_app_lo, ext_app_hi, ext_self, Nat.reduceSub, Nat.reduceLT, if_true, if_false, ite_true, ite_false, ofBool_get]
    simp [dst_bad d _ h1, h2, h3, h4]
  · simp (disch := first | decide | rfl) only [Fields.hdr, Fields.ofHdr, src_noSel h2, src_noSel h3, src_noSel h4, get_cat, get_app, ext_cat_lo, ext_cat_hi, ext_app_lo, ext_app_hi, ext_self, Nat.reduceSub, Nat.reduceLT, if_true, if_false, ite_true, ite_false, ofBool_get, rnd_code, scope_code, size_code, fmt_code, mulpart_code, cc_code, fcc_code, votemode_code, shflmode_code, laneop_code, atomop_code, ord_code, cachehint_code, Option.getD_some, Fields.dst, dst_eta]
theorem imin (h : Hdr) (u : Bool) (d : Dst) (a : Src) (b : Src) (sgn : Bool) : Statement (.imin h u d a b sgn) := by
  intro (hw : (h.wf && a.ok 1 true true && b.ok 1 true true && oneImm [a, b]) = true)
  simp only [Bool.and_eq_true] at hw
  obtain ⟨⟨⟨hh, h1⟩, h2⟩, h3⟩ := hw
  refine decode_guarded _ _ decImin hh ?_ ?_
  · exact class_1 _ 69#10 5 rfl (by decide) (by decide)
  unfold decImin
  refine verdict_eq _ _ _ ?_ ?_
  · simp (disch := first | decide | rfl) only [Fields.common, Fields.ofHdr, List.all_append, List.all_cons, List.all_nil, mask_cat, mask_app, badSrc_bits, twoSel_two, twoSel_three, isSel_bits, imm_one, imm_two, imm_three, dst_nw, src_snd2 h3, src_fst2, rnd_code, scope_code, size_code, fmt_code, mulpart_code, cc_code, fcc_code, votemode_code, shflmode_code, laneop_code, atomop_code, ord_code, cachehint_code, get_cat, get_app, ext_cat_lo, ext_cat_hi, ext_app_lo, ext_app_hi, ext_self, Nat.reduceSub, Nat.reduceLT, if_true, if_false, ite_true, ite_false, ofBool_get]
    simp [h1, h2, h3]
  · simp (disch := first | decide | rfl) only [Fields.hdr, Fields.ofHdr, src_snd2 h3, src_fst2, get_cat, get_app, ext_cat_lo, ext_cat_hi, ext_app_lo, ext_app_hi, ext_self, Nat.reduceSub, Nat.reduceLT, if_true, if_false, ite_true, ite_false, ofBool_get, rnd_code, scope_code, size_code, fmt_code, mulpart_code, cc_code, fcc_code, votemode_code, shflmode_code, laneop_code, atomop_code, ord_code, cachehint_code, Option.getD_some, Fields.dst, dst_eta]
theorem imax (h : Hdr) (u : Bool) (d : Dst) (a : Src) (b : Src) (sgn : Bool) : Statement (.imax h u d a b sgn) := by
  intro (hw : (h.wf && a.ok 1 true true && b.ok 1 true true && oneImm [a, b]) = true)
  simp only [Bool.and_eq_true] at hw
  obtain ⟨⟨⟨hh, h1⟩, h2⟩, h3⟩ := hw
  refine decode_guarded _ _ decImax hh ?_ ?_
  · exact class_1 _ 70#10 6 rfl (by decide) (by decide)
  unfold decImax
  refine verdict_eq _ _ _ ?_ ?_
  · simp (disch := first | decide | rfl) only [Fields.common, Fields.ofHdr, List.all_append, List.all_cons, List.all_nil, mask_cat, mask_app, badSrc_bits, twoSel_two, twoSel_three, isSel_bits, imm_one, imm_two, imm_three, dst_nw, src_snd2 h3, src_fst2, rnd_code, scope_code, size_code, fmt_code, mulpart_code, cc_code, fcc_code, votemode_code, shflmode_code, laneop_code, atomop_code, ord_code, cachehint_code, get_cat, get_app, ext_cat_lo, ext_cat_hi, ext_app_lo, ext_app_hi, ext_self, Nat.reduceSub, Nat.reduceLT, if_true, if_false, ite_true, ite_false, ofBool_get]
    simp [h1, h2, h3]
  · simp (disch := first | decide | rfl) only [Fields.hdr, Fields.ofHdr, src_snd2 h3, src_fst2, get_cat, get_app, ext_cat_lo, ext_cat_hi, ext_app_lo, ext_app_hi, ext_self, Nat.reduceSub, Nat.reduceLT, if_true, if_false, ite_true, ite_false, ofBool_get, rnd_code, scope_code, size_code, fmt_code, mulpart_code, cc_code, fcc_code, votemode_code, shflmode_code, laneop_code, atomop_code, ord_code, cachehint_code, Option.getD_some, Fields.dst, dst_eta]
theorem iabs (h : Hdr) (u : Bool) (d : Dst) (a : Src) (sat : Bool) : Statement (.iabs h u d a sat) := by
  intro (hw : (h.wf && a.ok 1 true true) = true)
  simp only [Bool.and_eq_true] at hw
  obtain ⟨hh, h1⟩ := hw
  refine decode_guarded _ _ decIabs hh ?_ ?_
  · exact class_1 _ 71#10 7 rfl (by decide) (by decide)
  unfold decIabs
  refine verdict_eq _ _ _ ?_ ?_
  · simp (disch := first | decide | rfl) only [Fields.common, Fields.ofHdr, List.all_append, List.all_cons, List.all_nil, mask_cat, mask_app, badSrc_bits, twoSel_two, twoSel_three, isSel_bits, imm_one, imm_two, imm_three, dst_nw, src_one, rnd_code, scope_code, size_code, fmt_code, mulpart_code, cc_code, fcc_code, votemode_code, shflmode_code, laneop_code, atomop_code, ord_code, cachehint_code, get_cat, get_app, ext_cat_lo, ext_cat_hi, ext_app_lo, ext_app_hi, ext_self, Nat.reduceSub, Nat.reduceLT, if_true, if_false, ite_true, ite_false, ofBool_get]
    simp [h1]
  · simp (disch := first | decide | rfl) only [Fields.hdr, Fields.ofHdr, src_one, get_cat, get_app, ext_cat_lo, ext_cat_hi, ext_app_lo, ext_app_hi, ext_self, Nat.reduceSub, Nat.reduceLT, if_true, if_false, ite_true, ite_false, ofBool_get, rnd_code, scope_code, size_code, fmt_code, mulpart_code, cc_code, fcc_code, votemode_code, shflmode_code, laneop_code, atomop_code, ord_code, cachehint_code, Option.getD_some, Fields.dst, dst_eta]
theorem ineg (h : Hdr) (u : Bool) (d : Dst) (a : Src) (x2 : Bool) (sat : Bool) : Statement (.ineg h u d a x2 sat) := by
  intro (hw : (h.wf && d.ok (if x2 then 2 else 1) && a.ok (if x2 then 2 else 1) true true) = true)
  simp only [Bool.and_eq_true] at hw
  obtain ⟨⟨hh, h1⟩, h2⟩ := hw
  refine decode_guarded _ _ decIneg hh ?_ ?_
  · exact class_1 _ 72#10 8 rfl (by decide) (by decide)
  unfold decIneg
  refine verdict_eq _ _ _ ?_ ?_
  · simp (disch := first | decide | rfl) only [Fields.common, Fields.ofHdr, List.all_append, List.all_cons, List.all_nil, mask_cat, mask_app, badSrc_bits, twoSel_two, twoSel_three, isSel_bits, imm_one, imm_two, imm_three, dst_nw, src_one, rnd_code, scope_code, size_code, fmt_code, mulpart_code, cc_code, fcc_code, votemode_code, shflmode_code, laneop_code, atomop_code, ord_code, cachehint_code, get_cat, get_app, ext_cat_lo, ext_cat_hi, ext_app_lo, ext_app_hi, ext_self, Nat.reduceSub, Nat.reduceLT, if_true, if_false, ite_true, ite_false, ofBool_get]
    simp [dst_bad d _ h1, h2]
  · simp (disch := first | decide | rfl) only [Fields.hdr, Fields.ofHdr, src_one, get_cat, get_app, ext_cat_lo, ext_cat_hi, ext_app_lo, ext_app_hi, ext_self, Nat.reduceSub, Nat.reduceLT, if_true, if_false, ite_true, ite_false, ofBool_get, rnd_code, scope_code, size_code, fmt_code, mulpart_code, cc_code, fcc_code, votemode_code, shflmode_code, laneop_code, atomop_code, ord_code, cachehint_code, Option.getD_some, Fields.dst, dst_eta]
theorem idiv (h : Hdr) (u : Bool) (d : Dst) (a : Src) (b : Src) (sgn : Bool) (x2 : Bool) : Statement (.idiv h u d a b sgn x2) := by
  intro (hw : (h.wf && d.ok (if x2 then 2 else 1) && a.ok (if x2 then 2 else 1) true true && b.ok (if x2 then 2 else 1) true true && oneImm [a, b]) = true)
  simp only [Bool.and_eq_true] at hw
  obtain ⟨⟨⟨⟨hh, h1⟩, h2⟩, h3⟩, h4⟩ := hw
  refine decode_guarded _ _ decIdiv hh ?_ ?_
  · exact class_1 _ 73#10 9 rfl (by decide) (by decide)
  unfold decIdiv
  refine verdict_eq _ _ _ ?_ ?_
  · simp (disch := first | decide | rfl) only [Fields.common, Fields.ofHdr, List.all_append, List.all_cons, List.all_nil, mask_cat, mask_app, badSrc_bits, twoSel_two, twoSel_three, isSel_bits, imm_one, imm_two, imm_three, dst_nw, src_snd2 h4, src_fst2, rnd_code, scope_code, size_code, fmt_code, mulpart_code, cc_code, fcc_code, votemode_code, shflmode_code, laneop_code, atomop_code, ord_code, cachehint_code, get_cat, get_app, ext_cat_lo, ext_cat_hi, ext_app_lo, ext_app_hi, ext_self, Nat.reduceSub, Nat.reduceLT, if_true, if_false, ite_true, ite_false, ofBool_get]
    simp [dst_bad d _ h1, h2, h3, h4]
  · simp (disch := first | decide | rfl) only [Fields.hdr, Fields.ofHdr, src_snd2 h4, src_fst2, get_cat, get_app, ext_cat_lo, ext_cat_hi, ext_app_lo, ext_app_hi, ext_self, Nat.reduceSub, Nat.reduceLT, if_true, if_false, ite_true, ite_false, ofBool_get, rnd_code, scope_code, size_code, fmt_code, mulpart_code, cc_code, fcc_code, votemode_code, shflmode_code, laneop_code, atomop_code, ord_code, cachehint_code, Option.getD_some, Fields.dst, dst_eta]
theorem irem (h : Hdr) (u : Bool) (d : Dst) (a : Src) (b : Src) (sgn : Bool) (x2 : Bool) : Statement (.irem h u d a b sgn x2) := by
  intro (hw : (h.wf && d.ok (if x2 then 2 else 1) && a.ok (if x2 then 2 else 1) true true && b.ok (if x2 then 2 else 1) true true && oneImm [a, b]) = true)
  simp only [Bool.and_eq_true] at hw
  obtain ⟨⟨⟨⟨hh, h1⟩, h2⟩, h3⟩, h4⟩ := hw
  refine decode_guarded _ _ decIrem hh ?_ ?_
  · exact class_1 _ 74#10 10 rfl (by decide) (by decide)
  unfold decIrem
  refine verdict_eq _ _ _ ?_ ?_
  · simp (disch := first | decide | rfl) only [Fields.common, Fields.ofHdr, List.all_append, List.all_cons, List.all_nil, mask_cat, mask_app, badSrc_bits, twoSel_two, twoSel_three, isSel_bits, imm_one, imm_two, imm_three, dst_nw, src_snd2 h4, src_fst2, rnd_code, scope_code, size_code, fmt_code, mulpart_code, cc_code, fcc_code, votemode_code, shflmode_code, laneop_code, atomop_code, ord_code, cachehint_code, get_cat, get_app, ext_cat_lo, ext_cat_hi, ext_app_lo, ext_app_hi, ext_self, Nat.reduceSub, Nat.reduceLT, if_true, if_false, ite_true, ite_false, ofBool_get]
    simp [dst_bad d _ h1, h2, h3, h4]
  · simp (disch := first | decide | rfl) only [Fields.hdr, Fields.ofHdr, src_snd2 h4, src_fst2, get_cat, get_app, ext_cat_lo, ext_cat_hi, ext_app_lo, ext_app_hi, ext_self, Nat.reduceSub, Nat.reduceLT, if_true, if_false, ite_true, ite_false, ofBool_get, rnd_code, scope_code, size_code, fmt_code, mulpart_code, cc_code, fcc_code, votemode_code, shflmode_code, laneop_code, atomop_code, ord_code, cachehint_code, Option.getD_some, Fields.dst, dst_eta]
theorem icmp (h : Hdr) (u : Bool) (pd : BitVec 3) (a : Src) (b : Src) (sgn : Bool) (x2 : Bool) (cc : Cc) : Statement (.icmp h u pd a b sgn x2 cc) := by
  intro (hw : (h.wf && a.ok (if x2 then 2 else 1) true true && b.ok (if x2 then 2 else 1) true true && oneImm [a, b]) = true)
  simp only [Bool.and_eq_true] at hw
  obtain ⟨⟨⟨hh, h1⟩, h2⟩, h3⟩ := hw
  refine decode_guarded _ _ decIcmp hh ?_ ?_
  · exact class_1 _ 75#10 11 rfl (by decide) (by decide)
  unfold decIcmp
  refine verdict_eq _ _ _ ?_ ?_
  · simp (disch := first | decide | rfl) only [Fields.common, Fields.ofHdr, List.all_append, List.all_cons, List.all_nil, mask_cat, mask_app, badSrc_bits, twoSel_two, twoSel_three, isSel_bits, imm_one, imm_two, imm_three, dst_nw, src_snd2 h3, src_fst2, rnd_code, scope_code, size_code, fmt_code, mulpart_code, cc_code, fcc_code, votemode_code, shflmode_code, laneop_code, atomop_code, ord_code, cachehint_code, get_cat, get_app, ext_cat_lo, ext_cat_hi, ext_app_lo, ext_app_hi, ext_self, Nat.reduceSub, Nat.reduceLT, if_true, if_false, ite_true, ite_false, ofBool_get]
    simp [h1, h2, h3]
  · simp (disch := first | decide | rfl) only [Fields.hdr, Fields.ofHdr, src_snd2 h3, src_fst2, get_cat, get_app, ext_cat_lo, ext_cat_hi, ext_app_lo, ext_app_hi, ext_self, Nat.reduceSub, Nat.reduceLT, if_true, if_false, ite_true, ite_false, ofBool_get, rnd_code, scope_code, size_code, fmt_code, mulpart_code, cc_code, fcc_code, votemode_code, shflmode_code, laneop_code, atomop_code, ord_code, cachehint_code, Option.getD_some, Fields.dst, dst_eta]
theorem iadds (h : Hdr) (u : Bool) (d : Dst) (a : Src) (b : Src) (sgn : Bool) (sub : Bool) : Statement (.iadds h u d a b sgn sub) := by
  intro (hw : (h.wf && a.ok 1 true true && b.ok 1 true true && oneImm [a, b]) = true)
  simp only [Bool.and_eq_true] at hw
  obtain ⟨⟨⟨hh, h1⟩, h2⟩, h3⟩ := hw
  refine decode_guarded _ _ decIadds hh ?_ ?_
  · exact class_1 _ 76#10 12 rfl (by decide) (by decide)
  unfold decIadds
  refine verdict_eq _ _ _ ?_ ?_
  · simp (disch := first | decide | rfl) only [Fields.common, Fields.ofHdr, List.all_append, List.all_cons, List.all_nil, mask_cat, mask_app, badSrc_bits, twoSel_two, twoSel_three, isSel_bits, imm_one, imm_two, imm_three, dst_nw, src_snd2 h3, src_fst2, rnd_code, scope_code, size_code, fmt_code, mulpart_code, cc_code, fcc_code, votemode_code, shflmode_code, laneop_code, atomop_code, ord_code, cachehint_code, get_cat, get_app, ext_cat_lo, ext_cat_hi, ext_app_lo, ext_app_hi, ext_self, Nat.reduceSub, Nat.reduceLT, if_true, if_false, ite_true, ite_false, ofBool_get]
    simp [h1, h2, h3]
  · simp (disch := first | decide | rfl) only [Fields.hdr, Fields.ofHdr, src_snd2 h3, src_fst2, get_cat, get_app, ext_cat_lo, ext_cat_hi, ext_app_lo, ext_app_hi, ext_self, Nat.reduceSub, Nat.reduceLT, if_true, if_false, ite_true, ite_false, ofBool_get, rnd_code, scope_code, size_code, fmt_code, mulpart_code, cc_code, fcc_code, votemode_code, shflmode_code, laneop_code, atomop_code, ord_code, cachehint_code, Option.getD_some, Fields.dst, dst_eta]
theorem lea (h : Hdr) (u : Bool) (d : Dst) (a : Src) (b : Src) (sgn : Bool) (sh : BitVec 3) : Statement (.lea h u d a b sgn sh) := by
  intro (hw : (h.wf && d.ok 2 && a.ok 2 true true && b.ok 1 true true && oneImm [a, b]) = true)
  simp only [Bool.and_eq_true] at hw
  obtain ⟨⟨⟨⟨hh, h1⟩, h2⟩, h3⟩, h4⟩ := hw
  refine decode_guarded _ _ decLea hh ?_ ?_
  · exact class_1 _ 77#10 13 rfl (by decide) (by decide)
  unfold decLea
  refine verdict_eq _ _ _ ?_ ?_
  · simp (disch := first | decide | rfl) only [Fields.common, Fields.ofHdr, List.all_append, List.all_cons, List.all_nil, mask_cat, mask_app, badSrc_bits, twoSel_two, twoSel_three, isSel_bits, imm_one, imm_two, imm_three, dst_nw, src_snd2 h4, src_fst2, rnd_code, scope_code, size_code, fmt_code, mulpart_code, cc_code, fcc_code, votemode_code, shflmode_code, laneop_code, atomop_code, ord_code, cachehint_code, get_cat, get_app, ext_cat_lo, ext_cat_hi, ext_app_lo, ext_app_hi, ext_self, Nat.reduceSub, Nat.reduceLT, if_true, if_false, ite_true, ite_false, ofBool_get]
    simp [dst_bad d _ h1, h2, h3, h4]
  · simp (disch := first | decide | rfl) only [Fields.hdr, Fields.ofHdr, src_snd2 h4, src_fst2, get_cat, get_app, ext_cat_lo, ext_cat_hi, ext_app_lo, ext_app_hi, ext_self, Nat.reduceSub, Nat.reduceLT, if_true, if_false, ite_true, ite_false, ofBool_get, rnd_code, scope_code, size_code, fmt_code, mulpart_code, cc_code, fcc_code, votemode_code, shflmode_code, laneop_code, atomop_code, ord_code, cachehint_code, Option.getD_some, Fields.dst, dst_eta]
theorem logic (h : Hdr) (u : Bool) (d : Dst) (a : Src) (b : Src) (c : Src) (lut : BitVec 8) : Statement (.logic h u d a b c lut) := by
  intro (hw : (h.wf && a.ok 1 false true && b.ok 1 false true && c.ok 1 false true && (lutUsesA lut || a == Src.reg 0 false) && (lutUsesB lut || b == Src.reg 0 false) && (lutUsesC lut || c == Src.reg 0 false)) = true)
  simp only [Bool.and_eq_true] at hw
  obtain ⟨⟨⟨⟨⟨⟨hh, h1⟩, h2⟩, h3⟩, h4⟩, h5⟩, h6⟩ := hw
  refine decode_guarded _ _ decLogic hh ?_ ?_
  · exact class_2 _ 128#10 0 rfl (by decide) (by decide)
  unfold decLogic
  refine verdict_eq _ _ _ ?_ ?_
  · simp (disch := first | decide | rfl) only [Fields.common, Fields.ofHdr, List.all_append, List.all_cons, List.all_nil, mask_cat, mask_app, badSrc_bits, twoSel_two, twoSel_three, isSel_bits, imm_one, imm_two, imm_three, dst_nw, src_noSel h1, src_noSel h2, src_noSel h3, rnd_code, scope_code, size_code, fmt_code, mulpart_code, cc_code, fcc_code, votemode_code, shflmode_code, laneop_code, atomop_code, ord_code, cachehint_code, get_cat, get_app, ext_cat_lo, ext_cat_hi, ext_app_lo, ext_app_hi, ext_self, Nat.reduceSub, Nat.reduceLT, if_true, if_false, ite_true, ite_false, ofBool_get]
    simp_all [dst_bad]
  · simp (disch := first | decide | rfl) only [Fields.hdr, Fields.ofHdr, src_noSel h1, src_noSel h2, src_noSel h3, get_cat, get_app, ext_cat_lo, ext_cat_hi, ext_app_lo, ext_app_hi, ext_self, Nat.reduceSub, Nat.reduceLT, if_true, if_false, ite_true, ite_false, ofBool_get, rnd_code, scope_code, size_code, fmt_code, mulpart_code, cc_code, fcc_code, votemode_code, shflmode_code, laneop_code, atomop_code, ord_code, cachehint_code, Option.getD_some, Fields.dst, dst_eta]
theorem shl (h : Hdr) (u : Bool) (d : Dst) (a : Src) (b : Src) (x2 : Bool) : Statement (.shl h u d a b x2) := by
  intro (hw : (h.wf && d.ok (if x2 then 2 else 1) && a.ok (if x2 then 2 else 1) true true && b.ok 1 true true && oneImm [a, b]) = true)
  simp only [Bool.and_eq_true] at hw
  obtain ⟨⟨⟨⟨hh, h1⟩, h2⟩, h3⟩, h4⟩ := hw
  refine decode_guarded _ _ decShl hh ?_ ?_
  · exact class_2 _ 129#10 1 rfl (by decide) (by decide)
  unfold decShl
  refine verdict_eq _ _ _ ?_ ?_
  · simp (disch := first | decide | rfl) only [Fields.common, Fields.ofHdr, List.all_append, List.all_cons, List.all_nil, mask_cat, mask_app, badSrc_bits, twoSel_two, twoSel_three, isSel_bits, imm_one, imm_two, imm_three, dst_nw, src_snd2 h4, src_fst2, rnd_code, scope_code, size_code, fmt_code, mulpart_code, cc_code, fcc_code, votemode_code, shflmode_code, laneop_code, atomop_code, ord_code, cachehint_code, get_cat, get_app, ext_cat_lo, ext_cat_hi, ext_app_lo, ext_app_hi, ext_self, Nat.reduceSub, Nat.reduceLT, if_true, if_false, ite_true, ite_false, ofBool_get]
    simp [dst_bad d _ h1, h2, h3, h4]
  · simp (disch := first | decide | rfl) only [Fields.hdr, Fields.ofHdr, src_snd2 h4, src_fst2, get_cat, get_app, ext_cat_lo, ext_cat_hi, ext_app_lo, ext_app_hi, ext_self, Nat.reduceSub, Nat.reduceLT, if_true, if_false, ite_true, ite_false, ofBool_get, rnd_code, scope_code, size_code, fmt_code, mulpart_code, cc_code, fcc_code, votemode_code, shflmode_code, laneop_code, atomop_code, ord_code, cachehint_code, Option.getD_some, Fields.dst, dst_eta]
theorem shr (h : Hdr) (u : Bool) (d : Dst) (a : Src) (b : Src) (sgn : Bool) (x2 : Bool) : Statement (.shr h u d a b sgn x2) := by
  intro (hw : (h.wf && d.ok (if x2 then 2 else 1) && a.ok (if x2 then 2 else 1) true true && b.ok 1 true true && oneImm [a, b]) = true)
  simp only [Bool.and_eq_true] at hw
  obtain ⟨⟨⟨⟨hh, h1⟩, h2⟩, h3⟩, h4⟩ := hw
  refine decode_guarded _ _ decShr hh ?_ ?_
  · exact class_2 _ 130#10 2 rfl (by decide) (by decide)
  unfold decShr
  refine verdict_eq _ _ _ ?_ ?_
  · simp (disch := first | decide | rfl) only [Fields.common, Fields.ofHdr, List.all_append, List.all_cons, List.all_nil, mask_cat, mask_app, badSrc_bits, twoSel_two, twoSel_three, isSel_bits, imm_one, imm_two, imm_three, dst_nw, src_snd2 h4, src_fst2, rnd_code, scope_code, size_code, fmt_code, mulpart_code, cc_code, fcc_code, votemode_code, shflmode_code, laneop_code, atomop_code, ord_code, cachehint_code, get_cat, get_app, ext_cat_lo, ext_cat_hi, ext_app_lo, ext_app_hi, ext_self, Nat.reduceSub, Nat.reduceLT, if_true, if_false, ite_true, ite_false, ofBool_get]
    simp [dst_bad d _ h1, h2, h3, h4]
  · simp (disch := first | decide | rfl) only [Fields.hdr, Fields.ofHdr, src_snd2 h4, src_fst2, get_cat, get_app, ext_cat_lo, ext_cat_hi, ext_app_lo, ext_app_hi, ext_self, Nat.reduceSub, Nat.reduceLT, if_true, if_false, ite_true, ite_false, ofBool_get, rnd_code, scope_code, size_code, fmt_code, mulpart_code, cc_code, fcc_code, votemode_code, shflmode_code, laneop_code, atomop_code, ord_code, cachehint_code, Option.getD_some, Fields.dst, dst_eta]
theorem rot (h : Hdr) (u : Bool) (d : Dst) (a : Src) (b : Src) : Statement (.rot h u d a b) := by
  intro (hw : (h.wf && a.ok 1 true true && b.ok 1 true true && oneImm [a, b]) = true)
  simp only [Bool.and_eq_true] at hw
  obtain ⟨⟨⟨hh, h1⟩, h2⟩, h3⟩ := hw
  refine decode_guarded _ _ decRot hh ?_ ?_
  · exact class_2 _ 131#10 3 rfl (by decide) (by decide)
  unfold decRot
  refine verdict_eq _ _ _ ?_ ?_
  · simp (disch := first | decide | rfl) only [Fields.common, Fields.ofHdr, List.all_append, List.all_cons, List.all_nil, mask_cat, mask_app, badSrc_bits, twoSel_two, twoSel_three, isSel_bits, imm_one, imm_two, imm_three, dst_nw, src_snd2 h3, src_fst2, rnd_code, scope_code, size_code, fmt_code, mulpart_code, cc_code, fcc_code, votemode_code, shflmode_code, laneop_code, atomop_code, ord_code, cachehint_code, get_cat, get_app, ext_cat_lo, ext_cat_hi, ext_app_lo, ext_app_hi, ext_self, Nat.reduceSub, Nat.reduceLT, if_true, if_false, ite_true, ite_false, ofBool_get]
    simp [h1, h2, h3]
  · simp (disch := first | decide | rfl) only [Fields.hdr, Fields.ofHdr, src_snd2 h3, src_fst2, get_cat, get_app, ext_cat_lo, ext_cat_hi, ext_app_lo, ext_app_hi, ext_self, Nat.reduceSub, Nat.reduceLT, if_true, if_false, ite_true, ite_false, ofBool_get, rnd_code, scope_code, size_code, fmt_code, mulpart_code, cc_code, fcc_code, votemode_code, shflmode_code, laneop_code, atomop_code, ord_code, cachehint_code, Option.getD_some, Fields.dst, dst_eta]
theorem fsh (h : Hdr) (u : Bool) (d : Dst) (a : Src) (b : Src) (c : Src) (left : Bool) : Statement (.fsh h u d a b c left) := by
  intro (hw : (h.wf && a.ok 1 false true && b.ok 1 false true && c.ok 1 false true) = true)
  simp only [Bool.and_eq_true] at hw
  obtain ⟨⟨⟨hh, h1⟩, h2⟩, h3⟩ := hw
  refine decode_guarded _ _ decFsh hh ?_ ?_
  · exact class_2 _ 132#10 4 rfl (by decide) (by decide)
  unfold decFsh
  refine verdict_eq _ _ _ ?_ ?_
  · simp (disch := first | decide | rfl) only [Fields.common, Fields.ofHdr, List.all_append, List.all_cons, List.all_nil, mask_cat, mask_app, badSrc_bits, twoSel_two, twoSel_three, isSel_bits, imm_one, imm_two, imm_three, dst_nw, src_noSel h1, src_noSel h2, src_noSel h3, rnd_code, scope_code, size_code, fmt_code, mulpart_code, cc_code, fcc_code, votemode_code, shflmode_code, laneop_code, atomop_code, ord_code, cachehint_code, get_cat, get_app, ext_cat_lo, ext_cat_hi, ext_app_lo, ext_app_hi, ext_self, Nat.reduceSub, Nat.reduceLT, if_true, if_false, ite_true, ite_false, ofBool_get]
    simp [h1, h2, h3]
  · simp (disch := first | decide | rfl) only [Fields.hdr, Fields.ofHdr, src_noSel h1, src_noSel h2, src_noSel h3, get_cat, get_app, ext_cat_lo, ext_cat_hi, ext_app_lo, ext_app_hi, ext_self, Nat.reduceSub, Nat.reduceLT, if_true, if_false, ite_true, ite_false, ofBool_get, rnd_code, scope_code, size_code, fmt_code, mulpart_code, cc_code, fcc_code, votemode_code, shflmode_code, laneop_code, atomop_code, ord_code, cachehint_code, Option.getD_some, Fields.dst, dst_eta]
theorem popc (h : Hdr) (u : Bool) (d : Dst) (a : Src) (x2 : Bool) : Statement (.popc h u d a x2) := by
  intro (hw : (h.wf && a.ok (if x2 then 2 else 1) true true) = true)
  simp only [Bool.and_eq_true] at hw
  obtain ⟨hh, h1⟩ := hw
  refine decode_guarded _ _ decPopc hh ?_ ?_
  · exact class_2 _ 133#10 5 rfl (by decide) (by decide)
  unfold decPopc
  refine verdict_eq _ _ _ ?_ ?_
  · simp (disch := first | decide | rfl) only [Fields.common, Fields.ofHdr, List.all_append, List.all_cons, List.all_nil, mask_cat, mask_app, badSrc_bits, twoSel_two, twoSel_three, isSel_bits, imm_one, imm_two, imm_three, dst_nw, src_one, rnd_code, scope_code, size_code, fmt_code, mulpart_code, cc_code, fcc_code, votemode_code, shflmode_code, laneop_code, atomop_code, ord_code, cachehint_code, get_cat, get_app, ext_cat_lo, ext_cat_hi, ext_app_lo, ext_app_hi, ext_self, Nat.reduceSub, Nat.reduceLT, if_true, if_false, ite_true, ite_false, ofBool_get]
    simp [h1]
  · simp (disch := first | decide | rfl) only [Fields.hdr, Fields.ofHdr, src_one, get_cat, get_app, ext_cat_lo, ext_cat_hi, ext_app_lo, ext_app_hi, ext_self, Nat.reduceSub, Nat.reduceLT, if_true, if_false, ite_true, ite_false, ofBool_get, rnd_code, scope_code, size_code, fmt_code, mulpart_code, cc_code, fcc_code, votemode_code, shflmode_code, laneop_code, atomop_code, ord_code, cachehint_code, Option.getD_some, Fields.dst, dst_eta]
theorem clz (h : Hdr) (u : Bool) (d : Dst) (a : Src) (x2 : Bool) : Statement (.clz h u d a x2) := by
  intro (hw : (h.wf && a.ok (if x2 then 2 else 1) true true) = true)
  simp only [Bool.and_eq_true] at hw
  obtain ⟨hh, h1⟩ := hw
  refine decode_guarded _ _ decClz hh ?_ ?_
  · exact class_2 _ 134#10 6 rfl (by decide) (by decide)
  unfold decClz
  refine verdict_eq _ _ _ ?_ ?_
  · simp (disch := first | decide | rfl) only [Fields.common, Fields.ofHdr, List.all_append, List.all_cons, List.all_nil, mask_cat, mask_app, badSrc_bits, twoSel_two, twoSel_three, isSel_bits, imm_one, imm_two, imm_three, dst_nw, src_one, rnd_code, scope_code, size_code, fmt_code, mulpart_code, cc_code, fcc_code, votemode_code, shflmode_code, laneop_code, atomop_code, ord_code, cachehint_code, get_cat, get_app, ext_cat_lo, ext_cat_hi, ext_app_lo, ext_app_hi, ext_self, Nat.reduceSub, Nat.reduceLT, if_true, if_false, ite_true, ite_false, ofBool_get]
    simp [h1]
  · simp (disch := first | decide | rfl) only [Fields.hdr, Fields.ofHdr, src_one, get_cat, get_app, ext_cat_lo, ext_cat_hi, ext_app_lo, ext_app_hi, ext_self, Nat.reduceSub, Nat.reduceLT, if_true, if_false, ite_true, ite_false, ofBool_get, rnd_code, scope_code, size_code, fmt_code, mulpart_code, cc_code, fcc_code, votemode_code, shflmode_code, laneop_code, atomop_code, ord_code, cachehint_code, Option.getD_some, Fields.dst, dst_eta]
theorem ctz (h : Hdr) (u : Bool) (d : Dst) (a : Src) (x2 : Bool) : Statement (.ctz h u d a x2) := by
  intro (hw : (h.wf && a.ok (if x2 then 2 else 1) true true) = true)
  simp only [Bool.and_eq_true] at hw
  obtain ⟨hh, h1⟩ := hw
  refine decode_guarded _ _ decCtz hh ?_ ?_
  · exact class_2 _ 135#10 7 rfl (by decide) (by decide)
  unfold decCtz
  refine verdict_eq _ _ _ ?_ ?_
  · simp (disch := first | decide | rfl) only [Fields.common, Fields.ofHdr, List.all_append, List.all_cons, List.all_nil, mask_cat, mask_app, badSrc_bits, twoSel_two, twoSel_three, isSel_bits, imm_one, imm_two, imm_three, dst_nw, src_one, rnd_code, scope_code, size_code, fmt_code, mulpart_code, cc_code, fcc_code, votemode_code, shflmode_code, laneop_code, atomop_code, ord_code, cachehint_code, get_cat, get_app, ext_cat_lo, ext_cat_hi, ext_app_lo, ext_app_hi, ext_self, Nat.reduceSub, Nat.reduceLT, if_true, if_false, ite_true, ite_false, ofBool_get]
    simp [h1]
  · simp (disch := first | decide | rfl) only [Fields.hdr, Fields.ofHdr, src_one, get_cat, get_app, ext_cat_lo, ext_cat_hi, ext_app_lo, ext_app_hi, ext_self, Nat.reduceSub, Nat.reduceLT, if_true, if_false, ite_true, ite_false, ofBool_get, rnd_code, scope_code, size_code, fmt_code, mulpart_code, cc_code, fcc_code, votemode_code, shflmode_code, laneop_code, atomop_code, ord_code, cachehint_code, Option.getD_some, Fields.dst, dst_eta]
theorem brev (h : Hdr) (u : Bool) (d : Dst) (a : Src) (x2 : Bool) : Statement (.brev h u d a x2) := by
  intro (hw : (h.wf && d.ok (if x2 then 2 else 1) && a.ok (if x2 then 2 else 1) true true) = true)
  simp only [Bool.and_eq_true] at hw
  obtain ⟨⟨hh, h1⟩, h2⟩ := hw
  refine decode_guarded _ _ decBrev hh ?_ ?_
  · exact class_2 _ 136#10 8 rfl (by decide) (by decide)
  unfold decBrev
  refine verdict_eq _ _ _ ?_ ?_
  · simp (disch := first | decide | rfl) only [Fields.common, Fields.ofHdr, List.all_append, List.all_cons, List.all_nil, mask_cat, mask_app, badSrc_bits, twoSel_two, twoSel_three, isSel_bits, imm_one, imm_two, imm_three, dst_nw, src_one, rnd_code, scope_code, size_code, fmt_code, mulpart_code, cc_code, fcc_code, votemode_code, shflmode_code, laneop_code, atomop_code, ord_code, cachehint_code, get_cat, get_app, ext_cat_lo, ext_cat_hi, ext_app_lo, ext_app_hi, ext_self, Nat.reduceSub, Nat.reduceLT, if_true, if_false, ite_true, ite_false, ofBool_get]
    simp [dst_bad d _ h1, h2]
  · simp (disch := first | decide | rfl) only [Fields.hdr, Fields.ofHdr, src_one, get_cat, get_app, ext_cat_lo, ext_cat_hi, ext_app_lo, ext_app_hi, ext_self, Nat.reduceSub, Nat.reduceLT, if_true, if_false, ite_true, ite_false, ofBool_get, rnd_code, scope_code, size_code, fmt_code, mulpart_code, cc_code, fcc_code, votemode_code, shflmode_code, laneop_code, atomop_code, ord_code, cachehint_code, Option.getD_some, Fields.dst, dst_eta]
theorem bfx (h : Hdr) (u : Bool) (d : Dst) (a : Src) (b : Src) (sgn : Bool) : Statement (.bfx h u d a b sgn) := by
  intro (hw : (h.wf && a.ok 1 true true && b.ok 1 true true && oneImm [a, b]) = true)
  simp only [Bool.and_eq_true] at hw
  obtain ⟨⟨⟨hh, h1⟩, h2⟩, h3⟩ := hw
  refine decode_guarded _ _ decBfx hh ?_ ?_
  · exact class_2 _ 137#10 9 rfl (by decide) (by decide)
  unfold decBfx
  refine verdict_eq _ _ _ ?_ ?_
  · simp (disch := first | decide | rfl) only [Fields.common, Fields.ofHdr, List.all_append, List.all_cons, List.all_nil, mask_cat, mask_app, badSrc_bits, twoSel_two, twoSel_three, isSel_bits, imm_one, imm_two, imm_three, dst_nw, src_snd2 h3, src_fst2, rnd_code, scope_code, size_code, fmt_code, mulpart_code, cc_code, fcc_code, votemode_code, shflmode_code, laneop_code, atomop_code, ord_code, cachehint_code, get_cat, get_app, ext_cat_lo, ext_cat_hi, ext_app_lo, ext_app_hi, ext_self, Nat.reduceSub, Nat.reduceLT, if_true, if_false, ite_true, ite_false, ofBool_get]
    simp [h1, h2, h3]
  · simp (disch := first | decide | rfl) only [Fields.hdr, Fields.ofHdr, src_snd2 h3, src_fst2, get_cat, get_app, ext_cat_lo, ext_cat_hi, ext_app_lo, ext_app_hi, ext_self, Nat.reduceSub, Nat.reduceLT, if_true, if_false, ite_true, ite_false, ofBool_get, rnd_code, scope_code, size_code, fmt_code, mulpart_code, cc_code, fcc_code, votemode_code, shflmode_code, laneop_code, atomop_code, ord_code, cachehint_code, Option.getD_some, Fields.dst, dst_eta]
theorem bfi (h : Hdr) (u : Bool) (d : Dst) (a : Src) (b : Src) (c : Src) : Statement (.bfi h u d a b c) := by
  intro (hw : (h.wf && a.ok 1 true true && b.ok 1 true true && c.ok 1 true true && oneImm [a, b, c]) = true)
  simp only [Bool.and_eq_true] at hw
  obtain ⟨⟨⟨⟨hh, h1⟩, h2⟩, h3⟩, h4⟩ := hw
  refine decode_guarded _ _ decBfi hh ?_ ?_
  · exact class_2 _ 138#10 10 rfl (by decide) (by decide)
  unfold decBfi
  refine verdict_eq _ _ _ ?_ ?_
  · simp (disch := first | decide | rfl) only [Fields.common, Fields.ofHdr, List.all_append, List.all_cons, List.all_nil, mask_cat, mask_app, badSrc_bits, twoSel_two, twoSel_three, isSel_bits, imm_one, imm_two, imm_three, dst_nw, src_snd3 h4, src_thd3 h4, src_fst3, rnd_code, scope_code, size_code, fmt_code, mulpart_code, cc_code, fcc_code, votemode_code, shflmode_code, laneop_code, atomop_code, ord_code, cachehint_code, get_cat, get_app, ext_cat_lo, ext_cat_hi, ext_app_lo, ext_app_hi, ext_self, Nat.reduceSub, Nat.reduceLT, if_true, if_false, ite_true, ite_false, ofBool_get]
    simp [h1, h2, h3, h4]
  · simp (disch := first | decide | rfl) only [Fields.hdr, Fields.ofHdr, src_snd3 h4, src_thd3 h4, src_fst3, get_cat, get_app, ext_cat_lo, ext_cat_hi, ext_app_lo, ext_app_hi, ext_self, Nat.reduceSub, Nat.reduceLT, if_true, if_false, ite_true, ite_false, ofBool_get, rnd_code, scope_code, size_code, fmt_code, mulpart_code, cc_code, fcc_code, votemode_code, shflmode_code, laneop_code, atomop_code, ord_code, cachehint_code, Option.getD_some, Fields.dst, dst_eta]
theorem prmt (h : Hdr) (u : Bool) (d : Dst) (a : Src) (b : Src) (c : Src) : Statement (.prmt h u d a b c) := by
  intro (hw : (h.wf && a.ok 1 true true && b.ok 1 true true && c.ok 1 true true && oneImm [a, b, c]) = true)
  simp only [Bool.and_eq_true] at hw
  obtain ⟨⟨⟨⟨hh, h1⟩, h2⟩, h3⟩, h4⟩ := hw
  refine decode_guarded _ _ decPrmt hh ?_ ?_
  · exact class_2 _ 139#10 11 rfl (by decide) (by decide)
  unfold decPrmt
  refine verdict_eq _ _ _ ?_ ?_
  · simp (disch := first | decide | rfl) only [Fields.common, Fields.ofHdr, List.all_append, List.all_cons, List.all_nil, mask_cat, mask_app, badSrc_bits, twoSel_two, twoSel_three, isSel_bits, imm_one, imm_two, imm_three, dst_nw, src_snd3 h4, src_thd3 h4, src_fst3, rnd_code, scope_code, size_code, fmt_code, mulpart_code, cc_code, fcc_code, votemode_code, shflmode_code, laneop_code, atomop_code, ord_code, cachehint_code, get_cat, get_app, ext_cat_lo, ext_cat_hi, ext_app_lo, ext_app_hi, ext_self, Nat.reduceSub, Nat.reduceLT, if_true, if_false, ite_true, ite_false, ofBool_get]
    simp [h1, h2, h3, h4]
  · simp (disch := first | decide | rfl) only [Fields.hdr, Fields.ofHdr, src_snd3 h4, src_thd3 h4, src_fst3, get_cat, get_app, ext_cat_lo, ext_cat_hi, ext_app_lo, ext_app_hi, ext_self, Nat.reduceSub, Nat.reduceLT, if_true, if_false, ite_true, ite_false, ofBool_get, rnd_code, scope_code, size_code, fmt_code, mulpart_code, cc_code, fcc_code, votemode_code, shflmode_code, laneop_code, atomop_code, ord_code, cachehint_code, Option.getD_some, Fields.dst, dst_eta]
theorem sel (h : Hdr) (u : Bool) (d : Dst) (a : Src) (b : Src) (p : BitVec 3) (pneg : Bool) : Statement (.sel h u d a b p pneg) := by
  intro (hw : (h.wf && a.ok 1 true true && b.ok 1 true true && oneImm [a, b]) = true)
  simp only [Bool.and_eq_true] at hw
  obtain ⟨⟨⟨hh, h1⟩, h2⟩, h3⟩ := hw
  refine decode_guarded _ _ decSel hh ?_ ?_
  · exact class_2 _ 140#10 12 rfl (by decide) (by decide)
  unfold decSel
  refine verdict_eq _ _ _ ?_ ?_
  · simp (disch := first | decide | rfl) only [Fields.common, Fields.ofHdr, List.all_append, List.all_cons, List.all_nil, mask_cat, mask_app, badSrc_bits, twoSel_two, twoSel_three, isSel_bits, imm_one, imm_two, imm_three, dst_nw, src_snd2 h3, src_fst2, rnd_code, scope_code, size_code, fmt_code, mulpart_code, cc_code, fcc_code, votemode_code, shflmode_code, laneop_code, atomop_code, ord_code, cachehint_code, get_cat, get_app, ext_cat_lo, ext_cat_hi, ext_app_lo, ext_app_hi, ext_self, Nat.reduceSub, Nat.reduceLT, if_true, if_false, ite_true, ite_false, ofBool_get]
    simp [h1, h2, h3]
  · simp (disch := first | decide | rfl) only [Fields.hdr, Fields.ofHdr, src_snd2 h3, src_fst2, get_cat, get_app, ext_cat_lo, ext_cat_hi, ext_app_lo, ext_app_hi, ext_self, Nat.reduceSub, Nat.reduceLT, if_true, if_false, ite_true, ite_false, ofBool_get, rnd_code, scope_code, size_code, fmt_code, mulpart_code, cc_code, fcc_code, votemode_code, shflmode_code, laneop_code, atomop_code, ord_code, cachehint_code, Option.getD_some, Fields.dst, dst_eta]
theorem mov (h : Hdr) (u : Bool) (d : Dst) (a : Src) (x2 : Bool) : Statement (.mov h u d a x2) := by
  intro (hw : (h.wf && d.ok (if x2 then 2 else 1) && a.ok (if x2 then 2 else 1) true true) = true)
  simp only [Bool.and_eq_true] at hw
  obtain ⟨⟨hh, h1⟩, h2⟩ := hw
  refine decode_guarded _ _ decMov hh ?_ ?_
  · exact class_3 _ 192#10 0 rfl (by decide) (by decide)
  unfold decMov
  refine verdict_eq _ _ _ ?_ ?_
  · simp (disch := first | decide | rfl) only [Fields.common, Fields.ofHdr, List.all_append, List.all_cons, List.all_nil, mask_cat, mask_app, badSrc_bits, twoSel_two, twoSel_three, isSel_bits, imm_one, imm_two, imm_three, dst_nw, src_one, rnd_code, scope_code, size_code, fmt_code, mulpart_code, cc_code, fcc_code, votemode_code, shflmode_code, laneop_code, atomop_code, ord_code, cachehint_code, get_cat, get_app, ext_cat_lo, ext_cat_hi, ext_app_lo, ext_app_hi, ext_self, Nat.reduceSub, Nat.reduceLT, if_true, if_false, ite_true, ite_false, ofBool_get]
    simp [dst_bad d _ h1, h2]
  · simp (disch := first | decide | rfl) only [Fields.hdr, Fields.ofHdr, src_one, get_cat, get_app, ext_cat_lo, ext_cat_hi, ext_app_lo, ext_app_hi, ext_self, Nat.reduceSub, Nat.reduceLT, if_true, if_false, ite_true, ite_false, ofBool_get, rnd_code, scope_code, size_code, fmt_code, mulpart_code, cc_code, fcc_code, votemode_code, shflmode_code, laneop_code, atomop_code, ord_code, cachehint_code, Option.getD_some, Fields.dst, dst_eta]
theorem movi (h : Hdr) (u : Bool) (d : Dst) (sgn : Bool) (x2 : Bool) (imm : BitVec 32) : Statement (.movi h u d sgn x2 imm) := by
  intro (hw : (h.wf && d.ok (if x2 then 2 else 1)) = true)
  simp only [Bool.and_eq_true] at hw
  obtain ⟨hh, h1⟩ := hw
  refine decode_guarded _ _ decMovi hh ?_ ?_
  · exact class_3 _ 193#10 1 rfl (by decide) (by decide)
  unfold decMovi
  refine verdict_eq _ _ _ ?_ ?_
  · simp (disch := first | decide | rfl) only [Fields.common, Fields.ofHdr, List.all_append, List.all_cons, List.all_nil, mask_cat, mask_app, badSrc_bits, twoSel_two, twoSel_three, isSel_bits, imm_one, imm_two, imm_three, dst_nw, rnd_code, scope_code, size_code, fmt_code, mulpart_code, cc_code, fcc_code, votemode_code, shflmode_code, laneop_code, atomop_code, ord_code, cachehint_code, get_cat, get_app, ext_cat_lo, ext_cat_hi, ext_app_lo, ext_app_hi, ext_self, Nat.reduceSub, Nat.reduceLT, if_true, if_false, ite_true, ite_false, ofBool_get]
    simp [dst_bad d _ h1]
  · simp (disch := first | decide | rfl) only [Fields.hdr, Fields.ofHdr, get_cat, get_app, ext_cat_lo, ext_cat_hi, ext_app_lo, ext_app_hi, ext_self, Nat.reduceSub, Nat.reduceLT, if_true, if_false, ite_true, ite_false, ofBool_get, rnd_code, scope_code, size_code, fmt_code, mulpart_code, cc_code, fcc_code, votemode_code, shflmode_code, laneop_code, atomop_code, ord_code, cachehint_code, Option.getD_some, Fields.dst, dst_eta]
theorem movs (h : Hdr) (u : Bool) (d : Dst) (sr : BitVec 8) : Statement (.movs h u d sr) := by
  intro (hw : (h.wf && (sregReadable sr)) = true)
  simp only [Bool.and_eq_true] at hw
  obtain ⟨hh, h1⟩ := hw
  refine decode_guarded _ _ decMovs hh ?_ ?_
  · exact class_3 _ 194#10 2 rfl (by decide) (by decide)
  unfold decMovs
  refine verdict_eq _ _ _ ?_ ?_
  · simp (disch := first | decide | rfl) only [Fields.common, Fields.ofHdr, List.all_append, List.all_cons, List.all_nil, mask_cat, mask_app, badSrc_bits, twoSel_two, twoSel_three, isSel_bits, imm_one, imm_two, imm_three, dst_nw, rnd_code, scope_code, size_code, fmt_code, mulpart_code, cc_code, fcc_code, votemode_code, shflmode_code, laneop_code, atomop_code, ord_code, cachehint_code, get_cat, get_app, ext_cat_lo, ext_cat_hi, ext_app_lo, ext_app_hi, ext_self, Nat.reduceSub, Nat.reduceLT, if_true, if_false, ite_true, ite_false, ofBool_get]
    simp [h1]
  · simp (disch := first | decide | rfl) only [Fields.hdr, Fields.ofHdr, get_cat, get_app, ext_cat_lo, ext_cat_hi, ext_app_lo, ext_app_hi, ext_self, Nat.reduceSub, Nat.reduceLT, if_true, if_false, ite_true, ite_false, ofBool_get, rnd_code, scope_code, size_code, fmt_code, mulpart_code, cc_code, fcc_code, votemode_code, shflmode_code, laneop_code, atomop_code, ord_code, cachehint_code, Option.getD_some, Fields.dst, dst_eta]
theorem pset (h : Hdr) (u : Bool) (pd : BitVec 3) (pa : BitVec 3) (pb : BitVec 3) (pc : BitVec 3) (lut : BitVec 8) : Statement (.pset h u pd pa pb pc lut) := by
  intro (hw : (h.wf) = true)
  have hh := hw
  refine decode_guarded _ _ decPset hh ?_ ?_
  · exact class_3 _ 195#10 3 rfl (by decide) (by decide)
  unfold decPset
  refine verdict_eq _ _ _ ?_ ?_
  · simp (disch := first | decide | rfl) only [Fields.common, Fields.ofHdr, List.all_append, List.all_cons, List.all_nil, mask_cat, mask_app, badSrc_bits, twoSel_two, twoSel_three, isSel_bits, imm_one, imm_two, imm_three, dst_nw, rnd_code, scope_code, size_code, fmt_code, mulpart_code, cc_code, fcc_code, votemode_code, shflmode_code, laneop_code, atomop_code, ord_code, cachehint_code, get_cat, get_app, ext_cat_lo, ext_cat_hi, ext_app_lo, ext_app_hi, ext_self, Nat.reduceSub, Nat.reduceLT, if_true, if_false, ite_true, ite_false, ofBool_get]
    simp
  · simp (disch := first | decide | rfl) only [Fields.hdr, Fields.ofHdr, get_cat, get_app, ext_cat_lo, ext_cat_hi, ext_app_lo, ext_app_hi, ext_self, Nat.reduceSub, Nat.reduceLT, if_true, if_false, ite_true, ite_false, ofBool_get, rnd_code, scope_code, size_code, fmt_code, mulpart_code, cc_code, fcc_code, votemode_code, shflmode_code, laneop_code, atomop_code, ord_code, cachehint_code, Option.getD_some, Fields.dst, dst_eta]
theorem pmov (h : Hdr) (u : Bool) (d : Dst) : Statement (.pmov h u d) := by
  intro (hw : (h.wf) = true)
  have hh := hw
  refine decode_guarded _ _ decPmov hh ?_ ?_
  · refine (class_3 _ 196#10 4 rfl (by decide) (by decide)).trans ?_
    simp (disch := decide) only [decClass3, Fields.ofHdr, BitVec.reduceExtractLsb', BitVec.toNat_ofNat, BitVec.reduceToNat, get_cat, get_app, ext_cat_lo, ext_cat_hi, ext_app_lo, ext_app_hi, ext_self, Nat.reduceSub, Nat.reduceLT, if_true, if_false, ite_true, ite_false, ofBool_get]
  unfold decPmov
  refine verdict_eq _ _ _ ?_ ?_
  · simp (disch := first | decide | rfl) only [Fields.common, Fields.ofHdr, List.all_append, List.all_cons, List.all_nil, mask_cat, mask_app, badSrc_bits, twoSel_two, twoSel_three, isSel_bits, imm_one, imm_two, imm_three, dst_nw, rnd_code, scope_code, size_code, fmt_code, mulpart_code, cc_code, fcc_code, votemode_code, shflmode_code, laneop_code, atomop_code, ord_code, cachehint_code, get_cat, get_app, ext_cat_lo, ext_cat_hi, ext_app_lo, ext_app_hi, ext_self, Nat.reduceSub, Nat.reduceLT, if_true, if_false, ite_true, ite_false, ofBool_get]
    simp
  · simp (disch := first | decide | rfl) only [Fields.hdr, Fields.ofHdr, get_cat, get_app, ext_cat_lo, ext_cat_hi, ext_app_lo, ext_app_hi, ext_self, Nat.reduceSub, Nat.reduceLT, if_true, if_false, ite_true, ite_false, ofBool_get, rnd_code, scope_code, size_code, fmt_code, mulpart_code, cc_code, fcc_code, votemode_code, shflmode_code, laneop_code, atomop_code, ord_code, cachehint_code, Option.getD_some, Fields.dst, dst_eta]
theorem pmovIn (h : Hdr) (u : Bool) (a : Src) (mask : BitVec 7) : Statement (.pmovIn h u a mask) := by
  intro (hw : (h.wf && a.ok 1 false true) = true)
  simp only [Bool.and_eq_true] at hw
  obtain ⟨hh, h1⟩ := hw
  refine decode_guarded _ _ decPmovIn hh ?_ ?_
  · refine (class_3 _ 196#10 4 rfl (by decide) (by decide)).trans ?_
    simp (disch := decide) only [decClass3, Fields.ofHdr, BitVec.reduceExtractLsb', BitVec.toNat_ofNat, BitVec.reduceToNat, get_cat, get_app, ext_cat_lo, ext_cat_hi, ext_app_lo, ext_app_hi, ext_self, Nat.reduceSub, Nat.reduceLT, if_true, if_false, ite_true, ite_false, ofBool_get]
  unfold decPmovIn
  refine verdict_eq _ _ _ ?_ ?_
  · simp (disch := first | decide | rfl) only [Fields.common, Fields.ofHdr, List.all_append, List.all_cons, List.all_nil, mask_cat, mask_app, badSrc_bits, twoSel_two, twoSel_three, isSel_bits, imm_one, imm_two, imm_three, dst_nw, src_noSel h1, rnd_code, scope_code, size_code, fmt_code, mulpart_code, cc_code, fcc_code, votemode_code, shflmode_code, laneop_code, atomop_code, ord_code, cachehint_code, get_cat, get_app, ext_cat_lo, ext_cat_hi, ext_app_lo, ext_app_hi, ext_self, Nat.reduceSub, Nat.reduceLT, if_true, if_false, ite_true, ite_false, ofBool_get]
    simp [h1]
  · simp (disch := first | decide | rfl) only [Fields.hdr, Fields.ofHdr, src_noSel h1, get_cat, get_app, ext_cat_lo, ext_cat_hi, ext_app_lo, ext_app_hi, ext_self, Nat.reduceSub, Nat.reduceLT, if_true, if_false, ite_true, ite_false, ofBool_get, rnd_code, scope_code, size_code, fmt_code, mulpart_code, cc_code, fcc_code, votemode_code, shflmode_code, laneop_code, atomop_code, ord_code, cachehint_code, Option.getD_some, Fields.dst, dst_eta]
theorem ballot (h : Hdr) (d : Dst) (p : BitVec 3) (pneg : Bool) (cnt : Bool) (conv : Bool) : Statement (.ballot h d p pneg cnt conv) := by
  intro (hw : (h.wf) = true)
  have hh := hw
  refine decode_guarded _ _ decBallot hh ?_ ?_
  · exact class_3 _ 197#10 5 rfl (by decide) (by decide)
  unfold decBallot
  refine verdict_eq _ _ _ ?_ ?_
  · simp (disch := first | decide | rfl) only [Fields.common, Fields.ofHdr, List.all_append, List.all_cons, List.all_nil, mask_cat, mask_app, badSrc_bits, twoSel_two, twoSel_three, isSel_bits, imm_one, imm_two, imm_three, dst_nw, rnd_code, scope_code, size_code, fmt_code, mulpart_code, cc_code, fcc_code, votemode_code, shflmode_code, laneop_code, atomop_code, ord_code, cachehint_code, get_cat, get_app, ext_cat_lo, ext_cat_hi, ext_app_lo, ext_app_hi, ext_self, Nat.reduceSub, Nat.reduceLT, if_true, if_false, ite_true, ite_false, ofBool_get]
    simp
  · simp (disch := first | decide | rfl) only [Fields.hdr, Fields.ofHdr, get_cat, get_app, ext_cat_lo, ext_cat_hi, ext_app_lo, ext_app_hi, ext_self, Nat.reduceSub, Nat.reduceLT, if_true, if_false, ite_true, ite_false, ofBool_get, rnd_code, scope_code, size_code, fmt_code, mulpart_code, cc_code, fcc_code, votemode_code, shflmode_code, laneop_code, atomop_code, ord_code, cachehint_code, Option.getD_some, Fields.dst, dst_eta]
theorem vote (h : Hdr) (pd : BitVec 3) (p : BitVec 3) (pneg : Bool) (mode : VoteMode) (conv : Bool) : Statement (.vote h pd p pneg mode conv) := by
  intro (hw : (h.wf) = true)
  have hh := hw
  refine decode_guarded _ _ decVote hh ?_ ?_
  · exact class_3 _ 198#10 6 rfl (by decide) (by decide)
  unfold decVote
  refine verdict_eq _ _ _ ?_ ?_
  · simp (disch := first | decide | rfl) only [Fields.common, Fields.ofHdr, List.all_append, List.all_cons, List.all_nil, mask_cat, mask_app, badSrc_bits, twoSel_two, twoSel_three, isSel_bits, imm_one, imm_two, imm_three, dst_nw, rnd_code, scope_code, size_code, fmt_code, mulpart_code, cc_code, fcc_code, votemode_code, shflmode_code, laneop_code, atomop_code, ord_code, cachehint_code, get_cat, get_app, ext_cat_lo, ext_cat_hi, ext_app_lo, ext_app_hi, ext_self, Nat.reduceSub, Nat.reduceLT, if_true, if_false, ite_true, ite_false, ofBool_get]
    simp
  · simp (disch := first | decide | rfl) only [Fields.hdr, Fields.ofHdr, get_cat, get_app, ext_cat_lo, ext_cat_hi, ext_app_lo, ext_app_hi, ext_self, Nat.reduceSub, Nat.reduceLT, if_true, if_false, ite_true, ite_false, ofBool_get, rnd_code, scope_code, size_code, fmt_code, mulpart_code, cc_code, fcc_code, votemode_code, shflmode_code, laneop_code, atomop_code, ord_code, cachehint_code, Option.getD_some, Fields.dst, dst_eta]
theorem shfl (h : Hdr) (d : Dst) (a : Src) (b : Src) (mode : ShflMode) (seg : BitVec 3) (zf : Bool) (conv : Bool) : Statement (.shfl h d a b mode seg zf conv) := by
  intro (hw : (h.wf && a.ok 1 true true && b.ok 1 true true && oneImm [a, b] && (seg.toNat ≤ 5) && (!zf || mode == ShflMode.sh) && (mode != ShflMode.rev || b == Src.reg 0 false)) = true)
  simp only [Bool.and_eq_true] at hw
  obtain ⟨⟨⟨⟨⟨⟨hh, h1⟩, h2⟩, h3⟩, h4⟩, h5⟩, h6⟩ := hw
  refine decode_guarded _ _ decShfl hh ?_ ?_
  · exact class_3 _ 199#10 7 rfl (by decide) (by decide)
  unfold decShfl
  refine verdict_eq _ _ _ ?_ ?_
  · simp (disch := first | decide | rfl) only [Fields.common, Fields.ofHdr, List.all_append, List.all_cons, List.all_nil, mask_cat, mask_app, badSrc_bits, twoSel_two, twoSel_three, isSel_bits, imm_one, imm_two, imm_three, dst_nw, src_snd2 h3, src_fst2, rnd_code, scope_code, size_code, fmt_code, mulpart_code, cc_code, fcc_code, votemode_code, shflmode_code, laneop_code, atomop_code, ord_code, cachehint_code, get_cat, get_app, ext_cat_lo, ext_cat_hi, ext_app_lo, ext_app_hi, ext_self, Nat.reduceSub, Nat.reduceLT, if_true, if_false, ite_true, ite_false, ofBool_get]
    simp_all [dst_bad]
  · simp (disch := first | decide | rfl) only [Fields.hdr, Fields.ofHdr, src_snd2 h3, src_fst2, get_cat, get_app, ext_cat_lo, ext_cat_hi, ext_app_lo, ext_app_hi, ext_self, Nat.reduceSub, Nat.reduceLT, if_true, if_false, ite_true, ite_false, ofBool_get, rnd_code, scope_code, size_code, fmt_code, mulpart_code, cc_code, fcc_code, votemode_code, shflmode_code, laneop_code, atomop_code, ord_code, cachehint_code, Option.getD_some, Fields.dst, dst_eta]
theorem matchx (h : Hdr) (d : Dst) (a : Src) (x2 : Bool) (low : Bool) (conv : Bool) : Statement (.matchx h d a x2 low conv) := by
  intro (hw : (h.wf && a.ok (if x2 then 2 else 1) true true) = true)
  simp only [Bool.and_eq_true] at hw
  obtain ⟨hh, h1⟩ := hw
  refine decode_guarded _ _ decMatchx hh ?_ ?_
  · exact class_3 _ 200#10 8 rfl (by decide) (by decide)
  unfold decMatchx
  refine verdict_eq _ _ _ ?_ ?_
  · simp (disch := first | decide | rfl) only [Fields.common, Fields.ofHdr, List.all_append, List.all_cons, List.all_nil, mask_cat, mask_app, badSrc_bits, twoSel_two, twoSel_three, isSel_bits, imm_one, imm_two, imm_three, dst_nw, src_one, rnd_code, scope_code, size_code, fmt_code, mulpart_code, cc_code, fcc_code, votemode_code, shflmode_code, laneop_code, atomop_code, ord_code, cachehint_code, get_cat, get_app, ext_cat_lo, ext_cat_hi, ext_app_lo, ext_app_hi, ext_self, Nat.reduceSub, Nat.reduceLT, if_true, if_false, ite_true, ite_false, ofBool_get]
    simp [h1]
  · simp (disch := first | decide | rfl) only [Fields.hdr, Fields.ofHdr, src_one, get_cat, get_app, ext_cat_lo, ext_cat_hi, ext_app_lo, ext_app_hi, ext_self, Nat.reduceSub, Nat.reduceLT, if_true, if_false, ite_true, ite_false, ofBool_get, rnd_code, scope_code, size_code, fmt_code, mulpart_code, cc_code, fcc_code, votemode_code, shflmode_code, laneop_code, atomop_code, ord_code, cachehint_code, Option.getD_some, Fields.dst, dst_eta]
theorem lredi (h : Hdr) (d : Dst) (a : Src) (sgn : Bool) (q : Bool) (op : LaneOp) (conv : Bool) : Statement (.lredi h d a sgn q op conv) := by
  intro (hw : (h.wf && a.ok 1 true true) = true)
  simp only [Bool.and_eq_true] at hw
  obtain ⟨hh, h1⟩ := hw
  refine decode_guarded _ _ decLredi hh ?_ ?_
  · exact class_3 _ 201#10 9 rfl (by decide) (by decide)
  unfold decLredi
  refine verdict_eq _ _ _ ?_ ?_
  · simp (disch := first | decide | rfl) only [Fields.common, Fields.ofHdr, List.all_append, List.all_cons, List.all_nil, mask_cat, mask_app, badSrc_bits, twoSel_two, twoSel_three, isSel_bits, imm_one, imm_two, imm_three, dst_nw, src_one, rnd_code, scope_code, size_code, fmt_code, mulpart_code, cc_code, fcc_code, votemode_code, shflmode_code, laneop_code, atomop_code, ord_code, cachehint_code, get_cat, get_app, ext_cat_lo, ext_cat_hi, ext_app_lo, ext_app_hi, ext_self, Nat.reduceSub, Nat.reduceLT, if_true, if_false, ite_true, ite_false, ofBool_get]
    simp [h1]
  · simp (disch := first | decide | rfl) only [Fields.hdr, Fields.ofHdr, src_one, get_cat, get_app, ext_cat_lo, ext_cat_hi, ext_app_lo, ext_app_hi, ext_self, Nat.reduceSub, Nat.reduceLT, if_true, if_false, ite_true, ite_false, ofBool_get, rnd_code, scope_code, size_code, fmt_code, mulpart_code, cc_code, fcc_code, votemode_code, shflmode_code, laneop_code, atomop_code, ord_code, cachehint_code, Option.getD_some, Fields.dst, dst_eta]
theorem lscan (h : Hdr) (d : Dst) (a : Src) (sgn : Bool) (q : Bool) (excl : Bool) (op : LaneOp) (conv : Bool) : Statement (.lscan h d a sgn q excl op conv) := by
  intro (hw : (h.wf && a.ok 1 true true) = true)
  simp only [Bool.and_eq_true] at hw
  obtain ⟨hh, h1⟩ := hw
  refine decode_guarded _ _ decLscan hh ?_ ?_
  · exact class_3 _ 202#10 10 rfl (by decide) (by decide)
  unfold decLscan
  refine verdict_eq _ _ _ ?_ ?_
  · simp (disch := first | decide | rfl) only [Fields.common, Fields.ofHdr, List.all_append, List.all_cons, List.all_nil, mask_cat, mask_app, badSrc_bits, twoSel_two, twoSel_three, isSel_bits, imm_one, imm_two, imm_three, dst_nw, src_one, rnd_code, scope_code, size_code, fmt_code, mulpart_code, cc_code, fcc_code, votemode_code, shflmode_code, laneop_code, atomop_code, ord_code, cachehint_code, get_cat, get_app, ext_cat_lo, ext_cat_hi, ext_app_lo, ext_app_hi, ext_self, Nat.reduceSub, Nat.reduceLT, if_true, if_false, ite_true, ite_false, ofBool_get]
    simp [h1]
  · simp (disch := first | decide | rfl) only [Fields.hdr, Fields.ofHdr, src_one, get_cat, get_app, ext_cat_lo, ext_cat_hi, ext_app_lo, ext_app_hi, ext_self, Nat.reduceSub, Nat.reduceLT, if_true, if_false, ite_true, ite_false, ofBool_get, rnd_code, scope_code, size_code, fmt_code, mulpart_code, cc_code, fcc_code, votemode_code, shflmode_code, laneop_code, atomop_code, ord_code, cachehint_code, Option.getD_some, Fields.dst, dst_eta]
theorem elect (h : Hdr) (pd : BitVec 3) (high : Bool) (conv : Bool) : Statement (.elect h pd high conv) := by
  intro (hw : (h.wf) = true)
  have hh := hw
  refine decode_guarded _ _ decElect hh ?_ ?_
  · exact class_3 _ 203#10 11 rfl (by decide) (by decide)
  unfold decElect
  refine verdict_eq _ _ _ ?_ ?_
  · simp (disch := first | decide | rfl) only [Fields.common, Fields.ofHdr, List.all_append, List.all_cons, List.all_nil, mask_cat, mask_app, badSrc_bits, twoSel_two, twoSel_three, isSel_bits, imm_one, imm_two, imm_three, dst_nw, rnd_code, scope_code, size_code, fmt_code, mulpart_code, cc_code, fcc_code, votemode_code, shflmode_code, laneop_code, atomop_code, ord_code, cachehint_code, get_cat, get_app, ext_cat_lo, ext_cat_hi, ext_app_lo, ext_app_hi, ext_self, Nat.reduceSub, Nat.reduceLT, if_true, if_false, ite_true, ite_false, ofBool_get]
    simp
  · simp (disch := first | decide | rfl) only [Fields.hdr, Fields.ofHdr, get_cat, get_app, ext_cat_lo, ext_cat_hi, ext_app_lo, ext_app_hi, ext_self, Nat.reduceSub, Nat.reduceLT, if_true, if_false, ite_true, ite_false, ofBool_get, rnd_code, scope_code, size_code, fmt_code, mulpart_code, cc_code, fcc_code, votemode_code, shflmode_code, laneop_code, atomop_code, ord_code, cachehint_code, Option.getD_some, Fields.dst, dst_eta]
theorem fadd (h : Hdr) (u : Bool) (d : Dst) (a : Src) (b : Src) (rnd : Rnd) (sat : Bool) : Statement (.fadd h u d a b rnd sat) := by
  intro (hw : (h.wf && a.ok 1 true true && b.ok 1 true true && oneImm [a, b]) = true)
  simp only [Bool.and_eq_true] at hw
  obtain ⟨⟨⟨hh, h1⟩, h2⟩, h3⟩ := hw
  refine decode_guarded _ _ decFadd hh ?_ ?_
  · exact class_4 _ 256#10 0 rfl (by decide) (by decide)
  unfold decFadd
  refine verdict_eq _ _ _ ?_ ?_
  · simp (disch := first | decide | rfl) only [Fields.common, Fields.ofHdr, List.all_append, List.all_cons, List.all_nil, mask_cat, mask_app, badSrc_bits, twoSel_two, twoSel_three, isSel_bits, imm_one, imm_two, imm_three, dst_nw, src_snd2 h3, src_fst2, rnd_code, scope_code, size_code, fmt_code, mulpart_code, cc_code, fcc_code, votemode_code, shflmode_code, laneop_code, atomop_code, ord_code, cachehint_code, get_cat, get_app, ext_cat_lo, ext_cat_hi, ext_app_lo, ext_app_hi, ext_self, Nat.reduceSub, Nat.reduceLT, if_true, if_false, ite_true, ite_false, ofBool_get]
    simp [h1, h2, h3]
  · simp (disch := first | decide | rfl) only [Fields.hdr, Fields.ofHdr, src_snd2 h3, src_fst2, get_cat, get_app, ext_cat_lo, ext_cat_hi, ext_app_lo, ext_app_hi, ext_self, Nat.reduceSub, Nat.reduceLT, if_true, if_false, ite_true, ite_false, ofBool_get, rnd_code, scope_code, size_code, fmt_code, mulpart_code, cc_code, fcc_code, votemode_code, shflmode_code, laneop_code, atomop_code, ord_code, cachehint_code, Option.getD_some, Fields.dst, dst_eta]
theorem fsub (h : Hdr) (u : Bool) (d : Dst) (a : Src) (b : Src) (rnd : Rnd) (sat : Bool) : Statement (.fsub h u d a b rnd sat) := by
  intro (hw : (h.wf && a.ok 1 true true && b.ok 1 true true && oneImm [a, b]) = true)
  simp only [Bool.and_eq_true] at hw
  obtain ⟨⟨⟨hh, h1⟩, h2⟩, h3⟩ := hw
  refine decode_guarded _ _ decFsub hh ?_ ?_
  · exact class_4 _ 257#10 1 rfl (by decide) (by decide)
  unfold decFsub
  refine verdict_eq _ _ _ ?_ ?_
  · simp (disch := first | decide | rfl) only [Fields.common, Fields.ofHdr, List.all_append, List.all_cons, List.all_nil, mask_cat, mask_app, badSrc_bits, twoSel_two, twoSel_three, isSel_bits, imm_one, imm_two, imm_three, dst_nw, src_snd2 h3, src_fst2, rnd_code, scope_code, size_code, fmt_code, mulpart_code, cc_code, fcc_code, votemode_code, shflmode_code, laneop_code, atomop_code, ord_code, cachehint_code, get_cat, get_app, ext_cat_lo, ext_cat_hi, ext_app_lo, ext_app_hi, ext_self, Nat.reduceSub, Nat.reduceLT, if_true, if_false, ite_true, ite_false, ofBool_get]
    simp [h1, h2, h3]
  · simp (disch := first | decide | rfl) only [Fields.hdr, Fields.ofHdr, src_snd2 h3, src_fst2, get_cat, get_app, ext_cat_lo, ext_cat_hi, ext_app_lo, ext_app_hi, ext_self, Nat.reduceSub, Nat.reduceLT, if_true, if_false, ite_true, ite_false, ofBool_get, rnd_code, scope_code, size_code, fmt_code, mulpart_code, cc_code, fcc_code, votemode_code, shflmode_code, laneop_code, atomop_code, ord_code, cachehint_code, Option.getD_some, Fields.dst, dst_eta]
theorem fmul (h : Hdr) (u : Bool) (d : Dst) (a : Src) (b : Src) (rnd : Rnd) (sat : Bool) : Statement (.fmul h u d a b rnd sat) := by
  intro (hw : (h.wf && a.ok 1 true true && b.ok 1 true true && oneImm [a, b]) = true)
  simp only [Bool.and_eq_true] at hw
  obtain ⟨⟨⟨hh, h1⟩, h2⟩, h3⟩ := hw
  refine decode_guarded _ _ decFmul hh ?_ ?_
  · exact class_4 _ 258#10 2 rfl (by decide) (by decide)
  unfold decFmul
  refine verdict_eq _ _ _ ?_ ?_
  · simp (disch := first | decide | rfl) only [Fields.common, Fields.ofHdr, List.all_append, List.all_cons, List.all_nil, mask_cat, mask_app, badSrc_bits, twoSel_two, twoSel_three, isSel_bits, imm_one, imm_two, imm_three, dst_nw, src_snd2 h3, src_fst2, rnd_code, scope_code, size_code, fmt_code, mulpart_code, cc_code, fcc_code, votemode_code, shflmode_code, laneop_code, atomop_code, ord_code, cachehint_code, get_cat, get_app, ext_cat_lo, ext_cat_hi, ext_app_lo, ext_app_hi, ext_self, Nat.reduceSub, Nat.reduceLT, if_true, if_false, ite_true, ite_false, ofBool_get]
    simp [h1, h2, h3]
  · simp (disch := first | decide | rfl) only [Fields.hdr, Fields.ofHdr, src_snd2 h3, src_fst2, get_cat, get_app, ext_cat_lo, ext_cat_hi, ext_app_lo, ext_app_hi, ext_self, Nat.reduceSub, Nat.reduceLT, if_true, if_false, ite_true, ite_false, ofBool_get, rnd_code, scope_code, size_code, fmt_code, mulpart_code, cc_code, fcc_code, votemode_code, shflmode_code, laneop_code, atomop_code, ord_code, cachehint_code, Option.getD_some, Fields.dst, dst_eta]
theorem ffma (h : Hdr) (u : Bool) (d : Dst) (a : Src) (b : Src) (c : Src) (rnd : Rnd) (sat : Bool) : Statement (.ffma h u d a b c rnd sat) := by
  intro (hw : (h.wf && a.ok 1 false true && b.ok 1 false true && c.ok 1 false true) = true)
  simp only [Bool.and_eq_true] at hw
  obtain ⟨⟨⟨hh, h1⟩, h2⟩, h3⟩ := hw
  refine decode_guarded _ _ decFfma hh ?_ ?_
  · exact class_4 _ 259#10 3 rfl (by decide) (by decide)
  unfold decFfma
  refine verdict_eq _ _ _ ?_ ?_
  · simp (disch := first | decide | rfl) only [Fields.common, Fields.ofHdr, List.all_append, List.all_cons, List.all_nil, mask_cat, mask_app, badSrc_bits, twoSel_two, twoSel_three, isSel_bits, imm_one, imm_two, imm_three, dst_nw, src_noSel h1, src_noSel h2, src_noSel h3, rnd_code, scope_code, size_code, fmt_code, mulpart_code, cc_code, fcc_code, votemode_code, shflmode_code, laneop_code, atomop_code, ord_code, cachehint_code, get_cat, get_app, ext_cat_lo, ext_cat_hi, ext_app_lo, ext_app_hi, ext_self, Nat.reduceSub, Nat.reduceLT, if_true, if_false, ite_true, ite_false, ofBool_get]
    simp [h1, h2, h3]
  · simp (disch := first | decide | rfl) only [Fields.hdr, Fields.ofHdr, src_noSel h1, src_noSel h2, src_noSel h3, get_cat, get_app, ext_cat_lo, ext_cat_hi, ext_app_lo, ext_app_hi, ext_self, Nat.reduceSub, Nat.reduceLT, if_true, if_false, ite_true, ite_false, ofBool_get, rnd_code, scope_code, size_code, fmt_code, mulpart_code, cc_code, fcc_code, votemode_code, shflmode_code, laneop_code, atomop_code, ord_code, cachehint_code, Option.getD_some, Fields.dst, dst_eta]
theorem fmin (h : Hdr) (u : Bool) (d : Dst) (a : Src) (b : Src) : Statement (.fmin h u d a b) := by
  intro (hw : (h.wf && a.ok 1 true true && b.ok 1 true true && oneImm [a, b]) = true)
  simp only [Bool.and_eq_true] at hw
  obtain ⟨⟨⟨hh, h1⟩, h2⟩, h3⟩ := hw
  refine decode_guarded _ _ decFmin hh ?_ ?_
  · exact class_4 _ 260#10 4 rfl (by decide) (by decide)
  unfold decFmin
  refine verdict_eq _ _ _ ?_ ?_
  · simp (disch := first | decide | rfl) only [Fields.common, Fields.ofHdr, List.all_append, List.all_cons, List.all_nil, mask_cat, mask_app, badSrc_bits, twoSel_two, twoSel_three, isSel_bits, imm_one, imm_two, imm_three, dst_nw, src_snd2 h3, src_fst2, rnd_code, scope_code, size_code, fmt_code, mulpart_code, cc_code, fcc_code, votemode_code, shflmode_code, laneop_code, atomop_code, ord_code, cachehint_code, get_cat, get_app, ext_cat_lo, ext_cat_hi, ext_app_lo, ext_app_hi, ext_self, Nat.reduceSub, Nat.reduceLT, if_true, if_false, ite_true, ite_false, ofBool_get]
    simp [h1, h2, h3]
  · simp (disch := first | decide | rfl) only [Fields.hdr, Fields.ofHdr, src_snd2 h3, src_fst2, get_cat, get_app, ext_cat_lo, ext_cat_hi, ext_app_lo, ext_app_hi, ext_self, Nat.reduceSub, Nat.reduceLT, if_true, if_false, ite_true, ite_false, ofBool_get, rnd_code, scope_code, size_code, fmt_code, mulpart_code, cc_code, fcc_code, votemode_code, shflmode_code, laneop_code, atomop_code, ord_code, cachehint_code, Option.getD_some, Fields.dst, dst_eta]
theorem fmax (h : Hdr) (u : Bool) (d : Dst) (a : Src) (b : Src) : Statement (.fmax h u d a b) := by
  intro (hw : (h.wf && a.ok 1 true true && b.ok 1 true true && oneImm [a, b]) = true)
  simp only [Bool.and_eq_true] at hw
  obtain ⟨⟨⟨hh, h1⟩, h2⟩, h3⟩ := hw
  refine decode_guarded _ _ decFmax hh ?_ ?_
  · exact class_4 _ 261#10 5 rfl (by decide) (by decide)
  unfold decFmax
  refine verdict_eq _ _ _ ?_ ?_
  · simp (disch := first | decide | rfl) only [Fields.common, Fields.ofHdr, List.all_append, List.all_cons, List.all_nil, mask_cat, mask_app, badSrc_bits, twoSel_two, twoSel_three, isSel_bits, imm_one, imm_two, imm_three, dst_nw, src_snd2 h3, src_fst2, rnd_code, scope_code, size_code, fmt_code, mulpart_code, cc_code, fcc_code, votemode_code, shflmode_code, laneop_code, atomop_code, ord_code, cachehint_code, get_cat, get_app, ext_cat_lo, ext_cat_hi, ext_app_lo, ext_app_hi, ext_self, Nat.reduceSub, Nat.reduceLT, if_true, if_false, ite_true, ite_false, ofBool_get]
    simp [h1, h2, h3]
  · simp (disch := first | decide | rfl) only [Fields.hdr, Fields.ofHdr, src_snd2 h3, src_fst2, get_cat, get_app, ext_cat_lo, ext_cat_hi, ext_app_lo, ext_app_hi, ext_self, Nat.reduceSub, Nat.reduceLT, if_true, if_false, ite_true, ite_false, ofBool_get, rnd_code, scope_code, size_code, fmt_code, mulpart_code, cc_code, fcc_code, votemode_code, shflmode_code, laneop_code, atomop_code, ord_code, cachehint_code, Option.getD_some, Fields.dst, dst_eta]
theorem fminn (h : Hdr) (u : Bool) (d : Dst) (a : Src) (b : Src) : Statement (.fminn h u d a b) := by
  intro (hw : (h.wf && a.ok 1 true true && b.ok 1 true true && oneImm [a, b]) = true)
  simp only [Bool.and_eq_true] at hw
  obtain ⟨⟨⟨hh, h1⟩, h2⟩, h3⟩ := hw
  refine decode_guarded _ _ decFminn hh ?_ ?_
  · exact class_4 _ 262#10 6 rfl (by decide) (by decide)
  unfold decFminn
  refine verdict_eq _ _ _ ?_ ?_
  · simp (disch := first | decide | rfl) only [Fields.common, Fields.ofHdr, List.all_append, List.all_cons, List.all_nil, mask_cat, mask_app, badSrc_bits, twoSel_two, twoSel_three, isSel_bits, imm_one, imm_two, imm_three, dst_nw, src_snd2 h3, src_fst2, rnd_code, scope_code, size_code, fmt_code, mulpart_code, cc_code, fcc_code, votemode_code, shflmode_code, laneop_code, atomop_code, ord_code, cachehint_code, get_cat, get_app, ext_cat_lo, ext_cat_hi, ext_app_lo, ext_app_hi, ext_self, Nat.reduceSub, Nat.reduceLT, if_true, if_false, ite_true, ite_false, ofBool_get]
    simp [h1, h2, h3]
  · simp (disch := first | decide | rfl) only [Fields.hdr, Fields.ofHdr, src_snd2 h3, src_fst2, get_cat, get_app, ext_cat_lo, ext_cat_hi, ext_app_lo, ext_app_hi, ext_self, Nat.reduceSub, Nat.reduceLT, if_true, if_false, ite_true, ite_false, ofBool_get, rnd_code, scope_code, size_code, fmt_code, mulpart_code, cc_code, fcc_code, votemode_code, shflmode_code, laneop_code, atomop_code, ord_code, cachehint_code, Option.getD_some, Fields.dst, dst_eta]
theorem fmaxn (h : Hdr) (u : Bool) (d : Dst) (a : Src) (b : Src) : Statement (.fmaxn h u d a b) := by
  intro (hw : (h.wf && a.ok 1 true true && b.ok 1 true true && oneImm [a, b]) = true)
  simp only [Bool.and_eq_true] at hw
  obtain ⟨⟨⟨hh, h1⟩, h2⟩, h3⟩ := hw
  refine decode_guarded _ _ decFmaxn hh ?_ ?_
  · exact class_4 _ 263#10 7 rfl (by decide) (by decide)
  unfold decFmaxn
  refine verdict_eq _ _ _ ?_ ?_
  · simp (disch := first | decide | rfl) only [Fields.common, Fields.ofHdr, List.all_append, List.all_cons, List.all_nil, mask_cat, mask_app, badSrc_bits, twoSel_two, twoSel_three, isSel_bits, imm_one, imm_two, imm_three, dst_nw, src_snd2 h3, src_fst2, rnd_code, scope_code, size_code, fmt_code, mulpart_code, cc_code, fcc_code, votemode_code, shflmode_code, laneop_code, atomop_code, ord_code, cachehint_code, get_cat, get_app, ext_cat_lo, ext_cat_hi, ext_app_lo, ext_app_hi, ext_self, Nat.reduceSub, Nat.reduceLT, if_true, if_false, ite_true, ite_false, ofBool_get]
    simp [h1, h2, h3]
  · simp (disch := first | decide | rfl) only [Fields.hdr, Fields.ofHdr, src_snd2 h3, src_fst2, get_cat, get_app, ext_cat_lo, ext_cat_hi, ext_app_lo, ext_app_hi, ext_self, Nat.reduceSub, Nat.reduceLT, if_true, if_false, ite_true, ite_false, ofBool_get, rnd_code, scope_code, size_code, fmt_code, mulpart_code, cc_code, fcc_code, votemode_code, shflmode_code, laneop_code, atomop_code, ord_code, cachehint_code, Option.getD_some, Fields.dst, dst_eta]
theorem fcmp (h : Hdr) (u : Bool) (pd : BitVec 3) (a : Src) (b : Src) (cc : FCc) : Statement (.fcmp h u pd a b cc) := by
  intro (hw : (h.wf && a.ok 1 true true && b.ok 1 true true && oneImm [a, b]) = true)
  simp only [Bool.and_eq_true] at hw
  obtain ⟨⟨⟨hh, h1⟩, h2⟩, h3⟩ := hw
  refine decode_guarded _ _ decFcmp hh ?_ ?_
  · exact class_4 _ 264#10 8 rfl (by decide) (by decide)
  unfold decFcmp
  refine verdict_eq _ _ _ ?_ ?_
  · simp (disch := first | decide | rfl) only [Fields.common, Fields.ofHdr, List.all_append, List.all_cons, List.all_nil, mask_cat, mask_app, badSrc_bits, twoSel_two, twoSel_three, isSel_bits, imm_one, imm_two, imm_three, dst_nw, src_snd2 h3, src_fst2, rnd_code, scope_code, size_code, fmt_code, mulpart_code, cc_code, fcc_code, votemode_code, shflmode_code, laneop_code, atomop_code, ord_code, cachehint_code, get_cat, get_app, ext_cat_lo, ext_cat_hi, ext_app_lo, ext_app_hi, ext_self, Nat.reduceSub, Nat.reduceLT, if_true, if_false, ite_true, ite_false, ofBool_get]
    simp [h1, h2, h3]
  · simp (disch := first | decide | rfl) only [Fields.hdr, Fields.ofHdr, src_snd2 h3, src_fst2, get_cat, get_app, ext_cat_lo, ext_cat_hi, ext_app_lo, ext_app_hi, ext_self, Nat.reduceSub, Nat.reduceLT, if_true, if_false, ite_true, ite_false, ofBool_get, rnd_code, scope_code, size_code, fmt_code, mulpart_code, cc_code, fcc_code, votemode_code, shflmode_code, laneop_code, atomop_code, ord_code, cachehint_code, Option.getD_some, Fields.dst, dst_eta]
theorem fabs (h : Hdr) (u : Bool) (d : Dst) (a : Src) : Statement (.fabs h u d a) := by
  intro (hw : (h.wf && a.ok 1 true true) = true)
  simp only [Bool.and_eq_true] at hw
  obtain ⟨hh, h1⟩ := hw
  refine decode_guarded _ _ decFabs hh ?_ ?_
  · exact class_4 _ 265#10 9 rfl (by decide) (by decide)
  unfold decFabs
  refine verdict_eq _ _ _ ?_ ?_
  · simp (disch := first | decide | rfl) only [Fields.common, Fields.ofHdr, List.all_append, List.all_cons, List.all_nil, mask_cat, mask_app, badSrc_bits, twoSel_two, twoSel_three, isSel_bits, imm_one, imm_two, imm_three, dst_nw, src_one, rnd_code, scope_code, size_code, fmt_code, mulpart_code, cc_code, fcc_code, votemode_code, shflmode_code, laneop_code, atomop_code, ord_code, cachehint_code, get_cat, get_app, ext_cat_lo, ext_cat_hi, ext_app_lo, ext_app_hi, ext_self, Nat.reduceSub, Nat.reduceLT, if_true, if_false, ite_true, ite_false, ofBool_get]
    simp [h1]
  · simp (disch := first | decide | rfl) only [Fields.hdr, Fields.ofHdr, src_one, get_cat, get_app, ext_cat_lo, ext_cat_hi, ext_app_lo, ext_app_hi, ext_self, Nat.reduceSub, Nat.reduceLT, if_true, if_false, ite_true, ite_false, ofBool_get, rnd_code, scope_code, size_code, fmt_code, mulpart_code, cc_code, fcc_code, votemode_code, shflmode_code, laneop_code, atomop_code, ord_code, cachehint_code, Option.getD_some, Fields.dst, dst_eta]
theorem fneg (h : Hdr) (u : Bool) (d : Dst) (a : Src) : Statement (.fneg h u d a) := by
  intro (hw : (h.wf && a.ok 1 true true) = true)
  simp only [Bool.and_eq_true] at hw
  obtain ⟨hh, h1⟩ := hw
  refine decode_guarded _ _ decFneg hh ?_ ?_
  · exact class_4 _ 266#10 10 rfl (by decide) (by decide)
  unfold decFneg
  refine verdict_eq _ _ _ ?_ ?_
  · simp (disch := first | decide | rfl) only [Fields.common, Fields.ofHdr, List.all_append, List.all_cons, List.all_nil, mask_cat, mask_app, badSrc_bits, twoSel_two, twoSel_three, isSel_bits, imm_one, imm_two, imm_three, dst_nw, src_one, rnd_code, scope_code, size_code, fmt_code, mulpart_code, cc_code, fcc_code, votemode_code, shflmode_code, laneop_code, atomop_code, ord_code, cachehint_code, get_cat, get_app, ext_cat_lo, ext_cat_hi, ext_app_lo, ext_app_hi, ext_self, Nat.reduceSub, Nat.reduceLT, if_true, if_false, ite_true, ite_false, ofBool_get]
    simp [h1]
  · simp (disch := first | decide | rfl) only [Fields.hdr, Fields.ofHdr, src_one, get_cat, get_app, ext_cat_lo, ext_cat_hi, ext_app_lo, ext_app_hi, ext_self, Nat.reduceSub, Nat.reduceLT, if_true, if_false, ite_true, ite_false, ofBool_get, rnd_code, scope_code, size_code, fmt_code, mulpart_code, cc_code, fcc_code, votemode_code, shflmode_code, laneop_code, atomop_code, ord_code, cachehint_code, Option.getD_some, Fields.dst, dst_eta]
theorem fclass (h : Hdr) (u : Bool) (d : Dst) (a : Src) : Statement (.fclass h u d a) := by
  intro (hw : (h.wf && a.ok 1 true true) = true)
  simp only [Bool.and_eq_true] at hw
  obtain ⟨hh, h1⟩ := hw
  refine decode_guarded _ _ decFclass hh ?_ ?_
  · exact class_4 _ 267#10 11 rfl (by decide) (by decide)
  unfold decFclass
  refine verdict_eq _ _ _ ?_ ?_
  · simp (disch := first | decide | rfl) only [Fields.common, Fields.ofHdr, List.all_append, List.all_cons, List.all_nil, mask_cat, mask_app, badSrc_bits, twoSel_two, twoSel_three, isSel_bits, imm_one, imm_two, imm_three, dst_nw, src_one, rnd_code, scope_code, size_code, fmt_code, mulpart_code, cc_code, fcc_code, votemode_code, shflmode_code, laneop_code, atomop_code, ord_code, cachehint_code, get_cat, get_app, ext_cat_lo, ext_cat_hi, ext_app_lo, ext_app_hi, ext_self, Nat.reduceSub, Nat.reduceLT, if_true, if_false, ite_true, ite_false, ofBool_get]
    simp [h1]
  · simp (disch := first | decide | rfl) only [Fields.hdr, Fields.ofHdr, src_one, get_cat, get_app, ext_cat_lo, ext_cat_hi, ext_app_lo, ext_app_hi, ext_self, Nat.reduceSub, Nat.reduceLT, if_true, if_false, ite_true, ite_false, ofBool_get, rnd_code, scope_code, size_code, fmt_code, mulpart_code, cc_code, fcc_code, votemode_code, shflmode_code, laneop_code, atomop_code, ord_code, cachehint_code, Option.getD_some, Fields.dst, dst_eta]
theorem fdiv (h : Hdr) (u : Bool) (d : Dst) (a : Src) (b : Src) (rnd : Rnd) : Statement (.fdiv h u d a b rnd) := by
  intro (hw : (h.wf && a.ok 1 true true && b.ok 1 true true && oneImm [a, b]) = true)
  simp only [Bool.and_eq_true] at hw
  obtain ⟨⟨⟨hh, h1⟩, h2⟩, h3⟩ := hw
  refine decode_guarded _ _ decFdiv hh ?_ ?_
  · exact class_4 _ 268#10 12 rfl (by decide) (by decide)
  unfold decFdiv
  refine verdict_eq _ _ _ ?_ ?_
  · simp (disch := first | decide | rfl) only [Fields.common, Fields.ofHdr, List.all_append, List.all_cons, List.all_nil, mask_cat, mask_app, badSrc_bits, twoSel_two, twoSel_three, isSel_bits, imm_one, imm_two, imm_three, dst_nw, src_snd2 h3, src_fst2, rnd_code, scope_code, size_code, fmt_code, mulpart_code, cc_code, fcc_code, votemode_code, shflmode_code, laneop_code, atomop_code, ord_code, cachehint_code, get_cat, get_app, ext_cat_lo, ext_cat_hi, ext_app_lo, ext_app_hi, ext_self, Nat.reduceSub, Nat.reduceLT, if_true, if_false, ite_true, ite_false, ofBool_get]
    simp [h1, h2, h3]
  · simp (disch := first | decide | rfl) only [Fields.hdr, Fields.ofHdr, src_snd2 h3, src_fst2, get_cat, get_app, ext_cat_lo, ext_cat_hi, ext_app_lo, ext_app_hi, ext_self, Nat.reduceSub, Nat.reduceLT, if_true, if_false, ite_true, ite_false, ofBool_get, rnd_code, scope_code, size_code, fmt_code, mulpart_code, cc_code, fcc_code, votemode_code, shflmode_code, laneop_code, atomop_code, ord_code, cachehint_code, Option.getD_some, Fields.dst, dst_eta]
theorem fsqrt (h : Hdr) (u : Bool) (d : Dst) (a : Src) (rnd : Rnd) : Statement (.fsqrt h u d a rnd) := by
  intro (hw : (h.wf && a.ok 1 true true) = true)
  simp only [Bool.and_eq_true] at hw
  obtain ⟨hh, h1⟩ := hw
  refine decode_guarded _ _ decFsqrt hh ?_ ?_
  · exact class_4 _ 269#10 13 rfl (by decide) (by decide)
  unfold decFsqrt
  refine verdict_eq _ _ _ ?_ ?_
  · simp (disch := first | decide | rfl) only [Fields.common, Fields.ofHdr, List.all_append, List.all_cons, List.all_nil, mask_cat, mask_app, badSrc_bits, twoSel_two, twoSel_three, isSel_bits, imm_one, imm_two, imm_three, dst_nw, src_one, rnd_code, scope_code, size_code, fmt_code, mulpart_code, cc_code, fcc_code, votemode_code, shflmode_code, laneop_code, atomop_code, ord_code, cachehint_code, get_cat, get_app, ext_cat_lo, ext_cat_hi, ext_app_lo, ext_app_hi, ext_self, Nat.reduceSub, Nat.reduceLT, if_true, if_false, ite_true, ite_false, ofBool_get]
    simp [h1]
  · simp (disch := first | decide | rfl) only [Fields.hdr, Fields.ofHdr, src_one, get_cat, get_app, ext_cat_lo, ext_cat_hi, ext_app_lo, ext_app_hi, ext_self, Nat.reduceSub, Nat.reduceLT, if_true, if_false, ite_true, ite_false, ofBool_get, rnd_code, scope_code, size_code, fmt_code, mulpart_code, cc_code, fcc_code, votemode_code, shflmode_code, laneop_code, atomop_code, ord_code, cachehint_code, Option.getD_some, Fields.dst, dst_eta]
theorem frcp (h : Hdr) (u : Bool) (d : Dst) (a : Src) (rnd : Rnd) : Statement (.frcp h u d a rnd) := by
  intro (hw : (h.wf && a.ok 1 true true) = true)
  simp only [Bool.and_eq_true] at hw
  obtain ⟨hh, h1⟩ := hw
  refine decode_guarded _ _ decFrcp hh ?_ ?_
  · exact class_4 _ 270#10 14 rfl (by decide) (by decide)
  unfold decFrcp
  refine verdict_eq _ _ _ ?_ ?_
  · simp (disch := first | decide | rfl) only [Fields.common, Fields.ofHdr, List.all_append, List.all_cons, List.all_nil, mask_cat, mask_app, badSrc_bits, twoSel_two, twoSel_three, isSel_bits, imm_one, imm_two, imm_three, dst_nw, src_one, rnd_code, scope_code, size_code, fmt_code, mulpart_code, cc_code, fcc_code, votemode_code, shflmode_code, laneop_code, atomop_code, ord_code, cachehint_code, get_cat, get_app, ext_cat_lo, ext_cat_hi, ext_app_lo, ext_app_hi, ext_self, Nat.reduceSub, Nat.reduceLT, if_true, if_false, ite_true, ite_false, ofBool_get]
    simp [h1]
  · simp (disch := first | decide | rfl) only [Fields.hdr, Fields.ofHdr, src_one, get_cat, get_app, ext_cat_lo, ext_cat_hi, ext_app_lo, ext_app_hi, ext_self, Nat.reduceSub, Nat.reduceLT, if_true, if_false, ite_true, ite_false, ofBool_get, rnd_code, scope_code, size_code, fmt_code, mulpart_code, cc_code, fcc_code, votemode_code, shflmode_code, laneop_code, atomop_code, ord_code, cachehint_code, Option.getD_some, Fields.dst, dst_eta]
theorem frsq (h : Hdr) (u : Bool) (d : Dst) (a : Src) (rnd : Rnd) : Statement (.frsq h u d a rnd) := by
  intro (hw : (h.wf && a.ok 1 true true) = true)
  simp only [Bool.and_eq_true] at hw
  obtain ⟨hh, h1⟩ := hw
  refine decode_guarded _ _ decFrsq hh ?_ ?_
  · exact class_4 _ 271#10 15 rfl (by decide) (by decide)
  unfold decFrsq
  refine verdict_eq _ _ _ ?_ ?_
  · simp (disch := first | decide | rfl) only [Fields.common, Fields.ofHdr, List.all_append, List.all_cons, List.all_nil, mask_cat, mask_app, badSrc_bits, twoSel_two, twoSel_three, isSel_bits, imm_one, imm_two, imm_three, dst_nw, src_one, rnd_code, scope_code, size_code, fmt_code, mulpart_code, cc_code, fcc_code, votemode_code, shflmode_code, laneop_code, atomop_code, ord_code, cachehint_code, get_cat, get_app, ext_cat_lo, ext_cat_hi, ext_app_lo, ext_app_hi, ext_self, Nat.reduceSub, Nat.reduceLT, if_true, if_false, ite_true, ite_false, ofBool_get]
    simp [h1]
  · simp (disch := first | decide | rfl) only [Fields.hdr, Fields.ofHdr, src_one, get_cat, get_app, ext_cat_lo, ext_cat_hi, ext_app_lo, ext_app_hi, ext_self, Nat.reduceSub, Nat.reduceLT, if_true, if_false, ite_true, ite_false, ofBool_get, rnd_code, scope_code, size_code, fmt_code, mulpart_code, cc_code, fcc_code, votemode_code, shflmode_code, laneop_code, atomop_code, ord_code, cachehint_code, Option.getD_some, Fields.dst, dst_eta]
theorem fexp2 (h : Hdr) (u : Bool) (d : Dst) (a : Src) (rnd : Rnd) : Statement (.fexp2 h u d a rnd) := by
  intro (hw : (h.wf && a.ok 1 true true) = true)
  simp only [Bool.and_eq_true] at hw
  obtain ⟨hh, h1⟩ := hw
  refine decode_guarded _ _ decFexp2 hh ?_ ?_
  · exact class_4 _ 272#10 16 rfl (by decide) (by decide)
  unfold decFexp2
  refine verdict_eq _ _ _ ?_ ?_
  · simp (disch := first | decide | rfl) only [Fields.common, Fields.ofHdr, List.all_append, List.all_cons, List.all_nil, mask_cat, mask_app, badSrc_bits, twoSel_two, twoSel_three, isSel_bits, imm_one, imm_two, imm_three, dst_nw, src_one, rnd_code, scope_code, size_code, fmt_code, mulpart_code, cc_code, fcc_code, votemode_code, shflmode_code, laneop_code, atomop_code, ord_code, cachehint_code, get_cat, get_app, ext_cat_lo, ext_cat_hi, ext_app_lo, ext_app_hi, ext_self, Nat.reduceSub, Nat.reduceLT, if_true, if_false, ite_true, ite_false, ofBool_get]
    simp [h1]
  · simp (disch := first | decide | rfl) only [Fields.hdr, Fields.ofHdr, src_one, get_cat, get_app, ext_cat_lo, ext_cat_hi, ext_app_lo, ext_app_hi, ext_self, Nat.reduceSub, Nat.reduceLT, if_true, if_false, ite_true, ite_false, ofBool_get, rnd_code, scope_code, size_code, fmt_code, mulpart_code, cc_code, fcc_code, votemode_code, shflmode_code, laneop_code, atomop_code, ord_code, cachehint_code, Option.getD_some, Fields.dst, dst_eta]
theorem flog2 (h : Hdr) (u : Bool) (d : Dst) (a : Src) (rnd : Rnd) : Statement (.flog2 h u d a rnd) := by
  intro (hw : (h.wf && a.ok 1 true true) = true)
  simp only [Bool.and_eq_true] at hw
  obtain ⟨hh, h1⟩ := hw
  refine decode_guarded _ _ decFlog2 hh ?_ ?_
  · exact class_4 _ 273#10 17 rfl (by decide) (by decide)
  unfold decFlog2
  refine verdict_eq _ _ _ ?_ ?_
  · simp (disch := first | decide | rfl) only [Fields.common, Fields.ofHdr, List.all_append, List.all_cons, List.all_nil, mask_cat, mask_app, badSrc_bits, twoSel_two, twoSel_three, isSel_bits, imm_one, imm_two, imm_three, dst_nw, src_one, rnd_code, scope_code, size_code, fmt_code, mulpart_code, cc_code, fcc_code, votemode_code, shflmode_code, laneop_code, atomop_code, ord_code, cachehint_code, get_cat, get_app, ext_cat_lo, ext_cat_hi, ext_app_lo, ext_app_hi, ext_self, Nat.reduceSub, Nat.reduceLT, if_true, if_false, ite_true, ite_false, ofBool_get]
    simp [h1]
  · simp (disch := first | decide | rfl) only [Fields.hdr, Fields.ofHdr, src_one, get_cat, get_app, ext_cat_lo, ext_cat_hi, ext_app_lo, ext_app_hi, ext_self, Nat.reduceSub, Nat.reduceLT, if_true, if_false, ite_true, ite_false, ofBool_get, rnd_code, scope_code, size_code, fmt_code, mulpart_code, cc_code, fcc_code, votemode_code, shflmode_code, laneop_code, atomop_code, ord_code, cachehint_code, Option.getD_some, Fields.dst, dst_eta]
theorem fsin (h : Hdr) (u : Bool) (d : Dst) (a : Src) (rnd : Rnd) : Statement (.fsin h u d a rnd) := by
  intro (hw : (h.wf && a.ok 1 true true) = true)
  simp only [Bool.and_eq_true] at hw
  obtain ⟨hh, h1⟩ := hw
  refine decode_guarded _ _ decFsin hh ?_ ?_
  · exact class_4 _ 274#10 18 rfl (by decide) (by decide)
  unfold decFsin
  refine verdict_eq _ _ _ ?_ ?_
  · simp (disch := first | decide | rfl) only [Fields.common, Fields.ofHdr, List.all_append, List.all_cons, List.all_nil, mask_cat, mask_app, badSrc_bits, twoSel_two, twoSel_three, isSel_bits, imm_one, imm_two, imm_three, dst_nw, src_one, rnd_code, scope_code, size_code, fmt_code, mulpart_code, cc_code, fcc_code, votemode_code, shflmode_code, laneop_code, atomop_code, ord_code, cachehint_code, get_cat, get_app, ext_cat_lo, ext_cat_hi, ext_app_lo, ext_app_hi, ext_self, Nat.reduceSub, Nat.reduceLT, if_true, if_false, ite_true, ite_false, ofBool_get]
    simp [h1]
  · simp (disch := first | decide | rfl) only [Fields.hdr, Fields.ofHdr, src_one, get_cat, get_app, ext_cat_lo, ext_cat_hi, ext_app_lo, ext_app_hi, ext_self, Nat.reduceSub, Nat.reduceLT, if_true, if_false, ite_true, ite_false, ofBool_get, rnd_code, scope_code, size_code, fmt_code, mulpart_code, cc_code, fcc_code, votemode_code, shflmode_code, laneop_code, atomop_code, ord_code, cachehint_code, Option.getD_some, Fields.dst, dst_eta]
theorem fcos (h : Hdr) (u : Bool) (d : Dst) (a : Src) (rnd : Rnd) : Statement (.fcos h u d a rnd) := by
  intro (hw : (h.wf && a.ok 1 true true) = true)
  simp only [Bool.and_eq_true] at hw
  obtain ⟨hh, h1⟩ := hw
  refine decode_guarded _ _ decFcos hh ?_ ?_
  · exact class_4 _ 275#10 19 rfl (by decide) (by decide)
  unfold decFcos
  refine verdict_eq _ _ _ ?_ ?_
  · simp (disch := first | decide | rfl) only [Fields.common, Fields.ofHdr, List.all_append, List.all_cons, List.all_nil, mask_cat, mask_app, badSrc_bits, twoSel_two, twoSel_three, isSel_bits, imm_one, imm_two, imm_three, dst_nw, src_one, rnd_code, scope_code, size_code, fmt_code, mulpart_code, cc_code, fcc_code, votemode_code, shflmode_code, laneop_code, atomop_code, ord_code, cachehint_code, get_cat, get_app, ext_cat_lo, ext_cat_hi, ext_app_lo, ext_app_hi, ext_self, Nat.reduceSub, Nat.reduceLT, if_true, if_false, ite_true, ite_false, ofBool_get]
    simp [h1]
  · simp (disch := first | decide | rfl) only [Fields.hdr, Fields.ofHdr, src_one, get_cat, get_app, ext_cat_lo, ext_cat_hi, ext_app_lo, ext_app_hi, ext_self, Nat.reduceSub, Nat.reduceLT, if_true, if_false, ite_true, ite_false, ofBool_get, rnd_code, scope_code, size_code, fmt_code, mulpart_code, cc_code, fcc_code, votemode_code, shflmode_code, laneop_code, atomop_code, ord_code, cachehint_code, Option.getD_some, Fields.dst, dst_eta]
theorem ftanh (h : Hdr) (u : Bool) (d : Dst) (a : Src) (rnd : Rnd) : Statement (.ftanh h u d a rnd) := by
  intro (hw : (h.wf && a.ok 1 true true) = true)
  simp only [Bool.and_eq_true] at hw
  obtain ⟨hh, h1⟩ := hw
  refine decode_guarded _ _ decFtanh hh ?_ ?_
  · exact class_4 _ 276#10 20 rfl (by decide) (by decide)
  unfold decFtanh
  refine verdict_eq _ _ _ ?_ ?_
  · simp (disch := first | decide | rfl) only [Fields.common, Fields.ofHdr, List.all_append, List.all_cons, List.all_nil, mask_cat, mask_app, badSrc_bits, twoSel_two, twoSel_three, isSel_bits, imm_one, imm_two, imm_three, dst_nw, src_one, rnd_code, scope_code, size_code, fmt_code, mulpart_code, cc_code, fcc_code, votemode_code, shflmode_code, laneop_code, atomop_code, ord_code, cachehint_code, get_cat, get_app, ext_cat_lo, ext_cat_hi, ext_app_lo, ext_app_hi, ext_self, Nat.reduceSub, Nat.reduceLT, if_true, if_false, ite_true, ite_false, ofBool_get]
    simp [h1]
  · simp (disch := first | decide | rfl) only [Fields.hdr, Fields.ofHdr, src_one, get_cat, get_app, ext_cat_lo, ext_cat_hi, ext_app_lo, ext_app_hi, ext_self, Nat.reduceSub, Nat.reduceLT, if_true, if_false, ite_true, ite_false, ofBool_get, rnd_code, scope_code, size_code, fmt_code, mulpart_code, cc_code, fcc_code, votemode_code, shflmode_code, laneop_code, atomop_code, ord_code, cachehint_code, Option.getD_some, Fields.dst, dst_eta]
theorem flredm (h : Hdr) (d : Dst) (a : Src) (max : Bool) (q : Bool) (conv : Bool) : Statement (.flredm h d a max q conv) := by
  intro (hw : (h.wf && d.ok 2 && a.ok 1 true true) = true)
  simp only [Bool.and_eq_true] at hw
  obtain ⟨⟨hh, h1⟩, h2⟩ := hw
  refine decode_guarded _ _ decFlredm hh ?_ ?_
  · refine (class_4 _ 277#10 21 rfl (by decide) (by decide)).trans ?_
    simp (disch := decide) only [decClass4, Fields.ofHdr, BitVec.reduceExtractLsb', BitVec.toNat_ofNat, BitVec.reduceToNat, get_cat, get_app, ext_cat_lo, ext_cat_hi, ext_app_lo, ext_app_hi, ext_self, Nat.reduceSub, Nat.reduceLT, if_true, if_false, ite_true, ite_false, ofBool_get]
  unfold decFlredm
  refine verdict_eq _ _ _ ?_ ?_
  · simp (disch := first | decide | rfl) only [Fields.common, Fields.ofHdr, List.all_append, List.all_cons, List.all_nil, mask_cat, mask_app, badSrc_bits, twoSel_two, twoSel_three, isSel_bits, imm_one, imm_two, imm_three, dst_nw, src_one, rnd_code, scope_code, size_code, fmt_code, mulpart_code, cc_code, fcc_code, votemode_code, shflmode_code, laneop_code, atomop_code, ord_code, cachehint_code, get_cat, get_app, ext_cat_lo, ext_cat_hi, ext_app_lo, ext_app_hi, ext_self, Nat.reduceSub, Nat.reduceLT, if_true, if_false, ite_true, ite_false, ofBool_get]
    simp [dst_bad d _ h1, h2]
  · simp (disch := first | decide | rfl) only [Fields.hdr, Fields.ofHdr, src_one, get_cat, get_app, ext_cat_lo, ext_cat_hi, ext_app_lo, ext_app_hi, ext_self, Nat.reduceSub, Nat.reduceLT, if_true, if_false, ite_true, ite_false, ofBool_get, rnd_code, scope_code, size_code, fmt_code, mulpart_code, cc_code, fcc_code, votemode_code, shflmode_code, laneop_code, atomop_code, ord_code, cachehint_code, Option.getD_some, Fields.dst, dst_eta]
theorem flredmTile (h : Hdr) (d : Dst) (a : Src) (tile : BitVec 4) (max : Bool) : Statement (.flredmTile h d a tile max) := by
  intro (hw : (h.wf && d.ok 2 && a.ok 1 false true) = true)
  simp only [Bool.and_eq_true] at hw
  obtain ⟨⟨hh, h1⟩, h2⟩ := hw
  refine decode_guarded _ _ decFlredmTile hh ?_ ?_
  · refine (class_4 _ 277#10 21 rfl (by decide) (by decide)).trans ?_
    simp (disch := decide) only [decClass4, Fields.ofHdr, BitVec.reduceExtractLsb', BitVec.toNat_ofNat, BitVec.reduceToNat, get_cat, get_app, ext_cat_lo, ext_cat_hi, ext_app_lo, ext_app_hi, ext_self, Nat.reduceSub, Nat.reduceLT, if_true, if_false, ite_true, ite_false, ofBool_get]
  unfold decFlredmTile
  refine verdict_eq _ _ _ ?_ ?_
  · simp (disch := first | decide | rfl) only [Fields.common, Fields.ofHdr, List.all_append, List.all_cons, List.all_nil, mask_cat, mask_app, badSrc_bits, twoSel_two, twoSel_three, isSel_bits, imm_one, imm_two, imm_three, dst_nw, src_noSel h2, rnd_code, scope_code, size_code, fmt_code, mulpart_code, cc_code, fcc_code, votemode_code, shflmode_code, laneop_code, atomop_code, ord_code, cachehint_code, get_cat, get_app, ext_cat_lo, ext_cat_hi, ext_app_lo, ext_app_hi, ext_self, Nat.reduceSub, Nat.reduceLT, if_true, if_false, ite_true, ite_false, ofBool_get]
    simp [dst_bad d _ h1, h2]
  · simp (disch := first | decide | rfl) only [Fields.hdr, Fields.ofHdr, src_noSel h2, get_cat, get_app, ext_cat_lo, ext_cat_hi, ext_app_lo, ext_app_hi, ext_self, Nat.reduceSub, Nat.reduceLT, if_true, if_false, ite_true, ite_false, ofBool_get, rnd_code, scope_code, size_code, fmt_code, mulpart_code, cc_code, fcc_code, votemode_code, shflmode_code, laneop_code, atomop_code, ord_code, cachehint_code, Option.getD_some, Fields.dst, dst_eta]
theorem flsum (h : Hdr) (d : Dst) (a : Src) (rnd : Rnd) (q : Bool) (conv : Bool) : Statement (.flsum h d a rnd q conv) := by
  intro (hw : (h.wf && a.ok 1 true true) = true)
  simp only [Bool.and_eq_true] at hw
  obtain ⟨hh, h1⟩ := hw
  refine decode_guarded _ _ decFlsum hh ?_ ?_
  · exact class_4 _ 278#10 22 rfl (by decide) (by decide)
  unfold decFlsum
  refine verdict_eq _ _ _ ?_ ?_
  · simp (disch := first | decide | rfl) only [Fields.common, Fields.ofHdr, List.all_append, List.all_cons, List.all_nil, mask_cat, mask_app, badSrc_bits, twoSel_two, twoSel_three, isSel_bits, imm_one, imm_two, imm_three, dst_nw, src_one, rnd_code, scope_code, size_code, fmt_code, mulpart_code, cc_code, fcc_code, votemode_code, shflmode_code, laneop_code, atomop_code, ord_code, cachehint_code, get_cat, get_app, ext_cat_lo, ext_cat_hi, ext_app_lo, ext_app_hi, ext_self, Nat.reduceSub, Nat.reduceLT, if_true, if_false, ite_true, ite_false, ofBool_get]
    simp [h1]
  · simp (disch := first | decide | rfl) only [Fields.hdr, Fields.ofHdr, src_one, get_cat, get_app, ext_cat_lo, ext_cat_hi, ext_app_lo, ext_app_hi, ext_self, Nat.reduceSub, Nat.reduceLT, if_true, if_false, ite_true, ite_false, ofBool_get, rnd_code, scope_code, size_code, fmt_code, mulpart_code, cc_code, fcc_code, votemode_code, shflmode_code, laneop_code, atomop_code, ord_code, cachehint_code, Option.getD_some, Fields.dst, dst_eta]
theorem fscale (h : Hdr) (u : Bool) (d : Dst) (a : Src) (b : Src) (rnd : Rnd) (sat : Bool) : Statement (.fscale h u d a b rnd sat) := by
  intro (hw : (h.wf && a.ok 1 true true && b.ok 1 true true && oneImm [a, b]) = true)
  simp only [Bool.and_eq_true] at hw
  obtain ⟨⟨⟨hh, h1⟩, h2⟩, h3⟩ := hw
  refine decode_guarded _ _ decFscale hh ?_ ?_
  · exact class_4 _ 279#10 23 rfl (by decide) (by decide)
  unfold decFscale
  refine verdict_eq _ _ _ ?_ ?_
  · simp (disch := first | decide | rfl) only [Fields.common, Fields.ofHdr, List.all_append, List.all_cons, List.all_nil, mask_cat, mask_app, badSrc_bits, twoSel_two, twoSel_three, isSel_bits, imm_one, imm_two, imm_three, dst_nw, src_snd2 h3, src_fst2, rnd_code, scope_code, size_code, fmt_code, mulpart_code, cc_code, fcc_code, votemode_code, shflmode_code, laneop_code, atomop_code, ord_code, cachehint_code, get_cat, get_app, ext_cat_lo, ext_cat_hi, ext_app_lo, ext_app_hi, ext_self, Nat.reduceSub, Nat.reduceLT, if_true, if_false, ite_true, ite_false, ofBool_get]
    simp [h1, h2, h3]
  · simp (disch := first | decide | rfl) only [Fields.hdr, Fields.ofHdr, src_snd2 h3, src_fst2, get_cat, get_app, ext_cat_lo, ext_cat_hi, ext_app_lo, ext_app_hi, ext_self, Nat.reduceSub, Nat.reduceLT, if_true, if_false, ite_true, ite_false, ofBool_get, rnd_code, scope_code, size_code, fmt_code, mulpart_code, cc_code, fcc_code, votemode_code, shflmode_code, laneop_code, atomop_code, ord_code, cachehint_code, Option.getD_some, Fields.dst, dst_eta]
theorem fcvt (h : Hdr) (u : Bool) (d : Dst) (a : Src) (rnd : Rnd) (sat : Bool) (fmt : Fmt) : Statement (.fcvt h u d a rnd sat fmt) := by
  intro (hw : (h.wf && a.ok 1 false true && (fmt.isElem)) = true)
  simp only [Bool.and_eq_true] at hw
  obtain ⟨⟨hh, h1⟩, h2⟩ := hw
  refine decode_guarded _ _ decFcvt hh ?_ ?_
  · refine (class_5 _ 320#10 0 rfl (by decide) (by decide)).trans ?_
    simp (disch := decide) only [decClass5, Fields.ofHdr, BitVec.reduceExtractLsb', BitVec.toNat_ofNat, BitVec.reduceToNat, get_cat, get_app, ext_cat_lo, ext_cat_hi, ext_app_lo, ext_app_hi, ext_self, Nat.reduceSub, Nat.reduceLT, if_true, if_false, ite_true, ite_false, ofBool_get]
  unfold decFcvt
  refine verdict_eq _ _ _ ?_ ?_
  · simp (disch := first | decide | rfl) only [Fields.common, Fields.ofHdr, List.all_append, List.all_cons, List.all_nil, mask_cat, mask_app, badSrc_bits, twoSel_two, twoSel_three, isSel_bits, imm_one, imm_two, imm_three, dst_nw, src_noSel h1, rnd_code, scope_code, size_code, fmt_code, mulpart_code, cc_code, fcc_code, votemode_code, shflmode_code, laneop_code, atomop_code, ord_code, cachehint_code, get_cat, get_app, ext_cat_lo, ext_cat_hi, ext_app_lo, ext_app_hi, ext_self, Nat.reduceSub, Nat.reduceLT, if_true, if_false, ite_true, ite_false, ofBool_get]
    simp [h1, h2]
  · simp (disch := first | decide | rfl) only [Fields.hdr, Fields.ofHdr, src_noSel h1, get_cat, get_app, ext_cat_lo, ext_cat_hi, ext_app_lo, ext_app_hi, ext_self, Nat.reduceSub, Nat.reduceLT, if_true, if_false, ite_true, ite_false, ofBool_get, rnd_code, scope_code, size_code, fmt_code, mulpart_code, cc_code, fcc_code, votemode_code, shflmode_code, laneop_code, atomop_code, ord_code, cachehint_code, Option.getD_some, Fields.dst, dst_eta]
theorem fcvtWid (h : Hdr) (u : Bool) (d : Dst) (a : Src) (fmt : Fmt) : Statement (.fcvtWid h u d a fmt) := by
  intro (hw : (h.wf && a.ok 1 false true && (fmt.isElem && fmt != Fmt.f32)) = true)
  simp only [Bool.and_eq_true] at hw
  obtain ⟨⟨hh, h1⟩, h2⟩ := hw
  refine decode_guarded _ _ decFcvtWid hh ?_ ?_
  · refine (class_5 _ 320#10 0 rfl (by decide) (by decide)).trans ?_
    simp (disch := decide) only [decClass5, Fields.ofHdr, BitVec.reduceExtractLsb', BitVec.toNat_ofNat, BitVec.reduceToNat, get_cat, get_app, ext_cat_lo, ext_cat_hi, ext_app_lo, ext_app_hi, ext_self, Nat.reduceSub, Nat.reduceLT, if_true, if_false, ite_true, ite_false, ofBool_get]
  unfold decFcvtWid
  refine verdict_eq _ _ _ ?_ ?_
  · simp (disch := first | decide | rfl) only [Fields.common, Fields.ofHdr, List.all_append, List.all_cons, List.all_nil, mask_cat, mask_app, badSrc_bits, twoSel_two, twoSel_three, isSel_bits, imm_one, imm_two, imm_three, dst_nw, src_noSel h1, rnd_code, scope_code, size_code, fmt_code, mulpart_code, cc_code, fcc_code, votemode_code, shflmode_code, laneop_code, atomop_code, ord_code, cachehint_code, get_cat, get_app, ext_cat_lo, ext_cat_hi, ext_app_lo, ext_app_hi, ext_self, Nat.reduceSub, Nat.reduceLT, if_true, if_false, ite_true, ite_false, ofBool_get]
    simp [h1, h2]
  · simp (disch := first | decide | rfl) only [Fields.hdr, Fields.ofHdr, src_noSel h1, get_cat, get_app, ext_cat_lo, ext_cat_hi, ext_app_lo, ext_app_hi, ext_self, Nat.reduceSub, Nat.reduceLT, if_true, if_false, ite_true, ite_false, ofBool_get, rnd_code, scope_code, size_code, fmt_code, mulpart_code, cc_code, fcc_code, votemode_code, shflmode_code, laneop_code, atomop_code, ord_code, cachehint_code, Option.getD_some, Fields.dst, dst_eta]
theorem f2i (h : Hdr) (u : Bool) (d : Dst) (a : Src) (sgn : Bool) (x2 : Bool) (rnd : Rnd) : Statement (.f2i h u d a sgn x2 rnd) := by
  intro (hw : (h.wf && d.ok (if x2 then 2 else 1) && a.ok 1 true true && (rnd != Rnd.rto)) = true)
  simp only [Bool.and_eq_true] at hw
  obtain ⟨⟨⟨hh, h1⟩, h2⟩, h3⟩ := hw
  refine decode_guarded _ _ decF2i hh ?_ ?_
  · exact class_5 _ 321#10 1 rfl (by decide) (by decide)
  unfold decF2i
  refine verdict_eq _ _ _ ?_ ?_
  · simp (disch := first | decide | rfl) only [Fields.common, Fields.ofHdr, List.all_append, List.all_cons, List.all_nil, mask_cat, mask_app, badSrc_bits, twoSel_two, twoSel_three, isSel_bits, imm_one, imm_two, imm_three, dst_nw, src_one, rnd_code, scope_code, size_code, fmt_code, mulpart_code, cc_code, fcc_code, votemode_code, shflmode_code, laneop_code, atomop_code, ord_code, cachehint_code, get_cat, get_app, ext_cat_lo, ext_cat_hi, ext_app_lo, ext_app_hi, ext_self, Nat.reduceSub, Nat.reduceLT, if_true, if_false, ite_true, ite_false, ofBool_get]
    simp [dst_bad d _ h1, h2, ne_ok h3]
  · simp (disch := first | decide | rfl) only [Fields.hdr, Fields.ofHdr, src_one, get_cat, get_app, ext_cat_lo, ext_cat_hi, ext_app_lo, ext_app_hi, ext_self, Nat.reduceSub, Nat.reduceLT, if_true, if_false, ite_true, ite_false, ofBool_get, rnd_code, scope_code, size_code, fmt_code, mulpart_code, cc_code, fcc_code, votemode_code, shflmode_code, laneop_code, atomop_code, ord_code, cachehint_code, Option.getD_some, Fields.dst, dst_eta]
theorem i2f (h : Hdr) (u : Bool) (d : Dst) (a : Src) (sgn : Bool) (x2 : Bool) (rnd : Rnd) : Statement (.i2f h u d a sgn x2 rnd) := by
  intro (hw : (h.wf && a.ok (if x2 then 2 else 1) true true) = true)
  simp only [Bool.and_eq_true] at hw
  obtain ⟨hh, h1⟩ := hw
  refine decode_guarded _ _ decI2f hh ?_ ?_
  · exact class_5 _ 322#10 2 rfl (by decide) (by decide)
  unfold decI2f
  refine verdict_eq _ _ _ ?_ ?_
  · simp (disch := first | decide | rfl) only [Fields.common, Fields.ofHdr, List.all_append, List.all_cons, List.all_nil, mask_cat, mask_app, badSrc_bits, twoSel_two, twoSel_three, isSel_bits, imm_one, imm_two, imm_three, dst_nw, src_one, rnd_code, scope_code, size_code, fmt_code, mulpart_code, cc_code, fcc_code, votemode_code, shflmode_code, laneop_code, atomop_code, ord_code, cachehint_code, get_cat, get_app, ext_cat_lo, ext_cat_hi, ext_app_lo, ext_app_hi, ext_self, Nat.reduceSub, Nat.reduceLT, if_true, if_false, ite_true, ite_false, ofBool_get]
    simp [h1]
  · simp (disch := first | decide | rfl) only [Fields.hdr, Fields.ofHdr, src_one, get_cat, get_app, ext_cat_lo, ext_cat_hi, ext_app_lo, ext_app_hi, ext_self, Nat.reduceSub, Nat.reduceLT, if_true, if_false, ite_true, ite_false, ofBool_get, rnd_code, scope_code, size_code, fmt_code, mulpart_code, cc_code, fcc_code, votemode_code, shflmode_code, laneop_code, atomop_code, ord_code, cachehint_code, Option.getD_some, Fields.dst, dst_eta]
theorem frnd (h : Hdr) (u : Bool) (d : Dst) (a : Src) (rnd : Rnd) : Statement (.frnd h u d a rnd) := by
  intro (hw : (h.wf && a.ok 1 true true) = true)
  simp only [Bool.and_eq_true] at hw
  obtain ⟨hh, h1⟩ := hw
  refine decode_guarded _ _ decFrnd hh ?_ ?_
  · exact class_5 _ 323#10 3 rfl (by decide) (by decide)
  unfold decFrnd
  refine verdict_eq _ _ _ ?_ ?_
  · simp (disch := first | decide | rfl) only [Fields.common, Fields.ofHdr, List.all_append, List.all_cons, List.all_nil, mask_cat, mask_app, badSrc_bits, twoSel_two, twoSel_three, isSel_bits, imm_one, imm_two, imm_three, dst_nw, src_one, rnd_code, scope_code, size_code, fmt_code, mulpart_code, cc_code, fcc_code, votemode_code, shflmode_code, laneop_code, atomop_code, ord_code, cachehint_code, get_cat, get_app, ext_cat_lo, ext_cat_hi, ext_app_lo, ext_app_hi, ext_self, Nat.reduceSub, Nat.reduceLT, if_true, if_false, ite_true, ite_false, ofBool_get]
    simp [h1]
  · simp (disch := first | decide | rfl) only [Fields.hdr, Fields.ofHdr, src_one, get_cat, get_app, ext_cat_lo, ext_cat_hi, ext_app_lo, ext_app_hi, ext_self, Nat.reduceSub, Nat.reduceLT, if_true, if_false, ite_true, ite_false, ofBool_get, rnd_code, scope_code, size_code, fmt_code, mulpart_code, cc_code, fcc_code, votemode_code, shflmode_code, laneop_code, atomop_code, ord_code, cachehint_code, Option.getD_some, Fields.dst, dst_eta]
theorem fpack (h : Hdr) (u : Bool) (d : Dst) (a : Src) (b : Src) (c : Src) (rnd : Rnd) (sat : Bool) (fmt : Fmt) (pos : BitVec 2) : Statement (.fpack h u d a b c rnd sat fmt pos) := by
  intro (hw : (h.wf && a.ok 1 false true && b.ok 1 false true && c.ok 1 false true && (packOk fmt pos.toNat) && (!fmt.is16 || c == Src.reg 0 false)) = true)
  simp only [Bool.and_eq_true] at hw
  obtain ⟨⟨⟨⟨⟨hh, h1⟩, h2⟩, h3⟩, h4⟩, h5⟩ := hw
  refine decode_guarded _ _ decFpack hh ?_ ?_
  · exact class_5 _ 324#10 4 rfl (by decide) (by decide)
  unfold decFpack
  refine verdict_eq _ _ _ ?_ ?_
  · simp (disch := first | decide | rfl) only [Fields.common, Fields.ofHdr, List.all_append, List.all_cons, List.all_nil, mask_cat, mask_app, badSrc_bits, twoSel_two, twoSel_three, isSel_bits, imm_one, imm_two, imm_three, dst_nw, src_noSel h1, src_noSel h2, src_noSel h3, rnd_code, scope_code, size_code, fmt_code, mulpart_code, cc_code, fcc_code, votemode_code, shflmode_code, laneop_code, atomop_code, ord_code, cachehint_code, get_cat, get_app, ext_cat_lo, ext_cat_hi, ext_app_lo, ext_app_hi, ext_self, Nat.reduceSub, Nat.reduceLT, if_true, if_false, ite_true, ite_false, ofBool_get]
    simp_all [dst_bad]
  · simp (disch := first | decide | rfl) only [Fields.hdr, Fields.ofHdr, src_noSel h1, src_noSel h2, src_noSel h3, get_cat, get_app, ext_cat_lo, ext_cat_hi, ext_app_lo, ext_app_hi, ext_self, Nat.reduceSub, Nat.reduceLT, if_true, if_false, ite_true, ite_false, ofBool_get, rnd_code, scope_code, size_code, fmt_code, mulpart_code, cc_code, fcc_code, votemode_code, shflmode_code, laneop_code, atomop_code, ord_code, cachehint_code, Option.getD_some, Fields.dst, dst_eta]
theorem funpk (h : Hdr) (u : Bool) (d : Dst) (a : Src) (idx : BitVec 3) (x2 : Bool) (fmt : Fmt) : Statement (.funpk h u d a idx x2 fmt) := by
  intro (hw : (h.wf && d.ok (if x2 then 2 else 1) && a.ok 1 false true && (unpkOk fmt idx.toNat x2)) = true)
  simp only [Bool.and_eq_true] at hw
  obtain ⟨⟨⟨hh, h1⟩, h2⟩, h3⟩ := hw
  refine decode_guarded _ _ decFunpk hh ?_ ?_
  · exact class_5 _ 325#10 5 rfl (by decide) (by decide)
  unfold decFunpk
  refine verdict_eq _ _ _ ?_ ?_
  · simp (disch := first | decide | rfl) only [Fields.common, Fields.ofHdr, List.all_append, List.all_cons, List.all_nil, mask_cat, mask_app, badSrc_bits, twoSel_two, twoSel_three, isSel_bits, imm_one, imm_two, imm_three, dst_nw, src_noSel h2, rnd_code, scope_code, size_code, fmt_code, mulpart_code, cc_code, fcc_code, votemode_code, shflmode_code, laneop_code, atomop_code, ord_code, cachehint_code, get_cat, get_app, ext_cat_lo, ext_cat_hi, ext_app_lo, ext_app_hi, ext_self, Nat.reduceSub, Nat.reduceLT, if_true, if_false, ite_true, ite_false, ofBool_get]
    simp [dst_bad d _ h1, h2, h3]
  · simp (disch := first | decide | rfl) only [Fields.hdr, Fields.ofHdr, src_noSel h2, get_cat, get_app, ext_cat_lo, ext_cat_hi, ext_app_lo, ext_app_hi, ext_self, Nat.reduceSub, Nat.reduceLT, if_true, if_false, ite_true, ite_false, ofBool_get, rnd_code, scope_code, size_code, fmt_code, mulpart_code, cc_code, fcc_code, votemode_code, shflmode_code, laneop_code, atomop_code, ord_code, cachehint_code, Option.getD_some, Fields.dst, dst_eta]
theorem hadd2 (h : Hdr) (u : Bool) (d : Dst) (a : Src) (b : Src) (rnd : Rnd) (sat : Bool) (fmt : Fmt) : Statement (.hadd2 h u d a b rnd sat fmt) := by
  intro (hw : (h.wf && a.ok 1 true true && b.ok 1 true true && oneImm [a, b] && (fmt.is16)) = true)
  simp only [Bool.and_eq_true] at hw
  obtain ⟨⟨⟨⟨hh, h1⟩, h2⟩, h3⟩, h4⟩ := hw
  refine decode_guarded _ _ decHadd2 hh ?_ ?_
  · exact class_5 _ 326#10 6 rfl (by decide) (by decide)
  unfold decHadd2
  refine verdict_eq _ _ _ ?_ ?_
  · simp (disch := first | decide | rfl) only [Fields.common, Fields.ofHdr, List.all_append, List.all_cons, List.all_nil, mask_cat, mask_app, badSrc_bits, twoSel_two, twoSel_three, isSel_bits, imm_one, imm_two, imm_three, dst_nw, src_snd2 h3, src_fst2, rnd_code, scope_code, size_code, fmt_code, mulpart_code, cc_code, fcc_code, votemode_code, shflmode_code, laneop_code, atomop_code, ord_code, cachehint_code, get_cat, get_app, ext_cat_lo, ext_cat_hi, ext_app_lo, ext_app_hi, ext_self, Nat.reduceSub, Nat.reduceLT, if_true, if_false, ite_true, ite_false, ofBool_get]
    simp [h1, h2, h3, h4]
  · simp (disch := first | decide | rfl) only [Fields.hdr, Fields.ofHdr, src_snd2 h3, src_fst2, get_cat, get_app, ext_cat_lo, ext_cat_hi, ext_app_lo, ext_app_hi, ext_self, Nat.reduceSub, Nat.reduceLT, if_true, if_false, ite_true, ite_false, ofBool_get, rnd_code, scope_code, size_code, fmt_code, mulpart_code, cc_code, fcc_code, votemode_code, shflmode_code, laneop_code, atomop_code, ord_code, cachehint_code, Option.getD_some, Fields.dst, dst_eta]
theorem hmul2 (h : Hdr) (u : Bool) (d : Dst) (a : Src) (b : Src) (rnd : Rnd) (sat : Bool) (fmt : Fmt) : Statement (.hmul2 h u d a b rnd sat fmt) := by
  intro (hw : (h.wf && a.ok 1 true true && b.ok 1 true true && oneImm [a, b] && (fmt.is16)) = true)
  simp only [Bool.and_eq_true] at hw
  obtain ⟨⟨⟨⟨hh, h1⟩, h2⟩, h3⟩, h4⟩ := hw
  refine decode_guarded _ _ decHmul2 hh ?_ ?_
  · exact class_5 _ 327#10 7 rfl (by decide) (by decide)
  unfold decHmul2
  refine verdict_eq _ _ _ ?_ ?_
  · simp (disch := first | decide | rfl) only [Fields.common, Fields.ofHdr, List.all_append, List.all_cons, List.all_nil, mask_cat, mask_app, badSrc_bits, twoSel_two, twoSel_three, isSel_bits, imm_one, imm_two, imm_three, dst_nw, src_snd2 h3, src_fst2, rnd_code, scope_code, size_code, fmt_code, mulpart_code, cc_code, fcc_code, votemode_code, shflmode_code, laneop_code, atomop_code, ord_code, cachehint_code, get_cat, get_app, ext_cat_lo, ext_cat_hi, ext_app_lo, ext_app_hi, ext_self, Nat.reduceSub, Nat.reduceLT, if_true, if_false, ite_true, ite_false, ofBool_get]
    simp [h1, h2, h3, h4]
  · simp (disch := first | decide | rfl) only [Fields.hdr, Fields.ofHdr, src_snd2 h3, src_fst2, get_cat, get_app, ext_cat_lo, ext_cat_hi, ext_app_lo, ext_app_hi, ext_self, Nat.reduceSub, Nat.reduceLT, if_true, if_false, ite_true, ite_false, ofBool_get, rnd_code, scope_code, size_code, fmt_code, mulpart_code, cc_code, fcc_code, votemode_code, shflmode_code, laneop_code, atomop_code, ord_code, cachehint_code, Option.getD_some, Fields.dst, dst_eta]
theorem hfma2 (h : Hdr) (u : Bool) (d : Dst) (a : Src) (b : Src) (c : Src) (rnd : Rnd) (sat : Bool) (fmt : Fmt) : Statement (.hfma2 h u d a b c rnd sat fmt) := by
  intro (hw : (h.wf && a.ok 1 false true && b.ok 1 false true && c.ok 1 false true && (fmt.is16)) = true)
  simp only [Bool.and_eq_true] at hw
  obtain ⟨⟨⟨⟨hh, h1⟩, h2⟩, h3⟩, h4⟩ := hw
  refine decode_guarded _ _ decHfma2 hh ?_ ?_
  · exact class_5 _ 328#10 8 rfl (by decide) (by decide)
  unfold decHfma2
  refine verdict_eq _ _ _ ?_ ?_
  · simp (disch := first | decide | rfl) only [Fields.common, Fields.ofHdr, List.all_append, List.all_cons, List.all_nil, mask_cat, mask_app, badSrc_bits, twoSel_two, twoSel_three, isSel_bits, imm_one, imm_two, imm_three, dst_nw, src_noSel h1, src_noSel h2, src_noSel h3, rnd_code, scope_code, size_code, fmt_code, mulpart_code, cc_code, fcc_code, votemode_code, shflmode_code, laneop_code, atomop_code, ord_code, cachehint_code, get_cat, get_app, ext_cat_lo, ext_cat_hi, ext_app_lo, ext_app_hi, ext_self, Nat.reduceSub, Nat.reduceLT, if_true, if_false, ite_true, ite_false, ofBool_get]
    simp [h1, h2, h3, h4]
  · simp (disch := first | decide | rfl) only [Fields.hdr, Fields.ofHdr, src_noSel h1, src_noSel h2, src_noSel h3, get_cat, get_app, ext_cat_lo, ext_cat_hi, ext_app_lo, ext_app_hi, ext_self, Nat.reduceSub, Nat.reduceLT, if_true, if_false, ite_true, ite_false, ofBool_get, rnd_code, scope_code, size_code, fmt_code, mulpart_code, cc_code, fcc_code, votemode_code, shflmode_code, laneop_code, atomop_code, ord_code, cachehint_code, Option.getD_some, Fields.dst, dst_eta]
theorem hmin2 (h : Hdr) (u : Bool) (d : Dst) (a : Src) (b : Src) (num : Bool) (fmt : Fmt) : Statement (.hmin2 h u d a b num fmt) := by
  intro (hw : (h.wf && a.ok 1 true true && b.ok 1 true true && oneImm [a, b] && (fmt.is16)) = true)
  simp only [Bool.and_eq_true] at hw
  obtain ⟨⟨⟨⟨hh, h1⟩, h2⟩, h3⟩, h4⟩ := hw
  refine decode_guarded _ _ decHmin2 hh ?_ ?_
  · exact class_5 _ 329#10 9 rfl (by decide) (by decide)
  unfold decHmin2
  refine verdict_eq _ _ _ ?_ ?_
  · simp (disch := first | decide | rfl) only [Fields.common, Fields.ofHdr, List.all_append, List.all_cons, List.all_nil, mask_cat, mask_app, badSrc_bits, twoSel_two, twoSel_three, isSel_bits, imm_one, imm_two, imm_three, dst_nw, src_snd2 h3, src_fst2, rnd_code, scope_code, size_code, fmt_code, mulpart_code, cc_code, fcc_code, votemode_code, shflmode_code, laneop_code, atomop_code, ord_code, cachehint_code, get_cat, get_app, ext_cat_lo, ext_cat_hi, ext_app_lo, ext_app_hi, ext_self, Nat.reduceSub, Nat.reduceLT, if_true, if_false, ite_true, ite_false, ofBool_get]
    simp [h1, h2, h3, h4]
  · simp (disch := first | decide | rfl) only [Fields.hdr, Fields.ofHdr, src_snd2 h3, src_fst2, get_cat, get_app, ext_cat_lo, ext_cat_hi, ext_app_lo, ext_app_hi, ext_self, Nat.reduceSub, Nat.reduceLT, if_true, if_false, ite_true, ite_false, ofBool_get, rnd_code, scope_code, size_code, fmt_code, mulpart_code, cc_code, fcc_code, votemode_code, shflmode_code, laneop_code, atomop_code, ord_code, cachehint_code, Option.getD_some, Fields.dst, dst_eta]
theorem hmax2 (h : Hdr) (u : Bool) (d : Dst) (a : Src) (b : Src) (num : Bool) (fmt : Fmt) : Statement (.hmax2 h u d a b num fmt) := by
  intro (hw : (h.wf && a.ok 1 true true && b.ok 1 true true && oneImm [a, b] && (fmt.is16)) = true)
  simp only [Bool.and_eq_true] at hw
  obtain ⟨⟨⟨⟨hh, h1⟩, h2⟩, h3⟩, h4⟩ := hw
  refine decode_guarded _ _ decHmax2 hh ?_ ?_
  · exact class_5 _ 330#10 10 rfl (by decide) (by decide)
  unfold decHmax2
  refine verdict_eq _ _ _ ?_ ?_
  · simp (disch := first | decide | rfl) only [Fields.common, Fields.ofHdr, List.all_append, List.all_cons, List.all_nil, mask_cat, mask_app, badSrc_bits, twoSel_two, twoSel_three, isSel_bits, imm_one, imm_two, imm_three, dst_nw, src_snd2 h3, src_fst2, rnd_code, scope_code, size_code, fmt_code, mulpart_code, cc_code, fcc_code, votemode_code, shflmode_code, laneop_code, atomop_code, ord_code, cachehint_code, get_cat, get_app, ext_cat_lo, ext_cat_hi, ext_app_lo, ext_app_hi, ext_self, Nat.reduceSub, Nat.reduceLT, if_true, if_false, ite_true, ite_false, ofBool_get]
    simp [h1, h2, h3, h4]
  · simp (disch := first | decide | rfl) only [Fields.hdr, Fields.ofHdr, src_snd2 h3, src_fst2, get_cat, get_app, ext_cat_lo, ext_cat_hi, ext_app_lo, ext_app_hi, ext_self, Nat.reduceSub, Nat.reduceLT, if_true, if_false, ite_true, ite_false, ofBool_get, rnd_code, scope_code, size_code, fmt_code, mulpart_code, cc_code, fcc_code, votemode_code, shflmode_code, laneop_code, atomop_code, ord_code, cachehint_code, Option.getD_some, Fields.dst, dst_eta]
theorem qscale (h : Hdr) (u : Bool) (d : Dst) (a : Src) (fit : Bool) (fmt : Fmt) : Statement (.qscale h u d a fit fmt) := by
  intro (hw : (h.wf && a.ok 1 true true && (fmt.isQuant)) = true)
  simp only [Bool.and_eq_true] at hw
  obtain ⟨⟨hh, h1⟩, h2⟩ := hw
  refine decode_guarded _ _ decQscale hh ?_ ?_
  · exact class_5 _ 331#10 11 rfl (by decide) (by decide)
  unfold decQscale
  refine verdict_eq _ _ _ ?_ ?_
  · simp (disch := first | decide | rfl) only [Fields.common, Fields.ofHdr, List.all_append, List.all_cons, List.all_nil, mask_cat, mask_app, badSrc_bits, twoSel_two, twoSel_three, isSel_bits, imm_one, imm_two, imm_three, dst_nw, src_one, rnd_code, scope_code, size_code, fmt_code, mulpart_code, cc_code, fcc_code, votemode_code, shflmode_code, laneop_code, atomop_code, ord_code, cachehint_code, get_cat, get_app, ext_cat_lo, ext_cat_hi, ext_app_lo, ext_app_hi, ext_self, Nat.reduceSub, Nat.reduceLT, if_true, if_false, ite_true, ite_false, ofBool_get]
    simp [h1, h2]
  · simp (disch := first | decide | rfl) only [Fields.hdr, Fields.ofHdr, src_one, get_cat, get_app, ext_cat_lo, ext_cat_hi, ext_app_lo, ext_app_hi, ext_self, Nat.reduceSub, Nat.reduceLT, if_true, if_false, ite_true, ite_false, ofBool_get, rnd_code, scope_code, size_code, fmt_code, mulpart_code, cc_code, fcc_code, votemode_code, shflmode_code, laneop_code, atomop_code, ord_code, cachehint_code, Option.getD_some, Fields.dst, dst_eta]
theorem qnt (h : Hdr) (u : Bool) (d : Dst) (a : Src) (b : Src) (c : Src) (rnd : Rnd) (sat : Bool) (fmt : Fmt) (pos : BitVec 3) : Statement (.qnt h u d a b c rnd sat fmt pos) := by
  intro (hw : (h.wf && a.ok 1 false true && b.ok 1 false true && c.ok 1 false true && (qntOk fmt pos.toNat) && (fmt != Fmt.ds8 || rnd != Rnd.rto)) = true)
  simp only [Bool.and_eq_true] at hw
  obtain ⟨⟨⟨⟨⟨hh, h1⟩, h2⟩, h3⟩, h4⟩, h5⟩ := hw
  refine decode_guarded _ _ decQnt hh ?_ ?_
  · exact class_5 _ 332#10 12 rfl (by decide) (by decide)
  unfold decQnt
  refine verdict_eq _ _ _ ?_ ?_
  · simp (disch := first | decide | rfl) only [Fields.common, Fields.ofHdr, List.all_append, List.all_cons, List.all_nil, mask_cat, mask_app, badSrc_bits, twoSel_two, twoSel_three, isSel_bits, imm_one, imm_two, imm_three, dst_nw, src_noSel h1, src_noSel h2, src_noSel h3, rnd_code, scope_code, size_code, fmt_code, mulpart_code, cc_code, fcc_code, votemode_code, shflmode_code, laneop_code, atomop_code, ord_code, cachehint_code, get_cat, get_app, ext_cat_lo, ext_cat_hi, ext_app_lo, ext_app_hi, ext_self, Nat.reduceSub, Nat.reduceLT, if_true, if_false, ite_true, ite_false, ofBool_get]
    simp_all [dst_bad]
  · simp (disch := first | decide | rfl) only [Fields.hdr, Fields.ofHdr, src_noSel h1, src_noSel h2, src_noSel h3, get_cat, get_app, ext_cat_lo, ext_cat_hi, ext_app_lo, ext_app_hi, ext_self, Nat.reduceSub, Nat.reduceLT, if_true, if_false, ite_true, ite_false, ofBool_get, rnd_code, scope_code, size_code, fmt_code, mulpart_code, cc_code, fcc_code, votemode_code, shflmode_code, laneop_code, atomop_code, ord_code, cachehint_code, Option.getD_some, Fields.dst, dst_eta]
theorem bincv (h : Hdr) (u : Bool) (d : Dst) (a : Src) (b : Src) (rnd : Rnd) : Statement (.bincv h u d a b rnd) := by
  intro (hw : (h.wf && d.ok 2 && a.ok 1 true true && b.ok 1 true true && oneImm [a, b] && (rnd != Rnd.rto)) = true)
  simp only [Bool.and_eq_true] at hw
  obtain ⟨⟨⟨⟨⟨hh, h1⟩, h2⟩, h3⟩, h4⟩, h5⟩ := hw
  refine decode_guarded _ _ decBincv hh ?_ ?_
  · exact class_5 _ 333#10 13 rfl (by decide) (by decide)
  unfold decBincv
  refine verdict_eq _ _ _ ?_ ?_
  · simp (disch := first | decide | rfl) only [Fields.common, Fields.ofHdr, List.all_append, List.all_cons, List.all_nil, mask_cat, mask_app, badSrc_bits, twoSel_two, twoSel_three, isSel_bits, imm_one, imm_two, imm_three, dst_nw, src_snd2 h4, src_fst2, rnd_code, scope_code, size_code, fmt_code, mulpart_code, cc_code, fcc_code, votemode_code, shflmode_code, laneop_code, atomop_code, ord_code, cachehint_code, get_cat, get_app, ext_cat_lo, ext_cat_hi, ext_app_lo, ext_app_hi, ext_self, Nat.reduceSub, Nat.reduceLT, if_true, if_false, ite_true, ite_false, ofBool_get]
    simp [dst_bad d _ h1, h2, h3, h4, ne_ok h5]
  · simp (disch := first | decide | rfl) only [Fields.hdr, Fields.ofHdr, src_snd2 h4, src_fst2, get_cat, get_app, ext_cat_lo, ext_cat_hi, ext_app_lo, ext_app_hi, ext_self, Nat.reduceSub, Nat.reduceLT, if_true, if_false, ite_true, ite_false, ofBool_get, rnd_code, scope_code, size_code, fmt_code, mulpart_code, cc_code, fcc_code, votemode_code, shflmode_code, laneop_code, atomop_code, ord_code, cachehint_code, Option.getD_some, Fields.dst, dst_eta]
theorem binadd (h : Hdr) (u : Bool) (d : Dst) (a : Src) (b : Src) : Statement (.binadd h u d a b) := by
  intro (hw : (h.wf && d.ok 2 && a.ok 2 true true && b.ok 2 true true && oneImm [a, b]) = true)
  simp only [Bool.and_eq_true] at hw
  obtain ⟨⟨⟨⟨hh, h1⟩, h2⟩, h3⟩, h4⟩ := hw
  refine decode_guarded _ _ decBinadd hh ?_ ?_
  · exact class_5 _ 334#10 14 rfl (by decide) (by decide)
  unfold decBinadd
  refine verdict_eq _ _ _ ?_ ?_
  · simp (disch := first | decide | rfl) only [Fields.common, Fields.ofHdr, List.all_append, List.all_cons, List.all_nil, mask_cat, mask_app, badSrc_bits, twoSel_two, twoSel_three, isSel_bits, imm_one, imm_two, imm_three, dst_nw, src_snd2 h4, src_fst2, rnd_code, scope_code, size_code, fmt_code, mulpart_code, cc_code, fcc_code, votemode_code, shflmode_code, laneop_code, atomop_code, ord_code, cachehint_code, get_cat, get_app, ext_cat_lo, ext_cat_hi, ext_app_lo, ext_app_hi, ext_self, Nat.reduceSub, Nat.reduceLT, if_true, if_false, ite_true, ite_false, ofBool_get]
    simp [dst_bad d _ h1, h2, h3, h4]
  · simp (disch := first | decide | rfl) only [Fields.hdr, Fields.ofHdr, src_snd2 h4, src_fst2, get_cat, get_app, ext_cat_lo, ext_cat_hi, ext_app_lo, ext_app_hi, ext_self, Nat.reduceSub, Nat.reduceLT, if_true, if_false, ite_true, ite_false, ofBool_get, rnd_code, scope_code, size_code, fmt_code, mulpart_code, cc_code, fcc_code, votemode_code, shflmode_code, laneop_code, atomop_code, ord_code, cachehint_code, Option.getD_some, Fields.dst, dst_eta]
theorem binfp (h : Hdr) (u : Bool) (d : Dst) (a : Src) (b : Src) (rnd : Rnd) : Statement (.binfp h u d a b rnd) := by
  intro (hw : (h.wf && a.ok 2 true true && b.ok 1 true true && oneImm [a, b] && (rnd != Rnd.rto)) = true)
  simp only [Bool.and_eq_true] at hw
  obtain ⟨⟨⟨⟨hh, h1⟩, h2⟩, h3⟩, h4⟩ := hw
  refine decode_guarded _ _ decBinfp hh ?_ ?_
  · exact class_5 _ 335#10 15 rfl (by decide) (by decide)
  unfold decBinfp
  refine verdict_eq _ _ _ ?_ ?_
  · simp (disch := first | decide | rfl) only [Fields.common, Fields.ofHdr, List.all_append, List.all_cons, List.all_nil, mask_cat, mask_app, badSrc_bits, twoSel_two, twoSel_three, isSel_bits, imm_one, imm_two, imm_three, dst_nw, src_snd2 h3, src_fst2, rnd_code, scope_code, size_code, fmt_code, mulpart_code, cc_code, fcc_code, votemode_code, shflmode_code, laneop_code, atomop_code, ord_code, cachehint_code, get_cat, get_app, ext_cat_lo, ext_cat_hi, ext_app_lo, ext_app_hi, ext_self, Nat.reduceSub, Nat.reduceLT, if_true, if_false, ite_true, ite_false, ofBool_get]
    simp [h1, h2, h3, ne_ok h4]
  · simp (disch := first | decide | rfl) only [Fields.hdr, Fields.ofHdr, src_snd2 h3, src_fst2, get_cat, get_app, ext_cat_lo, ext_cat_hi, ext_app_lo, ext_app_hi, ext_self, Nat.reduceSub, Nat.reduceLT, if_true, if_false, ite_true, ite_false, ofBool_get, rnd_code, scope_code, size_code, fmt_code, mulpart_code, cc_code, fcc_code, votemode_code, shflmode_code, laneop_code, atomop_code, ord_code, cachehint_code, Option.getD_some, Fields.dst, dst_eta]
theorem mmaq (h : Hdr) (t : BitVec 4) (a : Src) (slot : BitVec 4) (asc : Bool) (sclast : Bool) (sc : BitVec 8) (la : BitVec 2) (lb : BitVec 2) (lc : BitVec 2) (wa : BitVec 2) (wb : BitVec 2) (wc : BitVec 2) (ta : Bool) (tb : Bool) (tc : Bool) (rnd : Rnd) (fa : Fmt) (fb : Fmt) (qoff : BitVec 3) : Statement (.mmaq h t a slot asc sclast sc la lb lc wa wb wc ta tb tc rnd fa fb qoff) := by
  intro (hw : (h.wf && a.ok 1 false false && (mmaPair fa fb) && (ascOk fa asc) && (asc || (!sclast && sc == 0)) && (a.num.toNat + mmaRegs fa fb ≤ 256) && (!asc || mmaDepth fa fb != 256 || sc.getLsbD 0 == false)) = true)
  simp only [Bool.and_eq_true] at hw
  obtain ⟨⟨⟨⟨⟨⟨hh, h1⟩, h2⟩, h3⟩, h4⟩, h5⟩, h6⟩ := hw
  refine decode_guarded _ _ decMmaq hh ?_ ?_
  · exact class_6 _ 384#10 0 rfl (by decide) (by decide)
  unfold decMmaq
  refine verdict_eq _ _ _ ?_ ?_
  · simp (disch := first | decide | rfl) only [Fields.common, Fields.ofHdr, List.all_append, List.all_cons, List.all_nil, mask_cat, mask_app, badSrc_bits, twoSel_two, twoSel_three, isSel_bits, imm_one, imm_two, imm_three, dst_nw, src_noSel h1, rnd_code, scope_code, size_code, fmt_code, mulpart_code, cc_code, fcc_code, votemode_code, shflmode_code, laneop_code, atomop_code, ord_code, cachehint_code, get_cat, get_app, ext_cat_lo, ext_cat_hi, ext_app_lo, ext_app_hi, ext_self, Nat.reduceSub, Nat.reduceLT, if_true, if_false, ite_true, ite_false, ofBool_get]
    simp_all [dst_bad]
  · simp (disch := first | decide | rfl) only [Fields.hdr, Fields.ofHdr, src_noSel h1, get_cat, get_app, ext_cat_lo, ext_cat_hi, ext_app_lo, ext_app_hi, ext_self, Nat.reduceSub, Nat.reduceLT, if_true, if_false, ite_true, ite_false, ofBool_get, rnd_code, scope_code, size_code, fmt_code, mulpart_code, cc_code, fcc_code, votemode_code, shflmode_code, laneop_code, atomop_code, ord_code, cachehint_code, Option.getD_some, Fields.dst, dst_eta]
theorem mmaqs (h : Hdr) (t : BitVec 4) (a : Src) (slot : BitVec 4) (asc : Bool) (la : BitVec 2) (lb : BitVec 2) (lc : BitVec 2) (wa : BitVec 2) (wb : BitVec 2) (wc : BitVec 2) (ta : Bool) (tb : Bool) (tc : Bool) (rnd : Rnd) (fa : Fmt) (fb : Fmt) (qoff : BitVec 3) : Statement (.mmaqs h t a slot asc la lb lc wa wb wc ta tb tc rnd fa fb qoff) := by
  intro (hw : (h.wf && a.ok 1 false true && (mmaPair fa fb) && (ascOk fa asc)) = true)
  simp only [Bool.and_eq_true] at hw
  obtain ⟨⟨⟨hh, h1⟩, h2⟩, h3⟩ := hw
  refine decode_guarded _ _ decMmaqs hh ?_ ?_
  · exact class_6 _ 385#10 1 rfl (by decide) (by decide)
  unfold decMmaqs
  refine verdict_eq _ _ _ ?_ ?_
  · simp (disch := first | decide | rfl) only [Fields.common, Fields.ofHdr, List.all_append, List.all_cons, List.all_nil, mask_cat, mask_app, badSrc_bits, twoSel_two, twoSel_three, isSel_bits, imm_one, imm_two, imm_three, dst_nw, src_noSel h1, rnd_code, scope_code, size_code, fmt_code, mulpart_code, cc_code, fcc_code, votemode_code, shflmode_code, laneop_code, atomop_code, ord_code, cachehint_code, get_cat, get_app, ext_cat_lo, ext_cat_hi, ext_app_lo, ext_app_hi, ext_self, Nat.reduceSub, Nat.reduceLT, if_true, if_false, ite_true, ite_false, ofBool_get]
    simp [h1, h2, h3]
  · simp (disch := first | decide | rfl) only [Fields.hdr, Fields.ofHdr, src_noSel h1, get_cat, get_app, ext_cat_lo, ext_cat_hi, ext_app_lo, ext_app_hi, ext_self, Nat.reduceSub, Nat.reduceLT, if_true, if_false, ite_true, ite_false, ofBool_get, rnd_code, scope_code, size_code, fmt_code, mulpart_code, cc_code, fcc_code, votemode_code, shflmode_code, laneop_code, atomop_code, ord_code, cachehint_code, Option.getD_some, Fields.dst, dst_eta]
theorem mzero (h : Hdr) (t : BitVec 4) (mon : Bool) : Statement (.mzero h t mon) := by
  intro (hw : (h.wf) = true)
  have hh := hw
  refine decode_guarded _ _ decMzero hh ?_ ?_
  · exact class_6 _ 386#10 2 rfl (by decide) (by decide)
  unfold decMzero
  refine verdict_eq _ _ _ ?_ ?_
  · simp (disch := first | decide | rfl) only [Fields.common, Fields.ofHdr, List.all_append, List.all_cons, List.all_nil, mask_cat, mask_app, badSrc_bits, twoSel_two, twoSel_three, isSel_bits, imm_one, imm_two, imm_three, dst_nw, rnd_code, scope_code, size_code, fmt_code, mulpart_code, cc_code, fcc_code, votemode_code, shflmode_code, laneop_code, atomop_code, ord_code, cachehint_code, get_cat, get_app, ext_cat_lo, ext_cat_hi, ext_app_lo, ext_app_hi, ext_self, Nat.reduceSub, Nat.reduceLT, if_true, if_false, ite_true, ite_false, ofBool_get]
    simp
  · simp (disch := first | decide | rfl) only [Fields.hdr, Fields.ofHdr, get_cat, get_app, ext_cat_lo, ext_cat_hi, ext_app_lo, ext_app_hi, ext_self, Nat.reduceSub, Nat.reduceLT, if_true, if_false, ite_true, ite_false, ofBool_get, rnd_code, scope_code, size_code, fmt_code, mulpart_code, cc_code, fcc_code, votemode_code, shflmode_code, laneop_code, atomop_code, ord_code, cachehint_code, Option.getD_some, Fields.dst, dst_eta]
theorem mrd (h : Hdr) (d : BitVec 8) (a : Src) (b : Src) (tile : BitVec 4) (rnd : Rnd) (sat : Bool) (fmt : Fmt) : Statement (.mrd h d a b tile rnd sat fmt) := by
  intro (hw : (h.wf && a.ok 1 false true && b.ok 1 false true && (fmt.isTileRead) && (fmt != Fmt.f32 || (rnd == Rnd.rne && !sat))) = true)
  simp only [Bool.and_eq_true] at hw
  obtain ⟨⟨⟨⟨hh, h1⟩, h2⟩, h3⟩, h4⟩ := hw
  refine decode_guarded _ _ decMrd hh ?_ ?_
  · exact class_6 _ 387#10 3 rfl (by decide) (by decide)
  unfold decMrd
  refine verdict_eq _ _ _ ?_ ?_
  · simp (disch := first | decide | rfl) only [Fields.common, Fields.ofHdr, List.all_append, List.all_cons, List.all_nil, mask_cat, mask_app, badSrc_bits, twoSel_two, twoSel_three, isSel_bits, imm_one, imm_two, imm_three, dst_nw, src_noSel h1, src_noSel h2, rnd_code, scope_code, size_code, fmt_code, mulpart_code, cc_code, fcc_code, votemode_code, shflmode_code, laneop_code, atomop_code, ord_code, cachehint_code, get_cat, get_app, ext_cat_lo, ext_cat_hi, ext_app_lo, ext_app_hi, ext_self, Nat.reduceSub, Nat.reduceLT, if_true, if_false, ite_true, ite_false, ofBool_get]
    simp_all [dst_bad]
  · simp (disch := first | decide | rfl) only [Fields.hdr, Fields.ofHdr, src_noSel h1, src_noSel h2, get_cat, get_app, ext_cat_lo, ext_cat_hi, ext_app_lo, ext_app_hi, ext_self, Nat.reduceSub, Nat.reduceLT, if_true, if_false, ite_true, ite_false, ofBool_get, rnd_code, scope_code, size_code, fmt_code, mulpart_code, cc_code, fcc_code, votemode_code, shflmode_code, laneop_code, atomop_code, ord_code, cachehint_code, Option.getD_some, Fields.dst, dst_eta]
theorem mwr (h : Hdr) (t : BitVec 4) (a : Src) (b : Src) (c : Src) : Statement (.mwr h t a b c) := by
  intro (hw : (h.wf && a.ok 1 true true && b.ok 1 true true && c.ok 1 true true && oneImm [a, b, c]) = true)
  simp only [Bool.and_eq_true] at hw
  obtain ⟨⟨⟨⟨hh, h1⟩, h2⟩, h3⟩, h4⟩ := hw
  refine decode_guarded _ _ decMwr hh ?_ ?_
  · exact class_6 _ 388#10 4 rfl (by decide) (by decide)
  unfold decMwr
  refine verdict_eq _ _ _ ?_ ?_
  · simp (disch := first | decide | rfl) only [Fields.common, Fields.ofHdr, List.all_append, List.all_cons, List.all_nil, mask_cat, mask_app, badSrc_bits, twoSel_two, twoSel_three, isSel_bits, imm_one, imm_two, imm_three, dst_nw, src_snd3 h4, src_thd3 h4, src_fst3, rnd_code, scope_code, size_code, fmt_code, mulpart_code, cc_code, fcc_code, votemode_code, shflmode_code, laneop_code, atomop_code, ord_code, cachehint_code, get_cat, get_app, ext_cat_lo, ext_cat_hi, ext_app_lo, ext_app_hi, ext_self, Nat.reduceSub, Nat.reduceLT, if_true, if_false, ite_true, ite_false, ofBool_get]
    simp [h1, h2, h3, h4]
  · simp (disch := first | decide | rfl) only [Fields.hdr, Fields.ofHdr, src_snd3 h4, src_thd3 h4, src_fst3, get_cat, get_app, ext_cat_lo, ext_cat_hi, ext_app_lo, ext_app_hi, ext_self, Nat.reduceSub, Nat.reduceLT, if_true, if_false, ite_true, ite_false, ofBool_get, rnd_code, scope_code, size_code, fmt_code, mulpart_code, cc_code, fcc_code, votemode_code, shflmode_code, laneop_code, atomop_code, ord_code, cachehint_code, Option.getD_some, Fields.dst, dst_eta]
theorem mldt (h : Hdr) (t : BitVec 4) (a : Src) (off : BitVec 32) : Statement (.mldt h t a off) := by
  intro (hw : (h.wf && a.ok 1 false true) = true)
  simp only [Bool.and_eq_true] at hw
  obtain ⟨hh, h1⟩ := hw
  refine decode_guarded _ _ decMldt hh ?_ ?_
  · exact class_6 _ 389#10 5 rfl (by decide) (by decide)
  unfold decMldt
  refine verdict_eq _ _ _ ?_ ?_
  · simp (disch := first | decide | rfl) only [Fields.common, Fields.ofHdr, List.all_append, List.all_cons, List.all_nil, mask_cat, mask_app, badSrc_bits, twoSel_two, twoSel_three, isSel_bits, imm_one, imm_two, imm_three, dst_nw, src_noSel h1, rnd_code, scope_code, size_code, fmt_code, mulpart_code, cc_code, fcc_code, votemode_code, shflmode_code, laneop_code, atomop_code, ord_code, cachehint_code, get_cat, get_app, ext_cat_lo, ext_cat_hi, ext_app_lo, ext_app_hi, ext_self, Nat.reduceSub, Nat.reduceLT, if_true, if_false, ite_true, ite_false, ofBool_get]
    simp [h1]
  · simp (disch := first | decide | rfl) only [Fields.hdr, Fields.ofHdr, src_noSel h1, get_cat, get_app, ext_cat_lo, ext_cat_hi, ext_app_lo, ext_app_hi, ext_self, Nat.reduceSub, Nat.reduceLT, if_true, if_false, ite_true, ite_false, ofBool_get, rnd_code, scope_code, size_code, fmt_code, mulpart_code, cc_code, fcc_code, votemode_code, shflmode_code, laneop_code, atomop_code, ord_code, cachehint_code, Option.getD_some, Fields.dst, dst_eta]
theorem mstt (h : Hdr) (t : BitVec 4) (a : Src) (rnd : Rnd) (sat : Bool) (fmt : Fmt) (off : BitVec 32) : Statement (.mstt h t a rnd sat fmt off) := by
  intro (hw : (h.wf && a.ok 1 false true && (fmt.isTileRead) && (fmt != Fmt.f32 || (rnd == Rnd.rne && !sat))) = true)
  simp only [Bool.and_eq_true] at hw
  obtain ⟨⟨⟨hh, h1⟩, h2⟩, h3⟩ := hw
  refine decode_guarded _ _ decMstt hh ?_ ?_
  · exact class_6 _ 390#10 6 rfl (by decide) (by decide)
  unfold decMstt
  refine verdict_eq _ _ _ ?_ ?_
  · simp (disch := first | decide | rfl) only [Fields.common, Fields.ofHdr, List.all_append, List.all_cons, List.all_nil, mask_cat, mask_app, badSrc_bits, twoSel_two, twoSel_three, isSel_bits, imm_one, imm_two, imm_three, dst_nw, src_noSel h1, rnd_code, scope_code, size_code, fmt_code, mulpart_code, cc_code, fcc_code, votemode_code, shflmode_code, laneop_code, atomop_code, ord_code, cachehint_code, get_cat, get_app, ext_cat_lo, ext_cat_hi, ext_app_lo, ext_app_hi, ext_self, Nat.reduceSub, Nat.reduceLT, if_true, if_false, ite_true, ite_false, ofBool_get]
    simp_all [dst_bad]
  · simp (disch := first | decide | rfl) only [Fields.hdr, Fields.ofHdr, src_noSel h1, get_cat, get_app, ext_cat_lo, ext_cat_hi, ext_app_lo, ext_app_hi, ext_self, Nat.reduceSub, Nat.reduceLT, if_true, if_false, ite_true, ite_false, ofBool_get, rnd_code, scope_code, size_code, fmt_code, mulpart_code, cc_code, fcc_code, votemode_code, shflmode_code, laneop_code, atomop_code, ord_code, cachehint_code, Option.getD_some, Fields.dst, dst_eta]
theorem msend (h : Hdr) (t : BitVec 4) (a : Src) (rnd : Rnd) (sat : Bool) (fmt : Fmt) : Statement (.msend h t a rnd sat fmt) := by
  intro (hw : (h.wf && a.ok 1 true true && (fmt.isStream)) = true)
  simp only [Bool.and_eq_true] at hw
  obtain ⟨⟨hh, h1⟩, h2⟩ := hw
  refine decode_guarded _ _ decMsend hh ?_ ?_
  · exact class_6 _ 391#10 7 rfl (by decide) (by decide)
  unfold decMsend
  refine verdict_eq _ _ _ ?_ ?_
  · simp (disch := first | decide | rfl) only [Fields.common, Fields.ofHdr, List.all_append, List.all_cons, List.all_nil, mask_cat, mask_app, badSrc_bits, twoSel_two, twoSel_three, isSel_bits, imm_one, imm_two, imm_three, dst_nw, src_one, rnd_code, scope_code, size_code, fmt_code, mulpart_code, cc_code, fcc_code, votemode_code, shflmode_code, laneop_code, atomop_code, ord_code, cachehint_code, get_cat, get_app, ext_cat_lo, ext_cat_hi, ext_app_lo, ext_app_hi, ext_self, Nat.reduceSub, Nat.reduceLT, if_true, if_false, ite_true, ite_false, ofBool_get]
    simp [h1, h2]
  · simp (disch := first | decide | rfl) only [Fields.hdr, Fields.ofHdr, src_one, get_cat, get_app, ext_cat_lo, ext_cat_hi, ext_app_lo, ext_app_hi, ext_self, Nat.reduceSub, Nat.reduceLT, if_true, if_false, ite_true, ite_false, ofBool_get, rnd_code, scope_code, size_code, fmt_code, mulpart_code, cc_code, fcc_code, votemode_code, shflmode_code, laneop_code, atomop_code, ord_code, cachehint_code, Option.getD_some, Fields.dst, dst_eta]
theorem msync (h : Hdr) (wg : Bool) : Statement (.msync h wg) := by
  intro (hw : (h.wf) = true)
  have hh := hw
  refine decode_guarded _ _ decMsync hh ?_ ?_
  · exact class_6 _ 392#10 8 rfl (by decide) (by decide)
  unfold decMsync
  refine verdict_eq _ _ _ ?_ ?_
  · simp (disch := first | decide | rfl) only [Fields.common, Fields.ofHdr, List.all_append, List.all_cons, List.all_nil, mask_cat, mask_app, badSrc_bits, twoSel_two, twoSel_three, isSel_bits, imm_one, imm_two, imm_three, dst_nw, rnd_code, scope_code, size_code, fmt_code, mulpart_code, cc_code, fcc_code, votemode_code, shflmode_code, laneop_code, atomop_code, ord_code, cachehint_code, get_cat, get_app, ext_cat_lo, ext_cat_hi, ext_app_lo, ext_app_hi, ext_self, Nat.reduceSub, Nat.reduceLT, if_true, if_false, ite_true, ite_false, ofBool_get]
    simp
  · simp (disch := first | decide | rfl) only [Fields.hdr, Fields.ofHdr, get_cat, get_app, ext_cat_lo, ext_cat_hi, ext_app_lo, ext_app_hi, ext_self, Nat.reduceSub, Nat.reduceLT, if_true, if_false, ite_true, ite_false, ofBool_get, rnd_code, scope_code, size_code, fmt_code, mulpart_code, cc_code, fcc_code, votemode_code, shflmode_code, laneop_code, atomop_code, ord_code, cachehint_code, Option.getD_some, Fields.dst, dst_eta]
theorem mcfg (h : Hdr) (a : Src) : Statement (.mcfg h a) := by
  intro (hw : (h.wf && a.ok 1 true true) = true)
  simp only [Bool.and_eq_true] at hw
  obtain ⟨hh, h1⟩ := hw
  refine decode_guarded _ _ decMcfg hh ?_ ?_
  · exact class_7 _ 448#10 0 rfl (by decide) (by decide)
  unfold decMcfg
  refine verdict_eq _ _ _ ?_ ?_
  · simp (disch := first | decide | rfl) only [Fields.common, Fields.ofHdr, List.all_append, List.all_cons, List.all_nil, mask_cat, mask_app, badSrc_bits, twoSel_two, twoSel_three, isSel_bits, imm_one, imm_two, imm_three, dst_nw, src_one, rnd_code, scope_code, size_code, fmt_code, mulpart_code, cc_code, fcc_code, votemode_code, shflmode_code, laneop_code, atomop_code, ord_code, cachehint_code, get_cat, get_app, ext_cat_lo, ext_cat_hi, ext_app_lo, ext_app_hi, ext_self, Nat.reduceSub, Nat.reduceLT, if_true, if_false, ite_true, ite_false, ofBool_get]
    simp [h1]
  · simp (disch := first | decide | rfl) only [Fields.hdr, Fields.ofHdr, src_one, get_cat, get_app, ext_cat_lo, ext_cat_hi, ext_app_lo, ext_app_hi, ext_self, Nat.reduceSub, Nat.reduceLT, if_true, if_false, ite_true, ite_false, ofBool_get, rnd_code, scope_code, size_code, fmt_code, mulpart_code, cc_code, fcc_code, votemode_code, shflmode_code, laneop_code, atomop_code, ord_code, cachehint_code, Option.getD_some, Fields.dst, dst_eta]
theorem mcfgr (h : Hdr) (d : BitVec 8) : Statement (.mcfgr h d) := by
  intro (hw : (h.wf) = true)
  have hh := hw
  refine decode_guarded _ _ decMcfgr hh ?_ ?_
  · exact class_7 _ 449#10 1 rfl (by decide) (by decide)
  unfold decMcfgr
  refine verdict_eq _ _ _ ?_ ?_
  · simp (disch := first | decide | rfl) only [Fields.common, Fields.ofHdr, List.all_append, List.all_cons, List.all_nil, mask_cat, mask_app, badSrc_bits, twoSel_two, twoSel_three, isSel_bits, imm_one, imm_two, imm_three, dst_nw, rnd_code, scope_code, size_code, fmt_code, mulpart_code, cc_code, fcc_code, votemode_code, shflmode_code, laneop_code, atomop_code, ord_code, cachehint_code, get_cat, get_app, ext_cat_lo, ext_cat_hi, ext_app_lo, ext_app_hi, ext_self, Nat.reduceSub, Nat.reduceLT, if_true, if_false, ite_true, ite_false, ofBool_get]
    simp
  · simp (disch := first | decide | rfl) only [Fields.hdr, Fields.ofHdr, get_cat, get_app, ext_cat_lo, ext_cat_hi, ext_app_lo, ext_app_hi, ext_self, Nat.reduceSub, Nat.reduceLT, if_true, if_false, ite_true, ite_false, ofBool_get, rnd_code, scope_code, size_code, fmt_code, mulpart_code, cc_code, fcc_code, votemode_code, shflmode_code, laneop_code, atomop_code, ord_code, cachehint_code, Option.getD_some, Fields.dst, dst_eta]
theorem wload (h : Hdr) (a : Src) (slot : BitVec 4) (off : BitVec 32) : Statement (.wload h a slot off) := by
  intro (hw : (h.wf && a.ok 1 false true) = true)
  simp only [Bool.and_eq_true] at hw
  obtain ⟨hh, h1⟩ := hw
  refine decode_guarded _ _ decWload hh ?_ ?_
  · exact class_7 _ 450#10 2 rfl (by decide) (by decide)
  unfold decWload
  refine verdict_eq _ _ _ ?_ ?_
  · simp (disch := first | decide | rfl) only [Fields.common, Fields.ofHdr, List.all_append, List.all_cons, List.all_nil, mask_cat, mask_app, badSrc_bits, twoSel_two, twoSel_three, isSel_bits, imm_one, imm_two, imm_three, dst_nw, src_noSel h1, rnd_code, scope_code, size_code, fmt_code, mulpart_code, cc_code, fcc_code, votemode_code, shflmode_code, laneop_code, atomop_code, ord_code, cachehint_code, get_cat, get_app, ext_cat_lo, ext_cat_hi, ext_app_lo, ext_app_hi, ext_self, Nat.reduceSub, Nat.reduceLT, if_true, if_false, ite_true, ite_false, ofBool_get]
    simp [h1]
  · simp (disch := first | decide | rfl) only [Fields.hdr, Fields.ofHdr, src_noSel h1, get_cat, get_app, ext_cat_lo, ext_cat_hi, ext_app_lo, ext_app_hi, ext_self, Nat.reduceSub, Nat.reduceLT, if_true, if_false, ite_true, ite_false, ofBool_get, rnd_code, scope_code, size_code, fmt_code, mulpart_code, cc_code, fcc_code, votemode_code, shflmode_code, laneop_code, atomop_code, ord_code, cachehint_code, Option.getD_some, Fields.dst, dst_eta]
theorem wdict (h : Hdr) (a : Src) (slot : BitVec 4) : Statement (.wdict h a slot) := by
  intro (hw : (h.wf && a.ok 1 true true) = true)
  simp only [Bool.and_eq_true] at hw
  obtain ⟨hh, h1⟩ := hw
  refine decode_guarded _ _ decWdict hh ?_ ?_
  · exact class_7 _ 451#10 3 rfl (by decide) (by decide)
  unfold decWdict
  refine verdict_eq _ _ _ ?_ ?_
  · simp (disch := first | decide | rfl) only [Fields.common, Fields.ofHdr, List.all_append, List.all_cons, List.all_nil, mask_cat, mask_app, badSrc_bits, twoSel_two, twoSel_three, isSel_bits, imm_one, imm_two, imm_three, dst_nw, src_one, rnd_code, scope_code, size_code, fmt_code, mulpart_code, cc_code, fcc_code, votemode_code, shflmode_code, laneop_code, atomop_code, ord_code, cachehint_code, get_cat, get_app, ext_cat_lo, ext_cat_hi, ext_app_lo, ext_app_hi, ext_self, Nat.reduceSub, Nat.reduceLT, if_true, if_false, ite_true, ite_false, ofBool_get]
    simp [h1]
  · simp (disch := first | decide | rfl) only [Fields.hdr, Fields.ofHdr, src_one, get_cat, get_app, ext_cat_lo, ext_cat_hi, ext_app_lo, ext_app_hi, ext_self, Nat.reduceSub, Nat.reduceLT, if_true, if_false, ite_true, ite_false, ofBool_get, rnd_code, scope_code, size_code, fmt_code, mulpart_code, cc_code, fcc_code, votemode_code, shflmode_code, laneop_code, atomop_code, ord_code, cachehint_code, Option.getD_some, Fields.dst, dst_eta]
theorem wset (h : Hdr) (a : Src) (slot : BitVec 4) : Statement (.wset h a slot) := by
  intro (hw : (h.wf && a.ok 1 true true) = true)
  simp only [Bool.and_eq_true] at hw
  obtain ⟨hh, h1⟩ := hw
  refine decode_guarded _ _ decWset hh ?_ ?_
  · exact class_7 _ 452#10 4 rfl (by decide) (by decide)
  unfold decWset
  refine verdict_eq _ _ _ ?_ ?_
  · simp (disch := first | decide | rfl) only [Fields.common, Fields.ofHdr, List.all_append, List.all_cons, List.all_nil, mask_cat, mask_app, badSrc_bits, twoSel_two, twoSel_three, isSel_bits, imm_one, imm_two, imm_three, dst_nw, src_one, rnd_code, scope_code, size_code, fmt_code, mulpart_code, cc_code, fcc_code, votemode_code, shflmode_code, laneop_code, atomop_code, ord_code, cachehint_code, get_cat, get_app, ext_cat_lo, ext_cat_hi, ext_app_lo, ext_app_hi, ext_self, Nat.reduceSub, Nat.reduceLT, if_true, if_false, ite_true, ite_false, ofBool_get]
    simp [h1]
  · simp (disch := first | decide | rfl) only [Fields.hdr, Fields.ofHdr, src_one, get_cat, get_app, ext_cat_lo, ext_cat_hi, ext_app_lo, ext_app_hi, ext_self, Nat.reduceSub, Nat.reduceLT, if_true, if_false, ite_true, ite_false, ofBool_get, rnd_code, scope_code, size_code, fmt_code, mulpart_code, cc_code, fcc_code, votemode_code, shflmode_code, laneop_code, atomop_code, ord_code, cachehint_code, Option.getD_some, Fields.dst, dst_eta]
theorem wfree (h : Hdr) (slot : BitVec 4) : Statement (.wfree h slot) := by
  intro (hw : (h.wf) = true)
  have hh := hw
  refine decode_guarded _ _ decWfree hh ?_ ?_
  · exact class_7 _ 453#10 5 rfl (by decide) (by decide)
  unfold decWfree
  refine verdict_eq _ _ _ ?_ ?_
  · simp (disch := first | decide | rfl) only [Fields.common, Fields.ofHdr, List.all_append, List.all_cons, List.all_nil, mask_cat, mask_app, badSrc_bits, twoSel_two, twoSel_three, isSel_bits, imm_one, imm_two, imm_three, dst_nw, rnd_code, scope_code, size_code, fmt_code, mulpart_code, cc_code, fcc_code, votemode_code, shflmode_code, laneop_code, atomop_code, ord_code, cachehint_code, get_cat, get_app, ext_cat_lo, ext_cat_hi, ext_app_lo, ext_app_hi, ext_self, Nat.reduceSub, Nat.reduceLT, if_true, if_false, ite_true, ite_false, ofBool_get]
    simp
  · simp (disch := first | decide | rfl) only [Fields.hdr, Fields.ofHdr, get_cat, get_app, ext_cat_lo, ext_cat_hi, ext_app_lo, ext_app_hi, ext_self, Nat.reduceSub, Nat.reduceLT, if_true, if_false, ite_true, ite_false, ofBool_get, rnd_code, scope_code, size_code, fmt_code, mulpart_code, cc_code, fcc_code, votemode_code, shflmode_code, laneop_code, atomop_code, ord_code, cachehint_code, Option.getD_some, Fields.dst, dst_eta]
theorem wqry (h : Hdr) (d : BitVec 8) (slot : BitVec 4) : Statement (.wqry h d slot) := by
  intro (hw : (h.wf) = true)
  have hh := hw
  refine decode_guarded _ _ decWqry hh ?_ ?_
  · exact class_7 _ 454#10 6 rfl (by decide) (by decide)
  unfold decWqry
  refine verdict_eq _ _ _ ?_ ?_
  · simp (disch := first | decide | rfl) only [Fields.common, Fields.ofHdr, List.all_append, List.all_cons, List.all_nil, mask_cat, mask_app, badSrc_bits, twoSel_two, twoSel_three, isSel_bits, imm_one, imm_two, imm_three, dst_nw, rnd_code, scope_code, size_code, fmt_code, mulpart_code, cc_code, fcc_code, votemode_code, shflmode_code, laneop_code, atomop_code, ord_code, cachehint_code, get_cat, get_app, ext_cat_lo, ext_cat_hi, ext_app_lo, ext_app_hi, ext_self, Nat.reduceSub, Nat.reduceLT, if_true, if_false, ite_true, ite_false, ofBool_get]
    simp
  · simp (disch := first | decide | rfl) only [Fields.hdr, Fields.ofHdr, get_cat, get_app, ext_cat_lo, ext_cat_hi, ext_app_lo, ext_app_hi, ext_self, Nat.reduceSub, Nat.reduceLT, if_true, if_false, ite_true, ite_false, ofBool_get, rnd_code, scope_code, size_code, fmt_code, mulpart_code, cc_code, fcc_code, votemode_code, shflmode_code, laneop_code, atomop_code, ord_code, cachehint_code, Option.getD_some, Fields.dst, dst_eta]
theorem mmon (h : Hdr) (d : BitVec 8) (tile : BitVec 4) (ctr : BitVec 2) (clr : Bool) : Statement (.mmon h d tile ctr clr) := by
  intro (hw : (h.wf && (ctr != 3)) = true)
  simp only [Bool.and_eq_true] at hw
  obtain ⟨hh, h1⟩ := hw
  refine decode_guarded _ _ decMmon hh ?_ ?_
  · exact class_7 _ 455#10 7 rfl (by decide) (by decide)
  unfold decMmon
  refine verdict_eq _ _ _ ?_ ?_
  · simp (disch := first | decide | rfl) only [Fields.common, Fields.ofHdr, List.all_append, List.all_cons, List.all_nil, mask_cat, mask_app, badSrc_bits, twoSel_two, twoSel_three, isSel_bits, imm_one, imm_two, imm_three, dst_nw, rnd_code, scope_code, size_code, fmt_code, mulpart_code, cc_code, fcc_code, votemode_code, shflmode_code, laneop_code, atomop_code, ord_code, cachehint_code, get_cat, get_app, ext_cat_lo, ext_cat_hi, ext_app_lo, ext_app_hi, ext_self, Nat.reduceSub, Nat.reduceLT, if_true, if_false, ite_true, ite_false, ofBool_get]
    simp_all [dst_bad]
  · simp (disch := first | decide | rfl) only [Fields.hdr, Fields.ofHdr, get_cat, get_app, ext_cat_lo, ext_cat_hi, ext_app_lo, ext_app_hi, ext_self, Nat.reduceSub, Nat.reduceLT, if_true, if_false, ite_true, ite_false, ofBool_get, rnd_code, scope_code, size_code, fmt_code, mulpart_code, cc_code, fcc_code, votemode_code, shflmode_code, laneop_code, atomop_code, ord_code, cachehint_code, Option.getD_some, Fields.dst, dst_eta]
theorem ld (h : Hdr) (u : Bool) (d : BitVec 8) (a : Src) (size : Size) (sgn : Bool) (hint : CacheHint) (off : BitVec 32) : Statement (.ld h u d a size sgn hint off) := by
  intro (hw : (h.wf && d.toNat % size.regs == 0 && a.ok 2 false false) = true)
  simp only [Bool.and_eq_true] at hw
  obtain ⟨⟨hh, h1⟩, h2⟩ := hw
  refine decode_guarded _ _ decLd hh ?_ ?_
  · exact class_8 _ 512#10 0 rfl (by decide) (by decide)
  unfold decLd
  refine verdict_eq _ _ _ ?_ ?_
  · simp (disch := first | decide | rfl) only [Fields.common, Fields.ofHdr, List.all_append, List.all_cons, List.all_nil, mask_cat, mask_app, badSrc_bits, twoSel_two, twoSel_three, isSel_bits, imm_one, imm_two, imm_three, dst_nw, src_noSel h2, rnd_code, scope_code, size_code, fmt_code, mulpart_code, cc_code, fcc_code, votemode_code, shflmode_code, laneop_code, atomop_code, ord_code, cachehint_code, get_cat, get_app, ext_cat_lo, ext_cat_hi, ext_app_lo, ext_app_hi, ext_self, Nat.reduceSub, Nat.reduceLT, if_true, if_false, ite_true, ite_false, ofBool_get]
    simp [mod_bad h1, h2]
  · simp (disch := first | decide | rfl) only [Fields.hdr, Fields.ofHdr, src_noSel h2, get_cat, get_app, ext_cat_lo, ext_cat_hi, ext_app_lo, ext_app_hi, ext_self, Nat.reduceSub, Nat.reduceLT, if_true, if_false, ite_true, ite_false, ofBool_get, rnd_code, scope_code, size_code, fmt_code, mulpart_code, cc_code, fcc_code, votemode_code, shflmode_code, laneop_code, atomop_code, ord_code, cachehint_code, Option.getD_some, Fields.dst, dst_eta]
theorem st (h : Hdr) (a : Src) (b : Src) (size : Size) (hint : CacheHint) (off : BitVec 32) : Statement (.st h a b size hint off) := by
  intro (hw : (h.wf && a.ok 2 false false && b.ok size.regs false true) = true)
  simp only [Bool.and_eq_true] at hw
  obtain ⟨⟨hh, h1⟩, h2⟩ := hw
  refine decode_guarded _ _ decSt hh ?_ ?_
  · exact class_8 _ 513#10 1 rfl (by decide) (by decide)
  unfold decSt
  refine verdict_eq _ _ _ ?_ ?_
  · simp (disch := first | decide | rfl) only [Fields.common, Fields.ofHdr, List.all_append, List.all_cons, List.all_nil, mask_cat, mask_app, badSrc_bits, twoSel_two, twoSel_three, isSel_bits, imm_one, imm_two, imm_three, dst_nw, src_noSel h1, src_noSel h2, rnd_code, scope_code, size_code, fmt_code, mulpart_code, cc_code, fcc_code, votemode_code, shflmode_code, laneop_code, atomop_code, ord_code, cachehint_code, get_cat, get_app, ext_cat_lo, ext_cat_hi, ext_app_lo, ext_app_hi, ext_self, Nat.reduceSub, Nat.reduceLT, if_true, if_false, ite_true, ite_false, ofBool_get]
    simp [h1, h2]
  · simp (disch := first | decide | rfl) only [Fields.hdr, Fields.ofHdr, src_noSel h1, src_noSel h2, get_cat, get_app, ext_cat_lo, ext_cat_hi, ext_app_lo, ext_app_hi, ext_self, Nat.reduceSub, Nat.reduceLT, if_true, if_false, ite_true, ite_false, ofBool_get, rnd_code, scope_code, size_code, fmt_code, mulpart_code, cc_code, fcc_code, votemode_code, shflmode_code, laneop_code, atomop_code, ord_code, cachehint_code, Option.getD_some, Fields.dst, dst_eta]
theorem lds (h : Hdr) (u : Bool) (d : BitVec 8) (a : Src) (size : Size) (sgn : Bool) (off : BitVec 32) : Statement (.lds h u d a size sgn off) := by
  intro (hw : (h.wf && d.toNat % size.regs == 0 && a.ok 1 false true) = true)
  simp only [Bool.and_eq_true] at hw
  obtain ⟨⟨hh, h1⟩, h2⟩ := hw
  refine decode_guarded _ _ decLds hh ?_ ?_
  · exact class_8 _ 514#10 2 rfl (by decide) (by decide)
  unfold decLds
  refine verdict_eq _ _ _ ?_ ?_
  · simp (disch := first | decide | rfl) only [Fields.common, Fields.ofHdr, List.all_append, List.all_cons, List.all_nil, mask_cat, mask_app, badSrc_bits, twoSel_two, twoSel_three, isSel_bits, imm_one, imm_two, imm_three, dst_nw, src_noSel h2, rnd_code, scope_code, size_code, fmt_code, mulpart_code, cc_code, fcc_code, votemode_code, shflmode_code, laneop_code, atomop_code, ord_code, cachehint_code, get_cat, get_app, ext_cat_lo, ext_cat_hi, ext_app_lo, ext_app_hi, ext_self, Nat.reduceSub, Nat.reduceLT, if_true, if_false, ite_true, ite_false, ofBool_get]
    simp [mod_bad h1, h2]
  · simp (disch := first | decide | rfl) only [Fields.hdr, Fields.ofHdr, src_noSel h2, get_cat, get_app, ext_cat_lo, ext_cat_hi, ext_app_lo, ext_app_hi, ext_self, Nat.reduceSub, Nat.reduceLT, if_true, if_false, ite_true, ite_false, ofBool_get, rnd_code, scope_code, size_code, fmt_code, mulpart_code, cc_code, fcc_code, votemode_code, shflmode_code, laneop_code, atomop_code, ord_code, cachehint_code, Option.getD_some, Fields.dst, dst_eta]
theorem sts (h : Hdr) (a : Src) (b : Src) (size : Size) (off : BitVec 32) : Statement (.sts h a b size off) := by
  intro (hw : (h.wf && a.ok 1 false true && b.ok size.regs false true) = true)
  simp only [Bool.and_eq_true] at hw
  obtain ⟨⟨hh, h1⟩, h2⟩ := hw
  refine decode_guarded _ _ decSts hh ?_ ?_
  · exact class_8 _ 515#10 3 rfl (by decide) (by decide)
  unfold decSts
  refine verdict_eq _ _ _ ?_ ?_
  · simp (disch := first | decide | rfl) only [Fields.common, Fields.ofHdr, List.all_append, List.all_cons, List.all_nil, mask_cat, mask_app, badSrc_bits, twoSel_two, twoSel_three, isSel_bits, imm_one, imm_two, imm_three, dst_nw, src_noSel h1, src_noSel h2, rnd_code, scope_code, size_code, fmt_code, mulpart_code, cc_code, fcc_code, votemode_code, shflmode_code, laneop_code, atomop_code, ord_code, cachehint_code, get_cat, get_app, ext_cat_lo, ext_cat_hi, ext_app_lo, ext_app_hi, ext_self, Nat.reduceSub, Nat.reduceLT, if_true, if_false, ite_true, ite_false, ofBool_get]
    simp [h1, h2]
  · simp (disch := first | decide | rfl) only [Fields.hdr, Fields.ofHdr, src_noSel h1, src_noSel h2, get_cat, get_app, ext_cat_lo, ext_cat_hi, ext_app_lo, ext_app_hi, ext_self, Nat.reduceSub, Nat.reduceLT, if_true, if_false, ite_true, ite_false, ofBool_get, rnd_code, scope_code, size_code, fmt_code, mulpart_code, cc_code, fcc_code, votemode_code, shflmode_code, laneop_code, atomop_code, ord_code, cachehint_code, Option.getD_some, Fields.dst, dst_eta]
theorem ldc (h : Hdr) (u : Bool) (d : BitVec 8) (a : Src) (size : Size) (sgn : Bool) (useA : Bool) (off : BitVec 32) : Statement (.ldc h u d a size sgn useA off) := by
  intro (hw : (h.wf && d.toNat % size.regs == 0 && a.ok 1 false true && (useA || a == Src.reg 0 false)) = true)
  simp only [Bool.and_eq_true] at hw
  obtain ⟨⟨⟨hh, h1⟩, h2⟩, h3⟩ := hw
  refine decode_guarded _ _ decLdc hh ?_ ?_
  · exact class_8 _ 516#10 4 rfl (by decide) (by decide)
  unfold decLdc
  refine verdict_eq _ _ _ ?_ ?_
  · simp (disch := first | decide | rfl) only [Fields.common, Fields.ofHdr, List.all_append, List.all_cons, List.all_nil, mask_cat, mask_app, badSrc_bits, twoSel_two, twoSel_three, isSel_bits, imm_one, imm_two, imm_three, dst_nw, src_noSel h2, rnd_code, scope_code, size_code, fmt_code, mulpart_code, cc_code, fcc_code, votemode_code, shflmode_code, laneop_code, atomop_code, ord_code, cachehint_code, get_cat, get_app, ext_cat_lo, ext_cat_hi, ext_app_lo, ext_app_hi, ext_self, Nat.reduceSub, Nat.reduceLT, if_true, if_false, ite_true, ite_false, ofBool_get]
    simp_all [dst_bad]
  · simp (disch := first | decide | rfl) only [Fields.hdr, Fields.ofHdr, src_noSel h2, get_cat, get_app, ext_cat_lo, ext_cat_hi, ext_app_lo, ext_app_hi, ext_self, Nat.reduceSub, Nat.reduceLT, if_true, if_false, ite_true, ite_false, ofBool_get, rnd_code, scope_code, size_code, fmt_code, mulpart_code, cc_code, fcc_code, votemode_code, shflmode_code, laneop_code, atomop_code, ord_code, cachehint_code, Option.getD_some, Fields.dst, dst_eta]
theorem pref (h : Hdr) (u : Bool) (a : Src) (l2 : Bool) (off : BitVec 32) : Statement (.pref h u a l2 off) := by
  intro (hw : (h.wf && a.ok 2 false false) = true)
  simp only [Bool.and_eq_true] at hw
  obtain ⟨hh, h1⟩ := hw
  refine decode_guarded _ _ decPref hh ?_ ?_
  · exact class_8 _ 517#10 5 rfl (by decide) (by decide)
  unfold decPref
  refine verdict_eq _ _ _ ?_ ?_
  · simp (disch := first | decide | rfl) only [Fields.common, Fields.ofHdr, List.all_append, List.all_cons, List.all_nil, mask_cat, mask_app, badSrc_bits, twoSel_two, twoSel_three, isSel_bits, imm_one, imm_two, imm_three, dst_nw, src_noSel h1, rnd_code, scope_code, size_code, fmt_code, mulpart_code, cc_code, fcc_code, votemode_code, shflmode_code, laneop_code, atomop_code, ord_code, cachehint_code, get_cat, get_app, ext_cat_lo, ext_cat_hi, ext_app_lo, ext_app_hi, ext_self, Nat.reduceSub, Nat.reduceLT, if_true, if_false, ite_true, ite_false, ofBool_get]
    simp [h1]
  · simp (disch := first | decide | rfl) only [Fields.hdr, Fields.ofHdr, src_noSel h1, get_cat, get_app, ext_cat_lo, ext_cat_hi, ext_app_lo, ext_app_hi, ext_self, Nat.reduceSub, Nat.reduceLT, if_true, if_false, ite_true, ite_false, ofBool_get, rnd_code, scope_code, size_code, fmt_code, mulpart_code, cc_code, fcc_code, votemode_code, shflmode_code, laneop_code, atomop_code, ord_code, cachehint_code, Option.getD_some, Fields.dst, dst_eta]
theorem pres (h : Hdr) (pd : BitVec 3) (a : Src) (off : BitVec 32) : Statement (.pres h pd a off) := by
  intro (hw : (h.wf && a.ok 1 false true) = true)
  simp only [Bool.and_eq_true] at hw
  obtain ⟨hh, h1⟩ := hw
  refine decode_guarded _ _ decPres hh ?_ ?_
  · exact class_8 _ 518#10 6 rfl (by decide) (by decide)
  unfold decPres
  refine verdict_eq _ _ _ ?_ ?_
  · simp (disch := first | decide | rfl) only [Fields.common, Fields.ofHdr, List.all_append, List.all_cons, List.all_nil, mask_cat, mask_app, badSrc_bits, twoSel_two, twoSel_three, isSel_bits, imm_one, imm_two, imm_three, dst_nw, src_noSel h1, rnd_code, scope_code, size_code, fmt_code, mulpart_code, cc_code, fcc_code, votemode_code, shflmode_code, laneop_code, atomop_code, ord_code, cachehint_code, get_cat, get_app, ext_cat_lo, ext_cat_hi, ext_app_lo, ext_app_hi, ext_self, Nat.reduceSub, Nat.reduceLT, if_true, if_false, ite_true, ite_false, ofBool_get]
    simp [h1]
  · simp (disch := first | decide | rfl) only [Fields.hdr, Fields.ofHdr, src_noSel h1, get_cat, get_app, ext_cat_lo, ext_cat_hi, ext_app_lo, ext_app_hi, ext_self, Nat.reduceSub, Nat.reduceLT, if_true, if_false, ite_true, ite_false, ofBool_get, rnd_code, scope_code, size_code, fmt_code, mulpart_code, cc_code, fcc_code, votemode_code, shflmode_code, laneop_code, atomop_code, ord_code, cachehint_code, Option.getD_some, Fields.dst, dst_eta]
theorem pclr (h : Hdr) (a : Src) (b : Src) (set : Bool) (off : BitVec 32) : Statement (.pclr h a b set off) := by
  intro (hw : (h.wf && a.ok 1 false true && b.ok 1 false true) = true)
  simp only [Bool.and_eq_true] at hw
  obtain ⟨⟨hh, h1⟩, h2⟩ := hw
  refine decode_guarded _ _ decPclr hh ?_ ?_
  · exact class_8 _ 519#10 7 rfl (by decide) (by decide)
  unfold decPclr
  refine verdict_eq _ _ _ ?_ ?_
  · simp (disch := first | decide | rfl) only [Fields.common, Fields.ofHdr, List.all_append, List.all_cons, List.all_nil, mask_cat, mask_app, badSrc_bits, twoSel_two, twoSel_three, isSel_bits, imm_one, imm_two, imm_three, dst_nw, src_noSel h1, src_noSel h2, rnd_code, scope_code, size_code, fmt_code, mulpart_code, cc_code, fcc_code, votemode_code, shflmode_code, laneop_code, atomop_code, ord_code, cachehint_code, get_cat, get_app, ext_cat_lo, ext_cat_hi, ext_app_lo, ext_app_hi, ext_self, Nat.reduceSub, Nat.reduceLT, if_true, if_false, ite_true, ite_false, ofBool_get]
    simp [h1, h2]
  · simp (disch := first | decide | rfl) only [Fields.hdr, Fields.ofHdr, src_noSel h1, src_noSel h2, get_cat, get_app, ext_cat_lo, ext_cat_hi, ext_app_lo, ext_app_hi, ext_self, Nat.reduceSub, Nat.reduceLT, if_true, if_false, ite_true, ite_false, ofBool_get, rnd_code, scope_code, size_code, fmt_code, mulpart_code, cc_code, fcc_code, votemode_code, shflmode_code, laneop_code, atomop_code, ord_code, cachehint_code, Option.getD_some, Fields.dst, dst_eta]
theorem cwb (h : Hdr) (a : Src) (all : Bool) (off : BitVec 32) : Statement (.cwb h a all off) := by
  intro (hw : (h.wf && a.ok 2 false false && (!all || (a == Src.reg 0 false && off == 0))) = true)
  simp only [Bool.and_eq_true] at hw
  obtain ⟨⟨hh, h1⟩, h2⟩ := hw
  refine decode_guarded _ _ decCwb hh ?_ ?_
  · exact class_8 _ 520#10 8 rfl (by decide) (by decide)
  unfold decCwb
  refine verdict_eq _ _ _ ?_ ?_
  · simp (disch := first | decide | rfl) only [Fields.common, Fields.ofHdr, List.all_append, List.all_cons, List.all_nil, mask_cat, mask_app, badSrc_bits, twoSel_two, twoSel_three, isSel_bits, imm_one, imm_two, imm_three, dst_nw, src_noSel h1, rnd_code, scope_code, size_code, fmt_code, mulpart_code, cc_code, fcc_code, votemode_code, shflmode_code, laneop_code, atomop_code, ord_code, cachehint_code, get_cat, get_app, ext_cat_lo, ext_cat_hi, ext_app_lo, ext_app_hi, ext_self, Nat.reduceSub, Nat.reduceLT, if_true, if_false, ite_true, ite_false, ofBool_get]
    simp_all [dst_bad]
  · simp (disch := first | decide | rfl) only [Fields.hdr, Fields.ofHdr, src_noSel h1, get_cat, get_app, ext_cat_lo, ext_cat_hi, ext_app_lo, ext_app_hi, ext_self, Nat.reduceSub, Nat.reduceLT, if_true, if_false, ite_true, ite_false, ofBool_get, rnd_code, scope_code, size_code, fmt_code, mulpart_code, cc_code, fcc_code, votemode_code, shflmode_code, laneop_code, atomop_code, ord_code, cachehint_code, Option.getD_some, Fields.dst, dst_eta]
theorem cinv (h : Hdr) (a : Src) (all : Bool) (off : BitVec 32) : Statement (.cinv h a all off) := by
  intro (hw : (h.wf && a.ok 2 false false && (!all || (a == Src.reg 0 false && off == 0))) = true)
  simp only [Bool.and_eq_true] at hw
  obtain ⟨⟨hh, h1⟩, h2⟩ := hw
  refine decode_guarded _ _ decCinv hh ?_ ?_
  · exact class_8 _ 521#10 9 rfl (by decide) (by decide)
  unfold decCinv
  refine verdict_eq _ _ _ ?_ ?_
  · simp (disch := first | decide | rfl) only [Fields.common, Fields.ofHdr, List.all_append, List.all_cons, List.all_nil, mask_cat, mask_app, badSrc_bits, twoSel_two, twoSel_three, isSel_bits, imm_one, imm_two, imm_three, dst_nw, src_noSel h1, rnd_code, scope_code, size_code, fmt_code, mulpart_code, cc_code, fcc_code, votemode_code, shflmode_code, laneop_code, atomop_code, ord_code, cachehint_code, get_cat, get_app, ext_cat_lo, ext_cat_hi, ext_app_lo, ext_app_hi, ext_self, Nat.reduceSub, Nat.reduceLT, if_true, if_false, ite_true, ite_false, ofBool_get]
    simp_all [dst_bad]
  · simp (disch := first | decide | rfl) only [Fields.hdr, Fields.ofHdr, src_noSel h1, get_cat, get_app, ext_cat_lo, ext_cat_hi, ext_app_lo, ext_app_hi, ext_self, Nat.reduceSub, Nat.reduceLT, if_true, if_false, ite_true, ite_false, ofBool_get, rnd_code, scope_code, size_code, fmt_code, mulpart_code, cc_code, fcc_code, votemode_code, shflmode_code, laneop_code, atomop_code, ord_code, cachehint_code, Option.getD_some, Fields.dst, dst_eta]
theorem lock (h : Hdr) (d : BitVec 8) (a : Src) (b : Src) (off : BitVec 32) : Statement (.lock h d a b off) := by
  intro (hw : (h.wf && a.ok 2 false false && b.ok 1 false true) = true)
  simp only [Bool.and_eq_true] at hw
  obtain ⟨⟨hh, h1⟩, h2⟩ := hw
  refine decode_guarded _ _ decLock hh ?_ ?_
  · exact class_8 _ 522#10 10 rfl (by decide) (by decide)
  unfold decLock
  refine verdict_eq _ _ _ ?_ ?_
  · simp (disch := first | decide | rfl) only [Fields.common, Fields.ofHdr, List.all_append, List.all_cons, List.all_nil, mask_cat, mask_app, badSrc_bits, twoSel_two, twoSel_three, isSel_bits, imm_one, imm_two, imm_three, dst_nw, src_noSel h1, src_noSel h2, rnd_code, scope_code, size_code, fmt_code, mulpart_code, cc_code, fcc_code, votemode_code, shflmode_code, laneop_code, atomop_code, ord_code, cachehint_code, get_cat, get_app, ext_cat_lo, ext_cat_hi, ext_app_lo, ext_app_hi, ext_self, Nat.reduceSub, Nat.reduceLT, if_true, if_false, ite_true, ite_false, ofBool_get]
    simp [h1, h2]
  · simp (disch := first | decide | rfl) only [Fields.hdr, Fields.ofHdr, src_noSel h1, src_noSel h2, get_cat, get_app, ext_cat_lo, ext_cat_hi, ext_app_lo, ext_app_hi, ext_self, Nat.reduceSub, Nat.reduceLT, if_true, if_false, ite_true, ite_false, ofBool_get, rnd_code, scope_code, size_code, fmt_code, mulpart_code, cc_code, fcc_code, votemode_code, shflmode_code, laneop_code, atomop_code, ord_code, cachehint_code, Option.getD_some, Fields.dst, dst_eta]
theorem unlock (h : Hdr) (d : BitVec 8) (a : Src) (b : Src) (off : BitVec 32) : Statement (.unlock h d a b off) := by
  intro (hw : (h.wf && a.ok 2 false false && b.ok 1 false true) = true)
  simp only [Bool.and_eq_true] at hw
  obtain ⟨⟨hh, h1⟩, h2⟩ := hw
  refine decode_guarded _ _ decUnlock hh ?_ ?_
  · exact class_8 _ 523#10 11 rfl (by decide) (by decide)
  unfold decUnlock
  refine verdict_eq _ _ _ ?_ ?_
  · simp (disch := first | decide | rfl) only [Fields.common, Fields.ofHdr, List.all_append, List.all_cons, List.all_nil, mask_cat, mask_app, badSrc_bits, twoSel_two, twoSel_three, isSel_bits, imm_one, imm_two, imm_three, dst_nw, src_noSel h1, src_noSel h2, rnd_code, scope_code, size_code, fmt_code, mulpart_code, cc_code, fcc_code, votemode_code, shflmode_code, laneop_code, atomop_code, ord_code, cachehint_code, get_cat, get_app, ext_cat_lo, ext_cat_hi, ext_app_lo, ext_app_hi, ext_self, Nat.reduceSub, Nat.reduceLT, if_true, if_false, ite_true, ite_false, ofBool_get]
    simp [h1, h2]
  · simp (disch := first | decide | rfl) only [Fields.hdr, Fields.ofHdr, src_noSel h1, src_noSel h2, get_cat, get_app, ext_cat_lo, ext_cat_hi, ext_app_lo, ext_app_hi, ext_self, Nat.reduceSub, Nat.reduceLT, if_true, if_false, ite_true, ite_false, ofBool_get, rnd_code, scope_code, size_code, fmt_code, mulpart_code, cc_code, fcc_code, votemode_code, shflmode_code, laneop_code, atomop_code, ord_code, cachehint_code, Option.getD_some, Fields.dst, dst_eta]
theorem atom (h : Hdr) (d : BitVec 8) (a : Src) (b : Src) (op : AtomOp) (x2 : Bool) (ord : Ord) (scope : Scope) (off : BitVec 32) : Statement (.atom h d a b op x2 ord scope off) := by
  intro (hw : (h.wf && d.toNat % (if x2 then 2 else 1) == 0 && a.ok 2 false false && b.ok ((if x2 then 2 else 1) * (if op = AtomOp.cas then 2 else 1)) false true && (op != AtomOp.fadd || !x2)) = true)
  simp only [Bool.and_eq_true] at hw
  obtain ⟨⟨⟨⟨hh, h1⟩, h2⟩, h3⟩, h4⟩ := hw
  refine decode_guarded _ _ decAtom hh ?_ ?_
  · exact class_9 _ 576#10 0 rfl (by decide) (by decide)
  unfold decAtom
  refine verdict_eq _ _ _ ?_ ?_
  · simp (disch := first | decide | rfl) only [Fields.common, Fields.ofHdr, List.all_append, List.all_cons, List.all_nil, mask_cat, mask_app, badSrc_bits, twoSel_two, twoSel_three, isSel_bits, imm_one, imm_two, imm_three, dst_nw, src_noSel h2, src_noSel h3, rnd_code, scope_code, size_code, fmt_code, mulpart_code, cc_code, fcc_code, votemode_code, shflmode_code, laneop_code, atomop_code, ord_code, cachehint_code, get_cat, get_app, ext_cat_lo, ext_cat_hi, ext_app_lo, ext_app_hi, ext_self, Nat.reduceSub, Nat.reduceLT, if_true, if_false, ite_true, ite_false, ofBool_get]
    simp_all [dst_bad]
  · simp (disch := first | decide | rfl) only [Fields.hdr, Fields.ofHdr, src_noSel h2, src_noSel h3, get_cat, get_app, ext_cat_lo, ext_cat_hi, ext_app_lo, ext_app_hi, ext_self, Nat.reduceSub, Nat.reduceLT, if_true, if_false, ite_true, ite_false, ofBool_get, rnd_code, scope_code, size_code, fmt_code, mulpart_code, cc_code, fcc_code, votemode_code, shflmode_code, laneop_code, atomop_code, ord_code, cachehint_code, Option.getD_some, Fields.dst, dst_eta]
theorem red (h : Hdr) (a : Src) (b : Src) (op : AtomOp) (x2 : Bool) (ord : Ord) (scope : Scope) (off : BitVec 32) : Statement (.red h a b op x2 ord scope off) := by
  intro (hw : (h.wf && a.ok 2 false false && b.ok ((if x2 then 2 else 1) * (if op = AtomOp.cas then 2 else 1)) false true && (op != AtomOp.fadd || !x2) && (op != AtomOp.exch && op != AtomOp.cas) && (ord != Ord.acq && ord != Ord.ar)) = true)
  simp only [Bool.and_eq_true] at hw
  obtain ⟨⟨⟨⟨⟨hh, h1⟩, h2⟩, h3⟩, h4⟩, h5⟩ := hw
  refine decode_guarded _ _ decRed hh ?_ ?_
  · exact class_9 _ 577#10 1 rfl (by decide) (by decide)
  unfold decRed
  refine verdict_eq _ _ _ ?_ ?_
  · simp (disch := first | decide | rfl) only [Fields.common, Fields.ofHdr, List.all_append, List.all_cons, List.all_nil, mask_cat, mask_app, badSrc_bits, twoSel_two, twoSel_three, isSel_bits, imm_one, imm_two, imm_three, dst_nw, src_noSel h1, src_noSel h2, rnd_code, scope_code, size_code, fmt_code, mulpart_code, cc_code, fcc_code, votemode_code, shflmode_code, laneop_code, atomop_code, ord_code, cachehint_code, get_cat, get_app, ext_cat_lo, ext_cat_hi, ext_app_lo, ext_app_hi, ext_self, Nat.reduceSub, Nat.reduceLT, if_true, if_false, ite_true, ite_false, ofBool_get]
    simp_all [dst_bad]
  · simp (disch := first | decide | rfl) only [Fields.hdr, Fields.ofHdr, src_noSel h1, src_noSel h2, get_cat, get_app, ext_cat_lo, ext_cat_hi, ext_app_lo, ext_app_hi, ext_self, Nat.reduceSub, Nat.reduceLT, if_true, if_false, ite_true, ite_false, ofBool_get, rnd_code, scope_code, size_code, fmt_code, mulpart_code, cc_code, fcc_code, votemode_code, shflmode_code, laneop_code, atomop_code, ord_code, cachehint_code, Option.getD_some, Fields.dst, dst_eta]
theorem ldacq (h : Hdr) (d : BitVec 8) (a : Src) (size : Size) (sgn : Bool) (scope : Scope) (off : BitVec 32) : Statement (.ldacq h d a size sgn scope off) := by
  intro (hw : (h.wf && d.toNat % size.regs == 0 && a.ok 2 false false && (size != Size.s128)) = true)
  simp only [Bool.and_eq_true] at hw
  obtain ⟨⟨⟨hh, h1⟩, h2⟩, h3⟩ := hw
  refine decode_guarded _ _ decLdacq hh ?_ ?_
  · exact class_9 _ 578#10 2 rfl (by decide) (by decide)
  unfold decLdacq
  refine verdict_eq _ _ _ ?_ ?_
  · simp (disch := first | decide | rfl) only [Fields.common, Fields.ofHdr, List.all_append, List.all_cons, List.all_nil, mask_cat, mask_app, badSrc_bits, twoSel_two, twoSel_three, isSel_bits, imm_one, imm_two, imm_three, dst_nw, src_noSel h2, rnd_code, scope_code, size_code, fmt_code, mulpart_code, cc_code, fcc_code, votemode_code, shflmode_code, laneop_code, atomop_code, ord_code, cachehint_code, get_cat, get_app, ext_cat_lo, ext_cat_hi, ext_app_lo, ext_app_hi, ext_self, Nat.reduceSub, Nat.reduceLT, if_true, if_false, ite_true, ite_false, ofBool_get]
    simp [mod_bad h1, h2, ne_ok h3]
  · simp (disch := first | decide | rfl) only [Fields.hdr, Fields.ofHdr, src_noSel h2, get_cat, get_app, ext_cat_lo, ext_cat_hi, ext_app_lo, ext_app_hi, ext_self, Nat.reduceSub, Nat.reduceLT, if_true, if_false, ite_true, ite_false, ofBool_get, rnd_code, scope_code, size_code, fmt_code, mulpart_code, cc_code, fcc_code, votemode_code, shflmode_code, laneop_code, atomop_code, ord_code, cachehint_code, Option.getD_some, Fields.dst, dst_eta]
theorem strel (h : Hdr) (a : Src) (b : Src) (size : Size) (scope : Scope) (off : BitVec 32) : Statement (.strel h a b size scope off) := by
  intro (hw : (h.wf && a.ok 2 false false && b.ok size.regs false true && (size != Size.s128)) = true)
  simp only [Bool.and_eq_true] at hw
  obtain ⟨⟨⟨hh, h1⟩, h2⟩, h3⟩ := hw
  refine decode_guarded _ _ decStrel hh ?_ ?_
  · exact class_9 _ 579#10 3 rfl (by decide) (by decide)
  unfold decStrel
  refine verdict_eq _ _ _ ?_ ?_
  · simp (disch := first | decide | rfl) only [Fields.common, Fields.ofHdr, List.all_append, List.all_cons, List.all_nil, mask_cat, mask_app, badSrc_bits, twoSel_two, twoSel_three, isSel_bits, imm_one, imm_two, imm_three, dst_nw, src_noSel h1, src_noSel h2, rnd_code, scope_code, size_code, fmt_code, mulpart_code, cc_code, fcc_code, votemode_code, shflmode_code, laneop_code, atomop_code, ord_code, cachehint_code, get_cat, get_app, ext_cat_lo, ext_cat_hi, ext_app_lo, ext_app_hi, ext_self, Nat.reduceSub, Nat.reduceLT, if_true, if_false, ite_true, ite_false, ofBool_get]
    simp [h1, h2, ne_ok h3]
  · simp (disch := first | decide | rfl) only [Fields.hdr, Fields.ofHdr, src_noSel h1, src_noSel h2, get_cat, get_app, ext_cat_lo, ext_cat_hi, ext_app_lo, ext_app_hi, ext_self, Nat.reduceSub, Nat.reduceLT, if_true, if_false, ite_true, ite_false, ofBool_get, rnd_code, scope_code, size_code, fmt_code, mulpart_code, cc_code, fcc_code, votemode_code, shflmode_code, laneop_code, atomop_code, ord_code, cachehint_code, Option.getD_some, Fields.dst, dst_eta]
theorem fence (h : Hdr) (scope : Scope) : Statement (.fence h scope) := by
  intro (hw : (h.wf) = true)
  have hh := hw
  refine decode_guarded _ _ decFence hh ?_ ?_
  · exact class_9 _ 580#10 4 rfl (by decide) (by decide)
  unfold decFence
  refine verdict_eq _ _ _ ?_ ?_
  · simp (disch := first | decide | rfl) only [Fields.common, Fields.ofHdr, List.all_append, List.all_cons, List.all_nil, mask_cat, mask_app, badSrc_bits, twoSel_two, twoSel_three, isSel_bits, imm_one, imm_two, imm_three, dst_nw, rnd_code, scope_code, size_code, fmt_code, mulpart_code, cc_code, fcc_code, votemode_code, shflmode_code, laneop_code, atomop_code, ord_code, cachehint_code, get_cat, get_app, ext_cat_lo, ext_cat_hi, ext_app_lo, ext_app_hi, ext_self, Nat.reduceSub, Nat.reduceLT, if_true, if_false, ite_true, ite_false, ofBool_get]
    simp
  · simp (disch := first | decide | rfl) only [Fields.hdr, Fields.ofHdr, get_cat, get_app, ext_cat_lo, ext_cat_hi, ext_app_lo, ext_app_hi, ext_self, Nat.reduceSub, Nat.reduceLT, if_true, if_false, ite_true, ite_false, ofBool_get, rnd_code, scope_code, size_code, fmt_code, mulpart_code, cc_code, fcc_code, votemode_code, shflmode_code, laneop_code, atomop_code, ord_code, cachehint_code, Option.getD_some, Fields.dst, dst_eta]
theorem waitv (h : Hdr) (d : BitVec 8) (a : Src) (b : Src) (cc : Cc) (sgn : Bool) (x2 : Bool) (scope : Scope) (off : BitVec 32) : Statement (.waitv h d a b cc sgn x2 scope off) := by
  intro (hw : (h.wf && d.toNat % (if x2 then 2 else 1) == 0 && a.ok 2 false false && b.ok (if x2 then 2 else 1) false true) = true)
  simp only [Bool.and_eq_true] at hw
  obtain ⟨⟨⟨hh, h1⟩, h2⟩, h3⟩ := hw
  refine decode_guarded _ _ decWaitv hh ?_ ?_
  · exact class_9 _ 581#10 5 rfl (by decide) (by decide)
  unfold decWaitv
  refine verdict_eq _ _ _ ?_ ?_
  · simp (disch := first | decide | rfl) only [Fields.common, Fields.ofHdr, List.all_append, List.all_cons, List.all_nil, mask_cat, mask_app, badSrc_bits, twoSel_two, twoSel_three, isSel_bits, imm_one, imm_two, imm_three, dst_nw, src_noSel h2, src_noSel h3, rnd_code, scope_code, size_code, fmt_code, mulpart_code, cc_code, fcc_code, votemode_code, shflmode_code, laneop_code, atomop_code, ord_code, cachehint_code, get_cat, get_app, ext_cat_lo, ext_cat_hi, ext_app_lo, ext_app_hi, ext_self, Nat.reduceSub, Nat.reduceLT, if_true, if_false, ite_true, ite_false, ofBool_get]
    simp [mod_bad h1, h2, h3]
  · simp (disch := first | decide | rfl) only [Fields.hdr, Fields.ofHdr, src_noSel h2, src_noSel h3, get_cat, get_app, ext_cat_lo, ext_cat_hi, ext_app_lo, ext_app_hi, ext_self, Nat.reduceSub, Nat.reduceLT, if_true, if_false, ite_true, ite_false, ofBool_get, rnd_code, scope_code, size_code, fmt_code, mulpart_code, cc_code, fcc_code, votemode_code, shflmode_code, laneop_code, atomop_code, ord_code, cachehint_code, Option.getD_some, Fields.dst, dst_eta]
theorem hbpub (h : Hdr) (a : Src) (scope : Scope) (off : BitVec 32) : Statement (.hbpub h a scope off) := by
  intro (hw : (h.wf && a.ok 2 false false) = true)
  simp only [Bool.and_eq_true] at hw
  obtain ⟨hh, h1⟩ := hw
  refine decode_guarded _ _ decHbpub hh ?_ ?_
  · exact class_9 _ 582#10 6 rfl (by decide) (by decide)
  unfold decHbpub
  refine verdict_eq _ _ _ ?_ ?_
  · simp (disch := first | decide | rfl) only [Fields.common, Fields.ofHdr, List.all_append, List.all_cons, List.all_nil, mask_cat, mask_app, badSrc_bits, twoSel_two, twoSel_three, isSel_bits, imm_one, imm_two, imm_three, dst_nw, src_noSel h1, rnd_code, scope_code, size_code, fmt_code, mulpart_code, cc_code, fcc_code, votemode_code, shflmode_code, laneop_code, atomop_code, ord_code, cachehint_code, get_cat, get_app, ext_cat_lo, ext_cat_hi, ext_app_lo, ext_app_hi, ext_self, Nat.reduceSub, Nat.reduceLT, if_true, if_false, ite_true, ite_false, ofBool_get]
    simp [h1]
  · simp (disch := first | decide | rfl) only [Fields.hdr, Fields.ofHdr, src_noSel h1, get_cat, get_app, ext_cat_lo, ext_cat_hi, ext_app_lo, ext_app_hi, ext_self, Nat.reduceSub, Nat.reduceLT, if_true, if_false, ite_true, ite_false, ofBool_get, rnd_code, scope_code, size_code, fmt_code, mulpart_code, cc_code, fcc_code, votemode_code, shflmode_code, laneop_code, atomop_code, ord_code, cachehint_code, Option.getD_some, Fields.dst, dst_eta]
theorem hbjoin (h : Hdr) (d : BitVec 8) (a : Src) (scope : Scope) (off : BitVec 32) : Statement (.hbjoin h d a scope off) := by
  intro (hw : (h.wf && a.ok 2 false false) = true)
  simp only [Bool.and_eq_true] at hw
  obtain ⟨hh, h1⟩ := hw
  refine decode_guarded _ _ decHbjoin hh ?_ ?_
  · exact class_9 _ 583#10 7 rfl (by decide) (by decide)
  unfold decHbjoin
  refine verdict_eq _ _ _ ?_ ?_
  · simp (disch := first | decide | rfl) only [Fields.common, Fields.ofHdr, List.all_append, List.all_cons, List.all_nil, mask_cat, mask_app, badSrc_bits, twoSel_two, twoSel_three, isSel_bits, imm_one, imm_two, imm_three, dst_nw, src_noSel h1, rnd_code, scope_code, size_code, fmt_code, mulpart_code, cc_code, fcc_code, votemode_code, shflmode_code, laneop_code, atomop_code, ord_code, cachehint_code, get_cat, get_app, ext_cat_lo, ext_cat_hi, ext_app_lo, ext_app_hi, ext_self, Nat.reduceSub, Nat.reduceLT, if_true, if_false, ite_true, ite_false, ofBool_get]
    simp [h1]
  · simp (disch := first | decide | rfl) only [Fields.hdr, Fields.ofHdr, src_noSel h1, get_cat, get_app, ext_cat_lo, ext_cat_hi, ext_app_lo, ext_app_hi, ext_self, Nat.reduceSub, Nat.reduceLT, if_true, if_false, ite_true, ite_false, ofBool_get, rnd_code, scope_code, size_code, fmt_code, mulpart_code, cc_code, fcc_code, votemode_code, shflmode_code, laneop_code, atomop_code, ord_code, cachehint_code, Option.getD_some, Fields.dst, dst_eta]
theorem racectlTrap (h : Hdr) : Statement (.racectlTrap h) := by
  intro (hw : (h.wf) = true)
  have hh := hw
  refine decode_guarded _ _ decRacectlTrap hh ?_ ?_
  · refine (class_9 _ 584#10 8 rfl (by decide) (by decide)).trans ?_
    simp (disch := decide) only [decClass9, Fields.ofHdr, BitVec.reduceExtractLsb', BitVec.toNat_ofNat, BitVec.reduceToNat, get_cat, get_app, ext_cat_lo, ext_cat_hi, ext_app_lo, ext_app_hi, ext_self, Nat.reduceSub, Nat.reduceLT, if_true, if_false, ite_true, ite_false, ofBool_get]
  unfold decRacectlTrap
  refine verdict_eq _ _ _ ?_ ?_
  · simp (disch := first | decide | rfl) only [Fields.common, Fields.ofHdr, List.all_append, List.all_cons, List.all_nil, mask_cat, mask_app, badSrc_bits, twoSel_two, twoSel_three, isSel_bits, imm_one, imm_two, imm_three, dst_nw, rnd_code, scope_code, size_code, fmt_code, mulpart_code, cc_code, fcc_code, votemode_code, shflmode_code, laneop_code, atomop_code, ord_code, cachehint_code, get_cat, get_app, ext_cat_lo, ext_cat_hi, ext_app_lo, ext_app_hi, ext_self, Nat.reduceSub, Nat.reduceLT, if_true, if_false, ite_true, ite_false, ofBool_get]
    simp
  · simp (disch := first | decide | rfl) only [Fields.hdr, Fields.ofHdr, get_cat, get_app, ext_cat_lo, ext_cat_hi, ext_app_lo, ext_app_hi, ext_self, Nat.reduceSub, Nat.reduceLT, if_true, if_false, ite_true, ite_false, ofBool_get, rnd_code, scope_code, size_code, fmt_code, mulpart_code, cc_code, fcc_code, votemode_code, shflmode_code, laneop_code, atomop_code, ord_code, cachehint_code, Option.getD_some, Fields.dst, dst_eta]
theorem racectlReport (h : Hdr) : Statement (.racectlReport h) := by
  intro (hw : (h.wf) = true)
  have hh := hw
  refine decode_guarded _ _ decRacectlReport hh ?_ ?_
  · refine (class_9 _ 584#10 8 rfl (by decide) (by decide)).trans ?_
    simp (disch := decide) only [decClass9, Fields.ofHdr, BitVec.reduceExtractLsb', BitVec.toNat_ofNat, BitVec.reduceToNat, get_cat, get_app, ext_cat_lo, ext_cat_hi, ext_app_lo, ext_app_hi, ext_self, Nat.reduceSub, Nat.reduceLT, if_true, if_false, ite_true, ite_false, ofBool_get]
  unfold decRacectlReport
  refine verdict_eq _ _ _ ?_ ?_
  · simp (disch := first | decide | rfl) only [Fields.common, Fields.ofHdr, List.all_append, List.all_cons, List.all_nil, mask_cat, mask_app, badSrc_bits, twoSel_two, twoSel_three, isSel_bits, imm_one, imm_two, imm_three, dst_nw, rnd_code, scope_code, size_code, fmt_code, mulpart_code, cc_code, fcc_code, votemode_code, shflmode_code, laneop_code, atomop_code, ord_code, cachehint_code, get_cat, get_app, ext_cat_lo, ext_cat_hi, ext_app_lo, ext_app_hi, ext_self, Nat.reduceSub, Nat.reduceLT, if_true, if_false, ite_true, ite_false, ofBool_get]
    simp
  · simp (disch := first | decide | rfl) only [Fields.hdr, Fields.ofHdr, get_cat, get_app, ext_cat_lo, ext_cat_hi, ext_app_lo, ext_app_hi, ext_self, Nat.reduceSub, Nat.reduceLT, if_true, if_false, ite_true, ite_false, ofBool_get, rnd_code, scope_code, size_code, fmt_code, mulpart_code, cc_code, fcc_code, votemode_code, shflmode_code, laneop_code, atomop_code, ord_code, cachehint_code, Option.getD_some, Fields.dst, dst_eta]
theorem racectlOff (h : Hdr) : Statement (.racectlOff h) := by
  intro (hw : (h.wf) = true)
  have hh := hw
  refine decode_guarded _ _ decRacectlOff hh ?_ ?_
  · refine (class_9 _ 584#10 8 rfl (by decide) (by decide)).trans ?_
    simp (disch := decide) only [decClass9, Fields.ofHdr, BitVec.reduceExtractLsb', BitVec.toNat_ofNat, BitVec.reduceToNat, get_cat, get_app, ext_cat_lo, ext_cat_hi, ext_app_lo, ext_app_hi, ext_self, Nat.reduceSub, Nat.reduceLT, if_true, if_false, ite_true, ite_false, ofBool_get]
  unfold decRacectlOff
  refine verdict_eq _ _ _ ?_ ?_
  · simp (disch := first | decide | rfl) only [Fields.common, Fields.ofHdr, List.all_append, List.all_cons, List.all_nil, mask_cat, mask_app, badSrc_bits, twoSel_two, twoSel_three, isSel_bits, imm_one, imm_two, imm_three, dst_nw, rnd_code, scope_code, size_code, fmt_code, mulpart_code, cc_code, fcc_code, votemode_code, shflmode_code, laneop_code, atomop_code, ord_code, cachehint_code, get_cat, get_app, ext_cat_lo, ext_cat_hi, ext_app_lo, ext_app_hi, ext_self, Nat.reduceSub, Nat.reduceLT, if_true, if_false, ite_true, ite_false, ofBool_get]
    simp
  · simp (disch := first | decide | rfl) only [Fields.hdr, Fields.ofHdr, get_cat, get_app, ext_cat_lo, ext_cat_hi, ext_app_lo, ext_app_hi, ext_self, Nat.reduceSub, Nat.reduceLT, if_true, if_false, ite_true, ite_false, ofBool_get, rnd_code, scope_code, size_code, fmt_code, mulpart_code, cc_code, fcc_code, votemode_code, shflmode_code, laneop_code, atomop_code, ord_code, cachehint_code, Option.getD_some, Fields.dst, dst_eta]
theorem racectlOn (h : Hdr) : Statement (.racectlOn h) := by
  intro (hw : (h.wf) = true)
  have hh := hw
  refine decode_guarded _ _ decRacectlOn hh ?_ ?_
  · refine (class_9 _ 584#10 8 rfl (by decide) (by decide)).trans ?_
    simp (disch := decide) only [decClass9, Fields.ofHdr, BitVec.reduceExtractLsb', BitVec.toNat_ofNat, BitVec.reduceToNat, get_cat, get_app, ext_cat_lo, ext_cat_hi, ext_app_lo, ext_app_hi, ext_self, Nat.reduceSub, Nat.reduceLT, if_true, if_false, ite_true, ite_false, ofBool_get]
  unfold decRacectlOn
  refine verdict_eq _ _ _ ?_ ?_
  · simp (disch := first | decide | rfl) only [Fields.common, Fields.ofHdr, List.all_append, List.all_cons, List.all_nil, mask_cat, mask_app, badSrc_bits, twoSel_two, twoSel_three, isSel_bits, imm_one, imm_two, imm_three, dst_nw, rnd_code, scope_code, size_code, fmt_code, mulpart_code, cc_code, fcc_code, votemode_code, shflmode_code, laneop_code, atomop_code, ord_code, cachehint_code, get_cat, get_app, ext_cat_lo, ext_cat_hi, ext_app_lo, ext_app_hi, ext_self, Nat.reduceSub, Nat.reduceLT, if_true, if_false, ite_true, ite_false, ofBool_get]
    simp
  · simp (disch := first | decide | rfl) only [Fields.hdr, Fields.ofHdr, get_cat, get_app, ext_cat_lo, ext_cat_hi, ext_app_lo, ext_app_hi, ext_self, Nat.reduceSub, Nat.reduceLT, if_true, if_false, ite_true, ite_false, ofBool_get, rnd_code, scope_code, size_code, fmt_code, mulpart_code, cc_code, fcc_code, votemode_code, shflmode_code, laneop_code, atomop_code, ord_code, cachehint_code, Option.getD_some, Fields.dst, dst_eta]
theorem racectlRdun (h : Hdr) (d : BitVec 8) : Statement (.racectlRdun h d) := by
  intro (hw : (h.wf && d.toNat % 2 == 0) = true)
  simp only [Bool.and_eq_true] at hw
  obtain ⟨hh, h1⟩ := hw
  refine decode_guarded _ _ decRacectlRdun hh ?_ ?_
  · refine (class_9 _ 584#10 8 rfl (by decide) (by decide)).trans ?_
    simp (disch := decide) only [decClass9, Fields.ofHdr, BitVec.reduceExtractLsb', BitVec.toNat_ofNat, BitVec.reduceToNat, get_cat, get_app, ext_cat_lo, ext_cat_hi, ext_app_lo, ext_app_hi, ext_self, Nat.reduceSub, Nat.reduceLT, if_true, if_false, ite_true, ite_false, ofBool_get]
  unfold decRacectlRdun
  refine verdict_eq _ _ _ ?_ ?_
  · simp (disch := first | decide | rfl) only [Fields.common, Fields.ofHdr, List.all_append, List.all_cons, List.all_nil, mask_cat, mask_app, badSrc_bits, twoSel_two, twoSel_three, isSel_bits, imm_one, imm_two, imm_three, dst_nw, rnd_code, scope_code, size_code, fmt_code, mulpart_code, cc_code, fcc_code, votemode_code, shflmode_code, laneop_code, atomop_code, ord_code, cachehint_code, get_cat, get_app, ext_cat_lo, ext_cat_hi, ext_app_lo, ext_app_hi, ext_self, Nat.reduceSub, Nat.reduceLT, if_true, if_false, ite_true, ite_false, ofBool_get]
    simp [mod_bad h1]
  · simp (disch := first | decide | rfl) only [Fields.hdr, Fields.ofHdr, get_cat, get_app, ext_cat_lo, ext_cat_hi, ext_app_lo, ext_app_hi, ext_self, Nat.reduceSub, Nat.reduceLT, if_true, if_false, ite_true, ite_false, ofBool_get, rnd_code, scope_code, size_code, fmt_code, mulpart_code, cc_code, fcc_code, votemode_code, shflmode_code, laneop_code, atomop_code, ord_code, cachehint_code, Option.getD_some, Fields.dst, dst_eta]
theorem racectlForget (h : Hdr) (a : Src) (b : Src) (off : BitVec 32) : Statement (.racectlForget h a b off) := by
  intro (hw : (h.wf && a.ok 2 false false && b.ok 1 false true) = true)
  simp only [Bool.and_eq_true] at hw
  obtain ⟨⟨hh, h1⟩, h2⟩ := hw
  refine decode_guarded _ _ decRacectlForget hh ?_ ?_
  · refine (class_9 _ 584#10 8 rfl (by decide) (by decide)).trans ?_
    simp (disch := decide) only [decClass9, Fields.ofHdr, BitVec.reduceExtractLsb', BitVec.toNat_ofNat, BitVec.reduceToNat, get_cat, get_app, ext_cat_lo, ext_cat_hi, ext_app_lo, ext_app_hi, ext_self, Nat.reduceSub, Nat.reduceLT, if_true, if_false, ite_true, ite_false, ofBool_get]
  unfold decRacectlForget
  refine verdict_eq _ _ _ ?_ ?_
  · simp (disch := first | decide | rfl) only [Fields.common, Fields.ofHdr, List.all_append, List.all_cons, List.all_nil, mask_cat, mask_app, badSrc_bits, twoSel_two, twoSel_three, isSel_bits, imm_one, imm_two, imm_three, dst_nw, src_noSel h1, src_noSel h2, rnd_code, scope_code, size_code, fmt_code, mulpart_code, cc_code, fcc_code, votemode_code, shflmode_code, laneop_code, atomop_code, ord_code, cachehint_code, get_cat, get_app, ext_cat_lo, ext_cat_hi, ext_app_lo, ext_app_hi, ext_self, Nat.reduceSub, Nat.reduceLT, if_true, if_false, ite_true, ite_false, ofBool_get]
    simp [h1, h2]
  · simp (disch := first | decide | rfl) only [Fields.hdr, Fields.ofHdr, src_noSel h1, src_noSel h2, get_cat, get_app, ext_cat_lo, ext_cat_hi, ext_app_lo, ext_app_hi, ext_self, Nat.reduceSub, Nat.reduceLT, if_true, if_false, ite_true, ite_false, ofBool_get, rnd_code, scope_code, size_code, fmt_code, mulpart_code, cc_code, fcc_code, votemode_code, shflmode_code, laneop_code, atomop_code, ord_code, cachehint_code, Option.getD_some, Fields.dst, dst_eta]
theorem hbclk (h : Hdr) (d : BitVec 8) : Statement (.hbclk h d) := by
  intro (hw : (h.wf) = true)
  have hh := hw
  refine decode_guarded _ _ decHbclk hh ?_ ?_
  · refine (class_9 _ 585#10 9 rfl (by decide) (by decide)).trans ?_
    simp (disch := decide) only [decClass9, Fields.ofHdr, BitVec.reduceExtractLsb', BitVec.toNat_ofNat, BitVec.reduceToNat, get_cat, get_app, ext_cat_lo, ext_cat_hi, ext_app_lo, ext_app_hi, ext_self, Nat.reduceSub, Nat.reduceLT, if_true, if_false, ite_true, ite_false, ofBool_get]
  unfold decHbclk
  refine verdict_eq _ _ _ ?_ ?_
  · simp (disch := first | decide | rfl) only [Fields.common, Fields.ofHdr, List.all_append, List.all_cons, List.all_nil, mask_cat, mask_app, badSrc_bits, twoSel_two, twoSel_three, isSel_bits, imm_one, imm_two, imm_three, dst_nw, rnd_code, scope_code, size_code, fmt_code, mulpart_code, cc_code, fcc_code, votemode_code, shflmode_code, laneop_code, atomop_code, ord_code, cachehint_code, get_cat, get_app, ext_cat_lo, ext_cat_hi, ext_app_lo, ext_app_hi, ext_self, Nat.reduceSub, Nat.reduceLT, if_true, if_false, ite_true, ite_false, ofBool_get]
    simp
  · simp (disch := first | decide | rfl) only [Fields.hdr, Fields.ofHdr, get_cat, get_app, ext_cat_lo, ext_cat_hi, ext_app_lo, ext_app_hi, ext_self, Nat.reduceSub, Nat.reduceLT, if_true, if_false, ite_true, ite_false, ofBool_get, rnd_code, scope_code, size_code, fmt_code, mulpart_code, cc_code, fcc_code, votemode_code, shflmode_code, laneop_code, atomop_code, ord_code, cachehint_code, Option.getD_some, Fields.dst, dst_eta]
theorem hbclkVec (h : Hdr) (d : BitVec 8) (a : Src) : Statement (.hbclkVec h d a) := by
  intro (hw : (h.wf && a.ok 1 true true) = true)
  simp only [Bool.and_eq_true] at hw
  obtain ⟨hh, h1⟩ := hw
  refine decode_guarded _ _ decHbclkVec hh ?_ ?_
  · refine (class_9 _ 585#10 9 rfl (by decide) (by decide)).trans ?_
    simp (disch := decide) only [decClass9, Fields.ofHdr, BitVec.reduceExtractLsb', BitVec.toNat_ofNat, BitVec.reduceToNat, get_cat, get_app, ext_cat_lo, ext_cat_hi, ext_app_lo, ext_app_hi, ext_self, Nat.reduceSub, Nat.reduceLT, if_true, if_false, ite_true, ite_false, ofBool_get]
  unfold decHbclkVec
  refine verdict_eq _ _ _ ?_ ?_
  · simp (disch := first | decide | rfl) only [Fields.common, Fields.ofHdr, List.all_append, List.all_cons, List.all_nil, mask_cat, mask_app, badSrc_bits, twoSel_two, twoSel_three, isSel_bits, imm_one, imm_two, imm_three, dst_nw, src_one, rnd_code, scope_code, size_code, fmt_code, mulpart_code, cc_code, fcc_code, votemode_code, shflmode_code, laneop_code, atomop_code, ord_code, cachehint_code, get_cat, get_app, ext_cat_lo, ext_cat_hi, ext_app_lo, ext_app_hi, ext_self, Nat.reduceSub, Nat.reduceLT, if_true, if_false, ite_true, ite_false, ofBool_get]
    simp [h1]
  · simp (disch := first | decide | rfl) only [Fields.hdr, Fields.ofHdr, src_one, get_cat, get_app, ext_cat_lo, ext_cat_hi, ext_app_lo, ext_app_hi, ext_self, Nat.reduceSub, Nat.reduceLT, if_true, if_false, ite_true, ite_false, ofBool_get, rnd_code, scope_code, size_code, fmt_code, mulpart_code, cc_code, fcc_code, votemode_code, shflmode_code, laneop_code, atomop_code, ord_code, cachehint_code, Option.getD_some, Fields.dst, dst_eta]
theorem cpyk (h : Hdr) (a : Src) (n : BitVec 5) (off : BitVec 32) : Statement (.cpyk h a n off) := by
  intro (hw : (h.wf && a.ok 1 false true && (decide (1 ≤ n.toNat) && decide (n.toNat ≤ 16))) = true)
  simp only [Bool.and_eq_true] at hw
  obtain ⟨⟨hh, h1⟩, h2⟩ := hw
  refine decode_guarded _ _ decCpyk hh ?_ ?_
  · exact class_A _ 640#10 0 rfl (by decide) (by decide)
  unfold decCpyk
  refine verdict_eq _ _ _ ?_ ?_
  · simp (disch := first | decide | rfl) only [Fields.common, Fields.ofHdr, List.all_append, List.all_cons, List.all_nil, mask_cat, mask_app, badSrc_bits, twoSel_two, twoSel_three, isSel_bits, imm_one, imm_two, imm_three, dst_nw, src_noSel h1, rnd_code, scope_code, size_code, fmt_code, mulpart_code, cc_code, fcc_code, votemode_code, shflmode_code, laneop_code, atomop_code, ord_code, cachehint_code, get_cat, get_app, ext_cat_lo, ext_cat_hi, ext_app_lo, ext_app_hi, ext_self, Nat.reduceSub, Nat.reduceLT, if_true, if_false, ite_true, ite_false, ofBool_get]
    simp [h1, h2]
  · simp (disch := first | decide | rfl) only [Fields.hdr, Fields.ofHdr, src_noSel h1, get_cat, get_app, ext_cat_lo, ext_cat_hi, ext_app_lo, ext_app_hi, ext_self, Nat.reduceSub, Nat.reduceLT, if_true, if_false, ite_true, ite_false, ofBool_get, rnd_code, scope_code, size_code, fmt_code, mulpart_code, cc_code, fcc_code, votemode_code, shflmode_code, laneop_code, atomop_code, ord_code, cachehint_code, Option.getD_some, Fields.dst, dst_eta]
theorem sbinit (h : Hdr) (a : Src) (b : Src) (off : BitVec 32) : Statement (.sbinit h a b off) := by
  intro (hw : (h.wf && a.ok 1 false true && b.ok 1 false true) = true)
  simp only [Bool.and_eq_true] at hw
  obtain ⟨⟨hh, h1⟩, h2⟩ := hw
  refine decode_guarded _ _ decSbinit hh ?_ ?_
  · exact class_A _ 641#10 1 rfl (by decide) (by decide)
  unfold decSbinit
  refine verdict_eq _ _ _ ?_ ?_
  · simp (disch := first | decide | rfl) only [Fields.common, Fields.ofHdr, List.all_append, List.all_cons, List.all_nil, mask_cat, mask_app, badSrc_bits, twoSel_two, twoSel_three, isSel_bits, imm_one, imm_two, imm_three, dst_nw, src_noSel h1, src_noSel h2, rnd_code, scope_code, size_code, fmt_code, mulpart_code, cc_code, fcc_code, votemode_code, shflmode_code, laneop_code, atomop_code, ord_code, cachehint_code, get_cat, get_app, ext_cat_lo, ext_cat_hi, ext_app_lo, ext_app_hi, ext_self, Nat.reduceSub, Nat.reduceLT, if_true, if_false, ite_true, ite_false, ofBool_get]
    simp [h1, h2]
  · simp (disch := first | decide | rfl) only [Fields.hdr, Fields.ofHdr, src_noSel h1, src_noSel h2, get_cat, get_app, ext_cat_lo, ext_cat_hi, ext_app_lo, ext_app_hi, ext_self, Nat.reduceSub, Nat.reduceLT, if_true, if_false, ite_true, ite_false, ofBool_get, rnd_code, scope_code, size_code, fmt_code, mulpart_code, cc_code, fcc_code, votemode_code, shflmode_code, laneop_code, atomop_code, ord_code, cachehint_code, Option.getD_some, Fields.dst, dst_eta]
theorem sbadd (h : Hdr) (a : Src) (b : Src) (off : BitVec 32) : Statement (.sbadd h a b off) := by
  intro (hw : (h.wf && a.ok 1 false true && b.ok 1 false true) = true)
  simp only [Bool.and_eq_true] at hw
  obtain ⟨⟨hh, h1⟩, h2⟩ := hw
  refine decode_guarded _ _ decSbadd hh ?_ ?_
  · exact class_A _ 642#10 2 rfl (by decide) (by decide)
  unfold decSbadd
  refine verdict_eq _ _ _ ?_ ?_
  · simp (disch := first | decide | rfl) only [Fields.common, Fields.ofHdr, List.all_append, List.all_cons, List.all_nil, mask_cat, mask_app, badSrc_bits, twoSel_two, twoSel_three, isSel_bits, imm_one, imm_two, imm_three, dst_nw, src_noSel h1, src_noSel h2, rnd_code, scope_code, size_code, fmt_code, mulpart_code, cc_code, fcc_code, votemode_code, shflmode_code, laneop_code, atomop_code, ord_code, cachehint_code, get_cat, get_app, ext_cat_lo, ext_cat_hi, ext_app_lo, ext_app_hi, ext_self, Nat.reduceSub, Nat.reduceLT, if_true, if_false, ite_true, ite_false, ofBool_get]
    simp [h1, h2]
  · simp (disch := first | decide | rfl) only [Fields.hdr, Fields.ofHdr, src_noSel h1, src_noSel h2, get_cat, get_app, ext_cat_lo, ext_cat_hi, ext_app_lo, ext_app_hi, ext_self, Nat.reduceSub, Nat.reduceLT, if_true, if_false, ite_true, ite_false, ofBool_get, rnd_code, scope_code, size_code, fmt_code, mulpart_code, cc_code, fcc_code, votemode_code, shflmode_code, laneop_code, atomop_code, ord_code, cachehint_code, Option.getD_some, Fields.dst, dst_eta]
theorem sbwait (h : Hdr) (a : Src) (b : Src) (off : BitVec 32) : Statement (.sbwait h a b off) := by
  intro (hw : (h.wf && a.ok 1 false true && b.ok 1 false true) = true)
  simp only [Bool.and_eq_true] at hw
  obtain ⟨⟨hh, h1⟩, h2⟩ := hw
  refine decode_guarded _ _ decSbwait hh ?_ ?_
  · exact class_A _ 643#10 3 rfl (by decide) (by decide)
  unfold decSbwait
  refine verdict_eq _ _ _ ?_ ?_
  · simp (disch := first | decide | rfl) only [Fields.common, Fields.ofHdr, List.all_append, List.all_cons, List.all_nil, mask_cat, mask_app, badSrc_bits, twoSel_two, twoSel_three, isSel_bits, imm_one, imm_two, imm_three, dst_nw, src_noSel h1, src_noSel h2, rnd_code, scope_code, size_code, fmt_code, mulpart_code, cc_code, fcc_code, votemode_code, shflmode_code, laneop_code, atomop_code, ord_code, cachehint_code, get_cat, get_app, ext_cat_lo, ext_cat_hi, ext_app_lo, ext_app_hi, ext_self, Nat.reduceSub, Nat.reduceLT, if_true, if_false, ite_true, ite_false, ofBool_get]
    simp [h1, h2]
  · simp (disch := first | decide | rfl) only [Fields.hdr, Fields.ofHdr, src_noSel h1, src_noSel h2, get_cat, get_app, ext_cat_lo, ext_cat_hi, ext_app_lo, ext_app_hi, ext_self, Nat.reduceSub, Nat.reduceLT, if_true, if_false, ite_true, ite_false, ofBool_get, rnd_code, scope_code, size_code, fmt_code, mulpart_code, cc_code, fcc_code, votemode_code, shflmode_code, laneop_code, atomop_code, ord_code, cachehint_code, Option.getD_some, Fields.dst, dst_eta]
theorem sbtest (h : Hdr) (d : BitVec 8) (a : Src) (off : BitVec 32) : Statement (.sbtest h d a off) := by
  intro (hw : (h.wf && a.ok 1 false true) = true)
  simp only [Bool.and_eq_true] at hw
  obtain ⟨hh, h1⟩ := hw
  refine decode_guarded _ _ decSbtest hh ?_ ?_
  · exact class_A _ 644#10 4 rfl (by decide) (by decide)
  unfold decSbtest
  refine verdict_eq _ _ _ ?_ ?_
  · simp (disch := first | decide | rfl) only [Fields.common, Fields.ofHdr, List.all_append, List.all_cons, List.all_nil, mask_cat, mask_app, badSrc_bits, twoSel_two, twoSel_three, isSel_bits, imm_one, imm_two, imm_three, dst_nw, src_noSel h1, rnd_code, scope_code, size_code, fmt_code, mulpart_code, cc_code, fcc_code, votemode_code, shflmode_code, laneop_code, atomop_code, ord_code, cachehint_code, get_cat, get_app, ext_cat_lo, ext_cat_hi, ext_app_lo, ext_app_hi, ext_self, Nat.reduceSub, Nat.reduceLT, if_true, if_false, ite_true, ite_false, ofBool_get]
    simp [h1]
  · simp (disch := first | decide | rfl) only [Fields.hdr, Fields.ofHdr, src_noSel h1, get_cat, get_app, ext_cat_lo, ext_cat_hi, ext_app_lo, ext_app_hi, ext_self, Nat.reduceSub, Nat.reduceLT, if_true, if_false, ite_true, ite_false, ofBool_get, rnd_code, scope_code, size_code, fmt_code, mulpart_code, cc_code, fcc_code, votemode_code, shflmode_code, laneop_code, atomop_code, ord_code, cachehint_code, Option.getD_some, Fields.dst, dst_eta]
theorem cpyres (h : Hdr) (a : Src) (off : BitVec 32) : Statement (.cpyres h a off) := by
  intro (hw : (h.wf && a.ok 1 false true) = true)
  simp only [Bool.and_eq_true] at hw
  obtain ⟨hh, h1⟩ := hw
  refine decode_guarded _ _ decCpyres hh ?_ ?_
  · exact class_A _ 645#10 5 rfl (by decide) (by decide)
  unfold decCpyres
  refine verdict_eq _ _ _ ?_ ?_
  · simp (disch := first | decide | rfl) only [Fields.common, Fields.ofHdr, List.all_append, List.all_cons, List.all_nil, mask_cat, mask_app, badSrc_bits, twoSel_two, twoSel_three, isSel_bits, imm_one, imm_two, imm_three, dst_nw, src_noSel h1, rnd_code, scope_code, size_code, fmt_code, mulpart_code, cc_code, fcc_code, votemode_code, shflmode_code, laneop_code, atomop_code, ord_code, cachehint_code, get_cat, get_app, ext_cat_lo, ext_cat_hi, ext_app_lo, ext_app_hi, ext_self, Nat.reduceSub, Nat.reduceLT, if_true, if_false, ite_true, ite_false, ofBool_get]
    simp [h1]
  · simp (disch := first | decide | rfl) only [Fields.hdr, Fields.ofHdr, src_noSel h1, get_cat, get_app, ext_cat_lo, ext_cat_hi, ext_app_lo, ext_app_hi, ext_self, Nat.reduceSub, Nat.reduceLT, if_true, if_false, ite_true, ite_false, ofBool_get, rnd_code, scope_code, size_code, fmt_code, mulpart_code, cc_code, fcc_code, votemode_code, shflmode_code, laneop_code, atomop_code, ord_code, cachehint_code, Option.getD_some, Fields.dst, dst_eta]
theorem nrxarm (h : Hdr) (d : BitVec 8) (a : Src) (ring : BitVec 4) (off : BitVec 32) : Statement (.nrxarm h d a ring off) := by
  intro (hw : (h.wf && a.ok 1 false true) = true)
  simp only [Bool.and_eq_true] at hw
  obtain ⟨hh, h1⟩ := hw
  refine decode_guarded _ _ decNrxarm hh ?_ ?_
  · exact class_A _ 646#10 6 rfl (by decide) (by decide)
  unfold decNrxarm
  refine verdict_eq _ _ _ ?_ ?_
  · simp (disch := first | decide | rfl) only [Fields.common, Fields.ofHdr, List.all_append, List.all_cons, List.all_nil, mask_cat, mask_app, badSrc_bits, twoSel_two, twoSel_three, isSel_bits, imm_one, imm_two, imm_three, dst_nw, src_noSel h1, rnd_code, scope_code, size_code, fmt_code, mulpart_code, cc_code, fcc_code, votemode_code, shflmode_code, laneop_code, atomop_code, ord_code, cachehint_code, get_cat, get_app, ext_cat_lo, ext_cat_hi, ext_app_lo, ext_app_hi, ext_self, Nat.reduceSub, Nat.reduceLT, if_true, if_false, ite_true, ite_false, ofBool_get]
    simp [h1]
  · simp (disch := first | decide | rfl) only [Fields.hdr, Fields.ofHdr, src_noSel h1, get_cat, get_app, ext_cat_lo, ext_cat_hi, ext_app_lo, ext_app_hi, ext_self, Nat.reduceSub, Nat.reduceLT, if_true, if_false, ite_true, ite_false, ofBool_get, rnd_code, scope_code, size_code, fmt_code, mulpart_code, cc_code, fcc_code, votemode_code, shflmode_code, laneop_code, atomop_code, ord_code, cachehint_code, Option.getD_some, Fields.dst, dst_eta]
theorem ntx (h : Hdr) (d : BitVec 8) (a : Src) (b : Src) (ts : Bool) (p1 : Bool) (off : BitVec 32) : Statement (.ntx h d a b ts p1 off) := by
  intro (hw : (h.wf && a.ok 1 false true && b.ok 1 false true) = true)
  simp only [Bool.and_eq_true] at hw
  obtain ⟨⟨hh, h1⟩, h2⟩ := hw
  refine decode_guarded _ _ decNtx hh ?_ ?_
  · exact class_A _ 647#10 7 rfl (by decide) (by decide)
  unfold decNtx
  refine verdict_eq _ _ _ ?_ ?_
  · simp (disch := first | decide | rfl) only [Fields.common, Fields.ofHdr, List.all_append, List.all_cons, List.all_nil, mask_cat, mask_app, badSrc_bits, twoSel_two, twoSel_three, isSel_bits, imm_one, imm_two, imm_three, dst_nw, src_noSel h1, src_noSel h2, rnd_code, scope_code, size_code, fmt_code, mulpart_code, cc_code, fcc_code, votemode_code, shflmode_code, laneop_code, atomop_code, ord_code, cachehint_code, get_cat, get_app, ext_cat_lo, ext_cat_hi, ext_app_lo, ext_app_hi, ext_self, Nat.reduceSub, Nat.reduceLT, if_true, if_false, ite_true, ite_false, ofBool_get]
    simp [h1, h2]
  · simp (disch := first | decide | rfl) only [Fields.hdr, Fields.ofHdr, src_noSel h1, src_noSel h2, get_cat, get_app, ext_cat_lo, ext_cat_hi, ext_app_lo, ext_app_hi, ext_self, Nat.reduceSub, Nat.reduceLT, if_true, if_false, ite_true, ite_false, ofBool_get, rnd_code, scope_code, size_code, fmt_code, mulpart_code, cc_code, fcc_code, votemode_code, shflmode_code, laneop_code, atomop_code, ord_code, cachehint_code, Option.getD_some, Fields.dst, dst_eta]
theorem ntsrSt (h : Hdr) (d : BitVec 8) (a : Src) : Statement (.ntsrSt h d a) := by
  intro (hw : (h.wf && a.ok 1 true true) = true)
  simp only [Bool.and_eq_true] at hw
  obtain ⟨hh, h1⟩ := hw
  refine decode_guarded _ _ decNtsrSt hh ?_ ?_
  · refine (class_A _ 648#10 8 rfl (by decide) (by decide)).trans ?_
    simp (disch := decide) only [decClassA, Fields.ofHdr, BitVec.reduceExtractLsb', BitVec.toNat_ofNat, BitVec.reduceToNat, get_cat, get_app, ext_cat_lo, ext_cat_hi, ext_app_lo, ext_app_hi, ext_self, Nat.reduceSub, Nat.reduceLT, if_true, if_false, ite_true, ite_false, ofBool_get]
  unfold decNtsrSt
  refine verdict_eq _ _ _ ?_ ?_
  · simp (disch := first | decide | rfl) only [Fields.common, Fields.ofHdr, List.all_append, List.all_cons, List.all_nil, mask_cat, mask_app, badSrc_bits, twoSel_two, twoSel_three, isSel_bits, imm_one, imm_two, imm_three, dst_nw, src_one, rnd_code, scope_code, size_code, fmt_code, mulpart_code, cc_code, fcc_code, votemode_code, shflmode_code, laneop_code, atomop_code, ord_code, cachehint_code, get_cat, get_app, ext_cat_lo, ext_cat_hi, ext_app_lo, ext_app_hi, ext_self, Nat.reduceSub, Nat.reduceLT, if_true, if_false, ite_true, ite_false, ofBool_get]
    simp [h1]
  · simp (disch := first | decide | rfl) only [Fields.hdr, Fields.ofHdr, src_one, get_cat, get_app, ext_cat_lo, ext_cat_hi, ext_app_lo, ext_app_hi, ext_self, Nat.reduceSub, Nat.reduceLT, if_true, if_false, ite_true, ite_false, ofBool_get, rnd_code, scope_code, size_code, fmt_code, mulpart_code, cc_code, fcc_code, votemode_code, shflmode_code, laneop_code, atomop_code, ord_code, cachehint_code, Option.getD_some, Fields.dst, dst_eta]
theorem ntsrTick (h : Hdr) (d : BitVec 8) (a : Src) : Statement (.ntsrTick h d a) := by
  intro (hw : (h.wf && d.toNat % 2 == 0 && a.ok 1 true true) = true)
  simp only [Bool.and_eq_true] at hw
  obtain ⟨⟨hh, h1⟩, h2⟩ := hw
  refine decode_guarded _ _ decNtsrTick hh ?_ ?_
  · refine (class_A _ 648#10 8 rfl (by decide) (by decide)).trans ?_
    simp (disch := decide) only [decClassA, Fields.ofHdr, BitVec.reduceExtractLsb', BitVec.toNat_ofNat, BitVec.reduceToNat, get_cat, get_app, ext_cat_lo, ext_cat_hi, ext_app_lo, ext_app_hi, ext_self, Nat.reduceSub, Nat.reduceLT, if_true, if_false, ite_true, ite_false, ofBool_get]
  unfold decNtsrTick
  refine verdict_eq _ _ _ ?_ ?_
  · simp (disch := first | decide | rfl) only [Fields.common, Fields.ofHdr, List.all_append, List.all_cons, List.all_nil, mask_cat, mask_app, badSrc_bits, twoSel_two, twoSel_three, isSel_bits, imm_one, imm_two, imm_three, dst_nw, src_one, rnd_code, scope_code, size_code, fmt_code, mulpart_code, cc_code, fcc_code, votemode_code, shflmode_code, laneop_code, atomop_code, ord_code, cachehint_code, get_cat, get_app, ext_cat_lo, ext_cat_hi, ext_app_lo, ext_app_hi, ext_self, Nat.reduceSub, Nat.reduceLT, if_true, if_false, ite_true, ite_false, ofBool_get]
    simp [mod_bad h1, h2]
  · simp (disch := first | decide | rfl) only [Fields.hdr, Fields.ofHdr, src_one, get_cat, get_app, ext_cat_lo, ext_cat_hi, ext_app_lo, ext_app_hi, ext_self, Nat.reduceSub, Nat.reduceLT, if_true, if_false, ite_true, ite_false, ofBool_get, rnd_code, scope_code, size_code, fmt_code, mulpart_code, cc_code, fcc_code, votemode_code, shflmode_code, laneop_code, atomop_code, ord_code, cachehint_code, Option.getD_some, Fields.dst, dst_eta]
theorem ntsrPtp (h : Hdr) (d : BitVec 8) (a : Src) : Statement (.ntsrPtp h d a) := by
  intro (hw : (h.wf && d.toNat % 4 == 0 && a.ok 1 true true) = true)
  simp only [Bool.and_eq_true] at hw
  obtain ⟨⟨hh, h1⟩, h2⟩ := hw
  refine decode_guarded _ _ decNtsrPtp hh ?_ ?_
  · refine (class_A _ 648#10 8 rfl (by decide) (by decide)).trans ?_
    simp (disch := decide) only [decClassA, Fields.ofHdr, BitVec.reduceExtractLsb', BitVec.toNat_ofNat, BitVec.reduceToNat, get_cat, get_app, ext_cat_lo, ext_cat_hi, ext_app_lo, ext_app_hi, ext_self, Nat.reduceSub, Nat.reduceLT, if_true, if_false, ite_true, ite_false, ofBool_get]
  unfold decNtsrPtp
  refine verdict_eq _ _ _ ?_ ?_
  · simp (disch := first | decide | rfl) only [Fields.common, Fields.ofHdr, List.all_append, List.all_cons, List.all_nil, mask_cat, mask_app, badSrc_bits, twoSel_two, twoSel_three, isSel_bits, imm_one, imm_two, imm_three, dst_nw, src_one, rnd_code, scope_code, size_code, fmt_code, mulpart_code, cc_code, fcc_code, votemode_code, shflmode_code, laneop_code, atomop_code, ord_code, cachehint_code, get_cat, get_app, ext_cat_lo, ext_cat_hi, ext_app_lo, ext_app_hi, ext_self, Nat.reduceSub, Nat.reduceLT, if_true, if_false, ite_true, ite_false, ofBool_get]
    simp [mod_bad h1, h2]
  · simp (disch := first | decide | rfl) only [Fields.hdr, Fields.ofHdr, src_one, get_cat, get_app, ext_cat_lo, ext_cat_hi, ext_app_lo, ext_app_hi, ext_self, Nat.reduceSub, Nat.reduceLT, if_true, if_false, ite_true, ite_false, ofBool_get, rnd_code, scope_code, size_code, fmt_code, mulpart_code, cc_code, fcc_code, votemode_code, shflmode_code, laneop_code, atomop_code, ord_code, cachehint_code, Option.getD_some, Fields.dst, dst_eta]
theorem launch (h : Hdr) (d : BitVec 8) (a : Src) (off : BitVec 32) : Statement (.launch h d a off) := by
  intro (hw : (h.wf && a.ok 2 false false) = true)
  simp only [Bool.and_eq_true] at hw
  obtain ⟨hh, h1⟩ := hw
  refine decode_guarded _ _ decLaunch hh ?_ ?_
  · exact class_B _ 704#10 0 rfl (by decide) (by decide)
  unfold decLaunch
  refine verdict_eq _ _ _ ?_ ?_
  · simp (disch := first | decide | rfl) only [Fields.common, Fields.ofHdr, List.all_append, List.all_cons, List.all_nil, mask_cat, mask_app, badSrc_bits, twoSel_two, twoSel_three, isSel_bits, imm_one, imm_two, imm_three, dst_nw, src_noSel h1, rnd_code, scope_code, size_code, fmt_code, mulpart_code, cc_code, fcc_code, votemode_code, shflmode_code, laneop_code, atomop_code, ord_code, cachehint_code, get_cat, get_app, ext_cat_lo, ext_cat_hi, ext_app_lo, ext_app_hi, ext_self, Nat.reduceSub, Nat.reduceLT, if_true, if_false, ite_true, ite_false, ofBool_get]
    simp [h1]
  · simp (disch := first | decide | rfl) only [Fields.hdr, Fields.ofHdr, src_noSel h1, get_cat, get_app, ext_cat_lo, ext_cat_hi, ext_app_lo, ext_app_hi, ext_self, Nat.reduceSub, Nat.reduceLT, if_true, if_false, ite_true, ite_false, ofBool_get, rnd_code, scope_code, size_code, fmt_code, mulpart_code, cc_code, fcc_code, votemode_code, shflmode_code, laneop_code, atomop_code, ord_code, cachehint_code, Option.getD_some, Fields.dst, dst_eta]
theorem tnode (h : Hdr) (d : BitVec 8) (a : Src) (off : BitVec 32) : Statement (.tnode h d a off) := by
  intro (hw : (h.wf && a.ok 1 false true) = true)
  simp only [Bool.and_eq_true] at hw
  obtain ⟨hh, h1⟩ := hw
  refine decode_guarded _ _ decTnode hh ?_ ?_
  · exact class_B _ 705#10 1 rfl (by decide) (by decide)
  unfold decTnode
  refine verdict_eq _ _ _ ?_ ?_
  · simp (disch := first | decide | rfl) only [Fields.common, Fields.ofHdr, List.all_append, List.all_cons, List.all_nil, mask_cat, mask_app, badSrc_bits, twoSel_two, twoSel_three, isSel_bits, imm_one, imm_two, imm_three, dst_nw, src_noSel h1, rnd_code, scope_code, size_code, fmt_code, mulpart_code, cc_code, fcc_code, votemode_code, shflmode_code, laneop_code, atomop_code, ord_code, cachehint_code, get_cat, get_app, ext_cat_lo, ext_cat_hi, ext_app_lo, ext_app_hi, ext_self, Nat.reduceSub, Nat.reduceLT, if_true, if_false, ite_true, ite_false, ofBool_get]
    simp [h1]
  · simp (disch := first | decide | rfl) only [Fields.hdr, Fields.ofHdr, src_noSel h1, get_cat, get_app, ext_cat_lo, ext_cat_hi, ext_app_lo, ext_app_hi, ext_self, Nat.reduceSub, Nat.reduceLT, if_true, if_false, ite_true, ite_false, ofBool_get, rnd_code, scope_code, size_code, fmt_code, mulpart_code, cc_code, fcc_code, votemode_code, shflmode_code, laneop_code, atomop_code, ord_code, cachehint_code, Option.getD_some, Fields.dst, dst_eta]
theorem tedge (h : Hdr) (d : BitVec 8) (a : Src) (b : Src) : Statement (.tedge h d a b) := by
  intro (hw : (h.wf && a.ok 1 true true && b.ok 1 true true && oneImm [a, b]) = true)
  simp only [Bool.and_eq_true] at hw
  obtain ⟨⟨⟨hh, h1⟩, h2⟩, h3⟩ := hw
  refine decode_guarded _ _ decTedge hh ?_ ?_
  · exact class_B _ 706#10 2 rfl (by decide) (by decide)
  unfold decTedge
  refine verdict_eq _ _ _ ?_ ?_
  · simp (disch := first | decide | rfl) only [Fields.common, Fields.ofHdr, List.all_append, List.all_cons, List.all_nil, mask_cat, mask_app, badSrc_bits, twoSel_two, twoSel_three, isSel_bits, imm_one, imm_two, imm_three, dst_nw, src_snd2 h3, src_fst2, rnd_code, scope_code, size_code, fmt_code, mulpart_code, cc_code, fcc_code, votemode_code, shflmode_code, laneop_code, atomop_code, ord_code, cachehint_code, get_cat, get_app, ext_cat_lo, ext_cat_hi, ext_app_lo, ext_app_hi, ext_self, Nat.reduceSub, Nat.reduceLT, if_true, if_false, ite_true, ite_false, ofBool_get]
    simp [h1, h2, h3]
  · simp (disch := first | decide | rfl) only [Fields.hdr, Fields.ofHdr, src_snd2 h3, src_fst2, get_cat, get_app, ext_cat_lo, ext_cat_hi, ext_app_lo, ext_app_hi, ext_self, Nat.reduceSub, Nat.reduceLT, if_true, if_false, ite_true, ite_false, ofBool_get, rnd_code, scope_code, size_code, fmt_code, mulpart_code, cc_code, fcc_code, votemode_code, shflmode_code, laneop_code, atomop_code, ord_code, cachehint_code, Option.getD_some, Fields.dst, dst_eta]
theorem tdone (h : Hdr) (a : Src) : Statement (.tdone h a) := by
  intro (hw : (h.wf && a.ok 1 true true) = true)
  simp only [Bool.and_eq_true] at hw
  obtain ⟨hh, h1⟩ := hw
  refine decode_guarded _ _ decTdone hh ?_ ?_
  · exact class_B _ 707#10 3 rfl (by decide) (by decide)
  unfold decTdone
  refine verdict_eq _ _ _ ?_ ?_
  · simp (disch := first | decide | rfl) only [Fields.common, Fields.ofHdr, List.all_append, List.all_cons, List.all_nil, mask_cat, mask_app, badSrc_bits, twoSel_two, twoSel_three, isSel_bits, imm_one, imm_two, imm_three, dst_nw, src_one, rnd_code, scope_code, size_code, fmt_code, mulpart_code, cc_code, fcc_code, votemode_code, shflmode_code, laneop_code, atomop_code, ord_code, cachehint_code, get_cat, get_app, ext_cat_lo, ext_cat_hi, ext_app_lo, ext_app_hi, ext_self, Nat.reduceSub, Nat.reduceLT, if_true, if_false, ite_true, ite_false, ofBool_get]
    simp [h1]
  · simp (disch := first | decide | rfl) only [Fields.hdr, Fields.ofHdr, src_one, get_cat, get_app, ext_cat_lo, ext_cat_hi, ext_app_lo, ext_app_hi, ext_self, Nat.reduceSub, Nat.reduceLT, if_true, if_false, ite_true, ite_false, ofBool_get, rnd_code, scope_code, size_code, fmt_code, mulpart_code, cc_code, fcc_code, votemode_code, shflmode_code, laneop_code, atomop_code, ord_code, cachehint_code, Option.getD_some, Fields.dst, dst_eta]
theorem tspawn (h : Hdr) (d : BitVec 8) (a : Src) (b : Src) (off : BitVec 32) : Statement (.tspawn h d a b off) := by
  intro (hw : (h.wf && a.ok 1 false true && b.ok 2 false false) = true)
  simp only [Bool.and_eq_true] at hw
  obtain ⟨⟨hh, h1⟩, h2⟩ := hw
  refine decode_guarded _ _ decTspawn hh ?_ ?_
  · exact class_B _ 708#10 4 rfl (by decide) (by decide)
  unfold decTspawn
  refine verdict_eq _ _ _ ?_ ?_
  · simp (disch := first | decide | rfl) only [Fields.common, Fields.ofHdr, List.all_append, List.all_cons, List.all_nil, mask_cat, mask_app, badSrc_bits, twoSel_two, twoSel_three, isSel_bits, imm_one, imm_two, imm_three, dst_nw, src_noSel h1, src_noSel h2, rnd_code, scope_code, size_code, fmt_code, mulpart_code, cc_code, fcc_code, votemode_code, shflmode_code, laneop_code, atomop_code, ord_code, cachehint_code, get_cat, get_app, ext_cat_lo, ext_cat_hi, ext_app_lo, ext_app_hi, ext_self, Nat.reduceSub, Nat.reduceLT, if_true, if_false, ite_true, ite_false, ofBool_get]
    simp [h1, h2]
  · simp (disch := first | decide | rfl) only [Fields.hdr, Fields.ofHdr, src_noSel h1, src_noSel h2, get_cat, get_app, ext_cat_lo, ext_cat_hi, ext_app_lo, ext_app_hi, ext_self, Nat.reduceSub, Nat.reduceLT, if_true, if_false, ite_true, ite_false, ofBool_get, rnd_code, scope_code, size_code, fmt_code, mulpart_code, cc_code, fcc_code, votemode_code, shflmode_code, laneop_code, atomop_code, ord_code, cachehint_code, Option.getD_some, Fields.dst, dst_eta]
theorem tstat (h : Hdr) (d : BitVec 8) (a : Src) : Statement (.tstat h d a) := by
  intro (hw : (h.wf && a.ok 1 true true) = true)
  simp only [Bool.and_eq_true] at hw
  obtain ⟨hh, h1⟩ := hw
  refine decode_guarded _ _ decTstat hh ?_ ?_
  · exact class_B _ 709#10 5 rfl (by decide) (by decide)
  unfold decTstat
  refine verdict_eq _ _ _ ?_ ?_
  · simp (disch := first | decide | rfl) only [Fields.common, Fields.ofHdr, List.all_append, List.all_cons, List.all_nil, mask_cat, mask_app, badSrc_bits, twoSel_two, twoSel_three, isSel_bits, imm_one, imm_two, imm_three, dst_nw, src_one, rnd_code, scope_code, size_code, fmt_code, mulpart_code, cc_code, fcc_code, votemode_code, shflmode_code, laneop_code, atomop_code, ord_code, cachehint_code, get_cat, get_app, ext_cat_lo, ext_cat_hi, ext_app_lo, ext_app_hi, ext_self, Nat.reduceSub, Nat.reduceLT, if_true, if_false, ite_true, ite_false, ofBool_get]
    simp [h1]
  · simp (disch := first | decide | rfl) only [Fields.hdr, Fields.ofHdr, src_one, get_cat, get_app, ext_cat_lo, ext_cat_hi, ext_app_lo, ext_app_hi, ext_self, Nat.reduceSub, Nat.reduceLT, if_true, if_false, ite_true, ite_false, ofBool_get, rnd_code, scope_code, size_code, fmt_code, mulpart_code, cc_code, fcc_code, votemode_code, shflmode_code, laneop_code, atomop_code, ord_code, cachehint_code, Option.getD_some, Fields.dst, dst_eta]
theorem trearm (h : Hdr) (d : BitVec 8) (a : Src) : Statement (.trearm h d a) := by
  intro (hw : (h.wf && a.ok 1 true true) = true)
  simp only [Bool.and_eq_true] at hw
  obtain ⟨hh, h1⟩ := hw
  refine decode_guarded _ _ decTrearm hh ?_ ?_
  · refine (class_B _ 710#10 6 rfl (by decide) (by decide)).trans ?_
    simp (disch := decide) only [decClassB, Fields.ofHdr, BitVec.reduceExtractLsb', BitVec.toNat_ofNat, BitVec.reduceToNat, get_cat, get_app, ext_cat_lo, ext_cat_hi, ext_app_lo, ext_app_hi, ext_self, Nat.reduceSub, Nat.reduceLT, if_true, if_false, ite_true, ite_false, ofBool_get]
  unfold decTrearm
  refine verdict_eq _ _ _ ?_ ?_
  · simp (disch := first | decide | rfl) only [Fields.common, Fields.ofHdr, List.all_append, List.all_cons, List.all_nil, mask_cat, mask_app, badSrc_bits, twoSel_two, twoSel_three, isSel_bits, imm_one, imm_two, imm_three, dst_nw, src_one, rnd_code, scope_code, size_code, fmt_code, mulpart_code, cc_code, fcc_code, votemode_code, shflmode_code, laneop_code, atomop_code, ord_code, cachehint_code, get_cat, get_app, ext_cat_lo, ext_cat_hi, ext_app_lo, ext_app_hi, ext_self, Nat.reduceSub, Nat.reduceLT, if_true, if_false, ite_true, ite_false, ofBool_get]
    simp [h1]
  · simp (disch := first | decide | rfl) only [Fields.hdr, Fields.ofHdr, src_one, get_cat, get_app, ext_cat_lo, ext_cat_hi, ext_app_lo, ext_app_hi, ext_self, Nat.reduceSub, Nat.reduceLT, if_true, if_false, ite_true, ite_false, ofBool_get, rnd_code, scope_code, size_code, fmt_code, mulpart_code, cc_code, fcc_code, votemode_code, shflmode_code, laneop_code, atomop_code, ord_code, cachehint_code, Option.getD_some, Fields.dst, dst_eta]
theorem trearmFree (h : Hdr) (d : BitVec 8) (a : Src) : Statement (.trearmFree h d a) := by
  intro (hw : (h.wf && a.ok 1 true true) = true)
  simp only [Bool.and_eq_true] at hw
  obtain ⟨hh, h1⟩ := hw
  refine decode_guarded _ _ decTrearmFree hh ?_ ?_
  · refine (class_B _ 710#10 6 rfl (by decide) (by decide)).trans ?_
    simp (disch := decide) only [decClassB, Fields.ofHdr, BitVec.reduceExtractLsb', BitVec.toNat_ofNat, BitVec.reduceToNat, get_cat, get_app, ext_cat_lo, ext_cat_hi, ext_app_lo, ext_app_hi, ext_self, Nat.reduceSub, Nat.reduceLT, if_true, if_false, ite_true, ite_false, ofBool_get]
  unfold decTrearmFree
  refine verdict_eq _ _ _ ?_ ?_
  · simp (disch := first | decide | rfl) only [Fields.common, Fields.ofHdr, List.all_append, List.all_cons, List.all_nil, mask_cat, mask_app, badSrc_bits, twoSel_two, twoSel_three, isSel_bits, imm_one, imm_two, imm_three, dst_nw, src_one, rnd_code, scope_code, size_code, fmt_code, mulpart_code, cc_code, fcc_code, votemode_code, shflmode_code, laneop_code, atomop_code, ord_code, cachehint_code, get_cat, get_app, ext_cat_lo, ext_cat_hi, ext_app_lo, ext_app_hi, ext_self, Nat.reduceSub, Nat.reduceLT, if_true, if_false, ite_true, ite_false, ofBool_get]
    simp [h1]
  · simp (disch := first | decide | rfl) only [Fields.hdr, Fields.ofHdr, src_one, get_cat, get_app, ext_cat_lo, ext_cat_hi, ext_app_lo, ext_app_hi, ext_self, Nat.reduceSub, Nat.reduceLT, if_true, if_false, ite_true, ite_false, ofBool_get, rnd_code, scope_code, size_code, fmt_code, mulpart_code, cc_code, fcc_code, votemode_code, shflmode_code, laneop_code, atomop_code, ord_code, cachehint_code, Option.getD_some, Fields.dst, dst_eta]
theorem cred (h : Hdr) (d : BitVec 8) (a : Src) (off : BitVec 32) : Statement (.cred h d a off) := by
  intro (hw : (h.wf && a.ok 1 false true) = true)
  simp only [Bool.and_eq_true] at hw
  obtain ⟨hh, h1⟩ := hw
  refine decode_guarded _ _ decCred hh ?_ ?_
  · exact class_C _ 768#10 0 rfl (by decide) (by decide)
  unfold decCred
  refine verdict_eq _ _ _ ?_ ?_
  · simp (disch := first | decide | rfl) only [Fields.common, Fields.ofHdr, List.all_append, List.all_cons, List.all_nil, mask_cat, mask_app, badSrc_bits, twoSel_two, twoSel_three, isSel_bits, imm_one, imm_two, imm_three, dst_nw, src_noSel h1, rnd_code, scope_code, size_code, fmt_code, mulpart_code, cc_code, fcc_code, votemode_code, shflmode_code, laneop_code, atomop_code, ord_code, cachehint_code, get_cat, get_app, ext_cat_lo, ext_cat_hi, ext_app_lo, ext_app_hi, ext_self, Nat.reduceSub, Nat.reduceLT, if_true, if_false, ite_true, ite_false, ofBool_get]
    simp [h1]
  · simp (disch := first | decide | rfl) only [Fields.hdr, Fields.ofHdr, src_noSel h1, get_cat, get_app, ext_cat_lo, ext_cat_hi, ext_app_lo, ext_app_hi, ext_self, Nat.reduceSub, Nat.reduceLT, if_true, if_false, ite_true, ite_false, ofBool_get, rnd_code, scope_code, size_code, fmt_code, mulpart_code, cc_code, fcc_code, votemode_code, shflmode_code, laneop_code, atomop_code, ord_code, cachehint_code, Option.getD_some, Fields.dst, dst_eta]
theorem crsc (h : Hdr) (d : BitVec 8) (a : Src) (off : BitVec 32) : Statement (.crsc h d a off) := by
  intro (hw : (h.wf && a.ok 1 false true) = true)
  simp only [Bool.and_eq_true] at hw
  obtain ⟨hh, h1⟩ := hw
  refine decode_guarded _ _ decCrsc hh ?_ ?_
  · exact class_C _ 769#10 1 rfl (by decide) (by decide)
  unfold decCrsc
  refine verdict_eq _ _ _ ?_ ?_
  · simp (disch := first | decide | rfl) only [Fields.common, Fields.ofHdr, List.all_append, List.all_cons, List.all_nil, mask_cat, mask_app, badSrc_bits, twoSel_two, twoSel_three, isSel_bits, imm_one, imm_two, imm_three, dst_nw, src_noSel h1, rnd_code, scope_code, size_code, fmt_code, mulpart_code, cc_code, fcc_code, votemode_code, shflmode_code, laneop_code, atomop_code, ord_code, cachehint_code, get_cat, get_app, ext_cat_lo, ext_cat_hi, ext_app_lo, ext_app_hi, ext_self, Nat.reduceSub, Nat.reduceLT, if_true, if_false, ite_true, ite_false, ofBool_get]
    simp [h1]
  · simp (disch := first | decide | rfl) only [Fields.hdr, Fields.ofHdr, src_noSel h1, get_cat, get_app, ext_cat_lo, ext_cat_hi, ext_app_lo, ext_app_hi, ext_self, Nat.reduceSub, Nat.reduceLT, if_true, if_false, ite_true, ite_false, ofBool_get, rnd_code, scope_code, size_code, fmt_code, mulpart_code, cc_code, fcc_code, votemode_code, shflmode_code, laneop_code, atomop_code, ord_code, cachehint_code, Option.getD_some, Fields.dst, dst_eta]
theorem cagt (h : Hdr) (d : BitVec 8) (a : Src) (off : BitVec 32) : Statement (.cagt h d a off) := by
  intro (hw : (h.wf && a.ok 1 false true) = true)
  simp only [Bool.and_eq_true] at hw
  obtain ⟨hh, h1⟩ := hw
  refine decode_guarded _ _ decCagt hh ?_ ?_
  · exact class_C _ 770#10 2 rfl (by decide) (by decide)
  unfold decCagt
  refine verdict_eq _ _ _ ?_ ?_
  · simp (disch := first | decide | rfl) only [Fields.common, Fields.ofHdr, List.all_append, List.all_cons, List.all_nil, mask_cat, mask_app, badSrc_bits, twoSel_two, twoSel_three, isSel_bits, imm_one, imm_two, imm_three, dst_nw, src_noSel h1, rnd_code, scope_code, size_code, fmt_code, mulpart_code, cc_code, fcc_code, votemode_code, shflmode_code, laneop_code, atomop_code, ord_code, cachehint_code, get_cat, get_app, ext_cat_lo, ext_cat_hi, ext_app_lo, ext_app_hi, ext_self, Nat.reduceSub, Nat.reduceLT, if_true, if_false, ite_true, ite_false, ofBool_get]
    simp [h1]
  · simp (disch := first | decide | rfl) only [Fields.hdr, Fields.ofHdr, src_noSel h1, get_cat, get_app, ext_cat_lo, ext_cat_hi, ext_app_lo, ext_app_hi, ext_self, Nat.reduceSub, Nat.reduceLT, if_true, if_false, ite_true, ite_false, ofBool_get, rnd_code, scope_code, size_code, fmt_code, mulpart_code, cc_code, fcc_code, votemode_code, shflmode_code, laneop_code, atomop_code, ord_code, cachehint_code, Option.getD_some, Fields.dst, dst_eta]
theorem cbct (h : Hdr) (d : BitVec 8) (a : Src) (off : BitVec 32) : Statement (.cbct h d a off) := by
  intro (hw : (h.wf && a.ok 1 false true) = true)
  simp only [Bool.and_eq_true] at hw
  obtain ⟨hh, h1⟩ := hw
  refine decode_guarded _ _ decCbct hh ?_ ?_
  · exact class_C _ 771#10 3 rfl (by decide) (by decide)
  unfold decCbct
  refine verdict_eq _ _ _ ?_ ?_
  · simp (disch := first | decide | rfl) only [Fields.common, Fields.ofHdr, List.all_append, List.all_cons, List.all_nil, mask_cat, mask_app, badSrc_bits, twoSel_two, twoSel_three, isSel_bits, imm_one, imm_two, imm_three, dst_nw, src_noSel h1, rnd_code, scope_code, size_code, fmt_code, mulpart_code, cc_code, fcc_code, votemode_code, shflmode_code, laneop_code, atomop_code, ord_code, cachehint_code, get_cat, get_app, ext_cat_lo, ext_cat_hi, ext_app_lo, ext_app_hi, ext_self, Nat.reduceSub, Nat.reduceLT, if_true, if_false, ite_true, ite_false, ofBool_get]
    simp [h1]
  · simp (disch := first | decide | rfl) only [Fields.hdr, Fields.ofHdr, src_noSel h1, get_cat, get_app, ext_cat_lo, ext_cat_hi, ext_app_lo, ext_app_hi, ext_self, Nat.reduceSub, Nat.reduceLT, if_true, if_false, ite_true, ite_false, ofBool_get, rnd_code, scope_code, size_code, fmt_code, mulpart_code, cc_code, fcc_code, votemode_code, shflmode_code, laneop_code, atomop_code, ord_code, cachehint_code, Option.getD_some, Fields.dst, dst_eta]
theorem cwait (h : Hdr) (d : BitVec 8) (a : Src) : Statement (.cwait h d a) := by
  intro (hw : (h.wf && a.ok 1 true true) = true)
  simp only [Bool.and_eq_true] at hw
  obtain ⟨hh, h1⟩ := hw
  refine decode_guarded _ _ decCwait hh ?_ ?_
  · exact class_C _ 772#10 4 rfl (by decide) (by decide)
  unfold decCwait
  refine verdict_eq _ _ _ ?_ ?_
  · simp (disch := first | decide | rfl) only [Fields.common, Fields.ofHdr, List.all_append, List.all_cons, List.all_nil, mask_cat, mask_app, badSrc_bits, twoSel_two, twoSel_three, isSel_bits, imm_one, imm_two, imm_three, dst_nw, src_one, rnd_code, scope_code, size_code, fmt_code, mulpart_code, cc_code, fcc_code, votemode_code, shflmode_code, laneop_code, atomop_code, ord_code, cachehint_code, get_cat, get_app, ext_cat_lo, ext_cat_hi, ext_app_lo, ext_app_hi, ext_self, Nat.reduceSub, Nat.reduceLT, if_true, if_false, ite_true, ite_false, ofBool_get]
    simp [h1]
  · simp (disch := first | decide | rfl) only [Fields.hdr, Fields.ofHdr, src_one, get_cat, get_app, ext_cat_lo, ext_cat_hi, ext_app_lo, ext_app_hi, ext_self, Nat.reduceSub, Nat.reduceLT, if_true, if_false, ite_true, ite_false, ofBool_get, rnd_code, scope_code, size_code, fmt_code, mulpart_code, cc_code, fcc_code, votemode_code, shflmode_code, laneop_code, atomop_code, ord_code, cachehint_code, Option.getD_some, Fields.dst, dst_eta]
theorem cstat (h : Hdr) (d : BitVec 8) (a : Src) (what : BitVec 2) : Statement (.cstat h d a what) := by
  intro (hw : (h.wf && a.ok 1 false true) = true)
  simp only [Bool.and_eq_true] at hw
  obtain ⟨hh, h1⟩ := hw
  refine decode_guarded _ _ decCstat hh ?_ ?_
  · exact class_C _ 773#10 5 rfl (by decide) (by decide)
  unfold decCstat
  refine verdict_eq _ _ _ ?_ ?_
  · simp (disch := first | decide | rfl) only [Fields.common, Fields.ofHdr, List.all_append, List.all_cons, List.all_nil, mask_cat, mask_app, badSrc_bits, twoSel_two, twoSel_three, isSel_bits, imm_one, imm_two, imm_three, dst_nw, src_noSel h1, rnd_code, scope_code, size_code, fmt_code, mulpart_code, cc_code, fcc_code, votemode_code, shflmode_code, laneop_code, atomop_code, ord_code, cachehint_code, get_cat, get_app, ext_cat_lo, ext_cat_hi, ext_app_lo, ext_app_hi, ext_self, Nat.reduceSub, Nat.reduceLT, if_true, if_false, ite_true, ite_false, ofBool_get]
    simp [h1]
  · simp (disch := first | decide | rfl) only [Fields.hdr, Fields.ofHdr, src_noSel h1, get_cat, get_app, ext_cat_lo, ext_cat_hi, ext_app_lo, ext_app_hi, ext_self, Nat.reduceSub, Nat.reduceLT, if_true, if_false, ite_true, ite_false, ofBool_get, rnd_code, scope_code, size_code, fmt_code, mulpart_code, cc_code, fcc_code, votemode_code, shflmode_code, laneop_code, atomop_code, ord_code, cachehint_code, Option.getD_some, Fields.dst, dst_eta]
theorem sqtab (h : Hdr) (d : BitVec 8) (a : Src) (tab : BitVec 4) (off : BitVec 32) : Statement (.sqtab h d a tab off) := by
  intro (hw : (h.wf && a.ok 1 false true) = true)
  simp only [Bool.and_eq_true] at hw
  obtain ⟨hh, h1⟩ := hw
  refine decode_guarded _ _ decSqtab hh ?_ ?_
  · exact class_C _ 774#10 6 rfl (by decide) (by decide)
  unfold decSqtab
  refine verdict_eq _ _ _ ?_ ?_
  · simp (disch := first | decide | rfl) only [Fields.common, Fields.ofHdr, List.all_append, List.all_cons, List.all_nil, mask_cat, mask_app, badSrc_bits, twoSel_two, twoSel_three, isSel_bits, imm_one, imm_two, imm_three, dst_nw, src_noSel h1, rnd_code, scope_code, size_code, fmt_code, mulpart_code, cc_code, fcc_code, votemode_code, shflmode_code, laneop_code, atomop_code, ord_code, cachehint_code, get_cat, get_app, ext_cat_lo, ext_cat_hi, ext_app_lo, ext_app_hi, ext_self, Nat.reduceSub, Nat.reduceLT, if_true, if_false, ite_true, ite_false, ofBool_get]
    simp [h1]
  · simp (disch := first | decide | rfl) only [Fields.hdr, Fields.ofHdr, src_noSel h1, get_cat, get_app, ext_cat_lo, ext_cat_hi, ext_app_lo, ext_app_hi, ext_self, Nat.reduceSub, Nat.reduceLT, if_true, if_false, ite_true, ite_false, ofBool_get, rnd_code, scope_code, size_code, fmt_code, mulpart_code, cc_code, fcc_code, votemode_code, shflmode_code, laneop_code, atomop_code, ord_code, cachehint_code, Option.getD_some, Fields.dst, dst_eta]
theorem sqdef (h : Hdr) (d : BitVec 8) (a : Src) (off : BitVec 32) : Statement (.sqdef h d a off) := by
  intro (hw : (h.wf && a.ok 1 false true) = true)
  simp only [Bool.and_eq_true] at hw
  obtain ⟨hh, h1⟩ := hw
  refine decode_guarded _ _ decSqdef hh ?_ ?_
  · exact class_C _ 775#10 7 rfl (by decide) (by decide)
  unfold decSqdef
  refine verdict_eq _ _ _ ?_ ?_
  · simp (disch := first | decide | rfl) only [Fields.common, Fields.ofHdr, List.all_append, List.all_cons, List.all_nil, mask_cat, mask_app, badSrc_bits, twoSel_two, twoSel_three, isSel_bits, imm_one, imm_two, imm_three, dst_nw, src_noSel h1, rnd_code, scope_code, size_code, fmt_code, mulpart_code, cc_code, fcc_code, votemode_code, shflmode_code, laneop_code, atomop_code, ord_code, cachehint_code, get_cat, get_app, ext_cat_lo, ext_cat_hi, ext_app_lo, ext_app_hi, ext_self, Nat.reduceSub, Nat.reduceLT, if_true, if_false, ite_true, ite_false, ofBool_get]
    simp [h1]
  · simp (disch := first | decide | rfl) only [Fields.hdr, Fields.ofHdr, src_noSel h1, get_cat, get_app, ext_cat_lo, ext_cat_hi, ext_app_lo, ext_app_hi, ext_self, Nat.reduceSub, Nat.reduceLT, if_true, if_false, ite_true, ite_false, ofBool_get, rnd_code, scope_code, size_code, fmt_code, mulpart_code, cc_code, fcc_code, votemode_code, shflmode_code, laneop_code, atomop_code, ord_code, cachehint_code, Option.getD_some, Fields.dst, dst_eta]
theorem sqgo (h : Hdr) (d : BitVec 8) (a : Src) : Statement (.sqgo h d a) := by
  intro (hw : (h.wf && a.ok 1 true true) = true)
  simp only [Bool.and_eq_true] at hw
  obtain ⟨hh, h1⟩ := hw
  refine decode_guarded _ _ decSqgo hh ?_ ?_
  · exact class_C _ 776#10 8 rfl (by decide) (by decide)
  unfold decSqgo
  refine verdict_eq _ _ _ ?_ ?_
  · simp (disch := first | decide | rfl) only [Fields.common, Fields.ofHdr, List.all_append, List.all_cons, List.all_nil, mask_cat, mask_app, badSrc_bits, twoSel_two, twoSel_three, isSel_bits, imm_one, imm_two, imm_three, dst_nw, src_one, rnd_code, scope_code, size_code, fmt_code, mulpart_code, cc_code, fcc_code, votemode_code, shflmode_code, laneop_code, atomop_code, ord_code, cachehint_code, get_cat, get_app, ext_cat_lo, ext_cat_hi, ext_app_lo, ext_app_hi, ext_self, Nat.reduceSub, Nat.reduceLT, if_true, if_false, ite_true, ite_false, ofBool_get]
    simp [h1]
  · simp (disch := first | decide | rfl) only [Fields.hdr, Fields.ofHdr, src_one, get_cat, get_app, ext_cat_lo, ext_cat_hi, ext_app_lo, ext_app_hi, ext_self, Nat.reduceSub, Nat.reduceLT, if_true, if_false, ite_true, ite_false, ofBool_get, rnd_code, scope_code, size_code, fmt_code, mulpart_code, cc_code, fcc_code, votemode_code, shflmode_code, laneop_code, atomop_code, ord_code, cachehint_code, Option.getD_some, Fields.dst, dst_eta]
theorem sqstat (h : Hdr) (d : BitVec 8) (a : Src) (b : Src) (what : BitVec 3) : Statement (.sqstat h d a b what) := by
  intro (hw : (h.wf && a.ok 1 false true && b.ok 1 false true && (what != 7)) = true)
  simp only [Bool.and_eq_true] at hw
  obtain ⟨⟨⟨hh, h1⟩, h2⟩, h3⟩ := hw
  refine decode_guarded _ _ decSqstat hh ?_ ?_
  · exact class_C _ 777#10 9 rfl (by decide) (by decide)
  unfold decSqstat
  refine verdict_eq _ _ _ ?_ ?_
  · simp (disch := first | decide | rfl) only [Fields.common, Fields.ofHdr, List.all_append, List.all_cons, List.all_nil, mask_cat, mask_app, badSrc_bits, twoSel_two, twoSel_three, isSel_bits, imm_one, imm_two, imm_three, dst_nw, src_noSel h1, src_noSel h2, rnd_code, scope_code, size_code, fmt_code, mulpart_code, cc_code, fcc_code, votemode_code, shflmode_code, laneop_code, atomop_code, ord_code, cachehint_code, get_cat, get_app, ext_cat_lo, ext_cat_hi, ext_app_lo, ext_app_hi, ext_self, Nat.reduceSub, Nat.reduceLT, if_true, if_false, ite_true, ite_false, ofBool_get]
    simp_all [dst_bad]
  · simp (disch := first | decide | rfl) only [Fields.hdr, Fields.ofHdr, src_noSel h1, src_noSel h2, get_cat, get_app, ext_cat_lo, ext_cat_hi, ext_app_lo, ext_app_hi, ext_self, Nat.reduceSub, Nat.reduceLT, if_true, if_false, ite_true, ite_false, ofBool_get, rnd_code, scope_code, size_code, fmt_code, mulpart_code, cc_code, fcc_code, votemode_code, shflmode_code, laneop_code, atomop_code, ord_code, cachehint_code, Option.getD_some, Fields.dst, dst_eta]
theorem sqabt (h : Hdr) (d : BitVec 8) (a : Src) (free : Bool) : Statement (.sqabt h d a free) := by
  intro (hw : (h.wf && a.ok 1 true true) = true)
  simp only [Bool.and_eq_true] at hw
  obtain ⟨hh, h1⟩ := hw
  refine decode_guarded _ _ decSqabt hh ?_ ?_
  · exact class_C _ 778#10 10 rfl (by decide) (by decide)
  unfold decSqabt
  refine verdict_eq _ _ _ ?_ ?_
  · simp (disch := first | decide | rfl) only [Fields.common, Fields.ofHdr, List.all_append, List.all_cons, List.all_nil, mask_cat, mask_app, badSrc_bits, twoSel_two, twoSel_three, isSel_bits, imm_one, imm_two, imm_three, dst_nw, src_one, rnd_code, scope_code, size_code, fmt_code, mulpart_code, cc_code, fcc_code, votemode_code, shflmode_code, laneop_code, atomop_code, ord_code, cachehint_code, get_cat, get_app, ext_cat_lo, ext_cat_hi, ext_app_lo, ext_app_hi, ext_self, Nat.reduceSub, Nat.reduceLT, if_true, if_false, ite_true, ite_false, ofBool_get]
    simp [h1]
  · simp (disch := first | decide | rfl) only [Fields.hdr, Fields.ofHdr, src_one, get_cat, get_app, ext_cat_lo, ext_cat_hi, ext_app_lo, ext_app_hi, ext_self, Nat.reduceSub, Nat.reduceLT, if_true, if_false, ite_true, ite_false, ofBool_get, rnd_code, scope_code, size_code, fmt_code, mulpart_code, cc_code, fcc_code, votemode_code, shflmode_code, laneop_code, atomop_code, ord_code, cachehint_code, Option.getD_some, Fields.dst, dst_eta]
theorem trap (h : Hdr) (code : BitVec 16) (kill : Bool) : Statement (.trap h code kill) := by
  intro (hw : (h.wf) = true)
  have hh := hw
  refine decode_guarded _ _ decTrap hh ?_ ?_
  · exact class_D _ 832#10 0 rfl (by decide) (by decide)
  unfold decTrap
  refine verdict_eq _ _ _ ?_ ?_
  · simp (disch := first | decide | rfl) only [Fields.common, Fields.ofHdr, List.all_append, List.all_cons, List.all_nil, mask_cat, mask_app, badSrc_bits, twoSel_two, twoSel_three, isSel_bits, imm_one, imm_two, imm_three, dst_nw, rnd_code, scope_code, size_code, fmt_code, mulpart_code, cc_code, fcc_code, votemode_code, shflmode_code, laneop_code, atomop_code, ord_code, cachehint_code, get_cat, get_app, ext_cat_lo, ext_cat_hi, ext_app_lo, ext_app_hi, ext_self, Nat.reduceSub, Nat.reduceLT, if_true, if_false, ite_true, ite_false, ofBool_get]
    simp
  · simp (disch := first | decide | rfl) only [Fields.hdr, Fields.ofHdr, get_cat, get_app, ext_cat_lo, ext_cat_hi, ext_app_lo, ext_app_hi, ext_self, Nat.reduceSub, Nat.reduceLT, if_true, if_false, ite_true, ite_false, ofBool_get, rnd_code, scope_code, size_code, fmt_code, mulpart_code, cc_code, fcc_code, votemode_code, shflmode_code, laneop_code, atomop_code, ord_code, cachehint_code, Option.getD_some, Fields.dst, dst_eta]
theorem rtt (h : Hdr) : Statement (.rtt h) := by
  intro (hw : (h.wf) = true)
  have hh := hw
  refine decode_guarded _ _ decRtt hh ?_ ?_
  · refine (class_D _ 833#10 1 rfl (by decide) (by decide)).trans ?_
    simp (disch := decide) only [decClassD, Fields.ofHdr, BitVec.reduceExtractLsb', BitVec.toNat_ofNat, BitVec.reduceToNat, get_cat, get_app, ext_cat_lo, ext_cat_hi, ext_app_lo, ext_app_hi, ext_self, Nat.reduceSub, Nat.reduceLT, if_true, if_false, ite_true, ite_false, ofBool_get]
  unfold decRtt
  refine verdict_eq _ _ _ ?_ ?_
  · simp (disch := first | decide | rfl) only [Fields.common, Fields.ofHdr, List.all_append, List.all_cons, List.all_nil, mask_cat, mask_app, badSrc_bits, twoSel_two, twoSel_three, isSel_bits, imm_one, imm_two, imm_three, dst_nw, rnd_code, scope_code, size_code, fmt_code, mulpart_code, cc_code, fcc_code, votemode_code, shflmode_code, laneop_code, atomop_code, ord_code, cachehint_code, get_cat, get_app, ext_cat_lo, ext_cat_hi, ext_app_lo, ext_app_hi, ext_self, Nat.reduceSub, Nat.reduceLT, if_true, if_false, ite_true, ite_false, ofBool_get]
    simp
  · simp (disch := first | decide | rfl) only [Fields.hdr, Fields.ofHdr, get_cat, get_app, ext_cat_lo, ext_cat_hi, ext_app_lo, ext_app_hi, ext_self, Nat.reduceSub, Nat.reduceLT, if_true, if_false, ite_true, ite_false, ofBool_get, rnd_code, scope_code, size_code, fmt_code, mulpart_code, cc_code, fcc_code, votemode_code, shflmode_code, laneop_code, atomop_code, ord_code, cachehint_code, Option.getD_some, Fields.dst, dst_eta]
theorem rttSkip (h : Hdr) : Statement (.rttSkip h) := by
  intro (hw : (h.wf) = true)
  have hh := hw
  refine decode_guarded _ _ decRttSkip hh ?_ ?_
  · refine (class_D _ 833#10 1 rfl (by decide) (by decide)).trans ?_
    simp (disch := decide) only [decClassD, Fields.ofHdr, BitVec.reduceExtractLsb', BitVec.toNat_ofNat, BitVec.reduceToNat, get_cat, get_app, ext_cat_lo, ext_cat_hi, ext_app_lo, ext_app_hi, ext_self, Nat.reduceSub, Nat.reduceLT, if_true, if_false, ite_true, ite_false, ofBool_get]
  unfold decRttSkip
  refine verdict_eq _ _ _ ?_ ?_
  · simp (disch := first | decide | rfl) only [Fields.common, Fields.ofHdr, List.all_append, List.all_cons, List.all_nil, mask_cat, mask_app, badSrc_bits, twoSel_two, twoSel_three, isSel_bits, imm_one, imm_two, imm_three, dst_nw, rnd_code, scope_code, size_code, fmt_code, mulpart_code, cc_code, fcc_code, votemode_code, shflmode_code, laneop_code, atomop_code, ord_code, cachehint_code, get_cat, get_app, ext_cat_lo, ext_cat_hi, ext_app_lo, ext_app_hi, ext_self, Nat.reduceSub, Nat.reduceLT, if_true, if_false, ite_true, ite_false, ofBool_get]
    simp
  · simp (disch := first | decide | rfl) only [Fields.hdr, Fields.ofHdr, get_cat, get_app, ext_cat_lo, ext_cat_hi, ext_app_lo, ext_app_hi, ext_self, Nat.reduceSub, Nat.reduceLT, if_true, if_false, ite_true, ite_false, ofBool_get, rnd_code, scope_code, size_code, fmt_code, mulpart_code, cc_code, fcc_code, votemode_code, shflmode_code, laneop_code, atomop_code, ord_code, cachehint_code, Option.getD_some, Fields.dst, dst_eta]
theorem sets (h : Hdr) (sr : BitVec 8) (a : Src) : Statement (.sets h sr a) := by
  intro (hw : (h.wf && a.ok 1 true true && (sregWritable sr)) = true)
  simp only [Bool.and_eq_true] at hw
  obtain ⟨⟨hh, h1⟩, h2⟩ := hw
  refine decode_guarded _ _ decSets hh ?_ ?_
  · exact class_D _ 834#10 2 rfl (by decide) (by decide)
  unfold decSets
  refine verdict_eq _ _ _ ?_ ?_
  · simp (disch := first | decide | rfl) only [Fields.common, Fields.ofHdr, List.all_append, List.all_cons, List.all_nil, mask_cat, mask_app, badSrc_bits, twoSel_two, twoSel_three, isSel_bits, imm_one, imm_two, imm_three, dst_nw, src_one, rnd_code, scope_code, size_code, fmt_code, mulpart_code, cc_code, fcc_code, votemode_code, shflmode_code, laneop_code, atomop_code, ord_code, cachehint_code, get_cat, get_app, ext_cat_lo, ext_cat_hi, ext_app_lo, ext_app_hi, ext_self, Nat.reduceSub, Nat.reduceLT, if_true, if_false, ite_true, ite_false, ofBool_get]
    simp [h1, h2]
  · simp (disch := first | decide | rfl) only [Fields.hdr, Fields.ofHdr, src_one, get_cat, get_app, ext_cat_lo, ext_cat_hi, ext_app_lo, ext_app_hi, ext_self, Nat.reduceSub, Nat.reduceLT, if_true, if_false, ite_true, ite_false, ofBool_get, rnd_code, scope_code, size_code, fmt_code, mulpart_code, cc_code, fcc_code, votemode_code, shflmode_code, laneop_code, atomop_code, ord_code, cachehint_code, Option.getD_some, Fields.dst, dst_eta]
theorem ychk (h : Hdr) (d : BitVec 8) : Statement (.ychk h d) := by
  intro (hw : (h.wf) = true)
  have hh := hw
  refine decode_guarded _ _ decYchk hh ?_ ?_
  · exact class_D _ 835#10 3 rfl (by decide) (by decide)
  unfold decYchk
  refine verdict_eq _ _ _ ?_ ?_
  · simp (disch := first | decide | rfl) only [Fields.common, Fields.ofHdr, List.all_append, List.all_cons, List.all_nil, mask_cat, mask_app, badSrc_bits, twoSel_two, twoSel_three, isSel_bits, imm_one, imm_two, imm_three, dst_nw, rnd_code, scope_code, size_code, fmt_code, mulpart_code, cc_code, fcc_code, votemode_code, shflmode_code, laneop_code, atomop_code, ord_code, cachehint_code, get_cat, get_app, ext_cat_lo, ext_cat_hi, ext_app_lo, ext_app_hi, ext_self, Nat.reduceSub, Nat.reduceLT, if_true, if_false, ite_true, ite_false, ofBool_get]
    simp
  · simp (disch := first | decide | rfl) only [Fields.hdr, Fields.ofHdr, get_cat, get_app, ext_cat_lo, ext_cat_hi, ext_app_lo, ext_app_hi, ext_self, Nat.reduceSub, Nat.reduceLT, if_true, if_false, ite_true, ite_false, ofBool_get, rnd_code, scope_code, size_code, fmt_code, mulpart_code, cc_code, fcc_code, votemode_code, shflmode_code, laneop_code, atomop_code, ord_code, cachehint_code, Option.getD_some, Fields.dst, dst_eta]
theorem wgsave (h : Hdr) (d : BitVec 8) (a : Src) (b : Src) (off : BitVec 32) : Statement (.wgsave h d a b off) := by
  intro (hw : (h.wf && a.ok 2 false false && b.ok 1 false true) = true)
  simp only [Bool.and_eq_true] at hw
  obtain ⟨⟨hh, h1⟩, h2⟩ := hw
  refine decode_guarded _ _ decWgsave hh ?_ ?_
  · exact class_D _ 836#10 4 rfl (by decide) (by decide)
  unfold decWgsave
  refine verdict_eq _ _ _ ?_ ?_
  · simp (disch := first | decide | rfl) only [Fields.common, Fields.ofHdr, List.all_append, List.all_cons, List.all_nil, mask_cat, mask_app, badSrc_bits, twoSel_two, twoSel_three, isSel_bits, imm_one, imm_two, imm_three, dst_nw, src_noSel h1, src_noSel h2, rnd_code, scope_code, size_code, fmt_code, mulpart_code, cc_code, fcc_code, votemode_code, shflmode_code, laneop_code, atomop_code, ord_code, cachehint_code, get_cat, get_app, ext_cat_lo, ext_cat_hi, ext_app_lo, ext_app_hi, ext_self, Nat.reduceSub, Nat.reduceLT, if_true, if_false, ite_true, ite_false, ofBool_get]
    simp [h1, h2]
  · simp (disch := first | decide | rfl) only [Fields.hdr, Fields.ofHdr, src_noSel h1, src_noSel h2, get_cat, get_app, ext_cat_lo, ext_cat_hi, ext_app_lo, ext_app_hi, ext_self, Nat.reduceSub, Nat.reduceLT, if_true, if_false, ite_true, ite_false, ofBool_get, rnd_code, scope_code, size_code, fmt_code, mulpart_code, cc_code, fcc_code, votemode_code, shflmode_code, laneop_code, atomop_code, ord_code, cachehint_code, Option.getD_some, Fields.dst, dst_eta]
theorem ecnt (h : Hdr) (d : BitVec 8) : Statement (.ecnt h d) := by
  intro (hw : (h.wf && d.toNat % 2 == 0) = true)
  simp only [Bool.and_eq_true] at hw
  obtain ⟨hh, h1⟩ := hw
  refine decode_guarded _ _ decEcnt hh ?_ ?_
  · exact class_D _ 837#10 5 rfl (by decide) (by decide)
  unfold decEcnt
  refine verdict_eq _ _ _ ?_ ?_
  · simp (disch := first | decide | rfl) only [Fields.common, Fields.ofHdr, List.all_append, List.all_cons, List.all_nil, mask_cat, mask_app, badSrc_bits, twoSel_two, twoSel_three, isSel_bits, imm_one, imm_two, imm_three, dst_nw, rnd_code, scope_code, size_code, fmt_code, mulpart_code, cc_code, fcc_code, votemode_code, shflmode_code, laneop_code, atomop_code, ord_code, cachehint_code, get_cat, get_app, ext_cat_lo, ext_cat_hi, ext_app_lo, ext_app_hi, ext_self, Nat.reduceSub, Nat.reduceLT, if_true, if_false, ite_true, ite_false, ofBool_get]
    simp [mod_bad h1]
  · simp (disch := first | decide | rfl) only [Fields.hdr, Fields.ofHdr, get_cat, get_app, ext_cat_lo, ext_cat_hi, ext_app_lo, ext_app_hi, ext_self, Nat.reduceSub, Nat.reduceLT, if_true, if_false, ite_true, ite_false, ofBool_get, rnd_code, scope_code, size_code, fmt_code, mulpart_code, cc_code, fcc_code, votemode_code, shflmode_code, laneop_code, atomop_code, ord_code, cachehint_code, Option.getD_some, Fields.dst, dst_eta]
theorem tlbinvPage (h : Hdr) (a : Src) (b : Src) : Statement (.tlbinvPage h a b) := by
  intro (hw : (h.wf && a.ok 2 false false && b.ok 1 false true) = true)
  simp only [Bool.and_eq_true] at hw
  obtain ⟨⟨hh, h1⟩, h2⟩ := hw
  refine decode_guarded _ _ decTlbinvPage hh ?_ ?_
  · refine (class_D _ 838#10 6 rfl (by decide) (by decide)).trans ?_
    simp (disch := decide) only [decClassD, Fields.ofHdr, BitVec.reduceExtractLsb', BitVec.toNat_ofNat, BitVec.reduceToNat, get_cat, get_app, ext_cat_lo, ext_cat_hi, ext_app_lo, ext_app_hi, ext_self, Nat.reduceSub, Nat.reduceLT, if_true, if_false, ite_true, ite_false, ofBool_get]
  unfold decTlbinvPage
  refine verdict_eq _ _ _ ?_ ?_
  · simp (disch := first | decide | rfl) only [Fields.common, Fields.ofHdr, List.all_append, List.all_cons, List.all_nil, mask_cat, mask_app, badSrc_bits, twoSel_two, twoSel_three, isSel_bits, imm_one, imm_two, imm_three, dst_nw, src_noSel h1, src_noSel h2, rnd_code, scope_code, size_code, fmt_code, mulpart_code, cc_code, fcc_code, votemode_code, shflmode_code, laneop_code, atomop_code, ord_code, cachehint_code, get_cat, get_app, ext_cat_lo, ext_cat_hi, ext_app_lo, ext_app_hi, ext_self, Nat.reduceSub, Nat.reduceLT, if_true, if_false, ite_true, ite_false, ofBool_get]
    simp [h1, h2]
  · simp (disch := first | decide | rfl) only [Fields.hdr, Fields.ofHdr, src_noSel h1, src_noSel h2, get_cat, get_app, ext_cat_lo, ext_cat_hi, ext_app_lo, ext_app_hi, ext_self, Nat.reduceSub, Nat.reduceLT, if_true, if_false, ite_true, ite_false, ofBool_get, rnd_code, scope_code, size_code, fmt_code, mulpart_code, cc_code, fcc_code, votemode_code, shflmode_code, laneop_code, atomop_code, ord_code, cachehint_code, Option.getD_some, Fields.dst, dst_eta]
theorem tlbinvAsid (h : Hdr) (b : Src) : Statement (.tlbinvAsid h b) := by
  intro (hw : (h.wf && b.ok 1 false true) = true)
  simp only [Bool.and_eq_true] at hw
  obtain ⟨hh, h1⟩ := hw
  refine decode_guarded _ _ decTlbinvAsid hh ?_ ?_
  · refine (class_D _ 838#10 6 rfl (by decide) (by decide)).trans ?_
    simp (disch := decide) only [decClassD, Fields.ofHdr, BitVec.reduceExtractLsb', BitVec.toNat_ofNat, BitVec.reduceToNat, get_cat, get_app, ext_cat_lo, ext_cat_hi, ext_app_lo, ext_app_hi, ext_self, Nat.reduceSub, Nat.reduceLT, if_true, if_false, ite_true, ite_false, ofBool_get]
  unfold decTlbinvAsid
  refine verdict_eq _ _ _ ?_ ?_
  · simp (disch := first | decide | rfl) only [Fields.common, Fields.ofHdr, List.all_append, List.all_cons, List.all_nil, mask_cat, mask_app, badSrc_bits, twoSel_two, twoSel_three, isSel_bits, imm_one, imm_two, imm_three, dst_nw, src_noSel h1, rnd_code, scope_code, size_code, fmt_code, mulpart_code, cc_code, fcc_code, votemode_code, shflmode_code, laneop_code, atomop_code, ord_code, cachehint_code, get_cat, get_app, ext_cat_lo, ext_cat_hi, ext_app_lo, ext_app_hi, ext_self, Nat.reduceSub, Nat.reduceLT, if_true, if_false, ite_true, ite_false, ofBool_get]
    simp [h1]
  · simp (disch := first | decide | rfl) only [Fields.hdr, Fields.ofHdr, src_noSel h1, get_cat, get_app, ext_cat_lo, ext_cat_hi, ext_app_lo, ext_app_hi, ext_self, Nat.reduceSub, Nat.reduceLT, if_true, if_false, ite_true, ite_false, ofBool_get, rnd_code, scope_code, size_code, fmt_code, mulpart_code, cc_code, fcc_code, votemode_code, shflmode_code, laneop_code, atomop_code, ord_code, cachehint_code, Option.getD_some, Fields.dst, dst_eta]
theorem tlbinvAll (h : Hdr) : Statement (.tlbinvAll h) := by
  intro (hw : (h.wf) = true)
  have hh := hw
  refine decode_guarded _ _ decTlbinvAll hh ?_ ?_
  · refine (class_D _ 838#10 6 rfl (by decide) (by decide)).trans ?_
    simp (disch := decide) only [decClassD, Fields.ofHdr, BitVec.reduceExtractLsb', BitVec.toNat_ofNat, BitVec.reduceToNat, get_cat, get_app, ext_cat_lo, ext_cat_hi, ext_app_lo, ext_app_hi, ext_self, Nat.reduceSub, Nat.reduceLT, if_true, if_false, ite_true, ite_false, ofBool_get]
  unfold decTlbinvAll
  refine verdict_eq _ _ _ ?_ ?_
  · simp (disch := first | decide | rfl) only [Fields.common, Fields.ofHdr, List.all_append, List.all_cons, List.all_nil, mask_cat, mask_app, badSrc_bits, twoSel_two, twoSel_three, isSel_bits, imm_one, imm_two, imm_three, dst_nw, rnd_code, scope_code, size_code, fmt_code, mulpart_code, cc_code, fcc_code, votemode_code, shflmode_code, laneop_code, atomop_code, ord_code, cachehint_code, get_cat, get_app, ext_cat_lo, ext_cat_hi, ext_app_lo, ext_app_hi, ext_self, Nat.reduceSub, Nat.reduceLT, if_true, if_false, ite_true, ite_false, ofBool_get]
    simp
  · simp (disch := first | decide | rfl) only [Fields.hdr, Fields.ofHdr, get_cat, get_app, ext_cat_lo, ext_cat_hi, ext_app_lo, ext_app_hi, ext_self, Nat.reduceSub, Nat.reduceLT, if_true, if_false, ite_true, ite_false, ofBool_get, rnd_code, scope_code, size_code, fmt_code, mulpart_code, cc_code, fcc_code, votemode_code, shflmode_code, laneop_code, atomop_code, ord_code, cachehint_code, Option.getD_some, Fields.dst, dst_eta]
theorem asidnew (h : Hdr) (d : BitVec 8) (a : Src) : Statement (.asidnew h d a) := by
  intro (hw : (h.wf && a.ok 1 true true) = true)
  simp only [Bool.and_eq_true] at hw
  obtain ⟨hh, h1⟩ := hw
  refine decode_guarded _ _ decAsidnew hh ?_ ?_
  · exact class_D _ 839#10 7 rfl (by decide) (by decide)
  unfold decAsidnew
  refine verdict_eq _ _ _ ?_ ?_
  · simp (disch := first | decide | rfl) only [Fields.common, Fields.ofHdr, List.all_append, List.all_cons, List.all_nil, mask_cat, mask_app, badSrc_bits, twoSel_two, twoSel_three, isSel_bits, imm_one, imm_two, imm_three, dst_nw, src_one, rnd_code, scope_code, size_code, fmt_code, mulpart_code, cc_code, fcc_code, votemode_code, shflmode_code, laneop_code, atomop_code, ord_code, cachehint_code, get_cat, get_app, ext_cat_lo, ext_cat_hi, ext_app_lo, ext_app_hi, ext_self, Nat.reduceSub, Nat.reduceLT, if_true, if_false, ite_true, ite_false, ofBool_get]
    simp [h1]
  · simp (disch := first | decide | rfl) only [Fields.hdr, Fields.ofHdr, src_one, get_cat, get_app, ext_cat_lo, ext_cat_hi, ext_app_lo, ext_app_hi, ext_self, Nat.reduceSub, Nat.reduceLT, if_true, if_false, ite_true, ite_false, ofBool_get, rnd_code, scope_code, size_code, fmt_code, mulpart_code, cc_code, fcc_code, votemode_code, shflmode_code, laneop_code, atomop_code, ord_code, cachehint_code, Option.getD_some, Fields.dst, dst_eta]
theorem harvest (h : Hdr) (all : Bool) : Statement (.harvest h all) := by
  intro (hw : (h.wf) = true)
  have hh := hw
  refine decode_guarded _ _ decHarvest hh ?_ ?_
  · exact class_D _ 840#10 8 rfl (by decide) (by decide)
  unfold decHarvest
  refine verdict_eq _ _ _ ?_ ?_
  · simp (disch := first | decide | rfl) only [Fields.common, Fields.ofHdr, List.all_append, List.all_cons, List.all_nil, mask_cat, mask_app, badSrc_bits, twoSel_two, twoSel_three, isSel_bits, imm_one, imm_two, imm_three, dst_nw, rnd_code, scope_code, size_code, fmt_code, mulpart_code, cc_code, fcc_code, votemode_code, shflmode_code, laneop_code, atomop_code, ord_code, cachehint_code, get_cat, get_app, ext_cat_lo, ext_cat_hi, ext_app_lo, ext_app_hi, ext_self, Nat.reduceSub, Nat.reduceLT, if_true, if_false, ite_true, ite_false, ofBool_get]
    simp
  · simp (disch := first | decide | rfl) only [Fields.hdr, Fields.ofHdr, get_cat, get_app, ext_cat_lo, ext_cat_hi, ext_app_lo, ext_app_hi, ext_self, Nat.reduceSub, Nat.reduceLT, if_true, if_false, ite_true, ite_false, ofBool_get, rnd_code, scope_code, size_code, fmt_code, mulpart_code, cc_code, fcc_code, votemode_code, shflmode_code, laneop_code, atomop_code, ord_code, cachehint_code, Option.getD_some, Fields.dst, dst_eta]
theorem logrdEnt (h : Hdr) (d : BitVec 8) (e : BitVec 3) (w : BitVec 4) : Statement (.logrdEnt h d e w) := by
  intro (hw : (h.wf && (w.toNat ≤ 9)) = true)
  simp only [Bool.and_eq_true] at hw
  obtain ⟨hh, h1⟩ := hw
  refine decode_guarded _ _ decLogrdEnt hh ?_ ?_
  · refine (class_D _ 841#10 9 rfl (by decide) (by decide)).trans ?_
    simp (disch := decide) only [decClassD, Fields.ofHdr, BitVec.reduceExtractLsb', BitVec.toNat_ofNat, BitVec.reduceToNat, get_cat, get_app, ext_cat_lo, ext_cat_hi, ext_app_lo, ext_app_hi, ext_self, Nat.reduceSub, Nat.reduceLT, if_true, if_false, ite_true, ite_false, ofBool_get]
  unfold decLogrdEnt
  refine verdict_eq _ _ _ ?_ ?_
  · simp (disch := first | decide | rfl) only [Fields.common, Fields.ofHdr, List.all_append, List.all_cons, List.all_nil, mask_cat, mask_app, badSrc_bits, twoSel_two, twoSel_three, isSel_bits, imm_one, imm_two, imm_three, dst_nw, rnd_code, scope_code, size_code, fmt_code, mulpart_code, cc_code, fcc_code, votemode_code, shflmode_code, laneop_code, atomop_code, ord_code, cachehint_code, get_cat, get_app, ext_cat_lo, ext_cat_hi, ext_app_lo, ext_app_hi, ext_self, Nat.reduceSub, Nat.reduceLT, if_true, if_false, ite_true, ite_false, ofBool_get]
    simp [h1]
  · simp (disch := first | decide | rfl) only [Fields.hdr, Fields.ofHdr, get_cat, get_app, ext_cat_lo, ext_cat_hi, ext_app_lo, ext_app_hi, ext_self, Nat.reduceSub, Nat.reduceLT, if_true, if_false, ite_true, ite_false, ofBool_get, rnd_code, scope_code, size_code, fmt_code, mulpart_code, cc_code, fcc_code, votemode_code, shflmode_code, laneop_code, atomop_code, ord_code, cachehint_code, Option.getD_some, Fields.dst, dst_eta]
theorem logrdG (h : Hdr) (d : BitVec 8) (n : BitVec 4) : Statement (.logrdG h d n) := by
  intro (hw : (h.wf) = true)
  have hh := hw
  refine decode_guarded _ _ decLogrdG hh ?_ ?_
  · refine (class_D _ 841#10 9 rfl (by decide) (by decide)).trans ?_
    simp (disch := decide) only [decClassD, Fields.ofHdr, BitVec.reduceExtractLsb', BitVec.toNat_ofNat, BitVec.reduceToNat, get_cat, get_app, ext_cat_lo, ext_cat_hi, ext_app_lo, ext_app_hi, ext_self, Nat.reduceSub, Nat.reduceLT, if_true, if_false, ite_true, ite_false, ofBool_get]
  unfold decLogrdG
  refine verdict_eq _ _ _ ?_ ?_
  · simp (disch := first | decide | rfl) only [Fields.common, Fields.ofHdr, List.all_append, List.all_cons, List.all_nil, mask_cat, mask_app, badSrc_bits, twoSel_two, twoSel_three, isSel_bits, imm_one, imm_two, imm_three, dst_nw, rnd_code, scope_code, size_code, fmt_code, mulpart_code, cc_code, fcc_code, votemode_code, shflmode_code, laneop_code, atomop_code, ord_code, cachehint_code, get_cat, get_app, ext_cat_lo, ext_cat_hi, ext_app_lo, ext_app_hi, ext_self, Nat.reduceSub, Nat.reduceLT, if_true, if_false, ite_true, ite_false, ofBool_get]
    simp
  · simp (disch := first | decide | rfl) only [Fields.hdr, Fields.ofHdr, get_cat, get_app, ext_cat_lo, ext_cat_hi, ext_app_lo, ext_app_hi, ext_self, Nat.reduceSub, Nat.reduceLT, if_true, if_false, ite_true, ite_false, ofBool_get, rnd_code, scope_code, size_code, fmt_code, mulpart_code, cc_code, fcc_code, votemode_code, shflmode_code, laneop_code, atomop_code, ord_code, cachehint_code, Option.getD_some, Fields.dst, dst_eta]
theorem logrdPut (h : Hdr) (a : Src) (n : BitVec 4) : Statement (.logrdPut h a n) := by
  intro (hw : (h.wf && a.ok 1 false true) = true)
  simp only [Bool.and_eq_true] at hw
  obtain ⟨hh, h1⟩ := hw
  refine decode_guarded _ _ decLogrdPut hh ?_ ?_
  · refine (class_D _ 841#10 9 rfl (by decide) (by decide)).trans ?_
    simp (disch := decide) only [decClassD, Fields.ofHdr, BitVec.reduceExtractLsb', BitVec.toNat_ofNat, BitVec.reduceToNat, get_cat, get_app, ext_cat_lo, ext_cat_hi, ext_app_lo, ext_app_hi, ext_self, Nat.reduceSub, Nat.reduceLT, if_true, if_false, ite_true, ite_false, ofBool_get]
  unfold decLogrdPut
  refine verdict_eq _ _ _ ?_ ?_
  · simp (disch := first | decide | rfl) only [Fields.common, Fields.ofHdr, List.all_append, List.all_cons, List.all_nil, mask_cat, mask_app, badSrc_bits, twoSel_two, twoSel_three, isSel_bits, imm_one, imm_two, imm_three, dst_nw, src_noSel h1, rnd_code, scope_code, size_code, fmt_code, mulpart_code, cc_code, fcc_code, votemode_code, shflmode_code, laneop_code, atomop_code, ord_code, cachehint_code, get_cat, get_app, ext_cat_lo, ext_cat_hi, ext_app_lo, ext_app_hi, ext_self, Nat.reduceSub, Nat.reduceLT, if_true, if_false, ite_true, ite_false, ofBool_get]
    simp [h1]
  · simp (disch := first | decide | rfl) only [Fields.hdr, Fields.ofHdr, src_noSel h1, get_cat, get_app, ext_cat_lo, ext_cat_hi, ext_app_lo, ext_app_hi, ext_self, Nat.reduceSub, Nat.reduceLT, if_true, if_false, ite_true, ite_false, ofBool_get, rnd_code, scope_code, size_code, fmt_code, mulpart_code, cc_code, fcc_code, votemode_code, shflmode_code, laneop_code, atomop_code, ord_code, cachehint_code, Option.getD_some, Fields.dst, dst_eta]
theorem bkpt (h : Hdr) (code : BitVec 16) : Statement (.bkpt h code) := by
  intro (hw : (h.wf) = true)
  have hh := hw
  refine decode_guarded _ _ decBkpt hh ?_ ?_
  · exact class_E _ 896#10 0 rfl (by decide) (by decide)
  unfold decBkpt
  refine verdict_eq _ _ _ ?_ ?_
  · simp (disch := first | decide | rfl) only [Fields.common, Fields.ofHdr, List.all_append, List.all_cons, List.all_nil, mask_cat, mask_app, badSrc_bits, twoSel_two, twoSel_three, isSel_bits, imm_one, imm_two, imm_three, dst_nw, rnd_code, scope_code, size_code, fmt_code, mulpart_code, cc_code, fcc_code, votemode_code, shflmode_code, laneop_code, atomop_code, ord_code, cachehint_code, get_cat, get_app, ext_cat_lo, ext_cat_hi, ext_app_lo, ext_app_hi, ext_self, Nat.reduceSub, Nat.reduceLT, if_true, if_false, ite_true, ite_false, ofBool_get]
    simp
  · simp (disch := first | decide | rfl) only [Fields.hdr, Fields.ofHdr, get_cat, get_app, ext_cat_lo, ext_cat_hi, ext_app_lo, ext_app_hi, ext_self, Nat.reduceSub, Nat.reduceLT, if_true, if_false, ite_true, ite_false, ofBool_get, rnd_code, scope_code, size_code, fmt_code, mulpart_code, cc_code, fcc_code, votemode_code, shflmode_code, laneop_code, atomop_code, ord_code, cachehint_code, Option.getD_some, Fields.dst, dst_eta]
theorem tick (h : Hdr) (d : BitVec 8) : Statement (.tick h d) := by
  intro (hw : (h.wf && d.toNat % 2 == 0) = true)
  simp only [Bool.and_eq_true] at hw
  obtain ⟨hh, h1⟩ := hw
  refine decode_guarded _ _ decTick hh ?_ ?_
  · exact class_E _ 897#10 1 rfl (by decide) (by decide)
  unfold decTick
  refine verdict_eq _ _ _ ?_ ?_
  · simp (disch := first | decide | rfl) only [Fields.common, Fields.ofHdr, List.all_append, List.all_cons, List.all_nil, mask_cat, mask_app, badSrc_bits, twoSel_two, twoSel_three, isSel_bits, imm_one, imm_two, imm_three, dst_nw, rnd_code, scope_code, size_code, fmt_code, mulpart_code, cc_code, fcc_code, votemode_code, shflmode_code, laneop_code, atomop_code, ord_code, cachehint_code, get_cat, get_app, ext_cat_lo, ext_cat_hi, ext_app_lo, ext_app_hi, ext_self, Nat.reduceSub, Nat.reduceLT, if_true, if_false, ite_true, ite_false, ofBool_get]
    simp [mod_bad h1]
  · simp (disch := first | decide | rfl) only [Fields.hdr, Fields.ofHdr, get_cat, get_app, ext_cat_lo, ext_cat_hi, ext_app_lo, ext_app_hi, ext_self, Nat.reduceSub, Nat.reduceLT, if_true, if_false, ite_true, ite_false, ofBool_get, rnd_code, scope_code, size_code, fmt_code, mulpart_code, cc_code, fcc_code, votemode_code, shflmode_code, laneop_code, atomop_code, ord_code, cachehint_code, Option.getD_some, Fields.dst, dst_eta]
theorem ptprd (h : Hdr) (d : BitVec 8) : Statement (.ptprd h d) := by
  intro (hw : (h.wf && d.toNat % 4 == 0) = true)
  simp only [Bool.and_eq_true] at hw
  obtain ⟨hh, h1⟩ := hw
  refine decode_guarded _ _ decPtprd hh ?_ ?_
  · exact class_E _ 898#10 2 rfl (by decide) (by decide)
  unfold decPtprd
  refine verdict_eq _ _ _ ?_ ?_
  · simp (disch := first | decide | rfl) only [Fields.common, Fields.ofHdr, List.all_append, List.all_cons, List.all_nil, mask_cat, mask_app, badSrc_bits, twoSel_two, twoSel_three, isSel_bits, imm_one, imm_two, imm_three, dst_nw, rnd_code, scope_code, size_code, fmt_code, mulpart_code, cc_code, fcc_code, votemode_code, shflmode_code, laneop_code, atomop_code, ord_code, cachehint_code, get_cat, get_app, ext_cat_lo, ext_cat_hi, ext_app_lo, ext_app_hi, ext_self, Nat.reduceSub, Nat.reduceLT, if_true, if_false, ite_true, ite_false, ofBool_get]
    simp [mod_bad h1]
  · simp (disch := first | decide | rfl) only [Fields.hdr, Fields.ofHdr, get_cat, get_app, ext_cat_lo, ext_cat_hi, ext_app_lo, ext_app_hi, ext_self, Nat.reduceSub, Nat.reduceLT, if_true, if_false, ite_true, ite_false, ofBool_get, rnd_code, scope_code, size_code, fmt_code, mulpart_code, cc_code, fcc_code, votemode_code, shflmode_code, laneop_code, atomop_code, ord_code, cachehint_code, Option.getD_some, Fields.dst, dst_eta]
theorem stallrd (h : Hdr) (d : BitVec 8) (i : BitVec 4) (clr : Bool) : Statement (.stallrd h d i clr) := by
  intro (hw : (h.wf) = true)
  have hh := hw
  refine decode_guarded _ _ decStallrd hh ?_ ?_
  · exact class_E _ 899#10 3 rfl (by decide) (by decide)
  unfold decStallrd
  refine verdict_eq _ _ _ ?_ ?_
  · simp (disch := first | decide | rfl) only [Fields.common, Fields.ofHdr, List.all_append, List.all_cons, List.all_nil, mask_cat, mask_app, badSrc_bits, twoSel_two, twoSel_three, isSel_bits, imm_one, imm_two, imm_three, dst_nw, rnd_code, scope_code, size_code, fmt_code, mulpart_code, cc_code, fcc_code, votemode_code, shflmode_code, laneop_code, atomop_code, ord_code, cachehint_code, get_cat, get_app, ext_cat_lo, ext_cat_hi, ext_app_lo, ext_app_hi, ext_self, Nat.reduceSub, Nat.reduceLT, if_true, if_false, ite_true, ite_false, ofBool_get]
    simp
  · simp (disch := first | decide | rfl) only [Fields.hdr, Fields.ofHdr, get_cat, get_app, ext_cat_lo, ext_cat_hi, ext_app_lo, ext_app_hi, ext_self, Nat.reduceSub, Nat.reduceLT, if_true, if_false, ite_true, ite_false, ofBool_get, rnd_code, scope_code, size_code, fmt_code, mulpart_code, cc_code, fcc_code, votemode_code, shflmode_code, laneop_code, atomop_code, ord_code, cachehint_code, Option.getD_some, Fields.dst, dst_eta]
theorem trace (h : Hdr) (a : Src) (tag : BitVec 16) : Statement (.trace h a tag) := by
  intro (hw : (h.wf && a.ok 1 false true) = true)
  simp only [Bool.and_eq_true] at hw
  obtain ⟨hh, h1⟩ := hw
  refine decode_guarded _ _ decTrace hh ?_ ?_
  · exact class_E _ 900#10 4 rfl (by decide) (by decide)
  unfold decTrace
  refine verdict_eq _ _ _ ?_ ?_
  · simp (disch := first | decide | rfl) only [Fields.common, Fields.ofHdr, List.all_append, List.all_cons, List.all_nil, mask_cat, mask_app, badSrc_bits, twoSel_two, twoSel_three, isSel_bits, imm_one, imm_two, imm_three, dst_nw, src_noSel h1, rnd_code, scope_code, size_code, fmt_code, mulpart_code, cc_code, fcc_code, votemode_code, shflmode_code, laneop_code, atomop_code, ord_code, cachehint_code, get_cat, get_app, ext_cat_lo, ext_cat_hi, ext_app_lo, ext_app_hi, ext_self, Nat.reduceSub, Nat.reduceLT, if_true, if_false, ite_true, ite_false, ofBool_get]
    simp [h1]
  · simp (disch := first | decide | rfl) only [Fields.hdr, Fields.ofHdr, src_noSel h1, get_cat, get_app, ext_cat_lo, ext_cat_hi, ext_app_lo, ext_app_hi, ext_self, Nat.reduceSub, Nat.reduceLT, if_true, if_false, ite_true, ite_false, ofBool_get, rnd_code, scope_code, size_code, fmt_code, mulpart_code, cc_code, fcc_code, votemode_code, shflmode_code, laneop_code, atomop_code, ord_code, cachehint_code, Option.getD_some, Fields.dst, dst_eta]
theorem progrWg (h : Hdr) (d : BitVec 8) : Statement (.progrWg h d) := by
  intro (hw : (h.wf) = true)
  have hh := hw
  refine decode_guarded _ _ decProgrWg hh ?_ ?_
  · refine (class_E _ 901#10 5 rfl (by decide) (by decide)).trans ?_
    simp (disch := decide) only [decClassE, Fields.ofHdr, BitVec.reduceExtractLsb', BitVec.toNat_ofNat, BitVec.reduceToNat, get_cat, get_app, ext_cat_lo, ext_cat_hi, ext_app_lo, ext_app_hi, ext_self, Nat.reduceSub, Nat.reduceLT, if_true, if_false, ite_true, ite_false, ofBool_get]
  unfold decProgrWg
  refine verdict_eq _ _ _ ?_ ?_
  · simp (disch := first | decide | rfl) only [Fields.common, Fields.ofHdr, List.all_append, List.all_cons, List.all_nil, mask_cat, mask_app, badSrc_bits, twoSel_two, twoSel_three, isSel_bits, imm_one, imm_two, imm_three, dst_nw, rnd_code, scope_code, size_code, fmt_code, mulpart_code, cc_code, fcc_code, votemode_code, shflmode_code, laneop_code, atomop_code, ord_code, cachehint_code, get_cat, get_app, ext_cat_lo, ext_cat_hi, ext_app_lo, ext_app_hi, ext_self, Nat.reduceSub, Nat.reduceLT, if_true, if_false, ite_true, ite_false, ofBool_get]
    simp
  · simp (disch := first | decide | rfl) only [Fields.hdr, Fields.ofHdr, get_cat, get_app, ext_cat_lo, ext_cat_hi, ext_app_lo, ext_app_hi, ext_self, Nat.reduceSub, Nat.reduceLT, if_true, if_false, ite_true, ite_false, ofBool_get, rnd_code, scope_code, size_code, fmt_code, mulpart_code, cc_code, fcc_code, votemode_code, shflmode_code, laneop_code, atomop_code, ord_code, cachehint_code, Option.getD_some, Fields.dst, dst_eta]
theorem progrPark (h : Hdr) (d : BitVec 8) (a : Src) : Statement (.progrPark h d a) := by
  intro (hw : (h.wf && d.toNat % 2 == 0 && a.ok 1 false true) = true)
  simp only [Bool.and_eq_true] at hw
  obtain ⟨⟨hh, h1⟩, h2⟩ := hw
  refine decode_guarded _ _ decProgrPark hh ?_ ?_
  · refine (class_E _ 901#10 5 rfl (by decide) (by decide)).trans ?_
    simp (disch := decide) only [decClassE, Fields.ofHdr, BitVec.reduceExtractLsb', BitVec.toNat_ofNat, BitVec.reduceToNat, get_cat, get_app, ext_cat_lo, ext_cat_hi, ext_app_lo, ext_app_hi, ext_self, Nat.reduceSub, Nat.reduceLT, if_true, if_false, ite_true, ite_false, ofBool_get]
  unfold decProgrPark
  refine verdict_eq _ _ _ ?_ ?_
  · simp (disch := first | decide | rfl) only [Fields.common, Fields.ofHdr, List.all_append, List.all_cons, List.all_nil, mask_cat, mask_app, badSrc_bits, twoSel_two, twoSel_three, isSel_bits, imm_one, imm_two, imm_three, dst_nw, src_noSel h2, rnd_code, scope_code, size_code, fmt_code, mulpart_code, cc_code, fcc_code, votemode_code, shflmode_code, laneop_code, atomop_code, ord_code, cachehint_code, get_cat, get_app, ext_cat_lo, ext_cat_hi, ext_app_lo, ext_app_hi, ext_self, Nat.reduceSub, Nat.reduceLT, if_true, if_false, ite_true, ite_false, ofBool_get]
    simp [mod_bad h1, h2]
  · simp (disch := first | decide | rfl) only [Fields.hdr, Fields.ofHdr, src_noSel h2, get_cat, get_app, ext_cat_lo, ext_cat_hi, ext_app_lo, ext_app_hi, ext_self, Nat.reduceSub, Nat.reduceLT, if_true, if_false, ite_true, ite_false, ofBool_get, rnd_code, scope_code, size_code, fmt_code, mulpart_code, cc_code, fcc_code, votemode_code, shflmode_code, laneop_code, atomop_code, ord_code, cachehint_code, Option.getD_some, Fields.dst, dst_eta]
theorem legacyBehaviour (neg : Bool) (gp : BitVec 3) (w : BitVec 96) : Statement (.legacyBehaviour neg gp w) := by
  intro (hw : (!(neg && gp == 7) && w.extractLsb' 92 4 == 15 && w.getLsbD 84 == neg && w.extractLsb' 81 3 == gp) = true)
  simp only [Bool.and_eq_true, Bool.not_eq_true', beq_iff_eq] at hw
  obtain ⟨⟨⟨h1, h2⟩, h3⟩, h4⟩ := hw
  have hn : (Fields.ofWord w).neg = neg := h3
  have hg : (Fields.ofWord w).gp = gp := h4
  have ho : ((Fields.ofWord w).op.extractLsb' 6 4) = 15#4 := by
    simp only [Fields.ofWord]
    apply BitVec.eq_of_getLsbD_eq; intro i hi
    have := congrArg (fun z => z.getLsbD i) h2
    simp only [BitVec.getLsbD_extractLsb'] at this ⊢
    have e : 86 + (6 + i) = 92 + i := by omega
    simp only [e, hi, decide_true, Bool.true_and, show 6 + i < 10 by omega] at this ⊢
    exact this
  rw [decodeFields, hn, hg, if_neg (by rw [h1]; exact Bool.noConfusion), decodeGuarded, ho]
  simp only [hn, hg, toWord_ofWord, BitVec.reduceToNat]
theorem registerReturn (wg : Nat) : Statement (.registerReturn wg) := rfl
theorem slotSwitch (core slot : Nat) : Statement (.slotSwitch core slot) := rfl
theorem forcedSwitch (core slot : Nat) : Statement (.forcedSwitch core slot) := rfl
theorem fibreReady (r : FibRef) : Statement (.fibreReady r) := rfl
theorem barrierPhaseComplete (k : BarKey) : Statement (.barrierPhaseComplete k) := rfl
theorem loadComplete (r : FibRef) : Statement (.loadComplete r) := rfl
theorem storeQueueDrain (r : FibRef) : Statement (.storeQueueDrain r) := rfl
theorem mergingFill (core line : Nat) : Statement (.mergingFill core line) := rfl
theorem l1WritebackTimer (core line : Nat) : Statement (.l1WritebackTimer core line) := rfl
theorem replicaApply (n : Nat) : Statement (.replicaApply n) := rfl
theorem watchFire (r : FibRef) : Statement (.watchFire r) := rfl
theorem watchRetry (r : FibRef) : Statement (.watchRetry r) := rfl
theorem relaunch (n : Nat) : Statement (.relaunch n) := rfl
theorem quarterReady (core : Nat) : Statement (.quarterReady core) := rfl
theorem passOpen (core : Nat) : Statement (.passOpen core) := rfl
theorem weightSlotLoad (core : Nat) : Statement (.weightSlotLoad core) := rfl
theorem quarterCommit (core : Nat) : Statement (.quarterCommit core) := rfl
theorem wloadComplete (core slot : Nat) : Statement (.wloadComplete core slot) := rfl
theorem wloadFault (r : FibRef) (slot : BitVec 4) (addr : Dword) (sub : Nat) : Statement (.wloadFault r slot addr sub) := rfl
theorem copyCardStart (core card : Nat) : Statement (.copyCardStart core card) := rfl
theorem copyDelivery (core card : Nat) : Statement (.copyDelivery core card) := rfl
theorem copyComplete (core card : Nat) : Statement (.copyComplete core card) := rfl
theorem copyFault (core card : Nat) : Statement (.copyFault core card) := rfl
theorem frameSent (die handle : Nat) : Statement (.frameSent die handle) := rfl
theorem frameNodeDispatch (die node : Nat) : Statement (.frameNodeDispatch die node) := rfl
theorem decrementArrival (n : Nat) : Statement (.decrementArrival n) := rfl
theorem seedbedDispatch (die : Nat) : Statement (.seedbedDispatch die) := rfl
theorem nodeComplete (die node : Nat) : Statement (.nodeComplete die node) := rfl
theorem launchStart (die : Nat) : Statement (.launchStart die) := rfl
theorem workGroupAdmission (launch : Nat) : Statement (.workGroupAdmission launch) := rfl
theorem workGroupComplete (wg : Nat) : Statement (.workGroupComplete wg) := rfl
theorem clusterRetire (launch : Nat) : Statement (.clusterRetire launch) := rfl
theorem launchComplete (launch : Nat) : Statement (.launchComplete launch) := rfl
theorem laneTaskGather (die cluster : Nat) : Statement (.laneTaskGather die cluster) := rfl
theorem collectiveNodeDispatch (die node : Nat) : Statement (.collectiveNodeDispatch die node) := rfl
theorem streamRow (die op : Nat) : Statement (.streamRow die op) := rfl
theorem collectiveComplete (die op : Nat) : Statement (.collectiveComplete die op) := rfl
theorem collectiveFault (die op reason : Nat) : Statement (.collectiveFault die op reason) := rfl
theorem sequenceStartNode (die node : Nat) : Statement (.sequenceStartNode die node) := rfl
theorem stageInputs (die place : Nat) : Statement (.stageInputs die place) := rfl
theorem returnNodeDispatch (die node : Nat) : Statement (.returnNodeDispatch die node) := rfl
theorem sequenceEnd (die place : Nat) : Statement (.sequenceEnd die place) := rfl
theorem resumeWorkGroup (n : Nat) : Statement (.resumeWorkGroup n) := rfl
theorem deadlineExpiry (ctx : Nat) : Statement (.deadlineExpiry ctx) := rfl
theorem contextFault (ctx : Nat) (kind : Nat) : Statement (.contextFault ctx kind) := rfl
theorem preempted (ctx : Nat) : Statement (.preempted ctx) := rfl
theorem queueNoOperation (q : Nat) : Statement (.queueNoOperation q) := rfl
theorem queueLaunch (q : Nat) : Statement (.queueLaunch q) := rfl
theorem queueNodeDecrement (q : Nat) : Statement (.queueNodeDecrement q) := rfl
theorem sample (die : Nat) : Statement (.sample die) := rfl
theorem issue (core port : Nat) : Statement (.issue core port) := rfl
theorem instructionFetch (r : FibRef) : Statement (.instructionFetch r) := rfl
theorem trapEntry (r : FibRef) (t : TrapInfo) : Statement (.trapEntry r t) := rfl
theorem collectiveRefused (die op reason : Nat) : Statement (.collectiveRefused die op reason) := rfl
theorem scrub (core : Nat) (found : ScrubFinding) : Statement (.scrub core found) := rfl
theorem uncorrectableError (site : ErrorSite) : Statement (.uncorrectableError site) := rfl
theorem frameReceive (die port : Nat) (frame : MacFrame) : Statement (.frameReceive die port frame) := rfl
theorem linkDown (die port : Nat) : Statement (.linkDown die port) := rfl
theorem breakpointResume (r : FibRef) : Statement (.breakpointResume r) := rfl
theorem breakpointKill (r : FibRef) : Statement (.breakpointKill r) := rfl
theorem waitForGraph (ctx : Nat) : Statement (.waitForGraph ctx) := rfl
theorem run (ctx : Nat) : Statement (.run ctx) := rfl
theorem preempt (ctx : Nat) : Statement (.preempt ctx) := rfl
theorem resume (ctx : Nat) : Statement (.resume ctx) := rfl
theorem reset (ctx : Nat) : Statement (.reset ctx) := rfl
theorem queueNotify (q : Nat) (tail : Word) : Statement (.queueNotify q tail) := rfl
theorem hostRingTailWrite (tail : Word) : Statement (.hostRingTailWrite tail) := rfl
theorem hostAccess (off : Nat) (bytes : List Byte) (write : Bool) : Statement (.hostAccess off bytes write) := rfl
theorem controlRegisterWrite (off : Nat) (value : Dword) (size : Nat) : Statement (.controlRegisterWrite off value size) := rfl
theorem attest (nonce : List Byte) : Statement (.attest nonce) := rfl
theorem setCap (watts : Nat) : Statement (.setCap watts) := rfl
theorem retire (unit : UnitRef) : Statement (.retire unit) := rfl
theorem powerCapEnforce (drawn : Nat) : Statement (.powerCapEnforce drawn) := rfl
theorem thermalLimit (die : Nat) (tenths : Nat) : Statement (.thermalLimit die tenths) := rfl
theorem thermalTrip (die : Nat) (tenths : Nat) : Statement (.thermalTrip die tenths) := rfl
theorem freezeTickWrite (value : Dword) : Statement (.freezeTickWrite value) := rfl
theorem powerOn (verified : Bool) : Statement (.powerOn verified) := rfl
theorem forwardedAccess (kind : ForwardKind) (addr : Nat) (bytes : List Byte) : Statement (.forwardedAccess kind addr bytes) := rfl
theorem ualinkDomainJoinOrLeave (die : Nat) (pkg : Nat) (joins : Bool) : Statement (.ualinkDomainJoinOrLeave die pkg joins) := rfl
theorem ethernetLinkChange (die port : Nat) (up : Bool) : Statement (.ethernetLinkChange die port up) := rfl
theorem ptpLock (locked : Bool) : Statement (.ptpLock locked) := rfl
theorem msiXMasking (vector : Nat) (masked : Bool) : Statement (.msiXMasking vector masked) := rfl
theorem freezeReadOut : Statement (.freezeReadOut) := rfl
theorem freezeN : Statement (.freezeN) := rfl
theorem freeze : Statement (.freeze) := rfl
theorem observationPortRead : Statement (.observationPortRead) := rfl
theorem resetRelease : Statement (.resetRelease) := rfl
theorem ptpSteering : Statement (.ptpSteering) := rfl
theorem dirtyWriteOut : Statement (.dirtyWriteOut) := rfl

end Sys2Proof.Laws.Encoding
end

