-- ==== Sys2Proof/Tests/Slice0.lean ====
section
/-! SUPPORT. Checks of the model against what the specification works out: encodings, values of single words and of single steps,
ill-formed instructions, and states that meet the hypotheses of the statements. -/

namespace Sys2Proof.Tests

open Sys2Proof Sys2Proof.Machine

-- One theorem at a time: many at once take more threads than a build has.
set_option Elab.async false

/-! ### Ill-formed instructions: one for each check of WellFormed -/

/-- A word with no guard written and no hint. -/
def hdr : Hdr := ⟨false, 7, 0, false, false⟩

/-- A register as a source. -/
def g (n : Nat) : Src := .reg (BitVec.ofNat 8 n) false
/-- A register as a destination. -/
def dg (n : Nat) : Dst := .reg (BitVec.ofNat 8 n) 0

theorem test_wf_plain : (Instr.iadd hdr false (dg 4) (g 5) (g 6) false).wf = true := by decide
theorem test_ill_never_guard : (Instr.iadd Hdr.never false (dg 4) (g 5) (g 6) false).wf = false := by decide
theorem test_ill_odd_pair_source : (Instr.iadd hdr false (dg 4) (g 5) (g 6) true).wf = false := by decide
theorem test_ill_odd_pair_destination : (Instr.iadd hdr false (dg 5) (g 4) (g 6) true).wf = false := by decide
theorem test_ill_odd_pair_number : (Instr.tick hdr 5).wf = false := by decide
theorem test_ill_quad_number : (Instr.ptprd hdr 6).wf = false := by decide
theorem test_ill_latch_pair : (Instr.iadd hdr false (dg 4) (.latch 1) (g 6) true).wf = false := by decide
theorem test_ill_latch_address : (Instr.ld hdr false 4 (.latch 1) .s32 false .plain 0).wf = false := by decide
theorem test_ill_selector : (Instr.imad hdr false (dg 4) (.imm 3) (g 5) (g 6) false false).wf = false := by decide
theorem test_ill_two_selectors : (Instr.iadd hdr false (dg 4) (.imm 1) (.imm 2) false).wf = false := by decide
theorem test_ill_three_selectors : (Instr.bfi hdr false (dg 4) (.imm 1) (g 5) (.imm 2)).wf = false := by decide
theorem test_ill_swp_zero : (Instr.swp hdr 0).wf = false := by decide
theorem test_ill_logic_unused : (Instr.logic hdr false (dg 4) (g 5) (g 6) (g 7) 0xC0).wf = false := by decide
theorem test_ill_special_read : (Instr.movs hdr false (dg 4) 0x12).wf = false := by decide
theorem test_ill_special_write : (Instr.sets hdr 0x00 (g 4)).wf = false := by decide
theorem test_ill_segment : (Instr.shfl hdr (dg 4) (g 5) (g 6) .pick 6 false true).wf = false := by decide
theorem test_ill_zero_fill : (Instr.shfl hdr (dg 4) (g 5) (g 6) .pick 3 true true).wf = false := by decide
theorem test_ill_rev_operand : (Instr.shfl hdr (dg 4) (g 5) (g 6) .rev 3 false true).wf = false := by decide
theorem test_ill_convert_format : (Instr.fcvt hdr false (dg 4) (g 5) .rne false .ds8).wf = false := by decide
theorem test_ill_widen_f32 : (Instr.fcvtWid hdr false (dg 4) (g 5) .f32).wf = false := by decide
theorem test_ill_integer_rounding : (Instr.f2i hdr false (dg 4) (g 5) true false .rto).wf = false := by decide
theorem test_ill_pack_place : (Instr.fpack hdr false (dg 4) (g 5) (g 6) (g 7) .rne false .e4m3 2).wf = false := by decide
theorem test_ill_pack_third : (Instr.fpack hdr false (dg 4) (g 5) (g 6) (g 7) .rne false .bf16 0).wf = false := by decide
theorem test_ill_unpack_odd : (Instr.funpk hdr false (dg 4) (g 5) 1 true .bf16).wf = false := by decide
theorem test_ill_half_format : (Instr.hadd2 hdr false (dg 4) (g 5) (g 6) .rne false .e4m3).wf = false := by decide
theorem test_ill_scale_format : (Instr.qscale hdr false (dg 4) (g 5) false .f32).wf = false := by decide
theorem test_ill_quantise_place : (Instr.qnt hdr false (dg 4) (g 5) (g 6) (g 7) .rne false .e4m3 4).wf = false := by decide
theorem test_ill_quantise_rounding : (Instr.qnt hdr false (dg 4) (g 5) (g 6) (g 7) .rto false .ds8 0).wf = false := by decide
theorem test_ill_bin_rounding : (Instr.bincv hdr false (dg 4) (g 5) (g 6) .rto).wf = false := by decide
theorem test_ill_matrix_pair :
    (Instr.mmaq hdr 0 (g 32) 0 false false 0 0 0 0 0 0 0 false false false .rne .bf16 .f16 0).wf = false := by decide
theorem test_ill_matrix_scales :
    (Instr.mmaq hdr 0 (g 32) 0 true false 0 0 0 0 0 0 0 false false false .rne .bf16 .bf16 0).wf = false := by decide
theorem test_ill_matrix_scale_register :
    (Instr.mmaq hdr 0 (g 32) 0 false false 4 0 0 0 0 0 0 false false false .rne .bf16 .bf16 0).wf = false := by decide
theorem test_ill_matrix_last_registers :
    (Instr.mmaq hdr 0 (g 225) 0 false false 0 0 0 0 0 0 0 false false false .rne .bf16 .bf16 0).wf = false := by decide
theorem test_ill_tile_read_rounding : (Instr.mrd hdr 4 (g 5) (g 6) 0 .rtz false .f32).wf = false := by decide
theorem test_ill_tile_read_format : (Instr.mrd hdr 4 (g 5) (g 6) 0 .rne false .ds8).wf = false := by decide
theorem test_ill_stream_format : (Instr.msend hdr 0 (g 4) .rne false .e4m3).wf = false := by decide
theorem test_ill_counter : (Instr.mmon hdr 4 0 3 false).wf = false := by decide
theorem test_ill_quad_load : (Instr.ld hdr false 6 (g 8) .s128 false .plain 0).wf = false := by decide
theorem test_ill_parameter_base : (Instr.ldc hdr false 4 (g 8) .s32 false false 0).wf = false := by decide
theorem test_ill_cache_all : (Instr.cwb hdr (g 8) true 0).wf = false := by decide
theorem test_ill_float_pair : (Instr.atom hdr 4 (g 8) (g 6) .fadd true .rlx .die 0).wf = false := by decide
theorem test_ill_swap_pair : (Instr.atom hdr 4 (g 8) (g 7) .cas false .rlx .die 0).wf = false := by decide
theorem test_ill_reduction_swap : (Instr.red hdr (g 8) (g 6) .cas false .rlx .die 0).wf = false := by decide
theorem test_ill_acquire_size : (Instr.ldacq hdr 4 (g 8) .s128 false .die 0).wf = false := by decide
theorem test_ill_copy_count : (Instr.cpyk hdr (g 8) 17 0).wf = false := by decide
theorem test_ill_sequence_field : (Instr.sqstat hdr 4 (g 5) (g 6) 7).wf = false := by decide
theorem test_ill_log_word : (Instr.logrdEnt hdr 4 0 10).wf = false := by decide
theorem test_ill_legacy_class : (Instr.legacyBehaviour false 7 0).wf = false := by decide
theorem test_ill_event : (Instr.freezeReadOut).wf = false := by decide

/-! ### Words written out from the encoding tables -/

-- Chapter 2, "Worked encodings": `IADD g4>b1, g5!, b0 | d2, y`, its bytes in memory, and `(!p2) IADD g6, g7, #-3`.
theorem test_decode_iadd :
    decode 0x100E41105800005000000000#96 = .ok (.iadd ⟨false, 7, 2, true, false⟩ false (.reg 4 1) (.reg 5 true) (.latch 0) false) := by
  decide +kernel
theorem test_decode_iadd_bytes : decodeBytes [0, 0, 0, 0, 0x50, 0, 0, 0x58, 0x10, 0x41, 0x0E, 0x10] =
    .ok (.iadd ⟨false, 7, 2, true, false⟩ false (.reg 4 1) (.reg 5 true) (.latch 0) false) := by decide +kernel
theorem test_decode_iadd_literal :
    decode 0x101401807C000000FFFFFFFD#96 = .ok (.iadd ⟨true, 2, 0, false, false⟩ false (dg 6) (g 7) (.imm 0xFFFFFFFD) false) := by
  decide +kernel
theorem test_decode_nop : decode 0x000E00000000000000000000#96 = .ok (.nop hdr) := by decide +kernel
-- Chapter 4: `SWP #2` and `FBAR.arv #1, #0b0011`.
theorem test_decode_swp : decode 0x01CE00000000000000000002#96 = .ok (.swp hdr 2) := by decide +kernel
theorem test_decode_fbar : decode 0x024E00000000000000000035#96 = .ok (.fbar hdr 1 true 3) := by decide +kernel
-- Chapter 5: `ICMP.lt.s p1, g8, #100` and `LOGIC.and g4, g5, g6` (class 0x2 operation 0, I = 0xC0).
theorem test_decode_icmp :
    decode 0x12CE00408C00210000000064#96 = .ok (.icmp hdr false 1 (g 8) (.imm 100) true false .lt) := by decide +kernel
theorem test_decode_logic :
    decode 0x200E010050180000000000C0#96 = .ok (.logic hdr false (dg 4) (g 5) (g 6) (g 0) 0xC0) := by decide +kernel
-- Class 0x3, opcode 0x0C0: `MOV g4, g5`.
theorem test_decode_mov : decode 0x300E01005000000000000000#96 = .ok (.mov hdr false (dg 4) (g 5) false) := by decide +kernel
-- Chapter 6: `FLSUM.q.conv g6, g5`; class 0x5, opcode 0x143: `FRND g6, g5`.
theorem test_decode_frnd : decode 0x50CE01805000000000000000#96 = .ok (.frnd hdr false (dg 6) (g 5) .rne) := by decide +kernel
theorem test_decode_flsum : decode 0x458E01805000C00000000000#96 = .ok (.flsum hdr (dg 6) (g 5) .rne true true) := by decide +kernel
-- Chapter 7: `MMAQ.ae4m3.we4m3 m0, g32, w0, #0x0001, #0`, bare and with guard (p1).
theorem test_decode_mmaq : decode 0x600E00020000000000CC0001#96 =
    .ok (.mmaq hdr 0 (g 32) 0 false false 0 1 0 0 0 0 0 false false false .rne .e4m3 .e4m3 0) := by decide +kernel
theorem test_decode_mmaq_guard : decode 0x600200020000000000CC0001#96 =
    .ok (.mmaq ⟨false, 1, 0, false, false⟩ 0 (g 32) 0 false false 0 1 0 0 0 0 0 false false false .rne .e4m3 .e4m3 0) := by
  decide +kernel
-- Chapter 8: `WDICT w3, g20`.
theorem test_decode_wdict : decode 0x70CE0001400C000000000000#96 = .ok (.wdict hdr (g 20) 3) := by decide +kernel
-- Chapter 9: `LD.64 g10, [g8:g9 + #0x40]`.
theorem test_decode_ld : decode 0x800E028080000B0000000040#96 = .ok (.ld hdr false 10 (g 8) .s64 true .plain 0x40) := by
  decide +kernel
-- Chapters 10 and 20: `STREL.32.die [g8:g9], g4`, `(p2) ATOM.max.z.pkg g26, [g28:g29], g25`, `RED.add.pkg.x2 [g28:g29 + #0x10], g30`.
theorem test_decode_strel : decode 0x90CE00008011820000000000#96 = .ok (.strel hdr (g 8) (g 4) .s32 .die 0) := by decide +kernel
theorem test_decode_atom : decode 0x90040681C066040000000000#96 =
    .ok (.atom ⟨false, 2, 0, false, false⟩ 26 (g 28) (g 25) .maxZ false .rlx .pkg 0) := by decide +kernel
theorem test_decode_red : decode 0x904E0001C07A100000000010#96 = .ok (.red hdr (g 28) (g 30) .add true .rlx .pkg 0x10) := by
  decide +kernel
-- Chapter 21: `(p5) ATOM.exch.rel.die g5, [g10:g11], g14`.
theorem test_decode_atom_release : decode 0x900A0140A039C80000000000#96 =
    .ok (.atom ⟨false, 5, 0, false, false⟩ 5 (g 10) (g 14) .exch false .rel .die 0) := by decide +kernel
-- Chapter 11: `HBPUB.die [g8:g9]`.
theorem test_decode_hbpub : decode 0x918E00008001800000000000#96 = .ok (.hbpub hdr (g 8) .die 0) := by decide +kernel
-- Chapter 12: `CPYK [g8], #2`.
theorem test_decode_cpyk : decode 0xA00E00008000020000000000#96 = .ok (.cpyk hdr (g 8) 2 0) := by decide +kernel
-- Chapter 13: `TEDGE g4, g5, g6`.
theorem test_decode_tedge : decode 0xB08E01005018000000000000#96 = .ok (.tedge hdr 4 (g 5) (g 6)) := by decide +kernel
-- Chapters 14 and 15: `CRED g4, [g8 + #0x40]`, `CWAIT g5, g4`, `SQGO g4, g6`, `SQSTAT g7, g4, g9, #1`, `SQABT.free g11, g10`.
theorem test_decode_cred : decode 0xC00E01008000000000000040#96 = .ok (.cred hdr 4 (g 8) 0x40) := by decide +kernel
theorem test_decode_cwait : decode 0xC10E01404000000000000000#96 = .ok (.cwait hdr 5 (g 4)) := by decide +kernel
theorem test_decode_sqgo : decode 0xC20E01006000000000000000#96 = .ok (.sqgo hdr 4 (g 6)) := by decide +kernel
theorem test_decode_sqstat : decode 0xC24E01C04024000000000001#96 = .ok (.sqstat hdr 7 (g 4) (g 9) 1) := by decide +kernel
theorem test_decode_sqabt : decode 0xC28E02C0A000010000000000#96 = .ok (.sqabt hdr 11 (g 10) true) := by decide +kernel
-- Chapter 16: `RTT.skip`, `WGSAVE g4, [g8:g9], g10`.
theorem test_decode_rtt : decode 0xD04E00000000010000000000#96 = .ok (.rttSkip hdr) := by decide +kernel
theorem test_decode_wgsave : decode 0xD10E01008028000000000000#96 = .ok (.wgsave hdr 4 (g 8) (g 10) 0) := by decide +kernel
-- Chapter 17: `TICK g10`.
theorem test_decode_tick : decode 0xE04E02800000000000000000#96 = .ok (.tick hdr 10) := by decide +kernel
-- R34: a (!p7) word, whatever its other fields; R39: class 0xF; R42: a reserved opcode is illegal with subcode 1.
theorem test_decode_never : decode 0xFFFFFFFFFFFFFFFFFFFFFFFF#96 = .ok (.nop Hdr.never) := by decide +kernel
theorem test_decode_legacy : decode 0xF00E00000000000000000000#96 = .ok (.legacyBehaviour false 7 0xF00E00000000000000000000) := by
  decide +kernel
theorem test_decode_table_word : decodeTableWord 96 0xE04E02800000000000000000 = some (.tick hdr 10) := by decide +kernel

/-! ### One word on a small machine -/

/-- The one fibre of the small machine. -/
def r0 : FibRef := ⟨0, 0⟩
/-- All its threads are about to issue a word. -/
def here : Cur := ⟨r0, allLanes, wordPlace, 0⟩
/-- A machine with one fibre that issues. -/
def demo (fill : Fibre → Fibre) : State := { (State.reset.placeWord []).modFib r0 fill with cur := some here }
/-- The same with registers that hold one value in every lane. -/
def withRegs (l : List (Nat × Nat)) : State :=
  demo (fun f => { f with regs := l.map (fun e => (e.1, splat (BitVec.ofNat 32 e.2))) })
/-- The same with a register that differs from lane to lane. -/
def withLanes (l : List (Nat × (Nat → Nat))) : State :=
  demo (fun f => { f with regs := l.map (fun e => (e.1, lanes (fun i => BitVec.ofNat 32 (e.2 i)))) })
/-- The state that an instruction leaves. -/
def next (i : Instr) (s : State) : Option State :=
  match exec i s with
  | .next t => some t
  | _ => none
/-- A lane of a register. -/
def regOf (n l : Nat) (o : Option State) : Option Nat := o.map (fun t => (lane (t.reg r0 n) l).toNat)
/-- A predicate. -/
def predOf (p : BitVec 3) (o : Option State) : Option Nat := o.bind (fun t => (t.fib r0).map (fun f => (f.pred p).toNat))
/-- The floating-point flags. -/
def flagsNow (o : Option State) : Option Nat := o.bind (fun t => (t.fib r0).map (fun f => f.fpf.toNat))
/-- Where a thread stands. -/
def pcOf (l : Nat) (o : Option State) : Option Nat := o.bind (fun t => (t.fib r0).map (fun f => f.pcs.toList.getD l 0))
/-- The trap that the fibre has taken: its cause and subcode. -/
def trapOf (o : Option State) : Option (Nat × Nat) :=
  o.bind (fun t => (t.fib r0).bind (fun f => f.trap.map (fun x => (x.info.cause, x.info.sub))))

-- R123, R124: sums wrap; division truncates toward zero, and division by zero and the overflow give R124's values.
theorem test_iadd_wraps : regOf 6 3 (next (.iadd hdr false (dg 6) (g 4) (g 5) false) (withRegs [(4, 0xFFFFFFFF), (5, 2)])) = some 1 := by
  decide +kernel
theorem test_iadds_saturates :
    regOf 6 0 (next (.iadds hdr false (dg 6) (g 4) (g 5) true false) (withRegs [(4, 0x7FFFFFFF), (5, 2)])) = some 0x7FFFFFFF := by
  decide +kernel
theorem test_imul_hi_signed :
    regOf 6 0 (next (.imul hdr false (dg 6) (g 4) (g 5) true .hi) (withRegs [(4, 0xFFFFFFFF), (5, 2)])) = some 0xFFFFFFFF := by
  decide +kernel
theorem test_idiv_truncates :
    regOf 6 0 (next (.idiv hdr false (dg 6) (g 4) (g 5) true false) (withRegs [(4, 0xFFFFFFF9), (5, 2)])) = some 0xFFFFFFFD := by
  decide +kernel
theorem test_idiv_by_zero :
    regOf 6 0 (next (.idiv hdr false (dg 6) (g 4) (g 5) true false) (withRegs [(4, 0xFFFFFFF9), (5, 0)])) = some 0x80000000 := by
  decide +kernel
theorem test_irem_sign :
    regOf 6 0 (next (.irem hdr false (dg 6) (g 4) (g 5) true false) (withRegs [(4, 0xFFFFFFF9), (5, 2)])) = some 0xFFFFFFFF := by
  decide +kernel
-- R89: lanes without a write keep their values, and the threads stand at the next word (R33).
theorem test_guarded_lane_keeps : regOf 4 1 (next (.mov ⟨false, 1, 0, false, false⟩ false (dg 4) (g 5) false)
    (withRegs [(4, 7), (5, 9)])) = some 7 := by decide +kernel
theorem test_word_passes : pcOf 5 (next (.mov hdr false (dg 4) (g 5) false) (withRegs [(5, 9)])) = some (wordPlace + 12) := by
  decide +kernel
-- R126 to R128.
theorem test_logic_and :
    regOf 4 0 (next (.logic hdr false (dg 4) (g 5) (g 6) (g 0) 0xC0) (withRegs [(5, 0xFF00FF00), (6, 0x0FF00FF0)])) = some 0x0F000F00 := by
  decide +kernel
theorem test_shr_signed_wide :
    regOf 6 0 (next (.shr hdr false (dg 6) (g 4) (g 5) true false) (withRegs [(4, 0x80000000), (5, 40)])) = some 0xFFFFFFFF := by
  decide +kernel
theorem test_shl_by_width :
    regOf 6 0 (next (.shl hdr false (dg 6) (g 4) (g 5) false) (withRegs [(4, 1), (5, 32)])) = some 0 := by decide +kernel
theorem test_bfx_signed :
    regOf 6 0 (next (.bfx hdr false (dg 6) (g 4) (g 5) true) (withRegs [(4, 0x000000F0), (5, 0x0404)])) = some 0xFFFFFFFF := by
  decide +kernel
theorem test_prmt_swaps :
    regOf 7 0 (next (.prmt hdr false (dg 7) (g 4) (g 5) (g 6)) (withRegs [(4, 0x33221100), (5, 0x77665544), (6, 0x00010203)])) =
      some 0x00112233 := by decide +kernel
-- Chapter 5, "A compaction": ICMP's lanes, the exclusive scan and the count.
/-- g8 of the compaction. -/
def compactIn (i : Nat) : Nat := if i = 1 then 7 else if i = 2 then 0x32 else if i = 5 then 0x63 else if i = 6 then 0xFFFFFFFC else 100 + i
theorem test_icmp_compaction :
    predOf 1 (next (.icmp hdr false 1 (g 8) (.imm 100) true false .lt) (withLanes [(8, compactIn)])) = some 0x66 := by decide +kernel
theorem test_lscan_compaction :
    [0, 1, 2, 3, 5, 6, 7, 31].map (fun l => regOf 5 l (next (.lscan hdr (dg 5) (g 4) false false true .add true)
      (withLanes [(4, fun i => if i = 1 ∨ i = 2 ∨ i = 5 ∨ i = 6 then 1 else 0)]))) =
    [some 0, some 0, some 1, some 2, some 2, some 3, some 4, some 4] := by decide +kernel
theorem test_popc : regOf 7 0 (next (.popc hdr false (dg 7) (g 6) false) (withRegs [(6, 0x66)])) = some 4 := by decide +kernel
-- R135: `SHFL.sh.seg8` with n = -1.
theorem test_shfl_shift :
    [0, 1, 9].map (fun l => regOf 6 l (next (.shfl hdr (dg 6) (g 4) (.imm 0xFFFFFFFF) .sh 3 false true) (withLanes [(4, fun i => i)]))) =
    [some 0, some 0, some 8] := by decide +kernel
-- Chapter 6, "A fixed-tree sum", with its flag.
theorem test_flsum_tree :
    (let o := next (.flsum hdr (dg 6) (g 5) .rne true true)
      (withLanes [(5, fun i => if i = 0 then 0x4B800000 else if i < 4 then 0x3F800000 else 0)])
    (regOf 6 7 o, flagsNow o)) = (some 0x4B800001, some 0x10) := by decide +kernel
-- R143 to R145: results and flags.
theorem test_fadd_ties :
    regOf 6 3 (next (.fadd hdr false (dg 6) (g 4) (g 5) .rne false) (withRegs [(4, 0x4B800000), (5, 0x3F800000)])) = some 0x4B800000 := by
  decide +kernel
theorem test_fdiv_by_zero :
    regOf 6 0 (next (.fdiv hdr false (dg 6) (g 4) (g 5) .rne) (withRegs [(4, 0xBF800000), (5, 0)])) = some 0xFF800000 := by decide +kernel
theorem test_fsqrt : regOf 6 0 (next (.fsqrt hdr false (dg 6) (g 4) .rne) (withRegs [(4, 0x40800000)])) = some 0x40000000 := by
  decide +kernel
theorem test_fexp2 : regOf 6 0 (next (.fexp2 hdr false (dg 6) (g 4) .rne) (withRegs [(4, 0x40400000)])) = some 0x41000000 := by
  decide +kernel
theorem test_fneg_sign : regOf 6 0 (next (.fneg hdr false (dg 6) (g 4)) (withRegs [(4, 0x7FC00001)])) = some 0xFFC00001 := by
  decide +kernel
-- Chapter 3, "Worked conversions".
theorem test_fcvt_e4m3 :
    (let o := next (.fcvt hdr false (dg 6) (g 4) .rne false .e4m3) (withRegs [(4, 0x3F9F0000)])
    (regOf 6 0 o, flagsNow o)) = (some 0x3A, some 0x10) := by decide +kernel
theorem test_fcvt_e4m3_saturates :
    regOf 6 0 (next (.fcvt hdr false (dg 6) (g 4) .rne true .e4m3) (withRegs [(4, 0x43FA0000)])) = some 0x7E := by decide +kernel
theorem test_fcvt_e2m1 : regOf 6 0 (next (.fcvt hdr false (dg 6) (g 4) .rne false .e2m1) (withRegs [(4, 0x40200000)])) = some 4 := by
  decide +kernel
-- Chapter 6, "Quantising one block": both scales, and the codes with them.
theorem test_qscale_fit : regOf 8 0 (next (.qscale hdr false (dg 8) (g 7) true .e2m1) (withRegs [(7, 0x40E00000)])) = some 0x80 := by
  decide +kernel
theorem test_qscale : regOf 8 0 (next (.qscale hdr false (dg 8) (g 7) false .e2m1) (withRegs [(7, 0x40E00000)])) = some 0x7F := by
  decide +kernel
theorem test_qnt_fit :
    (let o := next (.qnt hdr false (dg 9) (g 5) (g 8) (g 9) .rne false .e2m1 0)
      (withLanes [(5, fun i => if i = 0 then 0x40E00000 else if i = 1 then 0xBF400000 else 0), (8, fun _ => 0x80), (9, fun _ => 0)])
    (regOf 9 0 o, regOf 9 1 o, regOf 9 2 o, flagsNow o)) = (some 6, some 9, some 0, some 0x18) := by decide +kernel
-- R110: `BRA` with I = -36; R111: `EXIT`; R131: s.lane; R34: (!p7).
theorem test_bra_back : pcOf 0 (next (.bra hdr 0xFFFFFFDC) (withRegs [])) = some (wordPlace + 12 - 36) := by decide +kernel
theorem test_exit_ends : (next (.exit hdr) (withRegs [])).bind (fun t => (t.fib r0).map (fun f => (f.live, f.st))) =
    some (0, .exited) := by decide +kernel
theorem test_never : pcOf 0 (next (.nop Hdr.never) (withRegs [])) = some (wordPlace + 12) := by decide +kernel

/-! ### States that meet the hypotheses of the statements -/

/-- A machine whose launch, work-group and context are equipped: registers, scratchpad, parameters, a window, a tile, a loaded
slot, handlers and a system context. -/
def rig (l : List (Nat × Nat)) : State :=
  let s := withRegs l
  { s with
    launches := [(0, { wordLaunch with scratch := 0x8000, params := 64, paramPtr := wordPlace, trapVec := 0x1800, coresident := true
                                       reserve := true, windows := [⟨240, 4, 1, 0, false, true⟩] })]
    ctxs := [(0, { st := .running, asid := 1, valid := true, system := true, entry := wordPlace + 0x800 })]
    wgs := s.wgs.map (fun e => (e.1, { e.2 with
      tiles := [⟨List.replicate 32 (List.replicate 64 0), 0, 0, 0⟩]
      wslots := [{ freshSlot [] 0 with st := .loaded, format := .e4m3 }]
      windows := [⟨0, 0, [⟨0, true⟩], List.replicate 4 (splat 0), [[]]⟩] })) }
/-- The fibre as its word issues. -/
def fibAt (s : State) : Fibre := ((s.settleLoads r0).fib r0).getD (newFibre 0 0 0 0 0 0 0 0)
/-- The word. -/
def actAt (s : State) (ends : Bool) : Act := (fibAt s).actOf hdr ends here
/-- The state in which it acts: `srcs` are its sources with the registers each names. -/
def begunAt (s : State) (ends : Bool) (srcs : List (Src × Nat)) : State :=
  (s.settleLoads r0).begun (fibAt s) hdr ends (srcs.flatMap (fun x => srcNames x.1 x.2)) (srcs.flatMap (fun x => srcLast x.1 x.2)) here
/-- The fibre of the small machine issues. -/
def issuing (s : State) : Bool :=
  s.cur == some here && ((s.settleLoads r0).fib r0).isSome && (fibAt s).acting hdr here != 0 && here.lanes &&& (fibAt s).live == here.lanes

theorem issuing_issues (s : State) (h : issuing s = true) : Issues s hdr here (fibAt s) := by
  simp only [issuing, Bool.and_eq_true, beq_iff_eq, bne_iff_ne, ne_eq] at h
  obtain ⟨⟨⟨h1, h2⟩, h3⟩, h4⟩ := h
  obtain ⟨f, hf⟩ := Option.isSome_iff_exists.mp h2
  refine ⟨h1, ?_, by decide, h3, h4⟩
  show (s.settleLoads r0).fib r0 = some (fibAt s)
  simp [fibAt, hf]

/-- Its operands are valid and its destinations can be written: what `LaneWord` and its like ask before they compute. -/
abbrev laneReady (s : State) (srcs : List Src) (dsts : List Nat) : Prop :=
  issuing s = true ∧ (s.settleLoads r0).badLatches r0 srcs ((actAt s false).readers false) = none ∧
    (s.settleLoads r0).writeFault r0 dsts = none
/-- The same for a word that acts once. -/
abbrev onceReady (s : State) (ends : Bool) (srcs : List (Src × Nat)) (dsts : List Nat) : Prop :=
  issuing s = true ∧ (fibAt s).owes (srcs.flatMap (fun x => srcNames x.1 x.2)) = false ∧
    (begunAt s ends srcs).wordFault (actAt s ends) (srcs.map (·.1)) (oneLane 0) dsts = none
/-- Every earlier store of the fibre can leave. -/
abbrev leaves (b : State) : Prop := b.owesStores r0 = false ∧ (b.drain r0).2 = none
/-- Records of its core's region can be read. -/
abbrev readable (s b : State) (o size n : Nat) : Prop :=
  (b.ownRegion 0 o (size * n)).isSome = true ∧ (b.settleAtomics r0).2 = none ∧ (b.launchOf 0).checked = false ∧
    (b.withLog r0 false).2 = none ∧ (b.recordsCheck (actAt s false) o size n).isOk = true
/-- A computation has a result. -/
def okay {ε α : Type} : Except ε α → Bool
  | .ok _ => true
  | .error _ => false

/-- Bytes in the scratchpad. -/
def withScratch (s : State) (l : List (Nat × List Byte)) : State :=
  { s with scratch := l.foldl (fun m e => Memory.write m e.1 e.2) s.scratch }
/-- Bytes with some 4-byte words set. -/
def descBytes (n : Nat) (l : List (Nat × Nat)) : List Byte :=
  leBytes n (l.map (fun e => e.2 * 2 ^ (8 * e.1))).sum
/-- A word completes: its group stands at the next word, and no trap has been taken. -/
def completes (i : Instr) (s : State) : Bool :=
  match exec i s with
  | .next t => (match t.fib r0 with
    | some f => f.trap.isNone && f.pcs.toList.getD 0 0 == wordPlace + 12 && f.waits.isEmpty
    | none => false)
  | _ => false

theorem witness_IntegerArithmeticComputes : laneReady (rig [(4, 7), (5, 0)]) [g 4, g 5, g 6] [6] ∧
    (rig []).badLatches r0 [.latch 1] allLanes = some 0 ∧ ((rig []).modWindow 0 0 (fun x => { x with parts := [⟨1, false⟩] })).writeFault r0 [240] = some 3 ∧
    ({ withRegs [(4, 1)] with launches := [(0, { wordLaunch with regs := 1 })] } : State).writeFault r0 [5] = some 2 := by decide +kernel
theorem witness_ComparesCarriesAndPredicates : laneReady (rig [(4, 7)]) [g 4, .imm 100] [] ∧
    onceReady (rig [(4, 7)]) false [(g 4, 1), (g 5, 1)] [6] := by decide +kernel
theorem witness_DivisionTruncates : laneReady (rig [(4, 0x80000000), (5, 0xFFFFFFFF)]) [g 4, g 5] [6] := by decide +kernel
theorem witness_LogicShiftsAndCounts : laneReady (rig [(4, 1), (5, 64)]) [g 4, g 5, g 0] [6, 7] := by decide +kernel
theorem witness_BitFieldsExtractAndInsert : laneReady (rig [(4, 1), (5, 0x2020)]) [g 4, g 5, g 0] [6] := by decide +kernel
theorem witness_MovesAndSpecialRegisters : laneReady (rig [(4, 1)]) [g 4, .imm 5] [6, 7] := by decide +kernel
theorem witness_LaneExchangesOfPredicates : laneReady (rig [(4, 1)]) [g 4] [6] ∧
    ((rig []).fib r0).map (·.live) = some here.lanes := by decide +kernel
theorem witness_ShuffleReadsItsSourceLane : laneReady (rig [(4, 1), (5, 31)]) [g 5] [6] ∧
    ((rig []).fib r0).map (·.live) = some here.lanes ∧ (rig []).badLatch r0 (g 4) allLanes = none ∧
    (rig []).badLatch r0 (.latch 3) allLanes = some 0 := by decide +kernel
theorem witness_LanesReduce : laneReady (rig [(4, 31)]) [g 4] [6, 7] ∧
    ((rig []).fib r0).map (·.live) = some here.lanes := by decide +kernel
/-- Only one thread of the fibre issues. -/
def apart (determ : Bool) : State :=
  { rig [] with cur := some { here with lanes := 1 }, launches := [(0, { wordLaunch with determ := determ })] }
theorem witness_ExchangesApart : (apart true).cur = some { here with lanes := 1 } ∧
    (fibAt (apart true)).acting hdr { here with lanes := 1 } = 1 ∧ (1 : Mask) &&& (fibAt (apart true)).live = 1 ∧
    ((apart true).fib r0).map (fun f => decide (f.live ≠ 1)) = some true ∧ ((apart true).launchOf 0).determ = true ∧
    (fibAt (apart true)).owes [4] = false := by
  decide +kernel
theorem witness_FloatWords : laneReady (rig [(4, 0x7FC00001), (5, 0)]) [g 4, g 5, g 6] [6] := by decide +kernel
theorem witness_ConversionsRound : laneReady (rig [(4, 0x7F800000), (5, 0)]) [g 4, g 5, g 6] [6, 7] := by decide +kernel
theorem witness_PackedHalvesQuantisationAndBins : laneReady (rig [(4, 0x3F800000), (5, 127)]) [g 4, g 5] [6, 7] ∧
    sext ((rig [(5, 127)]).opLane r0 (one (g 5)) 0).toNat 32 = 127 ∧
    sext ((rig [(5, 0xFFFFFF82)]).opLane r0 (one (g 5)) 0).toNat 32 = -126 ∧
    sext ((rig [(5, 0xFFFFFF81)]).opLane r0 (one (g 5)) 0).toNat 32 = -127 := by decide +kernel

/-! #### Control -/

/-- The fibre is in trap mode. -/
def trapped (s : State) : State :=
  s.modFib r0 (fun f => { f with trap := some { info := (actAt s false).illegal 1, lanes := allLanes, hregs := Vector.replicate 16 (splat 0)
                                                back := f.pcs, gov := f.gov, waits := [], waiting := false, stopped := false } })

theorem witness_PlainWordsBranchesAndCalls : issuing (rig [(4, 0x2000)]) = true ∧
    (begunAt (rig [(4, 0x2000)]) true [(g 4, 2)]).writeFault r0 [6, 7] = none := by decide +kernel
theorem witness_ExitEndsThreads : issuing (rig []) = true ∧ (begunAt (rig []) true []).inTrap r0 = false ∧
    ((begunAt (rig []) true []).drain r0).2 = none ∧ issuing (trapped (rig [])) = true ∧
    (begunAt (trapped (rig [])) true []).inTrap r0 = true ∧ ((rig []).fib r0).map (fun f => (f.trap, f.live &&& ~~~3 != 0, f.live &&& ~~~allLanes)) =
      some (none, true, 0) := by decide +kernel
/-- A phase of the work-group's barrier 0 has completed, and the fibre's threads waited in it. -/
def phased : State :=
  { (rig []).modFib r0 (fun f => { f with passed := [(.wgp 0 0, 0, allLanes), (.grid 0, 0, allLanes)] }) with
    barriers := [(.wgp 0 0, { phase := 1 }), (.grid 0, { phase := 1 })] }
theorem witness_BarriersArriveAndPass :
    (let a := actAt (rig []) true
    let b := begunAt (rig []) true []
    issuing (rig []) = true ∧ b.inTrap r0 = false ∧ a.lanes &&& b.barrierPassed r0 (.wgp 0 7) = 0 ∧
      a.lanes &&& (b.barrier (.wgp 0 7)).arrivedOf r0 = 0 ∧ (b.drain r0).2 = none ∧ (b.barrier (.fib 0 0 3)).mask = none ∧
      (b.fib r0).map (fun f => bit 1 f.pos) = some true ∧ (b.launchOf 0).coresident = true) ∧
    (let a := actAt phased true
    let b := begunAt phased true []
    issuing phased = true ∧ b.inTrap r0 = false ∧ a.lanes &&& b.barrierPassed r0 (.wgp 0 0) = a.lanes ∧
      a.lanes &&& b.barrierPassed r0 (.grid (b.clusterKey 0).1) = a.lanes) ∧ ((withRegs []).launchOf 0).coresident = false := by
  decide +kernel
/-- The fibre owns the window's part, which it has taken. -/
def owned : State := (rig []).modWindow 0 0 (fun x => { x with parts := [⟨0, false⟩] })
theorem witness_WindowHandOff :
    (let b := begunAt owned true []
    issuing owned = true ∧ b.inTrap r0 = false ∧ b.windowPart r0 0 = some (0, 0) ∧ (b.winPart 0 0 0).owner = 0 ∧ (b.drain r0).2 = none ∧
      (b.winPart 0 0 0).full = false) ∧
    (let b := begunAt (rig []) true []
    b.windowPart r0 0 = some (0, 0) ∧ (b.winPart 0 0 0).full = true) := by decide +kernel

/-! #### Matrix words -/

/-- An operation of fibre 0 that stands in core 0's array. -/
def tileOp (kind : MatKind) (lines : List (Nat × Nat × Nat × Nat × Nat)) : MatOp where
  num := 0
  kind := kind
  ref := r0
  lanes := allLanes
  tile := 0
  ctl := ctlWord 0 0 0 0 0 0 false false false .rne .e4m3 .e4m3 0
  asc := false
  slot := 0
  version := 0
  bank := 0
  extraA := 0x80
  rows := []
  wanted := lines
  issued := 0
  ready := decide (lines = [])
  opened := none
/-- With an operation in the array. -/
def busied (l : List (Nat × Nat)) : State := (rig l).modCore 0 (fun c => { c with matq := [tileOp .mldt [(0, 0x100, 256, 0, 0)]] })
theorem witness_TilesReadAndWritten :
    (let s := rig [(4, 0), (5, 31), (6, 63)]
    let b := begunAt s false [(g 4, 1), (g 5, 1), (g 6, 1)]
    issuing s = true ∧ (fibAt s).owes [4, 5, 6] = false ∧ b.claimOf 0 = none ∧ b.arrayBusy r0 .fibre = false ∧ b.arrayBusy r0 .group = false ∧
      b.wordFault (actAt s false) [g 4, g 5, g 6] allLanes [7, 8] = none ∧ (b.tile 0 0).map (fun w => w.rows.length) = some 32 ∧
      (b.srcLane r0 (g 5) 3).toNat < 32 ∧ (b.srcLane r0 (g 6) 3).toNat < 64 ∧ (b.srcLane r0 (g 6) 3).toNat + 32 / fmtWidth .f32 ≤ 64) ∧
    (begunAt (busied []) false []).arrayBusy r0 .fibre = true ∧ (begunAt (busied []) false []).arrayBusy r0 .group = true ∧
    completes (.mrd hdr 7 (g 5) (g 6) 0 .rne false .f32) (rig [(5, 31), (6, 63)]) = true := by decide +kernel
theorem witness_MatrixWordsQueueQuarters :
    (let s := rig [(4, 0x80)]
    let b := begunAt s false [(g 4, 1)]
    let ctl := ctlWord 0 0 0 0 0 0 false false false .rne .e4m3 .e4m3 0
    issuing s = true ∧ (fibAt s).owes [4] = false ∧ b.claimOf 0 = none ∧ (b.wslot 0 0).map (·.st) = some .loaded ∧
      (b.mmaSlot (actAt s false) 0 0 0 ctl).isSome = true ∧ b.mmaSlot (actAt s false) 1 0 0 ctl = none ∧
      b.arrayBusy r0 (.queue (quartersOf (actAt s false).lanes).length) = false ∧
      b.wordFault (actAt s false) [g 4] allLanes [] = none ∧ (b.aperture 0 0x80 0x100).isSome = true ∧ (b.drain r0).2 = none ∧
      b.owesAt r0 (b.rangeAt 0 0x80 0x100) = false ∧ (b.launchOf 0).checked = false ∧
      okay (b.onceCheck (actAt s false) [(0, apertureVa 0x80, 0x100, 0)]) = true) ∧
    (((rig []).modCore 0 (fun c => { c with matq := List.replicate 16 { tileOp .quarter [(0, 0x100, 256, 0, 0)] with
      ready := false } })).arrayBusy r0 (.queue 4)) = true ∧
    completes (.mmaqs hdr 0 (g 4) 0 false 0 0 0 0 0 0 false false false .rne .e4m3 .e4m3 0) (rig [(4, 0x80)]) = true := by decide +kernel
/-- A streamed collective that waits for its rows. -/
def streaming : CollOp where
  handle := 3
  ctx := 0
  desc := { src := 0, dst := 0, count := 2048, kind := 0, op := 0, arrival := false, rnd := .rne, infmt := 0, outfmt := 0
            sspace := false, dspace := false, nodev := false, spec := false, stream := true, group := 0, slot := 0, sequence := 0
            node := 0, root := 0, bucketmib := 1, bucket := 0x4000, binexp := 0 }
  place := 0
  scratch := false
  launch := 0
  kick := none
  node := none
  core := 0
  base := 0
  members := [(0, 0)]
  m := 0
  c := 1
  rows := []
  staged := []
  fallback := false
  out := none
  result := 0
  status := 0
  nanidx := 0
  nansrc := 0
  redone := 0
theorem witness_TilesMove :
    (let s := (rig [(4, 0x100)]).modColl 0 (fun c => { c with ops := [{ streaming with handle := 0x100 }] })
    let a := actAt s false
    let b := begunAt s false [(g 4, 1)]
    onceReady s false [(g 4, 1)] [] ∧ (fibAt s).owes [4] = false ∧ b.claimOf 0 = none ∧ (b.tile 0 0).isSome = true ∧ (b.fib r0).isSome = true ∧
      (b.aperture 0 0x100 (256 * 32)).isSome = true ∧ b.owesAt r0 [(0x100, 256 * 32)] = false ∧ (b.drain r0).2 = none ∧
      (b.launchOf 0).checked = false ∧ okay (b.onceCheck a [(0, apertureVa 0x100, 256 * 32, 0)]) = true ∧
      (b.collOp 0 0 0x100).map (fun o => (o.pending, o.desc.stream, o.out)) = some (true, true, none) ∧
      b.collOp 0 0 3 = none ∧ b.aperture 0 0x7F00 (256 * 32) = none ∧ completes (.mldt hdr 0 (g 4) 0) s = true ∧
      completes (.mstt hdr 0 (g 4) .rne false .f32 0) s = true ∧ completes (.msend hdr 0 (g 4) .rne false .f32) s = true) := by
  decide +kernel
/-- MCFG of the fibre waits for what it asks. -/
def claiming (asks : Bool) : PoolClaim := ⟨5, 0, 0, wordPlace, asks, 0, 2048, 1⟩
theorem witness_TileConfigurationAndSlots :
    (let s := rig [(4, 0x001), (5, 0x11), (6, 0x400)]
    let b := begunAt s false [(g 4, 1)]
    let c : PoolClaim := ⟨b.draw.1, 0, 0, wordPlace, false, 0, 2048, 0⟩
    onceReady s false [(g 4, 1)] [6] ∧ (fibAt s).owes [4] = false ∧ b.claimOf 0 = none ∧ (b.srcLane r0 (g 4) 0).toNat = 1 ∧
      (b.srcLane r0 (g 5) 0).toNat % 32 = 17 ∧ (b.draw.2.claim 0 c).claimIdle c = true ∧
      (((b.draw.2.claim 0 c).giveBack 0 0).modClaim 0 { c with asks := true }).claimServed 0 c.ticket = true ∧
      completes (.mcfg hdr (g 4)) s = true ∧
      (let u := begunAt (busied [(4, 0x001)]) false [(g 4, 1)]
      (u.draw.2.claim 0 ⟨u.draw.1, 0, 0, wordPlace, false, 0, 2048, 0⟩).claimIdle ⟨u.draw.1, 0, 0, wordPlace, false, 0, 2048, 0⟩ = false) ∧
      (let w : State := s.modCore 0 (fun k => { k with claims := [claiming true] })
      issuing w = true ∧ (begunAt w false [(g 4, 1)]).claimOf 0 = some (claiming true) ∧
        (begunAt w false [(g 4, 1)]).claimServed 0 5 = true) ∧
      (let w : State := s.modCore 0 (fun k => { k with claims := [claiming false] })
      (begunAt w false [(g 4, 1)]).claimOf 0 = some (claiming false) ∧ (begunAt w false [(g 4, 1)]).claimIdle (claiming false) = true ∧
        (((begunAt w false [(g 4, 1)]).giveBack 0 0).modClaim 0 (claiming true)).claimServed 0 5 = true) ∧
      (b.wslot 0 0).map (fun w => (w.st, b.referenced 0 w.phys none)) = some (.loaded, false) ∧ b.wslot 0 1 = none ∧
      completes (.wdict hdr (g 4) 0) s = true ∧ completes (.wset hdr (g 4) 0) s = true ∧ completes (.wfree hdr 0) s = true ∧
      completes (.wqry hdr 7 1) s = true) ∧
    (let d := descBytes 64 [(0, 0x1000), (0x18, 128), (0x24, Fmt.e4m3.bits.toNat + 256)]
    let s := withScratch (rig [(6, 0x400)]) [(0x400, d)]
    let b := begunAt s false [(g 6, 1)]
    (readTensor d).map (fun t => b.tensorOk 0 t) = some true ∧ b.aperture 0 0x400 64 = some 0x400 ∧ b.isPresent 8 = true ∧
      b.owesAt r0 [(0x400, 64)] = false ∧ (b.settleAtomics r0).2 = none ∧ completes (.wload hdr (g 6) 0 0) s = true) := by decide +kernel/-- A quarter operation at the head of core 0's queue. -/
def quarter (ready : Bool) (opened : Option WSlot) : MatOp := { tileOp .quarter [] with ready := ready, opened := opened }
/-- A B tile for the slot that such a quarter names, and one for another. -/
def loadedTile (slot : Nat) : BTile := ⟨slot, 0, freshSlot [] slot⟩
theorem witness_ArraySteps :
    (let s := (rig []).modCore 0 (fun c => { c with matq := [quarter false none] })
    (s.core 0).matq.find? (fun op => !op.ready && op.lines.all s.isPresent) = some (quarter false none) ∧
      (waiting (s.core 0).matq).find? (fun op => !((s.core 0).btile.any (·.serves op))) = some (quarter false none) ∧
      (s.core 0).ltile = none ∧ (s.slotAt 0 0).isSome = true) ∧
    (let s := (rig []).modCore 0 (fun c => { c with matq := [quarter true none], btile := some (loadedTile 0) })
    waiting (s.core 0).matq = [quarter true none] ∧ (s.core 0).pass = none ∧ (loadedTile 0).serves (quarter true none) = true) ∧
    (let s := (rig []).modCore 0 (fun c => { c with
      matq := [quarter true none], btile := some (loadedTile 1), ltile := some (loadedTile 0) })
    waiting (s.core 0).matq = [quarter true none] ∧ (loadedTile 1).serves (quarter true none) = false ∧ (s.core 0).ltile = some (loadedTile 0)) ∧
    (let first := quarter true (some (freshSlot [] 0))
    let s := (rig []).modCore 0 (fun c => { c with matq := [{ quarter true none with issued := 3 }], pass := some (first, 3) })
    waiting (s.core 0).matq = [{ quarter true none with issued := 3 }] ∧ (s.core 0).pass = some (first, 3) ∧ first.opened.isSome = true) ∧
    (let s := (rig []).modCore 0 (fun c => { c with matq := [quarter true (some (freshSlot [] 0))] })
    (s.core 0).matq = [] ++ [quarter true (some (freshSlot [] 0))] ∧ (quarter true none).isQuarter = true) ∧ ((rig []).core 0).matq = [] ∧
    ([MatKind.zero true, .write [(0, 0, 7)], .mldt, .read 7 .f32 .rne false [(0, 0, 0)], .extreme (dg 7) true [(0, 0)],
      .store default .f32 .rne false [⟨0, 0, []⟩]].all (fun k =>
        let s := (rig []).modCore 0 (fun c => { c with matq := [tileOp k []] })
        firstFree (s.tileGoes 0) [] (s.ops 0) == some (tileOp k []))) = true ∧
    (let s := (rig []).modSlotAt 0 0 (fun x => { x with
      st := .loading, loader := some (r0, ⟨0, wordPlace, 0, 1, 1, ⟨0, 0, 0⟩⟩, []), pend := some ([], [], []) })
    (s.wslot 0 0).map (fun x => (x.st, x.loader.isSome)) = some (.loading, true) ∧ s.slotOwner 0 0 = some 0) := by decide +kernel
/-! #### Memory, atomics, races -/

theorem witness_LoadsRead :
    (let s := rig [(4, 0x1000), (5, 0), (6, 0x7FFC)]
    let b := begunAt s false [(g 4, 2)]
    let l : List LaneAcc := laneAccs allLanes (fun i => 0x1000 + 4 * i) (fun _ => [])
    laneReady s [g 4] [10, 11, 12, 13] ∧ (fibAt s).owes [4, 5] = false ∧ (b.bounds 0 4 l).1 ≠ [] ∧ b.absentLines 0 4 l = [] ∧
      b.owesAt r0 (b.scratchRanges 0 4 l) = false ∧ (b.settleAtomics r0).2 = none ∧ (b.withLog r0 (b.mayLog r0 l)).2 = none ∧
      (b.withLog r0 true).1.logFull r0 = false ∧ (b.loadCheck (actAt s false) 4 none l).isOk = true ∧
      (b.loadRead (actAt s false) 4 none false [⟨0, 0x1000, []⟩]).1.isOk = true ∧ b.boundsOk 0 (apertureVa 0x7FFC) 4 = true ∧
      (b.launchOf 0).params = 64) ∧ completes (.ld hdr false 12 (g 4) .s128 false .plain 0) (rig [(4, 0x1000), (5, 0)]) = true ∧
    completes (.lds hdr true 12 (g 6) .s32 false 0) (rig [(6, 0x7FFC)]) = true ∧
    completes (.ldc hdr true 12 (.imm 0) .s32 false false 60) (rig []) = true ∧
    completes (.ldacq hdr 12 (g 4) .s64 false .pkg 0) (rig [(4, 0x1008), (5, 0)]) = true := by decide +kernel
theorem witness_StoresAreQueued :
    (let s := rig [(4, 0x1000), (5, 0), (6, 9)]
    let b := begunAt s false [(g 4, 2), (g 6, 1)]
    let l : List LaneAcc := laneAccs allLanes (fun i => 0x1000 + 4 * i) (fun _ => [])
    issuing s = true ∧ (fibAt s).owes [4, 5, 6] = false ∧ b.wordFault (actAt s false) [g 4, g 6] allLanes [] = none ∧
      (b.readFirst r0 (b.scratchRanges 0 4 l)).2 = [] ∧ b.owesStores r0 = false ∧ (b.storeRoom r0 32).2 = none ∧
      (b.withLog r0 true).2 = none ∧ (b.withLog r0 true).1.logFull r0 = false ∧ (b.drain r0).2 = none ∧
      (b.launchOf 0).determ = false ∧ b.absentLines 0 4 l = [] ∧ b.anyHost (b.agent 0) [⟨0, 0x1000, []⟩] = false) ∧
    completes (.st hdr (g 4) (g 6) .s32 .plain 0) (rig [(4, 0x1000), (5, 0), (6, 9)]) = true ∧
    completes (.sts hdr (g 4) (g 6) .s32 0) (rig [(4, 0x7FFC), (6, 9)]) = true ∧
    completes (.strel hdr (g 4) (g 6) .s32 .die 0) (rig [(4, 0x1000), (5, 0), (6, 9)]) = true ∧
    completes (.red hdr (g 4) (g 6) .add false .rel .die 0) (rig [(4, 0x1000), (5, 0), (6, 9)]) = true ∧
    (((rig []).modLaunch 0 (fun l => { l with determ := true })).launchOf 0).determ = true := by decide +kernel
/-- A queued store of one byte to the aperture. -/
def entry (frozen : Bool) : StoreEntry := { (default : StoreEntry) with
  word := ⟨0, wordPlace, 0, 1, 1, ⟨0, 0, 0⟩⟩
  acc := ⟨0, BitVec.ofNat 64 (apertureVa 0x40), [7]⟩
  kind := .plain
  log := none
  frozen := frozen
  begun := false }
theorem witness_QueuedStoresLand :
    (let s := (rig []).modFib r0 (fun f => { f with queue := [entry false], loads := [⟨4, 1, [splat 3]⟩] })
    (s.fib r0).map Fibre.curQueue = some [entry false] ∧ (s.fib r0).map (fun f => f.loads.length) = some 1 ∧ (entry false).begun = false ∧
      (entry false).log = none ∧ (entry false).kind = .plain ∧
      inAperture (entry false).acc.addr.toNat = true ∧ s.aperture 0 0x40 1 = some 0x40 ∧ (s.agent 0).checked = false ∧
      Memory.wf s.scratch = true ∧ (entry true).frozen = true ∧ ((rig []).fib r0).map (fun f => (f.loads, f.curQueue)) = some ([], []) ∧
      (match exec (.storeQueueDrain r0) s with | .next t => t.scratch == [(0x40, 7)] | _ => false) = true) := by decide +kernel
theorem witness_MisalignedAccessesFault :
    (let s := rig [(4, 0x1002), (5, 0), (6, 9), (7, 0)]
    let b := begunAt s false [(g 4, 2)]
    let l : List LaneAcc := laneAccs allLanes (fun _ => 0x1002) (fun _ => [])
    issuing s = true ∧ (fibAt s).owes [4, 5] = false ∧ b.wordFault (actAt s false) [g 4] allLanes [12] = none ∧
      (begunAt s false [(g 4, 2), (g 6, 1)]).wordFault (actAt s false) [g 4, g 6] (oneLane 0) [12] = none ∧ (b.bounds 0 4 l).1 = l ∧ l ≠ [] ∧
      b.absentLines 0 4 l = [] ∧ b.owesAt r0 (b.scratchRanges 0 4 l) = false ∧ (b.settleAtomics r0).2 = none ∧
      (b.withLog r0 true).2 = none ∧ (b.withLog r0 true).1.logFull r0 = false ∧
      (b.loadCheck (actAt s false) 4 (some .die) l).isOk = true ∧
      (match (b.loadRead (actAt s false) 4 (some .die) false l).1 with | .error e => e == (5, 0, 0x1002) | .ok _ => false) = true ∧
      inAperture 0x1002 = false ∧ (0x1002 : Nat) % 4 ≠ 0) ∧
    (let e : StoreEntry := { entry false with kind := .atomic .add false, log := some 0 }
    let x : LogEntry := { (default : LogEntry) with accs := [⟨0, 0x1002, [0, 0, 0, 0]⟩], size := 4, probed := false }
    let s := (rig []).modFib r0 (fun f => { f with queue := [e], log := [(0, x)] })
    (s.fib r0).map Fibre.curQueue = some [e] ∧ e.frozen = false ∧ e.begun = false ∧ e.kind = .atomic .add false ∧ e.log = some 0 ∧
      (s.fib r0).map (fun f => Map.find f.log 0) = some (some x) ∧ x.probed = false ∧ x.accs = [⟨0, 0x1002, [0, 0, 0, 0]⟩] ∧
      x.size = 4) := by decide +kernel
theorem witness_AtomsReadModifyWrite :
    (let s := rig [(4, 0x1000), (5, 0), (6, 9)]
    let b := begunAt s false [(g 4, 2), (g 6, 1)]
    let l : List LaneAcc := [⟨0, 0x1000, []⟩]
    issuing s = true ∧ (fibAt s).owes [4, 5, 6] = false ∧ b.wordFault (actAt s false) [g 4, g 6] allLanes [12] = none ∧
      b.owesStores r0 = false ∧ (b.drain r0).2 = none ∧
      (b.bounds 0 4 l).1 = l ∧ b.absentLines 0 4 l = [] ∧ (b.withLog r0 true).2 = none ∧ (b.withLog r0 true).1.logFull r0 = false ∧
      okay (b.raceCheck (actAt s false) (b.agent 0) [(0, 0x1000, 4, 2)]) = true ∧
      (b.probeAll (b.agent 0) .rmw true 4 l).1 = none ∧ s.aperture 0 0x40 8 = some 0x40 ∧ Memory.wf s.scratch = true ∧
      inAperture (apertureVa 0x40) = true) ∧
    ((rig []).modLaunch 0 (fun l => { l with scratch := 0 })).bounds 0 4 [⟨0, BitVec.ofNat 64 (apertureVa 0x40), []⟩] = ([], 1) ∧
    ((rig []).setPresent 0 false).absentLines 0 4 [⟨0, BitVec.ofNat 64 (apertureVa 0x40), []⟩] = [0] ∧
    completes (.atom hdr 12 (g 4) (g 6) .add false .ar .die 0) (rig [(4, 0x1000), (5, 0), (6, 9)]) = true := by decide +kernel
theorem witness_FencesAndWaits :
    (let s := rig [(4, 0x1000), (5, 0), (6, 0)]
    let b := begunAt s false [(g 4, 2), (g 6, 1)]
    let l : List LaneAcc := [⟨0, 0x1000, []⟩]
    onceReady s false [(g 4, 2), (g 6, 1)] [12] ∧ (fibAt s).owes [4, 5, 6] = false ∧ b.owesStores r0 = false ∧ (b.drain r0).2 = none ∧
      b.boundsOk 0 0x1000 4 = true ∧ inAperture 0x1000 = false ∧
      b.absentLines 0 4 l = [] ∧ b.owesAt r0 (b.scratchRanges 0 4 l) = false ∧ (b.settleAtomics r0).2 = none ∧
      (b.withLog r0 (b.launchOf 0).checked).2 = none ∧ (b.launchOf 0).checked = false ∧
      okay ((b.knowing (actAt s false) (b.agent 0) 4 (some .die) l).raceCheck (actAt s false) (b.agent 0) [(0, 0x1000, 4, 0)]) = true ∧
      okay (b.loadBytes r0 (b.agent 0) false true 0x1000 4).1 = true ∧ ccHolds .eq 0 0 = true ∧ ccHolds .ne 0 0 = false) ∧
    ({ rig [] with replicas := [⟨[(0x10000, 7)], (0x10000, 0x10000), 0, 0⟩] } : State).replicas.all (fun e => decide (0 < e.page.2)) = true ∧
    completes (.waitv hdr 12 (g 4) (g 6) .eq false false .die 0) (rig [(4, 0x1000), (5, 0), (6, 0)]) = true ∧
    completes (.fence hdr .pkg) (rig []) = true := by decide +kernel
theorem witness_PresenceCachesAndPins :
    (let s := rig [(4, 0x1000), (5, 0), (6, 128)]
    let b := begunAt s false [(g 4, 2), (g 6, 1)]
    onceReady s false [(g 4, 2), (g 6, 1)] [12] ∧ (s.launchOf 0).reserve = true ∧ okay (b.pinLines (b.agent 0) 0x1000 128).1 = true ∧
      b.low32 (actAt s false) (g 6) = 128 ∧ (b.aperture 0 0x7F80 128).isSome = true ∧ b.aperture 0 0x8000 128 = none ∧
      leaves b) ∧
    completes (.unlock hdr 12 (g 4) (g 6) 0) (rig [(4, 0x1000), (5, 0), (6, 128)]) = true ∧
    completes (.pclr hdr (g 4) (g 6) false 0) (rig [(4, 0x7F80), (6, 128)]) = true ∧
    completes (.pres hdr 2 (g 4) 0) (rig [(4, 0x7FFF)]) = true ∧ completes (.pref hdr true (g 4) true 0) (rig [(4, 0x1000), (5, 0)]) = true ∧
    completes (.cwb hdr (g 4) false 0) (rig [(4, 0x1000), (5, 0)]) = true ∧ completes (.cinv hdr (.imm 0) true 0) (rig []) = true := by
  decide +kernel
theorem witness_RaceWords :
    (let s := rig [(4, 0x1000), (5, 0), (6, 128), (7, 0)]
    let b := begunAt s false [(g 4, 2)]
    onceReady s false [(g 4, 2)] [12] ∧ leaves b ∧ (b.probeRange (b.agent 0) .write 0x1000 64).1 = none ∧
      okay (b.raceCheck (actAt s false) (b.agent 0) [(0, 0x1000, 8, 1)]) = true ∧
      okay (b.loadBytes r0 (b.agent 0) false false 0x1000 64).1 = true ∧ b.onceOk 0 0x1000 128 = true ∧
      (b.fib ⟨0, b.low32 (actAt s false) (g 7)⟩).isSome = true ∧ (b.agent 0).checked = false ∧ (0x1004 : Nat) % 64 ≠ 0) ∧
    completes (.hbpub hdr (g 4) .die 0) (rig [(4, 0x1000), (5, 0)]) = true ∧
    completes (.hbjoin hdr 12 (g 4) .die 0) (rig [(4, 0x1000), (5, 0)]) = true ∧
    completes (.hbclkVec hdr 12 (g 7)) (rig [(7, 0)]) = true := by decide +kernel

/-! #### Engines -/

theorem witness_CopiesAreKicked :
    (let d := descBytes 64 [(0, 0x400), (8, 0x800), (0x10, 128), (0x14, 1), (0x20, 0x100), (0x24, 7)]
    let s := withScratch (rig [(4, 0x40)]) [(0x40, d)]
    let b := begunAt s false [(g 4, 1)]
    let full := (rig [(4, 0x40)]).modCore 0 (fun c => { c with
      cards := List.replicate 64 ⟨0, 0, (readCopy d).getD default, default, 0, false, false, 0, none⟩ })
    onceReady s false [(g 4, 1)] [] ∧ (readCopy (b.ownBytes r0 0x40 64)).map (b.copyOk 0) = some true ∧ leaves b ∧
      readable s b 0x40 64 1 ∧ (b.core 0).cards.length + 1 ≤ 64 ∧ completes (.cpyk hdr (g 4) 1 0) s = true ∧
      onceReady full false [(g 4, 1)] [] ∧ 64 < ((begunAt full false [(g 4, 1)]).core 0).cards.length + 1) ∧
    (let d := descBytes 64 [(0, 0x400), (8, 0x800), (0x10, 128), (0x14, 1), (0x20, 0x100), (0x24, 7)]
    let s := (withScratch (rig [(4, 0x40)]) [(0x40, d), (0x100, (⟨128, 0, 0, true, 1, 64⟩ : Stage).bytes)]).modCore 0 (fun c => { c with
      cards := [⟨0, 0x40, (readCopy d).getD default, default, 0, true, true, 64, none⟩] })
    completes (.cpyres hdr (g 4) 0) s = true ∧ (s.stage 0x100).fault = true ∧ (s.stage 0x100).kind = 1) := by decide +kernel
theorem witness_StageBarriers :
    (let s := withScratch (rig [(4, 0x100), (5, 1)]) [(0x100, (⟨128, 0, 0, false, 0, 0⟩ : Stage).bytes)]
    let b := begunAt s false [(g 4, 1), (g 5, 1)]
    onceReady s false [(g 4, 1), (g 5, 1)] [12] ∧ b.aperture 0 0x100 16 = some 0x100 ∧ leaves b ∧
      okay (b.raceCheck (actAt s false) (b.agent 0) [(0, apertureVa 0x100, 16, 2)]) = true ∧
      Memory.num b.scratch 0x100 4 + b.low32 (actAt s false) (g 5) < 2 ^ 32 ∧
      completes (.sbwait hdr (g 4) (g 5) 0) s = true ∧ completes (.sbwait hdr (g 4) (.imm 0) 0) s = false ∧
      completes (.sbinit hdr (g 4) (g 5) 0) s = true ∧ completes (.sbadd hdr (g 4) (g 5) 0) s = true ∧
      completes (.sbtest hdr 12 (g 4) 0) s = true ∧ (s.agent 0).checked = false ∧ Memory.wf s.scratch = true ∧
      (withScratch s [(0x100, (⟨128, 0, 1, true, 2, 0xFFFFFFFF⟩ : Stage).bytes)]).stage 0x100 = ⟨128, 0, 1, true, 2, 0xFFFFFFFF⟩) := by
  decide +kernel
/-- Receive ring 3 belongs to context 0: two slots of 256 bytes; the context may transmit on port 0. -/
def wired (l : List (Nat × Nat)) : State :=
  { rig l with w0 := Memory.write (Memory.write [] (0x40000 + 0x800 + 48) (leBytes 12 (2 ^ 31 + 256 * 2 ^ 32 + 2 * 2 ^ 64))) (0x40000 + 0xC00) [1] }
theorem witness_NetworkWords :
    (let s := wired [(4, 0x100), (5, 60)]
    let b := begunAt s false [(g 4, 1), (g 5, 1)]
    onceReady s false [(g 4, 1), (g 5, 1)] [12] ∧ b.ringDesc 0 3 = some (0, 256, 2) ∧ b.ringDesc 0 4 = none ∧
      (b.aperture 0 0x100 256).isSome = true ∧ b.mayTransmit 0 0 false = true ∧ (b.die 0).net.queue = [] ∧ leaves b ∧
      completes (.nrxarm hdr 12 (g 4) 3 0) s = true ∧ completes (.ntx hdr 12 (g 4) (g 5) true false 0) s = true ∧
      completes (.ntsrPtp hdr 12 (g 5)) s = true ∧ Map.find (b.die 0).net.handles 60 = none ∧
      ({ stamped := true } : TxState).stamped = true) := by decide +kernel
/-- An event node of context 0 in the state given. -/
def node (st : NodeState) (kind payload : Nat) : Node :=
  { pred := 0, init := 0, kind := kind, st := st, rearm := false, ctx := 0, payload := payload, succs := List.replicate 8 0, tag := 0
    queued := decide (st = .ready) }
/-- Nodes 5 and 6 of die 0. -/
def graph (l : List (Nat × Nat)) (a b : NodeState) : State := ((rig l).setNode 0 5 (node a 0 0)).setNode 0 6 (node b 0 0)
theorem witness_TaskGraphWords :
    (let s := graph [(4, mkRef 0 5), (5, mkRef 0 6), (7, 0x40)] .done .waiting
    let b := begunAt s false [(g 4, 1), (g 5, 1)]
    onceReady s false [(g 4, 1), (g 5, 1)] [12] ∧ bit (b.low32 (actAt s false) (g 4)) 31 = true ∧ b.peerRef (mkRef 0 5) = false ∧
      (b.ownNode 0 (mkRef 0 5)).isSome = true ∧ (b.ownNode 0 (mkRef 0 6)).isSome = true ∧ b.ownNode 0 (mkRef 0 7) = none ∧
      completes (.tedge hdr 12 (g 4) (g 5)) s = true ∧ completes (.tdone hdr (g 5)) s = true ∧ completes (.tstat hdr 12 (g 4)) s = true ∧
      completes (.trearm hdr 12 (g 4)) s = true ∧ completes (.trearmFree hdr 12 (g 4)) s = true ∧
      bit ((begunAt s false [(g 7, 1)]).low32 (actAt s false) (g 7)) 31 = false ∧ (readNode 0 (List.replicate 64 0)).isSome = true ∧
      (b.aperture 0 0x40 64).isSome = true ∧ readable s b 0x40 64 1) := by decide +kernel
theorem witness_LaunchesAndSpawns :
    (let s := rig [(4, 0x1000), (5, 0), (6, 0x40)]
    let b := begunAt s false [(g 4, 2)]
    onceReady s false [(g 4, 2)] [12] ∧ b.onceOk 0 0x1000 128 = true ∧ okay (b.loadBytes r0 (b.agent 0) false false 0x1000 128).1 = true ∧
      (b.die 0).sched.queue = [] ∧ leaves b ∧ completes (.launch hdr 12 (g 4) 0) s = true ∧
      (begunAt s false [(g 6, 1), (g 4, 2)]).wordFault (actAt s false) [g 6, g 4] allLanes [12] = none ∧
      (b.launchOf 0).determ = false ∧ b.boundsOk 0 (apertureVa 0x40) 64 = true ∧ (0x1004 : Nat) % 128 ≠ 0) := by decide +kernel
/-- A sequence of context 0: one sample, nodes 5 and 6. -/
def seqDesc (done : Nat) : SeqDesc where
  ybase := 0x1000
  kbase := 0x1000
  xbase := 0x1000
  obase := 0x1000
  bbase := 0x1000
  sdef := 0x1000
  ystride := 128
  n := 1
  nsamp := 1
  table := 2
  den := mkRef 0 5
  ret := mkRef 0 6
  fin := 0
  doneaddr := done
/-- Its place, in the state given. -/
def seqAt (state : Nat) (waiting abort : Bool) : SeqPlace where
  ctx := 0
  gen := 1
  defined := true
  desc := seqDesc 0
  samples := [{}]
  state := state
  reason := 0
  rounds := 0
  stage := 1
  active := [0]
  waiting := waiting
  abort := abort
  freeAfter := false
  ending := none
  table := []
  kick := none
  startNode := none
  retNode := none
/-- A stepping table of two stages. -/
def stepping : List Byte := descBytes 256 ([(0, 2), (4, 0x3F000000), (8, 0x3F000000), (0xC, 0x3F800000), (0x18, 0x3F800000),
  (0x20, 0x3F800000), (0x28, 0x3F800000), (0x2C, 10)])
/-- The sequencer of die 0 with that place at number 4. -/
def sequenced (l : List (Nat × Nat)) (p : SeqPlace) : State :=
  { (graph l .waiting .waiting).modSeq 0 (fun q => { q with places := [(4, p)], tables := [(2, (0, stepping))] }) with
    tlbs := [(0, { entries := [wordEntry] }), (160, { entries := [wordEntry] })] }

theorem witness_CollectiveAndSequenceWords :
    (let d := descBytes 64 [(0, 0x400), (8, 0x800), (0x10, 64), (0x14, 2 ^ 17 + 2 ^ 18), (0x18, 1)]
    let s := (withScratch (rig [(4, 0x40), (5, 3)]) [(0x40, d)]).modColl 0 (fun c => { c with ops := [streaming] })
    let b := begunAt s false [(g 4, 1)]
    onceReady s false [(g 4, 1)] [12] ∧ readable s b 0x40 64 1 ∧ (readColl (b.ownBytes r0 0x40 64)).map (fun c => (c.kind, b.collRegions 0 0 0 c)) = some (0, true) ∧
      leaves b ∧ b.collPlaces 0 < 64 ∧ completes (.cred hdr 12 (g 4) 0) s = true ∧
      (b.collOp 0 0 3).map (·.pending) = some true ∧ b.collOp 0 0 0x40 = none ∧ completes (.cwait hdr 12 (g 4)) s = true ∧
      completes (.cwait hdr 12 (g 5)) s = false ∧ completes (.cstat hdr 12 (g 5) 2) s = true) ∧
    (let s := sequenced [(4, (seqAt 0 false false).handle 4), (5, 0)] (seqAt 0 false false)
    let b := begunAt s false [(g 4, 1), (g 5, 1)]
    onceReady s false [(g 4, 1), (g 5, 1)] [12] ∧ (b.seqNamed 0 0 ((seqAt 0 false false).handle 4)).isSome = true ∧
      b.seqNamed 0 0 0 = none ∧ leaves b ∧ completes (.sqgo hdr 12 (g 4)) s = true ∧
      completes (.sqstat hdr 12 (g 4) (g 5) 4) s = true ∧ completes (.sqabt hdr 12 (g 4) true) s = true ∧ tableOk stepping = true ∧ readable s b 0x100 256 1 ∧
      completes (.sqtab hdr 12 (.imm 0x100) 15 0) (withScratch s [(0x100, stepping)]) = true ∧
      (let seq (den : Nat) : List Byte := descBytes 128 ([0, 8, 16, 24, 32, 40].map (fun o => (o, 0x1000)) ++
        [(0x30, 128), (0x34, 1), (0x38, 1), (0x3C, den), (0x40, mkRef 0 2)])
      let def' (den : Nat) : Bool := completes (.sqdef hdr 12 (.imm 0x100) 0) (withScratch s [(0x100, seq den)])
      let good (den : Nat) : Option Bool := (readSeq (seq den)).map (fun c => s.seqRefsOk 0 c)
      def' (mkRef 0 1) = true ∧ good (mkRef 0 1) = some true ∧ def' (mkRef 1 1) = false ∧ good (mkRef 1 1) = some false)) := by decide +kernel

/-! #### Traps, contexts, debug -/

theorem witness_TrapsAreTaken :
    (let s := rig []
    let t := (actAt s false).illegal 1
    (s.fib r0).map (·.trap) = some none ∧ ((s.settleLoads r0).fib r0).isSome = true ∧ t.after = false ∧ t.race = [] ∧
      ((trapped s).fib r0).map (fun f => f.trap.map (·.waiting)) = some (some false) ∧
      (let v := s.modFib r0 (fun f => { f with trap := (((trapped s).fib r0).bind (·.trap)).map (fun z => { z with waiting := true }) })
      (v.fib r0).map (fun f => f.trap.map (·.waiting)) = some (some true) ∧ v.arrayBusy r0 .fibre = false ∧ (v.drain r0).2 = none ∧
        ((v.drain r0).1.fib r0).isSome = true ∧
        (v.modCore 0 (fun c => { c with matq := [tileOp .mldt [(0, 0x100, 256, 0, 0)]] })).arrayBusy r0 .fibre = true) ∧
      s.trapRoom r0 t.cause = true ∧ s.handlerOf r0 t.cause ≠ 0 ∧ t.cause ≠ 0x28 ∧
      ((trapped s).fib r0).map (fun f => f.trap.isSome) = some true ∧ (s.launchOf 0).trapVec ≠ 0) := by decide +kernel
theorem witness_TrapWordsAndReturns : issuing (rig []) = true ∧ (fibAt (rig [])).owes [] = false ∧ issuing (trapped (rig [])) = true ∧
    (trapped (rig [])).inTrap r0 = true ∧ leaves (begunAt (trapped (rig [])) false []) ∧
    ((begunAt (trapped (rig [])) false []).modFib r0 (fun f => { f with trap := f.trap })).owesStores r0 = false ∧
    ((trapped (rig [])).modCore 0 (fun c => { c with matq := [tileOp (.store default .f32 .rne false [⟨0, 0, []⟩]) []] })).owesStores r0 = true ∧
    ((trapped (rig [])).fib r0).map (fun f => (f.log, f.queue)) = some ([], []) ∧
    ((rig []).ctx 0).emul = 0 ∧ (((rig []).modCtx 0 (fun c => { c with emul := 0x1000 })).ctx 0).emul ≠ 0 := by decide +kernel
theorem witness_PrivilegedWordsTrap :
    (withRegs []).cur = some here ∧ ((withRegs []).ctx ((withRegs []).ctxOf 0)).system = false ∧ ((withRegs []).launchOf 0).reserve = false ∧
    (withRegs []).inTrap r0 = false ∧ hdr ≠ Hdr.never ∧ ((withRegs []).fib r0).isSome = true := by decide +kernel
theorem witness_SystemWords :
    onceReady (rig [(4, 0)]) false [(g 4, 1)] [] ∧ onceReady (rig []) false [] [6, 7] ∧ ((rig []).launchOf 0).determ = false ∧
    onceReady (trapped (rig [(4, 0)])) false [(g 4, 1)] [] ∧ (trapped (rig [])).inTrap r0 = true ∧
    (((trapped (rig [])).modFib r0 (fun f => { f with trap := none })).writeFault r0 [4]) = none ∧
    (begunAt (rig []) false []).arrayBusy r0 .fibre = false ∧ (begunAt (busied []) false []).arrayBusy r0 .fibre = true := by
  decide +kernel
/-- A valid entry of context 5, which is idle, with generation 14. -/
def entered : State :=
  { (rig [(4, 5), (5, 0x000E0001), (6, 0)]).modCtx 5 (fun c => { c with entry := 0x1800 }) with
    mem := Memory.write [] 0x1800 (leBytes 4 (1 + 14 * 2 ^ 16 + 2 ^ 20)) }
theorem witness_TranslationWords :
    (let b := begunAt entered false [(g 4, 1)]
    onceReady entered false [(g 4, 1)] [12] ∧ (entered.ctx (entered.ctxOf 0)).system = true ∧
      b.low32 (actAt entered false) (g 5) < 2 ^ 20 ∧ (b.ctx 5).entry ≠ 0 ∧ bit (b.physNum 0x1800 4) 20 = true ∧
      (b.ctx 5).resident = false ∧ b.physNum 0x1800 4 / 2 ^ 16 % 2 ^ 4 = 14 ∧ completes (.asidnew hdr 12 (g 4)) entered = true ∧
      completes (.tlbinvAsid hdr (g 5)) entered = true ∧ completes (.tlbinvAll hdr) entered = true ∧
      completes (.harvest hdr true) entered = true) := by decide +kernel
theorem witness_WorkGroupsAreSaved :
    (let s := rig [(4, 0x1000), (5, 0), (6, 0x20000)]
    let b := begunAt s false [(g 4, 2), (g 6, 1)]
    onceReady s false [(g 4, 2), (g 6, 1)] [12] ∧ b.inTrap r0 = false ∧ (Map.find b.wgs 0).map (fun w => (w.lane, w.saves, w.owedStatus 0 1)) =
      some (false, [], none) ∧ (actAt s false).gov.left = 0 ∧ (b.ctx 0).request = false ∧
      completes (.wgsave hdr 12 (g 4) (g 6) 0) s = true) ∧
    (let s := (rig [(4, 0x1000), (5, 0), (6, 0x20000)]).modCtx 0 (fun c => { c with request := true })
    let b := begunAt s false [(g 4, 2), (g 6, 1)]
    (b.ctx 0).request = true ∧ (Map.find b.wgs 0).map (fun w => (w.allArrived (⟨true, 0x1000, 0x20000, [(0, allLanes)], [(0, 12)]⟩ : SaveRound),
      w.firstFibre, decide (b.saveSize w ≤ 0x20000), decide (16 < b.saveSize w))) = some (true, some 0, true, true) ∧ b.quiet 0 = true ∧
      b.faultedCard 0 = false ∧ leaves b ∧ b.logsClear 0 = true ∧ (b.probeRange (b.agent 0) .write 0x1000 16).1 = none) := by decide +kernel
theorem witness_DebugWords : onceReady (rig [(4, 0)]) false [(g 4, 1)] [8, 9, 10, 11] ∧ ((rig []).launchOf 0).determ = false ∧
    (((rig []).modLaunch 0 (fun l => { l with determ := true })).launchOf 0).determ = true ∧ (Map.find (rig []).wgs 0).isSome = true ∧
    ((rig []).fib ⟨0, 0⟩).isSome = true := by decide +kernel

/-! #### Events -/

/-- Fibre 0 with a second fibre of its slot that has been ready since tick 0. -/
def pairOf : State :=
  (((rig []).modWg 0 (fun w => { w with fibres := w.fibres ++ [(1, newFibre 1 1 0 wordPlace allLanes 0 0 0)] })).modSlot 0 0
    (fun p => { p with due := true }))
theorem witness_CoreEvents :
    (let s := (rig []).modFib r0 (fun f => { f with waits := [⟨1, .watch (some 2) 256 0x1000, true, 0, default⟩] })
    s.firedWatch r0 = some 2 ∧ (rig []).firedWatch r0 = none) ∧
    pairOf.switches 0 0 = true ∧ (pairOf.pslot 0 0).cur = some r0 ∧
    longestReady ((pairOf.readyIn 0 0).filter (fun e => some e.2 != some r0)) = some ⟨0, 1⟩ ∧ (rig []).switches 0 0 = false ∧
    (let s : State := { rig [] with barriers := [(.wgp 0 7, { arrived := [(r0, allLanes)] })] }
    s.phaseComplete (.wgp 0 7) = true ∧ s.phaseComplete (.wgp 0 6) = false) ∧
    (let x : ReplicaStore := ⟨[(0x10000, 1)], (0x10000, 0x10000), 0, 0⟩
    let y : ReplicaStore := ⟨[(0x20004, 2)], (0x20000, 0x10000), 0, 0⟩
    let s : State := { rig [] with replicas := [x, x, y] }
    s.replicas[2]? = some y ∧ (∀ z ∈ s.replicas.take 2, ¬ (z.page.1 < y.page.1 + y.page.2 ∧ y.page.1 < z.page.1 + z.page.2)) ∧
      (∃ z ∈ s.replicas.take 1, z.page.1 < x.page.1 + x.page.2 ∧ x.page.1 < z.page.1 + z.page.2) ∧ Memory.wf s.mem = true) ∧
    (let f : L1Line := { newLine wordEntry 1 0 0x400 0 with filling := true }
    (((rig []).modCore 0 (fun c => { c with l1 := [f] })).core 0).l1.filter (fun y => y.vline == 8 && y.filling) = [f]) ∧
    (let s : State := { rig [] with tlbs := [(0, { entries := [{ wordEntry with dirty := true }] })] }
    s.tlbs = [(0, { entries := [{ wordEntry with dirty := true }] })]) ∧
    (let s := pairOf.modFib ⟨0, 1⟩ (fun f => { f with st := .ready 0 })
    ({ s with tick := 2048 } : State).forced 0 0 = true) ∧
    ((rig []).fib r0).bind (·.trap) = none ∧ ((trapped (rig [])).fib r0).isSome = true ∧
    (∀ e ∈ (rig []).tlbs, ∀ x ∈ e.2.entries, x.dirty = false) := by decide +kernel
theorem witness_WordsAreFetched :
    (let s := State.reset.placeWord [0, 0, 0, 0, 0, 0, 0, 0, 0, 0, 0x0E, 0]
    let c : Cur := ⟨r0, allLanes, wordPlace, 0x000E00000000000000000000⟩
    (s.fib r0).bind Fibre.nextGroup = some (wordPlace, allLanes) ∧ (s.fetchWord r0 wordPlace).1.toOption = some 0x000E00000000000000000000 ∧
      s.portSlot 0 0 = some (0, r0) ∧ (s.withheld 0 r0).1 = false ∧
      ((s.fetchWord r0 wordPlace).2.stalls 0 0 c).1 = false ∧ s.portSlot 0 3 = none ∧ wordPlace % 4 = 0 ∧
      ({ s with capped := true } : State).capped = true ∧
      okay (s.translate (clusterOf (s.coreOf 0)) (s.ctxOf 0) wordPlace .fetch).1 = true ∧
      okay (s.translate (clusterOf (s.coreOf 0)) (s.ctxOf 0) (wordPlace + 8) .fetch).1 = true ∧
      ((s.modFib r0 (fun f => { f with pcs := Vector.replicate 32 0x1002 })).fib r0).bind Fibre.nextGroup = some (0x1002, allLanes)) := by
  decide +kernel
/-- One card on core 0: a row of 128 bytes within the scratchpad. -/
def carded (flags : Nat) (started : Bool) (done : Nat) : State :=
  (rig []).modCore 0 (fun c => { c with cards := [⟨7, 0x40, (readCopy (descBytes 64 [(0, 0x400), (8, 0x800), (0x10, 128), (0x14, 1),
    (0x20, 0x100), (0x24, flags)])).getD default, default, 0, started, false, done, none⟩] })
theorem witness_CopiesMove :
    ((carded 7 false 0).card 0 7).map (fun c => ((carded 7 false 0).core 0).canStart c) = some true ∧
    ((carded 7 true 0).card 0 7).map (fun c => (c.started, decide (c.done < c.rcd.total), okay ((carded 7 true 0).pieceRead c).1, c.moving.isNone)) =
      some (true, true, true, true) ∧
    (((carded 7 true 0).modCard 0 7 (fun c => { c with moving := some ([], true) })).card 0 7).map (fun c => c.moving.map (·.2)) = some (some true) ∧
    ((carded 7 true 128).card 0 7).map (fun c => decide (c.rcd.total ≤ c.done)) = some true ∧
    ((carded 6 true 0).card 0 7).map (fun c => okay ((carded 6 true 0).pieceRead c).1) = some false ∧
    (⟨128, 0, 0, false, 0, 0⟩ : Stage).phase < 2 := by decide +kernel
/-- Rule 2 of die 0 takes every frame to ring 3. -/
def ruled : State :=
  { wired [] with w0 := Memory.write (wired []).w0 (0x40000 + 64) (leBytes 24 (0xFFFF0000 * 2 ^ 128 + (3 + 16 + 64) * 2 ^ 160)) }
theorem witness_FramesMove :
    ruled.findRule 0 1 (List.replicate 60 0) = some 2 ∧
    (let v := leNat (((ruled.ruleBytes 0 2).drop 0x14).take 4)
    v / 2 ^ 4 % 4 ≠ 0 ∧ (Map.getD (ruled.die 0).net.rings (v % 16) {}).armed = []) ∧
    (let s : State := { wired [] with w0 := Memory.write (wired []).w0 (0x40000 + 64) (leBytes 24 (0xFFFF0000 * 2 ^ 128 + (3 + 64) * 2 ^ 160)) }
    s.findRule 0 1 (List.replicate 60 0) = some 2 ∧ leNat (((s.ruleBytes 0 2).drop 0x14).take 4) / 2 ^ 4 % 4 = 0) ∧
    (wired []).findRule 0 1 (List.replicate 60 0) = none ∧
    (let s := ruled.modNet 0 (fun n => { n with queue := [⟨9, 0, 0, 0x100, 60, true, false, none⟩] })
    (s.die 0).net.queue.find? (fun x => x.handle == 9) = some ⟨9, 0, 0, 0x100, 60, true, false, none⟩ ∧
      ((s.die 0).net.queue.find? (fun x => x.p1 == false)).map (·.handle) = some 9) ∧
    (let s := (wired []).setNode 0 5 (node .ready 4 (0x100 + 60 * 2 ^ 28))
    let u := s.startNode 0 5
    s.readyNode 0 5 4 = true ∧ s.readyNode 0 6 4 = false ∧ u.mayTransmit 0 0 false = true ∧
      (u.wgs.find? (fun e => e.2.core == 0 && u.ctxOf e.1 == 0 && decide (e.2.base + 4 ≤ 0x100) &&
        decide (0x100 + 60 ≤ e.2.base + (u.launch e.2.launch).scratch))).isSome = true) := by decide +kernel
/-- A launch queue of one request, whose parameter block is not readable, and a cluster that waits for a place. -/
def queued : State :=
  let s := (rig []).modSched 0 (fun c => { c with
    queue := [⟨0, 0, 0x3000, none, none⟩], finished := [5], seedbed := [⟨0, none, 0, .node 6, 0⟩, ⟨1, none, 0, .place 1 0, 0⟩] })
  { (s.setNode 0 5 (node .running 0 0)).setNode 0 6 (node .ready 0 0) with
    posts := [⟨mkRef 0 6, 0⟩]
    launches := [(0, { wordLaunch with coresident := true }), (1, { wordLaunch with regs := 16, order := [(0, 0)], places := [] })] }
/-- The same with one core of die 0 in service, and with a lane task that waits for it. -/
def lonely : State := { queued with
  retired := (List.range 19).map (fun c => .cluster (c + 1)) ++ (List.range 7).map (fun c => .core (c + 1)) }
theorem witness_LaunchesProceed :
    queued.posts[0]? = some ⟨mkRef 0 6, 0⟩ ∧ queued.eventsWait 0 = false ∧
    (queued.modCtx 0 (fun c => { c with st := .draining })).eventsWait 0 = true ∧ 5 ∈ (queued.die 0).sched.finished ∧
    bestEntry (queued.die 0).sched.single (queued.dispatchable 0) = some ⟨0, none, 0, .node 6, 0⟩ ∧ (queued.node 0 6).kind = 0 ∧
    queued.ctxRuns 0 = true ∧ ((queued.modSched 0 (fun c => { c with queue := [] })).readLaunch 0
      ⟨0, 0, 0x3000, none, none⟩).1.status = 4 ∧ (queued.die 0).sched.queue.length = 1 ∧
    queued.wgEnded 0 = false ∧ (queued.modFib r0 (fun f => { f with live := 0 })).wgEnded 0 = true ∧
    ({ wordLaunch with determ := true, ended := [(0, 1)] } : Launch).canRetire = true ∧ wordLaunch.canRetire = false ∧
    ({ queued with wgs := [] } : State).launchOver 0 wordLaunch = true ∧ queued.launchOver 0 wordLaunch = false ∧
    queued.canRelaunch 0 = false ∧
    (let u : State := { queued.modCtx 0 (fun c => { c with again := [⟨1, 0, 0, 0, 1, 0⟩] }) with wgs := [] }
    u.canRelaunch 0 = true ∧ u.againGroup 0 = [⟨1, 0, 0, 0, 1, 0⟩] ∧ (u.againPlan [⟨1, 0, 0, 0, 1, 0⟩]).isSome = true) ∧
    queued.badGroup 0 none = none ∧ queued.takersFrom 0 none = [] ∧
    (lonely.takersFor 1).map (fun x => (x.1, x.2.1.num, x.2.1.plan.isNone)) = [(0, 1, true)] ∧ lonely.takersFor 7 = [] := by
  decide +kernel
/-- An operation of one member: a broadcast of one FP32 element within the scratchpad. -/
def single : CollOp := { streaming with
  desc := { streaming.desc with stream := false, sspace := true, dspace := true, count := 1, kind := 0, src := 0x100, dst := 0x200 } }
theorem witness_CollectivesAndSequencesProceed :
    (let s := (rig []).modColl 0 (fun c => { c with ops := [single] })
    s.opAt 0 0 = some single ∧ single.pending = true ∧ s.opFault 0 single = none ∧ s.allIn single = true ∧ s.conflict single = none ∧
      okay (s.draw.2.reduceOp single).1 = true ∧ s.readyRow single = none) ∧
    (let o : CollOp := { streaming with rows := [(0, [])], staged := [0] }
    ((rig []).modColl 0 (fun c => { c with ops := [o] })).readyRow o = some 0) ∧
    (let s := (sequenced [] (seqAt 1 true false)).setNode 0 6 (node .ready 2 ((seqAt 1 true false).handle 4))
    s.readyNode 0 6 2 = true ∧ bit (s.node 0 6).payload 32 = false ∧
      ((s.startNode 0 6).seqNamed 0 0 ((s.node 0 6).payload % 2 ^ 32)).map (fun e => (e.2.state, e.2.waiting)) = some (1, true)) ∧
    (let s := (sequenced [] (seqAt 0 false false)).setNode 0 6 (node .ready 2 ((seqAt 0 false false).handle 4 + 2 ^ 32))
    s.readyNode 0 6 2 = true ∧ bit (s.node 0 6).payload 32 = true) ∧
    (seqAt 1 false false).stageDue = true ∧ (seqAt 1 false true).due = some (3, 0, 0) ∧ (seqAt 1 false false).due = none ∧
    (seqAt 1 false true).desc.doneaddr = 0 := by decide +kernel
/-- A saved work-group. -/
def savedWg : SavedWg := ⟨0, 0, 0, 0, 0, 0, [some 0], 0x1000, 0, 0, [], 0, [], 0, [], []⟩
theorem witness_ContextsChange :
    (let s := (rig []).modCtx 5 (fun c => { c with entry := 0x1800 })
    let t : State := { s with mem := Memory.write [] 0x1800 (leBytes 4 (2 ^ 20)) }
    (t.ctx 5).st = .idle ∧ (t.ctx 5).entry ≠ 0 ∧ ((t.ctx 5).load t).valid = true ∧ (t.ctx 0).st = .running) ∧
    ((rig []).modCtx 7 (fun c => { c with st := .draining })).drained 7 = true ∧ (rig []).drained 0 = false ∧
    (((rig []).modCtx 0 (fun c => { c with st := .draining, expires := some 0 })).ctx 0).expires = some 0 ∧
    ((rig []).modCtx 0 (fun c => { c with saved := [savedWg] })).resumeGroup 0 =
      [savedWg] := by decide +kernel
/-- Queue 3 is in service for context 0 with 16 entries at 0x1800; its head holds a launch. -/
def served : State :=
  { rig [] with w0 := Memory.write [] (0x20000 + 96) (leBytes 20 (0x1800 + (4 + 2 ^ 10) * 2 ^ 64 + 1 * 2 ^ 128))
                mem := Memory.write [] 0x1800 (leBytes 16 (1 + 0x3000 * 2 ^ 64)) }
theorem witness_HostActs : served.queueOn 3 = true ∧ served.queueOn 4 = false ∧ served.queueSize 3 = 16 ∧
    (served.queueEntry 3).map (fun e => (leNat (e.take 1), badQueueEntry e)) = some (1, false) ∧ served.queueEntry 4 = none ∧
    (served.die 0).sched.queue.length < 64 ∧ served.regWritable 0x300000 = true ∧ served.regWritable 0x0FFF = false ∧
    served.paExists 0x1000 = true ∧ served.dieUp 0 = true ∧ served.paExists (2 ^ 41) = false := by decide +kernel
theorem witness_PackageEvents : State.reset.cap = 2400 ∧ State.reset.capped = false ∧ State.reset.paExists 0x1000 = true ∧
    (rig []).coreOf 0 = 0 ∧ ((rig []).noteError (.core 0)).regionOwner 0 0 = some 0 ∧
    (State.reset.noteError (.core 0)).regionOwner 0 0 = none ∧ State.reset.paExists (2 ^ 41) = false := by decide +kernel
theorem witness_DebugEvents : State.reset.frozen = false ∧ State.reset.freezePin = none ∧
    ({ State.reset with freezeAt := some 64, tick := 64 } : State).freezeTick = some 64 ∧ graphCycles (State.reset.waitGraph 0) = [] ∧
    (rig []).atBreakpoint r0 = false ∧
    ((trapped (rig [])).modFib r0 (fun f => { f with trap := f.trap.map (fun t => { t with
      stopped := true, info := { t.info with cause := 0x21 } }) })).atBreakpoint r0 = true := by decide +kernel
theorem witness_DecodeUndoesEncode : (Instr.atom hdr 254 (g 254) (g 254) .fadd false .ar .sys 0xFFFFFFFF).wf = true ∧
    (Instr.nop Hdr.never).wf = true := by decide
theorem witness_NeverGuardedWordsPass : (Fields.ofWord 0xFFFFFFFFFFFFFFFFFFFFFFFF#96).neg = true ∧
    (Fields.ofWord 0xFFFFFFFFFFFFFFFFFFFFFFFF#96).gp = 7 ∧ (rig []).cur = some here ∧ ((rig []).fib r0).isSome = true := by decide +kernel
theorem witness_InactiveWordsPass : (rig []).cur = some here ∧ (fibAt (rig [])).acting ⟨false, 0, 0, false, false⟩ here = 0 ∧
    (⟨false, 0, 0, false, false⟩ : Hdr) ≠ Hdr.never := by decide +kernel
theorem witness_StepRunsTheDecodedWord :
    (let s := State.reset.placeWord [0, 0, 0, 0, 0, 0, 0, 0, 0, 0, 0x0E, 0]
    s.powered = true ∧ s.frozen = false ∧ s.actions = [.issue 0 0] ∧
      (match exec (.issue 0 0) s with | .next v => v.cur == some ⟨r0, allLanes, wordPlace, 0x000E00000000000000000000⟩ | _ => false) = true) ∧
    State.reset.actions = [] ∧ decode 0x0FCE00000000000000000000#96 = .error 1 := by decide +kernel
theorem witness_EveryStepKeepsSettled : Settled State.reset ∧
    Settled (State.reset.placeWord [0, 0, 0, 0, 0, 0, 0, 0, 0, 0, 0x0E, 0]) ∧
    (match step (State.reset.placeWord [0, 0, 0, 0, 0, 0, 0, 0, 0, 0, 0x0E, 0]) with | .next _ => true | _ => false) = true := by
  refine ⟨⟨rfl, fun _ _ t h => ?_⟩, ⟨rfl, fun _ _ t h => ?_⟩, by decide +kernel⟩ <;> simp [State.freezeTick, State.reset, State.placeWord] at h

end Sys2Proof.Tests
end

/-! ## The package: its state after reset, and an error of an L1 word -/

section
namespace Sys2Proof.Machine

/-! ### The state after reset -/

/-- No freeze is set at reset (R422). -/
@[simp] theorem freezeTick_reset : State.reset.freezeTick = none := rfl

/-- The state after reset is one that every step keeps. -/
theorem settled_reset : Settled State.reset := by
  refine ⟨rfl, fun _ _ t ht => ?_⟩
  simp at ht

/-- A memory to which nothing was written reads 0 everywhere (log entry 7). -/
theorem Memory.get_nil (a : Nat) : Memory.get [] a = 0 := rfl

/-- Settles O60: each field of the state after reset has the stated value, and its three memories are empty. -/
theorem afterReset : Obligations.AfterReset := by
  unfold Obligations.AfterReset
  have idle : ∀ k, (State.reset.ctx k).st = .idle := fun _ => rfl
  have empty : ∀ k, State.reset.die k = {} := fun _ => rfl
  have zero : ∀ a, Memory.get State.reset.mem a = 0 ∧ Memory.get State.reset.scratch a = 0 ∧ Memory.get State.reset.w0 a = 0 :=
    fun a => ⟨Memory.get_nil a, Memory.get_nil a, Memory.get_nil a⟩
  exact ⟨settled_reset, rfl, rfl, freezeTick_reset, rfl, rfl, rfl, rfl, idle, empty, rfl, zero, rfl, rfl, rfl⟩

/-! ### An uncorrectable error of a dirty L1 word (R216, R230)

The statement kills every work-group of the line's ASID on the core. The model kills those of the line's ASID and generation. The
two differ where a core holds a dirty line of one generation of an ASID and a work-group of another. -/

/-- Line 0x80 as generation 0 of ASID 1 left it in an L1, with its first word dirty. -/
def staleLine : L1Line where
  asid := 1
  gen := 0
  vline := 0x80
  pa := 0x4000
  copies := [0x4000]
  page := (0, 2 ^ 16)
  valid := allLanes
  dirty := 1
  words := splat 0
  filled := Vector.replicate 32 0
  dirtied := 0
  read := true
  write := true
  noted := false
  through := false
  atomicPage := false
  checkedPage := false
  filling := false

/-- Work-group 0 runs on core 0 in generation 1 of ASID 1, and the core's L1 holds the line of generation 0. -/
def laterGeneration : State :=
  ((State.reset.placeWord []).modCtx 0 (fun c => { c with gen := 1 })).modCore 0 (fun c => { c with l1 := [staleLine] })

/-- How a work-group ended, in the state that an event leaves. -/
def endCodeAfter (g : Nat) : Host.Outcome State Fault Refusal → Option Nat
  | .next t => (Map.find t.wgs g).bind (·.killed)
  | _ => none

/-- An error of the dirty word of generation 0 leaves the work-group of generation 1 running. -/
theorem l1Error_spares_laterGeneration :
    endCodeAfter 0 (exec (.uncorrectableError (.l1 0 1 0 0x80 0)) laterGeneration) = none := by
  decide +kernel

/-- Refutes O52: in `laterGeneration`, an error of the dirty L1 word kills work-group 0 by the statement, whose clause for the L1 names
the ASID alone, and leaves it running by the model, which also asks for the line's generation. -/
theorem not_packageEvents : ¬ Obligations.PackageEvents := by
  unfold Obligations.PackageEvents
  intro h
  obtain ⟨-, -, -, -, -, -, -, -, -, -, -, -, -, -, -, -, -, -, -, -, -, -, l1Error, -⟩ := h laterGeneration
  have spared := l1Error_spares_laterGeneration
  rw [l1Error 0 1 0 0x80 0] at spared
  exact absurd spared (by decide +kernel)

end Sys2Proof.Machine
end

/-! ## Decoding undoes encoding (R23 to R42) -/

section
namespace Sys2Proof.Laws.Encoding

/-- Every row of the opcode table keeps its statement: the lemmas of the rows, in the order of the constructors. -/
theorem statement_of_row (i : Instr) : Statement i :=
  Instr.casesOn (motive := Statement) i
    nop bra brx call callx ret exit swp fyield fbar wgbar clbar gbar wrel wacq iadd isub iaddc imul imad imin imax iabs ineg
    idiv irem icmp iadds lea logic shl shr rot fsh popc clz ctz brev bfx bfi prmt sel mov movi movs pset pmov pmovIn ballot vote
    shfl matchx lredi lscan elect fadd fsub fmul ffma fmin fmax fminn fmaxn fcmp fabs fneg fclass fdiv fsqrt frcp frsq fexp2
    flog2 fsin fcos ftanh flredm flredmTile flsum fscale fcvt fcvtWid f2i i2f frnd fpack funpk hadd2 hmul2 hfma2 hmin2 hmax2
    qscale qnt bincv binadd binfp mmaq mmaqs mzero mrd mwr mldt mstt msend msync mcfg mcfgr wload wdict wset wfree wqry mmon ld
    st lds sts ldc pref pres pclr cwb cinv lock unlock atom red ldacq strel fence waitv hbpub hbjoin racectlTrap racectlReport
    racectlOff racectlOn racectlRdun racectlForget hbclk hbclkVec cpyk sbinit sbadd sbwait sbtest cpyres nrxarm ntx ntsrSt
    ntsrTick ntsrPtp launch tnode tedge tdone tspawn tstat trearm trearmFree cred crsc cagt cbct cwait cstat sqtab sqdef sqgo
    sqstat sqabt trap rtt rttSkip sets ychk wgsave ecnt tlbinvPage tlbinvAsid tlbinvAll asidnew harvest logrdEnt logrdG logrdPut
    bkpt tick ptprd stallrd trace progrWg progrPark legacyBehaviour registerReturn slotSwitch forcedSwitch fibreReady
    barrierPhaseComplete loadComplete storeQueueDrain mergingFill l1WritebackTimer replicaApply watchFire watchRetry relaunch
    quarterReady passOpen weightSlotLoad quarterCommit wloadComplete wloadFault copyCardStart copyDelivery copyComplete
    copyFault frameSent frameNodeDispatch decrementArrival seedbedDispatch nodeComplete launchStart workGroupAdmission
    workGroupComplete clusterRetire launchComplete laneTaskGather collectiveNodeDispatch streamRow collectiveComplete
    collectiveFault sequenceStartNode stageInputs returnNodeDispatch sequenceEnd resumeWorkGroup deadlineExpiry contextFault
    preempted queueNoOperation queueLaunch queueNodeDecrement sample issue instructionFetch trapEntry collectiveRefused scrub
    uncorrectableError frameReceive linkDown breakpointResume breakpointKill waitForGraph run preempt resume reset queueNotify
    hostRingTailWrite hostAccess controlRegisterWrite attest setCap retire powerCapEnforce thermalLimit thermalTrip
    freezeTickWrite powerOn forwardedAccess ualinkDomainJoinOrLeave ethernetLinkChange ptpLock msiXMasking freezeReadOut freezeN
    freeze observationPortRead resetRelease ptpSteering dirtyWriteOut

/-- The word of some fields decodes as the fields do. -/
theorem decode_toWord (f : Fields) : decode f.toWord = decodeFields f := by
  rw [decode, ofWord_toWord]

/-- Settles O55: a well-formed instruction is of a row with fields, since an event row has no well-formed instruction; by its row's
lemma its fields decode to it, and the word of fields reads back as the fields. -/
theorem decodeUndoesEncode : Obligations.DecodeUndoesEncode := by
  unfold Obligations.DecodeUndoesEncode
  intro i hwf
  have row := statement_of_row i
  unfold Statement at row
  unfold encode
  cases hf : encodeFields i with
  | none =>
    rw [hf] at row
    exact absurd hwf (by rw [row]; exact Bool.false_ne_true)
  | some f =>
    rw [hf] at row
    exact ⟨f.toWord, rfl, (decode_toWord f).trans (row hwf)⟩

end Sys2Proof.Laws.Encoding
end

/-! ## Worked encodings (R23, R34, R37) -/

section
namespace Sys2Proof

/-- A word whose guard field is 0b1111 has the guard (!p7). -/
theorem guard_never {w : BitVec 96} (h : w.extractLsb' 81 4 = 0b1111#4) :
    (Fields.ofWord w).neg = true ∧ (Fields.ofWord w).gp = 7 := by
  have bit : ∀ k, k < 4 → w.getLsbD (81 + k) = true := by
    intro k hk
    have hb := congrArg (fun z => z.getLsbD k) h
    have ones : (0b1111#4).getLsbD k = true := by
      obtain rfl | rfl | rfl | rfl : k = 0 ∨ k = 1 ∨ k = 2 ∨ k = 3 := by omega
      all_goals rfl
    rw [ones, BitVec.getLsbD_extractLsb'] at hb
    simpa [hk] using hb
  refine ⟨bit 3 (by omega), BitVec.eq_of_getLsbD_eq fun k hk => ?_⟩
  have ones : (7 : BitVec 3).getLsbD k = true := by
    obtain rfl | rfl | rfl : k = 0 ∨ k = 1 ∨ k = 2 := by omega
    all_goals rfl
  rw [ones]
  simpa [Fields.ofWord, BitVec.getLsbD_extractLsb', hk] using bit k (by omega)

/-- The decoder looks at no other field of a (!p7) word (R34). -/
theorem decodeFields_never {f : Fields} (hneg : f.neg = true) (hgp : f.gp = 7) : decodeFields f = .ok (.nop Hdr.never) := by
  simp [decodeFields, hneg, hgp]

/-- Settles O54: four words are decoded as they stand; the (!p7) words by their guard field. -/
theorem workedWordsDecode : Obligations.WorkedWordsDecode := by
  unfold Obligations.WorkedWordsDecode
  refine ⟨by decide +kernel, by decide +kernel, by decide +kernel, by decide +kernel, fun w h => ?_⟩
  obtain ⟨hneg, hgp⟩ := guard_never h
  exact decodeFields_never hneg hgp

end Sys2Proof
end

/-! ## (!p7) words (R34) -/

section
namespace Sys2Proof.Machine

@[simp] theorem fib_countWord (s : State) (g : Nat) (r : FibRef) : (s.countWord g).fib r = s.fib r := by
  unfold State.countWord
  exact fib_modWg_keep (fun w => by rfl) r

/-- A (!p7) word: its group stands at the next word, it counts as a word, and no other word is to be performed again. -/
theorem exec_never {s : State} {c : Cur} {f : Fibre} (hc : s.cur = some c) (hf : (s.settleLoads c.ref).fib c.ref = some f) :
    exec (.nop Hdr.never) s =
      .next (((s.settleLoads c.ref).setFib c.ref { f.issue c.lanes c.pc false with redo := none }).countWord c.ref.wg) := by
  have he : exec (.nop Hdr.never) s = runWord Hdr.never true [] [] 6 s fun _ s => .done s := rfl
  rw [he]
  unfold runWord
  simp only [hc, hf, if_true]

/-- The governance of a thread after a word that does not end it (R97). -/
theorem issue_gov (f : Fibre) (m : Mask) (pc : Nat) {k : Nat} (hk : k < 32) (d : Gov) :
    ((f.issue m pc false).gov.toList.getD k d).n = (f.gov.toList.getD k d).n ∧
      ((f.issue m pc false).gov.toList.getD k d).left = (f.gov.toList.getD k d).left - (if m.getLsbD k then 1 else 0) := by
  have h := getD_mapIdx f.gov (fun i g => if m.getLsbD i then { g with left := if false then 0 else g.left - 1 } else g) d hk
  have h' : (f.issue m pc false).gov.toList.getD k d = _ := h
  rw [h']
  cases m.getLsbD k <;> simp

/-- The address of a thread after a word that its group has passed (R33). -/
theorem issue_pcs (f : Fibre) (m : Mask) (pc : Nat) (ends : Bool) {k : Nat} (hk : k < 32) :
    (f.issue m pc ends).pcs.toList.getD k 0 = if m.getLsbD k then (pc + 12) % 2 ^ 64 else f.pcs.toList.getD k 0 :=
  getD_mapIdx f.pcs (fun i p => if m.getLsbD i then (pc + 12) % 2 ^ 64 else p) 0 hk

/-- Settles O56: the decoder stops at the guard field, and the runner of words does no more for the word than `exec_never` says. -/
theorem neverGuardedWordsPass : Obligations.NeverGuardedWordsPass := by
  unfold Obligations.NeverGuardedWordsPass
  refine ⟨fun f => decodeFields_never, fun s c f hc hf => ?_⟩
  refine ⟨_, { f.issue c.lanes c.pc false with redo := none }, exec_never hc hf, ?_, ?_, ?_, rfl, rfl, rfl, rfl, rfl, rfl, rfl, rfl,
    rfl, rfl, rfl, rfl, rfl, rfl, rfl, rfl, rfl, ?_⟩
  · rw [fib_countWord, fib_setFib_same hf]
  · intro k hk
    exact issue_gov f c.lanes c.pc hk default
  · intro k hk
    exact issue_pcs f c.lanes c.pc false hk
  · intro r hr
    rw [fib_countWord, fib_setFib_other _ hr]

end Sys2Proof.Machine
end

/-! ## Lane exchanges (R133, R135) -/

section
namespace Sys2Proof.Machine

/-- A fibre that is not there has no loads to complete. -/
theorem settleLoads_none {s : State} {r : FibRef} (hf : s.fib r = none) : s.settleLoads r = s := by
  simp [State.settleLoads, hf]

/-- The launch of the fibre's work-group is the same after anything a register word does. -/
theorem launchOf_calm {s t : State} {r : FibRef} (h : Calm s t r) : t.launchOf r.wg = s.launchOf r.wg := by
  have number : (Map.find t.wgs r.wg).map (·.launch) = (Map.find s.wgs r.wg).map (·.launch) := by
    obtain ⟨-, -, -, -, hwg, -, -⟩ := h
    have := congrArg (Option.map (·.launch)) hwg
    rwa [Option.map_map, Option.map_map] at this
  unfold State.launchOf State.launch
  rw [number, launches_of_calm h]

/-- The launch in which a word acts is that in which it was issued. -/
theorem launchOf_begun {s : State} {f : Fibre} {c : Cur} (h : Hdr) (ends : Bool) (reads last : List Nat)
    (hf : (s.settleLoads c.ref).fib c.ref = some f) :
    ((s.settleLoads c.ref).begun f h ends reads last c).launchOf c.ref.wg = s.launchOf c.ref.wg :=
  launchOf_calm ((calm_settleLoads s c.ref).trans (calm_begun h ends reads last hf))

section
variable {h : Hdr} {conv : Bool} {reads last : List Nat} {pj : Nat} {s : State} {body : Act → State → Out} {c : Cur} {f : Fibre}

/-- An exchange whose group holds every live thread runs as any other word. -/
theorem exchangeWord_together (hc : s.cur = some c) (hf : s.fib c.ref = some f) (hl : f.live = c.lanes) :
    exchangeWord h conv reads last pj s body = runWord h false reads last pj s body := by
  unfold exchangeWord
  simp [hc, hf, hl]

/-- Under `.conv` an exchange waits for the live threads that its group lacks (R133). -/
theorem exchangeWord_waits (hc : s.cur = some c) (hf : s.fib c.ref = some f) (hl : f.live ≠ c.lanes) (hh : h ≠ Hdr.never) :
    exchangeWord h true reads last pj s body = .next (s.holdAt h (f.actOf h false c) f c.lanes (.conv c.pc) false) := by
  unfold exchangeWord
  simp [hc, hf, hl, hh]

/-- Without `.conv` an exchange of a split fibre runs, but for the trap in a deterministic launch (R43). -/
theorem exchangeWord_apart (hc : s.cur = some c) (hf : s.fib c.ref = some f) (hl : f.live ≠ c.lanes) :
    exchangeWord h false reads last pj s body =
      runWord h false reads last pj s fun a s => if (s.launchOf a.ref.wg).determ then .bad a.nondet else body a s := by
  unfold exchangeWord
  simp [hc, hf, hl]

end

/-- A word run by `exchangeWord` waits for the other live threads of its fibre, or traps in a deterministic launch. -/
theorem exchangeApart_of_exchangeWord {i : Instr} {s : State} {h : Hdr} {conv : Bool} {reads last : List Nat} {pj : Nat}
    {body : Act → State → Out} (he : exec i s = exchangeWord h conv reads last pj s body) : ExchangeApart i s h conv reads := by
  intro c fb f hi hf hl
  have ⟨hc, hfb, hh, _, _⟩ := hi
  refine ⟨fun hconv => ?_, fun hconv hdet howes => ?_⟩
  · subst hconv
    rw [he, exchangeWord_waits hc hf hl hh]
  · subst hconv
    rw [he, exchangeWord_apart hc hf hl]
    refine runWord_bad hi howes (t := (fb.actOf h false c).nondet) ?_
    exact if_pos ((congrArg Launch.determ (launchOf_begun h false reads last hfb)).trans hdet)

/-- Settles O10: each of the nine words is run by `exchangeWord`. -/
theorem exchangesApart : Obligations.ExchangesApart := by
  unfold Obligations.ExchangesApart
  intro s h conv d p q x y
  refine ⟨fun n k => ?ballot, fun n m => ?vote, fun m g z => ?shfl, fun w l => ?matchx, fun g r o => ?lredi, fun g r e o => ?lscan,
    fun k => ?elect, fun m r => ?flredm, fun r k => ?flsum⟩
  all_goals exact exchangeApart_of_exchangeWord rfl

/-- An exchange that may act (R133) is run with a body that does what its own does. -/
theorem exchangeWord_runs {h : Hdr} {conv : Bool} {reads last : List Nat} {pj : Nat} {s : State} {body : Act → State → Out} {c : Cur}
    {fb : Fibre} (hi : Issues s h c fb) (hm : MayExchange s c conv) :
    ∃ go : Act → State → Out, exchangeWord h conv reads last pj s body = runWord h false reads last pj s go ∧
      go (fb.actOf h false c) ((s.settleLoads c.ref).begun fb h false reads last c) =
        body (fb.actOf h false c) ((s.settleLoads c.ref).begun fb h false reads last c) := by
  have ⟨hc, hfb, _, _, _⟩ := hi
  obtain ⟨f, hf⟩ : ∃ f, s.fib c.ref = some f := by
    cases hf : s.fib c.ref with
    | none => rw [settleLoads_none hf, hf] at hfb; cases hfb
    | some f => exact ⟨f, rfl⟩
  by_cases hl : f.live = c.lanes
  · exact ⟨body, exchangeWord_together hc hf hl, rfl⟩
  · rcases hm with ⟨f', hf', hl'⟩ | ⟨rfl, hdet⟩
    · rw [hf] at hf'
      obtain rfl : f = f' := by simpa using hf'
      exact absurd hl' hl
    · refine ⟨_, exchangeWord_apart hc hf hl, if_neg ?_⟩
      have same := congrArg Launch.determ (launchOf_begun h false reads last hfb)
      rw [hdet] at same
      exact fun on => Bool.false_ne_true (same.symm.trans on)

/-- An exchange that may act completes where its body does. -/
theorem exchangeWord_done {h : Hdr} {conv : Bool} {reads last : List Nat} {pj : Nat} {s : State} {body : Act → State → Out} {c : Cur}
    {fb : Fibre} (hi : Issues s h c fb) (hm : MayExchange s c conv) (ho : fb.owes reads = false) {t : State}
    (hb : body (fb.actOf h false c) ((s.settleLoads c.ref).begun fb h false reads last c) = .done t) :
    exchangeWord h conv reads last pj s body = .next (t.finish h (fb.actOf h false c) pj) := by
  obtain ⟨go, hrun, hgo⟩ := exchangeWord_runs (last := last) (pj := pj) hi hm
  rw [hrun]
  exact runWord_done hi ho (hgo.trans hb)

/-- An exchange that may act traps where its body does. -/
theorem exchangeWord_bad {h : Hdr} {conv : Bool} {reads last : List Nat} {pj : Nat} {s : State} {body : Act → State → Out} {c : Cur}
    {fb : Fibre} (hi : Issues s h c fb) (hm : MayExchange s c conv) (ho : fb.owes reads = false) {t : TrapInfo}
    (hb : body (fb.actOf h false c) ((s.settleLoads c.ref).begun fb h false reads last c) = .bad t) :
    exchangeWord h conv reads last pj s body =
      .next (((s.settleLoads c.ref).turned c).takeTrap c.ref (underGov t (fb.actOf h false c).gov)) := by
  obtain ⟨go, hrun, hgo⟩ := exchangeWord_runs (last := last) (pj := pj) hi hm
  rw [hrun]
  exact runWord_bad hi ho (hgo.trans hb)

/-- The checks of a word pass where its latches may be read and its registers written. -/
theorem wordFault_none {b : State} {a : Act} {srcs : List Src} {m : Mask} {dsts : List Nat}
    (hl : b.badLatches a.ref srcs m = none) (hw : b.writeFault a.ref dsts = none) : b.wordFault a srcs m dsts = none := by
  simp [State.wordFault, hl, hw]

@[simp] theorem actOf_ref (f : Fibre) (h : Hdr) (ends : Bool) (c : Cur) : (f.actOf h ends c).ref = c.ref := rfl

/-- What SHFL gives lane `i` (R135): A in its source lane, or without one zero under `.zf` and its own A otherwise. -/
def State.shuffled (s : State) (r : FibRef) (x n : Src) (mode : ShflMode) (seg : BitVec 3) (zf : Bool) (i : Nat) : Word :=
  match shflSource mode seg.toNat (s.srcLane r n i).toNat i with
  | some k => s.srcLane r x k
  | none => if zf then 0 else s.srcLane r x i

/-- A word that was extended and cut again. -/
theorem setWidth_extended (w : Word) : (w.setWidth 64).setWidth 32 = w := by
  rw [BitVec.setWidth_setWidth_of_le _ (by decide), BitVec.setWidth_eq]

/-- Whether SHFL would read a latch that is not valid for lane `i`: that of A in its source lane, or its own where it has none (R32). -/
def State.shflUnread (s : State) (r : FibRef) (x n : Src) (mode : ShflMode) (seg : BitVec 3) (zf : Bool) (i : Nat) : Bool :=
  match shflSource mode seg.toNat (s.srcLane r n i).toNat i with
  | some k => (s.badLatch r x (oneLane k)).isSome
  | none => !zf && (s.badLatch r x (oneLane i)).isSome

/-- The body of SHFL: its faults, the first lane that would read a latch that is not valid, or the exchanged lanes. -/
def shflBody (d : Dst) (x n : Src) (mode : ShflMode) (seg : BitVec 3) (zf : Bool) (a : Act) (s : State) : Out :=
  match s.wordFault a [n] a.lanes (dstNames d 1), (lanesOf a.lanes).find? (s.shflUnread a.ref x n mode seg zf) with
  | some t, _ => .bad t
  | none, some i => .bad (a.operand i 1)
  | none, none => .done (s.putDst a.ref d false a.lanes (lanes (s.shuffled a.ref x n mode seg zf)) (splat 0))

/-- What SHFL reads B from: in the reversing mode there is none. -/
def shflIndex (mode : ShflMode) (y : Src) : Src := if mode = .rev then Src.imm 0 else y

/-- SHFL is an exchange with that body. -/
theorem exec_shfl (h : Hdr) (d : Dst) (x y : Src) (mode : ShflMode) (seg : BitVec 3) (zf conv : Bool) (s : State) :
    exec (.shfl h d x y mode seg zf conv) s =
      exchangeWord h conv (srcNames x 1 ++ srcNames (shflIndex mode y) 1) (srcLast x 1 ++ srcLast (shflIndex mode y) 1) 6 s
        (shflBody d x (shflIndex mode y) mode seg zf) := by
  rfl

section
variable {d : Dst} {x n : Src} {mode : ShflMode} {seg : BitVec 3} {zf : Bool} {a : Act} {s : State}

theorem shflBody_unread {i : Nat} (hw : s.wordFault a [n] a.lanes (dstNames d 1) = none)
    (hu : (lanesOf a.lanes).find? (s.shflUnread a.ref x n mode seg zf) = some i) :
    shflBody d x n mode seg zf a s = .bad (a.operand i 1) := by
  rw [shflBody, hw, hu]

theorem shflBody_read (hw : s.wordFault a [n] a.lanes (dstNames d 1) = none)
    (hu : (lanesOf a.lanes).find? (s.shflUnread a.ref x n mode seg zf) = none) :
    shflBody d x n mode seg zf a s = .done (s.putDst a.ref d false a.lanes (lanes (s.shuffled a.ref x n mode seg zf)) (splat 0)) := by
  rw [shflBody, hw, hu]

theorem shuffled_source {r : FibRef} {i k : Nat} (h : shflSource mode seg.toNat (s.srcLane r n i).toNat i = some k) :
    s.shuffled r x n mode seg zf i = s.srcLane r x k := by
  rw [State.shuffled, h]

/-- A lane whose source is out of range (R135). -/
theorem shuffled_edge {r : FibRef} {i : Nat} (h : shflSource mode seg.toNat (s.srcLane r n i).toNat i = none) :
    s.shuffled r x n mode seg zf i = if zf then 0 else s.srcLane r x i := by
  rw [State.shuffled, h]

/-- In a word the latches that SHFL would read are those of the state before it. -/
theorem shflUnread_begun {f : Fibre} {c : Cur} (h : Hdr) (ends : Bool) (reads last : List Nat)
    (hf : (s.settleLoads c.ref).fib c.ref = some f) :
    ((s.settleLoads c.ref).begun f h ends reads last c).shflUnread c.ref x n mode seg zf =
      (s.settleLoads c.ref).shflUnread c.ref x n mode seg zf := by
  funext i
  simp only [State.shflUnread, srcLane_begun h ends reads last hf, badLatch_begun h ends reads last hf]

/-- So are the lanes that it exchanges. -/
theorem shuffled_begun {f : Fibre} {c : Cur} (h : Hdr) (ends : Bool) (reads last : List Nat)
    (hf : (s.settleLoads c.ref).fib c.ref = some f) :
    ((s.settleLoads c.ref).begun f h ends reads last c).shuffled c.ref x n mode seg zf =
      (s.settleLoads c.ref).shuffled c.ref x n mode seg zf := by
  funext i
  simp only [State.shuffled, srcLane_begun h ends reads last hf]

end

/-- Settles O8: in a word its sources are those of the state before it, so the body meets the same first unread lane; where there is
none it puts the exchanged lanes into the destination. -/
theorem shuffleReadsItsSourceLane : Obligations.ShuffleReadsItsSourceLane := by
  unfold Obligations.ShuffleReadsItsSourceLane
  intro s h d x y mode seg zf conv n c fb hi hm a s0 source unread howes hlatch hwrite
  have he := exec_shfl h d x y mode seg zf conv s
  have ⟨_, hf, _, hact, hlive⟩ := hi
  let reads := srcNames x 1 ++ srcNames n 1
  let last := srcLast x 1 ++ srcLast n 1
  let b := s0.begun fb h false reads last c
  have hfault : b.wordFault a [n] a.lanes (dstNames d 1) = none :=
    wordFault_none ((badLatches_begun h false reads last hf [n] _).trans hlatch) ((writeFault_begun h false reads last hf _).trans hwrite)
  have hunread : b.shflUnread a.ref x n mode seg zf = unread := shflUnread_begun h false reads last hf
  split
  case h_1 i hfind =>
    rw [he]
    rw [← hunread] at hfind
    exact exchangeWord_bad hi hm howes (shflBody_unread hfault hfind)
  case h_2 hfind =>
    rw [← hunread] at hfind
    have hshuffled : b.shuffled a.ref x n mode seg zf = s0.shuffled c.ref x n mode seg zf := shuffled_begun h false reads last hf
    rw [he.trans (exchangeWord_done hi hm howes (shflBody_read hfault hfind))]
    refine computes_plain hf hact (acting_live h hlive) (windowsHold _ _) false _ _ _ (fun i hi32 _ => ?_)
      (fun pair => absurd pair Bool.false_ne_true)
    have hlane : lane (lanes (b.shuffled a.ref x n mode seg zf)) i = s0.shuffled c.ref x n mode seg zf i := by
      rw [lane_lanes _ hi32, hshuffled]
    refine hlane.trans ?_
    cases hsource : source i with
    | some k => exact (shuffled_source hsource).trans (setWidth_extended _).symm
    | none =>
      cases zf with
      | true => exact shuffled_edge hsource
      | false => exact (shuffled_edge hsource).trans (setWidth_extended _).symm

end Sys2Proof.Machine
end

/-! ## Plain words, branches and calls (class 0x0) -/

section
namespace Sys2Proof.Machine

@[simp] theorem atPoint_ne_never {h : Hdr} (hh : h ≠ Hdr.never) : atPoint h ≠ Hdr.never := by
  unfold atPoint
  rw [if_neg hh]
  exact fun e => Bool.noConfusion (congrArg Hdr.y e)

/-- A switch that a word makes due changes no fibre and not the word that issues. -/
theorem yieldSlot_cur (s : State) (r : FibRef) : (s.yieldSlot r).cur = s.cur := by
  unfold State.yieldSlot
  dsimp only
  split <;> rfl

/-- A word that reads nothing and does nothing passes, whatever its guard leaves active. -/
theorem runWord_passes {h : Hdr} {ends : Bool} {last : List Nat} {pj : Nat} {s : State} {c : Cur} {f : Fibre} (hc : s.cur = some c)
    (hf : (s.settleLoads c.ref).fib c.ref = some f) (hh : h ≠ Hdr.never) :
    runWord h ends [] last pj s (fun _ s => .done s) =
      .next (((s.settleLoads c.ref).begun f h ends [] last c).finish h (f.actOf h ends c) pj) := by
  have howes : f.owes [] = false := rfl
  unfold runWord
  simp only [hc, hf, if_neg hh, howes, Bool.false_and, Bool.false_eq_true, if_false, ite_self]

/-- The target of a PC-relative word, by the integer that its offset is (R110). -/
theorem relTarget_eq (pc : Nat) (off : BitVec 32) : relTarget pc off = (((pc : Int) + 12 + off.toInt) % 2 ^ 64).toNat := by
  rw [relTarget, wrap64, sext_toInt]

/-- A PC-relative word is a switch point where its target is at or before it (R96). -/
theorem header_relative (h : Hdr) (off : BitVec 32) :
    (if backward off then atPoint h else h) = if off.toInt + 12 ≤ 0 then atPoint h else h := by
  simp only [backward, sext_toInt, decide_eq_true_eq]

/-- BRA is run under the header of a switch point where it goes back. -/
theorem exec_bra (h : Hdr) (off : BitVec 32) (s : State) : exec (.bra h off) s =
    runWord (if off.toInt + 12 ≤ 0 then atPoint h else h) true [] [] 6 s fun a s =>
      .done (s.jump a.ref a.lanes (fun _ => (((a.pc : Int) + 12 + off.toInt) % 2 ^ 64).toNat)) := by
  have he : exec (.bra h off) s = execBra h off s := rfl
  rw [he, execBra, header_relative]
  simp only [relTarget_eq]

/-- CALL likewise: it writes its link, then it jumps. -/
theorem exec_call (h : Hdr) (d : BitVec 8) (off : BitVec 32) (s : State) : exec (.call h d off) s =
    runWord (if off.toInt + 12 ≤ 0 then atPoint h else h) true [] [] 6 s fun a s =>
      match s.wordFault a [] 0 [d.toNat, d.toNat + 1] with
      | some t => .bad t
      | none => .done ((s.putPair a.ref d.toNat a.lanes (fun _ => BitVec.ofNat 64 (a.pc + 12))).jump a.ref a.lanes
          (fun _ => (((a.pc : Int) + 12 + off.toInt) % 2 ^ 64).toNat)) := by
  have he : exec (.call h d off) s = execCall h d off s := rfl
  rw [he, execCall, header_relative]
  simp only [relTarget_eq] <;> rfl

/-- NOP, SWP and FYIELD pass. -/
theorem plainWords (s : State) (h : Hdr) (n : BitVec 2) :
    Does (.nop h) s h true [] [] 6 (fun _ _ => True) (fun _ b => b) ∧
    Does (.swp h n) s h true [] [] 6 (fun _ _ => True) (fun a b => b.modFib a.ref (fun f => { f with
      gov := f.gov.mapIdx (fun i g => if a.lanes.getLsbD i then ⟨n.toNat, n.toNat, a.pc⟩ else g) })) ∧
    (∀ c f, s.cur = some c → h ≠ Hdr.never →
      ((s.yieldSlot c.ref).settleLoads c.ref).fib c.ref = some f →
      exec (.fyield h) s = .next (((((s.yieldSlot c.ref).settleLoads c.ref).begun f (atPoint h) true [] [] c).finish (atPoint h)
        (f.actOf (atPoint h) true c) 6))) := by
  refine ⟨does_of_runWord rfl fun _ _ _ => rfl, does_of_runWord rfl fun _ _ _ => rfl, fun c f hc hh hf => ?_⟩
  have he : exec (.fyield h) s = runWord (atPoint h) true [] [] 6 (s.yieldSlot c.ref) fun _ s => .done s := by
    have he' : exec (.fyield h) s = execFyield h s := rfl
    rw [he', execFyield]
    simp only [hc, if_neg hh]
  rw [he]
  exact runWord_passes ((yieldSlot_cur s c.ref).trans hc) hf (atPoint_ne_never hh)

/-- Settles O14: each word's body is the move that the statement names; for a call, once its registers can be written. -/
theorem plainWordsBranchesAndCalls : Obligations.PlainWordsBranchesAndCalls := by
  unfold Obligations.PlainWordsBranchesAndCalls
  refine ⟨fun s h n => ?_, fun s h u off d x => ?_⟩
  · obtain ⟨nop, swp, fyield⟩ := plainWords s h n
    refine ⟨nop, swp, fun c f hc hh hf => ⟨fyield c f hc hh hf, ?_⟩⟩
    intro hready
    exact if_pos hready
  · have linked : ∀ (a : Act) (b : State), b.writeFault a.ref [d.toNat, d.toNat + 1] = none →
        b.wordFault a [] 0 [d.toNat, d.toNat + 1] = none := fun a b => wordFault_none rfl
    refine ⟨?bra, ?brx, ?ret, ?call, ?callx⟩
    case bra => exact does_of_runWord (exec_bra h off s) fun _ _ _ => rfl
    case brx => exact does_of_runWord rfl fun _ _ _ => rfl
    case ret => exact does_of_runWord rfl fun _ _ _ => rfl
    case call => exact does_of_runWord (exec_call h d off s) fun a b hw => by rw [linked a b hw]; rfl
    case callx =>
      have he : exec (.callx h u d x) s = execCallx h u d x s := rfl
      unfold execCallx at he
      exact does_of_runWord he fun a b hw => by rw [linked a b hw]; rfl

end Sys2Proof.Machine
end

/-! ## Time, counters and trace (class 0xE) -/

section
namespace Sys2Proof.Machine

/-- A word run by `timeWord` does what its body does, and traps in a deterministic launch (R43, R419). -/
theorem timed_of_timeWord {i : Instr} {s : State} {h : Hdr} {srcs : List (Src × Nat)} {dsts : List Nat} {P : Act → State → Prop}
    {E : Act → State → State} {body : Act → State → Out} (he : exec i s = timeWord h srcs dsts s body)
    (hb : ∀ a b, P a b → body a b = .done (E a b)) :
    OnceDoes i s h srcs dsts (fun a b => (b.launchOf a.ref.wg).determ = false ∧ P a b) E ∧
      Traps i s h false (srcs.flatMap (fun e => srcNames e.1 e.2)) (srcs.flatMap (fun e => srcLast e.1 e.2))
        (fun a b => b.wordFault a (srcs.map (·.1)) (oneLane a.low) dsts = none ∧ (b.launchOf a.ref.wg).determ = true)
        (fun a _ => a.nondet) := by
  unfold timeWord at he
  refine ⟨onceDoes_of_onceWord he fun a b ⟨hd, hp⟩ => ?_, ?_⟩
  · rw [if_neg (by simp [hd]), hb a b hp]
  · unfold onceWord at he
    refine traps_of_runWord he fun a b ⟨hw, hd⟩ => ?_
    rw [hw]
    exact if_pos hd

/-- Settles O43: five words are run by `timeWord`, TRACE by `onceWord`. -/
theorem debugWords : Obligations.DebugWords := by
  unfold Obligations.DebugWords
  intro s h d x k clr tag
  refine ⟨?tick, ?ptprd, fun w => ?stallrd, fun w => ?progrWg, ?progrPark, ?trace⟩
  case tick => exact timed_of_timeWord rfl fun _ _ _ => rfl
  case ptprd => exact timed_of_timeWord rfl fun _ _ _ => rfl
  case stallrd =>
    have he : exec (.stallrd h d k clr) s = execStallrd h d k clr s := rfl
    unfold execStallrd at he
    exact timed_of_timeWord he fun a b hw => by simp only [hw, Option.map_some, Option.getD_some]
  case progrWg =>
    have he : exec (.progrWg h d) s = execProgrWg h d s := rfl
    unfold execProgrWg at he
    exact timed_of_timeWord he fun a b hw => by simp only [hw, Option.map_some, Option.getD_some]
  case progrPark =>
    have he : exec (.progrPark h d x) s = execProgrPark h d x s := rfl
    unfold execProgrPark at he
    refine timed_of_timeWord he fun a b hp => if_neg ?_
    obtain ⟨f, hf⟩ := Option.isSome_iff_exists.1 hp
    rw [hf]
    exact Bool.false_ne_true
  case trace =>
    have he : exec (.trace h x tag) s = execTrace h x tag s := rfl
    unfold execTrace at he
    exact onceDoes_of_onceWord he fun _ _ _ => rfl

end Sys2Proof.Machine
end

/-! ## Trap words, legacy words and the return from a trap (R39, R386, R390, R411) -/

section
namespace Sys2Proof.Machine

/-- Nothing is wrong with writing no register. -/
theorem writeFault_nil (s : State) (r : FibRef) : s.writeFault r [] = none := by
  unfold State.writeFault
  split
  · simp
  · rfl

/-- A word whose body has issued with a trap to take takes it after the word. -/
theorem heldTrap_of_onceWord {i : Instr} {s : State} {h : Hdr} {P : Act → State → Prop} {L : Act → State → State × TrapInfo}
    {body : Act → State → Out} (he : exec i s = onceWord h [] [] s body)
    (hb : ∀ a b, P a b → body a b = .logged (L a b).1 (L a b).2) : HeldTrap i s h [] [] P L := by
  intro c f hi a b howes hp
  unfold onceWord at he
  have free : b.wordFault a [] (oneLane a.low) [] = none := wordFault_none rfl (writeFault_nil b a.ref)
  rw [he]
  refine runWord_logged hi howes ?_
  show (match b.wordFault a [] (oneLane a.low) [] with
    | some t => Out.bad t
    | none => body a b) = _
  rw [free]
  exact hb a b hp

/-- A word that no rule of the state forbids runs. -/
theorem unlessIllegal_legal {h : Hdr} {sub : Nat} {bad : FibRef → Bool} {s : State} {k : Host.Outcome State Fault Refusal} {c : Cur}
    {f : Fibre} (hc : s.cur = some c) (hf : s.fib c.ref = some f) (hbad : bad c.ref = false) : unlessIllegal h sub bad s k = k := by
  unfold unlessIllegal
  simp [hc, hf, hbad]

/-- A fibre in trap mode is there. -/
theorem fib_of_inTrap {s : State} {r : FibRef} (ht : s.inTrap r = true) : ∃ f, s.fib r = some f := by
  cases hf : s.fib r with
  | none => simp [State.inTrap, hf] at ht
  | some f => exact ⟨f, rfl⟩

/-- In trap mode RTT is a word that acts once, after the handler's stores. -/
theorem rttWord_inTrap {h : Hdr} {skip : Bool} {s : State} (ht : ∀ c, s.cur = some c → s.inTrap c.ref = true) :
    rttWord h skip s = onceWord h [] [] s fun a s => afterStores a s fun s => .done (s.leaveTrap a.ref skip) := by
  cases hc : s.cur with
  | none => simp [rttWord, unlessIllegal, onceWord, runWord, hc]
  | some c =>
    obtain ⟨f, hf⟩ := fib_of_inTrap (ht c hc)
    exact unlessIllegal_legal hc hf (by simp [ht c hc])

/-- Both forms of RTT. -/
theorem exec_rtt (h : Hdr) (skip : Bool) (s : State) : exec (if skip then .rttSkip h else .rtt h) s = rttWord h skip s := by
  cases skip <;> rfl

/-- A word run by `onceWord` waits where its body does. -/
theorem waits_of_onceWord {i : Instr} {s : State} {h : Hdr} {srcs : List (Src × Nat)} {dsts : List Nat} {P : Act → State → Prop}
    {E : Act → State → State} {M : Act → Mask} {cond : Act → State → WaitCond} {parks : Bool} {body : Act → State → Out}
    (he : exec i s = onceWord h srcs dsts s body) (hb : ∀ a b, P a b → body a b = .hold (E a b) (M a) (cond a b) parks) :
    Waits i s h false (srcs.flatMap (fun x => srcNames x.1 x.2)) (srcs.flatMap (fun x => srcLast x.1 x.2))
      (fun a b => b.wordFault a (srcs.map (·.1)) (oneLane a.low) dsts = none ∧ P a b) E M cond parks := by
  unfold onceWord at he
  refine waits_of_runWord he fun a b ⟨hw, hp⟩ => ?_
  rw [hw]
  exact hb a b hp

/-- A word waits for the rows that its fibre's tile stores still owe (R188). -/
theorem afterStores_owing {a : Act} {b : State} {k : State → Out} (h : b.owesStores a.ref = true) :
    afterStores a b k = .hold b a.group .owed false := if_pos h

/-- The turn of a group changes no context and no launch. -/
theorem ctx_turned (s : State) (c : Cur) : (s.turned c).ctx ((s.turned c).ctxOf c.ref.wg) = s.ctx (s.ctxOf c.ref.wg) := by
  have calm : Calm s (s.turned c) c.ref := Calm.ofFib fun _ _ => rfl
  have number : (s.turned c).ctxOf c.ref.wg = s.ctxOf c.ref.wg := congrArg Launch.ctx (launchOf_calm calm)
  rw [number]
  rfl

/-- What a legacy word does (R39, R408). -/
theorem exec_legacy {s : State} {c : Cur} {f : Fibre} (hc : s.cur = some c) (hf : s.fib c.ref = some f) (neg : Bool) (gp : BitVec 3)
    (w : BitVec 96) :
    let a : Act := ⟨c.ref, c.lanes &&& (if neg then ~~~(f.pred gp) else f.pred gp), c.lanes, c.pc, w, ⟨0, 0, 0⟩⟩
    exec (.legacyBehaviour neg gp w) s = .next (if (s.ctx (s.ctxOf c.ref.wg)).emul != 0
      then (s.turned c).takeTrap c.ref (a.trap 0x28 0 a.low 0 0)
      else (s.turned c).takeTrap c.ref (underGov (a.illegal 2) (f.govOf c.lanes))) := by
  intro a
  have he : exec (.legacyBehaviour neg gp w) s = execLegacyBehaviour neg gp w s := rfl
  rw [he, ← ctx_turned s c]
  unfold execLegacyBehaviour
  simp only [hc, hf]
  rfl

/-! ### The return -/

/-- A fibre whose operand log is empty issues nothing again. -/
theorem reissue_emptyLog {v : State} {r : FibRef} {f : Fibre} (hf : v.fib r = some f) (hlog : f.log = []) : v.reissue r = v := by
  have goes : v.reissueGoes r f = false := by simp [State.reissueGoes, Fibre.owesReissue, hlog]
  simp [State.reissue, hf, goes]

/-- A fibre that holds nothing drops nothing of a word. -/
theorem dropWord_holdsNothing {f : Fibre} (hlog : f.log = []) (hqueue : f.queue = []) (n : Option Nat) : f.dropWord n = f := by
  cases f
  cases hlog
  cases hqueue
  rfl

/-- The fibre that returns holding nothing: its own queue goes on with the handler's stores, and its threads stand where the trap took
them, or past the trapping word under `.skip`. -/
theorem returned_holdsNothing {f : Fibre} {z : TrapFrame} (hlog : f.log = []) (hqueue : f.queue = []) (skip : Bool) :
    let g := f.returned z skip
    g.trap = none ∧ g.log = [] ∧ g.queue = f.trapQueue ∧ g.trapQueue = [] ∧ g.live = f.live ∧
      ∀ k, k < 32 → g.pcs.toList.getD k 0 =
        if z.lanes.getLsbD k then (if skip = true ∧ z.info.after = false then (z.info.pc + 12) % 2 ^ 64 else z.back.toList.getD k 0)
        else f.pcs.toList.getD k 0 := by
  unfold Fibre.returned
  rw [dropWord_holdsNothing hlog hqueue, ite_self]
  refine ⟨rfl, hlog, ?queue, rfl, rfl, fun k hk => ?pcs⟩
  case queue =>
    show f.trapQueue ++ f.queue.map _ = f.trapQueue
    rw [hqueue, List.map_nil, List.append_nil]
  case pcs =>
    refine (getD_mapIdx f.pcs _ 0 hk).trans ?_
    have back : ∀ d, z.back.toList.getD k d = z.back.toList.getD k 0 := fun d => by
      simp [List.getD_eq_getElem?_getD, hk]
    rw [back]
    cases skip <;> cases z.info.after <;> rfl

/-- A return that holds nothing issues nothing again. -/
theorem leaveTrap_holdsNothing {v : State} {r : FibRef} {f : Fibre} {z : TrapFrame} (hf : v.fib r = some f) (hz : f.trap = some z)
    (hlog : f.log = []) (hqueue : f.queue = []) (skip : Bool) : (v.leaveTrap r skip).fib r = some (f.returned z skip) := by
  obtain ⟨-, nothing, -⟩ := returned_holdsNothing (z := z) hlog hqueue skip
  have back := fib_setFib_same hf (f.returned z skip)
  have he : v.leaveTrap r skip = (v.setFib r (f.returned z skip)).reissue r := by simp only [State.leaveTrap, hf, hz]
  rw [he, reissue_emptyLog back nothing, back]

/-- Settles O38: TRAP and BKPT issue with a trap to take; RTT acts once in trap mode, after the handler's stores. -/
theorem trapWordsAndReturns : Obligations.TrapWordsAndReturns := by
  unfold Obligations.TrapWordsAndReturns
  refine ⟨fun s h code kill neg gp w => ⟨?trap, ?bkpt, fun c f hc hf => ?legacy⟩, fun s h skip => ⟨fun ht => ?rtt, ?leave⟩⟩
  case trap => exact heldTrap_of_onceWord rfl fun _ _ _ => rfl
  case bkpt => exact heldTrap_of_onceWord rfl fun _ _ _ => rfl
  case legacy =>
    have he := exec_legacy hc hf neg gp w
    refine ⟨fun on => ?_, fun off => ?_⟩
    · rw [he, if_pos (by simpa using on)]
    · rw [he, if_neg (by simp [off])]
  case rtt =>
    have he := (exec_rtt h skip s).trans (rttWord_inTrap ht)
    exact ⟨onceDoes_of_onceWord he fun a b => afterStores_leave, waits_of_onceWord he fun a b => afterStores_owing⟩
  case leave =>
    intro v r f z hf hz hlog hqueue
    obtain ⟨trap, -, queue, trapQueue, live, pcs⟩ := returned_holdsNothing (z := z) hlog hqueue skip
    exact ⟨_, leaveTrap_holdsNothing hf hz hlog hqueue skip, trap, queue, trapQueue, live, pcs⟩

end Sys2Proof.Machine
end

/-! ## One step (R91, R422, R423) -/

section
namespace Sys2Proof.Machine

/-! ### The choice among several actions (R98) -/

/-- Of two actions, the one that has waited longer, the first where they have waited alike. -/
def State.longer (s : State) (b x : Action) : Action := if s.waited b < s.waited x then x else b

/-- Of several actions, the first of those that have waited longest. -/
def State.longest (s : State) (a : Action) (l : List Action) : Action := l.foldl s.longer a

theorem longer_mem (s : State) (b x : Action) : s.longer b x = b ∨ s.longer b x = x := by
  unfold State.longer
  split
  · exact .inr rfl
  · exact .inl rfl

theorem le_longer (s : State) (b x : Action) :
    s.waited b ≤ s.waited (s.longer b x) ∧ s.waited x ≤ s.waited (s.longer b x) := by
  unfold State.longer
  split <;> omega

theorem longest_mem (s : State) (a : Action) (l : List Action) : s.longest a l ∈ a :: l := by
  unfold State.longest
  induction l generalizing a with
  | nil => exact List.mem_singleton_self a
  | cons x l ih =>
    rw [List.foldl_cons]
    rcases longer_mem s a x with h | h
    · rw [h]
      exact List.mem_cons.2 ((List.mem_cons.1 (ih a)).imp_right (List.mem_cons_of_mem x))
    · rw [h]
      exact List.mem_cons_of_mem a (ih x)

theorem le_longest (s : State) (a : Action) (l : List Action) : ∀ y ∈ a :: l, s.waited y ≤ s.waited (s.longest a l) := by
  unfold State.longest
  induction l generalizing a with
  | nil => intro y hy; rw [List.mem_singleton.1 hy]; exact le_rfl
  | cons x l ih =>
    intro y hy
    rw [List.foldl_cons]
    have first := ih (s.longer a x) _ (List.mem_cons_self ..)
    obtain ⟨ha, hx⟩ := le_longer s a x
    rcases List.mem_cons.1 hy with rfl | hy
    · exact ha.trans first
    · rcases List.mem_cons.1 hy with rfl | hy
      · exact hx.trans first
      · exact ih _ y (List.mem_cons_of_mem _ hy)

/-- What is chosen: the one that has waited longest, where it has waited as long as any may; otherwise one of them. -/
theorem choose_eq (s : State) (a : Action) (l : List Action) :
    (s.choose a l).1 = if Config.patience ≤ s.waited (s.longest a l) then s.longest a l
      else (a :: l).getD (Config.pick s.free % (l.length + 1)) a := rfl

theorem choose_mem (s : State) (a : Action) (l : List Action) : (s.choose a l).1 ∈ a :: l := by
  rw [choose_eq]
  split
  · exact longest_mem s a l
  · have inside : Config.pick s.free % (l.length + 1) < (a :: l).length := Nat.mod_lt _ (Nat.succ_pos _)
    rw [List.getD_eq_getElem _ _ inside]
    exact List.getElem_mem _

/-- Where an action has waited as long as any may, none has waited longer than the one that is chosen. -/
theorem choose_longest {s : State} {a : Action} {l : List Action} (h : ∃ y ∈ a :: l, Config.patience ≤ s.waited y) :
    ∀ y ∈ a :: l, s.waited y ≤ s.waited (s.choose a l).1 := by
  obtain ⟨z, hz, hpatience⟩ := h
  rw [choose_eq, if_pos (hpatience.trans (le_longest s a l z hz))]
  exact le_longest s a l

/-! ### The step of a package with power -/

section
variable {s : State} (hp : s.powered = true) (hz : s.frozen = false)
include hp hz

theorem step_idle (ha : s.actions = []) : step s = .next (s.passTime 1) := by
  simp [step, State.advance, hp, hz, ha]

theorem step_single {a : Action} (ha : s.actions = [a]) : step s = timed (s.noneDeferred.perform a) := by
  simp [step, State.advance, hp, hz, ha]

theorem step_several {a b : Action} {l : List Action} (ha : s.actions = a :: b :: l) :
    step s = timed ((s.draw.2.defer (a :: b :: l) (s.choose a (b :: l)).1).perform (s.choose a (b :: l)).1) := by
  simp [step, State.advance, hp, hz, ha]
  rfl

end

/-! ### A word that a port issues -/

/-- The word that a port fetches runs at once. -/
theorem perform_issue {s v : State} {core port : Nat} (hv : exec (.issue core port) s = .next v) :
    s.perform (.issue core port) = v.runCur := by
  have hv' : execIssue core port s = .next v := hv
  show s.issueWord core port = v.runCur
  rw [State.issueWord, hv']

theorem runCur_none {v : State} (hc : v.cur = none) : v.runCur = .next v := by
  simp [State.runCur, hc]

theorem runCur_ok {v : State} {c : Cur} {i : Instr} (hc : v.cur = some c) (hi : decode c.bits = .ok i) : v.runCur = exec i v := by
  simp [State.runCur, hc, hi]

theorem runCur_illegal {v : State} {c : Cur} {f : Fibre} {sub : Nat} (hc : v.cur = some c) (hi : decode c.bits = .error sub)
    (hf : v.fib c.ref = some f) : v.runCur = .next (v.illegalWord c f sub) := by
  simp [State.runCur, hc, hi, hf]

/-! ### A package without power, or frozen -/

theorem step_unpowered {s : State} (hp : s.powered = false) :
    step s = if s.inputs.isEmpty then .fault .unpowered else s.onlyInputs whileOff := by
  simp [step, State.advance, hp]

theorem step_frozen {s : State} (hp : s.powered = true) (hz : s.frozen = true) : step s = s.onlyInputs whileFrozen := by
  simp [step, State.advance, hp, hz]

/-- Of what reaches such a package, the oldest event is taken or lost. -/
theorem onlyInputs_cons {s : State} {i : Instr} {rest : List Instr} (hi : s.inputs = i :: rest) (p : Instr → Bool) :
    (p i = true → s.onlyInputs p = exec i { s with inputs := rest }) ∧
      (p i = false → s.onlyInputs p = .next { s with inputs := rest }) := by
  unfold State.onlyInputs
  rw [hi]
  exact ⟨fun h => if_pos h, fun h => if_neg (by simp [h])⟩

/-- Settles O58: what a step does by the number of its actions; and for a port, what runs the word that stands in `cur`. -/
theorem stepRunsTheDecodedWord : Obligations.StepRunsTheDecodedWord := by
  unfold Obligations.StepRunsTheDecodedWord
  refine ⟨?word, ?noWord, fun _ => rfl, ?several, ?idle, ?event, ?frozen, ?frozenEvent, ?off, ?offEvent⟩
  case word =>
    intro s v core port c hp hz ha hv hc
    rw [step_single hp hz ha, perform_issue hv]
    refine ⟨fun i hi => by rw [runCur_ok hc hi], fun sub f hi hf => ?_⟩
    rw [runCur_illegal hc hi hf]
    rfl
  case noWord =>
    intro s v core port hp hz ha hv hc
    rw [step_single hp hz ha, perform_issue hv, runCur_none hc]
    rfl
  case several =>
    intro s a b l hp hz ha
    exact ⟨_, choose_mem s a (b :: l), step_several hp hz ha, choose_longest⟩
  case idle => exact fun s hp hz ha => step_idle hp hz ha
  case event => exact fun s i hp hz ha => step_single hp hz ha
  case frozen =>
    intro s hp hz hi
    rw [step_frozen hp hz]
    simp [State.onlyInputs, hi]
  case frozenEvent =>
    intro s i rest hp hz hi
    rw [step_frozen hp hz]
    exact onlyInputs_cons hi whileFrozen
  case off =>
    intro s hp hi
    rw [step_unpowered hp, if_pos (by simp [hi])]
  case offEvent =>
    intro s i rest hp hi
    rw [step_unpowered hp, if_neg (by simp [hi])]
    exact onlyInputs_cons hi whileOff

end Sys2Proof.Machine
end

/-! ## Fetch and issue (R43, R44, R91, R97) -/

section
namespace Sys2Proof.Machine

/-- A fetch that finds its three words puts the word of the fibre's next group into `cur`. -/
theorem fetchNext_ok {s u : State} {r : FibRef} {f : Fibre} {pc : Nat} {m : Mask} {w : BitVec 96} (hf : s.fib r = some f)
    (hg : f.nextGroup = some (pc, m)) (hw : s.fetchWord r pc = (.ok w, u)) :
    s.fetchNext r = { u with cur := some ⟨r, m, pc, w⟩ } := by
  simp only [State.fetchNext, hf, hg, hw]

/-- A fetch that fails is a trap of the whole group (R43; log entry 63). -/
theorem fetchNext_error {s u : State} {r : FibRef} {f : Fibre} {pc va : Nat} {m : Mask} (hf : s.fib r = some f)
    (hg : f.nextGroup = some (pc, m)) (hw : s.fetchWord r pc = (.error va, u)) :
    s.fetchNext r = { (u.modFib r (fun g => g.turn m)).takeTrap r
      (underGov ((⟨r, m, m, pc, 0, f.govOf m⟩ : Act).trap 4 0 (⟨r, m, m, pc, 0, f.govOf m⟩ : Act).low va 0) (f.govOf m)) with
        cur := none } := by
  simp only [State.fetchNext, hf, hg, hw]

/-- An address that is not a multiple of 4 fetches nothing (R43). -/
theorem fetchWord_misaligned {s : State} {r : FibRef} {pc : Nat} (h : pc % 4 ≠ 0) : s.fetchWord r pc = (.error pc, s) := by
  simp [State.fetchWord, h]

/-- A port whose opportunity the issue gate withholds (R16). -/
theorem exec_issue_withheld {s u : State} {core port k : Nat} {r : FibRef} (hp : s.portSlot core port = some (k, r))
    (hw : s.withheld core r = (true, u)) : exec (.issue core port) s = .next (u.stallAt r) := by
  have he : exec (.issue core port) s = execIssue core port s := rfl
  rw [he, execIssue]
  simp only [hp, hw]

/-- A port that fetches a word: the word stalls, or its slot is stamped with it (R91, R97). -/
theorem exec_issue_fetched {s u v : State} {core port k : Nat} {r : FibRef} {c : Cur} (hp : s.portSlot core port = some (k, r))
    (hw : s.withheld core r = (false, u)) (hv : u.fetchNext r = v) (hc : v.cur = some c) :
    exec (.issue core port) s = .next (match v.stalls core k c with
      | (true, y) => (y.yieldSlot r).stallAt r
      | (false, y) => y.modSlot core k (fun p => { p with last := some (y.tick, c), prev := p.last })) := by
  have he : exec (.issue core port) s = execIssue core port s := rfl
  rw [he, execIssue]
  simp only [hp, hw, hv, hc] <;> rfl

/-- A port without a slot to serve issues nothing. -/
theorem exec_issue_idle {s : State} {core port : Nat} (hp : s.portSlot core port = none) :
    exec (.issue core port) s = .next { s with cur := none } := by
  have he : exec (.issue core port) s = execIssue core port s := rfl
  rw [he, execIssue]
  simp only [hp]

/-- Settles O45: what a fetch and a port do by the cases of their definitions; the three words one by one. -/
theorem wordsAreFetched : Obligations.WordsAreFetched := by
  unfold Obligations.WordsAreFetched
  refine ⟨fun s r f pc m hf hg => ⟨fun w u hw => ?fetched, fun hpc => ?misaligned⟩,
    fun s u core port k r hp => ⟨fun hw => exec_issue_withheld hp hw,
      fun f pc m w v hw hf hg hword => ⟨fun y hy => ?stalls, fun y hy => ?goes⟩⟩,
    fun s core port hp => exec_issue_idle hp, fun s r pc t0 t1 t2 u0 u1 u2 hpc hlt => ?words⟩
  case fetched => exact congrArg Host.Outcome.next (fetchNext_ok hf hg hw)
  case misaligned => exact congrArg Host.Outcome.next (fetchNext_error hf hg (fetchWord_misaligned hpc))
  case stalls =>
    rw [exec_issue_fetched hp hw (fetchNext_ok hf hg hword) rfl, hy]
    rfl
  case goes =>
    rw [exec_issue_fetched hp hw (fetchNext_ok hf hg hword) rfl, hy]
  case words =>
    dsimp only
    intro h0 h1 h2
    have m0 : pc % 2 ^ 64 = pc := Nat.mod_eq_of_lt (by omega)
    have m4 : (pc + 4) % 2 ^ 64 = pc + 4 := Nat.mod_eq_of_lt (by omega)
    have m8 : (pc + 8) % 2 ^ 64 = pc + 8 := Nat.mod_eq_of_lt hlt
    have aligned : (pc % 4 != 0) = false := by simp [hpc]
    unfold State.fetchWord
    simp only [aligned, Bool.false_eq_true, if_false, List.foldl_cons, List.foldl_nil, Nat.add_zero, m0, m4, m8, h0, h1, h2, Nat.zero_add,
      Nat.mul_zero, Nat.pow_zero, Nat.mul_one, Nat.reduceMul]

end Sys2Proof.Machine
end

/-! ## Events of a core (R32, R94, R95, R104, R105, R214, R221, R227, R257, R270) -/

section
namespace Sys2Proof.Machine

/-! ### Waits that end -/

theorem modify_modify {α : Type} (m : Map α) (k : Nat) (f g : α → α) :
    Map.modify (Map.modify m k f) k g = Map.modify m k (fun a => g (f a)) := by
  unfold Map.modify
  rw [List.map_map]
  refine List.map_congr_left fun e _ => ?_
  obtain ⟨j, a⟩ := e
  by_cases h : j = k
  · simp [h]
  · simp [h]

/-- Two changes of a fibre are one. -/
theorem modFib_modFib (s : State) (r : FibRef) (f g : Fibre → Fibre) :
    (s.modFib r f).modFib r g = s.modFib r (fun a => g (f a)) := by
  unfold State.modFib State.modWg
  simp only [modify_modify]

/-- A fibre whose ended waits are taken away is ready where it can issue. -/
theorem endWaits_eq (s : State) (r : FibRef) (p : WaitCond → Bool) :
    s.endWaits r p = s.modFib r (fun g =>
      let h := { g with waits := g.waits.filter (fun w => !(p w.cond)) }
      if h.st = .parked ∧ h.canIssue = true then { h with st := .ready s.tick } else h) := by
  unfold State.endWaits State.readyUp
  rw [modFib_modFib]
  simp only [modFib_tick, Bool.and_eq_true, decide_eq_true_eq]

/-! ### Switches -/

@[simp] theorem fib_modSlot (s : State) (core k : Nat) (f : PSlot → PSlot) (r : FibRef) : (s.modSlot core k f).fib r = s.fib r := rfl

theorem pslot_modSlot (s : State) (core : Nat) {k : Nat} (hk : k < 8) (f : PSlot → PSlot) :
    (s.modSlot core k f).pslot core k = f (s.pslot core k) := by
  unfold State.pslot State.modSlot State.modCore State.core
  simp [List.getD_eq_getElem?_getD, hk]

/-- A switch that is forced is a switch. -/
theorem switches_of_forced {s : State} {core k : Nat} (h : s.forced core k = true) : s.switches core k = true := by
  unfold State.forced at h
  simp only [Bool.and_eq_true, List.any_eq_true] at h
  obtain ⟨⟨hdue, hcur⟩, e, he, hother, -⟩ := h
  obtain ⟨o, ho⟩ := Option.isSome_iff_exists.1 hcur
  have others : (s.readyIn core k).filter (fun e => some e.2 != (s.pslot core k).cur) ≠ [] :=
    List.ne_nil_of_mem (List.mem_filter.2 ⟨he, hother⟩)
  unfold State.switches
  simp only [ho, hdue, Bool.true_or, Bool.and_true]
  rw [ho] at others
  simpa using others

/-- The fibre that a switch takes out of its slot (R32, R94): its latches are cleared, and it is ready where it can issue. -/
def Fibre.switchedOut (f : Fibre) (tick : Nat) : Fibre :=
  { f.clearLatches with
    st := match f.st with
      | .current => if f.canIssue then .ready tick else .parked
      | x => x }

theorem switchedOut_latches (f : Fibre) (tick : Nat) (b : Fin 4) : ((f.switchedOut tick).latches[b]).2 = 0 := by
  simp [Fibre.switchedOut, Fibre.clearLatches]

/-- A switch from a current fibre to the one that has been ready longest. -/
theorem switchSlot_eq {s : State} {core k : Nat} {o r : FibRef} (ho : (s.pslot core k).cur = some o)
    (hr : longestReady ((s.readyIn core k).filter (fun e => some e.2 != some o)) = some r) :
    s.switchSlot core k = ((s.modFib o (fun f => f.switchedOut s.tick)).modFib r (fun f => { f with st := .current })).modSlot core k
      (fun p => { p with cur := some r, due := false }) := by
  unfold State.switchSlot
  simp only [ho, hr]
  rfl

/-! ### Barrier phases -/

theorem barrier_setBarrier (s : State) (k j : BarKey) (b : Barrier) :
    (s.setBarrier k b).barrier j = if j = k then b else s.barrier j := by
  unfold State.barrier State.setBarrier
  rw [List.find?_cons]
  by_cases h : j = k
  · subst h
    simp
  · have hk : (k == j) = false := by simpa using Ne.symm h
    rw [if_neg h, hk]
    dsimp only
    rw [List.find?_filter]
    congr 3
    funext e
    by_cases he : e.1 = j
    · subst he
      simp [h]
    · simp [he]

/-- What a part of the state is after a list of changes that keep it. -/
theorem foldl_keeps {α β : Type} {step : State → α → State} (part : State → β) (h : ∀ s a, part (step s a) = part s)
    (l : List α) (s : State) : part (l.foldl step s) = part s := by
  induction l generalizing s with
  | nil => rfl
  | cons a l ih => exact (ih (step s a)).trans (h s a)

/-- What the completion of a phase leaves alone: the barriers and the memories. -/
def State.besidePhases (s : State) : List (BarKey × Barrier) × Memory × Memory := (s.barriers, s.mem, s.scratch)

theorem besidePhases_joinPhase (s : State) (b : Barrier) (g : Nat) : (s.joinPhase b g).besidePhases = s.besidePhases := by
  have wg : ∀ (t : State) (f : WorkGroup → WorkGroup), (t.modWg g f).besidePhases = t.besidePhases := fun _ _ => rfl
  unfold State.joinPhase
  dsimp only
  rw [wg]
  refine foldl_keeps State.besidePhases ?_ _ s
  exact fun t k => rfl

theorem besidePhases_advanceGen (s : State) (k : BarKey) : (s.advanceGen k).besidePhases = s.besidePhases := by
  cases k <;> rfl

theorem barrier_congr {s t : State} (h : t.barriers = s.barriers) (k : BarKey) : t.barrier k = s.barrier k := by
  unfold State.barrier
  rw [h]

/-- A phase that completes: the next one has begun with nobody arrived, and the other barriers and the memories are as they were. -/
theorem exec_phaseComplete {s : State} {k : BarKey} (h : s.phaseComplete k = true) : ∃ t, exec (.barrierPhaseComplete k) s = .next t ∧
    t.barrier k = { phase := (s.barrier k).phase + 1 } ∧ (∀ j, j ≠ k → t.barrier j = s.barrier j) ∧ t.mem = s.mem ∧
    t.scratch = s.scratch := by
  let joined := (((s.barrier k).arrived.map (fun e => e.1.wg)).eraseDups).foldl (fun s' g => s'.joinPhase (s.barrier k) g) s
  let next := joined.setBarrier k { phase := (s.barrier k).phase + 1 }
  have hj : joined.besidePhases = s.besidePhases :=
    foldl_keeps State.besidePhases (fun s' g => besidePhases_joinPhase s' (s.barrier k) g) _ s
  have hn : (next.advanceGen k).besidePhases = next.besidePhases := besidePhases_advanceGen next k
  simp only [State.besidePhases, Prod.mk.injEq] at hj hn
  obtain ⟨jb, jm, js⟩ := hj
  obtain ⟨nb, nm, ns⟩ := hn
  have at' : ∀ j, (next.advanceGen k).barrier j = if j = k then { phase := (s.barrier k).phase + 1 } else s.barrier j := by
    intro j
    rw [barrier_congr nb, barrier_setBarrier, barrier_congr jb]
  have he : exec (.barrierPhaseComplete k) s = execBarrierPhaseComplete k s := rfl
  refine ⟨next.advanceGen k, ?_, (at' k).trans (if_pos rfl), fun j hj => (at' j).trans (if_neg hj), nm.trans jm, ns.trans js⟩
  rw [he, execBarrierPhaseComplete, if_pos h]

/-! ### Replicas -/

/-- A byte after a list of writes: the last one to its address, or what was there. -/
theorem get_foldl_set {m : Memory} (h : Memory.wf m = true) (l : List Host.Cell) (a : Nat) :
    Memory.get (l.foldl (fun (m : Memory) c => Memory.set m c.1 c.2) m) a =
      match l.reverse.find? (fun c => c.1 == a) with
      | some c => c.2
      | none => Memory.get m a := by
  induction l generalizing m with
  | nil => rfl
  | cons c l ih =>
    rw [List.foldl_cons, ih (Memory.wf_set h c.1 c.2), List.reverse_cons, List.find?_append]
    cases l.reverse.find? (fun c => c.1 == a) with
    | some d => rfl
    | none =>
      rw [Memory.get_set h]
      by_cases hc : c.1 = a
      · simp [hc]
      · simp [hc, Ne.symm hc]

/-- A replica applies no store before the older ones of its page (R256). -/
theorem olderStore_iff (s : State) (n : Nat) (x : ReplicaStore) : (s.replicas.take n).any (·.follows x) = false ↔
    ∀ y ∈ s.replicas.take n, ¬ (y.page.1 < x.page.1 + x.page.2 ∧ x.page.1 < y.page.1 + y.page.2) := by
  rw [List.any_eq_false]
  refine forall₂_congr fun y _ => ?_
  simp [ReplicaStore.follows]

theorem exec_replicaApply {s : State} {n : Nat} {x : ReplicaStore} (hx : s.replicas[n]? = some x) :
    exec (.replicaApply n) s = .next (if (s.replicas.take n).any (·.follows x) then s
      else ({ s with replicas := s.replicas.eraseIdx n } : State).applyStore x) := by
  have he : exec (.replicaApply n) s = execReplicaApply n s := rfl
  rw [he, execReplicaApply]
  simp only [hx]

/-! ### Dirty state (R221) -/

/-- No TLB holds dirty state. -/
def State.noDirt (s : State) : Prop := ∀ e ∈ s.tlbs, ∀ x ∈ e.2.entries, x.dirty = false

/-- The dirty state of one TLB goes to its leaf entries. -/
def State.dirtyOutOf (s : State) (k : Nat) : State :=
  (((s.tlb k).entries.filter (fun t => t.dirty)).foldl (fun s t => s.writeDirty t) s).modTlb k (fun b => { b with
    entries := b.entries.map (fun t => { t with dirty := false, setter := [] }) })

theorem dirtyOut_eq (s : State) : s.dirtyOut = s.tlbs.foldl (fun s e => s.dirtyOutOf e.1) s := rfl

theorem find_mem {α : Type} {m : Map α} {k : Nat} {v : α} (h : Map.find m k = some v) : ∃ e ∈ m, e.2 = v := by
  unfold Map.find at h
  obtain ⟨e, he, hv⟩ := Option.map_eq_some_iff.1 h
  exact ⟨e, List.mem_of_find?_eq_some he, hv⟩

theorem mem_set {α : Type} {m : Map α} {k : Nat} {v : α} {e : Nat × α} (h : e ∈ Map.set m k v) : e.2 = v ∨ e ∈ m := by
  induction m with
  | nil => exact .inl (by rw [List.mem_singleton.1 h])
  | cons a m ih =>
    unfold Map.set at h
    split at h
    · rcases List.mem_cons.1 h with rfl | h
      · exact .inl rfl
      · exact .inr (List.mem_cons_of_mem a h)
    · rcases List.mem_cons.1 h with rfl | h
      · exact .inr (List.mem_cons_self ..)
      · exact (ih h).imp_right (List.mem_cons_of_mem a)

theorem entries_noDirt {s : State} (h : s.noDirt) (k : Nat) : ∀ x ∈ (s.tlb k).entries, x.dirty = false := by
  unfold State.tlb Map.getD
  cases hf : Map.find s.tlbs k with
  | none => intro x hx; cases hx
  | some b =>
    obtain ⟨e, he, rfl⟩ := find_mem hf
    exact h e he

theorem dirtyOutOf_noDirt {s : State} (h : s.noDirt) (k : Nat) : (s.dirtyOutOf k).noDirt ∧ (s.dirtyOutOf k).mem = s.mem := by
  have none : (s.tlb k).entries.filter (fun t => t.dirty) = [] := by
    rw [List.filter_eq_nil_iff]
    intro x hx
    simp [entries_noDirt h k x hx]
  unfold State.dirtyOutOf
  rw [none]
  refine ⟨fun e he x hx => ?_, rfl⟩
  rcases mem_set he with hv | he
  · rw [hv] at hx
    obtain ⟨y, -, rfl⟩ := List.mem_map.1 hx
    rfl
  · exact h e he x hx

/-- Where no TLB holds dirty state, its write-out changes no memory. -/
theorem dirtyOut_noDirt {s : State} (h : s.noDirt) : s.dirtyOut.mem = s.mem := by
  have all : ∀ (l : Map Tlb) (t : State), t.noDirt → (l.foldl (fun s e => s.dirtyOutOf e.1) t).mem = t.mem := by
    intro l
    induction l with
    | nil => exact fun _ _ => rfl
    | cons e l ih =>
      intro t ht
      obtain ⟨clean, mem⟩ := dirtyOutOf_noDirt ht e.1
      exact (ih _ clean).trans mem
  exact all s.tlbs s h

/-- The write-out of the one entry that is dirty. -/
theorem dirtyOut_single {s : State} {k : Nat} {x : TlbEntry} (h : s.tlbs = [(k, { entries := [x] })]) (hx : x.dirty = true) :
    s.dirtyOut = (s.writeDirty x).modTlb k (fun b => { b with
      entries := b.entries.map (fun y => { y with dirty := false, setter := [] }) }) := by
  have entries : (s.tlb k).entries.filter (fun t => t.dirty) = [x] := by
    simp [State.tlb, Map.getD, Map.find, h, hx]
  rw [dirtyOut_eq, h, List.foldl_cons, List.foldl_nil, State.dirtyOutOf, entries]
  rfl

/-! ### The statement -/

/-- A test for the waits on one watch entry. -/
def waitsOn (e : Nat) : WaitCond → Bool
  | .watch (some k) _ _ => k == e
  | _ => false

theorem waitsOn_false (e : Nat) (c : WaitCond) : waitsOn e c = false → match c with | .watch (some k) _ _ => k ≠ e | _ => True := by
  intro h
  cases c with
  | watch k retry va =>
    cases k with
    | none => trivial
    | some k => simpa [waitsOn] using h
  | _ => trivial

theorem watches_modCore_del (s : State) (core e : Nat) :
    Map.find ((s.modCore core (fun c => { c with watches := Map.del c.watches e })).core core).watches e = none := by
  unfold State.modCore
  unfold State.core
  dsimp only
  rw [Map.getD_set_same, Map.find_del, if_pos rfl]

/-- A watch that has fired frees its entry and ends the waits on it. -/
theorem exec_watchFire {s : State} {r : FibRef} {e : Nat} (he : s.firedWatch r = some e) : exec (.watchFire r) s =
    .next ((s.modCore (s.coreOf r.wg) (fun c => { c with watches := Map.del c.watches e })).endWaits r (waitsOn e)) := by
  have hx : exec (.watchFire r) s = execWatchFire r s := rfl
  rw [hx, execWatchFire]
  simp only [he]
  rfl

/-- After it, the entry is free, the fibre waits for it no more, and it is ready where it was parked and can issue. -/
theorem watchFire_effect {s : State} {r : FibRef} {e : Nat} (he : s.firedWatch r = some e) : ∃ t, exec (.watchFire r) s = .next t ∧
    Map.find (t.core (s.coreOf r.wg)).watches e = none ∧
    ∀ f g, s.fib r = some f → t.fib r = some g →
      (∀ w ∈ g.waits, match w.cond with | .watch (some k) _ _ => k ≠ e | _ => True) ∧
        (g.st = f.st ∨ (f.st = .parked ∧ g.st = .ready s.tick)) := by
  refine ⟨_, exec_watchFire he, ?_, fun f g hf hg => ?_⟩
  · rw [endWaits_eq]
    exact watches_modCore_del s _ e
  · rw [endWaits_eq, fib_modFib_same ((fib_modCore s _ _ r).trans hf)] at hg
    have left : ∀ w ∈ f.waits.filter (fun w => !(waitsOn e w.cond)),
        match w.cond with | .watch (some k) _ _ => k ≠ e | _ => True := by
      intro w hw
      exact waitsOn_false e w.cond (by simpa using (List.mem_filter.1 hw).2)
    obtain rfl := Option.some.inj hg
    dsimp only
    split
    next h => exact ⟨left, .inr ⟨h.1, rfl⟩⟩
    next => exact ⟨left, .inl rfl⟩

/-- A wait that is not due for its retry stays. -/
theorem not_retryDue (tick : Nat) (c : WaitCond) : (!(retryDue tick c)) =
    match c with
    | .watch none due _ => decide (tick < due)
    | _ => true := by
  cases c with
  | watch k due va =>
    cases k with
    | none => simp [retryDue, ← decide_not]
    | some k => rfl
  | _ => rfl

/-- A slot switches from its current fibre to the one that has been ready longest. -/
theorem exec_slotSwitch {s : State} {core k : Nat} {o r : FibRef} {fo fr : Fibre} (hs : s.switches core k = true)
    (ho : (s.pslot core k).cur = some o) (hor : o ≠ r)
    (hr : longestReady ((s.readyIn core k).filter (fun e => some e.2 != some o)) = some r) (hfo : s.fib o = some fo)
    (hfr : s.fib r = some fr) (hk : k < 8) :
    ∃ t fo' fr', exec (.slotSwitch core k) s = .next t ∧ (s.forced core k = true → exec (.forcedSwitch core k) s = .next t) ∧
      (t.pslot core k).cur = some r ∧ (t.pslot core k).due = false ∧ t.fib r = some fr' ∧ t.fib o = some fo' ∧
      fr' = { fr with st := .current } ∧ (∀ b : Fin 4, (fo'.latches[b]).2 = 0) ∧ fo'.regs = fo.regs ∧ fo'.pcs = fo.pcs ∧
      (fo.st = .current → fo'.st = if fo.canIssue = true then .ready s.tick else .parked) ∧ t.mem = s.mem ∧ t.scratch = s.scratch := by
  have hslot : exec (.slotSwitch core k) s = execSlotSwitch core k s := rfl
  have hforced : exec (.forcedSwitch core k) s = execForcedSwitch core k s := rfl
  refine ⟨((s.modFib o (fun f => f.switchedOut s.tick)).modFib r (fun f => { f with st := .current })).modSlot core k
      (fun p => { p with cur := some r, due := false }), fo.switchedOut s.tick, { fr with st := .current }, ?slot, fun hf => ?forced,
    ?cur, ?due, ?incoming, ?outgoing, rfl, switchedOut_latches fo s.tick, rfl, rfl, fun hst => ?state, rfl, rfl⟩
  case slot => rw [hslot, execSlotSwitch, if_pos hs, switchSlot_eq ho hr]
  case forced => rw [hforced, execForcedSwitch, if_pos hf, switchSlot_eq ho hr]
  case cur => rw [pslot_modSlot _ _ hk]
  case due => rw [pslot_modSlot _ _ hk]
  case incoming => rw [fib_modSlot, fib_modFib_same ((fib_modFib_other _ (Ne.symm hor)).trans hfr)]
  case outgoing => rw [fib_modSlot, fib_modFib_other _ hor, fib_modFib_same hfo]
  case state => simp only [Fibre.switchedOut, hst]

/-- A trap entry takes its trap, or goes on with the one that waits. -/
theorem exec_trapEntry (s : State) (r : FibRef) (t : TrapInfo) :
    ((s.fib r).bind (·.trap) = none → exec (.trapEntry r t) s = .next (s.takeTrap r t)) ∧
      (∀ x, (s.fib r).bind (·.trap) = some x → x.waiting = true → exec (.trapEntry r t) s = .next (s.proceedTrap r)) := by
  have he : exec (.trapEntry r t) s = execTrapEntry r t s := rfl
  rw [he, execTrapEntry]
  refine ⟨fun h => ?_, fun x h hw => ?_⟩
  · simp only [h]
  · simp only [h, hw, if_true]

/-- The memory after a replica has applied a store. -/
theorem mem_applyStore {s : State} (h : Memory.wf s.mem = true) (x : ReplicaStore) (a : Nat) :
    Memory.get (s.applyStore x).mem a = match x.cells.reverse.find? (fun c => c.1 == a) with
      | some c => c.2
      | none => Memory.get s.mem a :=
  get_foldl_set h x.cells a

/-- Settles O44: each event is taken by its own lemma; the two waits that end by a test go through `endWaits_eq`. -/
theorem coreEvents : Obligations.CoreEvents := by
  unfold Obligations.CoreEvents
  refine ⟨⟨fun s r => ?ready, fun s r e he => watchFire_effect he, fun s r he => ?noWatch, fun s r => ?retry,
      fun s core k o r fo fr hs ho hor hr hfo hfr hk => exec_slotSwitch hs ho hor hr hfo hfr hk, fun s core k hs => ?noSwitch,
      fun _ _ => rfl, fun s r t => exec_trapEntry s r t⟩,
    fun s k h => exec_phaseComplete h, fun s k h => ?noPhase, fun s core line x hx => ?fill, fun _ _ _ => rfl,
    fun s n x hx => ⟨fun first wf => ?applied, fun first => ?held⟩, fun s h => ⟨_, rfl, dirtyOut_noDirt h⟩,
    fun s k x h hx => congrArg Host.Outcome.next (dirtyOut_single h hx)⟩
  case ready => exact congrArg Host.Outcome.next (endWaits_eq s r (s.waitOver r))
  case noWatch =>
    have hx : exec (.watchFire r) s = execWatchFire r s := rfl
    rw [hx, execWatchFire]
    simp only [he]
  case retry =>
    have hx : exec (.watchRetry r) s = .next (s.endWaits r (retryDue s.tick)) := rfl
    rw [hx, endWaits_eq]
    simp only [not_retryDue] <;> rfl
  case noSwitch =>
    have hslot : exec (.slotSwitch core k) s = execSlotSwitch core k s := rfl
    have hforced : exec (.forcedSwitch core k) s = execForcedSwitch core k s := rfl
    have unforced : s.forced core k ≠ true := fun h => Bool.false_ne_true (hs.symm.trans (switches_of_forced h))
    rw [hslot, hforced, execSlotSwitch, execForcedSwitch, if_neg unforced, if_neg (by simp [hs])]
    exact ⟨rfl, rfl⟩
  case noPhase =>
    have he : exec (.barrierPhaseComplete k) s = execBarrierPhaseComplete k s := rfl
    rw [he, execBarrierPhaseComplete, if_neg (by simp [h])]
  case fill =>
    have he : exec (.mergingFill core line) s = execMergingFill core line s := rfl
    rw [he, execMergingFill, State.onLines, hx, List.foldl_cons, List.foldl_nil]
  case applied =>
    refine ⟨({ s with replicas := s.replicas.eraseIdx n } : State).applyStore x, ?_, rfl, mem_applyStore wf x, rfl⟩
    rw [exec_replicaApply hx, (olderStore_iff s n x).2 first]
    rfl
  case held =>
    have older : (s.replicas.take n).any (·.follows x) = true := by
      rw [← Bool.not_eq_false]
      exact fun h => first ((olderStore_iff s n x).1 h)
    rw [exec_replicaApply hx, if_pos older]

end Sys2Proof.Machine
end

/-! ## FP32 words (class 0x4: R81, R82, R143 to R146) -/

section
namespace Sys2Proof.Machine

/-- FMIN, FMAX and their number forms are one lane word (R145). -/
theorem laneWord_minMax {i : Instr} {s : State} {h : Hdr} {u isMax number : Bool} {d : Dst} {x y : Src}
    (he : exec i s = minMaxWord isMax number h u d x y s) : LaneWord i s h u d false (one x) (one y) absent (fun _ a b _ =>
      asLane (minMax .f32 isMax number (fv a) (fv b) (lo32 a).toNat (lo32 b).toNat)) :=
  laneWord_of_aluWord he

/-- A function of one operand is a lane word that rounds its value once (R144). -/
theorem laneWord_unary {i : Instr} {s : State} {h : Hdr} {u : Bool} {d : Dst} {x : Src} {g : Val → Res}
    (he : exec i s = unaryWord g h u d x s) :
    LaneWord i s h u d false (one x) absent absent (fun _ a _ _ => asLane (g (fv a))) :=
  laneWord_of_aluWord he

/-- Settles O11: the functions of one operand and the minima and maxima each share a shape, FCMP decides a predicate, and the other
words are lane words as they stand. -/
theorem floatWords : Obligations.FloatWords := by
  unfold Obligations.FloatWords
  refine ⟨fun s h u sat d x y z rnd => ⟨?fadd, ?fsub, ?fmul, ?ffma, ?fdiv, ?fscale⟩,
    fun s h u d x rnd => ⟨?fsqrt, ?frcp, ?frsq, ?fexp2, ?flog2, ?fsin, ?fcos, ?ftanh⟩,
    fun s h u d x y => ⟨?fmin, ?fmax, ?fminn, ?fmaxn, fun p cc => ?fcmp, ?fclass, ?fabs, ?fneg⟩⟩
  case fsqrt | frcp | frsq | fexp2 | flog2 | fsin | fcos | ftanh => exact laneWord_unary rfl
  case fmin | fmax | fminn | fmaxn => exact laneWord_minMax rfl
  case fcmp => exact predWord_of rfl
  case fadd | fsub | fmul | ffma | fdiv | fscale | fclass | fabs | fneg => exact laneWord_of_aluWord rfl

end Sys2Proof.Machine
end

/-! ## System words (R83, R393, R407, R410) -/

section
namespace Sys2Proof.Machine

/-! ### SETS -/

/-- The write of a special register, by its number: a write to any other number changes nothing (R66, R83, R85, R225). -/
theorem setSpecial_eq (f : Fibre) (sr : BitVec 8) (y : Word) : f.setSpecial sr.toNat y =
    if sr = 0x02 then { f with undefRead := f.undefRead && !(y.getLsbD 31) }
    else if sr = 0x09 then { f with fpf := y.setWidth 6 }
    else if sr = 0x0A then { f with fp4x := y.setWidth 8 }
    else if sr = 0x10 then { f with spmask := f.spmask &&& ~~~y } else f := by
  unfold Fibre.setSpecial
  split
  case h_1 h =>
    obtain rfl : sr = 0x02 := BitVec.eq_of_toNat_eq h
    rfl
  case h_2 h =>
    obtain rfl : sr = 0x09 := BitVec.eq_of_toNat_eq h
    rfl
  case h_3 h =>
    obtain rfl : sr = 0x0A := BitVec.eq_of_toNat_eq h
    rfl
  case h_4 h =>
    obtain rfl : sr = 0x10 := BitVec.eq_of_toNat_eq h
    rfl
  case h_5 h2 h9 hA h10 =>
    rw [if_neg fun e => h2 (congrArg BitVec.toNat e), if_neg fun e => h9 (congrArg BitVec.toNat e),
      if_neg fun e => hA (congrArg BitVec.toNat e), if_neg fun e => h10 (congrArg BitVec.toNat e)]

/-- A source's word in the lowest active lane, read as a number and put back. -/
theorem ofNat_low32 (s : State) (a : Act) (x : Src) : BitVec.ofNat 32 (s.low32 a x) = s.srcLane a.ref x a.low := by
  rw [State.low32, BitVec.ofNat_toNat, BitVec.setWidth_eq]

/-- SETS writes its register; for s.fpf it waits for the fibre's operations of the array first (R83). -/
theorem exec_sets (h : Hdr) (sr : BitVec 8) (x : Src) (s : State) : exec (.sets h sr x) s =
    onceWord h [(x, 1)] [] s fun a b =>
      let put (v : State) : Out := .done (v.modFib a.ref (fun f => f.setSpecial sr.toNat (b.srcLane a.ref x a.low)))
      if sr = 0x09 then afterOwn a b put else put b := by
  have he : exec (.sets h sr x) s = execSets h sr x s := rfl
  rw [he, execSets]
  simp only [ofNat_low32, beq_iff_eq]

/-- A word waits for the operations of the array that its fibre has issued (R83, R187). -/
theorem afterOwn_busy {a : Act} {b : State} {k : State → Out} (h : b.arrayBusy a.ref .fibre = true) :
    afterOwn a b k = .hold b a.group (.array .fibre) false := if_pos h

/-! ### Words of trap mode -/

/-- In trap mode a word that only trap mode allows runs as any other (R410). -/
theorem unlessIllegal_inTrap {h : Hdr} {ends : Bool} {reads last : List Nat} {sub pj : Nat} {s : State} {body : Act → State → Out}
    (ht : ∀ c, s.cur = some c → s.inTrap c.ref = true) :
    unlessIllegal h sub (fun r => !(s.inTrap r)) s (runWord h ends reads last pj s body) = runWord h ends reads last pj s body := by
  cases hc : s.cur with
  | none => simp [unlessIllegal, runWord, hc]
  | some c =>
    obtain ⟨f, hf⟩ := fib_of_inTrap (ht c hc)
    exact unlessIllegal_legal hc hf (by simp [ht c hc])

/-- Settles O40: SETS, YCHK and ECNT act once as their bodies say (that YCHK rounds the remaining time up is the model's choice, log
entry 15); in trap mode so do the forms of LOGRD. -/
theorem systemWords : Obligations.SystemWords := by
  unfold Obligations.SystemWords
  intro s h d sr x k w n inTrap frame plain
  refine ⟨?sets, ?setsWaits, ?ychk, ?ecnt, fun ht => ?ent, fun ht => ?g, fun ht => ?put⟩
  case sets =>
    refine onceDoes_of_onceWord (exec_sets h sr x s) fun a b free => ?_
    simp only [setSpecial_eq]
    split
    next hsr => exact afterOwn_free (free hsr)
    next => rfl
  case setsWaits => exact waits_of_onceWord (exec_sets h 0x09 x s) fun a b busy => (if_pos rfl).trans (afterOwn_busy busy)
  case ychk => exact onceDoes_of_onceWord rfl fun _ _ _ => rfl
  case ecnt =>
    have he : exec (.ecnt h d) s = execEcnt h d s := rfl
    unfold execEcnt at he
    exact onceDoes_of_onceWord he fun a b free => if_neg (by simp [free])
  case ent =>
    refine onceDoes_of_onceWord (unlessIllegal_inTrap ht) fun a b _ => ?_
    cases (b.fib a.ref).bind (fun f => Map.find f.log k.toNat) <;> rfl
  case g => exact onceDoes_of_onceWord (unlessIllegal_inTrap ht) fun _ _ _ => rfl
  case put =>
    refine does_of_runWord (unlessIllegal_inTrap ht) fun a b ⟨sources, room⟩ => ?_
    have room' : (b.setAside a.ref).writeFault a.ref [n.toNat] = none := room
    rw [sources, room']
    rfl

end Sys2Proof.Machine
end

/-! ## Ends of threads, barriers and windows (R100, R102 to R106, R111, R113, R114, R392) -/

section
namespace Sys2Proof.Machine

/-! ### A word that acts -/

/-- Where a word acts, its fibre is there, and at least one thread is active. -/
theorem acting_of_issues {s : State} {h : Hdr} {c : Cur} {f : Fibre} (hi : Issues s h c f) (ends : Bool) (reads last : List Nat) :
    (∃ g, ((s.settleLoads c.ref).begun f h ends reads last c).fib (f.actOf h ends c).ref = some g) ∧ (f.actOf h ends c).lanes ≠ 0 := by
  obtain ⟨-, hf, -, hact, -⟩ := hi
  obtain ⟨u, rl, hg⟩ := fib_begun h ends reads last hf
  exact ⟨⟨_, hg⟩, hact⟩

section
variable {i : Instr} {s : State} {h : Hdr} {ends : Bool} {reads last : List Nat} {pj : Nat} {P : Act → State → Prop}
  {E : Act → State → State} {body : Act → State → Out}

/-- A word run by `runWord` does what its body does with the fibre that issues it. -/
theorem does_of_runWord_acting (he : exec i s = runWord h ends reads last pj s body)
    (hb : ∀ a b f, b.fib a.ref = some f → a.lanes ≠ 0 → P a b → body a b = .done (E a b)) : Does i s h ends reads last pj P E := by
  intro c f hi
  dsimp only
  intro ho hp
  obtain ⟨⟨g, hg⟩, hact⟩ := acting_of_issues hi ends reads last
  rw [he]
  exact runWord_done hi ho (hb _ _ g hg hact hp)

/-- It waits where its body does with the fibre that issues it. -/
theorem waits_of_runWord_acting {M : Act → Mask} {cond : Act → State → WaitCond} {parks : Bool}
    (he : exec i s = runWord h ends reads last pj s body)
    (hb : ∀ a b f, b.fib a.ref = some f → a.lanes ≠ 0 → P a b → body a b = .hold (E a b) (M a) (cond a b) parks) :
    Waits i s h ends reads last P E M cond parks := by
  intro c f hi
  dsimp only
  intro ho hp
  obtain ⟨⟨g, hg⟩, hact⟩ := acting_of_issues hi ends reads last
  rw [he]
  exact runWord_hold hi ho (hb _ _ g hg hact hp)

end

/-- Whether a fibre is in trap mode, by its trap frame. -/
theorem inTrap_eq {b : State} {r : FibRef} {f : Fibre} (hf : b.fib r = some f) : b.inTrap r = f.trap.isSome := by
  simp [State.inTrap, hf]

/-! ### EXIT (R105, R111, R392) -/

/-- A fibre that leaves its slot has the state it leaves for, and cleared latches. -/
theorem fib_leaveSlot {s : State} {r : FibRef} {f : Fibre} (hf : s.fib r = some f) (st : FibState) :
    (s.leaveSlot r st).fib r = some { f.clearLatches with st := st } := by
  unfold State.leaveSlot
  dsimp only
  split
  · rw [fib_modSlot, fib_modFib_same hf]
  · rw [fib_modFib_same hf]

/-- The end of threads of a fibre: its other live threads stay with it and its state stays, unless none is left: then it leaves its slot,
and waits for nothing. -/
theorem exitLanes_eq {s : State} {r : FibRef} {f : Fibre} (hf : s.fib r = some f) (m : Mask) : ∃ g : Fibre,
    g.live = f.live &&& ~~~m ∧ g.st = f.st ∧ s.exitLanes r m = if f.live &&& ~~~m = 0
      then ((s.setFib r g).leaveSlot r .exited).modFib r (fun f => { f with waits := [], trap := none }) else s.setFib r g := by
  unfold State.exitLanes
  simp only [hf, beq_iff_eq]
  refine ⟨_, ?live, ?st, rfl⟩
  case live | st =>
    cases f.trap with
    | none => rfl
    | some t => dsimp only; split <;> rfl

/-- A fibre that keeps live threads keeps its state. -/
theorem exitLanes_some {s : State} {r : FibRef} {f : Fibre} {m : Mask} (hf : s.fib r = some f) (hm : f.live &&& ~~~m ≠ 0) :
    ((s.exitLanes r m).fib r).map (fun g : Fibre => (g.live, g.st)) = some (f.live &&& ~~~m, f.st) := by
  obtain ⟨g, live, st, he⟩ := exitLanes_eq hf m
  rw [he, if_neg hm, fib_setFib_same hf, Option.map_some, live, st]

/-- A fibre whose last thread ends has exited. -/
theorem exitLanes_all {s : State} {r : FibRef} {f : Fibre} {m : Mask} (hf : s.fib r = some f) (hm : f.live &&& ~~~m = 0) :
    ((s.exitLanes r m).fib r).map (fun g : Fibre => (g.live, g.st)) = some (0, .exited) := by
  obtain ⟨g, live, -, he⟩ := exitLanes_eq hf m
  have out := fib_leaveSlot (fib_setFib_same hf g) .exited
  rw [he, if_pos hm, fib_modFib_same out, Option.map_some]
  show some (g.live, FibState.exited) = _
  rw [live, hm]

/-- Settles O15: EXIT by the two branches of its body, outside trap mode and in it (that the stores leave before the threads end is the
model's choice, log entry 27); what its end of threads leaves by `exitLanes_eq`. -/
theorem exitEndsThreads : Obligations.ExitEndsThreads := by
  unfold Obligations.ExitEndsThreads
  intro s h
  have he : exec (.exit h) s = execExit h s := rfl
  unfold execExit at he
  refine ⟨?outside, ?inside, fun r m f hf _ hm => exitLanes_some hf hm, fun r m f hf hm => exitLanes_all hf hm⟩
  case outside =>
    refine does_of_runWord he fun a b ⟨outside, leave⟩ => ?_
    rw [if_neg (by simp [outside])]
    exact afterStores_leave leave
  case inside => exact does_of_runWord he fun a b inside => if_pos inside

/-! ### Barrier words (R103 to R106, R113) -/

/-- Threads that arrive at barrier `k` (R104 to R106): outside trap mode, none of them waits in a phase that has completed or has arrived
at the one that collects, the fibre's stores can leave, and the mask of an FBAR names the fibre and is that of the earlier arrivals. -/
def Arrives (k : BarKey) (m : Option Nat) (a : Act) (b : State) : Prop :=
  b.inTrap a.ref = false ∧ a.lanes &&& b.barrierPassed a.ref k = 0 ∧ a.lanes &&& (b.barrier k).arrivedOf a.ref = 0 ∧
  b.storesLeave a.ref ∧ (∀ v, m = some v → (b.barrier k).mask = none ∨ (b.barrier k).mask = some v) ∧
  (∀ v f, m = some v → b.fib a.ref = some f → v = 0 ∨ bit v f.pos = true)

/-- The state that an arrival leaves: the barrier counts the threads, and once they are the fibre's last its release takes place. -/
def State.joined (b : State) (a : Act) (k : BarKey) (m : Option Nat) (waits : Bool) : State :=
  let x := b.barrier k
  let y := { x with
    arrived := x.arrived ++ [(a.ref, a.lanes)]
    mask := if m.isSome then m else x.mask
    waiting := if !waits || x.waiting.contains a.ref then x.waiting else x.waiting ++ [a.ref] }
  if (((b.fib a.ref).map (·.live)).getD 0) &&& ~~~(y.arrivedOf a.ref) == 0 then (b.drain a.ref).1.arrive k y a.ref
  else (b.drain a.ref).1.setBarrier k y

/-- The state of threads that pass barrier `k`: they no longer wait in its completed phases, and acquire what those released (R105). -/
def State.passedBarrier (b : State) (a : Act) (k : BarKey) : State :=
  let w := (b.takeGens a.ref k).modFib a.ref (fun f => { f with
    passed := (f.passed.map (fun e => if e.1 == k && e.2.1 < (b.barrier k).phase then (e.1, e.2.1, e.2.2 &&& ~~~a.lanes) else e)).filter
      (fun e => e.2.2 != 0) })
  w.cacheAcquire (w.agent a.ref.wg) (barrierScope k)

/-- No thread is put back where none is named. -/
theorem putBack_none (f old : Fibre) (pc : Nat) : f.putBack old 0 pc = f := by
  have keep : ∀ {α : Type} (v : Vector α 32), v.mapIdx (fun _ x => x) = v := fun v => Vector.ext (by simp)
  simp [Fibre.putBack, keep]

/-- A mask that loses no thread. -/
theorem and_not_zero (m : Mask) : m &&& ~~~0 = m := BitVec.and_allOnes

/-- The mask of an FBAR that arrives is no illegal operand (R106). -/
theorem mask_legal {k : BarKey} {m : Option Nat} {a : Act} {b : State} {f : Fibre} (ha : Arrives k m a b) (hf : b.fib a.ref = some f) :
    (m.map (fun m => (m != 0 && !(bit m f.pos)) || ((b.barrier k).mask.isSome && (b.barrier k).mask != some m))).getD false = false := by
  obtain ⟨-, -, -, -, same, names⟩ := ha
  cases m with
  | none => rfl
  | some v =>
    have named : (v != 0 && !(bit v f.pos)) = false := by
      rcases names v f rfl hf with h | h <;> simp [h]
    have agreed : ((b.barrier k).mask.isSome && (b.barrier k).mask != some v) = false := by
      rcases same v rfl with h | h <;> simp [h]
    rw [Option.map_some, Option.getD_some, named, agreed, Bool.or_false]

/-- What the body of a barrier word answers where its threads arrive, and where they all pass. -/
theorem barrierWord_eq (h : Hdr) (arv : Bool) (key : State → FibRef → BarKey) (m : Option Nat) (s : State) :
    ∃ body, barrierWord h arv key m s = runWord (atPoint h) true [] [] 6 s body ∧ ∀ a b f, b.fib a.ref = some f →
      (Arrives (key b a.ref) m a b → body a b = if arv then .done (b.joined a (key b a.ref) m false)
        else .hold ((b.joined a (key b a.ref) m true).modFib a.ref (fun f => { f with
          passed := f.passed ++ [(key b a.ref, (b.barrier (key b a.ref)).phase, a.lanes)] }))
            a.lanes (.barrier (key b a.ref) (b.barrier (key b a.ref)).phase) true) ∧
      (b.inTrap a.ref = false → a.lanes ≠ 0 → a.lanes &&& b.barrierPassed a.ref (key b a.ref) = a.lanes →
        body a b = .done (b.passedBarrier a (key b a.ref))) := by
  refine ⟨_, rfl, fun a b f hf => ⟨fun ha => ?arrives, fun outside hact passes => ?passes⟩⟩
  case arrives =>
    have legal := mask_legal ha hf
    obtain ⟨outside, pass, again, leave, -, -⟩ := ha
    rw [inTrap_eq hf] at outside
    simp only [State.barrierPassed, hf] at pass
    simp only [hf, outside, pass, again, legal, afterStores_leave leave, State.joined, and_not_zero, bne_self_eq_false,
      Bool.false_eq_true, if_false]
    cases arv <;> rfl
  case passes =>
    have acting : (a.lanes != 0) = true := by simpa using hact
    rw [inTrap_eq hf] at outside
    simp only [State.barrierPassed, hf] at passes
    simp only [hf, outside, passes, acting, BitVec.and_not_self, putBack_none, Bool.false_eq_true, if_false, if_true]
    rfl

section
variable {i : Instr} {s : State} {h : Hdr} {key : State → FibRef → BarKey} {m : Option Nat}

/-- Under `.arv` the threads that arrive go on (R105). -/
theorem does_of_arrival (he : exec i s = barrierWord h true key m s) :
    Does i s (atPoint h) true [] [] 6 (fun a b => Arrives (key b a.ref) m a b) (fun a b => b.joined a (key b a.ref) m false) := by
  obtain ⟨body, hbody, answers⟩ := barrierWord_eq h true key m s
  refine does_of_runWord_acting (he.trans hbody) fun a b f hf _ ha => ?_
  obtain ⟨arrives, -⟩ := answers a b f hf
  exact arrives ha

/-- Otherwise they park until the phase completes (R104). -/
theorem waits_of_arrival (he : exec i s = barrierWord h false key m s) :
    Waits i s (atPoint h) true [] [] (fun a b => Arrives (key b a.ref) m a b)
      (fun a b => (b.joined a (key b a.ref) m true).modFib a.ref (fun f => { f with
        passed := f.passed ++ [(key b a.ref, (b.barrier (key b a.ref)).phase, a.lanes)] }))
      (fun a => a.lanes) (fun a b => .barrier (key b a.ref) (b.barrier (key b a.ref)).phase) true := by
  obtain ⟨body, hbody, answers⟩ := barrierWord_eq h false key m s
  refine waits_of_runWord_acting (he.trans hbody) fun a b f hf _ ha => ?_
  obtain ⟨arrives, -⟩ := answers a b f hf
  exact arrives ha

/-- Threads whose phase has completed pass their barrier word, with or without `.arv`. -/
theorem does_of_passing {arv : Bool} (he : exec i s = barrierWord h arv key m s) :
    Does i s (atPoint h) true [] [] 6
      (fun a b => b.inTrap a.ref = false ∧ a.lanes &&& b.barrierPassed a.ref (key b a.ref) = a.lanes)
      (fun a b => b.passedBarrier a (key b a.ref)) := by
  obtain ⟨body, hbody, answers⟩ := barrierWord_eq h arv key m s
  refine does_of_runWord_acting (he.trans hbody) fun a b f hf hact ⟨outside, all⟩ => ?_
  obtain ⟨-, passes⟩ := answers a b f hf
  exact passes outside hact all

end

/-- In a co-resident launch GBAR is a barrier word as the others (R113). -/
theorem exec_gbar_coresident {s : State} (h : Hdr) (arv : Bool)
    (hco : ∀ c, s.cur = some c → (s.launchOf c.ref.wg).coresident = true) :
    exec (.gbar h arv) s = barrierWord h arv (fun b r => .grid (b.clusterKey r.wg).1) none s := by
  have he : exec (.gbar h arv) s = execGbar h arv s := rfl
  rw [he, execGbar]
  cases hc : s.cur with
  | none => simp [unlessIllegal, barrierWord, runWord, hc]
  | some c =>
    cases hf : s.fib c.ref with
    | none => simp [unlessIllegal, barrierWord, runWord, hc, hf, settleLoads_none hf]
    | some f => exact unlessIllegal_legal hc hf (by simp [hco c hc])

/-- A word that a rule of the state forbids is an illegal instruction, whatever its guard leaves active (R33, R42). -/
theorem unlessIllegal_illegal {h : Hdr} {sub : Nat} {bad : FibRef → Bool} {s : State} {k : Host.Outcome State Fault Refusal} {c : Cur}
    {f : Fibre} (hc : s.cur = some c) (hf : s.fib c.ref = some f) (hh : h ≠ Hdr.never) (hbad : bad c.ref = true) :
    unlessIllegal h sub bad s k = .next ((s.turned c).takeTrap c.ref (underGov
      (Act.illegal ⟨c.ref, c.lanes &&& f.guard h, c.lanes, c.pc, c.bits, ⟨0, 0, 0⟩⟩ sub) (f.govOf c.lanes))) := by
  unfold unlessIllegal
  simp only [hc, hf, hbad, bne_iff_ne.2 hh, Bool.and_self, if_true]
  rfl

/-- Settles O16: the four barrier words are one word under four keys, GBAR where its launch is co-resident. -/
theorem barriersArriveAndPass : Obligations.BarriersArriveAndPass := by
  unfold Obligations.BarriersArriveAndPass
  refine ⟨fun s h n2 n3 n1 mask => ?arrive, fun s h arv n2 n3 n1 mask => ?pass⟩
  case arrive =>
    intro arrives
    have of_word : ∀ i key m, (∀ arv, exec (i arv) s = barrierWord h arv key m s) → arrives i key m :=
      fun i key m he => ⟨does_of_arrival (he true), waits_of_arrival (he false)⟩
    clear_value arrives
    exact ⟨of_word _ _ _ fun _ => rfl, of_word _ _ _ fun _ => rfl, of_word _ _ _ fun _ => rfl,
      fun hco => of_word _ _ _ fun arv => exec_gbar_coresident h arv hco⟩
  case pass =>
    intro passes
    have of_word : ∀ i key m, exec i s = barrierWord h arv key m s → passes i key := fun i key m he => does_of_passing he
    clear_value passes
    refine ⟨of_word _ _ (some mask.toNat) rfl, of_word _ _ none rfl, of_word _ _ none rfl,
      fun hco => of_word _ _ none (exec_gbar_coresident h arv hco), fun c f hc hf hh hco => ?illegal⟩
    have he : exec (.gbar h arv) s = execGbar h arv s := rfl
    rw [he, execGbar]
    exact unlessIllegal_illegal hc hf hh (by simp [hco])

/-! ### WREL and WACQ (R100, R102, R114) -/

/-- A fibre that has a part of a window is there. -/
theorem fib_of_windowPart {b : State} {r : FibRef} {w : Nat} (h : (b.windowPart r w).isSome = true) : ∃ f, b.fib r = some f := by
  cases hf : b.fib r with
  | none => simp [State.windowPart, hf] at h
  | some f => exact ⟨f, rfl⟩

/-- Settles O17: each clause is a branch of its word's body, taken with the part of the window that the fibre has. -/
theorem windowHandOff : Obligations.WindowHandOff := by
  unfold Obligations.WindowHandOff
  intro s h w at' part desc pos names owed mine
  have hrel : exec (.wrel h w) s = execWrel h w s := rfl
  have hacq : exec (.wacq h w) s = execWacq h w s := rfl
  unfold execWrel at hrel
  unfold execWacq at hacq
  have found : ∀ a b, mine a b → ∃ f i p, b.fib a.ref = some f ∧ b.windowPart a.ref w.toNat = some (i, p) ∧ ¬ f.trap.isSome = true ∧
      at' a b = (i, p) ∧ pos a b = f.pos ∧ names a b = b.windowNames a.ref w.toNat p ∧ owed a b = f.owes (names a b) := by
    intro a b ⟨outside, has⟩
    obtain ⟨f, hf⟩ := fib_of_windowPart has
    obtain ⟨⟨i, p⟩, hw⟩ := Option.isSome_iff_exists.1 has
    rw [inTrap_eq hf] at outside
    have hat : at' a b = (i, p) := by simp only [at', hw, Option.getD_some]
    refine ⟨f, i, p, hf, hw, by simp [outside], hat, ?_, ?_, ?_⟩
    · simp only [pos, hf, Option.map_some, Option.getD_some]
    · simp only [names, hat]
      rfl
    · simp only [owed, hf, Option.map_some, Option.getD_some]
  refine ⟨?gives, ?owes, ?takes, ?parks⟩
  case gives =>
    refine does_of_runWord hrel fun a b ⟨has, owner, paid, leave⟩ => ?_
    obtain ⟨f, i, p, hf, hw, outside, hat, hpos, hnames, howed⟩ := found a b has
    rw [howed, hnames] at paid
    simp only [part, hat, hpos] at owner
    simp only [hf, hw, if_neg outside, owner, bne_self_eq_false, paid, Bool.false_eq_true, if_false, afterStores_leave leave, hat, hpos]
    rfl
  case owes =>
    refine waits_of_runWord hrel fun a b ⟨has, owner, unpaid⟩ => ?_
    obtain ⟨f, i, p, hf, hw, outside, hat, hpos, hnames, howed⟩ := found a b has
    rw [howed, hnames] at unpaid
    simp only [part, hat, hpos] at owner
    simp only [hf, hw, if_neg outside, owner, bne_self_eq_false, unpaid, Bool.false_eq_true, if_false, if_true, hnames]
  case takes =>
    refine does_of_runWord hacq fun a b ⟨has, full, owner⟩ => ?_
    obtain ⟨f, i, p, hf, hw, outside, hat, hpos, -, -⟩ := found a b has
    simp only [part, hat, hpos] at full owner
    simp only [hf, hw, if_neg outside, full, owner, beq_self_eq_true, Bool.and_self, if_true, hat, hpos]
    rfl
  case parks =>
    refine waits_of_runWord hacq fun a b ⟨has, untaken⟩ => ?_
    obtain ⟨f, i, p, hf, hw, outside, hat, hpos, -, -⟩ := found a b has
    simp only [part, hat, hpos] at untaken
    simp only [hf, hw, if_neg outside, Bool.and_eq_true, beq_iff_eq, if_neg untaken, hat, Option.map_some, Option.getD_some]

end Sys2Proof.Machine
end

/-! ## The task graph and launches (R86, R88, R328 to R333, R335, R338 to R341, R344, R346, R347, R387) -/

section
namespace Sys2Proof.Machine

/-! ### The task graph -/

/-- A posted decrement waits with its context's events, and otherwise reaches its node (R328, R399). -/
theorem exec_decrementArrival {s : State} {n : Nat} {p : Post} (hp : s.posts[n]? = some p) : exec (.decrementArrival n) s = .next
    (if s.eventsWait p.ctx then s else ({ s with posts := s.posts.eraseIdx n } : State).decrement p.ctx p.ref) := by
  have he : exec (.decrementArrival n) s = execDecrementArrival n s := rfl
  rw [he, execDecrementArrival]
  simp only [hp]

/-- A node that is the best entry a die can dispatch completes where it is an event node, and otherwise enters the launch queue (R333). -/
theorem exec_seedbedDispatch {s : State} {die n : Nat} {e : Entry}
    (hb : bestEntry (s.die die).sched.single (s.dispatchable die) = some e) (hn : e.work = .node n) :
    exec (.seedbedDispatch die) s = .next (if (s.node die n).kind == 0 then (s.startNode die n).nodeDone die n
      else (s.startNode die n).modSched die (fun c => { c with
        queue := c.queue ++ [⟨((s.startNode die n).die die).sched.nextSeq, (s.node die n).ctx, (s.node die n).payload, some n, none⟩]
        nextSeq := (((s.startNode die n).die die).sched.nextSeq + 1) % 2 ^ 31 })) := by
  have he : exec (.seedbedDispatch die) s = execSeedbedDispatch die s := rfl
  rw [he, execSeedbedDispatch, hb, Option.map_some, hn]

/-- The head of a launch queue whose context runs is taken from the queue and read: it ends where it is refused, and otherwise its clusters
enter the seedbeds (R338 to R340). -/
theorem exec_launchStart {s : State} {die : Nat} {r : LaunchReq} {rest : List LaunchReq} {l : Launch} {u : State}
    (hq : (s.die die).sched.queue = r :: rest) (hr : s.ctxRuns r.ctx = true)
    (hl : (s.modSched die (fun c => { c with queue := rest })).readLaunch die r = (l, u)) :
    exec (.launchStart die) s = .next (if l.status != 0 then u.endLaunch l
      else ({ u with nextLaunch := u.nextLaunch + 1, launches := Map.set u.launches u.nextLaunch l }).enterClusters u.nextLaunch) := by
  have he : exec (.launchStart die) s = execLaunchStart die s := rfl
  rw [he, execLaunchStart]
  simp only [hq, hr, hl, Bool.not_true, Bool.false_eq_true, if_false]

/-! ### Admission -/

/-- Of several cores that could act, the first in single-queue service, and otherwise any (R336; log entry 1). -/
theorem oneTaker_cons (s : State) (x : Nat × Offer × Placement) (rest : List (Nat × Offer × Placement)) :
    s.oneTaker (x :: rest) = if rest.isEmpty || (s.die (dieOf x.1)).sched.single then (some x, s)
      else ((x :: rest)[Config.pick s.free % (rest.length + 1)]?, s.draw.2) := rfl

/-- So one of them is chosen, with a free value or without. -/
theorem oneTaker_mem (s : State) {l : List (Nat × Offer × Placement)} (hl : l ≠ []) :
    ∃ x ∈ l, ∃ u, (u = s ∨ u = s.draw.2) ∧ s.oneTaker l = (some x, u) := by
  obtain ⟨x, rest, rfl⟩ := List.exists_cons_of_ne_nil hl
  rw [oneTaker_cons]
  split
  · exact ⟨x, List.mem_cons_self .., s, .inl rfl, rfl⟩
  · have inside : Config.pick s.free % (rest.length + 1) < (x :: rest).length := Nat.mod_lt _ (Nat.succ_pos _)
    exact ⟨_, List.getElem_mem inside, s.draw.2, .inr rfl, by rw [List.getElem?_eq_getElem inside]⟩

/-- The only core that could act is chosen. -/
theorem oneTaker_single (s : State) (x : Nat × Offer × Placement) : s.oneTaker [x] = (some x, s) := oneTaker_cons s x []

/-- What the chosen core takes is admitted. -/
theorem exec_workGroupAdmission {s u : State} {id : Nat} {x : Nat × Offer × Placement}
    (hx : s.oneTaker (s.takersFor id) = (some x, u)) : exec (.workGroupAdmission id) s = .next (u.admitOffer x.2.1 x.2.2) := by
  have he : exec (.workGroupAdmission id) s = execWorkGroupAdmission id s := rfl
  rw [he, execWorkGroupAdmission, hx]

/-! ### Ends -/

theorem wgs_physWrite (s : State) (pa : Nat) (l : List Byte) : (s.physWrite pa l).wgs = s.wgs := by
  unfold State.physWrite
  split <;> rfl

theorem wgs_signal (s : State) (v : Nat) : (s.signal v).wgs = s.wgs := by
  unfold State.signal
  dsimp only
  split <;> rfl

theorem wgs_readTail (s : State) (v ring tail : Nat) : (s.readTail v ring tail).wgs = s.wgs := rfl

/-- A record in a context's ring changes no work-group. -/
theorem wgs_ringAppend (s : State) (c r : Nat) (rcd : List Byte) : (s.ringAppend c r rcd).wgs = s.wgs := by
  unfold State.ringAppend
  split
  · simp only [wgs_signal, wgs_readTail, modCtx_wgs, wgs_physWrite]
  · rfl

theorem wgs_putExit (s : State) (id q : Nat) (rcd : List Byte) : (s.putExit id q rcd).wgs = s.wgs := by
  unfold State.putExit
  split
  · rfl
  · exact wgs_ringAppend s _ 1 rcd

theorem wgs_keepVersions (s : State) (g keep : Nat) : (s.keepVersions g keep).wgs = s.wgs := by
  unfold State.keepVersions
  split <;> rfl

/-- A work-group that is removed is the only one that goes. -/
theorem wgs_removeWg (s : State) (g : Nat) : (s.removeWg g).wgs = Map.del s.wgs g :=
  congrArg (fun m => Map.del m g) (wgs_keepVersions s g 0)

/-- A work-group that has not ended stays as it is. -/
theorem endWg_running {s : State} {g : Nat} (h : s.wgEnded g = false) : s.endWg g = s := by
  unfold State.endWg
  split
  · rfl
  · simp [h]

/-- A work-group that has ended leaves the package, and the others stay. -/
theorem wgs_endWg {s : State} {g : Nat} (h : s.wgEnded g = true) : (s.endWg g).wgs = Map.del s.wgs g := by
  unfold State.endWg
  cases hw : Map.find s.wgs g with
  | none => simp [State.wgEnded, hw] at h
  | some w =>
    simp only [h, Bool.not_true, Bool.false_eq_true, if_false]
    have recorded : ∀ (p : Bool) (rcd : List Byte),
        (if p then (s.removeWg g).putExit w.launch w.cluster rcd else s.removeWg g).wgs = Map.del s.wgs g := by
      intro p rcd
      split
      · exact (wgs_putExit _ _ _ _).trans (wgs_removeWg s g)
      · exact wgs_removeWg s g
    split
    · exact recorded _ _
    · split
      · exact recorded _ _
      · exact recorded _ _

/-- The next cluster of a deterministic launch retires: its exit records are written, and its work-groups count (R341, R344). -/
theorem exec_clusterRetire {s : State} {id : Nat} {l : Launch} {q d : Nat} (hl : Map.find s.launches id = some l)
    (hr : l.canRetire = true) (ho : l.order[l.retiredTo]? = some (q, d)) : exec (.clusterRetire id) s = .next
      (((Map.getD l.held q []).foldl (fun u r => u.ringAppend l.ctx 1 r) s).modLaunch id (fun x => { x with
        retiredTo := x.retiredTo + 1, held := Map.del x.held q
        wgsDone := x.wgsDone + (x.cluster -
          ((Map.getD l.held q []).filter (fun r => leNat (r.take 4) / 2 ^ 8 % 2 ^ 2 == 2)).length) })) := by
  have he : exec (.clusterRetire id) s = execClusterRetire id s := rfl
  rw [he, execClusterRetire]
  simp only [hl, ho, hr, Bool.not_true, Bool.false_eq_true, if_false]
  rfl

/-- It stays where its cluster has not ended. -/
theorem exec_clusterRetire_held {s : State} {id : Nat} {l : Launch} (hl : Map.find s.launches id = some l) (hr : l.canRetire = false) :
    exec (.clusterRetire id) s = .next s := by
  have he : exec (.clusterRetire id) s = execClusterRetire id s := rfl
  rw [he, execClusterRetire]
  simp only [hl]
  cases l.order[l.retiredTo]? with
  | none => rfl
  | some e => simp only [hr, Bool.not_false, if_true]

/-- A launch closes where it has nothing left to run (R341). -/
theorem exec_launchComplete {s : State} {id : Nat} {l : Launch} (hl : Map.find s.launches id = some l) :
    exec (.launchComplete id) s = .next (if s.launchOver id l then s.closeLaunch id else s) := by
  have he : exec (.launchComplete id) s = execLaunchComplete id s := rfl
  rw [he, execLaunchComplete]
  simp only [hl]

/-! ### Relaunches (R387) -/

/-- The work-groups of one extent start again together, each cluster where the plan says. -/
theorem exec_relaunch {s : State} {ctx : Nat} {ps : List (Nat × Placement)} {x : AgainWg} {rest : List AgainWg}
    (hr : s.canRelaunch ctx = true) (hg : s.againGroup ctx = x :: rest) (hp : s.againPlan (x :: rest) = some ps) :
    exec (.relaunch ctx) s = .next
      ((ps.foldl (fun (u : State) (e : Nat × Placement) => u.admitCluster x.launch e.1
        (((x :: rest).filter (fun y => y.cluster == e.1)).map (fun y => (y.pos, y.attempt, y.forced))) e.2)
        (s.modCtx ctx (fun c => { c with again := c.again.filter (fun y => !((x :: rest).contains y)) }))).modLaunch x.launch (fun l =>
          { l with relaunches := l.relaunches + (rest.length + 1) })) := by
  have he : exec (.relaunch ctx) s = execRelaunch ctx s := rfl
  rw [he, execRelaunch, if_pos hr]
  simp only [hg, hp]
  rfl

/-! ### Lane tasks (R346, R347) -/

/-- The pool that a gather names, by its cluster. -/
theorem exec_laneTaskGather (s : State) (die cluster : Nat) {pool : Option Nat} (hp : poolNamed die cluster = pool) :
    (∀ g, s.badGroup die pool = some g → exec (.laneTaskGather die cluster) s = .next (s.dropTasks die g)) ∧
    (s.badGroup die pool = none → s.takersFrom die pool = [] → exec (.laneTaskGather die cluster) s = .next s) ∧
    (∀ core o c slots rest base e t more, s.badGroup die pool = none → s.takersFrom die pool = [(core, o, (c, slots) :: rest, base)] →
      o.tasks = (e, t) :: more →
        exec (.laneTaskGather die cluster) s = .next ((s.laneKernel o.die t o.cls).2.gatherOn core o slots base)) := by
  have he : exec (.laneTaskGather die cluster) s = execLaneTaskGather die cluster s := rfl
  rw [he, execLaneTaskGather, hp]
  refine ⟨fun g hb => ?drops, fun hb ht => ?idle, fun core o c slots rest base e t more hb ht ho => ?gathers⟩
  case drops => rw [hb]
  case idle =>
    rw [hb, ht]
    rfl
  case gathers =>
    rw [hb, ht]
    simp only [oneTaker_single, ho, List.head?_cons]

/-- Settles O48: each step by the lemma about its event; where nothing is due, by the branch that leaves the state as it is. -/
theorem launchesProceed : Obligations.LaunchesProceed := by
  unfold Obligations.LaunchesProceed
  refine ⟨fun s n p hp => ⟨fun hw => ?waits, fun hw => ?arrives⟩, fun s die node => ⟨fun hn => ?finished, fun hn => ?unfinished⟩,
    fun s die n e hb hn => ⟨fun hk => ?event, fun hk => ?launch⟩,
    fun s die => ⟨fun hq => ?noRequest, fun r rest l u hq hr hl => ⟨fun hst => ?refused, fun hst => ?starts⟩⟩,
    fun s id => ⟨fun ht => ?noTaker, fun core o p ht => ⟨fun hp => ?cluster, fun ps hp => ?coresident⟩, fun ht => ?taker⟩,
    fun s g => ⟨fun hg => congrArg Host.Outcome.next (endWg_running hg), fun hg => ⟨s.endWg g, rfl, ?gone, fun k hk => ?others⟩⟩,
    fun s id l hl => ⟨exec_clusterRetire_held hl, fun q d hr ho => exec_clusterRetire hl hr ho, fun ho => ?closes, fun ho => ?goesOn⟩,
    fun s ctx => ⟨fun hr => ?noRelaunch, fun ps x rest hr hg hp => exec_relaunch hr hg hp⟩,
    fun s die cluster => exec_laneTaskGather s die cluster rfl⟩
  case waits => rw [exec_decrementArrival hp, if_pos hw]
  case arrives => rw [exec_decrementArrival hp, if_neg (by simp [hw])]
  case finished => exact congrArg Host.Outcome.next (if_pos (by simpa using hn))
  case unfinished => exact congrArg Host.Outcome.next (if_neg (by simpa using hn))
  case event => rw [exec_seedbedDispatch hb hn, if_pos (by simp [hk])]
  case launch => rw [exec_seedbedDispatch hb hn, if_neg (by simpa using hk)]
  case noRequest =>
    have he : exec (.launchStart die) s = execLaunchStart die s := rfl
    rw [he, execLaunchStart, hq]
  case refused => rw [exec_launchStart hq hr hl, if_pos (by simpa using hst)]
  case starts => rw [exec_launchStart hq hr hl, if_neg (by simp [hst])]
  case noTaker =>
    have he : exec (.workGroupAdmission id) s = execWorkGroupAdmission id s := rfl
    rw [he, execWorkGroupAdmission, ht]
    rfl
  case cluster =>
    rw [exec_workGroupAdmission ((congrArg s.oneTaker ht).trans (oneTaker_single s _)), State.admitOffer]
    simp only [hp]
  case coresident =>
    rw [exec_workGroupAdmission ((congrArg s.oneTaker ht).trans (oneTaker_single s _)), State.admitOffer]
    simp only [hp]
  case taker =>
    obtain ⟨x, hx, u, hu, taken⟩ := oneTaker_mem s ht
    exact ⟨x, hx, u, hu, exec_workGroupAdmission taken⟩
  case gone => rw [wgs_endWg hg, Map.find_del, if_pos rfl]
  case others => rw [wgs_endWg hg, Map.find_del, if_neg hk]
  case closes => rw [exec_launchComplete hl, if_pos ho]
  case goesOn => rw [exec_launchComplete hl, if_neg (by simp [ho])]
  case noRelaunch =>
    have he : exec (.relaunch ctx) s = execRelaunch ctx s := rfl
    rw [he, execRelaunch, if_neg (by simp [hr])]

end Sys2Proof.Machine
end

/-! ## Integer arithmetic (class 0x1: R123, R124) -/

section
namespace Sys2Proof.Machine

/-- Settles O1: each of the words is a lane word as it stands. -/
theorem integerArithmeticComputes : Obligations.IntegerArithmeticComputes := by
  unfold Obligations.IntegerArithmeticComputes
  intro s h u sgn x2 d x y z
  refine ⟨?iadd, ?isub, fun sub => ?iadds, ?imin, ?imax, fun sat => ?iabs, fun sat => ?ineg, ?mulLow, ?mulHigh, ?mulWide, ?imad,
    fun sh => ?lea⟩
  all_goals exact laneWord_of_aluWord rfl

/-- A signed value is zero where its bits are. -/
theorem sext_eq_zero {v w : Nat} : sext v w = 0 ↔ v % 2 ^ w = 0 := by
  have below := Nat.mod_lt v (Nat.two_pow_pos w)
  have cast : ((2 ^ w : Nat) : Int) = 2 ^ w := by norm_cast
  unfold sext
  dsimp only
  split <;> omega

theorem extVal_eq_zero {sgn : Bool} {w : Nat} {b : Dword} : extVal sgn w b = 0 ↔ b.toNat % 2 ^ w = 0 := by
  cases sgn with
  | true => exact sext_eq_zero
  | false => exact Int.natCast_eq_zero

section
variable {sgn : Bool} {w : Nat} {a b : Dword}

/-- Division by zero (R124). -/
theorem divRem_byZero (hb : b.toNat % 2 ^ w = 0) :
    divRem sgn w a b =
      ((if !sgn then 2 ^ w - 1 else if 0 ≤ sext a.toNat w then 2 ^ (w - 1) - 1 else -(2 ^ (w - 1))), extVal sgn w a) := by
  have zero : (extVal sgn w b == 0) = true := beq_iff_eq.2 (extVal_eq_zero.2 hb)
  unfold divRem
  cases sgn with
  | true => exact if_pos zero
  | false => exact if_pos zero

/-- The quotient that does not fit (R124). -/
theorem divRem_overflow (ha : sext a.toNat w = -(2 ^ (w - 1))) (hb : sext b.toNat w = -1) :
    divRem true w a b = (-(2 ^ (w - 1)), 0) := by
  have nonzero : ¬ (extVal true w b == 0) = true := by
    rw [show extVal true w b = -1 from hb]; decide
  have overflows : (true && extVal true w a == -(2 ^ (w - 1)) && extVal true w b == -1) = true := by
    simp [extVal, ha, hb]
  unfold divRem
  exact (if_neg nonzero).trans (if_pos overflows)

/-- Any other division truncates toward zero (R124). -/
theorem divRem_truncates (hb : b.toNat % 2 ^ w ≠ 0)
    (ho : ¬ (sgn = true ∧ sext a.toNat w = -(2 ^ (w - 1)) ∧ sext b.toNat w = -1)) :
    divRem sgn w a b = ((extVal sgn w a).tdiv (extVal sgn w b),
      extVal sgn w a - (extVal sgn w a).tdiv (extVal sgn w b) * extVal sgn w b) := by
  have nonzero : ¬ (extVal sgn w b == 0) = true := fun h => hb (extVal_eq_zero.1 (beq_iff_eq.1 h))
  have fits : ¬ (sgn && extVal sgn w a == -(2 ^ (w - 1)) && extVal sgn w b == -1) = true := by
    cases sgn with
    | true => simpa [extVal] using ho
    | false => exact Bool.false_ne_true
  unfold divRem
  exact (if_neg nonzero).trans (if_neg fits)

end

/-- Settles O3: the quotient and the remainder are those of `divRem`, in each of its three cases. -/
theorem divisionTruncates : Obligations.DivisionTruncates := by
  unfold Obligations.DivisionTruncates
  intro s h u sgn x2 d x y w q r
  have divRem_eq : ∀ a b, divRem sgn w a b = (q a b, r a b) := by
    intro a b
    by_cases hb : b.toNat % 2 ^ w = 0
    · simp only [q, r, divRem_byZero hb, if_pos hb]
    · by_cases ho : sgn = true ∧ sext a.toNat w = -(2 ^ (w - 1)) ∧ sext b.toNat w = -1
      · obtain ⟨rfl, ha, hm⟩ := ho
        simp only [q, r, divRem_overflow ha hm, if_neg hb, ha, hm, and_self, if_true]
      · simp only [q, r, divRem_truncates hb ho, if_neg hb, if_neg ho]
  have hq : q = fun a b => (divRem sgn w a b).1 := by funext a b; rw [divRem_eq]
  have hr : r = fun a b => (divRem sgn w a b).2 := by funext a b; rw [divRem_eq]
  refine ⟨?idiv, ?irem⟩
  case idiv => rw [hq]; exact laneWord_of_aluWord rfl
  case irem => rw [hr]; exact laneWord_of_aluWord rfl

end Sys2Proof.Machine
end

/-! ## Logic, shifts and bit-fields (class 0x2: R126 to R128) -/

section
namespace Sys2Proof.Machine

/-- A bit of LOGIC's result is the entry of the table that the three bits name (R126). -/
theorem logicVal_getLsbD (lut : BitVec 8) (a b c : Word) {i : Nat} (hi : i < 32) : (logicVal lut a b c).getLsbD i =
    lut.getLsbD (4 * bit01 (a.getLsbD i) + 2 * bit01 (b.getLsbD i) + bit01 (c.getLsbD i)) :=
  maskOf_getLsbD (fun i => lut.getLsbD (4 * bit01 (a.getLsbD i) + 2 * bit01 (b.getLsbD i) + bit01 (c.getLsbD i))) hi

theorem shiftLeft_eq_ofNat (a : Dword) (n : Nat) : a <<< n = BitVec.ofNat 64 (a.toNat * 2 ^ n) := by
  apply BitVec.eq_of_toNat_eq
  rw [BitVec.toNat_shiftLeft, Nat.shiftLeft_eq, BitVec.toNat_ofNat]

/-- A funnel shift to the right (R127). -/
theorem funnel_right (x y n : Nat) : funnel false x y n = (y * 2 ^ 32 + x) / 2 ^ min n 32 % 2 ^ 32 := by
  simp only [funnel, Bool.false_eq_true, if_false]

/-- A funnel shift to the left (R127). -/
theorem funnel_left (x y n : Nat) : funnel true x y n = (y * 2 ^ 32 + x) * 2 ^ min n 32 / 2 ^ 32 % 2 ^ 32 := by
  simp only [funnel, if_true]

/-- Settles O4: every word is a lane word as it stands, but for SHL, which shifts where the statement multiplies, and FSH, whose two
directions are `funnel`. -/
theorem logicShiftsAndCounts : Obligations.LogicShiftsAndCounts := by
  unfold Obligations.LogicShiftsAndCounts
  refine ⟨fun s h u d x y z lut => ⟨laneWord_of_aluWord rfl, fun a b c i hi => logicVal_getLsbD lut a b c hi⟩,
    fun s h u x2 d x y z => ⟨?shl, ?shrUnsigned, ?shrSigned, ?rot, ?fshRight, ?fshLeft, ?popc, ?clz, ?ctz, ?brev⟩⟩
  case shl => simp only [← shiftLeft_eq_ofNat]; exact laneWord_of_aluWord rfl
  case fshRight => simp only [← funnel_right]; exact laneWord_of_aluWord rfl
  case fshLeft => simp only [← funnel_left]; exact laneWord_of_aluWord rfl
  all_goals exact laneWord_of_aluWord rfl

/-- The position and width of a bit-field operand (R128). -/
theorem fieldOf_eq (y : Nat) : fieldOf y = (min (y % 2 ^ 8) 32, min (y / 2 ^ 8 % 2 ^ 8) 32) := by
  simp only [fieldOf, bits, pow_zero, Nat.div_one]

/-- A signed bit-field; one of width 0 is 0 (R128). -/
theorem bfxVal_signed (x y : Nat) : bfxVal true x y = if (fieldOf y).2 = 0 then 0 else
    ofIntMod 32 (sext (x / 2 ^ (fieldOf y).1 % 2 ^ (fieldOf y).2) (fieldOf y).2) := by
  unfold bfxVal
  by_cases hw : (fieldOf y).2 = 0
  · simp [hw, Nat.mod_one]
  · simp [hw]

/-- Settles O5: the three words are lane words on the field that `fieldOf` reads from B. -/
theorem bitFieldsExtractAndInsert : Obligations.BitFieldsExtractAndInsert := by
  unfold Obligations.BitFieldsExtractAndInsert
  intro s h u d x y z p w f m
  have hp : ∀ b, p b = (fieldOf b.toNat).1 := fun b => by rw [fieldOf_eq]
  have hw : ∀ b, w b = (fieldOf b.toNat).2 := fun b => by rw [fieldOf_eq]
  refine ⟨?bfxUnsigned, ?bfxSigned, ?bfi⟩
  case bfxUnsigned => simp only [f, hp, hw]; exact laneWord_of_aluWord rfl
  case bfxSigned => simp only [f, hp, hw, ← bfxVal_signed]; exact laneWord_of_aluWord rfl
  case bfi => simp only [m, hp, hw]; exact laneWord_of_aluWord rfl

end Sys2Proof.Machine
end

/-! ## What a word checks first, and what it reads (R32, R90, R101) -/

section
namespace Sys2Proof.Machine

/-- What a word answers that checks the latches it reads and the registers it writes before it acts. -/
def unlessFault (s : State) (a : Act) (srcs : List Src) (m : Mask) (dsts : List Nat) (out : Out) : Out :=
  match s.wordFault a srcs m dsts with
  | some t => .bad t
  | none => out

section
variable {s : State} {a : Act} {srcs : List Src} {m : Mask} {dsts : List Nat} {out : Out}

theorem unlessFault_pass (h : s.wordFault a srcs m dsts = none) : unlessFault s a srcs m dsts out = out := by
  rw [unlessFault, h]

theorem unlessFault_badLatch {k : Nat} (hl : s.badLatches a.ref srcs m = some k) :
    unlessFault s a srcs m dsts out = .bad (a.operand k 1) := by
  rw [unlessFault, State.wordFault, hl]

theorem unlessFault_writeFault {e : Nat} (hl : s.badLatches a.ref srcs m = none) (hw : s.writeFault a.ref dsts = some e) :
    unlessFault s a srcs m dsts out = .bad (a.operand a.low e) := by
  rw [unlessFault, State.wordFault, hl, hw]
  rfl

end

/-- A value of a state and a word that is in the state in which the word acts what it was before the word. -/
def BegunKeeps {β : Type} (v : State → Act → β) : Prop :=
  ∀ (s : State) (f : Fibre) (c : Cur) (h : Hdr) (ends : Bool) (reads last : List Nat), s.fib c.ref = some f →
    v (s.begun f h ends reads last c) (f.actOf h ends c) = v s (f.actOf h ends c)

/-- A value that does not depend on the state. -/
theorem begunKeeps_const {β : Type} (v : Act → β) : BegunKeeps (fun _ a => v a) := fun _ _ _ _ _ _ _ _ => rfl

/-- The fibre's predicates are in a word what they were before it. -/
theorem pred_begun {s : State} {f : Fibre} {c : Cur} (h : Hdr) (ends : Bool) (reads last : List Nat) (hf : s.fib c.ref = some f) :
    ∃ g, (s.begun f h ends reads last c).fib c.ref = some g ∧ g.pred = f.pred := by
  obtain ⟨u, rl, hg⟩ := fib_begun h ends reads last hf
  exact ⟨_, hg, rfl⟩

theorem predMask_begun (p : BitVec 3) (neg : Bool) : BegunKeeps (fun s a => s.predMask a p neg) := by
  intro s f c h ends reads last hf
  obtain ⟨g, hg, hp⟩ := pred_begun h ends reads last hf
  simp only [State.predMask, actOf_ref, hg, hf, hp]

/-- A word that writes a predicate and raises no flag decides just that. -/
theorem decides_plain {s : State} {h : Hdr} {c : Cur} {f : Fibre} {reads last : List Nat} {p : BitVec 3} {pj : Nat}
    (hf : s.fib c.ref = some f) (ends : Bool) (val : Mask) (v : Nat → Bool)
    (hv : ∀ i, i < 32 → (f.acting h c).getLsbD i = true → val.getLsbD i = v i) :
    Decides (.next (((s.begun f h ends reads last c).modFib c.ref (fun g => g.setPred p (f.acting h c) val)).finish h
      (f.actOf h ends c) pj)) s (s.begun f h ends reads last c) (f.actOf h ends c) p v 0 := by
  have flags := decides_setPred (reads := reads) (last := last) (p := p) (pj := pj) hf ends val v 0 hv
  rwa [raise_zero] at flags

/-- A word that writes one register lane by lane and raises no flag computes just that. -/
theorem computes_single {s : State} {h : Hdr} {c : Cur} {f : Fibre} {reads last : List Nat} {d : Dst} {pj : Nat}
    (hf : s.fib c.ref = some f) (hact : f.acting h c ≠ 0) (hlive : c.lanes &&& f.live = c.lanes) (val : Nat → Word) (v : Nat → Dword)
    (hv : ∀ i, i < 32 → val i = (v i).setWidth 32) :
    Computes (.next (((s.begun f h false reads last c).putDst c.ref d false (f.acting h c) (lanes val) (splat 0)).finish h
      (f.actOf h false c) pj)) s (s.begun f h false reads last c) (f.actOf h false c) d false v 0 :=
  computes_plain hf hact (acting_live h hlive) (windowsHold _ _) false _ _ _ (fun i hi _ => (lane_lanes _ hi).trans (hv i hi))
    (fun pair => absurd pair Bool.false_ne_true)

/-- The lane that gives an active lane's operands is a lane. -/
theorem laneFor_lt {a : Act} (ha : a.lanes ≠ 0) (u : Bool) {i : Nat} (hi : i < 32) : a.laneFor u i < 32 := by
  cases u with
  | true => exact low_mem a ha
  | false => exact hi

/-- The low word of a number that is taken modulo 2^32. -/
theorem setWidth_ofNat_mod (n : Nat) : (BitVec.ofNat 64 (n % 2 ^ 32)).setWidth 32 = BitVec.ofNat 32 n := by
  rw [BitVec.setWidth_ofNat_of_le (by decide)]
  exact BitVec.eq_of_toNat_eq (by simp only [BitVec.toNat_ofNat, Nat.mod_mod])

end Sys2Proof.Machine
end

/-! ## Comparisons, carries and predicates (R120, R123, R132) -/

section
namespace Sys2Proof.Machine

/-- What PSET does (R132): each lane of its predicate gets the table's entry for that lane's three predicates. -/
def psetBody (u : Bool) (pd pa pb pc : BitVec 3) (lut : BitVec 8) (a : Act) (s : State) : Out :=
  match s.fib a.ref with
  | none => .done s
  | some f => .done (s.modFib a.ref (fun g => g.setPred pd a.lanes (maskOf (fun i =>
      lut.getLsbD (4 * bit01 ((f.pred pa).getLsbD (a.laneFor u i)) + 2 * bit01 ((f.pred pb).getLsbD (a.laneFor u i)) +
        bit01 ((f.pred pc).getLsbD (a.laneFor u i)))))))

theorem exec_pset (h : Hdr) (u : Bool) (pd pa pb pc : BitVec 3) (lut : BitVec 8) (s : State) :
    exec (.pset h u pd pa pb pc lut) s = runWord h false [] [] 6 s (psetBody u pd pa pb pc lut) := rfl

/-- What PMOV does (R132): its fault, or the predicates of each lane as a number. -/
def pmovBody (u : Bool) (d : Dst) (a : Act) (s : State) : Out :=
  match s.wordFault a [] 0 (dstNames d 1), s.fib a.ref with
  | some t, _ => .bad t
  | none, none => .done s
  | none, some f => .done (s.putDst a.ref d false a.lanes (lanes (fun i => BitVec.ofNat 32 (f.predBits (a.laneFor u i)))) (splat 0))

theorem exec_pmov (h : Hdr) (u : Bool) (d : Dst) (s : State) :
    exec (.pmov h u d) s = runWord h false [] [] 6 s (pmovBody u d) := rfl

section
variable {u : Bool} {d : Dst} {a : Act} {s : State}

theorem pmovBody_writeFault {e : Nat} (hw : s.writeFault a.ref (dstNames d 1) = some e) :
    pmovBody u d a s = .bad (a.operand a.low e) := by
  have fault : s.wordFault a [] 0 (dstNames d 1) = some (a.operand a.low e) := congrArg (Option.map _) hw
  rw [pmovBody, fault]

theorem pmovBody_reads {f : Fibre} (hw : s.writeFault a.ref (dstNames d 1) = none) (hf : s.fib a.ref = some f) :
    pmovBody u d a s =
      .done (s.putDst a.ref d false a.lanes (lanes (fun i => BitVec.ofNat 32 (f.predBits (a.laneFor u i)))) (splat 0)) := by
  rw [pmovBody, wordFault_none rfl hw, hf]

end

/-- The predicates of a lane as a number: p7, which is always true, counts 128 (R132). -/
theorem predBits_eq (f : Fibre) {i : Nat} (hi : i < 32) : f.predBits i =
    128 + ((List.range 7).map (fun k => bit01 ((f.pred (BitVec.ofNat 3 k)).getLsbD i) * 2 ^ k)).sum := by
  have always : (f.pred (BitVec.ofNat 3 7)).getLsbD i = true := BitVec.getLsbD_allOnes.trans (decide_eq_true hi)
  unfold Fibre.predBits
  rw [List.range_succ, List.map_append, List.sum_append, List.map_singleton, List.sum_singleton, always, Nat.add_comm]
  rfl

/-- Settles O2: ICMP is a predicate word; IADDC and PMOV.in do what their bodies do once their checks pass; PSET and PMOV read in the
word the predicates that stood before it. -/
theorem comparesCarriesAndPredicates : Obligations.ComparesCarriesAndPredicates := by
  unfold Obligations.ComparesCarriesAndPredicates
  refine ⟨fun s h u x y => ⟨fun p sgn x2 cc => ?icmp, fun d cin cneg cout => ?iaddc⟩,
    fun s h u => ⟨fun pd pa pb pc lut c fb hi => ?pset, fun d c fb hi => ?pmov, fun x mask => ?pmovIn⟩⟩
  case icmp =>
    cases cc with
    | ne => simp only [ne_eq, decide_not]; exact predWord_of rfl
    | eq | lt | le | gt | ge => exact predWord_of rfl
  case iaddc => exact does_of_runWord rfl (fun a b pass => unlessFault_pass pass)
  case pmovIn => exact does_of_runWord rfl (fun a b pass => unlessFault_pass pass)
  case pset =>
    intro a s0 v
    have ⟨_, hf, _, _, _⟩ := hi
    obtain ⟨g, hg, hp⟩ := pred_begun h false [] [] hf
    have body : psetBody u pd pa pb pc lut a (s0.begun fb h false [] [] c) =
        .done ((s0.begun fb h false [] [] c).modFib c.ref (fun f => f.setPred pd (fb.acting h c) (maskOf v))) := by
      rw [psetBody, actOf_ref, hg]
      simp only [hp]
      rfl
    rw [exec_pset, runWord_done hi rfl body]
    exact decides_plain hf false _ _ (fun i hi32 _ => maskOf_getLsbD v hi32)
  case pmov =>
    intro a s0
    have ⟨_, hf, _, hact, hlive⟩ := hi
    obtain ⟨g, hg, hp⟩ := pred_begun h false [] [] hf
    have hwrite := writeFault_begun h false [] [] hf (dstNames d 1)
    rw [exec_pmov]
    split
    case h_1 e hw => exact runWord_bad hi rfl (pmovBody_writeFault (hwrite.trans hw))
    case h_2 hw =>
      rw [runWord_done hi rfl (pmovBody_reads (hwrite.trans hw) hg)]
      refine computes_single hf hact hlive _ _ (fun i hi32 => ?_)
      rw [predBits_eq g (laneFor_lt hact u hi32), hp, BitVec.setWidth_ofNat_of_le (by decide)]

end Sys2Proof.Machine
end

/-! ## Moves and special registers (R129, R131) -/

section
namespace Sys2Proof.Machine

/-- MOVS once its register can be written: a read of s.fpf waits for the fibre's operations of the array (R83, R121). -/
def movsBody (u : Bool) (d : Dst) (sr : BitVec 8) (a : Act) (s : State) : Out :=
  (if sr == 0x09 then afterOwn a s else fun k => k s) fun s =>
    .done (s.putDst a.ref d false a.lanes
      (lanes (fun i => BitVec.ofNat 32 ((s.special a.ref sr.toNat (a.laneFor u i)).getD 0))) (splat 0))

theorem exec_movs (h : Hdr) (u : Bool) (d : Dst) (sr : BitVec 8) (s : State) :
    exec (.movs h u d sr) s = runWord h false [] [] 6 s fun a b => unlessFault b a [] 0 (dstNames d 1) (movsBody u d sr a b) := rfl

section
variable {u : Bool} {d : Dst} {sr : BitVec 8} {a : Act} {s : State}

theorem movsBody_waits (hsr : sr = 0x09) (hbusy : s.arrayBusy a.ref .fibre = true) :
    movsBody u d sr a s = .hold s a.group (.array .fibre) false := by
  rw [movsBody, if_pos (by simpa using hsr), afterOwn, if_pos hbusy]

theorem movsBody_reads (hgo : ¬ (sr = 0x09 ∧ s.arrayBusy a.ref .fibre = true)) :
    movsBody u d sr a s = .done (s.putDst a.ref d false a.lanes
      (lanes (fun i => BitVec.ofNat 32 ((s.special a.ref sr.toNat (a.laneFor u i)).getD 0))) (splat 0)) := by
  unfold movsBody
  by_cases hsr : sr = 0x09
  · rw [if_pos (by simpa using hsr), afterOwn_free (by simpa [hsr] using hgo)]
  · rw [if_neg (by simpa using hsr)]

end

/-- Settles O6: four of the words are lane words as they stand; MOVS traps, waits or reads its special register. -/
theorem movesAndSpecialRegisters : Obligations.MovesAndSpecialRegisters := by
  unfold Obligations.MovesAndSpecialRegisters
  refine ⟨fun s h u sgn x2 d x y z imm => ⟨?prmt, fun p pneg => ?sel, ?mov, ?movi⟩, fun s h u d sr c fb hi => ?movs⟩
  case prmt | sel | mov | movi => exact laneWord_of_aluWord rfl
  case movs =>
    intro a s0 b
    have ⟨_, hf, _, hact, hlive⟩ := hi
    have hwrite : b.writeFault a.ref (dstNames d 1) = s0.writeFault c.ref (dstNames d 1) := writeFault_begun h false [] [] hf _
    rw [exec_movs]
    split
    case h_1 e hw => exact runWord_bad hi rfl (unlessFault_writeFault rfl (hwrite.trans hw))
    case h_2 hw =>
      have pass : b.wordFault a [] 0 (dstNames d 1) = none := wordFault_none rfl (hwrite.trans hw)
      split
      case isTrue hwait =>
        obtain ⟨hsr, hbusy⟩ := hwait
        have waits : movsBody u d sr a b = .hold b a.group (.array .fibre) false := movsBody_waits hsr hbusy
        exact runWord_hold hi rfl ((unlessFault_pass pass).trans waits)
      case isFalse hgo =>
        have reads := movsBody_reads (u := u) (d := d) (a := a) hgo
        rw [runWord_done hi rfl ((unlessFault_pass pass).trans reads)]
        exact computes_single hf hact hlive _ _ (fun i _ => (setWidth_ofNat_mod _).symm)

end Sys2Proof.Machine
end

/-! ## Exchanges of predicates, reductions and scans (R133, R134, R136, R147 to R149) -/

section
namespace Sys2Proof.Machine

/-- An exchange that writes a predicate with a mask of what it reads decides the mask's bits. -/
theorem exchangePred_of_setPred {i : Instr} {s : State} {h : Hdr} {conv : Bool} {p : BitVec 3} {pj : Nat} {val : State → Act → Mask}
    {v : State → Act → Nat → Bool}
    (he : exec i s = exchangeWord h conv [] [] pj s fun a b => .done (b.modFib a.ref (fun f => f.setPred p a.lanes (val b a))))
    (hkeep : BegunKeeps val) (hval : ∀ b a i, i < 32 → (val b a).getLsbD i = v b a i) : ExchangePred i s h conv p v := by
  intro c fb hi hm a s0
  have ⟨_, hf, _, _, _⟩ := hi
  rw [he, exchangeWord_done hi hm rfl rfl, hkeep _ _ _ _ _ _ _ hf]
  exact decides_plain hf false _ _ (fun i hi32 _ => hval s0 a i hi32)

/-- An exchange that checks its source and its registers, puts what it reads into its destination and raises flags, computes just
that. -/
theorem exchangeWord_of_raise {i : Instr} {s : State} {h : Hdr} {conv : Bool} {d : Dst} {pair : Bool} {srcs : List Src}
    {reads last : List Nat} {pj : Nat} {lo hi : State → Act → LaneVec} {v : State → Act → Nat → Dword}
    {fl : State → Act → BitVec 6}
    (he : exec i s = exchangeWord h conv reads last pj s fun a b => unlessFault b a srcs a.lanes (dstNames d (regCount pair))
      (.done ((b.putDst a.ref d pair a.lanes (lo b a) (hi b a)).raise a.ref (fl b a))))
    (hlo : ∀ b a i, i < 32 → lane (lo b a) i = (v b a i).setWidth 32)
    (hhi : pair = true → ∀ b a i, i < 32 → lane (hi b a) i = (v b a i >>> 32).setWidth 32)
    (hv : BegunKeeps v) (hfl : BegunKeeps fl) : ExchangeWord i s h conv d pair srcs reads last v fl := by
  intro c fb hiss hmay a s0
  have ⟨_, hf, _, hact, hlive⟩ := hiss
  let b := s0.begun fb h false reads last c
  have hlatch : b.badLatches a.ref srcs a.lanes = s0.badLatches c.ref srcs a.lanes := badLatches_begun h false reads last hf _ _
  have hwrite : b.writeFault a.ref (dstNames d (regCount pair)) = s0.writeFault c.ref (dstNames d (regCount pair)) :=
    writeFault_begun h false reads last hf _
  rw [he]
  split
  case isTrue howes =>
    obtain ⟨go, hrun, -⟩ := exchangeWord_runs hiss hmay
    rw [hrun]
    exact runWord_owes hiss howes
  case isFalse howes =>
    rw [Bool.not_eq_true] at howes
    split
    case h_1 k _ hk => exact exchangeWord_bad hiss hmay howes (unlessFault_badLatch (hlatch.trans hk))
    case h_2 e hk hw => exact exchangeWord_bad hiss hmay howes (unlessFault_writeFault (hlatch.trans hk) (hwrite.trans hw))
    case h_3 hk hw =>
      rw [exchangeWord_done hiss hmay howes (unlessFault_pass (wordFault_none (hlatch.trans hk) (hwrite.trans hw))),
        ← hv _ _ _ _ _ _ _ hf, ← hfl _ _ _ _ _ _ _ hf]
      exact computes_putDst hf hact (acting_live h hlive) (windowsHold _ _) false _ _ _ _ (fun i hi32 _ => hlo b a i hi32)
        (fun hp i hi32 _ => hhi hp b a i hi32)

/-- The same for a word that raises no flag. -/
theorem exchangeWord_of_putDst {i : Instr} {s : State} {h : Hdr} {conv : Bool} {d : Dst} {pair : Bool} {srcs : List Src}
    {reads last : List Nat} {pj : Nat} {lo hi : State → Act → LaneVec} {v : State → Act → Nat → Dword}
    (he : exec i s = exchangeWord h conv reads last pj s fun a b => unlessFault b a srcs a.lanes (dstNames d (regCount pair))
      (.done (b.putDst a.ref d pair a.lanes (lo b a) (hi b a))))
    (hlo : ∀ b a i, i < 32 → lane (lo b a) i = (v b a i).setWidth 32)
    (hhi : pair = true → ∀ b a i, i < 32 → lane (hi b a) i = (v b a i >>> 32).setWidth 32) (hv : BegunKeeps v) :
    ExchangeWord i s h conv d pair srcs reads last v (fun _ _ => 0) :=
  exchangeWord_of_raise (pj := pj) (he.trans (by simp only [raise_zero])) hlo hhi hv (begunKeeps_const 0)

/-- The same for a word that writes one register. -/
theorem exchangeWord_of_putReg {i : Instr} {s : State} {h : Hdr} {conv : Bool} {d : Dst} {srcs : List Src} {reads last : List Nat}
    {pj : Nat} {lo : State → Act → LaneVec} {v : State → Act → Nat → Dword}
    (he : exec i s = exchangeWord h conv reads last pj s fun a b => unlessFault b a srcs a.lanes (dstNames d 1)
      (.done (b.putDst a.ref d false a.lanes (lo b a) (splat 0))))
    (hlo : ∀ b a i, i < 32 → lane (lo b a) i = (v b a i).setWidth 32) (hv : BegunKeeps v) :
    ExchangeWord i s h conv d false srcs reads last v (fun _ _ => 0) :=
  exchangeWord_of_putDst he hlo (fun pair => absurd pair Bool.false_ne_true) hv

/-! ### The bits of the results -/

theorem oneLane_getLsbD {i k : Nat} (hi : i < 32) : (oneLane k).getLsbD i = (i == k) := by
  unfold oneLane
  rw [← BitVec.twoPow_eq, BitVec.getLsbD_twoPow]
  by_cases h : k = i
  · simp [h, hi]
  · simp [h, Ne.symm h]

/-- The mask of all threads or of none, by a condition. -/
theorem allOrNone_getLsbD (p : Bool) {i : Nat} (hi : i < 32) : (if p then allLanes else 0).getLsbD i = p := by
  cases p with
  | true => exact BitVec.getLsbD_allOnes.trans (decide_eq_true hi)
  | false => exact BitVec.getLsbD_zero

theorem low_eq_headD (a : Act) : a.low = (lanesOf a.lanes).headD 0 := List.headD_eq_head?_getD.symm

/-- The high word of a pair. -/
theorem setWidth_append_shift (x y : Word) : ((x ++ y : BitVec (32 + 32)) >>> 32).setWidth 32 = x := by
  apply BitVec.eq_of_getLsbD_eq
  intro i hi
  rw [BitVec.getLsbD_setWidth, BitVec.getLsbD_ushiftRight, BitVec.getLsbD_append]
  simp [hi]

/-! ### The statements -/

/-- Settles O7: each word puts what it reads into its destination; the predicates and operands of a word are those before it. -/
theorem laneExchangesOfPredicates : Obligations.LaneExchangesOfPredicates := by
  unfold Obligations.LaneExchangesOfPredicates
  intro s h conv
  refine ⟨fun d p pneg cnt => ?ballot, fun pd p pneg mode => ?vote, fun pd => ?electLow, fun pd => ?electHigh,
    fun d x x2 => ?matchMask, fun d x x2 => ?matchLow⟩
  case ballot =>
    refine exchangeWord_of_putReg (lo := fun b a =>
      splat (if cnt then BitVec.ofNat 32 (maskCount (b.predMask a p pneg)) else b.predMask a p pneg)) rfl ?value ?keeps
    case value =>
      intro b a i hi
      rw [lane_splat _ hi]
      cases cnt with
      | true => exact (BitVec.setWidth_ofNat_of_le (by decide) _).symm
      | false => exact (setWidth_extended _).symm
    case keeps =>
      intro s f c h ends reads last hf
      simp only [predMask_begun p pneg s f c h ends reads last hf]
  case vote =>
    refine exchangePred_of_setPred (val := fun b a => if voteValue mode a.lanes (b.predMask a p pneg) then allLanes else 0) rfl
      ?keeps (fun b a i hi => allOrNone_getLsbD _ hi)
    intro s f c h ends reads last hf
    simp only [predMask_begun p pneg s f c h ends reads last hf]
  case electLow =>
    exact exchangePred_of_setPred rfl (begunKeeps_const _)
      (fun b a i hi => (oneLane_getLsbD hi).trans (congrArg (i == ·) (low_eq_headD a)))
  case electHigh => exact exchangePred_of_setPred rfl (begunKeeps_const _) (fun b a i hi => oneLane_getLsbD hi)
  case' matchMask => refine exchangeWord_of_putReg rfl (fun b a i hi => (lane_lanes _ hi).trans (setWidth_extended _).symm) ?_
  case' matchLow =>
    refine exchangeWord_of_putReg rfl
      (fun b a i hi => (lane_lanes _ hi).trans (BitVec.setWidth_ofNat_of_le (by decide) _).symm) ?_
  case matchMask | matchLow =>
    intro s f c h ends reads last hf
    simp only [actOf_ref, opLane_begun h ends reads last hf]

/-- What FLREDM over a tile row does (R147, R148): its fault, a row that the tile lacks, or the read that its registers are owed. -/
def flredmTileBody (d : Dst) (x : Src) (tile : BitVec 4) (max : Bool) (a : Act) (s : State) : Out :=
  match s.wordFault a [x] a.lanes (dstNames d 2), s.tile a.ref.wg tile.toNat with
  | some t, _ => .bad t
  | none, none => .bad (a.operand a.low 5)
  | none, some w =>
    match (lanesOf a.lanes).find? (fun i => w.rows.length ≤ (s.srcLane a.ref x i).toNat) with
    | some i => .bad (a.operand i 5)
    | none => .done (s.owing a (.extreme d max ((lanesOf a.lanes).map (fun i => (i, (s.srcLane a.ref x i).toNat)))) tile.toNat
        (dstNames d 2) [256 + (Dst.latch d).toNat])

theorem exec_flredmTile (h : Hdr) (d : Dst) (x : Src) (tile : BitVec 4) (max : Bool) (s : State) :
    exec (.flredmTile h d x tile max) s = runWord h false (srcNames x 1) (srcLast x 1) 9 s fun a s =>
      afterConfig a s (flredmTileBody d x tile max a) := rfl

section
variable {d : Dst} {x : Src} {tile : BitVec 4} {max : Bool} {a : Act} {s : State} {w : Tile}

theorem flredmTileBody_noTile (hw : s.wordFault a [x] a.lanes (dstNames d 2) = none) (ht : s.tile a.ref.wg tile.toNat = none) :
    flredmTileBody d x tile max a s = .bad (a.operand a.low 5) := by
  rw [flredmTileBody, hw, ht]

theorem flredmTileBody_noRow {k : Nat} (hw : s.wordFault a [x] a.lanes (dstNames d 2) = none)
    (ht : s.tile a.ref.wg tile.toNat = some w)
    (hk : (lanesOf a.lanes).find? (fun i => w.rows.length ≤ (s.srcLane a.ref x i).toNat) = some k) :
    flredmTileBody d x tile max a s = .bad (a.operand k 5) := by
  rw [flredmTileBody, hw, ht]
  simp only [hk]

theorem flredmTileBody_reads (hw : s.wordFault a [x] a.lanes (dstNames d 2) = none) (ht : s.tile a.ref.wg tile.toNat = some w)
    (hk : (lanesOf a.lanes).find? (fun i => w.rows.length ≤ (s.srcLane a.ref x i).toNat) = none) :
    flredmTileBody d x tile max a s =
      .done (s.owing a (.extreme d max ((lanesOf a.lanes).map (fun i => (i, (s.srcLane a.ref x i).toNat)))) tile.toNat
        (dstNames d 2) [256 + (Dst.latch d).toNat]) := by
  rw [flredmTileBody, hw, ht]
  simp only [hk]

end

/-- Settles O9: over the lanes each word puts what it reads into its destination; over a tile row each clause is a branch of the
word's body. -/
theorem lanesReduce : Obligations.LanesReduce := by
  unfold Obligations.LanesReduce
  refine ⟨fun s h d x sgn q conv op => ⟨?lredi, fun excl => ?lscan⟩,
    fun s h d x max q conv rnd => ⟨?flredm, ?flsum, fun tile => ⟨?tileReads, fun k => ?tileNoRow, ?noTile⟩⟩⟩
  case' lredi | lscan => refine exchangeWord_of_putReg rfl (fun b a i hi => (lane_lanes _ hi).trans (setWidth_extended _).symm) ?_
  case' flredm =>
    refine exchangeWord_of_putDst rfl (fun b a i hi => (lane_lanes _ hi).trans BitVec.setWidth_append_eq_right.symm)
      (fun _ b a i hi => (lane_lanes _ hi).trans (setWidth_append_shift _ _).symm) ?_
  case' flsum =>
    refine exchangeWord_of_raise rfl (fun b a i hi => (lane_lanes _ hi).trans (setWidth_extended _).symm)
      (fun pair => absurd pair Bool.false_ne_true) ?flsumKeeps ?flagsKeep
  case lredi | lscan | flredm | flsumKeeps | flagsKeep =>
    intro s f c h ends reads last hf
    simp only [actOf_ref, srcLane_begun h ends reads last hf]
  case tileReads =>
    refine does_of_runWord (exec_flredmTile h d x tile max s) (fun a b reads => ?_)
    obtain ⟨⟨hconfig, hw⟩, w, ht, hk⟩ := reads
    exact (afterConfig_free hconfig).trans (flredmTileBody_reads hw ht hk)
  case tileNoRow =>
    refine traps_of_runWord (exec_flredmTile h d x tile max s) (fun a b lacks => ?_)
    obtain ⟨⟨hconfig, hw⟩, w, ht, hk⟩ := lacks
    exact (afterConfig_free hconfig).trans (flredmTileBody_noRow hw ht hk)
  case noTile =>
    refine traps_of_runWord (exec_flredmTile h d x tile max s) (fun a b lacks => ?_)
    obtain ⟨⟨hconfig, hw⟩, ht⟩ := lacks
    exact (afterConfig_free hconfig).trans (flredmTileBody_noTile hw ht)

end Sys2Proof.Machine
end

/-! ## Conversions, packed halves, quantisation and bins (class 0x5: R153 to R159) -/

section
namespace Sys2Proof.Machine

/-- Settles O12: each of the words is a lane word as it stands. FCVT.wid and FUNPK decode their elements under the issuing fibre's s.fp4x
(R66), as it stands before the word. -/
theorem conversionsRound : Obligations.ConversionsRound := by
  unfold Obligations.ConversionsRound
  intro s h u sgn sat x2 d x y z rnd fmt
  refine ⟨?fcvt, ?fcvtWid, ?f2i, ?i2f, ?frnd, fun pos => ?fpack, fun idx => ?funpk⟩
  all_goals exact laneWord_of_aluWord rfl

/-! ### Words with a block exponent (R159) -/

/-- The block exponents that trap are those outside −126 to 127. -/
theorem not_binExpOk (y : Dword) : (!binExpOk y) = (decide (binExp y < -126) || decide (127 < binExp y)) := by
  simp only [binExpOk, Bool.not_and, ← decide_not, not_le]

/-- Every lane's result is in a word what its operands give before it. -/
theorem laneResults_begun (u : Bool) (x y z : Operand) (f : LaneFn) : BegunKeeps (fun s a => laneResults s a u x y z f) := by
  intro s fb c h ends reads last hf
  funext i
  simp only [laneResults, actOf_ref, opLane_begun h ends reads last hf]

/-- The lane whose block exponent traps is in a word the one before it. -/
theorem badExp_begun (u : Bool) (y : Src) : BegunKeeps (fun s a => s.badExp a u y) := by
  intro s fb c h ends reads last hf
  simp only [State.badExp, actOf_ref, opLane_begun h ends reads last hf]

/-- What a word with a block exponent answers once its latches and registers are checked: it traps with detail 9 in the lowest lane
whose exponent is out of range, or writes its results and raises their flags. -/
def binBody (u : Bool) (d : Dst) (pair : Bool) (x : Operand) (y : Src) (f : LaneFn) (a : Act) (s : State) : Out :=
  match s.badExp a u y with
  | some i => .bad (a.operand i 9)
  | none =>
    let g := laneResults s a u x (one y) absent f
    .done ((s.putDst a.ref d pair a.lanes (lanes (fun i => (g i).1.setWidth 32)) (lanes (fun i => ((g i).1 >>> 32).setWidth 32))).raise
      a.ref (flagsOf (a.readers u) g))

section
variable {u : Bool} {d : Dst} {pair : Bool} {x : Operand} {y : Src} {f : LaneFn}

theorem binWord_eq_runWord (h : Hdr) (s : State) : binWord h u d pair x y f s =
    runWord h false (x.names ++ srcNames y 1) (x.last ++ srcLast y 1) 9 s fun a s =>
      unlessFault s a [x.src, y] (a.readers u) (dstNames d (regCount pair)) (binBody u d pair x y f a s) := by
  unfold binWord unlessFault binBody
  congr 1
  funext a s
  cases s.wordFault a [x.src, y] (a.readers u) (dstNames d (regCount pair)) with
  | some t => rfl
  | none => cases s.badExp a u y <;> rfl

theorem binBody_badExp {a : Act} {s : State} {k : Nat} (hk : s.badExp a u y = some k) :
    binBody u d pair x y f a s = .bad (a.operand k 9) := by
  rw [binBody, hk]

theorem binBody_computes {a : Act} {s : State} (hk : s.badExp a u y = none) : binBody u d pair x y f a s =
    .done ((s.putDst a.ref d pair a.lanes (lanes (fun i => (laneResults s a u x (one y) absent f i).1.setWidth 32))
      (lanes (fun i => ((laneResults s a u x (one y) absent f i).1 >>> 32).setWidth 32))).raise a.ref
        (flagsOf (a.readers u) (laneResults s a u x (one y) absent f))) := by
  rw [binBody, hk]

/-- A word of the shape `binWord` is a lane word with a block exponent. -/
theorem binWord_of {i : Instr} {s : State} {h : Hdr} (he : exec i s = binWord h u d pair x y f s) :
    BinWord i s h u d pair x y f := by
  intro c fb hi a s0 bad
  have ⟨_, hf, _, hact, hlive⟩ := hi
  let b := s0.begun fb h false (x.names ++ srcNames y 1) (x.last ++ srcLast y 1) c
  have hlatch : b.badLatches a.ref [x.src, y] (a.readers u) = s0.badLatches c.ref [x.src, y] (a.readers u) :=
    badLatches_begun h false _ _ hf _ _
  have hwrite : b.writeFault a.ref (dstNames d (regCount pair)) = s0.writeFault c.ref (dstNames d (regCount pair)) :=
    writeFault_begun h false _ _ hf _
  have hexp : b.badExp a u y = (lanesOf (a.readers u)).find? bad :=
    (badExp_begun u y _ _ _ _ _ _ _ hf).trans (congrArg (fun p => (lanesOf (a.readers u)).find? p) (funext fun _ => not_binExpOk _))
  have hresults : laneResults b a u x (one y) absent f = laneResults s0 a u x (one y) absent f :=
    laneResults_begun u x (one y) absent f _ _ _ _ _ _ _ hf
  rw [he, binWord_eq_runWord]
  split
  case isTrue howes => exact runWord_owes hi howes
  case isFalse howes =>
    rw [Bool.not_eq_true] at howes
    split
    case h_1 k hk => exact runWord_bad hi howes (unlessFault_badLatch (hlatch.trans hk))
    case h_2 e hk hw => exact runWord_bad hi howes (unlessFault_writeFault (hlatch.trans hk) (hwrite.trans hw))
    case h_3 k hk hw hbad =>
      exact runWord_bad hi howes ((unlessFault_pass (wordFault_none (hlatch.trans hk) (hwrite.trans hw))).trans
        (binBody_badExp (hexp.trans hbad)))
    case h_4 hk hw hbad =>
      rw [runWord_done hi howes ((unlessFault_pass (wordFault_none (hlatch.trans hk) (hwrite.trans hw))).trans
        (binBody_computes (hexp.trans hbad))), hresults]
      exact computes_putDst hf hact (acting_live h hlive) (windowsHold _ _) false _ _ _ _ (fun i hi32 _ => lane_lanes _ hi32)
        (fun _ i hi32 _ => lane_lanes _ hi32)

end

/-- Settles O13: the packed words, the two of quantisation and BINADD are lane words as they stand; BINCV and BINFP are words with a
block exponent. -/
theorem packedHalvesQuantisationAndBins : Obligations.PackedHalvesQuantisationAndBins := by
  unfold Obligations.PackedHalvesQuantisationAndBins
  refine ⟨fun s h u sat num d x y z rnd fmt => ⟨?hadd2, ?hmul2, ?hfma2, ?hmin2, ?hmax2⟩,
    fun s h u sat fit d x y z rnd fmt => ⟨?qscale, fun pos => ?qnt, ?binadd, ?bincv, ?binfp⟩⟩
  case bincv | binfp => exact binWord_of rfl
  case hadd2 | hmul2 | hfma2 | hmin2 | hmax2 | qscale | qnt | binadd => exact laneWord_of_aluWord rfl

end Sys2Proof.Machine
end

/-! ## Matrix issue (class 0x6, MMON and the tile form of FLREDM: R160 to R190, R205) -/

section
namespace Sys2Proof.Machine

/-! ### Words that read and write tiles (R148, R176, R182 to R184, R187, R205) -/

/-- A matrix word refuses no lane where every active lane is within its bounds. -/
theorem no_lane_refused {m : Mask} {ok : Nat → Prop} {refuses : Nat → Bool} (h : ∀ i ∈ lanesOf m, ok i)
    (hok : ∀ i, ok i → refuses i = false) : (lanesOf m).find? refuses = none :=
  List.find?_eq_none.2 fun i hi => by simp [hok i (h i hi)]

/-- Settles O18: each word of a tile checks what it names and then puts one operation into the array; what the checks ask is what the
statement supposes. MSYNC asks the array only. -/
theorem tilesReadAndWritten : Obligations.TilesReadAndWritten := by
  unfold Obligations.TilesReadAndWritten
  intro s h t x y z d val
  refine ⟨fun mon => ?mzero, ?mwr, fun rnd sat fmt => ?mrd, fun ctr clr => ?mmon, fun e max => ?flredm, fun wg => ?msync⟩
  case mzero =>
    have he : exec (.mzero h t mon) s = execMzero h t mon s := rfl
    unfold execMzero at he
    refine matDoes_of_matWord he fun a b has => ?_
    rw [if_neg (by simpa [Option.isSome_iff_ne_none] using has)]
  case mwr =>
    have he : exec (.mwr h t x y z) s = execMwr h t x y z s := rfl
    unfold execMwr at he
    refine matDoes_of_matWord he fun a b ⟨pass, w, tile, inside⟩ => ?_
    have none_out : (lanesOf a.lanes).find? (fun i => w.rows.length ≤ val a b y i || 64 ≤ val a b z i) = none :=
      no_lane_refused inside fun i hi => by simpa using hi
    simp only [pass, tile, val] at none_out ⊢
    simp only [none_out]
  case mrd =>
    have he : exec (.mrd h d x y t rnd sat fmt) s = execMrd h d x y t rnd sat fmt s := rfl
    unfold execMrd at he
    refine matDoes_of_matWord he fun a b ⟨pass, w, tile, inside⟩ => ?_
    have none_out : (lanesOf a.lanes).find? (fun i => w.rows.length ≤ val a b x i || 64 < val a b y i + 32 / fmtWidth fmt ||
        val a b y i % (32 / fmtWidth fmt) != 0) = none := no_lane_refused inside fun i hi => by simpa [and_assoc] using hi
    simp only [pass, tile, val] at none_out ⊢
    simp only [none_out]
  case mmon =>
    have he : exec (.mmon h d t ctr clr) s = execMmon h d t ctr clr s := rfl
    unfold execMmon at he
    refine matDoes_of_matWord he fun a b ⟨pass, has⟩ => ?_
    obtain ⟨w, tile⟩ := Option.isSome_iff_exists.1 has
    simp only [pass, tile]
  case flredm =>
    refine does_of_runWord (exec_flredmTile h e x t max s) fun a b ⟨free, pass, w, tile, inside⟩ => ?_
    exact (afterConfig_free free).trans (flredmTileBody_reads pass tile (no_lane_refused inside fun i hi => by simpa using hi))
  case msync =>
    intro k
    have he : exec (.msync h wg) s = execMsync h wg s := rfl
    unfold execMsync at he
    exact ⟨matDoes_of_matWord he fun a b quiet => if_neg (Bool.eq_false_iff.1 quiet),
      waits_of_runWord he fun a b ⟨free, busy⟩ => (afterConfig_free free).trans (if_pos busy)⟩

/-! ### MMAQ and MMAQS (R163, R164, R171 to R173, R180) -/

/-- The check of a word that acts once, as the statements name it: no race stops the word, and its commit notes what the check says. -/
theorem onceChecked_goes {a : Act} {v : State} {l : List (Nat × Nat × Nat × Nat)} {k : State → Out}
    (log : v.logGoes a.ref (v.launchOf a.ref.wg).checked) (race : (v.onceCheck a l).isOk = true) :
    onceChecked a v l k =
      (k (v.withLog a.ref (v.launchOf a.ref.wg).checked).1).noting a.ref ((v.onceCheck a l).toOption.getD (0, none)) :=
  onceChecked_ok log race

/-- The state in which a word's quarters enter the array: their energy is charged (R407). -/
def State.chargedFor (s : State) (a : Act) (pj : Nat) : State := s.charge (s.ctxOf a.ref.wg) (pj * (quartersOf a.lanes).length)

/-- A quarter of MMAQ enters the array with its rows bound: `n` bytes of each row from register `base`, and `k` scales from register `sc`
(R163, R171). -/
def pushBound (t off base n sc scRegs k : Nat) (ctl : BitVec 32) (asc : Bool) (a : Act) (w : WSlot) (s : State) (q : Nat) : State :=
  s.pushOp (mkQuarter a s t ctl asc w (((lanesOf a.lanes).filter (fun i => i / 8 == q)).map (fun i =>
    (8 * (off + q) + i % 8, s.regBytes a.ref base (n / 4) i, (s.regBytes a.ref sc scRegs i).take k))) [])

/-- A quarter of MMAQS enters the array with the bytes named that it will read: `n` of each row, and `k` scales after them (R164, R173). -/
def pushNamed (t off n k : Nat) (ctl : BitVec 32) (asc : Bool) (a : Act) (w : WSlot) (at' : Nat → Nat) (live : Mask) (s : State)
    (q : Nat) : State :=
  s.pushRead (mkQuarter a s t ctl asc w [] (((lanesOf live).filter (fun i => i / 8 == q)).map (fun i =>
    let p := (s.aperture a.ref.wg (at' i) (n + k)).getD 0
    (8 * (off + q) + i % 8, p, n, p + n, k))))

/-- What MMAQ does once its slot has loaded (R163, R171, R172, R180): it traps without a slot, waits for room in the queue, or enters its
quarters; `push` enters one. -/
def mmaqBody (t slot off : Nat) (ctl : BitVec 32) (pj : Nat) (push : Act → WSlot → State → Nat → State) (a : Act) (s : State) : Out :=
  match s.mmaSlot a t slot off ctl with
  | none => .bad (a.operand a.low 5)
  | some w => roomFor a s (quartersOf a.lanes).length fun s => .done ((quartersOf a.lanes).foldl (push a w) (s.chargedFor a pj))

/-- The threads of MMAQS whose bytes do not stand in the aperture, aligned: they are switched off (R164, R225). -/
def State.rowsOut (v : State) (a : Act) (at' : Nat → Nat) (bytes : Nat) : Mask :=
  maskOf (fun i => a.lanes.getLsbD i && !(at' i % 128 == 0 && (v.aperture a.ref.wg (at' i) bytes).isSome))

/-- What MMAQS does once its slot has loaded (R164, R173, R180, R188): as MMAQ, with the fibre's earlier stores gone before it and its
reads checked for races; `push` enters a quarter, given where each row stands and the threads within bounds. -/
def mmaqsBody (x : Src) (bytes t slot off : Nat) (ctl : BitVec 32) (pj : Nat)
    (push : Act → WSlot → (Nat → Nat) → Mask → State → Nat → State) (a : Act) (s : State) : Out :=
  match s.wordFault a [x] a.lanes [], s.mmaSlot a t slot off ctl with
  | some e, _ => .bad e
  | none, none => .bad (a.operand a.low 5)
  | none, some w =>
    let at' (i : Nat) : Nat := (s.srcLane a.ref x i).toNat
    if s.owesAt a.ref ((lanesOf a.lanes).flatMap (fun i => s.rangeAt a.ref.wg (at' i) bytes)) then .hold s a.group .owed false
    else match s.drain a.ref with
    | (v, some e) => .older v e
    | (v, none) =>
      let out := v.rowsOut a at' bytes
      let live := a.lanes &&& ~~~out
      onceChecked a v ((lanesOf live).map (fun i => (i, apertureVa (at' i), bytes, 0))) fun v =>
        roomFor a v (quartersOf a.lanes).length fun v =>
          .done (((quartersOf a.lanes).foldl (push a w at' live) (v.chargedFor a pj)).switchOff a.ref out)

section
variable {x : Src} {bytes t slot off pj : Nat} {ctl : BitVec 32} {a : Act} {s : State}

/-- With a slot, and room in the queue, the quarters enter it (R171, R172). -/
theorem mmaqBody_queues {push : Act → WSlot → State → Nat → State} (has : (s.mmaSlot a t slot off ctl).isSome = true)
    (room : s.arrayBusy a.ref (.queue (quartersOf a.lanes).length) = false) : mmaqBody t slot off ctl pj push a s =
      .done ((quartersOf a.lanes).foldl (push a ((s.mmaSlot a t slot off ctl).getD (freshSlot [] 0))) (s.chargedFor a pj)) := by
  obtain ⟨w, found⟩ := Option.isSome_iff_exists.1 has
  rw [mmaqBody, found]
  exact roomFor_room room

/-- With a slot, and no room, the group waits for room (R172). -/
theorem mmaqBody_waits {push : Act → WSlot → State → Nat → State} (has : (s.mmaSlot a t slot off ctl).isSome = true)
    (full : s.arrayBusy a.ref (.queue (quartersOf a.lanes).length) = true) :
    mmaqBody t slot off ctl pj push a s = .hold s a.group (.array (.queue (quartersOf a.lanes).length)) false := by
  obtain ⟨w, found⟩ := Option.isSome_iff_exists.1 has
  rw [mmaqBody, found]
  exact if_pos full

/-- A tile or slot that fails the checks of R180 traps with detail 5. -/
theorem mmaqBody_noSlot {push : Act → WSlot → State → Nat → State} (lacks : s.mmaSlot a t slot off ctl = none) :
    mmaqBody t slot off ctl pj push a s = .bad (a.operand a.low 5) := by
  rw [mmaqBody, lacks]

/-- With a slot, room, no row still to be stored there, the earlier stores gone, and no race, the quarters enter the array and the threads
out of bounds are switched off (R164, R173, R188). -/
theorem mmaqsBody_queues {push : Act → WSlot → (Nat → Nat) → Mask → State → Nat → State}
    (pass : s.wordFault a [x] a.lanes [] = none) (has : (s.mmaSlot a t slot off ctl).isSome = true) :
    let at' (i : Nat) : Nat := (s.srcLane a.ref x i).toNat
    let v := (s.drain a.ref).1
    let out := v.rowsOut a at' bytes
    let accs := (lanesOf (a.lanes &&& ~~~out)).map (fun i => (i, apertureVa (at' i), bytes, 0))
    let u := (v.withLog a.ref (v.launchOf a.ref.wg).checked).1
    s.owesAt a.ref ((lanesOf a.lanes).flatMap (fun i => s.rangeAt a.ref.wg (at' i) bytes)) = false → (s.drain a.ref).2 = none →
    v.logGoes a.ref (v.launchOf a.ref.wg).checked → (v.onceCheck a accs).isOk = true →
    u.arrayBusy a.ref (.queue (quartersOf a.lanes).length) = false → mmaqsBody x bytes t slot off ctl pj push a s =
      .done ((((quartersOf a.lanes).foldl (push a ((s.mmaSlot a t slot off ctl).getD (freshSlot [] 0)) at' (a.lanes &&& ~~~out))
        (u.chargedFor a pj)).switchOff a.ref out).noteCheck a.ref ((v.onceCheck a accs).toOption.getD (0, none))) := by
  intro at' v out accs u paid leave log race room
  obtain ⟨w, found⟩ := Option.isSome_iff_exists.1 has
  have left : s.drain a.ref = (v, none) := Prod.ext rfl leave
  simp only [mmaqsBody, pass, found, left]
  refine (if_neg (Bool.eq_false_iff.1 paid)).trans ((onceChecked_goes log race).trans ?_)
  rw [roomFor_room room]
  rfl

end

/-- Settles O19: once no MCFG and no WLOAD holds it back, MMAQ does what `mmaqBody` says and MMAQS what `mmaqsBody` says; each clause is a
branch of the one or of the other. -/
theorem matrixWordsQueueQuarters : Obligations.MatrixWordsQueueQuarters := by
  unfold Obligations.MatrixWordsQueueQuarters
  intro s h t slot x asc sclast sc la lb lc wa wb wc ta tb tc rnd fa fb qoff ctl K n scRegs scNames base reads
    last i slotOf idle qs charged
  have hq : exec i s = matWord h [(x, n / 4)] scNames (if sclast then scNames else []) 0 s fun a b => afterLoad a b slot.toNat
      (mmaqBody t.toNat slot.toNat qoff.toNat ctl (quarterEnergy fa fb)
        (pushBound t.toNat qoff.toNat base n sc.toNat scRegs (K / 32) ctl asc) a) := rfl
  refine ⟨?queues, ?waits, ?traps, ?reads⟩
  case queues =>
    exact does_of_runWord hq fun a b ⟨⟨free, loaded⟩, has, room⟩ =>
      (afterConfig_free free).trans ((afterLoad_idle loaded).trans (mmaqBody_queues has room))
  case waits =>
    exact waits_of_runWord hq fun a b ⟨⟨free, loaded⟩, has, full⟩ =>
      (afterConfig_free free).trans ((afterLoad_idle loaded).trans (mmaqBody_waits has full))
  case traps =>
    exact traps_of_runWord hq fun a b ⟨⟨free, loaded⟩, lacks⟩ =>
      (afterConfig_free free).trans ((afterLoad_idle loaded).trans (mmaqBody_noSlot lacks))
  case reads =>
    intro bytes off left inside out live race ready
    have he : exec (.mmaqs h t x slot asc la lb lc wa wb wc ta tb tc rnd fa fb qoff) s = matWord h [(x, 1)] [] [] 0 s fun a b =>
      afterLoad a b slot.toNat (mmaqsBody x bytes t.toNat slot.toNat qoff.toNat ctl (quarterEnergy fa fb)
        (pushNamed t.toNat qoff.toNat n (if asc then K / 32 else 0) ctl asc) a) := rfl
    refine does_of_runWord he fun a b ⟨⟨free, loaded⟩, pass, has, paid, leave, log, ok, room⟩ => ?_
    exact (afterConfig_free free).trans ((afterLoad_idle loaded).trans
      (mmaqsBody_queues pass has paid leave log ok room))

/-! ### Tiles in the aperture and to streams (R185, R186) -/

/-- The offset in the aperture that a tile word names, modulo 2^32 (R185). -/
def State.tileOffset (s : State) (a : Act) (x : Src) (off : BitVec 32) : Nat := ((s.srcLane a.ref x a.low).toNat + off.toNat) % 2 ^ 32

section
variable {s : State} {a : Act} {x : Src} {off : BitVec 32} {align n : Nat}

/-- The base of a tile's region, through the offset that the word names. -/
theorem tileBase_eq : s.tileBase a x off align n = if s.tileOffset a x off % align = 0 then
    (s.aperture a.ref.wg (s.tileOffset a x off) n).map (fun p => (s.tileOffset a x off, p)) else none := by
  simp only [State.tileBase, beq_iff_eq]
  rfl

/-- A tile's region that is aligned and inside the aperture has its base there. -/
theorem tileBase_inside (aligned : s.tileOffset a x off % align = 0)
    (valid : (s.aperture a.ref.wg (s.tileOffset a x off) n).isSome = true) :
    s.tileBase a x off align n = some (s.tileOffset a x off, (s.aperture a.ref.wg (s.tileOffset a x off) n).getD 0) := by
  obtain ⟨p, found⟩ := Option.isSome_iff_exists.1 valid
  rw [tileBase_eq, if_pos aligned, found]
  rfl

/-- Any other region has none. -/
theorem tileBase_outside (outside : ¬ (s.tileOffset a x off % align = 0 ∧
    (s.aperture a.ref.wg (s.tileOffset a x off) n).isSome = true)) : s.tileBase a x off align n = none := by
  rw [tileBase_eq]
  split
  case isTrue aligned =>
    have invalid : s.aperture a.ref.wg (s.tileOffset a x off) n = none := by simpa [aligned] using outside
    rw [invalid]
    rfl
  case isFalse => rfl

end

/-- Settles O20: a tile's region has a base exactly where it is aligned and inside the aperture, and a handle names a stream exactly where
its operation is pending and streamed; with one the words put their operation into the array, without it they trap. -/
theorem tilesMove : Obligations.TilesMove := by
  unfold Obligations.TilesMove
  intro s h t x rnd sat fmt off o height left place race ready plain inside stream
  have hld : exec (.mldt h t x off) s = execMldt h t x off s := rfl
  have hst : exec (.mstt h t x rnd sat fmt off) s = execMstt h t x rnd sat fmt off s := rfl
  have hsend : exec (.msend h t x rnd sat fmt) s = execMsend h t x rnd sat fmt s := rfl
  unfold execMldt at hld
  unfold execMstt at hst
  unfold execMsend at hsend
  have plain_some : ∀ a b, plain a b → ∃ w f, b.wordFault a [x] (oneLane a.low) [] = none ∧ b.tile a.ref.wg t.toNat = some w ∧
      b.fib a.ref = some f ∧ height a b = w.rows.length := by
    intro a b ⟨pass, has, there⟩
    obtain ⟨w, tile⟩ := Option.isSome_iff_exists.1 has
    obtain ⟨f, hf⟩ := Option.isSome_iff_exists.1 there
    exact ⟨w, f, pass, tile, hf, by simp only [height, tile, Option.map_some, Option.getD_some]⟩
  refine ⟨?loads, ?stores, ?sends, ?loadTraps, ?storeTraps, ?sendTraps⟩
  case loads =>
    refine matDoes_of_matWord hld fun a b ⟨ok, ⟨aligned, valid⟩, paid, leave, log, checked⟩ => ?_
    obtain ⟨w, -, pass, tile, -, hheight⟩ := plain_some a b ok
    have drained : b.drain a.ref = (left a b, none) := Prod.ext rfl leave
    have base : b.tileBase a x off 128 (256 * height a b) = some (o a b, place a b) := tileBase_inside aligned valid
    simp only [pass, tile, ← hheight, base, paid, drained, Bool.false_eq_true, if_false]
    exact onceChecked_goes log checked
  case stores =>
    refine matDoes_of_matWord hst fun a b ⟨ok, aligned, valid⟩ => ?_
    obtain ⟨w, f, pass, tile, hf, hheight⟩ := plain_some a b ok
    have base := tileBase_inside aligned valid
    simp only [pass, tile, hf, ← hheight, base]
    rfl
  case sends =>
    refine matDoes_of_matWord hsend fun a b ⟨ok, op, running, pending, streams⟩ => ?_
    obtain ⟨w, -, pass, tile, -, -⟩ := plain_some a b ok
    simp only [pass, tile, State.low32, running, Option.filter_some, pending, streams, Bool.and_self, if_true]
  case loadTraps =>
    refine matTraps_of_matWord hld fun a b ⟨ok, outside⟩ => ?_
    obtain ⟨w, -, pass, tile, -, hheight⟩ := plain_some a b ok
    have base : b.tileBase a x off 128 (256 * height a b) = none := tileBase_outside outside
    simp only [pass, tile, ← hheight, base]
  case storeTraps =>
    refine matTraps_of_matWord hst fun a b ⟨ok, outside⟩ => ?_
    obtain ⟨w, f, pass, tile, hf, hheight⟩ := plain_some a b ok
    have base : b.tileBase a x off 64 (8 * fmtWidth fmt * height a b) = none := tileBase_outside outside
    simp only [pass, tile, hf, ← hheight, base]
  case sendTraps =>
    refine matTraps_of_matWord hsend fun a b ⟨ok, closed⟩ => ?_
    obtain ⟨w, -, pass, tile, -, -⟩ := plain_some a b ok
    have noStream : (b.collOp (dieOf (b.coreOf a.ref.wg)) (b.ctxOf a.ref.wg) (b.low32 a x % 4096)).filter
        (fun o => o.pending && o.desc.stream) = none := by
      refine Option.filter_eq_none_iff.2 fun op running streams => closed ⟨op, running, ?_⟩
      simpa using streams
    simp only [pass, tile, noStream]

end Sys2Proof.Machine
end

/-! ## Steps of the matrix array (R160, R169, R173 to R176, R182 to R190, R201, R202, R205) -/

section
namespace Sys2Proof.Machine

theorem exec_quarterReady (core : Nat) (s : State) : exec (.quarterReady core) s = orStay s (s.quarterReady core) := rfl
theorem exec_weightSlotLoad (core : Nat) (s : State) : exec (.weightSlotLoad core) s = orStay s (s.weightLoad core) := rfl
theorem exec_passOpen (core : Nat) (s : State) : exec (.passOpen core) s = orStay s (s.passOpen core) := rfl
theorem exec_quarterCommit (core : Nat) (s : State) : exec (.quarterCommit core) s = orStay s (s.quarterCommit core) := rfl
theorem exec_wloadComplete (core slot : Nat) (s : State) : exec (.wloadComplete core slot) s = execWloadComplete core slot s := rfl
theorem exec_wloadFault (r : FibRef) (slot : BitVec 4) (addr : Dword) (sub : Nat) (s : State) :
    exec (.wloadFault r slot addr sub) s = execWloadFault r slot addr sub s := rfl

/-- A unit that can take a step takes it. -/
theorem orStay_some {s t : State} {o : Option State} (h : o = some t) : orStay s o = .next t := by rw [orStay, h, Option.getD_some]

/-- A unit that cannot leaves the package as it is. -/
theorem orStay_none {s : State} {o : Option State} (h : o = none) : orStay s o = .next s := by rw [orStay, h, Option.getD_none]

section
variable {s : State} {core : Nat}

/-- The weights of the first quarter that the current tile does not serve go into the loading tile (R160, R175). -/
theorem weightLoad_loads {op : MatOp} {w : WSlot}
    (next : (waiting (s.core core).matq).find? (fun op => !((s.core core).btile.any (·.serves op))) = some op)
    (absent : (s.core core).ltile.any (·.serves op) = false) (slot : s.slotAt op.ref.wg op.slot = some w) :
    s.weightLoad core = some (s.modCore core (fun c => { c with ltile := some ⟨op.slot, op.version, w⟩ })) := by
  simp only [State.weightLoad, next, absent, slot, Bool.false_eq_true, if_false, Option.map_some]

/-- With no pass open, a ready quarter that the current tile serves opens one (R174). -/
theorem passOpen_current {op : MatOp} {rest : List MatOp} {b : BTile} (head : waiting (s.core core).matq = op :: rest)
    (ready : op.ready = true) (closed : (s.core core).pass = none) (current : (s.core core).btile = some b)
    (serves : b.serves op = true) : s.passOpen core = some (s.takeQuarter core op op 1 b.weights) := by
  simp [State.passOpen, head, ready, closed, current, serves]

/-- One that only the loading tile serves opens one with it as the current tile (R175). -/
theorem passOpen_loading {op : MatOp} {rest : List MatOp} {b b' : BTile} (head : waiting (s.core core).matq = op :: rest)
    (ready : op.ready = true) (closed : (s.core core).pass = none) (current : (s.core core).btile = some b)
    (other : b.serves op = false) (loading : (s.core core).ltile = some b') (serves : b'.serves op = true) : s.passOpen core =
      some ((s.modCore core (fun c => { c with btile := some b', ltile := none })).takeQuarter core op op 1 b'.weights) := by
  have filtered : (some b').filter (·.serves op) = some b' := Option.filter_some_pos serves
  simp [State.passOpen, head, ready, closed, current, other, loading, filtered]

/-- A quarter that names the weights and controls of the open pass joins it (R174). -/
theorem joins_of_same {first op : MatOp} (slot : op.slot = first.slot) (version : op.version = first.version)
    (ctl : op.ctl.toNat % 2 ^ 26 = first.ctl.toNat % 2 ^ 26) (asc : op.asc = first.asc) (soon : op.issued ≤ first.issued + 3) :
    joins first op = true := by
  simp only [joins, slot, version, ctl, asc, decide_eq_true soon, beq_self_eq_true, Bool.and_self]

/-- Such a quarter joins a pass of fewer than four quarters (R174). -/
theorem passOpen_joins {op first : MatOp} {rest : List MatOp} {n : Nat} {w : WSlot}
    (head : waiting (s.core core).matq = op :: rest) (pass : (s.core core).pass = some (first, n)) (opened : first.opened = some w)
    (room : n < 4) (joined : joins first op = true) : s.passOpen core = some (s.takeQuarter core op first (n + 1) w) := by
  simp [State.passOpen, head, pass, opened, room, joined]

/-- The oldest quarter of the array: no operation before it is a quarter, or has its number (R175). -/
theorem find_quarter {op : MatOp} {before rest : List MatOp} (quarter : op.isQuarter = true)
    (others : ∀ y ∈ before, y.num ≠ op.num ∧ y.isQuarter = false) :
    (before ++ op :: rest).find? MatOp.isQuarter = some op ∧
      (before ++ op :: rest).takeWhile (fun y => y.num != op.num) = before := by
  refine ⟨?_, ?_⟩
  · rw [List.find?_append, List.find?_eq_none.2 fun y hy => by simp [(others y hy).2], Option.none_or, List.find?_cons_of_pos quarter]
  · rw [List.takeWhile_append_of_pos fun y hy => by simp [(others y hy).1], List.takeWhile_cons_of_neg (by simp), List.append_nil]

/-- The oldest quarter commits once it is ready, its pass has opened and no earlier operation is on its tile (R169, R176). -/
theorem quarterCommit_oldest {op : MatOp} {before rest : List MatOp} (queue : (s.core core).matq = before ++ op :: rest)
    (quarter : op.isQuarter = true)
    (others : before.all (fun y => y.num != op.num && !y.isQuarter && !(y.onTile op.ref.wg op.tile)) = true)
    (ready : op.ready = true) (opened : op.opened.isSome = true) :
    s.quarterCommit core = some ((s.dropOp core op.num).commitOp op) := by
  simp only [List.all_eq_true, Bool.and_eq_true, bne_iff_ne, Bool.not_eq_true'] at others
  obtain ⟨oldest, earlier⟩ := find_quarter (rest := rest) quarter fun y hy => (others y hy).1
  have free : before.any (fun y => y.onTile op.ref.wg op.tile) = false := by simpa using fun y hy => (others y hy).2
  simp only [State.quarterCommit, State.ops, queue, oldest, earlier, ready, opened, free, Bool.not_false, Bool.and_self, if_true]

/-- The next step on tiles is that of the first operation that can take one (R176). -/
theorem tileStep_eq {op : MatOp} (first : firstFree (s.tileGoes core) [] (s.ops core) = some op) :
    s.tileStep core = some (s.tileEffect core op) := by
  rw [State.tileStep, first, Option.map_some]

/-- An array without operations can take no step. -/
theorem no_step_of_empty (empty : (s.core core).matq = []) : s.quarterReady core = none ∧ s.weightLoad core = none ∧
    s.passOpen core = none ∧ s.quarterCommit core = none ∧ s.tileStep core = none := by
  simp [State.quarterReady, State.weightLoad, State.passOpen, State.quarterCommit, State.tileStep, State.ops, empty, waiting, firstFree]

end

/-- Settles O22: each step of the array is what its unit can do, found by the search that the unit makes; the effect of an operation on its
tile is its kind's branch of `State.tileEffect`. -/
theorem arraySteps : Obligations.ArraySteps := by
  unfold Obligations.ArraySteps
  intro s core
  refine ⟨fun op next => ?ready, fun op w next absent slot => ?load, fun op rest b head ready closed current => ⟨fun serves => ?current,
      fun b' other loading serves => ?loading⟩,
    fun op rest first n w head pass opened room slot version ctl asc soon => ?join,
    fun op before rest queue quarter others ready opened => ?commit, fun empty => ?empty, fun op first => ?tile,
    fun slot g owner => ?loaded, fun r slot addr sub x q w desc names loader loading => ?fault⟩
  case ready =>
    have step : s.quarterReady core = some (s.modOpAt core op.num s.collect) := by
      rw [State.quarterReady, State.ops, next, Option.map_some]
    exact (exec_quarterReady core s).trans (orStay_some step)
  case load => exact (exec_weightSlotLoad core s).trans (orStay_some (weightLoad_loads next absent slot))
  case current => exact (exec_passOpen core s).trans (orStay_some (passOpen_current head ready closed current serves))
  case loading => exact (exec_passOpen core s).trans (orStay_some (passOpen_loading head ready closed current other loading serves))
  case join =>
    exact (exec_passOpen core s).trans
      (orStay_some (passOpen_joins head pass opened room (joins_of_same slot version ctl asc soon)))
  case commit => exact (exec_quarterCommit core s).trans (orStay_some (quarterCommit_oldest queue quarter others ready opened))
  case empty =>
    obtain ⟨hready, hload, hopen, hcommit, htile⟩ := no_step_of_empty empty
    exact ⟨orStay_none hready, orStay_none hload, orStay_none hopen, orStay_none hcommit, htile⟩
  case tile =>
    intro after rows
    rw [tileStep_eq first]
    refine ⟨fun mon kind => ?zero, fun l kind => ?write, fun kind => ?mldt, fun d fmt rnd sat places kind => ?read,
      fun d max places kind => ?extreme, fun w fmt rnd sat x rest kind => ?store⟩
    all_goals
      simp only [State.tileEffect, kind]
      rfl
  case loaded =>
    rw [exec_wloadComplete, execWloadComplete, owner]
    refine congrArg (fun done => Host.Outcome.next (s.modSlotAt g slot done)) (funext fun x => ?_)
    unfold WSlot.loadDone
    cases x.pend <;> rfl
  case fault =>
    rw [exec_wloadFault, execWloadFault]
    simp only [names, loader, loading, decide_true, if_true]

end Sys2Proof.Machine
end

/-! ## Tile configuration and weight slots (class 0x7: R195 to R204) -/

section
namespace Sys2Proof.Machine

/-! ### MCFG (R192, R195, R196) -/

/-- The tiles of a TCB stand in its low five bits (R195). -/
theorem tcbTiles_eq (v : Nat) : tcbTiles v = v % 32 := congrArg (· % 32) (Nat.div_one v)

/-- The code of their row count stands in the two bits above (R195). -/
theorem tcbRowCode_eq (v : Nat) : bits v 5 2 = v / 32 % 4 := rfl

/-- A value that is no TCB has too many tiles, a reserved row count, too many slots, or a bit set above them (R196). -/
theorem tcbOk_eq_false_iff (v : Nat) : tcbOk v = false ↔ 16 < v % 32 ∨ v / 32 % 4 = 3 ∨ 16 < v / 128 % 32 ∨ 4096 ≤ v := by
  have slots : tcbSlots v = v / 128 % 32 := rfl
  simp only [tcbOk, tcbTiles_eq, tcbRowCode_eq, slots, Bool.and_eq_false_iff, decide_eq_false_iff_not, bne_eq_false_iff_eq,
    not_le, not_lt, or_assoc]

/-- A TCB with a legal row count asks for its tiles' rows of 256 bytes each (R193). -/
theorem tcbBytes_eq {v : Nat} (legal : v / 32 % 4 ≠ 3) : tcbBytes v = v % 32 * 2 ^ (3 + v / 32 % 4) * 256 := by
  have rows : tcbRows v = 2 ^ (3 + v / 32 % 4) := by
    obtain hrows | hrows | hrows : v / 32 % 4 = 0 ∨ v / 32 % 4 = 1 ∨ v / 32 % 4 = 2 := by omega
    all_goals
      rw [tcbRows, tcbRowCode_eq, hrows]
      rfl
  rw [tcbBytes, tcbTiles_eq, rows]

/-- What a source gives does not depend on the cores or the free values. -/
theorem low32_of_wgs {s t : State} (wgs : t.wgs = s.wgs) (launches : t.launches = s.launches) (a : Act) (x : Src) :
    t.low32 a x = s.low32 a x := by
  cases x with
  | reg n b => simp only [State.low32, State.srcLane, State.reg, regOpt_of_wgs wgs launches]
  | latch b => simp only [State.low32, State.srcLane, fib_of_wgs wgs]
  | imm v => rfl

/-- The claim of an MCFG that has just issued with the TCB `v`: it has returned nothing yet, and keeps as many slots as it can (R196). -/
def State.newClaim (s : State) (a : Act) (v : Nat) : PoolClaim :=
  let keep := min (tcbSlots v) (((Map.find s.wgs a.ref.wg).map (·.wslots.length)).getD 0)
  ⟨s.draw.1, a.ref.wg, a.ref.fib, a.pc, false, keep, tcbBytes v, tcbSlots v - keep⟩

/-- The state in which such a claim stands in its core's order. -/
def State.newlyClaimed (s : State) (a : Act) (v : Nat) : State := s.draw.2.claim (s.coreOf a.ref.wg) (s.newClaim a v)

/-- The state in which a claim has returned what it does not keep, and asks the pools. -/
def State.askedFor (s : State) (a : Act) (c : PoolClaim) : State :=
  (s.giveBack a.ref.wg c.keep).modClaim (s.coreOf a.ref.wg) { c with asks := true }

/-- What MCFG does once its operand is checked: its own claim goes on, another one of the work-group is waited for, and without any it
traps or makes one. -/
def mcfgBody (x : Src) (a : Act) (s : State) : Out :=
  match s.claimOf a.ref.wg with
  | some c =>
    if c.fib == a.ref.fib && c.pc == a.pc then serveClaim a s (s.low32 a x) c else .hold s a.group (.config c.ticket) false
  | none =>
    if !(tcbOk (s.low32 a x)) then .bad (a.operand a.low 7)
    else serveClaim a (s.newlyClaimed a (s.low32 a x)) (s.low32 a x) (s.newClaim a (s.low32 a x))

theorem exec_mcfg (h : Hdr) (x : Src) (s : State) : exec (.mcfg h x) s = onceWord h [(x, 1)] [] s (mcfgBody x) := rfl

section
variable {s : State} {a : Act} {x : Src} {c : PoolClaim} {v : Nat}

/-- A claim that asks the pools and that they serve gets what it asks for. -/
theorem serveClaim_asking (asks : c.asks = true) (served : s.claimServed (s.coreOf a.ref.wg) c.ticket = true) :
    serveClaim a s v c = .done ((s.allot a.ref.wg v).unclaim (s.coreOf a.ref.wg) c.ticket) := by
  simp [serveClaim, asks, served]

/-- A claim that has not asked does so once what it waits for is over, and may be served at once. -/
theorem serveClaim_returning (asks : c.asks = false) (idle : s.claimIdle c = true)
    (served : (s.askedFor a c).claimServed (s.coreOf a.ref.wg) c.ticket = true) :
    serveClaim a s v c = .done (((s.askedFor a c).allot a.ref.wg v).unclaim (s.coreOf a.ref.wg) c.ticket) := by
  rw [State.askedFor] at served ⊢
  simp [serveClaim, asks, idle, served]

/-- Until then it waits. -/
theorem serveClaim_busy (asks : c.asks = false) (busy : s.claimIdle c = false) :
    serveClaim a s v c = .hold s a.group (.pool c.ticket) false := by
  simp [serveClaim, asks, busy]

/-- An MCFG that finds its own claim goes on with it. -/
theorem mcfgBody_mine (mine : s.claimOf a.ref.wg = some c) (fib : c.fib = a.ref.fib) (pc : c.pc = a.pc) :
    mcfgBody x a s = serveClaim a s (s.low32 a x) c := by
  simp [mcfgBody, mine, fib, pc]

/-- An MCFG that finds none makes one for its TCB. -/
theorem mcfgBody_new (free : s.claimOf a.ref.wg = none) (tcb : tcbOk (s.low32 a x) = true) :
    mcfgBody x a s = serveClaim a (s.newlyClaimed a (s.low32 a x)) (s.low32 a x) (s.newClaim a (s.low32 a x)) := by
  simp [mcfgBody, free, tcb]

/-- An MCFG of a value that is no TCB traps with detail 7. -/
theorem mcfgBody_noTcb (free : s.claimOf a.ref.wg = none) (bad : tcbOk (s.low32 a x) = false) :
    mcfgBody x a s = .bad (a.operand a.low 7) := by
  simp [mcfgBody, free, bad]

/-- A new claim keeps and asks for what its TCB's fields say. -/
theorem newClaim_eq (legal : v / 32 % 4 ≠ 3) : s.newClaim a v =
    let keep := min (v / 128 % 32) (((Map.find s.wgs a.ref.wg).map (·.wslots.length)).getD 0)
    ⟨s.draw.1, a.ref.wg, a.ref.fib, a.pc, false, keep, v % 32 * 2 ^ (3 + v / 32 % 4) * 256, v / 128 % 32 - keep⟩ := by
  rw [State.newClaim, tcbBytes_eq legal]
  rfl

/-- A claim changes no operand of its MCFG. -/
theorem low32_newlyClaimed : (s.newlyClaimed a v).low32 a x = s.low32 a x := low32_of_wgs rfl rfl a x

end

/-! ### Words that change a slot (R203) -/

/-- A word on a weight slot does what its body does with the slot it names. -/
theorem matDoes_of_slotWord {i : Instr} {s : State} {h : Hdr} {srcs : List (Src × Nat)} {m : Mask} {slot : BitVec 4}
    {P : Act → State → Prop} {E : Act → State → State} {body : Act → State → WSlot → Out} {w : WSlot}
    (he : exec i s = slotWord h srcs m slot s body)
    (hb : ∀ a b, P a b → b.wordFault a (srcs.map (·.1)) (if m == 0 then oneLane a.low else m) [] = none ∧
      b.wslot a.ref.wg slot.toNat = some w ∧ body a b w = .done (E a b)) : MatDoes i s h srcs P E := by
  unfold slotWord at he
  refine matDoes_of_matWord he fun a b hp => ?_
  obtain ⟨pass, names, does⟩ := hb a b hp
  simp only [pass, names, does]

/-! ### WLOAD (R198 to R203) -/

/-- An answer that is no error is its value. -/
theorem eq_ok_of_isOk {ε α : Type} {r : Except ε α} (h : r.isOk = true) (d : α) : r = .ok (r.toOption.getD d) := by
  cases r with
  | error e => cases h
  | ok v => rfl

/-- What WLOAD does with the descriptor `l` it has read: it is checked for races, must describe a tensor whose addresses are allowed, and
its fetch waits for what R188, R202 and R203 name; `first` is the read of the descriptor. -/
def describedFetch (phys : Nat) (first : List (Nat × Nat × Nat × Nat)) (l : List Byte) (a : Act) (s : State) : Out :=
  match s.raceCheck a (s.agent a.ref.wg) first, readTensor l with
  | .error (lane, va, rcd), _ => raceOnce a s lane va rcd
  | .ok _, none => .bad (a.operand a.low 7)
  | .ok _, some tn =>
    if !(s.tensorOk a.ref.wg tn) then .bad (a.operand a.low 7)
    else match s.fetchWait a.ref phys tn with
      | some c => .hold s a.group c false
      | none => fetchTensor a s phys l tn first

/-- What WLOAD does once no MCFG holds it back: its source, its slot and the place of its descriptor are checked, what they need is waited
for, and the descriptor is read. -/
def wloadBody (x : Src) (slot : Nat) (off : BitVec 32) (a : Act) (s : State) : Out :=
  let o := (s.low32 a x + off.toNat) % 2 ^ 32
  match s.wordFault a [x] (oneLane a.low) [], s.wslot a.ref.wg slot, s.aperture a.ref.wg o 64 with
  | some t, _, _ => .bad t
  | none, none, _ => .bad (a.operand a.low 5)
  | none, some _, none => .bad (a.operand a.low 6)
  | none, some w, some p =>
    if o % 64 != 0 then .bad (a.operand a.low 6)
    else if !(s.isPresent (p / 128)) then .hold s a.group (.present [p / 128]) false
    else if s.owesAt a.ref [(p, 64)] then .hold s a.group .owed false
    else match s.settleAtomics a.ref with
    | (v, some e) => .older v e
    | (v, none) =>
      match v.loadBytes a.ref (v.agent a.ref.wg) false false (apertureVa o) 64 with
      | (.error _, _) => .bad (a.operand a.low 6)
      | (.ok l, _) => afterLog a v (v.launchOf a.ref.wg).checked (describedFetch w.phys [(a.low, apertureVa o, 64, 0)] l a)

theorem exec_wload (h : Hdr) (x : Src) (slot : BitVec 4) (off : BitVec 32) (s : State) :
    exec (.wload h x slot off) s = matWord h [(x, 1)] [] [] 6 s (wloadBody x slot.toNat off) := rfl

section
variable {a : Act} {s : State} {phys : Nat} {desc : List Byte} {tn : Tensor} {first : List (Nat × Nat × Nat × Nat)}

/-- A fetch that nothing stops leaves its bytes bound to the slot (R201). -/
theorem fetchTensor_goes (goes : FetchGoes a s phys desc tn first) :
    fetchTensor a s phys desc tn first = .done (s.fetched a phys desc tn first) := by
  obtain ⟨older, log, race, reads⟩ := goes
  have settled : s.settleAtomics a.ref = ((s.settleAtomics a.ref).1, none) := Prod.ext rfl older
  have read : s.fetchRead a phys desc tn = (.ok ((s.fetchRead a phys desc tn).1.toOption.getD []), (s.fetchRead a phys desc tn).2) :=
    Prod.ext (eq_ok_of_isOk reads []) rfl
  rw [fetchTensor, settled]
  refine (afterLog_goes log).trans ((afterCheck_ok race).trans ?_)
  unfold State.fetchRead State.fetchReady at read
  dsimp only at read ⊢
  rw [read]
  rfl

/-- A descriptor that passes every check is fetched. -/
theorem describedFetch_goes (race : (s.raceCheck a (s.agent a.ref.wg) first).isOk = true) (describes : readTensor desc = some tn)
    (allowed : s.tensorOk a.ref.wg tn = true) (ready : s.fetchWait a.ref phys tn = none)
    (goes : FetchGoes a s phys desc tn first) :
    describedFetch phys first desc a s = .done (s.fetched a phys desc tn first) := by
  rw [describedFetch, eq_ok_of_isOk race (0, none), describes]
  simp only [allowed, ready, Bool.not_true, Bool.false_eq_true, if_false]
  exact fetchTensor_goes goes

/-- A descriptor that stands in the aperture, aligned, present and with no row still to be stored there, is read after the fibre's queued
atomics (R201, R247). -/
theorem wloadBody_reads {x : Src} {slot : Nat} {off : BitVec 32} {o p : Nat} {w : WSlot} {v : State}
    (offset : (s.low32 a x + off.toNat) % 2 ^ 32 = o) (pass : s.wordFault a [x] (oneLane a.low) [] = none)
    (names : s.wslot a.ref.wg slot = some w) (aligned : o % 64 = 0) (place : s.aperture a.ref.wg o 64 = some p)
    (present : s.isPresent (p / 128) = true) (paid : s.owesAt a.ref [(p, 64)] = false) (settled : s.settleAtomics a.ref = (v, none))
    (read : (v.loadBytes a.ref (v.agent a.ref.wg) false false (apertureVa o) 64).1 = .ok desc) : wloadBody x slot off a s =
      afterLog a v (v.launchOf a.ref.wg).checked (describedFetch w.phys [(a.low, apertureVa o, 64, 0)] desc a) := by
  obtain ⟨u, loaded⟩ : ∃ u, v.loadBytes a.ref (v.agent a.ref.wg) false false (apertureVa o) 64 = (.ok desc, u) :=
    ⟨_, Prod.ext read rfl⟩
  simp only [wloadBody, offset, pass, names, place, aligned, present, paid, settled, loaded, bne_self_eq_false, Bool.not_true,
    Bool.false_eq_true, if_false]

end

/-- Settles O21: MCFG serves its own claim or a new one, and each clause about it is a branch of `serveClaim`; the words that change a slot
act once nothing references it; a WLOAD whose descriptor passes every check does what its fetch does. -/
theorem tileConfigurationAndSlots : Obligations.TileConfigurationAndSlots := by
  unfold Obligations.TileConfigurationAndSlots
  refine ⟨?config, ?slots⟩
  case config =>
    intro s h x d v rows bytes slots bad keep core fresh claimed asking mine given
    have value : ∀ a b, b.low32 a x = v a b := fun _ _ => rfl
    have legal : ∀ n, ¬ bad n → tcbOk n = true := fun n hn =>
      (Bool.eq_false_or_eq_true _).resolve_right fun no => hn ((tcbOk_eq_false_iff n).1 no)
    have new : ∀ a b, ¬ bad (v a b) → b.newClaim a (v a b) = fresh a b := fun a b hn =>
      newClaim_eq fun three => hn (.inr (.inl three))
    have newly : ∀ a b, ¬ bad (v a b) → b.newlyClaimed a (v a b) = claimed a b := fun a b hn => by
      rw [State.newlyClaimed, new a b hn]
    have makes : ∀ a b, b.claimOf a.ref.wg = none → ¬ bad (v a b) →
        mcfgBody x a b = serveClaim a (claimed a b) (v a (claimed a b)) (fresh a b) := by
      intro a b unclaimed tcb
      have same : v a (claimed a b) = v a b := by rw [← newly a b tcb]; exact low32_newlyClaimed
      rw [mcfgBody_new unclaimed (legal _ tcb), value, newly a b tcb, new a b tcb, same]
    have hmcfgr : exec (.mcfgr h d) s = execMcfgr h d s := rfl
    unfold execMcfgr at hmcfgr
    refine ⟨?serves, ?waits, fun c => ?asked, fun c => ?returns, ?noTcb, ?mcfgr, fun c => ?configuring⟩
    case serves =>
      refine onceDoes_of_onceWord (exec_mcfg h x s) fun a b ⟨unclaimed, tcb, idle, served⟩ => ?_
      exact (makes a b unclaimed tcb).trans (serveClaim_returning rfl idle served)
    case waits =>
      refine waits_of_runWord (exec_mcfg h x s) fun a b ⟨pass, unclaimed, tcb, busy⟩ => ?_
      exact (unlessFault_pass pass).trans ((makes a b unclaimed tcb).trans (serveClaim_busy rfl busy))
    case asked =>
      refine onceDoes_of_onceWord (exec_mcfg h x s) fun a b ⟨⟨found, fib, pc⟩, asks, served⟩ => ?_
      exact (mcfgBody_mine found fib pc).trans (serveClaim_asking asks served)
    case returns =>
      refine onceDoes_of_onceWord (exec_mcfg h x s) fun a b ⟨⟨found, fib, pc⟩, asks, idle, served⟩ => ?_
      exact (mcfgBody_mine found fib pc).trans (serveClaim_returning asks idle served)
    case noTcb =>
      exact onceTraps_of_onceWord (exec_mcfg h x s) fun a b ⟨unclaimed, no⟩ =>
        mcfgBody_noTcb unclaimed ((tcbOk_eq_false_iff _).2 no)
    case mcfgr =>
      refine matDoes_of_matWord hmcfgr fun a b ⟨pass, has⟩ => ?_
      obtain ⟨w, found⟩ := Option.isSome_iff_exists.1 has
      simp only [pass, found, State.putAll, Option.map_some, Option.getD_some, BitVec.ofNat_toNat, BitVec.setWidth_eq]
    case configuring =>
      exact waits_of_runWord hmcfgr fun a b claim => by rw [afterConfig, claim]
  case slots =>
    intro s h slot x d off free still
    refine ⟨fun w => ?wdict, fun w => ?wset, fun w => ?wfree, ?wqry, ?wload⟩
    case wdict =>
      have he : exec (.wdict h x slot) s = execWdict h x slot s := rfl
      unfold execWdict at he
      exact matDoes_of_slotWord he fun a b ⟨pass, names, unused⟩ =>
        ⟨pass, names, afterSlot_free unused fun load => absurd load Bool.false_ne_true⟩
    case wset =>
      have he : exec (.wset h x slot) s = execWset h x slot s := rfl
      unfold execWset at he
      exact matDoes_of_slotWord he fun a b ⟨pass, names, unused⟩ =>
        ⟨pass, names, afterSlot_free unused fun load => absurd load Bool.false_ne_true⟩
    case wfree =>
      have he : exec (.wfree h slot) s = execWfree h slot s := rfl
      unfold execWfree at he
      exact matDoes_of_slotWord he fun a b ⟨pass, names, unused, idle⟩ => ⟨pass, names, afterSlot_free unused fun _ => idle⟩
    case wqry =>
      have he : exec (.wqry h d slot) s = execWqry h d slot s := rfl
      unfold execWqry at he
      refine matDoes_of_matWord he fun a b pass => ?_
      rw [pass]
      cases b.wslot a.ref.wg slot.toNat <;> rfl
    case wload =>
      intro o settled desc logged first w tn
      refine matDoes_of_matWord (exec_wload h x slot off s) fun a b ⟨pass, names, aligned, ⟨p, place, present, paid⟩, older, reads, log,
        race, describes, allowed, ready, goes⟩ => ?_
      have before : b.settleAtomics a.ref = (settled a b, none) := Prod.ext rfl older
      calc wloadBody x slot.toNat off a b
        _ = afterLog a (settled a b) ((settled a b).launchOf a.ref.wg).checked (describedFetch w.phys (first a b) (desc a b) a) :=
          wloadBody_reads rfl pass names aligned place present paid before (eq_ok_of_isOk reads [])
        _ = describedFetch w.phys (first a b) (desc a b) a (logged a b) := afterLog_goes log
        _ = .done ((logged a b).fetched a w.phys (desc a b) tn (first a b)) :=
          describedFetch_goes race describes allowed ready goes

end Sys2Proof.Machine
end

/-! ## Words that only a mode or a launch allows (R240, R409 to R411) -/

section
namespace Sys2Proof.Machine

/-- A word that the state allows every issuing fibre runs as any other. -/
theorem unlessIllegal_allowed {h : Hdr} {ends : Bool} {reads last : List Nat} {sub pj : Nat} {bad : FibRef → Bool} {s : State}
    {body : Act → State → Out} (allowed : ∀ c, s.cur = some c → bad c.ref = false) :
    unlessIllegal h sub bad s (runWord h ends reads last pj s body) = runWord h ends reads last pj s body := by
  cases hc : s.cur with
  | none => simp only [unlessIllegal, runWord, hc]
  | some c =>
    cases hf : s.fib c.ref with
    | none => simp only [unlessIllegal, runWord, hc, hf, settleLoads_none hf]
    | some f => exact unlessIllegal_legal hc hf (allowed c hc)

/-- Settles O39: each of the words is illegal wherever its rule of the state forbids it. -/
theorem privilegedWordsTrap : Obligations.PrivilegedWordsTrap := by
  unfold Obligations.PrivilegedWordsTrap
  intro s h c f d e x y n w k off hc hf hh illegal
  have forbids : ∀ bad : FibRef → Bool, bad c.ref = true → ∀ ⦃i : Instr⦄ ⦃w run : Host.Outcome State Fault Refusal⦄ ⦃sub : Nat⦄,
      exec i s = w → w = unlessIllegal h sub bad s run → illegal i sub :=
    fun _ hbad _ _ _ _ he hw => he.trans (hw.trans (unlessIllegal_illegal hc hf hh hbad))
  refine ⟨fun user => ?system, fun shared => ?pins, fun outside => ?trapMode⟩
  case system =>
    have only := forbids (fun r => !(s.isSystem r)) (by simpa [State.isSystem] using user)
    exact ⟨only (w := execTlbinvPage h x y s) rfl rfl, only (w := execTlbinvAsid h y s) rfl rfl, only (w := execTlbinvAll h s) rfl rfl,
      only (w := execAsidnew h d x s) rfl rfl, only (w := execHarvest h true s) rfl rfl⟩
  case pins =>
    have only := forbids (fun r => !(s.launchOf r.wg).reserve) (by simpa using shared)
    exact ⟨only (w := execLock h d x y off s) rfl rfl, only (w := execUnlock h e x y off s) rfl rfl⟩
  case trapMode =>
    have only := forbids (fun r => !(s.inTrap r)) (by simpa using outside)
    exact ⟨only (w := execRtt h s) rfl rfl, only (w := execRttSkip h s) rfl rfl, only (w := execLogrdEnt h d k w s) rfl rfl,
      only (w := execLogrdG h d n s) rfl rfl, only (w := execLogrdPut h x n s) rfl rfl⟩

end Sys2Proof.Machine
end

/-! ## Prefetch, presence, cache control and pins (R237 to R240) -/

section
namespace Sys2Proof.Machine

/-! ### Pins (R240) -/

section
variable {i : Instr} {s : State} {h : Hdr} {d : BitVec 8} {x y : Src} {off : BitVec 32}
  {act : State → Nat → List Nat → Bool → Nat × State}

/-- What LOCK and UNLOCK answer in a launch with reserve. -/
def pinBody (d : BitVec 8) (x y : Src) (off : BitVec 32) (act : State → Nat → List Nat → Bool → Nat × State) (a : Act) (s : State) :
    Out :=
  let ea := s.lowAddr a x off
  let n := s.low32 a y
  if ea % 128 != 0 || n % 128 != 0 || n == 0 || 2 ^ 24 < n then .bad (a.operand a.low 9)
  else match s.pinLines (s.agent a.ref.wg) ea n with
    | (.error (sub, byte), _) => .bad (a.trap 8 sub a.low byte 0)
    | (.ok (l, here), s) =>
      let (status, s) := act s (s.ctxOf a.ref.wg) l here
      .done (s.putAll a d.toNat status)

theorem exec_lock (h : Hdr) (d : BitVec 8) (x y : Src) (off : BitVec 32) (s : State) : exec (.lock h d x y off) s =
    pinWord h d x y off (fun v c l here =>
      if !here then (2, v) else if v.pinsOver (addPins v.pins c l) c l then (1, v) else (0, { v with pins := addPins v.pins c l })) s := rfl

theorem exec_unlock (h : Hdr) (d : BitVec 8) (x y : Src) (off : BitVec 32) (s : State) : exec (.unlock h d x y off) s =
    pinWord h d x y off (fun v c l here =>
      (if (l.filter (fun k => v.pinCount c k != 0)).length == l.length && here then 0 else 1,
        { v with pins := (l.filter (fun k => v.pinCount c k != 0)).foldl (fun p k => dropPin p c k) v.pins })) s := rfl

theorem pinWord_reserved (reserved : ∀ c, s.cur = some c → (s.launchOf c.ref.wg).reserve = true) :
    pinWord h d x y off act s = onceWord h [(x, 2), (y, 1)] [d.toNat] s (pinBody d x y off act) :=
  unlessIllegal_allowed fun c hc => by rw [reserved c hc]; rfl

/-- Aligned lines of which every translation succeeds are pinned or unpinned. -/
theorem pinBody_pins {a : Act} {b : State} {l : List Nat} {here : Bool} (address : b.lowAddr a x off % 128 = 0)
    (whole : b.low32 a y % 128 = 0) (nonempty : b.low32 a y ≠ 0) (most : b.low32 a y ≤ 2 ^ 24)
    (lines : (b.pinLines (b.agent a.ref.wg) (b.lowAddr a x off) (b.low32 a y)).1 = .ok (l, here)) :
    pinBody d x y off act a b =
      let v := (b.pinLines (b.agent a.ref.wg) (b.lowAddr a x off) (b.low32 a y)).2
      let r := act v (v.ctxOf a.ref.wg) l here
      .done (r.2.putAll a d.toNat r.1) := by
  obtain ⟨v, found⟩ : ∃ v, b.pinLines (b.agent a.ref.wg) (b.lowAddr a x off) (b.low32 a y) = (.ok (l, here), v) :=
    ⟨_, Prod.ext lines rfl⟩
  have ok : ¬ ((b.lowAddr a x off % 128 != 0 || b.low32 a y % 128 != 0 || b.low32 a y == 0 || 2 ^ 24 < b.low32 a y) = true) := by
    simp only [address, whole, beq_false_of_ne nonempty, decide_eq_false (Nat.not_lt.2 most), bne_self_eq_false, Bool.or_self,
      Bool.false_eq_true, not_false_iff]
  simp only [pinBody, found, if_neg ok]

/-- A misaligned address, or a size that is not a whole number of lines, is none, or exceeds 16 MiB, is an illegal operand. -/
theorem pinBody_misaligned {a : Act} {b : State} (bad : b.lowAddr a x off % 128 ≠ 0 ∨ b.low32 a y % 128 ≠ 0 ∨ b.low32 a y = 0 ∨
    2 ^ 24 < b.low32 a y) : pinBody d x y off act a b = .bad (a.operand a.low 9) :=
  if_pos (by simpa [or_assoc] using bad)

end

/-! ### Presence (R237) -/

/-- What PCLR answers. -/
def pclrBody (x y : Src) (set : Bool) (off : BitVec 32) (a : Act) (s : State) : Out :=
  let o := (s.low32 a x + off.toNat) % 2 ^ 32
  let n := s.low32 a y
  match if o % 128 == 0 && n % 128 == 0 && n != 0 then s.aperture a.ref.wg o n else none with
  | some p => .done ((linesOf p n).foldl (fun s k => s.setPresent k set) s)
  | none => .bad (a.operand a.low 6)

theorem exec_pclr (h : Hdr) (x y : Src) (set : Bool) (off : BitVec 32) (s : State) :
    exec (.pclr h x y set off) s = onceWord h [(x, 1), (y, 1)] [] s (pclrBody x y set off) := rfl

section
variable {x y : Src} {set : Bool} {off : BitVec 32} {a : Act} {b : State}

theorem pclrBody_lines {p : Nat} (start : (b.low32 a x + off.toNat) % 2 ^ 32 % 128 = 0) (whole : b.low32 a y % 128 = 0)
    (nonempty : b.low32 a y ≠ 0) (place : b.aperture a.ref.wg ((b.low32 a x + off.toNat) % 2 ^ 32) (b.low32 a y) = some p) :
    pclrBody x y set off a b = .done ((linesOf p (b.low32 a y)).foldl (fun v k => v.setPresent k set) b) := by
  have ok : ((b.low32 a x + off.toNat) % 2 ^ 32 % 128 == 0 && b.low32 a y % 128 == 0 && b.low32 a y != 0) = true := by
    simp only [start, whole, bne_iff_ne.2 nonempty, beq_self_eq_true, Bool.and_self]
  simp only [pclrBody, if_pos ok, place]

theorem pclrBody_misplaced (bad : (b.low32 a x + off.toNat) % 2 ^ 32 % 128 ≠ 0 ∨ b.low32 a y % 128 ≠ 0 ∨ b.low32 a y = 0 ∨
    b.aperture a.ref.wg ((b.low32 a x + off.toNat) % 2 ^ 32) (b.low32 a y) = none) :
    pclrBody x y set off a b = .bad (a.operand a.low 6) := by
  have refused : (if (b.low32 a x + off.toNat) % 2 ^ 32 % 128 == 0 && b.low32 a y % 128 == 0 && b.low32 a y != 0 then
      b.aperture a.ref.wg ((b.low32 a x + off.toNat) % 2 ^ 32) (b.low32 a y) else none) = none := by
    rw [ite_eq_right_iff]
    intro ok
    simp only [Bool.and_eq_true, beq_iff_eq, bne_iff_ne] at ok
    obtain ⟨⟨start, whole⟩, nonempty⟩ := ok
    simpa only [start, whole, nonempty, ne_eq, not_true_eq_false, false_or] using bad
  simp only [pclrBody, refused]

end

/-! ### Cache control (R239) -/

/-- A cache-control word acts on its lines once the fibre's stores have left. -/
theorem does_of_cacheWord {i : Instr} {s : State} {h : Hdr} {x : Src} {all : Bool} {off : BitVec 32}
    {act : State → Nat → (L1Line → Bool) → State} (he : exec i s = cacheWord h x all off act s) :
    let y := if all then Src.imm 0 else x
    Does i s h false (srcNames y 2) (srcLast y 2) 6 (fun a b => b.storesLeave a.ref) (fun a b =>
      let v := (b.drain a.ref).1
      act v (v.agent a.ref.wg).core (cacheLines (v.agent a.ref.wg) all ((lanesOf a.lanes).map (v.laneAddr a.ref y off)))) := by
  unfold cacheWord at he
  exact does_of_runWord he fun _ _ leave => afterStores_leave leave

/-- Settles O29: LOCK and UNLOCK answer what `pinBody` says in a launch with reserve and are illegal in another; PCLR answers what
`pclrBody` says; the others do what their bodies do. -/
theorem presenceCachesAndPins : Obligations.PresenceCachesAndPins := by
  unfold Obligations.PresenceCachesAndPins
  intro s h u l2 all set pd d x y off ea z hit found pins
  have pins_of : ∀ i act, exec i s = pinWord h d x y off act s → pins i act := by
    intro i act he
    refine ⟨fun reserved => ⟨fun l here => ?acts, ?traps⟩, fun c f hc hf hh no => ?illegal⟩
    case acts =>
      exact onceDoes_of_onceWord (he.trans (pinWord_reserved reserved)) fun a b ⟨address, whole, nonempty, most, lines⟩ =>
        pinBody_pins address whole nonempty most lines
    case traps =>
      exact onceTraps_of_onceWord (he.trans (pinWord_reserved reserved)) fun a b bad => pinBody_misaligned bad
    case illegal =>
      exact he.trans (unlessIllegal_illegal (bad := fun r => !(s.launchOf r.wg).reserve) hc hf hh (by rw [no]; rfl))
  clear_value pins
  refine ⟨?pref, ?pres, fun p => ?pclr, ?pclrTraps, ?cwb, ?cinv, pins_of _ _ (exec_lock h d x y off s),
    pins_of _ _ (exec_unlock h d x y off s)⟩
  case pref => exact does_of_runWord rfl fun _ _ _ => rfl
  case pres =>
    have he : exec (.pres h pd x off) s = execPres h pd x off s := rfl
    unfold execPres at he
    refine does_of_runWord he fun a b pass => ?_
    rw [pass]
    rfl
  case pclr =>
    exact onceDoes_of_onceWord (exec_pclr h x y set off s) fun a b ⟨start, whole, nonempty, place⟩ =>
      pclrBody_lines start whole nonempty place
  case pclrTraps => exact onceTraps_of_onceWord (exec_pclr h x y set off s) fun a b bad => pclrBody_misplaced bad
  case cwb => exact does_of_cacheWord (act := fun v k p => v.cleanL1 k p) rfl
  case cinv => exact does_of_cacheWord (act := fun v k p => v.flushL1 k p) rfl

end Sys2Proof.Machine
end

/-! ## Loads and stores (R224 to R226, R233 to R236, R247, R264, R265, R268) -/

section
namespace Sys2Proof.Machine

/-! ### Loads -/

section
variable {a : Act} {b : State} {d regs n : Nat} {size : Size} {sgn byp u : Bool} {acq : Option Scope} {all : List LaneAcc}

/-- A load within bounds of lines that are absent parks on them (R224). -/
theorem loadBody_absent (inside : (b.bounds a.ref.wg n all).1 ≠ [])
    (absent : (b.switchOff a.ref (b.bounds a.ref.wg n all).2).absentLines a.ref.wg n (b.bounds a.ref.wg n all).1 ≠ []) :
    loadBody a b all d regs n sgn acq byp u =
      let v := b.switchOff a.ref (b.bounds a.ref.wg n all).2
      let l := v.absentLines a.ref.wg n (b.bounds a.ref.wg n all).1
      .hold (v.seek a l) a.group (.present l) true := by
  unfold loadBody
  dsimp only
  rw [if_neg (by simpa using inside), if_pos (by simpa using absent)]

/-- What a load of present lines waits for has come: no row is owed to them, no older store faults, the operand log has a place, and
no race stops it (R188, R235, R247, R288). -/
def LoadReady (a : Act) (b : State) (n : Nat) (acq : Option Scope) (all : List LaneAcc) : Prop :=
  let l := (b.bounds a.ref.wg n all).1
  let v := b.switchOff a.ref (b.bounds a.ref.wg n all).2
  v.absentLines a.ref.wg n l = [] ∧ v.owesAt a.ref (v.scratchRanges a.ref.wg n l) = false ∧ (v.settleAtomics a.ref).2 = none ∧
    (v.settleAtomics a.ref).1.logGoes a.ref ((v.settleAtomics a.ref).1.mayLog a.ref l) ∧ (b.loadCheck a n acq all).isOk = true

/-- Such a load is made in the state that `State.loadReady` names, and its commit notes what its check says. -/
theorem loadBody_ready (inside : (b.bounds a.ref.wg n all).1 ≠ []) (ready : LoadReady a b n acq all) :
    loadBody a b all d regs n sgn acq byp u =
      (loadChecked a (b.loadReady a n all) (b.bounds a.ref.wg n all).1 d regs n sgn acq byp u
        (a.lanes &&& ~~~(b.bounds a.ref.wg n all).2)).noting a.ref ((b.loadCheck a n acq all).toOption.getD (0, none)) := by
  obtain ⟨present, paid, older, log, check⟩ := ready
  unfold loadBody
  dsimp only
  rw [if_neg (by simpa using inside), if_neg (by simpa using present), if_neg (by simp [paid])]
  rcases settled : (b.switchOff a.ref (b.bounds a.ref.wg n all).2).settleAtomics a.ref with ⟨v, o⟩
  rw [settled] at older log
  obtain rfl : o = none := older
  have made : (v.withLog a.ref (v.mayLog a.ref (b.bounds a.ref.wg n all).1)).1 = b.loadReady a n all := by
    unfold State.loadReady
    rw [settled]
  dsimp only
  rw [afterLog_goes log, made]
  exact afterCheck_ok check

/-- Such a load whose reads fault has issued, and its accesses are held in the operand log (R226, R393). -/
theorem loadBody_faults {sub k va : Nat} (inside : (b.bounds a.ref.wg n all).1 ≠ []) (ready : LoadReady a b n acq all)
    (fault : (b.loadRead a n acq byp all).1 = .error (sub, k, va)) :
    let held := (b.loadRead a n acq byp all).2.logFault a n (b.bounds a.ref.wg n all).1 (.load d regs n sgn acq byp 0) 0x08 sub k va []
    loadBody a b all d regs n sgn acq byp false = .logged held.1 held.2 := by
  obtain ⟨v, read⟩ : ∃ v, b.loadRead a n acq byp all = (.error (sub, k, va), v) := ⟨_, Prod.ext fault rfl⟩
  intro held
  unfold State.loadRead at read
  dsimp only at read
  rw [loadBody_ready inside ready, loadChecked]
  dsimp only
  rw [read]
  simp only [held, State.loadRead, read]
  rfl

end

section
variable {i : Instr} {s : State} {h : Hdr} {u sgn byp pair : Bool} {d : BitVec 8} {x : Src} {size : Size}
  {addr : State → FibRef → Nat → Nat}

/-- The accesses of LD and LDS: an address for each active lane, or one under U. -/
def loadAccs (u : Bool) (addr : State → FibRef → Nat → Nat) (a : Act) (b : State) : List LaneAcc :=
  laneAccs (a.readers u) (addr b a.ref) (fun _ => [])

/-- LD and LDS load from their accesses once their latches and registers have been checked (R233, R234). -/
theorem loadWord_eq : loadWord h u d x pair size sgn byp addr s =
    runWord (atPoint h) false (srcNames x (regCount pair)) (srcLast x (regCount pair)) 6 s fun a b =>
      unlessFault b a [x] (a.readers u) ((List.range size.regs).map (fun j => d.toNat + j))
        (loadBody a b (loadAccs u addr a b) d.toNat size.regs size.bytes sgn none byp u) := rfl

theorem does_of_loadWord (he : exec i s = loadWord h u d x pair size sgn byp addr s) :
    Does i s (atPoint h) false (srcNames x (regCount pair)) (srcLast x (regCount pair)) 6
      (fun a b => b.wordFault a [x] (a.readers u) ((List.range size.regs).map (fun j => d.toNat + j)) = none ∧
        LoadGoes a b size.bytes none byp (loadAccs u addr a b))
      (fun a b => b.loaded a d.toNat size sgn none byp u (loadAccs u addr a b)) :=
  does_of_runWord (he.trans loadWord_eq) fun _ _ ⟨pass, goes⟩ => (unlessFault_pass pass).trans (loadBody_goes goes)

theorem waits_of_loadWord (he : exec i s = loadWord h u d x pair size sgn byp addr s) :
    let inside (a : Act) (b : State) := b.bounds a.ref.wg size.bytes (loadAccs u addr a b)
    let v (a : Act) (b : State) := b.switchOff a.ref (inside a b).2
    let absent (a : Act) (b : State) := (v a b).absentLines a.ref.wg size.bytes (inside a b).1
    Waits i s (atPoint h) false (srcNames x (regCount pair)) (srcLast x (regCount pair))
      (fun a b => b.wordFault a [x] (a.readers u) ((List.range size.regs).map (fun j => d.toNat + j)) = none ∧
        (inside a b).1 ≠ [] ∧ absent a b ≠ [])
      (fun a b => (v a b).seek a (absent a b)) (fun a => a.group) (fun a b => .present (absent a b)) true :=
  waits_of_runWord (he.trans loadWord_eq) fun _ _ ⟨pass, inside, absent⟩ =>
    (unlessFault_pass pass).trans (loadBody_absent inside absent)

end

/-! ### Parameters (R236) -/

section
variable {a : Act} {s : State} {u sgn useA : Bool} {d : BitVec 8} {x : Src} {size : Size} {off : BitVec 32}

/-- Whether some bytes at a lane's parameter offset are outside the block. -/
def State.paramOut (s : State) (a : Act) (x : Src) (useA : Bool) (off : BitVec 32) (n i : Nat) : Bool :=
  decide (s.paramOff a.ref x useA off i < 0) || decide (((s.launchOf a.ref.wg).params : Int) < s.paramOff a.ref x useA off i + n)

/-- The accesses of LDC. -/
def paramAccs (u : Bool) (x : Src) (useA : Bool) (off : BitVec 32) (a : Act) (s : State) : List LaneAcc :=
  laneAccs (a.readers u) (fun i => ((s.launchOf a.ref.wg).paramPtr + (s.paramOff a.ref x useA off i).toNat) % 2 ^ 64) (fun _ => [])

/-- What LDC answers. -/
def ldcBody (u : Bool) (d : BitVec 8) (x : Src) (size : Size) (sgn useA : Bool) (off : BitVec 32) (a : Act) (s : State) : Out :=
  match s.wordFault a [x] (a.readers u) ((List.range size.regs).map (fun j => d.toNat + j)),
    (lanesOf (a.readers u)).find? (s.paramOut a x useA off size.bytes) with
  | some t, _ => .bad t
  | none, some i => .bad (a.operand i 8)
  | none, none => loadBody a s (paramAccs u x useA off a s) d.toNat size.regs size.bytes sgn none false u

theorem exec_ldc (h : Hdr) (u : Bool) (d : BitVec 8) (x : Src) (size : Size) (sgn useA : Bool) (off : BitVec 32) (s : State) :
    let y := if useA then x else .imm 0
    exec (.ldc h u d x size sgn useA off) s =
      runWord h false (srcNames y 1) (srcLast y 1) 6 s (ldcBody u d y size sgn useA off) := rfl

/-- Every active lane is inside the block. -/
theorem ldcBody_inside (pass : s.wordFault a [x] (a.readers u) ((List.range size.regs).map (fun j => d.toNat + j)) = none)
    (inside : (lanesOf (a.readers u)).find? (s.paramOut a x useA off size.bytes) = none) :
    ldcBody u d x size sgn useA off a s =
      loadBody a s (paramAccs u x useA off a s) d.toNat size.regs size.bytes sgn none false u := by
  rw [ldcBody, pass, inside]

/-- Lane `k` is the first outside. -/
theorem ldcBody_outside {k : Nat} (pass : s.wordFault a [x] (a.readers u) ((List.range size.regs).map (fun j => d.toNat + j)) = none)
    (outside : (lanesOf (a.readers u)).find? (s.paramOut a x useA off size.bytes) = some k) :
    ldcBody u d x size sgn useA off a s = .bad (a.operand k 8) := by
  rw [ldcBody, pass, outside]

theorem paramOff_eq (s : State) (r : FibRef) (y : Src) (useA : Bool) (off : BitVec 32) (i : Nat) :
    s.paramOff r y useA off i = (if useA then ((s.srcLane r y i).toNat : Int) else 0) + off.toInt := by
  rw [State.paramOff, sext_toInt]

/-- The literal in the place of an operand that LDC does not use changes no offset. -/
theorem paramOff_unused (s : State) (r : FibRef) (x : Src) (useA : Bool) (off : BitVec 32) :
    s.paramOff r (if useA then x else .imm 0) useA off = s.paramOff r x useA off := by
  cases useA <;> rfl

end

/-- Settles O23: each of the words is a load of its lanes' accesses; LDC checks its offsets first, and a load of absent lines parks. -/
theorem loadsRead : Obligations.LoadsRead := by
  unfold Obligations.LoadsRead
  intro s h u d x size sgn useA hint scope off regs at' ea so po y pa out ok parked
  have hlds : exec (.lds h u d x size sgn off) s = execLds h u d x size sgn off s := rfl
  have hldc : exec (.ldc h u d x size sgn useA off) s =
      runWord h false (srcNames y 1) (srcLast y 1) 6 s (ldcBody u d y size sgn useA off) := exec_ldc h u d x size sgn useA off s
  have param : ∀ a b, po a b = b.paramOff a.ref y useA off := fun a b => by
    funext i
    rw [paramOff_unused, paramOff_eq]
  have outs : ∀ a b, out a b = b.paramOut a y useA off size.bytes := fun a b => by
    funext i
    simp only [out, param, State.paramOut]
  have accs : ∀ a b, at' (a.readers u) (pa a b) = paramAccs u y useA off a b := fun a b => by
    simp only [at', pa, param, paramAccs]
  refine ⟨?ld, ?lds, ?ldc, fun k => ?ldcTraps, ?ldacq, fun c f hi => ?parks⟩
  case ld => exact does_of_loadWord (show _ = execLd h u d x size sgn hint off s from rfl)
  case lds => exact does_of_loadWord hlds
  case ldc =>
    refine does_of_runWord hldc fun a b ⟨pass, inside, goes⟩ => ?_
    rw [outs] at inside
    rw [accs] at goes ⊢
    exact (ldcBody_inside pass inside).trans (loadBody_goes goes)
  case ldcTraps =>
    refine traps_of_runWord hldc fun a b ⟨pass, outside⟩ => ?_
    rw [outs] at outside
    exact ldcBody_outside pass outside
  case ldacq =>
    have he : exec (.ldacq h d x size sgn scope off) s = execLdacq h d x size sgn scope off s := rfl
    unfold execLdacq at he
    exact does_of_runWord he fun a b ⟨pass, goes⟩ => (unlessFault_pass pass).trans (loadBody_goes goes)
  case parks =>
    intro a b p paid pass inside absent
    exact waits_of_loadWord hlds c f hi paid ⟨pass, inside, absent⟩

/-! ### Stores -/

section
variable {i : Instr} {s : State} {h : Hdr} {x y : Src} {pair byp : Bool} {size : Size} {addr : State → FibRef → Nat → Nat}

/-- The accesses of a store of `n` bytes: an address for each active lane, with the low bytes of its value. -/
def storeAccs (y : Src) (n : Nat) (addr : State → FibRef → Nat → Nat) (a : Act) (b : State) : List LaneAcc :=
  laneAccs a.lanes (addr b a.ref) (fun i => b.valueBytes a.ref y n i)

/-- ST and STS enter their accesses into the queue (R233, R234). -/
theorem does_of_storeWord (he : exec i s = storeWord h x pair y size byp addr s) :
    Does i s h false (srcNames x (regCount pair) ++ srcNames y size.regs) (srcLast x (regCount pair) ++ srcLast y size.regs) 6
      (fun a b => b.wordFault a [x, y] a.lanes [] = none ∧ StoreGoes a b size.bytes none (storeAccs y size.bytes addr a b))
      (fun a b => b.stored a size.bytes (if byp then .byp else .plain) none (storeAccs y size.bytes addr a b) (fun _ => 0)) := by
  unfold storeWord at he
  exact does_of_runWord he fun _ _ ⟨pass, goes⟩ => (unlessFault_pass pass).trans (storeBody_goes goes)

end

section
variable {a : Act} {b : State} {x y : Src} {op : AtomOp} {x2 : Bool} {ord : Ord} {scope : Scope} {off : BitVec 32}

/-- The accesses of a RED: an address for each active lane, with its operand. -/
def redAccs (x y : Src) (op : AtomOp) (x2 : Bool) (off : BitVec 32) (a : Act) (b : State) : List LaneAcc :=
  laneAccs a.lanes (b.laneAddr a.ref x off) (fun i => (b.atomArgs a.ref y op x2 i).1)

/-- What RED answers once its latches have been checked. -/
def redBody (x y : Src) (op : AtomOp) (x2 : Bool) (ord : Ord) (scope : Scope) (off : BitVec 32) (a : Act) (b : State) : Out :=
  let n := if x2 then 8 else 4
  let l := redAccs x y op x2 off a b
  if op == .fadd && (b.launchOf a.ref.wg).determ then .bad a.nondet
  else
    let (inside, out) := b.bounds a.ref.wg n l
    let absent := b.absentLines a.ref.wg n inside
    if !absent.isEmpty then .hold (b.switchOff a.ref out) a.group (.present absent) true
    else if b.anyHost (b.agent a.ref.wg) l && !(atomHost op) then .bad (a.operand a.low 9)
    else storeBody a b n (.atomic op x2) (if ordReleases ord then some scope else none) l (fun i => (b.atomArgs a.ref y op x2 i).2)

theorem exec_red (h : Hdr) (x y : Src) (op : AtomOp) (x2 : Bool) (ord : Ord) (scope : Scope) (off : BitVec 32) (s : State) :
    exec (.red h x y op x2 ord scope off) s =
      runWord (atPoint h) false (srcNames x 2 ++ srcNames y (atomRegs op x2)) (srcLast x 2 ++ srcLast y (atomRegs op x2)) 6 s
        fun a b => unlessFault b a [x, y] a.lanes [] (redBody x y op x2 ord scope off a b) := rfl

/-- A RED of FP32 addition is refused in a deterministic launch (R267). -/
theorem redBody_nondet (add : op = .fadd) (determ : (b.launchOf a.ref.wg).determ = true) :
    redBody x y op x2 ord scope off a b = .bad a.nondet := by
  rw [redBody, add, determ]
  rfl

/-- Another one, of present lines and of an operation that the host takes where one goes there, is queued as a store is (R265, R266). -/
theorem redBody_queues (determ : op = .fadd → (b.launchOf a.ref.wg).determ = false)
    (present : b.absentLines a.ref.wg (if x2 then 8 else 4) (b.bounds a.ref.wg (if x2 then 8 else 4) (redAccs x y op x2 off a b)).1 = [])
    (host : b.anyHost (b.agent a.ref.wg) (redAccs x y op x2 off a b) = true → op = .add ∨ op = .exch ∨ op = .cas) :
    redBody x y op x2 ord scope off a b =
      storeBody a b (if x2 then 8 else 4) (.atomic op x2) (if ord = .rel ∨ ord = .ar then some scope else none)
        (redAccs x y op x2 off a b) (fun i => (b.atomArgs a.ref y op x2 i).2) := by
  have may : (op == .fadd && (b.launchOf a.ref.wg).determ) = false := by
    by_cases add : op = .fadd
    · rw [determ add, Bool.and_false]
    · rw [beq_false_of_ne add, Bool.false_and]
  have takes : (b.anyHost (b.agent a.ref.wg) (redAccs x y op x2 off a b) && !(atomHost op)) = false := by
    cases goes : b.anyHost (b.agent a.ref.wg) (redAccs x y op x2 off a b) with
    | false => rfl
    | true =>
      have taken : atomHost op = true := by simpa [atomHost, or_assoc] using host goes
      rw [taken]
      rfl
  have releases : (ordReleases ord = true) = (ord = .rel ∨ ord = .ar) := by simp [ordReleases]
  simp only [redBody, may, present, takes, releases, List.isEmpty_nil, Bool.not_true, Bool.false_eq_true, if_false]

end

/-- Settles O24: the accesses of each of the words enter the queue as `storeBody` says. -/
theorem storesAreQueued : Obligations.StoresAreQueued := by
  unfold Obligations.StoresAreQueued
  intro s h x y size hint scope op x2 ord off ea so at' n args rel kind ok
  refine ⟨?st, ?sts, ?strel, ?red, ?redTraps⟩
  case st => exact does_of_storeWord (show _ = execSt h x y size hint off s from rfl)
  case sts => exact does_of_storeWord (show _ = execSts h x y size off s from rfl)
  case strel =>
    have he : exec (.strel h x y size scope off) s = execStrel h x y size scope off s := rfl
    unfold execStrel at he
    exact does_of_runWord he fun _ _ ⟨pass, goes⟩ => (unlessFault_pass pass).trans (storeBody_goes goes)
  case red =>
    exact does_of_runWord (exec_red h x y op x2 ord scope off s) fun _ _ ⟨pass, determ, present, host, goes⟩ =>
      (unlessFault_pass pass).trans ((redBody_queues determ present host).trans (storeBody_goes goes))
  case redTraps =>
    exact traps_of_runWord (exec_red h x y op x2 ord scope off s) fun _ _ ⟨pass, add, determ⟩ =>
      (unlessFault_pass pass).trans (redBody_nondet add determ)

end Sys2Proof.Machine
end

/-! ## Misaligned accesses (R226, R235, R264) -/

section
namespace Sys2Proof.Machine

/-- A word whose body has issued with a faulted access takes its trap after the word. -/
theorem heldTrap_of_runWord {i : Instr} {s : State} {h : Hdr} {reads last : List Nat} {P : Act → State → Prop}
    {L : Act → State → State × TrapInfo} {body : Act → State → Out} (he : exec i s = runWord h false reads last 6 s body)
    (hb : ∀ a b, P a b → body a b = .logged (L a b).1 (L a b).2) : HeldTrap i s h reads last P L := by
  intro c f hi a b paid hp
  exact he.trans (runWord_logged hi paid (hb _ _ hp))

section
variable {b : State} {r : FibRef} {ag : Agent} {byp fresh : Bool} {n : Nat} {e : LaneAcc} {rest : List LaneAcc}

/-- An acquire that reads a misaligned global address first reads nothing, and faults there. -/
theorem loadAll_misaligned (outside : inAperture e.addr.toNat = false) (misaligned : e.addr.toNat % n ≠ 0) :
    b.loadAll r ag byp fresh true n (e :: rest) = (.error (5, e.lane, e.addr.toNat), b) := by
  have bad : (true && !(inAperture e.addr.toNat) && e.addr.toNat % n != 0) = true := by simp [outside, misaligned]
  rw [State.loadAll, List.foldl_cons]
  dsimp only
  rw [if_pos bad]
  exact List.foldl_fixed' (fun _ => rfl) rest

/-- A probe of accesses that must be aligned fails at a misaligned global address that comes first. -/
theorem probeAll_misaligned (p : Perm) (outside : inAperture e.addr.toNat = false) (misaligned : e.addr.toNat % n ≠ 0) :
    b.probeAll ag p true n (e :: rest) = (some (5, e.lane, e.addr.toNat), b) := by
  have bad : (true && e.addr.toNat % n != 0) = true := by simp [misaligned]
  rw [State.probeAll, List.foldl_cons]
  dsimp only
  rw [outside, if_neg Bool.false_ne_true, if_pos bad]
  exact List.foldl_fixed' (fun _ => rfl) rest

end

/-! ### The head of a store queue -/

/-- Whether a queued store is an atomic. -/
def StoreEntry.isAtomic (e : StoreEntry) : Bool := match e.kind with | .atomic _ _ => true | _ => false

/-- The queue of a fibre frozen (R235). -/
def Fibre.freezeQueue (f : Fibre) : Fibre := f.setQueue (f.curQueue.map (fun e => { e with frozen := true }))

/-- A store whose word the probe finds at fault freezes its queue, and its place of the operand log is marked (R226, R235). -/
theorem drainOne_faults {s u : State} {r : FibRef} {f : Fibre} {e : StoreEntry} {rest : List StoreEntry} {k sub lane byte : Nat}
    {g : LogEntry} (hf : s.fib r = some f) (head : f.curQueue = e :: rest) (thawed : e.frozen = false) (whole : e.begun = false)
    (log : e.log = some k) (place : Map.find f.log k = some g) (fresh : g.probed = false)
    (probe : s.probeAll (s.agent r.wg) (if e.isAtomic then .rmw else .write) (e.isAtomic || e.release.isSome) g.size g.accs =
      (some (sub, lane, byte), u)) :
    s.drainOne r = some (u.modFib r (fun f => (f.markLog k sub false).freezeQueue), some (e.word.trap 0x08 sub lane byte [])) := by
  unfold State.drainOne
  unfold StoreEntry.isAtomic at probe
  cases kind : e.kind <;>
  · simp only [kind, Bool.false_eq_true, if_false, Bool.false_or, if_true, Bool.true_or] at probe
    simp only [hf, head, thawed, whole, log, place, fresh, kind, probe, Option.bind_some, Option.map_some, Bool.false_eq_true, if_false,
      Bool.false_or, if_true, Bool.true_or]
    rfl

/-- A step of the store queue takes the trap that the head of the queue meets. -/
theorem exec_storeQueueDrain_faults {s u : State} {r : FibRef} {t : TrapInfo} (drains : s.drainOne r = some (u, some t)) :
    exec (.storeQueueDrain r) s = .next (u.takeTrap r t) := by
  have he : exec (.storeQueueDrain r) s = execStoreQueueDrain r s := rfl
  rw [he, execStoreQueueDrain, drains]

/-- A step of the store queue leaves what the head of the queue leaves. -/
theorem exec_storeQueueDrain_leaves {s u : State} {r : FibRef} (drains : s.drainOne r = some (u, none)) :
    exec (.storeQueueDrain r) s = .next u := by
  have he : exec (.storeQueueDrain r) s = execStoreQueueDrain r s := rfl
  rw [he, execStoreQueueDrain, drains]

/-- A step of a queue that nothing leaves changes nothing. -/
theorem exec_storeQueueDrain_stays {s : State} {r : FibRef} (stays : s.drainOne r = none) : exec (.storeQueueDrain r) s = .next s := by
  have he : exec (.storeQueueDrain r) s = execStoreQueueDrain r s := rfl
  rw [he, execStoreQueueDrain, stays]

/-! ### The statement -/

/-- A WAITV of a misaligned global address traps before it reads anything (R264). -/
theorem waitv_misaligned {s : State} {h : Hdr} {d : BitVec 8} {x y : Src} {cc : Cc} {sgn x2 : Bool} {scope : Scope} {off : BitVec 32} :
    Traps (.waitv h d x y cc sgn x2 scope off) s (atPoint h) false ([(x, 2), (y, regCount x2)].flatMap (fun e => srcNames e.1 e.2))
      ([(x, 2), (y, regCount x2)].flatMap (fun e => srcLast e.1 e.2))
      (fun a b => b.wordFault a [x, y] (oneLane a.low) ((List.range (regCount x2)).map (fun j => d.toNat + j)) = none ∧
        inAperture (b.lowAddr a x off) = false ∧ b.lowAddr a x off % (if x2 then 8 else 4) ≠ 0)
      (fun a b => a.trap 8 5 a.low (b.lowAddr a x off) 0) := by
  have size : (if x2 then 8 else 4) = 4 * regCount x2 := by cases x2 <;> rfl
  have he : exec (.waitv h d x y cc sgn x2 scope off) s = execWaitv h d x y cc sgn x2 scope off s := rfl
  unfold execWaitv onceWord at he
  refine traps_of_runWord he fun a b ⟨pass, outside, misaligned⟩ => (unlessFault_pass pass).trans ?_
  rw [size] at misaligned
  have within : ¬ ((!b.boundsOk a.ref.wg (b.lowAddr a x off) (4 * regCount x2)) = true) := by simp [State.boundsOk, outside]
  have bad : (!(inAperture (b.lowAddr a x off)) && b.lowAddr a x off % (4 * regCount x2) != 0) = true := by simp [outside, misaligned]
  exact (if_neg within).trans (if_pos bad)

/-- Settles O26: a load whose reads fault is held (`loadBody_faults`); a misaligned address that comes first is the fault of a read and
of a probe; a queued word whose probe fails freezes its queue. That the lowest lane is reported is log entry 73, that the trap of a
held access follows its word at once is log entry 26. -/
theorem misalignedAccessesFault : Obligations.MisalignedAccessesFault := by
  unfold Obligations.MisalignedAccessesFault
  intro s h d x y size sgn x2 scope cc off ea n all inside v ready work
  refine ⟨fun sub k va => ?ldacq, ?first, ?queued, ?waitv⟩
  case ldacq =>
    have he : exec (.ldacq h d x size sgn scope off) s = execLdacq h d x size sgn scope off s := rfl
    unfold execLdacq at he
    exact heldTrap_of_runWord he fun a b ⟨pass, within, goes, fault⟩ =>
      (unlessFault_pass pass).trans (loadBody_faults within goes fault)
  case first =>
    intro r b ag byp fresh e rest outside misaligned
    exact ⟨by rw [loadAll_misaligned outside misaligned], probeAll_misaligned .rmw outside misaligned⟩
  case queued =>
    intro r f e rest k g l more hf head thawed whole aligned log place fresh accs outside misaligned
    have must : (e.isAtomic || e.release.isSome) = true := by
      obtain ⟨op, w, kind⟩ | releases := aligned
      · rw [StoreEntry.isAtomic, kind]
        rfl
      · rw [releases, Bool.or_true]
    refine exec_storeQueueDrain_faults (drainOne_faults hf head thawed whole log place fresh ?_)
    rw [must, accs]
    exact probeAll_misaligned _ outside misaligned
  case waitv => exact waitv_misaligned

end Sys2Proof.Machine
end

/-! ## Loads that return and queued stores that land (R209, R235, R241, R244, R247) -/

section
namespace Sys2Proof.Machine

/-! ### The queue that a fibre's stores enter -/

@[simp] theorem curQueue_setQueue (f : Fibre) (q : List StoreEntry) : (f.setQueue q).curQueue = q := by
  unfold Fibre.setQueue
  split
  next handles => exact if_pos handles
  next own => exact if_neg own

/-- After a store that reports no race, whose word holds no place of the operand log: the others, behind what of it is left (R244). -/
theorem curQueue_afterStore {f : Fibre} {e : StoreEntry} {rest : List StoreEntry} (head : f.curQueue = e :: rest) (log : e.log = none)
    (left : List Byte) : (f.afterStore e left false).curQueue = if left = [] then rest
      else { e with acc := ⟨e.acc.lane, e.acc.addr + BitVec.ofNat 64 e.share, left⟩, begun := true } :: rest := by
  have same : (f.curQueue.drop 1).map (fun (x : StoreEntry) =>
      if x.word.num == e.word.num then { x with reported := x.reported || false } else x) = rest := by
    rw [head, List.drop_one, List.tail_cons]
    simp only [Bool.or_false, ite_self, List.map_id']
  unfold Fibre.afterStore
  dsimp only
  rw [same]
  cases left with
  | nil => simp only [log, curQueue_setQueue, if_true]
  | cons x l => simp only [Bool.or_false, curQueue_setQueue, reduceCtorEq, if_false]

/-! ### What a store to the scratchpad changes -/

/-- What the charge of an access and the watches of a line leave alone: work-groups, launches and the memories. -/
def State.besideCharges (s : State) : Map WorkGroup × Map Launch × Memory × Memory × Memory :=
  (s.wgs, s.launches, s.mem, s.scratch, s.w0)

theorem besideCharges_chargeLines (s : State) (a : Agent) (l : List (Nat × Nat)) :
    (s.chargeLines a l).besideCharges = s.besideCharges := by
  refine foldl_keeps State.besideCharges (fun v k => ?_) _ s
  split
  · rfl
  · split <;> rfl

theorem besideCharges_scratchWrite (s : State) (p : Nat) (l : List Byte) :
    (s.scratchWrite p l).besideCharges = (s.wgs, s.launches, s.mem, Memory.write s.scratch p l, s.w0) :=
  foldl_keeps (step := State.fireWatches) State.besideCharges (fun _ _ => rfl) _ _

/-- Where an aperture range leads is up to the work-groups and launches alone. -/
theorem aperture_congr {s t : State} (wgs : t.wgs = s.wgs) (launches : t.launches = s.launches) (g o n : Nat) :
    t.aperture g o n = s.aperture g o n := by
  unfold State.aperture State.apertureTarget State.launch
  rw [wgs, launches]

/-- A shorter range at the same offset leads to the same place. -/
theorem aperture_shorter {s : State} {g o m n p : Nat} (place : s.aperture g o n = some p) (hm : m ≤ n) : s.aperture g o m = some p := by
  unfold State.aperture at place ⊢
  split at place
  next w core byte hw ht =>
    split at place
    next inside => rw [if_pos (by omega), place]
    next => cases place
  next => cases place

/-! ### What leaves a queue -/

section
variable {s : State} {r : FibRef} {f : Fibre}

theorem drainOne_empty (hf : s.fib r = some f) (empty : f.curQueue = []) : s.drainOne r = none := by
  simp only [State.drainOne, hf, empty]

theorem drainOne_frozen {e : StoreEntry} {rest : List StoreEntry} (hf : s.fib r = some f) (head : f.curQueue = e :: rest)
    (frozen : e.frozen = true) : s.drainOne r = none := by
  simp only [State.drainOne, hf, head, frozen, if_true]

theorem checkedPieces_unchecked {a : Agent} (unchecked : a.checked = false) (va n : Nat) : s.checkedPieces r a va n = [] := by
  rw [State.checkedPieces, unchecked]
  rfl

/-- In a launch that is not checked no store races (R272). -/
theorem storeVerdict_unchecked {a : Agent} (unchecked : a.checked = false) (e : StoreEntry) : s.storeVerdict r a e = .clean := by
  simp only [State.storeVerdict, State.isChecked, State.checkAccess, checkedPieces_unchecked unchecked, List.isEmpty_nil, Bool.not_true,
    Bool.false_eq_true, if_false, List.foldl_nil, ite_self]

theorem commitAccess_unchecked {a : Agent} (unchecked : a.checked = false) (va n : Nat) (atomic : Bool) (rel : Option Scope) (clock : Nat) :
    s.commitAccess r a va n atomic rel clock = s := by
  rw [State.commitAccess, checkedPieces_unchecked unchecked]
  rfl

/-- A plain store of an unchecked launch that holds no place of the operand log leaves the queue with its energy charged. -/
theorem drainOne_plain {e : StoreEntry} {rest : List StoreEntry} (hf : s.fib r = some f) (head : f.curQueue = e :: rest)
    (thawed : e.frozen = false) (whole : e.begun = false) (log : e.log = none) (kind : e.kind = .plain)
    (unchecked : (s.agent r.wg).checked = false) :
    let v := s.chargeLines (s.agent r.wg) [(e.acc.addr.toNat, e.acc.bytes.length)]
    let w := v.storeAt (s.agent r.wg) r.wg false e.acc.addr.toNat (e.acc.bytes.take e.share)
    s.drainOne r = some (w.modFib r (fun f => f.afterStore e (e.acc.bytes.drop e.share) false), none) := by
  simp only [State.drainOne, State.storeNext, hf, head, thawed, whole, log, kind, storeVerdict_unchecked unchecked,
    commitAccess_unchecked unchecked, Option.bind_none, Bool.false_eq_true, if_false]
  rfl

end

/-- Settles O25: a load's registers are written by `State.loadDone`; the head of a queue leaves it as `drainOne_plain` says, and
`State.scratchWrite` writes its bytes. -/
theorem queuedStoresLand : Obligations.QueuedStoresLand := by
  unfold Obligations.QueuedStoresLand
  intro s r f hf
  have hload : exec (.loadComplete r) s = .next (s.loadDone r) := rfl
  refine ⟨fun l rest loads => ?returns, fun noLoads => ?noLoad, fun empty => exec_storeQueueDrain_stays (drainOne_empty hf empty),
    fun e rest head frozen => exec_storeQueueDrain_stays (drainOne_frozen hf head frozen),
    fun e rest p head thawed whole log kind inside place unchecked wf => ?lands⟩
  case returns => simp only [hload, State.loadDone, hf, loads]
  case noLoad => simp only [hload, State.loadDone, hf, noLoads]
  case lands =>
    intro now left
    let v := s.chargeLines (s.agent r.wg) [(e.acc.addr.toNat, e.acc.bytes.length)]
    have charged : v.besideCharges = s.besideCharges := besideCharges_chargeLines s _ _
    simp only [State.besideCharges, Prod.mk.injEq] at charged
    obtain ⟨vwgs, vlaunches, vmem, vscratch, vw0⟩ := charged
    have target : v.aperture r.wg (e.acc.addr.toNat - Config.aperture) now.length = some p := by
      rw [aperture_congr vwgs vlaunches]
      exact aperture_shorter place (List.length_take_le' _ _)
    have stored : v.storeAt (s.agent r.wg) r.wg false e.acc.addr.toNat now = v.scratchWrite p now := by
      simp only [State.storeAt, inside, target, if_true]
    have written := besideCharges_scratchWrite v p now
    simp only [State.besideCharges, Prod.mk.injEq] at written
    obtain ⟨wwgs, -, wmem, wscratch, ww0⟩ := written
    have fibre : (v.scratchWrite p now).fib r = some f := (fib_of_wgs (wwgs.trans vwgs) r).trans hf
    have drains := drainOne_plain hf head thawed whole log kind unchecked
    refine ⟨(v.scratchWrite p now).modFib r (fun f => f.afterStore e left false), ?step, wmem.trans vmem, ww0.trans vw0, ?queue,
      fun q => ?bytes⟩
    case step =>
      rw [← stored]
      exact exec_storeQueueDrain_leaves drains
    case queue =>
      rw [fib_modFib_same fibre, Option.map_some, curQueue_afterStore head log]
    case bytes =>
      rw [modFib_scratch, wscratch, vscratch]
      exact Memory.get_write wf p q now

end Sys2Proof.Machine
end

/-! ## Atomics (R264 to R267) -/

section
namespace Sys2Proof.Machine

/-! ### Numbers in memory -/

theorem leNat_lt (l : List Byte) : leNat l < 256 ^ l.length := by
  induction l with
  | nil => exact Nat.one_pos
  | cons b l ih =>
    have hb : b.toNat < 256 := b.isLt
    have hl : leNat (b :: l) = b.toNat + 256 * leNat l := rfl
    rw [hl, List.length_cons, Nat.pow_succ]
    omega

theorem leBytes_succ (n v : Nat) : leBytes (n + 1) v = BitVec.ofNat 8 v :: leBytes n (v / 256) := by
  simp only [leBytes, List.range_succ_eq_map, List.map_cons, List.map_map, Nat.pow_zero, Nat.div_one]
  refine congrArg _ (List.map_congr_left fun i _ => ?_)
  rw [Function.comp_apply, Nat.succ_eq_add_one, Nat.pow_succ', Nat.div_div_eq_div_mul]

@[simp] theorem length_leBytes (n v : Nat) : (leBytes n v).length = n := by rw [leBytes, List.length_map, List.length_range]

theorem leNat_leBytes (n v : Nat) : leNat (leBytes n v) = v % 256 ^ n := by
  induction n generalizing v with
  | zero => exact (Nat.mod_one v).symm
  | succ n ih =>
    have first : leNat (BitVec.ofNat 8 v :: leBytes n (v / 256)) = v % 256 + 256 * leNat (leBytes n (v / 256)) := rfl
    rw [leBytes_succ, first, ih, Nat.pow_succ', Nat.mod_mul]

theorem pow_bytes (n : Nat) : 256 ^ n = 2 ^ (8 * n) := by rw [Nat.pow_mul]

theorem Memory.num_lt (m : Memory) (p n : Nat) : Memory.num m p n < 2 ^ (8 * n) := by
  have bound := leNat_lt (Memory.read m p n)
  rwa [Memory.read, List.length_map, List.length_range, pow_bytes] at bound

/-- The number read back from bytes that hold it. -/
theorem Memory.num_write {m : Memory} (wf : Memory.wf m = true) (p n : Nat) {v : Nat} (fits : v < 2 ^ (8 * n)) :
    Memory.num (Memory.write m p (leBytes n v)) p n = v := by
  have read := Memory.read_write wf p (leBytes n v)
  rw [length_leBytes] at read
  rw [Memory.num, read, leNat_leBytes, pow_bytes, Nat.mod_eq_of_lt fits]

/-! ### One lane (R265) -/

section
variable {op : AtomOp} {w old v new : Nat}

/-- What an atomic stores is no wider than what it reads. -/
theorem atomResult_lt (hold : old < 2 ^ w) (hv : v < 2 ^ w) (hnew : new < 2 ^ w) (integer : op ≠ .fadd) :
    atomResult op w old v new < 2 ^ w := by
  cases op with
  | add => exact Nat.mod_lt _ (Nat.two_pow_pos w)
  | minS | maxS | cas =>
    unfold atomResult
    dsimp only
    split <;> assumption
  | minZ => exact (Nat.min_le_left old v).trans_lt hold
  | maxZ => exact Nat.max_lt.2 ⟨hold, hv⟩
  | and => exact Nat.and_lt_two_pow old hv
  | or => exact Nat.or_lt_two_pow hold hv
  | xor => exact Nat.xor_lt_two_pow hold hv
  | exch => exact hv
  | fadd => exact absurd rfl integer

end

section
variable {s : State} {g va p : Nat} {ag : Agent} {op : AtomOp} {x2 : Bool} {v new : Nat}

/-- In the scratchpad one lane reads the number at its address and writes the operation's result there. -/
theorem atomAt_aperture (inside : inAperture va = true) {n : Nat} (size : (if x2 then 8 else 4) = n)
    (place : s.aperture g (va - Config.aperture) n = some p) :
    let old := Memory.num s.scratch p n
    s.atomAt ag g va op x2 v new = (old, s.scratchWrite p (leBytes n (atomResult op (8 * n) old v new))) := by
  simp only [State.atomAt, inside, size, place, if_true]

end

/-! ### ATOM -/

/-- Whether an operation is one that a deterministic launch refuses (R267). -/
theorem addRefused_eq_false {op : AtomOp} {determ : Bool} (may : op = .fadd → determ = false) : (op == .fadd && determ) = false := by
  by_cases add : op = .fadd
  · rw [may add, Bool.and_false]
  · rw [beq_false_of_ne add, Bool.false_and]

/-- The host takes the operations of the PCIe requests (R266). -/
theorem hostRefuses_eq_false {op : AtomOp} {any : Bool} (takes : any = true → op = .add ∨ op = .exch ∨ op = .cas) :
    (any && !(atomHost op)) = false := by
  cases any with
  | false => rfl
  | true =>
    have taken : atomHost op = true := by simpa [atomHost, or_assoc] using takes rfl
    rw [taken]
    rfl

section
variable {a : Act} {s : State} {d : Nat} {x y : Src} {op : AtomOp} {x2 : Bool} {ord : Ord} {scope : Scope} {off : BitVec 32}

/-- The accesses of an ATOM within bounds, and the lanes of the others. -/
def atomBounds (x y : Src) (op : AtomOp) (x2 : Bool) (off : BitVec 32) (a : Act) (s : State) : List LaneAcc × Mask :=
  s.bounds a.ref.wg (if x2 then 8 else 4) (redAccs x y op x2 off a s)

/-- The state in which an ATOM whose lines are present acts, but for the operand log: lanes out of bounds are switched off (R225). -/
def atomInside (x y : Src) (op : AtomOp) (x2 : Bool) (off : BitVec 32) (a : Act) (s : State) : State :=
  s.switchOff a.ref (atomBounds x y op x2 off a s).2

/-- What ATOM answers once its fibre's stores have left. -/
def atomBody (d : Nat) (x y : Src) (op : AtomOp) (x2 : Bool) (ord : Ord) (scope : Scope) (off : BitVec 32) (a : Act) (s : State) : Out :=
  let n := if x2 then 8 else 4
  let swap (i : Nat) : Nat := (s.atomArgs a.ref y op x2 i).2
  let l := (atomBounds x y op x2 off a s).1
  let z := atomInside x y op x2 off a s
  let absent := z.absentLines a.ref.wg n l
  if l.isEmpty then .done z
  else if !absent.isEmpty then .hold z a.group (.present absent) true
  else afterLog a z (z.mayLog a.ref l) fun u =>
    let known := if ordAcquires ord then u.learn a.ref (u.agent a.ref.wg) n scope l else u
    afterCheck a u known (l.map (fun e => (e.lane, e.addr.toNat, n, 2)))
      (fun lane va rcd =>
        let r := u.logFault a n l (.atom d op x2 ord scope ((List.range 32).map swap)) 0x18 0 lane va rcd
        .logged r.1 r.2)
      (atomChecked a u d op x2 ord scope l swap)

theorem exec_atom (h : Hdr) (d : BitVec 8) (x y : Src) (op : AtomOp) (x2 : Bool) (ord : Ord) (scope : Scope) (off : BitVec 32)
    (s : State) : exec (.atom h d x y op x2 ord scope off) s =
      runWord (atPoint h) false (srcNames x 2 ++ srcNames y (atomRegs op x2)) (srcLast x 2 ++ srcLast y (atomRegs op x2)) 6 s
        fun a b => unlessFault b a [x, y] a.lanes ((List.range (regCount x2)).map (fun j => d.toNat + j))
          (if op == .fadd && (b.launchOf a.ref.wg).determ then .bad a.nondet
          else afterStores a b (atomBody d.toNat x y op x2 ord scope off a)) := rfl

theorem atomBody_outside (outside : (atomBounds x y op x2 off a s).1 = []) :
    atomBody d x y op x2 ord scope off a s = .done (atomInside x y op x2 off a s) := by
  rw [atomBody, outside]
  rfl

theorem atomBody_absent (inside : (atomBounds x y op x2 off a s).1 ≠ [])
    (absent : (atomInside x y op x2 off a s).absentLines a.ref.wg (if x2 then 8 else 4) (atomBounds x y op x2 off a s).1 ≠ []) :
    atomBody d x y op x2 ord scope off a s = .hold (atomInside x y op x2 off a s) a.group
      (.present ((atomInside x y op x2 off a s).absentLines a.ref.wg (if x2 then 8 else 4) (atomBounds x y op x2 off a s).1)) true := by
  unfold atomBody
  dsimp only
  rw [if_neg (by simpa using inside), if_pos (by simpa using absent)]

/-- The state in which an ATOM is checked for races: the operand log has a place (R235, R288). -/
def atomLogged (x y : Src) (op : AtomOp) (x2 : Bool) (off : BitVec 32) (a : Act) (s : State) : State :=
  let z := atomInside x y op x2 off a s
  (z.withLog a.ref (z.mayLog a.ref (atomBounds x y op x2 off a s).1)).1

/-- The race check of an ATOM, in the state that its acquire leaves (R281, R283). -/
def atomCheck (x y : Src) (op : AtomOp) (x2 : Bool) (ord : Ord) (scope : Scope) (off : BitVec 32) (a : Act) (s : State) :
    Except (Nat × Nat × List Word) CheckNote :=
  let n := if x2 then 8 else 4
  let l := (atomBounds x y op x2 off a s).1
  let u := atomLogged x y op x2 off a s
  (if ordAcquires ord then u.learn a.ref (u.agent a.ref.wg) n scope l else u).raceCheck a (u.agent a.ref.wg)
    (l.map (fun e => (e.lane, e.addr.toNat, n, 2)))

/-- An ATOM of present lines that no race stops does what `atomChecked` says of its accesses, and its commit notes what the check says. -/
theorem atomBody_checked (inside : (atomBounds x y op x2 off a s).1 ≠ [])
    (present : (atomInside x y op x2 off a s).absentLines a.ref.wg (if x2 then 8 else 4) (atomBounds x y op x2 off a s).1 = [])
    (log : (atomInside x y op x2 off a s).logGoes a.ref
      ((atomInside x y op x2 off a s).mayLog a.ref (atomBounds x y op x2 off a s).1))
    (race : (atomCheck x y op x2 ord scope off a s).isOk = true) :
    atomBody d x y op x2 ord scope off a s =
      (atomChecked a (atomLogged x y op x2 off a s) d op x2 ord scope (atomBounds x y op x2 off a s).1
        (fun i => (s.atomArgs a.ref y op x2 i).2)).noting a.ref ((atomCheck x y op x2 ord scope off a s).toOption.getD (0, none)) := by
  unfold atomBody
  dsimp only
  rw [if_neg (by simpa using inside), if_neg (by simpa using present), afterLog_goes log]
  exact afterCheck_ok race

/-- Accesses that pass their probe are performed in lane order, after a release where the word is one (R265, R268). -/
theorem atomChecked_performs {l : List LaneAcc} {swap : Nat → Nat}
    (probe : (s.probeAll (s.agent a.ref.wg) .rmw true (if x2 then 8 else 4) l).1 = none) :
    let found := (s.probeAll (s.agent a.ref.wg) .rmw true (if x2 then 8 else 4) l).2
    (found.anyHost (s.agent a.ref.wg) l = true → op = .add ∨ op = .exch ∨ op = .cas) →
    (ordReleases ord = true → found.storesLeave a.ref) → atomChecked a s d op x2 ord scope l swap =
      .done (if ordReleases ord then
          (found.released a scope).2.atomLanes a.ref d op x2 true (ordAcquires ord) scope (found.released a scope).1 l swap
        else found.atomLanes a.ref d op x2 false (ordAcquires ord) scope 0 l swap) := by
  intro found host leave
  have probed : s.probeAll (s.agent a.ref.wg) .rmw true (if x2 then 8 else 4) l = (none, found) := Prod.ext probe rfl
  unfold atomChecked
  dsimp only
  rw [probed]
  dsimp only
  rw [hostRefuses_eq_false host, if_neg Bool.false_ne_true]
  cases releases : ordReleases ord with
  | false => rfl
  | true => exact (if_pos rfl).trans (afterRelease_leave (leave releases))

end

/-- Settles O27: ATOM answers what `atomBody` says once the fibre's stores have left, and its lanes are performed by `State.atomLanes`;
one lane in the scratchpad reads and writes by `atomAt_aperture`, and the result fits the bytes it is written to. -/
theorem atomsReadModifyWrite : Obligations.AtomsReadModifyWrite := by
  unfold Obligations.AtomsReadModifyWrite
  refine ⟨?words, ?lane⟩
  case words =>
    intro s h d x y op x2 ord scope off n ea acq rel v all swap l z u ag check found i reads last ok goes
    have word := exec_atom h d x y op x2 ord scope off s
    have left : ∀ a b, goes a b → unlessFault b a [x, y] a.lanes ((List.range (regCount x2)).map (fun j => d.toNat + j))
        (if op == .fadd && (b.launchOf a.ref.wg).determ then .bad a.nondet
        else afterStores a b (atomBody d.toNat x y op x2 ord scope off a)) = atomBody d.toNat x y op x2 ord scope off a (v a b) := by
      intro a b ⟨pass, may, leave⟩
      rw [unlessFault_pass pass, addRefused_eq_false may, if_neg Bool.false_ne_true]
      exact afterStores_leave leave
    refine ⟨?outside, ?performs, ?parks, ?traps⟩
    case outside => exact does_of_runWord word fun a b ⟨go, outside⟩ => (left a b go).trans (atomBody_outside outside)
    case performs =>
      refine does_of_runWord word fun a b ⟨go, inside, present, log, race, probe, host, leave⟩ => (left a b go).trans ?_
      exact (atomBody_checked inside present log race).trans
        (congrArg (Out.noting a.ref _) (atomChecked_performs probe host leave))
    case parks => exact waits_of_runWord word fun a b ⟨go, inside, absent⟩ => (left a b go).trans (atomBody_absent inside absent)
    case traps =>
      refine traps_of_runWord word fun a b ⟨pass, add, determ⟩ => (unlessFault_pass pass).trans (if_pos ?_)
      rw [add, determ]
      rfl
  case lane =>
    intro s g ag va p op x2 v new n inside place wf old r
    have acts : r = (old, s.scratchWrite p (leBytes n (atomResult op (8 * n) old v new))) := atomAt_aperture inside rfl place
    have written := besideCharges_scratchWrite s p (leBytes n (atomResult op (8 * n) old v new))
    simp only [State.besideCharges, Prod.mk.injEq] at written
    obtain ⟨-, -, mem, scratch, -⟩ := written
    rw [acts]
    refine ⟨rfl, fun q away => ?_, mem, fun hv hnew integer => ?_⟩
    · rw [scratch, Memory.get_write wf, length_leBytes, if_neg (by omega)]
    · rw [scratch, Memory.num_write wf p n (atomResult_lt (Memory.num_lt _ _ _) hv hnew integer)]
      cases op with
      | fadd => exact absurd rfl integer
      | cas => exact if_congr beq_iff_eq rfl rfl
      | _ => rfl

end Sys2Proof.Machine
end

/-! ## Fences and waits on memory (R253, R256, R264, R269, R270) -/

section
namespace Sys2Proof.Machine

/-! ### Replicas (R256) -/

theorem replicas_none {s : State} (empty : s.replicas = []) : { s with replicas := [] } = s := by rw [← empty]

/-- Whether a store of a replica is one that a test names, or an earlier one of the same page. -/
def State.storeDue (s : State) (p : ReplicaStore → Bool) (e : ReplicaStore × Nat) : Bool :=
  s.replicas.zipIdx.any (fun y => e.2 ≤ y.2 && p y.1 && e.1.follows y.1)

theorem applyWhere_any {s : State} {p : ReplicaStore → Bool} (named : s.replicas.any p = true) : s.applyWhere p =
    { (s.replicas.zipIdx.filter (s.storeDue p)).foldl (fun (w : State) e => w.applyStore e.1) s with
      replicas := (s.replicas.zipIdx.filter (fun e => !(s.storeDue p e))).map Prod.fst } := if_pos named

theorem storeDue_named {s : State} {p : ReplicaStore → Bool} {e : ReplicaStore × Nat} (he : e ∈ s.replicas.zipIdx)
    (named : p e.1 = true) (page : 0 < e.1.page.2) : s.storeDue p e = true := by
  have itself : e.1.follows e.1 = true := by rw [ReplicaStore.follows, decide_eq_true (by omega), Bool.and_self]
  exact List.any_eq_true.2 ⟨e, he, by rw [itself, named, decide_eq_true (Nat.le_refl _)]; rfl⟩

/-- Every replica applies every store, in the order in which they came, where every page has bytes. -/
theorem applyReplicas_all {s : State} (pages : ∀ e ∈ s.replicas, 0 < e.page.2) :
    s.applyReplicas = { s.replicas.foldl (fun w e => w.applyStore e) s with replicas := [] } := by
  by_cases empty : s.replicas = []
  · rw [State.applyReplicas, State.applyWhere, empty]
    exact (replicas_none empty).symm
  · obtain ⟨e, he⟩ := List.exists_mem_of_ne_nil _ empty
    have due : ∀ e ∈ s.replicas.zipIdx, s.storeDue (fun _ => true) e = true := fun e he =>
      storeDue_named he rfl (pages e.1 (List.fst_mem_of_mem_zipIdx he))
    have applied : s.replicas.zipIdx.filter (s.storeDue fun _ => true) = s.replicas.zipIdx := List.filter_eq_self.2 due
    have left : s.replicas.zipIdx.filter (fun e => !(s.storeDue (fun _ => true) e)) = [] :=
      List.filter_eq_nil_iff.2 fun e he => by rw [due e he]; exact Bool.false_ne_true
    have order : s.replicas.zipIdx.foldl (fun (w : State) e => w.applyStore e.1) s = s.replicas.foldl (fun w e => w.applyStore e) s := by
      rw [← List.foldl_map (f := Prod.fst) (g := fun (w : State) e => w.applyStore e), List.zipIdx_map_fst]
    rw [State.applyReplicas, applyWhere_any (List.any_eq_true.2 ⟨e, he, rfl⟩), applied, left, order]
    rfl

/-! ### WAITV -/

/-- Lets the fibre's queued atomics leave, and goes on: an older store that faults comes first (R235, R247). -/
def afterAtomics (a : Act) (s : State) (k : State → Out) : Out :=
  match s.settleAtomics a.ref with
  | (v, some t) => .older v t
  | (v, none) => k v

theorem afterAtomics_leave {a : Act} {s : State} {k : State → Out} (older : (s.settleAtomics a.ref).2 = none) :
    afterAtomics a s k = k (s.settleAtomics a.ref).1 := by
  have settled : s.settleAtomics a.ref = ((s.settleAtomics a.ref).1, none) := Prod.ext rfl older
  rw [afterAtomics, settled]

section
variable {a : Act} {s : State} {d : BitVec 8} {x y : Src} {cc : Cc} {sgn x2 : Bool} {scope : Scope} {off : BitVec 32}

/-- The access of a WAITV. -/
def waitvAcc (x : Src) (off : BitVec 32) (a : Act) (s : State) : LaneAcc := ⟨a.low, BitVec.ofNat 64 (s.lowAddr a x off), []⟩

/-- What WAITV answers with the bytes `l` that it has read at `va`: it completes where they satisfy its comparison, and parks with a watch
on their line where they do not. -/
def waitvRead (d : BitVec 8) (y : Src) (cc : Cc) (sgn x2 : Bool) (scope : Scope) (a : Act) (ag : Agent) (va : Nat) (acc : LaneAcc)
    (l : List Byte) (s : State) : Out :=
  let n := 4 * regCount x2
  let v := BitVec.ofNat 64 (leNat l)
  if ccHolds cc (extVal sgn (8 * n) v) (extVal sgn (8 * n) (BitVec.ofNat 64 (leNat (s.valueBytes a.ref y n a.low)))) then
    let w := s.acquireAll a.ref ag n scope [acc]
    .done (if x2 then w.putPair a.ref d.toNat a.lanes (fun _ => v) else w.putAll a d.toNat v.toNat)
  else
    let r := s.addWatch ag.core (s.watchLine a.ref ag va) a.ref
    .hold r.2 a.group (.watch r.1 (r.2.tick + 256) va) true

/-- What WAITV answers once its latches and registers have been checked. -/
def waitvBody (d : BitVec 8) (x y : Src) (cc : Cc) (sgn x2 : Bool) (scope : Scope) (off : BitVec 32) (a : Act) (s : State) : Out :=
  let n := 4 * regCount x2
  let ag := s.agent a.ref.wg
  let va := s.lowAddr a x off
  let acc := waitvAcc x off a s
  if !(s.boundsOk a.ref.wg va n) then
    let me := oneLane a.low
    .done ((s.modFib a.ref (fun f => f.putBack f (a.group &&& ~~~me) a.pc)).switchOff a.ref me)
  else if !(inAperture va) && va % n != 0 then .bad (a.trap 8 5 a.low va 0)
  else if !(s.absentLines a.ref.wg n [acc]).isEmpty then .hold s a.group (.present (s.absentLines a.ref.wg n [acc])) true
  else if s.owesAt a.ref (s.scratchRanges a.ref.wg n [acc]) then .hold s a.group .owed false
  else afterAtomics a s fun v => afterLog a v (v.launchOf a.ref.wg).checked fun u =>
    afterCheck a u (u.knowing a ag n (some scope) [acc]) [(a.low, va, n, 0)] (raceOnce a u)
      (match u.loadBytes a.ref ag false true va n with
      | (.error (sub, byte), _) => .bad (a.trap 8 sub a.low byte 0)
      | (.ok l, w) => waitvRead d y cc sgn x2 scope a ag va acc l w)

theorem exec_waitv (h : Hdr) (d : BitVec 8) (x y : Src) (cc : Cc) (sgn x2 : Bool) (scope : Scope) (off : BitVec 32) (s : State) :
    exec (.waitv h d x y cc sgn x2 scope off) s =
      onceWord (atPoint h) [(x, 2), (y, regCount x2)] ((List.range (regCount x2)).map (fun j => d.toNat + j)) s
        (waitvBody d x y cc sgn x2 scope off) := rfl

/-- The race check of a WAITV, in the state that its acquire leaves (R281, R283). -/
def waitvCheck (x : Src) (x2 : Bool) (scope : Scope) (off : BitVec 32) (a : Act) (s : State) :
    Except (Nat × Nat × List Word) CheckNote :=
  let n := 4 * regCount x2
  ((s.recordsReady a).knowing a (s.agent a.ref.wg) n (some scope) [waitvAcc x off a s]).raceCheck a
    ((s.recordsReady a).agent a.ref.wg) [(a.low, s.lowAddr a x off, n, 0)]

/-- The bytes that a WAITV reads, or its fault (R226). -/
def waitvLoad (x : Src) (x2 : Bool) (off : BitVec 32) (a : Act) (s : State) : Except (Nat × Nat) (List Byte) × State :=
  (s.recordsReady a).loadBytes a.ref (s.agent a.ref.wg) false true (s.lowAddr a x off) (4 * regCount x2)

/-- A WAITV reads: its address is in bounds and aligned, its line is present and owed no row, no older store faults, the operand log has a
place, no race traps and the read does not fault (R188, R224 to R226, R235, R264, R288). -/
def WaitvReads (x : Src) (x2 : Bool) (scope : Scope) (off : BitVec 32) (a : Act) (s : State) : Prop :=
  let n := 4 * regCount x2
  let va := s.lowAddr a x off
  s.boundsOk a.ref.wg va n = true ∧ (inAperture va = true ∨ va % n = 0) ∧ s.absentLines a.ref.wg n [waitvAcc x off a s] = [] ∧
    s.owesAt a.ref (s.scratchRanges a.ref.wg n [waitvAcc x off a s]) = false ∧ (s.settleAtomics a.ref).2 = none ∧
    (s.settleAtomics a.ref).1.logGoes a.ref ((s.settleAtomics a.ref).1.launchOf a.ref.wg).checked ∧
    (waitvCheck x x2 scope off a s).isOk = true ∧ (waitvLoad x x2 off a s).1.isOk = true

theorem waitvBody_reads (goes : WaitvReads x x2 scope off a s) : waitvBody d x y cc sgn x2 scope off a s =
    (waitvRead d y cc sgn x2 scope a (s.agent a.ref.wg) (s.lowAddr a x off) (waitvAcc x off a s)
      ((waitvLoad x x2 off a s).1.toOption.getD []) (waitvLoad x x2 off a s).2).noting a.ref
        ((waitvCheck x x2 scope off a s).toOption.getD (0, none)) := by
  obtain ⟨inside, aligned, present, paid, older, log, race, reads⟩ := goes
  have read : waitvLoad x x2 off a s = (.ok ((waitvLoad x x2 off a s).1.toOption.getD []), (waitvLoad x x2 off a s).2) :=
    Prod.ext (eq_ok_of_isOk reads []) rfl
  have straight : ¬ ((!(inAperture (s.lowAddr a x off)) && s.lowAddr a x off % (4 * regCount x2) != 0) = true) := by
    rcases aligned with aperture | whole
    · rw [aperture]
      exact Bool.false_ne_true
    · rw [whole, bne_self_eq_false, Bool.and_false]
      exact Bool.false_ne_true
  unfold waitvBody
  dsimp only
  rw [inside, if_neg straight, present, paid, afterAtomics_leave older, afterLog_goes log]
  refine (afterCheck_ok race).trans ?_
  unfold waitvLoad State.recordsReady at read
  dsimp only at read
  rw [read]
  rfl

end

/-- Settles O28: FENCE acts once the fibre's stores have left, and replicas apply their stores by `applyReplicas_all`; a WAITV that reads
(`waitvBody_reads`) completes or parks by its comparison. -/
theorem fencesAndWaits : Obligations.FencesAndWaits := by
  unfold Obligations.FencesAndWaits
  intro s h scope d x y cc sgn x2 off n ea acc srcs dsts u check read ready got holds watch
  have word := exec_waitv h d x y cc sgn x2 scope off s
  have reads : ∀ a b, ready a b → waitvBody d x y cc sgn x2 scope off a b =
      (waitvRead d y cc sgn x2 scope a (b.agent a.ref.wg) (ea a b) (acc a b) ((read a b).1.toOption.getD []) (read a b).2).noting a.ref
        ((check a b).toOption.getD (0, none)) := fun a b goes => waitvBody_reads goes
  refine ⟨?fence, fun v pages => applyReplicas_all pages, ?completes, ?parks⟩
  case fence => exact does_of_runWord (show _ = execFence h scope s from rfl) fun _ _ leave => afterStores_leave leave
  case completes =>
    exact onceDoes_of_onceWord word fun a b ⟨goes, satisfied⟩ => by
      rw [reads a b goes, waitvRead, if_pos satisfied]
      rfl
  case parks =>
    exact waits_of_onceWord word fun a b ⟨goes, unsatisfied⟩ => by
      rw [reads a b goes, waitvRead, if_neg unsatisfied]
      rfl

end Sys2Proof.Machine
end

/-! ## Copies (R258, R259, R298, R299, R301, R302, R309 to R311) -/

section
namespace Sys2Proof.Machine

section
variable {a : Act} {s : State} {x : Src} {off : BitVec 32}

/-! ### CPYK -/

/-- The cards of some requests: each with the scope of its copy (R258). -/
def State.cardsOf (s : State) (a : Act) (recs : List CopyRec) : List (CopyRec × Scope) :=
  recs.map (fun r => (r, s.copyScope a.ref.wg (s.ctxOf a.ref.wg) r))

/-- What CPYK does with cards that it accepts: after a release at the widest of their scopes they enter the core's queue, in their order. -/
def acceptCards (core o : Nat) (a : Act) (s : State) (cards : List (CopyRec × Scope)) : Out :=
  kicked a s (cards.foldl (fun sc e => scopeMax sc e.2) .core) fun k v =>
    .done (cards.foldl (fun (e : State × Nat) r =>
      (e.1.acceptCard core (o + 64 * e.2) (e.1.baseOf a.ref.wg) r.1 { k with scope := r.2 }, e.2 + 1)) (v, 0)).1

/-- What CPYK does with the records that it has read (R299). -/
def cpykRecords (core o : Nat) (a : Act) (l : List (List Byte)) (s : State) : Out :=
  if !((l.map readCopy).all (fun r => (r.map (s.copyOk a.ref.wg)).getD false)) then .bad (a.operand a.low 7)
  else acceptCards core o a s (s.cardsOf a ((l.map readCopy).filterMap id))

/-- What CPYK answers once its latch has been checked. -/
def cpykBody (x : Src) (n : BitVec 5) (off : BitVec 32) (a : Act) (s : State) : Out :=
  let core := s.coreOf a.ref.wg
  let o := s.jobOffset a x off
  if 64 < (s.core core).cards.length + n.toNat then .hold s a.group (.room n.toNat) false
  else if o % 64 != 0 || (s.ownRegion a.ref.wg o (64 * n.toNat)).isNone then .bad (a.operand a.low 6)
  else ownRecords a s o 64 n.toNat (cpykRecords core o a)

theorem exec_cpyk (h : Hdr) (x : Src) (n : BitVec 5) (off : BitVec 32) (s : State) :
    exec (.cpyk h x n off) s = onceWord h [(x, 1)] [] s (cpykBody x n off) := rfl

/-- The records of a job stand aligned in the issuing core's own region, and are read (R246, R247, R288). -/
def RecordsRead (x : Src) (off : BitVec 32) (n : Nat) (a : Act) (s : State) : Prop :=
  s.jobOffset a x off % 64 = 0 ∧ (s.ownRegion a.ref.wg (s.jobOffset a x off) (64 * n)).isSome = true ∧
    RecordsGo a s (s.jobOffset a x off) 64 n

theorem misplaced_eq_false {n : Nat} (aligned : s.jobOffset a x off % 64 = 0)
    (own : (s.ownRegion a.ref.wg (s.jobOffset a x off) (64 * n)).isSome = true) :
    (s.jobOffset a x off % 64 != 0 || (s.ownRegion a.ref.wg (s.jobOffset a x off) (64 * n)).isNone) = false := by
  rw [aligned, Option.isNone_eq_false_iff.2 own]
  rfl

theorem cpykBody_reads {n : BitVec 5} (room : (s.core (s.coreOf a.ref.wg)).cards.length + n.toNat ≤ 64)
    (reads : RecordsRead x off n.toNat a s) : cpykBody x n off a s =
      (cpykRecords (s.coreOf a.ref.wg) (s.jobOffset a x off) a (s.recordsAt a (s.jobOffset a x off) 64 n.toNat)
        (s.recordsReady a)).noting a.ref (s.recordsNote a (s.jobOffset a x off) 64 n.toNat) := by
  obtain ⟨aligned, own, goes⟩ := reads
  unfold cpykBody
  dsimp only
  rw [if_neg room.not_gt, misplaced_eq_false aligned own, if_neg Bool.false_ne_true, ownRecords_go goes]

/-- Well-formed records of allowed regions are accepted. -/
theorem cpykRecords_accepts {core o : Nat} {l : List (List Byte)} {recs : List CopyRec} (formed : l.map readCopy = recs.map some)
    (allowed : ∀ r ∈ recs, s.copyOk a.ref.wg r = true) : cpykRecords core o a l s = acceptCards core o a s (s.cardsOf a recs) := by
  have all : (recs.map some).all (fun r => (r.map (s.copyOk a.ref.wg)).getD false) = true := by
    rw [List.all_map]
    exact List.all_eq_true.2 allowed
  rw [cpykRecords, formed, all, List.filterMap_map, Function.id_comp, List.filterMap_some]
  rfl

/-- A record that is malformed or names a region that is not allowed refuses them all. -/
theorem cpykRecords_refuses {core o : Nat} {l : List (List Byte)} {bad : List Byte} (here : bad ∈ l)
    (refused : ∀ r, readCopy bad = some r → s.copyOk a.ref.wg r = false) : cpykRecords core o a l s = .bad (a.operand a.low 7) := by
  have fails : ((readCopy bad).map (s.copyOk a.ref.wg)).getD false = false := by
    cases formed : readCopy bad with
    | none => rfl
    | some r => exact refused r formed
  have not_all : (l.map readCopy).all (fun r => (r.map (s.copyOk a.ref.wg)).getD false) = false :=
    List.all_eq_false.2 ⟨readCopy bad, List.mem_map_of_mem here, by rw [fails]; exact Bool.false_ne_true⟩
  rw [cpykRecords, not_all]
  rfl

/-- Accepted cards enter the queue once the release has let the fibre's stores leave (R259). -/
theorem acceptCards_leave {core o : Nat} {cards : List (CopyRec × Scope)} (leave : s.storesLeave a.ref) :
    acceptCards core o a s cards =
      let k := s.kickFrom a (cards.foldl (fun sc e => scopeMax sc e.2) .core)
      .done (cards.foldl (fun (e : State × Nat) r =>
        (e.1.acceptCard core (o + 64 * e.2) (e.1.baseOf a.ref.wg) r.1 { k.1 with scope := r.2 }, e.2 + 1)) (k.2, 0)).1 :=
  kicked_leave leave

/-! ### CPYRES -/

/-- The barriers that a request names. -/
def CopyRec.barriers (r : CopyRec) (core base : Nat) : List Nat := if r.barv then r.places core base r.bar else []

/-- What CPYRES does for the card `c` with a request that it has read: its barriers' faults end, and the card goes on where it stopped. -/
def resumeCard (core : Nat) (c : Card) (r : CopyRec) (bars : List Nat) (a : Act) (s : State) : Out :=
  kicked a s (s.copyScope a.ref.wg (s.ctxOf a.ref.wg) r) fun k v =>
    .done ((bars.foldl (fun (w : State) p => w.scratchDeliver (some k) p
      ({ w.stage p with fault := false, kind := 0, foffset := 0 } : Stage).bytes true) v).modCard core c.num
        (fun y => { y with rcd := r, kick := k, faulted := false, done := (s.stage (bars.headD 0)).foffset }))

/-- What CPYRES does with the request that it has read: it looks for the card that stopped there. -/
def cpyresRecord (core base o : Nat) (a : Act) (r : CopyRec) (s : State) : Out :=
  let bars := r.barriers core base
  match (s.core core).cards.find? (fun c => c.faulted && c.base + c.offset == base + o) with
  | none => .bad (a.operand a.low 9)
  | some c =>
    if (convShape r.conv).isNone || !(r.placed base) then .bad (a.operand a.low 7)
    else if bars.isEmpty || !(s.stage (bars.headD 0)).fault || (s.stage (bars.headD 0)).kind != 1 then .bad (a.operand a.low 9)
    else resumeCard core c r bars a s

/-- What CPYRES answers once its latch has been checked. -/
def cpyresBody (x : Src) (off : BitVec 32) (a : Act) (s : State) : Out :=
  let core := s.coreOf a.ref.wg
  let base := s.baseOf a.ref.wg
  let o := s.jobOffset a x off
  if o % 64 != 0 || (s.ownRegion a.ref.wg o 64).isNone then .bad (a.operand a.low 6)
  else ownRecords a s o 64 1 fun l v => cpyresRecord core base o a (copyFields (l.headD [])) v

theorem exec_cpyres (h : Hdr) (x : Src) (off : BitVec 32) (s : State) :
    exec (.cpyres h x off) s = onceWord h [(x, 1)] [] s (cpyresBody x off) := rfl

theorem cpyresBody_reads (reads : RecordsRead x off 1 a s) : cpyresBody x off a s =
    (cpyresRecord (s.coreOf a.ref.wg) (s.baseOf a.ref.wg) (s.jobOffset a x off) a
      (copyFields ((s.recordsAt a (s.jobOffset a x off) 64 1).headD [])) (s.recordsReady a)).noting a.ref
        (s.recordsNote a (s.jobOffset a x off) 64 1) := by
  obtain ⟨aligned, own, goes⟩ := reads
  unfold cpyresBody
  dsimp only
  rw [misplaced_eq_false (n := 1) aligned own, if_neg Bool.false_ne_true, ownRecords_go goes]

/-- The card that stopped at the request resumes where its shape and places are valid and its first barrier has a stage fault. -/
theorem cpyresRecord_resumes {core base o : Nat} {c : Card} {r : CopyRec} {bars : List Nat} (named : r.barv = true)
    (places : r.places core base r.bar = bars) (shaped : (convShape r.conv).isSome = true) (placed : r.placed base = true)
    (stopped : (s.core core).cards.find? (fun c => c.faulted && c.base + c.offset == base + o) = some c) (some_bar : bars ≠ [])
    (fault : (s.stage (bars.headD 0)).fault = true) (kind : (s.stage (bars.headD 0)).kind = 1) :
    cpyresRecord core base o a r s = resumeCard core c r bars a s := by
  have barriers : r.barriers core base = bars := (if_pos named).trans places
  have valid : ((convShape r.conv).isNone || !(r.placed base)) = false := by rw [Option.isNone_eq_false_iff.2 shaped, placed]; rfl
  have faulted : (bars.isEmpty || !(s.stage (bars.headD 0)).fault || (s.stage (bars.headD 0)).kind != 1) = false := by
    rw [List.isEmpty_eq_false_iff.2 some_bar, fault, kind]
    rfl
  simp only [cpyresRecord, barriers, stopped, valid, faulted, Bool.false_eq_true, if_false]

end

/-- Settles O31: CPYK and CPYRES read their records by `ownRecords_go`; the cards enter by `acceptCards_leave`, and a stopped card resumes
by `cpyresRecord_resumes`. -/
theorem copiesAreKicked : Obligations.CopiesAreKicked := by
  unfold Obligations.CopiesAreKicked
  intro s h x n off o core u own
  refine ⟨fun recs => ?accepts, ?waits, ?refuses, fun c => ?resumes⟩
  case accepts =>
    exact onceDoes_of_onceWord (exec_cpyk h x n off s) fun a b ⟨room, reads, formed, allowed, leave⟩ =>
      (cpykBody_reads room reads).trans
        (congrArg (Out.noting a.ref _) ((cpykRecords_accepts formed allowed).trans (acceptCards_leave leave)))
  case waits =>
    exact waits_of_runWord (exec_cpyk h x n off s) fun a b ⟨pass, full⟩ => (unlessFault_pass pass).trans (if_pos full)
  case refuses =>
    exact onceTraps_of_onceWord (exec_cpyk h x n off s) fun a b ⟨room, reads, l, here, refused⟩ =>
      (cpykBody_reads room reads).trans (congrArg (Out.noting a.ref _) (cpykRecords_refuses here refused))
  case resumes =>
    intro rcd base bars bar
    exact onceDoes_of_onceWord (exec_cpyres h x off s) fun a b ⟨reads, named, shaped, placed, stopped, some_bar, fault, kind, leave⟩ =>
      (cpyresBody_reads reads).trans (congrArg (Out.noting a.ref _)
        ((cpyresRecord_resumes named rfl shaped placed stopped some_bar fault kind).trans (kicked_leave leave)))

end Sys2Proof.Machine
end

/-! ## LAUNCH and TSPAWN (R235, R247, R259, R288, R345, R349) -/

section
namespace Sys2Proof.Machine

section
variable {a : Act} {s : State} {d : BitVec 8} {x y : Src} {off : BitVec 32}

/-! ### LAUNCH -/

/-- What LAUNCH does with the parameter block `l` that it has read at `va`: it enters the die's queue of 64 after a release (R259, R349). -/
def launchRead (d : BitVec 8) (a : Act) (ag : Agent) (va : Nat) (l : List Byte) (s : State) : Out :=
  let die := dieOf ag.core
  if 64 ≤ (s.die die).sched.queue.length then .done (s.putAll a d.toNat 1)
  else
    let mask := leNat ((l.drop 0x1A).take 1)
    kicked a s (scopeMax (s.rangeScope ag.core ag.ctx va 128) (if mask == 0 || mask == 2 ^ die then .die else .pkg)) fun k v =>
      let seq := (v.die die).sched.nextSeq
      .done ((v.modSched die (fun c => { c with
        queue := c.queue ++ [⟨seq, k.ctx, va, none, some k⟩], nextSeq := (seq + 1) % 2 ^ 31 })).putAll a d.toNat (seq + 2 ^ 31))

/-- Whether a LAUNCH may need a place of the operand log (R235, R288). -/
def launchNeeds (x : Src) (off : BitVec 32) (a : Act) (s : State) : Bool :=
  (s.agent a.ref.wg).checked || !(inAperture (s.lowAddr a x off))

/-- What LAUNCH answers once its latches and register have been checked. -/
def launchBody (d : BitVec 8) (x : Src) (off : BitVec 32) (a : Act) (s : State) : Out :=
  let ag := s.agent a.ref.wg
  let va := s.lowAddr a x off
  if va % 128 != 0 then .bad (a.operand a.low 9)
  else if !(s.onceOk a.ref.wg va 128) then .bad (a.operand a.low 6)
  else afterAtomics a s fun v => afterLog a v (launchNeeds x off a s) fun u =>
    afterCheck a u u [(a.low, va, 128, 0)] (raceOnce a u)
      (match u.loadBytes a.ref ag false false va 128 with
      | (.error (sub, byte), w) => faultOnce a w sub byte
      | (.ok l, w) => launchRead d a ag va l w)

theorem exec_launch (h : Hdr) (d : BitVec 8) (x : Src) (off : BitVec 32) (s : State) :
    exec (.launch h d x off) s = onceWord h [(x, 2)] [d.toNat] s (launchBody d x off) := rfl

theorem launchBody_misaligned (misaligned : s.lowAddr a x off % 128 ≠ 0) : launchBody d x off a s = .bad (a.operand a.low 9) :=
  if_pos (bne_iff_ne.2 misaligned)

/-- The state in which LAUNCH reads its block: the fibre's queued atomics have left, and the operand log has a place where one may be
needed. -/
def launchReady (x : Src) (off : BitVec 32) (a : Act) (s : State) : State :=
  ((s.settleAtomics a.ref).1.withLog a.ref (launchNeeds x off a s)).1

/-- The race check of the block. -/
def launchCheck (x : Src) (off : BitVec 32) (a : Act) (s : State) : Except (Nat × Nat × List Word) CheckNote :=
  (launchReady x off a s).raceCheck a ((launchReady x off a s).agent a.ref.wg) [(a.low, s.lowAddr a x off, 128, 0)]

/-- The block's bytes, or the fault of their read (R226). -/
def launchLoad (x : Src) (off : BitVec 32) (a : Act) (s : State) : Except (Nat × Nat) (List Byte) × State :=
  (launchReady x off a s).loadBytes a.ref (s.agent a.ref.wg) false false (s.lowAddr a x off) 128

/-- LAUNCH reads its block: it is aligned and in bounds, no older store faults, the operand log has a place, no race traps and the read
does not fault. -/
def LaunchReads (x : Src) (off : BitVec 32) (a : Act) (s : State) : Prop :=
  s.lowAddr a x off % 128 = 0 ∧ s.onceOk a.ref.wg (s.lowAddr a x off) 128 = true ∧ (s.settleAtomics a.ref).2 = none ∧
    (s.settleAtomics a.ref).1.logGoes a.ref (launchNeeds x off a s) ∧ (launchCheck x off a s).isOk = true ∧
    (launchLoad x off a s).1.isOk = true

theorem launchBody_reads (goes : LaunchReads x off a s) : launchBody d x off a s =
    (launchRead d a (s.agent a.ref.wg) (s.lowAddr a x off) ((launchLoad x off a s).1.toOption.getD []) (launchLoad x off a s).2).noting
      a.ref ((launchCheck x off a s).toOption.getD (0, none)) := by
  obtain ⟨aligned, inside, older, log, race, reads⟩ := goes
  have read : launchLoad x off a s = (.ok ((launchLoad x off a s).1.toOption.getD []), (launchLoad x off a s).2) :=
    Prod.ext (eq_ok_of_isOk reads []) rfl
  unfold launchBody
  dsimp only
  rw [aligned, inside, afterAtomics_leave older, afterLog_goes log]
  refine (afterCheck_ok race).trans ?_
  unfold launchLoad launchReady at read
  rw [read]
  rfl

theorem launchRead_full {ag : Agent} {va : Nat} {l : List Byte} (full : 64 ≤ (s.die (dieOf ag.core)).sched.queue.length) :
    launchRead d a ag va l s = .done (s.putAll a d.toNat 1) := if_pos full

theorem launchRead_enters {ag : Agent} {va : Nat} {l : List Byte} (room : (s.die (dieOf ag.core)).sched.queue.length < 64)
    (leave : s.storesLeave a.ref) : launchRead d a ag va l s =
      let die := dieOf ag.core
      let mask := leNat ((l.drop 0x1A).take 1)
      let k := s.kickFrom a (scopeMax (s.rangeScope ag.core ag.ctx va 128) (if mask = 0 ∨ mask = 2 ^ die then .die else .pkg))
      let seq := (k.2.die die).sched.nextSeq
      .done ((k.2.modSched die (fun c => { c with
        queue := c.queue ++ [⟨seq, k.1.ctx, va, none, some k.1⟩], nextSeq := (seq + 1) % 2 ^ 31 })).putAll a d.toNat (seq + 2 ^ 31)) := by
  unfold launchRead
  dsimp only
  rw [if_neg room.not_ge, kicked_leave leave]
  simp only [Bool.or_eq_true, beq_iff_eq]

/-! ### TSPAWN -/

/-- A lane's task: the lane, its kernel descriptor and its 64 bytes of arguments. -/
abbrev SpawnedTask := Nat × Nat × List Byte

/-- Enters one lane's task; a lane that finds no place is noted (R345). -/
def enterLane (g : Nat) (k : Kick) (e : State × Mask) (j : SpawnedTask) : State × Mask :=
  let n := e.1.enterTask (clusterOf k.core) (e.1.launchOf g).cls { kd := j.2.1, ctx := k.ctx, arg := j.2.2, kick := some k }
  (n.2, if n.1 then e.2 else e.2 ||| oneLane j.1)

/-- The argument offset of a lane. -/
def State.taskOffset (s : State) (a : Act) (x : Src) (off : BitVec 32) (i : Nat) : Nat := (s.srcLane a.ref x i + off).toNat

/-- The lanes whose arguments are outside the aperture (R225). -/
def State.spawnOut (s : State) (a : Act) (x : Src) (off : BitVec 32) : Mask :=
  maskOf (fun i => a.lanes.getLsbD i && !(s.boundsOk a.ref.wg (apertureVa (s.taskOffset a x off i)) 64))

/-- The other active lanes. -/
def State.spawnIn (s : State) (a : Act) (x : Src) (off : BitVec 32) : Mask := a.lanes &&& ~~~(s.spawnOut a x off)

/-- What TSPAWN does with its lanes' tasks: after a release they enter in lane order (R259, R345). -/
def spawnTasks (d : BitVec 8) (a : Act) (out live : Mask) (tasks : List SpawnedTask) (s : State) : Out :=
  kicked a s .die fun k v =>
    let r := tasks.foldl (enterLane a.ref.wg k) (v.switchOff a.ref out, (0 : Mask))
    .done (r.1.writeReg a.ref d.toNat live (lanes (fun i => if r.2.getLsbD i then 1 else 0)))

/-- What TSPAWN answers once its latches and register have been checked. -/
def tspawnBody (d : BitVec 8) (x y : Src) (off : BitVec 32) (a : Act) (s : State) : Out :=
  if (s.launchOf a.ref.wg).determ then .bad a.nondet
  else match (lanesOf a.lanes).find? (fun i => s.taskOffset a x off i % 64 != 0 || (s.pairLane a.ref y i).toNat % 256 != 0) with
    | some i => .bad (a.operand i 9)
    | none => afterAtomics a s fun z =>
      onceChecked a z ((lanesOf (s.spawnIn a x off)).map (fun i => (i, apertureVa (s.taskOffset a x off i), 64, 0)))
        (spawnTasks d a (s.spawnOut a x off) (s.spawnIn a x off) ((lanesOf (s.spawnIn a x off)).map (fun i =>
          (i, (z.pairLane a.ref y i).toNat, z.ownBytes a.ref (s.taskOffset a x off i) 64))))

theorem exec_tspawn (h : Hdr) (d : BitVec 8) (x y : Src) (off : BitVec 32) (s : State) :
    exec (.tspawn h d x y off) s = runWord h false (srcNames x 1 ++ srcNames y 2) (srcLast x 1 ++ srcLast y 2) 6 s
      fun a b => unlessFault b a [x, y] a.lanes [d.toNat] (tspawnBody d x y off a b) := rfl

/-- Aligned tasks of a launch that is not deterministic are spawned after the race check of their arguments. -/
theorem tspawnBody_goes (free : (s.launchOf a.ref.wg).determ = false)
    (aligned : ∀ i ∈ lanesOf a.lanes, s.taskOffset a x off i % 64 = 0 ∧ (s.pairLane a.ref y i).toNat % 256 = 0)
    (older : (s.settleAtomics a.ref).2 = none) :
    let z := (s.settleAtomics a.ref).1
    let accs := (lanesOf (s.spawnIn a x off)).map (fun i => (i, apertureVa (s.taskOffset a x off i), 64, 0))
    z.logGoes a.ref (z.launchOf a.ref.wg).checked → (z.onceCheck a accs).isOk = true → tspawnBody d x y off a s =
      (spawnTasks d a (s.spawnOut a x off) (s.spawnIn a x off) ((lanesOf (s.spawnIn a x off)).map (fun i =>
        (i, (z.pairLane a.ref y i).toNat, z.ownBytes a.ref (s.taskOffset a x off i) 64))) (s.recordsReady a)).noting a.ref
          ((z.onceCheck a accs).toOption.getD (0, none)) := by
  intro z accs log race
  have none_refused : (lanesOf a.lanes).find? (fun i => s.taskOffset a x off i % 64 != 0 ||
      (s.pairLane a.ref y i).toNat % 256 != 0) = none := no_lane_refused aligned fun i hi => by simpa using hi
  rw [tspawnBody, free, if_neg Bool.false_ne_true, none_refused]
  exact (afterAtomics_leave older).trans (onceChecked_goes log race)

end

/-- Settles O35: LAUNCH reads its block by `launchBody_reads` and enters its die's queue by `launchRead_enters`; TSPAWN's tasks enter
lane by lane, by `enterLane`. -/
theorem launchesAndSpawns : Obligations.LaunchesAndSpawns := by
  unfold Obligations.LaunchesAndSpawns
  intro s h d x y off va ag needs u check read sched ready note
  have word := exec_launch h d x off s
  have reads : ∀ a b, ready a b → launchBody d x off a b =
      (launchRead d a (ag a b) (va a b) ((read a b).1.toOption.getD []) (read a b).2).noting a.ref (note a b) :=
    fun a b goes => launchBody_reads goes
  refine ⟨?full, ?enters, ?misaligned, ?spawns⟩
  case full =>
    exact onceDoes_of_onceWord word fun a b ⟨goes, full⟩ => by
      rw [reads a b goes, launchRead_full full]
      rfl
  case enters =>
    exact onceDoes_of_onceWord word fun a b ⟨goes, room, leave⟩ => by
      rw [reads a b goes, launchRead_enters room leave]
      rfl
  case misaligned => exact onceTraps_of_onceWord word fun a b misaligned => launchBody_misaligned misaligned
  case spawns =>
    intro o kd out live z v race
    exact does_of_runWord (exec_tspawn h d x y off s) fun a b ⟨pass, free, aligned, older, log, ok, leave⟩ =>
      (unlessFault_pass pass).trans ((tspawnBody_goes free aligned older log ok).trans
        (congrArg (Out.noting a.ref _) (kicked_leave leave)))

end Sys2Proof.Machine
end

/-! ## The copy engine (R261, R262, R301 to R307) -/

section
namespace Sys2Proof.Machine

/-! ### Bytes that change while they are read (R262) -/

/-- One byte of a piece that is read twice. -/
def State.mixByte (x : List Byte × State) (e : Byte × Byte) : List Byte × State :=
  if e.1 == e.2 then (x.1 ++ [e.2], x.2) else (x.1 ++ [if Config.freeBit x.2.draw.1 then e.2 else e.1], x.2.draw.2)

theorem mixBytes_eq (s : State) (l m : List Byte) : s.mixBytes l m = (l.zip m).foldl State.mixByte ([], s) := rfl

theorem mixByte_appends (x : List Byte × State) (e : Byte × Byte) :
    ∃ b, (b = e.1 ∨ b = e.2) ∧ (State.mixByte x e).1 = x.1 ++ [b] := by
  unfold State.mixByte
  split
  next => exact ⟨e.2, .inr rfl, rfl⟩
  next => exact ⟨_, (ite_eq_or_eq _ _ _).symm, rfl⟩

theorem foldl_mixByte (p : List (Byte × Byte)) (x : List Byte × State) : ∃ k : List Byte,
    List.Forall₂ (fun b e => b = e.1 ∨ b = e.2) k p ∧ (p.foldl State.mixByte x).1 = x.1 ++ k := by
  induction p generalizing x with
  | nil => exact ⟨[], .nil, (List.append_nil _).symm⟩
  | cons e p ih =>
    obtain ⟨b, taken, first⟩ := mixByte_appends x e
    obtain ⟨k, rest, mixed⟩ := ih (State.mixByte x e)
    exact ⟨b :: k, .cons taken rest, by rw [List.foldl_cons, mixed, first, List.append_assoc, List.singleton_append]⟩

/-- The bytes of a piece that changes while it is read: each one as it was or as it is. -/
theorem mixBytes_mixes (s : State) (l m : List Byte) :
    List.Forall₂ (fun b e => b = e.1 ∨ b = e.2) (s.mixBytes l m).1 (l.zip m) := by
  obtain ⟨k, mixes, mixed⟩ := foldl_mixByte (l.zip m) ([], s)
  rw [mixBytes_eq, mixed]
  exact mixes

theorem length_mixBytes (s : State) {l m : List Byte} (same : l.length = m.length) : (s.mixBytes l m).1.length = l.length := by
  rw [(mixBytes_mixes s l m).length_eq, List.length_zip, same, Nat.min_self]

theorem getD_mixBytes (s : State) {l m : List Byte} (same : l.length = m.length) (i : Nat) :
    (s.mixBytes l m).1.getD i 0 = l.getD i 0 ∨ (s.mixBytes l m).1.getD i 0 = m.getD i 0 := by
  have long := length_mixBytes s same
  by_cases hi : i < l.length
  · have taken := (mixBytes_mixes s l m).get (i := i) (by omega) (by rw [List.length_zip]; omega)
    simpa only [List.get_eq_getElem, List.getElem_zip, List.getD_eq_getElem _ _ hi, List.getD_eq_getElem _ _ (same ▸ hi),
      List.getD_eq_getElem _ _ (long ▸ hi)] using taken
  · exact .inl (by rw [List.getD_eq_default _ _ (by omega), List.getD_eq_default _ _ (by omega)])

/-! ### Cards -/

section
variable {s u : State} {core card : Nat} {c : Card} {l : List Byte}

theorem num_of_card (found : s.card core card = some c) : c.num = card := by
  simpa using List.find?_some found

theorem exec_copyCardStart (core card : Nat) (s : State) : exec (.copyCardStart core card) s = execCopyCardStart core card s := rfl
theorem exec_copyDelivery (core card : Nat) (s : State) : exec (.copyDelivery core card) s = execCopyDelivery core card s := rfl
theorem exec_copyComplete (core card : Nat) (s : State) : exec (.copyComplete core card) s = execCopyComplete core card s := rfl
theorem exec_copyFault (core card : Nat) (s : State) : exec (.copyFault core card) s = execCopyFault core card s := rfl

/-- Whether a card that has started has bytes left. -/
def Card.going (c : Card) : Bool := c.started && decide (c.done < c.rcd.total)

theorem exec_copyCardStart_starts (found : s.card core card = some c) (may : (s.core core).canStart c = true) :
    exec (.copyCardStart core card) s = .next (s.modCard core card (fun x => { x with started := true })) := by
  simp only [exec_copyCardStart, execCopyCardStart, found, may, if_true]

theorem exec_copyDelivery_reads (found : s.card core card = some c) (going : c.going = true) (read : s.pieceRead c = (.ok l, u)) :
    exec (.copyDelivery core card) s = .next (s.movePiece core c l u) := by
  unfold Card.going at going
  simp only [exec_copyDelivery, execCopyDelivery, found, going, read, if_true]

theorem exec_copyDelivery_faults {e : Nat × Nat} (found : s.card core card = some c) (read : s.pieceRead c = (.error e, u)) :
    exec (.copyDelivery core card) s = .next s := by
  simp only [exec_copyDelivery, execCopyDelivery, found, read, ite_self]

theorem exec_copyFault_reads (found : s.card core card = some c) (read : s.pieceRead c = (.ok l, u)) :
    exec (.copyFault core card) s = .next s := by
  simp only [exec_copyFault, execCopyFault, found, read, ite_self]

theorem exec_copyFault_faults {e : Nat × Nat} (found : s.card core card = some c) (going : c.going = true)
    (read : s.pieceRead c = (.error e, u)) : exec (.copyFault core card) s = .next (u.copyFault core c e.1 e.2) := by
  unfold Card.going at going
  simp only [exec_copyFault, execCopyFault, found, going, read, if_true]

/-- Nothing is read for a card that has not started or has no byte left. -/
theorem exec_copy_idle (found : s.card core card = some c) (idle : c.going = false) :
    exec (.copyDelivery core card) s = .next s ∧ exec (.copyFault core card) s = .next s := by
  unfold Card.going at idle
  simp only [exec_copyDelivery, exec_copyFault, execCopyDelivery, execCopyFault, found, idle, Bool.false_eq_true, if_false, and_self]

theorem exec_copyComplete_all (found : s.card core card = some c) (started : c.started = true) (all : c.rcd.total ≤ c.done) :
    exec (.copyComplete core card) s = .next (if c.rcd.nodev then
      (s.dropCard core card).enginePost (dieOf core) c.kick.ctx (mkRef (dieOf core) c.rcd.node) else s.dropCard core card) := by
  simp only [exec_copyComplete, execCopyComplete, found, started, decide_eq_true all, Bool.and_self, if_true]

theorem exec_copyComplete_unstarted (found : s.card core card = some c) (unstarted : c.started = false) :
    exec (.copyComplete core card) s = .next s := by
  simp only [exec_copyComplete, execCopyComplete, found, unstarted, Bool.false_and, Bool.false_eq_true, if_false]

end

/-! ### Barriers (R306) -/

section
variable {b : Stage} {n : Nat}

theorem Stage.count_below (below : b.arrived + n < b.expected) : b.count n = { b with arrived := b.arrived + n } := by
  have differ : ¬ ((b.arrived + n == b.expected) = true) := by simpa using below.ne
  rw [Stage.count, if_neg below.le.not_gt, if_neg differ]

theorem Stage.count_completes (all : b.arrived + n = b.expected) :
    b.count n = { b with arrived := 0, expected := 0, phase := 1 - b.phase } := by
  rw [Stage.count, if_neg all.le.not_gt, if_pos (beq_iff_eq.2 all)]

theorem Stage.count_beyond (beyond : b.expected < b.arrived + n) :
    b.count n = { b with fault := true, kind := 2, arrived := (b.arrived + n) % 2 ^ 32 } := if_pos beyond

end

/-- Settles O46: each step by what it reads of its card; a piece moves on by `State.movePiece`, whose three events are the model's choice
(log entry 87); mixed bytes are those of `mixBytes_mixes`, and a barrier counts by the three cases of `Stage.count`. -/
theorem copiesMove : Obligations.CopiesMove := by
  unfold Obligations.CopiesMove
  refine ⟨fun s core card c found => ?steps, fun s l m same => ⟨length_mixBytes s same, getD_mixBytes s same⟩, fun b n _ => ?counts⟩
  case steps =>
    refine ⟨exec_copyCardStart_starts found, fun started more => ?going, fun started all => ?whole, fun unstarted => ?unstarted⟩
    case going =>
      have going : c.going = true := by rw [Card.going, started, decide_eq_true more, Bool.and_self]
      refine ⟨fun l u read => ?reads, fun e u read =>
        ⟨exec_copyDelivery_faults found read, exec_copyFault_faults found going read⟩⟩
      have moves := exec_copyDelivery_reads found going read
      refine ⟨exec_copyFault_reads found read, fun fresh => ?_, fun old taken => ?_, fun old written => ?_⟩
      · rw [moves, State.movePiece, fresh, num_of_card found]
      · rw [moves, State.movePiece, taken, num_of_card found]
      · rw [moves, State.movePiece, written]
    case whole =>
      have idle : c.going = false := by rw [Card.going, decide_eq_false all.not_gt, Bool.and_false]
      obtain ⟨delivery, fault⟩ := exec_copy_idle found idle
      exact ⟨delivery, fault, exec_copyComplete_all found started all⟩
    case unstarted =>
      have idle : c.going = false := by rw [Card.going, unstarted, Bool.false_and]
      obtain ⟨delivery, fault⟩ := exec_copy_idle found idle
      exact ⟨delivery, exec_copyComplete_unstarted found unstarted, fault⟩
  case counts =>
    refine ⟨Stage.count_below, Stage.count_completes, fun beyond => ?_⟩
    rw [Stage.count_beyond beyond]
    exact ⟨rfl, rfl, rfl⟩

end Sys2Proof.Machine
end

/-! ## Race checking (class 0x9: R287, R293 to R296) -/

section
namespace Sys2Proof.Machine

/-! ### Words that name a clock record (R287, R388) -/

section
variable {a : Act} {s : State} {d : BitVec 8} {x y : Src} {scope : Scope} {off : BitVec 32}

/-- A word that names a clock record goes on with an aligned one; an invalid one of the aperture is the model's detail 6 (log entry 32). -/
def atRecord (a : Act) (s : State) (va : Nat) (out : Out) : Out :=
  if va % 64 != 0 then .bad (a.operand a.low 9)
  else if !(s.onceOk a.ref.wg va 64) then .bad (a.operand a.low 6)
  else out

theorem atRecord_goes {va : Nat} {out : Out} (aligned : va % 64 = 0) (inside : s.onceOk a.ref.wg va 64 = true) :
    atRecord a s va out = out := by
  rw [atRecord, aligned, inside]
  rfl

theorem atRecord_misaligned {va : Nat} {out : Out} (misaligned : va % 64 ≠ 0) : atRecord a s va out = .bad (a.operand a.low 9) :=
  if_pos (bne_iff_ne.2 misaligned)

theorem atRecord_outside {va : Nat} {out : Out} (aligned : va % 64 = 0) (outside : s.onceOk a.ref.wg va 64 = false) :
    atRecord a s va out = .bad (a.operand a.low 6) := by
  rw [atRecord, aligned, outside]
  rfl

/-- Whether a word that names a clock record may need a place of the operand log (R235, R288). -/
def recordNeeds (a : Act) (va : Nat) (s : State) : Bool := (s.launchOf a.ref.wg).checked || !(inAperture va)

/-! ### HBPUB (R287, R293) -/

/-- The fibre's clock record enters its store queue as eight 8-byte stores. -/
def State.publishRecord (s : State) (a : Act) (va : Nat) (scope : Scope) (clock : Nat) : State :=
  let gens := ((s.fib a.ref).map (fun f => (f.cgen, f.ggen))).getD (0, 0)
  let l := clockRecord gens.1 gens.2 (if (s.launchOf a.ref.wg).checked then s.published a.ref clock else [])
  s.enqueue a 8 .plain (some scope) clock true
    ((recordParts va).mapIdx (fun i p => (⟨a.low, BitVec.ofNat 64 p, (l.drop (8 * i)).take 8⟩ : LaneAcc))) (fun _ => 0)

/-- What HBPUB answers once its latch has been checked. -/
def hbpubBody (x : Src) (scope : Scope) (off : BitVec 32) (a : Act) (s : State) : Out :=
  let va := s.lowAddr a x off
  atRecord a s va (afterStores a s fun v => afterLog a v (recordNeeds a va v) fun u =>
    afterCheck a u u ((recordParts va).map (fun p => (a.low, p, 8, 1))) (raceOnce a u)
      (afterRelease a u scope fun w clock => .done (w.publishRecord a va scope clock)))

theorem exec_hbpub (h : Hdr) (x : Src) (scope : Scope) (off : BitVec 32) (s : State) :
    exec (.hbpub h x scope off) s = onceWord h [(x, 2)] [] s (hbpubBody x scope off) := rfl

/-- The state in which HBPUB releases: the fibre's stores have left, and the operand log has a place where one may be needed. -/
def hbpubReady (x : Src) (off : BitVec 32) (a : Act) (s : State) : State :=
  ((s.drain a.ref).1.withLog a.ref (recordNeeds a (s.lowAddr a x off) (s.drain a.ref).1)).1

/-- The race check of the record's eight writes. -/
def hbpubCheck (x : Src) (off : BitVec 32) (a : Act) (s : State) : Except (Nat × Nat × List Word) CheckNote :=
  (hbpubReady x off a s).raceCheck a ((hbpubReady x off a s).agent a.ref.wg)
    ((recordParts (s.lowAddr a x off)).map (fun p => (a.low, p, 8, 1)))

/-- HBPUB publishes: its record is aligned and in bounds, the fibre's stores leave, the operand log has a place and no race traps. -/
def HbpubGoes (x : Src) (off : BitVec 32) (a : Act) (s : State) : Prop :=
  (s.lowAddr a x off % 64 = 0 ∧ s.onceOk a.ref.wg (s.lowAddr a x off) 64 = true) ∧ s.storesLeave a.ref ∧
    (s.drain a.ref).1.logGoes a.ref (recordNeeds a (s.lowAddr a x off) (s.drain a.ref).1) ∧ (hbpubCheck x off a s).isOk = true ∧
    (hbpubReady x off a s).storesLeave a.ref

theorem hbpubBody_publishes (goes : HbpubGoes x off a s) : hbpubBody x scope off a s =
    let w := (hbpubReady x off a s).released a scope
    .done ((w.2.publishRecord a (s.lowAddr a x off) scope w.1).noteCheck a.ref ((hbpubCheck x off a s).toOption.getD (0, none))) := by
  obtain ⟨⟨aligned, inside⟩, leave, log, race, empty⟩ := goes
  unfold hbpubBody
  dsimp only
  rw [atRecord_goes aligned inside, afterStores_leave leave, afterLog_goes log]
  exact (afterCheck_ok race).trans (congrArg (Out.noting a.ref _) (afterRelease_leave empty))

/-! ### HBJOIN (R276, R277, R287, R294) -/

/-- The accesses of a clock record. -/
def recordAccs (a : Act) (va : Nat) : List LaneAcc := (recordParts va).map (fun p => ⟨a.low, BitVec.ofNat 64 p, []⟩)

/-- The entries of a clock record's bytes that are installed: those whose clock is not 0. -/
def newEntries (l : List Byte) : List (Nat × Nat) := (recordEntries l).filter (fun e => e.2 != 0)

/-- Installs a record's entries; one that overflowed sets both lost flags, and the status says how many entries there are. -/
def State.installRecord (s : State) (a : Act) (d : BitVec 8) (l : List Byte) : State :=
  let more := bit (leNat (l.take 4)) 20
  let joined := (newEntries l).foldl (fun q e => q.install a.ref (q.unalias a.ref e.1) e.2) s
  (if more then joined.modWg a.ref.wg (fun g => { g with lostIn := 2, lostOut := 2 }) else joined).putAll a d.toNat
    ((newEntries l).length + bit01 more * 16)

/-- What HBJOIN does with the bytes of a record, in the state that its acquire leaves. -/
def State.joinRecord (s : State) (a : Act) (d : BitVec 8) (l : List Byte) : State :=
  let head := leNat (l.take 4)
  let count := head / 2 ^ 16 % 16
  if (s.launchOf a.ref.wg).checked = false then s.putAll a d.toNat 0
  else if head % 2 ^ 16 ≠ 0x4843 ∨ count = 0 ∨ 14 < count then s.putAll a d.toNat 0x20
  else s.installRecord a d l

/-- What HBJOIN answers with the bytes `l` that it has read: an acquire, and then its entries and its status. -/
def hbjoinRead (d : BitVec 8) (scope : Scope) (a : Act) (ag : Agent) (accs : List LaneAcc) (l : List Byte) (s : State) : Out :=
  let s := s.acquireAll a.ref ag 8 scope accs
  let head := leNat (l.take 4)
  let count := bits head 16 4
  if !(s.launchOf a.ref.wg).checked then .done (s.putAll a d.toNat 0)
  else if head % 2 ^ 16 != 0x4843 || count == 0 || 14 < count then .done (s.putAll a d.toNat 0x20)
  else .done (s.installRecord a d l)

/-- The head of a record is not that of a clock record with 1 to 14 entries. -/
theorem malformed_iff {head : Nat} : (head % 2 ^ 16 != 0x4843 || bits head 16 4 == 0 || decide (14 < bits head 16 4)) = true ↔
    head % 2 ^ 16 ≠ 0x4843 ∨ head / 2 ^ 16 % 16 = 0 ∨ 14 < head / 2 ^ 16 % 16 := by
  rw [Bool.or_eq_true, Bool.or_eq_true, bne_iff_ne, beq_iff_eq, decide_eq_true_eq, or_assoc]
  rfl

theorem hbjoinRead_joins {ag : Agent} {accs : List LaneAcc} {l : List Byte} :
    hbjoinRead d scope a ag accs l s = .done ((s.acquireAll a.ref ag 8 scope accs).joinRecord a d l) := by
  simp only [hbjoinRead, State.joinRecord, Bool.not_eq_true', malformed_iff, apply_ite Out.done]

/-- What HBJOIN answers once its latch and register have been checked. -/
def hbjoinBody (d : BitVec 8) (x : Src) (scope : Scope) (off : BitVec 32) (a : Act) (s : State) : Out :=
  let ag := s.agent a.ref.wg
  let va := s.lowAddr a x off
  let accs := recordAccs a va
  atRecord a s va (afterAtomics a s fun v => afterLog a v (recordNeeds a va v) fun u =>
    afterCheck a u (u.learn a.ref ag 8 scope accs) (accs.map (fun e => (e.lane, e.addr.toNat, 8, 0))) (raceOnce a u)
      (match u.loadBytes a.ref ag false false va 64 with
      | (.error (sub, byte), w) => faultOnce a w sub byte
      | (.ok l, w) => hbjoinRead d scope a ag accs l w))

theorem exec_hbjoin (h : Hdr) (d : BitVec 8) (x : Src) (scope : Scope) (off : BitVec 32) (s : State) :
    exec (.hbjoin h d x scope off) s = onceWord h [(x, 2)] [d.toNat] s (hbjoinBody d x scope off) := rfl

/-- The state in which HBJOIN reads its record: the fibre's queued atomics have left, and the operand log has a place where one may be
needed. -/
def hbjoinReady (x : Src) (off : BitVec 32) (a : Act) (s : State) : State :=
  ((s.settleAtomics a.ref).1.withLog a.ref (recordNeeds a (s.lowAddr a x off) (s.settleAtomics a.ref).1)).1

/-- The race check of the record's eight reads, in the state that the acquire leaves (R283). -/
def hbjoinCheck (x : Src) (scope : Scope) (off : BitVec 32) (a : Act) (s : State) : Except (Nat × Nat × List Word) CheckNote :=
  let accs := recordAccs a (s.lowAddr a x off)
  ((hbjoinReady x off a s).learn a.ref (s.agent a.ref.wg) 8 scope accs).raceCheck a ((hbjoinReady x off a s).agent a.ref.wg)
    (accs.map (fun e => (e.lane, e.addr.toNat, 8, 0)))

/-- The record's bytes, or the fault of their read (R226). -/
def hbjoinLoad (x : Src) (off : BitVec 32) (a : Act) (s : State) : Except (Nat × Nat) (List Byte) × State :=
  (hbjoinReady x off a s).loadBytes a.ref (s.agent a.ref.wg) false false (s.lowAddr a x off) 64

/-- HBJOIN reads its record: it is aligned and in bounds, no older store faults, the operand log has a place, no race traps and the read
does not fault. -/
def HbjoinReads (x : Src) (scope : Scope) (off : BitVec 32) (a : Act) (s : State) : Prop :=
  (s.lowAddr a x off % 64 = 0 ∧ s.onceOk a.ref.wg (s.lowAddr a x off) 64 = true) ∧ (s.settleAtomics a.ref).2 = none ∧
    (s.settleAtomics a.ref).1.logGoes a.ref (recordNeeds a (s.lowAddr a x off) (s.settleAtomics a.ref).1) ∧
    (hbjoinCheck x scope off a s).isOk = true ∧ (hbjoinLoad x off a s).1.isOk = true

theorem hbjoinBody_joins (goes : HbjoinReads x scope off a s) : hbjoinBody d x scope off a s =
    .done ((((hbjoinLoad x off a s).2.acquireAll a.ref (s.agent a.ref.wg) 8 scope (recordAccs a (s.lowAddr a x off))).joinRecord a d
      ((hbjoinLoad x off a s).1.toOption.getD [])).noteCheck a.ref ((hbjoinCheck x scope off a s).toOption.getD (0, none))) := by
  obtain ⟨⟨aligned, inside⟩, older, log, race, reads⟩ := goes
  have read : hbjoinLoad x off a s = (.ok ((hbjoinLoad x off a s).1.toOption.getD []), (hbjoinLoad x off a s).2) :=
    Prod.ext (eq_ok_of_isOk reads []) rfl
  unfold hbjoinBody
  dsimp only
  rw [atRecord_goes aligned inside, afterAtomics_leave older, afterLog_goes log]
  refine (afterCheck_ok race).trans ?_
  unfold hbjoinLoad hbjoinReady at read
  rw [read]
  exact congrArg (Out.noting a.ref _) hbjoinRead_joins

/-! ### RACECTL.forget (R295) -/

/-- What RACECTL.forget does with a range that translates: the records of its lines become invalid. -/
def State.forgetLines (s : State) (a : Act) (ag : Agent) (va n : Nat) : State :=
  (List.range (n / 128)).foldl (fun v i =>
    (v.checkedPieces a.ref ag ((va + 128 * i) % 2 ^ 64) 128).foldl (fun v e => v.forget a.ref e.1) v) s

/-- The first subcode and byte of a range that does not translate; one in the aperture has none (R225, R226). -/
def forgetProbe (ag : Agent) (va n : Nat) (s : State) : Option (Nat × Nat) × State :=
  if inAperture va then (none, s) else s.probeRange ag .write va n

/-- What RACECTL.forget answers once its latches have been checked. -/
def forgetBody (x y : Src) (off : BitVec 32) (a : Act) (s : State) : Out :=
  let ag := s.agent a.ref.wg
  let va := s.lowAddr a x off
  let n := s.low32 a y
  if !ag.checked then .done s
  else if va % 128 != 0 || n % 128 != 0 || n == 0 || 2 ^ 24 < n then .bad (a.operand a.low 9)
  else if !(s.onceOk a.ref.wg va n) then
    let me := oneLane a.low
    .done ((s.modFib a.ref (fun f => f.putBack f (a.group &&& ~~~me) a.pc)).switchOff a.ref me)
  else afterStores a s fun v => afterLog a v (!(inAperture va)) fun u =>
    match forgetProbe ag va n u with
    | (some (sub, byte), w) => faultOnce a w sub byte
    | (none, w) => .done (w.forgetLines a ag va n)

theorem exec_racectlForget (h : Hdr) (x y : Src) (off : BitVec 32) (s : State) :
    exec (.racectlForget h x y off) s = onceWord h [(x, 2), (y, 1)] [] s (forgetBody x y off) := rfl

/-- A range of whole lines, of at most 16 MiB. -/
def WholeLines (va n : Nat) : Prop := va % 128 = 0 ∧ n % 128 = 0 ∧ n ≠ 0 ∧ n ≤ 2 ^ 24

theorem not_wholeLines_iff {va n : Nat} :
    ¬ WholeLines va n ↔ (va % 128 != 0 || n % 128 != 0 || n == 0 || decide (2 ^ 24 < n)) = true := by
  simp only [WholeLines, Bool.or_eq_true, bne_iff_ne, beq_iff_eq, decide_eq_true_eq]
  omega

theorem forgetBody_unchecked (unchecked : (s.agent a.ref.wg).checked = false) : forgetBody x y off a s = .done s := by
  rw [forgetBody, unchecked]
  rfl

theorem forgetBody_misfits (checked : (s.agent a.ref.wg).checked = true) (misfits : ¬ WholeLines (s.lowAddr a x off) (s.low32 a y)) :
    forgetBody x y off a s = .bad (a.operand a.low 9) := by
  rw [forgetBody, checked, Bool.not_true, if_neg Bool.false_ne_true]
  exact if_pos (not_wholeLines_iff.1 misfits)

/-- The state in which RACECTL.forget looks at its range: the fibre's stores have left, and the operand log has a place where one may be
needed. -/
def forgetReady (x : Src) (off : BitVec 32) (a : Act) (s : State) : State :=
  ((s.drain a.ref).1.withLog a.ref (!(inAperture (s.lowAddr a x off)))).1

theorem forgetBody_forgets (checked : (s.agent a.ref.wg).checked = true) (fits : WholeLines (s.lowAddr a x off) (s.low32 a y))
    (inside : s.onceOk a.ref.wg (s.lowAddr a x off) (s.low32 a y) = true) (leave : s.storesLeave a.ref)
    (log : (s.drain a.ref).1.logGoes a.ref (!(inAperture (s.lowAddr a x off))))
    (translates : (forgetProbe (s.agent a.ref.wg) (s.lowAddr a x off) (s.low32 a y) (forgetReady x off a s)).1 = none) :
    forgetBody x y off a s =
      .done ((forgetProbe (s.agent a.ref.wg) (s.lowAddr a x off) (s.low32 a y) (forgetReady x off a s)).2.forgetLines a
        (s.agent a.ref.wg) (s.lowAddr a x off) (s.low32 a y)) := by
  have whole : ¬ ((s.lowAddr a x off % 128 != 0 || s.low32 a y % 128 != 0 || s.low32 a y == 0 || decide (2 ^ 24 < s.low32 a y)) = true) :=
    fun misfits => not_wholeLines_iff.2 misfits fits
  have found : forgetProbe (s.agent a.ref.wg) (s.lowAddr a x off) (s.low32 a y) (forgetReady x off a s) = (none, _) :=
    Prod.ext translates rfl
  unfold forgetReady at found ⊢
  unfold forgetBody
  dsimp only
  rw [checked, inside, Bool.not_true, if_neg Bool.false_ne_true, if_neg whole, if_neg Bool.false_ne_true, afterStores_leave leave,
    afterLog_goes log, found]

/-! ### HBCLK (R296) -/

/-- The word that HBCLK reads in a checked launch: clock, generations, and the flags of the fibre and its work-group. -/
def State.clockWord (s : State) (a : Act) (f : Fibre) : Nat :=
  f.clock + f.cgen % 8 * 2 ^ 16 + f.ggen % 8 * 2 ^ 19 + bit01 f.saturated * 2 ^ 22 + bit01 f.suspended * 2 ^ 23 +
    bit01 (s.reports a.ref.wg) * 2 ^ 24

/-- What HBCLK answers once its register has been checked. -/
def hbclkBody (d : BitVec 8) (a : Act) (s : State) : Out :=
  match s.fib a.ref with
  | none => .done s
  | some f => .done (s.putAll a d.toNat (if (s.launchOf a.ref.wg).checked then s.clockWord a f else 0))

theorem exec_hbclk (h : Hdr) (d : BitVec 8) (s : State) : exec (.hbclk h d) s = onceWord h [] [d.toNat] s (hbclkBody d) := rfl

theorem hbclkBody_reads {f : Fibre} (own : s.fib a.ref = some f) : hbclkBody d a s =
    .done (s.putAll a d.toNat (if (s.launchOf a.ref.wg).checked then s.clockWord a f else 0)) := by
  rw [hbclkBody, own]

/-- What HBCLK.vec answers once its latch and register have been checked; in an unchecked launch it also reads 0 for a fibre that is none
(the model's choice, log entry 30). -/
def hbclkVecBody (d : BitVec 8) (x : Src) (a : Act) (s : State) : Out :=
  match s.fib a.ref, s.fib ⟨a.ref.wg, s.low32 a x⟩ with
  | some f, some _ => .done (s.putAll a d.toNat (if (s.launchOf a.ref.wg).checked then
      (if s.low32 a x == a.ref.fib then f.clock else Map.getD f.vec (s.low32 a x) 0) else 0))
  | some _, none => if (s.launchOf a.ref.wg).checked then .bad (a.operand a.low 9) else .done (s.putAll a d.toNat 0)
  | none, _ => .done s

theorem exec_hbclkVec (h : Hdr) (d : BitVec 8) (x : Src) (s : State) :
    exec (.hbclkVec h d x) s = onceWord h [(x, 1)] [d.toNat] s (hbclkVecBody d x) := rfl

theorem hbclkVecBody_reads {f : Fibre} (own : s.fib a.ref = some f) (named : (s.fib ⟨a.ref.wg, s.low32 a x⟩).isSome = true) :
    hbclkVecBody d x a s = .done (s.putAll a d.toNat (if (s.launchOf a.ref.wg).checked then
      (if s.low32 a x = a.ref.fib then f.clock else Map.getD f.vec (s.low32 a x) 0) else 0)) := by
  obtain ⟨g, other⟩ := Option.isSome_iff_exists.1 named
  simp only [hbclkVecBody, own, other, beq_iff_eq]

theorem hbclkVecBody_absent (own : (s.fib a.ref).isSome = true) (absent : s.fib ⟨a.ref.wg, s.low32 a x⟩ = none)
    (checked : (s.launchOf a.ref.wg).checked = true) : hbclkVecBody d x a s = .bad (a.operand a.low 9) := by
  obtain ⟨f, own⟩ := Option.isSome_iff_exists.1 own
  simp only [hbclkVecBody, own, absent, checked, if_true]

end

/-! ### The statement -/

/-- Settles O30: HBPUB by `hbpubBody_publishes` and HBJOIN by `hbjoinBody_joins`, which share the checks of `atRecord`; RACECTL.forget by the
three cases of `forgetBody`; HBCLK and HBCLK.vec by the fibres that they find. The other forms of RACECTL do what `exec` says of them. -/
theorem raceWords : Obligations.RaceWords := by
  unfold Obligations.RaceWords
  refine ⟨fun s h x d scope off => ?records, fun s h d x y off => ?control⟩
  case records =>
    intro ea parts ok needs q pubCheck u accs joinCheck read
    have publish := exec_hbpub h x scope off s
    have join := exec_hbjoin h d x scope off s
    exact ⟨onceDoes_of_onceWord publish fun _ _ goes => hbpubBody_publishes goes,
      onceDoes_of_onceWord join fun _ _ goes => hbjoinBody_joins goes,
      onceTraps_of_onceWord publish fun _ _ misaligned => atRecord_misaligned misaligned,
      onceTraps_of_onceWord join fun _ _ misaligned => atRecord_misaligned misaligned,
      onceTraps_of_onceWord publish fun _ _ ⟨aligned, outside⟩ => atRecord_outside aligned outside,
      onceTraps_of_onceWord join fun _ _ ⟨aligned, outside⟩ => atRecord_outside aligned outside⟩
  case control =>
    intro checked
    refine ⟨onceDoes_of_onceWord rfl fun _ _ _ => rfl, onceDoes_of_onceWord rfl fun _ _ _ => rfl,
      onceDoes_of_onceWord rfl fun _ _ _ => rfl, onceDoes_of_onceWord rfl fun _ _ _ => rfl,
      onceDoes_of_onceWord rfl fun _ _ _ => rfl, ?forget, fun f => ?clock, fun f => ?component, ?absent⟩
    case forget =>
      have word := exec_racectlForget h x y off s
      exact ⟨onceDoes_of_onceWord word fun _ _ => forgetBody_unchecked,
        onceDoes_of_onceWord word fun _ _ ⟨checked, fits, inside, leave, log, translates⟩ =>
          forgetBody_forgets checked fits inside leave log translates,
        onceTraps_of_onceWord word fun _ _ ⟨checked, misfits⟩ => forgetBody_misfits checked misfits⟩
    case clock => exact onceDoes_of_onceWord (exec_hbclk h d s) fun _ _ => hbclkBody_reads
    case component => exact onceDoes_of_onceWord (exec_hbclkVec h d x s) fun _ _ ⟨own, named⟩ => hbclkVecBody_reads own named
    case absent =>
      exact onceTraps_of_onceWord (exec_hbclkVec h d x s) fun _ _ ⟨own, absent, checked⟩ => hbclkVecBody_absent own absent checked

end Sys2Proof.Machine
end

/-! ## No step passes the tick of a freeze (R422) -/

section
namespace Sys2Proof.Machine

/-! ### The passing of time -/

theorem writeDirty_cur (s : State) (t : TlbEntry) : (s.writeDirty t).cur = s.cur := by
  unfold State.writeDirty State.physWrite
  split
  · split <;> rfl
  · rfl

theorem dirtyOutOf_cur (s : State) (k : Nat) : (s.dirtyOutOf k).cur = s.cur :=
  foldl_keeps (step := State.writeDirty) State.cur writeDirty_cur _ s

/-- The write-out of dirty state leaves no word half issued. -/
theorem dirtyOut_cur (s : State) : s.dirtyOut.cur = s.cur :=
  foldl_keeps (step := fun (t : State) (e : Nat × Tlb) => t.dirtyOutOf e.1) State.cur (fun t e => dirtyOutOf_cur t e.1) s.tlbs s

theorem writtenOut_cur (s : State) (p : Prop) [Decidable p] : (if p then s.dirtyOut else s).cur = s.cur := by
  split
  · exact dirtyOut_cur s
  · rfl

/-- The freeze takes place before its tick has passed, whatever the state in which time has passed. -/
theorem stopFrozen_settled {s : State} (was : Nat) (hc : s.cur = none) : Settled (s.stopFrozen was) := by
  unfold State.stopFrozen
  split
  next t ht =>
    split
    next late =>
      have due : execFreeze s = .next { s with frozen := true } := by simp only [execFreeze, ht, if_pos late.le]
      rw [due]
      exact ⟨hc, fun _ running => absurd running (by simp [orElse])⟩
    next early =>
      refine ⟨hc, fun _ _ u hu => ?_⟩
      obtain rfl := Option.some.inj (ht.symm.trans hu)
      exact not_lt.1 early
  next none => exact ⟨hc, fun _ _ u hu => absurd (none.symm.trans hu) (by simp)⟩

theorem passTicks_settled (s : State) (n k : Nat) : Settled (s.passTicks n k) :=
  stopFrozen_settled _ (writtenOut_cur ..)

/-- Whatever a step has done, the time that passes in it settles the package. -/
theorem passTime_settled (s : State) (low : Nat) : Settled (s.passTime low) := passTicks_settled ..

theorem timed_settled {o : Host.Outcome State Fault Refusal} {t : State} (h : timed o = .next t) : Settled t := by
  cases o with
  | next s =>
    obtain rfl := Host.Outcome.next.inj h
    exact passTime_settled s 0
  | fault => cases h
  | refused => cases h

/-! ### Packages that stand -/

/-- A package that stands has no tick to miss. -/
theorem settled_of_stands {s : State} (hc : s.cur = none) (stands : s.powered = false ∨ s.frozen = true) : Settled s := by
  refine ⟨hc, fun powered running => ?_⟩
  rcases stands with h | h
  · exact absurd (powered.symm.trans h) (by decide)
  · exact absurd (running.symm.trans h) (by decide)

theorem powerOn_settled {s t : State} {verified : Bool} (h : exec (.powerOn verified) s = .next t) : Settled t := by
  obtain rfl := Host.Outcome.next.inj h
  exact ⟨rfl, fun _ _ u hu => by cases hu⟩

theorem resetRelease_settled {s t : State} (h : exec .resetRelease s = .next t) : Settled t := by
  obtain rfl := Host.Outcome.next.inj h
  exact ⟨rfl, fun _ _ u hu => by cases hu⟩

theorem frozen_markUnit (s : State) (u : UnitRef) : (s.markUnit u).cur = s.cur ∧ (s.markUnit u).frozen = s.frozen := by
  unfold State.markUnit
  split <;> exact ⟨rfl, rfl⟩

/-- An event that reaches a frozen package leaves it frozen, or resets it. -/
theorem whileFrozen_settled {s t : State} {i : Instr} (hc : s.cur = none) (hz : s.frozen = true) (hi : whileFrozen i = true)
    (h : exec i s = .next t) : Settled t := by
  have stands {u : State} (cur : u.cur = s.cur) (frozen : u.frozen = s.frozen) : Settled u :=
    settled_of_stands (cur.trans hc) (.inr (frozen.trans hz))
  unfold whileFrozen at hi
  split at hi
  case h_1 | h_2 =>
    obtain rfl := Host.Outcome.next.inj h
    exact stands rfl rfl
  case h_3 => exact resetRelease_settled h
  case h_4 => exact powerOn_settled h
  case h_5 die tenths =>
    obtain rfl := Host.Outcome.next.inj h
    split
    · exact stands rfl rfl
    · exact stands rfl rfl
  case h_6 nonce =>
    obtain rfl := Host.Outcome.next.inj h
    split
    · exact stands rfl rfl
    · exact stands rfl rfl
  case h_7 =>
    obtain rfl := Host.Outcome.next.inj h
    exact stands rfl rfl
  case h_8 u =>
    obtain rfl := Host.Outcome.next.inj h
    obtain ⟨cur, frozen⟩ := frozen_markUnit s u
    exact stands cur frozen
  case h_9 locked =>
    obtain rfl := Host.Outcome.next.inj h
    dsimp only
    split
    · exact stands rfl rfl
    · exact stands rfl rfl
  case h_10 => cases hi

theorem whileOff_settled {s t : State} {i : Instr} (hi : whileOff i = true) (h : exec i s = .next t) : Settled t := by
  unfold whileOff at hi
  split at hi
  · exact powerOn_settled h
  · cases hi

/-- Of what reaches a package that stands, the oldest event is taken or lost. -/
theorem onlyInputs_settled {s t : State} {p : Instr → Bool} (settled : Settled s)
    (taken : ∀ (i : Instr) (rest : List Instr), p i = true → exec i { s with inputs := rest } = .next t → Settled t)
    (h : s.onlyInputs p = .next t) : Settled t := by
  unfold State.onlyInputs at h
  split at h
  · exact Host.Outcome.next.inj h ▸ settled
  next i rest _ =>
    split at h
    next hi => exact taken i rest hi h
    next =>
      obtain rfl := Host.Outcome.next.inj h
      exact settled

/-- Settles O59: the time that ends a step of a running package settles it by `timed_settled`, and what reaches one that stands leaves it
standing or resets it. -/
theorem everyStepKeepsSettled : Obligations.EveryStepKeepsSettled := by
  unfold Obligations.EveryStepKeepsSettled
  intro s t settled h
  cases hp : s.powered with
  | false =>
    rw [step_unpowered hp] at h
    split at h
    · cases h
    · exact onlyInputs_settled settled (fun _ _ => whileOff_settled) h
  | true =>
    cases hz : s.frozen with
    | true =>
      rw [step_frozen hp hz] at h
      exact onlyInputs_settled settled (fun i rest => whileFrozen_settled (s := { s with inputs := rest }) settled.1 hz) h
    | false =>
      cases ha : s.actions with
      | nil =>
        rw [step_idle hp hz ha] at h
        obtain rfl := Host.Outcome.next.inj h
        exact passTime_settled s 1
      | cons a l =>
        cases l with
        | nil => exact timed_settled ((step_single hp hz ha).symm.trans h)
        | cons b l => exact timed_settled ((step_several hp hz ha).symm.trans h)

end Sys2Proof.Machine
end

/-! ## Contexts (R399, R400, R403, R406, R426) -/

section
namespace Sys2Proof.Machine

theorem ctx_modCtx_same (s : State) (k : Nat) (f : Context → Context) : (s.modCtx k f).ctx k = f (s.ctx k) := by
  simp [State.ctx, State.modCtx, Map.getD]

section
variable {s : State} {k : Nat}

/-- RUN acts on an idle context whose entry register names a valid entry (R426; log entry 55). -/
theorem exec_run : exec (.run k) s = .next
    (if (s.ctx k).st = .idle ∧ (s.ctx k).entry ≠ 0 ∧ ((s.ctx k).load s).valid = true then
      s.modCtx k (fun _ => { (s.ctx k).load s with st := .running, request := false, expires := none }) else s) := by
  have he : exec (.run k) s = execRun k s := rfl
  rw [he, execRun]
  simp only [Bool.and_eq_true, decide_eq_true_eq, bne_iff_ne, and_assoc]

theorem exec_preempt : exec (.preempt k) s = .next (if (s.ctx k).st = .running then
    s.modCtx k (fun c => { c with
      st := .draining, request := true
      expires := if c.deadline = 0 then none else some (s.tick + 256 * c.deadline) }) else s) := by
  have he : exec (.preempt k) s = execPreempt k s := rfl
  rw [he, execPreempt]
  simp only [State.ctxRuns, decide_eq_true_eq, beq_iff_eq]

theorem exec_resume : exec (.resume k) s = .next (if (s.ctx k).st = .preempted ∧ ((s.ctx k).load s).valid = true then
    s.modCtx k (fun _ => { (s.ctx k).load s with st := .running }) else s) := by
  have he : exec (.resume k) s = execResume k s := rfl
  rw [he, execResume]
  simp only [Bool.and_eq_true, decide_eq_true_eq]

/-- A deadline passes at its tick, and only while the context drains (R400). -/
theorem deadlinePast_iff : s.deadlinePast k = true ↔ (s.ctx k).st = .draining ∧ ∃ e, (s.ctx k).expires = some e ∧ e ≤ s.tick := by
  unfold State.deadlinePast
  cases (s.ctx k).expires <;> simp

theorem exec_deadlineExpiry : exec (.deadlineExpiry k) s = .next (if s.deadlinePast k = true then
    ((s.wgsOf k).foldl (fun u g => u.forceReset g) s).modCtx k (fun c => { c with expires := none }) else s) := rfl

/-- A context that is neither idle nor faulted faults (R399). -/
theorem exec_contextFault (n : Nat) : exec (.contextFault k n) s = .next (if (s.ctx k).st = .idle ∨ (s.ctx k).st = .faulted then s else
    ((s.clearCtx k 5).modCtx k (fun x => { x with st := .faulted })).hostEvent 0x45 k 0 n 0) := by
  have he : exec (.contextFault k n) s = execContextFault k n s := rfl
  rw [he, execContextFault]
  split
  next idle => rw [if_pos (.inl idle)]
  next faulted => rw [if_pos (.inr faulted)]
  next busy sound => rw [if_neg (not_or.2 ⟨busy, sound⟩)]

/-! ### Saved work-groups -/

theorem exec_resumeWorkGroup_stands (stands : (s.ctx k).st ≠ .running) : exec (.resumeWorkGroup k) s = .next s := by
  have he : exec (.resumeWorkGroup k) s = execResumeWorkGroup k s := rfl
  rw [he, execResumeWorkGroup, if_pos (by simpa [State.ctxRuns] using stands)]

/-- The saved work-groups that come next have been read: they go on together, or their launch ends (R403 to R405). -/
theorem exec_resumeWorkGroup {x : SavedWg} {rest : List SavedWg} {r : Except (SavedWg × Nat) (List (SavedWg × List Byte))} {u : State}
    (runs : (s.ctx k).st = .running) (next : s.resumeGroup k = x :: rest) (read : s.readAreas (x :: rest) = (r, u)) :
    exec (.resumeWorkGroup k) s = .next (match r with
      | .error (y, a) => u.failResume y 0x47 a 4
      | .ok l => match u.resumePlan l true with
        | some ps => ps.foldl (fun t e => (t.resumeOne e.1 e.2.1 e.2.2.1 e.2.2.2.2 e.2.2.2.1).noteMove u e.1 e.2.2.1)
          (u.modCtx k (fun y => { y with saved := y.saved.filter (fun z => !((x :: rest).contains z)) }))
        | none => if (u.resumePlan l false).isNone then u.failResume x 0x46 0 2 else u) := by
  have he : exec (.resumeWorkGroup k) s = execResumeWorkGroup k s := rfl
  rw [he, execResumeWorkGroup, if_neg (by simp [State.ctxRuns, runs]), next]
  simp only [read, List.head?_cons]
  cases r <;> rfl

end

/-- Settles O50: each event by the lemma that gives its branches. -/
theorem contextsChange : Obligations.ContextsChange := by
  unfold Obligations.ContextsChange
  intro s k c
  refine ⟨fun idle entry valid => ?run, fun unfit => ?noRun, fun runs => ?preempt, fun stands => ?noPreempt, fun drained => ?preempted,
    fun busy => ?noPreempted, fun early => ?early, fun e drains expires late => ?late, fun stopped valid => ?resume,
    fun running => ?noResume, ⟨_, rfl, ?reset⟩, fun n gone => ?noFault, fun n busy sound => ?fault, exec_resumeWorkGroup_stands,
    fun x rest runs next => ⟨fun y a u read => ?unreadable, fun l u read full never => ?never, fun l u ps read plan => ?goOn⟩⟩
  case run => rw [exec_run, if_pos ⟨idle, entry, valid⟩]
  case noRun =>
    rw [exec_run, if_neg]
    rintro ⟨idle, entry, valid⟩
    rcases unfit with h | h | h
    · exact h idle
    · exact entry h
    · exact Bool.false_ne_true (h.symm.trans valid)
  case preempt =>
    rw [exec_preempt, if_pos runs]
    rfl
  case noPreempt => rw [exec_preempt, if_neg stands]
  case preempted =>
    refine ⟨_, _, congrArg Host.Outcome.next (if_pos drained), rfl, rfl, ?_⟩
    rw [ctx_modCtx_same]
  case noPreempted => exact congrArg Host.Outcome.next (if_neg (by simp [busy]))
  case early =>
    rw [exec_deadlineExpiry, if_neg]
    intro past
    obtain ⟨-, e, expires, late⟩ := deadlinePast_iff.1 past
    exact late.not_gt (early e expires)
  case late => rw [exec_deadlineExpiry, if_pos (deadlinePast_iff.2 ⟨drains, e, expires, late⟩)]
  case resume => rw [exec_resume, if_pos ⟨stopped, valid⟩]
  case noResume => rw [exec_resume, if_neg (fun h => running h.1)]
  case reset => rw [ctx_modCtx_same]
  case noFault => rw [exec_contextFault, if_pos gone]
  case fault => rw [exec_contextFault, if_neg (not_or.2 ⟨busy, sound⟩)]
  case unreadable => rw [exec_resumeWorkGroup runs next read]
  case never =>
    rw [exec_resumeWorkGroup runs next read]
    simp only [full, never, Option.isNone_none, if_true]
  case goOn =>
    rw [exec_resumeWorkGroup runs next read]
    simp only [plan]

end Sys2Proof.Machine
end

/-! ## Sampling, breakpoints, the wait-for graph and freezing (R415, R416, R418, R422, R423) -/

section
namespace Sys2Proof.Machine

/-! ### The wait-for graph -/

/-- A read of a work-group's progress is remembered, with its tick, where it differs from the one before (R418). -/
def State.seeProgress (s : State) (e : Nat × WorkGroup) : State :=
  if (Map.find s.progressSeen e.1).map (·.1) == some e.2.progress then s
  else { s with progressSeen := Map.set s.progressSeen e.1 (e.2.progress, s.tick) }

/-- Where the graph has no cycle, only progress is read. -/
theorem exec_waitForGraph {s : State} {c : Nat} (acyclic : graphCycles (s.waitGraph c) = []) : exec (.waitForGraph c) s =
    .next ((s.wgs.filter (fun e => (s.launch e.2.launch).ctx == c)).foldl State.seeProgress s) := by
  have he : exec (.waitForGraph c) s = execWaitForGraph c s := rfl
  rw [he, execWaitForGraph]
  dsimp only
  rw [acyclic]
  rfl

/-- The memory and the work-groups, which no read of progress changes. -/
def State.besideProgress (s : State) : Memory × Map WorkGroup := (s.mem, s.wgs)

theorem besideProgress_seeProgress (s : State) (e : Nat × WorkGroup) : (s.seeProgress e).besideProgress = s.besideProgress := by
  unfold State.seeProgress
  split <;> rfl

/-- What has been read stays read, and so is what is read now. -/
theorem seeProgress_seen {s : State} {e : Nat × WorkGroup} {g : Nat}
    (h : (Map.find s.progressSeen g).isSome = true ∨ g = e.1) : (Map.find (s.seeProgress e).progressSeen g).isSome = true := by
  unfold State.seeProgress
  split
  next known =>
    rcases h with h | rfl
    · exact h
    · cases seen : Map.find s.progressSeen e.1 with
      | none => simp [seen] at known
      | some => rfl
  next =>
    by_cases hg : g = e.1
    · simp [hg]
    · simpa [Map.find_set, hg] using h.resolve_right hg

theorem seeAll_seen {l : List (Nat × WorkGroup)} {s : State} {g : Nat}
    (h : (Map.find s.progressSeen g).isSome = true ∨ ∃ e ∈ l, g = e.1) :
    (Map.find (l.foldl State.seeProgress s).progressSeen g).isSome = true := by
  induction l generalizing s with
  | nil => exact h.resolve_right (by simp)
  | cons e l ih =>
    refine ih ?_
    rcases h with h | ⟨x, hx, rfl⟩
    · exact .inl (seeProgress_seen (.inl h))
    · rcases List.mem_cons.1 hx with rfl | hx
      · exact .inl (seeProgress_seen (.inr rfl))
      · exact .inr ⟨x, hx, rfl⟩

/-! ### The freeze -/

theorem exec_freezeTickWrite {s : State} (v : Dword) (running : s.frozen = false) : exec (.freezeTickWrite v) s = .next { s with
    w0 := Memory.put s.w0 0x1020 8 v.toNat
    freezeAt := if v.toNat = 0 then none else some (max v.toNat (s.tick + 64)) } := by
  have he : exec (.freezeTickWrite v) s = execFreezeTickWrite v s := rfl
  rw [he, execFreezeTickWrite]
  simp only [running, Bool.false_eq_true, if_false, beq_iff_eq]
  split <;> rfl

theorem exec_freezeN (s : State) : exec .freezeN s = .next (if s.frozen || s.freezePin.isSome then s else
    { s with freezePin := some (s.tick + 64) }) := rfl

theorem exec_freeze (s : State) : exec .freeze s = .next (match s.freezeTick with
    | some t => if t ≤ s.tick then { s with frozen := true } else s
    | none => s) := rfl

/-- Settles O53: each event by its branches, and what the graph reads of progress by `seeAll_seen`. -/
theorem debugEvents : Obligations.DebugEvents := by
  unfold Obligations.DebugEvents
  intro s
  refine ⟨fun d => rfl, fun r stopped => ⟨?resume, ?kill⟩, fun r goes => ⟨?noResume, ?noKill⟩, fun c acyclic => ?graph,
    fun v running set => ?tick, fun running => exec_freezeTickWrite 0 running, fun running unpinned => ?pin, fun pinned => ?noPin,
    fun t named due => ?freeze, fun t named early => ?early, fun unnamed => ?unnamed, rfl, rfl⟩
  case resume | kill => exact congrArg Host.Outcome.next (if_pos stopped)
  case noResume | noKill => exact congrArg Host.Outcome.next (if_neg (by simp [goes]))
  case graph =>
    obtain ⟨mem, wgs⟩ := Prod.ext_iff.1 (foldl_keeps State.besideProgress besideProgress_seeProgress
      (s.wgs.filter (fun e => (s.launch e.2.launch).ctx == c)) s)
    exact ⟨_, exec_waitForGraph acyclic, mem, wgs, fun g w hw hc =>
      seeAll_seen (.inr ⟨(g, w), List.mem_filter.2 ⟨hw, beq_iff_eq.2 hc⟩, rfl⟩)⟩
  case tick =>
    have nonzero : v.toNat ≠ 0 := fun h => set (BitVec.eq_of_toNat_eq h)
    rw [exec_freezeTickWrite v running, if_neg nonzero]
  case pin => rw [exec_freezeN, if_neg (by simp [running, unpinned])]
  case noPin => rw [exec_freezeN, if_pos (by simpa [Option.isSome_iff_ne_none] using pinned)]
  case freeze => simp only [exec_freeze, named, if_pos due]
  case early => simp only [exec_freeze, named, if_neg early.not_ge]
  case unnamed => simp only [exec_freeze, unnamed]

end Sys2Proof.Machine
end

/-! ## The tail of the host ring (R430)

The statement asks that a written tail reads back in every state. It does where the control registers are in canonical form. A memory
whose addresses do not rise can keep an older byte behind the place where a zero byte is written, and reads that byte again. -/

section
namespace Sys2Proof.Machine

/-- A package whose control registers list the two low bytes of the host ring's tail in falling order. -/
def fallingTail : State := { State.reset with w0 := [(0x100D, 1), (0x100C, 1)] }

/-- The low byte stands behind a higher address, so the zero written to it is not listed, and it keeps its value. -/
theorem num_fallingTail : Memory.num (Memory.put fallingTail.w0 0x100C 4 0) 0x100C 4 = 1 := by decide

/-- Refutes O51: HOST_RING_TAIL_WRITE of 0 over `fallingTail`, whose control registers are not in canonical form, leaves a tail of 1. -/
theorem not_hostActs : ¬ Obligations.HostActs := by
  unfold Obligations.HostActs
  rintro ⟨-, -, -, readsBack, -⟩
  obtain ⟨t, written, tail, -⟩ := readsBack fallingTail 0
  obtain rfl := Host.Outcome.next.inj written
  exact absurd (num_fallingTail.symm.trans tail) (by decide)

/-- A written tail reads back where the control registers are in canonical form. -/
theorem num_hostRingTailWrite {s t : State} {tail : Word} (canonical : Memory.wf s.w0 = true)
    (written : exec (.hostRingTailWrite tail) s = .next t) : Memory.num t.w0 0x100C 4 = tail.toNat := by
  obtain rfl := Host.Outcome.next.inj written
  exact Memory.num_write canonical 0x100C 4 tail.isLt

end Sys2Proof.Machine
end

/-! ## Stage barriers (R96, R305, R306, R308, R312) -/

section
namespace Sys2Proof.Machine

/-! ### A stage barrier in memory (R305) -/

theorem stage_eq (s : State) (p : Nat) : s.stage p =
    ⟨Memory.num s.scratch (p + 0) 4, Memory.num s.scratch (p + 4) 4, Memory.num s.scratch (p + 8) 4 % 2,
      bit (Memory.num s.scratch (p + 8) 4) 1, Memory.num s.scratch (p + 8) 4 / 4 % 4, Memory.num s.scratch (p + 12) 4⟩ := by
  simp [State.stage, bits]

/-- A part of what was written, read back. -/
theorem Memory.read_write_part {m : Memory} (wf : Memory.wf m = true) (p k n : Nat) (l : List Byte) (inside : k + n ≤ l.length) :
    Memory.read (Memory.write m p l) (p + k) n = (l.drop k).take n := by
  refine List.ext_getElem (by simp [Memory.read]; omega) fun i hi _ => ?_
  have below : i < n := by simpa [Memory.read] using hi
  simp only [Memory.read, List.getElem_map, List.getElem_range, Memory.get_write wf, List.getElem_take, List.getElem_drop]
  rw [if_pos (by omega), List.getD_eq_getElem _ _ (by omega)]
  congr 1
  omega

/-- A number of four bytes, read back from bytes of which it is a part. -/
theorem Memory.num_write_part {m : Memory} (wf : Memory.wf m = true) (p k v : Nat) (l : List Byte) (inside : k + 4 ≤ l.length)
    (part : (l.drop k).take 4 = leBytes 4 v) (fits : v < 2 ^ 32) : Memory.num (Memory.write m p l) (p + k) 4 = v := by
  rw [Memory.num, Memory.read_write_part wf p k 4 l inside, part, leNat_leBytes]
  exact Nat.mod_eq_of_lt fits

@[simp] theorem Stage.length_bytes (z : Stage) : z.bytes.length = 16 := rfl

/-- The phase, the fault bit and the kind of fault of word 0x08. -/
theorem Stage.word_fields {z : Stage} (phase : z.phase < 2) (kind : z.kind < 4) :
    z.word % 2 = z.phase ∧ bit z.word 1 = z.fault ∧ z.word / 4 % 4 = z.kind ∧ z.word < 2 ^ 32 := by
  unfold Stage.word bit
  cases z.fault
  · simp only [bit01, Bool.false_eq_true, if_false, beq_eq_false_iff_ne]
    omega
  · simp only [bit01, if_true, beq_iff_eq]
    omega

/-- Writing a stage barrier changes its bytes alone in an unchecked launch. -/
theorem scratch_putStage {s : State} {a : Act} (unchecked : (s.agent a.ref.wg).checked = false) (o p : Nat) (z : Stage) :
    (s.putStage a o p z).scratch = Memory.write s.scratch p z.bytes := by
  unfold State.putStage
  dsimp only
  rw [commitAccess_unchecked unchecked]
  exact congrArg (fun e => e.2.2.2.1) (besideCharges_scratchWrite s p z.bytes)

/-- A stage barrier that has been written reads back. -/
theorem stage_of_written {s : State} {m : Memory} {p : Nat} {z : Stage} (written : s.scratch = Memory.write m p z.bytes)
    (wf : Memory.wf m = true) (expected : z.expected < 2 ^ 32) (arrived : z.arrived < 2 ^ 32) (phase : z.phase < 2) (kind : z.kind < 4)
    (foffset : z.foffset < 2 ^ 32) : s.stage p = z := by
  obtain ⟨hphase, hfault, hkind, fits⟩ := Stage.word_fields phase kind
  have first := Memory.num_write_part wf p 0 z.expected z.bytes (by simp) rfl expected
  have second := Memory.num_write_part wf p 4 z.arrived z.bytes (by simp) rfl arrived
  have third := Memory.num_write_part wf p 8 z.word z.bytes (by simp) rfl fits
  have fourth := Memory.num_write_part wf p 12 z.foffset z.bytes (by simp) rfl foffset
  rw [stage_eq, written, first, second, third, fourth, hphase, hfault, hkind]

/-! ### A word on a stage barrier (R306, R312) -/

/-- The state in which such a word acts: the fibre's queue has left, and the operand log has a place where a race may need one. -/
def State.stageReady (s : State) (a : Act) : State :=
  ((s.drain a.ref).1.withLog a.ref ((s.drain a.ref).1.launchOf a.ref.wg).checked).1

/-- The race check of such a word, as of an atomic of 16 bytes. -/
def State.stageCheck (s : State) (a : Act) (o : Nat) : Except (Nat × Nat × List Word) CheckNote :=
  (s.drain a.ref).1.onceCheck a [(a.low, apertureVa o, 16, 2)]

/-- Such a word acts: its 16 aligned bytes stand at `p`, the fibre's queue leaves, the operand log has a place and no race traps. -/
def StageGoes (a : Act) (s : State) (o p : Nat) : Prop :=
  o % 16 = 0 ∧ s.aperture a.ref.wg o 16 = some p ∧ s.storesLeave a.ref ∧
    (s.drain a.ref).1.logGoes a.ref ((s.drain a.ref).1.launchOf a.ref.wg).checked ∧ (s.stageCheck a o).isOk = true

/-- What a word on a stage barrier answers once its latches and register have been checked. -/
def stageBody (x : Src) (off : BitVec 32) (body : Act → State → Nat → Nat → Out) (a : Act) (s : State) : Out :=
  let o := s.jobOffset a x off
  match if o % 16 == 0 then s.aperture a.ref.wg o 16 else none with
  | none => .bad (a.operand a.low 6)
  | some p => afterStores a s fun s => onceChecked a s [(a.low, apertureVa o, 16, 2)] fun s => body a s o p

theorem stageBody_goes {a : Act} {s : State} {x : Src} {off : BitVec 32} {p : Nat} {body : Act → State → Nat → Nat → Out}
    (goes : StageGoes a s (s.jobOffset a x off) p) : stageBody x off body a s =
      (body a (s.stageReady a) (s.jobOffset a x off) p).noting a.ref ((s.stageCheck a (s.jobOffset a x off)).toOption.getD (0, none)) := by
  obtain ⟨aligned, place, leave, log, race⟩ := goes
  unfold stageBody
  simp only [aligned, place, beq_self_eq_true, if_true]
  exact (afterStores_leave leave).trans (onceChecked_goes log race)

/-- What SBINIT does to the barrier at `p` (R312). -/
def sbinitAt (y : Src) (a : Act) (s : State) (o p : Nat) : Out :=
  .done ((s.putStage a o p ⟨s.low32 a y, 0, 0, false, 0, 0⟩).modCore (p / Config.scratchBytes) (fun c => { c with
    stageKicks := Map.del c.stageKicks p }))

/-- What SBADD does to it. -/
def sbaddAt (y : Src) (a : Act) (s : State) (o p : Nat) : Out :=
  let x := s.stage p
  if 2 ^ 32 ≤ x.expected + s.low32 a y then .bad (a.operand a.low 9)
  else .done (s.putStage a o p { x with expected := x.expected + s.low32 a y })

/-- What SBTEST reads of it. -/
def sbtestAt (d : BitVec 8) (a : Act) (s : State) (_ p : Nat) : Out := .done (s.putAll a d.toNat (Memory.num s.scratch (p + 8) 4))

/-- How SBWAIT passes it, waits at it, or meets its fault (R308). -/
def sbwaitAt (y : Src) (a : Act) (s : State) (o p : Nat) : Out :=
  let x := s.stage p
  if x.fault then .bad (stageTrap a (apertureVa o) x)
  else if x.phase != s.low32 a y % 2 then .done (s.joinStage a.ref p)
  else .hold s a.group (.stage p (s.low32 a y % 2) (apertureVa o)) true

section
variable (h : Hdr) (d : BitVec 8) (x y : Src) (off : BitVec 32) (s : State)

theorem exec_sbinit : exec (.sbinit h x y off) s = onceWord h [(x, 1), (y, 1)] [] s (stageBody x off (sbinitAt y)) := rfl

theorem exec_sbadd : exec (.sbadd h x y off) s = onceWord h [(x, 1), (y, 1)] [] s (stageBody x off (sbaddAt y)) := rfl

theorem exec_sbtest : exec (.sbtest h d x off) s = onceWord h [(x, 1)] [d.toNat] s (stageBody x off (sbtestAt d)) := rfl

theorem exec_sbwait : exec (.sbwait h x y off) s = onceWord (atPoint h) [(x, 1), (y, 1)] [] s (stageBody x off (sbwaitAt y)) := rfl

end

/-- Settles O32: each word is a branch of its body, by `stageBody_goes`; a barrier that has been written reads back by
`stage_of_written`. -/
theorem stageBarriers : Obligations.StageBarriers := by
  unfold Obligations.StageBarriers
  intro s h d x y off o left v check note bar word two twoLast
  have acts {p : Nat} {body : Act → State → Nat → Nat → Out} {a : Act} {b : State} (goes : bar p a b) :
      stageBody x off body a b = (body a (v a b) (o a b) p).noting a.ref (note a b) := stageBody_goes goes
  refine ⟨fun p => ?sbinit, fun p => ?sbadd, fun p => ?overflow, fun p => ?sbtest, fun p => ?passes, fun p => ?parks, fun p => ?faults,
    fun v a o p z unchecked wf expected arrived phase kind foffset => ?written⟩
  case sbinit => exact onceDoes_of_onceWord (exec_sbinit h x y off s) fun a b goes => acts goes
  case sbadd =>
    refine onceDoes_of_onceWord (exec_sbadd h x y off s) fun a b ⟨goes, fits⟩ => (acts goes).trans ?_
    simp only [sbaddAt, stage_eq]
    rw [if_neg (not_le.2 fits)]
    rfl
  case overflow =>
    refine onceTraps_of_onceWord (exec_sbadd h x y off s) fun a b ⟨goes, overflows⟩ => (acts goes).trans ?_
    simp only [sbaddAt, stage_eq]
    rw [if_pos overflows]
    rfl
  case sbtest => exact onceDoes_of_onceWord (exec_sbtest h d x off s) fun a b goes => acts goes
  case passes =>
    refine onceDoes_of_onceWord (exec_sbwait h x y off s) fun a b ⟨goes, sound, other⟩ => (acts goes).trans ?_
    simp only [sbwaitAt, stage_eq]
    rw [if_neg (by simpa using sound), if_pos (bne_iff_ne.2 other)]
    rfl
  case parks =>
    refine waits_of_runWord (exec_sbwait h x y off s) fun a b ⟨pass, goes, sound, same⟩ => (unlessFault_pass pass).trans ((acts goes).trans ?_)
    simp only [sbwaitAt, stage_eq]
    rw [if_neg (by simpa using sound), if_neg (by simpa using same)]
    rfl
  case faults =>
    refine traps_of_runWord (exec_sbwait h x y off s) fun a b ⟨pass, goes, fault⟩ => (unlessFault_pass pass).trans ((acts goes).trans ?_)
    simp only [sbwaitAt, stage_eq]
    rw [if_pos fault]
    rfl
  case written =>
    have scratch := scratch_putStage unchecked o p z
    refine ⟨stage_of_written scratch wf expected arrived phase kind foffset, fun q outside => ?_⟩
    rw [scratch, Memory.get_write wf, if_neg]
    rw [Stage.length_bytes]
    omega

end Sys2Proof.Machine
end

/-! ## The network (R315 to R321) -/

section
namespace Sys2Proof.Machine

/-- The lowest bits of a number. -/
theorem bits_low (v n : Nat) : bits v 0 n = v % 2 ^ n := by rw [bits, Nat.pow_zero, Nat.div_one]

section
variable {a : Act} {s : State} {d : BitVec 8} {x y : Src} {off : BitVec 32}

/-! ### NRXARM (R316) -/

/-- The work-group of the fibre's launch cluster that holds a scratchpad address. -/
def State.clusterOwner (s : State) (g p : Nat) : Nat :=
  match Map.find s.wgs g with
  | some w => ((s.wgs.find? (fun e => e.2.core == p / 2 ^ 20 && e.2.launch == w.launch && e.2.cluster == w.cluster)).map (·.1)).getD g
  | none => g

/-- A ring with some depth takes a slot at `p`, whose lines become absent, unless it is full. -/
def armSlot (d : BitVec 8) (a : Act) (die ring o p size depth : Nat) (s : State) : Out :=
  if depth ≤ (Map.getD (s.die die).net.rings ring {}).armed.length then .done (s.putAll a d.toNat 1)
  else .done ((((linesOf p size).foldl (fun v l => v.setPresent l false) s).modRing die ring (fun r => { r with
    armed := r.armed ++ [⟨p / 2 ^ 20, s.clusterOwner a.ref.wg p, p, o⟩] })).putAll a d.toNat 0)

/-- What NRXARM answers once its latch and register have been checked. -/
def nrxarmBody (d : BitVec 8) (x : Src) (ring : BitVec 4) (off : BitVec 32) (a : Act) (s : State) : Out :=
  let die := dieOf (s.coreOf a.ref.wg)
  let o := s.jobOffset a x off
  match s.ringDesc die ring.toNat with
  | none => .done (s.putAll a d.toNat 2)
  | some (ctx, size, depth) =>
    if ctx != s.ctxOf a.ref.wg then .done (s.putAll a d.toNat 2)
    else match if o % 128 == 0 then s.aperture a.ref.wg o size else none with
      | none => .bad (a.operand a.low 6)
      | some p => armSlot d a die ring.toNat o p size depth s

theorem exec_nrxarm (h : Hdr) (ring : BitVec 4) :
    exec (.nrxarm h d x ring off) s = onceWord h [(x, 1)] [d.toNat] s (nrxarmBody d x ring off) := rfl

/-- A ring that is not defined, or of another context, is refused. -/
theorem nrxarmBody_refused {ring : BitVec 4}
    (foreign : ∀ e, s.ringDesc (dieOf (s.coreOf a.ref.wg)) ring.toNat = some e → e.1 ≠ s.ctxOf a.ref.wg) :
    nrxarmBody d x ring off a s = .done (s.putAll a d.toNat 2) := by
  unfold nrxarmBody
  dsimp only
  split
  · rfl
  next ctx size depth found => exact if_pos (bne_iff_ne.2 (foreign _ found))

theorem nrxarmBody_arms {ring : BitVec 4} {e : Nat × Nat × Nat} {p : Nat}
    (found : s.ringDesc (dieOf (s.coreOf a.ref.wg)) ring.toNat = some e) (mine : e.1 = s.ctxOf a.ref.wg)
    (aligned : s.jobOffset a x off % 128 = 0) (place : s.aperture a.ref.wg (s.jobOffset a x off) e.2.1 = some p) :
    nrxarmBody d x ring off a s =
      armSlot d a (dieOf (s.coreOf a.ref.wg)) ring.toNat (s.jobOffset a x off) p e.2.1 e.2.2 s := by
  unfold nrxarmBody
  simp only [found, mine, aligned, place, bne_self_eq_false, Bool.false_eq_true, if_false, beq_self_eq_true, if_true]

/-! ### NTX (R319) -/

/-- The frames of a core that wait in its die's queue. -/
def State.framesOf (s : State) (core : Nat) : Nat := ((s.die (dieOf core)).net.queue.filter (fun f => f.core == core)).length

/-- A frame offers itself after a release, and its handle is returned. -/
def offerFrame (d : BitVec 8) (ts p1 : Bool) (len p : Nat) (a : Act) (s : State) : Out :=
  kicked a s .die fun _ v =>
    .done ((v.offer (dieOf (s.coreOf a.ref.wg)) ⟨0, s.coreOf a.ref.wg, a.ref.wg, p, len, ts, p1, none⟩).2.2.putAll a d.toNat
      (v.die (dieOf (s.coreOf a.ref.wg))).net.nextHandle)

theorem offerFrame_leave {ts p1 : Bool} {len p : Nat} (leave : s.storesLeave a.ref) : offerFrame d ts p1 len p a s =
    let v := (s.kickFrom a .die).2
    .done ((v.offer (dieOf (s.coreOf a.ref.wg)) ⟨0, s.coreOf a.ref.wg, a.ref.wg, p, len, ts, p1, none⟩).2.2.putAll a d.toNat
      (v.die (dieOf (s.coreOf a.ref.wg))).net.nextHandle) := kicked_leave leave

/-- What NTX answers once its latches and register have been checked. -/
def ntxBody (d : BitVec 8) (x y : Src) (ts p1 : Bool) (off : BitVec 32) (a : Act) (s : State) : Out :=
  let core := s.coreOf a.ref.wg
  let o := s.jobOffset a x off
  let len := s.low32 a y
  if 16 ≤ s.framesOf core then .hold s a.group (.room 32) false
  else if len < 60 || 9212 < len || !(s.mayTransmit (dieOf core) (s.ctxOf a.ref.wg) p1) then .bad (a.operand a.low 9)
  else match if o % 4 == 0 then s.aperture a.ref.wg o len else none with
    | none => .bad (a.operand a.low 6)
    | some p => offerFrame d ts p1 len p a s

theorem exec_ntx (h : Hdr) (ts p1 : Bool) :
    exec (.ntx h d x y ts p1 off) s = onceWord h [(x, 1), (y, 1)] [d.toNat] s (ntxBody d x y ts p1 off) := rfl

/-- Whether a frame of some length may leave through a port: it is neither short nor long, and the driver has granted the port. -/
def State.fitsPort (s : State) (g : Nat) (p1 : Bool) (len : Nat) : Prop :=
  60 ≤ len ∧ len ≤ 9212 ∧ s.mayTransmit (dieOf (s.coreOf g)) (s.ctxOf g) p1 = true

theorem unfit_iff {g : Nat} {p1 : Bool} {len : Nat} :
    (decide (len < 60) || decide (9212 < len) || !(s.mayTransmit (dieOf (s.coreOf g)) (s.ctxOf g) p1)) = true ↔
      ¬ s.fitsPort g p1 len := by
  simp only [State.fitsPort, Bool.or_eq_true, decide_eq_true_eq, Bool.not_eq_true', not_and_or, not_le, Bool.not_eq_true, or_assoc]

theorem ntxBody_full {ts p1 : Bool} (full : 16 ≤ s.framesOf (s.coreOf a.ref.wg)) :
    ntxBody d x y ts p1 off a s = .hold s a.group (.room 32) false := if_pos full

theorem ntxBody_offers {ts p1 : Bool} {p : Nat} (room : s.framesOf (s.coreOf a.ref.wg) < 16) (fits : s.fitsPort a.ref.wg p1 (s.low32 a y))
    (aligned : s.jobOffset a x off % 4 = 0) (place : s.aperture a.ref.wg (s.jobOffset a x off) (s.low32 a y) = some p) :
    ntxBody d x y ts p1 off a s = offerFrame d ts p1 (s.low32 a y) p a s := by
  unfold ntxBody
  dsimp only
  rw [if_neg room.not_ge, if_neg (fun unfit => unfit_iff.1 unfit fits)]
  simp only [aligned, place, beq_self_eq_true, if_true]

theorem ntxBody_unfit {ts p1 : Bool} (room : s.framesOf (s.coreOf a.ref.wg) < 16) (unfit : ¬ s.fitsPort a.ref.wg p1 (s.low32 a y)) :
    ntxBody d x y ts p1 off a s = .bad (a.operand a.low 9) := (if_neg room.not_ge).trans (if_pos (unfit_iff.2 unfit))

/-! ### NTSR (R320) -/

/-- What NTSR.st returns of a handle's state: an expired handle has none. -/
def txWord : Option TxState → Nat
  | some e => bit01 e.sent + bit01 e.stamped * 2 + bit01 e.dropped * 8
  | none => 4

theorem exec_ntsrSt (h : Hdr) : exec (.ntsrSt h d x) s =
    onceWord h [(x, 1)] [d.toNat] s fun a s => .done (s.putAll a d.toNat (txWord (s.txState a x))) := rfl

/-- The tick of a handle with a stamp, and 0 without. -/
def txTick : Option TxState → Nat
  | some e => if e.stamped then e.tick else 0
  | none => 0

theorem txTick_eq (t : Option TxState) : txTick t = (match t.filter (·.stamped) with
    | some e => e.tick
    | none => 0) := by
  cases t with
  | none => rfl
  | some e => cases he : e.stamped <;> simp [txTick, Option.filter, he]

theorem exec_ntsrTick (h : Hdr) : exec (.ntsrTick h d x) s = onceWord h [(x, 1)] [d.toNat, d.toNat + 1] s fun a s =>
    .done (s.putPair a.ref d.toNat a.lanes (fun _ => BitVec.ofNat 64 (txTick (s.txState a x)))) := rfl

/-- The time of a handle with a stamp, and zeros without. -/
def txPtp : Option TxState → List Byte
  | some e => if e.stamped then e.ptp else List.replicate 16 0
  | none => List.replicate 16 0

theorem txPtp_eq (t : Option TxState) : txPtp t = (match t.filter (·.stamped) with
    | some e => e.ptp
    | none => List.replicate 16 0) := by
  cases t with
  | none => rfl
  | some e => cases he : e.stamped <;> simp [txPtp, Option.filter, he]

theorem exec_ntsrPtp (h : Hdr) : exec (.ntsrPtp h d x) s = onceWord h [(x, 1)] ((List.range 4).map (fun j => d.toNat + j)) s fun a s =>
    .done (s.putQuad a d.toNat (txPtp (s.txState a x))) := rfl

end

/-- Settles O33: NRXARM arms by `nrxarmBody_arms`, NTX offers by `ntxBody_offers`, and NTSR reads its handle's state. -/
theorem networkWords : Obligations.NetworkWords := by
  unfold Obligations.NetworkWords
  intro s h d x y ring ts p1 off o die tx size armed mine
  refine ⟨?foreign, fun e p => ?full, fun e p => ?arms, ⟨fun p => ?offers, ?waits, ?unfit⟩, ?st, ?tick, ?ptp⟩
  case foreign => exact onceDoes_of_onceWord (exec_nrxarm h ring) fun a b foreign => nrxarmBody_refused foreign
  case full =>
    refine onceDoes_of_onceWord (exec_nrxarm h ring) fun a b ⟨⟨found, own, aligned, place⟩, full⟩ => ?_
    rw [nrxarmBody_arms found own aligned place, armSlot, if_pos full]
  case arms =>
    refine onceDoes_of_onceWord (exec_nrxarm h ring) fun a b ⟨⟨found, own, aligned, place⟩, room⟩ => ?_
    rw [nrxarmBody_arms found own aligned place, armSlot, if_neg room.not_ge]
    rfl
  case offers =>
    refine onceDoes_of_onceWord (exec_ntx h ts p1) fun a b ⟨room, fits, aligned, place, leave⟩ => ?_
    refine (ntxBody_offers room fits aligned place).trans ?_
    rw [offerFrame_leave leave]
  case waits => exact waits_of_runWord (exec_ntx h ts p1) fun a b ⟨pass, full⟩ => (unlessFault_pass pass).trans (ntxBody_full full)
  case unfit => exact onceTraps_of_onceWord (exec_ntx h ts p1) fun a b ⟨room, unfit⟩ => ntxBody_unfit room unfit
  case st => exact onceDoes_of_onceWord (exec_ntsrSt h) fun a b _ => rfl
  case tick =>
    exact onceDoes_of_onceWord (exec_ntsrTick h) fun a b _ =>
      congrArg (fun v => Out.done (b.putPair a.ref d.toNat a.lanes (fun _ => BitVec.ofNat 64 v))) (txTick_eq (b.txState a x))
  case ptp =>
    exact onceDoes_of_onceWord (exec_ntsrPtp h) fun a b _ =>
      congrArg (fun l => Out.done (b.putQuad a d.toNat l)) (txPtp_eq (b.txState a x))

end Sys2Proof.Machine
end

/-! ## Frames (R315 to R321) -/

section
namespace Sys2Proof.Machine

section
variable {s : State} {die port : Nat}

/-- A change of a network engine counts only by what it makes of the engine as it is. -/
theorem modNet_congr {f g : Net → Net} (same : f (s.die die).net = g (s.die die).net) : s.modNet die f = s.modNet die g :=
  congrArg (fun n => { s with dies := Map.set s.dies die { s.die die with net := n } }) same

/-! ### Reception -/

theorem exec_frameReceive_bad (l : List Byte) : exec (.frameReceive die port ⟨false, l⟩) s =
    .next (s.modNet die (fun n => { n with badFcs := n.badFcs + 1 })) := rfl

theorem exec_frameReceive (l : List Byte) : exec (.frameReceive die port ⟨true, l⟩) s = .next (match s.findRule die port l with
    | none => s.modNet die (fun n => { n with unmatched := (n.unmatched + 1) % 2 ^ 32 })
    | some i =>
      let v := leNat (((s.ruleBytes die i).drop 0x14).take 4)
      if bits v 4 2 == 0 then s else s.receive die port i (bits v 0 4) l) := rfl

/-- The rule of a frame drops it with action 0, and otherwise selects a ring (R315). -/
theorem exec_frameReceive_rule {l : List Byte} {i : Nat} (found : s.findRule die port l = some i) :
    let v := leNat (((s.ruleBytes die i).drop 0x14).take 4)
    exec (.frameReceive die port ⟨true, l⟩) s = .next (if v / 2 ^ 4 % 4 = 0 then s else s.receive die port i (v % 16) l) := by
  intro v
  rw [exec_frameReceive, found]
  dsimp only
  rw [bits_low]
  simp only [bits, beq_iff_eq]
  rfl

/-- A frame for a ring with no armed slot is counted by the ring (R316). -/
theorem receive_unarmed {rule k : Nat} {l : List Byte} (unarmed : (Map.getD (s.die die).net.rings k {}).armed = []) :
    s.receive die port rule k l = s.modRing die k (fun x => { x with
      drops := (x.drops + 1) % 2 ^ 32, sequence := ((Map.getD (s.die die).net.rings k {}).sequence + 1) % 2 ^ 32 }) := by
  unfold State.receive
  simp only [unarmed]

/-! ### Transmission -/

/-- What becomes of the frame that leaves a port: its bytes go on the wire, or are lost where the link is down (R319, R320). -/
def State.sendFrame (s : State) (die handle : Nat) (f : TxFrame) : State :=
  let down := (s.die die).net.down.contains (bit01 f.p1)
  s.modNet die (fun n => { n with
    queue := n.queue.filter (fun x => x.handle != handle)
    wire := if down then n.wire else Map.set n.wire (bit01 f.p1) (Memory.read s.scratch f.phys f.len)
    handles := if (Map.find n.handles handle).isSome then Map.set n.handles handle
        (if down then { dropped := true } else { sent := true, stamped := f.ts, tick := s.tick, ptp := s.ptpStamp })
      else n.handles })

theorem exec_frameSent {handle : Nat} {f : TxFrame} (found : (s.die die).net.queue.find? (fun x => x.handle == handle) = some f)
    (oldest : ((s.die die).net.queue.find? (fun x => x.p1 == f.p1)).map (·.handle) = some handle) :
    exec (.frameSent die handle) s = .next (match f.node with
      | some k => (s.sendFrame die handle f).unitDone die k
      | none => s.sendFrame die handle f) := by
  have he : exec (.frameSent die handle) s = execFrameSent die handle s := rfl
  rw [he, execFrameSent]
  simp only [found, oldest, bne_self_eq_false, Bool.false_eq_true, if_false]
  rfl

/-! ### Frame nodes (R321) -/

/-- The place in a die's scratchpads that a frame node's payload names: core, offset in it, and bytes. -/
def frameSource (die payload : Nat) : Nat × Nat × Nat :=
  (die * Config.coresPerDie + payload / 2 ^ 20 % 2 ^ 8, payload % 2 ^ 20, payload / 2 ^ 28 % 2 ^ 14)

/-- The work-group of a context whose region holds such a place and the four bytes before it. -/
def State.frameHome (s : State) (ctx : Nat) (src : Nat × Nat × Nat) : Option (Nat × WorkGroup) :=
  s.wgs.find? (fun e => e.2.core == src.1 && s.ctxOf e.1 == ctx && decide (e.2.base + 4 ≤ src.2.1) &&
    decide (src.2.1 + src.2.2 ≤ e.2.base + (s.launch e.2.launch).scratch))

/-- A node offers a frame of a work-group's region; one that is not taken completes at once. -/
def State.offerNode (s : State) (die node payload g : Nat) (src : Nat × Nat × Nat) : State :=
  let r := s.offer die ⟨0, src.1, g, scratchAddr src.1 src.2.1, src.2.2, bit payload 42, bit payload 43, some node⟩
  let v := r.2.2.scratchDeliver none (scratchAddr src.1 (src.2.1 - 4)) (leBytes 4 (r.1 + 2 ^ 31)) false
  if r.2.1 then v else v.unitDone die node

/-- A node that may not send completes with a record. -/
def State.refuseNode (s : State) (die node ctx : Nat) (outside : Bool) (granted : Bool) : State :=
  (s.hostEvent 0x4D ctx die (mkRef die node) (bit01 outside + bit01 (!granted) * 2)).unitDone die node

/-- Bit 0 of that record says that no work-group holds the place, and bit 1 that the port is not granted. -/
theorem refusal_eq {β : Type} [DecidableEq β] (home : Option β) (granted : Bool) : bit01 home.isNone + bit01 (!granted) * 2 =
    (if home = none then 1 else 0) + (if granted = false then 2 else 0) := by
  have first : bit01 home.isNone = if home = none then 1 else 0 := by simp [bit01]
  have second : bit01 (!granted) * 2 = if granted = false then 2 else 0 := by cases granted <;> rfl
  rw [first, second]

theorem exec_frameNodeDispatch_unready {node : Nat} (unready : s.readyNode die node 4 = false) :
    exec (.frameNodeDispatch die node) s = .next s := by
  have he : exec (.frameNodeDispatch die node) s = execFrameNodeDispatch die node s := rfl
  rw [he, execFrameNodeDispatch, unready, if_neg Bool.false_ne_true]

theorem exec_frameNodeDispatch {node : Nat} (ready : s.readyNode die node 4 = true) :
    let x := s.node die node
    let u := s.startNode die node
    let home := u.frameHome x.ctx (frameSource die x.payload)
    let granted := u.mayTransmit die x.ctx (bit x.payload 43)
    (∀ e, home = some e → granted = true →
      exec (.frameNodeDispatch die node) s = .next (u.offerNode die node x.payload e.1 (frameSource die x.payload))) ∧
    (home = none ∨ granted = false →
      exec (.frameNodeDispatch die node) s = .next (u.refuseNode die node x.ctx home.isNone granted)) := by
  have he : exec (.frameNodeDispatch die node) s = execFrameNodeDispatch die node s := rfl
  intro x u home granted
  rw [he, execFrameNodeDispatch, if_pos ready]
  dsimp only
  rw [bits_low]
  have source : frameSource die x.payload = (die * Config.coresPerDie + bits x.payload 20 8, x.payload % 2 ^ 20, bits x.payload 28 14) := rfl
  refine ⟨fun e found may => ?offers, fun denied => ?refuses⟩
  case offers =>
    simp only [home, granted, State.frameHome, source, u, x] at found may
    simp only [found, may]
    rfl
  case refuses =>
    simp only [home, granted, State.frameHome, source, u, x] at denied ⊢
    split
    next g w found may => rcases denied with h | h <;> simp_all
    next => rfl

end

/-- Settles O47: each event by the lemma about it, with the branch that its clause names. -/
theorem framesMove : Obligations.FramesMove := by
  unfold Obligations.FramesMove
  refine ⟨fun s die port l => ⟨exec_frameReceive_bad l, fun unmatched => ?unmatched, fun i found => ⟨fun drops => ?drops,
      fun selects unarmed => ?unarmed, fun selects => ?selects⟩⟩,
    fun s die handle f found oldest => exec_frameSent found oldest, fun s die node => exec_frameNodeDispatch_unready,
    fun s die node ready => ⟨fun e home granted => ?offers, fun denied => ?refuses⟩,
    fun s die port => ⟨rfl, fun was => ?wasDown, fun was => ?goesDown⟩⟩
  case unmatched => rw [exec_frameReceive, unmatched]
  case drops => rw [exec_frameReceive_rule found, if_pos drops]
  case unarmed =>
    rw [exec_frameReceive_rule found, if_neg selects, receive_unarmed unarmed]
  case selects => rw [exec_frameReceive_rule found, if_neg selects]
  case offers =>
    exact (exec_frameNodeDispatch ready).1 e home granted
  case refuses =>
    rw [(exec_frameNodeDispatch ready).2 denied, State.refuseNode, refusal_eq]
    rfl
  case wasDown =>
    refine congrArg Host.Outcome.next (modNet_congr ?_)
    simp [was]
  case goesDown =>
    refine congrArg Host.Outcome.next (modNet_congr ?_)
    simp [was]

end Sys2Proof.Machine
end

/-! ## Words on nodes of the task graph (R326, R328, R329, R331, R349) -/

section
namespace Sys2Proof.Machine

section
variable {a : Act} {s : State} {d : BitVec 8} {x y : Src} {off : BitVec 32}

/-! ### TNODE -/

/-- What TNODE does with the template that it has read: a free node takes it, and is ready at once where it awaits nothing (R328). -/
def makeNode (d : BitVec 8) (die : Nat) (a : Act) (l : List Byte) (s : State) : Out :=
  match readNode (s.ctxOf a.ref.wg) l with
  | none => .bad (a.operand a.low 7)
  | some n =>
    match s.freeNode die with
    | (none, u) => .done (u.putAll a d.toNat 1)
    | (some k, u) =>
      let v := u.setNode die k n
      .done ((if n.init == 0 then v.makeReady die k else v).putAll a d.toNat (mkRef die k))

/-- What TNODE answers once its latch and register have been checked. -/
def tnodeBody (d : BitVec 8) (x : Src) (off : BitVec 32) (a : Act) (s : State) : Out :=
  let o := s.jobOffset a x off
  if o % 64 != 0 || (s.aperture a.ref.wg o 64).isNone then .bad (a.operand a.low 6)
  else ownRecords a s o 64 1 fun l v => makeNode d (dieOf (s.coreOf a.ref.wg)) a (l.headD []) v

theorem exec_tnode (h : Hdr) : exec (.tnode h d x off) s = onceWord h [(x, 1)] [d.toNat] s (tnodeBody d x off) := rfl

theorem tnodeBody_reads (aligned : s.jobOffset a x off % 64 = 0)
    (place : (s.aperture a.ref.wg (s.jobOffset a x off) 64).isSome = true) (goes : RecordsGo a s (s.jobOffset a x off) 64 1) :
    tnodeBody d x off a s = (makeNode d (dieOf (s.coreOf a.ref.wg)) a ((s.recordsAt a (s.jobOffset a x off) 64 1).headD [])
      (s.recordsReady a)).noting a.ref (s.recordsNote a (s.jobOffset a x off) 64 1) := by
  unfold tnodeBody
  dsimp only
  rw [aligned, Option.isNone_eq_false_iff.2 place]
  exact (if_neg Bool.false_ne_true).trans (ownRecords_go goes)

theorem makeNode_takes {die : Nat} {l : List Byte} {n : Node} (formed : readNode (s.ctxOf a.ref.wg) l = some n) :
    makeNode d die a l s = .done (match (s.freeNode die).1 with
      | none => (s.freeNode die).2.putAll a d.toNat 1
      | some k =>
        let v := (s.freeNode die).2.setNode die k n
        (if n.init = 0 then v.makeReady die k else v).putAll a d.toNat (mkRef die k)) := by
  unfold makeNode
  rw [formed]
  rcases s.freeNode die with ⟨_ | k, u⟩
  · rfl
  · simp only [beq_iff_eq]

theorem makeNode_refuses {die : Nat} {l : List Byte} (malformed : readNode (s.ctxOf a.ref.wg) l = none) :
    makeNode d die a l s = .bad (a.operand a.low 7) := by
  unfold makeNode
  rw [malformed]

/-! ### References -/

theorem node_of_own {ctx ref die n : Nat} {e : Node} (own : s.ownNode ctx ref = some (die, n, e)) : s.node die n = e := by
  unfold State.ownNode at own
  split at own
  · dsimp only at own
    split at own
    · cases own
    · simp only [Option.some.injEq, Prod.mk.injEq] at own
      obtain ⟨rfl, rfl, rfl⟩ := own
      rfl
  · cases own

/-! ### TEDGE -/

/-- The status that the target of an edge gives (R349). -/
def edgeStatus (e : Node) : Nat := if e.st = .waiting then 0 else if e.st = .done then 2 else 1

/-- A target that gains a predecessor: it awaits one more while it waits (R328). -/
def Node.gain (e : Node) : Node := { e with init := e.init + 1, pred := if e.st = .waiting then e.pred + 1 else e.pred }

/-- What TEDGE does between two nodes of this package. -/
def edgeHere (d : BitVec 8) (x y : Src) (a : Act) (s : State) : Out :=
  let r := s.edge (s.ctxOf a.ref.wg) (s.low32 a x) (s.low32 a y) true true 0
  .done (r.2.putAll a d.toNat r.1)

/-- What TEDGE answers once its latches and register have been checked. -/
def tedgeBody (d : BitVec 8) (x y : Src) (a : Act) (s : State) : Out :=
  let ctx := s.ctxOf a.ref.wg
  let ra := s.low32 a x
  let rb := s.low32 a y
  let (pa, pb) := (s.peerRef ra, s.peerRef rb)
  if !(bit ra 31) || !(bit rb 31) then .bad (a.operand a.low 9)
  else if pa && pb then .done (s.peerAnswer a d.toNat 6)
  else
    let (k, s) := if pa || pb then s.draw else (0, s)
    let far := if pa then [0, 4, 3].getD ((Config.freeWord k).toNat % 3) 0
      else if pb then [0, 1, 2, 4, 5].getD ((Config.freeWord k).toNat % 5) 0 else 0
    let (v, s) := s.edge ctx ra rb (!pa) (!pb) far
    .done (s.putAll a d.toNat v)

theorem exec_tedge (h : Hdr) : exec (.tedge h d x y) s = onceWord h [(x, 1), (y, 1)] [d.toNat] s (tedgeBody d x y) := rfl

/-- References to nodes of this package: neither part of the edge is a peer's. -/
theorem tedgeBody_here (va : bit (s.low32 a x) 31 = true) (vb : bit (s.low32 a y) 31 = true) (pa : s.peerRef (s.low32 a x) = false)
    (pb : s.peerRef (s.low32 a y) = false) : tedgeBody d x y a s = edgeHere d x y a s := by
  unfold tedgeBody edgeHere
  simp only [va, vb, pa, pb, Bool.not_true, Bool.or_self, Bool.and_self, Bool.false_eq_true, if_false, Bool.not_false]

theorem edge_no_node {ctx src dst : Nat} (missing : s.ownNode ctx src = none ∨ s.ownNode ctx dst = none) :
    s.edge ctx src dst true true 0 = (4, s) := by
  unfold State.edge
  rcases missing with h | h <;> simp [h]

/-- An edge between two nodes: a source without a free successor place, a target whose count is full, or the two parts of the edge. -/
theorem edge_nodes {ctx src dst d1 n1 d2 n2 : Nat} {e1 e2 : Node} (first : s.ownNode ctx src = some (d1, n1, e1))
    (second : s.ownNode ctx dst = some (d2, n2, e2)) : s.edge ctx src dst true true 0 =
      match e1.succs.findIdx? (fun r => !(bit r 31)) with
      | none => (3, s)
      | some i =>
        if e2.init = 0xFFFF then (5, s)
        else
          let w := s.setNode d1 n1 { e1 with succs := e1.succs.set i dst }
          (edgeStatus (w.node d2 n2), w.setNode d2 n2 (w.node d2 n2).gain) := by
  have opens : e1.open = (e1.succs.findIdx? (fun r => !(bit r 31))).isSome := by
    rw [Node.open, List.findIdx?_isSome]
  unfold State.edge
  simp only [first, second, Option.isNone_some, Option.map_some, Option.getD_some, opens, State.addSucc, State.edgeTarget,
    node_of_own first]
  cases e1.succs.findIdx? (fun r => !(bit r 31)) with
  | none => rfl
  | some i =>
    by_cases full : e2.init = 0xFFFF
    · simp [full]
    · simp [full, edgeStatus, Node.gain]

/-! ### TDONE -/

/-- The scope at which TDONE releases: that of the node's die, package or domain (R331). -/
def State.doneScope (s : State) (die ref : Nat) : Scope :=
  match s.refNode ref with
  | some (e, _) => if e == die then .die else .pkg
  | none => if s.peerRef ref then .dom else .die

/-- What TDONE answers once its latch has been checked. -/
def tdoneBody (x : Src) (a : Act) (s : State) : Out :=
  let ref := s.low32 a x
  if !(bit ref 31) then .bad (a.operand a.low 9)
  else kicked a s (s.doneScope (dieOf (s.coreOf a.ref.wg)) ref) fun k v => .done (v.post k.ctx ref)

theorem exec_tdone (h : Hdr) : exec (.tdone h x) s = onceWord h [(x, 1)] [] s (tdoneBody x) := rfl

theorem tdoneBody_posts (valid : bit (s.low32 a x) 31 = true) (leave : s.storesLeave a.ref) : tdoneBody x a s =
    let k := s.kickFrom a (s.doneScope (dieOf (s.coreOf a.ref.wg)) (s.low32 a x))
    .done { k.2 with posts := k.2.posts ++ [⟨s.low32 a x, k.1.ctx⟩] } := by
  unfold tdoneBody
  simp only [valid, Bool.not_true, Bool.false_eq_true, if_false]
  refine (kicked_leave leave).trans ?_
  rw [State.post, if_pos valid]

/-! ### TSTAT and TREARM -/

/-- What TSTAT answers once its latch and register have been checked. -/
def tstatBody (d : BitVec 8) (x : Src) (a : Act) (s : State) : Out :=
  let ref := s.low32 a x
  if !(bit ref 31) then .bad (a.operand a.low 9)
  else if s.peerRef ref then .done (s.peerAnswer a d.toNat (2 ^ 32))
  else match s.ownNode (s.ctxOf a.ref.wg) ref with
    | some (_, _, e) => .done (s.putAll a d.toNat (e.pred + e.init * 2 ^ 16))
    | none => .done (s.putAll a d.toNat 0xFFFFFFFF)

theorem exec_tstat (h : Hdr) : exec (.tstat h d x) s = onceWord h [(x, 1)] [d.toNat] s (tstatBody d x) := rfl

theorem tstatBody_reads (valid : bit (s.low32 a x) 31 = true) (here : s.peerRef (s.low32 a x) = false) : tstatBody d x a s =
    .done (s.putAll a d.toNat (match s.ownNode (s.ctxOf a.ref.wg) (s.low32 a x) with
      | some e => e.2.2.pred + e.2.2.init * 2 ^ 16
      | none => 0xFFFFFFFF)) := by
  unfold tstatBody
  simp only [valid, here, Bool.not_true, Bool.false_eq_true, if_false]
  cases s.ownNode (s.ctxOf a.ref.wg) (s.low32 a x) <;> rfl

/-- What both forms of TREARM answer once their latch and register have been checked. -/
def rearmBody (d : BitVec 8) (x : Src) (free : Bool) (a : Act) (s : State) : Out :=
  let ref := s.low32 a x
  if !(bit ref 31) then .bad (a.operand a.low 9)
  else if s.peerRef ref then .done (s.peerAnswer a d.toNat 4)
  else match s.ownNode (s.ctxOf a.ref.wg) ref with
    | some (die, n, _) => .done ((s.rearmNode die n free).2.putAll a d.toNat (s.rearmNode die n free).1)
    | none => .done (s.putAll a d.toNat 3)

theorem exec_trearm (h : Hdr) : exec (.trearm h d x) s = onceWord h [(x, 1)] [d.toNat] s (rearmBody d x false) := rfl

theorem exec_trearmFree (h : Hdr) : exec (.trearmFree h d x) s = onceWord h [(x, 1)] [d.toNat] s (rearmBody d x true) := rfl

/-- A node that has completed restarts or goes free, and one that runs is marked to restart (R328). -/
theorem rearmNode_eq {die n : Nat} (free : Bool) : s.rearmNode die n free =
    if (s.node die n).st = .done then
      (0, if free then s.setNode die n { s.node die n with st := .free } else s.restart die n)
    else if (s.node die n).st = .running then
      (if free then (2, s) else (1, s.setNode die n { s.node die n with rearm := true }))
    else (2, s) := by
  unfold State.rearmNode
  dsimp only
  split
  next done => cases free <;> simp [done]
  next running => cases free <;> simp [running]
  next idle busy => rw [if_neg idle, if_neg busy]

theorem rearmBody_own (valid : bit (s.low32 a x) 31 = true) (here : s.peerRef (s.low32 a x) = false) (free : Bool) :
    rearmBody d x free a s = .done (match s.ownNode (s.ctxOf a.ref.wg) (s.low32 a x) with
      | none => s.putAll a d.toNat 3
      | some (die, n, e) =>
        let r := if e.st = .done then (0, if free then s.setNode die n { e with st := .free } else s.restart die n)
          else if e.st = .running then (if free then (2, s) else (1, s.setNode die n { e with rearm := true })) else (2, s)
        r.2.putAll a d.toNat r.1) := by
  unfold rearmBody
  simp only [valid, here, Bool.not_true, Bool.false_eq_true, if_false]
  cases own : s.ownNode (s.ctxOf a.ref.wg) (s.low32 a x) with
  | none => rfl
  | some e =>
    obtain ⟨die, n, e⟩ := e
    simp only [rearmNode_eq, node_of_own own]

end

/-- Settles O34: each word by the lemma about its body; the two nodes of an edge by `edge_nodes`, and a node that restarts by
`rearmNode_eq`. -/
theorem taskGraphWords : Obligations.TaskGraphWords := by
  unfold Obligations.TaskGraphWords
  intro s h d x y off o die ra ref na nb
  refine ⟨fun n => ?tnode, ?malformed, ?edges, ?tdone, ?tstat, ?rearms, ?invalid⟩
  case tnode =>
    exact onceDoes_of_onceWord (exec_tnode h) fun a b ⟨aligned, place, goes, formed⟩ =>
      (tnodeBody_reads aligned place goes).trans (congrArg (Out.noting a.ref _) (makeNode_takes formed))
  case malformed =>
    exact onceTraps_of_onceWord (exec_tnode h) fun a b ⟨aligned, place, goes, malformed⟩ =>
      (tnodeBody_reads aligned place goes).trans (congrArg (Out.noting a.ref _) (makeNode_refuses malformed))
  case edges =>
    refine ⟨?noNode, fun d1 n1 e1 d2 n2 e2 => ⟨?full, fun i => ?enters⟩⟩
    case noNode =>
      refine onceDoes_of_onceWord (exec_tedge h) fun a b ⟨⟨va, pa⟩, vb, pb, missing⟩ => ?_
      rw [tedgeBody_here va vb pa pb, edgeHere, edge_no_node missing]
    case full =>
      refine onceDoes_of_onceWord (exec_tedge h) fun a b ⟨⟨va, pa⟩, vb, pb, first, second, full⟩ => ?_
      rw [tedgeBody_here va vb pa pb, edgeHere, edge_nodes first second, full]
    case enters =>
      refine onceDoes_of_onceWord (exec_tedge h) fun a b ⟨⟨va, pa⟩, vb, pb, first, second, place⟩ => ?_
      rw [tedgeBody_here va vb pa pb, edgeHere, edge_nodes first second, place]
      dsimp only
      split <;> rfl
  case tdone => exact onceDoes_of_onceWord (exec_tdone h) fun a b ⟨valid, leave⟩ => tdoneBody_posts valid leave
  case tstat => exact onceDoes_of_onceWord (exec_tstat h) fun a b ⟨valid, here⟩ => tstatBody_reads valid here
  case rearms =>
    exact ⟨onceDoes_of_onceWord (exec_trearm h) fun a b ⟨valid, here⟩ => rearmBody_own valid here false,
      onceDoes_of_onceWord (exec_trearmFree h) fun a b ⟨valid, here⟩ => rearmBody_own valid here true⟩
  case invalid =>
    have bad {a : Act} {b : State} {k : Out} (invalid : bit (ra a b) 31 = false) :
        (if !(bit (b.low32 a x) 31) then .bad (a.operand a.low 9) else k) = .bad (a.operand a.low 9) := if_pos (by simpa using invalid)
    refine ⟨?_, onceTraps_of_onceWord (exec_tdone h) fun a b => bad, onceTraps_of_onceWord (exec_tstat h) fun a b => bad,
      onceTraps_of_onceWord (exec_trearm h) fun a b => bad, onceTraps_of_onceWord (exec_trearmFree h) fun a b => bad⟩
    refine onceTraps_of_onceWord (exec_tedge h) fun a b invalid => if_pos ?_
    simpa using .inl invalid

end Sys2Proof.Machine
end

/-! ## Collective words (R353, R258, R366, R367) -/

section
namespace Sys2Proof.Machine

section
variable {a : Act} {s : State} {d : BitVec 8} {x : Src} {off : BitVec 32}

/-- What a starting word does with a descriptor that its engine has room for: after a release it is accepted (R366). -/
def startColl (d : BitVec 8) (core ctx p : Nat) (c : CollDesc) (a : Act) (s : State) : Out :=
  kicked a s (s.collScope core ctx c) fun k v =>
    let r := v.acceptColl (dieOf core) ctx c p true k.launch core (v.baseOf a.ref.wg) (some k) none
    .done (r.2.putAll a d.toNat r.1)

/-- What a starting word does with the record that it has read. -/
def collRecord (kind : Nat) (d : BitVec 8) (core ctx p : Nat) (a : Act) (l : List Byte) (s : State) : Out :=
  match readColl l with
  | none => .bad (a.operand a.low 7)
  | some c =>
    if c.kind != kind || !(s.collRegions a.ref.wg ctx (dieOf core) c) then .bad (a.operand a.low 7)
    else if c.arrival && c.op == 0 && (s.launchOf a.ref.wg).determ then .bad a.nondet
    else if 64 ≤ s.collPlaces (dieOf core) then .hold s a.group (.room 64) false
    else startColl d core ctx p c a s

/-- What a starting word answers once its latch and register have been checked. -/
def collBody (kind : Nat) (d : BitVec 8) (x : Src) (off : BitVec 32) (a : Act) (s : State) : Out :=
  let o := s.jobOffset a x off
  match if o % 64 == 0 then s.ownRegion a.ref.wg o 64 else none with
  | none => .bad (a.operand a.low 6)
  | some p => ownRecords a s o 64 1 fun l v => collRecord kind d (s.coreOf a.ref.wg) (s.ctxOf a.ref.wg) p a (l.headD []) v

theorem collWord_eq (h : Hdr) (kind : Nat) : collWord h kind d x off s = onceWord h [(x, 1)] [d.toNat] s (collBody kind d x off) := rfl

theorem collBody_reads {kind p : Nat} (aligned : s.jobOffset a x off % 64 = 0)
    (place : s.ownRegion a.ref.wg (s.jobOffset a x off) 64 = some p) (goes : RecordsGo a s (s.jobOffset a x off) 64 1) :
    collBody kind d x off a s = (collRecord kind d (s.coreOf a.ref.wg) (s.ctxOf a.ref.wg) p a
      ((s.recordsAt a (s.jobOffset a x off) 64 1).headD []) (s.recordsReady a)).noting a.ref
        (s.recordsNote a (s.jobOffset a x off) 64 1) := by
  unfold collBody
  simp only [aligned, place, beq_self_eq_true, if_true]
  exact ownRecords_go goes

/-- A descriptor of the word's kind, whose regions are valid and which the launch may use, waits for a place or starts. -/
theorem collRecord_accepts {kind core ctx p : Nat} {l : List Byte} {c : CollDesc} (formed : readColl l = some c) (ofKind : c.kind = kind)
    (regions : s.collRegions a.ref.wg ctx (dieOf core) c = true)
    (ordered : c.arrival = true → c.op = 0 → (s.launchOf a.ref.wg).determ = false) : collRecord kind d core ctx p a l s =
      if 64 ≤ s.collPlaces (dieOf core) then .hold s a.group (.room 64) false else startColl d core ctx p c a s := by
  have good : (c.kind != kind || !(s.collRegions a.ref.wg ctx (dieOf core) c)) = false := by simp [ofKind, regions]
  have allowed : (c.arrival && c.op == 0 && (s.launchOf a.ref.wg).determ) = false := by
    simpa only [Bool.and_eq_false_imp, Bool.and_eq_true, beq_iff_eq, and_imp] using ordered
  unfold collRecord
  simp only [formed, good, allowed, Bool.false_eq_true, if_false]

/-- What CWAIT answers once its latch and register have been checked. -/
def cwaitBody (d : BitVec 8) (x : Src) (a : Act) (s : State) : Out :=
  match s.namedOp a.ref (s.low32 a x) with
  | none => .done (s.putAll a d.toNat 4)
  | some e =>
    if e.pending then .hold s a.group (.collective (dieOf (s.coreOf a.ref.wg)) (s.low32 a x)) true
    else
      let v := if e.status % 16 == 1 then
          (s.joinKick a.ref e.kick).cacheAcquire (s.agent a.ref.wg) ((e.kick.map (fun k => k.scope)).getD .dom)
        else s
      .done (v.putAll a d.toNat e.status)

theorem exec_cwait (h : Hdr) : exec (.cwait h d x) s = onceWord (atPoint h) [(x, 1)] [d.toNat] s (cwaitBody d x) := rfl

theorem cwaitBody_ended {e : CollOp} (named : s.namedOp a.ref (s.low32 a x) = some e) (ended : e.status ≠ 0) : cwaitBody d x a s =
    .done ((if e.status % 16 = 1 then
        (s.joinKick a.ref e.kick).cacheAcquire (s.agent a.ref.wg) ((e.kick.map (fun k => k.scope)).getD .dom)
      else s).putAll a d.toNat e.status) := by
  have notPending : e.pending = false := beq_eq_false_iff_ne.2 ended
  unfold cwaitBody
  simp only [named, notPending, Bool.false_eq_true, if_false, beq_iff_eq]

theorem cwaitBody_pending {e : CollOp} (named : s.namedOp a.ref (s.low32 a x) = some e) (pending : e.status = 0) :
    cwaitBody d x a s = .hold s a.group (.collective (dieOf (s.coreOf a.ref.wg)) (s.low32 a x)) true := by
  have going : e.pending = true := beq_iff_eq.2 pending
  unfold cwaitBody
  simp only [named, going, if_true]

/-- What CSTAT answers once its latch and register have been checked. -/
def cstatBody (d : BitVec 8) (x : Src) (what : BitVec 2) (a : Act) (s : State) : Out :=
  match s.namedOp a.ref (s.low32 a x) with
  | none => if what == 0 then .done (s.putAll a d.toNat 4) else .done (s.draw.2.putAll a d.toNat (Config.freeWord s.draw.1).toNat)
  | some e =>
    .done (s.putAll a d.toNat (
      if e.pending then 0
      else if what == 0 then e.status else if what == 1 then e.nanidx else if what == 2 then e.nansrc else min e.redone 0xFFFFFFFF))

theorem exec_cstat (h : Hdr) (what : BitVec 2) :
    exec (.cstat h d x what) s = onceWord h [(x, 1)] [d.toNat] s (cstatBody d x what) := rfl

theorem cstatBody_expired {what : BitVec 2} (named : s.namedOp a.ref (s.low32 a x) = none) : cstatBody d x what a s =
    .done (if what = 0 then s.putAll a d.toNat 4 else s.draw.2.putAll a d.toNat (Config.freeWord s.draw.1).toNat) := by
  unfold cstatBody
  simp only [named, beq_iff_eq]
  split <;> rfl

theorem cstatBody_named {what : BitVec 2} {e : CollOp} (named : s.namedOp a.ref (s.low32 a x) = some e) : cstatBody d x what a s =
    .done (s.putAll a d.toNat (if e.status = 0 then 0 else if what = 0 then e.status else if what = 1 then e.nanidx
      else if what = 2 then e.nansrc else min e.redone (2 ^ 32 - 1))) := by
  unfold cstatBody CollOp.pending
  simp only [named, beq_iff_eq]
  rfl

end

end Sys2Proof.Machine
end

/-! ## Words of the solver sequencer (R372 to R375, R381, R384, R454) -/

section
namespace Sys2Proof.Machine

section
variable {a : Act} {s : State} {d : BitVec 8} {x y : Src} {off : BitVec 32}

/-- Reads `n` bytes at an aligned offset of the issuing core's own region. -/
def ownBlock (align n : Nat) (x : Src) (off : BitVec 32) (a : Act) (s : State) (k : List Byte → State → Out) : Out :=
  let o := s.jobOffset a x off
  if o % align != 0 || (s.ownRegion a.ref.wg o n).isNone then .bad (a.operand a.low 6)
  else ownRecords a s o n 1 fun l v => k (l.headD []) v

/-- Such a block stands aligned in the region, and is read. -/
def OwnBlockGoes (align n : Nat) (x : Src) (off : BitVec 32) (a : Act) (s : State) : Prop :=
  s.jobOffset a x off % align = 0 ∧ (s.ownRegion a.ref.wg (s.jobOffset a x off) n).isSome = true ∧
    RecordsGo a s (s.jobOffset a x off) n 1

theorem ownBlock_goes {align n : Nat} {k : List Byte → State → Out} (goes : OwnBlockGoes align n x off a s) : ownBlock align n x off a s k =
    (k ((s.recordsAt a (s.jobOffset a x off) n 1).headD []) (s.recordsReady a)).noting a.ref
      (s.recordsNote a (s.jobOffset a x off) n 1) := by
  obtain ⟨aligned, place, reads⟩ := goes
  unfold ownBlock
  dsimp only
  rw [aligned, Option.isNone_eq_false_iff.2 place]
  exact (if_neg Bool.false_ne_true).trans (ownRecords_go reads)

/-! ### SQTAB (R372) -/

/-- Whether a table of a context is in use by a running sequence. -/
def State.tableBusy (s : State) (die ctx tab : Nat) : Bool :=
  (s.die die).sequencer.places.any (fun e => e.2.ctx == ctx && e.2.state == 1 && e.2.desc.table == tab)

/-- What SQTAB does with the bytes that it has read. -/
def defineTable (d : BitVec 8) (tab die ctx : Nat) (a : Act) (l : List Byte) (s : State) : Out :=
  if !(tableOk l) then .bad (a.operand a.low 7)
  else if s.tableBusy die ctx tab then .done (s.putAll a d.toNat 1)
  else .done ((s.modSeq die (fun q => { q with tables := Map.set q.tables tab (ctx, l) })).putAll a d.toNat 0)

theorem exec_sqtab (h : Hdr) (tab : BitVec 4) : exec (.sqtab h d x tab off) s = onceWord h [(x, 1)] [d.toNat] s fun a s =>
    ownBlock 64 256 x off a s (defineTable d tab.toNat (dieOf (s.coreOf a.ref.wg)) (s.ctxOf a.ref.wg) a) := rfl

theorem defineTable_ok {tab die ctx : Nat} {l : List Byte} (ok : tableOk l = true) : defineTable d tab die ctx a l s =
    .done (if s.tableBusy die ctx tab then s.putAll a d.toNat 1
      else (s.modSeq die (fun q => { q with tables := Map.set q.tables tab (ctx, l) })).putAll a d.toNat 0) := by
  unfold defineTable
  rw [ok, if_neg (by decide)]
  split <;> rfl

/-! ### SQDEF (R373) -/

/-- The first place of a die without a defined sequence. -/
def State.freePlace (s : State) (die : Nat) : Option Nat :=
  (List.range 16).find? (fun k => !(((s.seqPlace die k).map (fun p => p.defined)).getD false))

/-- The sequence that a descriptor defines at a place: its samples have yet to start. -/
def State.newSeq (s : State) (die ctx k : Nat) (c : SeqDesc) : SeqPlace :=
  { ctx := ctx, gen := (((s.seqPlace die k).map (fun p => p.gen)).getD 0 + 1) % 256
    defined := true, desc := c, samples := List.replicate c.nsamp {}, state := 0, reason := 0, rounds := 0
    stage := 0, active := [], waiting := false, abort := false, freeAfter := false, ending := none
    table := [], kick := none, startNode := none, retNode := none }

/-- What SQDEF does with a well-formed descriptor. -/
def placeSeq (d : BitVec 8) (die : Nat) (a : Act) (c : SeqDesc) (s : State) : Out :=
  match s.freePlace die with
  | none => .done (s.putAll a d.toNat 1)
  | some k =>
    if 16384 < s.seqRecords die + c.nsamp then .done (s.putAll a d.toNat 2)
    else
      let p := s.newSeq die (s.ctxOf a.ref.wg) k c
      .done ((s.modSeq die (fun q => { q with places := Map.set q.places k p })).putAll a d.toNat (p.handle k))

/-- What SQDEF does with the bytes that it has read. -/
def defineSeq (d : BitVec 8) (die : Nat) (a : Act) (l : List Byte) (s : State) : Out :=
  match (readSeq l).filter (s.seqRefsOk die) with
  | none => .bad (a.operand a.low 7)
  | some c => placeSeq d die a c s

theorem exec_sqdef (h : Hdr) : exec (.sqdef h d x off) s = onceWord h [(x, 1)] [d.toNat] s fun a s =>
    ownBlock 128 128 x off a s (defineSeq d (dieOf (s.coreOf a.ref.wg)) a) := rfl

theorem defineSeq_ok {die : Nat} {l : List Byte} {c : SeqDesc} (formed : readSeq l = some c) (refs : s.seqRefsOk die c = true) :
    defineSeq d die a l s = placeSeq d die a c s := by
  unfold defineSeq
  rw [formed, Option.filter_some_pos refs]

/-- A descriptor that is malformed or names another die or package is refused (R373, R454). -/
theorem defineSeq_refuses {die : Nat} {l : List Byte} (wrong : ∀ c, readSeq l = some c → s.seqRefsOk die c = false) :
    defineSeq d die a l s = .bad (a.operand a.low 7) := by
  have none_fits : (readSeq l).filter (s.seqRefsOk die) = none :=
    Option.filter_eq_none_iff.2 fun c formed => by simp [wrong c formed]
  unfold defineSeq
  rw [none_fits]

theorem placeSeq_full {die : Nat} {c : SeqDesc} (full : s.freePlace die = none) :
    placeSeq d die a c s = .done (s.putAll a d.toNat 1) := by
  unfold placeSeq
  rw [full]

theorem placeSeq_free {die k : Nat} {c : SeqDesc} (free : s.freePlace die = some k) : placeSeq d die a c s =
    .done (if 16384 < s.seqRecords die + c.nsamp then s.putAll a d.toNat 2
      else (s.modSeq die (fun q => { q with places := Map.set q.places k (s.newSeq die (s.ctxOf a.ref.wg) k c) })).putAll a d.toNat
        ((s.newSeq die (s.ctxOf a.ref.wg) k c).handle k)) := by
  unfold placeSeq
  simp only [free]
  split <;> rfl

/-! ### SQGO (R375) -/

/-- What SQGO answers once its latch and register have been checked. -/
def sqgoBody (d : BitVec 8) (x : Src) (a : Act) (s : State) : Out :=
  let die := dieOf (s.coreOf a.ref.wg)
  match s.canStart die (s.ctxOf a.ref.wg) (s.low32 a x) with
  | .error e => .done (s.putAll a d.toNat e)
  | .ok (k, p, l, den, ret) =>
    kicked a s (s.seqScope (s.coreOf a.ref.wg) (s.ctxOf a.ref.wg) p (tabStages l)) fun q v =>
      .done ((((v.rearmDone die den).rearmDone die ret).startSeq die k (some q) none l).putAll a d.toNat 0)

theorem exec_sqgo (h : Hdr) : exec (.sqgo h d x) s = onceWord h [(x, 1)] [d.toNat] s (sqgoBody d x) := rfl

theorem sqgoBody_refused {e : Nat} (refused : s.canStart (dieOf (s.coreOf a.ref.wg)) (s.ctxOf a.ref.wg) (s.low32 a x) = .error e) :
    sqgoBody d x a s = .done (s.putAll a d.toNat e) := by
  unfold sqgoBody
  simp only [refused]

theorem sqgoBody_starts {k den ret : Nat} {p : SeqPlace} {l : List Byte}
    (starts : s.canStart (dieOf (s.coreOf a.ref.wg)) (s.ctxOf a.ref.wg) (s.low32 a x) = .ok (k, p, l, den, ret))
    (leave : s.storesLeave a.ref) : sqgoBody d x a s =
      let die := dieOf (s.coreOf a.ref.wg)
      let q := s.kickFrom a (s.seqScope (s.coreOf a.ref.wg) (s.ctxOf a.ref.wg) p (tabStages l))
      .done ((((q.2.rearmDone die den).rearmDone die ret).startSeq die k (some q.1) none l).putAll a d.toNat 0) := by
  unfold sqgoBody
  simp only [starts]
  exact kicked_leave leave

/-! ### SQSTAT and SQABT (R374, R381) -/

/-- What SQSTAT answers once its latches and register have been checked. -/
def sqstatBody (d : BitVec 8) (x y : Src) (what : BitVec 3) (a : Act) (s : State) : Out :=
  .done (s.putAll a d.toNat (match s.seqNamed (dieOf (s.coreOf a.ref.wg)) (s.ctxOf a.ref.wg) (s.low32 a x) with
    | none => 0xFFFFFFFF
    | some (_, p) => p.stat what.toNat (s.low32 a y)))

theorem exec_sqstat (h : Hdr) (what : BitVec 3) :
    exec (.sqstat h d x y what) s = onceWord h [(x, 1), (y, 1)] [d.toNat] s (sqstatBody d x y what) := rfl

/-- What each selector reads of a sequence or of one of its samples. -/
theorem stat_eq (p : SeqPlace) (what : BitVec 3) (i : Nat) :
    let e := p.samples.getD i default
    p.stat what.toNat i =
      if what = 5 then p.word else if what = 6 then p.rounds
      else if p.samples.length ≤ i then 2 ^ 32 - 1
      else if what = 0 then e.status else if what = 1 then e.t.toNat else if what = 2 then e.h.toNat
      else if what = 3 then e.errprev.toNat else e.acc + e.rej * 2 ^ 16 := by
  have cases_of : ∀ w : BitVec 3, w = 0 ∨ w = 1 ∨ w = 2 ∨ w = 3 ∨ w = 4 ∨ w = 5 ∨ w = 6 ∨ w = 7 := by decide
  unfold SeqPlace.stat
  rcases cases_of what with rfl | rfl | rfl | rfl | rfl | rfl | rfl | rfl <;> rfl

/-- What SQABT answers once its latch and register have been checked. -/
def sqabtBody (d : BitVec 8) (x : Src) (free : Bool) (a : Act) (s : State) : Out :=
  let die := dieOf (s.coreOf a.ref.wg)
  match s.seqNamed die (s.ctxOf a.ref.wg) (s.low32 a x) with
  | none => .done (s.putAll a d.toNat 2)
  | some (k, p) =>
    if p.state == 1 then
      .done ((s.modPlace die k (fun q => { q with abort := true, freeAfter := q.freeAfter || free })).putAll a d.toNat 0)
    else .done ((if free then s.modPlace die k (fun q => { q with defined := false }) else s).putAll a d.toNat 1)

theorem exec_sqabt (h : Hdr) (free : Bool) : exec (.sqabt h d x free) s = onceWord h [(x, 1)] [d.toNat] s (sqabtBody d x free) := rfl

theorem sqabtBody_named {k : Nat} {p : SeqPlace} (free : Bool)
    (named : s.seqNamed (dieOf (s.coreOf a.ref.wg)) (s.ctxOf a.ref.wg) (s.low32 a x) = some (k, p)) : sqabtBody d x free a s =
      let die := dieOf (s.coreOf a.ref.wg)
      .done (if p.state = 1 then
          (s.modPlace die k (fun q => { q with abort := true, freeAfter := q.freeAfter || free })).putAll a d.toNat 0
        else (if free then s.modPlace die k (fun q => { q with defined := false }) else s).putAll a d.toNat 1) := by
  unfold sqabtBody
  simp only [named, beq_iff_eq]
  split <;> rfl

end

/-- Settles O36: the starting words read their descriptor by `collBody_reads` and accept it by `collRecord_accepts`; the words of the
sequencer are branches of their bodies. -/
theorem collectiveAndSequenceWords : Obligations.CollectiveAndSequenceWords := by
  unfold Obligations.CollectiveAndSequenceWords
  refine ⟨fun s h d x off what => ?collective, fun s h d x y tab off what free => ?sequence⟩
  case collective =>
    intro o u g start named
    have starts (i : Instr) (kind : Nat) (he : exec i s = collWord h kind d x off s) : start i kind := by
      intro p c accepts
      have reads {a : Act} {b : State} (ok : accepts a b) : collBody kind d x off a b =
          (if 64 ≤ (u a b).collPlaces (dieOf (b.coreOf (g a))) then .hold (u a b) a.group (.room 64) false
            else startColl d (b.coreOf (g a)) (b.ctxOf (g a)) p c a (u a b)).noting a.ref (b.recordsNote a (o a b) 64 1) := by
        obtain ⟨aligned, place, goes, formed, ofKind, regions, ordered⟩ := ok
        exact (collBody_reads aligned place goes).trans
          (congrArg (Out.noting a.ref _) (collRecord_accepts formed ofKind regions ordered))
      refine ⟨onceDoes_of_onceWord (he.trans (collWord_eq h kind)) fun a b ⟨ok, room, leave⟩ => ?_,
        waits_of_runWord (he.trans (collWord_eq h kind)) fun a b ⟨pass, ok, full⟩ => ?_⟩
      · rw [reads ok, if_neg room.not_ge]
        exact congrArg (Out.noting a.ref _) (kicked_leave leave)
      · refine (unlessFault_pass pass).trans ?_
        rw [reads ok, if_pos full]
        rfl
    refine ⟨starts _ 0 rfl, starts _ 1 rfl, starts _ 2 rfl, starts _ 3 rfl, ?expired, fun e => ?ended, fun e => ?pending, ?cstatExpired,
      fun e => ?cstat⟩
    case expired =>
      refine onceDoes_of_onceWord (exec_cwait h) fun a b expired => ?_
      have none_named : b.namedOp a.ref (b.low32 a x) = none := expired
      rw [cwaitBody, none_named]
    case ended => exact onceDoes_of_onceWord (exec_cwait h) fun a b ⟨found, ended⟩ => cwaitBody_ended found ended
    case pending =>
      exact waits_of_runWord (exec_cwait h) fun a b ⟨pass, found, pending⟩ =>
        (unlessFault_pass pass).trans (cwaitBody_pending found pending)
    case cstatExpired => exact onceDoes_of_onceWord (exec_cstat h what) fun a b expired => cstatBody_expired expired
    case cstat => exact onceDoes_of_onceWord (exec_cstat h what) fun a b found => cstatBody_named found
  case sequence =>
    intro o die u own bytes note busy place named
    refine ⟨?sqtab, fun c => ?full, fun c k => ?places, ?refuses, fun e => ?noStart, fun k p l den ret => ?starts, ?unnamed,
      fun k p => ?sqstat, ?abortNone, fun k p => ?aborts⟩
    case sqtab =>
      exact onceDoes_of_onceWord (exec_sqtab h tab) fun a b ⟨goes, ok⟩ =>
        (ownBlock_goes goes).trans (congrArg (Out.noting a.ref _) (defineTable_ok ok))
    case full =>
      exact onceDoes_of_onceWord (exec_sqdef h) fun a b ⟨goes, formed, refs, full⟩ =>
        (ownBlock_goes goes).trans (congrArg (Out.noting a.ref _) ((defineSeq_ok formed refs).trans (placeSeq_full full)))
    case places =>
      exact onceDoes_of_onceWord (exec_sqdef h) fun a b ⟨goes, formed, refs, free⟩ =>
        (ownBlock_goes goes).trans (congrArg (Out.noting a.ref _) ((defineSeq_ok formed refs).trans (placeSeq_free free)))
    case refuses =>
      exact onceTraps_of_onceWord (exec_sqdef h) fun a b ⟨goes, wrong⟩ =>
        (ownBlock_goes goes).trans (congrArg (Out.noting a.ref _) (defineSeq_refuses wrong))
    case noStart => exact onceDoes_of_onceWord (exec_sqgo h) fun a b refused => sqgoBody_refused refused
    case starts => exact onceDoes_of_onceWord (exec_sqgo h) fun a b ⟨starts, leave⟩ => sqgoBody_starts starts leave
    case unnamed =>
      refine onceDoes_of_onceWord (exec_sqstat h what) fun a b unnamed => ?_
      have none_named : b.seqNamed (dieOf (b.coreOf a.ref.wg)) (b.ctxOf a.ref.wg) (b.low32 a x) = none := unnamed
      rw [sqstatBody, none_named]
      rfl
    case sqstat =>
      refine onceDoes_of_onceWord (exec_sqstat h what) fun a b found => ?_
      have some_named : b.seqNamed (dieOf (b.coreOf a.ref.wg)) (b.ctxOf a.ref.wg) (b.low32 a x) = some (k, p) := found
      rw [sqstatBody, some_named]
      exact congrArg (fun v => Out.done (b.putAll a d.toNat v)) (stat_eq p what (b.low32 a y))
    case abortNone =>
      refine onceDoes_of_onceWord (exec_sqabt h free) fun a b unnamed => ?_
      have none_named : b.seqNamed (dieOf (b.coreOf a.ref.wg)) (b.ctxOf a.ref.wg) (b.low32 a x) = none := unnamed
      rw [sqabtBody, none_named]
    case aborts => exact onceDoes_of_onceWord (exec_sqabt h free) fun a b found => sqabtBody_named free found

end Sys2Proof.Machine
end

/-! ## Taking a trap, entering its handler, and a trap in trap mode (O37) -/
section
namespace Sys2Proof.Machine

/-! ### Taking -/

/-- A fibre in trap mode, with the trap's entry still to go on (step 1 of R389). -/
def Fibre.intoTrap (g : Fibre) (t : TrapInfo) : Fibre :=
  { g.clearLatches with
    trap := some { info := t, lanes := t.group &&& g.live, hregs := Vector.replicate 16 (splat 0), back := g.pcs, gov := g.gov
                   waits := g.waits, waiting := true, stopped := false }
    waits := [] }

theorem clearLatches_latches (g : Fibre) (b : Fin 4) : (g.clearLatches.latches[b]).2 = 0 := by
  simp [Fibre.clearLatches]

theorem takeTrap_outside {s : State} {r : FibRef} {f g : Fibre} (t : TrapInfo) (hf : s.fib r = some f) (outside : f.trap = none)
    (hg : (s.settleLoads r).fib r = some g) : s.takeTrap r t = ((s.settleLoads r).setFib r (g.intoTrap t)).proceedTrap r := by
  unfold State.takeTrap
  simp only [hf, outside, Option.isSome_none, Bool.false_eq_true, if_false, hg, Option.getD_some]
  rfl

theorem takeTrap_inside {s : State} {r : FibRef} {f : Fibre} {z : TrapFrame} (t : TrapInfo) (hf : s.fib r = some f) (hz : f.trap = some z) :
    s.takeTrap r t = s.doubleTrap r t := by
  unfold State.takeTrap
  simp only [hf, hz, Option.isSome_some, if_true]

/-! ### The entry goes on -/

/-- What a trap's record gives besides what its word knows: the masks of the operand log, and where the threads go on. -/
def completedTrap (t : TrapInfo) (w : Fibre) : TrapInfo :=
  { t with w34 := t.w34 ||| BitVec.ofNat 32 w.logMasks
           resume := if t.after then w.resumeOf t.group t.resume else t.resume }

/-- The fibre once its queue has drained: the trap is the one that counts, and its threads' governance ends. -/
def Fibre.entering (w : Fibre) (z : TrapFrame) (n : TrapInfo) (older : Bool) : Fibre :=
  { w with
    trap := some { z with info := n, lanes := n.group &&& w.live }
    gov := z.gov.mapIdx (fun i g => if (n.group &&& w.live).getLsbD i then { g with left := 0 } else g)
    redo := if older then w.redo else none }

theorem entering_gov (w : Fibre) (z : TrapFrame) (n : TrapInfo) (older : Bool) {k : Nat} (small : k < 32)
    (member : (n.group &&& w.live).getLsbD k = true) : ((w.entering z n older).gov.toList.getD k ⟨1, 0, 0⟩).left = 0 := by
  have inside : k < (w.entering z n older).gov.toList.length := by rw [Vector.length_toList]; exact small
  rw [List.getD_eq_getElem _ _ inside, Vector.getElem_toList]
  simp only [Fibre.entering, Vector.getElem_mapIdx, member, if_true]

theorem proceedTrap_waits {v : State} {r : FibRef} {f : Fibre} {z : TrapFrame} (hf : v.fib r = some f) (hz : f.trap = some z)
    (busy : v.arrayBusy r .fibre = true) : v.proceedTrap r = v := by
  have notDone : v.arrayDone r = false := by rw [State.arrayDone, busy]; rfl
  unfold State.proceedTrap
  simp only [hf, Option.bind_some, hz, notDone, Bool.not_false, Bool.or_true, if_true]

theorem proceedTrap_drained {v u : State} {r : FibRef} {f w : Fibre} {z : TrapFrame} {o : Option TrapInfo} (hf : v.fib r = some f)
    (hz : f.trap = some z) (waiting : z.waiting = true) (done : v.arrayBusy r .fibre = false) (drained : v.drain r = (u, o))
    (hw : u.fib r = some w) (noRace : (o.getD z.info).race = []) :
    let n := completedTrap (o.getD z.info) w
    let e := u.setFib r (w.entering z n o.isSome)
    v.proceedTrap r = if e.trapRoom r n.cause then e.enterHandler r n else e := by
  have goes : (!z.waiting || !v.arrayDone r) = false := by rw [State.arrayDone, done, waiting]; rfl
  have plain : (o.getD z.info).race.isEmpty = true := List.isEmpty_iff.2 noRace
  unfold State.proceedTrap
  simp only [hf, Option.bind_some, hz, goes, Bool.false_eq_true, if_false, drained, hw, plain, if_true]
  unfold completedTrap Fibre.entering
  generalize o.getD z.info = t
  cases t.after <;> rfl

/-! ### The handler is entered -/

theorem length_recordBytes (ws : List Word) : (recordBytes ws).length = 4 * ws.length := by
  simp [recordBytes, List.length_flatMap, Nat.mul_comm]

theorem length_trapWords (s : State) (r : FibRef) {t : TrapInfo} (double handled : Bool) (noRace : t.race = []) :
    (s.trapWords r t double handled).length = 16 := by
  simp only [State.trapWords, noRace, List.isEmpty_nil, if_true]
  rfl

theorem enterHandler_vector {s : State} {r : FibRef} {t : TrapInfo} (known : t.cause ≠ 0x28) (vector : (s.launchOf r.wg).trapVec ≠ 0) :
    s.enterHandler r t =
      let ws := s.trapWords r t false true
      let place := if s.hasRing (s.ctxOf r.wg) 0 then s.ringPlace (s.ctxOf r.wg) 0 else 0
      ((s.ringAppend (s.ctxOf r.wg) 0 (recordBytes ws)).bumpSeq (s.coreOf r.wg)).modFib r (fun g => { g with
        trap := g.trap.map (fun y => { y with waiting := false, info := t, hregs := handlerRegs t ws place })
        pcs := g.pcs.mapIdx (fun i p =>
          if (g.trap.map (fun y : TrapFrame => y.lanes.getLsbD i)).getD false then (s.launchOf r.wg).trapVec else p) }) := by
  have handler : s.handlerOf r t.cause = (s.launchOf r.wg).trapVec := by
    rw [State.handlerOf, if_neg (by simpa using known)]
  unfold State.enterHandler
  simp only [handler, bne_iff_ne, ne_eq, vector, known, not_false_eq_true, if_true, beq_iff_eq, if_false, Bool.and_eq_true, true_and]

/-! ### A trap in trap mode -/

theorem ctxOf_hostAppend (s : State) (rcd : List Byte) (g : Nat) : (s.hostAppend rcd).ctxOf g = s.ctxOf g := by
  unfold State.hostAppend State.physWrite State.signal
  dsimp only
  split
  · split <;> split <;> rfl
  · rfl

theorem ctxOf_bumpSeq (s : State) (core g : Nat) : (s.bumpSeq core).ctxOf g = s.ctxOf g := rfl

/-- Settles O37: the fibre that takes a trap is `Fibre.intoTrap`, and `Fibre.entering` once its queue has drained. -/
theorem trapsAreTaken : Obligations.TrapsAreTaken := by
  unfold Obligations.TrapsAreTaken
  refine ⟨⟨fun s r t f g hf outside hg => ?taken, fun v r f z hf hz waiting => ⟨?busy, fun u o w done drained hw noRace => ?drained⟩⟩,
    fun s r t f z _ _ known vector => ⟨fun noRace => ?record, enterHandler_vector known vector⟩, fun s r t f z hf hz => ?double⟩
  case taken =>
    exact ⟨g.intoTrap t, rfl, rfl, rfl, rfl, rfl, rfl, rfl, rfl, clearLatches_latches g, takeTrap_outside t hf outside hg⟩
  case busy => exact proceedTrap_waits hf hz
  case drained =>
    exact ⟨completedTrap (o.getD z.info) w, w.entering z (completedTrap (o.getD z.info) w) o.isSome, rfl, rfl, rfl, rfl, rfl, rfl, rfl, rfl, rfl,
      rfl, rfl, fun k small member => entering_gov w z _ o.isSome small member,
      proceedTrap_drained hf hz waiting done drained hw noRace⟩
  case record =>
    have words := length_trapWords s r false true noRace
    exact ⟨words, by rw [length_recordBytes, words]⟩
  case double =>
    rw [takeTrap_inside t hf hz, State.doubleTrap, ctxOf_bumpSeq, ctxOf_hostAppend]

end Sys2Proof.Machine
end

/-! ## WGSAVE saves a work-group or gives its status (O42) -/
section
namespace Sys2Proof.Machine

section
variable {s b : State} {a : Act} {w z q : WorkGroup} {r : SaveRound} (d : BitVec 8) {x y : Src} (off : BitVec 32)

/-- What WGSAVE answers once its latches and register have been checked. -/
def wgsaveBody (x y : Src) (a : Act) (b : State) : Out :=
  match Map.find b.wgs a.ref.wg with
  | none => .done b
  | some g =>
    match g.owedStatus a.ref.fib a.lanes with
    | some n => .done ((b.tookStatus a.ref a.lanes).putAll a d.toNat n)
    | none =>
      let fresh : SaveRound := { asks := (b.ctx (b.ctxOf a.ref.wg)).request, area := b.lowAddr a x off, size := b.low32 a y
                                 arrived := [], dsts := [] }
      let k := (g.saveRound a.ref.fib a.lanes).getD g.saves.length
      let r := g.saves.getD k fresh
      if b.inTrap a.ref || g.lane || a.gov.left != 0 || r.area != b.lowAddr a x off || r.size != b.low32 a y then .bad (a.operand a.low 9)
      else
        let r := r.arrive a.ref.fib a.lanes d.toNat
        let saves := g.saves.take k ++ [r] ++ g.saves.drop (k + 1)
        let v := b.modWg a.ref.wg (fun y => { y with saves := saves.filter (fun z => z.asks || !g.allArrived z) })
        if !r.asks then .done (v.putAll a d.toNat 0)
        else if g.allArrived r && g.firstFibre == some a.ref.fib then v.performSave a r d.toNat
        else .hold v a.lanes .save true

theorem exec_wgsave (h : Hdr) :
    exec (.wgsave h d x y off) s = onceWord (atPoint h) [(x, 2), (y, 1)] [d.toNat] s (wgsaveBody d off x y) := rfl

theorem wgsaveBody_owed {n : Nat} (found : Map.find b.wgs a.ref.wg = some w) (owed : w.owedStatus a.ref.fib a.lanes = some n) :
    wgsaveBody d off x y a b = .done ((b.tookStatus a.ref a.lanes).putAll a d.toNat n) := by
  unfold wgsaveBody
  simp only [found, owed]

/-- The round that threads open who arrive first. -/
def firstRound (d : BitVec 8) (off : BitVec 32) (x y : Src) (a : Act) (b : State) : SaveRound :=
  { asks := (b.ctx (b.ctxOf a.ref.wg)).request, area := b.lowAddr a x off, size := b.low32 a y
    arrived := [(a.ref.fib, a.lanes)], dsts := [(a.ref.fib, d.toNat)] }

/-- The state with that round, which is forgotten where every thread has arrived at it and nobody asks to save. -/
def firstArrival (d : BitVec 8) (off : BitVec 32) (x y : Src) (w : WorkGroup) (a : Act) (b : State) : State :=
  b.modWg a.ref.wg (fun z => { z with saves := [firstRound d off x y a b].filter (fun q => q.asks || !w.allArrived q) })

theorem arrive_first (r : SaveRound) (k : Nat) (m : Mask) (n : Nat) (none_yet : r.arrived = []) (no_dsts : r.dsts = []) :
    r.arrive k m n = { r with arrived := [(k, m)], dsts := [(k, n)] } := by
  simp [SaveRound.arrive, SaveRound.arrivedOf, none_yet, no_dsts, Map.set]

theorem wgsaveBody_first (found : Map.find b.wgs a.ref.wg = some w) (noStatus : w.owedStatus a.ref.fib a.lanes = none)
    (outside : b.inTrap a.ref = false) (noLane : w.lane = false) (ungoverned : a.gov.left = 0) (noSave : w.saves = []) :
    wgsaveBody d off x y a b =
      if (b.ctx (b.ctxOf a.ref.wg)).request = false then .done ((firstArrival d off x y w a b).putAll a d.toNat 0)
      else if w.allArrived (firstRound d off x y a b) && w.firstFibre == some a.ref.fib then
        (firstArrival d off x y w a b).performSave a (firstRound d off x y a b) d.toNat
      else .hold (firstArrival d off x y w a b) a.lanes .save true := by
  unfold wgsaveBody
  simp only [found, noStatus, outside, noLane, ungoverned, noSave, WorkGroup.saveRound, List.findIdx?_nil, Option.getD_none,
    List.length_nil, List.getD_nil, bne_self_eq_false, Bool.or_self, Bool.false_eq_true, if_false, List.take_nil, List.drop_nil,
    List.nil_append, List.append_nil, arrive_first, Bool.not_eq_true']
  rfl

/-! ### The save -/

theorem performSave_small (found : Map.find s.wgs a.ref.wg = some z) (small : r.area % 4096 ≠ 0 ∨ r.size < s.saveSize z) (n : Nat) :
    s.performSave a r n = s.endSave a r n 2 := by
  unfold State.performSave
  simp only [found, bne_iff_ne, ne_eq, decide_eq_true_eq, Bool.or_eq_true, small, if_true]

theorem performSave_saves (found : Map.find s.wgs a.ref.wg = some z) (fits : ¬ (r.area % 4096 ≠ 0 ∨ r.size < s.saveSize z)) (n : Nat)
    (leave : s.storesLeave a.ref) :
    let u := (s.drain a.ref).1.drainAll a.ref.wg
    u.logsClear a.ref.wg = true → u.quiet a.ref.wg = true → u.faultedCard a.ref.wg = false →
    let e := u.probeRange (u.agent a.ref.wg) .write r.area (u.saveSize z)
    e.1 = none → Map.find e.2.wgs a.ref.wg = some q → s.performSave a r n = .done (e.2.saveNow a q r) := by
  intro u clear quiet sound e probed still
  unfold State.performSave
  simp only [found, bne_iff_ne, ne_eq, decide_eq_true_eq, Bool.or_eq_true, fits, if_false]
  rw [afterStores_leave leave]
  have noFault : u.probeRange (u.agent a.ref.wg) .write r.area (u.saveSize z) = (none, e.2) := Prod.ext probed rfl
  have drained : (s.drain a.ref).1.drainAll a.ref.wg = u := rfl
  simp only [drained, clear, quiet, sound, Bool.not_true, Bool.false_eq_true, or_self, if_false, noFault, still]

end

/-- Settles O42: `wgsaveBody_first` says what threads do that arrive first, `performSave_small` and `performSave_saves` what the fibre
does that performs the save. -/
theorem workGroupsAreSaved : Obligations.WorkGroupsAreSaved := by
  unfold Obligations.WorkGroupsAreSaved
  intro s h d x y off area ask r first v srcs saves small drained
  have body {w : WorkGroup} {a : Act} {b : State} (arrives : first w a b) : wgsaveBody d off x y a b =
      if ask a b = false then .done ((v w a b).putAll a d.toNat 0)
      else if w.allArrived (r a b) && w.firstFibre == some a.ref.fib then (v w a b).performSave a (r a b) d.toNat
      else .hold (v w a b) a.lanes .save true := by
    obtain ⟨found, noStatus, outside, noLane, ungoverned, noSave⟩ := arrives
    exact wgsaveBody_first d off found noStatus outside noLane ungoverned noSave
  have performs {w : WorkGroup} {a : Act} {b : State} (ok : saves w a b) :
      wgsaveBody d off x y a b = (v w a b).performSave a (r a b) d.toNat := by
    obtain ⟨arrives, asked, all, lowest⟩ := ok
    rw [body arrives, if_neg (by simp [asked]), if_pos (by simp [all, lowest])]
  refine ⟨fun w n => ?owed, fun w => ?unasked, fun w => ?waits, fun w z => ?small, fun w z q => ?saved⟩
  case owed => exact onceDoes_of_onceWord (exec_wgsave d off h) fun a b ⟨found, owed⟩ => wgsaveBody_owed d off found owed
  case unasked =>
    exact onceDoes_of_onceWord (exec_wgsave d off h) fun a b ⟨arrives, unasked⟩ => (body arrives).trans (if_pos unasked)
  case waits =>
    refine waits_of_runWord (exec_wgsave d off h) fun a b ⟨pass, arrives, asked, missing⟩ => ?_
    refine Eq.trans (b := wgsaveBody d off x y a b) ?_ ?_
    · exact unlessFault_pass pass
    · rw [body arrives, if_neg (by simp [asked]), if_neg (by simp [missing])]
  case small =>
    exact onceDoes_of_onceWord (exec_wgsave d off h) fun a b ⟨ok, found, tooSmall⟩ =>
      (performs ok).trans (performSave_small found tooSmall _)
  case saved =>
    exact onceDoes_of_onceWord (exec_wgsave d off h) fun a b ⟨ok, found, fits, leave, clear, quiet, sound, probed, still⟩ =>
      (performs ok).trans (performSave_saves found fits _ leave clear quiet sound probed still)

end Sys2Proof.Machine
end

/-! ## The collective engine and the sequencer proceed (O49) -/
section
namespace Sys2Proof.Machine

/-! ### Operations of the collective engine -/

section
variable {s : State} {die op : Nat} {o : CollOp}

theorem exec_streamRow (found : s.opAt die op = some o) : exec (.streamRow die op) s =
    .next (match s.readyRow o with
      | some r => s.modOp die o.ctx o.handle (fun y => { y with staged := y.staged.filter (· != r) })
      | none => s) := by
  have he : exec (.streamRow die op) s = execStreamRow die op s := rfl
  rw [he, execStreamRow, found] <;> rfl

theorem exec_collectiveComplete (found : s.opAt die op = some o) : exec (.collectiveComplete die op) s =
    .next (if !o.pending || (s.opFault die o).isSome then s
      else match o.out with
        | some l => s.deliverOp die o l
        | none =>
          if s.cutOff o then s.endAll o 3 2
          else if o.members.isEmpty || !(s.allIn o) || (s.conflict o).isSome then s
          else if o.members.any (fun e => e.1 != s.pkg) && !(Config.freeBit s.draw.1) then s.draw.2 else (s.draw.2.reduceOp o).2) := by
  have he : exec (.collectiveComplete die op) s = execCollectiveComplete die op s := rfl
  rw [he, execCollectiveComplete, found]
  rfl

/-- A contribution that is under way and that no memory fault stops: its output goes out, or its operation goes on. -/
theorem exec_collectiveComplete_pending (found : s.opAt die op = some o) (pending : o.pending = true) (sound : s.opFault die o = none) :
    exec (.collectiveComplete die op) s =
      .next (match o.out with
        | some l => s.deliverOp die o l
        | none =>
          if s.cutOff o then s.endAll o 3 2
          else if o.members.isEmpty || !(s.allIn o) || (s.conflict o).isSome then s
          else if o.members.any (fun e => e.1 != s.pkg) && !(Config.freeBit s.draw.1) then s.draw.2 else (s.draw.2.reduceOp o).2) := by
  rw [exec_collectiveComplete found, if_neg (by simp [pending, sound])]

theorem exec_collectiveFault (found : s.opAt die op = some o) (reason : Nat) : exec (.collectiveFault die op reason) s =
    .next (if !o.pending then s
      else if reason == 1 then
        match s.opFault die o with
        | some (d, x) => s.collMemFault d x
        | none => s
      else if reason == 2 then (if o.out.isSome then s else s.endAll o 3 2)
      else s) := by
  have he : exec (.collectiveFault die op reason) s = execCollectiveFault die op reason s := rfl
  rw [he, execCollectiveFault, found] <;> rfl

theorem exec_collectiveRefused (found : s.opAt die op = some o) (reason : Nat) : exec (.collectiveRefused die op reason) s =
    .next (if !o.pending || o.out.isSome then s else s.endAll o 2 ((s.conflict o).getD (if reason == 4 then 4 else 2))) := by
  have he : exec (.collectiveRefused die op reason) s = execCollectiveRefused die op reason s := rfl
  rw [he, execCollectiveRefused, found]

theorem collectiveComplete_reduces (found : s.opAt die op = some o) (pending : o.pending = true) (sound : s.opFault die o = none)
    (inputs : o.out = none) (reached : s.cutOff o = false) (members : o.members ≠ []) (all : s.allIn o = true) (agree : s.conflict o = none)
    (ours : ∀ e ∈ o.members, e.1 = s.pkg) : exec (.collectiveComplete die op) s = .next (s.draw.2.reduceOp o).2 := by
  have isReady : (o.members.isEmpty || !(s.allIn o) || (s.conflict o).isSome) = false := by simp [members, all, agree]
  have noOther : o.members.any (fun e => e.1 != s.pkg) = false := by simpa using ours
  rw [exec_collectiveComplete_pending found pending sound]
  simp only [inputs, reached, isReady, noOther, Bool.false_and, Bool.false_eq_true, if_false]

end

/-! ### A collective node, and lost members -/

theorem exec_collectiveNodeDispatch_notReady {s : State} {die node : Nat} (notReady : s.readyNode die node 3 = false) :
    exec (.collectiveNodeDispatch die node) s = .next s := by
  have he : exec (.collectiveNodeDispatch die node) s = execCollectiveNodeDispatch die node s := rfl
  rw [he, execCollectiveNodeDispatch, if_neg (by simp [notReady])]

theorem exec_collectiveNodeDispatch_accepts {s u : State} {die node : Nat} {l : List Byte} {c : CollDesc}
    (ready : s.readyNode die node 3 = true) (place : s.collPlaces die < 64) (aligned : (s.node die node).payload % 64 = 0)
    (reads : (s.startNode die node).engineRead die (s.node die node).ctx (s.node die node).payload 64 = (.ok l, u))
    (formed : readColl l = some c) (global : c.sspace = false ∧ c.dspace = false) : exec (.collectiveNodeDispatch die node) s =
      .next (u.acceptColl die (s.node die node).ctx c (s.node die node).payload false 0 (die * Config.coresPerDie) 0 none (some node)).2 := by
  have inMemory : (some c).filter (fun d => !d.sspace && !d.dspace) = some c :=
    Option.filter_eq_some_iff.2 ⟨rfl, by simp [global.1, global.2]⟩
  have he : exec (.collectiveNodeDispatch die node) s = execCollectiveNodeDispatch die node s := rfl
  rw [he, execCollectiveNodeDispatch, if_pos (by simp [ready, place])]
  simp only [aligned, beq_self_eq_true, if_true, reads, formed, inMemory]

theorem exec_linkDown (s : State) (die port : Nat) :
    let u : State := if 4 * die + port ∈ s.linksDown then s else { s with linksDown := (4 * die + port) :: s.linksDown }
    exec (.linkDown die port) s = .next (u.loseMembers (fun _ o => u.cutOff o)) := by
  have he : exec (.linkDown die port) s = execLinkDown die port s := rfl
  rw [he, execLinkDown]
  simp only [List.contains_iff_mem]

theorem exec_ualinkDomain (s : State) (die p : Nat) (joins : Bool) :
    let u : State := { s with
      peers := if joins then (if s.peers.contains p || p == s.pkg then s.peers else s.peers ++ [p]) else s.peers.filter (· != p)
      dies := s.dies.map (fun (d, x) => (d, { x with coll := { x.coll with ops := x.coll.ops.map (fun (o : CollOp) =>
        if o.status = 0 ∧ o.desc.stream = true ∧ o.desc.bucket ≠ 0 then { o with fallback := true } else o) } })) }
    exec (.ualinkDomainJoinOrLeave die p joins) s = .next (if joins then u else u.loseMembers (fun _ o => o.members.contains (p, die))) := by
  have he : exec (.ualinkDomainJoinOrLeave die p joins) s = execUalinkDomainJoinOrLeave die p joins s := rfl
  rw [he, execUalinkDomainJoinOrLeave]
  simp only [CollOp.pending, Bool.and_eq_true, beq_iff_eq, bne_iff_ne, and_assoc]

/-! ### Nodes of a sequence -/

section
variable {s : State} {die node : Nat}

theorem exec_sequenceStartNode (ready : s.readyNode die node 2 = true) (starts : bit (s.node die node).payload 32 = true) :
    exec (.sequenceStartNode die node) s =
      .next (match (s.startNode die node).canStart die (s.node die node).ctx ((s.node die node).payload % 2 ^ 32) with
        | .error _ => (s.startNode die node).unitDone die node
        | .ok (k, _, tab, den, ret) =>
          (((s.startNode die node).rearmDone die den).rearmDone die ret).startSeq die k none (some node) tab) := by
  have he : exec (.sequenceStartNode die node) s = execSequenceStartNode die node s := rfl
  rw [he, execSequenceStartNode, if_pos (by simp [ready, starts])] <;> rfl

theorem exec_sequenceStartNode_return (returns : bit (s.node die node).payload 32 = false) :
    exec (.sequenceStartNode die node) s = .next s := by
  have he : exec (.sequenceStartNode die node) s = execSequenceStartNode die node s := rfl
  rw [he, execSequenceStartNode, if_neg (by simp [returns])]

theorem exec_returnNodeDispatch_start (starts : bit (s.node die node).payload 32 = true) :
    exec (.returnNodeDispatch die node) s = .next s := by
  have he : exec (.returnNodeDispatch die node) s = execReturnNodeDispatch die node s := rfl
  rw [he, execReturnNodeDispatch, if_neg (by simp [starts])]

/-- What the return node of a waiting sequence does once the sequence has gone on from its wait. -/
def State.takeStage (u : State) (die k : Nat) (p : SeqPlace) : State :=
  if p.abort then u
  else match u.takeOutputs die p with
    | (some a, v) => v.modPlace die k (fun q => q.failAt a)
    | (none, v) => (v.modPlace die k (fun q => { q with
        samples := if q.stage == 0 then q.samples.mapIdx (fun i y => if q.active.contains i then { y with k0 := true } else y)
          else q.samples })).afterStage die k

theorem exec_returnNodeDispatch (ready : s.readyNode die node 2 = true) (returns : bit (s.node die node).payload 32 = false) :
    exec (.returnNodeDispatch die node) s =
      .next (match ((s.startNode die node).seqNamed die (s.node die node).ctx ((s.node die node).payload % 2 ^ 32)).filter
          (fun e => e.2.state == 1 && e.2.waiting) with
        | none => (s.startNode die node).unitDone die node
        | some (k, p) =>
          (((s.startNode die node).setNode die node { (s.startNode die node).node die node with rearm := true }).modPlace die k (fun q =>
            { q with waiting := false, retNode := some node })).takeStage die k p) := by
  have he : exec (.returnNodeDispatch die node) s = execReturnNodeDispatch die node s := rfl
  rw [he, execReturnNodeDispatch, if_pos (by simp [ready, returns])]
  rfl

theorem exec_returnNodeDispatch_idle (ready : s.readyNode die node 2 = true) (returns : bit (s.node die node).payload 32 = false)
    (idle : ∀ k p, (s.startNode die node).seqNamed die (s.node die node).ctx ((s.node die node).payload % 2 ^ 32) = some (k, p) →
      ¬ (p.state = 1 ∧ p.waiting = true)) : exec (.returnNodeDispatch die node) s = .next ((s.startNode die node).unitDone die node) := by
  have nobody : ((s.startNode die node).seqNamed die (s.node die node).ctx ((s.node die node).payload % 2 ^ 32)).filter
      (fun e => e.2.state == 1 && e.2.waiting) = none :=
    Option.filter_eq_none_iff.2 fun ⟨k, p⟩ named => by simpa using idle k p named
  rw [exec_returnNodeDispatch ready returns, nobody]

theorem exec_returnNodeDispatch_waiting {k : Nat} {p : SeqPlace} (ready : s.readyNode die node 2 = true)
    (returns : bit (s.node die node).payload 32 = false)
    (named : (s.startNode die node).seqNamed die (s.node die node).ctx ((s.node die node).payload % 2 ^ 32) = some (k, p))
    (running : p.state = 1) (waits : p.waiting = true) : exec (.returnNodeDispatch die node) s =
      .next ((((s.startNode die node).setNode die node { (s.startNode die node).node die node with rearm := true }).modPlace die k (fun q =>
        { q with waiting := false, retNode := some node })).takeStage die k p) := by
  have it : ((s.startNode die node).seqNamed die (s.node die node).ctx ((s.node die node).payload % 2 ^ 32)).filter
      (fun e => e.2.state == 1 && e.2.waiting) = some (k, p) :=
    Option.filter_eq_some_iff.2 ⟨named, by simp [running, waits]⟩
  rw [exec_returnNodeDispatch ready returns, it]

end

/-! ### Stages of a sequence, and its end -/

section
variable {s u : State} {die k : Nat} {p : SeqPlace}

theorem exec_stageInputs_notDue (found : s.seqPlace die k = some p) (notDue : p.stageDue = false) :
    exec (.stageInputs die k) s = .next s := by
  have he : exec (.stageInputs die k) s = execStageInputs die k s := rfl
  rw [he, execStageInputs, found]
  simp only [notDue, Bool.not_false, if_true]

theorem exec_stageInputs_faults {a : Nat} (found : s.seqPlace die k = some p) (due : p.stageDue = true)
    (faults : s.putStageInputs die k p = (some a, u)) :
    exec (.stageInputs die k) s = .next (u.modPlace die k (fun q => q.failAt a)) := by
  have he : exec (.stageInputs die k) s = execStageInputs die k s := rfl
  rw [he, execStageInputs, found]
  simp only [due, Bool.not_true, Bool.false_eq_true, if_false, faults]

theorem exec_stageInputs_posts {n : Nat} {x : Node} (found : s.seqPlace die k = some p) (due : p.stageDue = true)
    (put : s.putStageInputs die k p = (none, u)) (den : u.nodeOn die p.ctx p.desc.den = some (n, x)) (seedbed : x.kind = 1)
    (usable : x.usable = true) (returns : u.returns die k p = true) (noNode : p.retNode = none) : exec (.stageInputs die k) s =
      .next (((u.rearmDone die n).enginePost die p.ctx p.desc.den).modPlace die k (fun q => { q with waiting := true, retNode := none })) := by
  have he : exec (.stageInputs die k) s = execStageInputs die k s := rfl
  rw [he, execStageInputs, found]
  simp only [due, Bool.not_true, Bool.false_eq_true, if_false, put, den, seedbed, usable, returns, beq_self_eq_true, Bool.and_self, if_true,
    noNode]

theorem exec_sequenceEnd_notDue (found : s.seqPlace die k = some p) (notDue : p.due = none) : exec (.sequenceEnd die k) s = .next s := by
  have he : exec (.sequenceEnd die k) s = execSequenceEnd die k s := rfl
  rw [he, execSequenceEnd, found]
  simp only [notDue]

theorem exec_sequenceEnd {st reason addr : Nat} (found : s.seqPlace die k = some p) (due : p.due = some (st, reason, addr))
    (noDone : p.desc.doneaddr = 0) : exec (.sequenceEnd die k) s = .next (s.endSeq die k p st reason addr) := by
  have he : exec (.sequenceEnd die k) s = execSequenceEnd die k s := rfl
  rw [he, execSequenceEnd, found]
  simp only [due, noDone, beq_self_eq_true, Bool.true_or, if_true]

end

/-- Settles O49: each step by the equation of its event, in the branch that the premises of its clause choose. -/
theorem collectivesAndSequencesProceed : Obligations.CollectivesAndSequencesProceed := by
  unfold Obligations.CollectivesAndSequencesProceed
  refine ⟨fun s die op o found => ?collective, fun s die node => ⟨exec_collectiveNodeDispatch_notReady, fun l u c ready place aligned reads
      formed source dest => exec_collectiveNodeDispatch_accepts ready place aligned reads formed ⟨source, dest⟩⟩,
    fun s die port => ⟨exec_linkDown s die port, exec_ualinkDomain s die⟩, fun s die node => ?nodes, fun s die place p found => ?stages⟩
  case collective =>
    refine ⟨fun r ready => ?row, fun none_ready => ?noRow, fun ended => ⟨?completeEnded, fun k => ⟨?faultEnded, ?refusedEnded⟩⟩,
      fun l pending sound out => ?delivers, fun pending sound inputs cut => ?cutOff,
      fun pending sound inputs reached members all agree ours =>
        collectiveComplete_reduces found pending sound inputs reached members all agree ours,
      fun d x pending faults => ?memFault, fun pending inputs => ⟨?lost, fun k agree => ?refused, fun k n conflict => ?conflict⟩⟩
    case row => rw [exec_streamRow found, ready]
    case noRow => rw [exec_streamRow found, none_ready]
    case completeEnded => rw [exec_collectiveComplete found, if_pos (by simp [ended])]
    case faultEnded => rw [exec_collectiveFault found, if_pos (by simp [ended])]
    case refusedEnded => rw [exec_collectiveRefused found, if_pos (by simp [ended])]
    case delivers => rw [exec_collectiveComplete_pending found pending sound, out]
    case cutOff =>
      rw [exec_collectiveComplete_pending found pending sound, inputs]
      exact congrArg Host.Outcome.next (if_pos cut)
    case memFault =>
      rw [exec_collectiveFault found, if_neg (by simp [pending]), if_pos (by decide), faults]
      rfl
    case lost => rw [exec_collectiveFault found, if_neg (by simp [pending]), if_neg (by decide), if_pos (by decide), if_neg (by simp [inputs])]
    case refused =>
      rw [exec_collectiveRefused found, if_neg (by simp [pending, inputs]), agree]
      simp only [Option.getD_none, beq_iff_eq]
    case conflict =>
      rw [exec_collectiveRefused found, if_neg (by simp [pending, inputs]), conflict]
      rfl
  case nodes =>
    refine ⟨fun ready starts => ⟨fun e refused => ?notStarted, fun k p tab den ret ok => ?started, exec_returnNodeDispatch_start starts⟩,
      fun ready returns => ⟨exec_sequenceStartNode_return returns, exec_returnNodeDispatch_idle ready returns,
        fun k p u named running waits hu => ?waiting⟩⟩
    case notStarted => rw [exec_sequenceStartNode ready starts, refused]
    case started => rw [exec_sequenceStartNode ready starts, ok]
    case waiting =>
      have step : exec (.returnNodeDispatch die node) s = .next (u.takeStage die k p) :=
        hu ▸ exec_returnNodeDispatch_waiting ready returns named running waits
      rw [step, State.takeStage]
      refine ⟨fun aborts => by rw [if_pos aborts], fun a v goesOn takes => ?_, fun v goesOn takes _ => ?_⟩
      all_goals rw [if_neg (by simp [goesOn]), takes]
  case stages =>
    exact ⟨exec_stageInputs_notDue found, fun a u due faults => exec_stageInputs_faults found due faults,
      fun u n x due put den seedbed usable returns noNode => exec_stageInputs_posts found due put den seedbed usable returns noNode,
      exec_sequenceEnd_notDue found, fun st reason addr due noDone => exec_sequenceEnd found due noDone⟩

end Sys2Proof.Machine
end
